-- ==== Sys2Proof/Word.lean ====
section
/-! DEFINITION. Word types of the Jallaoc J96 (spec 00 R3, R5; 03 R46). -/

namespace Sys2Proof

/-- A byte of memory. -/
abbrev Byte := BitVec 8
/-- A v-register (00 R3, Table 4). -/
abbrev W32 := BitVec 32
/-- An s-, g- or k-register, or a control register (00 R3). -/
abbrev W64 := BitVec 64
/-- An instruction word (03 R46). -/
abbrev IWord := BitVec 128
/-- A lane mask: bit l is lane l of the gang (01 R13). -/
abbrev LaneMask := BitVec 32

/-- A sparse map from natural keys: pairs in strictly rising key order. Where the map has a default value no
entry holds it, so that equal maps are equal lists. -/
abbrev SMap (α : Type) := List (Nat × α)

end Sys2Proof
end

