-- ==== Sys2Proof/Config.lean ====
section
/-! DEFINITION. Free values and constants of one device: values that the spec leaves open. Each is opaque, so no
statement can rest on what it is; the assumption log names the entry that declares each. -/

namespace Sys2Proof.Config

/-- Hidden choices of the hardware that the spec leaves free, one for each use of the counter (log 4). -/
opaque freeNat : Nat → Nat
/-- A free 32-bit value, one for each use of the counter (log 4). -/
opaque freeW32 : Nat → W32
/-- A free 64-bit value, one for each use of the counter (log 4). -/
opaque freeW64 : Nat → W64
/-- A free bit, one for each use of the counter (log 4). -/
opaque freeBool : Nat → Bool
/-- Bytes whose content the spec does not give (SPDM responses, certificates, bitstreams) (log 4). -/
opaque freeByte : Nat → Nat → Byte
/-- A byte of a memory line read through another key than the one that encrypted it: material written, material read,
address, and the 16-byte block that AES-XTS decrypts as one (18 R372, log 7). -/
opaque wrongKeyByte : Nat → Nat → Nat → List Byte → Byte
/-- The hash of a destination's fabric address and PA[51:7] by which a transfer takes its link (20 R384, log 50). -/
opaque linkHash : Nat → Nat → Nat
/-- AES-256-GCM of a key slot's material over an initial vector and ciphertext: the tag and the plaintext
(12 R270, log 9). -/
opaque gcmTag : Nat → Nat → List Byte → Nat
opaque gcmPlain : Nat → Nat → List Byte → List Byte
/-- SHAKE256 with a 64-byte output (18 R364, R371, log 9). -/
opaque shake256 : List Byte → List Byte
/-- Ed448 verification under a public key: key, message, signature (18 R364, log 9). -/
opaque ed448Verify : List Byte → List Byte → List Byte → Bool
/-- Ed448 signature by the device key (18 R371, log 9). -/
opaque ed448Sign : List Byte → List Byte
/-- The public key carried with a firmware image whose hash is fused (18 R364, log 9). -/
opaque imageKey : List Byte
/-- The fused SHAKE256 hash of the public key, and the fused minimum security version (18 R364, log 9). -/
opaque fusedKeyHash : List Byte
opaque fusedMinSecurity : Nat
/-- The boot ROM's version, as a measurement holds it (18 R371, log 9). -/
opaque bootRomVersion : List Byte
/-- The effect of one step of loaded microcode on the registers it declares: entry, step number, register values
(09 R212, log 10). -/
opaque mcodeStep : Nat → Nat → List W32 → List W32

end Sys2Proof.Config
end

