-- ==== Sys2Proof/Syntax.lean ====
section
/-! DEFINITION. Instructions, tasks and machine events: one constructor of `Instr` for each row of
spec/opcode_table.json. A core word carries every bit of its layout (03 Tables 21 to 29), reserved bits included, so
that the checks of 03 R71 can be made on it; an event carries what identifies it. -/

namespace Sys2Proof

/-- CTRL layout, 03 Table 22. -/
structure CtrlW where
  g : BitVec 4
  vd : BitVec 8
  va : BitVec 8
  sd : BitVec 6
  sa : BitVec 6
  vx : BitVec 1
  ea : BitVec 1
  pma : BitVec 8
  rsv1 : BitVec 21
  i : BitVec 1
  rsv2 : BitVec 20
  imm : BitVec 32
  deriving DecidableEq, Repr

/-- SCAL layout, 03 Table 23. -/
structure ScalW where
  g : BitVec 4
  sd : BitVec 6
  sa : BitVec 6
  sb : BitVec 6
  sc : BitVec 6
  vr : BitVec 8
  pmv : BitVec 8
  ev : BitVec 1
  aux : BitVec 4
  rsv1 : BitVec 14
  i : BitVec 1
  rsv2 : BitVec 20
  imm : BitVec 32
  deriving DecidableEq, Repr

/-- Layout V (VSGL, XLANE), 03 Table 21. -/
structure VecW where
  g : BitVec 4
  d : BitVec 8
  a : BitVec 8
  pma : BitVec 8
  b : BitVec 8
  pmb : BitVec 8
  c : BitVec 8
  pmc : BitVec 8
  ea : BitVec 1
  eb : BitVec 1
  ec : BitVec 1
  i : BitVec 1
  t : BitVec 4
  u : BitVec 4
  rm : BitVec 3
  pd : BitVec 3
  s : BitVec 6
  imm : BitVec 32
  deriving DecidableEq, Repr

/-- MEM layout, 03 Table 24. -/
structure MemW where
  g : BitVec 4
  vd : BitVec 8
  va : BitVec 8
  pma : BitVec 8
  vb : BitVec 8
  pmb : BitVec 8
  sb : BitVec 6
  sp : BitVec 2
  pl : BitVec 2
  wd : BitVec 3
  ao : BitVec 4
  od : BitVec 3
  sc : BitVec 3
  cm : BitVec 3
  vx : BitVec 1
  sx : BitVec 1
  ed : BitVec 1
  ea : BitVec 1
  eb : BitVec 1
  nb : BitVec 1
  rsv : BitVec 8
  imm : BitVec 32
  deriving DecidableEq, Repr

/-- MMA layout, 03 Table 25. -/
structure MmaW where
  g : BitVec 4
  vd : BitVec 8
  va : BitVec 8
  vb : BitVec 8
  vst : BitVec 8
  sk : BitVec 6
  sa0 : BitVec 6
  sa1 : BitVec 6
  sb0 : BitVec 6
  sb1 : BitVec 6
  as : BitVec 1
  bs : BitVec 1
  fa : BitVec 4
  fb : BitVec 4
  win : BitVec 1
  fd : BitVec 4
  tr : BitVec 1
  ea : BitVec 1
  eb : BitVec 1
  imm : BitVec 32
  deriving DecidableEq, Repr

/-- MACRO layout, 03 Table 26. -/
structure MacroW where
  g : BitVec 4
  vs : BitVec 8
  vi : BitVec 8
  vo : BitVec 8
  s0 : BitVec 6
  s1 : BitVec 6
  s2 : BitVec 6
  mods : BitVec 8
  ei : BitVec 1
  rsv : BitVec 29
  imm : BitVec 32
  deriving DecidableEq, Repr

/-- SYNC layout, 03 Table 27. -/
structure SyncW where
  g : BitVec 4
  vd : BitVec 8
  va : BitVec 8
  pma : BitVec 8
  sd : BitVec 6
  sa : BitVec 6
  gr : BitVec 5
  aux : BitVec 4
  pd : BitVec 3
  ea : BitVec 1
  rsv1 : BitVec 10
  i : BitVec 1
  rsv2 : BitVec 20
  imm : BitVec 32
  deriving DecidableEq, Repr

/-- ENG layout, 03 Table 28. -/
structure EngW where
  g : BitVec 4
  ss : BitVec 6
  sd : BitVec 6
  sn : BitVec 6
  sg : BitVec 6
  sv : BitVec 6
  acq : BitVec 1
  rel : BitVec 1
  sc : BitVec 3
  ssp : BitVec 2
  dsp : BitVec 2
  fst : BitVec 8
  sig : BitVec 1
  vr : BitVec 8
  rt : BitVec 1
  two : BitVec 1
  rsv : BitVec 22
  imm : BitVec 32
  deriving DecidableEq, Repr

/-- One half of a VPAIR word, 03 Table 29. -/
structure HalfW where
  cop : BitVec 7
  g : BitVec 4
  d : BitVec 8
  a : BitVec 8
  b : BitVec 8
  c : BitVec 8
  cnd : BitVec 3
  ea : BitVec 1
  eb : BitVec 1
  ec : BitVec 1
  pms : BitVec 8
  rsv : BitVec 3
  deriving DecidableEq, Repr

/-- A VPAIR word, 03 R60. -/
structure PairW where
  sh : BitVec 1
  rsv : BitVec 3
  x : HalfW
  y : HalfW
  deriving DecidableEq, Repr

/-- TASK layout, 16 Table 116 (without class and opcode). -/
structure TaskW where
  early : BitVec 1
  outs : BitVec 1
  pri : BitVec 2
  ta : BitVec 6
  tb : BitVec 6
  ka : BitVec 6
  kb : BitVec 6
  kc : BitVec 6
  kd : BitVec 6
  fmt : BitVec 4
  sub : BitVec 4
  nb : BitVec 4
  rsv : BitVec 32
  imm : BitVec 32
  deriving DecidableEq, Repr

/-- A binding word, 16 Table 117. -/
structure BindW where
  mark : BitVec 12
  mode : BitVec 2
  t : BitVec 6
  ko : BitVec 6
  kl : BitVec 6
  whole : BitVec 1
  res : BitVec 1
  rsv : BitVec 94
  deriving DecidableEq, Repr

/-- The control pages of the device: hub, package partition, cluster, core, L2 slice, the heartbeat page (18 R362); and
what firmware or the host sets though the spec gives it no address: the translation root of tenant t (14 R293) at 8t,
PKG.INDEX (20 R385) at 0x1000, the links that reach the package with fabric address a (20 R385) at 0x100000 + 8a. -/
inductive Page where
  | hub
  | part (p : Nat)
  | cluster (c : Nat)
  | core (c : Nat)
  | slice (s : Nat)
  | heart
  | unplaced
  deriving DecidableEq, Repr

/-- Who writes a register: the access code PRW names the privilege (00 R6). The host writes through a function, 0 for PF0 and
p + 1 for the VF of partition p (18 R369); a program is that of a gang. -/
inductive Writer where
  | host (fn : Nat)
  | firmware
  | program (gang : Nat)
  deriving DecidableEq, Repr

/-- A Pacer notice, 20 Table 155. -/
structure Notice where
  group : Nat
  sender : Nat
  kind : Nat
  limit : Nat
  seq : Nat
  sent : Nat
  eff : Nat
  snap : List Nat
  deriving DecidableEq, Repr

/-- A scale-out transport header, 20 Table 161, with the fields a packet's rules read. -/
structure PktHdr where
  vc : Nat
  src : Nat
  dst : Nat
  psn : Nat
  ce : Bool
  deriving DecidableEq, Repr

/-- An access that a host or a peer package makes (19 R351, 20 R388). An atomic or a CAS is one request for the lanes of a
word that name one address, with their operands in lane order (07 R174): op of 07 Table 58, comparison signed; for a CAS
the compare value and the new value of each. -/
inductive ExtAcc where
  | read (n : Nat)
  | write (bytes : List Byte)
  | atomic (op n : Nat) (signed : Bool) (operands : List Nat)
  | cas (n : Nat) (operands : List (Nat × Nat))
  deriving DecidableEq, Repr

/-- An access with the fabric address of the peer package that asks for it, which gets the answer (20 R386, R388). -/
structure PeerAcc where
  src : Nat
  acc : ExtAcc
  deriving DecidableEq, Repr

/-- What the host reaches over PCIe: package memory, through PF0 or through the function of a partition; a control page
through BAR0 of a function, 0 for PF0; the staging window of BAR2 (18 R364, R369). -/
inductive HostTarget where
  | memory (fn : Option Nat) (pa : Nat)
  | bar0 (fn : Nat) (page : Page) (off : Nat)
  | staging (off : Nat)
  deriving DecidableEq, Repr

/-- What a flit of a Timin link brings: payload for its channel, or link control: the pace that the receiver announces for a
channel, the last flit it has taken, the first one it wants again (20 R383, R384). -/
inductive FlitBody where
  | payload (bytes : List Byte)
  | pace (vc p : Nat)
  | taken (seq : Nat)
  | again (seq : Nat)
  deriving DecidableEq, Repr

/-- A Timin flit as its receiver sees it (20 R383 to R385). -/
structure Flit where
  vc : Nat
  dest : Nat
  good : Bool
  seq : Nat
  body : FlitBody
  deriving DecidableEq, Repr

/-- An element of a collective's payload, with its poison mark (14 R297, 20 R394). -/
structure CollElem where
  bits : Nat
  bad : Bool
  deriving DecidableEq, Repr

/-- An Ethernet frame as a scale-out port sees it (20 R405, R408): its length without its 802.1Q tags, and their number. -/
structure EthFrame where
  fcsOk : Bool
  len : Nat
  tags : Nat
  dstMac : Nat
  etherType : Nat
  udpPort : Nat
  crcOk : Bool
  version : Nat
  lengthOk : Bool
  kind : Nat
  hdr : PktHdr
  payload : List Byte
  deriving DecidableEq, Repr

/-- The declaration of one MCODE entry by loaded microcode (09 R212). -/
structure McodeDecl where
  entry : Nat
  gangKind : Bool
  stateLen : Nat
  inLen : Nat
  outLen : Nat
  outRead : Bool
  align : Nat
  useVI : Bool
  useVO : Bool
  useS0 : Bool
  useS1 : Bool
  useS2 : Bool
  modMask : Nat
  useImm : Bool
  needsTarget : Bool
  reasons : List Nat
  deriving DecidableEq, Repr

/-- What a host's TDISP request asks of a device interface (18 R370). -/
inductive TdispReq where
  | lock
  | start
  | stop
  deriving DecidableEq, Repr

/-- What a secured SPDM message asks SEC to do (18 R370, R372, R373). -/
inductive SecMsg where
  | writeKey (slot : Nat) (kind : Nat) (owner : Nat) (material : Nat)
  | ideKey (stream : Nat) (material : Nat)
  | emptyChannels (slot : Nat)
  deriving DecidableEq, Repr

/-- Instructions of Rilgon, tasks of the task window, and the machine and host events of the opcode table. -/
inductive Instr where
  -- CTRL
  | nop (w : CtrlW) | bra (w : CtrlW) | brx (w : CtrlW) | call (w : CtrlW) | callx (w : CtrlW) | ret (w : CtrlW)
  | fuse (w : CtrlW) | exit (w : CtrlW) | trap (w : CtrlW) | brk (w : CtrlW) | yield (w : CtrlW)
  | sread (w : CtrlW) | swrite (w : CtrlW) | eret (w : CtrlW) | syscall (w : CtrlW) | sleep (w : CtrlW)
  -- SCAL
  | smov (w : ScalW) | smovi (w : ScalW) | smovi64 (w : ScalW) (hi : BitVec 128)
  | sadd (w : ScalW) | ssub (w : ScalW) | smul (w : ScalW) | smulh (w : ScalW) | sand (w : ScalW) | sor (w : ScalW)
  | sxor (w : ScalW) | sshl (w : ScalW) | sshr (w : ScalW) | ssra (w : ScalW) | scmp (w : ScalW) | ssel (w : ScalW)
  | smin (w : ScalW) | smax (w : ScalW) | sclz (w : ScalW) | spopc (w : ScalW) | vtos (w : ScalW) | stov (w : ScalW)
  | slea (w : ScalW)
  -- VSGL
  | iadd (w : VecW) | isub (w : VecW) | imul (w : VecW) | imulh (w : VecW) | imad (w : VecW) | imin (w : VecW)
  | imax (w : VecW) | iabs (w : VecW) | ineg (w : VecW) | and (w : VecW) | or (w : VecW) | xor (w : VecW)
  | not (w : VecW) | shl (w : VecW) | shr (w : VecW) | sra (w : VecW) | rot (w : VecW) | bfe (w : VecW)
  | bfi (w : VecW) | clz (w : VecW) | popc (w : VecW) | brev (w : VecW) | icmp (w : VecW) | sel (w : VecW)
  | mov (w : VecW) | movi (w : VecW) | iaddsh (w : VecW) | idot4 (w : VecW)
  | fadd (w : VecW) | fsub (w : VecW) | fmul (w : VecW) | ffma (w : VecW) | fmin (w : VecW) | fmax (w : VecW)
  | fcmp (w : VecW) | fclass (w : VecW) | frnd (w : VecW) | fdot2 (w : VecW) | fscale (w : VecW) | ffract (w : VecW)
  | fdiv (w : VecW) | cvt (w : VecW) | pack (w : VecW) | unpack (w : VecW) | qnt (w : VecW) | dqnt (w : VecW)
  | rcp (w : VecW) | rsq (w : VecW) | sqrt (w : VecW) | exp2 (w : VecW) | log2 (w : VecW) | sin (w : VecW)
  | cos (w : VecW) | tanh (w : VecW)
  -- VPAIR
  | vpair (w : PairW)
  -- XLANE
  | shfl (w : VecW) | push (w : VecW) | ballot (w : VecW) | voteall (w : VecW) | voteany (w : VecW) | voteeq (w : VecW)
  | cmprs (w : VecW) | expnd (w : VecW) | slup (w : VecW) | sldn (w : VecW) | redadd (w : VecW) | redmin (w : VecW)
  | redmax (w : VecW) | scanadd (w : VecW) | matchLanes (w : VecW) | actmask (w : VecW)
  -- MEM
  | ld (w : MemW) | st (w : MemW) | ldu (w : MemW) | atom (w : MemW) | red (w : MemW) | cas (w : MemW) | ord (w : MemW)
  | fence (w : MemW) | waitc (w : MemW) | pref (w : MemW) | invt (w : MemW)
  -- MMA, with the payload of a continuation word (03 R58)
  | mma (w : MmaW) (k : BitVec 120) | tlma (w : MmaW) (k : BitVec 120) | tlpre (w : MmaW) | mzero (w : MmaW)
  | mldt (w : MmaW) | mstt (w : MmaW)
  -- MACRO
  | rast (w : MacroW) | blend (w : MacroW) | filt (w : MacroW) | trav (w : MacroW) | bin (w : MacroW)
  | binPop (w : MacroW) | mcode (op : BitVec 8) (w : MacroW)
  -- SYNC
  | bar (w : SyncW) | barc (w : SyncW) | barcFinal (w : SyncW) | barg (w : SyncW) | grd (w : SyncW) | gwr (w : SyncW)
  | gatom (w : SyncW) | xclaim (w : SyncW) | xgive (w : SyncW) | xquery (w : SyncW) | spawn (w : SyncW)
  | spawnf (w : SyncW) | qpop (w : SyncW) | qpush (w : SyncW) | cancel (w : SyncW) | cntrd (w : SyncW)
  -- ENG, with the payload of a continuation word
  | cecopy (w : EngW) (k : BitVec 120) | cegath (w : EngW) (k : BitVec 120) | cescat (w : EngW) (k : BitVec 120)
  | cefill (w : EngW) | cedec (w : EngW) (k : BitVec 120) | cestat (w : EngW)
  -- TASK
  | tnop (w : TaskW) | tbind (w : TaskW) | tfree (w : TaskW) | tlaunch (w : TaskW) (bs : List BindW) | tcopy (w : TaskW)
  | tfill (w : TaskW) | tallred (w : TaskW) | tallgat (w : TaskW) | trdscat (w : TaskW)
  | tdraw (w : TaskW) (bs : List BindW) | tpresent (w : TaskW) | twait (w : TaskW) | tsignal (w : TaskW)
  | tfence (w : TaskW) | tkmov (w : TaskW) | tkadd (w : TaskW) | tkld (w : TaskW) | tkbr (w : TaskW) | tphase (w : TaskW)
  | tgroup (w : TaskW) | tend (w : TaskW)
  -- events of gangs, workgroups and core partitions; a core partition is pid = core * 4 + partition
  | producerWriteback (gang idx : Nat) | laneExited (gang : Nat) | sleepWake (gang : Nat) | activeSetRemove (pid : Nat)
  | quadSplit (gang quad : Nat) | timeSliceEnd (wg : Nat) | admission (part pid : Nat) | drainTimeout (wg : Nat)
  | contextSave (wg addr : Nat) | contextRestore (wg pid : Nat) | xclaimGrant (pid : Nat) | xgiveCredit (gang : Nat)
  | regDeadlockReport (pid : Nat) | latheStep (core lathe : Nat) | matrixPassStart (pid : Nat) | matrixBlock (pid : Nat)
  | rdvStallWatchdog (gang pc : Nat) | binTimerExpire (pid bin : Nat) | binLaunch (pid : Nat) | starterWave (cluster : Nat)
  | waitcWake (gang idx : Nat) | parkedPoll (gang idx : Nat) | qpopCopy (gang idx : Nat) | wcbLineDrain (core line : Nat)
  | wcbDrainTimeout (core line : Nat) | engComplete (cluster idx : Nat)
  | pageFaultService (part idx : Nat) | pfholdTimeout (part : Nat) | pfrespReplay (part tenant page : Nat)
  | pfrespDeny (part tenant page : Nat) | tlbInvalidate (tenant page : Nat)
  | eccError (unit addr : Nat) (double : Bool)
  -- fates of words that are no instruction
  | illegalEncoding (sub : BitVec 8) | fetchFault (addr : W64)
  -- events of the task window and of its registers
  | taskComplete (part id : Nat) | taskRetire (part port : Nat) | tctlGo (part port tenant : Nat)
  | tctlHalt (part port : Nat) | freeadd (part : Nat) (v : W64) | wlimitWrite (part : Nat) (v : W64)
  | snapshotTimeout (part port : Nat)
  -- bring-up, resets, firmware and power
  | bootctlGo | bootctlRestart (mask : BitVec 8) | bootImageCheckDone | powerUp | partitionReset (part : Nat)
  | functionLevelReset | coldReset | powerOff | fwHeartbeat (core : Nat) | peakTick (energy : Nat) | intervalBoundary
  | powerMsTick (energy : Nat) (temps : List Nat) | headFrameStart (head : Nat)
  | getVersion | getCapabilities | getDigests
  -- fabric and scale-out: what the package does by itself
  | linkRetrain (link : Nat) | linkRetrainDone (link : Nat) | heartbeatSend (group : Nat) | ceilingChange
  | clockLowerBegin (die : Nat) | memberDrop (group member : Nat) | ackTimer (conn : Nat) | retransmitTimeout (conn : Nat)
  | pfcPauseExpiry (port prio : Nat)
  -- what the host and the fabric bring from outside
  | hostCancel (level a b c : Nat) | qtailWrite (q : Nat) (vs : List W32) | clkpatWrite (cluster : Nat) (v : W64)
  | slopeWrite (cluster : Nat) (v : W64) | pcapWrite (v : W64)
  | registerWrite (by_ : Writer) (page : Page) (off : Nat) (v : W64)
  | mailboxWrite (core sender kind : Nat) (seq : W32) (payload : List Byte)
  | microcodeLoad (part : Nat) (decls : List McodeDecl) (image : List Byte)
  | negotiateAlgorithms (sign hash aead : Nat) | getCertificate (slot off len : Nat)
  | challenge (slot : Nat) (nonce : List Byte) | getMeasurements (index : Nat) (signed : Bool) (nonce : List Byte)
  | keyExchange (session : Nat) (share : List Byte) | finish (session : Nat) (mac : List Byte)
  | encoderFrameDone (enc : Nat) (bits : List Byte) | encReadposWrite (enc pos : Nat)
  | flitReceive (link : Nat) (f : Flit) | peerAccessReceive (part rkey pa : Nat) (acc : PeerAcc)
  | noticeReceive (n : Notice)
  | collectiveHeaderReceive (part port rank n op sub fmt count : Nat) (abort : Bool) (payload : List CollElem)
  | ethFrameReceive (port : Nat) (f : EthFrame) | dataPkt (port : Nat) (h : PktHdr) (payload : List Byte)
  | ackPkt (port : Nat) (h : PktHdr) | nackPkt (port : Nat) (h : PktHdr)
  | noticePkt (port : Nat) (h : PktHdr) (n : Notice) | timePkt (port : Nat) (h : PktHdr) (stamp : Nat)
  | pfcReceive (port prio quanta : Nat) | ethLinkUpDown (port : Nat) (up : Bool)
  | fecAlignmentLock (port : Nat) (locked : Bool)
  | hostLinkAccess (t : HostTarget) (acc : ExtAcc) | tdispRequest (vf : Nat) (r : TdispReq) | spdmSessionMessage (m : SecMsg)
  deriving DecidableEq, Repr

end Sys2Proof
end

