-- ==== Sys2Proof/Machine/FieldCheck.lean ====
section
/-! DEFINITION. The field and value checks of 03 R72 step 5 that need no machine state: subcode 0x03 (a nonzero
reserved or unused field), then 0x04 (a reserved value in a used field), then 0x07 (VPAIR legality) and 0x0D (callback
target), 03 R71. `Instr.staticCheck` gives the first that applies, or none. -/

namespace Sys2Proof

/-- An ILLEGAL subcode of 03 Table 35, or none. -/
abbrev Sub := Option (BitVec 8)

namespace Fmt
/-- Format codes, 02 Table 9. -/
def fp32 : BitVec 4 := 0x0
def fp16 : BitVec 4 := 0x1
def bf16 : BitVec 4 := 0x2
def e4m3 : BitVec 4 := 0x3
def e5m2 : BitVec 4 := 0x4
def lg6 : BitVec 4 := 0x5
def e8s : BitVec 4 := 0x6
def si8 : BitVec 4 := 0x8
def si16 : BitVec 4 := 0x9
def si32 : BitVec 4 := 0xA
def si64 : BitVec 4 := 0xB
def ui8 : BitVec 4 := 0xC
def ui16 : BitVec 4 := 0xD
def ui32 : BitVec 4 := 0xE
def ui64 : BitVec 4 := 0xF
/-- The four types of 04 Table 37. -/
def ints : List (BitVec 4) := [si32, ui32, si64, ui64]
/-- The five binary floating-point formats of 02 Table 10. -/
def floats : List (BitVec 4) := [fp32, fp16, bf16, e4m3, e5m2]
/-- Formats CVT accepts: all but E8S and the reserved code (04 R94). -/
def cvts : List (BitVec 4) := floats ++ [lg6, si8, si16, si32, si64, ui8, ui16, ui32, ui64]
/-- Formats of SHFL and its fellows (06 Table 50). -/
def shfls : List (BitVec 4) := [si32, ui32, si64, ui64, fp32]
/-- Narrow formats of PACK and UNPACK (04 R95, R96). -/
def packs : List (BitVec 4) := [fp16, bf16, e4m3, e5m2, si8, ui8, si16, ui16]
end Fmt

/-- First of two checks that fails. -/
def Sub.or (a : Sub) (b : Sub) : Sub := match a with | some x => some x | none => b
/-- A condition that breaks a check with a subcode. -/
def Sub.when (c : Bool) (x : BitVec 8) : Sub := if c then some x else none

/-- A permute code is legal: pattern and parameter range of 03 Table 20. -/
def permOk (p : BitVec 8) : Bool :=
  let n := (p.extractLsb' 0 5).toNat
  match (p.extractLsb' 5 3).toNat with
  | 0 => n = 0
  | 1 => true
  | 2 => true
  | 3 => n ≤ 4
  | 4 => 1 ≤ n && n ≤ 5
  | 5 => n ≤ 3
  | _ => false

/-- Which fields of layout V a row uses, and the values it accepts (04 R79, 06 R142). -/
structure VecUse where
  d : Bool := true
  nsrc : Nat := 2
  pd : Bool := false
  ts : List (BitVec 4) := Fmt.ints
  uMask : BitVec 4 := 0
  us : List (BitVec 4) := []
  /-- 0: RM unused; 1: RM is .RNE, .RZ, .RP or .RM; 2: .RS too where rsFmt holds; 3: RM must be 0, else 0x04 -/
  rmKind : Nat := 0
  rsFmts : List (BitVec 4) := []
  rms : List (BitVec 3) := [0, 1, 2, 3]
  sSeed : Bool := false
  sUse : Bool := false
  immOk : Bool := true
  permA : Bool := true

/-- Field check of a layout V word under its row's use. -/
def vecCheck (v : VecUse) (w : VecW) : Sub :=
  let imm := w.i = 1
  let last := v.nsrc
  let usedA := 1 ≤ v.nsrc && !(imm && last = 1)
  let usedB := 2 ≤ v.nsrc && !(imm && last = 2)
  let usedC := 3 ≤ v.nsrc && !(imm && last = 3)
  let rs := v.rmKind = 2 && w.rm = 4
  let bad03 :=
    (imm && !v.immOk) || (!imm && w.imm != 0)
    || (!v.d && w.d != 0)
    || (!usedA && (w.a != 0 || w.pma != 0 || w.ea != 0)) || (!v.permA && w.pma != 0)
    || (!usedB && (w.b != 0 || w.pmb != 0 || w.eb != 0))
    || (!usedC && (w.c != 0 || w.pmc != 0 || w.ec != 0))
    || (w.u &&& ~~~v.uMask) != 0
    || (!v.pd && w.pd != 0)
    || (v.rmKind = 0 && w.rm != 0)
    || (!(v.sUse || (v.sSeed && rs)) && w.s != 0)
  let bad04 :=
    !(v.ts.contains w.t)
    || (!v.us.isEmpty && !(v.us.contains w.u))
    || (v.rmKind = 1 && !([0, 1, 2, 3].contains w.rm))
    || (v.rmKind = 2 && !(v.rms.contains w.rm || (w.rm = 4 && v.rsFmts.contains w.t)))
    || (v.rmKind = 3 && w.rm != 0)
    || (usedA && !permOk w.pma) || (usedB && !permOk w.pmb) || (usedC && !permOk w.pmc)
  Sub.or (Sub.when bad03 0x03) (Sub.when bad04 0x04)

/-- Which fields of a CTRL word a row uses (04 Table 42). -/
structure CtrlUse where
  vd : Bool := false
  va : Bool := false
  sd : Bool := false
  sa : Bool := false
  vx : Bool := false
  iOk : Bool := false
  imm : Bool := false
  immMask : BitVec 32 := 0xFFFFFFFF

/-- Field check of a CTRL word. -/
def ctrlCheck (v : CtrlUse) (w : CtrlW) (value : Bool := true) : Sub :=
  let bad03 :=
    w.rsv1 != 0 || w.rsv2 != 0 || (!v.iOk && w.i != 0)
    || (!v.vd && w.vd != 0) || (!v.va && (w.va != 0 || w.pma != 0 || w.ea != 0))
    || (!v.sd && w.sd != 0) || (!v.sa && w.sa != 0) || (!v.vx && w.vx != 0)
    || (!v.imm && w.imm != 0) || (w.imm &&& ~~~v.immMask) != 0
  Sub.or (Sub.when bad03 0x03) (Sub.when (!value || (v.va && !permOk w.pma)) 0x04)

/-- The special-register numbers of 03 Table 34. -/
def srNumbers : List Nat :=
  [0x00, 0x01, 0x02, 0x03, 0x04, 0x05, 0x06, 0x07, 0x08, 0x09, 0x0A, 0x10, 0x11, 0x18, 0x19, 0x1A, 0x1B,
   0x20, 0x21, 0x22, 0x23, 0x28, 0x29, 0x2A, 0x30, 0x31, 0x32, 0x33]

/-- Which fields of a SCAL word a row uses (04 Table 41). -/
structure ScalUse where
  sd : Bool := true
  nsrc : Nat := 2
  vr : Bool := false
  ev : Bool := false
  /-- AUX values the row defines; empty: AUX is unused -/
  auxs : List (BitVec 4) := []
  /-- 0: I must be 0; 1: I free; 2: I must be 1 -/
  iKind : Nat := 1

/-- Field check of a SCAL word. -/
def scalCheck (v : ScalUse) (w : ScalW) : Sub :=
  let imm := w.i = 1
  let usedA := 1 ≤ v.nsrc && !(imm && v.nsrc = 1)
  let usedB := 2 ≤ v.nsrc && !(imm && v.nsrc = 2)
  let usedC := 3 ≤ v.nsrc && !(imm && v.nsrc = 3)
  let bad03 :=
    w.rsv1 != 0 || w.rsv2 != 0 || (v.iKind = 0 && imm) || (v.iKind = 2 && !imm) || (!imm && w.imm != 0)
    || (!v.sd && w.sd != 0) || (!usedA && w.sa != 0) || (!usedB && w.sb != 0) || (!usedC && w.sc != 0)
    || (!v.vr && w.vr != 0) || (!v.ev && (w.pmv != 0 || w.ev != 0)) || (v.auxs.isEmpty && w.aux != 0)
  Sub.or (Sub.when bad03 0x03)
    (Sub.when ((!v.auxs.isEmpty && !(v.auxs.contains w.aux)) || (v.ev && !permOk w.pmv)) 0x04)

/-- Field check of an access word that forms an address (LD, ST, LDU, ATOM, RED, CAS, WAITC, PREF), 07 Table 57. -/
structure MemUse where
  vd : Bool := true
  vdMask : BitVec 8 := 0xFF
  ed : Bool := false
  vb : Bool := false
  sps : List (BitVec 2) := [0, 1, 2, 3]
  pls : List (BitVec 2) := [0, 1, 2]
  wds : List (BitVec 3) := [0, 1, 2, 3, 4]
  wd : Bool := true
  atom : Bool := false
  cm : Bool := false
  sx : Bool := false

/-- Widths that an atomic operation accepts, 07 Table 58. -/
def atomWidthOk (ao : BitVec 4) (wd : BitVec 3) : Bool :=
  match ao.toNat with
  | 0 | 1 | 2 | 3 | 4 | 5 | 6 => wd = 2 || wd = 3
  | 7 | 8 | 9 | 10 => wd = 2
  | 11 => wd = 3
  | _ => false

def memCheck (v : MemUse) (w : MemW) : Sub :=
  let sxUsed := v.sx || (v.atom && (w.ao = 1 || w.ao = 2))
  let bad03 :=
    w.rsv != 0 || (!v.vd && w.vd != 0) || (w.vd &&& ~~~v.vdMask) != 0 || (!v.ed && w.ed != 0)
    || (w.vx = 0 && (w.va != 0 || w.pma != 0 || w.ea != 0))
    || (!v.vb && (w.vb != 0 || w.pmb != 0 || w.eb != 0))
    || (w.nb = 1 && w.sb != 0) || (w.sp != 0 && w.pl != 0)
    || (!v.wd && w.wd != 0) || (!v.atom && w.ao != 0) || w.od != 0 || w.sc != 0
    || (!v.cm && w.cm != 0) || (!sxUsed && w.sx != 0)
  let bad04 :=
    !(v.sps.contains w.sp) || (w.sp = 0 && !(v.pls.contains w.pl)) || (v.wd && !(v.wds.contains w.wd))
    || (v.atom && !(atomWidthOk w.ao w.wd)) || (v.cm && 4 ≤ w.cm.toNat)
    || (w.vx = 1 && !permOk w.pma) || (v.vb && !permOk w.pmb)
  Sub.or (Sub.when bad03 0x03) (Sub.when bad04 0x04)

/-- Field check of ORD, FENCE and INVT, which use only OD and SC (07 Table 57). -/
def ordCheck (ods : List (BitVec 3)) (odUsed : Bool) (w : MemW) : Sub :=
  let bad03 :=
    w.rsv != 0 || w.vd != 0 || w.va != 0 || w.pma != 0 || w.vb != 0 || w.pmb != 0 || w.sb != 0 || w.sp != 0
    || w.pl != 0 || w.wd != 0 || w.ao != 0 || w.cm != 0 || w.vx != 0 || w.sx != 0 || w.ed != 0 || w.ea != 0
    || w.eb != 0 || w.nb != 0 || w.imm != 0 || (!odUsed && w.od != 0)
  Sub.or (Sub.when bad03 0x03) (Sub.when ((odUsed && !(ods.contains w.od)) || 5 ≤ w.sc.toNat) 0x04)

/-- An operand format that carries block scales (02 R41). -/
def scaledFmt (f : BitVec 4) : Bool := f = Fmt.e4m3 || f = Fmt.e5m2 || f = Fmt.lg6

/-- Field use of an MMA-class row, 08 Table 64. -/
structure MmaUse where
  vd : Bool := false
  /-- VA and EA used when AS is 0 -/
  va : Bool := false
  vb : Bool := false
  vst : Bool := false
  sk : Bool := false
  sa : Bool := false
  sb : Bool := false
  /-- AS: 0 must be zero, 1 any, 2 must be 1 (0x04) -/
  asK : Nat := 0
  bsK : Nat := 0
  fa : Bool := false
  fb : Bool := false
  fas : List (BitVec 4) := []
  fbs : List (BitVec 4) := []
  win : Bool := false
  fd : Bool := false
  fds : List (BitVec 4) := []
  trUsed : Bool := false
  imm : Bool := false

def mmaCheck (v : MmaUse) (w : MmaW) (extra03 : Bool := false) (extra04 : Bool := false) : Sub :=
  let aReg := v.va && w.as = 0
  let bReg := v.vb && w.bs = 0
  let aScr := v.sa && (v.asK != 1 || w.as = 1)
  let bScr := v.sb && (v.bsK != 1 || w.bs = 1)
  let bad03 := extra03
    || (!v.vd && w.vd != 0) || (!aReg && (w.va != 0 || w.ea != 0)) || (!bReg && (w.vb != 0 || w.eb != 0))
    || (!v.vst && w.vst != 0) || (!v.sk && w.sk != 0) || (!aScr && (w.sa0 != 0 || w.sa1 != 0))
    || (!bScr && (w.sb0 != 0 || w.sb1 != 0)) || (v.asK = 0 && w.as != 0) || (v.bsK = 0 && w.bs != 0)
    || (!v.fa && w.fa != 0) || (!v.fb && w.fb != 0) || (!v.win && w.win != 0) || (!v.fd && w.fd != 0)
    || (!v.trUsed && w.tr != 0) || (!v.imm && w.imm != 0)
  let bad04 := extra04
    || (v.asK = 2 && w.as = 0) || (v.bsK = 2 && w.bs = 0) || (v.fa && !(v.fas.contains w.fa))
    || (v.fb && !(v.fbs.contains w.fb)) || (v.fd && !(v.fds.contains w.fd))
  Sub.or (Sub.when bad03 0x03) (Sub.when bad04 0x04)

/-- Formats of MMA operands (08 R192). -/
def mmaFmts : List (BitVec 4) := [Fmt.bf16, Fmt.fp16, Fmt.e4m3, Fmt.e5m2, Fmt.lg6]

/-- The scale fields of an MMA continuation payload that must be 0: reserved bits, and those of an unscaled operand
(03 R58). -/
def scaleBad (k : BitVec 120) (aScaled bScaled : Bool) : Bool :=
  k.extractLsb' 0 100 != 0 || (!aScaled && k.extractLsb' 110 10 != 0) || (!bScaled && k.extractLsb' 100 10 != 0)

/-- MMA takes a continuation word when an operand is scaled (03 R58). -/
def mmaTakesCont (w : MmaW) : Bool := scaledFmt w.fa || scaledFmt w.fb

/-- Check of a MACRO word (03 R55, R71): fields the macro does not use, MOD values, and the callback-target rule. -/
def macroCheck (w : MacroW) (unused : Bool) (badVal : Bool) (needTarget : Bool) (noTarget : Bool) : Sub :=
  Sub.or (Sub.when (w.rsv != 0 || unused) 0x03)
    (Sub.or (Sub.when badVal 0x04)
      (Sub.when ((needTarget && w.imm = 0) || (noTarget && w.imm != 0)) 0x0D))

/-- A bit of MOD. -/
def modBit (w : MacroW) (i : Nat) : Bool := w.mods.getLsbD i

/-- .ZW or .ZLE without .Z is a value that the fields together do not allow: subcode 0x04 (log 25). -/
def rastCheck (w : MacroW) : Sub :=
  macroCheck w ((!modBit w 0 && w.s1 != 0) || (!modBit w 7 && w.s2 != 0))
    (w.mods.extractLsb' 4 2 = 3 || (!modBit w 0 && (modBit w 1 || modBit w 2))) false true

def binCheck (w : MacroW) : Sub :=
  macroCheck w (w.mods.extractLsb' 3 5 != 0 || w.vo != 0 || (!modBit w 0 && w.s2 != 0))
    (modBit w 2) true false

def binPopCheck (w : MacroW) : Sub :=
  macroCheck w (w.mods.extractLsb' 3 5 != 0 || w.vi != 0 || w.ei != 0) (modBit w 0) true false

/-- Field use of a SYNC row, 06 Table 52. -/
structure SyncUse where
  vd : Bool := false
  va : Bool := false
  sd : Bool := false
  /-- SA used (when I is 0 if I is allowed) -/
  sa : Bool := false
  gr : Bool := false
  pd : Bool := false
  iOk : Bool := false
  /-- mask of the immediate bits the row names when I is 0, and when I is 1 -/
  imm0 : BitVec 32 := 0
  imm1 : BitVec 32 := 0xFFFFFFFF
  auxs : List (BitVec 4) := [0]
  auxUsed : Bool := false

def syncCheck (v : SyncUse) (w : SyncW) (extra03 : Bool := false) (extra04 : Bool := false) : Sub :=
  let imm := w.i = 1
  let bad03 := extra03
    || w.rsv1 != 0 || w.rsv2 != 0 || (!v.vd && w.vd != 0) || (!v.va && (w.va != 0 || w.ea != 0)) || w.pma != 0
    || (!v.sd && w.sd != 0) || ((!v.sa || imm) && w.sa != 0) || (!v.gr && w.gr != 0) || (!v.pd && w.pd != 0)
    || (!v.iOk && imm) || (!imm && (w.imm &&& ~~~v.imm0) != 0) || (imm && (w.imm &&& ~~~v.imm1) != 0)
    || (!v.auxUsed && w.aux != 0)
  Sub.or (Sub.when bad03 0x03) (Sub.when (extra04 || (v.auxUsed && !(v.auxs.contains w.aux))) 0x04)

/-- Field use of an ENG row, 12 Table 93. -/
structure EngUse where
  ss : Bool := true
  ssps : List (BitVec 2) := [0, 1, 2, 3]
  sn : Bool := true
  rt : Bool := false
  two : Bool := false
  dsps : List (BitVec 2) := [0, 1, 2, 3]
  imm : Bool := false
  immMask : BitVec 32 := 0xFFFFFFFF

def engCheck (v : EngUse) (w : EngW) (extra03 : Bool := false) (extra04 : Bool := false) : Sub :=
  let rt := v.rt && w.rt = 1
  let bad03 := extra03
    || w.rsv != 0 || (!v.ss && (w.ss != 0 || w.ssp != 0)) || (rt && (w.sd != 0 || w.dsp != 0))
    || (!v.sn && w.sn != 0) || (!v.rt && w.rt != 0) || (!rt && w.vr != 0) || (!v.two && w.two != 0)
    || (!v.imm && w.imm != 0) || (w.imm &&& ~~~v.immMask) != 0
    || (w.sig = 0 && (w.sg != 0 || w.sv != 0 || w.fst != 0))
  let bad04 := extra04
    || (v.ss && !(v.ssps.contains w.ssp)) || (!rt && !(v.dsps.contains w.dsp)) || 5 ≤ w.sc.toNat
  Sub.or (Sub.when bad03 0x03) (Sub.when bad04 0x04)

/-- Compact operations, 03 Table 30. -/
inductive CopOp where
  | iadd | isub | and | or | xor | shl | shr | mov | sel | icmp
  | fadd | fmul | ffma | fmin | fmax | fcmp
  | rcp | rsq | exp2 | log2
  deriving DecidableEq, Repr

inductive CopClass where
  | int | fp | sfu
  deriving DecidableEq, Repr

def copOf (c : BitVec 7) : Option CopOp :=
  match c.toNat with
  | 0x00 => some .iadd | 0x01 => some .isub | 0x02 => some .and | 0x03 => some .or | 0x04 => some .xor
  | 0x05 => some .shl | 0x06 => some .shr | 0x07 => some .mov | 0x08 => some .sel | 0x09 => some .icmp
  | 0x20 => some .fadd | 0x21 => some .fmul | 0x22 => some .ffma | 0x23 => some .fmin | 0x24 => some .fmax
  | 0x25 => some .fcmp | 0x40 => some .rcp | 0x41 => some .rsq | 0x42 => some .exp2 | 0x43 => some .log2
  | _ => none

def CopOp.cls : CopOp → CopClass
  | .iadd | .isub | .and | .or | .xor | .shl | .shr | .mov | .sel | .icmp => .int
  | .fadd | .fmul | .ffma | .fmin | .fmax | .fcmp => .fp
  | .rcp | .rsq | .exp2 | .log2 => .sfu

/-- Number of sources of a compact operation. -/
def CopOp.nsrc : CopOp → Nat
  | .mov | .rcp | .rsq | .exp2 | .log2 => 1
  | .ffma => 3
  | _ => 2

/-- The operation writes a predicate. -/
def CopOp.toPred : CopOp → Bool
  | .icmp | .fcmp => true
  | _ => false

/-- The v-registers that a half names as sources. -/
def HalfW.srcs (h : HalfW) (o : CopOp) : List (BitVec 8) := [h.a, h.b, h.c].take o.nsrc

def halfBad03 (isY : Bool) (h : HalfW) (o : CopOp) : Bool :=
  h.rsv != 0 || (isY && h.pms != 0) || (o.toPred && h.d.extractLsb' 3 5 != 0)
  || (o.nsrc < 2 && (h.b != 0 || h.eb != 0)) || (o.nsrc < 3 && (h.c != 0 || h.ec != 0))
  || (!(o.toPred || o = .sel) && h.cnd != 0)

/-- Bank of a v-register (03 R62). -/
def bankOf (r : BitVec 8) : Nat := r.toNat % 4

/-- The rules of 03 R60 and R62 on a whole pair, subcode 0x07. -/
def pairLegal (w : PairW) (x y : CopOp) : Bool :=
  let srcs := (w.x.srcs x ++ w.y.srcs y).eraseDups
  (x.cls != .sfu) && (y.cls != .fp)
  && (w.sh = 1 || w.x.pms = 0) && (w.sh = 0 || w.x.a = w.y.a)
  && (x.toPred || y.toPred || bankOf w.x.d != bankOf w.y.d)
  && (!(x.toPred && y.toPred) || w.x.d != w.y.d)
  && srcs.length ≤ 4
  && [0, 1, 2, 3].all (fun b => (srcs.filter (fun r => bankOf r = b)).length ≤ 2)

def pairCheck (w : PairW) : Sub :=
  match copOf w.x.cop, copOf w.y.cop with
  | some x, some y =>
    Sub.or (Sub.when (w.rsv != 0 || halfBad03 false w.x x || halfBad03 true w.y y) 0x03)
      (Sub.or (Sub.when (w.sh = 1 && !permOk w.x.pms) 0x04)
        (Sub.when (!pairLegal w x y) 0x07))
  | _, _ => some 0x02

/-- Field use of a TASK row, 16 Table 118: subcode 0x03 for a field it does not name, 0x04 for a reserved value,
16 R315, R331. -/
structure TaskUse where
  ta : Bool := false
  tb : Bool := false
  ka : Bool := false
  kb : Bool := false
  kc : Bool := false
  kd : Bool := false
  fmt : Bool := false
  fmts : List (BitVec 4) := []
  subMask : BitVec 4 := 0
  subs : List (BitVec 4) := [0]
  nb : Bool := false
  outs : Bool := false
  early : Bool := false
  pri : Bool := false
  imm : Bool := false

def taskCheck (v : TaskUse) (w : TaskW) (extra03 : Bool := false) (extra04 : Bool := false) : Sub :=
  let bad03 := extra03
    || w.rsv != 0 || (!v.ta && w.ta != 0) || (!v.tb && w.tb != 0) || (!v.ka && w.ka != 0) || (!v.kb && w.kb != 0)
    || (!v.kc && w.kc != 0) || (!v.kd && w.kd != 0) || (!v.fmt && w.fmt != 0) || (w.sub &&& ~~~v.subMask) != 0
    || (!v.nb && w.nb != 0 && w.nb.toNat ≤ 8) || (!v.outs && w.outs != 0) || (!v.early && w.early != 0)
    || (!v.pri && w.pri != 0) || (!v.imm && w.imm != 0)
  let bad04 := extra04
    || 8 < w.nb.toNat || [w.ka, w.kb, w.kc, w.kd].any (fun k => 32 ≤ k.toNat)
    || (v.fmt && !(v.fmts.contains w.fmt)) || !(v.subs.contains w.sub)
  Sub.or (Sub.when bad03 0x03) (Sub.when bad04 0x04)

/-- Formats of the collectives (20 R392). -/
def collFmts : List (BitVec 4) :=
  [Fmt.fp32, Fmt.fp16, Fmt.bf16, Fmt.si32, Fmt.ui32, Fmt.si64, Fmt.ui64]
/-- Formats that TBIND accepts: every code of 02 Table 9 but the reserved one (16 R332). -/
def bindFmts : List (BitVec 4) := [0x0, 0x1, 0x2, 0x3, 0x4, 0x5, 0x6, 0x8, 0x9, 0xA, 0xB, 0xC, 0xD, 0xE, 0xF]

def allU : List (BitVec 4) := [0, 1, 2, 3, 4, 5, 6, 7]
def noU : List (BitVec 4) := []
def fpUse (n : Nat) : VecUse := { nsrc := n, ts := [Fmt.fp32], uMask := 0xF, rmKind := 1 }
def fpUse0 (n : Nat) : VecUse := { nsrc := n, ts := [Fmt.fp32], rmKind := 1 }
def sfuUse : VecUse := { nsrc := 1, ts := [Fmt.fp32], rmKind := 3 }
def voteUse : VecUse :=
  { d := false, nsrc := 0, pd := true, ts := [Fmt.si32, Fmt.ui32], uMask := 0xF, rmKind := 3, immOk := false }
def moveUse : VecUse := { nsrc := 1, ts := Fmt.shfls, rmKind := 3, immOk := false, permA := false }
def shflUse : VecUse := { nsrc := 2, ts := Fmt.shfls, rmKind := 3, permA := false }

/-- RM of a fold: used under FP32 only, and 0 otherwise; either way a wrong value is 0x04 (06 R142). -/
def foldCheck (uMask : BitVec 4) (rounds : Bool) (w : VecW) : Sub :=
  vecCheck
    { moveUse with
      uMask := uMask
      rmKind := if rounds && w.t = Fmt.fp32 then 1 else 3
      sUse := uMask = 1 && w.u = 1 } w

/-- CVT's rounding field: .RS only with a destination of FP16, BF16, E4M3 or E5M2 (02 R34). -/
def rsDests : List (BitVec 4) := [Fmt.fp16, Fmt.bf16, Fmt.e4m3, Fmt.e5m2]

def shfl32 (w : VecW) : Bool := w.i = 1 && w.imm.extractLsb' 5 27 != 0

/-- The static checks of 03 R72 step 5 for each instruction word; none for events. -/
def Instr.staticCheck : Instr → Sub
  | .nop w | .fuse w | .exit w | .yield w | .eret w => ctrlCheck {} w
  | .bra w | .trap w | .brk w | .syscall w => ctrlCheck { imm := true } w
  | .brx w => ctrlCheck { sa := true } w
  | .call w => ctrlCheck { vd := true, imm := true } w
  | .callx w => ctrlCheck { vd := true, sa := true } w
  | .ret w => ctrlCheck { va := true } w
  | .sread w => ctrlCheck { vd := w.vx = 1, sd := w.vx = 0, vx := true, imm := true, immMask := 0xFF } w
      (srNumbers.contains w.imm.toNat)
  | .swrite w => ctrlCheck { va := w.vx = 1, sa := w.vx = 0, vx := true, imm := true, immMask := 0xFF } w
      (srNumbers.contains w.imm.toNat)
  | .sleep w => ctrlCheck { sa := w.i = 0, imm := w.i = 1, iOk := true } w
  | .smov w => scalCheck { nsrc := 1, iKind := 0 } w
  | .smovi w => scalCheck { nsrc := 0, iKind := 2 } w
  | .smovi64 w hi => Sub.or (scalCheck { nsrc := 0, iKind := 2 } w) (Sub.when (hi.extractLsb' 32 96 != 0) 0x03)
  | .sadd w | .ssub w | .smul w | .sand w | .sor w | .sxor w | .sshl w | .sshr w | .ssra w => scalCheck {} w
  | .smulh w | .smin w | .smax w => scalCheck { auxs := [0, 1] } w
  | .scmp w => scalCheck { auxs := allU } w
  | .ssel w => scalCheck { nsrc := 3 } w
  | .sclz w | .spopc w => scalCheck { nsrc := 1 } w
  | .vtos w => scalCheck { nsrc := 0, vr := true, ev := true, auxs := [0, 1], iKind := 0 } w
  | .stov w => scalCheck { sd := false, nsrc := 1, vr := true } w
  | .slea w => scalCheck { auxs := [0, 1, 2, 3, 4, 5, 6, 7, 8, 9, 10, 11, 12, 13, 14, 15] } w
  | .iadd w | .isub w => vecCheck { uMask := 1 } w
  | .imul w | .imulh w | .imin w | .imax w | .and w | .or w | .xor w | .shl w | .shr w | .sra w | .rot w =>
      vecCheck {} w
  | .imad w | .bfe w | .bfi w => vecCheck { nsrc := 3 } w
  | .iabs w => vecCheck { nsrc := 1, ts := [Fmt.si32, Fmt.si64], uMask := 1 } w
  | .ineg w => vecCheck { nsrc := 1, uMask := 1 } w
  | .not w | .clz w | .popc w | .brev w => vecCheck { nsrc := 1 } w
  | .icmp w => vecCheck { d := false, pd := true, uMask := 0xF, us := [0, 1, 2, 3, 4, 5] } w
  | .sel w => vecCheck { pd := true } w
  | .mov w => vecCheck { nsrc := 1, immOk := false } w
  | .movi w => Sub.or (Sub.when (w.i = 0) 0x03) (vecCheck { nsrc := 1 } w)
  | .iaddsh w => vecCheck { uMask := 0xF } w
  | .idot4 w => vecCheck { nsrc := 3, ts := [Fmt.si32, Fmt.ui32] } w
  | .fadd w | .fsub w | .fmul w => vecCheck (fpUse 2) w
  | .ffma w => vecCheck (fpUse 3) w
  | .fmin w | .fmax w => vecCheck { nsrc := 2, ts := [Fmt.fp32], uMask := 0xF } w
  | .fcmp w => vecCheck { d := false, pd := true, ts := [Fmt.fp32], uMask := 0xF, us := allU } w
  | .fclass w => vecCheck { nsrc := 1, ts := [Fmt.fp32] } w
  | .frnd w | .ffract w => vecCheck (fpUse0 1) w
  | .fdot2 w => vecCheck { nsrc := 3, ts := [Fmt.fp16, Fmt.bf16], rmKind := 1 } w
  | .fscale w | .fdiv w => vecCheck (fpUse0 2) w
  | .cvt w => vecCheck { nsrc := 1, ts := Fmt.cvts, uMask := 0xF, us := Fmt.cvts, rmKind := 2, rsFmts := rsDests,
                          sSeed := true } w
  | .pack w => vecCheck { nsrc := (if [Fmt.fp16, Fmt.bf16, Fmt.si16, Fmt.ui16].contains w.t then 2 else 3),
                          ts := Fmt.packs, uMask := 0xF, us := [Fmt.fp32, Fmt.si32, Fmt.ui32], rmKind := 2,
                          rsFmts := rsDests, sSeed := true } w
  | .unpack w => vecCheck { nsrc := 2, ts := [Fmt.fp32, Fmt.si32, Fmt.ui32], uMask := 0xF, us := Fmt.packs,
                            rmKind := 1 } w
  | .qnt w => vecCheck { nsrc := 1, ts := [Fmt.e4m3, Fmt.e5m2, Fmt.lg6], uMask := 0xF, us := [Fmt.fp32], rmKind := 2,
                         rsFmts := [Fmt.e4m3, Fmt.e5m2], rms := [0], sSeed := true } w
  | .dqnt w => vecCheck { nsrc := 2, ts := [Fmt.e4m3, Fmt.e5m2, Fmt.lg6], uMask := 0xF, us := [Fmt.fp32],
                          rmKind := 1 } w
  | .rcp w | .rsq w | .exp2 w | .log2 w | .sin w | .cos w | .tanh w => vecCheck sfuUse w
  | .sqrt w => vecCheck (fpUse0 1) w
  | .vpair w => pairCheck w
  | .shfl w | .push w => Sub.or (Sub.when (shfl32 w) 0x03) (vecCheck shflUse w)
  | .ballot w => vecCheck { voteUse with d := true, pd := false } w
  | .voteall w | .voteany w => vecCheck voteUse w
  | .voteeq w => vecCheck { moveUse with d := false, pd := true } w
  | .cmprs w | .expnd w => vecCheck { moveUse with uMask := 0xF } w
  | .slup w | .sldn w => vecCheck { moveUse with sUse := true } w
  | .redadd w => foldCheck 1 true w
  | .redmin w | .redmax w => foldCheck 1 false w
  | .scanadd w => foldCheck 2 true w
  | .matchLanes w => vecCheck moveUse w
  | .actmask w => vecCheck { voteUse with d := true, pd := false, uMask := 0 } w
  | .ld w => memCheck { sx := true } w
  | .st w => memCheck { ed := true } w
  | .ldu w => memCheck { vdMask := 0x3F, wds := [0, 1, 2, 3], sx := true } w
  | .atom w => memCheck { vb := true, pls := [0, 1], wds := [2, 3], atom := true } w
  | .red w => memCheck { vd := false, vb := true, pls := [0, 1], wds := [2, 3], atom := true } w
  | .cas w => memCheck { ed := true, vb := true, pls := [0, 1], wds := [2, 3] } w
  | .ord w => ordCheck [0, 1, 2, 3, 4] true w
  | .fence w => ordCheck [1, 2, 3, 4] true w
  | .waitc w => memCheck { ed := true, vb := true, sps := [0, 1, 2], pls := [0, 1], wds := [2, 3], cm := true,
                           sx := true } w
  | .pref w => memCheck { vd := false, sps := [0], pls := [0, 1], wd := false } w
  | .invt w => ordCheck [] false w
  | .mma w k => mmaCheck { vd := true, va := true, vb := true, vst := true, sk := true, sa := true, sb := true,
                           asK := 1, bsK := 1, fa := true, fb := true, fas := mmaFmts, fbs := mmaFmts, win := true } w
      (scaleBad k (scaledFmt w.fa) (scaledFmt w.fb))
      ((w.fa = Fmt.bf16 && w.fb = Fmt.fp16) || (w.fa = Fmt.fp16 && w.fb = Fmt.bf16))
  | .tlma w k => mmaCheck { vd := true, vb := true, vst := true, sk := true, sa := true, sb := true, asK := 2,
                            bsK := 1, fa := true, fas := [0], win := true, trUsed := true } w (scaleBad k false true)
  | .tlpre w => mmaCheck { va := true, vst := true, sk := true, sa := true, sb := true, asK := 1, bsK := 2,
                           fa := true, fas := [Fmt.bf16] } w
  | .mzero w => mmaCheck { vd := true, vst := w.tr = 1, trUsed := true } w
  | .mldt w => mmaCheck { vd := true, sk := true, sa := true, fa := true, fas := mmaFmts, trUsed := true,
                          imm := true } w false (w.tr = 1 && w.fa = Fmt.lg6)
  | .mstt w => mmaCheck { vd := true, sa := true, fd := true, fds := Fmt.fp32 :: mmaFmts, trUsed := true,
                          imm := true } w false (w.tr = 1 && w.fd = Fmt.lg6)
  | .rast w => rastCheck w
  | .blend w => macroCheck w (w.mods.extractLsb' 1 7 != 0) false false true
  | .filt w => macroCheck w (w.s2 != 0 || w.mods.extractLsb' 1 7 != 0) false false true
  | .trav w => macroCheck w (w.s1 != 0 || w.s2 != 0 || w.mods.extractLsb' 2 6 != 0) false true false
  | .bin w => binCheck w
  | .binPop w => binPopCheck w
  | .mcode _ w => macroCheck w false false false false
  | .bar w => syncCheck { sa := w.aux = 1, imm0 := 0xF, auxUsed := true, auxs := [0, 1] } w
  | .barc w => syncCheck { imm0 := 0x3, auxUsed := true, auxs := [0] } w
  | .barcFinal w => syncCheck { auxUsed := true, auxs := [1] } w
  | .barg w => syncCheck { imm0 := 0x3 } w
  | .grd w => syncCheck { sd := true, gr := true } w
  | .gwr w => syncCheck { gr := true, sa := true, iOk := true } w
  | .gatom w => syncCheck { sd := true, gr := true, sa := true, iOk := true, auxUsed := true,
                            auxs := [0, 1, 2, 3, 4, 5, 6, 7, 8] } w
  | .xclaim w | .xgive w => syncCheck { sa := true, iOk := true } w
  | .xquery w => syncCheck { sd := true } w
  | .spawn w => syncCheck { pd := true, va := true, sa := true, iOk := true } w
  | .spawnf w => syncCheck { sa := w.aux = 0, iOk := w.aux = 0, auxUsed := true, auxs := [0, 1] } w
  | .qpop w => syncCheck { vd := true, sd := true, sa := true } w
  | .qpush w => syncCheck { pd := true, va := true, sa := true } w
  | .cancel w => syncCheck { imm0 := 0x7 } w false (5 ≤ w.imm.toNat)
  | .cntrd w => syncCheck { sd := true, imm0 := 0x7 } w false (w.imm = 0 || 5 ≤ w.imm.toNat)
  | .cecopy w k => engCheck { rt := true, two := true } w
      (w.two = 1 && k.extractLsb' 0 40 != 0) (w.two = 1 && k.extractLsb' 104 16 = 0)
  | .cegath w k => engCheck { rt := true } w (k.extractLsb' 0 95 != 0)
  | .cescat w k => engCheck {} w (k.extractLsb' 0 95 != 0)
  | .cefill w => engCheck { ss := false, imm := true } w
  | .cedec w k => engCheck { ssps := [0], dsps := [0, 1], imm := true, immMask := 0x7FF } w (k.extractLsb' 0 76 != 0)
  | .cestat w => engCheck { ss := false, sn := false } w
  | .tnop w | .tfence w | .tphase w | .tend w => taskCheck {} w
  | .tbind w => taskCheck { ta := true, ka := true, kb := true, fmt := true, fmts := bindFmts } w
  | .tfree w => taskCheck { ta := true } w
  | .tlaunch w _ => taskCheck { ka := true, kb := true, kc := true, nb := true, outs := true, early := true,
                                pri := true } w false (24 < w.kc.toNat)
  | .tdraw w _ => taskCheck { ta := true, ka := true, kb := true, kc := true, kd := true, nb := true, outs := true,
                              early := true, pri := true } w false (w.nb = 8)
  | .tcopy w => taskCheck { ta := true, tb := true, ka := true, kb := true, kc := true, subMask := 1, subs := [0, 1],
                            early := true } w
  | .tfill w => taskCheck { ta := true, ka := true, kb := true, subMask := 1, subs := [0, 1], early := true,
                            imm := true } w
  | .tallred w | .trdscat w => taskCheck { ta := true, tb := true, ka := true, fmt := true, fmts := collFmts,
                                           subMask := 0xF, subs := [0, 1, 2], early := true } w
  | .tallgat w =>
    taskCheck { ta := true, tb := true, ka := true, fmt := true, fmts := collFmts, early := true, subMask := 0xF, subs := [0] } w
  | .tpresent w => taskCheck { ta := true, ka := true, subMask := 0xF, subs := [1, 2, 3] } w
  | .twait w => taskCheck { ka := true, kb := true, subMask := 0xF, subs := [0, 1, 2, 3] } w
  | .tsignal w | .tgroup w => taskCheck { ka := true, kb := true } w
  | .tkmov w => taskCheck { ka := true, kb := w.sub = 1, subMask := 1, subs := [0, 1], imm := w.sub = 0 } w
  | .tkadd w => taskCheck { ka := true, kb := true, kc := w.sub = 1, subMask := 1, subs := [0, 1],
                            imm := w.sub = 0 } w
  | .tkld w => taskCheck { ka := true, kb := true, imm := true } w
  | .tkbr w => taskCheck { ka := true, kb := true, subMask := 0xF, subs := [0, 1, 2, 3, 4, 5], imm := true } w
  | _ => none

end Sys2Proof
end

