-- ==== Sys2Proof/WellFormed.lean ====
section
/-! DEFINITION. Well-formed instruction words: those that spec 03 can encode and that pass every check of 03 R72 that
needs no machine state. -/

namespace Sys2Proof

/-- The instruction is a word of the spec's encoding tables (not a machine or host event). -/
def Instr.hasWord : Instr → Bool
  | .mma w k => mmaTakesCont w || k = 0
  | .cecopy w k => w.two = 1 || k = 0
  | .tlaunch w bs | .tdraw w bs => w.nb.toNat = bs.length
  | .mcode op _ => 0x40 ≤ op.toNat
  | .bin w => !modBit w 1
  | .binPop w => modBit w 1
  | .barc w => w.aux != 1
  | .barcFinal w => w.aux = 1
  | .vpair w => (copOf w.x.cop).isSome && (copOf w.y.cop).isSome
  | .producerWriteback .. | .laneExited .. | .sleepWake .. | .activeSetRemove .. | .quadSplit .. | .timeSliceEnd ..
  | .admission .. | .drainTimeout .. | .contextSave .. | .contextRestore .. | .xclaimGrant .. | .xgiveCredit ..
  | .regDeadlockReport .. | .latheStep .. | .matrixPassStart .. | .matrixBlock .. | .rdvStallWatchdog ..
  | .binTimerExpire .. | .binLaunch .. | .starterWave .. | .waitcWake .. | .parkedPoll .. | .qpopCopy ..
  | .wcbLineDrain .. | .wcbDrainTimeout .. | .engComplete .. | .pageFaultService .. | .pfholdTimeout ..
  | .pfrespReplay .. | .pfrespDeny .. | .tlbInvalidate .. | .eccError .. | .taskComplete .. | .taskRetire ..
  | .hostCancel .. | .tctlGo .. | .tctlHalt .. | .freeadd .. | .wlimitWrite .. | .qtailWrite .. | .clkpatWrite ..
  | .slopeWrite .. | .pcapWrite .. | .registerWrite .. | .bootctlGo | .bootctlRestart .. | .powerUp
  | .partitionReset .. | .functionLevelReset | .coldReset | .mailboxWrite .. | .microcodeLoad .. | .getVersion
  | .getCapabilities | .negotiateAlgorithms .. | .getDigests | .getCertificate .. | .challenge ..
  | .getMeasurements .. | .keyExchange .. | .finish .. | .fwHeartbeat .. | .peakTick .. | .intervalBoundary
  | .powerMsTick .. | .headFrameStart .. | .encoderFrameDone .. | .encReadposWrite .. | .flitReceive ..
  | .linkRetrain .. | .peerAccessReceive .. | .noticeReceive .. | .heartbeatSend .. | .ceilingChange
  | .clockLowerBegin .. | .memberDrop .. | .snapshotTimeout .. | .collectiveHeaderReceive .. | .ethFrameReceive ..
  | .dataPkt .. | .ackPkt .. | .nackPkt .. | .noticePkt .. | .timePkt .. | .ackTimer .. | .retransmitTimeout ..
  | .pfcReceive .. | .illegalEncoding .. | .fetchFault .. | .hostLinkAccess .. | .tdispRequest ..
  | .spdmSessionMessage .. | .bootImageCheckDone | .linkRetrainDone .. | .ethLinkUpDown .. | .fecAlignmentLock ..
  | .pfcPauseExpiry .. | .powerOff => false
  | _ => true

/-- A well-formed instruction word: encodable, and it passes every check that needs no state. -/
def Instr.wf (i : Instr) : Bool := i.hasWord && i.staticCheck = none

end Sys2Proof
end

