-- ==== Sys2Proof/Decode.lean ====
section
/-! DEFINITION. The decoder of instruction words (03 Tables 19 to 30 and 33, 16 Tables 116 to 118), total on any words,
and beside it the encoder, written from the same tables. -/

namespace Sys2Proof

/-- Fields of a word, 03 Table 22. -/
def CtrlW.unpack (w : IWord) : CtrlW :=
  { g := w.extractLsb' 112 4, vd := w.extractLsb' 104 8, va := w.extractLsb' 96 8, sd := w.extractLsb' 90 6,
    sa := w.extractLsb' 84 6, vx := w.extractLsb' 83 1, ea := w.extractLsb' 82 1, pma := w.extractLsb' 74 8,
    rsv1 := w.extractLsb' 53 21, i := w.extractLsb' 52 1, rsv2 := w.extractLsb' 32 20, imm := w.extractLsb' 0 32 }
/-- The word of a class and opcode with these fields. -/
def CtrlW.pack (cls : BitVec 4) (op : BitVec 8) (w : CtrlW) : IWord :=
  cls ++ op ++ w.g ++ w.vd ++ w.va ++ w.sd ++ w.sa ++ w.vx ++ w.ea ++ w.pma ++ w.rsv1 ++ w.i ++ w.rsv2 ++ w.imm

/-- Fields of a word, 03 Table 23. -/
def ScalW.unpack (w : IWord) : ScalW :=
  { g := w.extractLsb' 112 4, sd := w.extractLsb' 106 6, sa := w.extractLsb' 100 6, sb := w.extractLsb' 94 6,
    sc := w.extractLsb' 88 6, vr := w.extractLsb' 80 8, pmv := w.extractLsb' 72 8, ev := w.extractLsb' 71 1,
    aux := w.extractLsb' 67 4, rsv1 := w.extractLsb' 53 14, i := w.extractLsb' 52 1, rsv2 := w.extractLsb' 32 20,
    imm := w.extractLsb' 0 32 }
/-- The word of a class and opcode with these fields. -/
def ScalW.pack (cls : BitVec 4) (op : BitVec 8) (w : ScalW) : IWord :=
  cls ++ op ++ w.g ++ w.sd ++ w.sa ++ w.sb ++ w.sc ++ w.vr ++ w.pmv ++ w.ev ++ w.aux ++ w.rsv1 ++ w.i ++ w.rsv2
    ++ w.imm

/-- Fields of a word, 03 Table 21. -/
def VecW.unpack (w : IWord) : VecW :=
  { g := w.extractLsb' 112 4, d := w.extractLsb' 104 8, a := w.extractLsb' 96 8, pma := w.extractLsb' 88 8,
    b := w.extractLsb' 80 8, pmb := w.extractLsb' 72 8, c := w.extractLsb' 64 8, pmc := w.extractLsb' 56 8,
    ea := w.extractLsb' 55 1, eb := w.extractLsb' 54 1, ec := w.extractLsb' 53 1, i := w.extractLsb' 52 1,
    t := w.extractLsb' 48 4, u := w.extractLsb' 44 4, rm := w.extractLsb' 41 3, pd := w.extractLsb' 38 3,
    s := w.extractLsb' 32 6, imm := w.extractLsb' 0 32 }
/-- The word of a class and opcode with these fields. -/
def VecW.pack (cls : BitVec 4) (op : BitVec 8) (w : VecW) : IWord :=
  cls ++ op ++ w.g ++ w.d ++ w.a ++ w.pma ++ w.b ++ w.pmb ++ w.c ++ w.pmc ++ w.ea ++ w.eb ++ w.ec ++ w.i ++ w.t
    ++ w.u ++ w.rm ++ w.pd ++ w.s ++ w.imm

/-- Fields of a word, 03 Table 24. -/
def MemW.unpack (w : IWord) : MemW :=
  { g := w.extractLsb' 112 4, vd := w.extractLsb' 104 8, va := w.extractLsb' 96 8, pma := w.extractLsb' 88 8,
    vb := w.extractLsb' 80 8, pmb := w.extractLsb' 72 8, sb := w.extractLsb' 66 6, sp := w.extractLsb' 64 2,
    pl := w.extractLsb' 62 2, wd := w.extractLsb' 59 3, ao := w.extractLsb' 55 4, od := w.extractLsb' 52 3,
    sc := w.extractLsb' 49 3, cm := w.extractLsb' 46 3, vx := w.extractLsb' 45 1, sx := w.extractLsb' 44 1,
    ed := w.extractLsb' 43 1, ea := w.extractLsb' 42 1, eb := w.extractLsb' 41 1, nb := w.extractLsb' 40 1,
    rsv := w.extractLsb' 32 8, imm := w.extractLsb' 0 32 }
/-- The word of a class and opcode with these fields. -/
def MemW.pack (cls : BitVec 4) (op : BitVec 8) (w : MemW) : IWord :=
  cls ++ op ++ w.g ++ w.vd ++ w.va ++ w.pma ++ w.vb ++ w.pmb ++ w.sb ++ w.sp ++ w.pl ++ w.wd ++ w.ao ++ w.od
    ++ w.sc ++ w.cm ++ w.vx ++ w.sx ++ w.ed ++ w.ea ++ w.eb ++ w.nb ++ w.rsv ++ w.imm

/-- Fields of a word, 03 Table 25. -/
def MmaW.unpack (w : IWord) : MmaW :=
  { g := w.extractLsb' 112 4, vd := w.extractLsb' 104 8, va := w.extractLsb' 96 8, vb := w.extractLsb' 88 8,
    vst := w.extractLsb' 80 8, sk := w.extractLsb' 74 6, sa0 := w.extractLsb' 68 6, sa1 := w.extractLsb' 62 6,
    sb0 := w.extractLsb' 56 6, sb1 := w.extractLsb' 50 6, as := w.extractLsb' 49 1, bs := w.extractLsb' 48 1,
    fa := w.extractLsb' 44 4, fb := w.extractLsb' 40 4, win := w.extractLsb' 39 1, fd := w.extractLsb' 35 4,
    tr := w.extractLsb' 34 1, ea := w.extractLsb' 33 1, eb := w.extractLsb' 32 1, imm := w.extractLsb' 0 32 }
/-- The word of a class and opcode with these fields. -/
def MmaW.pack (cls : BitVec 4) (op : BitVec 8) (w : MmaW) : IWord :=
  cls ++ op ++ w.g ++ w.vd ++ w.va ++ w.vb ++ w.vst ++ w.sk ++ w.sa0 ++ w.sa1 ++ w.sb0 ++ w.sb1 ++ w.as ++ w.bs
    ++ w.fa ++ w.fb ++ w.win ++ w.fd ++ w.tr ++ w.ea ++ w.eb ++ w.imm

/-- Fields of a word, 03 Table 26. -/
def MacroW.unpack (w : IWord) : MacroW :=
  { g := w.extractLsb' 112 4, vs := w.extractLsb' 104 8, vi := w.extractLsb' 96 8, vo := w.extractLsb' 88 8,
    s0 := w.extractLsb' 82 6, s1 := w.extractLsb' 76 6, s2 := w.extractLsb' 70 6, mods := w.extractLsb' 62 8,
    ei := w.extractLsb' 61 1, rsv := w.extractLsb' 32 29, imm := w.extractLsb' 0 32 }
/-- The word of a class and opcode with these fields. -/
def MacroW.pack (cls : BitVec 4) (op : BitVec 8) (w : MacroW) : IWord :=
  cls ++ op ++ w.g ++ w.vs ++ w.vi ++ w.vo ++ w.s0 ++ w.s1 ++ w.s2 ++ w.mods ++ w.ei ++ w.rsv ++ w.imm

/-- Fields of a word, 03 Table 27. -/
def SyncW.unpack (w : IWord) : SyncW :=
  { g := w.extractLsb' 112 4, vd := w.extractLsb' 104 8, va := w.extractLsb' 96 8, pma := w.extractLsb' 88 8,
    sd := w.extractLsb' 82 6, sa := w.extractLsb' 76 6, gr := w.extractLsb' 71 5, aux := w.extractLsb' 67 4,
    pd := w.extractLsb' 64 3, ea := w.extractLsb' 63 1, rsv1 := w.extractLsb' 53 10, i := w.extractLsb' 52 1,
    rsv2 := w.extractLsb' 32 20, imm := w.extractLsb' 0 32 }
/-- The word of a class and opcode with these fields. -/
def SyncW.pack (cls : BitVec 4) (op : BitVec 8) (w : SyncW) : IWord :=
  cls ++ op ++ w.g ++ w.vd ++ w.va ++ w.pma ++ w.sd ++ w.sa ++ w.gr ++ w.aux ++ w.pd ++ w.ea ++ w.rsv1 ++ w.i
    ++ w.rsv2 ++ w.imm

/-- Fields of a word, 03 Table 28. -/
def EngW.unpack (w : IWord) : EngW :=
  { g := w.extractLsb' 112 4, ss := w.extractLsb' 106 6, sd := w.extractLsb' 100 6, sn := w.extractLsb' 94 6,
    sg := w.extractLsb' 88 6, sv := w.extractLsb' 82 6, acq := w.extractLsb' 81 1, rel := w.extractLsb' 80 1,
    sc := w.extractLsb' 77 3, ssp := w.extractLsb' 75 2, dsp := w.extractLsb' 73 2, fst := w.extractLsb' 65 8,
    sig := w.extractLsb' 64 1, vr := w.extractLsb' 56 8, rt := w.extractLsb' 55 1, two := w.extractLsb' 54 1,
    rsv := w.extractLsb' 32 22, imm := w.extractLsb' 0 32 }
/-- The word of a class and opcode with these fields. -/
def EngW.pack (cls : BitVec 4) (op : BitVec 8) (w : EngW) : IWord :=
  cls ++ op ++ w.g ++ w.ss ++ w.sd ++ w.sn ++ w.sg ++ w.sv ++ w.acq ++ w.rel ++ w.sc ++ w.ssp ++ w.dsp ++ w.fst
    ++ w.sig ++ w.vr ++ w.rt ++ w.two ++ w.rsv ++ w.imm

/-- Fields of a task word, 16 Table 116. -/
def TaskW.unpack (w : IWord) : TaskW :=
  { early := w.extractLsb' 115 1, outs := w.extractLsb' 114 1, pri := w.extractLsb' 112 2, ta := w.extractLsb' 106 6,
    tb := w.extractLsb' 100 6, ka := w.extractLsb' 94 6, kb := w.extractLsb' 88 6, kc := w.extractLsb' 82 6,
    kd := w.extractLsb' 76 6, fmt := w.extractLsb' 72 4, sub := w.extractLsb' 68 4, nb := w.extractLsb' 64 4,
    rsv := w.extractLsb' 32 32, imm := w.extractLsb' 0 32 }
/-- The word of a class and opcode with these fields. -/
def TaskW.pack (cls : BitVec 4) (op : BitVec 8) (w : TaskW) : IWord :=
  cls ++ op ++ w.early ++ w.outs ++ w.pri ++ w.ta ++ w.tb ++ w.ka ++ w.kb ++ w.kc ++ w.kd ++ w.fmt ++ w.sub
    ++ w.nb ++ w.rsv ++ w.imm

/-- One half of a VPAIR word, 03 Table 29. -/
def HalfW.unpack (h : BitVec 60) : HalfW :=
  { cop := h.extractLsb' 53 7, g := h.extractLsb' 49 4, d := h.extractLsb' 41 8, a := h.extractLsb' 33 8,
    b := h.extractLsb' 25 8, c := h.extractLsb' 17 8, cnd := h.extractLsb' 14 3, ea := h.extractLsb' 13 1,
    eb := h.extractLsb' 12 1, ec := h.extractLsb' 11 1, pms := h.extractLsb' 3 8, rsv := h.extractLsb' 0 3 }
def HalfW.pack (h : HalfW) : BitVec 60 :=
  h.cop ++ h.g ++ h.d ++ h.a ++ h.b ++ h.c ++ h.cnd ++ h.ea ++ h.eb ++ h.ec ++ h.pms ++ h.rsv
/-- A VPAIR word, 03 R60. -/
def PairW.unpack (w : IWord) : PairW :=
  { sh := w.extractLsb' 123 1, rsv := w.extractLsb' 120 3, x := HalfW.unpack (w.extractLsb' 60 60),
    y := HalfW.unpack (w.extractLsb' 0 60) }
def PairW.pack (w : PairW) : IWord := (3 : BitVec 4) ++ w.sh ++ w.rsv ++ w.x.pack ++ w.y.pack

/-- A binding word, 16 Table 117. -/
def BindW.unpack (w : IWord) : BindW :=
  { mark := w.extractLsb' 116 12, mode := w.extractLsb' 114 2, t := w.extractLsb' 108 6, ko := w.extractLsb' 102 6,
    kl := w.extractLsb' 96 6, whole := w.extractLsb' 95 1, res := w.extractLsb' 94 1, rsv := w.extractLsb' 0 94 }
def BindW.pack (b : BindW) : IWord := b.mark ++ b.mode ++ b.t ++ b.ko ++ b.kl ++ b.whole ++ b.res ++ b.rsv

/-- Class, opcode and continuation payload of a word (03 R46, R47, R58). -/
def clsOf (w : IWord) : BitVec 4 := w.extractLsb' 124 4
def opOf (w : IWord) : BitVec 8 := w.extractLsb' 116 8
def payloadOf (w : IWord) : BitVec 120 := w.extractLsb' 0 120
/-- A continuation word of an owner (03 R58). -/
def isCont (own : BitVec 4) (w : IWord) : Bool := clsOf w = 0xF && w.extractLsb' 120 4 = own
/-- The continuation word of an owner with a payload. -/
def contWord (own : BitVec 4) (k : BitVec 120) : IWord := (0xF : BitVec 4) ++ own ++ k
/-- The payload of the word that follows, or 0 where the word takes none. -/
def contPayload (takes : Bool) (next : IWord) : BitVec 120 := if takes then payloadOf next else 0

/-- Opcodes of class CTRL, 03 Table 33. -/
def decodeCtrl (w : IWord) : Option Instr :=
  match (opOf w).toNat with
  | 0x0 => some (.nop (.unpack w))
  | 0x1 => some (.bra (.unpack w))
  | 0x2 => some (.brx (.unpack w))
  | 0x3 => some (.call (.unpack w))
  | 0x4 => some (.callx (.unpack w))
  | 0x5 => some (.ret (.unpack w))
  | 0x6 => some (.fuse (.unpack w))
  | 0x7 => some (.exit (.unpack w))
  | 0x8 => some (.trap (.unpack w))
  | 0x9 => some (.brk (.unpack w))
  | 0xa => some (.yield (.unpack w))
  | 0xb => some (.sread (.unpack w))
  | 0xc => some (.swrite (.unpack w))
  | 0xd => some (.eret (.unpack w))
  | 0xe => some (.syscall (.unpack w))
  | 0xf => some (.sleep (.unpack w))
  | _ => none

/-- Opcodes of class SCAL, 03 Table 33. -/
def decodeScal (w : IWord) (next : IWord) : Option Instr :=
  match (opOf w).toNat with
  | 0x0 => some (.smov (.unpack w))
  | 0x1 => some (.smovi (.unpack w))
  | 0x2 => some (.smovi64 (.unpack w) next)
  | 0x3 => some (.sadd (.unpack w))
  | 0x4 => some (.ssub (.unpack w))
  | 0x5 => some (.smul (.unpack w))
  | 0x6 => some (.smulh (.unpack w))
  | 0x7 => some (.sand (.unpack w))
  | 0x8 => some (.sor (.unpack w))
  | 0x9 => some (.sxor (.unpack w))
  | 0xa => some (.sshl (.unpack w))
  | 0xb => some (.sshr (.unpack w))
  | 0xc => some (.ssra (.unpack w))
  | 0xd => some (.scmp (.unpack w))
  | 0xe => some (.ssel (.unpack w))
  | 0xf => some (.smin (.unpack w))
  | 0x10 => some (.smax (.unpack w))
  | 0x11 => some (.sclz (.unpack w))
  | 0x12 => some (.spopc (.unpack w))
  | 0x13 => some (.vtos (.unpack w))
  | 0x14 => some (.stov (.unpack w))
  | 0x15 => some (.slea (.unpack w))
  | _ => none

/-- Opcodes of class VSGL, 03 Table 33. -/
def decodeVsgl (w : IWord) : Option Instr :=
  match (opOf w).toNat with
  | 0x0 => some (.iadd (.unpack w))
  | 0x1 => some (.isub (.unpack w))
  | 0x2 => some (.imul (.unpack w))
  | 0x3 => some (.imulh (.unpack w))
  | 0x4 => some (.imad (.unpack w))
  | 0x5 => some (.imin (.unpack w))
  | 0x6 => some (.imax (.unpack w))
  | 0x7 => some (.iabs (.unpack w))
  | 0x8 => some (.ineg (.unpack w))
  | 0x9 => some (.and (.unpack w))
  | 0xa => some (.or (.unpack w))
  | 0xb => some (.xor (.unpack w))
  | 0xc => some (.not (.unpack w))
  | 0xd => some (.shl (.unpack w))
  | 0xe => some (.shr (.unpack w))
  | 0xf => some (.sra (.unpack w))
  | 0x10 => some (.rot (.unpack w))
  | 0x11 => some (.bfe (.unpack w))
  | 0x12 => some (.bfi (.unpack w))
  | 0x13 => some (.clz (.unpack w))
  | 0x14 => some (.popc (.unpack w))
  | 0x15 => some (.brev (.unpack w))
  | 0x16 => some (.icmp (.unpack w))
  | 0x17 => some (.sel (.unpack w))
  | 0x18 => some (.mov (.unpack w))
  | 0x19 => some (.movi (.unpack w))
  | 0x1a => some (.iaddsh (.unpack w))
  | 0x1b => some (.idot4 (.unpack w))
  | 0x20 => some (.fadd (.unpack w))
  | 0x21 => some (.fsub (.unpack w))
  | 0x22 => some (.fmul (.unpack w))
  | 0x23 => some (.ffma (.unpack w))
  | 0x24 => some (.fmin (.unpack w))
  | 0x25 => some (.fmax (.unpack w))
  | 0x26 => some (.fcmp (.unpack w))
  | 0x27 => some (.fclass (.unpack w))
  | 0x28 => some (.frnd (.unpack w))
  | 0x29 => some (.fdot2 (.unpack w))
  | 0x2a => some (.fscale (.unpack w))
  | 0x2b => some (.ffract (.unpack w))
  | 0x2c => some (.fdiv (.unpack w))
  | 0x30 => some (.cvt (.unpack w))
  | 0x31 => some (.pack (.unpack w))
  | 0x32 => some (.unpack (.unpack w))
  | 0x33 => some (.qnt (.unpack w))
  | 0x34 => some (.dqnt (.unpack w))
  | 0x38 => some (.rcp (.unpack w))
  | 0x39 => some (.rsq (.unpack w))
  | 0x3a => some (.sqrt (.unpack w))
  | 0x3b => some (.exp2 (.unpack w))
  | 0x3c => some (.log2 (.unpack w))
  | 0x3d => some (.sin (.unpack w))
  | 0x3e => some (.cos (.unpack w))
  | 0x3f => some (.tanh (.unpack w))
  | _ => none

/-- Opcodes of class XLANE, 03 Table 33. -/
def decodeXlane (w : IWord) : Option Instr :=
  match (opOf w).toNat with
  | 0x0 => some (.shfl (.unpack w))
  | 0x1 => some (.push (.unpack w))
  | 0x2 => some (.ballot (.unpack w))
  | 0x3 => some (.voteall (.unpack w))
  | 0x4 => some (.voteany (.unpack w))
  | 0x5 => some (.voteeq (.unpack w))
  | 0x6 => some (.cmprs (.unpack w))
  | 0x7 => some (.expnd (.unpack w))
  | 0x8 => some (.slup (.unpack w))
  | 0x9 => some (.sldn (.unpack w))
  | 0xa => some (.redadd (.unpack w))
  | 0xb => some (.redmin (.unpack w))
  | 0xc => some (.redmax (.unpack w))
  | 0xd => some (.scanadd (.unpack w))
  | 0xe => some (.matchLanes (.unpack w))
  | 0xf => some (.actmask (.unpack w))
  | _ => none

/-- Opcodes of class MEM, 03 Table 33. -/
def decodeMem (w : IWord) : Option Instr :=
  match (opOf w).toNat with
  | 0x0 => some (.ld (.unpack w))
  | 0x1 => some (.st (.unpack w))
  | 0x2 => some (.ldu (.unpack w))
  | 0x3 => some (.atom (.unpack w))
  | 0x4 => some (.red (.unpack w))
  | 0x5 => some (.cas (.unpack w))
  | 0x6 => some (.ord (.unpack w))
  | 0x7 => some (.fence (.unpack w))
  | 0x8 => some (.waitc (.unpack w))
  | 0x9 => some (.pref (.unpack w))
  | 0xa => some (.invt (.unpack w))
  | _ => none

/-- Opcodes of class MMA, 03 Table 33. -/
def decodeMma (w : IWord) (next : IWord) : Option Instr :=
  match (opOf w).toNat with
  | 0x0 => some (.mma (.unpack w) (contPayload (mmaTakesCont (.unpack w)) next))
  | 0x1 => some (.tlma (.unpack w) (payloadOf next))
  | 0x2 => some (.tlpre (.unpack w))
  | 0x3 => some (.mzero (.unpack w))
  | 0x4 => some (.mldt (.unpack w))
  | 0x5 => some (.mstt (.unpack w))
  | _ => none

/-- Opcodes of class SYNC, 03 Table 33. -/
def decodeSync (w : IWord) : Option Instr :=
  match (opOf w).toNat with
  | 0x0 => some (.bar (.unpack w))
  | 0x1 => some (if w.extractLsb' 67 4 = 1 then .barcFinal (.unpack w) else .barc (.unpack w))
  | 0x2 => some (.barg (.unpack w))
  | 0x3 => some (.grd (.unpack w))
  | 0x4 => some (.gwr (.unpack w))
  | 0x5 => some (.gatom (.unpack w))
  | 0x6 => some (.xclaim (.unpack w))
  | 0x7 => some (.xgive (.unpack w))
  | 0x8 => some (.xquery (.unpack w))
  | 0x9 => some (.spawn (.unpack w))
  | 0xa => some (.spawnf (.unpack w))
  | 0xb => some (.qpop (.unpack w))
  | 0xc => some (.qpush (.unpack w))
  | 0xd => some (.cancel (.unpack w))
  | 0xe => some (.cntrd (.unpack w))
  | _ => none

/-- Opcodes of class ENG, 03 Table 33. -/
def decodeEng (w : IWord) (next : IWord) : Option Instr :=
  match (opOf w).toNat with
  | 0x0 => some (.cecopy (.unpack w) (contPayload (w.getLsbD 54) next))
  | 0x1 => some (.cegath (.unpack w) (payloadOf next))
  | 0x2 => some (.cescat (.unpack w) (payloadOf next))
  | 0x3 => some (.cefill (.unpack w))
  | 0x4 => some (.cedec (.unpack w) (payloadOf next))
  | 0x5 => some (.cestat (.unpack w))
  | _ => none

/-- Opcodes of class MACRO, 03 Table 33; BIN with MOD bit 1 is the POP form (10 R246). -/
def decodeMacro (w : IWord) : Option Instr :=
  match (opOf w).toNat with
  | 0 => some (.rast (.unpack w))
  | 1 => some (.blend (.unpack w))
  | 2 => some (.filt (.unpack w))
  | 3 => some (.trav (.unpack w))
  | 4 => some (if w.getLsbD 63 then .binPop (.unpack w) else .bin (.unpack w))
  | n => if 0x40 ≤ n then some (.mcode (opOf w) (.unpack w)) else none

/-- A VPAIR word whose compact opcodes are both of 03 Table 30. -/
def decodeVpair (w : IWord) : Option Instr :=
  let p := PairW.unpack w
  if (copOf p.x.cop).isSome && (copOf p.y.cop).isSome then some (.vpair p) else none

/-- Opcodes of class TASK, 03 Table 33; the binding words that follow a TLAUNCH or TDRAW are given (16 R331). -/
def decodeTask (w : IWord) (bs : List BindW) : Option Instr :=
  match (opOf w).toNat with
  | 0x0 => some (.tnop (.unpack w))
  | 0x1 => some (.tbind (.unpack w))
  | 0x2 => some (.tfree (.unpack w))
  | 0x3 => some (.tlaunch (.unpack w) bs)
  | 0x4 => some (.tcopy (.unpack w))
  | 0x5 => some (.tfill (.unpack w))
  | 0x6 => some (.tallred (.unpack w))
  | 0x7 => some (.tallgat (.unpack w))
  | 0x8 => some (.trdscat (.unpack w))
  | 0x9 => some (.tdraw (.unpack w) bs)
  | 0xa => some (.tpresent (.unpack w))
  | 0xb => some (.twait (.unpack w))
  | 0xc => some (.tsignal (.unpack w))
  | 0xd => some (.tfence (.unpack w))
  | 0xe => some (.tkmov (.unpack w))
  | 0xf => some (.tkadd (.unpack w))
  | 0x10 => some (.tkld (.unpack w))
  | 0x11 => some (.tkbr (.unpack w))
  | 0x12 => some (.tphase (.unpack w))
  | 0x13 => some (.tgroup (.unpack w))
  | 0x14 => some (.tend (.unpack w))
  | _ => none

/-- What a class and opcode name: an instruction, or the subcode of 03 Table 35 for a reserved class (0x01) or an
unassigned opcode (0x02). A class-0xF word is no instruction (0x0A, 03 R58). -/
def decodeWord (w next : IWord) (bs : List BindW) : Except (BitVec 8) Instr :=
  let orUnassigned (o : Option Instr) : Except (BitVec 8) Instr :=
    match o with | some i => .ok i | none => .error 0x02
  match (clsOf w).toNat with
  | 0x0 => orUnassigned (decodeCtrl w)
  | 0x1 => orUnassigned (decodeScal w next)
  | 0x2 => orUnassigned (decodeVsgl w)
  | 0x3 => orUnassigned (decodeVpair w)
  | 0x4 => orUnassigned (decodeXlane w)
  | 0x5 => orUnassigned (decodeMem w)
  | 0x7 => orUnassigned (decodeMma w next)
  | 0x8 => orUnassigned (decodeMacro w)
  | 0x9 => orUnassigned (decodeSync w)
  | 0xA => orUnassigned (decodeEng w next)
  | 0xC => orUnassigned (decodeTask w bs)
  | 0xF => .error 0x0A
  | _ => .error 0x01

/-- A core decodes a class-0xC word as illegal (03 R57). -/
def decodeCore (w next : IWord) : Except (BitVec 8) Instr :=
  if clsOf w = 0xC then .error 0x0B else decodeWord w next []

/-- The class whose continuation word an instruction takes (03 R58), or none. -/
def Instr.contOwner : Instr → Option (BitVec 4)
  | .mma w _ => if mmaTakesCont w then some 7 else none
  | .tlma _ _ => some 7
  | .cegath _ _ | .cescat _ _ | .cedec _ _ => some 0xA
  | .cecopy w _ => if w.two = 1 then some 0xA else none
  | _ => none

/-- Number of words of a core instruction (03 R58, R59). -/
def Instr.wordCount : Instr → Nat
  | .smovi64 _ _ => 2
  | i => if i.contOwner.isSome then 2 else 1

/-- The words of an instruction of the encoding tables; none for a machine or host event. -/
def encode : Instr → Option (List IWord)
  | .nop w => some [w.pack 0x0 0x0]
  | .bra w => some [w.pack 0x0 0x1]
  | .brx w => some [w.pack 0x0 0x2]
  | .call w => some [w.pack 0x0 0x3]
  | .callx w => some [w.pack 0x0 0x4]
  | .ret w => some [w.pack 0x0 0x5]
  | .fuse w => some [w.pack 0x0 0x6]
  | .exit w => some [w.pack 0x0 0x7]
  | .trap w => some [w.pack 0x0 0x8]
  | .brk w => some [w.pack 0x0 0x9]
  | .yield w => some [w.pack 0x0 0xa]
  | .sread w => some [w.pack 0x0 0xb]
  | .swrite w => some [w.pack 0x0 0xc]
  | .eret w => some [w.pack 0x0 0xd]
  | .syscall w => some [w.pack 0x0 0xe]
  | .sleep w => some [w.pack 0x0 0xf]
  | .smov w => some [w.pack 0x1 0x0]
  | .smovi w => some [w.pack 0x1 0x1]
  | .smovi64 w hi => some [w.pack 0x1 0x2, hi]
  | .sadd w => some [w.pack 0x1 0x3]
  | .ssub w => some [w.pack 0x1 0x4]
  | .smul w => some [w.pack 0x1 0x5]
  | .smulh w => some [w.pack 0x1 0x6]
  | .sand w => some [w.pack 0x1 0x7]
  | .sor w => some [w.pack 0x1 0x8]
  | .sxor w => some [w.pack 0x1 0x9]
  | .sshl w => some [w.pack 0x1 0xa]
  | .sshr w => some [w.pack 0x1 0xb]
  | .ssra w => some [w.pack 0x1 0xc]
  | .scmp w => some [w.pack 0x1 0xd]
  | .ssel w => some [w.pack 0x1 0xe]
  | .smin w => some [w.pack 0x1 0xf]
  | .smax w => some [w.pack 0x1 0x10]
  | .sclz w => some [w.pack 0x1 0x11]
  | .spopc w => some [w.pack 0x1 0x12]
  | .vtos w => some [w.pack 0x1 0x13]
  | .stov w => some [w.pack 0x1 0x14]
  | .slea w => some [w.pack 0x1 0x15]
  | .iadd w => some [w.pack 0x2 0x0]
  | .isub w => some [w.pack 0x2 0x1]
  | .imul w => some [w.pack 0x2 0x2]
  | .imulh w => some [w.pack 0x2 0x3]
  | .imad w => some [w.pack 0x2 0x4]
  | .imin w => some [w.pack 0x2 0x5]
  | .imax w => some [w.pack 0x2 0x6]
  | .iabs w => some [w.pack 0x2 0x7]
  | .ineg w => some [w.pack 0x2 0x8]
  | .and w => some [w.pack 0x2 0x9]
  | .or w => some [w.pack 0x2 0xa]
  | .xor w => some [w.pack 0x2 0xb]
  | .not w => some [w.pack 0x2 0xc]
  | .shl w => some [w.pack 0x2 0xd]
  | .shr w => some [w.pack 0x2 0xe]
  | .sra w => some [w.pack 0x2 0xf]
  | .rot w => some [w.pack 0x2 0x10]
  | .bfe w => some [w.pack 0x2 0x11]
  | .bfi w => some [w.pack 0x2 0x12]
  | .clz w => some [w.pack 0x2 0x13]
  | .popc w => some [w.pack 0x2 0x14]
  | .brev w => some [w.pack 0x2 0x15]
  | .icmp w => some [w.pack 0x2 0x16]
  | .sel w => some [w.pack 0x2 0x17]
  | .mov w => some [w.pack 0x2 0x18]
  | .movi w => some [w.pack 0x2 0x19]
  | .iaddsh w => some [w.pack 0x2 0x1a]
  | .idot4 w => some [w.pack 0x2 0x1b]
  | .fadd w => some [w.pack 0x2 0x20]
  | .fsub w => some [w.pack 0x2 0x21]
  | .fmul w => some [w.pack 0x2 0x22]
  | .ffma w => some [w.pack 0x2 0x23]
  | .fmin w => some [w.pack 0x2 0x24]
  | .fmax w => some [w.pack 0x2 0x25]
  | .fcmp w => some [w.pack 0x2 0x26]
  | .fclass w => some [w.pack 0x2 0x27]
  | .frnd w => some [w.pack 0x2 0x28]
  | .fdot2 w => some [w.pack 0x2 0x29]
  | .fscale w => some [w.pack 0x2 0x2a]
  | .ffract w => some [w.pack 0x2 0x2b]
  | .fdiv w => some [w.pack 0x2 0x2c]
  | .cvt w => some [w.pack 0x2 0x30]
  | .pack w => some [w.pack 0x2 0x31]
  | .unpack w => some [w.pack 0x2 0x32]
  | .qnt w => some [w.pack 0x2 0x33]
  | .dqnt w => some [w.pack 0x2 0x34]
  | .rcp w => some [w.pack 0x2 0x38]
  | .rsq w => some [w.pack 0x2 0x39]
  | .sqrt w => some [w.pack 0x2 0x3a]
  | .exp2 w => some [w.pack 0x2 0x3b]
  | .log2 w => some [w.pack 0x2 0x3c]
  | .sin w => some [w.pack 0x2 0x3d]
  | .cos w => some [w.pack 0x2 0x3e]
  | .tanh w => some [w.pack 0x2 0x3f]
  | .shfl w => some [w.pack 0x4 0x0]
  | .push w => some [w.pack 0x4 0x1]
  | .ballot w => some [w.pack 0x4 0x2]
  | .voteall w => some [w.pack 0x4 0x3]
  | .voteany w => some [w.pack 0x4 0x4]
  | .voteeq w => some [w.pack 0x4 0x5]
  | .cmprs w => some [w.pack 0x4 0x6]
  | .expnd w => some [w.pack 0x4 0x7]
  | .slup w => some [w.pack 0x4 0x8]
  | .sldn w => some [w.pack 0x4 0x9]
  | .redadd w => some [w.pack 0x4 0xa]
  | .redmin w => some [w.pack 0x4 0xb]
  | .redmax w => some [w.pack 0x4 0xc]
  | .scanadd w => some [w.pack 0x4 0xd]
  | .matchLanes w => some [w.pack 0x4 0xe]
  | .actmask w => some [w.pack 0x4 0xf]
  | .ld w => some [w.pack 0x5 0x0]
  | .st w => some [w.pack 0x5 0x1]
  | .ldu w => some [w.pack 0x5 0x2]
  | .atom w => some [w.pack 0x5 0x3]
  | .red w => some [w.pack 0x5 0x4]
  | .cas w => some [w.pack 0x5 0x5]
  | .ord w => some [w.pack 0x5 0x6]
  | .fence w => some [w.pack 0x5 0x7]
  | .waitc w => some [w.pack 0x5 0x8]
  | .pref w => some [w.pack 0x5 0x9]
  | .invt w => some [w.pack 0x5 0xa]
  | .mma w k => some ([w.pack 0x7 0x0] ++ if mmaTakesCont w then [contWord 7 k] else [])
  | .tlma w k => some [w.pack 0x7 0x1, contWord 7 k]
  | .tlpre w => some [w.pack 0x7 0x2]
  | .mzero w => some [w.pack 0x7 0x3]
  | .mldt w => some [w.pack 0x7 0x4]
  | .mstt w => some [w.pack 0x7 0x5]
  | .bar w => some [w.pack 0x9 0x0]
  | .barc w => some [w.pack 0x9 0x1]
  | .barcFinal w => some [w.pack 0x9 0x1]
  | .barg w => some [w.pack 0x9 0x2]
  | .grd w => some [w.pack 0x9 0x3]
  | .gwr w => some [w.pack 0x9 0x4]
  | .gatom w => some [w.pack 0x9 0x5]
  | .xclaim w => some [w.pack 0x9 0x6]
  | .xgive w => some [w.pack 0x9 0x7]
  | .xquery w => some [w.pack 0x9 0x8]
  | .spawn w => some [w.pack 0x9 0x9]
  | .spawnf w => some [w.pack 0x9 0xa]
  | .qpop w => some [w.pack 0x9 0xb]
  | .qpush w => some [w.pack 0x9 0xc]
  | .cancel w => some [w.pack 0x9 0xd]
  | .cntrd w => some [w.pack 0x9 0xe]
  | .cecopy w k => some ([w.pack 0xa 0x0] ++ if w.two = 1 then [contWord 0xA k] else [])
  | .cegath w k => some [w.pack 0xa 0x1, contWord 0xA k]
  | .cescat w k => some [w.pack 0xa 0x2, contWord 0xA k]
  | .cefill w => some [w.pack 0xa 0x3]
  | .cedec w k => some [w.pack 0xa 0x4, contWord 0xA k]
  | .cestat w => some [w.pack 0xa 0x5]
  | .vpair w => some [w.pack]
  | .rast w => some [w.pack 0x8 0]
  | .blend w => some [w.pack 0x8 1]
  | .filt w => some [w.pack 0x8 2]
  | .trav w => some [w.pack 0x8 3]
  | .bin w => some [w.pack 0x8 4]
  | .binPop w => some [w.pack 0x8 4]
  | .mcode op w => some [w.pack 0x8 op]
  | .tnop w => some [w.pack 0xC 0x0]
  | .tbind w => some [w.pack 0xC 0x1]
  | .tfree w => some [w.pack 0xC 0x2]
  | .tlaunch w bs => some (w.pack 0xC 0x3 :: bs.map BindW.pack)
  | .tcopy w => some [w.pack 0xC 0x4]
  | .tfill w => some [w.pack 0xC 0x5]
  | .tallred w => some [w.pack 0xC 0x6]
  | .tallgat w => some [w.pack 0xC 0x7]
  | .trdscat w => some [w.pack 0xC 0x8]
  | .tdraw w bs => some (w.pack 0xC 0x9 :: bs.map BindW.pack)
  | .tpresent w => some [w.pack 0xC 0xa]
  | .twait w => some [w.pack 0xC 0xb]
  | .tsignal w => some [w.pack 0xC 0xc]
  | .tfence w => some [w.pack 0xC 0xd]
  | .tkmov w => some [w.pack 0xC 0xe]
  | .tkadd w => some [w.pack 0xC 0xf]
  | .tkld w => some [w.pack 0xC 0x10]
  | .tkbr w => some [w.pack 0xC 0x11]
  | .tphase w => some [w.pack 0xC 0x12]
  | .tgroup w => some [w.pack 0xC 0x13]
  | .tend w => some [w.pack 0xC 0x14]
  | _ => none

/-- A little-endian number from bytes, lowest address first (00 R5). -/
def leNat : List Byte → Nat
  | [] => 0
  | b :: bs => b.toNat + 256 * leNat bs

/-- The n bytes of a number, lowest address first (00 R5). -/
def leBytes : Nat → Nat → List Byte
  | 0, _ => []
  | n + 1, v => BitVec.ofNat 8 (v % 256) :: leBytes n (v / 256)

/-- The instruction that the bytes of a stream begin with, and the bytes after it: 16 bytes for each word
(03 R46), with the binding words of a TLAUNCH or TDRAW (16 R331). None where the bytes are too few. -/
def decodeBytes (bytes : List Byte) : Option (Except (BitVec 8) (Instr × List Byte)) :=
  if bytes.length < 16 then none else
  let word (i : Nat) : IWord := BitVec.ofNat 128 (leNat ((bytes.drop (16 * i)).take 16))
  let w := word 0
  let nb := if clsOf w = 0xC && (opOf w = 3 || opOf w = 9) then (TaskW.unpack w).nb.toNat else 0
  let bs := (List.range nb).map fun i => BindW.unpack (word (i + 1))
  match decodeWord w (word 1) bs with
  | .error e => some (.error e)
  | .ok i =>
    match i.contOwner with
    | some own =>
      if isCont own (word 1) then some (.ok (i, bytes.drop 32)) else some (.error 0x0A)
    | none => some (.ok (i, bytes.drop (16 * (i.wordCount + nb))))

/-- The instruction that the decoder reads from the bits of an opcode-table word, laid out as memory holds it: bytes
in ascending address order, every bit above nbits 0. -/
def decodeTableWord (nbits w : Nat) : Option Instr :=
  match decodeBytes (leBytes 256 (w % 2 ^ nbits)) with
  | some (.ok (i, _)) => some i
  | _ => none

end Sys2Proof
end

