-- ==== Sys2Proof/Machine/Flags.lean ====
section
/-! DEFINITION. Floating-point values, rounding and flags (02 R24 to R39), on exact values: a finite magnitude is m × 2^e,
and a sticky bit says that the exact magnitude lies strictly between m × 2^e and (m + 1) × 2^e. -/

namespace Sys2Proof

/-- Flags of FPSTAT[4:0]: NV, DZ, OF, UF, NX (02 Table 16). -/
abbrev Flg := BitVec 5
def fNV : Flg := 1
def fDZ : Flg := 2
def fOF : Flg := 4
def fUF : Flg := 8
def fNX : Flg := 16

/-- A binary floating-point format: exponent width, mantissa width, bias, and whether it has infinities (02 Table 10). -/
structure FFmt where
  eb : Nat
  mb : Nat
  bias : Nat
  inf : Bool
  deriving DecidableEq, Repr

def fmtFp32 : FFmt := ⟨8, 23, 127, true⟩
def fmtFp16 : FFmt := ⟨5, 10, 15, true⟩
def fmtBf16 : FFmt := ⟨8, 7, 127, true⟩
def fmtE4m3 : FFmt := ⟨4, 3, 7, false⟩
def fmtE5m2 : FFmt := ⟨5, 2, 15, true⟩

/-- An exact value: a NaN (signalling or quiet), an infinity, or a finite (−1)^s × m × 2^e, zeros signed. -/
inductive FVal where
  | nan (sig : Bool)
  | inf (s : Bool)
  | fin (s : Bool) (m : Nat) (e : Int)
  deriving DecidableEq, Repr

/-- A rounding mode, with the draw h of stochastic rounding (02 Table 14, R35). -/
inductive Rnd where
  | rne
  | rz
  | rp
  | rm
  | rs (h : Nat)
  deriving DecidableEq, Repr

/-- A result image and the flags it raises. -/
abbrev FRes := Nat × Flg

/-- The sign bit, largest finite, infinity and canonical NaN images (02 Table 11). -/
def FFmt.signBit (f : FFmt) (s : Bool) : Nat := if s then 2 ^ (f.eb + f.mb) else 0
def FFmt.infCode (f : FFmt) : Nat := (2 ^ f.eb - 1) * 2 ^ f.mb
def FFmt.maxCode (f : FFmt) : Nat := if f.inf then f.infCode - 1 else 2 ^ (f.eb + f.mb) - 2
def FFmt.nanCode (f : FFmt) : Nat := if f.inf then f.infCode + 2 ^ (f.mb - 1) else 2 ^ (f.eb + f.mb) - 1

/-- The value of an image, 02 R24. -/
def decodeF (f : FFmt) (x : Nat) : FVal :=
  let s := x.testBit (f.eb + f.mb)
  let ef := x / 2 ^ f.mb % 2 ^ f.eb
  let m := x % 2 ^ f.mb
  if ef = 2 ^ f.eb - 1 && (if f.inf then true else m = 2 ^ f.mb - 1) then
    if f.inf && m = 0 then .inf s else .nan (!(m.testBit (f.mb - 1)))
  else if ef = 0 then .fin s m (1 - (f.bias : Int) - f.mb)
  else .fin s (m + 2 ^ f.mb) ((ef : Int) - f.bias - f.mb)

/-- m × 2^e as an integer in units of 2^q rounded by the mode, and whether that is inexact (02 R34, R35). -/
def quantize (rnd : Rnd) (s : Bool) (m : Nat) (e : Int) (st : Bool) (q : Int) : Nat × Bool :=
  if q ≤ e then (m * 2 ^ (e - q).toNat, st)
  else
    let sh := (q - e).toNat
    let r := m / 2 ^ sh
    let rem := m % 2 ^ sh
    let half := 2 ^ (sh - 1)
    let inexact := rem != 0 || st
    let up : Bool :=
      match rnd with
      | .rne => half < rem || (rem = half && (st || r % 2 = 1))
      | .rz => false
      | .rp => !s && inexact
      | .rm => s && inexact
      | .rs h => 2 ^ 32 ≤ rem * 2 ^ 32 / 2 ^ sh + h
    (if inexact && up then r + 1 else r, inexact)

/-- Overflow result, 02 Table 15. -/
def overflowCode (f : FFmt) (rnd : Rnd) (s : Bool) : Nat :=
  let toMax : Bool :=
    !f.inf || (match rnd with | .rne => false | .rz => true | .rp => s | .rm => !s | .rs _ => true)
  f.signBit s + if toMax then f.maxCode else f.infCode

/-- Round a nonzero exact magnitude to a format: image and flags; tininess is judged after rounding with an unbounded
exponent (02 R26, R37). -/
def roundF (f : FFmt) (rnd : Rnd) (s : Bool) (m : Nat) (e : Int) (st : Bool) : FRes :=
  let ex := (Nat.log2 m : Int) + e
  let emin := 1 - (f.bias : Int)
  let q := max ex emin - f.mb
  let (r, inexact) := quantize rnd s m e st q
  let code := if r < 2 ^ f.mb then r else ((q + f.mb + f.bias).toNat) * 2 ^ f.mb + (r - 2 ^ f.mb)
  let rsBig : Bool :=
    match rnd with
    | .rs _ => f.maxCode < code || (code = f.maxCode && inexact && emin ≤ ex && (quantize .rz s m e st q).1 = r)
    | _ => false
  if f.maxCode < code || rsBig then (overflowCode f rnd s, fOF ||| fNX)
  else
    let tiny := ex < emin && (quantize rnd s m e st (ex - f.mb)).1 < 2 ^ f.mb * (if ex = emin - 1 then 2 else 4)
    (f.signBit s + code, if inexact then (if tiny then fUF ||| fNX else fNX) else 0)

/-- Under FZ, replace a subnormal FP32 result with a zero of its sign, and set UF and NX; UF is of no other result then
(02 R37, log 49). -/
def flush32 (fz : Bool) (r : FRes) : FRes :=
  let mag := r.1 % 2 ^ 31
  if !fz then r
  else if mag != 0 && mag < 2 ^ 23 then (r.1 - mag, r.2 ||| fUF ||| fNX)
  else (r.1, r.2 &&& ~~~fUF)

/-- Read an FP32 source, under FZ (02 R37). -/
def read32 (fz : Bool) (x : Nat) : FVal :=
  match decodeF fmtFp32 x with
  | .fin s m e => if fz && m < 2 ^ 23 then .fin s 0 0 else .fin s m e
  | v => v

/-- Zero, infinity and canonical NaN as results. -/
def zeroRes (f : FFmt) (s : Bool) : FRes := (f.signBit s, 0)
def infRes (f : FFmt) (s : Bool) : FRes := (f.signBit s + f.infCode, 0)
def nanRes (f : FFmt) (nv : Bool) : FRes := (f.nanCode, if nv then fNV else 0)

def FVal.isNan : FVal → Bool
  | .nan _ => true
  | _ => false
def FVal.isSnan : FVal → Bool
  | .nan s => s
  | _ => false
def FVal.isInf : FVal → Bool
  | .inf _ => true
  | _ => false
def FVal.isZero : FVal → Bool
  | .fin _ m _ => m = 0
  | _ => false
def FVal.sign : FVal → Bool
  | .nan _ => false
  | .inf s => s
  | .fin s _ _ => s
def FVal.neg : FVal → FVal
  | .nan g => .nan g
  | .inf s => .inf (!s)
  | .fin s m e => .fin (!s) m e

/-- Exact product; an infinity times a zero is invalid, held as a signalling NaN (04 R87). -/
def FVal.mul : FVal → FVal → FVal
  | .nan a, b => .nan (a || b.isSnan)
  | a, .nan b => .nan (a.isSnan || b)
  | .inf s, b => if b.isZero then .nan true else .inf (s != b.sign)
  | a, .inf s => if a.isZero then .nan true else .inf (a.sign != s)
  | .fin s m e, .fin t n k => .fin (s != t) (m * n) (e + k)

/-- The smallest exponent of finite terms. -/
def minExp (ts : List FVal) : Int :=
  ts.foldl (fun a t => match t with | .fin _ m e => if m = 0 then a else min a e | _ => a) 1000

/-- The exact sum of finite terms in units of 2^e. -/
def sumAt (e : Int) (ts : List FVal) : Int :=
  ts.foldl (fun a t =>
    match t with
    | .fin s m k => if m = 0 then a else a + (if s then -1 else 1) * ((m * 2 ^ (k - e).toNat : Nat) : Int)
    | _ => a) 0

/-- Sign of an exact zero sum of these terms (IEEE 754-2019; 04 R91). -/
def zeroSumSign (rnd : Rnd) (ts : List FVal) : Bool :=
  if ts.all fun t => t.isZero && t.sign then true
  else if ts.all fun t => t.isZero && !t.sign then false
  else rnd = .rm

/-- The exact sum of the terms, rounded once (04 R87, R91). A NaN term decides the result. -/
def sumRound (f : FFmt) (rnd : Rnd) (ts : List FVal) : FRes :=
  if ts.any (·.isNan) then nanRes f (ts.any (·.isSnan))
  else if ts.any fun t => t.isInf && t.sign then
    if ts.any fun t => t.isInf && !t.sign then nanRes f true else infRes f true
  else if ts.any fun t => t.isInf && !t.sign then infRes f false
  else
    let e := minExp ts
    let v := sumAt e ts
    if v = 0 then zeroRes f (zeroSumSign rnd ts)
    else roundF f rnd (v < 0) v.natAbs e false

/-- Sign of an integer as a value. -/
def FVal.ofInt (v : Int) : FVal := .fin (v < 0) v.natAbs 0

/-- Round a value to a format (a conversion between floating-point formats, 02 Table 15). -/
def convF (f : FFmt) (rnd : Rnd) : FVal → FRes
  | .nan g => nanRes f g
  | .inf s => if f.inf then infRes f s else (f.signBit s + f.maxCode, fOF ||| fNX)
  | .fin s m e => if m = 0 then zeroRes f s else roundF f rnd s m e false

/-- Round to the nearest integral value by mode: the magnitude and whether it is inexact. -/
def intMag (rnd : Rnd) (s : Bool) (m : Nat) (e : Int) : Nat × Bool := quantize rnd s m e false 0

/-- Conversion to an integer format of a width, signed or not (02 Table 15). -/
def convInt (w : Nat) (signed : Bool) (rnd : Rnd) (v : FVal) : FRes :=
  let lo : Int := if signed then -(2 ^ (w - 1) : Nat) else 0
  let hi : Int := if signed then (2 ^ (w - 1) : Nat) - 1 else (2 ^ w : Nat) - 1
  let img (i : Int) : Nat := (i % (2 ^ w : Nat)).toNat
  match v with
  | .nan _ => (0, fNV)
  | .inf s => (img (if s then lo else hi), fNV)
  | .fin s m e =>
    let big := 130 < (Nat.log2 m : Int) + e
    let (k, inexact) := if big then (2 ^ 130, false) else intMag rnd s m e
    let i : Int := if s then -(k : Int) else k
    if i < lo then (img lo, fNV) else if hi < i then (img hi, fNV)
    else (img i, if inexact then fNX else 0)

/-- The linear values of LG6, 02 R30: T[f] × 2^(q − 12). -/
def lgLinear (s : Bool) (e : Int) : FVal :=
  let q := e / 4
  let t : Nat := match (e % 4).toNat with | 0 => 4096 | 1 => 4871 | 2 => 5793 | _ => 6889
  .fin s t (q - 12)

/-- The sign and exponent of an LG6 code, none for a zero (02 R29). -/
def lgParts (x : Nat) : Bool × Option Int :=
  let e : Int := if x % 32 < 16 then (x % 32 : Nat) else (x % 32 : Nat) - 32
  (x.testBit 5, if e = -16 then none else some e)

def decodeLg6 (x : Nat) : FVal :=
  match lgParts x with
  | (s, none) => .fin s 0 0
  | (s, some e) => lgLinear s e

/-- Conversion to LG6, 02 R32. The nearest integer to 4 × log2 |x| is the floor of (k + 1) / 2, k the floor of
8 × log2 |x|. -/
def convLg6 : FVal → FRes
  | .nan _ => (0x10, fNV)
  | .inf s => ((if s then 32 else 0) + 15, fOF ||| fNX)
  | .fin s m e =>
    let sg := if s then 32 else 0
    if m = 0 then (sg + 16, 0)
    else
      let k : Int := (Nat.log2 (m ^ 8) : Int) + 8 * e
      let ep := (k + 1) / 2
      if 15 < ep then (sg + 15, fOF ||| fNX)
      else if ep < -15 then (sg + 16, fUF ||| fNX)
      else
        let exact := ep % 4 = 0 && m = 2 ^ Nat.log2 m && k = 2 * ep
        (sg + (ep % 32).toNat, if exact then 0 else fNX)

/-- The binary floating-point format of a code (02 Table 9). -/
def ffmtOf (t : BitVec 4) : Option FFmt :=
  match t.toNat with
  | 0 => some fmtFp32
  | 1 => some fmtFp16
  | 2 => some fmtBf16
  | 3 => some fmtE4m3
  | 4 => some fmtE5m2
  | _ => none

/-- Width in bits of a format code (02 Table 9). -/
def widthOf (t : BitVec 4) : Nat :=
  match t.toNat with
  | 0 | 10 | 14 => 32
  | 1 | 2 | 9 | 13 => 16
  | 5 => 6
  | 11 | 15 => 64
  | _ => 8

/-- The integer format is signed (02 Table 9). -/
def signedOf (t : BitVec 4) : Bool := t.toNat < 12

/-- A two's-complement reading of the low w bits. -/
def signedNat (w x : Nat) : Int := if x % 2 ^ w < 2 ^ (w - 1) then (x % 2 ^ w : Nat) else (x % 2 ^ w : Nat) - (2 ^ w : Nat)

/-- The value of the low bits of x in a format (02 R24, R27, R30). -/
def valueOf (t : BitVec 4) (x : Nat) : FVal :=
  match ffmtOf t with
  | some f => decodeF f x
  | none =>
    if t = Fmt.lg6 then decodeLg6 x
    else if signedOf t then FVal.ofInt (signedNat (widthOf t) x)
    else FVal.ofInt ((x % 2 ^ widthOf t : Nat) : Int)

/-- Convert a value to a format (02 R36; LG6 by R32). -/
def convTo (t : BitVec 4) (rnd : Rnd) (v : FVal) : FRes :=
  match ffmtOf t with
  | some f => convF f rnd v
  | none => if t = Fmt.lg6 then convLg6 v else convInt (widthOf t) (signedOf t) rnd v

/-- The draw of stochastic rounding, 02 R35. -/
def rsDraw (seed : W64) (lane elem : Nat) : Nat :=
  let h0 : W32 := seed.extractLsb' 32 32 ^^^ seed.extractLsb' 0 32 ^^^ (BitVec.ofNat 32 lane * 0x9E3779B9)
    ^^^ (BitVec.ofNat 32 elem * 0x85EBCA6B)
  let h1 := (h0 ^^^ (h0 >>> 16)) * 0x7FEB352D
  let h2 := (h1 ^^^ (h1 >>> 15)) * 0x846CA68B
  (h2 ^^^ (h2 >>> 16)).toNat

/-- The rounding mode of a field (02 Table 14). -/
def rndOf (rm : BitVec 3) (seed : W64) (lane elem : Nat) : Rnd :=
  match rm.toNat with
  | 0 => .rne
  | 1 => .rz
  | 2 => .rp
  | 3 => .rm
  | _ => .rs (rsDraw seed lane elem)

/-- RoundNE of an exact sum to FP32, without FZ: the accumulation of 02 R42. -/
def addNE (a b : Nat) : FRes := sumRound fmtFp32 .rne [decodeF fmtFp32 a, decodeF fmtFp32 b]

end Sys2Proof
end

