-- ==== Sys2Proof/Machine/SMap.lean ====
section
/-! DEFINITION. Operations of the sparse maps and key sets that the state holds, all structurally recursive, each keeping
the keys strictly rising. -/

namespace Sys2Proof

/-- The entry at a key. -/
def SMap.find? {α : Type} : SMap α → Nat → Option α
  | [], _ => none
  | (j, v) :: m, k => if j = k then some v else SMap.find? m k

/-- The value at a key, d where no entry stands. -/
def SMap.getD {α : Type} (m : SMap α) (k : Nat) (d : α) : α := (m.find? k).getD d

/-- Write an entry. -/
def SMap.set {α : Type} : SMap α → Nat → α → SMap α
  | [], k, v => [(k, v)]
  | (j, u) :: m, k, v =>
    if k < j then (k, v) :: (j, u) :: m else if k = j then (k, v) :: m else (j, u) :: SMap.set m k v

/-- Remove an entry. -/
def SMap.del {α : Type} : SMap α → Nat → SMap α
  | [], _ => []
  | (j, u) :: m, k => if j = k then SMap.del m k else (j, u) :: SMap.del m k

/-- Write a value of a map whose unlisted keys read as d: writing d removes the entry. -/
def SMap.put {α : Type} [DecidableEq α] (m : SMap α) (d : α) (k : Nat) (v : α) : SMap α :=
  if v = d then m.del k else m.set k v

/-- Change the entry at a key, where one stands. -/
def SMap.upd {α : Type} : SMap α → Nat → (α → α) → SMap α
  | [], _, _ => []
  | (j, u) :: m, k, f => if j = k then (j, f u) :: m else (j, u) :: SMap.upd m k f

/-- Change every entry. -/
def SMap.mapVals {α β : Type} (m : SMap α) (f : α → β) : SMap β := m.map fun e => (e.1, f e.2)

/-- Keys and values. -/
def SMap.keys {α : Type} (m : SMap α) : List Nat := m.map (·.1)
def SMap.vals {α : Type} (m : SMap α) : List α := m.map (·.2)

/-- Keys strictly rise from a lower bound. -/
def SMap.above {α : Type} : Nat → SMap α → Bool
  | _, [] => true
  | lo, (k, _) :: m => decide (lo ≤ k) && SMap.above (k + 1) m

/-- The canonical form: keys strictly rising. -/
def SMap.wf {α : Type} (m : SMap α) : Bool := SMap.above 0 m

/-- No entry holds the default. -/
def SMap.noDefault {α : Type} [DecidableEq α] (d : α) (m : SMap α) : Bool := m.all fun e => decide (e.2 ≠ d)

/-- The canonical form of a map with a default. -/
def SMap.canon {α : Type} [DecidableEq α] (d : α) (m : SMap α) : Bool := m.wf && m.noDefault d

/-- A set of keys, strictly rising. -/
abbrev KSet := List Nat

def KSet.add : KSet → Nat → KSet
  | [], k => [k]
  | j :: m, k => if k < j then k :: j :: m else if k = j then j :: m else j :: KSet.add m k

def KSet.del (m : KSet) (k : Nat) : KSet := m.filter (· ≠ k)

def KSet.addAll (m : KSet) (ks : List Nat) : KSet := ks.foldl KSet.add m
def KSet.delAll (m : KSet) (ks : List Nat) : KSet := m.filter fun k => !ks.contains k

end Sys2Proof
end

