-- ==== Sys2Proof/Machine/State.lean ====
section
/-! DEFINITION. The state of the device as plain data. INVENTORY.md lists every field with the rule of spec/ that names
it and its reset value. -/

namespace Sys2Proof.Machine

/-- Why the machine stops. -/
inductive Fault where
  /-- An access reached a physical address that no HBM stack of the part holds (18 R374); raised by the operations over
  physical memory; safe: the model stops where the spec gives the access no effect. -/
  | absentMemory (pa : Nat)
  deriving DecidableEq, Repr

/-- Why an instruction has no meaning. -/
inductive Refusal where
  /-- The instruction has no meaning in this model yet; raised by an arm of `exec` only; safe. -/
  | notModelled (mnemonic : String)
  deriving DecidableEq, Repr

/-- A virtual address of code (01 R9). -/
abbrev PCAddr := BitVec 57

/-- The parts that carry the architecture, 00 Table 1. -/
inductive Part where
  | j96
  | j96n
  | j92
  deriving DecidableEq, Repr

/-- Where a byte of an access lies: HBM under a key, a workgroup's scratchpad, a vault, or a peer package's memory
(07 Table 55, 14 R293, 20 R386). -/
inductive LocKind where
  | mem (key : Nat)
  | scr (wg : Nat)
  | vault
  | peer (entry : Nat)
  deriving DecidableEq, Repr

/-- A place of memory, by the address of its first byte: physical, offset in the allotment, or vault × 4 MiB + offset. -/
structure Loc where
  kind : LocKind
  addr : Nat
  deriving DecidableEq, Repr

/-- An order and a scope of a release or acquire (03 Table 24). -/
structure OrdScope where
  order : Nat
  scope : Nat
  deriving DecidableEq, Repr

/-- A pending ORD prefix (07 R177 to R179, 05 Table 47 at 0x018). -/
structure OrdPfx where
  order : Nat
  scope : Nat
  lane : Nat
  deriving DecidableEq, Repr

/-- A destination of a long-latency producer: key lane × 256 + register for a v-register, 8192 + n for s-register n. -/
structure Dest where
  key : Nat
  val : W64
  poison : Bool
  deriving DecidableEq, Repr

/-- An outstanding long-latency producer (01 R16), in issue order within its gang. `ready`: its values have arrived. -/
structure Producer where
  id : Nat
  ready : Bool
  flags : BitVec 5
  dests : List Dest
  deriving DecidableEq, Repr

/-- The read of a WAITC or TWAIT: its space and address, translated anew at each read (14 R295), where the last one
performed it, width, mask, comparison, value, and the prefix it carries. -/
structure WaitRead where
  sp : Nat
  va : W64
  loc : Loc
  n : Nat
  value : Nat
  mask : Nat
  cc : Nat
  signed : Bool
  pfx : Option OrdScope
  deriving DecidableEq, Repr

/-- What a group of lanes waits for (01 R21). -/
inductive WaitKind where
  /-- An empty register, a pending s-register, the g-register port, a buffer line: the word is issued again. -/
  | operand
  /-- EXIT: until the registers that the lanes have marked empty are full (01 R19). -/
  | exit
  /-- SLEEP until a time of FABTIME (04 R109). -/
  | sleep (deadline : Nat)
  /-- WAITC (07 R182): armed on a monitor or parked with a count of issue cycles; `woken` when a write came. -/
  | waitc (r : WaitRead) (parked : Bool) (polls : Nat) (woken : Bool)
  /-- BAR (06 R147), BARG (06 R148), BARC with barrier 4 the final one (12 R261). -/
  | bar (b cnt : Nat)
  | barg (b : Nat)
  | barc (b : Nat)
  /-- Released by a barrier, in the starter's queue (12 R274). -/
  | starter
  /-- XCLAIM of n entries, with the order in which it began to wait (05 R124). -/
  | xclaim (n : Nat) (order : Nat)
  /-- XGIVE whose entries are credited in a later cycle (06 R152). -/
  | xgive (n : Nat)
  /-- A lathe request (05 R126). -/
  | lathe
  /-- A matrix operation's rendezvous, pass or blocks (08 R186 to R198). -/
  | matrix
  /-- A free place of the cluster's engine queue (12 R264). -/
  | engine
  /-- QPOP's wait for the sequence word of index t of queue q (06 R156); its producer is the one numbered before it. -/
  | qpop (q t vd sd : Nat) (lanes : LaneMask) (parked : Bool) (polls : Nat) (woken : Bool)
  /-- A page fault of the gang, held for the firmware (05 R133, 14 R413). -/
  | page
  /-- SYSCALL (04 R107). -/
  | ticket
  deriving DecidableEq, Repr

/-- Lanes of a gang that wait at one word. -/
structure Wait where
  id : Nat
  lanes : LaneMask
  kind : WaitKind
  deriving DecidableEq, Repr

/-- A quarter's matrix operation: arrived lanes and participants of quarter q at a word, then its operands as its checks
read them and the next block (08 R185, R193, R196). `wait`: the gang's wait that holds its lanes; `order`: its place among
those that wait for the array, by cycle, slot and quarter (08 R198). -/
inductive QPhase where
  | rendezvous
  | empties
  | queued
  | running
  deriving DecidableEq, Repr

structure QOp where
  wait : Nat
  q : Nat
  pc : PCAddr
  ins : Instr
  arrived : LaneMask
  parts : LaneMask
  phase : QPhase
  order : Nat
  cycle : Nat
  k : Nat
  a0 : W64
  a1 : W64
  b0 : W64
  b1 : W64
  next : Nat
  prod : Nat
  deriving DecidableEq, Repr

/-- A macro-instruction in progress (09 R206 to R209): its lanes, those that have stopped, those whose first step of this
issue has ended, the producer that keeps its registers empty, and the tile pixels on which a RAST waits (09 R223). -/
structure MOp where
  wait : Nat
  pc : PCAddr
  ins : Instr
  grp : LaneMask
  act : LaneMask
  stopped : LaneMask
  began : LaneMask
  prod : Nat
  waitPix : List Nat
  deriving DecidableEq, Repr

/-- A gang: its lanes, scalar registers, special registers and what it waits for (01 R9, 05 Table 47). `fence`: the scope of
a FENCE.REL or FENCE.AR whose drains the gang's next store waits for (07 R180). Maps keyed by
lane, by register or by unit; an unlisted key reads 0. -/
structure Gang where
  wg : Nat
  idx : Nat
  n : Nat
  status : BitVec 64
  pcs : SMap PCAddr
  vr : SMap W32
  pr : BitVec 256
  sr : SMap W64
  empty : KSet
  poison : KSet
  base : Nat
  xcount : Nat
  xlimit : Nat
  fpstat : W64
  issuecnt : W64
  lastIssue : Nat
  trapbase : W64
  trapcause : W64
  trappc : W64
  trapaddr : W64
  codemap : W64
  handler : Bool
  trapped : LaneMask
  ord : Option OrdPfx
  ordSusp : Option OrdPfx
  fence : Option Nat
  unitOf : SMap Nat
  slots : SMap Nat
  splitCnt : SMap Nat
  age : SMap Nat
  unitAge : SMap Nat
  prods : List Producer
  waits : List Wait
  nextId : Nat
  cancel : Option Nat
  parked : Bool
  fresh : Bool
  active : Bool
  blocked : Nat
  yielded : Bool
  cmdIssued : Nat
  cmdDone : Nat
  cmdFault : Nat
  qops : List QOp
  mops : List MOp
  rdvCnt : SMap Nat
  deriving DecidableEq, Repr

/-- A barrier record, 05 Table 48; `counted`: the first gang to arrive in the phase gave the count (06 R147). -/
structure BarRec where
  arrived : BitVec 16
  expected : Nat
  count : Nat
  counted : Bool
  deriving DecidableEq, Repr

/-- An operation in flight to the g-register port: acts in a cycle, in the order of the issuing unit's slot (06 R149).
op: 0 read, 1 write,
2 + c the combination c of GATOM, 15 the read of XQUERY (06 R153); `sd`: the producer that returns the value. -/
structure GOp where
  cycle : Nat
  slot : Nat
  gang : Nat
  op : Nat
  g : Nat
  x : W64
  sd : Nat
  deriving DecidableEq, Repr

inductive WgStatus where
  | resident
  | saved
  deriving DecidableEq, Repr

/-- A workgroup that has been admitted and has not ended (05 R110, R138, Table 48). `pid` is its core × 4 + partition;
`drainBy`, `heldSlots`: a drain's deadline and the slots held for its request (17 R346); `plan`, `links`: the vaults of
its granted slot plan and the link slots it owns (14 R290); `slots`: its entries, vault × 64 + slot; `migrate`: the
cluster to which POWER moves it (17 R349); `cancelled`: a gang of it has taken CANCEL (06 R159); `unitCancelled`: CANCEL
#0 has been executed in it (06 R158); `dying`: it is to be terminated, which waits for the ERRH core (18 R360). -/
structure Wg where
  launch : Nat
  wgid : Nat
  status : WgStatus
  pid : Nat
  tenant : Nat
  cls : Nat
  count : Nat
  gangs : KSet
  ended : BitVec 16
  scrLen : Nat
  scr : SMap Byte
  scrPoison : KSet
  gr : SMap W64
  gops : List GOp
  bars : SMap BarRec
  tileW : Nat
  tileH : Nat
  scoreIssue : SMap Nat
  scoreRetire : SMap Nat
  binPos : SMap W64
  member : Option Nat
  groupSize : Nat
  passedFinal : Bool
  restartable : Bool
  noWrite : Bool
  binGang : Bool
  slice : Nat
  seq : Nat
  lastMig : Nat
  ctxAddr : Nat
  preempt : Bool
  drainBy : Option Nat
  heldSlots : KSet
  plan : KSet
  links : KSet
  slots : KSet
  migrate : Option Nat
  cancelled : Bool
  unitCancelled : Bool
  dying : Bool
  deriving DecidableEq, Repr

/-- A pair of completion counts: ended and cancelled (06 R159, 17 R341). -/
structure Counter where
  ended : Nat
  cancelled : Nat
  deriving DecidableEq, Repr

/-- A grid barrier of a launch: the WGIDs that have arrived, and the release count (06 R148, 12 R275). -/
structure GridBar where
  arrived : KSet
  count : Nat
  deriving DecidableEq, Repr

/-- A spawn entry of a launch record (16 Table 120 at 0x20). -/
structure SpawnEntry where
  addr : Nat
  base : Nat
  ext : Nat
  deriving DecidableEq, Repr

/-- A termination as firmware reports it (05 R134). -/
structure Report where
  cause : Nat
  pc : W64
  addr : W64
  deriving DecidableEq, Repr

/-- A launch: its record (16 Table 120), argument registers (16 Table 121), waiting workgroups, counters, and the
granules that its units have written poisoned (16 R325). -/
structure Launch where
  part : Nat
  port : Nat
  task : Nat
  tenant : Nat
  cls : Nat
  count : Nat
  entry : Nat
  codemap : W64
  trapbase : W64
  slotPlan : Nat
  spawns : List SpawnEntry
  base : Nat
  ext : Nat
  scrLen : Nat
  gangs : Nat
  lanes : Nat
  clus : Nat
  restart : Bool
  barg : Bool
  tile : Bool
  est : Nat
  tileW : Nat
  tileH : Nat
  sregs : SMap W64
  waiting : KSet
  live : Nat
  launchCnt : Counter
  graphCnt : Counter
  graphLive : Nat
  phase : Nat
  job : Nat
  cancelled : Bool
  graphCancelled : Bool
  grid : SMap GridBar
  report : Option Report
  poison : KSet
  rank : Nat
  gsize : Nat
  deriving DecidableEq, Repr

/-- A record of a spawn bin or of its overflow ring (05 R128, R129). -/
structure SpawnRec where
  entry : Nat
  w0 : W32
  w1 : W32
  w2 : W32
  w3 : W32
  launch : Nat
  tenant : Nat
  cls : Nat
  deriving DecidableEq, Repr

inductive BinState where
  | filling
  | ready
  deriving DecidableEq, Repr

/-- A bin that is not EMPTY (05 R128, R131). -/
structure SpawnBin where
  state : BinState
  key : Nat
  recs : List SpawnRec
  timer : Nat
  deriving DecidableEq, Repr

/-- A core partition's own state: bins, READY order, claim order, deadlock cycles, whether it has issued a word in this
cycle, and the matrix array's pass: gangs and the waits of their operations. -/
structure CorePart where
  bins : SMap SpawnBin
  readyOrder : List Nat
  claimOrder : Nat
  deadlock : Nat
  issued : Bool
  pass : List (Nat × Nat)
  array : Nat
  deriving DecidableEq, Repr

/-- A line of a write-combining buffer or of a cluster point: bytes by offset, and the cycle of the first store
(07 R163, 15 R301). -/
structure BufLine where
  bytes : SMap Byte
  since : Nat
  key : Nat
  tenant : Nat
  launch : Nat
  poison : KSet
  deriving DecidableEq, Repr

/-- A cached copy of a fetch line and its line-map entry (03 R64). -/
structure CodeLine where
  words : List IWord
  map : BitVec 16
  deriving DecidableEq, Repr

/-- Where a monitor is armed: an L2 slice or a core's scratchpad (14 R285). -/
inductive Site where
  | slice (s : Nat)
  | core (c : Nat)
  deriving DecidableEq, Repr

inductive Sleeper where
  | gang (gid wait : Nat)
  | task (part id : Nat)
  deriving DecidableEq, Repr

/-- A monitor: the aligned 8-byte word it covers and the groups it serves (14 R285). -/
structure Monitor where
  site : Site
  word : Loc
  sleepers : List Sleeper
  deriving DecidableEq, Repr

/-- A leaf that a TLB holds: its entry and the level it stood at (14 R292). -/
structure TlbEntry where
  pte : W64
  level : Nat
  deriving DecidableEq, Repr

/-- What a vault access does at its vault: the read of a lane, sign-extended or not, into v-registers or an s-register; a
write; an atomic or a CAS of the lanes that name one address, with their operand or compare and new values (07 R174). -/
inductive VaultAct where
  | read (n : Nat) (sx : Bool) (keys : List Nat)
  | write (bytes : List Byte)
  | atomic (op n : Nat) (signed : Bool) (cas : Bool) (keys : List (List Nat)) (args : List (Nat × Nat))
  deriving DecidableEq, Repr

/-- An access to a vault on its way over the lateral links (14 R289, R291): the core that sent it, the gang and its
producer, the place, the slots that its core owned for the vault when it issued (none: it travels in the best-effort
class), the cycles of a one-way journey, the scope of an acquire that its word carries, and once it is sent the cycle of
its slot. -/
structure VaultOp where
  core : Nat
  gang : Nat
  prod : Nat
  addr : Nat
  act : VaultAct
  slots : List Nat
  dist : Nat
  acq : Option Nat
  sentAt : Option Nat
  performed : Bool
  deriving DecidableEq, Repr

/-- Who waits for a page fault (14 R413). -/
inductive FaultWho where
  | gang (gid : Nat) (lanes : LaneMask) (pc : PCAddr)
  | engine (cluster idx : Nat)
  | task (part id : Nat)
  | decode (part port : Nat)
  /-- The slot plan of a workgroup that has been admitted (14 R290). -/
  | plan (wg : Nat)
  /-- The bytes of a frame that an encoder appends to its ring (17 R356). -/
  | encoder (enc : Nat)
  /-- The write of a feed queue's head to its shadow (17 R353). -/
  | shadow (q head : Nat)
  deriving DecidableEq, Repr

/-- A page fault that waits for the memory-management firmware core, or is held for the host since a time
(14 R413). `report`: TRAPADDR where it is denied: the address, or the line being fetched (03 R65). -/
structure PageFault where
  part : Nat
  tenant : Nat
  kind : Nat
  va : W64
  who : FaultWho
  report : W64
  held : Option W64
  deriving DecidableEq, Repr

/-- Where control stands: the group whose word `exec` runs, what the fetch unit found wrong with the word (a subcode
of 03 Table 35), whether it is the second word of its cycle, and then the gang as it stood before the first; or the
task-window port being decoded. -/
structure Cur where
  gang : Nat
  unit : Nat
  pc : PCAddr
  ext : Option (BitVec 8)
  snap : Option Gang
  port : Option (Nat × Nat)
  deriving DecidableEq, Repr

/-- What acts next. `S.agenda` lists the actions that have been chosen; each step performs the first (log 1). -/
inductive Agent where
  /-- A group of a gang's unit issues the word at its PC; `snap`: the gang before the first word of the same cycle, for
  the second one. -/
  | issue (gang unit : Nat) (pc : PCAddr) (snap : Option Gang)
  /-- A machine or host event. -/
  | event (i : Instr)
  /-- A port of a task window decodes its next word; a decoded task issues. -/
  | decodeTask (part port : Nat)
  | issueTask (part id : Nat)
  /-- Master cycles pass. -/
  | tick (n : Nat)
  /-- An issue opportunity of a gang in which the groups of a unit at these PCs issue (05 R117, R118). -/
  | opportunity (gang : Nat) (unit : Nat) (pcs : List PCAddr)
  /-- Caches fill and drop copies at moments the spec leaves open; a fetch that misses fills the partition's L0 cache and
  its core's instruction cache (03 R64). `l0`: the L0 cache of core partition `pid`, else the cache of its core. -/
  | codeFill (pid tenant : Nat) (line : Nat) (words map : Bool)
  | codeDrop (pid tenant : Nat) (line : Nat) (l0 : Bool)
  | l1Fill (core line : Nat)
  | l1Drop (core line : Nat)
  | texFill (core line : Nat)
  | texDrop (core line : Nat)
  /-- A TLB by its unit: a cluster's, or 256 + pid for the L1 TLB of a core partition (14 R292). -/
  | tlbFill (unit tenant page : Nat)
  | tlbDrop (unit tenant page : Nat)
  /-- The copy engine moves the next part of a command's payload. -/
  | engineMove (cluster idx n : Nat)
  /-- A Timin link sends its next flit (20 R383). -/
  | linkSend (link : Nat)
  deriving DecidableEq, Repr

/-- A gang in a cluster starter's queue; `after`: the cluster whose part of the same opening comes first (12 R275). -/
structure StartEntry where
  gang : Nat
  opening : Nat
  after : Option Nat
  deriving DecidableEq, Repr

/-- The starter of a cluster: its queue, the cycle before which no wave comes, and the cycle of its last wave
(12 R274). -/
structure Starter where
  queue : List StartEntry
  next : Nat
  last : Nat
  deriving DecidableEq, Repr

/-- A command in a cluster's copy engine (12 R264 to R270). op: 0 CECOPY, 1 CEGATH, 2 CESCAT, 3 CEFILL, 4 CEDEC, 5 CESTAT.
`moved`: payload bytes performed so far; `elem`: the number and index of the element being moved; `fault`: the reason it
has stopped for. `rt`: register target base, lanes and producer. `task`: the task of a task window that issued it. -/
structure EngCmd where
  id : Nat
  gang : Nat
  wg : Nat
  tenant : Nat
  launch : Nat
  core : Nat
  op : Nat
  srcSp : Nat
  dstSp : Nat
  src : W64
  dst : W64
  n : Nat
  rows : Nat
  spitch : Nat
  dpitch : Nat
  idxAddr : W64
  idxSp : Nat
  idx64 : Bool
  esz : Nat
  pattern : W32
  key : Nat
  ctr : W64
  chan : Nat
  tagAddr : W64
  sig : Option W64
  sv : W64
  fst : Nat
  acq : Bool
  rel : Bool
  scope : Nat
  rt : Option (Nat × LaneMask × Nat)
  moved : Nat
  elem : Option (Nat × Nat)
  pc : PCAddr
  fault : Option Nat
  faultAt : W64
  task : Option (Nat × Nat)
  counts : Option (Nat × Nat × Nat)
  deriving DecidableEq, Repr

/-- A process group bound to a port (20 R390, R391): its identifier, the port's rank, the fabric addresses, partitions,
ring neighbours PREV and scale-out marks of its ranks, and the time-out in ns. -/
structure PortGroup where
  group : Nat
  rank : Nat
  size : Nat
  faddrs : List Nat
  parts : List Nat
  prevs : List Nat
  so : List Bool
  timeout : Nat
  deriving DecidableEq, Repr

/-- What TBIND gave a logical buffer: handle, size class, size, format and shape (16 R332). -/
structure BufEnt where
  handle : Nat
  cls : Nat
  size : Nat
  fmt : Nat
  shape : W64
  deriving DecidableEq, Repr

/-- One copy of a stream port's state (16 R312). -/
structure PortCtx where
  tpc : Nat
  k : SMap W64
  bufs : SMap BufEnt
  phase : Nat
  group : Option PortGroup
  deriving DecidableEq, Repr

/-- STATE of 16 Table 114. -/
inductive PortState where
  | idle
  | run
  | stoppedFault
  | stoppedCancel
  | halting
  deriving DecidableEq, Repr

/-- A task fault as TSTATE and its neighbours report it (16 Tables 114, 115). -/
structure TaskFault where
  cause : Nat
  sub : Nat
  bind : Nat
  detail : W64
  trappc : W64
  deriving DecidableEq, Repr

/-- A stream port (16 R312, R314). `phaseId`, `job`: the counters of the phase being decoded and of the job;
`stopDecode`: a decode fault, a TEND or a HALT has stopped decoding; `issueStop`: an issue or execution fault has
(16 R324); `coll`: the number of the next collective on the bound group; `joining`: a Pacer join that waits;
`dropped`: a DROPPED that collectives fault for until the group is bound again (20 R404); `denied`: the address of a stream
page whose fault has become ACCESS (14 R413); `ended`: the stream has ended with a TEND (16 R329, R339; log 67). -/
structure Port where
  state : PortState
  tenant : Nat
  spec : PortCtx
  arch : PortCtx
  cause : Nat
  sub : Nat
  bind : Nat
  imprecise : Bool
  tidx : Nat
  detail : W64
  trappc : W64
  retired : W64
  phaseId : Nat
  job : Nat
  stopDecode : Bool
  coll : Nat
  dropped : Bool
  denied : Option W64
  ended : Bool
  deriving DecidableEq, Repr

/-- A region of a task (16 R322): its handle, the bytes it names and covers, and what the s-registers of a launch take
from its binding. -/
structure Region where
  t : Nat
  handle : Nat
  off : Nat
  len : Nat
  mode : Nat
  size : Nat
  fmt : Nat
  shape : W64
  res : Bool
  deriving DecidableEq, Repr

inductive TaskState where
  | waiting
  | issued
  | completed
  | faulted
  deriving DecidableEq, Repr

/-- Contributions of the ranks to a collective, by rank (20 R393, R394): the header fields, the source elements, and
whether the rank sends ABORT. -/
structure CollMsg where
  op : Nat
  sub : Nat
  fmt : Nat
  count : Nat
  abort : Bool
  payload : List CollElem
  deriving DecidableEq, Repr

/-- An entry of a task window (16 R320): the word's address, the task, its values of k-registers at decode, the
speculative state after it, recorded handles, regions, whether it has issued, and what it runs: launches, copy-engine
commands, a wait, a collective's number, a Pacer join's time, and the granules it has written poisoned. -/
structure WinTask where
  part : Nat
  port : Nat
  addr : Nat
  ins : Instr
  st : TaskState
  fault : Option TaskFault
  kin : SMap W64
  after : PortCtx
  olds : List (Nat × Nat)
  news : List (Nat × Nat)
  regs : List Region
  phaseId : Nat
  lids : List Nat
  cmds : List (Nat × Nat)
  wait : Option WaitRead
  parked : Bool
  polls : Nat
  coll : Nat
  stage : Nat
  joinAt : Option Nat
  pend : Option PortGroup
  cancelled : Bool
  poison : KSet
  issued : Bool
  deriving DecidableEq, Repr

/-- A present in a display head or an encoder (17 R355, R356): its task, its surface and its descriptor. -/
structure Present where
  part : Nat
  task : Nat
  surface : Nat
  desc : List Byte
  tenant : Nat
  frame : Nat
  deriving DecidableEq, Repr

/-- A display head: pending frame, presents that wait for its place, and latched frame; an encoder: its queue, its ring's
write and read position, the bitstream that waits for room (17 R356). -/
structure DispHead where
  pending : Option Present
  waiting : List Present
  latched : Option Present
  deriving DecidableEq, Repr
structure Encoder where
  queue : List Present
  wpos : Nat
  rpos : Nat
  bits : Option (Present × List Byte)
  deriving DecidableEq, Repr

/-- A way of an L2 slice: its line, its owner, when it was last used, whether it holds modified data, and the task that keeps
it resident (14 R282, R283, 16 R316). -/
structure L2Way where
  line : Nat
  tenant : Nat
  used : Nat
  dirty : Bool
  resident : Option Nat
  deriving DecidableEq, Repr

/-- A message in a firmware core's mailbox (18 R361). -/
structure MailMsg where
  sender : Nat
  kind : Nat
  seq : W32
  payload : List Byte
  deriving DecidableEq, Repr

/-- An accepted notice of a Pacer member that can still decide its limit (20 R400). -/
structure LimitAt where
  seq : Nat
  eff : Nat
  limit : Nat
  deriving DecidableEq, Repr

/-- A member of a Pacer group as this package sees it (20 R399, R402, R403). `spans`: when it is a member: from a JOIN's
time to a LEAVE's. -/
structure PacerMember where
  lastSeq : Nat
  slast : Nat
  limits : List LimitAt
  spans : List (Nat × Option Nat)
  deriving DecidableEq, Repr

/-- A Pacer group: members by fabric address, addresses dropped or left, the time-out in ns, and limits of members dropped,
each with the time until which it still counts, since a raise waits for the lead time (20 R404). -/
structure PacerGroup where
  members : SMap PacerMember
  gone : KSet
  timeout : Nat
  ghosts : List LimitAt
  deriving DecidableEq, Repr

/-- A packet of the scale-out transport that a sender keeps or a receiver holds (20 R409). -/
structure Packet where
  psn : Nat
  payload : List Byte
  notice : Option Notice
  deriving DecidableEq, Repr

/-- A scale-out connection (20 R409): the receiver's next expected PSN, held packets, packets delivered since its last
acknowledgement, the congestion echo, the time of the first unacknowledged delivery and of the last NACK; the sender's
next PSN, unacknowledged packets, packets that wait for the window or a pause, whether it owes a retransmission that a
pause holds back, window, port, consecutive time-outs and time of its last progress. -/
structure Conn where
  expect : Nat
  held : List Packet
  sinceAck : Nat
  ce : Bool
  ackAt : Option Nat
  nackAt : Option Nat
  nextPsn : Nat
  unacked : List Packet
  queue : List Packet
  resend : Bool
  window : Nat
  port : Nat
  timeouts : Nat
  progress : Nat
  dead : Bool
  deriving DecidableEq, Repr

/-- The firmware's SPDM session state (18 R371): the request that may come next, and sessions established. -/
structure Spdm where
  version : Bool
  caps : Bool
  algos : Bool
  pending : KSet
  sessions : KSet
  deriving DecidableEq, Repr

/-- An access sent to a peer package's memory: partition × 2048 + entry of PEERTAB, the partition and the key slot that the
entry names at the peer, address and access, and the gang or the copy-engine command that made it, 0 for none (20 R386,
R387, R389). -/
structure PeerOp where
  entry : Nat
  part : Nat
  rkey : Nat
  addr : Nat
  acc : ExtAcc
  gang : Nat
  cmd : Nat
  deriving DecidableEq, Repr

/-- A request that waits while POWER or FABRIC restarts (18 R363): a LEAVE, or a message of collective n of a port's rank. -/
inductive FwReq where
  | leave (g : PortGroup)
  | coll (part port : Nat) (g : PortGroup) (n : Nat) (m : CollMsg)
  deriving DecidableEq, Repr
/-- A message of a rank of this package for collective n of a group (20 R393). -/
structure GroupMsg where
  group : Nat
  rank : Nat
  n : Nat
  msg : CollMsg
  deriving DecidableEq, Repr

/-- A packet that a scale-out port sends (20 R405, R408): MAC addresses, the 802.1Q tag (priority and VLAN), the IP header's
fields (addresses, TTL or hop limit, DF, ECN), UDP ports and checksum, and the UDP payload. -/
structure OutPacket where
  port : Nat
  srcMac : Nat
  dstMac : Nat
  tag : Option (Nat × Nat)
  ipv6 : Bool
  srcIp : Nat
  dstIp : Nat
  ttl : Nat
  df : Bool
  ecn : Nat
  srcPort : Nat
  dstPort : Nat
  udpSum : Nat
  datagram : List Byte
  deriving DecidableEq, Repr

/-- What the package sends to the outside world: notices, packets of the scale-out ports, collective messages, SPDM
responses, in the order sent (20 R393, R398, R408; 18 R371). -/
inductive Sent where
  | noticeTo (dst : Nat) (n : Notice)
  | peer (op : PeerOp)
  | packet (p : OutPacket)
  | pfc (port prio quanta : Nat)
  | control (link : Nat) (body : FlitBody)
  | coll (dst part port n : Nat) (m : CollMsg)
  | spdm (body : List Byte)
  | accepted (vc : Nat) (payload : List Byte)
  | peerRead (dst addr : Nat) (bytes : List Byte) (poison : Bool)
  | hostRead (bytes : List Byte) (poison : Bool)
  deriving DecidableEq, Repr

/-- A transfer that a Timin link has to send: channel, destination, the flits left and in all, whether a link has carried it
whole before, and what the destination gets (20 R383, R384). -/
structure OutFlit where
  vc : Nat
  dst : Nat
  left : Nat
  flits : Nat
  carried : Bool
  load : Sent
  deriving DecidableEq, Repr

/-- A flit in a link's replay buffer: its sequence number, its channel, and with the last flit of a transfer the transfer
(20 R384). -/
structure SentFlit where
  seq : Nat
  vc : Nat
  last : Option OutFlit
  deriving DecidableEq, Repr

/-- A Timin link (20 R383, R384). Receiving: it carries traffic, flits failed in a row, the next flit in order. Sending,
by virtual channel: the pace value in force, a new one with the beat from which it applies, the beats of the last flits;
the beat of the last flit of all, the transfers that wait, the replay buffer, the next sequence number, the next one to
send, which is lower while flits are sent again, and flits in a row that failed at the other end. -/
structure Link where
  up : Bool
  fails : Nat
  next : Nat
  pace : SMap Nat
  paceNext : SMap (Nat × Nat)
  sentAt : SMap (List Nat)
  beat : Nat
  queue : List OutFlit
  replay : List SentFlit
  seq : Nat
  resend : Nat
  sendFails : Nat
  deriving DecidableEq, Repr

/-- The state of the device. `cregOld`: a control register before a write of this cycle that acts from the next one on (05
R121, 08 R188, 14 R284, 17 R343); `tailSeen`: by feed queue, TAIL and STALE before the tail writes of this cycle, and
their values (17 R352); `latheBusy`: the request that a lathe steps in this cycle (05 R126). `l1Bad`: poisoned granules of
L1 copies, core × 2^48 + granule (14 R296). `msix`: vectors sent, each with its function, 0 for PF0 and p + 1 for the VF
of partition p (18 R369). `fwMem`: what the memories of the firmware cores hold; `mailStall`: firmware cores that stall at
a full mailbox, in the order of their writes, with the mailbox and the message; `fwWait`: requests that wait for POWER or
FABRIC; `terms`, `errWait`: terminations and error reports that wait for ERRH (18 R360, R361). `timinRoute`: the links
that reach a package, unlisted: all (20 R385). `tlb`: clusters' TLBs, and under unit 256 + pid the L1 TLBs (14 R292).
`deferNow`: the request being performed needs a firmware core that restarts; it goes to `deferred` and is made again later
(18 R363). `noticeWait`: notices that wait for the POWER core. `groupMail`: messages of collectives of this package's
ranks, for ranks of it that bind the group later (20 R393); `collBuf`: by scale-out connection, bytes received of a
message that is not whole (20 R410). -/
structure State where
  part : Part
  powered : Bool
  agenda : List Agent
  cur : Option Cur
  deferNow : Bool
  deferred : List Agent
  freeCtr : Nat
  cycle : Nat
  fabtime : W64
  fabFrac : Nat
  ceil : Nat
  ceilNext : Nat
  mem : SMap Byte
  vmem : SMap Byte
  memPoison : KSet
  vmemPoison : KSet
  lineKey : SMap Nat
  absentAcc : Option Nat
  wcb : SMap (SMap BufLine)
  cpt : SMap (SMap BufLine)
  l1 : SMap (SMap (List Byte))
  l1Bad : KSet
  tex : SMap (SMap (List Byte))
  icache : SMap (SMap CodeLine)
  l0 : SMap (SMap CodeLine)
  tlb : SMap TlbEntry
  vops : List VaultOp
  monitors : List Monitor
  faults : List PageFault
  cregs : SMap W64
  roots : SMap Nat
  pkg : Nat
  gangs : SMap Gang
  nextGang : Nat
  wgs : SMap Wg
  nextWg : Nat
  admitSeq : Nat
  launches : SMap Launch
  nextLaunch : W32
  phases : SMap Counter
  jobs : SMap Counter
  phaseCancelled : KSet
  jobCancelled : KSet
  cparts : SMap CorePart
  cregOld : SMap W64
  taskWake : KSet
  starters : SMap Starter
  lathes : SMap Nat
  latheBusy : SMap (Nat × Nat)
  engines : SMap (List EngCmd)
  engNext : Nat
  chans : SMap (SMap W64)
  keyMat : SMap Nat
  hostlog : SMap (List Byte)
  fwCores : BitVec 8
  fwMem : SMap (List Byte)
  mailStall : List (Nat × Nat × MailMsg)
  fwWait : List FwReq
  terms : List (Nat × Report)
  errWait : List (Nat × Nat)
  microcode : SMap (List McodeDecl)
  openings : Nat
  qcopied : SMap KSet
  msix : List (Nat × Nat)
  peerOut : List PeerOp
  fwver : Nat
  secver : Nat
  heldScr : List (Nat × Nat × Nat × Nat)
  l2 : SMap (SMap L2Way)
  l2clock : Nat
  tailSeen : SMap (Nat × Nat × List Nat)
  useBw : SMap Nat
  useEn : SMap Nat
  ports : SMap Port
  tasks : SMap WinTask
  nextTask : Nat
  freeLists : SMap (List Nat)
  handles : SMap (List (Nat × Nat))
  decodeLast : SMap Nat
  winMark : SMap Nat
  issueLast : SMap Nat
  nextPhase : Nat
  nextJob : Nat
  collIn : SMap (SMap CollMsg)
  groupMail : List GroupMsg
  collBuf : SMap (List Byte)
  presents : SMap Nat
  heads : SMap DispHead
  encs : SMap Encoder
  bootCode : Nat
  restarting : BitVec 8
  staging : SMap Byte
  mail : SMap (List MailMsg)
  heart : SMap W64
  image : List Byte
  mcodeImage : SMap (List Byte)
  peakTicks : List Nat
  msTicks : List Nat
  patWritten : SMap Nat
  ownLimit : Nat
  ownLimits : List LimitAt
  lowering : KSet
  links : SMap Link
  timinRoute : SMap Nat
  pacer : SMap PacerGroup
  pacerSeq : Nat
  noticeWait : List Notice
  conns : SMap Conn
  pfcPause : SMap Nat
  spdm : Spdm
  tdi : SMap Nat
  ideKeys : SMap Nat
  sent : List Sent
  errReports : List (Nat × Nat)
  eccCounts : SMap Nat
  deriving DecidableEq, Repr

/-- The machine right after power-up (18 R364): only the SEC core runs, from its boot ROM, and waits for an image; every
register reads its reset value (an unlisted control register: `cregReset`); caches, queues, ports and windows are empty.
Identifiers of gangs, workgroups, launches and commands count from 1 (log 8). -/
def State.reset : State :=
  { part := .j96, powered := true, agenda := [], cur := none, deferNow := false, deferred := [], freeCtr := 0
    cycle := 0, fabtime := 0, fabFrac := 0, ceil := 2500, ceilNext := 2500, mem := [], vmem := []
    memPoison := [], vmemPoison := [], lineKey := [], absentAcc := none, wcb := [], cpt := []
    l1 := [], l1Bad := [], tex := [], icache := [], l0 := [], tlb := [], vops := [], monitors := [], faults := [], cregs := [], roots := []
    pkg := 0, gangs := [], nextGang := 1, wgs := [], nextWg := 1, admitSeq := 0, launches := [], nextLaunch := 1
    phases := [], jobs := [], phaseCancelled := [], jobCancelled := [], cparts := [], cregOld := [], taskWake := []
    starters := [], lathes := [], latheBusy := [], engines := [], engNext := 1, chans := [], keyMat := [], hostlog := []
    fwCores := 0x20, fwMem := [], mailStall := [], fwWait := [], terms := [], errWait := [], microcode := []
    openings := 0, qcopied := [], msix := [], peerOut := [], fwver := 0
    secver := 0, heldScr := [], l2 := [], l2clock := 0, tailSeen := [], useBw := [], useEn := [], ports := [], tasks := []
    nextTask := 1, freeLists := [], handles := [], decodeLast := [], winMark := [], issueLast := []
    nextPhase := 1, nextJob := 1, collIn := [], groupMail := [], collBuf := [], presents := [], heads := [], encs := [], bootCode := 0
    restarting := 0, staging := [], mail := [], heart := [], image := [], mcodeImage := [], peakTicks := []
    msTicks := [], patWritten := [], ownLimit := 2500, ownLimits := [], lowering := [], links := [], timinRoute := [], pacer := []
    pacerSeq := 0, noticeWait := [], conns := [], pfcPause := []
    spdm := { version := false, caps := false, algos := false, pending := [], sessions := [] }, tdi := []
    ideKeys := [], sent := [], errReports := [], eccCounts := [] }

end Sys2Proof.Machine
end

