-- ==== Sys2Proof/Machine/Ops.lean ====
section
/-! DEFINITION. The named operations over lanes, registers, control registers, physical memory, translation and buffers.
Every meaning is written over them. -/

namespace Sys2Proof.Machine

/-- The outcome of a meaning. -/
abbrev Out := Host.Outcome State Fault Refusal

/-- The outcome of a state: a fault where an access reached absent memory (18 R374). -/
def finish (s : State) : Out :=
  match s.absentAcc with
  | some pa => .fault (.absentMemory pa)
  | none => .next s

/-- Truth as a bit. -/
def b2n (b : Bool) : Nat := if b then 1 else 0

/-- Bits [lo + n − 1 : lo] of a number. -/
def bitsOf (x lo n : Nat) : Nat := x / 2 ^ lo % 2 ^ n

/-- A 64-bit register's field as a number. -/
def fld (x : W64) (lo n : Nat) : Nat := (x.extractLsb' lo n).toNat

/-- A register with one field written. -/
def setFld (x : W64) (lo n : Nat) (v : Nat) : W64 :=
  let m : W64 := BitVec.ofNat 64 ((2 ^ n - 1) * 2 ^ lo)
  (x &&& ~~~m) ||| (BitVec.ofNat 64 (v % 2 ^ n * 2 ^ lo))

/-! ### Lanes -/

/-- The lanes of a mask, ascending. -/
def lanesOf (m : LaneMask) : List Nat := (List.range 32).filter fun l => m.getLsbD l
/-- The mask of the lanes that meet a condition. -/
def maskWhere (p : Nat → Bool) : LaneMask :=
  BitVec.ofNat 32 ((List.range 32).foldl (fun a l => if p l then a + 2 ^ l else a) 0)
/-- The lowest lane of a mask, 0 where it is empty. -/
def lowLane (m : LaneMask) : Nat := (lanesOf m).headD 0
/-- Number of lanes of a mask. -/
def laneCount (m : LaneMask) : Nat := (lanesOf m).length

/-- Lane status codes, 01 Table 5. -/
def Gang.laneStatus (g : Gang) (l : Nat) : Nat := (g.status.extractLsb' (2 * l) 2).toNat
def Gang.isLive (g : Gang) (l : Nat) : Bool := g.laneStatus l = 1
def Gang.liveMask (g : Gang) : LaneMask := maskWhere g.isLive
/-- The lanes of a mask become exited (01 Table 6). -/
def Gang.exitLanes (g : Gang) (m : LaneMask) : Gang :=
  { g with status := (lanesOf m).foldl (fun st l => BitVec.ofNat 64 (setFld st (2 * l) 2 2).toNat) g.status }
def Gang.pcOf (g : Gang) (l : Nat) : PCAddr := g.pcs.getD l 0
/-- The lanes of a mask move to an address; bits [3:0] of a PC are 0 (01 R9). -/
def Gang.setPc (g : Gang) (m : LaneMask) (pc : PCAddr) : Gang :=
  { g with pcs := (lanesOf m).foldl (fun p l => p.put 0 l (pc &&& ~~~(15 : PCAddr))) g.pcs }
def Gang.unit (g : Gang) (l : Nat) : Nat := g.unitOf.getD l 0
/-- Lanes that wait. -/
def Gang.blockedMask (g : Gang) : LaneMask := g.waits.foldl (fun m w => m ||| w.lanes) 0

/-! ### Registers -/

/-- Register keys of full/empty bits, poison marks and destinations. -/
def vkey (l r : Nat) : Nat := l * 256 + r
def skey (n : Nat) : Nat := 8192 + n
/-- A v-register of a lane; a never-launched lane reads 0 (01 R19). -/
def Gang.v (g : Gang) (l r : Nat) : W32 := if g.laneStatus l = 0 then 0 else g.vr.getD (vkey l r) 0
def Gang.setV (g : Gang) (l r : Nat) (x : W32) : Gang :=
  { g with vr := g.vr.put 0 (vkey l r) x, poison := g.poison.del (vkey l r), empty := g.empty.del (vkey l r) }
/-- A pair named by its even register (03 R48). -/
def Gang.v64 (g : Gang) (l r : Nat) : W64 := g.v l (r + 1) ++ g.v l r
def Gang.setV64 (g : Gang) (l r : Nat) (x : W64) : Gang :=
  (g.setV l r (x.extractLsb' 0 32)).setV l (r + 1) (x.extractLsb' 32 32)
/-- A v-register or pair, by width. -/
def Gang.vw (g : Gang) (w l r : Nat) : Nat := if w = 64 then (g.v64 l r).toNat else (g.v l r).toNat
def Gang.setVw (g : Gang) (w l r : Nat) (x : Nat) : Gang :=
  if w = 64 then g.setV64 l r (BitVec.ofNat 64 x) else g.setV l r (BitVec.ofNat 32 x)
/-- A predicate; p0 reads 1 (00 R3). -/
def Gang.p (g : Gang) (l i : Nat) : Bool := i = 0 || g.pr.getLsbD (8 * l + i)
/-- A write to p0 is discarded (01 R15). -/
def Gang.setP (g : Gang) (l i : Nat) (b : Bool) : Gang :=
  if i = 0 then g
  else
    let m : BitVec 256 := BitVec.ofNat 256 (2 ^ (8 * l + i))
    { g with pr := if b then g.pr ||| m else g.pr &&& ~~~m }
/-- An s-register (00 R3). -/
def Gang.s (g : Gang) (n : Nat) : W64 := g.sr.getD n 0
def Gang.putS (g : Gang) (n : Nat) (x : W64) : Gang :=
  { g with sr := g.sr.put 0 n x, poison := g.poison.del (skey n) }
/-- A word writes an s-register: a write still outstanding is before it in program order and leaves nothing
(06 R146). -/
def Gang.setS (g : Gang) (n : Nat) (x : W64) : Gang :=
  { g.putS n x with
    empty := g.empty.del (skey n)
    prods := g.prods.map fun p => { p with dests := p.dests.filter fun d => d.key != skey n } }
/-- Raise floating-point flags (02 R39). -/
def Gang.raise (g : Gang) (f : Flg) : Gang := { g with fpstat := g.fpstat ||| f.setWidth 64 }
def Gang.fz (g : Gang) : Bool := g.fpstat.getLsbD 16
/-- A guard: bit 3 negates predicate [2:0] (01 R15, 03 R47). -/
def Gang.guard (g : Gang) (gd : BitVec 4) (l : Nat) : Bool := g.p l (gd.toNat % 8) != gd.getLsbD 3

/-- Source lane of a permute code, 03 Table 20. -/
def permSrc (p : BitVec 8) (l : Nat) : Nat :=
  let n := p.toNat % 32
  match p.toNat / 32 with
  | 1 => (l + n) % 32
  | 2 => n
  | 3 => l ^^^ 2 ^ n
  | 4 => l ^^^ (2 ^ n - 1)
  | 5 => 4 * (l / 4) + n
  | _ => l

/-! ### Gangs and workgroups -/

def State.gang? (s : State) (gid : Nat) : Option Gang := s.gangs.find? gid
def State.setGang (s : State) (gid : Nat) (g : Gang) : State := { s with gangs := s.gangs.set gid g }
def State.updGang (s : State) (gid : Nat) (f : Gang → Gang) : State := { s with gangs := s.gangs.upd gid f }
def State.updWg (s : State) (w : Nat) (f : Wg → Wg) : State := { s with wgs := s.wgs.upd w f }
def State.updLaunch (s : State) (l : Nat) (f : Launch → Launch) : State := { s with launches := s.launches.upd l f }
/-- Core, cluster and die of a core partition number. -/
def coreOf (pid : Nat) : Nat := pid / 4
def clusterOf (pid : Nat) : Nat := pid / 32
def dieOf (pid : Nat) : Nat := pid / 768

/-- The request being performed waits for a firmware core that restarts (18 R363). -/
def State.defer (s : State) : State := { s with deferNow := true }

/-- A free value, and the state that has taken it (log 4). -/
def State.takeFree (s : State) : Nat × State := (s.freeCtr, { s with freeCtr := s.freeCtr + 1 })

/-- A firmware core carries out its function: it is not held in reset, and does not stall at a full mailbox (18 R360,
R361). -/
def State.fwUp (s : State) (core : Nat) : Bool := s.fwCores.getLsbD core && !(s.mailStall.any fun e => e.1 = core)

/-- A partition whose device interface stands in ERROR runs no work (18 R370). -/
def State.partStopped (s : State) (part : Nat) : Bool := s.tdi.getD part 0 = 3

/-! ### Control registers -/

/-- Number of a control page. -/
def pageCode : Page → Nat
  | .hub => 0
  | .part p => 1 + p
  | .cluster c => 16 + c
  | .core c => 64 + c
  | .slice n => 512 + n
  | .heart => 14
  | .unplaced => 15
def cregKey (p : Page) (off : Nat) : Nat := pageCode p * 2 ^ 24 + off

/-- Reset value of a control register: the tables of 05, 08, 12, 14, 16, 17, 18 and 20; 0 where none is listed. -/
def cregReset (p : Page) (off : Nat) : W64 :=
  match p with
  | .core _ =>
    if 0x100 ≤ off && off < 0x120 then 0x0800001000000010
    else if 0x120 ≤ off && off < 0x140 then 0x0000000100010000
    else 0
  | .unplaced => 0
  | .heart => 0
  | .cluster _ => if off = 0 then 0x00000000FFFFFFFF else if off = 8 then 0x0000010102000100 else 0
  | .slice _ => if 0x1000 ≤ off && off < 0x1800 then 0xFFFF else 0
  | .part _ => if off = 0x8060 then 64 else if off = 0x8068 then 500 else if off = 0x8000 then 256 else 0
  | .hub =>
    if 0x400000 ≤ off && off < 0x408000 then
      if off % 64 = 0x10 || off % 64 = 0x18 then 0xFFFFFFFF else 0
    else if off = 0x300000 then 0x0BB80E10
    else if off = 0x300018 then 16
    else if off = 0x300020 then 0x85F0
    else if 0x320000 ≤ off && off < 0x320400 then (if off % 256 = 0 then 0x177000000 else 0)
    else 0
/-- A control register. -/
def State.creg (s : State) (p : Page) (off : Nat) : W64 := (s.cregs.find? (cregKey p off)).getD (cregReset p off)
def State.setCreg (s : State) (p : Page) (off : Nat) (v : W64) : State :=
  { s with cregs := if v = cregReset p off then s.cregs.del (cregKey p off) else s.cregs.set (cregKey p off) v }

/-- Tenant record, 17 Table 124: the tenant is valid, and its partition. -/
def tenantOff (t k : Nat) : Nat := 0x400000 + 64 * t + k
def State.tenantPart (s : State) (t : Nat) : Nat := fld (s.creg .hub (tenantOff t 0)) 1 3
def State.tenantValid (s : State) (t : Nat) : Bool := (s.creg .hub (tenantOff t 0)).getLsbD 0
/-- Key slot, 18 Table 137. -/
def State.keyKind (s : State) (k : Nat) : Nat := fld (s.creg .hub (0x500000 + 8 * k)) 0 2
def State.keyOwner (s : State) (k : Nat) : Nat := fld (s.creg .hub (0x500000 + 8 * k)) 8 9

/-- A core partition's own state; one that has done nothing yet has no entry. -/
def cpartZero : CorePart := { bins := [], readyOrder := [], claimOrder := 0, deadlock := 0, issued := false,
                               pass := [], array := 0 }
def State.cpart (s : State) (pid : Nat) : CorePart := s.cparts.getD pid cpartZero
def State.setCpart (s : State) (pid : Nat) (p : CorePart) : State := { s with cparts := s.cparts.set pid p }

/-- A control register as it acts in this cycle, where a write takes effect at the next one: PSCHED (05 R121), PMATRIX (08
R188), WMASK (14 R284), and the LIMITs of a tenant (17 R343). -/
def State.cregNow (s : State) (p : Page) (off : Nat) : W64 := (s.cregOld.find? (cregKey p off)).getD (s.creg p off)
/-- A write that takes effect at the next cycle. -/
def State.setCregNext (s : State) (p : Page) (off : Nat) (v : W64) : State :=
  let k := cregKey p off
  { s.setCreg p off v with cregOld := if (s.cregOld.find? k).isSome then s.cregOld else s.cregOld.set k (s.creg p off) }
def State.psched (s : State) (pid : Nat) : W64 := s.cregNow (.core (coreOf pid)) (0x100 + 8 * (pid % 4))
def State.pmatrix (s : State) (pid : Nat) : W64 := s.cregNow (.core (coreOf pid)) (0x120 + 8 * (pid % 4))

/-! ### Units of the part -/

def State.dies (s : State) : Nat := if s.part = .j92 then 1 else 2
def State.stacks (s : State) : Nat := if s.part = .j92 then 4 else 8
def State.hasHeads (s : State) : Bool := s.part != .j96n
/-- A physical address that a stack of the part holds (18 R374). -/
def State.paOk (s : State) (pa : Nat) : Bool := pa < s.stacks * (48 * 2 ^ 30)

/-! ### Physical memory -/

/-- A byte of HBM; an unlisted byte reads 0 (log 6). -/
def State.memByte (s : State) (pa : Nat) : Byte := s.mem.getD pa 0
/-- The tag of the key that a slot encrypts with, by its material: 0 for a plain slot (18 R372). -/
def State.keyTag (s : State) (key : Nat) : Nat :=
  if s.keyKind key = 1 then (match s.keyMat.find? key with | some m => 2 + m | none => 1) else 0
/-- A byte of HBM read under a key tag: a line written under another tag reads as a wrong decryption (18 R372). -/
def State.memByteAs (s : State) (tag pa : Nat) : Byte :=
  let w := s.lineKey.getD (pa / 128) 0
  if w = tag then s.memByte pa
  else Config.wrongKeyByte w tag pa ((List.range 16).map fun i => s.memByte (pa / 16 * 16 + i))
/-- Bytes from a physical address under no key (page tables, hub structures). -/
def State.memRaw (s : State) (pa n : Nat) : List Byte := (List.range n).map fun i => s.memByteAs 0 (pa + i)
/-- The whole line becomes held under a tag. -/
def State.rekeyLine (s : State) (line tag : Nat) : State :=
  if s.lineKey.getD line 0 = tag then s
  else
    let m := (List.range 128).foldl (fun m i => m.put 0 (128 * line + i) (s.memByteAs tag (128 * line + i))) s.mem
    { s with mem := m, lineKey := s.lineKey.put 0 line tag }
/-- Mark an access to absent memory. -/
def State.checkPa (s : State) (pa : Nat) : State :=
  if s.paOk pa then s else { s with absentAcc := some (s.absentAcc.getD pa) }

/-- The poison marks of 16-byte granules after bytes are written: a granule whose bytes are all written is clean
(14 R297). -/
def clearPoison (p : KSet) (addrs : List Nat) : KSet :=
  p.filter fun g => !((List.range 16).all fun i => addrs.contains (16 * g + i))

/-! ### Places -/

/-- The same place whatever the key. -/
def LocKind.plain : LocKind → LocKind
  | .mem _ => .mem 0
  | k => k

/-- The scratchpad and vault bytes. -/
def State.scrByte (s : State) (w o : Nat) : Byte :=
  match s.wgs.find? w with
  | some g => g.scr.getD o 0
  | none => 0

/-- A byte where it is performed: the home, with no buffer (15 R299). A peer's byte is not in this package; it reads as
a free value, and may be denied or lost (20 R388, log 11). -/
def State.homeByte (s : State) (k : LocKind) (a : Nat) : Byte :=
  match k with
  | .mem key => s.memByteAs (s.keyTag key) a
  | .scr w => s.scrByte w a
  | .vault => s.vmem.getD a 0
  | .peer e => Config.freeByte s.freeCtr (e * 2 ^ 52 + a)

/-! ### Timin links (20 R383 to R385) -/

/-- A link that has carried nothing: the spec gives no pace value before the receiver announces one (log 50). -/
def linkZero : Link := { up := true, fails := 0, next := 0, pace := [], paceNext := [], sentAt := [], beat := 0, queue := [],
                         replay := [], seq := 0, resend := 0, sendFails := 0 }
def State.link (s : State) (i : Nat) : Link := s.links.getD i linkZero
/-- The links that carry traffic and reach a package; none: it is unreachable (20 R384). -/
def State.linksTo (s : State) (dst : Nat) : List Nat :=
  (List.range 16).filter fun i => bitsOf (s.timinRoute.getD dst 0xFFFF) i 1 = 1 && (s.link i).up
/-- The link of a transfer: hashed from the destination's address and PA[51:7] (20 R384). -/
def State.linkFor (s : State) (dst pa : Nat) : Option Nat :=
  let ls := s.linksTo dst
  ls[Config.linkHash dst (bitsOf pa 7 45) % max ls.length 1]?
/-- Hand a transfer to its link, where it waits to be sent; to an unreachable package it is lost (20 R389). -/
def State.dispatchFlit (s : State) (o : OutFlit) : State :=
  match s.linkFor o.dst (match o.load with | .peer op => op.addr | .peerRead _ a _ _ => a | _ => 0) with
  | none => s
  | some i => let l := s.link i; { s with links := s.links.set i { l with queue := l.queue ++ [o] } }
/-- Send some bytes to a package on a channel. -/
def State.fabricSend (s : State) (vc dst bytes : Nat) (x : Sent) : State :=
  s.dispatchFlit { vc := vc, dst := dst, left := bytes / 32 + 1, flits := bytes / 32 + 1, carried := false, load := x }
/-- The peer-table entry of a place at a peer, numbered partition × 2048 + entry, and the peer's fabric address
(20 R386). -/
def State.peerEntry (s : State) (e : Nat) : W64 := s.creg (.part (e / 2048)) (0x10000 + 8 * (e % 2048))
def State.peerAddr (s : State) (e : Nat) : Nat := fld (s.peerEntry e) 0 16
/-- A peer can be reached (20 R389). -/
def State.peerUp (s : State) (e : Nat) : Bool := !(s.linksTo (s.peerAddr e)).isEmpty
/-- Bytes that a request carries. -/
def accBytes : ExtAcc → Nat
  | .read _ => 0
  | .write bs => bs.length
  | .atomic _ n _ xs => n * xs.length
  | .cas n xs => 2 * n * xs.length
/-- An access to a peer is on its way to it (14 R295, 20 R389). -/
def State.peerQueued (s : State) : Bool :=
  s.links.any fun e => (e.2.queue ++ e.2.replay.filterMap (·.last)).any fun o => match o.load with | .peer _ => true | _ => false
/-- Writes and atomics of a gang, or of a copy-engine command, are on their way to peers: its release at .SYS waits for
them (15 R308, 20 R389). -/
def State.peerWrites (s : State) (gang cmd : Nat) : Bool :=
  let mine (op : PeerOp) : Bool := ((gang != 0 && op.gang = gang) || (cmd != 0 && op.cmd = cmd)) && match op.acc with
    | .read _ => false
    | _ => true
  s.links.any fun e => (e.2.queue ++ e.2.replay.filterMap (·.last)).any fun o => match o.load with | .peer op => mine op | _ => false
/-- The gang whose word is being issued. -/
def State.curGid (s : State) : Nat := match s.cur with | some c => c.gang | none => 0
/-- Send an access to a peer's memory, under the partition and the key slot that its entry names (20 R386, R387). -/
def State.peerSend (s : State) (e a : Nat) (acc : ExtAcc) (gang cmd : Nat) : State :=
  s.fabricSend 0 (s.peerAddr e) (accBytes acc)
    (.peer { entry := e, part := fld (s.peerEntry e) 16 3, rkey := fld (s.peerEntry e) 19 11, addr := a, acc := acc
             gang := gang, cmd := cmd })

/-- A byte is poisoned at its home; a denied or lost read of a peer returns poison (20 R388). -/
def State.homePoison (s : State) (k : LocKind) (a : Nat) : Bool :=
  match k with
  | .mem _ => s.memPoison.contains (a / 16)
  | .scr w => (match s.wgs.find? w with | some g => g.scrPoison.contains (a / 16) | none => false)
  | .vault => s.vmemPoison.contains (a / 16)
  | .peer e => !s.peerUp e || Config.freeBool s.freeCtr

/-- The aligned 8-byte word of a place is written: its monitors wake their groups and are freed (14 R285). -/
def monitorHit (m : Monitor) (k : LocKind) (addrs : List Nat) : Bool :=
  m.word.kind = k.plain && addrs.any fun a => a / 8 = m.word.addr / 8

def Wait.wake (w : Wait) : Wait :=
  { w with
    kind :=
      match w.kind with
      | .waitc r p n _ => .waitc r p n true
      | .qpop q t vd sd ls p n _ => .qpop q t vd sd ls p n true
      | k => k }

def State.wakeSleeper (s : State) : Sleeper → State
  | .gang gid wid =>
    s.updGang gid fun g => { g with waits := g.waits.map fun w => if w.id = wid then w.wake else w }
  | .task part id => { s with taskWake := s.taskWake.add (id * 16 + part) }

def State.wakeWrites (s : State) (k : LocKind) (addrs : List Nat) : State :=
  let hit := s.monitors.filter fun m => monitorHit m k addrs
  let s1 := { s with monitors := s.monitors.filter fun m => !monitorHit m k addrs }
  hit.foldl (fun s m => m.sleepers.foldl State.wakeSleeper s) s1

/-- Bytes written at their home: performed in the coherent order at this moment; at a peer, by a gang or by a copy-engine
command. -/
def State.homeWrite (s : State) (k : LocKind) (bytes : List (Nat × Byte)) (gang : Nat := s.curGid) (cmd : Nat := 0) : State :=
  let addrs := bytes.map (·.1)
  let s1 : State :=
    match k with
    | .mem key =>
      let tag := s.keyTag key
      let s0 := (addrs.map (· / 128)).eraseDups.foldl (fun s l => s.rekeyLine l tag) s
      { s0 with mem := bytes.foldl (fun m b => m.put 0 b.1 b.2) s0.mem, memPoison := clearPoison s0.memPoison addrs }
    | .scr w =>
      s.updWg w fun g =>
        { g with
          scr := bytes.foldl (fun m b => m.put 0 b.1 b.2) g.scr
          scrPoison := clearPoison g.scrPoison addrs }
    | .vault =>
      { s with
        vmem := bytes.foldl (fun m b => m.put 0 b.1 b.2) s.vmem
        vmemPoison := clearPoison s.vmemPoison addrs }
    | .peer e => s.peerSend e (addrs.headD 0) (.write (bytes.map (·.2))) gang cmd
  s1.wakeWrites k addrs

/-- Mark a granule poisoned at its home (14 R296). -/
def State.poisonAt (s : State) (k : LocKind) (a : Nat) : State :=
  match k with
  | .mem _ => { s with memPoison := s.memPoison.add (a / 16) }
  | .scr w => s.updWg w fun g => { g with scrPoison := g.scrPoison.add (a / 16) }
  | .vault => { s with vmemPoison := s.vmemPoison.add (a / 16) }
  | .peer _ => s

/-- The L2 home reports poisoned granules that a unit of a launch has written (16 R325). -/
def State.reportPoison (s : State) (launch : Nat) (l : Loc) (n : Nat) : State :=
  match l.kind with
  | .mem _ =>
    let gs := ((List.range n).map fun i => (l.addr + i) / 16).eraseDups.filter s.memPoison.contains
    if gs.isEmpty then s else s.updLaunch launch fun L => { L with poison := L.poison.addAll gs }
  | _ => s

/-- Consecutive addressed bytes. -/
def addressed (a : Nat) (bs : List Byte) : List (Nat × Byte) := (List.range bs.length).zipWith (fun i b => (a + i, b)) bs

/-! ### Translation (14 R292 to R295) -/

inductive AccKind where
  | read
  | write
  | fetch
  deriving DecidableEq, Repr

/-- What translation gives: a place, a missing mapping, or a denied access. -/
inductive TRes where
  | ok (l : Loc)
  | page
  | access
  deriving DecidableEq, Repr

/-- A leaf checked for an access at a level whose page has `bits` offset bits (14 R294). -/
def State.leafCheck (s : State) (tenant part : Nat) (acc : AccKind) (va : Nat) (pte : W64) (bits : Nat) : TRes :=
  let addr := fld pte 8 44 * 256
  let key := fld pte 53 11
  let peer := pte.getLsbD 4
  let keyOk := if peer then (s.creg (.part part) (0x10000 + 8 * key)).getLsbD 63
    else s.keyOwner key = tenant && (s.keyKind key = 1 || s.keyKind key = 3)
  let allowed := match acc with | .read => true | .write => pte.getLsbD 2 | .fetch => pte.getLsbD 3 && !peer
  if addr % 2 ^ bits != 0 || !keyOk || !allowed then .access
  else .ok { kind := if peer then .peer (part * 2048 + key) else .mem key, addr := addr + va % 2 ^ bits }

/-- The levels of a walk: lowest index bit, index width, and whether a leaf may stand there (14 Table 108). -/
def walkLevels : List (Nat × Nat × Bool × Bool) :=
  [(48, 9, false, true), (39, 9, false, true), (30, 9, true, true), (21, 9, true, true), (16, 5, true, false)]

/-- The home index of a physical address, 14 R281, and its home table entry. -/
def homeIndex (pa : Nat) : Nat :=
  bitsOf pa 7 9 ^^^ bitsOf pa 16 9 ^^^ bitsOf pa 25 9 ^^^ bitsOf pa 34 9 ^^^ bitsOf pa 43 9
def State.homeEntry (s : State) (part pa : Nat) : W64 := s.creg (.part part) (0x4000 + 2 * homeIndex pa)
def State.homeValid (s : State) (part pa : Nat) : Bool := (s.homeEntry part pa).getLsbD 15
def State.homeSlice (s : State) (part pa : Nat) : Nat := fld (s.homeEntry part pa) 0 9

/-- A page-table entry as a walk reads it: a coherent .BYP load at its home slice (14 R292), under no key, whatever poison
it holds; none where the home table or memory has no such line (log 51). -/
def State.pteAt (s : State) (part pa : Nat) : Option W64 :=
  if s.homeValid part pa && s.paOk pa then some (BitVec.ofNat 64 (leNat (s.memRaw pa 8))) else none

/-- The entry that a walk ends on: a leaf and its page bits, or how it fails. -/
def State.walkFrom (s : State) (part va : Nat) : List (Nat × Nat × Bool × Bool) → Nat → Except TRes (W64 × Nat)
  | [], _ => .error .access
  | (lo, n, leafOk, tableOk) :: ls, table =>
    match s.pteAt part (table + 8 * bitsOf va lo n) with
    | none => .error .access
    | some pte =>
      if !pte.getLsbD 0 then .error .page
      else if fld pte 5 3 != 0 || pte.getLsbD 52 then .error .access
      else if pte.getLsbD 1 then (if leafOk then .ok (pte, lo) else .error .access)
      else if tableOk then s.walkFrom part va ls (fld pte 8 44 * 256)
      else .error .access

/-- The addresses of the entries that a walk reads. -/
def State.walkPas (s : State) (part va : Nat) : List (Nat × Nat × Bool × Bool) → Nat → List Nat
  | [], _ => []
  | (lo, n, _, tableOk) :: ls, table =>
    let a := table + 8 * bitsOf va lo n
    match s.pteAt part a with
    | none => []
    | some pte =>
      if pte.getLsbD 0 && fld pte 5 3 = 0 && !pte.getLsbD 52 && !pte.getLsbD 1 && tableOk then
        a :: s.walkPas part va ls (fld pte 8 44 * 256)
      else [a]
def State.walk (s : State) (tenant va : Nat) : Except TRes (W64 × Nat) :=
  s.walkFrom (s.tenantPart tenant) va walkLevels (s.roots.getD tenant 0)

/-- Key of a TLB entry. -/
def tlbKey (unit tenant page : Nat) : Nat := (unit * 512 + tenant) * 2 ^ 41 + page
/-- The unit of a core partition's L1 TLB; a smaller number is a cluster, whose TLB is behind it (14 R292). -/
def tlbUnit (pid : Nat) : Nat := 256 + pid
/-- The entry that the TLBs of a unit hold for a page. -/
def State.tlbFind (s : State) (unit tenant page : Nat) : Option TlbEntry :=
  (s.tlb.find? (tlbKey unit tenant page)).orElse fun _ =>
    if unit < 256 then none else s.tlb.find? (tlbKey (clusterOf (unit - 256)) tenant page)

/-- Translation of a 64-bit address for a tenant at a TLB unit (14 R293, R294, R281; 07 Table 55). A TLB entry is used
where one is held (14 R295). -/
def State.translate (s : State) (unit tenant : Nat) (acc : AccKind) (x : W64) : TRes :=
  if fld x 57 7 != (if x.getLsbD 56 then 127 else 0) then .access
  else
    let va := fld x 0 57
    let part := s.tenantPart tenant
    let leaf : Except TRes (W64 × Nat) :=
      match s.tlbFind unit tenant (va / 2 ^ 16) with
      | some e => .ok (e.pte, e.level)
      | none => s.walk tenant va
    match leaf with
    | .error e => e
    | .ok (pte, bits) =>
      match s.leafCheck tenant part acc va pte bits with
      | .ok l =>
        (match l.kind with
         | .mem _ => if s.homeValid part l.addr then .ok l else .access
         | _ => .ok l)
      | r => r

/-! ### The L2 slices (14 R282 to R284, 16 R316) -/

/-- The virtual address at which a tenant's range [start, start + len) shows a physical address, if it does. -/
def State.vaOfPa (s : State) (tenant start len pa : Nat) : Option Nat :=
  (List.range (len / 65536 + 2)).findSome? fun j =>
    let v := start / 65536 * 65536 + 65536 * j
    match s.translate 255 tenant .read ((BitVec.ofNat 57 v).signExtend 64) with
    | .ok l =>
      let x := v + (pa - l.addr)
      if l.addr ≤ pa && pa < l.addr + 65536 && start ≤ x && x < start + len then some x else none
    | _ => none
/-- The running task that keeps a line resident: the line lies in a region of it, rounded to 256 bytes (16 R316, R322). -/
def State.resOwner (s : State) (pa : Nat) : Option Nat :=
  (List.find? (fun (e : Nat × WinTask) =>
    e.2.st = .issued && e.2.regs.any fun r =>
      let lo := (r.handle + r.off) / 256 * 256
      r.res && (s.vaOfPa (match s.ports.find? (4 * e.2.part + e.2.port) with | some p => p.tenant | none => 0)
        lo ((r.handle + r.off + r.len + 255) / 256 * 256 - lo) (pa / 128 * 128)).isSome) s.tasks).map (·.1)
/-- Key of the set of a line in a slice. -/
def l2Key (slice pa : Nat) : Nat := slice * 128 + (bitsOf pa 7 7 ^^^ bitsOf pa 23 7)
def oldestWay (ws : List (Nat × L2Way)) : Option Nat :=
  (ws.foldl (fun (a : Option (Nat × L2Way)) e =>
    match a with | none => some e | some b => if e.2.used < b.2.used then some e else a) none).map (·.1)
/-- The way of a mask that a fill takes. -/
def l2Victim (ways : SMap L2Way) (mask : Nat) : Option Nat :=
  let inMask := (List.range 16).filter fun i => bitsOf mask i 1 = 1
  match inMask.find? fun i => (ways.find? i).isNone with
  | some i => some i
  | none =>
    let ws := ways.filter fun e => inMask.contains e.1
    match oldestWay (ws.filter fun e => e.2.resident.isNone) with
    | some i => some i
    | none => oldestWay ws
/-- An access of a tenant at the home slice of a line: a hit makes its way the most recent; a miss moves a line, and a
fill, for which a way of the tenant's mask is chosen, moves its victim too where that holds modified data (17 R344; log
69). -/
def State.l2Access (s : State) (part t pa : Nat) (byp wr : Bool) : State :=
  let sl := s.homeSlice part pa
  let ways := s.l2.getD (l2Key sl pa) []
  let s1 := { s with l2clock := s.l2clock + 1 }
  match List.find? (fun (e : Nat × L2Way) => e.2.line = pa / 128) ways with
  | some (i, w) => { s1 with l2 := s.l2.put [] (l2Key sl pa) (ways.set i { w with used := s1.l2clock, dirty := w.dirty || wr }) }
  | none =>
    let moved (n : Nat) : SMap Nat := s.useBw.put 0 t (s.useBw.getD t 0 + n)
    let mask := fld (s.cregNow (.slice sl) (0x1000 + 4 * t)) 0 16
    match (if byp then none else l2Victim ways mask) with
    | none => { s1 with useBw := moved 128 }
    | some i =>
      let back := match ways.find? i with | some v => v.dirty | none => false
      let held := (ways.filter fun e => e.2.resident.isSome && e.1 != i).length
      let w : L2Way := { line := pa / 128, tenant := t, used := s1.l2clock, dirty := wr
                         resident := if held < 8 then s.resOwner pa else none }
      { s1 with l2 := s.l2.put [] (l2Key sl pa) (ways.set i w), useBw := moved (if back then 256 else 128) }
/-- An access under a key slot is one of the tenant that owns the slot. -/
def State.l2Use (s : State) (key pa : Nat) (byp wr : Bool) : State :=
  if 2048 ≤ key then s else s.l2Access (s.tenantPart (s.keyOwner key)) (s.keyOwner key) pa byp wr
/-- A walk's reads of page-table entries are .BYP loads at their slices (14 R292); a TLB entry needs none. -/
def State.walkUse (s : State) (unit tenant : Nat) (x : W64) : State :=
  if fld x 57 7 != (if x.getLsbD 56 then 127 else 0) || (s.tlbFind unit tenant (fld x 16 41)).isSome then s
  else
    let part := s.tenantPart tenant
    (s.walkPas part (fld x 0 57) walkLevels (s.roots.getD tenant 0)).foldl (fun s pa => s.l2Access part tenant pa true false) s
/-- The walks of some accesses: misses of one page share one (14 R292). -/
def State.walksUse (s : State) (unit tenant : Nat) (xs : List W64) : State :=
  ((xs.map fun x => fld x 16 48).eraseDups).foldl (fun s p => s.walkUse unit tenant (BitVec.ofNat 64 (p * 65536))) s

/-! ### Write-combining buffers and cluster points (07 R163, 15 R301) -/

/-- Newer bytes over a line; the line is as old as its first store (15 R301). -/
def BufLine.merge (old new : BufLine) : BufLine :=
  { old with bytes := new.bytes.foldl (fun m e => m.set e.1 e.2) old.bytes, key := new.key, tenant := new.tenant,
             launch := new.launch, since := min old.since new.since }

/-- The cores of a cluster drop their L1 copies of a line. -/
def State.dropL1Cluster (s : State) (cl line : Nat) : State :=
  { s with l1 := (List.range 8).foldl (fun m i => m.put [] (8 * cl + i) ((m.getD (8 * cl + i) []).del line)) s.l1 }

/-- Write a cluster point's line to the L2 home; the cores that could read the point keep no older copy (15 R305). -/
def State.drainPoint (s : State) (cl line : Nat) : State :=
  match (s.cpt.getD cl []).find? line with
  | none => s
  | some b =>
    let s1 := { s with cpt := s.cpt.put [] cl ((s.cpt.getD cl []).del line) }.dropL1Cluster cl line
    b.bytes.foldl (fun s e => s.reportPoison b.launch { kind := .mem b.key, addr := 128 * line + e.1 } 1)
      ((s1.l2Use b.key (128 * line) false true).homeWrite (.mem b.key) (b.bytes.map fun e => (128 * line + e.1, e.2)))

/-- Move a buffer line to the cluster point. -/
def State.drainToPoint (s : State) (core line : Nat) : State :=
  match (s.wcb.getD core []).find? line with
  | none => s
  | some b =>
    let cl := core / 8
    let pt := s.cpt.getD cl []
    let b' := match pt.find? line with | some o => o.merge b | none => b
    { s with wcb := s.wcb.put [] core ((s.wcb.getD core []).del line), cpt := s.cpt.put [] cl (pt.set line b') }

/-- Drain one buffer line to the L2 home, through the copy that the cluster point holds (log 12). -/
def State.drainLine (s : State) (core line : Nat) : State :=
  if ((s.wcb.getD core []).find? line).isSome then (s.drainToPoint core line).drainPoint (core / 8) line else s

/-- The drains of a release at a scope, 15 R301 and 07 Table 60. -/
def State.drainScope (s : State) (core scope : Nat) : State :=
  if scope = 0 then s
  else
    let s1 := (s.wcb.getD core []).keys.foldl (fun s l => s.drainToPoint core l) s
    if scope = 1 then s1 else (s1.cpt.getD (core / 8) []).keys.foldl (fun s l => s.drainPoint (core / 8) l) s1

/-- The drains that a coherent store, atomic or CAS to a line waits for (15 R301). -/
def State.drainForStore (s : State) (core line : Nat) : State := (s.drainLine core line).drainPoint (core / 8) line

/-- A byte that the core's buffer or its cluster's point holds (15 R305). -/
def State.bufByte (s : State) (core : Nat) (a : Nat) : Option Byte :=
  match ((s.wcb.getD core []).find? (a / 128)).bind fun b => b.bytes.find? (a % 128) with
  | some b => some b
  | none => ((s.cpt.getD (core / 8) []).find? (a / 128)).bind fun b => b.bytes.find? (a % 128)

/-- A byte as a load of a core reads it; `str`: the relaxed policy, which may use an old L1 copy (15 R305). -/
def State.loadByte (s : State) (core : Nat) (str : Bool) (k : LocKind) (a : Nat) : Byte :=
  match k with
  | .mem _ =>
    match s.bufByte core a with
    | some b => b
    | none =>
      if str then
        match (s.l1.getD core []).find? (a / 128) with
        | some c => c.getD (a % 128) 0
        | none => s.homeByte k a
      else s.homeByte k a
  | _ => s.homeByte k a

/-- A number for a granule of a core's L1. -/
def l1Granule (core pa : Nat) : Nat := core * 2 ^ 48 + pa / 16
/-- A byte that a load of a core reads is poisoned: its granule is at the home, or in the L1 copy that the load reads, and the
core's buffer and its cluster's point do not hold the whole of it, since a partial write leaves a granule poisoned
(14 R297). -/
def State.loadPoison (s : State) (core : Nat) (str : Bool) (k : LocKind) (a : Nat) : Bool :=
  match k with
  | .mem _ =>
    (s.homePoison k a || (str && ((s.l1.getD core []).find? (a / 128)).isSome && s.l1Bad.contains (l1Granule core a)))
      && (List.range 16).any fun i => (s.bufByte core (a / 16 * 16 + i)).isNone
  | _ => s.homePoison k a

/-- n bytes of a place as a load of a core reads them, little-endian. -/
def State.loadNat (s : State) (core : Nat) (str : Bool) (p : Loc) (n : Nat) : Nat :=
  leNat ((List.range n).map fun i => s.loadByte core str p.kind (p.addr + i))
def State.loadPoisoned (s : State) (core : Nat) (str : Bool) (p : Loc) (n : Nat) : Bool :=
  (List.range n).any fun i => s.loadPoison core str p.kind (p.addr + i)

/-- Drop the core's L1 copy of a line: a later load of the core is no older than this access. -/
def State.dropL1 (s : State) (core line : Nat) : State :=
  { s with l1 := s.l1.put [] core ((s.l1.getD core []).del line) }

/-- A coherent store of a core, with the drains it waits for. -/
def State.storeBytes (s : State) (core : Nat) (p : Loc) (bs : List Byte) : State :=
  match p.kind with
  | .mem _ =>
    let s1 := (s.drainForStore core (p.addr / 128)).dropL1 core (p.addr / 128)
    s1.homeWrite p.kind (addressed p.addr bs)
  | _ => s.homeWrite p.kind (addressed p.addr bs)

/-- The buffer can take a store to the line. -/
def State.wcbRoom (s : State) (core line : Nat) : Bool :=
  let b := s.wcb.getD core []
  (b.find? line).isSome || b.length < 64

/-- The line of the oldest first store. -/
def oldestLine (b : SMap BufLine) : Option Nat :=
  (b.foldl (fun acc e =>
    match acc with
    | none => some (e.1, e.2.since)
    | some (l, c) => if e.2.since < c then some (e.1, e.2.since) else some (l, c)) none).map (·.1)

/-- A .STR store: into the buffer line, draining the oldest line where none is free (07 R163). -/
def State.strStore (s : State) (core : Nat) (p : Loc) (key tenant launch : Nat) (bs : List Byte) : State :=
  let line := p.addr / 128
  let s1 := if s.wcbRoom core line then s
    else match oldestLine (s.wcb.getD core []) with | some l => s.drainLine core l | none => s
  let b := s1.wcb.getD core []
  let new : BufLine := { bytes := (addressed (p.addr % 128) bs).foldl (fun m e => m.set e.1 e.2) [], since := s1.cycle,
                         key := key, tenant := tenant, launch := launch, poison := [] }
  let b' := match b.find? line with | some o => o.merge new | none => new
  ({ s1 with wcb := s1.wcb.put [] core (b.set line b') }).dropL1 core line

/-! ### Waits -/

def Gang.addWait (g : Gang) (lanes : LaneMask) (k : WaitKind) : Gang :=
  { g with waits := g.waits ++ [{ id := g.nextId, lanes := lanes, kind := k }], nextId := g.nextId + 1 }

/-- Lanes leave every wait they are in; one whose work goes on without lanes stands. -/
def Gang.dropLanes (g : Gang) (m : LaneMask) : Gang :=
  { g with
    waits := (g.waits.filter fun w => w.lanes = 0 || w.lanes &&& ~~~m != 0).map fun w => { w with lanes := w.lanes &&& ~~~m } }

/-- Remove the waits that meet a condition. -/
def Gang.dropWaits (g : Gang) (p : Wait → Bool) : Gang := { g with waits := g.waits.filter fun w => !p w }

/-- Group ages restart at 0 for lanes that become eligible again (05 R117). -/
def Gang.freshAge (g : Gang) (m : LaneMask) : Gang :=
  { g with age := (lanesOf m).foldl (fun a l => a.put 0 l 0) g.age }

/-- Waits on operands end when a producer completes, a register or line frees: the words are issued again. -/
def Gang.retry (g : Gang) : Gang :=
  (g.dropWaits fun w => w.kind = .operand).freshAge
    (g.waits.foldl (fun m w => if w.kind = .operand then m ||| w.lanes else m) 0)

/-- The waits that still stand serve as places in monitors; the others give theirs up (14 R286). -/
def State.pruneMonitors (s : State) : State :=
  let stands (x : Sleeper) : Bool :=
    match x with
    | .gang gid wid =>
      (match s.gangs.find? gid with | some g => g.waits.any fun w => w.id = wid | none => false)
    | .task .. => true
  { s with
    monitors := (s.monitors.map fun m => { m with sleepers := m.sleepers.filter stands }).filter
      fun m => !m.sleepers.isEmpty }

/-! ### Units of a gang (05 R118, R119) -/

/-- Slot of a unit. -/
def Gang.slotOf (g : Gang) (u : Nat) : Nat := g.slots.getD u 0
/-- Merge units into the one with the lowest slot number; the gang's own unit keeps number 0. -/
def Gang.mergeUnits (g : Gang) (us : List Nat) : Gang :=
  if us.length ≤ 1 then g
  else
    let t := if us.contains 0 then 0 else us.foldl min (us.headD 0)
    let slot := us.foldl (fun m u => min m (g.slotOf u)) (g.slotOf (us.headD 0))
    { g with
      unitOf := (List.range 32).foldl (fun m l => if us.contains (g.unit l) then m.put 0 l t else m) g.unitOf
      slots := (us.foldl (fun m u => m.del u) g.slots).set t slot }
def Gang.mergeAll (g : Gang) : Gang := g.mergeUnits ((0 :: g.slots.keys).eraseDups)
/-- Free the slots of units with no live lane (05 R119). Where the gang's own unit has none, the unit with the lowest
slot takes its number, which names no slot. -/
def Gang.freeDead (g : Gang) : Gang :=
  let lives (u : Nat) : Bool := (List.range 32).any fun l => g.isLive l && g.unit l = u
  let left : SMap Nat := g.slots.filter fun e => lives e.1
  match left with
  | [] => g
  | e :: es =>
    if lives 0 then { g with slots := left }
    else
      let low := es.foldl (fun (a : Nat × Nat) x => if x.2 < a.2 then x else a) e
      { g with
        slots := (left.del low.1).set 0 low.2
        unitOf := (List.range 32).foldl (fun m l => if g.unit l = low.1 then m.put 0 l 0 else m) g.unitOf
        unitAge := (g.unitAge.del low.1).put 0 0 (g.unitAge.getD low.1 0) }

/-! ### The starter (12 R274, R275) -/

def State.starter (s : State) (cl : Nat) : Starter := s.starters.getD cl { queue := [], next := 0, last := 0 }
/-- Add gangs to a cluster's queue; a first wave comes in the cycle after the opening. -/
def State.enqueueStarter (s : State) (cl : Nat) (es : List StartEntry) : State :=
  let st := s.starter cl
  let st' : Starter := { st with queue := st.queue ++ es,
                                 next := if st.queue.isEmpty then s.cycle + 1 else st.next }
  { s with starters := s.starters.put { queue := [], next := 0, last := 0 } cl st' }

/-- The lanes of a gang blocked at a barrier are released: they pass the word and wait for the starter; the gang's units
merge (05 R119, 12 R274). -/
def Gang.releaseBar (g : Gang) (p : WaitKind → Bool) : Gang :=
  let m := g.waits.foldl (fun m w => if p w.kind then m ||| w.lanes else m) 0
  let g1 := (lanesOf m).foldl (fun g l => g.setPc (BitVec.ofNat 32 (2 ^ l)) (g.pcOf l + 16)) g
  ((g1.dropWaits fun w => p w.kind).addWait m .starter).mergeAll

/-! ### Barriers (06 R147, R148, 12 R260 to R262) -/

def barZero : BarRec := { arrived := 0, expected := 0, count := 0, counted := false }
/-- Every live lane of the gang is blocked at the barrier. -/
def Gang.arrived (g : Gang) (p : WaitKind → Bool) : Bool :=
  let m := g.waits.foldl (fun m w => if p w.kind then m ||| w.lanes else m) 0
  g.liveMask != 0 && g.liveMask &&& ~~~m = 0

def isBar (b : Nat) : WaitKind → Bool
  | .bar c _ => c = b
  | _ => false
def isBarg (b : Nat) : WaitKind → Bool
  | .barg c => c = b
  | _ => false
def isBarc (b : Nat) : WaitKind → Bool
  | .barc c => c = b
  | _ => false

/-- The count that a gang's arrival gives, 0 for none (06 R147): that of the wait it began last. -/
def Gang.barCount (g : Gang) (b : Nat) : Nat :=
  g.waits.foldl (fun c w => match w.kind with | .bar d n => if d = b then n else c | _ => c) 0

/-- The gangs of a workgroup that are resident, with their records. -/
def State.wgGangs (s : State) (w : Wg) : List (Nat × Gang) :=
  w.gangs.filterMap fun gid => (s.gangs.find? gid).map fun g => (gid, g)

/-- Release gangs through their cluster's starter, in the order of partition then slot. -/
def State.releaseGangs (s : State) (cl : Nat) (gids : List Nat) (p : WaitKind → Bool) : State :=
  let s1 := gids.foldl (fun s gid => s.updGang gid (Gang.releaseBar · p)) s
  (s1.enqueueStarter cl (gids.map fun gid => { gang := gid, opening := s.openings, after := none })).pruneMonitors

/-- Order of gangs in a core: partition, then slot (12 R275). -/
def insertBy (key : Nat → Nat) (x : Nat) : List Nat → List Nat
  | [] => [x]
  | y :: ys => if key x < key y then x :: y :: ys else y :: insertBy key x ys
def sortBy (key : Nat → Nat) (xs : List Nat) : List Nat := xs.foldl (fun a x => insertBy key x a) []
def State.placeKey (s : State) (gid : Nat) : Nat :=
  match s.gangs.find? gid with
  | some g => (match s.wgs.find? g.wg with | some w => w.pid * 16 + g.slotOf 0 | none => 0)
  | none => 0

/-- Look at a workgroup barrier after an arrival or a gang's end, and open it where its parties have arrived
(06 R147). -/
def State.checkBar (s : State) (wid b : Nat) : State :=
  match s.wgs.find? wid with
  | none => s
  | some w =>
    let r := w.bars.getD b barZero
    let gs := s.wgGangs w
    let newly := gs.filter fun e => e.2.arrived (isBar b) && !(r.arrived.getLsbD e.2.idx)
    let r1 := newly.foldl (fun r e =>
      { r with
        expected := if r.arrived = 0 then e.2.barCount b else r.expected
        counted := if r.arrived = 0 then e.2.barCount b != 0 else r.counted
        arrived := r.arrived ||| BitVec.ofNat 16 (2 ^ e.2.idx) }) r
    let here := gs.filter fun e => r1.arrived.getLsbD e.2.idx
    let need := if r1.arrived = 0 || r1.counted then r1.expected else gs.length
    if !here.isEmpty && need ≤ here.length then
      let s1 := s.updWg wid fun w =>
        { w with bars := w.bars.put barZero b { arrived := 0, expected := need, count := (r.count + 1) % 256, counted := false } }
      { s1.releaseGangs (clusterOf w.pid) (sortBy s.placeKey (here.map (·.1))) (isBar b) with
        openings := s.openings + 1 }
    else s.updWg wid fun w => { w with bars := w.bars.put barZero b { r1 with expected := need } }

/-- An acquire of a core at a scope: its old copies of lines are given up (15 R303, R305; log 13). -/
def State.acquireCore (s : State) (core scope : Nat) : State :=
  if scope = 0 then s else { s with l1 := s.l1.put [] core [] }

/-- The members of a cluster group: workgroups of the launch with the same group number. -/
def State.groupOf (s : State) (w : Wg) : List (Nat × Wg) :=
  if w.groupSize = 0 then []
  else s.wgs.filter fun e => e.2.launch = w.launch && !e.2.binGang && e.2.wgid / w.groupSize = w.wgid / w.groupSize

/-- A member has arrived at a cluster barrier: every gang of it that has not ended (12 R261). -/
def State.memberArrived (s : State) (w : Wg) (b : Nat) : Bool :=
  let gs := s.wgGangs w
  !gs.isEmpty && gs.all fun e => e.2.arrived (isBarc b)

/-- Look at cluster barrier b (4: the final one) of a group; `done wid`: the engine commands that the final barrier
waits for have completed (12 R261, R262). -/
def State.checkBarc (s : State) (wid b : Nat) (engineIdle : Nat → Bool) : State :=
  match s.wgs.find? wid with
  | none => s
  | some w =>
    let ms := s.groupOf w
    let ok (e : Nat × Wg) : Bool := s.memberArrived e.2 b && (b != 4 || engineIdle e.1)
    if w.groupSize != 0 && ms.length = w.groupSize && ms.all ok then
      let s1 := ms.foldl (fun s e => s.drainScope (coreOf e.2.pid) 1) s
      let s2 := ms.foldl (fun s e => s.acquireCore (coreOf e.2.pid) 1) s1
      let s3 := ms.foldl (fun s e => s.updWg e.1 fun v =>
        if b = 4 then { v with passedFinal := true }
        else
          let r := v.bars.getD (12 + b) barZero
          { v with bars := v.bars.put barZero (12 + b) { r with arrived := 0, expected := v.gangs.length, count := (r.count + 1) % 256 } })
        s2
      let gids := sortBy s.placeKey (ms.flatMap fun e => (s.wgGangs e.2).map (·.1))
      { s3.releaseGangs (clusterOf w.pid) gids (isBarc b) with openings := s.openings + 1 }
    else
      ms.foldl (fun s e => s.updWg e.1 fun v =>
        if b = 4 then v
        else
          let r := v.bars.getD (12 + b) barZero
          let arr := (s.wgGangs v).foldl (fun a g =>
            if g.2.arrived (isBarc b) then a ||| BitVec.ofNat 16 (2 ^ g.2.idx) else a) (0 : BitVec 16)
          { v with bars := v.bars.put barZero (12 + b)
                     { r with arrived := arr, expected := if arr = 0 then r.expected else v.gangs.length } }) s

/-- Distinct clusters, ascending. -/
def sortNat (xs : List Nat) : List Nat := sortBy id xs.eraseDups

/-- Look at a grid barrier of a launch and open it where every workgroup has arrived or ended (06 R148, 12 R275). -/
def State.checkBarg (s : State) (lid b : Nat) : State :=
  match s.launches.find? lid with
  | none => s
  | some L =>
    let ws := s.wgs.filter fun e => e.2.launch = lid && !e.2.binGang
    let arrivedWg (e : Nat × Wg) : Bool :=
      let gs := s.wgGangs e.2
      !gs.isEmpty && gs.all fun g => g.2.arrived (isBarg b)
    let r := L.grid.getD b { arrived := [], count := 0 }
    if !ws.isEmpty && L.waiting.isEmpty && ws.all arrivedWg then
      let s1 := ws.foldl (fun s e => s.drainScope (coreOf e.2.pid) 3) s
      let s2 := ws.foldl (fun s e => s.acquireCore (coreOf e.2.pid) 3) s1
      let cls := sortNat (ws.map fun e => clusterOf e.2.pid)
      let k := r.count % (max cls.length 1)
      let order := cls.drop k ++ cls.take k
      let gidsOf (c : Nat) : List Nat :=
        sortBy s.placeKey ((ws.filter fun e => clusterOf e.2.pid = c).flatMap fun e => (s.wgGangs e.2).map (·.1))
      let s3 := order.foldl (fun s c => (gidsOf c).foldl (fun s gid => s.updGang gid (Gang.releaseBar · (isBarg b))) s) s2
      let s4 := (List.range order.length).foldl (fun s i =>
        let c := order.getD i 0
        let prev := if i = 0 then none else some (order.getD (i - 1) 0)
        s.enqueueStarter c ((gidsOf c).map fun gid => { gang := gid, opening := s.openings, after := prev })) s3
      let s5 := s4.updLaunch lid fun L =>
        { L with grid := L.grid.put { arrived := [], count := 0 } b { arrived := [], count := r.count + 1 } }
      { s5 with openings := s.openings + 1 }.pruneMonitors
    else
      s.updLaunch lid fun L =>
        { L with
          grid := L.grid.put { arrived := [], count := 0 } b
            { r with arrived := (ws.filter arrivedWg).foldl (fun a e => KSet.add a e.2.wgid) [] } }

/-! ### MSI-X and feed-queue heads (16 R340, 17 R353) -/

/-- Send a tenant's vector, of the function that serves its partition (18 R369): offset 0 is BASE; one at or beyond COUNT is
sent on BASE; none where COUNT is 0. -/
def State.signal (s : State) (tenant off : Nat) : State :=
  let v := s.creg .hub (tenantOff tenant 0x20)
  let count := fld v 16 5
  if count = 0 then s else { s with msix := s.msix ++ [(s.tenantPart tenant + 1, fld v 0 11 + if off < count then off else 0)] }

def qreg (q off : Nat) : Nat := 0x480000 + 64 * q + off
/-- A virtual address of a queue's register, with an offset. -/
def State.qva (s : State) (q reg off : Nat) : W64 :=
  ((s.creg .hub (qreg q reg)).extractLsb' 0 57 + BitVec.ofNat 57 off).signExtend 64
/-- HEAD advances past the indices that have been copied; each change is written to QSHADOW, the write of a page that is
missing when the fault is replayed; one that is denied is dropped (17 R353, 14 R413; log 52). -/
def headAfter : Nat → KSet → Nat → Nat
  | 0, _, h => h
  | n + 1, c, h => if c.contains h then headAfter n c ((h + 1) % 2 ^ 32) else h
def State.writeShadow (s : State) (q head : Nat) (hold : Bool) : State :=
  let tenant := fld (s.creg .hub (qreg q 0x20)) 7 9
  let va := s.qva q 0x18 0
  match s.translate 0 tenant .write va with
  | .ok p =>
    let s1 := (s.walkUse 0 tenant va).checkPa p.addr
    (match p.kind with | .mem key => s1.l2Use key p.addr false true | _ => s1).homeWrite p.kind (addressed p.addr (leBytes 4 head))
  | .page =>
    if hold then
      { s with faults := s.faults ++ [{ part := s.tenantPart tenant, tenant := tenant, kind := 1, va := va
                                        who := .shadow q head, report := va, held := none }] }
    else s
  | .access => s
def State.advanceHead (s : State) (q : Nat) : State :=
  let c := s.qcopied.getD q []
  let h := (s.creg .hub (qreg q 0x28)).toNat
  let h' := headAfter c.length c h
  if h' = h then s
  else
    let s1 := { (s.setCreg .hub (qreg q 0x28) (BitVec.ofNat 64 h')) with
                qcopied := s.qcopied.put [] q (c.filter fun i => (h' - 1 + 2 ^ 32 - i) % 2 ^ 32 ≥ 2 ^ 31) }
    s1.writeShadow q h' true
/-- An index counts as copied. -/
def State.markCopied (s : State) (q t : Nat) : State :=
  { s with qcopied := s.qcopied.put [] q ((s.qcopied.getD q []).add t) }.advanceHead q

/-! ### Spawn bins and their overflow rings (05 R128, R129) -/

/-- Registers of a partition's overflow ring: core page, offset of register k (05 Table 157). -/
def spoOff (pid k : Nat) : Nat := 0x180 + 32 * (pid % 4) + 8 * k
def State.spo (s : State) (pid k : Nat) : W64 := s.creg (.core (coreOf pid)) (spoOff pid k)
/-- A key slot beyond the last: physical accesses of the hardware encrypt nothing. -/
def plainKey : Nat := 2048

/-- The 32 bytes of an entry of the ring. -/
def recBytes (r : SpawnRec) : List Byte :=
  leBytes 8 r.entry ++ leBytes 4 r.w0.toNat ++ leBytes 4 r.w1.toNat ++ leBytes 4 r.w2.toNat ++ leBytes 4 r.w3.toNat
    ++ leBytes 4 r.launch ++ leBytes 2 r.tenant ++ leBytes 1 r.cls ++ leBytes 1 0
def recOfBytes (bs : List Byte) : SpawnRec :=
  let at_ (o n : Nat) : Nat := leNat ((bs.drop o).take n)
  { entry := at_ 0 8, w0 := BitVec.ofNat 32 (at_ 8 4), w1 := BitVec.ofNat 32 (at_ 12 4)
    w2 := BitVec.ofNat 32 (at_ 16 4), w3 := BitVec.ofNat 32 (at_ 20 4), launch := at_ 24 4, tenant := at_ 28 2 % 512
    cls := at_ 30 1 }

/-- Entry k of the ring, counted from the oldest. -/
def State.ringAddr (s : State) (pid k : Nat) : Nat :=
  let cap := fld (s.spo pid 1) 0 17
  fld (s.spo pid 0) 0 52 + 32 * ((fld (s.spo pid 2) 32 16 + k) % max cap 1)
def State.ringWrite (s : State) (pid k : Nat) (r : SpawnRec) : State :=
  let a := s.ringAddr pid k
  (s.checkPa a).homeWrite (.mem plainKey) (addressed a (recBytes r))
def State.ringRead (s : State) (pid k : Nat) : SpawnRec :=
  recOfBytes ((List.range 32).map fun i => s.memByteAs 0 (s.ringAddr pid k + i))
def State.ringCount (s : State) (pid : Nat) : Nat := fld (s.spo pid 2) 0 17
def State.setRing (s : State) (pid count head : Nat) : State :=
  s.setCreg (.core (coreOf pid)) (spoOff pid 2) (BitVec.ofNat 64 (count + 2 ^ 32 * head))

/-- Put a record in a bin, where one takes it: the FILLING bin of its key, or the lowest EMPTY bin (05 R128). -/
def CorePart.place (p : CorePart) (r : SpawnRec) : Option CorePart :=
  let add (b : Nat) (old : SpawnBin) : CorePart :=
    let full := old.recs.length + 1 = 32
    { p with
      bins := p.bins.set b { old with recs := old.recs ++ [r], state := if full then .ready else .filling }
      readyOrder := if full then p.readyOrder ++ [b] else p.readyOrder }
  match List.find? (fun (e : Nat × SpawnBin) => e.2.state = .filling && e.2.key = r.entry) p.bins with
  | some (b, old) => some (add b old)
  | none =>
    match (List.range 32).find? fun b => (p.bins.find? b).isNone with
    | some b => some (add b { state := .filling, key := r.entry, recs := [], timer := 0 })
    | none => none

/-- Place a record in a bin or in the overflow area; false: no room (05 R128, R129). -/
def State.placeRec (s : State) (pid : Nat) (r : SpawnRec) : Bool × State :=
  match (s.cpart pid).place r with
  | some p => (true, s.setCpart pid p)
  | none =>
    let n := s.ringCount pid
    if n < fld (s.spo pid 1) 0 17 then
      (true, (s.ringWrite pid n r).setRing pid (n + 1) (fld (s.spo pid 2) 32 16))
    else (false, s.setCreg (.core (coreOf pid)) (spoOff pid 3) (s.spo pid 3 + 1))

/-- Bins take records from the overflow area, oldest first, while they can (05 R128). -/
def State.refill (s : State) (pid : Nat) : Nat → State
  | 0 => s
  | k + 1 =>
    let n := s.ringCount pid
    if n = 0 then s
    else match (s.cpart pid).place (s.ringRead pid 0) with
      | none => s
      | some p =>
        let cap := fld (s.spo pid 1) 0 17
        ((s.setCpart pid p).setRing pid (n - 1) ((fld (s.spo pid 2) 32 16 + 1) % max cap 1)).refill pid k

/-- Remove the entries of the ring that meet a condition. -/
def State.ringFilter (s : State) (pid : Nat) (bad : SpawnRec → Bool) : State :=
  let n := s.ringCount pid
  let keep := ((List.range n).map fun k => s.ringRead pid k).filter fun r => !bad r
  if keep.length = n then s
  else
    let s1 := (List.range keep.length).foldl (fun s k =>
      match keep[k]? with | some r => s.ringWrite pid k r | none => s) s
    s1.setRing pid keep.length (fld (s.spo pid 2) 32 16)

/-- The spawn records of some launches leave the bins and the overflow rings; bins that become EMPTY take records from the
overflow area first (05 R128, R129, 06 R158). -/
def State.dropRecords (s : State) (lids : List Nat) : State :=
  s.cparts.keys.foldl (fun s pid =>
    let c := s.cpart pid
    let bins := (c.bins.mapVals fun b => { b with recs := b.recs.filter fun r => !lids.contains r.launch }).filter
      fun e => !e.2.recs.isEmpty
    let s1 := (s.setCpart pid { c with bins := bins, readyOrder := c.readyOrder.filter fun b => (SMap.find? bins b).isSome }).ringFilter
      pid fun r => lids.contains r.launch
    s1.refill pid (s1.ringCount pid)) s

/-! ### The end of gangs, workgroups and units of a launch -/

def Counter.add (c : Counter) (canc : Bool) : Counter :=
  { ended := (c.ended + 1) % 2 ^ 32, cancelled := (c.cancelled + b2n canc) % 2 ^ 32 }
def counterZero : Counter := { ended := 0, cancelled := 0 }

/-- Count a unit that has ended at its launch, graph, phase and job (17 R341). A spawn-bin workgroup is a unit of the
graph and not of the launch, and so not of the phase and the job, whose units are those of launches (05 R130, 17 Table
123). -/
def State.countUnit (s : State) (lid : Nat) (binGang canc : Bool) : State :=
  match s.launches.find? lid with
  | none => s
  | some L =>
    let s1 := s.updLaunch lid fun L =>
      { L with
        launchCnt := if binGang then L.launchCnt else L.launchCnt.add canc
        graphCnt := L.graphCnt.add canc
        live := if binGang then L.live else L.live - 1
        graphLive := L.graphLive - 1 }
    if binGang then s1
    else { s1 with
      phases := s1.phases.put counterZero L.phase ((s1.phases.getD L.phase counterZero).add canc)
      jobs := s1.jobs.put counterZero L.job ((s1.jobs.getD L.job counterZero).add canc) }

/-- A producer whose access faults is over, and leaves its destinations empty (01 R18). -/
def Gang.failProducer (g : Gang) (id : Nat) : Gang := { g with prods := g.prods.filter fun p => p.id != id }
/-- A gang drops a producer without a write: its registers are full again. -/
def Gang.dropProducer (g : Gang) (id : Nat) : Gang :=
  { g with
    prods := g.prods.filter fun p => p.id != id
    empty := g.empty.delAll (((g.prods.filter fun p => p.id = id).flatMap fun p => p.dests.map (·.key)).filter fun k =>
      !((g.prods.filter fun p => p.id != id).any fun p => p.dests.any fun d => d.key = k)) }

/-- The waits of a gang that monitors serve end, with the feed-queue indices they hold (14 R286, 17 R353). -/
def Gang.dropSleepers (g : Gang) : Gang :=
  let g1 := g.waits.foldl (fun g w => match w.kind with | .qpop .. => g.dropProducer (w.id - 1) | _ => g) g
  g1.dropWaits fun w => match w.kind with | .qpop .. => true | .waitc .. => true | _ => false

/-- A gang gives up the feed-queue indices it holds (17 R353). -/
def State.giveUpIndices (s : State) (g : Gang) (tenant : Nat) : State :=
  g.waits.foldl (fun s w => match w.kind with | .qpop q t _ _ _ _ _ _ => (s.markCopied q t).signal tenant 0 | _ => s) s

/-- A gang's commands that go on after its end keep its counts: issued, completed, completed with a fault (12 R270). -/
def State.keepCounts (s : State) (gid : Nat) : State :=
  match s.gangs.find? gid with
  | none => s
  | some g =>
    { s with engines := s.engines.mapVals fun q => q.map fun k =>
        if k.gang = gid then { k with counts := some (g.cmdIssued, g.cmdDone, g.cmdFault) } else k }

/-- Remove a gang from the device: its registers, slots, monitors and starter places are freed (01 R13). -/
def State.removeGang (s : State) (gid : Nat) : State :=
  { s.keepCounts gid with
    gangs := s.gangs.del gid
    starters := s.starters.mapVals fun t => { t with queue := t.queue.filter fun e => e.gang != gid } }.pruneMonitors

/-- The allotment of an ended member of a cluster group stays allotted until every member has ended (12 R258). -/
def State.holdScr (s : State) (w : Wg) : State :=
  if w.groupSize = 0 then s
  else
    let grp := w.wgid / w.groupSize
    if 1 < (s.groupOf w).length then { s with heldScr := s.heldScr ++ [(w.launch, grp, coreOf w.pid, w.scrLen)] }
    else { s with heldScr := s.heldScr.filter fun h => !(h.1 = w.launch && h.2.1 = grp) }

/-- A workgroup ends: its writes are carried to the L2 home, it is counted, and its place is freed (06 R159). -/
def State.endWg (s : State) (wid : Nat) (canc : Bool) : State :=
  match s.wgs.find? wid with
  | none => s
  | some w =>
    let s1 := ((s.drainScope (coreOf w.pid) 3).countUnit w.launch w.binGang (canc || w.cancelled)).holdScr w
    { s1 with wgs := s1.wgs.del wid }

/-- Look at every grid barrier of a launch: a workgroup of it has ended (06 R148). -/
def State.checkGrids (s : State) (lid : Nat) : State := (List.range 4).foldl (fun s b => s.checkBarg lid b) s
/-- A gang ends: its barriers are looked at again, and with the last gang the workgroup ends (01 R13, 06 R147). -/
def State.endGang (s : State) (gid : Nat) (canc : Bool) (engineIdle : Nat → Bool) : State :=
  match s.gangs.find? gid with
  | none => s
  | some g =>
    let s1 := (s.removeGang gid).updWg g.wg fun w =>
      { w with gangs := w.gangs.del gid, ended := w.ended ||| BitVec.ofNat 16 (2 ^ g.idx) }
    match s1.wgs.find? g.wg with
    | none => s1
    | some w =>
      if w.gangs.isEmpty then (s1.endWg g.wg canc).checkGrids w.launch
      else
        let s2 := (List.range 16).foldl (fun s b => s.checkBar g.wg b) s1
        let s3 := (List.range 5).foldl (fun s b => s.checkBarc g.wg b engineIdle) s2
        s3.checkGrids w.launch

/-- Remove a workgroup at once, whatever its gangs do. -/
def State.dropWg (s : State) (wid : Nat) (canc : Bool) : State :=
  match s.wgs.find? wid with
  | none => s
  | some w =>
    let s1 := (s.wgGangs w).foldl (fun s e => (s.giveUpIndices e.2 w.tenant).removeGang e.1) s
    s1.endWg wid canc

/-- Units of a launch's graph that have not started are dropped and counted as cancelled; running units take CANCEL at a
level, again where they have taken one of another level (06 R158; log 70). `whole`: the graph, with its bin gangs;
otherwise the launch's own workgroups. -/
def State.cancelLaunch (s : State) (lid level : Nat) (whole : Bool) : State :=
  match s.launches.find? lid with
  | none => s
  | some L =>
    let s1 := L.waiting.foldl (fun s _ => s.countUnit lid false true) s
    let s2 := s1.updLaunch lid fun L =>
      { L with waiting := [], cancelled := true, graphCancelled := L.graphCancelled || whole }
    { s2 with
      gangs := s2.gangs.mapVals fun g =>
        match s2.wgs.find? g.wg with
        | some w =>
          if w.launch = lid && (whole || !w.binGang) && g.cancel.isNone then { g with cancel := some level } else g
        | none => g }

/-- ERRH terminates a workgroup (05 R134), and the members of its cluster group with it (12 R259). The launch keeps the first
report, but for a CANCEL (cause 0x10) of its phase, and its other units are cancelled at level 2 (16 R328, R330). -/
def State.terminateNow (s : State) (wid : Nat) (r : Report) : State :=
  match s.wgs.find? wid with
  | none => s
  | some w =>
    let ms := s.groupOf w
    let s1 := if ms.isEmpty then s.dropWg wid false else ms.foldl (fun s e => s.dropWg e.1 true) s
    let s2 := s1.updLaunch w.launch fun L =>
      if r.cause = 0x10 && s.phaseCancelled.contains L.phase then L else { L with report := some (L.report.getD r) }
    ((s2.cancelLaunch w.launch 2 true).dropRecords [w.launch]).checkGrids w.launch
/-- A workgroup is to be terminated. While ERRH restarts the termination waits, and the workgroup issues no word
(18 R360, R363; log 15). -/
def State.terminate (s : State) (wid : Nat) (r : Report) : State :=
  if s.fwUp 3 then s.terminateNow wid r
  else if s.terms.any fun e => e.1 = wid then s
  else { s.updWg wid fun w => { w with dying := true } with terms := s.terms ++ [(wid, r)] }
/-- The terminations that have waited for ERRH. -/
def State.waitedTerms (s : State) : State :=
  if s.fwUp 3 then s.terms.foldl (fun s e => s.terminateNow e.1 e.2) { s with terms := [] } else s

/-! ### Taking an exception and returning from it (05 R132 to R137, 04 R109, 07 R179) -/

-- Trap causes, 05 Table 44.
namespace Cause
def illegal : Nat := 0x01
def cfTarget : Nat := 0x02
def feEmpty : Nat := 0x03
def align : Nat := 0x04
def page : Nat := 0x05
def access : Nat := 0x06
def bounds : Nat := 0x07
def ordOrphan : Nat := 0x08
def unitAbsent : Nat := 0x09
def regDeadlock : Nat := 0x0A
def rdvStall : Nat := 0x0B
def clusterExit : Nat := 0x0C
def poison : Nat := 0x0D
def swTrap : Nat := 0x0E
def brk : Nat := 0x0F
def cancel : Nat := 0x10
def priv : Nat := 0x11
end Cause

/-- A PC as a 64-bit register image. -/
def pcImage (pc : PCAddr) : W64 := pc.setWidth 64

/-- The gang enters its handler: the trapped lanes move to TRAPBASE, TRAPCAUSE, TRAPPC and TRAPADDR are written, a
pending prefix is suspended (05 R134, 07 R179). -/
def Gang.enterHandler (g : Gang) (lanes : LaneMask) (cause : Nat) (pc addr : W64) : Gang :=
  let g1 := (g.dropLanes lanes).setPc lanes ((g.trapbase.extractLsb' 0 57) &&& ~~~(15 : PCAddr))
  { g1.freshAge lanes with
    handler := true
    fresh := false
    trapped := lanes
    trapcause := BitVec.ofNat 64 (cause + 256 * lowLane lanes)
    trappc := pc
    trapaddr := addr
    ordSusp := g.ord
    ord := none }

/-- Take an exception in the lanes of a group. With no handler, or in handler mode, the workgroup is terminated
(05 R134). -/
def State.takeTrap (s : State) (gid : Nat) (lanes : LaneMask) (cause : Nat) (pc addr : W64) : State :=
  match s.gangs.find? gid with
  | none => s
  | some g =>
    if g.handler || fld g.trapbase 4 53 = 0 then s.terminate g.wg { cause := cause, pc := pc, addr := addr }
    else (s.updGang gid fun g => g.enterHandler lanes cause pc addr).pruneMonitors

/-- Lanes leave what they wait for without its end. Work that has begun goes on without them: an XGIVE's credit, a QPOP's
copy, a macro-instruction, a matrix operation past its rendezvous (05 R134). -/
def Gang.leaveWaits (g : Gang) (m : LaneMask) : Gang :=
  let early (o : QOp) : Bool := o.phase = .rendezvous || o.phase = .empties
  let qops := (g.qops.map fun o => if early o then { o with arrived := o.arrived &&& ~~~m } else o).filter fun o =>
    !early o || o.arrived != 0
  let goes (w : Wait) : Bool :=
    match w.kind with
    | .xgive _ => true
    | .qpop .. => true
    | .lathe => true
    | .matrix => qops.any fun o => o.wait = w.id
    | _ => false
  { g with
    qops := qops
    waits := (g.waits.map fun w => { w with lanes := w.lanes &&& ~~~m }).filter fun w => w.lanes != 0 || goes w }

/-- Return from the handler: the trapped lanes that are still live resume at TRAPPC, and the prefix is restored
(05 R134, 07 R179). -/
def Gang.leaveHandler (g : Gang) : Gang :=
  { (g.leaveWaits g.trapped).setPc (g.trapped &&& g.liveMask) (g.trappc.extractLsb' 0 57) with
    handler := false
    trapped := 0
    ord := g.ordSusp
    ordSusp := none }

end Sys2Proof.Machine
end

