-- ==== Sys2Proof/Machine/Operands.lean ====
section
/-! DEFINITION. The operand forms of instruction words and the checks that every core word makes before its effect, in the
order of 03 R72: `coreWord`. -/

namespace Sys2Proof.Machine

/-- A run of v-registers that a word reads: its full/empty mode (true: trap), its permute, and whether it is read in the
lowest active lane only (03 R49, 01 R17); `mask`: the lanes in which it is read. -/
structure VSrc where
  reg : Nat
  count : Nat := 1
  trap : Bool := false
  perm : BitVec 8 := 0
  low : Bool := false
  mask : LaneMask := 0xFFFFFFFF
  deriving DecidableEq, Repr

/-- What a word sees when it issues: its gang as the sources are read, its group, its active set. -/
structure Ctx where
  gid : Nat
  r : Gang
  pc : PCAddr
  grp : LaneMask
  act : LaneMask
  wg : Wg
  pfx : Option OrdPfx
  slot : Nat

/-- Core, cluster, partition of the package, tenant of a context. -/
def Ctx.core (c : Ctx) : Nat := coreOf c.wg.pid
def Ctx.cluster (c : Ctx) : Nat := clusterOf c.wg.pid

/-- What the conditions of a word say beyond the common checks. -/
inductive Check where
  | ok
  /-- The word raises a cause with a TRAPADDR. -/
  | trap (cause : Nat) (addr : W64)
  /-- The group waits; the word is issued again when the wait ends. -/
  | wait (k : WaitKind)
  /-- Mappings are missing, those of the lanes in ascending order: the gang is parked for the firmware (05 R133, 07 R166). -/
  | page (vas : List W64) (kind : Nat)
  /-- A mapping that the fetch unit needs for a line is missing; one that is denied reports the line (03 R65). -/
  | codePage (va : W64) (kind : Nat) (line : W64)
  /-- A fault that terminates the workgroup (07 R179). -/
  | kill (cause : Nat) (pc addr : W64)
  deriving DecidableEq, Repr

/-- First of two checks that is not ok. -/
def Check.next (a b : Check) : Check := match a with | .ok => b | c => c

/-- How a word takes part in the common checks. -/
structure WordUse where
  active : Gang → Nat → Bool
  words : Nat := 1
  srcs : List VSrc := []
  dsts : List (Nat × Nat) := []
  evens : List Nat := []
  quads : List Nat := []
  /-- Registers with a number that each must be a multiple of. -/
  aligned : List (Nat × Nat) := []
  /-- What loaded microcode's declaration finds wrong (03 R55). -/
  decl : Option (BitVec 8) := none
  ssrcs : List Nat := []
  producer : Bool := false
  carrier : Bool := false
  collective : Bool := false
  absent : Bool := false
  syncBad : Bool := false
  priv : Option W64 := none
  /-- Checks that come first in step 7 of 03 R72 (QPOP and QPUSH, 06 R156). -/
  early : Check := .ok
  /-- Checks of step 2 of 03 R72 (the targets of a branch, 03 R66). -/
  first : Check := .ok

/-- Guard of an ordinary word. -/
def guardOf (g : BitVec 4) : Gang → Nat → Bool := fun r l => r.guard g l

/-- Class and opcode of an instruction, as UNIT_ABSENT reports them (05 Table 44). -/
def clsOpImage (i : Instr) : W64 :=
  match encode i with
  | some (w :: _) => (clsOf w ++ opOf w).setWidth 64
  | _ => 0

/-- A register of a run beyond the gang's blocks (01 R10). -/
def outOfRange (g : Gang) (u : WordUse) : Bool :=
  u.srcs.any (fun v => g.base + g.xcount < v.reg + v.count) || u.dsts.any fun d => g.base + g.xcount < d.1 + d.2

/-- Lanes in which a source is checked (01 R17). -/
def Ctx.checkLanes (c : Ctx) (v : VSrc) : List Nat := if v.low then [lowLane c.act] else lanesOf (c.act &&& v.mask)

/-- Registers, ascending, of the sources that meet a condition and are empty in a checked lane. -/
def Ctx.emptyIn (c : Ctx) (g : Gang) (srcs : List VSrc) : List (Nat × Nat) :=
  srcs.flatMap fun v => (List.range v.count).flatMap fun j =>
    ((c.checkLanes v).filter fun l => g.empty.contains (vkey l (v.reg + j))).map fun l => (v.reg + j, l)

/-- Lowest register found empty, then its lowest lane, as FE_EMPTY reports them (01 R17). -/
def feAddr (es : List (Nat × Nat)) : W64 :=
  let r := es.foldl (fun m e => min m e.1) 1000
  let l := es.foldl (fun m e => if e.1 = r then min m e.2 else m) 32
  BitVec.ofNat 64 (r + 256 * l)

/-- Poison-marked registers that the word reads (14 R297, 07 R166). -/
def Ctx.poisoned (c : Ctx) (g : Gang) (u : WordUse) : List Nat :=
  (u.srcs.flatMap fun v => ((List.range v.count).filter fun j =>
      (c.checkLanes v).any fun l => g.poison.contains (vkey (permSrc v.perm l) (v.reg + j))).map (v.reg + ·))
    ++ u.ssrcs.filter fun n => g.poison.contains (skey n)

/-- The word must wait for a source, a pending s-register, or a register that an earlier producer fills (01 R17, R18;
06 R146). -/
def Ctx.mustWait (c : Ctx) (g : Gang) (u : WordUse) : Bool :=
  !(c.emptyIn c.r (u.srcs.filter fun v => !v.trap)).isEmpty
  || u.ssrcs.any (fun n => c.r.empty.contains (skey n))
  || (!u.producer && u.dsts.any fun d => (List.range d.2).any fun j =>
        (lanesOf c.act).any fun l => g.prods.any fun p => p.dests.any fun e => e.key = vkey l (d.1 + j))

/-- Eligible lanes of a gang (01 R21, 05 R134): live, not blocked, and in handler mode among the trapped lanes; none while
a SYSCALL parks the gang (04 R107). -/
def Gang.eligible (g : Gang) : LaneMask :=
  let m := g.liveMask &&& ~~~g.blockedMask
  if g.waits.any fun w => w.kind = .ticket then 0 else if g.handler then m &&& g.trapped else m

/-- The lanes of a unit at a PC (05 R114), or with `all` of every unit of the gang (05 R119). -/
def Gang.groupAt (g : Gang) (unit : Nat) (pc : PCAddr) (all : Bool) : LaneMask :=
  g.eligible &&& maskWhere fun l => g.pcOf l = pc && (all || g.unit l = unit)

/-- The lanes that issue the word at the cursor: of a cycle's second word those that stood in its group before the first, and
stand at its address yet (05 R116). -/
def Gang.issuing (g : Gang) (cu : Cur) (all : Bool) : LaneMask :=
  match cu.snap with
  | none => g.groupAt cu.unit cu.pc all
  | some b => b.groupAt cu.unit cu.pc all &&& g.groupAt cu.unit cu.pc true

/-- An issue unit is charged at a gang's first word of a cycle (05 R120). -/
def State.chargeIssue (s : State) (gid : Nat) : State :=
  match s.gangs.find? gid with
  | none => s
  | some g =>
    if g.lastIssue = s.cycle + 1 then s
    else
      let s1 := s.updGang gid fun g => { g with lastIssue := s.cycle + 1, issuecnt := g.issuecnt + 1 }
      let s2 := s1.updWg g.wg fun w => { w with slice := w.slice + 1 }
      match s2.wgs.find? g.wg with
      | none => s2
      | some w => s2.setCpart w.pid { s2.cpart w.pid with issued := true }

/-- Park a gang for its page faults, in handler mode too (05 R133, 14 R413; log 53). `report`: TRAPADDR where they are
denied, none for the faulting address. -/
def State.parkPages (s : State) (gid tenant : Nat) (vas : List W64) (kind : Nat) (lanes : LaneMask) (pc : PCAddr)
    (report : Option W64) : State :=
  let s1 := s.updGang gid fun g => { g with parked := true }
  { s1 with
    faults := s1.faults ++ vas.map fun va =>
      { part := s.tenantPart tenant, tenant := tenant, kind := kind, va := va, who := .gang gid lanes pc
        report := report.getD va, held := none } }
def State.parkPage (s : State) (gid tenant : Nat) (va : W64) (kind : Nat) (lanes : LaneMask) (pc : PCAddr) : State :=
  s.parkPages gid tenant [va] kind lanes pc none

/-- Carry out a check that is not ok. -/
def State.failCheck (s : State) (c : Ctx) : Check → State
  | .ok => s
  | .trap cause addr => s.takeTrap c.gid c.grp cause (pcImage c.pc) addr
  | .wait k => s.updGang c.gid fun g => g.addWait c.grp k
  | .page vas kind => s.parkPages c.gid c.wg.tenant vas kind c.grp c.pc none
  | .codePage va kind line => s.parkPages c.gid c.wg.tenant [va] kind c.grp c.pc (some line)
  | .kill cause pc addr => s.terminate c.r.wg { cause := cause, pc := pc, addr := addr }

/-- ILLEGAL with a subcode (03 R71). -/
def illegalSub (x : BitVec 8) : Check := .trap Cause.illegal (x.setWidth 64)

/-- The checks of 03 R72 steps 2 to 6 for a decoded word: they hold whatever the guards. -/
def wordChecks (i : Instr) (u : WordUse) (ext : Option (BitVec 8)) (orphan : Bool) (pc : PCAddr) : Check :=
  match ext with
  | some 0x08 => illegalSub 0x08
  | some 0x09 => illegalSub 0x09
  | _ =>
    if u.absent then .trap Cause.unitAbsent (clsOpImage i)
    else match ext with
      | some x => illegalSub x
      | none =>
        match i.staticCheck with
        | some x => illegalSub x
        | none =>
          if u.decl.isSome then illegalSub (u.decl.getD 0)
          else if u.syncBad then illegalSub 0x0E
          else match u.priv with
            | some a => .trap Cause.priv a
            | none => if orphan && !u.carrier then .trap Cause.ordOrphan (pcImage pc) else .ok

/-- The checks of 03 R72 steps 7 and 8, and poison, for a word with an active lane. Sources are as they stood before the
first word of the cycle (05 R116). FE_EMPTY reports the registers of mode 1 alone (log 54). -/
def laneChecks (c : Ctx) (g : Gang) (u : WordUse) : Check :=
  if c.act = 0 then .ok
  else
    u.early.next
      (if outOfRange g u then illegalSub 0x05
       else if u.evens.any (fun r => r % 2 = 1) || u.quads.any (fun r => r % 4 != 0)
          || u.aligned.any (fun r => r.1 % r.2 != 0) then illegalSub 0x06
       else
         let es := c.emptyIn c.r (u.srcs.filter fun v => v.trap)
         if !es.isEmpty then .trap Cause.feEmpty (feAddr es)
         else if c.mustWait g u then .wait .operand
         else match c.poisoned c.r u with
           | [] => .ok
           | r :: rs => .trap Cause.poison (BitVec.ofNat 64 (rs.foldl min r)))

/-- The context of the issuing group, none where no group stands at the cursor. -/
def State.ctxOf (s : State) (u : WordUse) : Option Ctx :=
  match s.cur with
  | none => none
  | some cu =>
    match s.gangs.find? cu.gang with
    | none => none
    | some g =>
      match s.wgs.find? g.wg with
      | none => none
      | some w =>
        let r := cu.snap.getD g
        let grp := g.issuing cu u.collective
        if grp = 0 then none
        else some { gid := cu.gang, r := r, pc := cu.pc, grp := grp, act := grp &&& maskWhere (u.active r), wg := w,
                    pfx := g.ord, slot := r.slotOf cu.unit }

/-- A group issues a word: its age and its quads' split counters start again, and where the word is gang-collective the
units of all lanes that stand at its address merge (05 R117 to R119). -/
def Gang.issued (g : Gang) (grp : LaneMask) (pc : PCAddr) (collective : Bool) : Gang :=
  let us := (((lanesOf g.liveMask).filter fun l => g.pcOf l = pc).map g.unit).eraseDups
  { (if collective then g.mergeUnits us else g) with
    age := (lanesOf grp).foldl (fun a l => a.put 0 l 0) g.age
    splitCnt := (lanesOf grp).foldl (fun a l => a.put 0 (l / 4) 0) g.splitCnt }

/-- The group passes the word: its lanes move on, and its prefix is consumed. -/
def State.passWord (s : State) (c : Ctx) (u : WordUse) : State :=
  s.updGang c.gid fun g =>
    { (g.issued c.grp c.pc u.collective).setPc c.grp (c.pc + BitVec.ofNat 57 (16 * u.words)) with
      ord := if u.carrier then none else g.ord }
/-- A word that faults issues too: it is charged (05 R118, R120; log 23). -/
def State.faultWord (s : State) (c : Ctx) (u : WordUse) : State :=
  (s.chargeIssue c.gid).updGang c.gid fun g => g.issued c.grp c.pc u.collective

/-- A core word: the checks in the order of 03 R72, then the word's own conditions, then its effect. A word that waits, or
that a missing page parks, charges no issue unit yet (05 R120; log 23). -/
def coreWord (i : Instr) (u : WordUse) (chk : Ctx → State → Check) (body : Ctx → State → State) (s : State) : Out :=
  match s.ctxOf u with
  | none => .next s
  | some c =>
    let ext := (s.cur.map (·.ext)).getD none
    let fail (k : Check) : Out :=
      match k with
      | .wait _ => finish (s.failCheck c k)
      | .page _ _ | .codePage _ _ _ => finish (s.failCheck c k)
      | _ => finish ((s.faultWord c u).failCheck c k)
    match u.first.next (wordChecks i u ext c.pfx.isSome c.pc) with
    | .trap 0x08 a =>
      finish (((s.faultWord c u).updGang c.gid fun g => { g with ord := none }).failCheck c (.trap 0x08 a))
    | .ok =>
      (match (s.gangs.find? c.gid) with
       | none => .next s
       | some g =>
         match (laneChecks c g u).next (chk c s) with
         | .ok => finish (body c ((s.chargeIssue c.gid).passWord c u))
         | k => fail k)
    | k => fail k

/-- No condition beyond the common ones. -/
def noChk : Ctx → State → Check := fun _ _ => .ok

/-- An effect on the issuing gang, for a word with an active lane. -/
def onGang (f : Ctx → Gang → Gang) : Ctx → State → State := fun c s => if c.act = 0 then s else s.updGang c.gid (f c)

/-- An effect in each active lane, ascending. -/
def eachLane (f : Ctx → Gang → Nat → Gang) : Ctx → State → State :=
  onGang fun c g => (lanesOf c.act).foldl (f c) g

/-- A source in a lane: the register of the permuted lane, or the immediate image (03 R50). -/
def Ctx.src (c : Ctx) (l r : Nat) (p : BitVec 8) : Nat := (c.r.v (permSrc p l) r).toNat
def Ctx.srcw (c : Ctx) (w l r : Nat) (p : BitVec 8) : Nat := c.r.vw w (permSrc p l) r

/-! ### Long-latency producers (01 R16, R18) -/

/-- A producer marks its destinations empty at issue. -/
def Gang.addProducer (g : Gang) (ds : List Dest) (ready : Bool) (flags : Flg) : Gang :=
  { g with
    prods := g.prods ++ [{ id := g.nextId, ready := ready, flags := flags, dests := ds }]
    nextId := g.nextId + 1
    empty := g.empty.addAll (ds.map (·.key)) }

/-- Write one destination. -/
def Gang.writeDest (g : Gang) (d : Dest) : Gang :=
  let g1 := if d.key < 8192 then g.setV (d.key / 256) (d.key % 256) (d.val.setWidth 32) else g.putS (d.key - 8192) d.val
  if d.poison then { g1 with poison := g1.poison.add d.key } else g1

/-- A producer's values are written, its flags raised and its registers marked full, but for those that a later
producer targets; an earlier producer no longer writes them (01 R18). -/
def Gang.complete (g : Gang) (id : Nat) : Gang :=
  match g.prods.find? fun p => p.id = id with
  | none => g
  | some p =>
    let keys := p.dests.map (·.key)
    let later := (g.prods.filter fun q => id < q.id).flatMap fun q => q.dests.map (·.key)
    let g1 := (p.dests.foldl Gang.writeDest g).raise p.flags
    let rest : List Producer := g.prods.filter fun q => q.id != id
    let trim (q : Producer) : Producer := { q with dests := q.dests.filter fun d => !keys.contains d.key }
    let g2 : Gang :=
      { g1 with
        prods := rest.map fun q => if q.id < id then trim q else q
        empty := g.empty.delAll (keys.filter fun k => !later.contains k) }
    g2.retry

/-- The destinations of a vector result in the active lanes. -/
def vdests (c : Ctx) (reg count : Nat) (val : Nat → Nat → W32) (bad : Nat → Bool) : List Dest :=
  (lanesOf c.act).flatMap fun l => (List.range count).map fun j =>
    { key := vkey l (reg + j), val := (val l j).setWidth 64, poison := bad l }

/-! ### Layout V words (03 Table 21) -/

/-- Number of registers of an operand of a width. -/
def regsOf (w : Nat) : Nat := if w = 64 then 2 else 1

/-- The vector sources of a layout V word that reads n sources, each of `cnt` registers. -/
def vecSrcs (w : VecW) (n cnt : Nat) : List VSrc :=
  let imm := w.i = 1
  (if 1 ≤ n && !(imm && n = 1) then
      [{ reg := w.a.toNat, count := cnt, trap := w.ea = 1, perm := w.pma }] else [])
  ++ (if 2 ≤ n && !(imm && n = 2) then
      [{ reg := w.b.toNat, count := cnt, trap := w.eb = 1, perm := w.pmb }] else [])
  ++ (if 3 ≤ n && !(imm && n = 3) then
      [{ reg := w.c.toNat, count := cnt, trap := w.ec = 1, perm := w.pmc }] else [])

/-- The immediate as a source of a width (03 R50). -/
def immSrc (w : VecW) (wd : Nat) : Nat :=
  if wd = 64 && signedOf w.t then (w.imm.signExtend 64).toNat else w.imm.toNat

/-- Source k (0 A, 1 B, 2 C) of n in a lane. -/
def vecSrc (c : Ctx) (w : VecW) (n wd k l : Nat) : Nat :=
  if w.i = 1 && k + 1 = n then immSrc w wd
  else match k with
    | 0 => c.srcw wd l w.a.toNat w.pma
    | 1 => c.srcw wd l w.b.toNat w.pmb
    | _ => c.srcw wd l w.c.toNat w.pmc

/-- The use of a word whose sources and destination have one width; `dw`: the width of D, 0 for none. -/
def vecUseOf (w : VecW) (n wd dw : Nat) (producer : Bool := false) : WordUse :=
  let cnt := regsOf wd
  let src := vecSrcs w n cnt
  { active := guardOf w.g, srcs := src
    dsts := if dw = 0 then [] else [(w.d.toNat, regsOf dw)]
    evens := (if cnt = 2 then src.map (·.reg) else []) ++ (if dw = 64 then [w.d.toNat] else [])
    producer := producer }

end Sys2Proof.Machine
end

