-- ==== Sys2Proof/Machine/Int.lean ====
section
/-! DEFINITION. The integer instructions of the VSGL class (04 R80 to R85). -/

namespace Sys2Proof.Machine

/-- A register image of width w as an integer, under the type's signedness. -/
def asInt (signed : Bool) (w x : Nat) : Int := if signed then signedNat w x else ((x % 2 ^ w : Nat) : Int)
/-- The low w bits of an integer. -/
def lowBits (w : Nat) (v : Int) : Nat := (v % ((2 ^ w : Nat) : Int)).toNat
/-- Clamp to the range of the type (04 R81). -/
def satInt (signed : Bool) (w : Nat) (v : Int) : Int :=
  if signed then max (-((2 ^ (w - 1) : Nat) : Int)) (min (((2 ^ (w - 1) : Nat) : Int) - 1) v)
  else max 0 (min (((2 ^ w : Nat) : Int) - 1) v)

/-- An integer instruction: its result in a lane, from its three sources as images. The result's width is that of T,
or 32 where `d32`. -/
def intWord (i : Instr) (w : VecW) (n : Nat) (d32 : Bool) (f : Bool → Nat → Nat → Nat → Nat → Nat) (s : State) : Out :=
  let wd := widthOf w.t
  let dw := if d32 then 32 else wd
  coreWord i (vecUseOf w n wd dw) noChk
    (eachLane fun c g l =>
      g.setVw dw l w.d.toNat
        (f (signedOf w.t) wd (vecSrc c w n wd 0 l) (if 2 ≤ n then vecSrc c w n wd 1 l else 0)
          (if 3 ≤ n then vecSrc c w n wd 2 l else 0)))
    s

/-- An exact integer result, reduced or, with .SAT, clamped. -/
def narrow (sat sg : Bool) (wd : Nat) (v : Int) : Nat := lowBits wd (if sat then satInt sg wd v else v)
def satOf (w : VecW) : Bool := w.u.getLsbD 0

def execIadd (w : VecW) : State → Out :=
  intWord (.iadd w) w 2 false fun sg wd a b _ => narrow (satOf w) sg wd (asInt sg wd a + asInt sg wd b)
def execIsub (w : VecW) : State → Out :=
  intWord (.isub w) w 2 false fun sg wd a b _ => narrow (satOf w) sg wd (asInt sg wd a - asInt sg wd b)
def execImul (w : VecW) : State → Out := intWord (.imul w) w 2 false fun _ wd a b _ => a * b % 2 ^ wd
def execImulh (w : VecW) : State → Out :=
  intWord (.imulh w) w 2 false fun sg wd a b _ =>
    lowBits wd ((asInt sg wd a * asInt sg wd b) / ((2 ^ wd : Nat) : Int))
def execImad (w : VecW) : State → Out := intWord (.imad w) w 3 false fun _ wd a b c => (a * b + c) % 2 ^ wd
def execImin (w : VecW) : State → Out :=
  intWord (.imin w) w 2 false fun sg wd a b _ => if asInt sg wd a ≤ asInt sg wd b then a else b
def execImax (w : VecW) : State → Out :=
  intWord (.imax w) w 2 false fun sg wd a b _ => if asInt sg wd a ≤ asInt sg wd b then b else a
def execIabs (w : VecW) : State → Out :=
  intWord (.iabs w) w 1 false fun sg wd a _ _ => narrow (satOf w) sg wd ((asInt sg wd a).natAbs : Int)
def execIneg (w : VecW) : State → Out :=
  intWord (.ineg w) w 1 false fun sg wd a _ _ => narrow (satOf w) sg wd (-(asInt sg wd a))
def execAnd (w : VecW) : State → Out := intWord (.and w) w 2 false fun _ _ a b _ => a &&& b
def execOr (w : VecW) : State → Out := intWord (.or w) w 2 false fun _ _ a b _ => a ||| b
def execXor (w : VecW) : State → Out := intWord (.xor w) w 2 false fun _ _ a b _ => a ^^^ b
def execNot (w : VecW) : State → Out := intWord (.not w) w 1 false fun _ wd a _ _ => 2 ^ wd - 1 - a
/-- Shift count: b[4:0] or b[5:0] (04 R80). -/
def shiftCount (wd b : Nat) : Nat := b % wd
def execShl (w : VecW) : State → Out :=
  intWord (.shl w) w 2 false fun _ wd a b _ => a * 2 ^ shiftCount wd b % 2 ^ wd
def execShr (w : VecW) : State → Out := intWord (.shr w) w 2 false fun _ wd a b _ => a / 2 ^ shiftCount wd b
def execSra (w : VecW) : State → Out :=
  intWord (.sra w) w 2 false fun _ wd a b _ => lowBits wd (signedNat wd a / ((2 ^ shiftCount wd b : Nat) : Int))
def execRot (w : VecW) : State → Out :=
  intWord (.rot w) w 2 false fun _ wd a b _ =>
    let n := shiftCount wd b
    (a * 2 ^ n + a / 2 ^ (wd - n)) % 2 ^ wd

/-- Offset, end and length of a bit field (04 R82). -/
def fieldOf (wd desc : Nat) : Nat × Nat :=
  let o := desc % wd
  let n := if wd = 64 then bitsOf desc 8 7 else bitsOf desc 8 6
  (o, min (o + n) wd)
def bfe (sg : Bool) (wd a o e : Nat) : Nat :=
  let k := e - o
  let f := bitsOf a o k
  if sg && 0 < k then lowBits wd (signedNat k f) else f
def execBfe (w : VecW) : State → Out :=
  intWord (.bfe w) w 3 false fun sg wd a b c =>
    let n := if wd = 64 then bitsOf c 8 7 else bitsOf c 8 6
    bfe sg wd a (b % wd) (min (b % wd + n) wd)
def execBfi (w : VecW) : State → Out :=
  intWord (.bfi w) w 3 false fun _ wd a b c =>
    let (o, e) := fieldOf wd c
    let k := e - o
    a - bitsOf a o k * 2 ^ o + b % 2 ^ k * 2 ^ o

/-- Leading zeros and population count of an image of width w. -/
def clzNat (wd a : Nat) : Nat := if a = 0 then wd else wd - 1 - Nat.log2 a
def popNat (wd a : Nat) : Nat := (List.range wd).foldl (fun n i => n + b2n (a.testBit i)) 0
def revNat (wd a : Nat) : Nat := (List.range wd).foldl (fun n i => 2 * n + b2n (a.testBit i)) 0
def execClz (w : VecW) : State → Out := intWord (.clz w) w 1 true fun _ wd a _ _ => clzNat wd a
def execPopc (w : VecW) : State → Out := intWord (.popc w) w 1 true fun _ wd a _ _ => popNat wd a
def execBrev (w : VecW) : State → Out := intWord (.brev w) w 1 false fun _ wd a _ _ => revNat wd a

/-- A comparison under a condition code (04 R83, R100). -/
def cmpInt (cc : Nat) (a b : Int) : Bool :=
  match cc with
  | 0 => a = b
  | 1 => a ≠ b
  | 2 => a < b
  | 3 => a ≤ b
  | 4 => b < a
  | _ => b ≤ a
def execIcmp (w : VecW) : State → Out :=
  let wd := widthOf w.t
  coreWord (.icmp w) (vecUseOf w 2 wd 0) noChk
    (eachLane fun c g l =>
      g.setP l w.pd.toNat
        (cmpInt w.u.toNat (asInt (signedOf w.t) wd (vecSrc c w 2 wd 0 l)) (asInt (signedOf w.t) wd (vecSrc c w 2 wd 1 l))))
def execSel (w : VecW) : State → Out :=
  let wd := widthOf w.t
  coreWord (.sel w) (vecUseOf w 2 wd wd) noChk
    (eachLane fun c g l =>
      g.setVw wd l w.d.toNat (if c.r.p l w.pd.toNat then vecSrc c w 2 wd 0 l else vecSrc c w 2 wd 1 l))
def execMov (w : VecW) : State → Out := intWord (.mov w) w 1 false fun _ _ a _ _ => a
def execMovi (w : VecW) : State → Out := intWord (.movi w) w 1 false fun _ _ a _ _ => a
def execIaddsh (w : VecW) : State → Out :=
  intWord (.iaddsh w) w 2 false fun _ wd a b _ => (a + b * 2 ^ w.u.toNat) % 2 ^ wd
def execIdot4 (w : VecW) : State → Out :=
  intWord (.idot4 w) w 3 false fun sg _ a b c =>
    lowBits 32 ((List.range 4).foldl (fun acc i =>
      acc + asInt sg 8 (a / 2 ^ (8 * i)) * asInt sg 8 (b / 2 ^ (8 * i))) ((c : Nat) : Int))

end Sys2Proof.Machine
end

