-- ==== Sys2Proof/Machine/Special.lean ====
section
/-! DEFINITION. The floating-point operations of 04 R86 to R93 on register images, and the special functions formed from
fixed-point values of 640 fraction bits and rounded once. -/

namespace Sys2Proof

/-- Fraction bits of the fixed-point values. -/
def fxP : Nat := 640
def fxOne : Nat := 2 ^ 640
/-- π / 2 in units of 2^−800, and ln 2 in units of 2^−640, both truncated. -/
def halfPi800 : Nat :=
  0x1921fb54442d18469898cc51701b839a252049c1114cf98e804177d4c76273644a29410f31c6809bbdf2a33679a748636605614dbe4be286e9fc26adadaa3848bc90b6aecc4bcfd8de89885d34c6fdad617feb96de80d6fdbdc70d7f6b5133f4b5d3e4822
def ln2Fx : Nat :=
  0xb17217f7d1cf79abc9e3b39803f2f6af40f343267298b62d8a0d175b8baafa2be7b876206debac98559552fb4afa1b10ed2eae35c138214427573b291169b8253e96ca16224ae8c51acbda11317c387e

/-- Square root of a number, by one bit of the root for each unit of fuel. -/
def isqrtAux : Nat → Nat → Nat → Nat
  | 0, _, r => r
  | k + 1, n, r => let c := r + 2 ^ k; isqrtAux k n (if c * c ≤ n then c else r)
def isqrt (n : Nat) : Nat := isqrtAux (Nat.log2 n / 2 + 1) n 0

/-- Sum of t × f^k / k! for k from i on. -/
def expSeries : Nat → Nat → Nat → Nat → Nat → Nat
  | 0, _, _, _, acc => acc
  | fuel + 1, f, t, i, acc => expSeries fuel f (t * f / fxOne / (i + 1)) (i + 1) (acc + t)
/-- e^f for f in [0, 1), fixed point. -/
def fxExp (f : Nat) : Nat := expSeries 140 f fxOne 0 0

/-- Sum of z^(2k+1) / (2k + 1). -/
def atanhSeries : Nat → Nat → Nat → Nat → Nat → Nat
  | 0, _, _, _, acc => acc
  | fuel + 1, z2, t, i, acc => atanhSeries fuel z2 (t * z2 / fxOne) (i + 2) (acc + t / i)
def fxAtanh (z : Nat) : Nat := atanhSeries 220 (z * z / fxOne) z 1 0

/-- The alternating series of sine (i = 1, t = r) and cosine (i = 0, t = 1): sums of the positive and negative terms. -/
def trigSeries : Nat → Nat → Nat → Nat → Nat → Nat → Nat × Nat
  | 0, _, _, _, p, n => (p, n)
  | fuel + 1, r2, t, i, p, n =>
    trigSeries fuel r2 (t * r2 / fxOne / ((i + 1) * (i + 2))) (i + 2) (n) (p + t)
/-- trigSeries swaps its sums at each term, so an even fuel leaves the positive terms first. -/
def fxSin (r : Nat) : Nat :=
  let (p, n) := trigSeries 100 (r * r / fxOne) r 1 0 0
  if p ≤ n then n - p else p - n
def fxCos (r : Nat) : Nat :=
  let (p, n) := trigSeries 100 (r * r / fxOne) fxOne 0 0 0
  if p ≤ n then n - p else p - n

/-- m × 2^e in units of 2^−p, where e ≥ −p. -/
def fxOf (p : Nat) (m : Nat) (e : Int) : Nat := m * 2 ^ (e + p).toNat

/-- 2^(i + f / 2^640) as a rounded FP32 result. -/
def exp2Res (s : Bool) (i : Int) (f : Nat) : FRes := roundF fmtFp32 .rne s (fxExp (f * ln2Fx / fxOne)) (i - 640) true

/-- EXP2, 04 R93. -/
def sfExp2 : FVal → FRes
  | .nan g => nanRes fmtFp32 g
  | .inf s => if s then zeroRes fmtFp32 false else infRes fmtFp32 false
  | .fin s m e =>
    if m = 0 then roundF fmtFp32 .rne false 1 0 false
    else if 8 ≤ (Nat.log2 m : Int) + e then
      if s then roundF fmtFp32 .rne false 1 (-300) true else (fmtFp32.infCode, fOF ||| fNX)
    else
      let x := fxOf 640 m e
      let v : Int := if s then -(x : Int) else x
      let i := v / (fxOne : Int)
      let f := (v % (fxOne : Int)).toNat
      if f = 0 then roundF fmtFp32 .rne false 1 i false else exp2Res false i f

/-- LOG2, 04 R93. -/
def sfLog2 : FVal → FRes
  | .nan g => nanRes fmtFp32 g
  | .inf s => if s then nanRes fmtFp32 true else infRes fmtFp32 false
  | .fin s m e =>
    if m = 0 then (fmtFp32.signBit true + fmtFp32.infCode, fDZ)
    else if s then nanRes fmtFp32 true
    else
      let l := Nat.log2 m
      let i : Int := l + e
      if m = 2 ^ l then
        if i = 0 then zeroRes fmtFp32 false else roundF fmtFp32 .rne (i < 0) i.natAbs 0 false
      else
        let lny := 2 * fxAtanh ((m - 2 ^ l) * fxOne / (m + 2 ^ l))
        let v : Int := i * (fxOne : Int) + ((lny * fxOne / ln2Fx : Nat) : Int)
        roundF fmtFp32 .rne (v < 0) v.natAbs (-640) true

/-- The quadrant and the remainder in [0, π / 2) of a magnitude, fixed point. -/
def reduceTrig (m : Nat) (e : Int) : Nat × Nat :=
  let x := fxOf 800 m e
  (x / halfPi800 % 4, x % halfPi800 / 2 ^ 160)

/-- SIN and COS, 04 R93. -/
def sfSin : FVal → FRes
  | .nan g => nanRes fmtFp32 g
  | .inf _ => nanRes fmtFp32 true
  | .fin s m e =>
    if m = 0 then zeroRes fmtFp32 s
    else
      let (q, r) := reduceTrig m e
      let v := if q % 2 = 0 then fxSin r else fxCos r
      roundF fmtFp32 .rne (s != decide (2 ≤ q)) v (-640) true

def sfCos : FVal → FRes
  | .nan g => nanRes fmtFp32 g
  | .inf _ => nanRes fmtFp32 true
  | .fin _ m e =>
    if m = 0 then roundF fmtFp32 .rne false 1 0 false
    else
      let (q, r) := reduceTrig m e
      let v := if q % 2 = 0 then fxCos r else fxSin r
      roundF fmtFp32 .rne (q = 1 || q = 2) (if v = fxOne then v - 1 else v) (-640) true

/-- TANH, 04 R93. -/
def sfTanh : FVal → FRes
  | .nan g => nanRes fmtFp32 g
  | .inf s => roundF fmtFp32 .rne s 1 0 false
  | .fin s m e =>
    if m = 0 then zeroRes fmtFp32 s
    else if 6 ≤ (Nat.log2 m : Int) + e then roundF fmtFp32 .rne s (2 ^ 60 - 1) (-60) true
    else
      let y := 2 * fxOf 640 m e * fxOne / ln2Fx
      let ex := fxExp (y % fxOne * ln2Fx / fxOne) * 2 ^ (y / fxOne)
      roundF fmtFp32 .rne s ((ex - fxOne) * fxOne / (ex + fxOne)) (-640) true

/-- Quotient of two finite nonzero magnitudes, rounded. -/
def divRes (rnd : Rnd) (s : Bool) (m : Nat) (e : Int) (n : Nat) (k : Int) : FRes :=
  let a := m * 2 ^ 80
  roundF fmtFp32 rnd s (a / n) (e - k - 80) (a % n != 0)

/-- FDIV, 04 R87. -/
def fDivV (rnd : Rnd) (a b : FVal) : FRes :=
  match a, b with
  | .nan g, b => nanRes fmtFp32 (g || b.isSnan)
  | a, .nan g => nanRes fmtFp32 (g || a.isSnan)
  | .inf s, .inf _ => nanRes fmtFp32 (s || true)
  | .inf s, .fin t _ _ => infRes fmtFp32 (s != t)
  | .fin s _ _, .inf t => zeroRes fmtFp32 (s != t)
  | .fin s m e, .fin t n k =>
    if n = 0 then
      if m = 0 then nanRes fmtFp32 true else (fmtFp32.signBit (s != t) + fmtFp32.infCode, fDZ)
    else if m = 0 then zeroRes fmtFp32 (s != t)
    else divRes rnd (s != t) m e n k

/-- RCP, 04 Table 39 and R93. -/
def sfRcp (v : FVal) : FRes := fDivV .rne (.fin false 1 0) v

/-- SQRT, 04 Table 39; an even exponent and 60 extra bits of root. -/
def fSqrtV (rnd : Rnd) : FVal → FRes
  | .nan g => nanRes fmtFp32 g
  | .inf s => if s then nanRes fmtFp32 true else infRes fmtFp32 false
  | .fin s m e =>
    if m = 0 then zeroRes fmtFp32 s
    else if s then nanRes fmtFp32 true
    else
      let (m, e) := if e % 2 = 0 then (m, e) else (2 * m, e - 1)
      let n := m * 2 ^ 120
      let r := isqrt n
      roundF fmtFp32 rnd false r (e / 2 - 60) (r * r != n)

/-- RSQ, 04 Table 39 and R93: the root of 2^240 / m. -/
def sfRsq : FVal → FRes
  | .nan g => nanRes fmtFp32 g
  | .inf s => if s then nanRes fmtFp32 true else zeroRes fmtFp32 false
  | .fin s m e =>
    if m = 0 then (fmtFp32.signBit s + fmtFp32.infCode, fDZ)
    else if s then nanRes fmtFp32 true
    else
      let (m, e) := if e % 2 = 0 then (m, e) else (2 * m, e - 1)
      let r := isqrt (2 ^ 240 / m)
      roundF fmtFp32 .rne false r (-(e / 2) - 120) (r * r * m != 2 ^ 240)

/-- Source modifiers of 04 R86 on an FP32 image. -/
def modSign (absb negb : Bool) (x : Nat) : Nat :=
  let y := if absb then x % 2 ^ 31 else x
  if negb then (if y < 2 ^ 31 then y + 2 ^ 31 else y - 2 ^ 31) else y

/-- FADD, FSUB, FMUL and FFMA, 04 R87. -/
def fAdd (fz : Bool) (rnd : Rnd) (a b : Nat) : FRes := flush32 fz (sumRound fmtFp32 rnd [read32 fz a, read32 fz b])
def fSub (fz : Bool) (rnd : Rnd) (a b : Nat) : FRes :=
  flush32 fz (sumRound fmtFp32 rnd [read32 fz a, (read32 fz b).neg])
/-- A rounded value of its own (a product): a zero keeps its sign. -/
def roundV (rnd : Rnd) (v : FVal) : FRes := convF fmtFp32 rnd v
def fMul (fz : Bool) (rnd : Rnd) (a b : Nat) : FRes := flush32 fz (roundV rnd ((read32 fz a).mul (read32 fz b)))
def fFma (fz : Bool) (rnd : Rnd) (a b c : Nat) : FRes :=
  flush32 fz (sumRound fmtFp32 rnd [(read32 fz a).mul (read32 fz b), read32 fz c])

/-- Order of two values that are not NaN: −1, 0 or 1; zeros of both signs are equal. -/
def cmpV (a b : FVal) : Int :=
  match a, b with
  | .inf s, .inf t => if s = t then 0 else if s then -1 else 1
  | .inf s, _ => if s then -1 else 1
  | _, .inf t => if t then 1 else -1
  | .fin .., .fin .. =>
    let e := minExp [a, b]
    let d := sumAt e [a, b.neg]
    if d < 0 then -1 else if d = 0 then 0 else 1
  | _, _ => 0

/-- FMIN and FMAX, 04 R88; −0 is below +0. The result is an operand as read, or the canonical NaN. -/
def fMinMax (fz isMax : Bool) (a b : Nat) : FRes :=
  let va := read32 fz a
  let vb := read32 fz b
  let img (x : Nat) (v : FVal) : Nat := if v.isZero then fmtFp32.signBit v.sign else x
  let nv : Flg := if va.isSnan || vb.isSnan then fNV else 0
  match va.isNan, vb.isNan with
  | true, true => (fmtFp32.nanCode, nv)
  | true, false => (img b vb, nv)
  | false, true => (img a va, nv)
  | false, false =>
    let c := cmpV va vb
    let aLess := c < 0 || (c = 0 && va.sign && !vb.sign)
    (if aLess != isMax then img a va else img b vb, nv)

/-- FCMP, 04 R89: the predicate and the flags. -/
def fCmp (fz : Bool) (cc : Nat) (a b : Nat) : Bool × Flg :=
  let va := read32 fz a
  let vb := read32 fz b
  let un := va.isNan || vb.isNan
  let c := cmpV va vb
  let r : Bool :=
    match cc with
    | 0 => !un && c = 0
    | 1 => un || c != 0
    | 2 => !un && c < 0
    | 3 => !un && c ≤ 0
    | 4 => !un && 0 < c
    | 5 => !un && 0 ≤ c
    | 6 => un
    | _ => !un
  let ordered := 2 ≤ cc && cc ≤ 5
  (r, if (ordered && un) || va.isSnan || vb.isSnan then fNV else 0)

/-- FCLASS, 04 R90. -/
def fClass (a : Nat) : Nat :=
  match decodeF fmtFp32 a with
  | .nan g => if g then 2 ^ 8 else 2 ^ 9
  | .inf s => if s then 1 else 2 ^ 7
  | .fin s m _ =>
    if m = 0 then (if s then 2 ^ 3 else 2 ^ 4)
    else if m < 2 ^ 23 then (if s then 2 ^ 2 else 2 ^ 5)
    else (if s then 2 else 2 ^ 6)

/-- FRND, 04 R87: integral, never NX, the sign of a zero result kept. -/
def fRnd (fz : Bool) (rnd : Rnd) (a : Nat) : FRes :=
  match read32 fz a with
  | .nan g => nanRes fmtFp32 g
  | .inf s => infRes fmtFp32 s
  | .fin s m e =>
    if m = 0 || 0 ≤ e then (if m = 0 then zeroRes fmtFp32 s else (a, 0))
    else
      let k := (intMag rnd s m e).1
      if k = 0 then zeroRes fmtFp32 s else roundF fmtFp32 .rne s k 0 false

/-- FSCALE, 04 R87; a scale beyond ±600 gives what ±600 gives. -/
def fScale (fz : Bool) (rnd : Rnd) (a : Nat) (b : Int) : FRes :=
  let k := max (-600) (min 600 b)
  flush32 fz (roundV rnd (match read32 fz a with | .fin s m e => .fin s m (e + k) | v => v))

/-- FFRACT, 04 R90. -/
def fFract (fz : Bool) (rnd : Rnd) (a : Nat) : FRes :=
  match read32 fz a with
  | .nan g => nanRes fmtFp32 g
  | .inf _ => nanRes fmtFp32 true
  | .fin s m e =>
    if m = 0 || 0 ≤ e then zeroRes fmtFp32 false
    else
      let u := 2 ^ (-e).toNat
      let f := m % u
      if f = 0 then zeroRes fmtFp32 false
      else
        let r := flush32 fz (roundF fmtFp32 rnd false (if s then u - f else f) e false)
        (min r.1 0x3F7FFFFF, r.2)

def fDiv (fz : Bool) (rnd : Rnd) (a b : Nat) : FRes := flush32 fz (fDivV rnd (read32 fz a) (read32 fz b))
def fSqrt (fz : Bool) (rnd : Rnd) (a : Nat) : FRes := flush32 fz (fSqrtV rnd (read32 fz a))

/-- FDOT2, 04 R91. -/
def fDot2 (f : FFmt) (fz : Bool) (rnd : Rnd) (a b c : Nat) : FRes :=
  let a0 := decodeF f a
  let a1 := decodeF f (a / 2 ^ 16)
  let b0 := decodeF f b
  let b1 := decodeF f (b / 2 ^ 16)
  let vc := read32 fz c
  let els := [a0, a1, b0, b1, vc]
  if els.any (·.isNan) then nanRes fmtFp32 (els.any (·.isSnan))
  else flush32 fz (sumRound fmtFp32 rnd [vc, a0.mul b0, a1.mul b1])

end Sys2Proof
end

