-- ==== Sys2Proof/Machine/Float.lean ====
section
/-! DEFINITION. The floating-point instructions of the VSGL class (04 R86 to R93) and the conversions (04 R94 to R98). -/

namespace Sys2Proof.Machine

/-- Sources of a floating-point word in a lane, after the modifiers of U where `mods` (04 R86). -/
def fpSrcs (c : Ctx) (w : VecW) (n : Nat) (mods : Bool) (l : Nat) : Nat × Nat × Nat :=
  let a := vecSrc c w n 32 0 l
  let b := if 2 ≤ n then vecSrc c w n 32 1 l else 0
  let x := if 3 ≤ n then vecSrc c w n 32 2 l else 0
  if mods then (modSign (w.u.getLsbD 0) (w.u.getLsbD 1) a, modSign (w.u.getLsbD 2) (w.u.getLsbD 3) b, x) else (a, b, x)

/-- Write an FP32 result and its flags. -/
def Gang.setF (g : Gang) (l d : Nat) (r : FRes) : Gang := (g.setV l d (BitVec.ofNat 32 r.1)).raise r.2

/-- A floating-point instruction: its result in a lane from FZ, the rounding mode and the sources. -/
def fpWord (i : Instr) (w : VecW) (n : Nat) (mods : Bool) (f : Bool → Rnd → Nat → Nat → Nat → FRes) : State → Out :=
  coreWord i (vecUseOf w n 32 32) noChk
    (eachLane fun c g l =>
      let (a, b, x) := fpSrcs c w n mods l
      g.setF l w.d.toNat (f c.r.fz (rndOf w.rm 0 l 0) a b x))

/-- A long-latency floating-point instruction (04 R78). -/
def fpLong (i : Instr) (w : VecW) (n : Nat) (f : Bool → Rnd → Nat → Nat → FRes) : State → Out :=
  coreWord i (vecUseOf w n 32 32 true) noChk
    (onGang fun c g =>
      let res (l : Nat) : FRes := let (a, b, _) := fpSrcs c w n false l; f c.r.fz (rndOf w.rm 0 l 0) a b
      g.addProducer (vdests c w.d.toNat 1 (fun l _ => BitVec.ofNat 32 (res l).1) fun _ => false) true
        ((lanesOf c.act).foldl (fun fl l => fl ||| (res l).2) 0))

def execFadd (w : VecW) : State → Out := fpWord (.fadd w) w 2 true fun fz r a b _ => fAdd fz r a b
def execFsub (w : VecW) : State → Out := fpWord (.fsub w) w 2 true fun fz r a b _ => fSub fz r a b
def execFmul (w : VecW) : State → Out := fpWord (.fmul w) w 2 true fun fz r a b _ => fMul fz r a b
def execFfma (w : VecW) : State → Out := fpWord (.ffma w) w 3 true fun fz r a b c => fFma fz r a b c
def execFmin (w : VecW) : State → Out := fpWord (.fmin w) w 2 true fun fz _ a b _ => fMinMax fz false a b
def execFmax (w : VecW) : State → Out := fpWord (.fmax w) w 2 true fun fz _ a b _ => fMinMax fz true a b
def execFcmp (w : VecW) : State → Out :=
  coreWord (.fcmp w) (vecUseOf w 2 32 0) noChk
    (eachLane fun c g l =>
      let r := fCmp c.r.fz w.u.toNat (vecSrc c w 2 32 0 l) (vecSrc c w 2 32 1 l)
      (g.setP l w.pd.toNat r.1).raise r.2)
def execFclass (w : VecW) : State → Out := fpWord (.fclass w) w 1 false fun _ _ a _ _ => (fClass a, 0)
def execFrnd (w : VecW) : State → Out := fpWord (.frnd w) w 1 false fun fz r a _ _ => fRnd fz r a
def execFdot2 (w : VecW) : State → Out :=
  fpWord (.fdot2 w) w 3 false fun fz r a b c => fDot2 (if w.t = Fmt.fp16 then fmtFp16 else fmtBf16) fz r a b c
def execFscale (w : VecW) : State → Out :=
  fpWord (.fscale w) w 2 false fun fz r a b _ => fScale fz r a (signedNat 32 b)
def execFfract (w : VecW) : State → Out := fpWord (.ffract w) w 1 false fun fz r a _ _ => fFract fz r a
def execFdiv (w : VecW) : State → Out := fpLong (.fdiv w) w 2 fun fz r a b => fDiv fz r a b
def execSqrt (w : VecW) : State → Out := fpLong (.sqrt w) w 1 fun fz r a _ => fSqrt fz r a

/-- A special function of one source under FZ (04 R92, R93). -/
def special (f : FVal → FRes) (fz : Bool) (a : Nat) : FRes := flush32 fz (f (read32 fz a))
def execRcp (w : VecW) : State → Out := fpLong (.rcp w) w 1 fun fz _ a _ => special sfRcp fz a
def execRsq (w : VecW) : State → Out := fpLong (.rsq w) w 1 fun fz _ a _ => special sfRsq fz a
def execExp2 (w : VecW) : State → Out := fpLong (.exp2 w) w 1 fun fz _ a _ => special sfExp2 fz a
def execLog2 (w : VecW) : State → Out := fpLong (.log2 w) w 1 fun fz _ a _ => special sfLog2 fz a
def execSin (w : VecW) : State → Out := fpLong (.sin w) w 1 fun fz _ a _ => special sfSin fz a
def execCos (w : VecW) : State → Out := fpLong (.cos w) w 1 fun fz _ a _ => special sfCos fz a
def execTanh (w : VecW) : State → Out := fpLong (.tanh w) w 1 fun fz _ a _ => special sfTanh fz a

/-! ### Conversions -/

/-- The seed register is read only under .RS (04 R94). -/
def seedUse (w : VecW) : List Nat := if w.rm = 4 then [w.s.toNat] else []
def Ctx.rnd (c : Ctx) (w : VecW) (l elem : Nat) : Rnd := rndOf w.rm (c.r.s w.s.toNat) l elem

/-- An element of one format in another: a logarithm to itself is exact, since R32 rounds only other values into LG6
(02 R36, 04 R94). -/
def cvtElem (t u : BitVec 4) (rnd : Rnd) (x : Nat) : FRes :=
  if t = Fmt.lg6 && u = Fmt.lg6 then (x % 64, 0) else convTo t rnd (valueOf u x)

/-- CVT, 04 R94. -/
def execCvt (w : VecW) : State → Out :=
  let sw := widthOf w.u
  let dw := widthOf w.t
  let u := vecUseOf w 1 (if sw = 64 then 64 else 32) (if dw = 64 then 64 else 32)
  coreWord (.cvt w) { u with ssrcs := seedUse w } noChk
    (eachLane fun c g l =>
      let a := if w.i = 1 then (if sw = 64 && signedOf w.u then (w.imm.signExtend 64).toNat else w.imm.toNat)
        else c.srcw (if sw = 64 then 64 else 32) l w.a.toNat w.pma
      let r := cvtElem w.t w.u (c.rnd w l 0) a
      (g.setVw (if dw = 64 then 64 else 32) l w.d.toNat r.1).raise r.2)

/-- PACK, 04 R95. -/
def execPack (w : VecW) : State → Out :=
  let wide := widthOf w.t = 16
  let n := if wide then 2 else 3
  coreWord (.pack w) { vecUseOf w n 32 32 with ssrcs := seedUse w } noChk
    (eachLane fun c g l =>
      let ra := convTo w.t (c.rnd w l 0) (valueOf w.u (vecSrc c w n 32 0 l))
      let rb := convTo w.t (c.rnd w l 1) (valueOf w.u (vecSrc c w n 32 1 l))
      let x := if wide then ra.1 + rb.1 * 2 ^ 16
        else vecSrc c w n 32 2 l / 2 ^ 16 + ra.1 * 2 ^ 16 + rb.1 * 2 ^ 24
      (g.setV l w.d.toNat (BitVec.ofNat 32 x)).raise (ra.2 ||| rb.2))

/-- UNPACK, 04 R96. -/
def execUnpack (w : VecW) : State → Out :=
  coreWord (.unpack w) (vecUseOf w 2 32 32) noChk
    (eachLane fun c g l =>
      let b := vecSrc c w 2 32 1 l
      let x := vecSrc c w 2 32 0 l / (if widthOf w.u = 16 then 2 ^ (16 * (b % 2)) else 2 ^ (8 * (b % 4)))
      let r := convTo w.t (c.rnd w l 0) (valueOf w.u x)
      g.setF l w.d.toNat r)

/-- EM(T) of 04 R97. -/
def quantEM (t : BitVec 4) : Int := if t = Fmt.e4m3 then 8 else if t = Fmt.e5m2 then 15 else 3

/-- The block scale of the values of a quarter (04 R97): e and whether a value is NaN. -/
def quantScale (t : BitVec 4) (vs : List FVal) : Nat :=
  if vs.any (·.isNan) then 255
  else
    let ms : List Int := vs.filterMap fun v =>
      match v with
      | .fin _ m e => if m = 0 then none else some ((Nat.log2 m : Int) + e)
      | _ => none
    match ms with
    | [] => 127
    | m :: rest => (min (max (rest.foldl max m - quantEM t + 127) 0) 254).toNat

/-- Conv of 04 R97: a conversion that saturates beyond the finite range and at an infinity. Whether a value lies beyond the
range is judged after rounding (DESIGN CHOICE, log 60). -/
def quantConv (t : BitVec 4) (rnd : Rnd) (v : FVal) : FRes :=
  let r := convTo t rnd v
  match ffmtOf t with
  | some f =>
    if f.inf && r.1 % 2 ^ (f.eb + f.mb) = f.infCode then (r.1 - 1, fOF ||| fNX) else r
  | none => r

/-- The value times 2^k. -/
def fvScale (v : FVal) (k : Int) : FVal := match v with | .fin s m e => .fin s m (e + k) | x => x

/-- QNT, 04 R97. -/
def execQnt (w : VecW) : State → Out :=
  coreWord (.qnt w)
    { vecUseOf w 1 32 32 with dsts := [(w.d.toNat, 2)], evens := [w.d.toNat], ssrcs := seedUse w } noChk
    (eachLane fun c g l =>
      let val (j : Nat) : FVal := decodeF fmtFp32 (vecSrc c w 1 32 0 j)
      let e := quantScale w.t (((lanesOf c.act).filter fun j => j / 8 = l / 8).map val)
      let r : FRes := if e = 255 then (match ffmtOf w.t with | some f => f.nanCode | none => 16, fNV)
        else quantConv w.t (c.rnd w l 0) (fvScale (val l) (127 - (e : Int)))
      ((g.setV l w.d.toNat (BitVec.ofNat 32 r.1)).setV l (w.d.toNat + 1) (BitVec.ofNat 32 e)).raise r.2)

/-- DQNT, 04 R98. -/
def dequant (t : BitVec 4) (rnd : Rnd) (a b : Nat) : FRes :=
  let v := valueOf t a
  if b % 256 = 255 || v.isNan then nanRes fmtFp32 true
  else convF fmtFp32 rnd (fvScale v (((b % 256 : Nat) : Int) - 127))
def execDqnt (w : VecW) : State → Out :=
  fpWord (.dqnt w) w 2 false fun _ r a b _ => dequant w.t r a b

end Sys2Proof.Machine
end

