-- ==== Sys2Proof/Machine/Pair.lean ====
section
/-! DEFINITION. The VPAIR class (03 R60 to R63). -/

namespace Sys2Proof.Machine

/-- The register sources of a half. -/
def halfSrcs (h : HalfW) (o : CopOp) (perm : BitVec 8) : List VSrc :=
  ([ ({ reg := h.a.toNat, trap := h.ea = 1, perm := perm } : VSrc), { reg := h.b.toNat, trap := h.eb = 1 },
     { reg := h.c.toNat, trap := h.ec = 1 } ] : List VSrc).take o.nsrc

/-- Source k of a half in a lane; the shared port delivers X.A to both (03 R60). -/
def halfSrc (c : Ctx) (w : PairW) (h : HalfW) (k l : Nat) : Nat :=
  match k with
  | 0 => if w.sh = 1 then c.src l w.x.a.toNat w.x.pms else c.src l h.a.toNat 0
  | 1 => c.src l h.b.toNat 0
  | _ => c.src l h.c.toNat 0

/-- The condition of ICMP in a compact word: 0 to 5 signed, 6 LTU, 7 GEU (03 Table 29). -/
def cmp32 (cc a b : Nat) : Bool :=
  if cc = 6 then a < b else if cc = 7 then b ≤ a else cmpInt cc (signedNat 32 a) (signedNat 32 b)

/-- What a half writes in a lane: a register value or a predicate, with its flags. Compact operations are 32-bit and
round with RNE (03 R60). -/
def halfResult (c : Ctx) (w : PairW) (h : HalfW) (o : CopOp) (l : Nat) : (Nat ⊕ Bool) × Flg :=
  let a := halfSrc c w h 0 l
  let b := halfSrc c w h 1 l
  let x := halfSrc c w h 2 l
  let fz := c.r.fz
  let r (v : Nat) : (Nat ⊕ Bool) × Flg := (.inl (v % 2 ^ 32), 0)
  let f (v : FRes) : (Nat ⊕ Bool) × Flg := (.inl v.1, v.2)
  match o with
  | .iadd => r (a + b)
  | .isub => r (a + (2 ^ 32 - b))
  | .and => r (a &&& b)
  | .or => r (a ||| b)
  | .xor => r (a ^^^ b)
  | .shl => r (a * 2 ^ (b % 32))
  | .shr => r (a / 2 ^ (b % 32))
  | .mov => r a
  | .sel => r (if c.r.p l h.cnd.toNat then a else b)
  | .icmp => (.inr (cmp32 h.cnd.toNat a b), 0)
  | .fadd => f (fAdd fz .rne a b)
  | .fmul => f (fMul fz .rne a b)
  | .ffma => f (fFma fz .rne a b x)
  | .fmin => f (fMinMax fz false a b)
  | .fmax => f (fMinMax fz true a b)
  | .fcmp => let v := fCmp fz h.cnd.toNat a b; (.inr v.1, v.2)
  | .rcp => f (special sfRcp fz a)
  | .rsq => f (special sfRsq fz a)
  | .exp2 => f (special sfExp2 fz a)
  | .log2 => f (special sfLog2 fz a)

/-- The half is active in a lane. -/
def halfOn (c : Ctx) (h : HalfW) (l : Nat) : Bool := c.act.getLsbD l && c.r.guard h.g l

/-- Write a half that is no SFU operation. -/
def writeHalf (c : Ctx) (w : PairW) (h : HalfW) (o : CopOp) (g : Gang) : Gang :=
  (lanesOf (maskWhere (halfOn c h))).foldl (fun g l =>
    let v := halfResult c w h o l
    match v.1 with
    | .inl x => (g.setV l h.d.toNat (BitVec.ofNat 32 x)).raise v.2
    | .inr b => (g.setP l (h.d.toNat % 8) b).raise v.2) g

/-- An SFU half is a long-latency producer (04 R78). Its flags are raised with those of the other half (03 R63). -/
def produceHalf (c : Ctx) (w : PairW) (h : HalfW) (o : CopOp) (g : Gang) : Gang :=
  let on := maskWhere (halfOn c h)
  if on = 0 then g
  else
    (g.raise ((lanesOf on).foldl (fun fl l => fl ||| (halfResult c w h o l).2) 0)).addProducer
      ((lanesOf on).map fun l =>
        { key := vkey l h.d.toNat, poison := false,
          val := match (halfResult c w h o l).1 with | .inl x => BitVec.ofNat 64 x | .inr _ => 0 })
      true 0

/-- A lane of a half whose source is empty, where the half's guard is true (03 R63). -/
def halfEmpty (c : Ctx) (h : HalfW) (srcs : List VSrc) : List (Nat × Nat) :=
  srcs.flatMap fun v =>
    ((lanesOf (maskWhere (halfOn c h))).filter fun l => c.r.empty.contains (vkey l v.reg)).map fun l => (v.reg, l)

/-- The full/empty and poison checks of a pair, by half. -/
def pairLanes (w : PairW) (x y : CopOp) (c : Ctx) (s : State) : Check :=
  match s.gangs.find? c.gid with
  | none => .ok
  | some g =>
    let sx := halfSrcs w.x x (if w.sh = 1 then w.x.pms else 0)
    let sy := halfSrcs w.y y (if w.sh = 1 then w.x.pms else 0)
    let traps := halfEmpty c w.x (sx.filter (·.trap)) ++ halfEmpty c w.y (sy.filter (·.trap))
    let blocks := halfEmpty c w.x (sx.filter fun v => !v.trap) ++ halfEmpty c w.y (sy.filter fun v => !v.trap)
    let dstBusy (h : HalfW) (o : CopOp) : Bool := !o.toPred && o.cls != .sfu &&
      (lanesOf (maskWhere (halfOn c h))).any fun l => g.prods.any fun p => p.dests.any fun e => e.key = vkey l h.d.toNat
    let bad (h : HalfW) (srcs : List VSrc) : List Nat := (srcs.filter fun v =>
      (lanesOf (maskWhere (halfOn c h))).any fun l => c.r.poison.contains (vkey (permSrc v.perm l) v.reg)).map (·.reg)
    if !traps.isEmpty then .trap Cause.feEmpty (feAddr traps)
    else if !blocks.isEmpty || dstBusy w.x x || dstBusy w.y y then .wait .operand
    else match bad w.x sx ++ bad w.y sy with
      | [] => .ok
      | r :: rs => .trap Cause.poison (BitVec.ofNat 64 (rs.foldl min r))

/-- A register of the pair beyond the gang's blocks (01 R10). -/
def pairRange (w : PairW) (x y : CopOp) (c : Ctx) : Bool :=
  let lim := c.r.base + c.r.xcount
  let regs := (w.x.srcs x ++ w.y.srcs y).map (·.toNat) ++ (if x.toPred then [] else [w.x.d.toNat])
    ++ (if y.toPred then [] else [w.y.d.toNat])
  c.act != 0 && regs.any fun r => lim ≤ r

/-- VPAIR, 03 R63: both halves read everything before either writes. -/
def execVpair (w : PairW) (s : State) : Out :=
  let x := (copOf w.x.cop).getD .mov
  let y := (copOf w.y.cop).getD .mov
  coreWord (.vpair w) { active := fun r l => r.guard w.x.g l || r.guard w.y.g l }
    (fun c s => if pairRange w x y c then illegalSub 0x05 else pairLanes w x y c s)
    (onGang fun c g =>
      let g1 := writeHalf c w w.x x g
      if y.cls = .sfu then produceHalf c w w.y y g1 else writeHalf c w w.y y g1)
    s

end Sys2Proof.Machine
end

