-- ==== Sys2Proof/Machine/Exact.lean ====
section
/-! DEFINITION. Exact dyadic numbers and their single roundings, and FP32 operations on images with no flags, as the
macro-instructions use them (09 R206, R221, R226, R227; 10 R231, R233, R240, R241). -/

namespace Sys2Proof

/-- m × 2^e. -/
structure Dy where
  m : Int
  e : Int
  deriving DecidableEq, Repr

def Dy.ofInt (m : Int) : Dy := ⟨m, 0⟩
/-- The value of a finite FP32 image. -/
def Dy.ofF (x : Nat) : Option Dy :=
  match decodeF fmtFp32 x with
  | .fin s m e => some ⟨if s then -(m : Int) else m, e⟩
  | _ => none
def Dy.add (a b : Dy) : Dy :=
  let e := min a.e b.e
  ⟨a.m * 2 ^ (a.e - e).toNat + b.m * 2 ^ (b.e - e).toNat, e⟩
def Dy.neg (a : Dy) : Dy := ⟨-a.m, a.e⟩
def Dy.sub (a b : Dy) : Dy := a.add b.neg
def Dy.mul (a b : Dy) : Dy := ⟨a.m * b.m, a.e + b.e⟩
def Dy.sum (xs : List Dy) : Dy := xs.foldl Dy.add ⟨0, 0⟩
/-- Floor as an integer. -/
def Dy.floor (a : Dy) : Int := if 0 ≤ a.e then a.m * 2 ^ a.e.toNat else a.m / 2 ^ (-a.e).toNat

/-- n / d rounded once to FP32; an exact zero is +0. -/
def ratRound (n d : Dy) : Nat :=
  if n.m = 0 then 0
  else
    let k := Nat.log2 d.m.natAbs + 80
    let a := n.m.natAbs * 2 ^ k
    (roundF fmtFp32 .rne (decide (n.m < 0) != decide (d.m < 0)) (a / d.m.natAbs) (n.e - d.e - k)
      (a % d.m.natAbs != 0)).1
/-- RoundNE of a dyadic number; zero is +0. -/
def Dy.round (a : Dy) : Nat := ratRound a ⟨1, 0⟩

/-- RoundNE operations on FP32 images, subnormals kept. -/
def f32Add (a b : Nat) : Nat := (fAdd false .rne a b).1
def f32Sub (a b : Nat) : Nat := (fSub false .rne a b).1
def f32Mul (a b : Nat) : Nat := (fMul false .rne a b).1
def f32Div (a b : Nat) : Nat := (fDiv false .rne a b).1
def f32Max (a b : Nat) : Nat := (fMinMax false true a b).1
def f32Min (a b : Nat) : Nat := (fMinMax false false a b).1
def f32One : Nat := 0x3F800000
def f32IsNan (x : Nat) : Bool := (decodeF fmtFp32 x).isNan
def f32Finite (x : Nat) : Bool := (Dy.ofF x).isSome
/-- Comparisons, false with a NaN. -/
def f32Lt (a b : Nat) : Bool := !f32IsNan a && !f32IsNan b && cmpV (decodeF fmtFp32 a) (decodeF fmtFp32 b) < 0
def f32Le (a b : Nat) : Bool := !f32IsNan a && !f32IsNan b && cmpV (decodeF fmtFp32 a) (decodeF fmtFp32 b) ≤ 0

/-- Fifth root of a number by one bit of the root for each unit of fuel. -/
def root5Aux : Nat → Nat → Nat → Nat
  | 0, _, r => r
  | k + 1, n, r => let c := r + 2 ^ k; root5Aux k n (if c ^ 5 ≤ n then c else r)

/-- RoundNE(c / 255) (09 R227). -/
def unorm8 (c : Nat) : Nat := ratRound (.ofInt c) (.ofInt 255)

/-- RoundNE(lin(c / 255)) of the sRGB curve (09 R227): the exponent 2.4 is a fifth root of a twelfth power. -/
def srgb8 (c : Nat) : Nat :=
  if c * 100000 ≤ 4045 * 255 then ratRound (.ofInt (c * 100)) (.ofInt (255 * 1292))
  else
    let n := (1000 * c + 14025) ^ 12 * 2 ^ 500 / 269025 ^ 12
    let r := root5Aux 102 n 0
    (roundF fmtFp32 .rne false r (-100) (r ^ 5 * 269025 ^ 12 != (1000 * c + 14025) ^ 12 * 2 ^ 500)).1

/-- Clamp an FP32 image to [0, 1]; a NaN gives +0. -/
def clamp01 (x : Nat) : Nat := if f32IsNan x then 0 else f32Min (f32Max x 0) f32One

/-- The integer nearest to v × 255, ties to even, for a clamped v (09 R227). -/
def packUnorm8 (x : Nat) : Nat :=
  match decodeF fmtFp32 (clamp01 x) with
  | .fin _ m e => (quantize .rne false (m * 255) e false 0).1
  | _ => 0

/-- The integer nearest to 255 × enc(v) of the sRGB curve, for a clamped v (09 R227). -/
def packSrgb8 (x : Nat) : Nat :=
  match decodeF fmtFp32 (clamp01 x) with
  | .fin _ m e =>
    let k := (-e).toNat
    if m * 10000000 ≤ 31308 * 2 ^ k then
      let n := 2 * m * 255 * 1292 + 100 * 2 ^ k
      let d := 2 * 100 * 2 ^ k
      if n % d = 0 && n / d % 2 = 1 then n / d - 1 else n / d
    else
      -- 255 × (1.055 v^(5/12) − 0.055) ≥ j − 1/2 exactly where v^5 ≥ T^12, T = (1000 (2 j − 1) + 28050) / 538050
      ((List.range 255).filter fun i =>
        (1000 * (2 * i + 1) + 28050) ^ 12 * 2 ^ (5 * k) ≤ m ^ 5 * 538050 ^ 12).length
  | _ => 0

end Sys2Proof
end

