-- ==== Sys2Proof/Machine/Fetch.lean ====
section
/-! DEFINITION. Fetch lines, the code directory and the line map (03 R64 to R68). -/

namespace Sys2Proof.Machine

/-- What a look at code gives. -/
inductive CodeRes where
  | ok (line : CodeLine)
  | page (va : W64) (kind : Nat)
  | access
  deriving DecidableEq, Repr

/-- Key of a line in an instruction cache: tenant and line number of the virtual address. -/
def codeKey (tenant line : Nat) : Nat := tenant * 2 ^ 50 + line

/-- An address of 57 bits as one of 64 (14 R293). -/
def va57 (va : Nat) : W64 := (BitVec.ofNat 57 va).signExtend 64
/-- n bytes that the fetch unit reads through translation, from their home; a peer's page gives ACCESS (20 R387). -/
def State.fetchBytes (s : State) (unit tenant : Nat) (acc : AccKind) (x : W64) (n : Nat) : Except CodeRes (List Byte) :=
  match s.translate unit tenant acc x with
  | .ok l =>
    match l.kind with
    | .peer _ => .error .access
    | _ => .ok ((List.range n).map fun i => s.homeByte l.kind (l.addr + i))
  | .page => .error (.page x (if acc = .fetch then 2 else 0))
  | .access => .error .access

/-- The map base of the directory entry that covers a line address (03 R65): entries in ascending order, each examined
one checked before it is compared, with the line's 57-bit address as a number (log 55). -/
def State.dirLookup (s : State) (unit tenant dir a : Nat) : Nat → Nat → Except CodeRes W64
  | 0, _ => .error .access
  | k + 1, i =>
    match s.fetchBytes unit tenant .read (va57 (dir + 32 * i)) 32 with
    | .error e => .error e
    | .ok bs =>
      let base := leNat (bs.take 8)
      let len := leNat ((bs.drop 8).take 8)
      let map := leNat ((bs.drop 16).take 8)
      if base % 128 != 0 || len % 128 != 0 || map % 2 != 0 then .error .access
      else if base ≤ a && a < base + len then .ok (BitVec.ofNat 64 (map + 2 * ((a - base) / 128)))
      else s.dirLookup unit tenant dir a k (i + 1)

/-- A line and its map entry as memory holds them. -/
def State.readLine (s : State) (unit tenant : Nat) (codemap : W64) (line : Nat) : CodeRes :=
  match s.dirLookup unit tenant (fld codemap 8 49 * 256) (128 * line) (fld codemap 0 6 + 1) 0 with
  | .error e => e
  | .ok map =>
    match s.fetchBytes unit tenant .read map 2 with
    | .error e => e
    | .ok mb =>
      match s.fetchBytes unit tenant .fetch (va57 (128 * line)) 128 with
      | .error e => e
      | .ok bs =>
        .ok { map := BitVec.ofNat 16 (leNat mb)
              words := (List.range 8).map fun i => BitVec.ofNat 128 (leNat ((bs.drop (16 * i)).take 16)) }

/-- The reads of a line at the L2: walks, the directory entries that are examined, the map entry and the line (03 R65, 14
R282, R292). -/
def State.fetchUse (s : State) (unit tenant : Nat) (codemap : W64) (line : Nat) : State :=
  let dir := fld codemap 8 49 * 256
  let use (acc : AccKind) (s : State) (x : W64) : State :=
    match s.translate unit tenant acc x with
    | .ok l => (match l.kind with | .mem key => (s.walkUse unit tenant x).l2Use key l.addr false false | _ => s)
    | _ => s.walkUse unit tenant x
  let n := fld codemap 0 6 + 1
  let seen := ((List.range n).find? fun i => match s.dirLookup unit tenant dir (128 * line) (i + 1) 0 with
    | .ok _ => true | .error _ => false).getD (n - 1) + 1
  let s1 := (List.range seen).foldl (fun s i => use .read s (va57 (dir + 32 * i))) s
  match s.dirLookup unit tenant dir (128 * line) n 0 with
  | .ok map => use .fetch (use .read s1 map) (va57 (128 * line))
  | .error _ => s1

/-- The line at an address as a gang fetches it: the copy of the partition's L0 cache or of the core's instruction cache
where one holds it, whatever the gang's CODEMAP (03 R64, R68; log 55). -/
def State.codeLine (s : State) (w : Wg) (codemap : W64) (pc : PCAddr) : CodeRes :=
  let line := pc.toNat / 128
  match (s.l0.getD w.pid []).find? (codeKey w.tenant line) with
  | some c => .ok c
  | none =>
    match (s.icache.getD (coreOf w.pid) []).find? (codeKey w.tenant line) with
    | some c => .ok c
    | none => s.readLine (tlbUnit w.pid) w.tenant codemap line

def wordIdx (pc : PCAddr) : Nat := pc.toNat / 16 % 8
def CodeLine.start (c : CodeLine) (i : Nat) : Bool := c.map.getLsbD i
def CodeLine.target (c : CodeLine) (i : Nat) : Bool := c.map.getLsbD (8 + i)
def CodeLine.word (c : CodeLine) (i : Nat) : IWord := c.words.getD i 0

/-- What the fetch unit makes of the word at an index of a line: an instruction with the line-map or continuation rule
that it breaks, or the subcode of an encoding that is no instruction (03 R58, R66, R72). -/
def CodeLine.decodeAt (c : CodeLine) (i : Nat) : Except (BitVec 8) (Instr × Option (BitVec 8)) :=
  if !c.start i then .error 0x08
  else
    match decodeCore (c.word i) (if i = 7 then 0 else c.word (i + 1)) with
    | .error e => .error e
    | .ok ins =>
      let n := ins.wordCount
      let ext : Option (BitVec 8) :=
        if n = 2 && i = 7 then some 0x0C
        else if n = 2 && (c.start (i + 1) || c.target (i + 1)) then some 0x09
        else match ins.contOwner with
          | some own => if isCont own (c.word (i + 1)) then none else some 0x0A
          | none => if i + n ≤ 7 && clsOf (c.word (i + n)) = 0xF then some 0x0A else none
      .ok (ins, ext)

/-- The check of a branch, call or return to an address (03 R66): alignment, then the target bit. An address that no
directory entry covers faults at its first fetch (04 R103). -/
def State.targetCheck (s : State) (w : Wg) (codemap : W64) (x : W64) : Check :=
  if fld x 0 4 != 0 then .trap Cause.align x
  else
    let pc : PCAddr := x.setWidth 57
    match s.codeLine w codemap pc with
    | .ok c => if c.target (wordIdx pc) then .ok else .trap Cause.cfTarget x
    | .page va k => .codePage va k (va57 (pc.toNat / 128 * 128))
    | .access => .ok

end Sys2Proof.Machine
end

