-- ==== Sys2Proof/Machine/Ctrl.lean ====
section
/-! DEFINITION. The CTRL class (04 R103 to R109) and the special registers (03 Table 34). -/

namespace Sys2Proof.Machine

/-- Drain and wait for nothing else: the issuing core's part of FENCE.SC at .SYS (04 R107). -/
def State.fenceSc (s : State) (core scope : Nat) : State := (s.drainScope core scope).acquireCore core scope

/-- The bin reserve of a core partition: the largest base among the spawn entries of the launches resident in it
(05 R123). -/
def State.binReserve (s : State) (pid : Nat) : Nat :=
  s.wgs.foldl (fun m e =>
    if e.2.pid = pid && e.2.status = .resident then
      match s.launches.find? e.2.launch with
      | some L => L.spawns.foldl (fun m x => max m x.base) m
      | none => m
    else m) 0

/-- Entries charged to the gangs of a core partition. -/
def State.poolUsed (s : State) (pid : Nat) : Nat :=
  s.gangs.foldl (fun n e =>
    match s.wgs.find? e.2.wg with
    | some w => if w.pid = pid && w.status = .resident then n + e.2.base + e.2.xcount else n
    | none => n) 0

/-- XFREE, 05 R123. -/
def State.xfree (s : State) (pid : Nat) : Nat := 1024 - (s.poolUsed pid + s.binReserve pid)

/-- CAPS, 18 Table 134. -/
def State.caps (s : State) (part : Nat) : W64 :=
  let no := match s.part with | .j96 => 0 | .j96n => 1 | .j92 => 2
  BitVec.ofNat 64 (no + 4 * b2n (s.dies = 2) + 8 + 16 * b2n s.hasHeads + 32 * b2n s.hasHeads + 2 ^ 8 * s.stacks
    + 2 ^ 16 * (s.fwver % 2 ^ 16) + 2 ^ 32 * b2n (s.microcode.find? part).isSome)

/-- A special register as SREAD returns it to a lane (01 Table 8, 05 Table 46, 03 Table 34). ISSUECNT does not count the
SREAD's own cycle (log 54). -/
def State.special (s : State) (c : Ctx) (l : Nat) (n : Nat) : W64 :=
  let g := c.r
  let w := c.wg
  let num (x : Nat) : W64 := BitVec.ofNat 64 x
  match s.launches.find? w.launch with
  | none => 0
  | some L =>
    match n with
    | 0x00 => num l
    | 0x01 => num (l / 4)
    | 0x02 => num (l / 8)
    | 0x03 => num (g.idx + 2 ^ 8 * g.slotOf 0 + 2 ^ 12 * (w.pid % 4))
    | 0x04 => num w.wgid
    | 0x05 => num (L.count + 2 ^ 32 * (w.count - 1))
    | 0x06 => num w.launch
    | 0x07 => num (coreOf w.pid % 8)
    | 0x08 => num (clusterOf w.pid % 24)
    | 0x09 => num (dieOf w.pid)
    | 0x0A => num s.pkg
    | 0x10 => c.act.setWidth 64
    | 0x11 => g.liveMask.setWidth 64
    | 0x18 => g.issuecnt
    | 0x19 => num (s.ceil + 2 ^ 16 * s.ceilNext)
    | 0x1A => s.creg (.cluster (clusterOf w.pid)) 0
    | 0x1B => s.fabtime
    | 0x20 => g.trapbase
    | 0x21 => g.trapcause
    | 0x22 => g.trappc
    | 0x23 => g.trapaddr
    | 0x28 => g.codemap
    | 0x29 => num g.xcount
    | 0x2A => num (s.xfree w.pid)
    | 0x30 => g.fpstat
    | 0x31 => num L.rank
    | 0x32 => num L.gsize
    | 0x33 => s.caps L.part
    | _ => 0

/-- The bits of a special register that SWRITE writes (02 Table 16, 05 Table 45). -/
def srMask (n : Nat) : W64 :=
  match n with
  | 0x20 => 0x01FFFFFFFFFFFFF1
  | 0x21 => 0x1FFF
  | 0x22 => 0x01FFFFFFFFFFFFF0
  | 0x23 => 0xFFFFFFFFFFFFFFFF
  | 0x30 => 0x1011F
  | _ => 0

/-- SWRITE to a register that the gang may not write raises PRIV (04 R108, 05 R137). -/
def srPriv (g : Gang) (n : Nat) : Option W64 :=
  let ok := n = 0x20 || n = 0x30 || (g.handler && (n = 0x21 || n = 0x22 || n = 0x23))
  if ok then none else some (BitVec.ofNat 64 n)

def Gang.writeSpecial (g : Gang) (n : Nat) (x : W64) : Gang :=
  let v := x &&& srMask n
  match n with
  | 0x20 => { g with trapbase := v }
  | 0x21 => { g with trapcause := v }
  | 0x22 => { g with trappc := v }
  | 0x23 => { g with trapaddr := v }
  | 0x30 => { g with fpstat := v }
  | _ => g

/-- Words issued before have written their results and raised their flags (02 R39). A matrix word counts from its lanes'
arrival at the rendezvous (log 54). -/
def Gang.resultsDone (g : Gang) : Bool := g.prods.isEmpty && g.waits.all fun w => w.kind != .lathe && w.kind != .matrix

/-- Access to FPSTAT waits for earlier words of the gang (02 R39). -/
def fpstatWait (n : Nat) (c : Ctx) (s : State) : Check :=
  match s.gangs.find? c.gid with
  | some g => if n = 0x30 && c.act != 0 && !g.resultsDone then .wait .operand else .ok
  | none => .ok

/-- The gang at the cursor. -/
def State.curGang? (s : State) : Option Gang :=
  match s.cur with
  | none => none
  | some cu => s.gangs.find? cu.gang

/-- The gang at the cursor as its word reads it: before the first word of the same cycle (05 R116). -/
def State.curRead? (s : State) : Option Gang :=
  match s.cur with
  | none => none
  | some cu => (s.gangs.find? cu.gang).map fun g => cu.snap.getD g

def ctrlUseOf (w : CtrlW) : WordUse := { active := guardOf w.g }

def execNop (w : CtrlW) : State → Out := coreWord (.nop w) (ctrlUseOf w) noChk fun _ s => s
/-- FUSE: units with lanes at the word merge, as the common operation does for a gang-collective word (05 R119). -/
def execFuse (w : CtrlW) : State → Out := coreWord (.fuse w) { ctrlUseOf w with collective := true } noChk fun _ s => s
def execYield (w : CtrlW) : State → Out :=
  coreWord (.yield w) (ctrlUseOf w) noChk (onGang fun _ g => { g with yielded := true })

/-- PC + 16 × IMM (03 R52). -/
def relTarget (pc : PCAddr) (imm : W32) : PCAddr := pc + (imm.signExtend 57) * 16

/-- Every target of the active lanes passes the checks of 03 R66, lowest lane first. -/
def targetsCheck (f : Ctx → Nat → W64) (c : Ctx) (s : State) : Check :=
  (lanesOf c.act).foldl (fun k l => k.next (s.targetCheck c.wg c.r.codemap (f c l))) .ok

/-- The check of a branch's targets in step 2 of 03 R72, where its sources can be read (log 56). -/
def branchFirst (u : WordUse) (f : Ctx → Nat → W64) (s : State) : Check :=
  match s.ctxOf u with
  | none => .ok
  | some c =>
    match s.gangs.find? c.gid with
    | none => .ok
    | some g =>
      let srcs : WordUse := { u with dsts := [], evens := (u.srcs.filter fun v => v.count = 2).map (·.reg) }
      if laneChecks c g srcs = .ok then targetsCheck f c s else .ok

/-- A branch in each active lane, with a link where `link` gives a pair (04 Table 42). -/
def branchWord (i : Instr) (u : WordUse) (link : Option Nat) (f : Ctx → Nat → W64) (s : State) : Out :=
  coreWord i { u with first := branchFirst u f s } noChk
    (eachLane fun c g l =>
      let g1 := match link with
        | some d => g.setV64 l d (pcImage (c.pc + 16))
        | none => g
      g1.setPc (BitVec.ofNat 32 (2 ^ l)) ((f c l).setWidth 57)) s

def execBra (w : CtrlW) : State → Out :=
  branchWord (.bra w) (ctrlUseOf w) none fun c _ => pcImage (relTarget c.pc w.imm)
def execBrx (w : CtrlW) : State → Out :=
  branchWord (.brx w) { ctrlUseOf w with ssrcs := [w.sa.toNat] } none fun c _ => c.r.s w.sa.toNat
def linkUse (w : CtrlW) : WordUse := { ctrlUseOf w with dsts := [(w.vd.toNat, 2)], evens := [w.vd.toNat] }
def execCall (w : CtrlW) : State → Out :=
  branchWord (.call w) (linkUse w) (some w.vd.toNat) fun c _ => pcImage (relTarget c.pc w.imm)
def execCallx (w : CtrlW) : State → Out :=
  branchWord (.callx w) { linkUse w with ssrcs := [w.sa.toNat] } (some w.vd.toNat) fun c _ => c.r.s w.sa.toNat
def execRet (w : CtrlW) : State → Out :=
  branchWord (.ret w)
    { ctrlUseOf w with
      srcs := [{ reg := w.va.toNat, count := 2, trap := w.ea = 1, perm := w.pma }]
      evens := [w.va.toNat] } none
    fun c l => c.r.v64 (permSrc w.pma l) w.va.toNat

/-- A command names the .S or .C space: an end, its index list or its signal word. -/
def EngCmd.namesScr (k : EngCmd) : Bool :=
  let scr (sp : Nat) : Bool := sp = 1 || sp = 2
  scr k.srcSp || scr k.dstSp || (k.op = 1 || k.op = 2) && scr k.idxSp
    || match k.sig with | some x => scr (fld x 60 2) | none => false
/-- No engine command of the workgroup that names .S or .C is outstanding (12 R262). -/
def State.engineIdle (s : State) (wid : Nat) : Bool :=
  s.engines.all fun e => e.2.all fun k => !(k.wg = wid && k.task.isNone && k.namesScr)

/-- Look at every barrier that a change of the gang's lanes can open. -/
def State.checkBarriers (s : State) (wid : Nat) : State :=
  match s.wgs.find? wid with
  | none => s
  | some w =>
    let s1 := (List.range 16).foldl (fun s b => s.checkBar wid b) s
    let s2 := (List.range 5).foldl (fun s b => s.checkBarc wid b s.engineIdle) s1
    (List.range 4).foldl (fun s b => s.checkBarg w.launch b) s2

/-- Lanes with no v-register empty (01 R19). -/
def Gang.fullLanes (g : Gang) (m : LaneMask) : LaneMask := m &&& maskWhere fun l => !(g.empty.any fun k => k < 8192 && k / 256 = l)

/-- The exit of these lanes would end a cluster-group member that has not passed the final barrier (12 R263). -/
def Wg.clusterExit (w : Wg) (gid : Nat) (g : Gang) (m : LaneMask) : Bool :=
  w.groupSize != 0 && !w.passedFinal && g.liveMask &&& ~~~m = 0 && w.gangs = [gid]

def exitCheck (c : Ctx) (s : State) : Check :=
  match s.gangs.find? c.gid with
  | none => .ok
  | some g =>
    if c.act != 0 && c.wg.clusterExit c.gid g (g.fullLanes c.act) then .trap Cause.clusterExit 0 else .ok

/-- Lanes become exited: a gang with no live lane ends, and otherwise barriers are looked at (01 R12, R13). -/
def State.exitNow (s : State) (gid : Nat) (m : LaneMask) : State :=
  let s1 := s.updGang gid fun g => (g.exitLanes m).freeDead
  match s1.gangs.find? gid with
  | none => s1
  | some g => if g.liveMask = 0 then s1.endGang gid false s1.engineIdle else s1.checkBarriers g.wg

/-- EXIT, 04 R105: a lane whose registers are not all full waits at the word (01 R19). -/
def execExit (w : CtrlW) : State → Out :=
  coreWord (.exit w) (ctrlUseOf w) exitCheck fun c s =>
    match s.gangs.find? c.gid with
    | none => s
    | some g =>
      let now := g.fullLanes c.act
      let later := c.act &&& ~~~now
      let s1 := if later = 0 then s else s.updGang c.gid fun g => (g.setPc later c.pc).addWait later .exit
      if now = 0 then s1 else s1.exitNow c.gid now

/-- A trap whose TRAPPC is the next word (04 R106). -/
def codeTrap (i : Instr) (w : CtrlW) (cause : Nat) : State → Out :=
  coreWord i (ctrlUseOf w) noChk fun c s =>
    if c.act = 0 then s else s.takeTrap c.gid c.grp cause (pcImage (c.pc + 16)) (w.imm.setWidth 64)
def execTrap (w : CtrlW) : State → Out := codeTrap (.trap w) w Cause.swTrap
def execBrk (w : CtrlW) : State → Out := codeTrap (.brk w) w Cause.brk

/-- SREAD, 04 R108. -/
def execSread (w : CtrlW) : State → Out :=
  let n := w.imm.toNat % 256
  coreWord (.sread w) { ctrlUseOf w with dsts := if w.vx = 1 then [(w.vd.toNat, 1)] else [] } (fpstatWait n) fun c s =>
    onGang (fun c g =>
      if w.vx = 1 then (lanesOf c.act).foldl (fun g l => g.setV l w.vd.toNat ((s.special c l n).setWidth 32)) g
      else g.setS w.sd.toNat (s.special c (lowLane c.act) n)) c s

/-- SWRITE, 04 R108. -/
def execSwrite (w : CtrlW) (s : State) : Out :=
  let n := w.imm.toNat % 256
  coreWord (.swrite w)
    { ctrlUseOf w with
      srcs := if w.vx = 1 then [{ reg := w.va.toNat, trap := w.ea = 1, perm := w.pma }] else []
      ssrcs := if w.vx = 1 then [] else [w.sa.toNat]
      priv := match s.curGang? with | some g => srPriv g n | none => none }
    (fpstatWait n)
    (onGang fun c g =>
      g.writeSpecial n
        (if w.vx = 1 then (c.r.v (permSrc w.pma (lowLane c.act)) w.va.toNat).setWidth 64 else c.r.s w.sa.toNat))
    s

/-- ERET, 04 R109; with an empty active set it has no effect. -/
def execEret (w : CtrlW) (s : State) : Out :=
  coreWord (.eret w)
    { ctrlUseOf w with
      priv := match s.curGang? with | some g => if g.handler then none else some 0xFFFF | none => none }
    noChk (fun c s => (onGang (fun _ g => g.leaveHandler) c s).pruneMonitors) s

/-- The bytes that LOG names, none where an address is not readable (18 Table 135). -/
def State.logBytes (s : State) (c : Ctx) (a : W64) (n : Nat) : Option (List Byte) :=
  (List.range n).foldr (fun i acc =>
    match acc, s.translate (tlbUnit c.wg.pid) c.wg.tenant .read (a + BitVec.ofNat 64 i) with
    | some bs, .ok p => some (s.loadByte c.core false p.kind p.addr :: bs)
    | _, _ => none) (some [])

/-- Pages that LOG's bytes miss are served as those of any access (14 R413; log 14). -/
def State.logPages (s : State) (c : Ctx) : Check :=
  let len := (c.r.s 2).toNat
  let xs := if 1 ≤ len && len ≤ 4096 then [c.r.s 1, c.r.s 1 + BitVec.ofNat 64 (len - 1)] else []
  match xs.filter fun x => s.translate (tlbUnit c.wg.pid) c.wg.tenant .read x = .page with
  | [] => .ok
  | x :: ys => .page (x :: ys.filter fun y => fld y 16 48 != fld x 16 48) 0

/-- The host-interface core services a call (18 R368). Where the spec gives no result (an unreadable or over-long LOG,
the ring's capacity), the value of s0 is free (log 14). -/
def State.serviceCall (s : State) (c : Ctx) (n : Nat) : State :=
  let setS01 (s : State) (a b : W64) : State := s.updGang c.gid fun g => (g.setS 0 a).setS 1 b
  let setS0 (s : State) (a : W64) : State := s.updGang c.gid fun g => g.setS 0 a
  match n with
  | 0 => setS01 s (BitVec.ofNat 64 s.fwver) (BitVec.ofNat 64 s.secver)
  | 1 =>
    let len := (c.r.s 2).toNat
    let (k, s1) := s.takeFree
    match (if 1 ≤ len && len ≤ 4096 then s.logBytes c (c.r.s 1) len else none) with
    | none => setS0 s1 (Config.freeW64 k)
    | some bs =>
      if Config.freeBool k then setS0 s1 0
      else
        setS0 { s1 with hostlog := s1.hostlog.put [] c.wg.tenant (s1.hostlog.getD c.wg.tenant [] ++ bs) }
          (BitVec.ofNat 64 len)
  | 2 => setS01 s s.fabtime (BitVec.ofNat 64 (1000 * s.ceil))
  | 3 => s.terminate c.r.wg { cause := Cause.swTrap, pc := pcImage c.pc, addr := c.r.s 1 }
  | _ => setS0 s 0xFFFFFFFFFFFFFFFF

/-- An earlier matrix word of the gang has accesses still to make (08 R203). -/
def Gang.matrixBusy (g : Gang) : Bool := g.qops.any fun o => o.phase != .rendezvous
/-- A word that orders the gang's earlier accesses waits for its earlier matrix words (08 R203), and at .SYS for its writes
that are on their way to peers (15 R308, 20 R389). -/
def orderWait (sys : Bool) (c : Ctx) (s : State) : Check :=
  match s.gangs.find? c.gid with
  | some g => if c.act != 0 && (g.matrixBusy || (sys && s.peerWrites c.gid 0)) then .wait .operand else .ok
  | none => .ok

/-- SYSCALL, 04 R107: a FENCE.SC at .SYS that reads s0 to s7; the gang waits while the host-interface core does not run. -/
def execSyscall (w : CtrlW) : State → Out :=
  coreWord (.syscall w) { ctrlUseOf w with ssrcs := List.range 8 }
    (fun c s => (orderWait true c s).next
      (if c.act = 0 then .ok else if !s.fwUp 0 then .wait .ticket else if w.imm = 1 then s.logPages c else .ok)) fun c s =>
    let s1 := s.updWg c.r.wg fun v => { v with noWrite := false }
    if c.act = 0 then s1 else (s1.fenceSc c.core 4).serviceCall c w.imm.toNat

/-- SLEEP, 04 R107. -/
def execSleep (w : CtrlW) : State → Out :=
  coreWord (.sleep w) { ctrlUseOf w with ssrcs := if w.i = 1 then [] else [w.sa.toNat] } noChk fun c s =>
    onGang (fun c g =>
      let n := if w.i = 1 then w.imm.toNat else (c.r.s w.sa.toNat).toNat % 2 ^ 32
      if n = 0 then g else g.addWait c.act (.sleep (s.fabtime.toNat + n))) c s

end Sys2Proof.Machine
end

