-- ==== Sys2Proof/Machine/Mem.lean ====
section
/-! DEFINITION. The MEM class: loads, stores, atomics, the ordering prefix, fences and WAITC (07 R160 to R184), with the
monitors of 14 R285. -/

namespace Sys2Proof.Machine

/-- Width in bytes. -/
def memBytes (w : MemW) : Nat := 2 ^ w.wd.toNat

/-- The sum x of a lane (07 R160). -/
def memX (w : MemW) (c : Ctx) (l : Nat) : W64 :=
  (if w.nb = 1 then 0 else c.r.s w.sb.toNat)
    + (if w.vx = 1 then (c.r.v (permSrc w.pma l) w.va.toNat).setWidth 64 else 0)
    + w.imm.signExtend 64

/-- Place of a vault address: entry v of the partition's vault map (14 Table 106). -/
def State.vaultOf (s : State) (part v : Nat) : Option Nat :=
  let e := s.creg (.part part) (0x5000 + 2 * v)
  let die := fld e 6 1
  if e.getLsbD 15 && fld e 0 6 < 48 && die < s.dies then some (die * 48 + fld e 0 6) else none

/-- The member of a workgroup's cluster group with an index. -/
def State.memberOf (s : State) (w : Wg) (m : Nat) : Option (Nat × Wg) :=
  (s.groupOf w).find? fun e => e.2.wgid % w.groupSize = m

/-- The place that x names in a space, where it passes the checks of 07 R166. -/
def State.placeOf (s : State) (wid : Nat) (w : Wg) (sp : Nat) (acc : AccKind) (x : W64) : Option Loc :=
  match sp with
  | 0 => (match s.translate (tlbUnit w.pid) w.tenant acc x with | .ok l => some l | _ => none)
  | 1 => some { kind := .scr wid, addr := x.toNat }
  | 2 => (s.memberOf w (fld x 18 3)).map fun e => { kind := .scr e.1, addr := fld x 0 18 }
  | _ => (s.vaultOf (s.tenantPart w.tenant) (fld x 22 7)).map fun v => { kind := .vault, addr := v * 2 ^ 22 + fld x 0 22 }

/-- The checks of an access of n bytes, in the order of 07 R166 and Table 55. -/
def State.accStages (s : State) (w : Wg) (sp n : Nat) (acc : AccKind) : List (W64 → Check) :=
  let bounds (p : W64 → Bool) : W64 → Check := fun x => if p x then .trap Cause.bounds x else .ok
  let access (p : W64 → Bool) : W64 → Check := fun x => if p x then .trap Cause.access x else .ok
  let align : W64 → Check := fun x => if x.toNat % n != 0 then .trap Cause.align x else .ok
  match sp with
  | 0 =>
    [access fun x => fld x 57 7 != (if x.getLsbD 56 then 127 else 0), align, fun x =>
      match s.translate (tlbUnit w.pid) w.tenant acc x with
      | .ok _ => .ok
      | .page => .page [x] (if acc = .write then 1 else 0)
      | .access => .trap Cause.access x]
  | 1 => [bounds fun x => w.scrLen < x.toNat + n, align]
  | 2 =>
    [access fun _ => w.groupSize = 0 || w.passedFinal, bounds fun x => fld x 21 43 != 0,
     bounds fun x => w.groupSize ≤ fld x 18 3, bounds fun x => w.scrLen < fld x 0 18 + n,
     access fun x => match s.memberOf w (fld x 18 3) with | some e => e.2.passedFinal | none => true, align]
  | _ =>
    [bounds fun x => fld x 29 35 != 0, bounds fun x => 96 ≤ fld x 22 7,
     access fun x => (s.vaultOf (s.tenantPart w.tenant) (fld x 22 7)).isNone, align]

/-- Every check at every lane, each check over all lanes before the next. -/
def runStages (stages : List (W64 → Check)) (xs : List W64) : Check :=
  stages.foldl (fun k f => xs.foldl (fun k x => k.next (f x)) k) .ok

/-- The lanes whose addresses a word uses. -/
def memLanes (c : Ctx) (low : Bool) : List Nat :=
  if c.act = 0 then [] else if low then [lowLane c.act] else lanesOf c.act

/-- The missing translations of every lane, where the first is one (07 R166). -/
def State.allPages (s : State) (w : Wg) (acc : AccKind) (xs : List W64) : Check → Check
  | .page vas k => .page (xs.foldl (fun (a : List W64) x =>
      if s.translate (tlbUnit w.pid) w.tenant acc x = .page && !(a.any fun y => fld y 16 48 = fld x 16 48) then a ++ [x] else a)
      vas) k
  | r => r
/-- A carrier with REL, AR or SC waits for what it orders (07 R177, 08 R203, 20 R389). -/
def carrierWait (c : Ctx) (s : State) : Check :=
  match c.pfx with
  | some o => if 2 ≤ o.order then orderWait (o.scope = 4) c s else .ok
  | none => .ok

def accessCheck (w : MemW) (acc : AccKind) (low : Bool) (c : Ctx) (s : State) : Check :=
  let xs := (memLanes c low).map (memX w c)
  (s.allPages c.wg acc xs (runStages (s.accStages c.wg w.sp.toNat (memBytes w) acc) xs)).next (carrierWait c s)

/-- The place of a lane's access. -/
def lanePlace (w : MemW) (acc : AccKind) (c : Ctx) (s : State) (l : Nat) : Loc :=
  (s.placeOf c.r.wg c.wg w.sp.toNat acc (memX w c l)).getD { kind := .vault, addr := 0 }

/-! ### Accesses at the L2 slices (14 R282 to R284, 16 R316) -/

/-- The marks of a task are cleared. -/
def State.clearResident (s : State) (id : Nat) : State :=
  { s with l2 := s.l2.mapVals fun (m : SMap L2Way) => m.mapVals fun (w : L2Way) =>
      if w.resident = some id then { w with resident := none } else w }
/-- OCC of a slice for a tenant. -/
def State.l2Occ (s : State) (slice t : Nat) : Nat :=
  s.l2.foldl (fun n e => if e.1 / 128 = slice then n + (e.2.filter fun w => w.2.tenant = t).length else n) 0

/-- An access of n bytes at a place: absent memory is noted, the access passes the L2, and a read of a peer's bytes goes
out as a request (20 R387). -/
def State.touch (s : State) (n : Nat) (p : Loc) (byp wr : Bool) : State :=
  match p.kind with
  | .mem key => (s.checkPa p.addr).l2Use key p.addr byp wr
  | .peer e => { (if wr then s else s.peerSend e p.addr (.read n) s.curGid 0) with freeCtr := s.freeCtr + 1 }
  | _ => s

/-- A tenant's accesses move bytes at a vault or over the fabric (17 R344). -/
def State.useBytes (s : State) (tenant n : Nat) : State :=
  { s with useBw := s.useBw.put 0 tenant (s.useBw.getD tenant 0 + n) }
/-- An access of n bytes that a tenant's unit makes: what moves at HBM is counted at the L2. -/
def State.touchFor (s : State) (tenant n : Nat) (p : Loc) (byp : Bool := false) (wr : Bool := false) : State :=
  match p.kind with
  | .peer _ => (s.touch n p byp wr).useBytes tenant n
  | .vault => s.useBytes tenant n
  | _ => s.touch n p byp wr

/-! ### Travel to the vaults (14 R287 to R291) -/

/-- Position of a vault of a die: row and column. -/
def vaultPos (u : Nat) : Nat × Nat := let c := u / 2; (c / 6, 2 * (c % 6) + u % 2)
/-- The vault above a core of the package. -/
def vaultOverCore (core : Nat) : Nat := core / 192 * 48 + core / 8 % 24 * 2 + core % 8 / 4

/-- Steps of a line between two coordinates: the coordinate each link leaves and whether it goes up. -/
def lineSteps (a b : Nat) : List (Nat × Bool) :=
  if a ≤ b then (List.range (b - a)).map fun i => (a + i, true) else (List.range (a - b)).map fun i => (a - i, false)
/-- A link's number: die, row, column, direction 0 right, 1 left, 2 down, 3 up; 4 + i: stage i of a die link. -/
def linkNo (die row col dir : Nat) : Nat := ((die * 4 + row) * 16 + col) * 16 + dir
/-- Links of the path from a core's vault position to a vault: along the row, then along the column (14 R288). -/
def vaultPath (src dst : Nat) : List Nat :=
  let (r1, c1) := vaultPos (src % 48)
  let (r2, c2) := vaultPos (dst % 48)
  let d1 := src / 48
  let d2 := dst / 48
  let row (die r a b : Nat) : List Nat := (lineSteps a b).map fun x => linkNo die r x.1 (if x.2 then 0 else 1)
  let col (die c a b : Nat) : List Nat := (lineSteps a b).map fun x => linkNo die x.1 c (if x.2 then 2 else 3)
  if d1 = d2 then row d1 r1 c1 c2 ++ col d1 c2 r1 r2
  else row d1 r1 c1 11 ++ (List.range 8).map (fun i => linkNo d1 r1 11 (4 + i)) ++ row d2 r1 11 c2 ++ col d2 c2 r1 r2
/-- T(h): master cycles of a journey over h links (14 R289). -/
def vaultTime (src dst : Nat) : Nat := 18 + 6 * (vaultPath src dst).length

/-- The slots that the plans of a core's workgroups own for the vault of a place (14 R290, R291). -/
def State.ownedSlots (s : State) (core : Nat) (p : Loc) : List Nat :=
  match p.kind with
  | .vault => s.wgs.flatMap fun e =>
      if coreOf e.2.pid = core && e.2.status = .resident then
        (e.2.slots.filter fun x => x / 64 = p.addr / 2 ^ 22).map (· % 64) else []
  | _ => []
/-- An access of a core, at the moment it is performed: a vault access is counted in the best-effort class. -/
def State.touchAt (s : State) (core tenant n : Nat) (p : Loc) (byp : Bool := false) (wr : Bool := false) : State :=
  let s1 := s.touchFor tenant n p byp wr
  match p.kind with
  | .vault => s1.setCreg (.core core) 0x148 (s1.creg (.core core) 0x148 + 1)
  | _ => s1
/-- A vault access joins its gang's accesses that are on their way: in the owned class where its core owns slots for the
vault, otherwise in the best-effort class, and it is counted there. -/
def State.sendVault (s : State) (c : Ctx) (n prod : Nat) (p : Loc) (act : VaultAct) : State :=
  let s1 := s.useBytes c.wg.tenant n
  let slots := s.ownedSlots c.core p
  let ctr := if slots.isEmpty then 0x148 else 0x140
  { s1.setCreg (.core c.core) ctr (s1.creg (.core c.core) ctr + 1) with
    vops := s1.vops ++ [{ core := c.core, gang := c.gid, prod := prod, addr := p.addr, act := act, slots := slots
                          dist := vaultTime (vaultOverCore c.core) (p.addr / 2 ^ 22)
                          acq := c.pfx.bind fun o => if o.order = 1 || 3 ≤ o.order then some o.scope else none
                          sentAt := none, performed := false }] }

/-- A release at a scope drains before the carrier (07 R177, R181; 15 R301); an acquire gives up old copies. -/
def State.beforeCarrier (s : State) (core : Nat) (p : Option OrdPfx) : State :=
  match p with
  | some o => if 2 ≤ o.order then s.drainScope core o.scope else s
  | none => s
def State.afterCarrier (s : State) (core : Nat) (p : Option OrdScope) : State :=
  match p with
  | some o => if o.order = 1 || 3 ≤ o.order then s.acquireCore core o.scope else s
  | none => s
def pfxScope (p : Option OrdPfx) : Option OrdScope := p.map fun o => { order := o.order, scope := o.scope }

/-- The walks of a word's addresses (14 R292). -/
def memWalks (w : MemW) (low : Bool) (c : Ctx) (s : State) : State :=
  if w.sp = 0 then s.walksUse (tlbUnit c.wg.pid) c.wg.tenant ((memLanes c low).map (memX w c)) else s
/-- The access of a carrier: nothing with an empty active set (07 R168). f takes the state in which the checks and the
addresses were read, and the state after a release's drains and the walks. -/
def carrierBody (w : MemW) (low : Bool) (f : Ctx → State → State → State) (c : Ctx) (s : State) : State :=
  if c.act = 0 then s
  else (f c s (memWalks w low c (s.beforeCarrier c.core c.pfx))).afterCarrier c.core (pfxScope c.pfx)

/-- The address sources of a word. -/
def memAddrSrcs (w : MemW) (low : Bool) : List VSrc :=
  if w.vx = 1 then [{ reg := w.va.toNat, trap := w.ea = 1, perm := w.pma, low := low }] else []
def memUseOf (w : MemW) (srcs : List VSrc) (low : Bool) : WordUse :=
  { active := guardOf w.g, srcs := memAddrSrcs w low ++ srcs, ssrcs := if w.nb = 1 then [] else [w.sb.toNat],
    carrier := true }

/-- Number of registers of a data operand, and its alignment (07 R165). -/
def memRegs (w : MemW) : Nat := (memBytes w + 3) / 4
def memEvens (w : MemW) (rs : List VSrc) : List Nat := if memRegs w = 2 then rs.map (·.reg) else []
def memQuads (w : MemW) (rs : List VSrc) : List Nat := if memRegs w = 4 then rs.map (·.reg) else []
def memData (w : MemW) : VSrc := { reg := w.vd.toNat, count := memRegs w, trap := w.ed = 1 }
def memOperand (w : MemW) : VSrc := { reg := w.vb.toNat, count := memRegs w, trap := w.eb = 1, perm := w.pmb }

/-- Register j of a loaded value of n bytes. -/
def loadReg (n : Nat) (sx : Bool) (v j : Nat) : W32 :=
  let x : W32 := BitVec.ofNat 32 (v / 2 ^ (32 * j))
  if n < 4 && sx then (BitVec.ofNat (8 * n) v).signExtend 32 else x

/-- A multi-register value of a lane. -/
def laneNat (g : Gang) (l r k : Nat) : Nat :=
  (List.range k).foldl (fun a j => a + (g.v l (r + j)).toNat * 2 ^ (32 * j)) 0

/-- A .G store or atomic ends the workgroup's right to be flushed (17 R347). -/
def State.wrote (s : State) (wid : Nat) : State := s.updWg wid fun v => { v with noWrite := false }

/-- A load's read: values by lane, poison, and the state after. -/
def State.readLane (s : State) (core tenant pl : Nat) (p : Loc) (n : Nat) : Nat × Bool × State :=
  let str := pl = 2
  let s1 := s.touchAt core tenant n p (pl = 1)
  let v := s1.loadNat core str p n
  let s2 := match p.kind with | .mem _ => if str then s1 else s1.dropL1 core (p.addr / 128) | _ => s1
  (v, s1.loadPoisoned core str p n, s2)

/-- Accesses of a gang that are not performed yet. -/
def State.vaultOpen (s : State) (gid : Nat) : Bool := s.vops.any fun o => o.gang = gid && !o.performed
/-- The accesses of a .V word are performed later, in their order: one of them has an owned slot, or an earlier access of the
gang is still on its way (14 R291, 15 R299). -/
def vaultLater (w : MemW) (acc : AccKind) (c : Ctx) (s : State) (ls : List Nat) : Bool :=
  w.sp = 3 && (s.vaultOpen c.gid || ls.any fun l => !(s.ownedSlots c.core (lanePlace w acc c s l)).isEmpty)

/-- The keys of a lane's data registers. -/
def dataKeys (w : MemW) (l : Nat) : List Nat := (List.range (memRegs w)).map fun j => vkey l (w.vd.toNat + j)
/-- Destinations of a loaded value. -/
def loadDests (w : MemW) (l v : Nat) (bad : Bool) : List Dest :=
  (List.range (memRegs w)).map fun j =>
    { key := vkey l (w.vd.toNat + j), val := (loadReg (memBytes w) (w.sx = 1) v j).setWidth 64, poison := bad }
/-- Reads that are performed later join a word's producer, whose values they bring. -/
def State.sendReads (s : State) (w : MemW) (c : Ctx) (sp : State) (prod : Nat) (ls : List Nat) (keys : Nat → List Nat) : State :=
  ls.foldl (fun s l => s.sendVault c (memBytes w) prod (lanePlace w .read c sp l)
    (.read (memBytes w) (w.sx = 1) (keys l))) s
/-- The number that a gang's next producer gets. -/
def State.nextProd (s : State) (gid : Nat) : Nat := match s.gangs.find? gid with | some g => g.nextId | none => 0

def execLd (w : MemW) : State → Out :=
  let n := memBytes w
  coreWord (.ld w)
    { memUseOf w [] false with
      dsts := [(w.vd.toNat, memRegs w)], evens := memEvens w [memData w], quads := memQuads w [memData w]
      producer := true }
    (accessCheck w .read false)
    (carrierBody w false fun c sp s =>
      let ls := lanesOf c.act
      if vaultLater w .read c sp ls then
        (s.sendReads w c sp (s.nextProd c.gid) ls (dataKeys w)).updGang c.gid fun g =>
          g.addProducer (ls.flatMap fun l => loadDests w l 0 false) false 0
      else
        let r := ls.foldl (fun (a : State × List Dest) l =>
          let (v, bad, s1) := a.1.readLane c.core c.wg.tenant w.pl.toNat (lanePlace w .read c sp l) n
          (s1, a.2 ++ loadDests w l v bad)) (s, [])
        r.1.updGang c.gid fun g => g.addProducer r.2 true 0)

/-- A lane's store at its place: .STR into the buffer, whose drain is its access at the L2 (07 R163). -/
def State.storeLane (s : State) (w : MemW) (c : Ctx) (p : Loc) (bs : List Byte) : State :=
  match p.kind with
  | .mem key =>
    if w.pl = 2 then (s.checkPa p.addr).strStore c.core p key c.wg.tenant c.wg.launch bs
    else ((s.touchAt c.core c.wg.tenant bs.length p (w.pl = 1) true).storeBytes c.core p bs).reportPoison c.wg.launch p bs.length
  | _ => (s.touchAt c.core c.wg.tenant bs.length p false true).storeBytes c.core p bs

def execSt (w : MemW) : State → Out :=
  coreWord (.st w)
    { memUseOf w [memData w] false with evens := memEvens w [memData w], quads := memQuads w [memData w] }
    (accessCheck w .write false)
    fun c s =>
      let s0 := if w.sp = 0 then s.wrote c.r.wg else s
      carrierBody w false (fun c sp s =>
        let ls := lanesOf c.act
        let bs (l : Nat) : List Byte := leBytes (memBytes w) (laneNat c.r l w.vd.toNat (memRegs w))
        if vaultLater w .write c sp ls then
          ls.foldl (fun s l => s.sendVault c (memBytes w) 0 (lanePlace w .write c sp l) (.write (bs l))) s
        else ls.foldl (fun s l => s.storeLane w c (lanePlace w .write c sp l) (bs l)) s) c s0

def execLdu (w : MemW) : State → Out :=
  let n := memBytes w
  coreWord (.ldu w) { memUseOf w [] true with producer := true }
    (accessCheck w .read true)
    (carrierBody w true fun c sp s =>
      let k := skey (w.vd.toNat % 64)
      let l := lowLane c.act
      if vaultLater w .read c sp [l] then
        (s.sendReads w c sp (s.nextProd c.gid) [l] fun _ => [k]).updGang c.gid fun g =>
          g.addProducer [{ key := k, val := 0, poison := false }] false 0
      else
        let (v, bad, s1) := s.readLane c.core c.wg.tenant w.pl.toNat (lanePlace w .read c sp l) n
        let x : W64 := if w.sx = 1 then (BitVec.ofNat (8 * n) v).signExtend 64 else BitVec.ofNat 64 v
        s1.updGang c.gid fun g => g.addProducer [{ key := k, val := x, poison := bad }] true 0)

/-! ### Atomics (07 R173 to R176) -/

/-- Op(m, b) of Table 58 at a width. -/
def atomOp (ao wd : Nat) (sx : Bool) (m b : Nat) : Nat :=
  let sv (x : Nat) : Int := if sx then (BitVec.ofNat wd x).toInt else x
  match ao with
  | 0 => (m + b) % 2 ^ wd
  | 1 => if sv b < sv m then b else m
  | 2 => if sv m < sv b then b else m
  | 3 => m &&& b
  | 4 => m ||| b
  | 5 => m ^^^ b
  | 6 => b
  | 7 => if b ≤ m then 0 else m + 1
  | 8 => if m = 0 || b < m then b else m - 1
  | 11 => max m b
  | _ => m

/-- RoundNE(m + S) in a format, of an FP32 partial sum (07 R175). -/
def addPart (f : FFmt) (m s : Nat) : Nat := (sumRound f .rne [decodeF f m, decodeF fmtFp32 s]).1
/-- The floating-point adds of one address: the value written and the old values (07 R175). -/
def fpChain (f : FFmt) (m : Nat) (bs : List Nat) : Nat × List Nat :=
  let widen (b : Nat) : Nat := if f = fmtBf16 then b * 2 ^ 16 else b
  match bs with
  | [] => (m, [])
  | b :: rest =>
    let r := rest.foldl (fun (a : Nat × List Nat) b =>
      ((sumRound fmtFp32 .rne [decodeF fmtFp32 a.1, decodeF f b]).1, a.2 ++ [addPart f m a.1])) (widen b, [m])
    (addPart f m r.1, r.2)

/-- All lanes of one address: the value written, where one is, and each lane's old value. `ds`: the compare values of
CAS. -/
def atomSteps (ao wd : Nat) (sx : Bool) (ds : Option (List Nat)) (m : Nat) (bs : List Nat) : Option Nat × List Nat :=
  match ds with
  | some ds =>
    let r := (ds.zip bs).foldl (fun (a : Nat × Bool × List Nat) e =>
      let hit := a.1 = e.1
      (if hit then e.2 else a.1, a.2.1 || hit, a.2.2 ++ [a.1])) (m, false, [])
    (if r.2.1 then some r.1 else none, r.2.2)
  | none =>
    if ao = 9 then
      let r := fpChain fmtFp32 m bs
      (some r.1, r.2)
    else if ao = 10 then
      let lo := fpChain fmtBf16 (m % 2 ^ 16) (bs.map (· % 2 ^ 16))
      let hi := fpChain fmtBf16 (m / 2 ^ 16) (bs.map (· / 2 ^ 16))
      (some (lo.1 + 2 ^ 16 * hi.1), lo.2.zipWith (fun a b => a + 2 ^ 16 * b) hi.2)
    else
      let r := bs.foldl (fun (a : Nat × List Nat) b => (atomOp ao wd sx a.1 b, a.2 ++ [a.1])) (m, [])
      (some r.1, r.2)

/-- Read, modify and write one place as one indivisible step (07 R174): old values, poison, and the state after. A
peer's old values are free values (log 11). -/
def State.atomicAt (s : State) (core tenant : Nat) (byp : Bool) (p : Loc) (n ao : Nat) (sx : Bool) (ds : Option (List Nat)) (bs : List Nat) :
    List Nat × Bool × State :=
  let s1 := match p.kind with
    | .mem _ => (s.touchAt core tenant n p byp true).drainForStore core (p.addr / 128)
    | _ => s.touchAt core tenant n p false true
  let m := s1.loadNat core false p n
  let bad := s1.loadPoisoned core false p n
  let r := atomSteps ao (8 * n) sx ds m bs
  match p.kind with
  | .peer e =>
    (r.2, bad, s1.peerSend e p.addr (match ds with | some ds => .cas n (ds.zip bs) | none => .atomic ao n sx bs) s.curGid 0)
  | _ =>
    match r.1 with
    | some v => (r.2, bad, s1.storeBytes core p (leBytes n v))
    | none => (r.2, bad, match p.kind with | .mem _ => s1.dropL1 core (p.addr / 128) | _ => s1)

/-- The effect of ATOM, RED and CAS. `cas`: compare with VD; `ret`: return old values. -/
def atomBody (w : MemW) (cas ret : Bool) (c : Ctx) (sp s : State) : State :=
  let n := memBytes w
  let k := memRegs w
  let xs := (lanesOf c.act).map fun l => (l, memX w c l)
  let order := (xs.map (·.2)).eraseDups
  let lanes (x : W64) : List Nat := (xs.filter fun e => e.2 = x).map (·.1)
  let bs (x : W64) : List Nat := (lanes x).map fun l => laneNat c.r (permSrc w.pmb l) w.vb.toNat k
  let ds (x : W64) : List Nat := (lanes x).map fun l => laneNat c.r l w.vd.toNat k
  let place (x : W64) : Loc := lanePlace w .write c sp ((lanes x).headD 0)
  let dests (x : W64) (olds : List Nat) (bad : Bool) : List Dest := ((lanes x).zip olds).flatMap fun e =>
    (List.range k).map fun j => { key := vkey e.1 (w.vd.toNat + j), val := (loadReg n false e.2 j).setWidth 64, poison := bad }
  if vaultLater w .write c sp (lanesOf c.act) then
    let s1 := order.foldl (fun s x => s.sendVault c n (s.nextProd c.gid) (place x)
      (.atomic w.ao.toNat n (w.sx = 1) cas (if ret then (lanes x).map (dataKeys w) else []) ((ds x).zip (bs x)))) s
    if ret then s1.updGang c.gid fun g => g.addProducer (order.flatMap fun x => dests x ((lanes x).map fun _ => 0) false) false 0
    else s1
  else
    let r := order.foldl (fun (a : State × List Dest) x =>
      let (olds, bad, s1) := a.1.atomicAt c.core c.wg.tenant (w.pl = 1) (place x) n w.ao.toNat (w.sx = 1)
        (if cas then some (ds x) else none) (bs x)
      (s1.reportPoison c.wg.launch (place x) n, a.2 ++ dests x olds bad)) (s, [])
    if ret then r.1.updGang c.gid fun g => g.addProducer r.2 true 0 else r.1

def atomWord (i : Instr) (w : MemW) (cas ret : Bool) : State → Out :=
  let data := if cas then [memData w] else []
  coreWord i
    { memUseOf w (data ++ [memOperand w]) false with
      dsts := if ret then [(w.vd.toNat, memRegs w)] else []
      evens := memEvens w ((if ret then [memData w] else []) ++ [memOperand w])
      producer := true }
    (accessCheck w .write false)
    fun c s => carrierBody w false (atomBody w cas ret) c (s.wrote c.r.wg)

def execAtom (w : MemW) : State → Out := atomWord (.atom w) w false true
def execRed (w : MemW) : State → Out := atomWord (.red w) w false false
def execCas (w : MemW) : State → Out := atomWord (.cas w) w true true

/-! ### Ordering -/

/-- ORD, 07 R177; in handler mode beside a suspended prefix it terminates the workgroup (07 R179). -/
def execOrd (w : MemW) : State → Out :=
  coreWord (.ord w) { active := guardOf w.g }
    (fun c s =>
      match s.gangs.find? c.gid with
      | some g => if g.handler && g.ordSusp.isSome then .kill Cause.ordOrphan (pcImage c.pc) (pcImage c.pc) else .ok
      | none => .ok)
    (onGang fun c g => { g with ord := some { order := w.od.toNat, scope := w.sc.toNat, lane := lowLane c.grp } })

/-- FENCE, 07 R180: it waits for the gang's earlier matrix words (08 R203). The drains of FENCE.REL and FENCE.AR are due
before the gang's next store (15 Table 112: a store and a later load are not ordered); those of FENCE.SC are done at once
(15 R309), and at .SYS it waits for the gang's writes on their way to peers (20 R389). -/
def execFence (w : MemW) : State → Out :=
  coreWord (.fence w) { active := guardOf w.g }
    (orderWait (w.od = 4 && w.sc = 4)) fun c s =>
    if c.act = 0 then s
    else
      let p : OrdPfx := { order := w.od.toNat, scope := w.sc.toNat, lane := 0 }
      if p.order = 4 then (s.beforeCarrier c.core (some p)).afterCarrier c.core (pfxScope (some p))
      else
        (if 2 ≤ p.order then s.updGang c.gid fun g => { g with fence := some (max (g.fence.getD 0) p.scope) } else s).afterCarrier
          c.core (pfxScope (some p))

/-- Words that a pending FENCE.REL or FENCE.AR is ordered before, and that wait for the gang's vault accesses: all but
arithmetic, control and loads (07 R180, 15 R299). -/
def storesWord : Instr → Bool
  | .st _ | .atom _ | .red _ | .cas _ | .ord _ | .fence _ => true
  | .mma .. | .tlma .. | .tlpre _ | .mzero _ | .mldt _ | .mstt _ => true
  | .rast _ | .blend _ | .filt _ | .trav _ | .bin _ | .binPop _ | .mcode .. => true
  | .bar _ | .barc _ | .barcFinal _ | .barg _ | .xgive _ | .spawn _ | .spawnf _ | .qpop _ | .qpush _ | .cancel _
  | .cntrd _ => true
  | .cecopy .. | .cegath .. | .cescat .. | .cefill _ | .cedec .. | .cestat _ => true
  | .exit _ | .syscall _ => true
  | _ => false
/-- The drains of a FENCE that a gang's next store waits for. -/
def State.settleFence (s : State) (gid : Nat) : State :=
  match s.gangs.find? gid with
  | none => s
  | some g =>
    match g.fence, s.wgs.find? g.wg with
    | some sc, some w => (s.drainScope (coreOf w.pid) sc).updGang gid fun g => { g with fence := none }
    | _, _ => s

/-- PREF changes no value and never faults (07 R171). -/
def execPref (w : MemW) : State → Out :=
  coreWord (.pref w) { memUseOf w [] false with carrier := false } noChk fun _ s => s

/-- INVT discards the texture-path copies of the core (07 R172). -/
def execInvt (w : MemW) : State → Out :=
  coreWord (.invt w) { active := guardOf w.g } noChk fun c s =>
    if c.act = 0 then s else { s with tex := s.tex.put [] c.core [] }

/-! ### Vault accesses in owned slots (14 R289, R291) -/

/-- Values arrive for destinations of a producer. -/
def Gang.fillProducer (g : Gang) (id : Nat) (vs : List (Nat × W64)) (bad : Bool) : Gang :=
  { g with prods := g.prods.map fun p =>
      if p.id = id then
        { p with dests := p.dests.map fun d => match vs.find? fun v => v.1 = d.key with
            | some v => { d with val := v.2, poison := bad }
            | none => d }
      else p }
/-- Values of a loaded number for its keys, v-registers or one s-register. -/
def keyVals (n : Nat) (sx : Bool) (v : Nat) (keys : List Nat) : List (Nat × W64) :=
  (List.range keys.length).map fun j =>
    let k := keys.getD j 0
    (k, if 8192 ≤ k then (if sx then (BitVec.ofNat (8 * n) v).signExtend 64 else BitVec.ofNat 64 v)
        else (loadReg n sx v j).setWidth 64)
/-- What an access does at its vault. -/
def State.vaultAct (s : State) (o : VaultOp) : State :=
  let p : Loc := { kind := .vault, addr := o.addr }
  match o.act with
  | .write bs => s.homeWrite .vault (addressed o.addr bs)
  | .read n sx keys =>
    let v := s.loadNat o.core false p n
    let bad := s.loadPoisoned o.core false p n
    s.updGang o.gang fun g => g.fillProducer o.prod (keyVals n sx v keys) bad
  | .atomic op n sx cas keys args =>
    let m := s.loadNat o.core false p n
    let bad := s.loadPoisoned o.core false p n
    let r := atomSteps op (8 * n) sx (if cas then some (args.map (·.1)) else none) m (args.map (·.2))
    let s1 := match r.1 with | some v => s.homeWrite .vault (addressed o.addr (leBytes n v)) | none => s
    s1.updGang o.gang fun g => g.fillProducer o.prod ((keys.zip r.2).flatMap fun e => keyVals n false e.2 e.1) bad
/-- An access is performed at its vault, and where its word acquires, the core gives up its old copies then (15 R302,
R303). -/
def State.vaultPerform (s : State) (o : VaultOp) : State :=
  match o.acq with
  | some scope => (s.vaultAct o).acquireCore o.core scope
  | none => s.vaultAct o
/-- An access with no register to write. -/
def VaultOp.silent (o : VaultOp) : Bool :=
  match o.act with | .write _ => true | .atomic _ _ _ _ keys _ => keys.isEmpty | .read .. => false
/-- Bytes that an access's transfer carries. -/
def VaultOp.size (o : VaultOp) : Nat :=
  match o.act with | .read n .. => n | .write bs => bs.length | .atomic _ n _ _ _ args => n * args.length
/-- The accesses whose slot it is set out, where they will be performed no sooner than the earlier ones of their gang (15
R299): of a core for one vault those that one transfer of up to 128 bytes takes (14 R288; log 58). `used`: bytes that a core's
transfer to a vault holds. -/
def vaultSend (cy : Nat) (swallowed : Nat → Bool) : SMap Nat → List VaultOp → List VaultOp → List VaultOp
  | _, done, [] => done
  | used, done, o :: os =>
    let key := o.core * 2 ^ 16 + o.addr / 2 ^ 22
    let u := used.getD key 0
    let after := done.all fun x => x.gang != o.gang || x.performed ||
      match x.sentAt with | some t => decide (t + x.dist ≤ cy + o.dist) | none => false
    if o.sentAt.isNone && o.slots.contains (cy % 64) && !swallowed (o.core / 8) && after && (u = 0 || u + o.size ≤ 128) then
      vaultSend cy swallowed (used.put 0 key (u + o.size)) (done ++ [{ o with sentAt := some cy }]) os
    else vaultSend cy swallowed used (done ++ [o]) os
/-- Perform the accesses that are due as a cycle begins, each gang's in the order of issue: T(h) after their slot, and
those of the best-effort class once nothing of their gang is before them (14 R289, 15 R299; log 58). -/
def State.vaultDue (s : State) (cy : Nat) : List VaultOp → List VaultOp → State × List VaultOp
  | done, [] => (s, done)
  | done, o :: os =>
    let due := o.slots.isEmpty || match o.sentAt with | some t => t + o.dist ≤ cy | none => false
    if o.performed || !due || done.any (fun x => x.gang = o.gang && !x.performed) then s.vaultDue cy (done ++ [o]) os
    else ((s.vaultPerform o).updGang o.gang Gang.retry).vaultDue cy (done ++ [{ o with performed := true }]) os
/-- The end of a master cycle for the vault accesses: those whose slot it was have set out, unless the cluster's pulse was
swallowed; those that reach their vault as the next cycle begins are performed; those whose data come back in it end, and a
producer writes its registers in it, with the last of them. -/
def State.vaultCycle (s : State) (cy : Nat) (swallowed : Nat → Bool) : State :=
  if s.vops.isEmpty then s
  else
    let (s1, ops) := s.vaultDue (cy + 1) [] (vaultSend cy swallowed [] [] s.vops)
    let back (o : VaultOp) : Bool :=
      o.performed && (o.silent || o.slots.isEmpty || match o.sentAt with | some t => t + 2 * o.dist ≤ cy + 1 | none => false)
    let left := ops.filter fun o => !back o
    let ends := (((ops.filter fun o => back o && !o.silent).map fun o => (o.gang, o.prod)).eraseDups).filter fun e =>
      !(left.any fun x => x.gang = e.1 && x.prod = e.2 && !x.silent)
    { s1 with
      vops := left
      gangs := ends.foldl (fun gs e => gs.upd e.1 fun g =>
        { g with prods := g.prods.map fun p => if p.id = e.2 then { p with ready := true } else p }) s1.gangs
      agenda := s1.agenda ++ ends.map fun e => Agent.event (.producerWriteback e.1 e.2) }
/-- Before a save, the accesses of a gang are performed and their data arrive (15 R300). -/
def State.vaultFinish (s : State) (gid : Nat) : State :=
  let (mine, rest) := s.vops.partition fun o => o.gang = gid
  let s1 := (mine.filter fun o => !o.performed).foldl State.vaultPerform { s with vops := rest }
  let arrives (p : Producer) : Bool := mine.any fun o => o.prod = p.id && !o.silent
  s1.updGang gid fun g => { g with prods := g.prods.map fun p => if arrives p then { p with ready := true } else p }

/-! ### Monitors and WAITC (07 R182 to R184, 14 R285, R286) -/

/-- Where a place's monitor stands; none for a place with no monitor here. -/
def State.siteOf (s : State) (part : Nat) (p : Loc) : Option Site :=
  match p.kind with
  | .mem _ => some (.slice (s.homeSlice part p.addr))
  | .scr w => (s.wgs.find? w).map fun v => .core (coreOf v.pid)
  | _ => none

def siteCap : Site → Nat
  | .slice _ => 128
  | .core _ => 32

/-- Join the first monitor of a word with room. -/
def joinMonitor (site : Site) (word : Loc) (x : Sleeper) : List Monitor → Option (List Monitor)
  | [] => none
  | m :: ms =>
    if m.site = site && m.word = word && m.sleepers.length < 16 then some ({ m with sleepers := m.sleepers ++ [x] } :: ms)
    else (joinMonitor site word x ms).map (m :: ·)

/-- Arm a monitor on the 8-byte word of a place (14 R285); false: none could take the sleeper, and the overflow is
counted. -/
def State.arm (s : State) (part : Nat) (p : Loc) (x : Sleeper) : Bool × State :=
  match s.siteOf part p with
  | none => (false, s)
  | some site =>
    let word : Loc := { kind := p.kind.plain, addr := p.addr / 8 * 8 }
    match joinMonitor site word x s.monitors with
    | some ms => (true, { s with monitors := ms })
    | none =>
      if (s.monitors.filter fun m => m.site = site).length < siteCap site then
        (true, { s with monitors := s.monitors ++ [{ site := site, word := word, sleepers := [x] }] })
      else
        let (pg, off) : Page × Nat := match site with | .slice n => (.slice n, 0x108) | .core n => (.core n, 0x150)
        (false, s.setCreg pg off (s.creg pg off + 1))

/-- The condition of a wait's read (07 R182). -/
def condHolds (r : WaitRead) (m : Nat) : Bool :=
  let a := m &&& r.mask
  let b := r.value &&& r.mask
  let sv (x : Nat) : Int := if r.signed then (BitVec.ofNat (8 * r.n) x).toInt else x
  match r.cc with
  | 0 => a = b
  | 1 => a != b
  | 2 => sv b ≤ sv a
  | _ => sv a < sv b

/-- The read of a waiting group of a gang, as its core performs it. -/
def State.waitHolds (s : State) (core : Nat) (r : WaitRead) : Bool := condHolds r (s.loadNat core false r.loc r.n)
/-- What the read of a wait meets besides its condition: a peer's page (20 R387), or poison (14 R297). -/
def State.waitBad (s : State) (core : Nat) (p : Loc) (n : Nat) (x : W64) : Check :=
  match p.kind with
  | .peer _ => .trap Cause.access x
  | _ => if s.loadPoisoned core false p n then .trap Cause.poison x else .ok
/-- The coherent read of a wait: the core keeps no older copy of the line (15 R305). -/
def State.waitTouch (s : State) (core tenant : Nat) (p : Loc) (n : Nat) (byp : Bool := false) : State :=
  let s1 := s.touchAt core tenant n p byp
  match p.kind with
  | .mem _ => s1.dropL1 core (p.addr / 128)
  | _ => s1

/-- Lanes of a gang sleep on a read: a monitor is armed, or they are parked (07 R184). -/
def State.sleepOn (s : State) (gid part : Nat) (lanes : LaneMask) (r : WaitRead) : State :=
  match s.gangs.find? gid with
  | none => s
  | some g =>
    let (armed, s1) := s.arm part r.loc (.gang gid g.nextId)
    s1.updGang gid fun g => g.addWait lanes (.waitc r (!armed) 0 false)

def execWaitc (w : MemW) : State → Out :=
  let n := memBytes w
  let k := memRegs w
  let srcs := [{ memData w with low := true }, { memOperand w with low := true }]
  coreWord (.waitc w) { memUseOf w srcs true with evens := memEvens w srcs }
    (fun c s => (accessCheck w .read true c s).next
      (if c.act = 0 then .ok
       else s.waitBad c.core (lanePlace w .read c s (lowLane c.act)) n (memX w c (lowLane c.act))))
    fun c s =>
      if c.act = 0 then s
      else
        let s1 := memWalks w true c (s.beforeCarrier c.core c.pfx)
        let l := lowLane c.act
        let p := lanePlace w .read c s l
        let s2 := s1.waitTouch c.core c.wg.tenant p n (w.pl = 1)
        let r : WaitRead := { sp := w.sp.toNat, va := memX w c l, loc := p, n := n, value := laneNat c.r l w.vd.toNat k
                              mask := laneNat c.r (permSrc w.pmb l) w.vb.toNat k, cc := w.cm.toNat, signed := w.sx = 1
                              pfx := pfxScope c.pfx }
        if s2.waitHolds c.core r then s2.afterCarrier c.core r.pfx
        else (s2.updGang c.gid fun g => g.setPc c.grp c.pc).sleepOn c.gid (s.tenantPart c.wg.tenant) c.grp r

/-- The place of a wait's next read: a .G address is translated anew (14 R295). -/
def State.waitPlace (s : State) (w : Wg) (r : WaitRead) : TRes :=
  if r.sp = 0 then s.translate (tlbUnit w.pid) w.tenant .read r.va else .ok r.loc
/-- A waiting group's next read faults on a missing page: its gang is parked, and the read is repeated when the page has been
supplied (05 R133). -/
def State.parkWait (s : State) (gid tenant : Nat) (wid : Nat) (r : WaitRead) (lanes : LaneMask) (pc : PCAddr) : State :=
  (s.updGang gid fun g => { g with waits := g.waits.map fun x =>
      if x.id = wid then { x with kind := .waitc r false 0 true } else x }).parkPage gid tenant r.va 0 lanes pc

/-- A waiting group repeats its read: it proceeds, or sleeps again; a parked one stays parked (07 R183, R184). -/
def State.repeatRead (s : State) (gid wid : Nat) (r : WaitRead) (lanes : LaneMask) (parked : Bool) : State :=
  match s.gangs.find? gid with
  | none => s
  | some g =>
    match s.wgs.find? g.wg with
    | none => s
    | some w =>
      if w.status = .saved || g.parked then s
      else
        let core := coreOf w.pid
        let pc := g.pcOf (lowLane lanes)
        match s.waitPlace w r with
        | .page => s.parkWait gid w.tenant wid r lanes pc
        | .access => s.takeTrap gid lanes Cause.access (pcImage pc) r.va
        | .ok p =>
          match s.waitBad core p r.n r.va with
          | .trap cause x => s.takeTrap gid lanes cause (pcImage pc) x
          | _ =>
            let r' := { r with loc := p }
            let s0 := if r.sp = 0 then s.walkUse (tlbUnit w.pid) w.tenant r.va else s
            let s1 := (s0.waitTouch core w.tenant p r.n).updGang gid fun g => g.dropWaits fun x => x.id = wid
            if s1.waitHolds core r' then
              (s1.updGang gid fun g =>
                ((lanesOf lanes).foldl (fun g l => g.setPc (BitVec.ofNat 32 (2 ^ l)) (g.pcOf l + 16)) g).freshAge lanes)
                  |>.afterCarrier core r.pfx |>.pruneMonitors
            else if parked then s1.updGang gid fun g => g.addWait lanes (.waitc r' true 0 false)
            else s1.pruneMonitors.sleepOn gid (s.tenantPart w.tenant) lanes r'

end Sys2Proof.Machine
end

