-- ==== Sys2Proof/Machine/Sync.lean ====
section
/-! DEFINITION. The SYNC class: barriers, g-registers, extended register blocks, spawn bins, feed queues, cancel and
completion counters (06 R146 to R159, 05 R123 to R129, 12 R260 to R262, 17 R350 to R353). -/

namespace Sys2Proof.Machine

/-- The workgroup of the gang at the cursor, and its launch. -/
def State.curWg? (s : State) : Option Wg := (s.curGang?).bind fun g => s.wgs.find? g.wg
def State.curLaunch? (s : State) : Option Launch := (s.curWg?).bind fun w => s.launches.find? w.launch

def syncUseOf (w : SyncW) : WordUse := { active := guardOf w.g }
/-- SA or the immediate, sign-extended (06 R146). -/
def syncX (w : SyncW) (c : Ctx) : W64 := if w.i = 1 then w.imm.signExtend 64 else c.r.s w.sa.toNat
def syncSa (w : SyncW) : List Nat := if w.i = 1 then [] else [w.sa.toNat]

/-- Lanes stay at the word and wait there. -/
def Gang.holdAt (g : Gang) (m : LaneMask) (pc : PCAddr) (k : WaitKind) : Gang := (g.setPc m pc).addWait m k

/-! ### Barriers -/

/-- Active lanes block at a barrier; the others pass (06 R147). -/
def blockAt (k : Ctx → WaitKind) (c : Ctx) (s : State) : State :=
  if c.act = 0 then s else s.updGang c.gid fun g => g.holdAt c.act c.pc (k c)

/-- BAR, 06 R147; barriers 12 to 15 of a cluster-group member are the cluster barriers' (12 R261). -/
def execBar (w : SyncW) (s : State) : Out :=
  let b := w.imm.toNat % 16
  coreWord (.bar w)
    { syncUseOf w with
      collective := true
      ssrcs := if w.aux = 1 then [w.sa.toNat] else []
      syncBad := match s.curWg? with | some v => v.groupSize != 0 && 12 ≤ b | none => false }
    (fun c _ =>
      let x := c.r.s w.sa.toNat
      if c.act != 0 && w.aux = 1 && (x.toNat < 1 || 16 < x.toNat) then .trap Cause.bounds x else .ok)
    (fun c s =>
      let n := if w.aux = 1 then (c.r.s w.sa.toNat).toNat % 32 else 0
      let s1 := blockAt (fun _ => .bar b n) c s
      if c.act = 0 then s1 else s1.checkBar c.r.wg b)
    s

def barcBad (s : State) : Bool :=
  match s.curWg? with
  | some v => v.groupSize = 0 || v.passedFinal
  | none => false

/-- BARC and BARC.FINAL, 12 R260 to R262. -/
def barcWord (i : Instr) (w : SyncW) (b : Nat) (s : State) : Out :=
  coreWord i { syncUseOf w with collective := true, syncBad := barcBad s } noChk
    (fun c s =>
      let s1 := blockAt (fun _ => .barc b) c s
      if c.act = 0 then s1 else s1.checkBarc c.r.wg b s1.engineIdle)
    s
def execBarc (w : SyncW) (s : State) : Out := barcWord (.barc w) w (w.imm.toNat % 4) s
def execBarcFinal (w : SyncW) (s : State) : Out := barcWord (.barcFinal w) w 4 s

/-- BARG, 06 R148; a launch without the mark, or a spawn-bin gang, which is no workgroup of the launch, may not reach
it. -/
def execBarg (w : SyncW) (s : State) : Out :=
  let b := w.imm.toNat % 4
  coreWord (.barg w)
    { syncUseOf w with
      collective := true
      syncBad := match s.curWg?, s.curLaunch? with
        | some v, some L => !L.barg || v.binGang
        | _, _ => false }
    noChk
    (fun c s =>
      let s1 := blockAt (fun _ => .barg b) c s
      if c.act = 0 then s1 else s1.checkBarg c.wg.launch b)
    s

/-! ### g-registers (06 R149, R150) -/

/-- A GATOM of the gang is in flight. -/
def gatomInFlight (c : Ctx) (s : State) : Check :=
  match s.wgs.find? c.r.wg with
  | some v =>
    if c.act != 0 && v.gops.any (fun o => o.gang = c.gid && 2 ≤ o.op && o.op < 15) then .wait .operand else .ok
  | none => .ok

/-- Send an operation to the port, to act after `d` cycles; with a destination a producer waits for it. -/
def State.sendGop (s : State) (c : Ctx) (d op g : Nat) (x : W64) (sd : Option Nat) : State :=
  match s.gangs.find? c.gid with
  | none => s
  | some gg =>
    let s1 := match sd with
      | some n => s.updGang c.gid fun g => g.addProducer [{ key := skey n, val := 0, poison := false }] false 0
      | none => s
    s1.updWg c.r.wg fun v =>
      { v with gops := v.gops ++ [{ cycle := s.cycle + d, slot := c.slot, gang := c.gid, op := op, g := g, x := x,
                                    sd := gg.nextId }] }

def execGrd (w : SyncW) : State → Out :=
  coreWord (.grd w) { syncUseOf w with producer := true } gatomInFlight fun c s =>
    if c.act = 0 then s else s.sendGop c 1 0 w.gr.toNat 0 (some w.sd.toNat)
def execGwr (w : SyncW) : State → Out :=
  coreWord (.gwr w) { syncUseOf w with ssrcs := syncSa w } gatomInFlight fun c s =>
    if c.act = 0 then s else s.sendGop c 1 1 w.gr.toNat (syncX w c) none
def execGatom (w : SyncW) : State → Out :=
  coreWord (.gatom w) { syncUseOf w with ssrcs := syncSa w, producer := true } gatomInFlight fun c s =>
    if c.act = 0 then s else s.sendGop c 3 (2 + w.aux.toNat) w.gr.toNat (syncX w c) (some w.sd.toNat)

/-- A combination of GATOM, 06 R150. -/
def gCombine (op : Nat) (g x : W64) : W64 :=
  match op with
  | 0 => g + x
  | 1 => if x.toInt < g.toInt then x else g
  | 2 => if g.toInt < x.toInt then x else g
  | 3 => if x.toNat < g.toNat then x else g
  | 4 => if g.toNat < x.toNat then x else g
  | 5 => g &&& x
  | 6 => g ||| x
  | 7 => g ^^^ x
  | _ => x

/-- XQUERY's result, 06 Table 54. -/
def State.xqueryImage (s : State) (pid gid : Nat) : W64 :=
  let count := match s.gangs.find? gid with | some g => g.xcount | none => 0
  let oldest := s.gangs.foldl (fun (a : Option (Nat × Nat)) e =>
    match s.wgs.find? e.2.wg with
    | some w =>
      if w.pid = pid && w.status = .resident then
        e.2.waits.foldl (fun a x =>
          match x.kind, a with
          | .xclaim n o, none => some (o, n)
          | .xclaim n o, some (o', _) => if o < o' then some (o, n) else a
          | _, _ => a) a
      else a
    | none => a) none
  let head := match oldest with | some (_, n) => n | none => 0
  BitVec.ofNat 64 (s.xfree pid + 2 ^ 16 * count + 2 ^ 32 * (head % 512) + 2 ^ 48 * s.binReserve pid)

/-- A value returns to the producer that waits for it. -/
def State.deliver (s : State) (gid id : Nat) (x : W64) : State :=
  s.updGang gid fun g =>
    let fill (d : Dest) : Dest := { d with val := x }
    let upd (p : Producer) : Producer := if p.id = id then { p with ready := true, dests := p.dests.map fill } else p
    let g1 : Gang := { g with prods := g.prods.map upd }
    g1.complete id

/-- One operation acts at the port. -/
def State.gopAct (s : State) (wid : Nat) (o : GOp) : State :=
  match s.wgs.find? wid with
  | none => s
  | some w =>
    let cur := w.gr.getD o.g 0
    match o.op with
    | 0 => s.deliver o.gang o.sd cur
    | 1 => s.updWg wid fun v => { v with gr := v.gr.put 0 o.g o.x }
    | 15 => s.deliver o.gang o.sd (s.xqueryImage w.pid o.gang)
    | k =>
      ((s.updWg wid fun v => { v with gr := v.gr.put 0 o.g (gCombine (k - 2) cur o.x) }).deliver o.gang o.sd cur).updGang
        o.gang Gang.retry

/-- The port's work of a cycle: reads first, then writes in the order of their slots (06 R149). -/
def State.gport (s : State) (wid cycle : Nat) : State :=
  match s.wgs.find? wid with
  | none => s
  | some w =>
    let now := w.gops.filter fun o => o.cycle ≤ cycle
    let rd := now.filter fun o => o.op = 0 || o.op = 15
    let wr := (List.range 16).flatMap fun k => now.filter fun o => o.op != 0 && o.op != 15 && o.slot = k
    let s1 := s.updWg wid fun v => { v with gops := v.gops.filter fun o => cycle < o.cycle }
    (rd ++ wr).foldl (fun s o => s.gopAct wid o) s1

/-! ### Extended register blocks (06 R151 to R153) -/

/-- XCLAIM, 06 R151. -/
def execXclaim (w : SyncW) : State → Out :=
  coreWord (.xclaim w) { syncUseOf w with ssrcs := syncSa w }
    (fun c s =>
      let n := (syncX w c).toNat
      match s.gangs.find? c.gid with
      | some g => if c.act != 0 && (n < 8 || n % 8 != 0 || g.xlimit < g.xcount + n) then .trap Cause.bounds (syncX w c) else .ok
      | none => .ok)
    fun c s =>
      if c.act = 0 then s
      else
        let k := (s.cpart c.wg.pid).claimOrder
        (s.updGang c.gid fun g => g.holdAt c.grp c.pc (.xclaim (syncX w c).toNat k)).setCpart c.wg.pid
          { s.cpart c.wg.pid with claimOrder := k + 1 }

/-- Grant n entries: the new registers read 0 and are full in every lane. -/
def Gang.grant (g : Gang) (n : Nat) : Gang :=
  let lo := g.base + g.xcount
  let new (k : Nat) : Bool := k < 8192 && lo ≤ k % 256 && k % 256 < lo + n
  { g with
    xcount := g.xcount + n
    vr := g.vr.filter fun e => !new e.1
    empty := g.empty.filter fun k => !new k
    poison := g.poison.filter fun k => !new k }

/-- XGIVE waits until the registers it releases are full in every lane (06 R152). -/
def Gang.giveReady (g : Gang) (n : Nat) : Bool :=
  !(g.empty.any fun k => k < 8192 && g.base + g.xcount - n ≤ k % 256 && k % 256 < g.base + g.xcount)

/-- XGIVE, 06 R152: the entries are credited by XGIVE_CREDIT. -/
def execXgive (w : SyncW) : State → Out :=
  coreWord (.xgive w) { syncUseOf w with ssrcs := syncSa w }
    (fun c s =>
      let n := (syncX w c).toNat
      match s.gangs.find? c.gid with
      | some g => if c.act != 0 && (n < 8 || n % 8 != 0 || g.xcount < n) then .trap Cause.bounds (syncX w c) else .ok
      | none => .ok)
    fun c s =>
      if c.act = 0 then s else s.updGang c.gid fun g => g.holdAt c.grp c.pc (.xgive (syncX w c).toNat)

def execXquery (w : SyncW) : State → Out :=
  coreWord (.xquery w) { syncUseOf w with producer := true } noChk fun c s =>
    if c.act = 0 then s else s.sendGop c 1 15 0 0 (some w.sd.toNat)

/-! ### SPAWN (06 R154, R155) -/

/-- The entry address: sA, or the label (06 R146). -/
def spawnKey (w : SyncW) (c : Ctx) : W64 := if w.i = 1 then pcImage (relTarget c.pc w.imm) else c.r.s w.sa.toNat

/-- SPAWN, 06 R154. -/
def execSpawn (w : SyncW) : State → Out :=
  coreWord (.spawn w)
    { syncUseOf w with srcs := [{ reg := w.va.toNat, count := 4, trap := w.ea = 1 }], ssrcs := syncSa w }
    (fun c s =>
      let k := spawnKey w c
      Check.next (match s.launches.find? c.wg.launch with
       | some L =>
         if c.act != 0 && !(L.spawns.any fun e => e.addr = k.toNat) then .trap Cause.access k else .ok
       | none => .ok) (orderWait false c s))
    fun c s =>
      let s0 := s.wrote c.r.wg
      if c.act = 0 then s0
      else
        (lanesOf c.act).foldl (fun s l =>
          let v (j : Nat) : W32 := c.r.v l (w.va.toNat + j)
          let (ok, s1) := s.placeRec c.wg.pid
            { entry := (spawnKey w c).toNat, w0 := v 0, w1 := v 1, w2 := v 2, w3 := v 3, launch := c.wg.launch
              tenant := c.wg.tenant, cls := c.wg.cls }
          s1.updGang c.gid fun g => g.setP l w.pd.toNat (!ok)) (s0.drainScope c.core 1)

/-- SPAWNF, 06 R155. -/
def execSpawnf (w : SyncW) : State → Out :=
  coreWord (.spawnf w) { syncUseOf w with ssrcs := if w.aux = 1 then [] else syncSa w, collective := true } noChk
    fun c s =>
      let s0 := s.wrote c.r.wg
      if c.act = 0 then s0
      else
        let p := s0.cpart c.wg.pid
        let hit (b : SpawnBin) : Bool := b.state = .filling && (w.aux = 1 || b.key = (spawnKey w c).toNat)
        s0.setCpart c.wg.pid
          { p with
            bins := p.bins.mapVals fun b => if hit b then { b with state := .ready } else b
            readyOrder := p.readyOrder ++ (p.bins.filter fun e => hit e.2).map (·.1) }

/-! ### Feed queues (06 R156, R157, 17 R350 to R353) -/

def State.qcfg (s : State) (q : Nat) : W64 := s.creg .hub (qreg q 0x20)
def State.qcap (s : State) (q : Nat) : Nat := 2 ^ fld (s.qcfg q) 0 5
/-- Record size in bytes, and the registers of a record. -/
def State.qsize (s : State) (q : Nat) : Nat := 64 * 2 ^ min (fld (s.qcfg q) 5 2) 2
def State.qregs (s : State) (q : Nat) : Nat := (s.qsize q + 127) / 128
def State.qslotVa (s : State) (q t : Nat) : W64 := s.qva q 0x00 (s.qsize q * (t % s.qcap q))
def State.qseqVa (s : State) (q t : Nat) : W64 := s.qva q 0x08 (4 * (t % s.qcap q))

/-- The queue checks that come first in step 7 of 03 R72 (06 R156); a pending queue number is waited for. -/
def State.queueEarly (s : State) (w : SyncW) : Check :=
  match s.curRead?, s.curWg? with
  | some g, some v =>
    let x := g.s w.sa.toNat
    if g.empty.contains (skey w.sa.toNat) then .wait .operand
    else if 1024 ≤ x.toNat then .trap Cause.bounds x
    else if !(s.qcfg x.toNat).getLsbD 16 || fld (s.qcfg x.toNat) 7 9 != v.tenant then .trap Cause.access x
    else .ok
  | _, _ => .ok

/-- The queue number of the gang at the cursor, as it shapes the word's register run. -/
def State.curQueue (s : State) (w : SyncW) : Nat :=
  match s.curRead? with | some g => (g.s w.sa.toNat).toNat % 1024 | none => 0

/-- A translation that a queue word needs. -/
def State.needVa (s : State) (c : Ctx) (acc : AccKind) (x : W64) : Check :=
  match s.translate (tlbUnit c.wg.pid) c.wg.tenant acc x with
  | .ok _ => .ok
  | .page => .page [x] (if acc = .write then 1 else 0)
  | .access => .trap Cause.access x

/-- A place of the tenant's memory. -/
def State.vaLoc (s : State) (unit tenant : Nat) (acc : AccKind) (x : W64) : Option Loc :=
  match s.translate unit tenant acc x with
  | .ok l => some l
  | _ => none

/-- One write under the tail rule, 17 R352. -/
def State.tailStep (s : State) (q v : Nat) : State :=
  let tail := (s.creg .hub (qreg q 0x30)).toNat
  let d := (v + 2 ^ 32 - tail % 2 ^ 32) % 2 ^ 32
  if 0 < d && d < 2 ^ 31 then s.setCreg .hub (qreg q 0x30) (BitVec.ofNat 64 (v % 2 ^ 32))
  else
    let k := s.creg .hub (qreg q 0x38)
    s.setCreg .hub (qreg q 0x38) (setFld k 32 32 (fld k 32 32 + 1))

/-- The tail writes of a cycle: its result depends on the set of their values alone, so those that came earlier in the
cycle are applied again with the new ones, in order from what the registers held before (17 R352). -/
def State.tailWrites (s : State) (q : Nat) (vs : List Nat) : State :=
  let k := s.creg .hub (qreg q 0x38)
  let (tail, stale, old) := (s.tailSeen.find? q).getD ((s.creg .hub (qreg q 0x30)).toNat, fld k 32 32, [])
  let all := (old ++ vs).eraseDups
  let key (v : Nat) : Nat := (v + 2 ^ 32 - tail % 2 ^ 32) % 2 ^ 32
  let s1 := (s.setCreg .hub (qreg q 0x30) (BitVec.ofNat 64 tail)).setCreg .hub (qreg q 0x38) (setFld k 32 32 stale)
  (sortBy key all).foldl (fun s v => s.tailStep q v) { s1 with tailSeen := s.tailSeen.set q (tail, stale, all) }

/-- A read of an index's sequence word passes the L2 (17 R344). -/
def State.seqTouch (s : State) (pid tenant q t : Nat) : State :=
  match s.vaLoc (tlbUnit pid) tenant .read (s.qseqVa q t) with
  | some p => (s.walkUse (tlbUnit pid) tenant (s.qseqVa q t)).touchFor tenant 4 p
  | none => s
/-- The sequence word of an index equals it. -/
def State.seqReady (s : State) (pid tenant q t : Nat) : Bool :=
  match s.vaLoc (tlbUnit pid) tenant .read (s.qseqVa q t) with
  | some p => s.loadNat (coreOf pid) false p 4 = t
  | none => false

/-- QPOP, 06 R156: the word takes an index, and the copy is QPOP_COPY's. -/
def execQpop (w : SyncW) (s : State) : Out :=
  let q := s.curQueue w
  coreWord (.qpop w)
    { syncUseOf w with
      dsts := [(w.vd.toNat, s.qregs q)], evens := if s.qregs q = 2 then [w.vd.toNat] else [], producer := true
      early := s.queueEarly w }
    (fun c s =>
      let t := fld (s.creg .hub (qreg q 0x38)) 0 32
      if c.act = 0 then .ok else (s.needVa c .read (s.qseqVa q t)).next (s.needVa c .read (s.qslotVa q t)))
    (fun c s =>
      let s0 := s.wrote c.r.wg
      if c.act = 0 then s0
      else
        let k := s0.creg .hub (qreg q 0x38)
        let t := fld k 0 32
        let s1 := (s0.setCreg .hub (qreg q 0x38) (setFld k 0 32 (t + 1))).seqTouch c.wg.pid c.wg.tenant q t
        let words := s.qsize q / 4
        let ds : List Dest := (List.range words).filterMap fun j =>
          if c.act.getLsbD (j % 32) then some { key := vkey (j % 32) (w.vd.toNat + j / 32), val := 0, poison := false }
          else none
        let s2 := s1.updGang c.gid fun g =>
          g.addProducer (ds ++ [{ key := skey w.sd.toNat, val := 0, poison := false }]) false 0
        let woken := s2.seqReady c.wg.pid c.wg.tenant q t
        let wid := match s2.gangs.find? c.gid with | some g => g.nextId | none => 0
        let (armed, s3) := if woken then (true, s2)
          else match s2.vaLoc (tlbUnit c.wg.pid) c.wg.tenant .read (s2.qseqVa q t) with
            | some p => s2.arm (s2.tenantPart c.wg.tenant) p (.gang c.gid wid)
            | none => (false, s2)
        s3.updGang c.gid fun g =>
          g.holdAt c.grp c.pc (.qpop q t w.vd.toNat w.sd.toNat c.act (!armed) 0 woken))
    s

/-- QPUSH, 06 R157. -/
def execQpush (w : SyncW) (s : State) : Out :=
  let q := s.curQueue w
  coreWord (.qpush w)
    { syncUseOf w with
      srcs := [{ reg := w.va.toNat, count := s.qregs q, trap := w.ea = 1 }]
      evens := if s.qregs q = 2 then [w.va.toNat] else []
      early := s.queueEarly w }
    (fun c s =>
      if c.act = 0 then .ok
      else
        (s.needVa c .write (s.qva q 0x10 0)).next
          (match s.vaLoc (tlbUnit c.wg.pid) c.wg.tenant .write (s.qva q 0x10 0) with
           | some p =>
             let t := s.loadNat c.core false p 4
             ((s.needVa c .write (s.qslotVa q t)).next (s.needVa c .write (s.qseqVa q t))).next (orderWait false c s)
           | none => .ok))
    (fun c s =>
      let s0 := s.wrote c.r.wg
      if c.act = 0 then s0
      else match s0.vaLoc (tlbUnit c.wg.pid) c.wg.tenant .write (s0.qva q 0x10 0) with
        | none => s0
        | some pr =>
          let t := s0.loadNat c.core false pr 4
          let sT := (s0.walksUse (tlbUnit c.wg.pid) c.wg.tenant [s0.qva q 0x10 0, s0.qslotVa q t, s0.qseqVa q t]).touchFor
            c.wg.tenant 4 pr false true
          let head := fld (sT.creg .hub (qreg q 0x28)) 0 32
          let setPd (s : State) (b : Bool) : State :=
            s.updGang c.gid fun g => (lanesOf c.act).foldl (fun g l => g.setP l w.pd.toNat b) g
          if sT.qcap q ≤ (t + 2 ^ 32 - head) % 2 ^ 32 then setPd sT true
          else
            let s1 := sT.storeBytes c.core pr (leBytes 4 (t + 1))
            match s1.vaLoc (tlbUnit c.wg.pid) c.wg.tenant .write (s1.qslotVa q t),
                  s1.vaLoc (tlbUnit c.wg.pid) c.wg.tenant .write (s1.qseqVa q t) with
            | some pd, some ps =>
              let bs := (List.range (s1.qsize q / 4)).flatMap fun j =>
                leBytes 4 (if c.act.getLsbD (j % 32) then (c.r.v (j % 32) (w.va.toNat + j / 32)).toNat else 0)
              let s2 := (s1.touchFor c.wg.tenant bs.length pd false true).storeBytes c.core pd (bs.take 128)
              let s3 := if bs.length ≤ 128 then s2
                else s2.storeBytes c.core { pd with addr := pd.addr + 128 } (bs.drop 128)
              let s4 := ((s3.touchFor c.wg.tenant 4 ps false true).drainScope c.core 3).storeBytes c.core ps (leBytes 4 t)
              setPd (s4.tailWrites q [(t + 1) % 2 ^ 32]) false
            | _, _ => s1)
    s

/-- The copy of QPOP, once the sequence word equals the index: false where it does not yet. -/
def State.qpopTry (s : State) (gid : Nat) (x : Wait) (q t vd sd : Nat) (lanes : LaneMask) : Bool × State :=
  match s.gangs.find? gid with
  | none => (false, s)
  | some g =>
    match s.wgs.find? g.wg with
    | none => (false, s)
    | some w =>
      let core := coreOf w.pid
      let s0 := if w.status = .saved then s else s.seqTouch w.pid w.tenant q t
      if w.status = .saved || !s.seqReady w.pid w.tenant q t then (false, s0)
      else match s.vaLoc (tlbUnit w.pid) w.tenant .read (s.qslotVa q t) with
        | none => (false, s0)
        | some p =>
          let s1 := ((s0.walkUse (tlbUnit w.pid) w.tenant (s.qslotVa q t)).touchFor w.tenant (s.qsize q) p).acquireCore core 3
          let words := s1.qsize q / 4
          let val (d : Dest) : Dest :=
            if d.key = skey sd then { d with val := BitVec.ofNat 64 t }
            else
              let j := 32 * (d.key % 256 - vd) + d.key / 256
              let a : Loc := { p with addr := p.addr + 4 * j }
              if j < words && lanes.getLsbD (d.key / 256) then
                { d with val := BitVec.ofNat 64 (s1.loadNat core false a 4), poison := s1.loadPoisoned core false a 4 }
              else d
          let s2 := s1.updGang gid fun g =>
            let upd (r : Producer) : Producer := if r.id = x.id - 1 then { r with dests := r.dests.map val } else r
            let g1 : Gang := { g with prods := g.prods.map upd }
            let g2 : Gang := (g1.complete (x.id - 1)).dropWaits fun y => y.id = x.id
            ((lanesOf x.lanes).foldl (fun g l => g.setPc (BitVec.ofNat 32 (2 ^ l)) (g.pcOf l + 16)) g2).freshAge x.lanes
          (true, (s2.pruneMonitors).markCopied q t)

/-! ### Cancel and completion counters (06 R158, R159) -/

/-- The launches of a level that holds a launch (17 Table 123). -/
def State.levelLaunches (s : State) (lid level : Nat) : List Nat :=
  match s.launches.find? lid with
  | none => []
  | some L =>
    match level with
    | 3 => (s.launches.filter fun e => e.2.phase = L.phase).map (·.1)
    | 4 => (s.launches.filter fun e => e.2.job = L.job).map (·.1)
    | _ => [lid]

/-- A level has been cancelled already. -/
def State.levelCancelled (s : State) (lid level : Nat) : Bool :=
  match s.launches.find? lid with
  | none => true
  | some L =>
    match level with
    | 1 => L.cancelled || L.graphCancelled
    | 2 => L.graphCancelled
    | 3 => s.phaseCancelled.contains L.phase
    | _ => s.jobCancelled.contains L.job

/-- The level that a CANCEL shows the gangs of a launch: a running launch of a phase or of a job is cancelled at level 2 (16
R327, R330; log 49). -/
def State.shownLevel (s : State) (lid level : Nat) : Nat :=
  match s.launches.find? lid with
  | some L => if 3 ≤ level && (s.tasks.find? L.task).isSome then 2 else level
  | none => level

/-- Cancel a level above the workgroup (06 R158): units that have not started are dropped and counted, spawn records in
bins and overflow rings are dropped, running units take CANCEL. -/
def State.cancelLevel (s : State) (lid level : Nat) : State :=
  if s.levelCancelled lid level then s
  else match s.launches.find? lid with
    | none => s
    | some L =>
      let ls := s.levelLaunches lid level
      let s1 := ls.foldl (fun s l => s.cancelLaunch l (s.shownLevel l level) (level != 1)) s
      let s2 := if level = 1 then s1 else s1.dropRecords ls
      let s3 := if level = 3 then { s2 with phaseCancelled := s2.phaseCancelled.add L.phase } else s2
      let s4 := if level = 4 then { s3 with jobCancelled := s3.jobCancelled.add L.job } else s3
      ls.foldl State.checkGrids s4

/-- CANCEL, 06 R158. -/
def execCancel (w : SyncW) : State → Out :=
  coreWord (.cancel w) (syncUseOf w) noChk fun c s =>
    let s0 := s.wrote c.r.wg
    if c.act = 0 then s0
    else if w.imm = 0 then
      if c.wg.unitCancelled then s0
      else (c.wg.gangs.foldl (fun s gid => s.updGang gid fun g =>
        if g.cancel.isNone then { g with cancel := some 0 } else g) s0).updWg c.r.wg fun v => { v with unitCancelled := true }
    else s0.cancelLevel c.wg.launch w.imm.toNat

/-- The completion counter of the level that contains a gang of a launch. -/
def State.levelCounter (s : State) (lid level : Nat) : Counter :=
  match s.launches.find? lid with
  | none => counterZero
  | some L =>
    match level with
    | 1 => L.launchCnt
    | 2 => L.graphCnt
    | 3 => s.phases.getD L.phase counterZero
    | _ => s.jobs.getD L.job counterZero

/-- CNTRD, 06 R159. -/
def execCntrd (w : SyncW) : State → Out :=
  coreWord (.cntrd w) { syncUseOf w with producer := true } noChk fun c s =>
    if c.act = 0 then s
    else
      let k := s.levelCounter c.wg.launch w.imm.toNat
      (s.acquireCore c.core 3).updGang c.gid fun g => g.setS w.sd.toNat (BitVec.ofNat 64 (k.ended + 2 ^ 32 * k.cancelled))

end Sys2Proof.Machine
end

