-- ==== Sys2Proof/Machine/Engine.lean ====
section
/-! DEFINITION. The cluster copy engine: the ENG class and the transfers of its commands (12 R264 to R270, 15 R306,
18 R373). -/

namespace Sys2Proof.Machine

def State.engine (s : State) (cl : Nat) : List EngCmd := s.engines.getD cl []
def State.setEngine (s : State) (cl : Nat) (q : List EngCmd) : State := { s with engines := s.engines.put [] cl q }
def State.updCmd (s : State) (cl id : Nat) (f : EngCmd → EngCmd) : State :=
  s.setEngine cl ((s.engine cl).map fun k => if k.id = id then f k else k)

/-! ### Issue -/

/-- Table 55 for an extent of n bytes at x in .V: the extent stays in its vault (12 R267). -/
def State.vaultExtent (s : State) (tenant n : Nat) (x : W64) : Check :=
  if fld x 29 35 != 0 || 96 ≤ fld x 22 7 || 2 ^ 22 < fld x 0 22 + n then .trap Cause.bounds x
  else if (s.vaultOf (s.tenantPart tenant) (fld x 22 7)).isNone then .trap Cause.access x else .ok

/-- Table 55 for an extent of n bytes at x: the checks without alignment (12 R267). -/
def State.extentCheck (s : State) (w : Wg) (sp n : Nat) (x : W64) : Check :=
  if sp = 0 || n = 0 then .ok
  else if sp = 3 then s.vaultExtent w.tenant n x
  else runStages (s.accStages w sp n .read).dropLast [x]

/-- The command that an ENG word places, without its place in the queue. -/
def engCmd (c : Ctx) (op : Nat) (w : EngW) (k : BitVec 120) : EngCmd :=
  let kf (lo n : Nat) : Nat := k.toNat / 2 ^ lo % 2 ^ n
  let gath := op = 1 || op = 2
  { id := 0, gang := c.gid, wg := c.r.wg, tenant := c.wg.tenant, launch := c.wg.launch, core := c.core, op := op
    srcSp := w.ssp.toNat, dstSp := w.dsp.toNat, src := c.r.s w.ss.toNat, dst := c.r.s w.sd.toNat
    n := if op = 5 then 16 else (c.r.s w.sn.toNat).toNat
    rows := if w.two = 1 then kf 104 16 else 1
    spitch := if w.two = 1 then kf 72 32 else 0, dpitch := if w.two = 1 then kf 40 32 else 0
    idxAddr := if gath then c.r.s (kf 114 6) else 0, idxSp := if gath then kf 112 2 else 0
    idx64 := gath && kf 111 1 = 1, esz := if gath then kf 95 16 + 1 else 1
    pattern := w.imm, key := w.imm.toNat % 2048
    ctr := if op = 4 then c.r.s (kf 114 6) else 0, chan := if op = 4 then kf 82 32 else 0
    tagAddr := if op = 4 then c.r.s (kf 76 6) else 0
    sig := if w.sig = 1 then some (c.r.s w.sg.toNat) else none, sv := c.r.s w.sv.toNat, fst := w.fst.toNat
    acq := w.acq = 1, rel := w.rel = 1, scope := w.sc.toNat
    rt := if w.rt = 1 then some (w.vr.toNat, c.act, 0) else none
    moved := 0, elem := none, pc := c.pc, fault := none, faultAt := 0, task := none, counts := none }

/-- Payload bytes of a command. -/
def EngCmd.total (k : EngCmd) : Nat :=
  match k.op with
  | 0 => k.n * k.rows
  | 1 => k.n * k.esz
  | 2 => k.n * k.esz
  | _ => k.n

/-- Length of the extent from the first byte to the last of rows at a pitch. -/
def spanOf (n rows pitch : Nat) : Nat := if n = 0 then 0 else (rows - 1) * pitch + n

/-- The signal word's space and address. -/
def sigSp (x : W64) : Nat := fld x 60 2
def sigVa (x : W64) : W64 := ((x.extractLsb' 0 57).signExtend 64)
/-- The address of a signal word as its space reads it (12 R265): address bits [56:0]. -/
def sigX (x : W64) : W64 := if sigSp x = 0 then sigVa x else (x.extractLsb' 0 57).setWidth 64

/-- An acquire or a release of an ENG word waits for the gang's earlier matrix words and, at .SYS, for its writes to peers
(12 R266, 08 R203, 15 R308). -/
def engOrder (w : EngW) (c : Ctx) (s : State) : Check :=
  if w.acq = 1 || w.rel = 1 then orderWait (w.sc = 4) c s else .ok

/-- The conditions of 12 R267, in their order, and R269's. -/
def engChecks (op : Nat) (w : EngW) (k : BitVec 120) (c : Ctx) (s : State) : Check :=
  if c.act = 0 then .ok
  else
    let m := engCmd c op w k
    let rt := w.rt = 1
    let gath := op = 1 || op = 2
    let src := if op = 0 then s.extentCheck c.wg m.srcSp (spanOf m.n m.rows m.spitch) m.src
      else if op = 2 then s.extentCheck c.wg m.srcSp m.total m.src else .ok
    let dst := if rt || op = 2 then .ok
      else if op = 0 then s.extentCheck c.wg m.dstSp (spanOf m.n m.rows m.dpitch) m.dst
      else s.extentCheck c.wg m.dstSp m.total m.dst
    let idx := if gath then s.extentCheck c.wg m.idxSp (m.n * if m.idx64 then 8 else 4) m.idxAddr else .ok
    let sx := m.sig.getD 0
    let sgn := m.sig.isSome && (sigSp sx = 1 || sigSp sx = 2)
    let sig := if sgn then s.extentCheck c.wg (sigSp sx) 8 (sigX sx) else .ok
    let bad (b : Bool) (cause : Nat) (a : W64) : Check := if b then .trap cause a else .ok
    let limit := if op = 4 then 65536 else 2 ^ 32 - 1
    let tot : W64 := BitVec.ofNat 64 m.total
    [src, dst, idx, sig,
     bad (m.sig.isSome && (sigSp sx = 3 || fld sx 57 3 != 0 || fld sx 62 2 != 0)) Cause.bounds sx,
     bad (m.sig.isSome && (sigX sx).toNat % 8 != 0) Cause.align (sigX sx),
     bad (op = 3 && m.dst.toNat % 4 != 0) Cause.align m.dst,
     bad (op = 3 && m.n % 4 != 0) Cause.bounds (BitVec.ofNat 64 m.n),
     bad (limit < m.n) Cause.bounds (BitVec.ofNat 64 m.n),
     bad (rt && (m.total % 128 != 0 || m.total < 128 || 2048 < m.total)) Cause.bounds tot,
     if rt && (c.r.base + c.r.xcount < w.vr.toNat + m.total / 128) then illegalSub 0x05 else .ok,
     bad (op = 4 && !(s.keyKind m.key = 2 && s.keyOwner m.key = c.wg.tenant)) Cause.access (w.imm.setWidth 64),
     engOrder w c s,
     if 64 ≤ (s.engine c.cluster).length then .wait .engine else .ok].foldl Check.next .ok

/-- Scalar registers that an ENG word reads. -/
def engSregs (op : Nat) (w : EngW) (k : BitVec 120) : List Nat :=
  let kf (lo n : Nat) : Nat := k.toNat / 2 ^ lo % 2 ^ n
  (if op = 3 || op = 5 then [] else [w.ss.toNat]) ++ (if w.rt = 1 then [] else [w.sd.toNat])
    ++ (if op = 5 then [] else [w.sn.toNat]) ++ (if w.sig = 1 then [w.sg.toNat, w.sv.toNat] else [])
    ++ (if op = 1 || op = 2 then [kf 114 6] else []) ++ (if op = 4 then [kf 114 6, kf 76 6] else [])

/-- Destinations of a register delivery (12 R269). -/
def rtDests (vr : Nat) (m : LaneMask) (tot : Nat) : List Dest :=
  (List.range (tot / 128)).flatMap fun j => (lanesOf m).map fun l => { key := vkey l (vr + j), val := 0, poison := false }

/-- An ENG word: the checks, then one command in the cluster's queue. An acquire carries the gang's relaxed writes as its
scope says (12 R266). -/
def engWord (i : Instr) (op : Nat) (w : EngW) (k : BitVec 120) : State → Out :=
  coreWord i
    { active := guardOf w.g, words := i.wordCount, ssrcs := engSregs op w k, producer := true }
    (engChecks op w k) fun c s =>
      let s0 := s.wrote c.r.wg
      if c.act = 0 then s0
      else
        let m := engCmd c op w k
        let pid := match s0.gangs.find? c.gid with | some g => g.nextId | none => 0
        let s1 := match m.rt with
          | some (vr, ls, _) => s0.updGang c.gid fun g => g.addProducer (rtDests vr ls m.total) false 0
          | none => s0
        let s2 := if m.acq then s1.drainScope c.core m.scope else s1
        let s3 := s2.updGang c.gid fun g => { g with cmdIssued := (g.cmdIssued + 1) % 2 ^ 32 }
        let m1 : EngCmd := { m with id := s3.engNext, rt := m.rt.map fun r => (r.1, r.2.1, pid) }
        { (s3.setEngine c.cluster (s3.engine c.cluster ++ [m1])) with engNext := s3.engNext + 1 }

def execCecopy (w : EngW) (k : BitVec 120) : State → Out := engWord (.cecopy w k) 0 w k
def execCegath (w : EngW) (k : BitVec 120) : State → Out := engWord (.cegath w k) 1 w k
def execCescat (w : EngW) (k : BitVec 120) : State → Out := engWord (.cescat w k) 2 w k
def execCefill (w : EngW) : State → Out := engWord (.cefill w) 3 w 0
def execCedec (w : EngW) (k : BitVec 120) : State → Out := engWord (.cedec w k) 4 w k
def execCestat (w : EngW) : State → Out := engWord (.cestat w) 5 w 0

/-! ### Transfer -/

/-- What a transfer does at a place: proceed, wait for a page, or stop with a reason at an address (12 R268). -/
inductive EngRes where
  | ok (l : Loc)
  | page (va : W64)
  | bad (reason : Nat) (addr : W64)
  deriving DecidableEq, Repr

/-- The place of an engine access. -/
def State.engPlace (s : State) (cl : Nat) (k : EngCmd) (sp : Nat) (acc : AccKind) (x : W64) : EngRes :=
  if sp = 0 then
    match s.translate cl k.tenant acc x with
    | .ok l => .ok l
    | .page => .page x
    | .access => .bad 1 x
  else if sp = 3 then
    match s.vaultOf (s.tenantPart k.tenant) (fld x 22 7) with
    | some v => .ok { kind := .vault, addr := v * 2 ^ 22 + fld x 0 22 }
    | none => .bad 1 x
  else
    match s.wgs.find? k.wg with
    | some w => (match s.placeOf k.wg w sp acc x with | some l => .ok l | none => .bad 1 x)
    | none => .bad 1 x

/-- A byte that a cluster point holds. -/
def State.heldByte (s : State) (cl a : Nat) : Option Byte :=
  ((s.cpt.getD cl []).find? (a / 128)).bind fun b => b.bytes.find? (a % 128)

/-- A byte as an engine reads it: its cluster point first, then the home (15 R306). -/
def State.engByte (s : State) (cl : Nat) (k : LocKind) (a : Nat) : Byte :=
  match k with
  | .mem _ => (s.heldByte cl a).getD (s.homeByte k a)
  | _ => s.homeByte k a
/-- Its poison: the home granule's, unless the cluster point holds the whole granule (14 R296, R297). -/
def State.engPoison (s : State) (cl : Nat) (k : LocKind) (a : Nat) : Bool :=
  match k with
  | .mem _ => s.homePoison k a && (List.range 16).any fun i => (s.heldByte cl (a / 16 * 16 + i)).isNone
  | _ => s.homePoison k a
def State.engBytes (s : State) (cl : Nat) (l : Loc) (n : Nat) : List Byte :=
  (List.range n).map fun i => s.engByte cl l.kind (l.addr + i)

/-- The L1 copies of a line are given up in every core: whoever learns of a write by a signal reads the line from its home
(12 R266; log 13). -/
def State.dropL1Line (s : State) (line : Nat) : State := { s with l1 := s.l1.mapVals fun m => m.del line }

/-- Bytes arrive at their home from an engine, with the poison of the source granules; `cmd`: the copy-engine command that
they belong to, 0 for none. -/
def State.engWrite (s : State) (tenant : Nat) (l : Loc) (bs : List Byte) (bad : Nat → Bool) (cmd : Nat := 0) : State :=
  let s0 := match l.kind with | .mem _ => s.dropL1Line (l.addr / 128) | _ => s
  let s1 := (s0.touchFor tenant bs.length l false true).homeWrite l.kind (addressed l.addr bs) 0 cmd
  (List.range bs.length).foldl (fun s i => if bad i then s.poisonAt l.kind (l.addr + i) else s) s1

/-- Poisoned granules that a command has written are reported for its launch or its task. -/
def State.engReport (s : State) (k : EngCmd) (l : Loc) (n : Nat) : State :=
  match k.task, l.kind with
  | some (_, id), .mem _ =>
    let gs := ((List.range n).map fun i => (l.addr + i) / 16).eraseDups.filter s.memPoison.contains
    if gs.isEmpty then s else { s with tasks := s.tasks.upd id fun t => { t with poison := t.poison.addAll gs } }
  | _, _ => s.reportPoison k.launch l n

/-- A piece of a payload: source and destination addresses, length, and whether an index reached outside its space. -/
structure Piece where
  src : W64
  dst : W64
  len : Nat
  deriving DecidableEq, Repr

/-- Bytes to the end of a line. -/
def toLine (x : W64) : Nat := 128 - x.toNat % 128

/-- n bytes at x as the engine reads them, with their poison, each line at its own place. -/
def State.engFetch (s : State) (cl : Nat) (k : EngCmd) (sp : Nat) : Nat → W64 → Nat → List Byte × List Bool →
    Except EngRes (List Byte × List Bool)
  | 0, _, _, acc => .ok acc
  | f + 1, x, n, acc =>
    if n = 0 then .ok acc
    else match s.engPlace cl k sp .read x with
      | .ok l =>
        let d := min n (toLine x)
        s.engFetch cl k sp f (x + BitVec.ofNat 64 d) (n - d)
          (acc.1 ++ s.engBytes cl l d, acc.2 ++ (List.range d).map fun i => s.engPoison cl l.kind (l.addr + i))
      | r => .error r

/-- Bytes of one index of a gather or scatter list, and its address. -/
def EngCmd.idxLen (k : EngCmd) : Nat := if k.idx64 then 8 else 4
def EngCmd.idxAt (k : EngCmd) (i : Nat) : W64 := k.idxAddr + BitVec.ofNat 64 (k.idxLen * i)
/-- An index of a gather or scatter list, as a relaxed load (12 R270); the element being moved has its index already. -/
def State.engIndex (s : State) (cl : Nat) (k : EngCmd) (i : Nat) : Except EngRes Nat :=
  match k.elem.bind fun e => if e.1 = i then some e.2 else none with
  | some v => .ok v
  | none => (s.engFetch cl k k.idxSp 2 (k.idxAt i) k.idxLen ([], [])).map fun r => leNat r.1

/-- What stops an indexed element (12 Table 94): its extent reaches outside its space, or the space denies it. In .G an
address above 64 bits lies outside it; one that is no address of the space is denied by the translation (log 59). -/
def State.elemBad (s : State) (k : EngCmd) (sp : Nat) (base : W64) (off : Nat) : Option EngRes :=
  let x := base + BitVec.ofNat 64 off
  let of : Check → Option EngRes
    | .ok => none
    | .trap cause _ => some (.bad (if cause = Cause.access then 1 else 2) x)
    | _ => some (.bad 2 x)
  if 2 ^ 64 < base.toNat + off + k.esz then some (.bad 2 x)
  else if sp = 0 then none
  else if sp = 3 then of (s.vaultExtent k.tenant k.esz x)
  else match s.wgs.find? k.wg with
    | some w => of (s.extentCheck w sp k.esz x)
    | none => some (.bad 1 x)

/-- The piece at an offset of the payload. -/
def State.pieceAt (s : State) (cl : Nat) (k : EngCmd) (m : Nat) : Except EngRes Piece :=
  let b (n : Nat) : W64 := BitVec.ofNat 64 n
  let cut (src dst : W64) (rem : Nat) : Except EngRes Piece :=
    .ok { src := src, dst := dst, len := min rem (min (toLine src) (toLine dst)) }
  match k.op with
  | 0 => cut (k.src + b (m / k.n * k.spitch + m % k.n)) (k.dst + b (m / k.n * k.dpitch + m % k.n)) (k.n - m % k.n)
  | 1 =>
    (match s.engIndex cl k (m / k.esz) with
     | .error e => .error e
     | .ok i =>
       let x := k.src + b (i * k.esz)
       match s.elemBad k k.srcSp k.src (i * k.esz) with
       | none => cut (x + b (m % k.esz)) (k.dst + b m) (k.esz - m % k.esz)
       | some e => .error e)
  | 2 =>
    (match s.engIndex cl k (m / k.esz) with
     | .error e => .error e
     | .ok i =>
       let x := k.dst + b (i * k.esz)
       match s.elemBad k k.dstSp k.dst (i * k.esz) with
       | none => cut (k.src + b m) (x + b (m % k.esz)) (k.esz - m % k.esz)
       | some e => .error e)
  | _ => .ok { src := 0, dst := k.dst + b m, len := min (k.n - m) (toLine (k.dst + b m)) }

/-- The bytes of a piece, with their poison. -/
def State.pieceBytes (s : State) (cl : Nat) (k : EngCmd) (p : Piece) (m : Nat) : Except EngRes (List Byte × (Nat → Bool)) :=
  if k.op = 3 then
    .ok ((List.range p.len).map fun i => k.pattern.extractLsb' (8 * ((m + i) % 4)) 8, fun _ => false)
  else match s.engPlace cl k k.srcSp .read p.src with
    | .ok l => .ok (s.engBytes cl l p.len, fun i => s.engPoison cl l.kind (l.addr + i))
    | r => .error r

/-- Hold an engine command for a missing page. -/
def State.engPage (s : State) (cl : Nat) (k : EngCmd) (va : W64) (kind : Nat) : State :=
  { s with
    faults := s.faults ++ [{ part := s.tenantPart k.tenant, tenant := k.tenant, kind := kind, va := va
                             who := .engine cl k.id, report := va, held := none }] }
def State.engHeld (s : State) (cl id : Nat) : Bool := s.faults.any fun f => f.who = FaultWho.engine cl id

/-- A walk of the cluster's TLB for an engine access. -/
def State.engWalk (s : State) (cl : Nat) (k : EngCmd) (sp : Nat) (x : W64) : State :=
  if sp = 0 then s.walkUse cl k.tenant x else s
/-- A read of the engine passes the L2. -/
def State.engTouch (s : State) (cl : Nat) (k : EngCmd) (sp : Nat) (x : W64) (n : Nat) : State :=
  match s.engPlace cl k sp .read x with
  | .ok l => (s.engWalk cl k sp x).touchFor k.tenant n l
  | _ => s
/-- The index that a piece uses: read once for its element, and counted (12 R270, 17 R344). -/
def State.engElem (s : State) (cl : Nat) (k : EngCmd) (m : Nat) : State × EngCmd :=
  if k.op = 1 || k.op = 2 then
    let i := m / k.esz
    if k.elem.any (·.1 = i) then (s, k)
    else match s.engIndex cl k i with
      | .ok v => (s.engTouch cl k k.idxSp (k.idxAt i) k.idxLen, { k with elem := some (i, v) })
      | .error _ => (s, k)
  else (s, k)

/-- Move one piece; the command waits for a page, or stops. -/
def State.movePiece (sa : State) (cl : Nat) (ka : EngCmd) : State :=
  let (sb, k) := sa.engElem cl ka ka.moved
  let s := sb.updCmd cl k.id fun c => { c with elem := k.elem }
  let stop (s : State) : EngRes → AccKind → State
    | .page va, a => s.engPage cl k va (if a = .write then 1 else 0)
    | .bad r x, _ => s.updCmd cl k.id fun k => { k with fault := some r, faultAt := x }
    | .ok _, _ => s
  match s.pieceAt cl k k.moved with
  | .error e => stop s e .read
  | .ok p =>
    match s.pieceBytes cl k p k.moved with
    | .error e => stop s e .read
    | .ok (bs, bad) =>
      match s.engPlace cl k k.dstSp .write p.dst with
      | .ok l =>
        let s0 := if k.op = 3 then s else s.engTouch cl k k.srcSp p.src p.len
        let s1 := (s0.engWalk cl k k.dstSp p.dst).engWrite k.tenant l bs bad k.id
        (s1.engReport k l bs.length).updCmd cl k.id fun k => { k with moved := k.moved + p.len }
      | e => stop s e .write

/-- The command may read: with ACQ, and for CESTAT, every earlier command of its gang has completed (12 R266, R270);
CEDEC commands of one slot go in order (18 R373); in a partition in ERROR none runs (18 R370). -/
def State.engMayRun (s : State) (cl : Nat) (k : EngCmd) : Bool :=
  !(s.engHeld cl k.id) && !s.partStopped (s.tenantPart k.tenant)
  && (s.engine cl).all (fun o => k.id ≤ o.id || !((k.acq || k.op = 5) && o.gang = k.gang || k.op = 4 && o.op = 4 && o.key = k.key))
  && (!(k.acq || k.op = 5) || s.engines.all fun e => e.1 = cl || e.2.all fun o => k.id ≤ o.id || o.gang != k.gang)

/-- Move up to `fuel` pieces of a command's payload. -/
def State.moveMany (s : State) (cl id : Nat) : Nat → State
  | 0 => s
  | f + 1 =>
    match (s.engine cl).find? fun k => k.id = id with
    | none => s
    | some k =>
      if k.total ≤ k.moved || k.fault.isSome || !(s.engMayRun cl k) || k.rt.isSome || k.op = 4 || k.op = 5 then s
      else (s.movePiece cl k).moveMany cl id f

/-- The bytes of a register delivery, with their poison, read in place. -/
def State.gatherBytes (s : State) (cl : Nat) (k : EngCmd) : Nat → Nat → List Byte × List Bool → Except EngRes (List Byte × List Bool)
  | 0, _, acc => .ok acc
  | f + 1, m, acc =>
    if k.total ≤ m then .ok acc
    else match s.pieceAt cl { k with dst := 0 } m with
      | .error e => .error e
      | .ok p =>
        match s.pieceBytes cl k p m with
        | .error e => .error e
        | .ok (bs, bad) =>
          s.gatherBytes cl k f (m + p.len) (acc.1 ++ bs, acc.2 ++ (List.range p.len).map bad)

/-- The reads of a payload that is read whole pass the L2. -/
def State.touchPieces (cl : Nat) (k : EngCmd) : Nat → Nat → State → State
  | 0, _, s => s
  | f + 1, m, s =>
    if k.total ≤ m then s
    else match s.pieceAt cl { k with dst := 0, op := if k.op = 4 then 0 else k.op } m with
      | .ok p =>
        let (s1, k1) := s.engElem cl k m
        State.touchPieces cl k1 f (m + p.len) (s1.engTouch cl k k.srcSp p.src p.len)
      | .error _ => s

/-- Deliver bytes to registers: byte k to v(VR + k / 128), lane (k / 4) mod 32 (12 R269). -/
def State.deliverRt (s : State) (k : EngCmd) (vr : Nat) (pid : Nat) (bs : List Byte) (bad : List Bool) : State :=
  s.updGang k.gang fun g =>
    let fill (d : Dest) : Dest :=
      let o := 128 * (d.key % 256 - vr) + 4 * (d.key / 256)
      { d with val := BitVec.ofNat 64 (leNat ((bs.drop o).take 4)), poison := ((bad.drop o).take 4).any id }
    let upd (p : Producer) : Producer := if p.id = pid then { p with dests := p.dests.map fill } else p
    let g1 : Gang := { g with prods := g.prods.map upd }
    g1.complete pid

/-- A missing page of the destination of a payload that is performed whole: looked for before any of it is written. -/
def State.dstPage (s : State) (cl : Nat) (k : EngCmd) (x : W64) (n : Nat) : Nat → Option W64
  | 0 => none
  | f + 1 =>
    if n = 0 then none
    else match s.engPlace cl k k.dstSp .write x with
      | .ok _ => let d := min n (toLine x); s.dstPage cl k (x + BitVec.ofNat 64 d) (n - d) f
      | .page va => some va
      | .bad _ _ => none

/-- What is left of a payload that is performed whole: register deliveries, CEDEC and CESTAT. -/
def State.engWhole (s : State) (cl : Nat) (k : EngCmd) : State :=
  let stop (s : State) : EngRes → AccKind → State
    | .page va, a => s.engPage cl k va (if a = .write then 1 else 0)
    | .bad r x, _ => s.updCmd cl k.id fun k => { k with fault := some r, faultAt := x }
    | .ok _, _ => s
  let rec put (s : State) (x : W64) (bs : List Byte) (bad : List Bool) : Nat → State
    | 0 => s
    | f + 1 =>
      if bs.isEmpty then s
      else match s.engPlace cl k k.dstSp .write x with
        | .ok l =>
          let n := min bs.length (toLine x)
          put (((s.engWalk cl k k.dstSp x).engWrite k.tenant l (bs.take n) (fun i => bad.getD i false) k.id).updCmd cl k.id
            fun k => { k with moved := k.moved + n }) (x + BitVec.ofNat 64 n) (bs.drop n) (bad.drop n) f
        | e => stop s e .write
  let wr (s : State) (bs : List Byte) (bad : List Bool) : State := put s k.dst bs bad (bs.length + 1)
  match (if k.rt.isSome then none else s.dstPage cl k k.dst k.total (k.total + 1)), k.op, k.rt with
  | some va, _, _ => s.engPage cl k va 1
  | none, 5, _ =>
    let cnt := match s.gangs.find? k.gang with
      | some g => (g.cmdIssued, g.cmdDone, g.cmdFault)
      | none => k.counts.getD (0, 0, 0)
    wr s (leBytes 4 cnt.1 ++ leBytes 4 cnt.2.1 ++ leBytes 4 cnt.2.2 ++ leBytes 4 (s.engine cl).length) []
  | none, 4, _ =>
    (match s.engFetch cl k 0 (k.n + 1) k.src k.n ([], []), s.engFetch cl k 0 1 k.tagAddr 16 ([], []) with
     | .error e, _ => stop s e .read
     | .ok _, .error e => stop s e .read
     | .ok (bs, bad), .ok lt =>
       let tag := leNat lt.1
       let tbl := s.chans.getD k.key []
       let mat := s.keyMat.getD k.key 0
       let iv := k.chan * 2 ^ 64 + k.ctr.toNat
       let rej (s : State) (r : Nat) : State := s.updCmd cl k.id fun k => { k with fault := some r }
       if (tbl.find? k.chan).isNone && 64 ≤ tbl.length then rej s 5
       else
         let last := tbl.getD k.chan 0
         let s0 := (State.touchPieces cl k k.n 0 s).engTouch cl k 0 k.tagAddr 16
         let s1 := { s0 with chans := s0.chans.set k.key (tbl.set k.chan last) }
         if k.ctr.toNat ≤ last.toNat then rej s1 4
         else if Config.gcmTag mat iv bs != tag then rej s1 3
         else
           let s2 := { s1 with chans := s1.chans.set k.key (tbl.set k.chan k.ctr) }
           wr s2 (Config.gcmPlain mat iv bs) bad)
  | none, _, some (vr, _, pid) =>
    (match s.gatherBytes cl k k.total 0 ([], []) with
     | .error e => stop s e .read
     | .ok (bs, bad) => ((State.touchPieces cl k k.total 0 s).deliverRt k vr pid bs bad).updCmd cl k.id fun k => { k with moved := k.total })
  | none, _, none => s

/-- The cause and the address that firmware reports for a fault of a command (12 R268, 05 Table 44): a denied access, an
index that reaches outside its space. For a CEDEC rejection the rules name neither: both are free values (log 49). -/
def State.engReason (s : State) (k : EngCmd) (r : Nat) : Nat × W64 × State :=
  if r = 1 then (Cause.access, k.faultAt, s)
  else if r = 2 then (Cause.bounds, k.faultAt, s)
  else
    let (x, s1) := s.takeFree
    let (y, s2) := s1.takeFree
    (Config.freeNat x % 256, Config.freeW64 y, s2)

/-- A fault of a command becomes a fault of its workgroup, or of the launch where that has ended (12 R268). -/
def State.engKill (s : State) (k : EngCmd) (cause : Nat) (addr : W64) : State :=
  let r : Report := { cause := cause, pc := pcImage k.pc, addr := addr }
  if (s.wgs.find? k.wg).isSome then s.terminate k.wg r
  else s.updLaunch k.launch fun L => { L with report := some (L.report.getD r) }

/-- The signal word's value: SV, or the status of a faulted command (12 Table 94). -/
def EngCmd.sigValue (k : EngCmd) : W64 :=
  match k.fault with
  | none => k.sv
  | some r =>
    let done := if k.op = 4 then 0 else k.moved
    BitVec.ofNat 64 (done % 2 ^ 48 + 2 ^ 48 * r + 2 ^ 56 * k.fst)

/-- A command leaves the queue: it is counted, groups that wait for a place issue again, a final barrier is looked at. -/
def State.engRetire (s : State) (cl : Nat) (k : EngCmd) (faulted : Bool) : State :=
  let s1 := s.setEngine cl ((s.engine cl).filter fun e => e.id != k.id)
  let up (n m : Nat) : Nat := (n + m) % 2 ^ 32
  let s2 := { s1.updGang k.gang fun g => { g with cmdDone := up g.cmdDone 1, cmdFault := up g.cmdFault (b2n faulted) } with
    engines := s1.engines.mapVals fun q => q.map fun (e : EngCmd) =>
      if e.gang = k.gang then { e with counts := e.counts.map fun (c : Nat × Nat × Nat) => (c.1, up c.2.1 1, up c.2.2 (b2n faulted)) } else e }
  let s3 := { s2 with
    gangs := s2.gangs.mapVals fun (g : Gang) =>
      match s2.wgs.find? g.wg with
      | some w => if clusterOf w.pid = cl then g.dropWaits (fun (x : Wait) => decide (x.kind = WaitKind.engine)) else g
      | none => g }
  s3.checkBarc k.wg 4 s3.engineIdle

/-- A command of a task leaves it, with the fault that it stopped for (16 R328). -/
def State.engTaskDone (s : State) (k : EngCmd) (r : Option Nat) : State :=
  match k.task with
  | none => s
  | some (_, id) =>
    { s with tasks := s.tasks.upd id fun t =>
        { t with
          cmds := t.cmds.filter fun c => c.2 != k.id
          fault := match r with
            | some r => some { cause := 0x07, sub := r, bind := 0xF, detail := BitVec.ofNat 64 k.moved, trappc := 0 }
            | none => t.fault } }

/-- A faulted register delivery leaves its registers empty, and its gang's words are issued again (01 R18, 12 R269). -/
def State.dropRt (s : State) (k : EngCmd) : State :=
  match k.rt, k.fault with
  | some (_, _, pid), some _ => s.updGang k.gang fun g => ({ g with prods := g.prods.filter fun p => p.id != pid } : Gang).retry
  | _, _ => s

/-- ENG_COMPLETE: the rest of the payload, performed at peers too, then completion, release and signal (12 R266, R268). -/
def State.engFinish (s : State) (cl id : Nat) : State :=
  match (s.engine cl).find? fun k => k.id = id with
  | none => s
  | some k0 =>
    if !(s.engMayRun cl k0) then s
    else
      let s1 := if k0.op = 4 || k0.op = 5 || k0.rt.isSome then
          (if k0.moved < k0.total && k0.fault.isNone then s.engWhole cl k0 else s)
        else s.moveMany cl id k0.total
      match (s1.engine cl).find? fun k => k.id = id with
      | none => s1
      | some k =>
        if s1.engHeld cl id || (k.fault.isNone && k.moved < k.total) then s1
        else
          let s2 := if k.rel && k.fault.isNone then s1.drainScope k.core k.scope else s1
          if k.fault.isNone && s2.peerWrites 0 k.id then s2
          else match k.sig with
          | none =>
            (match k.fault with
             | none => (s2.engRetire cl k false).engTaskDone k none
             | some r =>
               if k.task.isSome then (s2.engRetire cl k true).engTaskDone k (some r)
               else
                 let (cause, addr, s3) := s2.engReason k r
                 ((s3.dropRt k).engRetire cl k true).engKill k cause addr)
          | some x =>
            match s2.engPlace cl k (sigSp x) .write (sigX x) with
            | .page va => s2.engPage cl k va 1
            | .bad _ _ => ((s2.dropRt k).engRetire cl k true).engKill k Cause.access (sigX x)
            | .ok l =>
              (((s2.engWalk cl k (sigSp x) (sigX x)).engWrite k.tenant l (leBytes 8 k.sigValue.toNat) fun _ => false).dropRt k).engRetire cl k k.fault.isSome

end Sys2Proof.Machine
end

