-- ==== Sys2Proof/Machine/Matrix.lean ====
section
/-! DEFINITION. The MMA class: quarter operations, their rendezvous, the matrix array, and the lane-local matrix words
(08 R185 to R203, 02 R40 to R45). -/

namespace Sys2Proof.Machine

/-- A register write that leaves the full/empty bit: D between the blocks of an operation. -/
def Gang.putV (g : Gang) (l r : Nat) (x : W32) : Gang := { g with vr := g.vr.put 0 (vkey l r) x }

/-! ### Block arithmetic (02 R31, R42 to R45) -/

/-- Product of two elements: LG6 exponents are added first (02 R31). -/
def mmaProduct (fa fb : BitVec 4) (x y : Nat) : FVal :=
  if fa = Fmt.lg6 && fb = Fmt.lg6 then
    match lgParts x, lgParts y with
    | (s, some e), (t, some f) => lgLinear (s != t) (e + f)
    | (s, _), (t, _) => .fin (s != t) 0 0
  else (valueOf fa x).mul (valueOf fb y)

/-- Floor of log2 of a nonzero finite magnitude. -/
def FVal.lg : FVal → Option Int
  | .fin _ m e => if m = 0 then none else some ((Nat.log2 m : Int) + e)
  | _ => none

/-- Cut to the window whose lowest bit has weight 2^g (02 R44). -/
def cutTo (g : Int) : FVal → FVal
  | .fin s m e => if e ≤ g then .fin s (m / 2 ^ (g - e).toNat) g else .fin s m e
  | v => v

/-- The products as the path sums them. -/
def pathTerms (win : Bool) (ps : List FVal) : List FVal :=
  if !win then ps
  else
    match (ps.filterMap Sys2Proof.Machine.FVal.lg) with
    | [] => ps
    | x :: xs => ps.map (cutTo (xs.foldl max x - 27))

def scaleBy (k : Int) : FVal → FVal
  | .fin s m e => .fin s m (e + k)
  | v => v

/-- One block step of 02 R42: the new accumulator and the flags, NV and OF only. -/
def blockStep (acc : Nat) (ps : List FVal) (sa sb : Nat) (win : Bool) : Nat × Flg :=
  let bad := ps.any (·.isNan) || sa = 255 || sb = 255
    || (ps.any (fun p => p.isInf && p.sign) && ps.any fun p => p.isInf && !p.sign)
  let blk : FRes :=
    if bad then (fmtFp32.nanCode, fNV)
    else sumRound fmtFp32 .rne ((pathTerms win ps).map (scaleBy ((sa : Int) + sb - 254)))
  let r := addNE acc blk.1
  (r.1, (blk.2 ||| r.2) &&& (fNV ||| fOF))

/-! ### The words -/

/-- A quarter operation. `kind`: 0 MMA, 1 TLMA, 2 TLPRE; scale registers with their byte selects. -/
structure MInfo where
  kind : Nat
  w : MmaW
  sca : Option (Nat × Nat)
  scb : Option (Nat × Nat)

def mInfo : Instr → Option MInfo
  | .mma w k =>
    some { kind := 0, w := w
           sca := if scaledFmt w.fa then some ((k.extractLsb' 112 8).toNat, (k.extractLsb' 110 2).toNat) else none
           scb := if scaledFmt w.fb then some ((k.extractLsb' 102 8).toNat, (k.extractLsb' 100 2).toNat) else none }
  | .tlma w k =>
    some { kind := 1, w := w, sca := none, scb := some ((k.extractLsb' 102 8).toNat, (k.extractLsb' 100 2).toNat) }
  | .tlpre w => some { kind := 2, w := w, sca := none, scb := none }
  | _ => none

/-- Bytes of an A row, of a B row, and of an output row, for K (08 R189, R190, R199, R200). -/
def MInfo.aBytes (m : MInfo) (k : Nat) : Nat :=
  match m.kind with
  | 0 => widthOf m.w.fa * k / 8
  | 1 => 16 * k
  | _ => 2 * k
def MInfo.bBytes (m : MInfo) (k : Nat) : Nat :=
  match m.kind with
  | 0 => widthOf m.w.fb * k / 8
  | 1 => (if m.w.tr = 1 then 2 else 1) * (k / 8)
  | _ => 0
/-- Registers of a B operand: a W2 operand has two planes. -/
def MInfo.bRegs (m : MInfo) (k : Nat) : Nat :=
  if m.kind = 1 then (if m.w.tr = 1 then 2 else 1) * ((k + 31) / 32) else (m.bBytes k + 3) / 4
/-- A and B are in registers. -/
def MInfo.aReg (m : MInfo) : Bool := m.kind != 1 && m.w.as = 0
def MInfo.bReg (m : MInfo) : Bool := m.kind != 2 && m.w.bs = 0
def MInfo.hasD (m : MInfo) : Bool := m.kind != 2

/-- Register runs that K and the fields reach, with their full/empty mode (true: trap). -/
def MInfo.runs (m : MInfo) (k : Nat) : List (Nat × Nat × Bool) :=
  let sc (x : Option (Nat × Nat)) : List (Nat × Nat × Bool) :=
    match x with
    | some (r, sel) => [(r, (sel + k / 8 - 1) / 4 + 1, false)]
    | none => []
  (if m.aReg then [(m.w.va.toNat, (m.aBytes k + 3) / 4, decide (m.w.ea = 1))] else [])
    ++ (if m.bReg then [(m.w.vb.toNat, m.bRegs k, decide (m.w.eb = 1))] else []) ++ sc m.sca ++ sc m.scb

/-- Registers that the operation writes. -/
def MInfo.outs (m : MInfo) : List (Nat × Nat) := (if m.hasD then [(m.w.vd.toNat, 8)] else []) ++ [(m.w.vst.toNat, 1)]

/-! ### Arrival and rendezvous (08 R185 to R187) -/

/-- Lanes of a quarter. -/
def quarterMask (q : Nat) : LaneMask := BitVec.ofNat 32 (255 * 2 ^ (8 * q))

/-- Lanes of a quarter arrive at a word: they join those that wait there. -/
def Gang.arrive (g : Gang) (q : Nat) (pc : PCAddr) (ins : Instr) (lanes parts : LaneMask) : Gang :=
  let h := g.setPc lanes pc
  match g.qops.find? fun o => o.q = q && o.pc = pc && o.phase = .rendezvous with
  | some o =>
    { h with
      qops := h.qops.map fun x =>
        if x.wait = o.wait then { x with arrived := x.arrived ||| lanes, parts := x.parts ||| parts } else x
      waits := h.waits.map fun x => if x.id = o.wait then { x with lanes := x.lanes ||| lanes } else x }
  | none =>
    let fresh := !(g.qops.any fun o => o.pc = pc && o.phase = .rendezvous)
    { h.addWait lanes .matrix with
      qops := h.qops ++ [{ wait := g.nextId, q := q, pc := pc, ins := ins, arrived := lanes, parts := parts,
                           phase := .rendezvous, order := 0, cycle := 0, k := 0, a0 := 0, a1 := 0, b0 := 0, b1 := 0,
                           next := 0, prod := 0 }]
      rdvCnt := if fresh then h.rdvCnt.put 0 pc.toNat 0 else h.rdvCnt }

/-- MMA, TLMA and TLPRE: every lane of the group arrives, whatever its guard; the rest follows at the rendezvous. -/
def quarterWord (ins : Instr) (w : MmaW) (sregs : List Nat) : State → Out :=
  coreWord ins { active := guardOf w.g, words := ins.wordCount, ssrcs := sregs, producer := true } noChk fun c s =>
    s.updGang c.gid fun g =>
      (List.range 4).foldl (fun g q =>
        let m := c.grp &&& quarterMask q
        if m = 0 then g else g.arrive q c.pc ins m (c.act &&& m)) g

/-- Scalar registers of a quarter operation. -/
def mSregs (m : MmaW) (a b : Bool) : List Nat :=
  m.sk.toNat :: ((if a then [m.sa0.toNat, m.sa1.toNat] else []) ++ if b then [m.sb0.toNat, m.sb1.toNat] else [])
def execMma (w : MmaW) (k : BitVec 120) : State → Out := quarterWord (.mma w k) w (mSregs w (w.as = 1) (w.bs = 1))
def execTlma (w : MmaW) (k : BitVec 120) : State → Out := quarterWord (.tlma w k) w (mSregs w true (w.bs = 1))
def execTlpre (w : MmaW) : State → Out := quarterWord (.tlpre w) w (mSregs w (w.as = 1) true)

/-! ### Scratchpad tiles (08 R190, R191) -/

/-- Offset of the first byte of row r of quarter q's tile, and of byte k of the row. -/
def tileBase (d0 d1 imm : W64) (q r : Nat) : W64 :=
  BitVec.ofNat 64 (fld d0 0 18 + q * fld d1 0 18 + r * fld d0 32 16) + imm
def tileOff (d0 d1 imm : W64) (q r k : Nat) : Nat :=
  let rot := fld d1 20 3
  let k' := if rot = 0 then k else k ^^^ (4 * (r % 8 * 2 ^ (rot - 1) % 32))
  (tileBase d0 d1 imm q r + BitVec.ofNat 64 k').toNat

/-- Reserved bits and ROT of a descriptor, then the alignment of its fields. -/
def descReserved (d0 d1 : W64) : Check :=
  if fld d0 18 14 != 0 || fld d0 48 16 != 0 then .trap Cause.bounds d0
  else if fld d1 18 2 != 0 || fld d1 23 41 != 0 || 6 ≤ fld d1 20 3 then .trap Cause.bounds d1 else .ok
def descAlign (d0 d1 : W64) : Check :=
  [fld d0 0 18, fld d0 32 16, fld d1 0 18].foldl (fun k x =>
    k.next (if x % 16 != 0 then .trap Cause.align (BitVec.ofNat 64 x) else .ok)) .ok

/-- The first byte of a row that lies at or beyond the allotment: rotation keeps a byte within its 128. -/
def rowCheck (d0 d1 imm : W64) (q r n allot : Nat) : Check :=
  let rb := (tileBase d0 d1 imm q r).toNat
  let c0 := if allot ≤ rb then 0 else (allot - rb) / 128 * 128
  let ks := (List.range 128).map (fun j => c0 + j)
  match ks.find? fun k => k < n && allot ≤ tileOff d0 d1 imm q r k with
  | some k => .trap Cause.bounds (BitVec.ofNat 64 (tileOff d0 d1 imm q r k))
  | none => .ok

/-! ### Checks at the rendezvous (08 R193, R196, R202) -/

def kCheck (k : W64) : Check :=
  if k.toNat % 8 != 0 || k.toNat < 8 || 65536 < k.toNat then .trap Cause.bounds k else .ok

/-- Register range, D's multiple, and the overlap of D (08 R189, R196). -/
def MInfo.regCheck (m : MInfo) (g : Gang) (k : Nat) : Check :=
  let d := m.w.vd.toNat
  let runs := (m.runs k).map fun r => (r.1, r.2.1)
  if (runs ++ m.outs).any fun r => g.base + g.xcount < r.1 + r.2 then illegalSub 0x05
  else if m.hasD && d % 8 != 0 then illegalSub 0x06
  else if m.hasD && ((m.w.vst.toNat, 1) :: runs).any fun r => r.1 < d + 8 && d < r.1 + r.2 then
    .trap Cause.bounds (BitVec.ofNat 64 k)
  else .ok

/-- Registers of a run that meet a condition in a participant. -/
def runHits (p : Nat → Bool) (parts : LaneMask) (r : Nat × Nat) : List (Nat × Nat) :=
  (List.range r.2).flatMap fun j => ((lanesOf parts).filter fun l => p (vkey l (r.1 + j))).map fun l => (r.1 + j, l)

/-- A mode-0 register is empty in a participant (08 R202). -/
def MInfo.mustWait (m : MInfo) (g : Gang) (o : QOp) : Bool :=
  (m.outs ++ ((m.runs o.k).filter fun r => !r.2.2).map fun r => (r.1, r.2.1)).any fun r =>
    !(runHits g.empty.contains o.parts r).isEmpty

/-- The state word of the lowest participant: none where it is not one of Table 63, some none where DONE. -/
def stateOf (x : W32) (k : Nat) : Option (Option Nat) :=
  let st := fld (x.setWidth 64) 0 4
  let why := fld (x.setWidth 64) 4 8
  let bd := fld (x.setWidth 64) 12 20
  if x = 0 then some (some 0)
  else if st = 1 && (why = 1 || why = 2) && bd < k / 8 then some (some bd)
  else if st = 3 && why = 0 then some none
  else none

/-- An operation with its operands read. -/
def QOp.load (o : QOp) (g : Gang) : QOp :=
  match mInfo o.ins with
  | some m =>
    { o with
      k := (g.s m.w.sk.toNat).toNat
      a0 := if m.aReg then 0 else g.s m.w.sa0.toNat, a1 := if m.aReg then 0 else g.s m.w.sa1.toNat
      b0 := if m.bReg then 0 else g.s m.w.sb0.toNat, b1 := if m.bReg then 0 else g.s m.w.sb1.toNat }
  | none => o

/-- The descriptor checks of the quarters checked together (08 R191). -/
def descChecks (ops : List QOp) (allot : Nat) : Check :=
  let ds (o : QOp) : List (W64 × W64) :=
    match mInfo o.ins with
    | some m => (if m.aReg then [] else [(o.a0, o.a1)]) ++ if m.bReg then [] else [(o.b0, o.b1)]
    | none => []
  let each (f : QOp → Check) : Check := ops.foldl (fun k o => k.next (f o)) .ok
  let rows (d0 d1 : W64) (q n : Nat) (rs : List Nat) : Check :=
    rs.foldl (fun k r => k.next (rowCheck d0 d1 0 q r n allot)) .ok
  ((each fun o => (ds o).foldl (fun k d => k.next (descReserved d.1 d.2)) .ok).next
    (each fun o => (ds o).foldl (fun k d => k.next (descAlign d.1 d.2)) .ok)).next
    (each fun o =>
      match mInfo o.ins with
      | none => .ok
      | some m =>
        let mine := (lanesOf o.parts).map (· % 8)
        ((if m.aReg then .ok else rows o.a0 o.a1 o.q (m.aBytes o.k) mine).next
          (if m.kind != 2 && !m.bReg then rows o.b0 o.b1 o.q (m.bBytes o.k) (List.range 8) else .ok)).next
          (if m.kind = 2 then rows o.b0 o.b1 o.q (16 * o.k) mine else .ok))

/-- Quarter operations leave a gang; words that wait for the gang's matrix words issue again. -/
def Gang.dropQ (g : Gang) (p : QOp → Bool) : Gang :=
  let ids := (g.qops.filter p).map (·.wait)
  let g1 := ({ g with qops := g.qops.filter fun o => !p o }.dropWaits fun w => ids.contains w.id).retry
  { g1 with rdvCnt := g1.rdvCnt.filter fun e => g1.qops.any fun o => o.phase = .rendezvous && o.pc.toNat = e.1 }

/-- The arrived lanes of an operation that still wait for it: a return from the handler may have taken some away. -/
def Gang.lanesOfQ (g : Gang) (o : QOp) : LaneMask :=
  g.waits.foldl (fun m w => if w.id = o.wait then m ||| w.lanes else m) 0

/-- The arrived lanes of an ended operation move to the next instruction (08 R185). -/
def Gang.passQ (g : Gang) (o : QOp) : Gang :=
  let m := g.lanesOfQ o
  ((g.dropQ fun x => x.wait = o.wait).setPc m (o.pc + BitVec.ofNat 57 (16 * o.ins.wordCount))).freshAge m

/-- Checks of quarters together; a quarter that must wait is set apart (08 R196, R202). -/
def State.startQuarters (s : State) (gid : Nat) (ops0 : List QOp) : State :=
  match s.gangs.find? gid with
  | none => s
  | some g =>
    match s.wgs.find? g.wg with
    | none => s
    | some w =>
      let ops := ops0.map fun o => o.load g
      let act := ops.filter fun o => o.parts != 0
      let each (os : List QOp) (f : QOp → MInfo → Check) : Check :=
        os.foldl (fun k o => k.next (match mInfo o.ins with | some m => f o m | none => .ok)) .ok
      let fail (s : State) (os : List QOp) (c : Check) : State :=
        match c with
        | .trap cause a =>
          let m := os.foldl (fun m o => m ||| g.lanesOfQ o) 0
          let pc := match os with | o :: _ => o.pc | [] => 0
          ((s.updGang gid fun g => g.dropQ fun x => os.any fun o => o.wait = x.wait).takeTrap gid m cause (pcImage pc) a)
        | _ => s
      let first := (each act fun o _ => kCheck (BitVec.ofNat 64 o.k)).next (each act fun o m => m.regCheck g o.k)
      match first with
      | .ok =>
        let held := act.filter fun o => match mInfo o.ins with | some m => m.mustWait g o | none => false
        let go := ops.filter fun o => !(held.any fun h => h.wait = o.wait)
        let goAct := go.filter fun o => o.parts != 0
        let s1 := s.updGang gid fun g =>
          { g with qops := g.qops.map fun x => if held.any fun h => h.wait = x.wait then { x with phase := .empties } else x }
        let es := goAct.flatMap fun o =>
          match mInfo o.ins with
          | some m => ((m.runs o.k).filter fun r => r.2.2).flatMap fun r => runHits g.empty.contains o.parts (r.1, r.2.1)
          | none => []
        let ps := goAct.flatMap fun o =>
          match mInfo o.ins with | some m => m.outs.flatMap (runHits g.poison.contains o.parts) | none => []
        let st (o : QOp) (m : MInfo) : Check :=
          let x := g.v (lowLane o.parts) m.w.vst.toNat
          if (stateOf x o.k).isNone then .trap Cause.bounds (x.setWidth 64) else .ok
        let k : Check := (((if es.isEmpty then Check.ok else .trap Cause.feEmpty (feAddr es)) : Check).next
          (match ps.map (·.1) with | [] => .ok | r :: rs => .trap Cause.poison (BitVec.ofNat 64 (rs.foldl min r)))).next
          ((each goAct st).next (descChecks goAct w.scrLen))
        (match k with
         | .ok =>
           go.foldl (fun s o =>
             s.updGang gid fun g =>
               let m0 : Option (Option Nat) :=
                 match mInfo o.ins with
                 | some m => if o.parts == (0 : LaneMask) then some none else stateOf (g.v (lowLane o.parts) m.w.vst.toNat) o.k
                 | none => some none
               match m0, mInfo o.ins with
               | some (some b), some m =>
                 let ds : List Dest := m.outs.flatMap fun r => (List.range r.2).flatMap fun j =>
                   (lanesOf o.parts).map fun l => { key := vkey l (r.1 + j), val := 0, poison := false }
                 let g1 := g.addProducer ds false 0
                 let up (x : QOp) : QOp :=
                   if x.wait = o.wait then
                     { o with phase := .queued, next := b, prod := g.nextId, cycle := s.cycle }
                   else x
                 { g1 with qops := g1.qops.map up }
               | _, _ => g.passQ o) s1
         | _ => fail s1 go k)
      | k => fail s ops k

/-- Rendezvous that are complete, word by word: their units merge, they take their place in the order of the array, and
their checks are made together in ascending quarter order; quarters whose wait for empty registers has ended are checked
alone. -/
def State.rdvScan (s : State) (gid : Nat) : State :=
  match s.gangs.find? gid with
  | none => s
  | some g =>
    let done (o : QOp) : Bool := o.phase = .rendezvous && (g.liveMask &&& quarterMask o.q &&& ~~~o.arrived) = 0
    let pcs := ((g.qops.filter done).map (·.pc)).eraseDups
    let s1 := pcs.foldl (fun s pc =>
      match s.gangs.find? gid with
      | none => s
      | some _ =>
        let mine (o : QOp) : Bool := done o && o.pc = pc
        let s2 := s.updGang gid fun g =>
          let h := (g.qops.filter mine).foldl (fun g o => g.mergeUnits (((lanesOf (o.arrived &&& g.liveMask)).map g.unit).eraseDups)) g
          { h with qops := h.qops.map fun o =>
              if mine o then { o with order := s.cycle * 64 + h.slotOf (h.unit (lowLane o.arrived)) * 4 + o.q } else o }
        let os := match s2.gangs.find? gid with
          | some h => (List.range 4).flatMap fun q => h.qops.filter fun o => mine o && o.q = q
          | none => []
        s2.startQuarters gid os) s
    (g.qops.filter fun o => o.phase = .empties).foldl (fun s o =>
      match s.gangs.find? gid, mInfo o.ins with
      | some g, some m =>
        let o1 := o.load g
        if g.qops.any (fun x => x.wait = o.wait && x.phase = .empties) && !(m.mustWait g o1) then s.startQuarters gid [o] else s
      | _, _ => s) s1

/-! ### The array (08 R194, R195, R197, R198) -/

/-- Gangs resident in a core partition. -/
def State.partGangs (s : State) (pid : Nat) : List (Nat × Gang) :=
  s.gangs.filter fun e => match s.wgs.find? e.2.wg with | some w => w.pid = pid && w.status = .resident | none => false

/-- What fused quarters share (08 R197). -/
def fuseKey (o : QOp) : Option (List Nat) :=
  match mInfo o.ins with
  | some m =>
    if m.w.bs = 1 && fld o.b1 0 18 = 0 then
      some [m.kind, m.w.fa.toNat, m.w.fb.toNat, m.w.win.toNat, m.w.tr.toNat, o.k, o.next, o.b0.toNat, o.b1.toNat]
    else none
  | none => none

/-- A stop is due: a pre-emption or save of the workgroup, or a cancel that the gang takes (08 R195, 05 R135). -/
def State.stopDue (s : State) (g : Gang) : Bool :=
  (match s.wgs.find? g.wg with | some w => w.preempt | none => true)
  || (g.cancel.isSome && !g.handler && !(g.trapbase.getLsbD 0))

/-- An operation stops or completes: D keeps its sums, the state word is written to every participant. -/
def Gang.endQ (g : Gang) (o : QOp) (word : W32) (pass : Bool) : Gang :=
  let g1 := match mInfo o.ins with
    | some m =>
      let fill (d : Dest) : Dest :=
        { d with val := if d.key % 256 = m.w.vst.toNat then word.setWidth 64 else (g.v (d.key / 256) (d.key % 256)).setWidth 64 }
      let upd (p : Producer) : Producer := if p.id = o.prod then { p with dests := p.dests.map fill } else p
      let h : Gang := { g with prods := g.prods.map upd }
      h.complete o.prod
    | none => g
  if pass then g1.passQ o else (g1.dropQ fun x => x.wait = o.wait).freshAge (g.lanesOfQ o)

def susWord (reason next : Nat) : W32 := BitVec.ofNat 32 (1 + 16 * reason + 4096 * next)
def doneWord (k : Nat) : W32 := BitVec.ofNat 32 (3 + 4096 * (k / 8))

/-- Cycles of the array for a step of a pass, and the blocks of one step (08 Table 65). -/
def QOp.period (o : QOp) : Nat :=
  match mInfo o.ins with
  | some m =>
    let wide (f : BitVec 4) : Bool := 16 ≤ widthOf f
    if m.kind = 2 || m.kind = 0 && (wide m.w.fa || wide m.w.fb) then 2 else 1
  | none => 1
def QOp.blocks (o : QOp) : Nat :=
  match mInfo o.ins with
  | some m => if m.kind = 1 || m.kind = 0 && m.w.fa = Fmt.lg6 && m.w.fb = Fmt.lg6 then 2 else 1
  | none => 1

/-- A running operation at a block boundary: complete, stop, or go on. -/
def State.boundary (s : State) (gid : Nat) (o : QOp) : State :=
  match s.gangs.find? gid with
  | none => s
  | some g =>
    match g.qops.find? fun x => x.wait = o.wait with
    | none => s
    | some x =>
      if x.k / 8 ≤ x.next then s.updGang gid fun g => g.endQ x (doneWord x.k) true
      else if s.stopDue g then s.updGang gid fun g => g.endQ x (susWord 1 x.next) false
      else s

/-- Operations of a pass that still run. -/
def State.livePass (s : State) (pass : List (Nat × Nat)) : List (Nat × Nat) :=
  pass.filter fun e => match s.gangs.find? e.1 with | some g => g.qops.any fun o => o.wait = e.2 | none => false

/-- Operations that wait for the array when a stop is due write their state and stop (08 R195). -/
def State.stopQueued (s : State) (gid : Nat) : State :=
  match s.gangs.find? gid with
  | none => s
  | some g =>
    if s.stopDue g then
      s.updGang gid fun g => (g.qops.filter fun o => o.phase = .queued).foldl (fun g o => g.endQ o (susWord 1 o.next) false) g
    else s

/-- MATRIX_PASS_START: rendezvous are looked at, and a free array takes the first operation that waits, with those that
fuse with it. While fewer than four do, the free array leaves 2 cycles for others to start with it (08 R197; log 63). -/
def State.passStart (s : State) (pid : Nat) : State :=
  let s1 := (s.partGangs pid).foldl (fun s e => (s.rdvScan e.1).stopQueued e.1) s
  let cp := s1.cpart pid
  if !(s1.livePass cp.pass).isEmpty then s1
  else
    let all := (s1.partGangs pid).flatMap fun e => (e.2.qops.filter fun o => o.phase = .queued).map fun o => (e.1, o)
    match all with
    | [] => s1.setCpart pid { cp with pass := [] }
    | x :: xs =>
      let head := xs.foldl (fun a e => if e.2.order < a.2.order then e else a) x
      let fuse := fld (s1.pmatrix pid) 32 1 = 1
      let mates := if fuse then
          all.filter fun e => e.1 = head.1 && e.2.wait != head.2.wait && (fuseKey head.2).isSome
            && fuseKey e.2 = fuseKey head.2
        else []
      let pass := head :: mates.take 3
      if fuse && (fuseKey head.2).isSome && pass.length < 4 && s1.cycle < max head.2.cycle cp.array + 2 then
        s1.setCpart pid { cp with pass := [] }
      else
      let s2 := pass.foldl (fun s e => s.updGang e.1 fun g =>
        { g with qops := g.qops.map fun o => if o.wait = e.2.wait then { o with phase := .running } else o }) s1
      let s3 := pass.foldl (fun s e => s.boundary e.1 e.2) s2
      let ids := pass.map fun e => (e.1, e.2.wait)
      let left := s3.livePass ids
      s3.setCpart pid { s3.cpart pid with pass := left, array := s.cycle + if left.isEmpty then 0 else head.2.period }

/-- A byte of a row: from scratchpad or registers, with the address that POISON would report. -/
def rowByte (s : State) (wid : Nat) (g : Gang) (reg : Option Nat) (d0 d1 : W64) (q r k : Nat) : Byte × Option W64 :=
  match reg with
  | some v =>
    let l := 8 * q + r
    ((g.v l (v + k / 4)).extractLsb' (8 * (k % 4)) 8,
     if g.poison.contains (vkey l (v + k / 4)) then some (BitVec.ofNat 64 (v + k / 4)) else none)
  | none =>
    let o := tileOff d0 d1 0 q r k
    (s.scrByte wid o, if s.homePoison (.scr wid) o then some (BitVec.ofNat 64 o) else none)

/-- n bytes of a row as a number, with the first poison. -/
def rowBits (s : State) (wid : Nat) (g : Gang) (reg : Option Nat) (d0 d1 : W64) (q r k n : Nat) : Nat × Option W64 :=
  let bs := (List.range n).map fun i => rowByte s wid g reg d0 d1 q r (k + i)
  (leNat (bs.map (·.1)), (bs.filterMap (·.2)).head?)

/-- The scale of block b of a row (02 R41). -/
def scaleOf (g : Gang) (sc : Option (Nat × Nat)) (l b : Nat) : Nat × Option W64 :=
  match sc with
  | none => (127, none)
  | some (r, sel) =>
    let j := sel + b
    (((g.v l (r + j / 4)).extractLsb' (8 * (j % 4)) 8).toNat,
     if g.poison.contains (vkey l (r + j / 4)) then some (BitVec.ofNat 64 (r + j / 4)) else none)

/-- Element e of width w of a bit string. -/
def elem (w x e : Nat) : Nat := x / 2 ^ (w * e) % 2 ^ w

/-- Weight nibbles of a column for block b: l-plane (or only plane) and h-plane (08 R200). -/
def weightBits (s : State) (wid : Nat) (g : Gang) (m : MInfo) (o : QOp) (r b : Nat) : Nat × Nat × Option W64 :=
  let w2 := m.w.tr = 1
  let pl (second : Bool) : Nat × Option W64 :=
    if m.bReg then
      rowBits s wid g (some (m.w.vb.toNat + if second then (o.k + 31) / 32 else 0)) 0 0 o.q r b 1
    else rowBits s wid g none o.b0 o.b1 o.q r (b + if second then o.k / 8 else 0) 1
  if w2 then
    let h := pl false
    let l := pl true
    (l.1, h.1, h.2.orElse fun _ => l.2)
  else
    let x := pl false
    (x.1, 0, x.2)

/-- The addends of accumulator (i, j) in block b, with the first poison of the A row (MMA 02 R42, TLMA 08 R200). -/
def tableEntry (s : State) (wid : Nat) (g : Gang) (o : QOp) (i grp e : Nat) : FVal × Option W64 :=
  let x := rowBits s wid g none o.a0 o.a1 o.q i (64 * grp + 4 * e) 4
  (decodeF fmtFp32 x.1, x.2)

/-- One block of MMA or TLMA: new D values with flags, or the poison that stops it: of several poisoned elements the first
among A rows, B rows, weights, table entries, A scales and B scales (log 73). -/
def mmaBlock (s : State) (wid : Nat) (g : Gang) (m : MInfo) (o : QOp) : Except W64 (Gang × Flg) :=
  let b := o.next
  let rows := lanesOf o.parts
  let wa := widthOf m.w.fa
  let wb := widthOf m.w.fb
  let aReg := if m.aReg then some m.w.va.toNat else none
  let bReg := if m.bReg then some m.w.vb.toNat else none
  let aBits := rows.map fun l => (l, if m.kind = 0 then rowBits s wid g aReg o.a0 o.a1 o.q (l % 8) (wa * b) wa else (0, none))
  let bBits := (List.range 8).map fun j => if m.kind = 0 then rowBits s wid g bReg o.b0 o.b1 o.q j (wb * b) wb else (0, none)
  let wBits := (List.range 8).map fun j => if m.kind = 1 then weightBits s wid g m o j b else (0, 0, none)
  let w2 := m.w.tr = 1
  let terms (l j : Nat) (a : Nat) : List (FVal × Option W64) :=
    if m.kind = 0 then
      (List.range 8).map fun e => (mmaProduct m.w.fa m.w.fb (elem wa a e) (elem wb (bBits.getD j (0, none)).1 e), none)
    else
      let (lo, hi, _) := wBits.getD j (0, 0, none)
      (List.range 2).flatMap fun t =>
        let one := tableEntry s wid g o (l % 8) (2 * b + t) (elem 4 lo t)
        if w2 then
          let two := tableEntry s wid g o (l % 8) (2 * b + t) (elem 4 hi t)
          [(scaleBy 1 two.1, two.2), one]
        else [one]
  let sas := rows.map fun l => scaleOf g m.sca l b
  let sbs := (List.range 8).map fun j => scaleOf g m.scb (8 * o.q + j) b
  let cells := aBits.flatMap fun a => (List.range 8).map fun j => (a.1, j, terms a.1 j a.2.1)
  let poisons := aBits.filterMap (·.2.2) ++ bBits.filterMap (·.2) ++ wBits.filterMap (·.2.2)
    ++ cells.flatMap (fun c => c.2.2.filterMap (·.2)) ++ sas.filterMap (·.2) ++ sbs.filterMap (·.2)
  match poisons with
  | p :: _ => .error p
  | [] =>
    .ok (cells.foldl (fun (acc : Gang × Flg) c =>
      let sa := (scaleOf g m.sca c.1 b).1
      let sb := (scaleOf g m.scb (8 * o.q + c.2.1) b).1
      let r := blockStep (acc.1.v c.1 (m.w.vd.toNat + c.2.1)).toNat (c.2.2.map (·.1)) sa sb (m.w.win = 1)
      (acc.1.putV c.1 (m.w.vd.toNat + c.2.1) (BitVec.ofNat 32 r.1), acc.2 ||| r.2)) (g, 0))

/-- An entry of a TLPRE table: the signed sum of four activations (08 R199). The rules do not state the sign of an exact
sum of zero: it is - only where all four terms are -0 (log 60). -/
def tlEntry (as : List FVal) (e : Nat) : Nat × Flg :=
  let ts := (List.range 4).map fun t =>
    let a := as.getD t (.fin false 0 0)
    if e.testBit t then a else a.neg
  if ts.any (·.isNan) || (ts.any (fun p => p.isInf && p.sign) && ts.any fun p => p.isInf && !p.sign) then (fmtFp32.nanCode, fNV)
  else
    let r := sumRound fmtFp32 .rne ts
    (r.1, r.2 &&& fOF)

/-- One block of TLPRE: the bytes of 32 entries of each participant's row, or the poison that stops it. -/
def tlpreBlock (s : State) (wid : Nat) (g : Gang) (m : MInfo) (o : QOp) : Except W64 (List (Nat × Byte) × Flg) :=
  let b := o.next
  let aReg := if m.aReg then some m.w.va.toNat else none
  let rows := (lanesOf o.parts).map fun l => (l, rowBits s wid g aReg o.a0 o.a1 o.q (l % 8) (16 * b) 16)
  match rows.filterMap (·.2.2) with
  | p :: _ => .error p
  | [] =>
    let out := rows.flatMap fun r => (List.range 2).flatMap fun t => (List.range 16).flatMap fun e =>
      let as := (List.range 4).map fun j => decodeF fmtBf16 (elem 16 r.2.1 (4 * t + j))
      let v := tlEntry as e
      (List.range 4).map fun i => ((tileOff o.b0 o.b1 0 o.q (r.1 % 8) (64 * (2 * b + t) + 4 * e + i),
        BitVec.ofNat 8 (v.1 / 2 ^ (8 * i))), v.2)
    .ok (out.map (·.1), out.foldl (fun f e => f ||| e.2) 0)

/-- A poisoned element stops the operations of a pass: each quarter that has one with REASON 0x02, the others with REASON
0x01. The arrived lanes of the poisoned quarters take POISON together, with the address of the lowest one (08 R195). -/
def State.poisonStop (s : State) (pass : List (Nat × QOp)) (bad : List (Nat × QOp × W64)) : State :=
  let isBad (o : QOp) : Bool := bad.any fun (b : Nat × QOp × W64) => b.2.1.wait = o.wait
  let first := bad.foldl (fun (a : Option (Nat × QOp × W64)) b =>
    match a with | some x => if b.2.1.q < x.2.1.q then some b else a | none => some b) none
  let lanes := bad.foldl (fun m (b : Nat × QOp × W64) =>
    match s.gangs.find? b.1 with | some g => m ||| g.lanesOfQ b.2.1 | none => m) 0
  let s1 := pass.foldl (fun s e =>
    s.updGang e.1 fun g => g.endQ e.2 (susWord (if isBad e.2 then 2 else 1) e.2.next) false) s
  match first with
  | some b => if lanes = 0 then s1 else s1.takeTrap b.1 lanes Cause.poison (pcImage b.2.1.pc) b.2.2
  | none => s1

/-- One block of every operation of the pass, then its boundary (08 R194 to R197). -/
def State.passBlock (s : State) (pid : Nat) : State :=
  let cp := s.cpart pid
  let ops : List (Nat × QOp) := cp.pass.filterMap fun e =>
    match s.gangs.find? e.1 with
    | some g => (g.qops.find? fun o => o.wait = e.2).map fun o => (e.1, o)
    | none => none
  let badOf (e : Nat × QOp) : Option W64 :=
    match s.gangs.find? e.1, mInfo e.2.ins with
    | some g, some m =>
      if m.kind = 2 then (match tlpreBlock s g.wg g m e.2 with | .error p => some p | _ => none)
      else (match mmaBlock s g.wg g m e.2 with | .error p => some p | _ => none)
    | _, _ => none
  let bads := ops.filterMap fun e => (badOf e).map fun a => (e.1, e.2, a)
  if !bads.isEmpty then
    let s1 := s.poisonStop ops bads
    s1.setCpart pid { s1.cpart pid with pass := [] }
  else
    let s1 := ops.foldl (fun s e =>
      match s.gangs.find? e.1, mInfo e.2.ins with
      | some g, some m =>
        let next (g : Gang) : Gang :=
          { g with qops := g.qops.map fun o => if o.wait = e.2.wait then { o with next := o.next + 1 } else o }
        if m.kind = 2 then
          (match tlpreBlock s g.wg g m e.2 with
           | .ok (bs, f) => (s.homeWrite (.scr g.wg) bs).updGang e.1 fun g => next (g.raise f)
           | .error _ => s)
        else
          (match mmaBlock s g.wg g m e.2 with
           | .ok (g1, f) => s.setGang e.1 (next (g1.raise f))
           | .error _ => s)
      | _, _ => s) s
    let s2 := ops.foldl (fun s e => s.boundary e.1 e.2) s1
    s2.setCpart pid { s2.cpart pid with pass := s2.livePass cp.pass }

/-- MATRIX_BLOCK: the blocks that the pass runs in a step of the array (08 R198). -/
def State.matrixBlock (s : State) (pid : Nat) : State :=
  let head := (s.cpart pid).pass.findSome? fun e =>
    match s.gangs.find? e.1 with | some g => g.qops.find? fun o => o.wait = e.2 | none => none
  match head with
  | none => s.setCpart pid { s.cpart pid with pass := [], array := s.cycle }
  | some o =>
    let s1 := s.passBlock pid
    let s2 := if o.blocks = 2 && !(s1.cpart pid).pass.isEmpty then s1.passBlock pid else s1
    s2.setCpart pid { s2.cpart pid with array := s.cycle + if (s2.cpart pid).pass.isEmpty then 0 else o.period }

/-- RDV_STALL in the lanes that wait at a word (08 R187). -/
def State.rdvStall (s : State) (gid : Nat) (pc : Nat) : State :=
  match s.gangs.find? gid with
  | none => s
  | some g =>
    match s.wgs.find? g.wg with
    | none => s
    | some w =>
      let lim := fld (s.pmatrix w.pid) 0 32
      let os := g.qops.filter fun o => o.phase = .rendezvous && o.pc.toNat = pc
      if lim = 0 || g.rdvCnt.getD pc 0 < lim || os.isEmpty then s
      else
        let lanes := os.foldl (fun m o => m ||| g.lanesOfQ o) 0
        let mask := os.foldl (fun m o => m ||| 2 ^ o.q) 0
        (s.updGang gid fun g => g.dropQ fun o => o.phase = .rendezvous && o.pc.toNat = pc).takeTrap gid lanes Cause.rdvStall
          (BitVec.ofNat 64 pc) (BitVec.ofNat 64 mask)

/-! ### Lane-local words (08 R201) -/

def execMzero (w : MmaW) : State → Out :=
  let st := if w.tr = 1 then [(w.vst.toNat, 1)] else []
  coreWord (.mzero w) { active := guardOf w.g, dsts := (w.vd.toNat, 8) :: st, aligned := [(w.vd.toNat, 8)] } noChk
    (eachLane fun _ g l =>
      let g1 := (List.range 8).foldl (fun g j => g.setV l (w.vd.toNat + j) 0) g
      if w.tr = 1 then g1.setV l w.vst.toNat 0 else g1)

/-- Offsets of the bytes of a lane's part of a tile: the rows it touches, with byte positions and lengths. -/
def laneRows (tr : Bool) (wd n l : Nat) : List (Nat × Nat × Nat) :=
  if tr then (List.range n).map fun k => (k, wd / 8 * (l % 8), wd / 8) else [(l % 8, 0, wd * n / 8)]

/-- The checks of a lane-local tile word. -/
def tileCheck (w : MmaW) (wd n : Nat) (c : Ctx) : Check :=
  let d0 := c.r.s w.sa0.toNat
  let d1 := c.r.s w.sa1.toNat
  let imm : W64 := w.imm.signExtend 64
  let byte (q r k : Nat) : Check :=
    let o := tileOff d0 d1 imm q r k
    if c.wg.scrLen ≤ o then .trap Cause.bounds (BitVec.ofNat 64 o) else .ok
  if c.act = 0 then .ok
  else
    (descReserved d0 d1).next ((descAlign d0 d1).next
      ((lanesOf c.act).foldl (fun k l => (laneRows (w.tr = 1) wd n l).foldl (fun k r =>
        (List.range r.2.2).foldl (fun k i => k.next (byte (l / 8) r.1 (r.2.1 + i))) k) k) .ok))

/-- K of the gang at the cursor, as its word reads it; 0 where 08 R196 does not allow it. -/
def State.curK (s : State) (sk : Nat) : Nat :=
  match s.curRead? with
  | some g => if kCheck (g.s sk) = .ok then (g.s sk).toNat else 0
  | none => 0

def execMldt (w : MmaW) (s : State) : Out :=
  let wd := widthOf w.fa
  let k := s.curK w.sk.toNat
  let regs := (wd * k + 31) / 32
  coreWord (.mldt w)
    { active := guardOf w.g, dsts := [(w.vd.toNat, regs)], ssrcs := [w.sk.toNat, w.sa0.toNat, w.sa1.toNat], producer := true }
    (fun c _ => if c.act = 0 then .ok else (kCheck (c.r.s w.sk.toNat)).next (tileCheck w wd k c))
    (fun c s =>
      if c.act = 0 then s
      else
        let d0 := c.r.s w.sa0.toNat
        let d1 := c.r.s w.sa1.toNat
        let ds : List Dest := (lanesOf c.act).flatMap fun l =>
          let bs := (laneRows (w.tr = 1) wd k l).flatMap fun r => (List.range r.2.2).map fun i =>
            let o := tileOff d0 d1 (w.imm.signExtend 64) (l / 8) r.1 (r.2.1 + i)
            (s.scrByte c.r.wg o, s.homePoison (.scr c.r.wg) o)
          (List.range regs).map fun j =>
            let part := (bs.drop (4 * j)).take 4
            { key := vkey l (w.vd.toNat + j), val := BitVec.ofNat 64 (leNat (part.map (·.1))), poison := part.any (·.2) }
        s.updGang c.gid fun g => g.addProducer ds true 0)
    s

def execMstt (w : MmaW) : State → Out :=
  let wd := widthOf w.fd
  coreWord (.mstt w)
    { active := guardOf w.g, srcs := [{ reg := w.vd.toNat, count := 8 }], ssrcs := [w.sa0.toNat, w.sa1.toNat], aligned := [(w.vd.toNat, 8)] }
    (fun c _ => tileCheck w wd 8 c)
    fun c s =>
      (lanesOf c.act).foldl (fun s l =>
        let rs := (List.range 8).map fun j => convTo w.fd .rne (decodeF fmtFp32 (c.r.v l (w.vd.toNat + j)).toNat)
        let bits := (List.range 8).foldl (fun a j => a + (rs.getD j (0, 0)).1 % 2 ^ wd * 2 ^ (wd * j)) 0
        let fl := rs.foldl (fun f r => f ||| r.2) 0
        let offs := (laneRows (w.tr = 1) wd 8 l).flatMap fun r => (List.range r.2.2).map fun i =>
          tileOff (c.r.s w.sa0.toNat) (c.r.s w.sa1.toNat) (w.imm.signExtend 64) (l / 8) r.1 (r.2.1 + i)
        (s.homeWrite (.scr c.r.wg) (offs.zip (leBytes wd bits))).updGang c.gid fun g => g.raise fl) s

end Sys2Proof.Machine
end

