-- ==== Sys2Proof/Machine/Macro.lean ====
section
/-! DEFINITION. The convention of macro-instructions: the state block, the checks of an issue, steps, stops, faults and
moves (09 R204 to R212, R412). -/

namespace Sys2Proof.Machine

/-! ### Issue -/

/-- A register write of a lathe: the full/empty bit stays, a poison mark goes. -/
def Gang.macPut (g : Gang) (l r : Nat) (x : W32) : Gang :=
  { g.putV l r x with poison := g.poison.del (vkey l r) }

/-- The check of a control word (R205). `reasons`: those of the macro beyond 0x00 to 0x02. -/
def ctlCheck (reasons : List Nat) (x : W32) : Check :=
  let st := x.toNat % 16
  let why := x.toNat / 16 % 256
  if x = 0 || (1 ≤ st && st ≤ 3 && (why ≤ 2 || reasons.contains why)) then .ok
  else .trap Cause.bounds (x.setWidth 64)

/-- The control words of the active set (R412): the lowest lane's for a gang-macro. -/
def ctlChecks (w : MacroW) (gangKind : Bool) (reasons : List Nat) (c : Ctx) : Check :=
  (memLanes c gangKind).foldl (fun k l => k.next (ctlCheck reasons (c.r.v l w.vs.toNat))) .ok

/-- Register use of a MACRO word: state block, inputs with the mode EI, written outputs. -/
def macroUse (w : MacroW) (gangKind : Bool) (state align : Nat) (ins : List VSrc) (outs : List (Nat × Nat))
    (sregs : List Nat) : WordUse :=
  { active := guardOf w.g
    srcs := { reg := w.vs.toNat, count := state } :: ins.map fun v => { v with trap := w.ei = 1 }
    dsts := (w.vs.toNat, state) :: outs
    aligned := [(w.vs.toNat, align)]
    ssrcs := sregs
    collective := gangKind }

/-- Words of an issue that hold DONE run nothing (R205). -/
def doneLanes (w : MacroW) (gangKind : Bool) (c : Ctx) : LaneMask :=
  maskWhere fun l => c.act.getLsbD l && (c.r.v (if gangKind then lowLane c.act else l) w.vs.toNat).toNat % 16 = 3

/-- The lathe request of a word (R206, R207): its lanes are blocked on the word, its block and the outputs `outs` (lanes,
first register, count) are empty. `skip`: lanes that complete without a step. -/
def startMacro (i : Instr) (w : MacroW) (gangKind : Bool) (state : Nat) (outs : List (LaneMask × Nat × Nat))
    (skip : LaneMask) (c : Ctx) (s : State) : State :=
  let done := doneLanes w gangKind c ||| (c.act &&& skip)
  if c.act &&& ~~~done = 0 then s
  else
    s.updGang c.gid fun g =>
      let keys := ((c.act, w.vs.toNat, state) :: outs).flatMap fun o =>
        (lanesOf o.1).flatMap fun l => (List.range o.2.2).map fun j => vkey l (o.2.1 + j)
      let ds : List Dest := keys.eraseDups.map fun k => { key := k, val := 0, poison := false }
      let g1 := g.addProducer ds false 0
      let g2 := g1.holdAt c.grp c.pc .lathe
      { g2 with
        mops := g2.mops ++ [{ wait := g1.nextId, pc := c.pc, ins := i, grp := c.grp, act := c.act, stopped := done
                              began := 0, prod := g.nextId, waitPix := [] }] }

/-! ### Steps -/

/-- What a lathe step sees. -/
structure MCtx where
  gid : Nat
  w : Wg
  op : MOp
  mw : MacroW

def MCtx.core (m : MCtx) : Nat := coreOf m.w.pid
def MCtx.lead (m : MCtx) : Nat := lowLane m.op.act
/-- A register of the gang as it now stands. -/
def State.gv (s : State) (gid l r : Nat) : W32 := match s.gangs.find? gid with | some g => g.v l r | none => 0
def State.gs (s : State) (gid n : Nat) : W64 := match s.gangs.find? gid with | some g => g.s n | none => 0
/-- Register k of a lane's state block, input and output. -/
def MCtx.st (m : MCtx) (s : State) (l k : Nat) : W32 := s.gv m.gid l (m.mw.vs.toNat + k)
def MCtx.inp (m : MCtx) (s : State) (l k : Nat) : W32 := s.gv m.gid l (m.mw.vi.toNat + k)
def MCtx.outp (m : MCtx) (s : State) (l k : Nat) : W32 := s.gv m.gid l (m.mw.vo.toNat + k)
def MCtx.ctl (m : MCtx) (s : State) (l : Nat) : Nat := (m.st s l 0).toNat
def MCtx.put (m : MCtx) (s : State) (l r : Nat) (x : Nat) : State :=
  s.updGang m.gid fun g => g.macPut l r (BitVec.ofNat 32 x)
def MCtx.putSt (m : MCtx) (s : State) (l k : Nat) (x : Nat) : State := m.put s l (m.mw.vs.toNat + k) x
def MCtx.putOut (m : MCtx) (s : State) (l k : Nat) (x : Nat) : State := m.put s l (m.mw.vo.toNat + k) x
/-- Several registers of the block from one on. -/
def MCtx.putSts (m : MCtx) (s : State) (l k : Nat) (xs : List Nat) : State :=
  (xs.zipIdx).foldl (fun s e => m.putSt s l (k + e.2) e.1) s
def MCtx.putOuts (m : MCtx) (s : State) (l k : Nat) (xs : List Nat) : State :=
  (xs.zipIdx).foldl (fun s e => m.putOut s l (k + e.2) e.1) s
/-- Write the progress field. -/
def MCtx.putProg (m : MCtx) (s : State) (l p : Nat) : State :=
  m.putSt s l 0 (m.ctl s l % 4096 + 4096 * (p % 2 ^ 20))
/-- The first step of this issue, and of a FRESH block. -/
def MCtx.first (m : MCtx) (l : Nat) : Bool := !m.op.began.getLsbD l
def MCtx.fresh (m : MCtx) (s : State) (l : Nat) : Bool := m.first l && m.ctl s l % 16 = 0
/-- A field of the block outside its limits: the offset of its register (R205). -/
def badField (k : Nat) : W64 := BitVec.ofNat 64 (0x100 + k)

/-- How a step of a lane ends: it goes on, it has stopped with a status and a reason, or it met a fault or an error. -/
inductive StepEnd where
  | run
  | stop (status reason : Nat)
  | page (va : W64) (kind : Nat)
  | trap (cause : Nat) (addr : W64)
  | error (addr : W64)
  deriving DecidableEq, Repr

def StepEnd.bad : StepEnd → Bool
  | .run => false
  | .stop .. => false
  | _ => true

/-- A macro as its file gives it: whether it has one block, which lanes can step, and a step of a lane. -/
structure Macro where
  gangKind : Bool
  state : Nat
  ready : State → MCtx → Nat → Bool
  step : State → MCtx → Nat → State × StepEnd

/-- A read of n bytes by a lathe through translation (07 Table 55): the value, or how it faults. `tex`: on the texture
path, which may use an older copy, and with none reads what a coherent load reads (10 R234, 15 R307). -/
def State.lathRead (s : State) (m : MCtx) (tex : Bool) (x : W64) (n : Nat) : State × Except StepEnd Nat :=
  match s.translate (tlbUnit m.w.pid) m.w.tenant .read x with
  | .page => (s, .error (.page x 0))
  | .access => (s, .error (.trap Cause.access x))
  | .ok p =>
    let s1 := (s.walkUse (tlbUnit m.w.pid) m.w.tenant x).touchFor m.w.tenant n p
    let copy := match p.kind with | .mem _ => if tex then (s1.tex.getD m.core []).find? (p.addr / 128) else none | _ => none
    match copy with
    | some bs => (s1, .ok (leNat ((bs.drop (p.addr % 128)).take n)))
    | none =>
      if s1.loadPoisoned m.core false p n then (s1, .error (.trap Cause.poison x))
      else
        let v := s1.loadNat m.core false p n
        (match p.kind with | .mem _ => if tex then s1 else s1.dropL1 m.core (p.addr / 128) | _ => s1, .ok v)

/-- Reads of several 4-byte words. -/
def State.lathWords (s : State) (m : MCtx) : List W64 → State × Except StepEnd (List Nat)
  | [] => (s, .ok [])
  | x :: xs =>
    match s.lathRead m false x 4 with
    | (s1, .error e) => (s1, .error e)
    | (s1, .ok v) =>
      match s1.lathWords m xs with
      | (s2, .error e) => (s2, .error e)
      | (s2, .ok vs) => (s2, .ok (v :: vs))

/-- A coherent .G store by a lathe. -/
def State.lathWrite (s : State) (m : MCtx) (x : W64) (bs : List Byte) : State × Option StepEnd :=
  match s.translate (tlbUnit m.w.pid) m.w.tenant .write x with
  | .page => (s, some (.page x 1))
  | .access => (s, some (.trap Cause.access x))
  | .ok p =>
    let wid := match s.gangs.find? m.gid with | some g => g.wg | none => 0
    let s1 := ((s.wrote wid).walkUse (tlbUnit m.w.pid) m.w.tenant x).touchFor m.w.tenant bs.length p false true
    ((s1.storeBytes m.core p bs).reportPoison m.w.launch p bs.length, none)

/-- A 57-bit virtual address as the 64-bit address that an access uses. -/
def vaOf (x : Nat) : W64 := (BitVec.ofNat 57 x).signExtend 64

/-! ### Boundaries, stops and moves (R207 to R209) -/

/-- A macro-instruction leaves its gang: its registers are full, its lanes no longer blocked. -/
def Gang.closeMop (g : Gang) (op : MOp) : Gang :=
  let g1 := (g.dropProducer op.prod).dropWaits fun x => x.id = op.wait
  ({ g1 with mops := g1.mops.filter fun o => o.wait != op.wait }.freshAge op.grp).retry

/-- Every lane has stopped or stands on the word: the lanes that still wait for it move (R207); with a fault those that
stay take it (R209). -/
def State.endMacro (s : State) (m : MCtx) (gangKind : Bool) (stopped : LaneMask) (fault : Option StepEnd) : State :=
  match s.gangs.find? m.gid with
  | none => s
  | some g =>
    let op := m.op
    let here := g.waits.foldl (fun k x => if x.id = op.wait then k ||| x.lanes else k) (0 : LaneMask)
    let code (l : Nat) : Nat := m.ctl s (if gangKind then m.lead else l) % 4096
    let callb := here &&& stopped &&& maskWhere fun l => op.act.getLsbD l && code l % 16 = 2
    let done := stopped &&& maskWhere fun l => op.act.getLsbD l && (code l % 16 = 3 || code l = 1)
    let pass := here &&& ((op.grp &&& ~~~op.act) ||| done)
    let tgt := relTarget op.pc m.mw.imm
    let tc : Check := if callb == (0 : LaneMask) then .ok else s.targetCheck m.w g.codemap (pcImage tgt)
    match tc with
    | .codePage va k line =>
      (s.updGang m.gid fun g => { g with mops := g.mops.map fun o => if o.wait = op.wait then { o with stopped := stopped } else o })
        |>.parkPages m.gid m.w.tenant [va] k callb op.pc (some line)
    | tc =>
      let ok := tc = Check.ok
      let s1 := s.updGang m.gid fun g =>
        let g1 := (g.closeMop op).setPc pass (op.pc + 16)
        if ok then g1.setPc callb tgt else g1
      let stay := here &&& op.act &&& ~~~pass &&& ~~~(if ok then callb else 0)
      if stay = 0 then s1
      else match fault with
      | some (.trap cause a) => s1.takeTrap m.gid stay cause (pcImage op.pc) a
      | some (.error a) => s1.takeTrap m.gid stay Cause.bounds (pcImage op.pc) a
      | some (.page va k) => s1.parkPage m.gid m.w.tenant va k stay op.pc
      | _ => if ok then s1 else s1.takeTrap m.gid callb Cause.cfTarget (pcImage op.pc) (pcImage tgt)

/-- Status and reason of lanes are written; the progress stays. -/
def MCtx.mark (m : MCtx) (s : State) (lanes : LaneMask) (code : Nat) : State :=
  (lanesOf lanes).foldl (fun s l => m.putSt s l 0 (m.ctl s l / 4096 * 4096 + code)) s

/-- Lanes that have not stopped and whose first step has ended are SUSPENDED with REASON 0x01 (R208). -/
def State.preemptMacro (s : State) (m : MCtx) (gangKind : Bool) (stopped began : LaneMask) (fault : Option StepEnd) : State :=
  (m.mark s (m.op.act &&& ~~~stopped &&& began) 0x011).endMacro m gangKind stopped fault

/-- The boundary after a step: `ends` holds the lanes that stepped (the lowest lane alone for a gang-macro). The other
fields of a block that holds ERROR are free (log 4). -/
def State.macroBoundary (s : State) (m : MCtx) (M : Macro) (ends : List (Nat × StepEnd)) : State :=
  let writeEnd (s : State) (e : Nat × StepEnd) : State :=
    match e.2 with
    | .run => m.putSt s e.1 0 (m.ctl s e.1 / 4096 * 4096 + 1)
    | .stop st why => m.putSt s e.1 0 (m.ctl s e.1 / 4096 * 4096 + 16 * why + st)
    | .error _ =>
      let (k, s1) := s.takeFree
      m.putSt s1 e.1 0 (16 * Config.freeNat k + 4)
    | _ => m.putSt s e.1 0 (m.ctl s e.1 / 4096 * 4096 + 0x021)
  let s1 := ends.foldl writeEnd s
  let s2 := if M.gangKind then
      (lanesOf m.op.act).foldl (fun s l =>
        if l = m.lead then s
        else (List.range M.state).foldl (fun s k => m.putSt s l k (m.st s m.lead k).toNat) s) s1
    else s1
  let all (p : Nat × StepEnd → Bool) : LaneMask :=
    if M.gangKind then (if ends.any p then m.op.act else 0)
    else maskWhere fun l => ends.any fun e => e.1 = l && p e
  let began := m.op.began ||| all fun _ => true
  let stopped := m.op.stopped ||| all fun e => e.2 != .run
  match ends.find? fun e => e.2.bad with
  | some e => s2.preemptMacro m M.gangKind stopped began (some e.2)
  | none =>
    if m.op.act &&& ~~~stopped = 0 then s2.endMacro m M.gangKind stopped none
    else
      match s2.gangs.find? m.gid with
      | none => s2
      | some g =>
        if s2.stopDue g then s2.preemptMacro m M.gangKind stopped began none
        else s2.updGang m.gid fun g =>
          { g with mops := g.mops.map fun o => if o.wait = m.op.wait then { o with stopped := stopped, began := began } else o }

/-- Lanes of a request that can step; a request whose every lane has stopped waits for its moves alone. -/
def MCtx.readyLanes (m : MCtx) (M : Macro) (s : State) : List Nat :=
  let left := m.op.act &&& ~~~m.op.stopped
  if M.gangKind then (if left != 0 && M.ready s m m.lead then [m.lead] else [])
  else (lanesOf left).filter (M.ready s m)
def MCtx.canRun (m : MCtx) (M : Macro) (s : State) : Bool :=
  m.op.act &&& ~~~m.op.stopped = 0 || !(m.readyLanes M s).isEmpty

/-- One granted step (05 R126). A lane that the step of a lower one has made unready waits (09 R225). -/
def State.macroStep (s : State) (m : MCtx) (M : Macro) : State :=
  if m.op.act &&& ~~~m.op.stopped = 0 then s.endMacro m M.gangKind m.op.stopped none
  else
    let r := (m.readyLanes M s).foldl (fun (a : State × List (Nat × StepEnd)) l =>
      if M.ready a.1 m l then
        let x := M.step a.1 m l
        (x.1, a.2 ++ [(l, x.2)])
      else a) (s, [])
    r.1.macroBoundary m M r.2

end Sys2Proof.Machine
end

