-- ==== Sys2Proof/Machine/Raster.lean ====
section
/-! DEFINITION. RAST: setup, the walk over cells and quads, deliveries, depth test and tickets (09 R213 to R223). -/

namespace Sys2Proof.Machine

/-! ### Descriptors -/

/-- A workgroup without a tile issues no RAST and no BLEND (R213). -/
def tileChk (c : Ctx) : Check := if c.wg.tileW = 0 || c.wg.tileH = 0 then .trap Cause.access 0 else .ok

/-- An image that ends beyond the allotment. -/
def imageBeyond (w : Wg) (base pitch size ns : Nat) : Bool := w.scrLen < base + (w.tileH - 1) * pitch + size * w.tileW * ns

/-- Lane quads of a mask that are complete, ascending (R219). -/
def fullQuads (m : LaneMask) : List Nat := (List.range 8).filter fun q => (List.range 4).all fun j => m.getLsbD (4 * q + j)
def fullQuadMask (m : LaneMask) : LaneMask := maskWhere fun l => (fullQuads m).contains (l / 4)

def rastZ (w : MacroW) : Bool := modBit w 0
def rastNs (w : MacroW) : Nat := if modBit w 6 then 4 else 1

/-- The descriptor checks of R218. -/
def rastDesc (w : MacroW) (c : Ctx) : Check :=
  let t := c.r.s w.s0.toNat
  let d := c.r.s w.s1.toNat
  let bounds (b : Bool) (x : W64) : Check := if b then .trap Cause.bounds x else .ok
  (bounds (fld t 0 16 % 8 != 0 || fld t 16 16 % 8 != 0) t).next
    ((bounds (fld t 32 16 = 0 || fld t 48 16 = 0) t).next
      (if !rastZ w then .ok
       else (bounds (fld d 0 18 % 4 != 0 || fld d 32 16 % 4 != 0) d).next
         ((bounds (fld d 18 14 != 0 || fld d 48 16 != 0) d).next
           (bounds (imageBeyond c.wg (fld d 0 18) (fld d 32 16) 4 (rastNs w)) d))))

/-- The checks of an issue of RAST (R412, R219). -/
def rastChk (w : MacroW) (c : Ctx) (_ : State) : Check :=
  if c.act = 0 then .ok
  else
    (tileChk c).next ((ctlChecks w true [] c).next ((rastDesc w c).next
      (if (fullQuads c.act).isEmpty then .trap Cause.bounds (c.act.setWidth 64) else .ok)))

def execRast (w : MacroW) : State → Out :=
  coreWord (.rast w)
    (macroUse w true 24 8 [{ reg := w.vi.toNat, count := 12 }] [(w.vo.toNat, 9)]
      ([w.s0.toNat] ++ (if rastZ w then [w.s1.toNat] else []) ++ if modBit w 7 then [w.s2.toNat] else []))
    (rastChk w)
    fun c s => startMacro (.rast w) w true 24 [(fullQuadMask c.act, w.vo.toNat, 9)] 0 c s

/-! ### The state block (R216) -/

/-- A RAST as a step sees it: the target, the edges, the planes. -/
structure Rast where
  ox : Nat
  oy : Nat
  rtw : Nat
  rth : Nat
  w : Nat
  h : Nat
  ns : Nat
  mods : MacroW
  dbase : Nat
  dpitch : Nat
  edges : List (Int × Int × Int)
  a2 : Int
  z : List (Option Dy)
  q : List (Option Dy)
  tl : Nat
  free : W32
  deriving Repr

def sint (n : Nat) (x : Nat) : Int := signedNat n x
def image (n : Nat) (x : Int) : Nat := (x % (2 ^ n : Nat)).toNat

def MCtx.rast (m : MCtx) (s : State) : Rast :=
  let l := m.lead
  let t := s.gs m.gid m.mw.s0.toNat
  let d := s.gs m.gid m.mw.s1.toNat
  let reg (k : Nat) : Nat := (m.st s l k).toNat
  { ox := fld t 0 16, oy := fld t 16 16, rtw := fld t 32 16, rth := fld t 48 16, w := m.w.tileW, h := m.w.tileH
    ns := rastNs m.mw, mods := m.mw, dbase := fld d 0 18, dpitch := fld d 32 16
    edges := (List.range 3).map fun k =>
      (sint 32 (reg (4 + 4 * k)), sint 32 (reg (5 + 4 * k)), sint 64 (reg (6 + 4 * k) + 2 ^ 32 * reg (7 + 4 * k)))
    a2 := sint 64 (reg 2 + 2 ^ 32 * reg 3)
    z := (List.range 3).map fun k => Dy.ofF (reg (16 + k))
    q := (List.range 3).map fun k => Dy.ofF (reg (19 + k))
    tl := reg 23 % 8, free := Config.freeW32 s.freeCtr }

/-- E_k at a position, exact. -/
def Rast.eAt (r : Rast) (x y : Int) : List Int := r.edges.map fun e => e.1 * x + e.2.1 * y + e.2.2
def rGet (xs : List Int) (k : Nat) : Int := xs.getD k 0

/-- The fill rule, R218. -/
def Rast.inside (r : Rast) (x y : Int) : Bool :=
  let e := r.eAt x y
  (List.range 3).all fun k => 0 < rGet e k || (rGet e k = 0 && r.tl.testBit k)

/-- Exact sum of e_k × plane_k; none where a plane value that a program wrote is not finite. -/
def planeSum (es : List Int) (ps : List (Option Dy)) : Option Dy :=
  (es.zip ps).foldl (fun a e => match a, e.2 with | some a, some p => some (a.add ((Dy.ofInt e.1).mul p)) | _, _ => none)
    (some ⟨0, 0⟩)

/-- Depth at a position (R221); a plane that is not finite gives a free value (log 4). -/
def Rast.zAt (r : Rast) (x y : Int) : Nat :=
  match planeSum (r.eAt x y) r.z with
  | some n => ratRound n (.ofInt r.a2)
  | none => r.free.toNat

/-- Perspective-correct barycentrics at a position (R221). -/
def Rast.muAt (r : Rast) (x y : Int) : Nat × Nat :=
  let e := r.eAt x y
  match planeSum e r.q, r.q.getD 1 none, r.q.getD 2 none with
  | some d, some q1, some q2 =>
    if d.m = 0 then (0, 0)
    else (ratRound ((Dy.ofInt (rGet e 1)).mul q1) d, ratRound ((Dy.ofInt (rGet e 2)).mul q2) d)
  | _, _, _ => (r.free.toNat, r.free.toNat)

/-- Sample offsets, R218. -/
def sampleOff (ns s : Nat) : Int × Int :=
  if ns = 1 then (0, 0)
  else match s with
    | 0 => (-32, -96)
    | 1 => (96, -32)
    | 2 => (-96, 32)
    | _ => (32, 96)
/-- Position of sample s of tile pixel (px, py). -/
def Rast.pos (r : Rast) (px py s : Nat) : Int × Int :=
  let o := sampleOff r.ns s
  (256 * (r.ox + px : Nat) + 128 + o.1, 256 * (r.oy + py : Nat) + 128 + o.2)

/-! ### Quads (R219 to R222) -/

/-- One sample: covered after the early depth test, with its depth write; or a poisoned depth. -/
def Rast.sample (r : Rast) (s : State) (wid px py k : Nat) : Except W64 (Bool × List (Nat × Nat)) :=
  let p := r.pos px py k
  if r.rtw ≤ r.ox + px || r.rth ≤ r.oy + py || !r.inside p.1 p.2 then .ok (false, [])
  else if !rastZ r.mods then .ok (true, [])
  else
    let off := r.dbase + py * r.dpitch + 4 * (px * r.ns + k)
    if (List.range 4).any fun i => s.homePoison (.scr wid) (off + i) then .error (BitVec.ofNat 64 off)
    else
      let d := leNat ((List.range 4).map fun i => s.scrByte wid (off + i))
      let zs := r.zAt p.1 p.2
      let pass := f32Lt zs d || (modBit r.mods 2 && f32Le zs d)
      .ok (pass, if pass && modBit r.mods 1 then [(off, zs)] else [])

/-- A pixel of a quad: its top-left fine pixel, its coverage, its depth writes. -/
structure RPix where
  x : Nat
  y : Nat
  cov : Nat
  writes : List (Nat × Nat)
  deriving Repr

/-- The samples or fine pixels of a (coarse) pixel, by coverage bit: fine pixel and sample. -/
def Rast.parts (r : Rast) (cw ch x y : Nat) : List (Nat × Nat × Nat) :=
  if r.ns = 4 then (List.range 4).map fun k => (x, y, k)
  else (List.range (cw * ch)).map fun i => (x + i % cw, y + i / cw, 0)

def Rast.pixel (r : Rast) (s : State) (wid cw ch x y : Nat) : Except W64 RPix :=
  ((r.parts cw ch x y).zipIdx).foldl (fun a e =>
    match a, r.sample s wid e.1.1 e.1.2.1 e.1.2.2 with
    | .error p, _ => .error p
    | _, .error p => .error p
    | .ok px, .ok (hit, ws) => .ok { px with cov := px.cov + (if hit then 2 ^ e.2 else 0), writes := px.writes ++ ws })
    (.ok { x := x, y := y, cov := 0, writes := [] })

/-- The four pixels of the quad at column qc of a quad row. -/
def Rast.quad (r : Rast) (s : State) (wid cw ch cell qrow qc : Nat) : Except W64 (List RPix) :=
  let x0 := cell % (r.w / 8) * 8 + 2 * cw * qc
  let y0 := cell / (r.w / 8) * 8 + 2 * ch * qrow
  (List.range 4).foldl (fun a j =>
    match a with
    | .error p => .error p
    | .ok ps =>
      match r.pixel s wid cw ch (x0 + cw * (j % 2)) (y0 + ch * (j / 2)) with
      | .error p => .error p
      | .ok p => .ok (ps ++ [p])) (.ok [])

/-- Fine pixels of a pixel with nonzero coverage: tile pixel number, and its place for the ticket bytes. -/
def Rast.ticketed (r : Rast) (cw ch : Nat) (p : RPix) : List (Nat × Nat) :=
  if r.ns = 4 then (if p.cov = 0 then [] else [(p.y * r.w + p.x, 0)])
  else (List.range (cw * ch)).filterMap fun i =>
    if p.cov.testBit i then some ((p.y + i / cw) * r.w + p.x + i % cw, i) else none

/-- Evaluation point of a pixel (R221). -/
def Rast.evalPoint (r : Rast) (cw ch : Nat) (p : RPix) : Int × Int :=
  let full := if r.ns = 4 then 15 else 2 ^ (cw * ch) - 1
  if modBit r.mods 3 && p.cov != 0 && p.cov != full then
    let ps := ((r.parts cw ch p.x p.y).zipIdx.filter fun e => p.cov.testBit e.2).map fun e => r.pos e.1.1 e.1.2.1 e.1.2.2
    let n : Int := ps.length
    ((ps.foldl (fun a q => a + q.1) 0) / n, (ps.foldl (fun a q => a + q.2) 0) / n)
  else (256 * (r.ox + p.x : Nat) + 128 * (cw : Int), 256 * (r.oy + p.y : Nat) + 128 * (ch : Int))

/-- Outputs of a lane, R220. -/
def Rast.outputs (r : Rast) (cw ch : Nat) (p : RPix) (tickets : List (Nat × Nat)) : List Nat :=
  let e := r.evalPoint cw ch p
  let mu := r.muAt e.1 e.2
  [p.x + 2 ^ 8 * p.y + 2 ^ 16 * Nat.log2 cw + 2 ^ 18 * Nat.log2 ch + 2 ^ 20 * b2n (r.ns = 4), p.cov, mu.1, mu.2,
   r.zAt e.1 e.2]
    ++ (List.range 4).map fun k =>
      (tickets.filter fun t => t.2 / 4 = k).foldl (fun a t => a + t.1 * 2 ^ (8 * (t.2 % 4))) 0

/-- A taken quad goes to a lane quad: depth writes, tickets, outputs, as one action (R221, R223). -/
def Rast.take (r : Rast) (s : State) (m : MCtx) (wid cw ch lq : Nat) (ps : List RPix) : State :=
  ps.zipIdx.foldl (fun s e =>
    let p := e.1
    let s1 := p.writes.foldl (fun s w => s.homeWrite (.scr wid) (addressed w.1 (leBytes 4 w.2))) s
    let ts := (r.ticketed cw ch p).map fun t =>
      ((match s1.wgs.find? wid with | some v => v.scoreIssue.getD t.1 0 | none => 0), t.2, t.1)
    let s2 := ts.foldl (fun s t => s.updWg wid fun v =>
      { v with scoreIssue := v.scoreIssue.put 0 t.2.2 ((v.scoreIssue.getD t.2.2 0 + 1) % 256) }) s1
    m.putOuts s2 (4 * lq + e.2) 0 (r.outputs cw ch p (ts.map fun t => (t.1, t.2.1)))) s

/-! ### Setup (R215, R217) -/

/-- The first limit that the vertices break. -/
def vertexBad (v : Nat → Nat) : Option Nat :=
  (List.range 3).findSome? fun k =>
    let lim (o : Nat) : Bool := sint 32 (v (4 * k + o)) < -2 ^ 25 || 2 ^ 25 ≤ sint 32 (v (4 * k + o))
    let w := v (4 * k + 3)
    let wBad := match Dy.ofF w with | some d => d.m ≤ 0 || !f32Finite (f32Div f32One w) | none => true
    if lim 0 then some (16 * k) else if lim 1 then some (16 * k + 1)
    else if !f32Finite (v (4 * k + 2)) then some (16 * k + 2) else if wBad then some (16 * k + 3) else none

def minInt (xs : List Int) : Int := xs.foldl min (xs.headD 0)
def maxInt (xs : List Int) : Int := xs.foldl max (xs.headD 0)
/-- Pixels that meet a span of 16.8 coordinates: floor(min / 256) to ceil(max / 256) − 1. -/
def pixSpan (xs : List Int) : Int × Int := (minInt xs / 256, -(-(maxInt xs) / 256) - 1)

/-- The masks of complete lane quads that received nothing (R219). -/
def rastClear (m : MCtx) (s : State) (fill : Nat) : State :=
  ((fullQuads m.op.act).filter fun q => !fill.testBit q).foldl (fun s q =>
    (List.range 4).foldl (fun s j => m.putOut s (4 * q + j) 1 0) s) s

/-- Progress: SETUP, CELL, QROW, QCOL (Table 73). -/
def rastProg (cell qrow qcol : Nat) : Nat := 1 + 2 * (cell % 64) + 2 ^ 7 * (qrow % 4) + 2 ^ 9 * (qcol % 4)

/-- A word that ends in setup has nothing to walk: its progress is that of a walk that has ended (log 64). The registers
that R217 does not give then are free (log 4). -/
def rastNone (r : Rast) (m : MCtx) (s : State) (regs : List Nat) : State × StepEnd :=
  let l := m.lead
  let s1 := regs.foldl (fun s k =>
    let (f, s1) := s.takeFree
    m.putSt s1 l k (Config.freeW32 f).toNat) s
  (rastClear m (m.putProg s1 l (rastProg (r.w / 8 * (r.h / 8)) 0 0)) 0, .stop 3 0)

def rastSetup (s : State) (m : MCtx) : State × StepEnd :=
  let l := m.lead
  let r := m.rast s
  let v (k : Nat) : Nat := (m.inp s l k).toNat
  match vertexBad v with
  | some o => (s, .error (BitVec.ofNat 64 o))
  | none =>
    let xs := (List.range 3).map fun k => sint 32 (v (4 * k))
    let ys := (List.range 3).map fun k => sint 32 (v (4 * k + 1))
    let edge (k : Nat) : Int × Int × Int :=
      let a := (k + 1) % 3
      let b := (k + 2) % 3
      (rGet ys a - rGet ys b, rGet xs b - rGet xs a, rGet xs a * rGet ys b - rGet xs b * rGet ys a)
    let es := (List.range 3).map edge
    let e0 := edge 0
    let area := e0.1 * rGet xs 0 + e0.2.1 * rGet ys 0 + e0.2.2
    let flip := area < 0
    let culled := area = 0 || (modBit m.mw 4 && area < 0) || (modBit m.mw 5 && 0 < area)
    let sg : Int := if flip && !culled then -1 else 1
    let s1 := m.putSts s l 2 ([image 64 (sg * area) % 2 ^ 32, image 64 (sg * area) / 2 ^ 32] ++ es.flatMap fun e =>
      [image 32 (sg * e.1), image 32 (sg * e.2.1), image 64 (sg * e.2.2) % 2 ^ 32, image 64 (sg * e.2.2) / 2 ^ 32])
    if culled then rastNone r m (m.putSt s1 l 22 0) [1, 16, 17, 18, 19, 20, 21, 23]
    else
      let tl := (List.range 3).foldl (fun a k =>
        let e := es.getD k (0, 0, 0)
        if 0 < sg * e.1 || (e.1 = 0 && 0 < sg * e.2.1) then a + 2 ^ k else a) 0
      let bx := pixSpan xs
      let bY := pixSpan ys
      let x0 := max bx.1 r.ox - r.ox
      let x1 := min bx.2 (min (r.ox + r.w - 1) (r.rtw - 1) : Int) - r.ox
      let y0 := max bY.1 r.oy - r.oy
      let y1 := min bY.2 (min (r.oy + r.h - 1) (r.rth - 1) : Int) - r.oy
      let s2 := m.putSts s1 l 16
        (((List.range 3).map fun k => v (4 * k + 2)) ++ ((List.range 3).map fun k => f32Div f32One (v (4 * k + 3)))
          ++ [0, tl + 8 * b2n flip])
      if x1 < x0 || y1 < y0 then rastNone r m s2 [1]
      else
        (m.putProg (m.putSt s2 l 1 (x0.toNat + 2 ^ 8 * x1.toNat + 2 ^ 16 * y0.toNat + 2 ^ 24 * y1.toNat)) l 1, .run)

/-! ### The walk (R219, R222, R223) -/

def rateOf (code : Nat) : Option (Nat × Nat) :=
  ([(1, 1), (1, 2), (2, 1), (2, 2), (2, 4), (4, 2), (4, 4)] : List (Nat × Nat))[code]?

/-- The rate of a cell: a byte of the rate map with .VRS and one sample a pixel. -/
def Rast.rate (r : Rast) (s : State) (m : MCtx) (cell : Nat) : State × Except StepEnd (Nat × Nat) :=
  if !modBit m.mw 7 || r.ns = 4 then (s, .ok (1, 1))
  else
    let cx := r.ox / 8 + cell % (r.w / 8)
    let cy := r.oy / 8 + cell / (r.w / 8)
    match s.lathRead m false (vaOf (fld (s.gs m.gid m.mw.s2.toNat) 0 57 + cy * ((r.rtw + 7) / 8) + cx)) 1 with
    | (s1, .error e) => (s1, .error e)
    | (s1, .ok code) =>
      match rateOf code with
      | some c => (s1, .ok c)
      | none => (s1, .error (.error (BitVec.ofNat 64 code)))

/-- A cell meets the box; no cell meets an empty one. -/
def meetsCell (w : Nat) (bx : Nat × Nat × Nat × Nat) (cell : Nat) : Bool :=
  let x := cell % (w / 8) * 8
  let y := cell / (w / 8) * 8
  bx.1 ≤ bx.2.1 && bx.2.2.1 ≤ bx.2.2.2 && bx.1 ≤ x + 7 && x ≤ bx.2.1 && bx.2.2.1 ≤ y + 7 && y ≤ bx.2.2.2

/-- Deliver taken quads, in order, to free lane quads; the column of the first that does not go, and why: it waits on
pixels, or no lane quad is free. -/
def rastDeliver (r : Rast) (m : MCtx) (wid cw ch : Nat) :
    List (Nat × List RPix) → List Nat → State → Nat → State × Nat × Option (Nat × List Nat)
  | [], _, s, fill => (s, fill, none)
  | (qc, _) :: _, [], s, fill => (s, fill, some (qc, []))
  | (qc, ps) :: rest, lq :: lqs, s, fill =>
    let full (t : Nat) : Bool :=
      match s.wgs.find? wid with
      | some v => (v.scoreIssue.getD t 0 + 256 - v.scoreRetire.getD t 0) % 256 = 255
      | none => false
    let pix := ((ps.flatMap (r.ticketed cw ch)).map (·.1)).filter full
    if pix.isEmpty then rastDeliver r m wid cw ch rest lqs (r.take s m wid cw ch lq ps) (fill + 2 ^ lq)
    else (s, fill, some (qc, pix))

/-- The depth writes of a taken quad. -/
def depthWrites (wid : Nat) (s : State) (ps : List RPix) : State :=
  ps.foldl (fun s p => p.writes.foldl (fun s w => s.homeWrite (.scr wid) (addressed w.1 (leBytes 4 w.2))) s) s
/-- Taken quads of a quad row, from a column on, each tested after the writes of those before it (R221); a poisoned depth with
the column of its quad. -/
def rastRow (r : Rast) (s : State) (wid cw ch cell qrow : Nat) : List Nat → List (Nat × List RPix) →
    List (Nat × List RPix) × Option (Nat × W64)
  | [], acc => (acc, none)
  | qc :: qcs, acc =>
    match r.quad s wid cw ch cell qrow qc with
    | .error p => (acc, some (qc, p))
    | .ok ps =>
      if ps.any fun p => p.cov != 0 then rastRow r (depthWrites wid s ps) wid cw ch cell qrow qcs (acc ++ [(qc, ps)])
      else rastRow r s wid cw ch cell qrow qcs acc

/-- A delivery ends: unfilled lane quads get mask 0. -/
def rastEnd (m : MCtx) (s : State) (fill status : Nat) : State × StepEnd := (rastClear m s fill, .stop status 0)

/-- The walk has ended. -/
def rastDone (m : MCtx) (s : State) (r : Rast) (fill : Nat) : State × StepEnd :=
  rastEnd m (m.putProg s m.lead (rastProg (r.w / 8 * (r.h / 8)) 0 0)) fill 3

def setWaitPix (m : MCtx) (s : State) (ps : List Nat) : State :=
  s.updGang m.gid fun g => { g with mops := g.mops.map fun o => if o.wait = m.op.wait then { o with waitPix := ps } else o }

/-- One quad row, which is as much of the walk as a step takes (log 74). A poisoned depth ends it: the taken quads before
it are delivered, and the progress names its quad (R209; log 64). -/
def rastWalk (s : State) (m : MCtx) : State × StepEnd :=
  let l := m.lead
  let r := m.rast s
  let wid := match s.gangs.find? m.gid with | some g => g.wg | none => 0
  let ctl := m.ctl s l
  let cell0 := bitsOf ctl 13 6
  let b := (m.st s l 1).toNat
  let bx := (b % 256, b / 2 ^ 8 % 256, b / 2 ^ 16 % 256, b / 2 ^ 24)
  let cells := r.w / 8 * (r.h / 8)
  let after (c : Nat) : Option Nat := (List.range cells).find? fun k => c ≤ k && meetsCell r.w bx k
  let fill := (m.st s l 22).toNat % 256
  match after cell0 with
  | none => rastDone m s r fill
  | some cell =>
    let same := decide (cell = cell0)
    let qrow0 := if same then bitsOf ctl 19 2 else 0
    let qcol0 := if same then bitsOf ctl 21 2 else 0
    match r.rate s m cell with
    | (s1, .error e) => (m.putProg s1 l (rastProg cell qrow0 qcol0), e)
    | (s1, .ok (cw, ch)) =>
      let rows := 4 / ch
      let cols := 4 / cw
      if rows ≤ qrow0 || cols ≤ qcol0 then (s1, .error (badField 0))
      else
        let cy := cell / (r.w / 8) * 8
        let cx := cell % (r.w / 8) * 8
        let rowMeets (k : Nat) : Bool := bx.2.2.1 ≤ cy + 2 * ch * k + 2 * ch - 1 && cy + 2 * ch * k ≤ bx.2.2.2
        let nextCell (s : State) (fill : Nat) : State × StepEnd :=
          match after (cell + 1) with
          | some c => (m.putSt (m.putProg s l (rastProg c 0 0)) l 22 fill, .run)
          | none => rastDone m (m.putSt s l 22 fill) r fill
        match (List.range rows).find? fun k => qrow0 ≤ k && rowMeets k with
        | none => nextCell s1 fill
        | some qrow =>
          let qcol := if qrow = qrow0 then qcol0 else 0
          let qcs := (List.range cols).filter fun c =>
            qcol ≤ c && bx.1 ≤ cx + 2 * cw * c + 2 * cw - 1 && cx + 2 * cw * c ≤ bx.2.1
          let (taken, bad) := rastRow r s1 wid cw ch cell qrow qcs []
          let free := (fullQuads m.op.act).filter fun q => !fill.testBit q
          if free.length < taken.length && fill != 0 && qcol = 0 then
            rastEnd m (m.putProg s1 l (rastProg cell qrow 0)) fill 1
          else
            match rastDeliver r m wid cw ch taken free s1 fill, bad with
            | (s2, fill2, some (qc, pix)), _ =>
              let s3 := m.putSt (m.putProg s2 l (rastProg cell qrow qc)) l 22 fill2
              if pix.isEmpty then rastEnd m s3 fill2 1 else (setWaitPix m s3 pix, .run)
            | (s2, fill2, none), some (qc, p) =>
              (m.putSt (m.putProg s2 l (rastProg cell qrow qc)) l 22 fill2, .trap Cause.poison p)
            | (s2, fill2, none), none =>
              if (List.range rows).any fun k => qrow < k && rowMeets k then
                (m.putSt (m.putProg s2 l (rastProg cell (qrow + 1) 0)) l 22 fill2, .run)
              else nextCell s2 fill2

/-- A field of the block outside its limits (R205). Setup leaves no A2 below 1, and one in the block is outside its limits
(log 75). -/
def rastLimits (s : State) (m : MCtx) : Option Nat :=
  let r := m.rast s
  let reg (k : Nat) : Nat := (m.st s m.lead k).toNat
  let ctl := reg 0
  if ctl / 2 ^ 23 != 0 || r.w / 8 * (r.h / 8) ≤ bitsOf ctl 13 6 then some 0
  else if !ctl.testBit 12 then none
  else if r.w ≤ reg 1 % 256 || r.w ≤ reg 1 / 2 ^ 8 % 256 || r.h ≤ reg 1 / 2 ^ 16 % 256 || r.h ≤ reg 1 / 2 ^ 24 then some 1
  else if r.a2 ≤ 0 then some 2
  else if 256 ≤ reg 22 then some 22
  else if 16 ≤ reg 23 then some 23
  else none

/-- QROW or QCOL lies beyond the quads of the cell at its rate. -/
def rastBeyond (s : State) (m : MCtx) : Bool :=
  let r := m.rast s
  let ctl := m.ctl s m.lead
  ctl.testBit 12 && (match (r.rate s m (bitsOf ctl 13 6)).2 with
    | .ok (cw, ch) => 4 / ch ≤ bitsOf ctl 19 2 || 4 / cw ≤ bitsOf ctl 21 2
    | .error _ => false)

def rastStep (s0 : State) (m : MCtx) (l : Nat) : State × StepEnd :=
  let (_, s) := (setWaitPix m s0 []).takeFree
  if m.fresh s l then rastSetup s m
  else
    match rastLimits s m with
    | some k => (s, .error (badField (if rastBeyond s m then 0 else k)))
    | none =>
      let s1 := if m.first l && bitsOf (m.ctl s l) 4 8 = 0 then m.putSt s l 22 0 else s
      if !(m.ctl s1 l).testBit 12 then rastSetup s1 m else rastWalk s1 m

/-- No pixel that the RAST waits on is still full (R223). -/
def rastReady (s : State) (m : MCtx) (_ : Nat) : Bool :=
  let wid := match s.gangs.find? m.gid with | some g => g.wg | none => 0
  match s.wgs.find? wid with
  | some v => m.op.waitPix.all fun p => (v.scoreIssue.getD p 0 + 256 - v.scoreRetire.getD p 0) % 256 != 255
  | none => false

def macroRast : Macro := { gangKind := true, state := 24, ready := rastReady, step := rastStep }

end Sys2Proof.Machine
end

