-- ==== Sys2Proof/Machine/Blend.lean ====
section
/-! DEFINITION. BLEND: its checks, tickets and the arithmetic of a sample (09 R224 to R227). -/

namespace Sys2Proof.Machine

/-- Element size, and channels stored, of a target format (Table 76). -/
def bSize (fmt : Nat) : Nat := if fmt = 2 then 8 else 4
def bChans (fmt : Nat) : Nat := if 3 ≤ fmt then 1 else 4

/-- v(O+0) of a lane outside its limits (R224). -/
def shapeBad (w : Wg) (x : Nat) : Bool :=
  let px := x % 256
  let py := x / 2 ^ 8 % 256
  let lw := x / 2 ^ 16 % 4
  let lh := x / 2 ^ 18 % 4
  2 ^ 21 ≤ x || lw = 3 || lh = 3 || ((lw != 0 || lh != 0) && x.testBit 20) || px % 2 ^ lw != 0 || py % 2 ^ lh != 0
    || w.tileW < px + 2 ^ lw || w.tileH < py + 2 ^ lh

/-- The descriptor checks of R224, in its order. -/
def blendDesc (w : MacroW) (c : Ctx) : Check :=
  let t := c.r.s w.s0.toNat
  let b := c.r.s w.s1.toNat
  let k := c.r.s w.s2.toNat
  let bounds (p : Bool) (x : W64) : Check := if p then .trap Cause.bounds x else .ok
  let fmt := fld t 48 3
  let size := bSize fmt
  let shape (l : Nat) : Nat := (c.r.v l w.vo.toNat).toNat
  let lanes := lanesOf c.act
  let lowest (p : Nat → Bool) : Check :=
    match lanes.find? p with | some l => .trap Cause.bounds (BitVec.ofNat 64 (shape l)) | none => .ok
  [bounds (5 ≤ fmt || fld t 18 14 != 0 || fld t 52 12 != 0) t,
   bounds (fld b 0 4 = 15 || fld b 4 4 = 15 || 5 ≤ fld b 8 3 || fld b 11 1 != 0 || fld b 12 4 = 15 || fld b 16 4 = 15
     || 5 ≤ fld b 20 3 || fld b 23 1 != 0 || fld b 29 35 != 0) b,
   bounds (fld k 32 32 != 0) k,
   bounds (fld t 0 18 % size != 0 || fld t 32 16 % size != 0) t,
   bounds (imageBeyond c.wg (fld t 0 18) (fld t 32 16) size (if t.getLsbD 51 then 4 else 1)) t,
   bounds (fmt = 4 && b.getLsbD 28) b,
   lowest fun l => (shape l).testBit 20 != t.getLsbD 51,
   lowest fun l => shapeBad c.wg (shape l)].foldl Check.next .ok

/-- Coverage mask that R220 defines for a shape. -/
def covMask (shape : Nat) : Nat :=
  if shape.testBit 20 then 15 else 2 ^ (2 ^ (shape / 2 ^ 16 % 4) * 2 ^ (shape / 2 ^ 18 % 4)) - 1
/-- Fine pixels of a shape. -/
def finePixels (shape : Nat) : Nat := 2 ^ (shape / 2 ^ 16 % 4) * 2 ^ (shape / 2 ^ 18 % 4)

def blendChk (w : MacroW) (c : Ctx) (_ : State) : Check :=
  if c.act = 0 then .ok
  else (tileChk c).next ((ctlChecks w false [] c).next (blendDesc w c))

/-- BLEND; a lane whose coverage is 0 completes without a step (R225). -/
def execBlend (w : MacroW) : State → Out :=
  coreWord (.blend w)
    (macroUse w false 1 1 [{ reg := w.vi.toNat, count := 4 }, { reg := w.vo.toNat, count := 9 }] []
      [w.s0.toNat, w.s1.toNat, w.s2.toNat])
    (blendChk w)
    fun c s =>
      let shape (l : Nat) : Nat := (c.r.v l w.vo.toNat).toNat
      let none_ (l : Nat) : Bool := (c.r.v l (w.vo.toNat + 1)).toNat &&& covMask (shape l) = 0
      let ctl (l : Nat) : Nat := (c.r.v l w.vs.toNat).toNat
      let skip := c.act &&& maskWhere fun l => none_ l && ctl l % 16 != 3
      let s1 := s.updGang c.gid fun g => (lanesOf skip).foldl (fun g l =>
        g.macPut l w.vs.toNat (BitVec.ofNat 32 (3 + 4096 * finePixels (shape l)))) g
      startMacro (.blend w) w false 1 [] skip c s1

/-! ### Channels (R226, R227) -/

/-- Channel i of an element, unpacked. -/
def unpackChan (fmt x i : Nat) : Nat :=
  match fmt with
  | 0 => unorm8 (x / 2 ^ (8 * i) % 256)
  | 1 => if i = 3 then unorm8 (x / 2 ^ 24 % 256) else srgb8 (x / 2 ^ (8 * i) % 256)
  | 2 => (convF fmtFp32 .rne (decodeF fmtFp16 (x / 2 ^ (16 * i) % 2 ^ 16))).1
  | _ => if i = 0 then x % 2 ^ 32 else if i = 3 then f32One else 0

/-- A result packed for channel i: width and bits. -/
def packChan (fmt v i : Nat) : Nat × Nat :=
  match fmt with
  | 0 => (8, packUnorm8 v)
  | 1 => (8, if i = 3 then packUnorm8 v else packSrgb8 v)
  | 2 => (16, (convF fmtFp16 .rne (decodeF fmtFp32 v)).1)
  | _ => (32, if f32IsNan v then fmtFp32.nanCode else v)

def oneMinus (x : Nat) : Nat := f32Sub f32One x

/-- A blend factor of Table 78 for channel i. -/
def bFactor (code i : Nat) (src dst con : Nat → Nat) : Nat :=
  match code with
  | 0 => 0
  | 1 => f32One
  | 2 => src i
  | 3 => oneMinus (src i)
  | 4 => dst i
  | 5 => oneMinus (dst i)
  | 6 => src 3
  | 7 => oneMinus (src 3)
  | 8 => dst 3
  | 9 => oneMinus (dst 3)
  | 10 => con i
  | 11 => oneMinus (con i)
  | 12 => con 3
  | 13 => oneMinus (con 3)
  | _ => if i = 3 then f32One else f32Min (src 3) (oneMinus (dst 3))

/-- The result of channel i (R226). -/
def blendChan (b : W64) (i : Nat) (src dst con : Nat → Nat) : Nat :=
  let (fs, fd, op) := if i = 3 then (fld b 12 4, fld b 16 4, fld b 20 3) else (fld b 0 4, fld b 4 4, fld b 8 3)
  if !b.getLsbD 28 then src i
  else
    match op with
    | 3 => f32Min (src i) (dst i)
    | 4 => f32Max (src i) (dst i)
    | _ =>
      let t1 := f32Mul (src i) (bFactor fs i src dst con)
      let t2 := f32Mul (dst i) (bFactor fd i src dst con)
      if op = 0 then f32Add t1 t2 else if op = 1 then f32Sub t1 t2 else f32Sub t2 t1

/-- An element after a blend: written channels replaced, the others kept. -/
def blendElem (t b k : W64) (src0 : Nat → Nat) (old : Nat) : Nat :=
  let fmt := fld t 48 3
  let src (i : Nat) : Nat := if fmt ≤ 1 then clamp01 (src0 i) else src0 i
  let dst (i : Nat) : Nat := unpackChan fmt old i
  let con (i : Nat) : Nat := unorm8 (fld k (8 * i) 8)
  (List.range (bChans fmt)).foldl (fun x i =>
    if b.getLsbD (24 + i) then
      let (n, v) := packChan fmt (blendChan b i src dst con) i
      x - x / 2 ^ (n * i) % 2 ^ n * 2 ^ (n * i) + v % 2 ^ n * 2 ^ (n * i)
    else x) old

/-! ### Steps (R225) -/

/-- Coverage of fine pixel i: its samples. -/
def fineCov (shape cov i : Nat) : List Nat :=
  if shape.testBit 20 then (List.range 4).filter fun k => cov.testBit k else if cov.testBit i then [0] else []

/-- The next fine pixel with coverage, from one on. -/
def nextCovered (shape cov d : Nat) : Option Nat :=
  (List.range (finePixels shape)).find? fun i => d ≤ i && !(fineCov shape cov i).isEmpty

/-- Tile pixel of a fine pixel: x, y. -/
def finePos (shape i : Nat) : Nat × Nat :=
  let cw := 2 ^ (shape / 2 ^ 16 % 4)
  (shape % 256 + i % cw, shape / 2 ^ 8 % 256 + i / cw)

/-- What a BLEND step reads of its lane: shape, coverage, DONEPX. -/
def blendLane (s : State) (m : MCtx) (l : Nat) : Nat × Nat × Nat :=
  let shape := (m.outp s l 0).toNat
  (shape, (m.outp s l 1).toNat &&& covMask shape, bitsOf (m.ctl s l) 12 5)

def blendTicket (s : State) (m : MCtx) (l i : Nat) : Nat := (m.outp s l (5 + i / 4)).toNat / 2 ^ (8 * (i % 4)) % 256

/-- A lane is ready when its block is to be judged, when nothing is left, or when its ticket has come (R225). -/
def blendReady (s : State) (m : MCtx) (l : Nat) : Bool :=
  let (shape, cov, d) := blendLane s m l
  match nextCovered shape cov d with
  | none => true
  | some i =>
    let p := finePos shape i
    match s.gangs.find? m.gid with
    | some g =>
      (match s.wgs.find? g.wg with
       | some v => v.scoreRetire.getD (p.2 * v.tileW + p.1) 0 = blendTicket s m l i
       | none => false)
    | none => false

/-- Blend the covered samples of a pixel, or the poisoned offset that stops it. -/
def blendPixel (s : State) (m : MCtx) (wid l shape i : Nat) (ks : List Nat) : Except W64 State :=
  let t := s.gs m.gid m.mw.s0.toNat
  let b := s.gs m.gid m.mw.s1.toNat
  let k := s.gs m.gid m.mw.s2.toNat
  let fmt := fld t 48 3
  let size := bSize fmt
  let ns := if t.getLsbD 51 then 4 else 1
  let p := finePos shape i
  let off (smp : Nat) : Nat := fld t 0 18 + p.2 * fld t 32 16 + size * (p.1 * ns + smp)
  let reads := b.getLsbD 28 || (List.range (bChans fmt)).any fun c => !b.getLsbD (24 + c)
  let bad := ks.find? fun smp => reads && (List.range size).any fun j => s.homePoison (.scr wid) (off smp + j)
  match bad with
  | some smp => .error (BitVec.ofNat 64 (off smp))
  | none =>
    .ok (ks.foldl (fun s smp =>
      let old := leNat ((List.range size).map fun j => s.scrByte wid (off smp + j))
      let new := blendElem t b k (fun c => (m.inp s l c).toNat) old
      s.homeWrite (.scr wid) (addressed (off smp) (leBytes size new))) s)

/-- One ready pixel of a lane. -/
def blendStep (s : State) (m : MCtx) (l : Nat) : State × StepEnd :=
  let (shape, cov, d) := blendLane s m l
  if bitsOf (m.ctl s l) 17 15 != 0 || finePixels shape < d then (s, .error (badField 0))
  else
    match nextCovered shape cov d with
    | none => (m.putProg s l (finePixels shape), .stop 3 0)
    | some i =>
      let wid := match s.gangs.find? m.gid with | some g => g.wg | none => 0
      let p := finePos shape i
      let px := p.2 * m.w.tileW + p.1
      let r : Except W64 State := if modBit m.mw 0 then .ok s else blendPixel s m wid l shape i (fineCov shape cov i)
      match r with
      | .error a => (m.putProg s l i, .trap Cause.poison a)
      | .ok s1 =>
        let s2 := s1.updWg wid fun v =>
          { v with scoreRetire := v.scoreRetire.put 0 px ((v.scoreRetire.getD px 0 + 1) % 256) }
        match nextCovered shape cov (i + 1) with
        | some j => (m.putProg s2 l j, .run)
        | none => (m.putProg s2 l (finePixels shape), .stop 3 0)

def macroBlend : Macro := { gangKind := false, state := 1, ready := blendReady, step := blendStep }

end Sys2Proof.Machine
end

