-- ==== Sys2Proof/Machine/Filter.lean ====
section
/-! DEFINITION. FILT: descriptors, level of detail, footprints and sums (10 R229 to R234). -/

namespace Sys2Proof.Machine

/-- A texture and sampler as the descriptors give them (Tables 81, 82). -/
structure Tex where
  base : Nat
  w : Nat
  h : Nat
  fmt : Nat
  levels : Nat
  mode : Nat
  wrapU : Nat
  wrapV : Nat
  aniso : Nat
  bias : Int
  minLod : Nat
  maxLod : Nat
  deriving DecidableEq, Repr

def texOf (t0 t1 sm : W64) : Tex :=
  { base := fld t0 8 49 * 256, w := fld t1 0 16, h := fld t1 16 16, fmt := fld t1 32 4, levels := fld t1 36 4
    mode := fld sm 0 2, wrapU := fld sm 2 2, wrapV := fld sm 4 2, aniso := 2 * 2 ^ fld sm 6 2
    bias := sint 16 (fld sm 16 16), minLod := fld sm 32 8, maxLod := fld sm 40 8 }

/-- Texel size. -/
def texSize (fmt : Nat) : Nat := [1, 2, 4, 4, 8, 4, 16].getD fmt 4

/-- The descriptor checks of R230, in its order: the reserved fields and codes of every register first (R412). -/
def filtDesc (w : MacroW) (c : Ctx) : Check :=
  let t0 := c.r.s w.s0.toNat
  let t1 := c.r.s (w.s0.toNat + 1)
  let sm := c.r.s w.s1.toNat
  let x := texOf t0 t1 sm
  let bounds (p : Bool) (v : W64) : Check := if p then .trap Cause.bounds v else .ok
  [bounds (fld t0 0 8 != 0 || fld t0 57 7 != 0) t0,
   bounds (fld t1 40 24 != 0 || 7 ≤ x.fmt) t1,
   bounds (fld sm 8 8 != 0 || fld sm 48 16 != 0 || x.wrapU = 3 || x.wrapV = 3 || (x.mode = 3 && fld sm 6 2 = 3)) sm,
   bounds (x.w = 0 || x.h = 0 || 16384 < x.w || 16384 < x.h || Nat.log2 (max x.w x.h) < x.levels) t1,
   bounds (x.maxLod < x.minLod) sm].foldl Check.next .ok

def filtChk (w : MacroW) (c : Ctx) (_ : State) : Check :=
  if c.act = 0 then .ok else (ctlChecks w false [] c).next (filtDesc w c)

def execFilt (w : MacroW) : State → Out :=
  let n := if modBit w 0 then 3 else 6
  coreWord (.filt w)
    { macroUse w false 9 1 [{ reg := w.vi.toNat, count := n }] [(w.vo.toNat, 4)] [w.s0.toNat, w.s0.toNat + 1, w.s1.toNat] with
      evens := [w.s0.toNat] }
    (filtChk w)
    fun c s => startMacro (.filt w) w false 9 [(c.act, w.vo.toNat, 4)] 0 c s

def MCtx.tex (m : MCtx) (s : State) : Tex :=
  texOf (s.gs m.gid m.mw.s0.toNat) (s.gs m.gid (m.mw.s0.toNat + 1)) (s.gs m.gid m.mw.s1.toNat)

/-! ### Level of detail (R231) -/

/-- floor(128 log2 v) of a positive finite value. -/
def log128 (x : Nat) : Int :=
  match decodeF fmtFp32 x with
  | .fin _ m e => (Nat.log2 (m ^ 128) : Int) + 128 * e
  | _ => 0

/-- A level before its clamps: none where the square sum is 0, the highest where it is infinite. -/
inductive Lod where
  | low
  | high
  | at (v : Int)
  deriving DecidableEq, Repr

def lodOf (x : Nat) : Lod := if f32Le x 0 then .low else if f32Finite x then .at (log128 x) else .high
def Lod.sub (a : Lod) (k : Int) : Lod := match a with | .at v => .at (v - k) | x => x
/-- The clamps of R231. -/
def Lod.clamp (a : Lod) (t : Tex) : Nat :=
  let v : Int :=
    match a with
    | .low => 16 * t.minLod
    | .high => 16 * t.maxLod
    | .at v => min (max (v + t.bias) (16 * t.minLod)) (16 * t.maxLod)
  (min (max v 0) (256 * t.levels)).toNat

/-- n² × b, rounded to FP32, reaches a. -/
def tapsEnough (n a b : Nat) : Bool := f32Le a (f32Mul b (convF fmtFp32 .rne (FVal.ofInt (n * n))).1)

/-- Level of detail, taps and step of a footprint: L, N, du, dv. With .LOD there is no footprint, and one tap in MODE 3 too
(log 76). -/
def filtLod (t : Tex) (lodForm : Bool) (v : Nat → Nat) : Nat × Nat × Nat × Nat :=
  if lodForm then
    let x : Int := match Dy.ofF (v 2) with | some d => (d.mul ⟨256, 0⟩).floor | none => 0
    let sat := min (max x (-2 ^ 31)) (2 ^ 31 - 1)
    ((Lod.at sat).clamp t, 1, 0, 0)
  else
    let wf := (convF fmtFp32 .rne (FVal.ofInt t.w)).1
    let hf := (convF fmtFp32 .rne (FVal.ofInt t.h)).1
    let sq (a b : Nat) : Nat :=
      let p := f32Mul a wf
      let q := f32Mul b hf
      f32Add (f32Mul p p) (f32Mul q q)
    let lx := sq (v 2) (v 3)
    let ly := sq (v 4) (v 5)
    let maj := if f32Le ly lx then lx else ly
    let mn := if f32Le ly lx then ly else lx
    if t.mode = 3 then
      let n := (([1, 2, 4, 8].filter fun k => k ≤ t.aniso).find? fun k => tapsEnough k maj mn).getD t.aniso
      let d := if f32Le ly lx then (v 2, v 3) else (v 4, v 5)
      (((lodOf maj).sub (256 * Nat.log2 n)).clamp t, n, d.1, d.2)
    else ((lodOf maj).clamp t, 1, 0, 0)

/-! ### Footprints (R232) -/

/-- Size of a level, and its address. -/
def Tex.lw (t : Tex) (l : Nat) : Nat := max (t.w / 2 ^ l) 1
def Tex.lh (t : Tex) (l : Nat) : Nat := max (t.h / 2 ^ l) 1
def Tex.levelBase (t : Tex) : Nat → Nat
  | 0 => t.base
  | l + 1 => t.levelBase l + (t.lw l * t.lh l * texSize t.fmt + 255) / 256 * 256

/-- Wrap a coordinate. -/
def wrapCoord (mode : Nat) (i : Int) (n : Nat) : Nat :=
  match mode with
  | 0 => (i % n).toNat
  | 1 => (min (max i 0) (n - 1)).toNat
  | _ =>
    let m := (i % (2 * n : Nat)).toNat
    if m < n then m else 2 * n - 1 - m

/-- Floor of an FP32 image, with its fraction in 1/256; a value that is not finite has free ones (log 4). -/
def floorFrac (free : Nat) (x : Nat) : Int × Nat :=
  match Dy.ofF x with
  | some d => (d.floor, ((d.mul ⟨256, 0⟩).floor - 256 * d.floor).toNat)
  | none => (Config.freeNat free, Config.freeNat (free + 1) % 256)

def half : Nat := 0x3F000000

/-- Texel k of a bilinear footprint at a level: coordinates and weight. -/
def bilinear (t : Tex) (free lev k u v : Nat) : Int × Int × Nat :=
  let c (x n : Nat) (f : Nat) : Int × Nat :=
    floorFrac f (f32Sub (f32Mul x ((convF fmtFp32 .rne (FVal.ofInt n)).1)) half)
  let (ix, ax) := c u (t.lw lev) free
  let (iy, ay) := c v (t.lh lev) (free + 2)
  (ix + (k % 2 : Nat), iy + (k / 2 : Nat), (if k % 2 = 1 then ax else 256 - ax) * if k / 2 = 1 then ay else 256 - ay)

/-- Texel i of a sample: level, coordinates, weight. -/
def texel (t : Tex) (free l0 f n u v du dv i : Nat) : Nat × Int × Int × Nat :=
  match t.mode with
  | 0 =>
    let c (x n : Nat) (k : Nat) : Int := (floorFrac k (f32Mul x ((convF fmtFp32 .rne (FVal.ofInt n)).1))).1
    (l0, c u (t.lw l0) free, c v (t.lh l0) (free + 2), 1)
  | 1 =>
    let b := bilinear t free l0 i u v
    (l0, b)
  | 2 =>
    let lev := if i < 4 then l0 else l0 + 1
    let b := bilinear t free lev (i % 4) u v
    (lev, b.1, b.2.1, b.2.2 * if i < 4 then 256 - f else f)
  | _ =>
    let o := ratRound (.ofInt (2 * (i / 4 : Nat) + 1 - n)) (.ofInt (2 * n))
    let u' := f32Add u (f32Mul o du)
    let v' := f32Add v (f32Mul o dv)
    let b := bilinear t free l0 (i % 4) u' v'
    (l0, b)

def texelCount (t : Tex) (n : Nat) : Nat :=
  match t.mode with
  | 0 => 1
  | 1 => 4
  | 2 => 8
  | _ => 4 * n

/-! ### Texels and sums (R233) -/

/-- The four channels of a texel. -/
def texelChans (fmt x : Nat) : List Nat :=
  let by_ (i : Nat) : Nat := x / 2 ^ (8 * i) % 256
  match fmt with
  | 0 => [unorm8 (by_ 0), 0, 0, f32One]
  | 1 => [unorm8 (by_ 0), unorm8 (by_ 1), 0, f32One]
  | 2 => (List.range 4).map fun i => unpackChan 0 x i
  | 3 => (List.range 4).map fun i => unpackChan 1 x i
  | 4 => (List.range 4).map fun i => unpackChan 2 x i
  | 5 => [x % 2 ^ 32, 0, 0, f32One]
  | _ => (List.range 4).map fun i => x / 2 ^ (32 * i) % 2 ^ 32

/-- An FP32 image times an exact integer or power of two. -/
def f32Scale (x : Nat) (v : FVal) : Nat := (convF fmtFp32 .rne ((decodeF fmtFp32 x).mul v)).1

def filtScale (t : Tex) (n : Nat) : FVal :=
  match t.mode with
  | 0 => .fin false 1 0
  | 1 => .fin false 1 (-16)
  | 2 => .fin false 1 (-24)
  | _ => .fin false 1 (-16 - (Nat.log2 n : Int))

/-- The first input that is not finite. -/
def filtBadInput (s : State) (m : MCtx) (l : Nat) : Option Nat :=
  (List.range (if modBit m.mw 0 then 3 else 6)).find? fun k => !f32Finite (m.inp s l k).toNat

/-- Fields of the block outside their limits (R205, Table 83): L above the last level, too; bits [7:6] of v(S+6), which the
table does not name, are not looked at (log 75). -/
def filtLimits (s : State) (m : MCtx) (l : Nat) (t : Tex) : Option Nat :=
  let ctl := m.ctl s l
  let lv := (m.st s l 5).toNat
  let x := (m.st s l 6).toNat
  let n := 2 ^ (x / 16 % 4)
  if ctl / 2 ^ 18 != 0 || texelCount t n < bitsOf ctl 12 6 then some 0
  else if 256 * t.levels < lv then some 5
  else if 2 ^ 16 ≤ x || t.levels < x % 16 || (if t.mode = 3 then t.aniso < n else 1 < n) || (t.mode = 2 && t.levels ≤ x % 16 && 0 < x / 256) then some 6
  else none

/-- The first step of a FRESH FILT, then one texel a step (R231, R234). -/
def filtStep (s0 : State) (m : MCtx) (l : Nat) : State × StepEnd :=
  let s : State := { s0 with freeCtr := s0.freeCtr + 4 }
  let free := s0.freeCtr
  let t := m.tex s
  match filtBadInput s m l with
  | some k => (s, .error (BitVec.ofNat 64 k))
  | none =>
    if m.fresh s l then
      let (lod, n, du, dv) := filtLod t (modBit m.mw 0) fun k => (m.inp s l k).toNat
      let lev := if t.mode = 2 then lod / 256 else min ((lod + 128) / 256) t.levels
      let f := if t.mode = 2 then lod % 256 else 0
      (m.putSts s l 1 [0, 0, 0, 0, lod, lev + 16 * Nat.log2 n + 256 * f, du, dv], .run)
    else
      match filtLimits s m l t with
      | some k => (s, .error (badField k))
      | none =>
        let x := (m.st s l 6).toNat
        let n := 2 ^ (x / 16 % 4)
        let tx (i : Nat) : Nat × Int × Int × Nat :=
          texel t free (x % 16) (x / 256 % 256) n (m.inp s l 0).toNat (m.inp s l 1).toNat (m.st s l 7).toNat
            (m.st s l 8).toNat i
        let cnt := texelCount t n
        let next (d : Nat) : Option Nat := (List.range cnt).find? fun i => d ≤ i && (tx i).2.2.2 != 0
        let done (s : State) : State × StepEnd :=
          let outs := (List.range 4).map fun c => f32Scale (m.st s l (1 + c)).toNat (filtScale t n)
          (m.putProg (m.putOuts s l 0 outs) l cnt, .stop 3 0)
        match next (bitsOf (m.ctl s l) 12 6) with
        | none => done s
        | some i =>
          let (lev, ix, iy, wt) := tx i
          let at_ := t.levelBase lev
            + (wrapCoord t.wrapV iy (t.lh lev) * t.lw lev + wrapCoord t.wrapU ix (t.lw lev)) * texSize t.fmt
          match s.lathRead m true (vaOf at_) (texSize t.fmt) with
          | (s1, .error e) => (m.putProg s1 l i, e)
          | (s1, .ok raw) =>
            let cs := texelChans t.fmt raw
            let accs := (List.range 4).map fun c =>
              f32Add (m.st s1 l (1 + c)).toNat (f32Scale (cs.getD c 0) (FVal.ofInt wt))
            let s2 := m.putProg (m.putSts s1 l 1 accs) l (i + 1)
            if (next (i + 1)).isSome then (s2, .run) else done s2

def macroFilt : Macro := { gangKind := false, state := 9, ready := fun _ _ _ => true, step := filtStep }

end Sys2Proof.Machine
end

