-- ==== Sys2Proof/Machine/Trav.lean ====
section
/-! DEFINITION. TRAV: rays, nodes, leaves and callbacks (10 R235 to R242). -/

namespace Sys2Proof.Machine

/-- Lanes of the gang at the cursor whose control words meet a condition: those that read the inputs, and those that read
the block named by VO (Table 80, R206). -/
def travMask (s : State) (w : MacroW) (p : Nat → Bool) : LaneMask :=
  match s.curRead? with
  | some g => maskWhere fun l => p (g.v l w.vs.toNat).toNat
  | none => 0

def afterCallback (x : Nat) : Bool := x % 16 = 2 && (x / 16 % 256 = 3 || x / 16 % 256 = 4)

def travChk (w : MacroW) (c : Ctx) (_ : State) : Check :=
  let b := c.r.s w.s0.toNat
  if c.act = 0 then .ok
  else
    (ctlChecks w false [3, 4, 5] c).next
      (if fld b 57 7 != 0 || fld b 0 7 != 0 then .trap Cause.bounds b else .ok)

def execTrav (w : MacroW) (s : State) : Out :=
  coreWord (.trav w)
    { macroUse w false 24 8
        [{ reg := w.vi.toNat, count := 11, mask := travMask s w fun x => x % 16 = 0 },
         { reg := w.vo.toNat, count := 4, mask := travMask s w afterCallback }]
        [(w.vo.toNat, 4)] [w.s0.toNat] with
      evens := [w.vi.toNat] }
    (travChk w)
    (fun c s => startMacro (.trav w) w false 24 [(c.act, w.vo.toNat, 4)] 0 c s)
    s

/-! ### The state block (R237) -/

/-- ACCEPT, TRI, SP, INLEAF of a progress field. -/
def travProg (acc tri sp inleaf : Nat) : Nat := acc + 2 * tri + 8 * sp + 2 ^ 7 * inleaf

/-- A ray state as the block holds it. -/
structure Ray where
  o : List Nat
  d : List Nat
  tmin : Nat
  t : Nat
  spill : Nat
  scap : Nat
  scnt : Nat
  leaf : Nat
  stack : List Nat
  tri : Nat
  sp : Nat
  inleaf : Bool
  deriving Repr

def MCtx.ray (m : MCtx) (s : State) (l : Nat) : Ray :=
  let r (k : Nat) : Nat := (m.st s l k).toNat
  { o := [r 1, r 2, r 3], d := [r 4, r 5, r 6], tmin := r 7, t := r 8, spill := r 12 + 2 ^ 32 * r 13
    scap := r 14 % 2 ^ 16, scnt := r 14 / 2 ^ 16, leaf := r 15, stack := (List.range 8).map fun k => r (16 + k)
    tri := bitsOf (r 0) 13 2, sp := bitsOf (r 0) 15 4, inleaf := (r 0).testBit 19 }

def travLimits (s : State) (m : MCtx) (l : Nat) : Option Nat :=
  let r := m.ray s l
  if 2 ^ 20 ≤ m.ctl s l || 8 < r.sp then some 0
  else if r.spill % 4 != 0 then some 12
  else if r.scap < r.scnt then some 14
  else if r.inleaf && r.leaf / 2 ^ 30 != 2 then some 15
  else none

/-! ### Setup (R238) -/

def travSetup (s : State) (m : MCtx) (l : Nat) : State × StepEnd :=
  let v (k : Nat) : Nat := (m.inp s l k).toNat
  let zero (x : Nat) : Bool := x % 2 ^ 31 = 0
  let bad : Option Nat :=
    match (List.range 6).find? fun k => !f32Finite (v k) with
    | some k => some k
    | none =>
      if zero (v 3) && zero (v 4) && zero (v 5) then some 3
      else if !f32Le 0 (v 6) then some 6
      else if !f32Le (v 6) (v 7) then some 7
      else if v 8 % 4 != 0 then some 8
      else if 2 ^ 16 ≤ v 10 then some 10 else none
  match bad with
  | some k => (s, .error (BitVec.ofNat 64 k))
  | none =>
    let s1 := m.putSts s l 1 ([v 0, v 1, v 2, v 3, v 4, v 5, v 6, v 7, 0xFFFFFFFF, 0, 0, v 8, v 9, v 10, 0, 0x40000000]
      ++ List.replicate 7 0)
    (m.putProg s1 l (travProg 0 0 1 0), .run)

/-! ### Box and triangle tests (R240, R241) -/

/-- The FP32 value above or below; infinities map to themselves. -/
def nextF (up : Bool) (x : Nat) : Nat :=
  let mag := x % 2 ^ 31
  if mag = 0x7F800000 then x
  else if mag = 0 then (if up then 1 else 0x80000001)
  else if decide (x < 2 ^ 31) = up then x + 1 else x - 1

/-- Maximum and minimum by comparison of values that are no NaN. -/
def fMaxC (a b : Nat) : Nat := if f32Lt a b then b else a
def fMinC (a b : Nat) : Nat := if f32Lt b a then b else a

/-- tnear of a box that the ray hits. -/
def boxHit (r : Ray) (b : Nat → Nat) : Option Nat :=
  let axis (a : Nat) : Option (Option (Nat × Nat)) :=
    let o := r.o.getD a 0
    let d := r.d.getD a 0
    if d % 2 ^ 31 = 0 then
      if f32Le (b a) o && f32Le o (b (3 + a)) then some none else none
    else
      let inv := f32Div f32One d
      let t1 := f32Mul (f32Sub (b a) o) inv
      let t2 := f32Mul (f32Sub (b (3 + a)) o) inv
      if f32IsNan t1 || f32IsNan t2 then none
      else some (some (nextF false (fMinC t1 t2), nextF true (fMaxC t1 t2)))
  let axes := (List.range 3).map axis
  if axes.any (·.isNone) then none
  else
    let spans := axes.filterMap fun a => a.getD none
    let tn := spans.foldl (fun t s => fMaxC t s.1) r.tmin
    let tf := spans.foldl (fun t s => fMinC t s.2) r.t
    if f32Le tn tf then some tn else none

/-- The triangle test: t, μ1, μ2 of a candidate. -/
def triHit (r : Ray) (vb : Nat → Nat) : Option (Nat × Nat × Nat) :=
  let d (a : Nat) : Nat := r.d.getD a 0
  let mag (a : Nat) : Nat := d a % 2 ^ 31
  let kz := if mag 0 < mag 1 then (if mag 1 < mag 2 then 2 else 1) else if mag 0 < mag 2 then 2 else 0
  let kx0 := (kz + 1) % 3
  let ky0 := (kx0 + 1) % 3
  let (kx, ky) := if 2 ^ 31 ≤ d kz then (ky0, kx0) else (kx0, ky0)
  let sx := f32Div (d kx) (d kz)
  let sy := f32Div (d ky) (d kz)
  let sz := f32Div f32One (d kz)
  let point (i : Nat) : Option (Dy × Dy × Dy) :=
    let p (a : Nat) : Nat := f32Sub (vb (3 * i + a)) (r.o.getD a 0)
    match Dy.ofF (f32Sub (p kx) (f32Mul sx (p kz))), Dy.ofF (f32Sub (p ky) (f32Mul sy (p kz))),
        Dy.ofF (f32Mul sz (p kz)) with
    | some x, some y, some z => some (x, y, z)
    | _, _, _ => none
  match point 0, point 1, point 2 with
  | some p0, some p1, some p2 =>
    let cross (a b : Dy × Dy × Dy) : Dy := (a.1.mul b.2.1).sub (a.2.1.mul b.1)
    let u := cross p2 p1
    let v := cross p0 p2
    let w := cross p1 p0
    let det := (u.add v).add w
    if det.m = 0 then none
    else
      let sg : Int := if det.m < 0 then -1 else 1
      let edge (e : Dy) (p q : Dy × Dy × Dy) : Bool :=
        let al := sg * (q.2.1.sub p.2.1).m
        let be := sg * (p.1.sub q.1).m
        0 < sg * e.m || (e.m = 0 && (0 < al || (al = 0 && 0 < be)))
      if edge u p1 p2 && edge v p2 p0 && edge w p0 p1 then
        let t := ratRound ((u.mul p0.2.2).add ((v.mul p1.2.2).add (w.mul p2.2.2))) det
        if f32Le r.tmin t && f32Lt t r.t then some (t, ratRound v det, ratRound w det) else none
      else none
  | _, _, _ => none

/-! ### Units of work (R239, R242) -/

def travBase (s : State) (m : MCtx) : Nat := fld (s.gs m.gid m.mw.s0.toNat) 0 57
def leafVa (s : State) (m : MCtx) (leaf : Nat) : W64 := vaOf (travBase s m + 32 * (leaf % 2 ^ 30))

/-- The header of a triangle leaf: COUNT, OPQ, PRIM0. -/
def leafHeader (s : State) (m : MCtx) (leaf : Nat) : State × Except StepEnd (Nat × Nat × Nat) :=
  let a := leafVa s m leaf
  match s.lathWords m ((List.range 4).map fun k => a + BitVec.ofNat 64 (4 * k)) with
  | (s1, .error e) => (s1, .error e)
  | (s1, .ok ws) =>
    let h := ws.getD 0 0
    if h % 8 = 0 || 4 < h % 8 || 2 ^ 8 ≤ h || ws.getD 2 0 != 0 || ws.getD 3 0 != 0 then (s1, .error (.error a))
    else (s1, .ok (h % 8, h / 16 % 16, ws.getD 1 0))

/-- Commit a hit. -/
def travCommit (m : MCtx) (s : State) (l : Nat) (hit : List Nat) : State := m.putSts s l 8 hit

/-- TRI moves past a triangle of a leaf of COUNT triangles. -/
def nextTri (m : MCtx) (s : State) (l acc sp tri count : Nat) : State :=
  m.putProg s l (if tri + 1 < count then travProg acc (tri + 1) sp 1 else travProg acc 0 sp 0)

/-- The first step after ANYHIT or ISECT: the answer is taken first, and ACCEPT cleared, so that no fault of the step can
lose it. Where the leaf's header cannot be read, TRI has moved past the candidate all the same (R242; log 65). -/
def travResume (s : State) (m : MCtx) (l : Nat) : State × StepEnd :=
  let r := m.ray s l
  let anyhit := m.ctl s l / 16 % 256 = 3
  let out := (List.range 4).map fun k => (m.outp s l k).toNat
  let take := (m.ctl s l).testBit 12 && f32Le r.tmin (out.getD 0 0) && f32Lt (out.getD 0 0) r.t
  let s0 := if take then travCommit m s l out else s
  let fin : StepEnd := if take && modBit m.mw 0 then .stop 3 0 else .run
  if anyhit then
    match leafHeader s0 m r.leaf with
    | (s1, .error e) => (nextTri m s1 l 0 r.sp r.tri 4, if fin = .run then e else fin)
    | (s1, .ok (count, _, _)) => (nextTri m s1 l 0 r.sp r.tri count, fin)
  else (m.putProg s0 l (travProg 0 r.tri r.sp (b2n r.inleaf)), fin)

/-- One triangle of the current leaf. -/
def travTri (s : State) (m : MCtx) (l : Nat) : State × StepEnd :=
  let r := m.ray s l
  let acc := bitsOf (m.ctl s l) 12 1
  match leafHeader s m r.leaf with
  | (s1, .error e) => (s1, e)
  | (s1, .ok (count, opq, prim0)) =>
    if count = r.tri && m.first l && m.ctl s l % 4096 = 0x021 then (m.putProg s1 l (travProg acc 0 r.sp 0), .run)
    else if count ≤ r.tri then (s1, .error (badField 0))
    else
      let a := leafVa s m r.leaf + BitVec.ofNat 64 (16 + 36 * r.tri)
      match s1.lathWords m ((List.range 9).map fun k => a + BitVec.ofNat 64 (4 * k)) with
      | (s2, .error e) => (s2, e)
      | (s2, .ok vs) =>
        match triHit r fun k => vs.getD k 0 with
        | none => (nextTri m s2 l acc r.sp r.tri count, .run)
        | some (t, mu1, mu2) =>
          let hit := [t, (prim0 + r.tri) % 2 ^ 32, mu1, mu2]
          if modBit m.mw 1 || opq.testBit r.tri then
            let s3 := travCommit m s2 l hit
            if modBit m.mw 0 then (s3, .stop 3 0) else (nextTri m s3 l acc r.sp r.tri count, .run)
          else (m.putOuts s2 l 0 hit, .stop 2 3)

/-- Pushes of a node: stack, entries in registers, spilled entries written, or none where the spill area is full. -/
def pushAll (scap : Nat) : List Nat → List Nat → Nat → List Nat → Option (List Nat × List Nat)
  | [], st, _, sp => some (st, sp)
  | e :: es, st, scnt, spilled =>
    if st.length = 8 then
      if scnt = scap then none else pushAll scap es (st.drop 1 ++ [e]) (scnt + 1) (spilled ++ [st.headD 0])
    else pushAll scap es (st ++ [e]) scnt spilled

/-- Insert by descending tnear, a higher child first among equals. -/
def insertHit (h : Nat × Nat × Nat) : List (Nat × Nat × Nat) → List (Nat × Nat × Nat)
  | [] => [h]
  | x :: xs => if f32Lt h.1 x.1 then x :: insertHit h xs else h :: x :: xs

/-- The stack after a unit: entries in registers from the bottom, SCNT, SP. -/
def putStack (m : MCtx) (s : State) (l acc scap scnt : Nat) (st : List Nat) (inleaf : Nat) : State :=
  let s1 := m.putSts s l 16 st
  let s2 := m.putSt s1 l 14 (scap + 2 ^ 16 * scnt)
  m.putProg s2 l (travProg acc 0 st.length inleaf)

/-- Pop an entry and act on it. -/
def travPop (s : State) (m : MCtx) (l : Nat) : State × StepEnd :=
  let r := m.ray s l
  let acc := bitsOf (m.ctl s l) 12 1
  if r.sp = 0 && r.scnt = 0 then (s, .stop 3 0)
  else
    let spillVa (k : Nat) : W64 := BitVec.ofNat 64 (r.spill + 4 * k)
    let popped : State × Except StepEnd (Nat × List Nat × Nat) :=
      if 0 < r.sp then (s, .ok (r.stack.getD (r.sp - 1) 0, r.stack.take (r.sp - 1), r.scnt))
      else
        match s.lathRead m false (spillVa (r.scnt - 1)) 4 with
        | (s1, .error e) => (s1, .error e)
        | (s1, .ok e) => (s1, .ok (e, [], r.scnt - 1))
    match popped with
    | (s1, .error e) => (s1, e)
    | (s1, .ok (e, st, scnt)) =>
      match e / 2 ^ 30 with
      | 0 => (putStack m s1 l acc r.scap scnt st 0, .run)
      | 1 =>
        let a := travBase s m + 128 * (e % 2 ^ 30)
        (match s1.lathWords m ((List.range 28).map fun k => vaOf a + BitVec.ofNat 64 (4 * k)) with
         | (s2, .error x) => (s2, x)
         | (s2, .ok ws) =>
           let hits := (List.range 4).foldl (fun hs c =>
             let ref := ws.getD (24 + c) 0
             if ref / 2 ^ 30 = 0 then hs
             else match boxHit r fun k => ws.getD (6 * c + k) 0 with
               | some tn => insertHit (tn, c, ref) hs
               | none => hs) []
           match pushAll r.scap (hits.map fun h => h.2.2) st scnt [] with
           | none => (s2, .stop 2 5)
           | some (st2, spilled) =>
             let wr := spilled.zipIdx.foldl (fun (x : State × Option StepEnd) p =>
               match x.2 with
               | some _ => x
               | none => x.1.lathWrite m (spillVa (scnt + p.2)) (leBytes 4 p.1)) (s2, none)
             match wr.2 with
             | some f => (wr.1, f)
             | none => (putStack m wr.1 l acc r.scap (scnt + spilled.length) st2 0, .run))
      | 2 =>
        (match leafHeader s1 m e with
         | (s2, .error x) => (s2, x)
         | (s2, .ok _) => (putStack m (m.putSt s2 l 15 e) l acc r.scap scnt st 1, .run))
      | _ =>
        (m.putOuts (putStack m s1 l acc r.scap scnt st 0) l 0 [r.t, e % 2 ^ 30, 0, 0], .stop 2 4)

def travStep (s : State) (m : MCtx) (l : Nat) : State × StepEnd :=
  if m.fresh s l then travSetup s m l
  else
    match travLimits s m l with
    | some k => (s, .error (badField k))
    | none =>
      if m.first l && afterCallback (m.ctl s l) then travResume s m l
      else if (m.ray s l).inleaf then travTri s m l else travPop s m l

def macroTrav : Macro := { gangKind := false, state := 24, ready := fun _ _ _ => true, step := travStep }

end Sys2Proof.Machine
end

