-- ==== Sys2Proof/Machine/Bin.lean ====
section
/-! DEFINITION. BIN, BIN.POP and MCODE, and the lathes (10 R243 to R248; 09 R212; 05 R126). -/

namespace Sys2Proof.Machine

/-! ### Descriptors (R243) -/

/-- A bin region: address, tiles across and down, tile size, records of a tile queue. -/
structure BinG where
  region : Nat
  tx : Nat
  ty : Nat
  tsz : Nat
  cap : Nat
  deriving DecidableEq, Repr

def binG (r g : W64) : BinG :=
  { region := fld r 0 57, tx := fld g 0 8, ty := fld g 8 8, tsz := 8 * (fld g 16 3 + 1), cap := fld g 32 16 }

/-- The descriptor checks. `q`: the third descriptor: none, sM or sQ. -/
def binDesc (w : MacroW) (pop size : Bool) (c : Ctx) : Check :=
  let r := c.r.s w.s0.toNat
  let g := c.r.s w.s1.toNat
  let x := c.r.s w.s2.toNat
  let b := binG r g
  let bounds (p : Bool) (v : W64) : Check := if p then .trap Cause.bounds v else .ok
  [bounds (fld r 57 7 != 0 || fld r 0 8 != 0) r,
   bounds (b.tx = 0 || 128 < b.tx || b.ty = 0 || 128 < b.ty || fld g 19 13 != 0 || fld g 48 16 != 0 || b.cap = 0) g,
   if pop then bounds (fld x 15 1 != 0 || fld x 20 44 != 0 || b.tx * b.ty < fld x 0 15) x
   else if size then bounds (fld x 4 12 != 0 || fld x 32 32 != 0 || fld x 16 16 = 0) x
   else .ok].foldl Check.next .ok

def binChk (w : MacroW) (pop : Bool) (c : Ctx) (_ : State) : Check :=
  if c.act = 0 then .ok else (ctlChecks w true [6] c).next (binDesc w pop (modBit w 0) c)

def execBin (w : MacroW) : State → Out :=
  coreWord (.bin w)
    (macroUse w true 1 1 [{ reg := w.vi.toNat, count := 8 }] []
      ([w.s0.toNat, w.s1.toNat] ++ if modBit w 0 then [w.s2.toNat] else []))
    (binChk w false)
    fun c s => startMacro (.bin w) w true 1 [] 0 c s

def execBinPop (w : MacroW) : State → Out :=
  coreWord (.binPop w)
    (macroUse w true 1 1 [] [(w.vo.toNat, 9)] [w.s0.toNat, w.s1.toNat, w.s2.toNat])
    (binChk w true)
    fun c s => startMacro (.binPop w) w true 1 [(c.act, w.vo.toNat, 9)] 0 c s

/-! ### The region (R244) -/

def BinG.nq (b : BinG) : Nat := b.tx * b.ty
def BinG.header (b : BinG) (q : Nat) : W64 := vaOf (b.region + 16 * q)
def BinG.record (b : BinG) (q i : Nat) : W64 :=
  let hb := (16 * (b.nq + 1) + 255) / 256 * 256
  vaOf (b.region + hb + if q < b.nq then 32 * (q * b.cap + i) else 32 * b.nq * b.cap + 32 * i)

/-! ### Append (R245, R246) -/

/-- Queues that a lane's primitive goes to, in order; or the register offset of a coordinate outside its limits. -/
def binQueues (b : BinG) (size : Bool) (thr : Nat) (v : Nat → Nat) : Except Nat (List Nat) :=
  let c (k : Nat) : Int := sint 32 (v k)
  match (List.range 6).find? fun k => c k < -2 ^ 25 || 2 ^ 25 ≤ c k with
  | some k => .error k
  | none =>
    let xs := pixSpan [c 0, c 2, c 4]
    let ys := pixSpan [c 1, c 3, c 5]
    let wd := xs.2 - xs.1 + 1
    let ht := ys.2 - ys.1 + 1
    let t : Int := if thr = 0 then 2 else thr
    if wd ≤ 0 || ht ≤ 0 then .ok []
    else if size && wd ≤ t && ht ≤ t then .ok [b.nq]
    else
      let x0 := max xs.1 0
      let x1 := min xs.2 (b.tx * b.tsz - 1)
      let y0 := max ys.1 0
      let y1 := min ys.2 (b.ty * b.tsz - 1)
      if x1 < x0 || y1 < y0 then .ok []
      else
        let span (lo hi : Int) : List Nat :=
          (List.range (hi.toNat / b.tsz - lo.toNat / b.tsz + 1)).map (lo.toNat / b.tsz + ·)
        .ok ((span y0 y1).flatMap fun ty => (span x0 x1).map fun tx => ty * b.tx + tx)

/-- A word of memory that an append reads and writes at its home slice. -/
def State.binRead (s : State) (m : MCtx) (x : W64) : State × Except StepEnd Nat :=
  match s.translate (tlbUnit m.w.pid) m.w.tenant .write x with
  | .page => (s, .error (.page x 1))
  | .access => (s, .error (.trap Cause.access x))
  | .ok p => (match p.kind with | .mem _ => s.drainForStore m.core (p.addr / 128) | _ => s).lathRead m false x 4

/-- One append: full, or done. -/
def binAppend (s : State) (m : MCtx) (b : BinG) (q cap l : Nat) : State × Except StepEnd Bool :=
  match s.binRead m (b.header q) with
  | (s1, .error e) => (s1, .error e)
  | (s1, .ok wi) =>
    if cap ≤ wi then (s1, .ok false)
    else
      let bs := (List.range 8).flatMap fun k => leBytes 4 (m.inp s1 l k).toNat
      match s1.lathWrite m (b.record q wi) bs with
      | (s2, some e) => (s2, .error e)
      | (s2, none) =>
        match s2.lathWrite m (b.header q) (leBytes 4 (wi + 1)) with
        | (s3, some e) => (s3, .error e)
        | (s3, none) => (s3, .ok true)

/-- The next append: lane, index of the queue in the lane's list, queue; an error of a lane's coordinates. -/
def binNext (m : MCtx) (s : State) (b : BinG) (thr : Nat) :
    List Nat → Nat → Except (Nat × Nat) (Option (Nat × Nat × Nat))
  | [], _ => .ok none
  | l :: ls, t =>
    match binQueues b (modBit m.mw 0) thr fun k => (m.inp s l k).toNat with
    | .error k => .error (l, k)
    | .ok qs => match qs[t]? with | some q => .ok (some (l, t, q)) | none => binNext m s b thr ls 0

def binStep (s : State) (m : MCtx) (lead : Nat) : State × StepEnd :=
  let b := binG (s.gs m.gid m.mw.s0.toNat) (s.gs m.gid m.mw.s1.toNat)
  let sm := s.gs m.gid m.mw.s2.toNat
  let ctl := m.ctl s lead
  let lane := bitsOf ctl 12 5
  let tidx := bitsOf ctl 17 15
  let thr := fld sm 0 4
  let left := (lanesOf m.op.act).filter fun l => lane ≤ l
  let cnt : Nat := match left with
    | l :: _ => (match binQueues b (modBit m.mw 0) thr fun k => (m.inp s l k).toNat with | .ok qs => qs.length | .error _ => 1)
    | [] => 0
  let prog (l t : Nat) : Nat := l + 2 ^ 5 * t
  if left.isEmpty || (0 < tidx && cnt ≤ tidx) then (s, .error (badField 0))
  else
    match binNext m s b thr left tidx with
    | .error (l, k) => (m.putProg s lead (prog l 0), .error (BitVec.ofNat 64 k))
    | .ok none => (m.putProg s lead 0, .stop 3 0)
    | .ok (some (l, t, q)) =>
      match binAppend s m b q (if q < b.nq then b.cap else fld sm 16 16) l with
      | (s1, .error e) => (m.putProg s1 lead (prog l t), e)
      | (s1, .ok false) => (m.putProg s1 lead (prog l t), .stop 2 6)
      | (s1, .ok true) =>
        match binNext m s1 b thr ((lanesOf m.op.act).filter fun k => l ≤ k) (t + 1) with
        | .ok none => (m.putProg s1 lead 0, .stop 3 0)
        | .ok (some (l2, t2, _)) => (m.putProg s1 lead (prog l2 t2), .run)
        | .error (l2, _) => (m.putProg s1 lead (prog l2 0), .run)

def macroBin : Macro := { gangKind := true, state := 1, ready := fun _ _ _ => true, step := binStep }

/-! ### Pop (R247) -/

def binPopLane (m : MCtx) (b : BinG) (q slot n l : Nat) (s : State) : State × Option StepEnd :=
  let wid := match s.gangs.find? m.gid with | some g => g.wg | none => 0
  let rp := match s.wgs.find? wid with | some v => (v.binPos.getD slot 0).toNat | none => 0
  if rp < n then
    let a := b.record q rp
    match s.lathWords m ((List.range 8).map fun k => a + BitVec.ofNat 64 (4 * k)) with
    | (s1, .error e) => (s1, some e)
    | (s1, .ok ws) =>
      ((m.putOuts s1 l 0 (ws ++ [1])).updWg wid fun v =>
        { v with binPos := v.binPos.put 0 slot (BitVec.ofNat 64 (rp + 1)) }, none)
  else (m.putOut s l 8 0, none)

/-- The whole pop is one step: a fault in it leaves its read position as before. -/
def binPopStep (s : State) (m : MCtx) (lead : Nat) : State × StepEnd :=
  let b := binG (s.gs m.gid m.mw.s0.toNat) (s.gs m.gid m.mw.s1.toNat)
  let sq := s.gs m.gid m.mw.s2.toNat
  let slot := fld sq 16 4
  let q := fld sq 0 15
  let wid := match s.gangs.find? m.gid with | some g => g.wg | none => 0
  if m.ctl s lead / 4096 != 0 then (s, .error (badField 0))
  else if modBit m.mw 2 then
    let s1 := s.updWg wid fun v => { v with binPos := v.binPos.put 0 slot 0 }
    ((lanesOf m.op.act).foldl (fun s l => m.putOut s l 8 0) s1, .stop 3 0)
  else
    match s.lathRead m false (b.header q) 4 with
    | (s1, .error e) => (s1, e)
    | (s1, .ok n) =>
      let s2 := s1.acquireCore m.core 3
      let r := (lanesOf m.op.act).foldl (fun (a : State × Option StepEnd) l =>
        match a.2 with
        | some _ => a
        | none => binPopLane m b q slot n l a.1) (s2, none)
      match r.2 with
      | some e => (s1, e)
      | none => (r.1, .stop 3 0)

def macroBinPop : Macro := { gangKind := true, state := 1, ready := fun _ _ _ => true, step := binPopStep }

/-! ### MCODE (09 R212) -/

/-- The declaration of an entry that firmware has loaded for a tenant's partition. -/
def State.mcodeDecl (s : State) (tenant op : Nat) : Option McodeDecl :=
  match s.microcode.find? (s.tenantPart tenant) with
  | some ds => ds.find? fun d => d.entry = op
  | none => none

/-- The declaration for the gang at the cursor. -/
def State.curDecl (s : State) (op : Nat) : Option McodeDecl := (s.curWg?).bind fun w => s.mcodeDecl w.tenant op

/-- A field or MOD bit that the declaration does not use, or a callback target that it does not allow or lacks. -/
def mcodeBad (d : McodeDecl) (w : MacroW) : Option (BitVec 8) :=
  if (!d.useVI && w.vi != 0) || (!d.useVO && w.vo != 0) || (!d.useS0 && w.s0 != 0) || (!d.useS1 && w.s1 != 0)
      || (!d.useS2 && w.s2 != 0) || (!d.useImm && w.imm != 0) || (w.mods.toNat &&& (255 - d.modMask % 256)) != 0 || (!d.useVI && !d.outRead && w.ei != 0) then
    some 0x03
  else if d.needsTarget && w.imm = 0 then some 0x0D else none

def execMcode (op : BitVec 8) (w : MacroW) (s : State) : Out :=
  let i := Instr.mcode op w
  let use_ : WordUse :=
    match s.curDecl op.toNat with
    | none => { active := guardOf w.g, absent := true }
    | some d =>
      { macroUse w d.gangKind d.stateLen (max d.align 1)
          ((if d.useVI then [{ reg := w.vi.toNat, count := d.inLen }] else [])
            ++ if d.outRead then [{ reg := w.vo.toNat, count := d.outLen }] else [])
          (if d.useVO && !d.outRead then [(w.vo.toNat, d.outLen)] else [])
          ((if d.useS0 then [w.s0.toNat] else []) ++ (if d.useS1 then [w.s1.toNat] else [])
            ++ if d.useS2 then [w.s2.toNat] else []) with
        decl := mcodeBad d w }
  coreWord i use_
    (fun c s =>
      match s.mcodeDecl c.wg.tenant op.toNat with
      | some d => if c.act = 0 then .ok else ctlChecks w d.gangKind d.reasons c
      | none => .ok)
    (fun c s =>
      match s.mcodeDecl c.wg.tenant op.toNat with
      | some d =>
        startMacro i w d.gangKind d.stateLen (if d.useVO && !d.outRead then [(c.act, w.vo.toNat, d.outLen)] else []) 0 c s
      | none => s)
    s

/-- A step of microcode: what it does to its registers is the microcode's, so the results are the free function of log 10:
whether it stops, the address of an error, then the block and the outputs. A step calls back only where the word has a
target, with a reason that the entry declares. An entry of kind gang reads its block in the lowest lane, and its inputs and
outputs in every lane of the active set (09 R211). -/
def mcodeRun (d : McodeDecl) (s : State) (m : MCtx) (l : Nat) : State × StepEnd :=
  let lanes := if d.gangKind then lanesOf m.op.act else [l]
  let regs := ((List.range d.stateLen).map (m.st s l)) ++ lanes.flatMap fun j =>
    (List.range d.inLen).map (m.inp s j) ++ (List.range d.outLen).map (m.outp s j)
  let out := Config.mcodeStep d.entry s.freeCtr regs
  let g (k : Nat) : Nat := (out.getD k 0).toNat
  let s1 : State := { s with freeCtr := s.freeCtr + 1 }
  let s2 := m.putSts s1 l 0 ((List.range d.stateLen).map fun k => g (2 + k))
  let s3 := if d.useVO && !d.outRead then
      lanes.zipIdx.foldl (fun s e =>
        m.putOuts s e.1 0 ((List.range d.outLen).map fun k => g (2 + d.stateLen + e.2 * d.outLen + k))) s2
    else s2
  let ctl := m.ctl s3 l
  (s3, if g 0 = 0 then .run
    else match ctl % 16 with
      | 2 => if m.mw.imm != 0 && d.reasons.contains (ctl / 16 % 256) then .stop 2 (ctl / 16 % 256) else .stop 3 0
      | 4 => .error (BitVec.ofNat 64 (g 1))
      | 1 => .stop 1 0
      | _ => .stop 3 0)

def macroMcode (d : McodeDecl) : Macro :=
  { gangKind := d.gangKind, state := d.stateLen, ready := fun _ _ _ => true, step := mcodeRun d }

/-! ### Lathes (05 R126, R127) -/

/-- The MACRO layout of a word, and how its macro steps. -/
def State.macroOf (s : State) (tenant : Nat) : Instr → Option (MacroW × Macro)
  | .rast w => some (w, macroRast)
  | .blend w => some (w, macroBlend)
  | .filt w => some (w, macroFilt)
  | .trav w => some (w, macroTrav)
  | .bin w => some (w, macroBin)
  | .binPop w => some (w, macroBinPop)
  | .mcode op w => (s.mcodeDecl tenant op.toNat).map fun d => (w, macroMcode d)
  | _ => none

/-- The contexts of a gang's macro-instructions. -/
def State.mctxs (s : State) (gid : Nat) : List (MCtx × Macro) :=
  match s.gangs.find? gid with
  | none => []
  | some g =>
    match s.wgs.find? g.wg with
    | none => []
    | some w =>
      g.mops.filterMap fun o => (s.macroOf w.tenant o.ins).map fun x => ({ gid := gid, w := w, op := o, mw := x.1 }, x.2)

/-- Place of a requester in the ring: partition × 16 + slot, then the order of its requests. -/
def State.ringKey (s : State) (m : MCtx) : Nat :=
  let slot := match s.gangs.find? m.gid with | some g => g.slotOf (g.unit (lowLane m.op.grp)) | none => 0
  (m.w.pid % 4 * 16 + slot) * 2 ^ 24 + m.op.wait % 2 ^ 24

/-- Requests of a core that can take a step. -/
def State.latheReqs (s : State) (core : Nat) : List (Nat × MCtx × Macro) :=
  (s.gangs.flatMap fun e => if e.2.parked then [] else s.mctxs e.1).filterMap fun x =>
    if coreOf x.1.w.pid = core && x.1.w.status = .resident && !x.1.w.dying && x.1.canRun x.2 s then some (s.ringKey x.1, x.1, x.2) else none

/-- A lathe grants one step to the first requester after the last it granted, in ring order. A request that the other
lathe steps in this cycle is back in arbitration at the step's end (05 R126). -/
def State.latheStep (s : State) (core lathe : Nat) : State :=
  let reqs := (s.latheReqs core).filter fun x => s.latheBusy.find? (2 * core + (1 - lathe)) != some (x.2.1.gid, x.2.1.op.wait)
  let last := s.lathes.getD (2 * core + lathe) 0
  let pick (xs : List (Nat × MCtx × Macro)) : Option (Nat × MCtx × Macro) :=
    xs.foldl (fun a x => match a with | none => some x | some y => if x.1 < y.1 then some x else some y) none
  match (pick (reqs.filter fun x => last < x.1 + 1)).orElse fun _ => pick reqs with
  | none => s
  | some (k, m, M) => 
    { s with lathes := s.lathes.put 0 (2 * core + lathe) (k + 1)
             latheBusy := s.latheBusy.set (2 * core + lathe) (m.gid, m.op.wait) }.macroStep m M

/-- Macro-instructions of a gang whose stop is due, while no step runs (09 R208). -/
def State.stopMacros (s : State) (gid : Nat) : State :=
  match s.gangs.find? gid with
  | none => s
  | some g =>
    if !s.stopDue g then s
    else (s.mctxs gid).foldl (fun s x =>
      if x.1.op.act &&& ~~~x.1.op.stopped = 0 then s
      else s.preemptMacro x.1 x.2.gangKind x.1.op.stopped x.1.op.began none) s

end Sys2Proof.Machine
end

