-- ==== Sys2Proof/Machine/Select.lean ====
section
/-! DEFINITION. Which groups of a unit issue in a cycle (05 R114 to R118), and a CANCEL that falls due (05 R135, R136). -/

namespace Sys2Proof.Machine

/-- A gang whose workgroup is resident. -/
def State.here? (s : State) (gid : Nat) : Option (Gang × Wg) :=
  match s.gangs.find? gid with
  | none => none
  | some g => match s.wgs.find? g.wg with
    | some w => if w.status = .resident then some (g, w) else none
    | none => none

/-! ### The groups of a unit (05 R115 to R117) -/

/-- A pending prefix lets only the group that executed the ORD issue (05 R116). -/
def Gang.ordAllows (g : Gang) (grp : LaneMask) : Bool :=
  match g.ord with
  | some o => grp.getLsbD o.lane
  | none => true

/-- Order of lists of numbers: the first difference decides. -/
def lexLt : List Nat → List Nat → Bool
  | [], [] => false
  | [], _ => true
  | _, [] => false
  | a :: as, b :: bs => decide (a < b) || (a = b && lexLt as bs)
def insertLex {α : Type} (key : α → List Nat) (x : α) : List α → List α
  | [] => [x]
  | y :: ys => if lexLt (key x) (key y) then x :: y :: ys else y :: insertLex key x ys
def sortLex {α : Type} (key : α → List Nat) (xs : List α) : List α := xs.foldl (fun a x => insertLex key x a) []

/-- An eligible group of a unit: its address, its lanes, its age (05 R115, R117). -/
structure Grp where
  pc : PCAddr
  lanes : LaneMask
  age : Nat
  deriving DecidableEq, Repr

def agedAt : Nat := 32
/-- The eligible groups of a unit, in the order in which they are considered: aged ones first, oldest first, then the most
populous, then the lower address. A group of lanes that have met at one address is as old as its oldest lane (log 71). -/
def Gang.groups (g : Gang) (unit : Nat) : List Grp :=
  let e := (lanesOf g.eligible).filter fun l => g.unit l = unit
  let gs : List Grp := ((e.map g.pcOf).eraseDups).map fun pc =>
    let ls := e.filter fun l => g.pcOf l = pc
    { pc := pc, lanes := maskWhere ls.contains, age := ls.foldl (fun m l => max m (g.age.getD l 0)) 0 }
  sortLex (fun x => [if agedAt ≤ x.age then 0 else 1, if agedAt ≤ x.age then 2 ^ 40 - x.age else 0, 32 - laneCount x.lanes,
    x.pc.toNat]) (gs.filter fun x => g.ordAllows x.lanes)

/-- A ready unit of a core partition. -/
structure Ready where
  gang : Nat
  unit : Nat
  key : List Nat
  grps : List Grp
  deriving DecidableEq, Repr

/-- The rank of a unit (05 R114). -/
def unitKey (g : Gang) (w : Wg) (unit : Nat) (grps : List Grp) : List Nat :=
  let a := grps.foldl (fun m x => max m x.age) 0
  let aged := decide (agedAt ≤ a)
  [if aged then 0 else 1, if aged then 2 ^ 40 - a else 0, if 32 ≤ g.unitAge.getD unit 0 then 0 else 1, 3 - w.cls,
   w.seq, g.slotOf unit]
/-- Words that issue alone (05 R116). -/
def aloneWord : Instr → Bool
  | .swrite _ => true
  | .eret _ => true
  | .syscall _ => true
  | .yield _ => true
  | .trap _ => true
  | .brk _ => true
  | .ord _ => true
  | .fence _ => true
  | _ => false
/-- A special-function operation, or a VPAIR that holds one. -/
def sfuWord : Instr → Bool
  | .rcp _ => true
  | .rsq _ => true
  | .sqrt _ => true
  | .exp2 _ => true
  | .log2 _ => true
  | .sin _ => true
  | .cos _ => true
  | .tanh _ => true
  | .fdiv _ => true
  | .vpair w => 0x40 ≤ w.x.cop.toNat || 0x40 ≤ w.y.cop.toNat
  | _ => false
/-- The class of a word of which a cycle takes one at most: XLANE, MEM, MMA, MACRO, SYNC or ENG. -/
def singleClass (i : Instr) : Option Nat :=
  match encode i with
  | some (w :: _) => if [4, 5, 7, 8, 9, 10].contains (clsOf w).toNat then some (clsOf w).toNat else none
  | _ => none
/-- Two words may issue in one cycle. -/
def mayPair (a b : Instr) : Bool :=
  !aloneWord a && !aloneWord b && !(sfuWord a && sfuWord b)
    && !((singleClass a).isSome && singleClass a = singleClass b)
/-- The instruction that a gang would fetch at an address, where it is one. -/
def State.peekWord (s : State) (gid : Nat) (pc : PCAddr) : Option Instr :=
  match s.here? gid with
  | none => none
  | some (g, w) =>
    match s.codeLine w g.codemap pc with
    | .ok line => (match line.decodeAt (wordIdx pc) with | .ok (i, _) => some i | .error _ => none)
    | _ => none
/-- The addresses of the groups that issue, ascending: the first, and the second where no limit keeps it back. -/
def State.chosenPcs (s : State) (r : Ready) : List PCAddr :=
  match r.grps with
  | [] => []
  | [a] => [a.pc]
  | a :: b :: _ =>
    let ok := (match s.gangs.find? r.gang with | some g => g.ord.isNone | none => false)
      && match s.peekWord r.gang a.pc, s.peekWord r.gang b.pc with
        | some x, some y => mayPair x y
        | some x, none => !aloneWord x
        | none, some y => !aloneWord y
        | none, none => true
    if !ok then [a.pc] else if a.pc.toNat < b.pc.toNat then [a.pc, b.pc] else [b.pc, a.pc]
/-! ### A CANCEL that falls due (05 R135, R136) -/

/-- A gang takes CANCEL at its issue boundary: its places in monitors and its feed-queue indices are given up (05 R135,
14 R286, 17 R353). -/
def State.takeCancel (s : State) (gid : Nat) (g : Gang) (tenant : Nat) (grp : LaneMask) (pc : PCAddr) (level : Nat) : State :=
  let s1 := ((s.giveUpIndices g tenant).updGang gid fun g => { g.dropSleepers with cancel := none }).updWg g.wg fun w =>
    { w with cancelled := true }
  s1.takeTrap gid grp Cause.cancel (pcImage pc) (BitVec.ofNat 64 level)

/-- The group of a gang that would have issued next: of the unit that ranks first, the first of the words that a cycle issues
(05 R114, R115). -/
def State.nextGroup (s : State) (gid : Nat) (g : Gang) (w : Wg) : Option Grp :=
  let us := ((0 :: g.slots.keys).eraseDups).filterMap fun u =>
    let gs := g.groups u
    if gs.isEmpty then none else some { gang := gid, unit := u, key := unitKey g w u gs, grps := gs : Ready }
  (sortLex Ready.key us).head?.bind fun r => (s.chosenPcs r).head?.bind fun pc => r.grps.find? fun x => x.pc = pc
/-- A CANCEL that is due together with a pre-emption is taken first, by the group that would have issued next (05 R136). -/
def State.cancelFirst (s : State) (gid : Nat) : State :=
  match s.gangs.find? gid with
  | none => s
  | some g =>
    match s.wgs.find? g.wg, g.cancel with
    | some w, some level =>
      if g.parked || g.handler || g.trapbase.getLsbD 0 then s
      else match s.nextGroup gid g w with
        | some x => s.takeCancel gid g w.tenant x.lanes x.pc level
        | none => s
    | _, _ => s

end Sys2Proof.Machine
end

