-- ==== Sys2Proof/Machine/Admit.lean ====
section
/-! DEFINITION. Where workgroups are placed: the conditions of admission (05 R111, 09 R213, 17 R344), the start of a gang
(01 R14), slot plans (14 R290), the order of admission (17 R342) and pre-emption (17 R345 to R347). -/

namespace Sys2Proof.Machine

/-! ### Resources of a core partition -/

def State.usedSlots (s : State) (pid : Nat) : List Nat := (s.partGangs pid).flatMap fun e => e.2.slots.vals
/-- Slots that a drain keeps for its request (17 R346). -/
def State.heldSlots (s : State) (pid : Nat) : List Nat :=
  s.wgs.flatMap fun e => if e.2.pid = pid && e.2.status = .resident && e.2.drainBy.isSome then e.2.heldSlots else []
/-- Free slots below a number. -/
def State.freeSlots (s : State) (pid lim : Nat) : List Nat :=
  let u := s.usedSlots pid ++ s.heldSlots pid
  (List.range lim).filter fun k => !u.contains k
/-- The lowest free slots 0 to 14 that a number of gangs takes; slot 15 as well for 16 gangs. -/
def State.slotsFor (s : State) (pid n : Nat) : List Nat := s.freeSlots pid (if n = 16 then 16 else 15)

def residentOn (core : Nat) (w : Wg) : Bool := coreOf w.pid = core && w.status = .resident
/-- The core's unallotted scratchpad; the allotments of ended members of groups stay (12 R258). -/
def State.scrFree (s : State) (core : Nat) : Nat :=
  262144 - (s.wgs.foldl (fun n e => if residentOn core e.2 then n + e.2.scrLen else n) 0
    + s.heldScr.foldl (fun n h => if h.2.2.1 = core then n + h.2.2.2 else n) 0)
/-- Free pixel entries of the core's scoreboard store (09 R213). -/
def State.pixFree (s : State) (core : Nat) : Nat :=
  16384 - s.wgs.foldl (fun n e => if residentOn core e.2 then n + e.2.tileW * e.2.tileH else n) 0

/-- What a workgroup needs of a core partition (05 R111, 09 R213). -/
structure Need where
  slots : Nat
  entries : Nat
  reserve : Nat
  scr : Nat
  pixels : Nat
  whole : Bool
  deriving DecidableEq, Repr

def spawnBase (xs : List SpawnEntry) : Nat := xs.foldl (fun m x => max m x.base) 0
/-- Need of a workgroup of a launch that has not started. -/
def Launch.need (L : Launch) : Need :=
  { slots := L.gangs, entries := L.gangs * L.base, reserve := spawnBase L.spawns, scr := L.scrLen
    pixels := L.tileW * L.tileH, whole := L.gangs = 16 }

/-- A core partition meets a need; a resident workgroup of 16 gangs shares it with no other. -/
def State.meets (s : State) (pid : Nat) (n : Need) : Bool :=
  let p := s.cpart pid
  !(s.wgs.any fun e => e.2.pid = pid && e.2.status = .resident && e.2.count = 16 && !e.2.binGang)
  && (if n.whole then
      (s.freeSlots pid 16).length = 16 && n.reserve = 0 && p.bins.isEmpty && s.ringCount pid = 0
    else n.slots ≤ (s.freeSlots pid 15).length)
  && n.entries + (n.reserve - s.binReserve pid) ≤ s.xfree pid
  && n.scr ≤ s.scrFree (coreOf pid) && n.pixels ≤ s.pixFree (coreOf pid)

/-- The clusters and the core partitions of a package partition (17 R354). -/
def State.partClusters (s : State) (part : Nat) : List Nat :=
  (List.range (24 * s.dies)).filter fun c => (s.creg (.part part) 0).getLsbD c
def clusterPids (c : Nat) : List Nat := (List.range 32).map (32 * c + ·)
def State.partPids (s : State) (part : Nat) : List Nat := (s.partClusters part).flatMap clusterPids

/-- Members of a group on distinct cores of a cluster, each where its own need is met: the first such choice (12 R258). -/
def groupPlaces (ok : Nat → Need → Bool) (c : Nat) : List Need → List Nat → Option (List Nat)
  | [], _ => some []
  | n :: ns, cores =>
    cores.findSome? fun k =>
      (((List.range 4).map (32 * c + 4 * k + ·)).find? fun pid => ok pid n).bind fun pid =>
        (groupPlaces ok c ns (cores.filter fun x => x != k)).map (pid :: ·)

/-- The space of a workgroup that a migration has saved takes no admission before its restore (17 R349). -/
def State.keptFree (s : State) (core : Nat) : Bool :=
  s.wgs.any fun e => e.2.status = .saved && e.2.migrate.isSome && coreOf e.2.pid = core
def State.admits (s : State) (pid : Nat) (n : Need) : Bool := s.meets pid n && !s.keptFree (coreOf pid)

/-- Where a workgroup of a launch, or its whole group, goes when it is admitted at a core partition. -/
def State.placing (s : State) (pid : Nat) (L : Launch) : Option (List Nat) :=
  if 2 ≤ L.clus then groupPlaces s.admits (clusterOf pid) (List.replicate L.clus L.need) (List.range 8)
  else if s.admits pid L.need then some [pid] else none

/-! ### Slot plans (14 R288 to R290) -/

/-- Link slots of an owned slot t: request plane, then the response on the reverse path (14 R289). -/
def planSlots (src dst t : Nat) : List Nat :=
  let path := vaultPath src dst
  let h := path.length
  let key (plane link slot : Nat) : Nat := (plane * 2 ^ 16 + link) * 64 + slot % 64
  (List.range h).flatMap fun k =>
    [key 0 (path.getD k 0) (t + 6 * k), key 1 (path.getD (h - 1 - k) 0) (t + 18 + 6 * h + 6 * k)]

/-- What firmware's reads of a tenant's bytes use at the L2 (14 R282, R292). -/
def State.tenantUse (s : State) (unit tenant : Nat) (va : W64) (n : Nat) : State :=
  (List.range ((fld va 0 7 + n + 127) / 128)).foldl (fun s i =>
    let x := if i = 0 then va else BitVec.ofNat 64 ((va.toNat / 128 + i) * 128)
    match s.translate unit tenant .read x with
    | .ok p => (match p.kind with
      | .mem key => (s.walkUse unit tenant x).l2Use key p.addr false false
      | _ => s.walkUse unit tenant x)
    | _ => s) s
/-- n bytes of a tenant's memory as firmware reads them: none where a byte is denied, some address where its page is
missing. -/
def State.tenantBytes (s : State) (unit tenant : Nat) (va : W64) (n : Nat) : Except (Option W64) (List Byte) :=
  (List.range n).foldl (fun acc i =>
    match acc, s.translate unit tenant .read (va + BitVec.ofNat 64 i) with
    | .ok bs, .ok p => .ok (bs ++ [s.homeByte p.kind p.addr])
    | .ok _, .page => .error (some (va + BitVec.ofNat 64 i))
    | .ok _, .access => .error none
    | .error e, _ => .error e) (.ok [])

/-- A plan's entry as it applies to a core: the vault and the slot, where the core has its position. -/
def State.planEntry (s : State) (tenant core : Nat) (e : W64) : Except (Option W64) (List (Nat × Nat)) :=
  match s.vaultOf (s.tenantPart tenant) (fld e 0 7) with
  | some v =>
    if fld e 16 48 != 0 || e.getLsbD 7 || 96 ≤ fld e 0 7 then .error none
    else .ok (if fld e 14 2 = core % 4 then [(v, fld e 8 6)] else [])
  | none => .error none

/-- Vaults and slots that a plan gives a core; none where it has no plan or an entry is malformed (14 R290). -/
def State.planOf (s : State) (unit tenant core plan : Nat) : Except (Option W64) (List (Nat × Nat)) :=
  if plan = 0 then .error none
  else
    let va := vaOf plan
    match s.tenantBytes unit tenant va 8 with
    | .error e => .error e
    | .ok h =>
      let n := leNat h
      if 256 < n then .error none
      else match s.tenantBytes unit tenant (va + 8) (8 * n) with
        | .error e => .error e
        | .ok bs =>
          (List.range n).foldl (fun acc i =>
            match acc, s.planEntry tenant core (BitVec.ofNat 64 (leNat ((bs.drop (8 * i)).take 8))) with
            | .ok ps, .ok p => .ok (ps ++ p)
            | .error e, _ => .error e
            | _, .error e => .error e) (.ok [])

/-- The reads of a plan's table. -/
def State.planUse (s : State) (unit tenant plan : Nat) : State :=
  if plan = 0 then s
  else
    let s1 := s.tenantUse unit tenant (vaOf plan) 8
    match s.tenantBytes unit tenant (vaOf plan) 8 with
    | .ok h => if 256 < leNat h then s1 else s1.tenantUse unit tenant (vaOf plan + 8) (8 * leNat h)
    | .error _ => s1
/-- Grant a workgroup its plan where no other resident plan holds one of its link slots. Where a page of the table is
missing, the workgroup runs without owned slots until the fault has been serviced (14 R413; log 52). -/
def State.grantPlan (s0 : State) (wid plan : Nat) : State :=
  match s0.wgs.find? wid with
  | none => s0
  | some w =>
    let core := coreOf w.pid
    let s := s0.planUse (clusterOf w.pid) w.tenant plan
    match s.planOf (clusterOf w.pid) w.tenant core plan with
    | .error none => s
    | .error (some va) =>
      { s with faults := s.faults ++ [{ part := s.tenantPart w.tenant, tenant := w.tenant, kind := 0, va := va
                                        who := .plan wid, report := va, held := none }] }
    | .ok ps =>
      let ls := ps.flatMap fun p => planSlots (vaultOverCore core) p.1 p.2
      if s.wgs.any fun e => e.1 != wid && e.2.status = .resident && ls.any e.2.links.contains then s
      else s.updWg wid fun w =>
        { w with plan := KSet.addAll [] (ps.map (·.1)), links := KSet.addAll [] ls
                 slots := KSet.addAll [] (ps.map fun p => 64 * p.1 + p.2) }

/-! ### The start of a gang (01 R14, 16 Table 121) -/

/-- Lane status of a gang launched with n lanes. -/
def launchStatus (n : Nat) : BitVec 64 := BitVec.ofNat 64 ((List.range n).foldl (fun a l => a + 4 ^ l) 0)

def newGang (wid idx n base xlimit slot : Nat) (entry : Nat) (codemap trapbase : W64) (sr : SMap W64) (vr : SMap W32) :
    Gang :=
  let pc : PCAddr := BitVec.ofNat 57 (entry / 16 * 16)
  { wg := wid, idx := idx, n := n, status := launchStatus n
    pcs := (List.range n).foldl (fun m l => m.put 0 l pc) []
    vr := vr, pr := 0, sr := sr, empty := [], poison := [], base := base, xcount := 0, xlimit := xlimit, fpstat := 0
    issuecnt := 0, lastIssue := 0, trapbase := trapbase &&& srMask 0x20, trapcause := 0, trappc := 0, trapaddr := 0
    codemap := codemap, handler := false, trapped := 0, ord := none, ordSusp := none, unitOf := [], slots := [(0, slot)]
    splitCnt := [], age := [], unitAge := [], prods := [], waits := [], nextId := 0, cancel := none, parked := false
    fresh := true, active := false, blocked := 0, yielded := false, cmdIssued := 0, cmdDone := 0, cmdFault := 0
    qops := [], mops := [], rdvCnt := [], fence := none }

/-- At most 8 gangs of a partition are active; the oldest resident gang outside the set with an eligible group comes
next (05 R112). -/
def State.oldestIdle (s : State) (pid : Nat) : Option Nat :=
  ((s.partGangs pid).foldl (fun (a : Option (Nat × Nat)) e =>
    if e.2.active || e.2.parked || e.2.eligible == (0 : LaneMask) then a
    else
      let key := (match s.wgs.find? e.2.wg with | some w => w.seq | none => 0) * 16 + e.2.idx
      match a with | some (_, k) => if key < k then some (e.1, key) else a | none => some (e.1, key)) none).map (·.1)
def State.fillActive (s : State) (pid : Nat) : Nat → State
  | 0 => s
  | k + 1 =>
    if 8 ≤ ((s.partGangs pid).filter fun e => e.2.active).length then s
    else match s.oldestIdle pid with
      | none => s
      | some gid => (s.updGang gid fun g => { g with active := true }).fillActive pid k

/-- The caches of a core keep no copies: a workgroup starts or comes back there (03 R68, 15 R307). -/
def State.freshCore (s : State) (core : Nat) : State :=
  { s with
    icache := s.icache.put [] core [], l1 := s.l1.put [] core [], tex := s.tex.put [] core []
    l0 := (List.range 4).foldl (fun m k => m.put [] (4 * core + k) []) s.l0 }

/-- Add a workgroup with gangs of n lanes each in given slots; its core keeps no older copies. -/
def State.addWg (s : State) (w : Wg) (slots : List Nat) (gangOf : Nat → Nat → Gang) : State :=
  let wid := s.nextWg
  let ids := (List.range slots.length).map (s.nextGang + ·)
  let s1 := { s with
    wgs := s.wgs.set wid { w with gangs := ids, seq := s.admitSeq }
    nextWg := wid + 1, nextGang := s.nextGang + slots.length, admitSeq := s.admitSeq + 1
    gangs := (List.range slots.length).foldl (fun m i => m.set (s.nextGang + i) (gangOf i (slots.getD i 0))) s.gangs }
  (s1.freshCore (coreOf w.pid)).fillActive w.pid 8

def wgZero (launch wgid pid tenant cls : Nat) : Wg :=
  { launch := launch, wgid := wgid, status := .resident, pid := pid, tenant := tenant, cls := cls, count := 1, gangs := []
    ended := 0, scrLen := 0, scr := [], scrPoison := [], gr := [], gops := [], bars := [], tileW := 0, tileH := 0
    scoreIssue := [], scoreRetire := [], binPos := [], member := none, groupSize := 0, passedFinal := false
    restartable := false, noWrite := true, binGang := false, slice := 0, seq := 0, lastMig := 0, ctxAddr := 0
    preempt := false, drainBy := none, heldSlots := [], plan := [], links := [], slots := [], migrate := none
    cancelled := false, unitCancelled := false, dying := false }

/-- Admit a workgroup of a launch at a core partition. -/
def State.admitWg (s : State) (lid wgid pid : Nat) : State :=
  match s.launches.find? lid with
  | none => s
  | some L =>
    let group := if 2 ≤ L.clus then L.clus else 0
    let w : Wg :=
      { wgZero lid wgid pid L.tenant L.cls with
        count := L.gangs, scrLen := L.scrLen, tileW := L.tileW, tileH := L.tileH, restartable := L.restart
        groupSize := group, member := if group = 0 then none else some (wgid % group) }
    let wid := s.nextWg
    let s1 := s.updLaunch lid fun L => { L with waiting := L.waiting.del wgid }
    let s2 := s1.addWg w ((s.slotsFor pid L.gangs).take L.gangs) fun i slot =>
      newGang wid i L.lanes L.base L.ext slot L.entry L.codemap L.trapbase L.sregs []
    let s3 := ((s2.setCreg (.core (coreOf pid)) 0x140 0).setCreg (.core (coreOf pid)) 0x148 0)
    s3.grantPlan wid L.slotPlan

/-! ### The order of admission (17 R342) and tenants' budgets (17 R344) -/

/-- Slots that a tenant holds, sub-gangs included. -/
def State.slotsUsed (s : State) (tenant : Nat) : Nat :=
  s.gangs.foldl (fun n e =>
    match s.wgs.find? e.2.wg with
    | some w => if w.tenant = tenant && w.status = .resident then n + e.2.slots.length else n
    | none => n) 0
def noLimit : Nat := 0xFFFFFFFF
/-- A workgroup of g gangs of the tenant has room (17 R344). -/
def State.hasRoom (s : State) (tenant g : Nat) : Bool :=
  let bw := fld (s.cregNow .hub (tenantOff tenant 0x10)) 0 32
  let en := fld (s.cregNow .hub (tenantOff tenant 0x18)) 0 32
  s.slotsUsed tenant + g ≤ fld (s.cregNow .hub (tenantOff tenant 0x08)) 0 16
  && (bw = noLimit || s.useBw.getD tenant 0 / 256 < bw) && (en = noLimit || s.useEn.getD tenant 0 < en)

/-- Waiting workgroups of a partition in the order in which it considers them: launch and WGID. -/
def State.waitOrder (s : State) (part : Nat) : List (Nat × Nat) :=
  (List.range 4).reverse.flatMap fun c =>
    s.launches.flatMap fun e =>
      if e.2.part = part && e.2.cls = c then (sortNat e.2.waiting).map fun w => (e.1, w) else []

/-- A workgroup meets R111, and R213, somewhere in its partition. -/
def State.fitsSome (s : State) (L : Launch) : Bool := (s.partPids L.part).any fun pid => (s.placing pid L).isSome

/-- The first waiting workgroup that can be admitted. -/
def State.pickWaiting (s : State) : List (Nat × Nat) → (Option Nat × List Nat × List Nat) → Option (Nat × Nat)
  | [], _ => none
  | (lid, w) :: rest, (stop, failed, tenants) =>
    match s.launches.find? lid with
    | none => s.pickWaiting rest (stop, failed, tenants)
    | some L =>
      if (stop.map fun c => decide (L.cls < c)) = some true then none
      else if failed.contains lid || tenants.contains L.tenant then s.pickWaiting rest (stop, failed, tenants)
      else if !s.fitsSome L then s.pickWaiting rest (some L.cls, lid :: failed, tenants)
      else if !s.hasRoom L.tenant (L.gangs * max L.clus 1) then s.pickWaiting rest (stop, failed, L.tenant :: tenants)
      else some (lid, w)

/-! ### Pre-emption (17 R345 to R347) -/

/-- Members of a workgroup's group, or the workgroup alone. -/
def State.unitOf (s : State) (wid : Nat) : List (Nat × Wg) :=
  match s.wgs.find? wid with
  | none => []
  | some w => if w.groupSize = 0 then [(wid, w)] else s.groupOf w

def roundUp (n k : Nat) : Nat := (n + k - 1) / k * k
def gangAreaSize (g : Gang) : Nat := 0x800 + 128 * (g.base + g.xcount)
/-- S: size of the workgroup context area with its gang areas (05 R139, R140). -/
def State.areaSize (s : State) (w : Wg) : Nat :=
  0x400 + roundUp (2 * w.tileW * w.tileH) 128 + roundUp w.scrLen 128
    + (s.wgGangs w).foldl (fun n e => n + gangAreaSize e.2) 0

def popcount (x : Nat) : Nat := (List.range 64).foldl (fun n i => n + x / 2 ^ i % 2) 0
def ceilDiv (a b : Nat) : Nat := if b = 0 then 0 else (a + b - 1) / b
/-- Master-clock frequency in MHz: during a lowering the lower of the two ceilings (20 R400). -/
def State.freq (s : State) : Nat := max 1 (if s.lowering.isEmpty then s.ceil else min s.ceil s.ceilNext)
/-- Estimates in ns of drain, save and flush for a victim (17 R346). -/
def State.drainEst (s : State) (w : Wg) : Nat :=
  let est := match s.launches.find? w.launch with | some L => L.est | none => 0
  let d := (s.wgGangs w).foldl (fun m e => max m (est - e.2.issuecnt.toNat)) 0
  let pat := fld (s.creg (.cluster (clusterOf w.pid)) 0) 0 16
  ceilDiv (16 * d * 1000) (popcount pat * s.freq)
def State.saveEst (s : State) (w : Wg) : Nat :=
  ceilDiv (s.areaSize w) (max 1 (fld (s.creg (.part (s.tenantPart w.tenant)) 0x8060) 0 16))
def State.flushEst (s : State) (w : Wg) : Nat := fld (s.creg (.part (s.tenantPart w.tenant)) 0x8068) 0 32
def flushable (w : Wg) : Bool := w.restartable && w.noWrite

inductive PreMethod where
  | drain
  | flush
  | save
  deriving DecidableEq, Repr

/-- The smallest estimate at or below LAT, ties to drain, then flush, then save; save where none is. -/
def chooseMethod (lat td tf ts : Nat) (canFlush : Bool) : PreMethod :=
  let opts := ([(PreMethod.drain, td)] ++ (if canFlush then [(PreMethod.flush, tf)] else []) ++ [(PreMethod.save, ts)]).filter
    fun (o : PreMethod × Nat) => o.2 ≤ lat
  match opts.foldl (fun (a : Option (PreMethod × Nat)) o =>
      match a with | none => some o | some b => if o.2 < b.2 then some o else a) none with
  | some o => o.1
  | none => .save

/-- End every gang of a workgroup without effect and return it to the waiting list as a unit that has not started (17
R347). One that has been cancelled, or whose launch has, is dropped there and counted as cancelled (06 R158; log 66). -/
def State.flushWg (s : State) (wid : Nat) : State :=
  match s.wgs.find? wid with
  | none => s
  | some w =>
    let s1 := (s.wgGangs w).foldl (fun s e => s.removeGang e.1) s
    let s2 := { s1 with wgs := s1.wgs.del wid }
    let dropped := w.cancelled || w.unitCancelled || match s.launches.find? w.launch with | some L => L.cancelled || L.graphCancelled | none => true
    if dropped then (s2.countUnit w.launch w.binGang true).checkGrids w.launch
    else s2.updLaunch w.launch fun L => { L with waiting := L.waiting.add w.wgid }

/-- A unit can be flushed: every member is flushable, and none of a group has ended, since a flush returns the group as one
that has not started (17 R347, R348; log 66). -/
def unitFlushable (ms : List (Nat × Wg)) : Bool :=
  ms.all fun e => flushable e.2 && (e.2.groupSize = 0 || ms.length = e.2.groupSize)

/-- Make a victim, with its whole group, give way within a latency. -/
def State.preemptUnit (s : State) (wid lat : Nat) : State :=
  let ms := s.unitOf wid
  let sum (f : Wg → Nat) : Nat := ms.foldl (fun n e => n + f e.2) 0
  let td := sum s.drainEst
  match chooseMethod lat td (sum s.flushEst) (sum s.saveEst) (unitFlushable ms) with
  | .drain =>
    ms.foldl (fun s e => s.updWg e.1 fun w =>
      { w with drainBy := some (s.fabtime.toNat + td + lat), migrate := none, preempt := false
               heldSlots := KSet.addAll [] ((s.wgGangs w).flatMap fun g => g.2.slots.vals) }) s
  | .flush =>
    -- a CANCEL that is due is taken before (05 R136)
    let s1 := ms.foldl (fun s e => e.2.gangs.foldl State.cancelFirst s) s
    ms.foldl (fun s e => s.flushWg e.1) s1
  | .save => ms.foldl (fun s e => s.updWg e.1 fun w => { w with preempt := true, migrate := none }) s

/-- The device without some workgroups, for the question whether their removal would help. -/
def State.without (s : State) (ms : List (Nat × Wg)) : State :=
  { s with
    gangs := s.gangs.filter fun e => !(ms.any fun m => m.1 = e.2.wg)
    wgs := s.wgs.filter fun e => !(ms.any fun m => m.1 = e.1) }

/-- LAT of a class (17 Table 125). -/
def State.latOf (s : State) (part c : Nat) : Nat := fld (s.creg (.part part) (0x8040 + 8 * c)) 0 32
/-- A workgroup that already gives way; a migration that has not begun gives way to a request (17 R349). -/
def Wg.leaving (w : Wg) : Bool := (w.preempt && w.migrate.isNone) || w.drainBy.isSome

/-- The removal of a resident workgroup of the partition, with its group, would let a launch's workgroup in. -/
def State.wouldFree (s : State) (L : Launch) (e : Nat × Wg) : Bool :=
  s.tenantPart e.2.tenant = L.part && e.2.status = .resident && (s.without (s.unitOf e.1)).fitsSome L
/-- The victim that would let the first waiting workgroup of a partition in: lowest class, then the last admitted. -/
def State.victimFor (s : State) (lid : Nat) : Option Nat :=
  match s.launches.find? lid with
  | none => none
  | some L =>
    let cands := s.wgs.filter fun e => e.2.cls < L.cls && !e.2.leaving && s.wouldFree L e
    (cands.foldl (fun (a : Option (Nat × Wg)) e =>
      match a with
      | none => some e
      | some b => if e.2.cls < b.2.cls || (e.2.cls = b.2.cls && b.2.seq < e.2.seq) then some e else a) none).map (·.1)

/-- The first waiting workgroup fails everywhere and asks for room (17 R345); while a workgroup that would free it gives
way, the request stands and is not made again. -/
def State.requestRoom (s : State) (part : Nat) : State :=
  match s.waitOrder part with
  | [] => s
  | (lid, _) :: _ =>
    match s.launches.find? lid with
    | none => s
    | some L =>
      if s.fitsSome L || s.latOf part L.cls = 0 || s.wgs.any (fun e => e.2.leaving && s.wouldFree L e) then s
      else match s.victimFor lid with
        | some v => s.preemptUnit v (s.latOf part L.cls)
        | none => s

/-- ADMISSION at a core partition: the first workgroup in order that can be admitted is placed there, where it meets the
conditions there. The first waiting workgroup of all asks for room where it fails everywhere (17 R342, R345). -/
def execAdmission (part pid : Nat) (s : State) : Out :=
  if s.partStopped part || !(s.partClusters part).contains (clusterOf pid) || !s.fwUp 1 then .next s
  else
    let s1 := s.requestRoom part
    match s1.pickWaiting (s1.waitOrder part) (none, [], []) with
    | none => finish s1
    | some (lid, w) =>
      match s1.launches.find? lid with
      | none => finish s1
      | some L =>
        match s1.placing pid L with
        | none => finish s1
        | some pids =>
          let base := if 2 ≤ L.clus then w / L.clus * L.clus else w
          finish ((List.range pids.length).foldl (fun s i => s.admitWg lid (base + i) (pids.getD i 0)) s1)

/-- A time slice ends (05 R122, 17 R345). -/
def execTimeSliceEnd (wg : Nat) (s : State) : Out :=
  match s.wgs.find? wg with
  | none => .next s
  | some w =>
    let part := s.tenantPart w.tenant
    let slice := fld (s.psched w.pid) 16 32
    if w.status = .saved || w.leaving || !s.fwUp 1 || slice = 0 || w.slice < slice then .next s
    else
      match (s.waitOrder part).find? (fun x => match s.launches.find? x.1 with | some L => w.cls ≤ L.cls | none => false) with
      | none => .next s
      | some x =>
        match s.launches.find? x.1 with
        | none => .next s
        | some L => .next (s.preemptUnit wg (s.latOf part L.cls))

/-- A drained victim that has not ended in time is saved (17 R346). -/
def execDrainTimeout (wg : Nat) (s : State) : Out :=
  match s.wgs.find? wg with
  | none => .next s
  | some w =>
    if s.fwUp 1 && (w.drainBy.map fun t => decide (t ≤ s.fabtime.toNat)) = some true then
      .next ((s.unitOf wg).foldl (fun s e => s.updWg e.1 fun w =>
        { w with drainBy := none, heldSlots := [], preempt := true }) s)
    else .next s

end Sys2Proof.Machine
end

