-- ==== Sys2Proof/Machine/Context.lean ====
section
/-! DEFINITION. Context areas: the images of a gang and of a workgroup (05 R139, R140, Tables 47, 48), and the events
that save and restore them. -/

namespace Sys2Proof.Machine

def zeros (n : Nat) : List Byte := List.replicate n 0

/-! ### Images -/

/-- The wait of a gang that stands first among those of a kind, with what an area records of it. -/
def Gang.sleepUntil (g : Gang) : Option Nat := g.waits.findSome? fun w => match w.kind with | .sleep d => some d | _ => none
def Gang.claimOf (g : Gang) : Option Nat := g.waits.findSome? fun w => match w.kind with | .xclaim n _ => some n | _ => none
def Gang.popOf (g : Gang) : Option (Nat × Nat × Nat × Nat × LaneMask) :=
  g.waits.findSome? fun w => match w.kind with | .qpop q t vd sd m _ _ _ => some (t, q, vd, sd, m) | _ => none

def Gang.flags (g : Gang) : Nat :=
  b2n g.handler + 2 * b2n g.parked + 4 * b2n g.cancel.isSome + 8 * b2n g.sleepUntil.isSome + 16 * b2n g.claimOf.isSome
    + 32 * b2n g.popOf.isSome
def pfxImage (p : Option OrdPfx) (suspended : Bool) : Nat :=
  match p with
  | some o => 1 + 2 * (o.order % 8) + 16 * (o.scope % 8) + 128 * (o.lane % 32) + 4096 * b2n suspended
  | none => 0

/-- The first 0x800 bytes of a gang's area (05 Table 47). -/
def Gang.areaHead (g : Gang) : List Byte :=
  let lane (l : Nat) : Bool := g.laneStatus l != 0
  let m (l x : Nat) : Nat := if lane l then x else 0
  let unit (l : Nat) : Nat := m l (g.unit l % 16)
  let pop := g.popOf.getD (0, 0, 0, 0, 0)
  leBytes 2 1 ++ leBytes 1 g.n ++ leBytes 1 (g.slotOf 0) ++ leBytes 2 g.base ++ leBytes 2 g.xcount
    ++ leBytes 8 g.status.toNat ++ leBytes 8 g.flags
    ++ leBytes 8 (if g.ordSusp.isSome then pfxImage g.ordSusp true else pfxImage g.ord false)
    ++ leBytes 8 g.fpstat.toNat ++ leBytes 8 g.issuecnt.toNat ++ leBytes 8 g.codemap.toNat
    ++ leBytes 8 (g.sleepUntil.getD 0)
    ++ leBytes 8 g.trapbase.toNat ++ leBytes 8 g.trapcause.toNat ++ leBytes 8 g.trappc.toNat ++ leBytes 8 g.trapaddr.toNat
    ++ ((List.range 16).flatMap fun i => leBytes 1 (unit (2 * i) + 16 * unit (2 * i + 1)))
    ++ ((List.range 8).flatMap fun q => leBytes 1 (g.splitCnt.getD q 0)) ++ zeros 8
    ++ ((List.range 32).flatMap fun l => leBytes 1 (m l ((g.pr.toNat / 2 ^ (8 * l)) % 256 / 2 * 2)))
    ++ ((List.range 32).flatMap fun l => leBytes 1 (m l (min 255 (g.age.getD l 0))))
    ++ leBytes 4 g.trapped.toNat ++ leBytes 4 (g.claimOf.getD 0)
    ++ leBytes 8 (pop.1 + 2 ^ 32 * (pop.2.1 % 1024) + 2 ^ 42 * (pop.2.2.1 % 256) + 2 ^ 50 * (pop.2.2.2.1 % 64))
    ++ leBytes 4 pop.2.2.2.2.toNat ++ zeros 44
    ++ ((List.range 32).flatMap fun l => leBytes 8 (m l (g.pcOf l).toNat))
    ++ ((List.range 64).flatMap fun n => leBytes 8 (g.s n).toNat)
    ++ ((List.range 256).flatMap fun j =>
      leBytes 4 (if j < g.base + g.xcount then
        (maskWhere fun l => lane l && !(g.empty.contains (vkey l j))).toNat else 0))

def Gang.areaBytes (g : Gang) : List Byte :=
  g.areaHead ++ (List.range (g.base + g.xcount)).flatMap fun j => (List.range 32).flatMap fun l => leBytes 4 (g.v l j).toNat

/-- Offsets of the gang areas of a workgroup by gang index, from the area base (05 R140). -/
def wgHeadSize (w : Wg) : Nat := 0x400 + roundUp (2 * w.tileW * w.tileH) 128 + roundUp w.scrLen 128
def gangOffsets (w : Wg) (gs : List (Nat × Gang)) : SMap Nat :=
  (gs.foldl (fun (a : SMap Nat × Nat) e => (a.1.set e.2.idx a.2, a.2 + gangAreaSize e.2)) ([], wgHeadSize w)).1

/-- The workgroup's own part of its area (05 Table 48). -/
def Wg.areaHead (w : Wg) (offs : SMap Nat) : List Byte :=
  let p := w.tileW * w.tileH
  let bar (b : Nat) : Nat := let r := w.bars.getD b barZero; r.arrived.toNat + 2 ^ 16 * (r.expected % 256) + 2 ^ 24 * (r.count % 256)
  let pad (n : Nat) : List Byte := zeros (roundUp n 128 - n)
  leBytes 2 1 ++ leBytes 1 w.count
    ++ leBytes 1 (b2n (p != 0) + 2 * b2n (w.groupSize != 0) + 4 * b2n w.restartable + 8 * b2n w.noWrite)
    ++ leBytes 4 w.scrLen ++ leBytes 4 w.launch ++ leBytes 4 w.wgid ++ leBytes 4 p ++ leBytes 4 w.slice ++ zeros 40
    ++ ((List.range 16).flatMap fun b => leBytes 4 (bar b))
    ++ ((List.range 16).flatMap fun q => leBytes 8 (w.binPos.getD q 0).toNat)
    ++ ((List.range 32).flatMap fun r => leBytes 8 (w.gr.getD r 0).toNat)
    ++ ((List.range 16).flatMap fun i => leBytes 8 (offs.getD i 0)) ++ zeros 384
    ++ ((List.range p).flatMap fun i => leBytes 1 (w.scoreIssue.getD i 0) ++ leBytes 1 (w.scoreRetire.getD i 0)) ++ pad (2 * p)
    ++ ((List.range w.scrLen).map fun i => w.scr.getD i 0) ++ pad w.scrLen

/-! ### Save -/

/-- What a save does not wait for leaves the gang: its lanes stand on the words (05 R139, 08 R203, 09 R208). A group that
sleeps keeps its wait, and a WAITC in it its prefix (07 R183); a missing page is recorded as a replay. The drains that the
save makes end a fence, whose writes to peers it has waited for (15 R310). -/
def Gang.settle (g : Gang) : Gang :=
  let keep (w : Wait) : Bool :=
    match w.kind with
    | .sleep _ => true
    | .xclaim _ _ => true
    | .qpop .. => true
    | .waitc .. => true
    | .starter => true
    | .bar _ _ => true
    | .barg _ => true
    | .barc _ => true
    | _ => false
  let g1 := g.dropQ fun o => o.phase != .running
  { g1.dropWaits fun w => !keep w with fence := none }

/-- A gang has nothing left that a save waits for (05 R139). -/
def Gang.quiet (g : Gang) : Bool :=
  let pops := g.waits.filterMap fun w => match w.kind with | .qpop .. => some (w.id - 1) | _ => none
  (g.prods.all fun p => pops.contains p.id || g.qops.any fun o => o.prod = p.id && o.phase = .queued)
    && g.mops.isEmpty && (g.qops.all fun o => o.phase != .running)
    && g.waits.all fun w => match w.kind with | .xgive _ => false | _ => true

/-- No engine command that the workgroup's save waits for is outstanding (12 R264). -/
def State.engineQuiet (s : State) (wid : Nat) : Bool :=
  s.engines.all fun e => e.2.all fun k =>
    !(k.wg = wid && k.task.isNone && (k.rt.isSome || k.namesScr))

def State.saveReady (s : State) (e : Nat × Wg) : Bool :=
  e.2.gops.isEmpty && s.engineQuiet e.1
    && (s.wgGangs e.2).all fun g => g.2.quiet && !(g.2.fence = some 4 && s.peerWrites g.1 0)

/-- An operation that waits for the array stops: its state is SUSPENDED with REASON 0x01 (08 R195). -/
def Gang.unqueue (g : Gang) : Gang :=
  (g.qops.filter fun o => o.phase = .queued).foldl (fun g o => g.endQ o (susWord 1 o.next) false) g

/-- Write the areas of a workgroup from an address and take it off its partition. -/
def State.saveWg (s : State) (wid addr : Nat) : State :=
  let s1 := match s.wgs.find? wid with
    | none => s
    | some w => w.gangs.foldl (fun s gid => (s.vaultFinish gid).updGang gid fun g => g.unqueue.settle) s
  match s1.wgs.find? wid with
  | none => s
  | some w =>
    let gs := s1.wgGangs w
    let offs := gangOffsets w gs
    let body := w.areaHead offs ++ gs.flatMap fun e => e.2.areaBytes
    let s2 := (s1.drainScope (coreOf w.pid) 3).checkPa addr
    let s3 := (s2.checkPa (addr + body.length - 1)).homeWrite (.mem plainKey) (addressed addr body)
    let s4 := s3.updWg wid fun w =>
      { w with status := .saved, ctxAddr := addr, preempt := false, drainBy := none, heldSlots := [], plan := [], links := [], slots := [] }
    let s5 := gs.foldl (fun s e => s.updGang e.1 fun g => { g with active := false, blocked := 0 }) s4
    { s5 with
      faults := s5.faults.filter fun f => match f.who with | .gang gid _ _ => !(w.gangs.contains gid) | _ => true
      starters := s5.starters.mapVals fun t => { t with queue := t.queue.filter fun e => !(w.gangs.contains e.gang) }
    }.pruneMonitors

/-- CONTEXT_SAVE: once the workgroup's outstanding work has completed, and that of its whole group, firmware drains and
writes the areas, the members one after another (05 R139, 12 R258). A CANCEL that is due is taken before. -/
def execContextSave (wg addr : Nat) (s : State) : Out :=
  let ms := s.unitOf wg
  if addr % 128 != 0 || ms.isEmpty || !s.fwUp 1 || !(ms.all fun e => e.2.preempt && e.2.status = .resident) then .next s
  else
    let s1 := ms.foldl (fun s e => e.2.gangs.foldl (fun s gid => (s.stopMacros gid).cancelFirst gid) s) s
    let ms1 := s1.unitOf wg
    if ms1.isEmpty || !(ms1.all s1.saveReady) then finish s1
    else finish (ms1.foldl (fun (a : State × Nat) e => (a.1.saveWg e.1 a.2, a.2 + roundUp (s1.areaSize e.2) 128)) (s1, addr)).1

/-! ### Restore -/

/-- A field of an area as memory holds it. -/
def State.areaNat (s : State) (a n : Nat) : Nat := leNat ((List.range n).map fun i => s.memByteAs 0 (a + i))

/-- Reserved fields and version of the two areas (05 R139). -/
def State.gangAreaOk (s : State) (a : Nat) : Bool :=
  let b := s.areaNat (a + 4) 2 + s.areaNat (a + 6) 2
  s.areaNat a 2 = 1 && s.areaNat (a + 0x10) 8 < 64 && s.areaNat (a + 0x18) 8 < 8192 && s.areaNat (a + 0x78) 8 = 0
    && s.areaNat (a + 0xC8) 8 < 2 ^ 56 && s.areaNat (a + 0xD4) 44 = 0
    && (List.range 256).all fun j => j < b || s.areaNat (a + 0x400 + 4 * j) 4 = 0
def State.wgAreaOk (s : State) (a : Nat) : Bool :=
  s.areaNat a 2 = 1 && s.areaNat (a + 3) 1 < 16 && s.areaNat (a + 0x18) 40 = 0 && s.areaNat (a + 0x280) 384 = 0

def pfxOfImage (x : Nat) : Option OrdPfx :=
  if x % 2 = 1 then some { order := bitsOf x 1 3, scope := bitsOf x 4 3, lane := bitsOf x 7 5 } else none

/-- The waits that come back. The area holds one deadline, one claim and one feed-queue index: the first wait of each kind
takes the area's, and the others keep their own, which firmware holds beside it (log 62). A sleeping group repeats its
read before it sleeps again. -/
def keptWaits (s : State) (a fl claimOrder : Nat) (ws : List Wait) : List Wait :=
  let first (p : Wait → Bool) (w : Wait) : Bool := (ws.find? p).any fun x => x.id = w.id
  let isSleep (w : Wait) : Bool := match w.kind with | .sleep _ => true | _ => false
  let isClaim (w : Wait) : Bool := match w.kind with | .xclaim .. => true | _ => false
  let isPop (w : Wait) : Bool := match w.kind with | .qpop .. => true | _ => false
  ws.zipIdx.filterMap fun e =>
    let w := e.1
    match w.kind with
    | .sleep d => if fl / 8 % 2 = 1 then some { w with kind := .sleep (if first isSleep w then s.areaNat (a + 0x38) 8 else d) } else none
    | .xclaim n _ =>
      if fl / 16 % 2 = 1 then
        some { w with kind := .xclaim (if first isClaim w then s.areaNat (a + 0xC4) 4 else n) (claimOrder + e.2) }
      else none
    | .qpop q t vd sd m _ _ _ =>
      let x := s.areaNat (a + 0xC8) 8
      if fl / 32 % 2 = 1 then
        some { w with kind := (
          if first isPop w then .qpop (bitsOf x 32 10) (bitsOf x 0 32) (bitsOf x 42 8) (bitsOf x 50 6)
                                  (BitVec.ofNat 32 (s.areaNat (a + 0xD0) 4)) false 0 true
          else .qpop q t vd sd m false 0 true : WaitKind) }
      else none
    | .waitc r _ _ _ => some { w with kind := .waitc r false 0 true }
    | .starter => some w
    | .bar _ _ => some w
    | .barg _ => some w
    | .barc _ => some w
    | _ => none

/-- A gang as its area holds it; `g`: what firmware keeps of it beside the area (log 62); lanes that a grid barrier has
released stand past it. -/
def State.gangOfArea (s : State) (a claimOrder : Nat) (g : Gang) : Gang :=
  let f (o n : Nat) : Nat := s.areaNat (a + o) n
  let w64 (o : Nat) : W64 := BitVec.ofNat 64 (f o 8)
  let st : BitVec 64 := BitVec.ofNat 64 (f 0x08 8)
  let fl := f 0x10 8
  let pfx := pfxOfImage (f 0x18 8)
  let susp := bitsOf (f 0x18 8) 12 1 = 1
  let b := f 4 2
  let x := f 6 2
  let unit (l : Nat) : Nat := f (0x60 + l / 2) 1 / 16 ^ (l % 2) % 16
  let pops := g.waits.filterMap fun w => match w.kind with | .qpop .. => some (w.id - 1) | _ => none
  let released : LaneMask := g.waits.foldl (fun m w => if w.kind = .starter then m ||| w.lanes else m) 0
  { g with
    n := f 2 1, base := b, xcount := x, status := st
    handler := fl % 2 = 1, parked := false, cancel := if fl / 4 % 2 = 1 then some (g.cancel.getD 0) else g.cancel
    ord := if susp then none else pfx
    ordSusp := if susp then pfx else none, fence := none
    fpstat := w64 0x20, issuecnt := w64 0x28, codemap := w64 0x30
    trapbase := w64 0x40, trapcause := w64 0x48, trappc := w64 0x50, trapaddr := w64 0x58
    unitOf := (List.range 32).foldl (fun m l => m.put 0 l (unit l)) []
    splitCnt := (List.range 8).foldl (fun m q => m.put 0 q (f (0x70 + q) 1)) []
    pr := BitVec.ofNat 256 (f 0x80 32), age := (List.range 32).foldl (fun m l => m.put 0 l (f (0xA0 + l) 1)) []
    trapped := BitVec.ofNat 32 (f 0xC0 4)
    pcs := (List.range 32).foldl (fun m l =>
      m.put 0 l (if released.getLsbD l then g.pcOf l else BitVec.ofNat 57 (f (0x100 + 8 * l) 8))) []
    sr := (List.range 64).foldl (fun m n => m.put 0 n (BitVec.ofNat 64 (f (0x200 + 8 * n) 8))) []
    empty := KSet.addAll (g.empty.filter fun k => 8192 ≤ k) ((List.range (b + x)).flatMap fun j =>
      ((List.range 32).filter fun l => (st.extractLsb' (2 * l) 2) != 0 && f (0x400 + 4 * j + l / 8) 1 / 2 ^ (l % 8) % 2 = 0).map
        fun l => vkey l j)
    vr := (List.range 32).foldl (fun m l => (List.range (b + x)).foldl (fun m j =>
      m.put 0 (vkey l j) (BitVec.ofNat 32 (f (0x800 + 128 * j + 4 * l) 4))) m) []
    waits := keptWaits s a fl claimOrder g.waits
    prods := g.prods.filter fun p => pops.contains p.id
    qops := [], mops := [], rdvCnt := [], active := false, blocked := 0, yielded := false, fresh := false }

/-- Units of a gang, each with the slot it had: the order of slot numbers is kept (05 R140). -/
def Gang.unitsBySlot (g : Gang) : List Nat :=
  let us := (0 :: ((List.range 32).filter g.isLive).map g.unit).eraseDups
  sortBy (fun u => g.slots.getD u (16 + u)) us

/-- Give the units of a workgroup's gangs free slots, keeping their relative order. -/
def reslot (gs : List (Nat × Gang)) (free : List Nat) : List (Nat × Gang) :=
  let units := gs.flatMap fun e => e.2.unitsBySlot.map fun u => (e.1, u, e.2.slots.getD u (16 + u))
  let order := sortBy (fun i => (units.getD i (0, 0, 0)).2.2) (List.range units.length)
  let placed := (List.range order.length).map fun i => ((units.getD (order.getD i 0) (0, 0, 0)), free.getD i 0)
  gs.map fun e => (e.1, { e.2 with
    slots := (placed.filter fun p => p.1.1 = e.1).foldl (fun m p => m.set p.1.2.1 p.2) ([] : SMap Nat) })

/-- Need of a saved workgroup. -/
def State.savedNeed (s : State) (w : Wg) : Need :=
  let gs := s.wgGangs w
  { slots := gs.foldl (fun n e => n + e.2.unitsBySlot.length) 0
    entries := gs.foldl (fun n e => n + e.2.base + e.2.xcount) 0
    reserve := (match s.launches.find? w.launch with | some L => spawnBase L.spawns | none => 0)
    scr := w.scrLen, pixels := w.tileW * w.tileH, whole := w.count = 16 && !w.binGang }

/-- The places of a workgroup's sleeping groups in monitors: a restored gang arms its monitor again (07 R183). -/
def State.disarm (s : State) (gids : List Nat) : State :=
  let other (x : Sleeper) : Bool := match x with | .gang gid _ => !gids.contains gid | .task .. => true
  { s with
    monitors := (s.monitors.map fun m => { m with sleepers := m.sleepers.filter other }).filter fun m => !m.sleepers.isEmpty }

/-- Rebuild a workgroup at a core partition from its area; a bad area terminates it (05 R139, R140), with a report of 0,
since the rules name none (log 62). -/
def State.restoreWg (s : State) (wid pid : Nat) : State :=
  match s.wgs.find? wid with
  | none => s
  | some w =>
    let a := w.ctxAddr
    let off (g : Gang) : Nat := a + s.areaNat (a + 0x200 + 8 * g.idx) 8
    let gs := s.wgGangs w
    if !s.wgAreaOk a || !(gs.all fun e => s.gangAreaOk (off e.2)) then
      s.terminate wid { cause := 0, pc := 0, addr := 0 }
    else
      let p := w.tileW * w.tileH
      let rec0 (b : Nat) : BarRec :=
        let x := s.areaNat (a + 0x40 + 4 * b) 4
        { arrived := BitVec.ofNat 16 x, expected := bitsOf x 16 8, count := bitsOf x 24 8, counted := (w.bars.getD b barZero).counted }
      let scr0 := a + 0x400 + roundUp (2 * p) 128
      let fl := s.areaNat (a + 3) 1
      let order := (s.cpart pid).claimOrder
      let gs1 : List (Nat × Gang) := gs.map fun e => (e.1, s.gangOfArea (off e.2) (order + 64 * e.2.idx) e.2)
      let gs2 := reslot gs1 (s.freeSlots pid (if w.count = 16 then 16 else 15))
      let w1 : Wg :=
        { w with
          status := .resident, pid := pid, slice := 0, migrate := none, lastMig := if w.migrate.isSome then s.fabtime.toNat else w.lastMig
          restartable := fl / 4 % 2 = 1, noWrite := fl / 8 % 2 = 1
          bars := (List.range 16).foldl (fun m b => m.put barZero b (rec0 b)) []
          binPos := (List.range 16).foldl (fun m q => m.put 0 q (BitVec.ofNat 64 (s.areaNat (a + 0x80 + 8 * q) 8))) []
          gr := (List.range 32).foldl (fun m r => m.put 0 r (BitVec.ofNat 64 (s.areaNat (a + 0x100 + 8 * r) 8))) []
          scoreIssue := (List.range p).foldl (fun m i => m.put 0 i (s.areaNat (a + 0x400 + 2 * i) 1)) []
          scoreRetire := (List.range p).foldl (fun m i => m.put 0 i (s.areaNat (a + 0x401 + 2 * i) 1)) []
          scr := (List.range w.scrLen).foldl (fun m i => m.put 0 i (s.memByteAs 0 (scr0 + i))) [] }
      let s1 := { (s.freshCore (coreOf pid)).disarm (gs.map (·.1)) with
        wgs := s.wgs.set wid w1, gangs := gs2.foldl (fun (m : SMap Gang) (e : Nat × Gang) => m.set e.1 e.2) s.gangs }
      let s2 := s1.setCpart pid { s1.cpart pid with claimOrder := order + 1024 }
      let queue := (gs2.filter fun e => e.2.waits.any fun x => x.kind = .starter).map fun e =>
        ({ gang := e.1, opening := s.openings, after := none } : StartEntry)
      ({ (if queue.isEmpty then s2 else s2.enqueueStarter (clusterOf pid) queue) with openings := s.openings + 1 }).fillActive pid 8

/-- CONTEXT_RESTORE: a saved workgroup, with its whole group, is rebuilt where it meets R111 and R213. -/
def execContextRestore (wg pid : Nat) (s : State) : Out :=
  let ms := s.unitOf wg
  match s.wgs.find? wg with
  | none => .next s
  | some w =>
    let part := s.tenantPart w.tenant
    let here := (s.partClusters part).contains (clusterOf pid) && (match w.migrate with | some c => c = clusterOf pid | none => true)
    if !here || s.partStopped part || !s.fwUp 1 || !(ms.all fun e => e.2.status = .saved && !e.2.dying) then .next s
    else if w.groupSize = 0 then
      if s.meets pid (s.savedNeed w) then finish (s.restoreWg wg pid) else .next s
    else
      match groupPlaces s.meets (clusterOf pid) (ms.map fun e => s.savedNeed e.2) (List.range 8) with
      | none => .next s
      | some pids => finish ((List.range ms.length).foldl (fun s i =>
          match ms[i]? with | some e => s.restoreWg e.1 (pids.getD i 0) | none => s) s)

end Sys2Proof.Machine
end

