-- ==== Sys2Proof/Machine/CoreEv.lean ====
section
/-! DEFINITION. The events of gangs and core partitions: writebacks, exits, wakes, splits, register claims, the deadlock
report, spawn bins, the starter, matrix passes, lathes, queue copies and buffer drains (01, 05, 06, 07, 08, 12). An event
that is not due changes nothing. -/

namespace Sys2Proof.Machine

/-- Each lane of a mask moves past the word it stands on, and its group's age restarts. -/
def Gang.advance (g : Gang) (m : LaneMask) : Gang :=
  ((lanesOf m).foldl (fun g l => g.setPc (BitVec.ofNat 32 (2 ^ l)) (g.pcOf l + 16)) g).freshAge m

/-! ### Gangs -/

/-- PRODUCER_WRITEBACK: a producer whose values have arrived writes them (01 R16, R18). -/
def execProducerWriteback (gang idx : Nat) (s : State) : Out :=
  match s.here? gang with
  | none => .next s
  | some (g, _) => if g.prods.any fun p => p.id = idx && p.ready then .next (s.updGang gang fun g => g.complete idx) else .next s

/-- LANE_EXITED: lanes waiting at EXIT whose registers are full become exited (01 R19, 12 R263). -/
def execLaneExited (gang : Nat) (s : State) : Out :=
  match s.here? gang with
  | none => .next s
  | some (g, w) =>
    let m := g.fullLanes (g.waits.foldl (fun m x => if x.kind = .exit then m ||| x.lanes else m) 0)
    if m = 0 then .next s
    else
      let s1 := s.updGang gang fun g => g.dropLanes m
      if w.clusterExit gang g m then finish (s1.takeTrap gang m Cause.clusterExit (pcImage (g.pcOf (lowLane m))) 0)
      else finish (s1.exitNow gang m)

/-- SLEEP_WAKE: groups whose deadline FABTIME has reached are eligible again (04 R107). -/
def execSleepWake (gang : Nat) (s : State) : Out :=
  match s.here? gang with
  | none => .next s
  | some (g, _) =>
    let due (x : Wait) : Bool := match x.kind with | .sleep d => d ≤ s.fabtime.toNat | _ => false
    let m := g.waits.foldl (fun m x => if due x then m ||| x.lanes else m) 0
    if m = 0 then .next s else .next (s.updGang gang fun g => (g.dropWaits due).freshAge m)

/-- A wait for which a blocked gang leaves the active set at once (05 R112). -/
def Gang.sleeps (g : Gang) : Bool :=
  g.waits.any fun x =>
    match x.kind with
    | .sleep _ => true
    | .waitc .. => true
    | .bar _ _ => true
    | .barg _ => true
    | .barc _ => true
    | _ => false

/-- ACTIVE_SET_REMOVE: blocked gangs leave the active set, and the oldest with an eligible group enter (05 R112). -/
def execActiveSetRemove (pid : Nat) (s : State) : Out :=
  let out (g : Gang) : Bool := g.active && (g.eligible = 0 || g.parked) && (16 ≤ g.blocked || g.sleeps)
  let s1 := (s.partGangs pid).foldl (fun s e => if out e.2 then s.updGang e.1 fun g => { g with active := false } else s) s
  .next (s1.fillActive pid 8)

/-- SPLITN of a core partition (05 Table 43). -/
def State.splitN (s : State) (pid : Nat) : Nat := fld (s.psched pid) 0 8

/-- QUAD_SPLIT: a quad whose counter has reached SPLITN forms a sub-gang in the lowest free slot (05 R118). Its counter starts
again from 0 (log 71). -/
def execQuadSplit (gang quad : Nat) (s : State) : Out :=
  match s.here? gang with
  | none => .next s
  | some (g, w) =>
    let q := quad % 8
    let n := s.splitN w.pid
    let u := g.unit (4 * q)
    let alone := !((List.range 32).any fun l => g.isLive l && g.unit l = u && l / 4 != q)
    match s.freeSlots w.pid 15, ((List.range 8).filter fun k => k != 0 && (g.slots.find? k).isNone) with
    | slot :: _, k :: _ =>
      if n = 0 || g.splitCnt.getD q 0 < n || alone || 8 ≤ g.slots.length then .next s
      else .next (s.updGang gang fun g =>
        { g with
          unitOf := [0, 1, 2, 3].foldl (fun m j => m.put 0 (4 * q + j) k) g.unitOf
          slots := g.slots.set k slot
          splitCnt := g.splitCnt.put 0 q 0 })
    | _, _ => .next s

/-! ### Register claims (05 R124, R125, 06 R151, R152) -/

/-- Waiting claims of a core partition in the order in which they began: order, gang, wait, entries. -/
def State.claims (s : State) (pid : Nat) : List (Nat × Nat × Wait × Nat) :=
  let cs := (s.partGangs pid).flatMap fun e => e.2.waits.filterMap fun x =>
    match x.kind with | .xclaim n o => some (o, e.1, x, n) | _ => none
  (sortBy (fun i => (cs.map (·.1)).getD i 0) (List.range cs.length)).filterMap fun i => cs[i]?

/-- XCLAIM_GRANT: the oldest claim is granted when XFREE allows it. -/
def execXclaimGrant (pid : Nat) (s : State) : Out :=
  match s.claims pid with
  | [] => .next s
  | (_, gid, x, n) :: _ =>
    if s.xfree pid < n then .next s
    else .next (s.updGang gid fun g => ((g.dropWaits fun y => y.id = x.id).grant n).advance x.lanes)

/-- The highest n registers leave a gang. Each XGIVE has been checked by itself: of two that together give more than the gang
holds, the second credits what is left (log 72). -/
def Gang.release (g : Gang) (n : Nat) : Gang :=
  let lo := g.base + g.xcount - n
  let gone (k : Nat) : Bool := k < 8192 && lo ≤ k % 256 && k % 256 < lo + n
  { g with
    xcount := g.xcount - n
    vr := g.vr.filter fun e => !gone e.1
    poison := g.poison.filter fun k => !gone k }

/-- XGIVE_CREDIT: entries whose registers are full are credited (06 R152). -/
def execXgiveCredit (gang : Nat) (s : State) : Out :=
  match s.here? gang with
  | none => .next s
  | some (g, _) =>
    match g.waits.findSome? fun x => match x.kind with | .xgive n => if g.giveReady n then some (x, n) else none | _ => none with
    | none => .next s
    | some (x, n) => .next (s.updGang gang fun g => ((g.dropWaits fun y => y.id = x.id).release n).advance x.lanes)

/-- Every live lane of a gang waits in XCLAIM. -/
def Gang.allClaim (g : Gang) : Bool :=
  g.arrived fun k => match k with | .xclaim _ _ => true | _ => false

/-- The condition of the deadlock report (05 R125). -/
def State.claimDeadlock (s : State) (pid : Nat) : Bool :=
  let gs := s.partGangs pid
  let atBar (g : Gang) : Bool :=
    (List.range 16).any fun b => g.arrived (isBar b) && (gs.all fun e => e.2.wg != g.wg || e.2.arrived (isBar b) || e.2.allClaim)
  let giving (g : Gang) : Bool := g.waits.any fun x => match x.kind with | .xgive _ => true | _ => false
  gs.any (fun e => e.2.allClaim) && gs.all (fun e => (e.2.allClaim || atBar e.2) && !giving e.2)
    && !(s.wgs.any fun e => e.2.pid = pid && e.2.preempt)

/-- A gang's first claim takes REG_DEADLOCK; all its claims are withdrawn. -/
def State.deadlockTrap (s : State) (gid xfree : Nat) : State :=
  match s.gangs.find? gid with
  | none => s
  | some g =>
    let cs := g.waits.filterMap fun x => match x.kind with | .xclaim n o => some (x, n, o) | _ => none
    match cs.foldl (fun (a : Option (Wait × Nat × Nat)) c =>
        match a with | none => some c | some b => if c.2.2 < b.2.2 then some c else a) none with
    | none => s
    | some (x, n, _) =>
      (s.updGang gid fun g => g.dropWaits fun y => match y.kind with | .xclaim _ _ => true | _ => false).takeTrap gid x.lanes
        Cause.regDeadlock (pcImage (g.pcOf (lowLane x.lanes))) (BitVec.ofNat 64 (n % 2 ^ 16 + 2 ^ 16 * (xfree % 2 ^ 16)))

/-- REG_DEADLOCK_REPORT: after 1,024 cycles of deadlock the earliest admitted workgroup with a claim takes it. -/
def execRegDeadlockReport (pid : Nat) (s : State) : Out :=
  if (s.cpart pid).deadlock < 1024 || !s.claimDeadlock pid then .next s
  else
    let ws := s.wgs.filter fun e => (s.claims pid).any fun c => match s.gangs.find? c.2.1 with | some g => g.wg = e.1 | none => false
    match ws.foldl (fun (a : Option (Nat × Wg)) e =>
        match a with | none => some e | some b => if e.2.seq < b.2.seq then some e else a) none with
    | none => .next s
    | some (_, w) =>
      let x := s.xfree pid
      let s1 := s.setCpart pid { s.cpart pid with deadlock := 0 }
      .next (w.gangs.foldl (fun s gid => s.deadlockTrap gid x) s1)

/-! ### Spawn bins (05 R130, R131) -/

def State.binTime (s : State) (pid : Nat) : Nat := fld (s.psched pid) 48 16

/-- BIN_TIMER_EXPIRE: a FILLING bin becomes READY after BINTIME issue cycles. -/
def execBinTimerExpire (pid bin : Nat) (s : State) : Out :=
  let p := s.cpart pid
  match p.bins.find? bin with
  | none => .next s
  | some b =>
    if b.state = .filling && s.binTime pid ≤ b.timer then
      .next (s.setCpart pid
        { p with bins := p.bins.set bin { b with state := .ready }, readyOrder := p.readyOrder ++ [bin] })
    else .next s

/-- BIN_LAUNCH: the bin that became READY first launches a gang with one lane for each record, once a slot and registers
are available. The workgroup's WGID is free (log 4). -/
def execBinLaunch (pid : Nat) (s : State) : Out :=
  let p := s.cpart pid
  match p.readyOrder with
  | [] => .next s
  | b :: rest =>
    match p.bins.find? b with
    | none => .next (s.setCpart pid { p with readyOrder := rest })
    | some bin =>
      match bin.recs.head?, s.freeSlots pid 16 with
      | some r, slot :: _ =>
        (match s.launches.find? r.launch with
         | none => .next s
         | some L =>
           if s.partStopped L.part then .next s
           else match L.spawns.find? fun e => e.addr = r.entry with
             | none => .next s
             | some e =>
               if 1024 - s.poolUsed pid < e.base then .next s
               else
                 let (k, s0) := s.takeFree
                 let s1 := s0.setCpart pid { p with bins := p.bins.del b, readyOrder := rest }
                 let payload : SMap W32 := (List.range bin.recs.length).foldl (fun m l =>
                   match bin.recs[l]? with
                   | some r => (((m.put 0 (vkey l 0) r.w0).put 0 (vkey l 1) r.w1).put 0 (vkey l 2) r.w2).put 0 (vkey l 3) r.w3
                   | none => m) []
                 let w : Wg := { wgZero r.launch (Config.freeNat k % 2 ^ 32) pid L.tenant r.cls with binGang := true }
                 let wid := s1.nextWg
                 let s2 := s1.addWg w [slot] fun _ slot =>
                   newGang wid 0 bin.recs.length e.base e.ext slot r.entry L.codemap L.trapbase [] payload
                 let s3 := s2.updLaunch r.launch fun L => { L with graphLive := L.graphLive + 1 }
                 finish (s3.refill pid (s3.ringCount pid)))
      | _, _ => .next s

/-! ### The starter (12 R274, R275) -/

def State.waveOf (s : State) (cl : Nat) : Nat := fld (s.creg (.cluster cl) 8) 32 8
def State.gapOf (s : State) (cl : Nat) : Nat := fld (s.creg (.cluster cl) 8) 40 8

/-- The first cluster's part of the same opening has gone out, GAP + 1 cycles ago. -/
def State.startAllowed (s : State) (e : StartEntry) : Bool :=
  match e.after with
  | none => true
  | some c =>
    let t := s.starter c
    !(t.queue.any fun x => x.opening = e.opening) && t.last + s.gapOf c + 1 ≤ s.cycle

/-- STARTER_WAVE: up to WAVE gangs of a cluster's queue start. -/
def execStarterWave (cluster : Nat) (s : State) : Out :=
  let st := s.starter cluster
  if st.queue.isEmpty || s.cycle < st.next then .next s
  else
    let go := (st.queue.take (s.waveOf cluster)).takeWhile fun e => s.startAllowed e
    if go.isEmpty then .next s
    else
      let st' : Starter := { queue := st.queue.drop go.length, next := s.cycle + s.gapOf cluster + 1, last := s.cycle }
      let s1 := { s with starters := s.starters.set cluster st' }
      .next (go.foldl (fun s e => s.updGang e.gang fun g =>
        let m := g.waits.foldl (fun m x => if x.kind = .starter then m ||| x.lanes else m) 0
        (g.dropWaits fun x => x.kind = .starter).freshAge m) s1)

/-! ### Lathes, the array, watchdogs -/

def execLatheStep (core lathe : Nat) (s : State) : Out := finish (s.latheStep core (lathe % 2))
def execMatrixPassStart (pid : Nat) (s : State) : Out := finish (s.passStart pid)
def execMatrixBlock (pid : Nat) (s : State) : Out := finish (s.matrixBlock pid)
def execRdvStallWatchdog (gang pc : Nat) (s : State) : Out :=
  match s.here? gang with
  | some _ => .next (s.rdvStall gang pc)
  | none => .next s

/-! ### Sleeping groups (07 R183, R184, 06 R156) -/

def Gang.wait? (g : Gang) (id : Nat) : Option Wait := g.waits.find? fun x => x.id = id

/-- A QPOP wait takes another state. -/
def Gang.setPop (g : Gang) (id : Nat) (f : WaitKind → WaitKind) : Gang :=
  { g with waits := g.waits.map fun y => if y.id = id then { y with kind := f y.kind } else y }
/-- A QPOP wait whose word does not hold its index sleeps again; a parked one stays parked (07 R184). -/
def State.qpopSleep (s : State) (gid : Nat) (w : Wg) (x : Wait) (q t vd sd : Nat) (m : LaneMask) (parked : Bool) : State :=
  let (armed, s1) :=
    if parked then (false, s)
    else match s.vaLoc (tlbUnit w.pid) w.tenant .read (s.qseqVa q t) with
      | some p => s.arm (s.tenantPart w.tenant) p (.gang gid x.id)
      | none => (false, s)
  s1.updGang gid fun g => g.setPop x.id fun _ => .qpop q t vd sd m (!armed) 0 false

/-- A QPOP wait reads its sequence word again, through translations made anew: a missing page parks its gang, a denied one
raises ACCESS, and the index is given up (14 R295, R413; log 52). -/
def State.qpopAgain (s : State) (gid : Nat) (w : Wg) (g : Gang) (x : Wait) (q t vd sd : Nat) (m : LaneMask) (parked : Bool) :
    State :=
  let pc := g.pcOf (lowLane x.lanes)
  let res (va : W64) : TRes := s.translate (tlbUnit w.pid) w.tenant .read va
  let vas := [s.qseqVa q t, s.qslotVa q t]
  if g.parked then s
  else match vas.find? fun va => res va = .access with
    | some va =>
      (((s.markCopied q t).signal w.tenant 0).updGang gid fun g => g.failProducer (x.id - 1)).takeTrap gid x.lanes Cause.access
        (pcImage pc) va
    | none =>
      let ps := vas.filter fun va => res va = .page
      if !ps.isEmpty then
        (s.updGang gid fun g => g.setPop x.id fun _ => .qpop q t vd sd m false 0 true).parkPages gid w.tenant ps 0 x.lanes pc none
      else
        let (done, s1) := s.qpopTry gid x q t vd sd m
        if done then s1 else s1.pruneMonitors.qpopSleep gid w x q t vd sd m parked

/-- WAITC_WAKE: a woken group repeats its read. -/
def execWaitcWake (gang idx : Nat) (s : State) : Out :=
  match s.here? gang with
  | none => .next s
  | some (g, _) =>
    match g.wait? idx with
    | some x =>
      (match x.kind with
       | .waitc r _ _ true => finish (s.repeatRead gang idx r x.lanes false)
       | _ => .next s)
    | none => .next s

/-- PARKED_POLL: a parked group repeats its read after 4,096 cycles in which its partition issues a word. -/
def execParkedPoll (gang idx : Nat) (s : State) : Out :=
  match s.here? gang with
  | none => .next s
  | some (g, w) =>
    match g.wait? idx with
    | some x =>
      (match x.kind with
       | .waitc r true n _ => if 4096 ≤ n then finish (s.repeatRead gang idx r x.lanes true) else .next s
       | .qpop q t vd sd m true n _ => if 4096 ≤ n then finish (s.qpopAgain gang w g x q t vd sd m true) else .next s
       | _ => .next s)
    | none => .next s

/-- QPOP_COPY: a woken QPOP copies its record once the sequence word equals its index. -/
def execQpopCopy (gang idx : Nat) (s : State) : Out :=
  match s.here? gang with
  | none => .next s
  | some (g, w) =>
    match g.wait? idx with
    | some x =>
      (match x.kind with
       | .qpop q t vd sd m _ _ true => finish (s.qpopAgain gang w g x q t vd sd m false)
       | _ => .next s)
    | none => .next s

/-! ### Buffers (07 R163, 15 R301) and the copy engine -/

/-- WCB_LINE_DRAIN: a buffer line may drain at any time. -/
def execWcbLineDrain (core line : Nat) (s : State) : Out := finish (s.drainLine core line)

/-- WCB_DRAIN_TIMEOUT: a line drains 16,384 cycles after the store that first wrote it, from the buffer and from the
cluster point. -/
def execWcbDrainTimeout (core line : Nat) (s : State) : Out :=
  let old (b : Option BufLine) : Bool := match b with | some b => b.since + 16384 ≤ s.cycle | none => false
  if old ((s.wcb.getD core []).find? line) then finish (s.drainLine core line)
  else if old ((s.cpt.getD (core / 8) []).find? line) then finish (s.drainPoint (core / 8) line)
  else .next s

/-- ENG_COMPLETE: a copy-engine command moves what is left of its payload, completes and signals, or stops. -/
def execEngComplete (cluster idx : Nat) (s : State) : Out := finish (s.engFinish cluster idx)

end Sys2Proof.Machine
end

