-- ==== Sys2Proof/Machine/Window.lean ====
section
/-! DEFINITION. The task window: ports, free lists, decode and renaming (16 R312 to R321), and the tasks that act at decode
(16 R332, R338, R339). A TASK word decodes at the port that the cursor names; its issue and its end are in Task.lean. -/

namespace Sys2Proof.Machine

/-! ### Ports, entries and lists -/

def portKey (part port : Nat) : Nat := 4 * part + port
def ctxZero : PortCtx := { tpc := 0, k := [], bufs := [], phase := 0, group := none }
def portZero : Port :=
  { state := .idle, tenant := 0, spec := ctxZero, arch := ctxZero, cause := 0, sub := 0, bind := 0xF, imprecise := false
    tidx := 0, detail := 0, trappc := 0, retired := 0, phaseId := 0, job := 0, stopDecode := false, coll := 0
    dropped := false, denied := none, ended := false }
def State.port (s : State) (part p : Nat) : Port := s.ports.getD (portKey part p) portZero
def State.setPort (s : State) (part p : Nat) (x : Port) : State := { s with ports := s.ports.set (portKey part p) x }

/-- Entries of a port, oldest first. -/
def State.portTasks (s : State) (part p : Nat) : List (Nat × WinTask) :=
  s.tasks.filter fun e => e.2.part = part && e.2.port = p
/-- Entries of a partition in use. -/
def State.entriesUsed (s : State) (part : Nat) : Nat := (s.tasks.filter fun e => e.2.part = part).length
def State.updTask (s : State) (id : Nat) (f : WinTask → WinTask) : State := { s with tasks := s.tasks.upd id f }

def listKey (part c : Nat) : Nat := 32 * part + c
def State.freeList (s : State) (part c : Nat) : List Nat := s.freeLists.getD (listKey part c) []
/-- A handle returns to the tail of its list. -/
def State.returnHandle (s : State) (part : Nat) (h : Nat × Nat) : State :=
  { s with freeLists := s.freeLists.put [] (listKey part h.1) (s.freeList part h.1 ++ [h.2]) }

/-- A k-register. -/
def kOf (k : SMap W64) (n : BitVec 6) : W64 := k.getD (n.toNat % 32) 0

/-- Reads and writes of the window: done, a missing page, or a denied address. -/
inductive WinRes (α : Type) where
  | ok (x : α)
  | page (va : W64)
  | access (va : W64)
  deriving DecidableEq, Repr

/-- Bytes that the window reads for a tenant by coherent loads at .PKG (16 R313). -/
def State.winRead (s : State) (tenant : Nat) (va : W64) : Nat → WinRes (List Byte)
  | 0 => .ok []
  | n + 1 =>
    match s.translate 255 tenant .read va with
    | .page => .page va
    | .access => .access va
    | .ok l =>
      match s.winRead tenant (va + 1) n with
      | .ok bs => .ok (s.homeByte l.kind l.addr :: bs)
      | r => r
/-- Which of some bytes that it reads are poisoned (14 R297). -/
def State.winBad (s : State) (tenant : Nat) (va : W64) (n : Nat) : List Bool :=
  (List.range n).map fun i =>
    match s.translate 255 tenant .read (va + BitVec.ofNat 64 i) with
    | .ok l => s.homePoison l.kind l.addr
    | _ => false
/-- Every byte of a range may be written. -/
def State.winMay (s : State) (tenant : Nat) (va : W64) : Nat → WinRes Unit
  | 0 => .ok ()
  | n + 1 =>
    match s.translate 255 tenant .write va with
    | .page => .page va
    | .access => .access va
    | .ok _ => s.winMay tenant (va + 1) n
/-- Write bytes whose every address may be written, each line in one write, with their poison. -/
def State.winPut (s : State) (tenant : Nat) : Nat → W64 → List Byte → List Bool → State
  | 0, _, _, _ => s
  | f + 1, va, bs, bad =>
    if bs.isEmpty then s
    else match s.translate 255 tenant .write va with
      | .ok l =>
        let n := min bs.length (toLine va)
        ((s.walkUse 255 tenant va).engWrite tenant l (bs.take n) fun i => bad.getD i false).winPut tenant f
          (va + BitVec.ofNat 64 n) (bs.drop n) (bad.drop n)
      | _ => s
def State.winWrite (s : State) (tenant : Nat) (va : W64) (bs : List Byte) (bad : List Bool := []) : State :=
  s.winPut tenant bs.length va bs bad
/-- What n bytes that the window reads pass and count, line by line (14 R282, 17 R344). -/
def State.winTouch (s : State) (tenant : Nat) (va : W64) (n : Nat) (byp : Bool := false) : State :=
  let a := va.toNat % 128
  (List.range ((a + n + 127) / 128)).foldl (fun s i =>
    let lo := max a (128 * i)
    let x := va + BitVec.ofNat 64 (lo - a)
    match s.translate 255 tenant .read x with
    | .ok l => (s.walkUse 255 tenant x).touchFor tenant (min (a + n) (128 * (i + 1)) - lo) l byp
    | _ => s) s

/-! ### Decode (16 R315, R316, R320, R321, R331) -/

def taskFault (cause sub bind : Nat) (detail : W64) : TaskFault :=
  { cause := cause, sub := sub, bind := bind, detail := detail, trappc := 0 }

/-- A decode under way: the port's speculative state, the free lists, and what the entry records. -/
structure Dec where
  ctx : PortCtx
  lists : SMap (List Nat)
  olds : List (Nat × Nat)
  news : List (Nat × Nat)
  regs : List Region
  deriving DecidableEq, Repr

/-- Why a decode does not go through: a fault, with what the task has taken so far, or an empty free list. -/
inductive DecEnd where
  | fault (f : TaskFault) (d : Dec)
  | empty (cls : Nat)
  deriving DecidableEq, Repr

abbrev DecRes := Except DecEnd Dec

/-- Take a handle of a class for a logical buffer; its old handle, if any, is recorded. -/
def Dec.take (d : Dec) (part t c : Nat) (b : BufEnt) : DecRes :=
  match d.lists.getD (listKey part c) [] with
  | [] => .error (.empty c)
  | h :: rest =>
    .ok { d with
      lists := d.lists.put [] (listKey part c) rest
      olds := d.olds ++ (match d.ctx.bufs.find? t with | some o => [(o.cls, o.handle)] | none => [])
      news := d.news ++ [(c, h)]
      ctx := { d.ctx with bufs := d.ctx.bufs.set t { b with handle := h, cls := c } } }

/-- Resolve one region of a task: a rename for OVW (mode 3), then the handle and the bytes (16 R321). -/
def Dec.region (d : Dec) (part bind mode t : Nat) (ext : Option (Nat × Nat)) (res : Bool) : DecRes :=
  match d.ctx.bufs.find? t with
  | none => .error (.fault (taskFault 0x03 0 bind (BitVec.ofNat 64 t)) d)
  | some b =>
    match (if mode = 3 then d.take part t b.cls b else .ok d) with
    | .error e => .error e
    | .ok d1 =>
      let h := match d1.ctx.bufs.find? t with | some x => x.handle | none => 0
      let e := ext.getD (0, b.size)
      .ok { d1 with regs := d1.regs ++ [{ t := t, handle := h, off := e.1, len := e.2, mode := mode, size := b.size
                                          fmt := b.fmt, shape := b.shape, res := res }] }

/-- What is wrong with a binding word at an address (16 R315, R316). -/
def bindCheck (b : BindW) (i : Nat) (addr : Nat) : Option TaskFault :=
  let bad (sub : Nat) : Option TaskFault := some (taskFault 0x01 sub i (BitVec.ofNat 64 addr))
  if b.mark != 0xCFF then bad 0x0A
  else if b.rsv != 0 || (b.whole = 1 && (b.ko != 0 || b.kl != 0)) then bad 0x03
  else if (b.mode = 3 && b.whole = 0) || 32 ≤ b.ko.toNat || 32 ≤ b.kl.toNat then bad 0x04
  else none

/-- Resolve binding words in order, the first being binding i at an address. -/
def Dec.bindings (part : Nat) (k : SMap W64) : Nat → Nat → List BindW → Dec → DecRes
  | _, _, [], d => .ok d
  | i, addr, b :: bs, d =>
    let ext := if b.whole = 1 then none else some ((kOf k b.ko).toNat, (kOf k b.kl).toNat)
    match d.region part i b.mode.toNat b.t.toNat ext (b.res = 1) with
    | .error e => .error e
    | .ok d1 => Dec.bindings part k (i + 1) (addr + 16) bs d1
/-- The first fault of the binding words. -/
def bindFault : Nat → Nat → List BindW → Option TaskFault
  | _, _, [] => none
  | i, addr, b :: bs => (bindCheck b i addr).orElse fun _ => bindFault (i + 1) (addr + 16) bs

/-- A decode starts from the port's speculative state. -/
def State.decStart (s : State) (p : Port) : Dec :=
  { ctx := p.spec, lists := s.freeLists, olds := [], news := [], regs := [] }

/-- An entry as decode makes it. -/
def newTask (part port : Nat) (p : Port) (i : Instr) (st : TaskState) (f : Option TaskFault) (d : Dec) : WinTask :=
  { part := part, port := port, addr := p.spec.tpc, ins := i, st := st, fault := f, kin := p.spec.k, after := d.ctx
    olds := d.olds, news := d.news, regs := d.regs, phaseId := p.phaseId, lids := [], cmds := [], wait := none
    parked := false, polls := 0, coll := 0, stage := 0, joinAt := none, pend := none, cancelled := false, poison := [], issued := false }
def State.addTask (s : State) (t : WinTask) : State :=
  { s with tasks := s.tasks.set s.nextTask t, nextTask := s.nextTask + 1
           decodeLast := s.decodeLast.put 3 t.part t.port, winMark := s.winMark.put 0 (4 * t.part) (s.cycle + 1) }

/-- A decode fault: the entry is FAULTED, with the handles that it has taken, and the port decodes no more (16 R320, R321,
R324). -/
def State.decodeFault (s : State) (part port : Nat) (i : Instr) (f : TaskFault) (d : Dec) : State :=
  let p := s.port part port
  { (s.addTask (newTask part port p i .faulted (some f) d)) with freeLists := d.lists }.setPort part port
    { p with stopDecode := true, denied := none }

/-- Count a stall cycle, once in a cycle (16 Table 119). -/
def State.countStall (s : State) (part k off : Nat) : State :=
  if s.winMark.getD (4 * part + k) 0 = s.cycle + 1 then s
  else
    { (s.setCreg (.part part) off (s.creg (.part part) off + 1)) with
      winMark := s.winMark.put 0 (4 * part + k) (s.cycle + 1) }

/-- A TKLD of the port has not completed, be it faulted (16 R338). -/
def State.loadPending (s : State) (part port : Nat) : Bool :=
  (s.portTasks part port).any fun e => match e.2.ins with | .tkld _ => e.2.st != .completed | _ => false
/-- The port's tenant is valid, and of its partition: it runs for no other (17 R343). -/
def State.portTenant (s : State) (part port : Nat) : Bool :=
  let t := (s.port part port).tenant
  s.tenantValid t && s.tenantPart t = part
/-- The port decodes; a CANCEL of its job stops that at once (16 R320, R330). -/
def State.decodes (s : State) (part port : Nat) : Bool :=
  let p := s.port part port
  p.state = .run && s.portTenant part port && !p.stopDecode && !s.loadPending part port && !s.jobCancelled.contains p.job
def State.windowFull (s : State) (part : Nat) : Bool := fld (s.creg (.part part) 0x8000) 0 9 ≤ s.entriesUsed part
/-- The partition's window has decoded a task in this cycle. -/
def State.hasDecoded (s : State) (part : Nat) : Bool := s.winMark.getD (4 * part) 0 = s.cycle + 1

/-- A decode fault of the task at a port, where a task decodes: one in a cycle, and none while the window is full
(16 R319, R320). `d`: what the decode has taken; `n`: bytes of the stream that it has read. -/
def State.badTask (s : State) (part port : Nat) (i : Instr) (f : TaskFault) (d : Dec) (n : Nat) : State :=
  let p := s.port part port
  if !s.decodes part port || s.hasDecoded part then s
  else if s.windowFull part then s.countStall part 1 0x8008
  else (s.winTouch p.tenant (vaOf p.spec.tpc) n true).decodeFault part port i f d

/-- The decode of a TASK word at the port of the cursor. `late`: the task issues; otherwise it completes at decode. -/
def taskWord (i : Instr) (bs : List BindW) (first : Nat) (late : Bool) (f : Nat → Port → Dec → DecRes)
    (post : State → Port → State × Port) (s : State) : Out :=
  match s.cur.bind fun c => c.port with
  | none => .next s
  | some (part, port) =>
    let p := s.port part port
    let addr := p.spec.tpc
    let d0 := s.decStart p
    let d1 : Dec := { d0 with ctx := { p.spec with tpc := (addr + 16 * (1 + bs.length)) % 2 ^ 57 } }
    let n := 16 * (1 + bs.length)
    if !s.decodes part port || s.hasDecoded part then .next s
    else
      let bad : Option TaskFault := match i.staticCheck with
        | some sub => some (taskFault 0x01 sub.toNat 0xF (BitVec.ofNat 64 addr))
        | none => bindFault first (addr + 16) bs
      match bad with
      | some e => finish (s.badTask part port i e d0 n)
      | none =>
        match f part p d1 with
        | .error (.fault e d) => finish (s.badTask part port i e d n)
        | .error (.empty c) =>
          -- blocked by the list alone, or by the list and the limit, which counts for neither
          if s.windowFull part then .next s
          else if s.entriesUsed part = 0 then finish (s.badTask part port i (taskFault 0x05 c 0xF 0) d0 n)
          else .next (s.countStall part 2 0x8010)
        | .ok d =>
          if s.windowFull part then .next (s.countStall part 1 0x8008)
          else
            let st : TaskState := if late then .waiting else .completed
            let s0 := s.winTouch p.tenant (vaOf addr) n true
            let s1 := { (s0.addTask (newTask part port p i st none d)) with freeLists := d.lists }
            let (s2, p2) := post s1 { p with spec := d.ctx }
            finish (s2.setPort part port p2)

def noPost (s : State) (p : Port) : State × Port := (s, p)
def setK (d : Dec) (n : BitVec 6) (x : W64) : Dec := { d with ctx := { d.ctx with k := d.ctx.k.put 0 (n.toNat % 32) x } }
/-- The immediate, sign-extended. -/
def taskImm (w : TaskW) : W64 := w.imm.signExtend 64

/-! ### Tasks that act at decode -/

def execTnop (w : TaskW) : State → Out := taskWord (.tnop w) [] 0 false (fun _ _ d => .ok d) noPost

/-- The smallest class whose buffers hold a size (16 R332). -/
def classFor (size : Nat) : Nat := ((List.range 17).find? fun c => size ≤ 2 ^ (16 + c)).getD 16

/-- TBIND, 16 R332. -/
def execTbind (w : TaskW) : State → Out :=
  taskWord (.tbind w) [] 0 false (fun part p d =>
    let size := (kOf p.spec.k w.ka).toNat
    if size = 0 || 2 ^ 32 < size then .error (.fault (taskFault 0x02 0 0xF (BitVec.ofNat 64 size)) d)
    else d.take part w.ta.toNat (classFor size)
      { handle := 0, cls := 0, size := size, fmt := w.fmt.toNat, shape := kOf p.spec.k w.kb }) noPost

/-- TFREE, 16 R332. -/
def execTfree (w : TaskW) : State → Out :=
  taskWord (.tfree w) [] 0 false (fun _ _ d =>
    match d.ctx.bufs.find? w.ta.toNat with
    | none => .error (.fault (taskFault 0x03 0 0xF (w.ta.setWidth 64)) d)
    | some b =>
      .ok { d with olds := d.olds ++ [(b.cls, b.handle)]
                   ctx := { d.ctx with bufs := d.ctx.bufs.del w.ta.toNat } }) noPost

/-- TKMOV, TKADD and TKBR, 16 R338. -/
def execTkmov (w : TaskW) : State → Out :=
  taskWord (.tkmov w) [] 0 false (fun _ p d =>
    .ok (setK d w.ka (if w.sub = 1 then kOf p.spec.k w.kb else taskImm w))) noPost
def execTkadd (w : TaskW) : State → Out :=
  taskWord (.tkadd w) [] 0 false (fun _ p d =>
    .ok (setK d w.ka (kOf p.spec.k w.kb + (if w.sub = 1 then kOf p.spec.k w.kc else taskImm w)))) noPost
/-- The comparison of TKBR. -/
def tkCond (c : Nat) (a b : W64) : Bool :=
  match c with
  | 0 => a == b
  | 1 => a != b
  | 2 => a.slt b
  | 3 => !(a.slt b)
  | 4 => a.ult b
  | _ => !(a.ult b)
def execTkbr (w : TaskW) : State → Out :=
  taskWord (.tkbr w) [] 0 false (fun _ p d =>
    if tkCond w.sub.toNat (kOf p.spec.k w.ka) (kOf p.spec.k w.kb) then
      .ok { d with ctx := { d.ctx with tpc := (BitVec.ofNat 57 p.spec.tpc + (w.imm.signExtend 57) * 16).toNat } }
    else .ok d) noPost

/-- TPHASE: the tasks decoded after it belong to the next phase (16 R339). -/
def execTphase (w : TaskW) : State → Out :=
  taskWord (.tphase w) [] 0 false
    (fun _ _ d => .ok { d with ctx := { d.ctx with phase := (d.ctx.phase + 1) % 2 ^ 32 } })
    (fun s p => ({ s with nextPhase := s.nextPhase + 1 }, { p with phaseId := s.nextPhase }))
/-- TEND stops decoding for the port (16 R339). -/
def execTend (w : TaskW) : State → Out :=
  taskWord (.tend w) [] 0 false (fun _ _ d => .ok d) (fun s p => (s, { p with stopDecode := true }))

/-! ### The decode of the tasks that issue -/

def lateTask (i : Instr) (bs : List BindW) (first : Nat) (f : Nat → Port → Dec → DecRes) : State → Out :=
  taskWord i bs first true f noPost
def execTlaunch (w : TaskW) (bs : List BindW) : State → Out :=
  lateTask (.tlaunch w bs) bs 0 fun part p d => Dec.bindings part p.spec.k 0 0 bs d
/-- TDRAW binds its bin region as binding 0, RW whole and resident (16 R334). -/
def execTdraw (w : TaskW) (bs : List BindW) : State → Out :=
  lateTask (.tdraw w bs) bs 1 fun part p d =>
    match d.region part 0 2 w.ta.toNat none true with
    | .error e => .error e
    | .ok d1 => Dec.bindings part p.spec.k 1 0 bs d1

/-- A destination region, renamed with .OVW (16 R335). -/
def Dec.dest (d : Dec) (part t : Nat) (ovw : Bool) (off len : Nat) : DecRes :=
  d.region part 0xF (if ovw then 3 else 1) t (some (off, len)) false
def execTcopy (w : TaskW) : State → Out :=
  lateTask (.tcopy w) [] 0 fun part p d =>
    let k (n : BitVec 6) : Nat := (kOf p.spec.k n).toNat
    match d.dest part w.ta.toNat (w.sub = 1) (k w.ka) (k w.kc) with
    | .error e => .error e
    | .ok d1 => d1.region part 0xF 0 w.tb.toNat (some (k w.kb, k w.kc)) false
def execTfill (w : TaskW) : State → Out :=
  lateTask (.tfill w) [] 0 fun part p d =>
    d.dest part w.ta.toNat (w.sub = 1) (kOf p.spec.k w.ka).toNat (kOf p.spec.k w.kb).toNat
/-- Element bytes of a collective's format. -/
def collWidth (w : TaskW) : Nat := widthOf w.fmt / 8
/-- A collective renames its destination and reads its source (16 R336, 20 R392). -/
def collTask (i : Instr) (w : TaskW) : State → Out :=
  lateTask i [] 0 fun part p d =>
    match d.region part 0xF 3 w.ta.toNat none false with
    | .error e => .error e
    | .ok d1 => d1.region part 0xF 0 w.tb.toNat (some (0, (kOf p.spec.k w.ka).toNat * collWidth w)) false
def execTallred (w : TaskW) : State → Out := collTask (.tallred w) w
def execTallgat (w : TaskW) : State → Out := collTask (.tallgat w) w
def execTrdscat (w : TaskW) : State → Out := collTask (.trdscat w) w
def execTpresent (w : TaskW) : State → Out :=
  lateTask (.tpresent w) [] 0 fun part _ d => d.region part 0xF 0 w.ta.toNat none false
def plainTask (i : Instr) : State → Out := lateTask i [] 0 fun _ _ d => .ok d
def execTwait (w : TaskW) : State → Out := plainTask (.twait w)
def execTsignal (w : TaskW) : State → Out := plainTask (.tsignal w)
def execTfence (w : TaskW) : State → Out := plainTask (.tfence w)
def execTkld (w : TaskW) : State → Out := plainTask (.tkld w)
def execTgroup (w : TaskW) : State → Out := plainTask (.tgroup w)

/-! ### The fetch of a stream word -/

/-- What the window reads at a port's TPC. -/
inductive TaskFetch where
  | ok (i : Instr)
  | bad (sub : BitVec 8)
  | page (va : W64)
  | access (va : W64)
  deriving DecidableEq, Repr

def wordOf (bs : List Byte) : IWord := BitVec.ofNat 128 (leNat bs)
/-- The words at an address of a stream. -/
def State.streamWords (s : State) (tenant addr : Nat) : Nat → WinRes (List IWord)
  | 0 => .ok []
  | n + 1 =>
    match s.winRead tenant (vaOf addr) 16 with
    | .page v => .page v
    | .access _ => .access (vaOf addr)
    | .ok bs =>
      match s.streamWords tenant (addr + 16) n with
      | .ok ws => .ok (wordOf bs :: ws)
      | r => r
/-- Binding words that follow a task word. -/
def taskBindings (w : IWord) : Nat :=
  let nb := (w.extractLsb' 64 4).toNat
  if (opOf w = 0x03 || opOf w = 0x09) && nb ≤ 8 then nb else 0

/-- Read and decode the task at a port's TPC (16 R313, R316, R331). -/
def State.taskFetch (s : State) (part port : Nat) : TaskFetch :=
  let p := s.port part port
  match s.streamWords p.tenant p.spec.tpc 1 with
  | .page v => .page v
  | .access v => .access v
  | .ok [] => .bad 0x02
  | .ok (w :: _) =>
    if clsOf w != 0xC then .bad 0x01
    else if opOf w = 0xFF then .bad 0x0A
    else match s.streamWords p.tenant ((p.spec.tpc + 16) % 2 ^ 57) (taskBindings w) with
      | .page v => .page v
      | .access v => .access v
      | .ok ws =>
        match decodeTask w (ws.map BindW.unpack) with
        | some i => .ok i
        | none => .bad 0x02

/-- A port waits for a page of its stream (14 R413). -/
def State.portPage (s : State) (part port : Nat) (va : W64) : State :=
  { s with faults := s.faults ++ [{ part := part, tenant := (s.port part port).tenant, kind := 0, va := va
                                    who := .decode part port, report := va, held := none }] }
/-- The page that a port's stream waits for is looked for no more: the port decodes elsewhere, or no more (16 R327, R329). -/
def State.dropDecode (s : State) (part port : Nat) : State :=
  { s with faults := s.faults.filter fun f => !(f.who = FaultWho.decode part port) }
def State.portHeld (s : State) (part port : Nat) : Bool := s.faults.any fun f => f.who = FaultWho.decode part port

end Sys2Proof.Machine
end

