-- ==== Sys2Proof/Machine/Fabric.lean ====
section
/-! DEFINITION. The fabric's shared operations: process groups, the sender of the scale-out transport (20 R407 to R409),
and the Pacer: notices, members, ceilings, joining and leaving (20 R397 to R404). -/

namespace Sys2Proof.Machine

def State.now (s : State) : Nat := s.fabtime.toNat
/-- An error that the error-handling firmware core is told of: what it is, and which one (14 R296, 20 R388, R401); while
ERRH restarts the report waits (18 R360, R363; log 15). -/
def State.report (s : State) (what which : Nat) : State :=
  if s.fwUp 3 then { s with errReports := s.errReports ++ [(what, which)] }
  else { s with errWait := s.errWait ++ [(what, which)] }
/-- The reports that have waited for ERRH. -/
def State.waitedReports (s : State) : State :=
  if s.fwUp 3 then { s with errReports := s.errReports ++ s.errWait, errWait := [] } else s
/-- Kinds of error reports that are not a granule's. -/
def rptPeer : Nat := 0x10000
def rptLate : Nat := 0x10001
def rptTime : Nat := 0x10002

/-! ### Scale-out ports (20 R405 to R408) -/

def ethOff (p k : Nat) : Nat := 0x320000 + 0x100 * p + k
def State.ethEn (s : State) (p : Nat) : Bool := (s.creg .hub (ethOff p 0)).getLsbD 0
/-- Add to a counter of a port. -/
def State.ethCount (s : State) (p k n : Nat) : State :=
  s.setCreg .hub (ethOff p k) (s.creg .hub (ethOff p k) + BitVec.ofNat 64 n)
/-- The first word of entry i of the route table. -/
def State.routeWord (s : State) (i : Nat) : W64 := s.creg .hub (0x330000 + 32 * i)
/-- The entry that routes to a fabric address: the lowest-numbered valid one that names it (20 R407). -/
def State.routeEntry (s : State) (a : Nat) : Option Nat :=
  (List.range 4096).find? fun i => fld (s.routeWord i) 0 16 = a && fld (s.routeWord i) 16 1 = 1
/-- The ports that the route to a fabric address allows, ascending; none: it is unreachable (20 R407). -/
def State.routePorts (s : State) (a : Nat) : List Nat :=
  match s.routeEntry a with
  | some i => (List.range 4).filter fun p => bitsOf (fld (s.routeWord i) 17 4) p 1 = 1
  | none => []

/-! ### Packets as they are sent (20 R408) -/

/-- CRC-32C of some bytes. -/
def crc32c (bs : List Byte) : W32 :=
  let bit (c : W32) : W32 := if c.getLsbD 0 then (c >>> 1) ^^^ 0x82F63B78 else c >>> 1
  ~~~(bs.foldl (fun c b => (List.range 8).foldl (fun c _ => bit c) (c ^^^ b.setWidth 32)) 0xFFFFFFFF)
/-- The transport header, 20 Table 161. -/
def headerBytes (kind : Nat) (h : PktHdr) (n : Nat) : List Byte :=
  leBytes 1 1 ++ leBytes 1 kind ++ leBytes 1 (b2n h.ce) ++ leBytes 1 h.vc ++ leBytes 2 h.src ++ leBytes 2 h.dst
    ++ leBytes 4 h.psn ++ leBytes 2 n ++ leBytes 10 0
/-- The UDP payload: header, payload, and their CRC-32C. -/
def datagramOf (kind : Nat) (h : PktHdr) (payload : List Byte) : List Byte :=
  let b := headerBytes kind h payload.length ++ payload
  b ++ leBytes 4 (crc32c b).toNat
/-- The UDP source port of a connection. -/
def udpSource (src dst vc : Nat) : Nat := 0xC000 + ((src ^^^ dst) * 4 + vc) % 0x4000
/-- The one's-complement sum of 16-bit words, in network order. -/
def onesSum : List Nat → Nat
  | a :: b :: rest => let x := 256 * a + b + onesSum rest; x % 65536 + x / 65536
  | [a] => 256 * a
  | [] => 0
/-- A number as n bytes in network order. -/
def netBytes (n x : Nat) : List Nat := ((leBytes n x).map BitVec.toNat).reverse
/-- The UDP checksum over IPv6, with its pseudo-header; a sum of 0 is sent as all ones. -/
def udpSum6 (srcIp dstIp srcPort dstPort : Nat) (dg : List Byte) : Nat :=
  let len := 8 + dg.length
  let sum := onesSum (netBytes 16 srcIp ++ netBytes 16 dstIp ++ netBytes 4 len ++ netBytes 4 17
    ++ netBytes 2 srcPort ++ netBytes 2 dstPort ++ netBytes 2 len ++ [0, 0] ++ dg.map BitVec.toNat)
  if 0xFFFF - sum = 0 then 0xFFFF else 0xFFFF - sum

/-! ### The sender of the transport (20 R409) -/

/-- A connection with a remote package on a virtual channel. -/
def connKey (remote vc : Nat) : Nat := 4 * remote + vc
def connZero : Conn :=
  { expect := 0, held := [], sinceAck := 0, ce := false, ackAt := none, nackAt := none, nextPsn := 0, unacked := []
    queue := [], resend := false, window := 256, port := 0, timeouts := 0, progress := 0, dead := false }
def State.conn (s : State) (k : Nat) : Conn := s.conns.getD k connZero
def State.setConn (s : State) (k : Nat) (c : Conn) : State := { s with conns := s.conns.set k c }
/-- A connection as it starts, on the lowest port that its route allows. -/
def State.newConn (s : State) (remote : Nat) : Conn :=
  { connZero with port := (s.routePorts remote).headD 0, progress := s.now }
/-- Both ends of the connections with a package start again: it has become a member, or its route entry is written. What
waits unsent is numbered anew. -/
def State.startConns (s : State) (remote : Nat) : State :=
  (List.range 4).foldl (fun s vc =>
    let k := connKey remote vc
    let q := (s.conn k).queue
    let q' := (List.range q.length).filterMap fun i => (q[i]?).map fun p => { p with psn := i }
    { s.setConn k { s.newConn remote with queue := q', nextPsn := q'.length } with collBuf := s.collBuf.del k }) s

/-- The 802.1Q priority of a packet by its type: PRIC for NOTICE and TIME, else PRID (20 Table 159). -/
def State.ethPrio (s : State) (p kind : Nat) : Nat := fld (s.creg .hub (ethOff p 0)) (if 3 ≤ kind then 19 else 16) 3
/-- A priority of a port is paused. -/
def State.paused (s : State) (p prio : Nat) : Bool := (s.pfcPause.find? (8 * p + prio)).isSome
/-- A port may send a packet of a type now: it is in use, and the priority is not paused (20 R405, R406). -/
def State.maySend (s : State) (port kind : Nat) : Bool := s.ethEn port && !s.paused port (s.ethPrio port kind)
/-- A packet as a port sends it: DATA with ECT(0), the tag where VLANEN asks for it, UDP ports and checksum. The destination's
UDP port is this port's own EUDP.PORT (log 47). -/
def State.packetOf (s : State) (port kind : Nat) (h : PktHdr) (payload : List Byte) : OutPacket :=
  let r (k : Nat) : W64 := s.creg .hub (ethOff port k)
  let e (k : Nat) : W64 := match s.routeEntry h.dst with | some i => s.creg .hub (0x330000 + 32 * i + k) | none => 0
  let v6 := (r 0).getLsbD 2
  let ip (lo hi : W64) : Nat := if v6 then lo.toNat + 2 ^ 64 * hi.toNat else fld lo 0 32
  let dg := datagramOf kind h payload
  let sp := udpSource h.src h.dst h.vc
  let dp := fld (r 0x20) 0 16
  { port := port, srcMac := fld (r 8) 0 48, dstMac := fld (e 0) 32 32 + 2 ^ 32 * fld (e 8) 0 16
    tag := if (r 0).getLsbD 3 then some (s.ethPrio port kind, fld (r 0) 4 12) else none
    ipv6 := v6, srcIp := ip (r 0x10) (r 0x18), dstIp := ip (e 0x10) (e 0x18), ttl := 64, df := true
    ecn := if kind = 0 then 2 else 0, srcPort := sp, dstPort := dp
    udpSum := if v6 then udpSum6 (ip (r 0x10) (r 0x18)) (ip (e 0x10) (e 0x18)) sp dp dg else 0, datagram := dg }
/-- One packet leaves a port. -/
def State.emit (s : State) (port kind : Nat) (h : PktHdr) (payload : List Byte) : State :=
  { s with sent := s.sent ++ [Sent.packet (s.packetOf port kind h payload)] }.ethCount port 0x30 1

/-- The bytes of a notice, 20 Table 155. -/
def noticeBytes (n : Notice) : List Byte :=
  leBytes 8 n.group ++ leBytes 2 n.sender ++ leBytes 1 n.kind ++ leBytes 1 0 ++ leBytes 2 n.limit ++ leBytes 2 0
    ++ leBytes 8 n.seq ++ leBytes 8 n.sent ++ leBytes 8 n.eff
    ++ (if n.kind = 4 then leBytes 8 (n.snap.getD 0 0) ++ leBytes 8 (n.snap.getD 1 0) ++ leBytes 8 0 else leBytes 24 0)
/-- The type of a sequenced packet: DATA, or NOTICE where it holds one. -/
def Packet.kind (p : Packet) : Nat := if p.notice.isSome then 3 else 0
/-- Send a sequenced packet. -/
def State.emitSeq (s : State) (remote vc : Nat) (c : Conn) (p : Packet) : State :=
  s.emit c.port p.kind { vc := vc, src := s.pkg, dst := remote, psn := p.psn, ce := false }
    (match p.notice with | some n => noticeBytes n | none => p.payload)
/-- Send what the window and a pause allow of the packets that wait. -/
def State.pump (s : State) (remote vc : Nat) : Nat → State
  | 0 => s
  | f + 1 =>
    let c := s.conn (connKey remote vc)
    match c.queue with
    | [] => s
    | p :: rest =>
      if c.dead || c.window ≤ c.unacked.length || !s.maySend c.port p.kind then s
      else
        let c' := { c with queue := rest, unacked := c.unacked ++ [p]
                           progress := if c.unacked.isEmpty then s.now else c.progress }
        ((s.setConn (connKey remote vc) c').emitSeq remote vc c p).pump remote vc f
/-- Hand a payload or a notice to a connection; a destination to which no port is allowed, or that is unreachable, loses it
(20 R389, R407). -/
def State.sendSeq (s : State) (remote vc : Nat) (payload : List Byte) (n : Option Notice) : State :=
  let k := connKey remote vc
  let c0 := (s.conns.find? k).getD (s.newConn remote)
  if s.routePorts remote = [] || c0.dead then s
  else
    let c := { c0 with queue := c0.queue ++ [{ psn := c0.nextPsn, payload := payload, notice := n }]
                       nextPsn := (c0.nextPsn + 1) % 2 ^ 32 }
    (s.setConn k c).pump remote vc c.queue.length
/-- Bytes of payload that a packet of a port may hold (20 R408). -/
def State.maxPayload (s : State) (p : Nat) : Nat :=
  let c := s.creg .hub (ethOff p 0)
  fld c 22 14 - (if c.getLsbD 2 then 40 else 20) - 36
/-- Send a payload as DATA packets. -/
def State.sendPieces (s : State) (remote vc n : Nat) (bs : List Byte) : Nat → State
  | 0 => s
  | f + 1 =>
    if bs.isEmpty then s else (s.sendSeq remote vc (bs.take n) none).sendPieces remote vc n (bs.drop n) f
def State.sendData (s : State) (remote vc : Nat) (bs : List Byte) : State :=
  s.sendPieces remote vc (s.maxPayload ((s.routePorts remote).headD 0)) bs bs.length
/-- A TIME packet to a package, on virtual channel 3: this package's time (20 R409, R410; log 5). -/
def State.sendTime (s : State) (remote : Nat) : State :=
  let p := (s.conns.find? (connKey remote 3)).getD (s.newConn remote)
  if s.routePorts remote = [] || !s.maySend p.port 4 then s
  else s.emit p.port 4 { vc := 3, src := s.pkg, dst := remote, psn := 0, ce := false } (leBytes 8 s.now)

/-! ### Groups that the package's ports bind -/

/-- The groups that ports of the package bind or are about to bind, each with the port and its table (20 R391, R399). -/
def State.portGroups (s : State) : List (Nat × PortGroup) :=
  s.ports.filterMap (fun e => e.2.spec.group.map fun g => (e.1, g))
    ++ s.tasks.filterMap (fun e => match e.2.pend, e.2.st with
        | some g, .issued => some (portKey e.2.part e.2.port, g)
        | _, _ => none)
def State.boundPorts (s : State) (group : Nat) : List Nat := (s.portGroups.filter fun e => e.2.group = group).map (·.1)
def State.boundGroups (s : State) : List Nat := (s.portGroups.map fun e => e.2.group).eraseDups
/-- The table of a group as a port of the package binds it. -/
def State.groupTable (s : State) (group : Nat) : Option PortGroup :=
  (s.portGroups.find? fun e => e.2.group = group).map (·.2)
/-- A port of the package has bound a group. -/
def State.bindsGroup (s : State) (group : Nat) : Bool :=
  s.ports.any fun e => match e.2.spec.group with | some g => g.group = group | none => false

/-! ### Members and ceilings (20 R399, R400, R404) -/

/-- A member's limit at a time: of the notice with the largest sequence number among those in effect. -/
def PacerMember.limitAt (m : PacerMember) (t : Nat) : Option Nat :=
  (m.limits.foldl (fun (a : Option LimitAt) l =>
    if l.eff ≤ t then (match a with | some b => if b.seq < l.seq then some l else a | none => some l) else a) none).map
      (·.limit)
def PacerMember.isMember (m : PacerMember) (t : Nat) : Bool :=
  m.spans.any fun x => x.1 ≤ t && match x.2 with | some l => t < l | none => true
/-- It has not sent LEAVE since its last JOIN. -/
def PacerMember.stays (m : PacerMember) : Bool := m.spans.any fun x => x.2.isNone
/-- It sends JOIN, or LEAVE, with an effective time. -/
def PacerMember.join (m : PacerMember) (t : Nat) : PacerMember :=
  if m.stays then m else { m with spans := m.spans ++ [(t, none)] }
def PacerMember.leave (m : PacerMember) (t : Nat) : PacerMember :=
  { m with spans := m.spans.map fun x => (x.1, some (x.2.getD t)) }
/-- The minimum of some limits in MHz, 2,500 at most. -/
def minLimit (xs : List Nat) : Nat := xs.foldl min 2500
def PacerGroup.ceiling (g : PacerGroup) (t : Nat) : Nat :=
  minLimit ((g.members.filterMap fun e => if e.2.isMember t then e.2.limitAt t else none)
    ++ (g.ghosts.filter fun l => t < l.eff).map (·.limit))
/-- A package is a member of a group at a time. -/
def PacerGroup.holds (g : PacerGroup) (pkg t : Nat) : Bool :=
  match g.members.find? pkg with | some m => m.isMember t | none => false
/-- The package's own limit at a time, where it binds no group. -/
def State.ownAt (s : State) (t : Nat) : Nat :=
  (s.ownLimits.foldl (fun (a : Nat × Nat) l => if l.eff ≤ t && a.1 ≤ l.seq then (l.seq, l.limit) else a) (0, 2500)).2
/-- CLKCEIL.CEIL at a time: the least ceiling of the groups that the package has bound or is a member of then; without one its
own limit (20 R400). -/
def State.ceilingAt (s : State) (t : Nat) : Nat :=
  match s.pacer.filter fun e => e.2.holds s.pkg t || s.bindsGroup e.1 with
  | [] => s.ownAt t
  | gs => minLimit (gs.map fun e => e.2.ceiling t)
/-- Times after t at which the ceiling may change, ascending. -/
def State.changeTimes (s : State) (t : Nat) : List Nat :=
  let own := s.ownLimits.map (·.eff)
  let grp := s.pacer.vals.flatMap fun g =>
    g.ghosts.map (·.eff) ++ g.members.vals.flatMap fun m =>
      (m.spans.flatMap fun x => x.1 :: x.2.toList) ++ m.limits.map (·.eff)
  sortNat ((own ++ grp).filter fun x => t < x)
/-- The next scheduled change: its time and the ceiling it applies. -/
def State.nextChange (s : State) : Option (Nat × Nat) :=
  ((s.changeTimes s.now).map fun t => (t, s.ceilingAt t)).find? fun c => c.2 != s.ceilingAt s.now
/-- CEIL and NEXT as the members' limits give them now. -/
def State.setCeiling (s : State) : State :=
  let c := s.ceilingAt s.now
  { s with ceil := c, ceilNext := match s.nextChange with | some x => x.2 | none => c }

/-- Limits that can still decide: those not yet in effect, and the last in effect. -/
def pruneLimits (t : Nat) (ls : List LimitAt) : List LimitAt :=
  let cur := ls.foldl (fun (a : Nat) l => if l.eff ≤ t then max a l.seq else a) 0
  ls.filter fun l => cur ≤ l.seq

/-! ### Sending notices (20 R398, R399) -/

def leadTime : Nat := 50000
/-- The notice of this package for a group, sent now. -/
def State.notice (s : State) (group kind limit : Nat) : Notice :=
  { group := group, sender := s.pkg, kind := kind, limit := limit, seq := s.pacerSeq + 1, sent := s.now
    eff := s.now + leadTime, snap := [] }
/-- Other packages of a group's table, with the scale-out mark. -/
def State.otherPackages (s : State) (g : PortGroup) : List (Nat × Bool) :=
  ((g.faddrs.zip g.so).filter fun e => e.1 != s.pkg).eraseDups
/-- Send a notice to a package: over a scale-out port where the table marks it, a snapshot's record before it as DATA;
else over a Timin link (20 R398, R410; log 18). -/
def State.carryNotice (s : State) (n : Notice) (dst : Nat × Bool) : State :=
  let record := n.snap.drop 2
  if dst.2 then (s.sendData dst.1 3 (record.flatMap (leBytes 8))).sendSeq dst.1 3 [] (some n)
  else s.fabricSend 3 dst.1 (64 + 8 * record.length) (.noticeTo dst.1 n)
/-- Send a notice to the packages of a group's table (20 R398). -/
def State.sendNotice (s : State) (g : PortGroup) (n : Notice) : State :=
  (s.otherPackages g).foldl (fun s e => s.carryNotice n e) { s with pacerSeq := n.seq }

/-- This package's entry of a group takes a limit. -/
def State.addOwnLimit (s : State) (group : Nat) (l : LimitAt) : State :=
  { s with pacer := s.pacer.upd group fun g =>
      { g with members := g.members.upd s.pkg fun m => { m with limits := pruneLimits s.now (m.limits ++ [l]) } } }

/-- POWER sends a LIMIT to every group that the package binds; without one it takes effect with the same lead time
(20 R400, 18 R359). -/
def State.sendLimit (s : State) (limit : Nat) : State :=
  let l : LimitAt := { seq := s.pacerSeq + 1, eff := s.now + leadTime, limit := limit }
  let s0 := { s with ownLimit := limit, ownLimits := pruneLimits s.now (s.ownLimits ++ [l]), pacerSeq := s.pacerSeq + 1 }
  s0.boundGroups.foldl (fun s gid =>
    match s.groupTable gid with
    | some g =>
      let n := s.notice gid 0 limit
      (s.addOwnLimit gid { seq := n.seq, eff := n.eff, limit := limit }).sendNotice g n
    | none => s) s0

/-! ### Joining and leaving (20 R402, R403) -/

/-- The package's own entry of a group. -/
def State.ownMember (s : State) (group : Nat) : Option PacerMember :=
  (s.pacer.find? group).bind fun g => g.members.find? s.pkg
/-- The package is, or has asked to be, a member of a group. -/
def State.inGroup (s : State) (group : Nat) : Bool := match s.ownMember group with | some m => m.stays | none => false
/-- A port of the package waits for a snapshot of a group. -/
def State.wantsSnapshot (s : State) (group : Nat) : Bool :=
  s.tasks.any fun e => e.2.stage = 1 && e.2.st = .issued && (e.2.pend.any fun h => h.group = group)
/-- When the package is a member of a group that it has joined: at once, or at its JOIN's time. -/
def State.memberFrom (s : State) (group : Nat) : Nat :=
  match s.ownMember group with
  | some m => m.spans.foldl (fun a x => if x.2.isNone then max a x.1 else a) s.now
  | none => s.now
def memberZero : PacerMember := { lastSeq := 0, slast := 0, limits := [], spans := [(0, none)] }
def groupZero (timeout : Nat) : PacerGroup := { members := [], gone := [], timeout := timeout, ghosts := [] }
/-- Send JOIN for a group and become a member at its effective time; a membership that is ending lasts until its LEAVE's. -/
def State.joinGroup (s : State) (g : PortGroup) : State :=
  let n := s.notice g.group 2 s.ownLimit
  let m := (s.ownMember g.group).getD { memberZero with spans := [] }
  let me : PacerMember :=
    { m.join n.eff with
      limits := pruneLimits s.now (m.limits ++ [{ seq := n.seq, eff := n.eff, limit := s.ownLimit }]), lastSeq := n.seq, slast := s.now }
  let pg := (s.pacer.find? g.group).getD (groupZero g.timeout)
  ({ s with pacer := s.pacer.set g.group { pg with members := pg.members.set s.pkg me, gone := pg.gone.del s.pkg } }.sendNotice
    g n).setCeiling
/-- POWER sends LEAVE, and the package stops being a member at its effective time. -/
def State.sendLeave (s : State) (g : PortGroup) : State :=
  let n := s.notice g.group 3 0
  ({ s with pacer := s.pacer.upd g.group fun pg =>
      { pg with members := pg.members.upd s.pkg fun m => m.leave n.eff } }.sendNotice g n).setCeiling
/-- Leave a group; the LEAVE waits while POWER restarts (18 R363). -/
def State.leaveGroup (s : State) (g : PortGroup) : State :=
  if s.fwUp 4 then s.sendLeave g else { s with fwWait := s.fwWait ++ [.leave g] }
/-- A port binds its group no more, and what it has received of it is dropped; with the last such port the package leaves
(20 R393, R403). -/
def State.unbindPort (s : State) (part port : Nat) : State :=
  let p := s.port part port
  match p.spec.group with
  | none => s
  | some g =>
    let s1 := s.setPort part port { p with spec := { p.spec with group := none }, arch := { p.arch with group := none }
                                           dropped := false }
    let last := s1.boundPorts g.group = []
    let s2 := { s1 with
      collIn := s1.collIn.filter fun m => m.1 / 2 ^ 32 != portKey part port
      groupMail := s1.groupMail.filter fun x => !(x.group = g.group && (last || x.rank = g.rank)) }
    if last then s2.leaveGroup g else s2

/-! ### Collective messages (20 R393, R396) -/

def collKey (part port n : Nat) : Nat := portKey part port * 2 ^ 32 + n
/-- A rank's message for collective n of a port arrives. -/
def State.collPut (s : State) (part port n rank : Nat) (m : CollMsg) : State :=
  let k := collKey part port n
  { s with collIn := s.collIn.put [] k ((s.collIn.getD k []).set rank m) }
/-- The ports of this package that hold a rank of a group. -/
def State.localRanks (s : State) (group : Nat) : List (Nat × Nat) :=
  s.ports.filterMap fun e => match e.2.spec.group with
    | some h => if h.group = group then some (e.1, h.rank) else none
    | none => none
/-- Every rank of this package has bound a group. -/
def State.allBound (s : State) (group : Nat) : Bool :=
  match s.groupTable group with
  | some g => (g.faddrs.filter (· = s.pkg)).length ≤ (s.localRanks group).length
  | none => false
/-- A message of a group's rank reaches this package: the ports that have bound the group take it, and it is kept for ranks
that bind it later (20 R393). -/
def State.collDeliver (s : State) (x : GroupMsg) : State :=
  let s1 := (s.localRanks x.group).foldl (fun s e => s.collPut (e.1 / 4) (e.1 % 4) x.n x.rank x.msg) s
  if s1.allBound x.group then s1
  else { s1 with groupMail := (s1.groupMail.filter fun y => !(y.group = x.group && y.rank = x.rank && y.n = x.n)) ++ [x] }
/-- A port that binds a group takes what has come for it before. -/
def State.takeMessages (s : State) (part port group : Nat) : State :=
  (s.groupMail.filter fun x => x.group = group).foldl (fun s x => s.collPut part port x.n x.rank x.msg) s
/-- The bytes in which a message travels over the scale-out ports: their number, then the header and the elements (log 47). -/
def collBytes (x : GroupMsg) : List Byte :=
  let m := x.msg
  leBytes 4 (36 + 9 * m.payload.length) ++ leBytes 8 x.group ++ leBytes 4 x.rank ++ leBytes 4 x.n ++ leBytes 2 m.op ++ leBytes 2 m.sub
    ++ leBytes 2 m.fmt ++ leBytes 2 (b2n m.abort) ++ leBytes 8 m.count
    ++ m.payload.flatMap fun e => leBytes 8 e.bits ++ leBytes 1 (b2n e.bad)
/-- The message at the head of some bytes, which hold it whole. -/
def collOfBytes (b : List Byte) : GroupMsg :=
  let f (o n : Nat) : Nat := leNat ((b.drop o).take n)
  { group := f 4 8, rank := f 12 4, n := f 16 4
    msg := { op := f 20 2, sub := f 22 2, fmt := f 24 2, abort := f 26 2 = 1, count := f 28 8
             payload := (List.range ((f 0 4 - 36) / 9)).map fun i => { bits := f (36 + 9 * i) 8, bad := f (44 + 9 * i) 1 = 1 } } }
/-- Send collective message n of a port's rank to every rank: this package's take it, others by the fabric (20 R410). -/
def State.sendColl (s : State) (part port : Nat) (g : PortGroup) (n : Nat) (m : CollMsg) : State :=
  let x : GroupMsg := { group := g.group, rank := g.rank, n := n, msg := m }
  let bs := collBytes x
  (s.otherPackages g).foldl (fun s e =>
    if e.2 then s.sendData e.1 2 bs else s.fabricSend 2 e.1 bs.length (.coll e.1 part port n m)) (s.collDeliver x)
/-- The message waits while FABRIC restarts (18 R360, R363). -/
def State.collSend (s : State) (part port : Nat) (g : PortGroup) (n : Nat) (m : CollMsg) : State :=
  if s.fwUp 7 then s.sendColl part port g n m else { s with fwWait := s.fwWait ++ [.coll part port g n m] }
/-- ABORT for the next collective of a port that stops, the first that it has not issued (20 R396). -/
def State.sendAbort (s : State) (part port : Nat) : State :=
  let p := s.port part port
  match p.spec.group with
  | none => s
  | some g => s.collSend part port g p.coll { op := 0, sub := 0, fmt := 0, count := 0, abort := true, payload := [] }
/-- What has waited for POWER or FABRIC and can go on, in order. -/
def State.waitedRequests (s : State) : State :=
  let go (s : State) : FwReq → State
    | .leave g => if s.fwUp 4 then s.sendLeave g else { s with fwWait := s.fwWait ++ [.leave g] }
    | .coll part port g n m =>
      if s.fwUp 7 then s.sendColl part port g n m else { s with fwWait := s.fwWait ++ [.coll part port g n m] }
  s.fwWait.foldl go { s with fwWait := [] }

end Sys2Proof.Machine
end

