-- ==== Sys2Proof/Machine/Task.lean ====
section
/-! DEFINITION. The issue of tasks: readiness (16 R322, R323), issue checks (16 R324, R333), launches, copies, collectives,
presents, waits, signals, fences, loads and group binding (16 R333 to R338; 17 R355, R356; 20 R391, R392). -/

namespace Sys2Proof.Machine

/-! ### Readiness -/

def Region.lo (r : Region) : Nat := r.off / 256 * 256
def Region.hi (r : Region) : Nat := roundUp (r.off + r.len) 256
/-- Two regions conflict: one handle, a shared byte, and not both reads (16 R322). -/
def Region.conflicts (a b : Region) : Bool :=
  a.handle = b.handle && a.lo < a.hi && b.lo < b.hi && a.lo < b.hi && b.lo < a.hi && !(a.mode = 0 && b.mode = 0)

/-- The task flags and SUB of a task. -/
def earlyOf : Instr → Bool
  | .tlaunch w _ => w.early = 1
  | .tdraw w _ => w.early = 1
  | .tcopy w => w.early = 1
  | .tfill w => w.early = 1
  | .tallred w => w.early = 1
  | .tallgat w => w.early = 1
  | .trdscat w => w.early = 1
  | _ => false
/-- The task can leave an effect that renaming cannot undo (16 R323). -/
def WinTask.serial (t : WinTask) : Bool :=
  let inPlace := t.regs.any fun r => r.mode = 1 || r.mode = 2
  match t.ins with
  | .tlaunch w _ => w.outs = 1 || inPlace
  | .tdraw w _ => w.outs = 1 || inPlace
  | .tcopy w => w.sub = 0
  | .tfill w => w.sub = 0
  | .tallred _ => true
  | .tallgat _ => true
  | .trdscat _ => true
  | .tsignal _ => true
  | .tpresent _ => true
  | .tgroup _ => true
  | _ => false
/-- Younger tasks wait for it to complete (16 R322, R337, R338). -/
def orders : Instr → Bool
  | .twait _ => true
  | .tfence _ => true
  | .tkld _ => true
  | _ => false
/-- It issues when every older task has completed (16 R337, R338). -/
def waitsForOlder : Instr → Bool
  | .tfence _ => true
  | .tkld _ => true
  | _ => false

def State.taskHeld (s : State) (part id : Nat) : Bool := s.faults.any fun f => f.who = FaultWho.task part id
/-- What a task waits for besides older tasks: the firmware core that carries it out (18 R363), and for TSIGNAL, a release at
.SYS, the writes that are on their way to peers (16 R337, 20 R389). -/
def State.taskServed (s : State) : Instr → Bool
  | .tsignal _ => !s.peerQueued
  | .tgroup _ => s.fwUp 4
  | .tallred _ | .tallgat _ | .trdscat _ => s.fwUp 7
  | _ => true
/-- A task is ready to issue (16 R322); a halting port runs its decoded tasks to retire (16 R330). -/
def State.taskReady (s : State) (part id : Nat) : Bool :=
  match s.tasks.find? id with
  | none => false
  | some t =>
    let p := s.port t.part t.port
    let older := (s.portTasks t.part t.port).filter fun e => e.1 < id
    let pend := older.filter fun e => e.2.st != .completed
    t.part = part && t.st = .waiting && !s.taskHeld part id && (p.state = .run || p.state = .halting)
    && s.portTenant t.part t.port && s.taskServed t.ins && !s.jobCancelled.contains p.job
    && !(older.any fun e => e.2.st = .faulted)
    && !(pend.any fun e => orders e.2.ins)
    && (!(waitsForOlder t.ins || (t.serial && !earlyOf t.ins)) || pend.isEmpty)
    && !(pend.any fun e => e.2.regs.any fun a => t.regs.any fun b => a.conflicts b)

/-- A task faults: it takes the state FAULTED (16 R324). -/
def State.failTask (s : State) (id : Nat) (f : TaskFault) : State :=
  s.updTask id fun t => { t with st := .faulted, fault := some (t.fault.getD f) }
def State.failWith (s : State) (id cause : Nat) (detail : W64) : State := s.failTask id (taskFault cause 0 0xF detail)
/-- A task completes without fault. -/
def State.doneTask (s : State) (id : Nat) : State := (s.updTask id fun t => { t with st := .completed }).clearResident id
/-- A task waits for a page (14 R413). -/
def State.taskPage (s : State) (id : Nat) (va : W64) (kind : Nat) : State :=
  match s.tasks.find? id with
  | none => s
  | some t =>
    { s with faults := s.faults ++ [{ part := t.part, tenant := (s.port t.part t.port).tenant, kind := kind, va := va
                                      who := .task t.part id, report := va, held := none }] }
/-- Go on with what the window read, or wait, or fault with ACCESS. -/
def State.onWin {α : Type} (s : State) (id kind : Nat) (r : WinRes α) (f : α → State) : State :=
  match r with
  | .ok x => f x
  | .page va => s.taskPage id va kind
  | .access va => s.failWith id 0x03 va

/-! ### Launch records (16 Table 120, R333) -/

structure LaunchRec where
  entry : Nat
  codemap : W64
  trapbase : W64
  plan : Nat
  spawnAddr : Nat
  spawns : Nat
  base : Nat
  ext : Nat
  scr : Nat
  gangs : Nat
  lanes : Nat
  clus : Nat
  flags : Nat
  est : Nat
  tw : Nat
  th : Nat
  deriving DecidableEq, Repr

def parseRec (bs : List Byte) : LaunchRec :=
  let f (o n : Nat) : Nat := leNat ((bs.drop o).take n)
  { entry := f 0x00 8, codemap := BitVec.ofNat 64 (f 0x08 8), trapbase := BitVec.ofNat 64 (f 0x10 8), plan := f 0x18 8
    spawnAddr := f 0x20 8, spawns := f 0x28 4, base := f 0x2C 2, ext := f 0x2E 2, scr := f 0x30 4, gangs := f 0x34 1
    lanes := f 0x35 1, clus := f 0x36 1, flags := f 0x37 1, est := f 0x38 8, tw := f 0x40 1, th := f 0x41 1 }

/-- The first field outside its range in 03 R76, then the first reserved byte that holds a bit. -/
def recRange (r : LaunchRec) (bs : List Byte) : Option Nat :=
  let bad : List (Bool × Nat) :=
    [(32 < r.spawns, 0x28), (r.base < 8 || 256 < r.base || r.base % 8 != 0, 0x2C),
     (256 - r.base < r.ext || r.ext % 8 != 0, 0x2E), (262144 < r.scr || r.scr % 256 != 0, 0x30),
     (r.gangs < 1 || 16 < r.gangs, 0x34), (r.lanes < 1 || 32 < r.lanes, 0x35), (r.clus < 1 || 8 < r.clus, 0x36),
     (8 ≤ r.flags, 0x37)]
  match bad.find? (·.1) with
  | some b => some b.2
  | none => ((List.range 0x3E).map (0x42 + ·)).find? fun o => bs.getD o 0 != 0

/-- Workgroups of a record that an empty partition can hold at once (16 R333, 05 R111, 12 R258). -/
def State.wgCapacity (s : State) (part : Nat) (r : LaunchRec) (reserve tw th : Nat) : Nat :=
  let perPart := if r.gangs = 16 then (if 16 * r.base ≤ 1024 then 1 else 0)
    else min (15 / r.gangs) ((1024 - reserve) / (r.gangs * r.base))
  let perCore := min (4 * perPart) (min (if r.scr = 0 then 64 else 262144 / r.scr)
    (if tw * th = 0 then 64 else 16384 / (tw * th)))
  let clusters := (s.partClusters part).length
  if r.clus ≤ 1 then clusters * 8 * perCore else clusters * (8 * perCore / r.clus) * r.clus

/-- The spawn table of a record: 16 bytes an entry. -/
def parseSpawns (bs : List Byte) (n : Nat) : List SpawnEntry :=
  (List.range n).map fun i =>
    let f (o k : Nat) : Nat := leNat ((bs.drop (16 * i + o)).take k)
    { addr := f 0 8, base := f 8 2, ext := f 10 2 }

/-- BOUNDS with a value of TDETAIL. -/
def boundsFault (d : Nat) : Option TaskFault := some (taskFault 0x02 0 0xF (BitVec.ofNat 64 d))
/-- The checks of R333 on the record and the count, in their order: those before the BARG launch's, and those after it.
`draw`: a raster launch's tile size (16 R334). -/
def recFault (r : LaunchRec) (bs : List Byte) (count : Nat) : Option TaskFault :=
  match recRange r bs with
  | some o => boundsFault o
  | none => if count % r.clus != 0 then boundsFault count else none
def recFaultLate (r : LaunchRec) (draw : Option Nat) : Option TaskFault :=
  let tile := bitsOf r.flags 2 1 = 1
  let size (x : Nat) : Bool := 1 ≤ x && x ≤ 8
  if r.gangs = 16 && r.spawns != 0 then boundsFault 0x28
  else if (tile && !(size r.tw && size r.th)) || (!tile && (r.tw != 0 || r.th != 0)) then boundsFault 0x40
  else match draw with
    | some k => if tile && r.tw = k && r.th = k then none else boundsFault 0x40
    | none => none

/-- s-registers of a launch from its bindings and arguments, 16 Table 121. -/
def launchSregs (regs : List Region) (args : List W64) : SMap W64 :=
  let m1 := (List.range regs.length).foldl (fun (m : SMap W64) i =>
    match regs[i]? with
    | some r =>
      ((m.put 0 (32 + i) r.shape).put 0 (48 + 2 * i) (BitVec.ofNat 64 (r.handle + r.off))).put 0 (49 + 2 * i)
        (BitVec.ofNat 64 (r.len % 2 ^ 40 + r.fmt * 2 ^ 40 + r.mode * 2 ^ 44))
    | none => m) []
  (List.range args.length).foldl (fun (m : SMap W64) j => m.put 0 (40 + j) (args.getD j 0)) m1

/-- Class, first argument register and bindings of a launching task. -/
def launchArgs (t : WinTask) : List W64 :=
  match t.ins with
  | .tlaunch w _ => (List.range 8).map fun j => t.kin.getD (w.kc.toNat + j) 0
  | _ => (List.range 8).map fun j => t.kin.getD (24 + j) 0
def launchClass (t : WinTask) : Nat :=
  match t.ins with
  | .tlaunch w _ => w.pri.toNat
  | .tdraw w _ => w.pri.toNat
  | _ => 0

/-- A new launch of a task, with its LAUNCHID. -/
def State.newLaunch (s : State) (id : Nat) (t : WinTask) (r : LaunchRec) (sp : List SpawnEntry) (count : Nat) : State :=
  let p := s.port t.part t.port
  let lid := s.nextLaunch.toNat
  let (rank, gsize) := match p.spec.group with | some g => (g.rank, g.size) | none => (0, 1)
  let L : Launch :=
    { part := t.part, port := t.port, task := id, tenant := p.tenant, cls := launchClass t, count := count
      entry := r.entry, codemap := r.codemap, trapbase := r.trapbase, slotPlan := r.plan, spawns := sp, base := r.base
      ext := r.ext, scrLen := r.scr, gangs := r.gangs, lanes := r.lanes, clus := r.clus, restart := bitsOf r.flags 0 1 = 1
      barg := bitsOf r.flags 1 1 = 1, tile := bitsOf r.flags 2 1 = 1, est := r.est, tileW := 8 * r.tw, tileH := 8 * r.th
      sregs := launchSregs t.regs (launchArgs t), waiting := List.range count, live := count, launchCnt := counterZero
      graphCnt := counterZero, graphLive := count, phase := t.phaseId, job := p.job, cancelled := false
      graphCancelled := false, grid := [], report := none, poison := [], rank := rank, gsize := gsize }
  { s with launches := s.launches.set lid L, nextLaunch := s.nextLaunch + 1 }.updTask id fun t =>
    { t with st := .issued, issued := true, lids := t.lids ++ [lid] }

/-- Read and check a record, then make the launch; a count of 0 completes the task, or that stage of it, at once. The spawn
table, which only the check of a BARG launch needs, is read for that check or after the others. -/
def State.issueLaunch (s : State) (id : Nat) (t : WinTask) (rec_ : W64) (count : Nat) (draw : Option Nat)
    (zero : State → State) : State :=
  let ten := (s.port t.part t.port).tenant
  if rec_.toNat % 64 != 0 then s.failWith id 0x04 rec_
  else match s.winRead ten rec_ 128 with
    | .page va => s.taskPage id va 0
    | .access _ => s.failWith id 0x03 rec_
    | .ok bs =>
      let r := parseRec bs
      let s1 := s.winTouch ten rec_ 128
      let table (f : State → List SpawnEntry → State) : State :=
        match s1.winRead ten (vaOf r.spawnAddr) (16 * r.spawns) with
        | .page va => s.taskPage id va 0
        | .access _ => s1.failWith id 0x03 rec_
        | .ok tb => f (s1.winTouch ten (vaOf r.spawnAddr) (16 * r.spawns)) (parseSpawns tb r.spawns)
      let go (s : State) (sp : List SpawnEntry) : State := if count = 0 then zero s else s.newLaunch id t r sp count
      match recFault r bs count, recFaultLate r draw with
      | some f, _ => s1.failTask id f
      | none, late =>
        if bitsOf r.flags 1 1 = 1 then
          table fun s sp =>
            if s.wgCapacity t.part r (spawnBase sp) (8 * r.tw) (8 * r.th) < count then s.failWith id 0x02 (BitVec.ofNat 64 count)
            else match late with
              | some f => s.failTask id f
              | none => go s sp
        else match late with
          | some f => s1.failTask id f
          | none => table go

/-- TX, TY and TSZ + 1 of a draw (16 R334, 10 Table 85). -/
def drawTiles (x : W64) : Nat × Nat := (fld x 0 8 * fld x 8 8, fld x 16 3 + 1)

/-! ### Copies and fills (16 R335) -/

/-- A command of a task on the first copy engine of its partition. -/
def taskCmd (s : State) (id : Nat) (t : WinTask) (op : Nat) (src dst : W64) (n : Nat) (pat : W32) : EngCmd :=
  { id := 0, gang := 0, wg := 0, tenant := (s.port t.part t.port).tenant, launch := 0, core := 0, op := op, srcSp := 0
    dstSp := 0, src := src, dst := dst, n := n, rows := 1, spitch := 0, dpitch := 0, idxAddr := 0, idxSp := 0
    idx64 := false, esz := 1, pattern := pat, key := 0, ctr := 0, chan := 0, tagAddr := 0, sig := none, sv := 0, fst := 0
    acq := false, rel := false, scope := 0, rt := none, moved := 0, elem := none, pc := 0, fault := none, faultAt := 0
    task := some (t.part, id), counts := none }
/-- Place a task's command, where the partition has a cluster whose engine has room; otherwise the task waits. -/
def State.placeCmd (s : State) (id : Nat) (k : EngCmd) (part : Nat) : State :=
  match (s.partClusters part).find? fun c => (s.engine c).length < 64 with
  | none => s
  | some c =>
    { (s.setEngine c (s.engine c ++ [{ k with id := s.engNext }])) with engNext := s.engNext + 1 }.updTask id fun t =>
      { t with st := .issued, issued := true, cmds := t.cmds ++ [(c, s.engNext)] }
def regionAt (t : WinTask) (i : Nat) : W64 :=
  match t.regs[i]? with | some r => vaOf (r.handle + r.off) | none => 0

/-! ### Presents (17 R355, R356) -/

/-- Byte offset of the first field of a descriptor that is outside its range. -/
def presentFault (bs : List Byte) : Option Nat :=
  let f (o n : Nat) : Nat := leNat ((bs.drop o).take n)
  let wd := f 0 2
  let ht := f 2 2
  let pitch := f 4 4
  let fmt := f 8 8 % 8
  let esz := if fmt = 2 then 8 else 4
  let dw := f 10 2
  let dh := f 12 2
  let ring := f 0x18 8 % 2 ^ 57
  let rsize := f 0x20 4
  let bad : List (Bool × Nat) :=
    [(wd < 128 || 7680 < wd || wd % 8 != 0, 0x00), (ht < 128 || 4320 < ht, 0x02),
     (pitch < wd * esz || pitch % 256 != 0, 0x04), (2 < fmt, 0x08),
     (4 * dw < wd || 4 * wd < dw || 7680 < dw, 0x0A), (4 * dh < ht || 4 * ht < dh || 4320 < dh, 0x0C),
     (ring % 256 != 0, 0x18), (rsize < 65536 || rsize % 256 != 0, 0x20), (f 0x30 16 != 0, 0x30)]
  (bad.find? (·.1)).map (·.2)
def surfaceBytes (bs : List Byte) : Nat := leNat ((bs.drop 4).take 4) * leNat ((bs.drop 2).take 2)

def headZero : DispHead := { pending := none, waiting := [], latched := none }
def encZero : Encoder := { queue := [], wpos := 0, rpos := 0, bits := none }
/-- The head and the encoder of a partition (17 Table 128). -/
def State.headOf (s : State) (part : Nat) : Option Nat :=
  let c := s.creg (.part part) 0
  if s.hasHeads && c.getLsbD 59 then some (fld c 56 3) else none
def State.encOf (s : State) (part : Nat) : Option Nat :=
  let c := s.creg (.part part) 0
  if s.hasHeads && c.getLsbD 63 then some (fld c 60 3) else none
/-- RING and RSIZE of a present descriptor (17 Table 129). -/
def ringOf (desc : List Byte) : Nat × Nat := (leNat ((desc.drop 0x18).take 8) % 2 ^ 57, leNat ((desc.drop 0x20).take 4))
/-- A frame as the ring holds it: an 8-byte length, then the bitstream. -/
def frameBytes (bits : List Byte) : List Byte := leBytes 8 bits.length ++ bits
/-- The ring has room; it never fills up whole, so that equal positions mean an empty ring (log 17). -/
def Encoder.room (e : Encoder) (size n : Nat) : Bool := n < size - (e.wpos + size - e.rpos % size) % size
/-- The encoder waits for a page of its ring. -/
def State.encHeld (s : State) (enc : Nat) : Bool := s.faults.any fun f => f.who = FaultWho.encoder enc
/-- Append a frame, wrapping at RSIZE. Where the ring has no room, or misses a page, the bitstream waits (14 R413); a ring
that is denied loses it (log 17). -/
def State.appendFrame (s : State) (enc : Nat) (p : Present) (bits : List Byte) : State :=
  let (base, size) := ringOf p.desc
  let e := s.encs.getD enc encZero
  let fb := frameBytes bits
  let put (e : Encoder) (s : State) : State := { s with encs := s.encs.set enc e }
  let wait : State := put { e with bits := some (p, bits) } s
  if s.encHeld enc || !e.room size fb.length then wait
  else
    let n := min fb.length (size - e.wpos)
    let a := vaOf (base + e.wpos)
    match s.winMay p.tenant a n, s.winMay p.tenant (vaOf base) (fb.length - n) with
    | .ok _, .ok _ =>
      put { e with wpos := (e.wpos + fb.length) % size, bits := none }
        ((s.winWrite p.tenant a (fb.take n)).winWrite p.tenant (vaOf base) (fb.drop n))
    | .page va, _ | .ok _, .page va =>
      { wait with faults := wait.faults ++ [{ part := p.part, tenant := p.tenant, kind := 1, va := va, who := .encoder enc
                                              report := va, held := none }] }
    | _, _ => put { e with bits := none } s
/-- The bitstream that an encoder has waiting is appended now, if it can be. -/
def State.appendWaiting (s : State) (enc : Nat) : State :=
  match (s.encs.getD enc encZero).bits with
  | some (p, bits) => s.appendFrame enc p bits
  | none => s
/-- Hand a surface to a head: it becomes the pending frame, or waits for that place. -/
def DispHead.give (h : DispHead) (p : Present) : DispHead :=
  if h.pending.isNone then { h with pending := some p } else { h with waiting := h.waiting ++ [p] }

def State.issuePresent (s : State) (id : Nat) (t : WinTask) (w : TaskW) : State :=
  let ten := (s.port t.part t.port).tenant
  let head := w.sub.getLsbD 0
  let enc := w.sub.getLsbD 1
  s.onWin id 0 (s.winRead ten (kOf t.kin w.ka) 64) fun bs =>
    let s := s.winTouch ten (kOf t.kin w.ka) 64
    let size := match t.regs[0]? with | some r => r.size | none => 0
    match presentFault bs with
    | some o => s.failWith id 0x02 (BitVec.ofNat 64 o)
    | none =>
      if size < surfaceBytes bs then s.failWith id 0x02 (BitVec.ofNat 64 (surfaceBytes bs))
      else if (head && (s.headOf t.part).isNone) || (enc && (s.encOf t.part).isNone) then
        s.failTask id (taskFault 0x0B 0 0xF (clsOpImage t.ins))
      else
        let pr : Present := { part := t.part, task := id, surface := fld (regionAt t 0) 0 57, desc := bs, tenant := ten, frame := 0 }
        let s1 := match head, s.headOf t.part with
          | true, some h => { s with heads := s.heads.set h ((s.heads.getD h headZero).give pr) }
          | _, _ => s
        let s2 := match enc, s1.encOf t.part with
          | true, some e =>
            let x := s1.encs.getD e encZero
            { s1 with encs := s1.encs.set e { x with queue := x.queue ++ [pr] } }
          | _, _ => s1
        s2.updTask id fun t => { t with st := .issued, issued := true, stage := b2n head + 2 * b2n enc }

/-! ### Collectives (20 R392 to R394) -/

/-- Opcode, SUB, FMT and element width of a collective. -/
def collOf : Instr → Option (Nat × TaskW)
  | .tallred w => some (6, w)
  | .tallgat w => some (7, w)
  | .trdscat w => some (8, w)
  | _ => none
/-- Destination bytes that a collective needs, 20 Table 153. -/
def collDest (op g n w : Nat) : Nat := match op with | 6 => n * w | 7 => g * n * w | _ => n / g * w
/-- Elements of a byte string, with their poison. -/
def elements (w : Nat) (bs : List Byte) (bad : List Bool) (n : Nat) : List CollElem :=
  (List.range n).map fun i => { bits := leNat ((bs.drop (w * i)).take w), bad := ((bad.drop (w * i)).take w).any id }

def State.issueColl (s : State) (id : Nat) (t : WinTask) (op : Nat) (w : TaskW) : State :=
  let p := s.port t.part t.port
  match p.spec.group with
  | none => s.failWith id 0x0A 0
  | some g =>
    let n := (kOf t.kin w.ka).toNat
    let eb := collWidth w
    let dst := match t.regs[0]? with | some r => r.size | none => 0
    let src := match t.regs[1]? with | some r => r.size | none => 0
    if p.dropped then s.failWith id 0x0A 0
    else if src < n * eb then s.failWith id 0x02 (BitVec.ofNat 64 (n * eb))
    else if dst < collDest op g.size n eb then s.failWith id 0x02 (BitVec.ofNat 64 (collDest op g.size n eb))
    else if op = 8 && n % g.size != 0 then s.failWith id 0x02 (BitVec.ofNat 64 n)
    else
      let s1 := s.setPort t.part t.port { p with coll := p.coll + 1 }
      if n = 0 then (s1.updTask id fun t => { t with issued := true }).doneTask id
      else
        s.onWin id 0 (s.winRead p.tenant (regionAt t 1) (n * eb)) fun bs =>
          let m : CollMsg := { op := op, sub := w.sub.toNat, fmt := w.fmt.toNat, count := n, abort := false
                               payload := elements eb bs (s.winBad p.tenant (regionAt t 1) (n * eb)) n }
          let s2 := s1.winTouch p.tenant (regionAt t 1) (n * eb)
          ((s2.updTask id fun t => { t with st := .issued, issued := true, coll := p.coll, stage := 1 }).collSend t.part t.port g p.coll m).collPut
            t.part t.port p.coll g.rank m

/-! ### Waits, signals and loads (16 R337, R338) -/

/-- An 8-byte word of the tenant: aligned, and allowed. -/
def State.onWord (s : State) (id : Nat) (t : WinTask) (a : W64) (acc : AccKind) (f : Loc → State) : State :=
  if a.toNat % 8 != 0 then s.failWith id 0x04 a
  else match s.translate 255 (s.port t.part t.port).tenant acc a with
    | .ok l => f l
    | .page => s.taskPage id a (if acc = .write then 1 else 0)
    | .access => s.failWith id 0x03 a
def State.homeNat (s : State) (l : Loc) (n : Nat) : Nat := leNat ((List.range n).map fun i => s.homeByte l.kind (l.addr + i))

/-- The comparison of TWAIT, unsigned. -/
def twaitHolds (cc a b : Nat) : Bool :=
  match cc with
  | 0 => a = b
  | 1 => a != b
  | 2 => b ≤ a
  | _ => a < b
/-- The read of a TWAIT, through a translation made anew (14 R295): the task completes, or sleeps on a monitor, or is parked
and stays so (07 R184). -/
def State.tryWait (s : State) (id : Nat) (t : WinTask) (w : TaskW) : State :=
  let va := kOf t.kin w.ka
  let ten := (s.port t.part t.port).tenant
  s.onWord id t va .read fun l =>
    match l.kind with
    | .peer _ => s.failWith id 0x03 va
    | _ =>
      let s0 := s.touchFor ten 8 l
      if twaitHolds w.sub.toNat (s0.homeNat l 8) (kOf t.kin w.kb).toNat then
        (s0.updTask id fun t => { t with issued := true }).doneTask id
      else
        let (armed, s1) := if t.parked then (false, s0) else s0.arm t.part l (.task t.part id)
        let r : WaitRead := { sp := 0, va := va, loc := l, n := 8, value := (kOf t.kin w.kb).toNat, mask := 2 ^ 64 - 1
                              cc := w.sub.toNat, signed := false, pfx := none }
        s1.updTask id fun t => { t with st := .issued, issued := true, wait := some r, parked := !armed, polls := 0 }

/-- A register write of a TKLD, in the speculative copy (16 R338). -/
def State.loadK (s : State) (id : Nat) (t : WinTask) (n : BitVec 6) (x : W64) : State :=
  let upd (c : PortCtx) : PortCtx := { c with k := c.k.put 0 (n.toNat % 32) x }
  let p := s.port t.part t.port
  (s.setPort t.part t.port { p with spec := upd p.spec }).updTask id fun t => { t with after := upd t.after }

/-! ### TGROUP (20 R390, R391, R402) -/

/-- The first thing wrong with a group table's header: its offset. -/
def headerFault (bs : List Byte) (n : Nat) : Option Nat :=
  let f (o k : Nat) : Nat := leNat ((bs.drop o).take k)
  let bad : List (Bool × Nat) :=
    [(f 0 8 = 0, 0x00), (f 8 4 != n || f 8 4 = 0 || 4096 < f 8 4, 0x08), (f 12 4 < 200 || 100000 < f 12 4, 0x0C),
     (f 16 16 != 0, 0x10)]
  (bad.find? (·.1)).map (·.2)
structure RankEnt where
  faddr : Nat
  part : Nat
  flags : Nat
  next : Nat
  prev : Nat
  rsv : Nat
  start : Nat
  count : Nat
  deriving DecidableEq, Repr
def parseRanks (bs : List Byte) (n : Nat) : List RankEnt :=
  (List.range n).map fun r =>
    let f (o k : Nat) : Nat := leNat ((bs.drop (32 * r + o)).take k)
    { faddr := f 0 2, part := f 2 1, flags := f 3 1, next := f 4 4, prev := f 8 4, rsv := f 12 4, start := f 16 8
      count := f 24 8 }
/-- A reserved bit of an entry, or a ring that does not close at it (20 R391, items 2 and 3). -/
def ranksFault (es : List RankEnt) : Option Nat :=
  let n := es.length
  let rsv := (List.range n).findSome? fun r =>
    match es[r]? with
    | some e => if 2 ≤ e.flags then some (64 + 32 * r + 3) else if e.rsv != 0 then some (64 + 32 * r + 12) else none
    | none => none
  rsv.orElse fun _ => (List.range n).findSome? fun r =>
    match es[r]? with
    | some e =>
      let back := match es[e.prev]? with | some q => q.next | none => n
      if n ≤ e.next || n ≤ e.prev || back != r then some (64 + 32 * r) else none
    | none => none

/-- TGROUP, 20 R391: the table is read whole, its entries as its header counts them (log 18), and then checked. -/
def State.issueGroup (s : State) (id : Nat) (t : WinTask) (w : TaskW) : State :=
  let a := kOf t.kin w.ka
  let n := (kOf t.kin w.kb).toNat
  let ten := (s.port t.part t.port).tenant
  let deny : State := s.failWith id 0x03 a
  if a.toNat % 64 != 0 then s.failWith id 0x04 a
  else match s.winRead ten a 64 with
    | .page va => s.taskPage id va 0
    | .access _ => deny
    | .ok hd =>
      let m := leNat ((hd.drop 8).take 4)
      match s.winRead ten (a + 64) (if 4096 < m then 0 else 32 * m) with
      | .page va => s.taskPage id va 0
      | .access _ => deny
      | .ok eb =>
        let s := s.winTouch ten a (64 + eb.length) true
        match headerFault hd n with
        | some o => s.failWith id 0x02 (BitVec.ofNat 64 o)
        | none =>
          let es := parseRanks eb n
          match ranksFault es, (List.range n).filter fun r =>
              match es[r]? with | some e => e.faddr = s.pkg && e.part = t.part | none => false with
          | some o, _ => s.failWith id 0x02 (BitVec.ofNat 64 o)
          | none, [r] =>
            let so : List Bool := es.map fun e => e.flags % 2 = 1
            if so.contains true && !((List.range 4).any s.ethEn) then s.failWith id 0x0A 0
            else
              (match es[r]?, s.winMay ten (a + 32) 32 with
               | _, .page va => s.taskPage id va 1
               | _, .access _ => deny
               | none, _ => deny
               | some e, .ok _ =>
                 let out := leBytes 4 r ++ leBytes 4 n ++ leBytes 4 e.next ++ leBytes 4 e.prev ++ leBytes 8 e.start
                   ++ leBytes 8 e.count
                 let g : PortGroup :=
                   { group := leNat (hd.take 8), rank := r, size := n, faddrs := es.map (·.faddr), parts := es.map (·.part)
                     prevs := es.map (·.prev), so := so, timeout := 1000 * leNat ((hd.drop 12).take 4) }
                 let s1 := (s.winWrite ten (a + 32) out).unbindPort t.part t.port
                 let (k, s2) := s1.takeFree
                 let fresh := !s2.inGroup g.group
                 let others := (s2.otherPackages g).length
                 let s3 := if fresh then s2.joinGroup g else s2
                 -- a snapshot that another port of the group waits for is waited for here too
                 let waits := s2.wantsSnapshot g.group
                 let need := waits || (fresh && others != 0 && Config.freeBool k)
                 s3.updTask id fun t =>
                   { t with st := .issued, issued := true, pend := some g, stage := if need then 1 else 0
                            joinAt := some (s3.memberFrom g.group) })
          | none, _ => s.failWith id 0x0A 0

/-! ### Issue -/

/-- The first binding that reaches beyond its buffer (16 R324). -/
def WinTask.bindBounds (t : WinTask) : Option TaskFault :=
  let named := match t.ins with | .tlaunch _ _ => true | .tdraw _ _ => true | _ => false
  (List.range t.regs.length).findSome? fun i =>
    match t.regs[i]? with
    | some r =>
      if r.size < r.off + r.len then some (taskFault 0x02 0 (if named then i else 0xF) (BitVec.ofNat 64 (r.off + r.len)))
      else none
    | none => none
/-- An offset or a length of a copy or a fill that is no multiple of 4. -/
def misaligned (t : WinTask) : Option W64 :=
  match t.ins with
  | .tcopy w => [kOf t.kin w.ka, kOf t.kin w.kb, kOf t.kin w.kc].find? fun x => x.toNat % 4 != 0
  | .tfill w => [kOf t.kin w.ka, kOf t.kin w.kb].find? fun x => x.toNat % 4 != 0
  | _ => none

/-- Issue a ready task (16 R324, R325, R330). -/
def State.issueTask (s : State) (part id : Nat) : State :=
  match s.tasks.find? id with
  | none => s
  | some t =>
    if !s.taskReady part id then s
    else
      let s0 := { s with issueLast := s.issueLast.put 3 t.part t.port }
      if s.phaseCancelled.contains t.phaseId then s0.doneTask id
      else match misaligned t, t.bindBounds with
        | some x, _ => s0.failWith id 0x04 x
        | none, some f => s0.failTask id f
        | none, none =>
          match t.ins with
          | .tlaunch w _ =>
            s0.issueLaunch id t (kOf t.kin w.ka) ((kOf t.kin w.kb).toNat % 2 ^ 32) none fun s =>
              (s.updTask id fun t => { t with issued := true }).doneTask id
          | .tdraw w _ =>
            s0.issueLaunch id t (kOf t.kin w.ka) ((kOf t.kin w.kc).toNat % 2 ^ 32) none fun s =>
              s.updTask id fun t => { t with st := .issued, issued := true }
          | .tcopy w => s0.placeCmd id (taskCmd s0 id t 0 (regionAt t 1) (regionAt t 0) (kOf t.kin w.kc).toNat 0) t.part
          | .tfill w => s0.placeCmd id (taskCmd s0 id t 3 0 (regionAt t 0) (kOf t.kin w.kb).toNat w.imm) t.part
          | .tpresent w => s0.issuePresent id t w
          | .twait w => s0.tryWait id t w
          | .tsignal w =>
            s0.onWord id t (kOf t.kin w.ka) .write fun l =>
              ((s0.engWrite (s0.port t.part t.port).tenant l (leBytes 8 (kOf t.kin w.kb).toNat) fun _ => false).updTask id fun t =>
                { t with issued := true }).doneTask id
          | .tfence _ => (s0.updTask id fun t => { t with issued := true }).doneTask id
          | .tkld w =>
            s0.onWord id t (kOf t.kin w.kb + taskImm w) .read fun l =>
              let s1 := (s0.touchFor (s0.port t.part t.port).tenant 8 l).updTask id fun t => { t with issued := true }
              (s1.loadK id t w.ka (BitVec.ofNat 64 (s1.homeNat l 8))).doneTask id
          | .tgroup w => s0.issueGroup id t w
          | i => match collOf i with
            | some (op, w) => s0.issueColl id t op w
            | none => s0

end Sys2Proof.Machine
end

