-- ==== Sys2Proof/Machine/TaskRun.lean ====
section
/-! DEFINITION. The end of tasks: completion (16 R325, R328), collectives (20 R393 to R396), retire, fault and restart
(16 R326 to R330), and the host's control of a window (16 R314, R318, R319; 17 R341). -/

namespace Sys2Proof.Machine

/-! ### Completion -/

/-- Records of a launch's graph that have not become workgroups. -/
def State.spawnLeft (s : State) (lid : Nat) : Bool :=
  s.cparts.any fun e =>
    e.2.bins.any (fun b => b.2.recs.any fun r => r.launch = lid)
    || (List.range (s.ringCount e.1)).any fun k => (s.ringRead e.1 k).launch = lid
/-- Every unit of a launch's graph has ended. -/
def State.launchOver (s : State) (lid : Nat) : Bool :=
  match s.launches.find? lid with
  | none => true
  | some L => L.waiting.isEmpty && L.graphLive = 0 && !s.spawnLeft lid
/-- The first termination that firmware has reported of a task's launches (16 R328). -/
def State.launchReport (s : State) (t : WinTask) : Option TaskFault :=
  t.lids.findSome? fun lid => (s.launches.find? lid).bind fun L => L.report.map fun r =>
    { cause := 0x06, sub := r.cause, bind := 0xF, detail := r.addr, trappc := r.pc }

/-- A poisoned byte that the task's units wrote and its regions hold (16 R325). -/
def State.poisonOf (s : State) (t : WinTask) : Option Nat :=
  let gs := (t.poison ++ t.lids.flatMap fun lid => match s.launches.find? lid with | some L => L.poison | none => []).filter
    s.memPoison.contains
  let ten := (s.port t.part t.port).tenant
  let vas := gs.flatMap fun g => t.regs.filterMap fun r =>
    (List.range 16).findSome? fun i => s.vaOfPa ten (r.handle + r.off) r.len (16 * g + i)
  match vas with
  | [] => none
  | v :: vs => some (vs.foldl min v)
/-- The task's work has ended: it completes, or completes FAULTED with POISON. -/
def State.finishTask (s : State) (id : Nat) : State :=
  match s.tasks.find? id with
  | none => s
  | some t => match s.poisonOf t with
    | some v => (s.failWith id 0x08 (vaOf v)).clearResident id
    | none => s.doneTask id

/-- A value of a reduction, 20 R394. -/
def reduceStep (w : TaskW) (a b : Nat) : Nat :=
  match ffmtOf w.fmt with
  | some _ => match w.sub.toNat with
    | 0 => (addNE a b).1
    | 1 => (fMinMax false false a b).1
    | _ => (fMinMax false true a b).1
  | none =>
    let n := widthOf w.fmt
    match w.sub.toNat with
    | 0 => (a + b) % 2 ^ n
    | k =>
      let less := if signedOf w.fmt then signedNat n a < signedNat n b else a < b
      if less = (k = 1) then a else b
def reduceAll (w : TaskW) (xs : List Nat) : Nat :=
  match ffmtOf w.fmt, xs with
  | _, [] => 0
  | some f, x :: rest =>
    let wide (y : Nat) : Nat := (convF fmtFp32 .rne (decodeF f y)).1
    (convF f .rne (decodeF fmtFp32 (rest.foldl (fun a y => reduceStep w a (wide y)) (wide x)))).1
  | none, x :: rest => rest.foldl (reduceStep w) x
/-- Element i of a reduction of every rank's payload; poison in any rank's element poisons it (14 R297). -/
def reduceAt (w : TaskW) (ms : List CollMsg) (i : Nat) : CollElem :=
  let xs := ms.map fun m => m.payload.getD i { bits := 0, bad := false }
  { bits := reduceAll w (xs.map (·.bits)), bad := xs.any (·.bad) }
/-- What a rank's destination holds (20 Table 153). -/
def collElems (op : Nat) (w : TaskW) (ms : List CollMsg) (rank n : Nat) : List CollElem :=
  match op with
  | 6 => (List.range n).map (reduceAt w ms)
  | 7 => ms.flatMap fun m => m.payload
  | _ => let k := n / ms.length; (List.range k).map fun i => reduceAt w ms (rank * k + i)
/-- Two headers agree (20 R393). -/
def CollMsg.agrees (a b : CollMsg) : Bool := a.op = b.op && a.sub = b.sub && a.fmt = b.fmt && a.count = b.count

/-- A rank whose contribution will not come: it sent ABORT, or its package was dropped or left (20 R395). -/
def State.collSilent (s : State) (g : PortGroup) (ms : SMap CollMsg) : Option Nat :=
  let gone := match s.pacer.find? g.group with | some p => p.gone | none => []
  (List.range g.size).find? fun r =>
    match ms.find? r with
    | some m => m.abort
    | none => gone.contains (g.faddrs.getD r 0)
/-- Poisoned granules among bytes that the window has written for a task are noted for it (16 R325). -/
def State.reportTask (s : State) (id tenant : Nat) (va : W64) (n : Nat) : State :=
  let gs := ((List.range n).filterMap fun i =>
    match s.translate 255 tenant .write (va + BitVec.ofNat 64 i) with
    | .ok l => (match l.kind with | .mem _ => some (l.addr / 16) | _ => none)
    | _ => none).eraseDups.filter s.memPoison.contains
  if gs.isEmpty then s else s.updTask id fun t => { t with poison := t.poison.addAll gs }
/-- A waiting collective: a silent member, a header that differs, or the result. -/
def State.tryColl (s : State) (id : Nat) (t : WinTask) (op : Nat) (w : TaskW) : State :=
  let p := s.port t.part t.port
  if !s.fwUp 7 then s
  else match p.spec.group with
  | none => s.failWith id 0x0A 0
  | some g =>
    let key := collKey t.part t.port t.coll
    let ms := s.collIn.getD key []
    match s.collSilent g ms with
    | some r => s.failWith id 0x09 (BitVec.ofNat 64 r)
    | none =>
      let all := (List.range g.size).filterMap ms.find?
      if all.length < g.size then s
      else
        match all with
        | [] => s
        | m0 :: _ =>
          match (List.range g.size).find? fun r => match all[r]? with | some m => !m0.agrees m | none => false with
          | some r => { s with collIn := s.collIn.del key }.failWith id 0x02 (BitVec.ofNat 64 r)
          | none =>
            let n := (kOf t.kin w.ka).toNat
            let es := collElems op w all g.rank n
            let bs := es.flatMap fun e => leBytes (collWidth w) e.bits
            let bad := es.flatMap fun e => List.replicate (collWidth w) e.bad
            s.onWin id 1 (s.winMay p.tenant (regionAt t 0) bs.length) fun _ =>
              ({ s.winWrite p.tenant (regionAt t 0) bs bad with collIn := s.collIn.del key }.reportTask id p.tenant
                (regionAt t 0) bs.length).finishTask id

/-- A present whose units are done: the completion word receives the frame number of the partition's counter. -/
def State.tryPresent (s : State) (id : Nat) (t : WinTask) (w : TaskW) : State :=
  if t.stage != 0 then s
  else
    let p := s.port t.part t.port
    let n := s.presents.getD t.part 0 + 1
    s.onWin id 0 (s.winRead p.tenant (kOf t.kin w.ka) 64) fun bs =>
      let dw := leNat ((bs.drop 0x28).take 8) % 2 ^ 57
      let s1 := { s with presents := s.presents.put 0 t.part n }
      if dw = 0 then s1.doneTask id
      else s.onWin id 1 (s.winMay p.tenant (vaOf dw) 8) fun _ => (s1.winWrite p.tenant (vaOf dw) (leBytes 8 n)).doneTask id

/-- The group of a TGROUP is bound once the join has taken effect and the snapshot has arrived (20 R391, R402). -/
def State.tryGroup (s : State) (id : Nat) (t : WinTask) : State :=
  match t.pend, t.joinAt with
  | some g, some e =>
    if t.stage = 1 || s.now < e then s
    else
      let p := s.port t.part t.port
      let s1 := s.setPort t.part t.port { p with spec := { p.spec with group := some g }, coll := 0, dropped := false }
      (s1.takeMessages t.part t.port g.group).doneTask id
  | _, _ => s

/-- A task is to be squashed: an older one has faulted, or its job is cancelled (16 R327, R330). -/
def State.toSquash (s : State) (id : Nat) (t : WinTask) : Bool :=
  s.jobCancelled.contains (s.port t.part t.port).job
    || (s.portTasks t.part t.port).any fun e => e.1 < id && e.2.st = .faulted
/-- The raster launch of a draw issues when the geometry launch has completed (16 R334). -/
def State.tryDraw (s : State) (id : Nat) (t : WinTask) (w : TaskW) : State :=
  if !t.lids.all s.launchOver || (t.stage != 1 && s.toSquash id t) then s
  else if t.stage = 1 then s.finishTask id
  else if s.phaseCancelled.contains t.phaseId then s.doneTask id
  else
    let x := kOf t.kin w.kd
    let s1 := s.updTask id fun t => { t with stage := 1 }
    let s2 := s1.issueLaunch id t (kOf t.kin w.kb) (drawTiles x).1 (some (drawTiles x).2) fun s => s.finishTask id
    if s2.taskHeld t.part id then s2.updTask id fun t => { t with stage := 0 } else s2

/-- What an issued task has come to; in a partition in ERROR nothing goes on (18 R370). -/
def State.tryTask (s : State) (part id : Nat) : State :=
  match s.tasks.find? id with
  | none => s
  | some t =>
    if t.part != part || t.st != .issued || s.taskHeld part id || s.partStopped part then s
    else
      match t.ins with
      | .tlaunch _ _ =>
        (match s.launchReport t with
         | some f => (s.failTask id f).clearResident id
         | none => if t.lids.all s.launchOver then s.finishTask id else s)
      | .tdraw w _ =>
        (match s.launchReport t with
         | some f => (s.failTask id f).clearResident id
         | none => s.tryDraw id t w)
      | .tcopy _ | .tfill _ =>
        if !t.cmds.isEmpty then s
        else match t.fault with
          | some f => s.failTask id f
          | none => s.finishTask id
      | .twait w =>
        (match t.wait with
         | none => s
         | some _ =>
           let woken := s.taskWake.contains (id * 16 + part)
           if !woken && !(t.parked && 4096 ≤ t.polls) then s
           else
             let s1 := { s with taskWake := s.taskWake.del (id * 16 + part) }.tryWait id t w
             -- a missing page is waited for, and the read is made again
             if s1.taskHeld part id && woken then { s1 with taskWake := s1.taskWake.add (id * 16 + part) } else s1)
      | .tpresent w => s.tryPresent id t w
      | .tgroup _ => s.tryGroup id t
      | i => match collOf i with
        | some (op, w) => s.tryColl id t op w
        | none => s
/-- TASK_COMPLETE. -/
def execTaskComplete (part id : Nat) (s : State) : Out := finish (s.tryTask part id)

/-- SNAPSHOT_TIMEOUT: a joiner whose snapshot has not arrived by S + TIMEOUT faults and leaves (20 R402). -/
def execSnapshotTimeout (part port : Nat) (s : State) : Out :=
  match (s.portTasks part port).find? fun e =>
      match e.2.ins, e.2.pend, e.2.joinAt with
      | .tgroup _, some g, some t => e.2.st = .issued && e.2.stage = 1 && t - leadTime + g.timeout ≤ s.now
      | _, _, _ => false with
  | none => .next s
  | some (id, t) =>
    match t.pend with
    | some g => .next ((s.failWith id 0x0A 0).leaveGroup g)
    | none => .next s

/-- The collectives of number n that wait at a port are looked at. -/
def State.tryColls (s : State) (part port n : Nat) : State :=
  ((s.portTasks part port).filter fun e => e.2.coll = n && (collOf e.2.ins).isSome).foldl (fun s e => s.tryTask part e.1) s
/-- COLLECTIVE_HEADER_RECEIVE: a rank's message arrives; a task that waits for it goes on (20 R393). -/
def execCollectiveHeaderReceive (part port rank n op sub fmt count : Nat) (abort : Bool) (payload : List CollElem)
    (s : State) : Out :=
  let m : CollMsg := { op := op, sub := sub, fmt := fmt, count := count, abort := abort, payload := payload }
  finish ((s.collPut part port n rank m).tryColls part port n)

/-! ### Retire and stop (16 R326, R327, R330) -/

/-- The signal of a port's event (16 R340). -/
def State.signalPort (s : State) (part port : Nat) : State := s.signal (s.port part port).tenant (1 + port)

/-- Remove an entry, with its launches and its places in monitors. -/
def State.dropTask (s : State) (part id : Nat) : State :=
  match s.tasks.find? id with
  | none => s
  | some t =>
    let gone (x : Sleeper) : Bool := match x with | .task _ i => i = id | _ => false
    { s.clearResident id with
      tasks := s.tasks.del id
      launches := t.lids.foldl (fun m l => m.del l) s.launches
      taskWake := s.taskWake.del (id * 16 + part)
      faults := s.faults.filter fun f => !(f.who = FaultWho.task part id)
      monitors := (s.monitors.map fun m => { m with sleepers := m.sleepers.filter fun x => !gone x }).filter
        fun m => !m.sleepers.isEmpty }

/-- Retire the oldest task of a port, which has completed (16 R326). A TEND ends the stream; its buffers stay bound until
another starts (19 R379; log 67). -/
def State.retireTask (s : State) (part port id : Nat) (t : WinTask) : State :=
  let p := s.port part port
  let grp := match t.ins with | .tgroup _ => p.spec.group | _ => p.arch.group
  let s1 := s.setPort part port { p with arch := { t.after with group := grp }, retired := p.retired + 1 }
  let s2 := t.olds.foldl (fun s h => s.returnHandle part h) (s1.dropTask part id)
  match t.ins with
  | .tend _ =>
    let q := s2.port part port
    let s3 := (s2.setPort part port { q with state := .idle, spec := q.arch, ended := true }).sendAbort part port
    (s3.unbindPort part port).signalPort part port
  | _ => s2

/-- Work of some tasks that still runs. -/
def State.tasksBusy (s : State) (ts : List (Nat × WinTask)) : Bool :=
  ts.any fun e => !e.2.cmds.isEmpty || !e.2.lids.all s.launchOver
/-- Cancel the running launches of some tasks at level 2. -/
def State.cancelTasks (s : State) (ts : List (Nat × WinTask)) : State :=
  ts.foldl (fun s e => e.2.lids.foldl (fun s l => s.cancelLevel l 2) s) s

/-- Squash every entry of a port: presents, handles, and the architectural state becomes the speculative one (16 R327,
steps 1 to 3). Collectives go on with the first number that the port has not issued (20 R396). -/
def State.squash (s : State) (part port : Nat) (ts : List (Nat × WinTask)) : State :=
  let s1 := ts.reverse.foldl (fun s e => e.2.news.foldl (fun s h => s.returnHandle part h) s) s
  let mine (p : Present) : Bool := ts.any fun e => e.1 = p.task
  let s2 := ts.foldl (fun s e => s.dropTask part e.1) s1
  let s3 := { s2 with
    heads := s2.heads.mapVals fun (h : DispHead) =>
      { h with pending := if (h.pending.map mine) = some true then none else h.pending
               waiting := h.waiting.filter fun p => !mine p }
    encs := s2.encs.mapVals fun (e : Encoder) => { e with queue := e.queue.filter fun p => !mine p } }
  let p := s3.port part port
  (s3.dropDecode part port).setPort part port { p with spec := p.arch, stopDecode := true, denied := none }

/-- The oldest task is FAULTED: once the squashed work has ended the port stops (16 R327). -/
def State.faultStop (s : State) (part port : Nat) (ts : List (Nat × WinTask)) (f : TaskFault) : State :=
  let s0 := s.cancelTasks ts
  if s0.tasksBusy ts then s0
  else
    let p := s0.port part port
    let s1 := s0.squash part port ts
    let imp := ts.tail.any fun e => earlyOf e.2.ins && e.2.issued
    let q := s1.port part port
    let s2 := s1.setPort part port
      { q with state := .stoppedFault, cause := f.cause, sub := f.sub, bind := f.bind, imprecise := imp
               tidx := p.retired.toNat % 2 ^ 32, detail := f.detail, trappc := f.trappc }
    (s2.sendAbort part port).signalPort part port
/-- A CANCEL at level 4 (16 R330). -/
def State.cancelStop (s : State) (part port : Nat) (ts : List (Nat × WinTask)) : State :=
  let s0 := (s.cancelTasks ts).setPort part port { s.port part port with stopDecode := true }
  if s0.tasksBusy ts then s0
  else
    let p := s0.port part port
    let s1 := s0.squash part port ts
    let q := s1.port part port
    let s2 := s1.setPort part port
      { q with state := .stoppedCancel, cause := 0x0C, sub := 4, bind := 0xF, imprecise := false
               tidx := p.retired.toNat % 2 ^ 32, detail := 0, trappc := 0 }
    (s2.sendAbort part port).signalPort part port

/-- Retire up to n tasks of a port, or stop it. -/
def State.retirePort (s : State) (part port : Nat) : Nat → State
  | 0 => s
  | n + 1 =>
    let p := s.port part port
    if (p.state != .run && p.state != .halting) || s.partStopped part then s
    else
      let ts := s.portTasks part port
      if s.jobCancelled.contains p.job then s.cancelStop part port ts
      else match ts with
        | [] =>
          if p.state = .halting then
            ((s.dropDecode part port).setPort part port { p with state := .idle, spec := p.arch, denied := none }).sendAbort part port
          else s
        | (id, t) :: _ =>
          match t.st with
          | .completed => (s.retireTask part port id t).retirePort part port n
          | .faulted => s.faultStop part port ts (t.fault.getD (taskFault 0 0 0xF 0))
          | _ => s
/-- TASK_RETIRE. -/
def execTaskRetire (part port : Nat) (s : State) : Out := finish (s.retirePort part port 4)

/-! ### The host (16 R314, R318, R319, R329, R330; 17 R341) -/

/-- HOSTIF runs; a request that needs it waits while it restarts (18 R363). -/
def State.hostif (s : State) : Bool := s.fwUp 0

/-- After a TEND another stream starts: every buffer is unbound, and its handle returns to its list (16 R329; log 67). -/
def State.startStream (s : State) (part port : Nat) : State :=
  let p := s.port part port
  if !p.ended then s
  else (p.arch.bufs.foldl (fun s b => s.returnHandle part (b.2.cls, b.2.handle)) s).setPort part port
    { p with arch := { p.arch with bufs := [] }, ended := false }
/-- TCTL_GO: start or restart decoding, for a valid tenant of the partition. TDETAIL and TTRAPPC return to 0 too (19 R379,
Table 144). -/
def execTctlGo (part port tenant : Nat) (s : State) : Out :=
  let s1 := (s.startStream part port).dropDecode part port
  let p := s1.port part port
  if !s.hostif then .next s.defer
  else if p.state = .run || p.state = .halting || !s.tenantValid tenant || s.tenantPart tenant != part then .next s
  else
    .next ({ s1 with nextPhase := s.nextPhase + 1, nextJob := s.nextJob + 1 }.setPort part port
      { p with state := .run, tenant := tenant, cause := 0, sub := 0, bind := 0xF, imprecise := false, tidx := 0
               detail := 0, trappc := 0, spec := p.arch, stopDecode := false, denied := none
               phaseId := s.nextPhase, job := s.nextJob })
/-- TCTL_HALT: stop decoding, drain the window, then IDLE. -/
def execTctlHalt (part port : Nat) (s : State) : Out :=
  let p := s.port part port
  if !s.hostif then .next s.defer
  else if p.state = .run then .next (s.setPort part port { p with state := .halting }) else .next s

/-- FREEADD, 16 R318. -/
def execFreeadd (part : Nat) (v : W64) (s : State) : Out :=
  let c := fld v 0 5
  let a := fld v 16 41 * 65536
  let hs := s.handles.getD part []
  if !s.hostif then .next s.defer
  else if 4096 ≤ hs.length || 16 < c || fld v 5 11 != 0 then .next s
  else .next ({ s with handles := s.handles.put [] part (hs ++ [(c, a)]) }.returnHandle part (c, a))
/-- WLIMIT, 16 Table 119: a value of 0 stores 1, and one above 256 stores 256. -/
def State.setWlimit (s : State) (part : Nat) (v : W64) : State :=
  let n := fld v 0 9
  s.setCreg (.part part) 0x8000 (BitVec.ofNat 64 (if n = 0 then 1 else if 256 < n then 256 else n))
/-- WLIMIT_WRITE: the write of firmware; one of another party is a REGISTER_WRITE (00 R6). -/
def execWlimitWrite (part : Nat) (v : W64) (s : State) : Out := .next (s.setWlimit part v)

/-- Cancel a phase of a port, by its counter's identity (06 R158, 16 R330). -/
def State.cancelPhase (s : State) (ph : Nat) : State :=
  if s.phaseCancelled.contains ph then s
  else
    let s1 := { s with phaseCancelled := s.phaseCancelled.add ph }
    match (s.launches.filter fun e => e.2.phase = ph).map (·.1) with
    | [] => s1
    | l :: _ => s.cancelLevel l 3
def State.cancelJob (s : State) (job : Nat) : State :=
  if s.jobCancelled.contains job then s
  else
    let s1 := { s with jobCancelled := s.jobCancelled.add job }
    match (s.launches.filter fun e => e.2.job = job).map (·.1) with
    | [] => s1
    | l :: _ => s.cancelLevel l 4
/-- The phase of a port with a number: that being decoded, or that of a task in the window. -/
def State.phaseNamed (s : State) (part port n : Nat) : Option Nat :=
  let p := s.port part port
  if p.spec.phase = n then some p.phaseId
  else ((s.portTasks part port).find? fun e =>
      e.2.after.phase = n && (match e.2.ins with | .tphase _ => false | _ => true)).map fun e => e.2.phaseId
/-- HOST_CANCEL: a launch (levels 1 and 2: a), a phase (3: partition, port, number) or a job (4: partition, port). -/
def execHostCancel (level a b c : Nat) (s : State) : Out :=
  if !s.hostif then .next s.defer
  else match level with
    | 1 => finish (s.cancelLevel a 1)
    | 2 => finish (s.cancelLevel a 2)
    | 3 => (match s.phaseNamed a b c with | some ph => finish (s.cancelPhase ph) | none => .next s)
    | 4 => finish (s.cancelJob (s.port a b).job)
    | _ => .next s

end Sys2Proof.Machine
end

