-- ==== Sys2Proof/Machine/Faults.lean ====
section
/-! DEFINITION. The service of page faults (14 R413), TLB invalidation (14 R295) and ECC errors (14 R296), and the fates of
words that are no instruction (03 R65, R71; 16 R313, R331). -/

namespace Sys2Proof.Machine

/-! ### Page faults -/

/-- MEMMGT runs. -/
def State.memmgt (s : State) : Bool := s.fwUp 2
def accOfKind (k : Nat) : AccKind := if k = 1 then .write else if k = 2 then .fetch else .read

/-- Faults of a partition, oldest first, with their places in the list of all. -/
def State.partFaults (s : State) (part : Nat) : List (Nat × PageFault) :=
  ((List.range s.faults.length).filterMap fun i => (s.faults[i]?).map fun f => (i, f)).filter fun e => e.2.part = part
def State.heldFaults (s : State) (part : Nat) : List (Nat × PageFault) :=
  (s.partFaults part).filter fun e => e.2.held.isSome
/-- A fault leaves the list; its gang is parked no more where no other fault of it is left. -/
def State.dropFault (s : State) (f : PageFault) : State :=
  let rest := s.faults.erase f
  let s1 := { s with faults := rest }
  match f.who with
  | .gang gid _ _ =>
    let still := rest.any fun o => match o.who with | .gang g _ _ => g = gid | _ => false
    s1.updGang gid fun g => { g with parked := still }
  | _ => s1

/-- A walk, which uses no TLB, now finds a leaf that allows the access. -/
def State.walkOk (s : State) (f : PageFault) : Bool :=
  let va := fld f.va 0 57
  match s.walk f.tenant va with
  | .ok (pte, bits) =>
    (match s.leafCheck f.tenant (s.tenantPart f.tenant) (accOfKind f.kind) va pte bits with | .ok _ => true | _ => false)
  | .error _ => false
/-- A fault is replayed: firmware makes its own access again, and another party goes on by itself (14 R413; log 52). -/
def State.replayFault (s : State) (f : PageFault) : State :=
  let s1 := s.dropFault f
  match f.who with
  | .plan wid =>
    (match (s1.wgs.find? wid).bind fun w => s1.launches.find? w.launch with
     | some L => s1.grantPlan wid L.slotPlan
     | none => s1)
  | .shadow q _ => s1.writeShadow q (s1.creg .hub (qreg q 0x28)).toNat false
  | .encoder enc => s1.appendWaiting enc
  | _ => s1

/-- A fault becomes ACCESS for the party that waits for it (05 R133, 12 R268, 16 R313, R324); the other faults of a gang's
word go with it. A QPOP that slept gives its index up, and leaves its destinations empty (01 R18). A slot plan that is
denied is not granted, the write of a queue's head is given up (log 52), and a frame that an encoder has waiting is lost
(log 17). -/
def State.denyFault (s : State) (f : PageFault) : State :=
  let s1 := s.dropFault f
  match f.who with
  | .gang gid lanes pc =>
    match s1.gangs.find? gid with
    | none => s1
    | some g =>
      let ops := g.mops.filter fun o => o.grp &&& lanes != 0
      let pops := g.waits.filter fun x => x.lanes &&& lanes != 0 && match x.kind with | .qpop .. => true | _ => false
      let tenant := f.tenant
      let mine (o : PageFault) : Bool := match o.who with | .gang k _ _ => k = gid | _ => false
      let s2 := State.giveUpIndices { s1 with faults := s1.faults.filter fun o => !mine o } { g with waits := pops } tenant
      (s2.updGang gid fun g =>
        { pops.foldl (fun (g : Gang) x => g.failProducer (x.id - 1)) (ops.foldl (fun (g : Gang) o => g.closeMop o) g) with
          parked := false }).takeTrap gid lanes Cause.access (pcImage pc) f.report
  | .engine cl id =>
    (match (s1.engine cl).find? fun k => k.id = id with
     | none => s1
     | some k =>
       if k.fault.isSome || k.total ≤ k.moved then
         let s2 := (s1.dropRt k).engRetire cl k true
         if k.task.isSome then s2.engTaskDone k (some 1) else s2.engKill k Cause.access f.va
       else s1.updCmd cl id fun k => { k with fault := some 1, faultAt := f.va })
  | .task _ id => s1.failWith id 0x03 f.va
  | .decode part port => s1.setPort part port { s1.port part port with denied := some f.va }
  | .plan _ => s1
  | .shadow _ _ => s1
  | .encoder enc => { s1 with encs := s1.encs.upd enc fun e => { e with bits := none } }

/-- The service of a fault that firmware has not seen: replay, ACCESS, or held for the host. -/
def State.serviceFault (s : State) (f : PageFault) : State :=
  if s.walkOk f then s.replayFault f
  else if fld (s.creg (.part f.part) 0x8070) 0 32 = 0 || 64 ≤ (s.heldFaults f.part).length then s.denyFault f
  else
    { s with faults := s.faults.map fun o => if o = f then { o with held := some s.fabtime } else o }.signal f.tenant 0

/-- PAGE_FAULT_SERVICE: MEMMGT looks at a fault of a partition that is not held. -/
def execPageFaultService (part idx : Nat) (s : State) : Out :=
  if !s.memmgt then .next s
  else match ((s.partFaults part).filter fun e => e.2.held.isNone)[idx]? with
    | some (_, f) => finish (s.serviceFault f)
    | none => .next s

/-- PFHOLD_TIMEOUT: a held fault without an answer within PFHOLD.US microseconds becomes ACCESS. -/
def execPfholdTimeout (part : Nat) (s : State) : Out :=
  let us := fld (s.creg (.part part) 0x8070) 0 32
  if !s.memmgt then .next s
  else match (s.heldFaults part).find? fun e => match e.2.held with | some t => t.toNat + 1000 * us ≤ s.now | none => false with
    | some (_, f) => finish (s.denyFault f)
    | none => .next s

/-- Held faults of a tenant in a 64 KiB range of virtual addresses. -/
def State.rangeFaults (s : State) (part tenant page : Nat) : List PageFault :=
  ((s.heldFaults part).map (·.2)).filter fun f => f.tenant = tenant && fld f.va 16 41 = page
/-- The host reaches MEMMGT's registers through HOSTIF (14 R413). -/
def State.pfresp (s : State) : Bool := s.hostif && s.memmgt
/-- PFRESP_REPLAY: firmware walks again, replays what succeeds, and turns the others into ACCESS. -/
def execPfrespReplay (part tenant page : Nat) (s : State) : Out :=
  if !s.pfresp then .next s.defer
  else finish ((s.rangeFaults part tenant page).foldl (fun s f => if s.walkOk f then s.replayFault f else s.denyFault f) s)
/-- PFRESP_DENY: every held fault of the range becomes ACCESS. -/
def execPfrespDeny (part tenant page : Nat) (s : State) : Out :=
  if !s.pfresp then .next s.defer
  else finish ((s.rangeFaults part tenant page).foldl (fun s f => s.denyFault f) s)

/-! ### TLB invalidation (14 R295) -/

/-- A TLB entry's leaf covers a 64 KiB page of its tenant. -/
def tlbCovers (tenant page : Nat) (e : Nat × TlbEntry) : Bool :=
  e.1 / 2 ^ 41 % 512 = tenant && e.1 % 2 ^ 41 * 65536 / 2 ^ e.2.level = page * 65536 / 2 ^ e.2.level
/-- Buffered stores of a tenant are performed with the mapping under which they were translated. -/
def State.drainTenant (s : State) (tenant : Nat) : State :=
  let s1 := s.wcb.keys.foldl (fun s core =>
    ((s.wcb.getD core []).filter fun b => b.2.tenant = tenant).foldl (fun s b => s.drainLine core b.1) s) s
  s1.cpt.keys.foldl (fun s cl =>
    ((s.cpt.getD cl []).filter fun b => b.2.tenant = tenant).foldl (fun s b => s.drainPoint cl b.1) s) s1
/-- TLB_INVALIDATE: accesses that have passed translation are performed, those on their way to peers first, and no TLB holds
the entry. -/
def execTlbInvalidate (tenant page : Nat) (s : State) : Out :=
  if !s.memmgt || s.peerQueued then .next s.defer
  else
    let s1 := s.drainTenant tenant
    finish { s1 with tlb := s1.tlb.filter fun e => !tlbCovers tenant page e }

/-! ### ECC errors (14 R296, R297) -/

/-- Count an error of a unit: a slice in its registers, another unit beside them. -/
def State.countEcc (s : State) (unit : Nat) (double : Bool) : State :=
  if unit < 384 || (1024 ≤ unit && unit < 1408) then
    let off := if double then 0x118 else 0x110
    s.setCreg (.slice (unit % 1024)) off (s.creg (.slice (unit % 1024)) off + 1)
  else { s with eccCounts := s.eccCounts.put 0 (2 * unit + b2n double) (s.eccCounts.getD (2 * unit + b2n double) 0 + 1) }
/-- The granule of a unit at an address is marked poisoned (units by number, log 68): the data of slice u, 0 to 383, and a
stack, from 4096, by physical address; the scratchpad of core u − 384 (workgroup × 2^18 + offset); vault u − 768 (vault ×
4 MiB + offset); the tags of slice u − 1024, with the whole line at the physical address; the L1 of core u − 1536, with its
copy of a line at the physical address; the register pool of core partition u − 2048 (gang × 2^14 + key). -/
def State.poisonUnit (s : State) (unit addr : Nat) : State :=
  if unit < 384 || 4096 ≤ unit then s.poisonAt (.mem 0) addr
  else if unit < 768 then s.poisonAt (.scr (addr / 2 ^ 18)) (addr % 2 ^ 18)
  else if unit < 1024 then s.poisonAt .vault addr
  else if unit < 1536 then (List.range 8).foldl (fun s i => s.poisonAt (.mem 0) (addr / 128 * 128 + 16 * i)) s
  else if unit < 2048 then { s with l1Bad := s.l1Bad.add (l1Granule (unit - 1536) addr) }
  else s.updGang (addr / 2 ^ 14) fun g => { g with poison := g.poison.add (addr % 2 ^ 14) }
/-- ECC_ERROR: a single-bit error is corrected in place; a double-bit error poisons, and ERRH is told. -/
def execEccError (unit addr : Nat) (double : Bool) (s : State) : Out :=
  let s1 := s.countEcc unit double
  .next (if double then (s1.poisonUnit unit addr).report unit addr else s1)

/-! ### Words that are no instruction -/

/-- ILLEGAL_ENCODING: a gang takes ILLEGAL with the subcode (03 R71), and its group has issued (05 R118; log 23); a stream
port has a decode fault (16 R331). -/
def execIllegalEncoding (sub : BitVec 8) (s : State) : Out :=
  match s.cur with
  | none => .next s
  | some cu =>
    match cu.port with
    | some (part, port) =>
      finish (s.badTask part port (.illegalEncoding sub)
        (taskFault 0x01 sub.toNat 0xF (BitVec.ofNat 64 (s.port part port).spec.tpc)) (s.decStart (s.port part port)) 16)
    | none =>
      match s.gangs.find? cu.gang with
      | none => .next s
      | some g =>
        let m := g.issuing cu false
        let s1 := (s.chargeIssue cu.gang).updGang cu.gang fun g => g.issued m cu.pc false
        finish (s1.takeTrap cu.gang m Cause.illegal (pcImage cu.pc) (sub.setWidth 64))

/-- FETCH_FAULT: the gang takes ACCESS at the line's address (03 R65); a stream port has a decode fault (16 R313). -/
def execFetchFault (addr : W64) (s : State) : Out :=
  match s.cur with
  | none => .next s
  | some cu =>
    match cu.port with
    | some (part, port) =>
      finish (s.badTask part port (.fetchFault addr) (taskFault 0x03 0 0xF addr) (s.decStart (s.port part port)) 0)
    | none =>
      match s.gangs.find? cu.gang with
      | none => .next s
      | some g => finish (s.takeTrap cu.gang (g.issuing cu false) Cause.access (pcImage cu.pc) addr)

end Sys2Proof.Machine
end

