-- ==== Sys2Proof/Machine/Boot.lean ====
section
/-! DEFINITION. Bring-up and the firmware complex: power-up and power-off, BOOTCTL, the image's checks, restarts of firmware
cores, the reset ladder, mailboxes and heartbeats, microcode (18 R360 to R366). -/

namespace Sys2Proof.Machine

/-! ### Power (18 R364) -/

/-- The device after a power-up or a cold reset: everything is lost, requests that wait at firmware too. The part stays, with
the numbering of free values and what the outside world has still to ask. -/
def State.fresh (s : State) : State :=
  { State.reset with part := s.part, freeCtr := s.freeCtr, agenda := s.agenda }
/-- POWER_UP: only the SEC core runs, from its boot ROM. -/
def execPowerUp (s : State) : Out := .next (if s.powered then s else s.fresh)
/-- POWER_OFF: the package loses power, and all firmware and state are lost. -/
def execPowerOff (s : State) : Out := .next { s.fresh with powered := false, fwCores := 0 }
/-- COLD_RESET: level 5 of 18 Table 132; the host downloads the image again. -/
def execColdReset (s : State) : Out := .next (if s.powered then s.fresh else s)

/-! ### The image and its checks (18 R364, Table 133) -/

def imageNat (b : List Byte) (off n : Nat) : Nat := leNat ((b.drop off).take n)
def stagingSize : Nat := 16 * 2 ^ 20
/-- Where the image ends: the end of its last section (log 15). -/
def imageEnd (b : List Byte) : Nat :=
  (List.range 8).foldl (fun m i => max m (imageNat b (0x10 + 16 * i) 8 + imageNat b (0x18 + 16 * i) 8)) 0x200
/-- The first check that an image fails: 1 to 4, 0 where it passes. -/
def imageFault (b : List Byte) : Nat :=
  let e := imageEnd b
  if (b.take 4).map BitVec.toNat != [0x4A, 0x41, 0x4C, 0x31] || stagingSize < e then 1
  else if Config.shake256 ((b.take e).drop 0x200) != (b.drop 0x90).take 64 then 2
  else if Config.shake256 Config.imageKey != Config.fusedKeyHash
      || !Config.ed448Verify Config.imageKey (b.take 0xD0) ((b.drop 0xD0).take 114) then 3
  else if imageNat b 4 4 < Config.fusedMinSecurity then 4
  else 0

/-- The image in the staging window: its header, then its body. -/
def State.staged (s : State) : List Byte :=
  let at_ (n : Nat) : List Byte := (List.range n).map fun i => s.staging.getD i 0
  at_ (min stagingSize (imageEnd (at_ 0x200)))

/-- The section of a core in an image. -/
def imageSection (b : List Byte) (core : Nat) : List Byte :=
  (b.drop (imageNat b (0x10 + 16 * core) 8)).take (imageNat b (0x18 + 16 * core) 8)

/-- BOOTCTL_GO: accepted while CODE is 0x00 or a failure code. -/
def execBootctlGo (s : State) : Out := .next (if s.bootCode ≤ 4 then { s with bootCode := 0x40 } else s)
/-- BOOT_IMAGE_CHECK_DONE: each core gets its section and is released, or CODE holds the first failure. -/
def execBootImageCheckDone (s : State) : Out :=
  if s.bootCode != 0x40 then .next s
  else
    let b := s.staged
    match imageFault b with
    | 0 => .next { s with bootCode := 0x80, fwCores := 0xFF, image := b, secver := imageNat b 4 4, fwver := imageNat b 8 8
                          fwMem := (List.range 8).foldl (fun m i => m.put [] i (imageSection b i)) [] }
    | n => .next { s with bootCode := n }

/-! ### Restarts and heartbeats (18 R362, R363, R365) -/

/-- Requests that waited for a firmware core are made again: SYSCALLs at HOSTIF, terminations and reports at ERRH, and those
of the host, LEAVE at POWER and messages at FABRIC (04 R107, 18 R360, R363). -/
def State.resume (s : State) : State :=
  let calls (g : Gang) : Gang :=
    (g.dropWaits fun w => w.kind = .ticket).freshAge (g.waits.foldl (fun m w => if w.kind = .ticket then m ||| w.lanes else m) 0)
  let s1 := if s.fwUp 0 then { s with gangs := s.gangs.mapVals calls } else s
  { s1 with agenda := s1.agenda ++ s1.deferred, deferred := [] }.waitedTerms.waitedReports.waitedRequests

/-- Writes of firmware cores that stall at a full mailbox go on where an entry has freed, in their order (18 R361). -/
def State.unstall (s : State) : State :=
  let s1 := s.mailStall.foldl (fun (s : State) e =>
    let q := s.mail.getD e.2.1 []
    if q.length < 16 then { s with mail := s.mail.put [] e.2.1 (q ++ [e.2.2]), mailStall := s.mailStall.erase e } else s) s
  if s1.mailStall.length < s.mailStall.length then s1.resume else s1

/-- Firmware cores are held in reset: mailboxes are emptied, sections reloaded, writes that stall are lost; a restart of SEC
ends its SPDM sessions (log 15). -/
def State.restartCores (s : State) (mask : BitVec 8) : State :=
  { s with
    fwCores := s.fwCores &&& ~~~mask
    restarting := s.restarting ||| mask
    mail := s.mail.filter fun e => !mask.getLsbD e.1
    mailStall := s.mailStall.filter fun e => !mask.getLsbD e.1
    fwMem := (List.range 8).foldl (fun m i => if mask.getLsbD i then m.put [] i (imageSection s.image i) else m) s.fwMem
    spdm := if mask.getLsbD 5 then State.reset.spdm else s.spdm }.unstall
/-- BOOTCTL_RESTART: acts only while CODE is 0x80. -/
def execBootctlRestart (mask : BitVec 8) (s : State) : Out := .next (if s.bootCode = 0x80 then s.restartCores mask else s)

/-- FW_HEARTBEAT of a core that runs, or that a restart releases now; one that stalls at a mailbox counts none (log 15). -/
def execFwHeartbeat (core : Nat) (s : State) : Out :=
  if 8 ≤ core || !(s.fwUp core || s.restarting.getLsbD core) then .next s
  else
    let m : BitVec 8 := BitVec.ofNat 8 (2 ^ core)
    let s1 := { s with heart := s.heart.put 0 core (s.heart.getD core 0 + 1)
                       fwCores := s.fwCores ||| m, restarting := s.restarting &&& ~~~m }
    finish (if s.fwUp core then s1 else s1.resume)

/-! ### Mailboxes (18 R361) -/

/-- MAILBOX_WRITE: at a full mailbox a firmware core stalls, and the host's message is discarded and counted. -/
def execMailboxWrite (core sender kind : Nat) (seq : W32) (payload : List Byte) (s : State) : Out :=
  if 8 ≤ core || 8 < sender then .next s
  else
    let q := s.mail.getD core []
    let off := 0x200F08 + 0x1000 * core
    let m : MailMsg := { sender := sender, kind := kind % 65536, seq := seq, payload := payload.take 56 }
    if sender != 8 && !s.fwUp sender then .next s
    else if q.length < 16 then .next { s with mail := s.mail.put [] core (q ++ [m]) }
    else if sender = 8 then .next (s.setCreg .hub off (s.creg .hub off + 1))
    else .next { s with mailStall := s.mailStall ++ [(sender, core, m)] }
/-- A firmware core that runs takes its oldest message, and stalled writes go on. -/
def State.takeMail (s : State) : State :=
  let m : SMap (List MailMsg) := s.mail.map fun e => if s.fwUp e.1 then (e.1, e.2.drop 1) else e
  { s with mail := m.filter fun e => !e.2.isEmpty }.unstall

/-! ### Device interfaces (18 R370) -/

/-- States of a device interface. -/
def tdiUnlocked : Nat := 0
def tdiLocked : Nat := 1
def tdiRun : Nat := 2
def tdiError : Nat := 3
/-- From CONFIG_LOCKED onward, a change is rejected and the interface moves to ERROR. -/
def State.tdiHeld (s : State) (part : Nat) : Bool := s.tdi.getD part 0 != tdiUnlocked
def State.tdiFail (s : State) (part : Nat) : State :=
  if s.tdiHeld part then { s with tdi := s.tdi.set part tdiError } else s

/-! ### Microcode (18 R366, 09 R212) -/

/-- A word of the partition's microcode may be in progress, or stopped with SUSPENDED or CALLBACK. -/
def State.mcodeBusy (s : State) (part : Nat) : Bool :=
  !(s.microcode.getD part []).isEmpty && s.wgs.any fun e => s.tenantPart e.2.tenant = part
/-- MICROCODE_LOAD: SEC checks the image; firmware waits for the words in progress. -/
def execMicrocodeLoad (part : Nat) (decls : List McodeDecl) (image : List Byte) (s : State) : Out :=
  if 8 ≤ part then .next s
  else if !s.fwUp 5 then .next s.defer
  else if s.tdiHeld part then .next (s.tdiFail part)
  else if imageFault image != 0 then .next s
  else if s.mcodeBusy part then .next s.defer
  else
    let ds := decls.filter fun d => 0x40 ≤ d.entry && d.entry ≤ 0xFF
    .next { s with microcode := s.microcode.put [] part ds, mcodeImage := s.mcodeImage.put [] part image }

/-! ### Partition and function-level resets (18 R363) -/

/-- The slices that a partition's home table names. -/
def State.partSlices (s : State) (part : Nat) : List Nat :=
  ((List.range 512).filterMap fun h =>
    let e := s.creg (.part part) (0x4000 + 2 * h)
    if e.getLsbD 15 then some (fld e 0 9) else none).eraseDups
def portReset (p : Port) : Port :=
  { p with state := .idle, cause := 0, sub := 0, bind := 0, imprecise := false, tidx := 0, detail := 0, trappc := 0
           arch := { p.arch with bufs := [] }, spec := { p.arch with bufs := [] }, stopDecode := false, denied := none, ended := false }
/-- Reset one partition: level 3 of Table 132. -/
def State.resetPartition (s : State) (part : Nat) : State :=
  let mine (t : Nat) : Bool := s.tenantPart t = part
  let s1 := (s.wgs.filter fun e => mine e.2.tenant).foldl (fun s e => s.dropWg e.1 false) s
  let cls := s.partClusters part
  let s2 := cls.foldl (fun s c =>
    let s' := (List.range 8).foldl (fun s i => s.drainScope (8 * c + i) 2) s
    { s' with engines := s'.engines.del c, starters := s'.starters.del c
              cparts := s'.cparts.filter fun e => clusterOf e.1 != c }) s1
  let ts := s2.tasks.filter fun e => e.2.part = part
  let pres (p : Present) : Bool := p.part = part
  let s3 := ts.foldl (fun s e => s.dropTask part e.1) s2
  let slices := s.partSlices part
  let s4 := { s3 with
    launches := s3.launches.filter fun e => e.2.part != part
    faults := s3.faults.filter fun f => f.part != part
    l2 := s3.l2.filter fun e => !slices.contains (e.1 / 128)
    freeLists := s3.freeLists.filter fun e => e.1 / 32 != part
    handles := s3.handles.del part
    heldScr := s3.heldScr.filter fun h => match s3.launches.find? h.1 with | some L => L.part != part | none => true
    heads := s3.heads.mapVals fun (h : DispHead) =>
      { h with pending := if (h.pending.map pres) = some true then none else h.pending
               waiting := h.waiting.filter fun p => !pres p }
    encs := s3.encs.mapVals fun (e : Encoder) =>
      { e with queue := e.queue.filter fun p => !pres p
               bits := if (e.bits.map fun (b : Present × List Byte) => pres b.1) = some true then none else e.bits } }
  let s5 := (List.range 4).foldl (fun s q =>
    let p := s.port part q
    let s' := s.setPort part q (portReset p)
    if p.state = .idle then s' else (s'.sendAbort part q)) s4
  let s6 := (List.range 4).foldl (fun s q => s.unbindPort part q) s5
  s6.pruneMonitors.tdiFail part
/-- PARTITION_RESET: its terminations wait for ERRH (18 R360). -/
def execPartitionReset (part : Nat) (s : State) : Out :=
  if 8 ≤ part then .next s else if !s.fwUp 3 then .next s.defer else finish (s.resetPartition part)

/-- Firmware changes a key slot only after every translation that names it is invalidated (18 R372, 14 R295): stores that
have passed translation are performed under the old key. -/
def State.dropSlot (s : State) (slot : Nat) : State :=
  let s1 := s.wcb.keys.foldl (fun s core =>
    ((s.wcb.getD core []).filter fun b => b.2.key = slot).foldl (fun s b => s.drainLine core b.1) s) s
  let s2 := s1.cpt.keys.foldl (fun s cl =>
    ((s.cpt.getD cl []).filter fun b => b.2.key = slot).foldl (fun s b => s.drainPoint cl b.1) s) s1
  { s2 with tlb := s2.tlb.filter fun e => e.2.pte.getLsbD 4 || fld e.2.pte 53 11 != slot }
/-- Key slots and channel tables are erased: content under the slots cannot be read. -/
def State.eraseKeys (s : State) : State :=
  let ks := (List.range 2048).filter fun k => s.keyKind k != 0 || (s.keyMat.find? k).isSome
  let s1 := ks.foldl (fun s k => s.dropSlot k) s
  ks.foldl (fun s k => s.setCreg .hub (0x500000 + 8 * k) 0) { s1 with keyMat := [], chans := [], ideKeys := [] }
/-- FUNCTION_LEVEL_RESET of PF0: level 4 of Table 132. -/
def execFunctionLevelReset (s : State) : Out :=
  let s1 := (List.range 8).foldl (fun s p => s.resetPartition p) s
  finish ((if s1.bootCode = 0x80 then s1.restartCores 0xFF else s1).eraseKeys)

end Sys2Proof.Machine
end

