-- ==== Sys2Proof/Machine/Power.lean ====
section
/-! DEFINITION. Power and clocks: the caps, the peak and average integrators, pulse patterns and the starter's limit,
hot-spot migration (12 R272, R273; 17 R344, R349; 18 R357 to R359), and the feed queues' tail (17 R352). -/

namespace Sys2Proof.Machine

/-! ### Pulse patterns (12 R272, 18 R358) -/

/-- A pattern with every set bit cleared above its n lowest-numbered set bits. -/
def limitPat (w : Nat) : Nat → Nat → Nat → Nat
  | 0, _, _ => 0
  | k + 1, i, n =>
    if bitsOf w i 1 = 1 then (if n = 0 then 0 else 2 ^ i + limitPat w k (i + 1) (n - 1)) else limitPat w k (i + 1) n
/-- Throttle level N of PTHR. -/
def State.throttleN (s : State) : Nat := fld (s.creg .hub 0x300018) 0 5
/-- The written pattern of a cluster, and the pattern that the next frame applies. -/
def State.writtenPat (s : State) (c : Nat) : Nat := s.patWritten.getD c 0xFFFF
def State.nextPat (s : State) (c : Nat) : Nat := limitPat (s.writtenPat c) 16 0 s.throttleN
/-- CLKPAT of a cluster with a pattern in force: PEND and PV follow. -/
def State.showPat (s : State) (c pat : Nat) : State :=
  let n := s.nextPat c
  s.setCreg (.cluster c) 0 (BitVec.ofNat 64 (pat + 2 ^ 16 * n + 2 ^ 32 * b2n (n != pat)))
def State.patInForce (s : State) (c : Nat) : Nat := fld (s.creg (.cluster c) 0) 0 16
/-- A 16-cycle frame begins: every cluster takes its next pattern. -/
def State.frameBegin (s : State) : State :=
  (List.range (24 * s.dies)).foldl (fun s c => if s.patInForce c = s.nextPat c then s else s.showPat c (s.nextPat c)) s
/-- A cluster's cycle is swallowed. -/
def State.swallowed (s : State) (c : Nat) : Bool := bitsOf (s.patInForce c) (s.cycle % 16) 1 = 0

/-- CLKPAT: fewer than 4 ones are ignored; else the pattern takes effect at the next frame. -/
def State.setClkpat (s : State) (cluster : Nat) (v : W64) : State :=
  let w := fld v 0 16
  if 24 * s.dies ≤ cluster || popcount w < 4 then s
  else { s with patWritten := s.patWritten.put 0xFFFF cluster w }.showPat cluster (s.patInForce cluster)
/-- CLKPAT_WRITE, and the other events of a register below: firmware's write; another party's is a REGISTER_WRITE (00 R6). -/
def execClkpatWrite (cluster : Nat) (v : W64) (s : State) : Out := .next (s.setClkpat cluster v)

/-- WAVE and GAP, 12 R273. -/
def waveGap (limit gstep : Nat) : Nat × Nat :=
  if limit = 0 then (64, 0)
  else
    let gap := min 255 (ceilDiv gstep limit - 1)
    (min 64 (max 1 (limit * (gap + 1) / gstep)), gap)
/-- SLOPE: a GSTEP of 0 stores 1. -/
def State.setSlope (s : State) (cluster : Nat) (v : W64) : State :=
  let limit := fld v 0 16
  let gstep := max 1 (fld v 16 16)
  let wg := waveGap limit gstep
  if 24 * s.dies ≤ cluster then s
  else s.setCreg (.cluster cluster) 8 (BitVec.ofNat 64 (limit + 2 ^ 16 * gstep + 2 ^ 32 * wg.1 + 2 ^ 40 * wg.2))
/-- SLOPE_WRITE. -/
def execSlopeWrite (cluster : Nat) (v : W64) (s : State) : Out := .next (s.setSlope cluster v)

/-! ### Caps and integrators (18 R357 to R359) -/

/-- A cap as it is stored: at most its maximum, and 100 for 0. -/
def capStored (v top : Nat) : Nat := if v = 0 then 100 else min v top
def State.setPcap (s : State) (v : W64) : State :=
  s.setCreg .hub 0x300000 (BitVec.ofNat 64 (capStored (fld v 0 16) 3600 + 2 ^ 16 * capStored (fld v 16 16) 3000))
/-- PCAP_WRITE. -/
def execPcapWrite (v : W64) (s : State) : Out := .next (s.setPcap v)
def State.peakCap (s : State) : Nat := fld (s.creg .hub 0x300000) 0 16
def State.avgCap (s : State) : Nat := fld (s.creg .hub 0x300000) 16 16

def sumNat (xs : List Nat) : Nat := xs.foldl (· + ·) 0
/-- The last n of a list. -/
def lastN (n : Nat) (xs : List Nat) : List Nat := xs.drop (xs.length - n)

/-- N after a tick: E the energy of the last 10 ticks, p the peak energy. -/
def nextThrottle (e p n : Nat) : Nat :=
  if 15 * p ≤ 16 * e then max 4 (n - 2) else if 8 * e < 7 * p then min 16 (n + 1) else n
/-- The energy that POWER attributes to the tenants of resident units out of a tick's energy: free values that never
exceed it together (17 R344, log 4). -/
def State.attributeTo (s : State) : List Nat → Nat → State
  | [], _ => s
  | t :: ts, left =>
    let (k, s1) := s.takeFree
    let e := Config.freeNat k % (left + 1)
    { s1 with useEn := s1.useEn.put 0 t (s1.useEn.getD t 0 + e) }.attributeTo ts (left - e)
/-- PEAK_TICK: every 1,000 ns. A tick counts in TICKS where N was below 16 in it. -/
def execPeakTick (energy : Nat) (s : State) : Out :=
  let ticks := lastN 10 (s.peakTicks ++ [energy])
  let n := s.throttleN
  let n' := nextThrottle (sumNat ticks) (s.peakCap * 10000) n
  let below := fld (s.creg .hub 0x300018) 32 32 + b2n (decide (n < 16))
  let s1 := { s with peakTicks := ticks }.setCreg .hub 0x300018 (BitVec.ofNat 64 (n' + 2 ^ 32 * (below % 2 ^ 32)))
  let s2 := if n' = n then s1
    else (List.range (24 * s.dies)).foldl (fun s c => s.showPat c (s.patInForce c)) s1
  let tens := sortNat ((s.wgs.filter fun e => e.2.status = .resident).map fun e => e.2.tenant)
  .next (if s.fwUp 4 then s2.attributeTo tens energy else s2)

/-- INTERVAL_BOUNDARY: every 10,000 ns. -/
def execIntervalBoundary (s : State) : Out :=
  .next { s.setCreg .hub 0x300008 (BitVec.ofNat 64 (sumNat s.peakTicks % 2 ^ 32)) with useBw := [], useEn := [] }

/-! ### The millisecond of POWER (18 R359, 17 R349) -/

def State.tlim (s : State) : Nat := fld (s.creg .hub 0x300020) 0 12
def State.migm (s : State) : Nat := fld (s.creg .hub 0x300020) 12 8
def State.temp (s : State) (c : Nat) : Nat := fld (s.creg .hub (0x300100 + 8 * c)) 0 12
/-- The limit that POWER's notice carries, where it sends one. -/
def nextLimit (e1s avg tlim limit : Nat) (temps : List Nat) : Option Nat :=
  if 31 * avg * 10 ^ 6 < 32 * e1s || temps.any (tlim ≤ ·) then
    some (max 100 (limit - (if temps.any (tlim + 32 ≤ ·) then 200 else 100)))
  else if 8 * e1s < 7 * avg * 10 ^ 6 && temps.all (· + 80 ≤ tlim) then some (min 2500 (limit + 50))
  else none

/-- The time of no migration: one millisecond has passed since the last. -/
def State.mayMigrate (s : State) (e : Nat × Wg) : Bool :=
  let w := e.2
  w.status = .resident && w.groupSize = 0 && !w.preempt && w.drainBy.isNone && w.migrate.isNone
    && (w.lastMig = 0 || w.lastMig + 1000000 ≤ s.now)
    && !((s.engines.getD (clusterOf w.pid) []).any fun k => k.wg = e.1 && (k.rt.isSome || k.namesScr))
/-- A core partition of a cluster where a workgroup meets the conditions. -/
def State.migratePlace (s : State) (w : Wg) (c : Nat) : Option Nat := (clusterPids c).find? fun pid => s.meets pid (s.savedNeed w)
/-- The cluster of a list with the largest value; the lowest-numbered among equals. -/
def argMax (f : Nat → Nat) (xs : List Nat) : Option Nat :=
  xs.foldl (fun (a : Option Nat) x => match a with | none => some x | some b => if f b < f x then some x else some b) none
/-- POWER may move one workgroup of a partition from its hottest cluster to its coolest: it chooses the one admitted
last (log 16). -/
def State.migrateHot (s : State) (part : Nat) : State :=
  let cs := s.partClusters part
  match argMax s.temp cs, argMax (fun c => 4096 - s.temp c) cs with
  | some hot, some cool =>
    if s.temp hot < s.temp cool + 16 * s.migm || hot = cool then s
    else
      let ws := s.wgs.filter fun e => clusterOf e.2.pid = hot && s.mayMigrate e && (s.migratePlace e.2 cool).isSome
      match argMax (fun w => match s.wgs.find? w with | some x => x.seq | none => 0) (ws.map (·.1)) with
      | some w => s.updWg w fun x => { x with migrate := some cool, preempt := true }
      | none => s
  | _, _ => s

/-- POWER_MS_TICK: the energy of the millisecond in µJ and the sensors' readings; POWER acts on them where it runs. -/
def execPowerMsTick (energy : Nat) (temps : List Nat) (s : State) : Out :=
  let ticks := lastN 1000 (s.msTicks ++ [energy])
  let e1s := sumNat ticks
  let s1 := { s with msTicks := ticks }.setCreg .hub 0x300010 (BitVec.ofNat 64 (e1s % 2 ^ 48))
  let n := min temps.length (24 * s.dies)
  let s2 := (List.range n).foldl (fun s c => s.setCreg .hub (0x300100 + 8 * c) (BitVec.ofNat 64 (temps.getD c 0 % 4096))) s1
  if !s.fwUp 4 then .next s2
  else
    let s3 := match nextLimit e1s s2.avgCap s2.tlim s2.ownLimit ((temps.take n).map (· % 4096)) with
      | some l => s2.sendLimit l
      | none => s2
    finish ((List.range 8).foldl (fun s p => s.migrateHot p) s3.setCeiling)

/-! ### QTAIL (17 R352) -/

/-- QTAIL_WRITE: writes that reach the register in this cycle. -/
def execQtailWrite (q : Nat) (vs : List W32) (s : State) : Out := .next (s.tailWrites q (vs.map BitVec.toNat))

end Sys2Proof.Machine
end

