-- ==== Sys2Proof/Machine/Display.lean ====
section
/-! DEFINITION. Display heads and video encoders (17 R356). -/

namespace Sys2Proof.Machine

/-- A unit has done its part of a present: stage bit 0 the head, bit 1 the encoder. -/
def State.presentDone (s : State) (p : Present) (bit : Nat) : State :=
  (s.updTask p.task fun t => { t with stage := if bitsOf t.stage bit 1 = 1 then t.stage - 2 ^ bit else t.stage }).tryTask
    p.part p.task

/-- HEAD_FRAME_START: the pending frame is latched, and its present completes; the next waiting one is pending. -/
def execHeadFrameStart (head : Nat) (s : State) : Out :=
  let h := s.heads.getD head headZero
  match h.pending with
  | none => .next s
  | some p =>
    let h' : DispHead := { pending := h.waiting.head?, waiting := h.waiting.drop 1, latched := some p }
    finish ({ s with heads := s.heads.set head h' }.presentDone p 0)

/-- ENCODER_FRAME_DONE: the surface has been read whole, the present completes, and the bitstream goes to the ring. An
encoder whose bitstream waits for room encodes no further frame, and one of a partition in ERROR does nothing (18 R370). -/
def execEncoderFrameDone (enc : Nat) (bits : List Byte) (s : State) : Out :=
  let e := s.encs.getD enc encZero
  match e.bits, e.queue with
  | none, p :: rest =>
    if s.partStopped p.part then .next s
    else finish (({ s with encs := s.encs.set enc { e with queue := rest } }.presentDone p 1).appendFrame enc p bits)
  | _, _ => .next s
/-- ENC_READPOS_WRITE, through the display-and-video firmware core. -/
def execEncReadposWrite (enc pos : Nat) (s : State) : Out :=
  if !s.fwUp 6 then .next s.defer
  else
    let e := s.encs.getD enc encZero
    finish ({ s with encs := s.encs.set enc { e with rpos := pos } }.appendWaiting enc)

end Sys2Proof.Machine
end

