-- ==== Sys2Proof/Machine/Pacer.lean ====
section
/-! DEFINITION. The Pacer's events: notices received and sent, members that join, leave and are dropped, ceilings
(20 R397 to R404), and the Timin links (20 R383 to R385). -/

namespace Sys2Proof.Machine

/-! ### Counters of 20 Table 149 -/

def fdrop : Nat := 0x310000
def pdeny : Nat := 0x310008
def pnlate : Nat := 0x310010
def pnstale : Nat := 0x310018
def pndropm : Nat := 0x310020
def State.bump (s : State) (off : Nat) : State := s.setCreg .hub off (s.creg .hub off + 1)

/-! ### Sending (20 R398, R402, R404) -/

/-- Send a notice to one package of a group. -/
def State.noticeTo (s : State) (g : PortGroup) (dst : Nat) (n : Notice) : State :=
  { s with pacerSeq := n.seq }.carryNotice n (dst, (s.otherPackages g).contains (dst, true))

/-- The members of a group as a snapshot lists them, in rows of seven numbers: address, last SEQ and S_last, then a kind with
what it tells: 0 nothing more, 1 when a membership begins and ends (one more than the time, or 0), 2 a notice that can still
decide with its SEQ, E and limit (20 R402; log 18). -/
def PacerGroup.image (g : PacerGroup) : List Nat :=
  g.members.flatMap fun e =>
    let row (k a b c : Nat) : List Nat := [e.1, e.2.lastSeq, e.2.slast, k, a, b, c]
    row 0 0 0 0 ++ e.2.spans.flatMap (fun x => row 1 x.1 (match x.2 with | some l => l + 1 | none => 0) 0)
      ++ e.2.limits.flatMap fun l => row 2 l.seq l.eff l.limit
/-- The first package along the PREV ring of a package's rank that is a member at a time, other than itself. -/
def PacerGroup.firstBack (g : PacerGroup) (t : PortGroup) (at_ : Nat) (joiner : Nat) : Nat → Nat → Option Nat
  | 0, _ => none
  | f + 1, r =>
    let q := t.prevs.getD r 0
    let a := t.faddrs.getD q 0
    if a != joiner && (match g.members.find? a with | some m => m.isMember at_ | none => false) then some a
    else g.firstBack t at_ joiner f q
/-- A member that receives a JOIN answers with a snapshot where it is the one asked. The address of its record is a free
value (log 4). -/
def State.answerJoin (s : State) (n : Notice) (pg : PacerGroup) : State :=
  match s.groupTable n.group with
  | none => s
  | some t =>
    let r := ((List.range t.size).find? fun r => t.faddrs.getD r 0 = n.sender).getD 0
    if pg.firstBack t n.sent n.sender t.size r = some s.pkg then
      let (k, s1) := s.takeFree
      let img := pg.image
      s1.sendNotice t { s1.notice n.group 4 0 with snap := Config.freeNat k % 2 ^ 52 :: 8 * img.length :: img }
    else s

/-! ### Receiving (20 R399 to R404) -/

/-- A row of a snapshot. What this package has of a member since is newer, and stays. -/
def PacerMember.takeRow (m : PacerMember) (ls sl k a b c : Nat) : PacerMember :=
  match k with
  | 1 =>
    if m.spans.any fun x => x.1 = a then m
    else { m with spans := m.spans ++ [(a, if b = 0 then none else some (b - 1))] }
  | 2 => if m.limits.any fun l => l.seq = a then m else { m with limits := m.limits ++ [{ seq := a, eff := b, limit := c }] }
  | _ =>
    { m with lastSeq := max m.lastSeq ls, slast := max m.slast sl
             spans := if m.lastSeq ≤ ls || m.spans = memberZero.spans then [] else m.spans }
/-- A snapshot, row by row. -/
def PacerGroup.takeImage (g : PacerGroup) (self : Nat) : List Nat → PacerGroup
  | a :: ls :: sl :: k :: x :: y :: z :: rest =>
    (if a = self then g
     else { g with members := g.members.set a ((g.members.getD a memberZero).takeRow ls sl k x y z) }).takeImage self rest
  | _ => g
/-- Ports that bind a group have their snapshot (20 R402). -/
def State.snapshotArrived (s : State) (group : Nat) : State :=
  { s with tasks := s.tasks.mapVals fun t =>
      match t.ins, t.pend with
      | .tgroup _, some g => if g.group = group && t.st = .issued && t.stage = 1 then { t with stage := 0 } else t
      | _, _ => t }
/-- What an accepted notice changes in the record of its sender. -/
def PacerMember.take (m : PacerMember) (timeout now : Nat) (n : Notice) : PacerMember :=
  let slast := if n.sent + leadTime ≤ m.slast + timeout || m.slast = 0 then max m.slast n.sent else m.slast
  let lims := if n.kind ≤ 2 then pruneLimits now (m.limits ++ [{ seq := n.seq, eff := n.eff, limit := n.limit }]) else m.limits
  let m1 : PacerMember := { m with lastSeq := n.seq, slast := slast, limits := lims }
  match n.kind with
  | 2 => m1.join n.eff
  | 3 => m1.leave n.eff
  | _ => m1

/-- A member answers a notice of a package that is no member with DROPPED, which goes to that package alone: no field of the
notice names another (20 R404; log 18). -/
def State.answerStranger (s : State) (n : Notice) (g : PacerGroup) : State :=
  match s.groupTable n.group with
  | some t => if g.holds s.pkg s.now then s.noticeTo t n.sender (s.notice n.group 5 0) else s
  | none => s
/-- A notice that has reached its channel's end (20 R399 to R404). After a DROPPED the package is no member, and answers no
more. -/
def State.acceptNotice (s : State) (n : Notice) : State :=
  match s.pacer.find? n.group with
  | none => s
  | some g =>
    let bad := 6 ≤ n.kind || (n.kind ≤ 2 && (n.limit < 100 || 2500 < n.limit))
    let known := g.members.find? n.sender
    let old := match known with | some m => n.seq ≤ m.lastSeq | none => false
    if bad || old then s.bump pnstale
    else if n.eff < n.sent + leadTime then s
    else
      let s1 := if n.eff < s.now then (s.bump pnlate).report rptLate n.sender else s
      let put (s : State) (g : PacerGroup) : State := { s with pacer := s.pacer.set n.group g }
      let kept (g : PacerGroup) : PacerGroup :=
        match known with
        | some m => { g with members := g.members.set n.sender (m.take g.timeout s.now n) }
        | none => g
      match n.kind with
      | 5 =>
        let s2 := put s1 { kept g with members := (kept g).members.del s.pkg }
        { s2 with ports := s2.ports.mapVals fun p =>
            if (p.spec.group.map fun (h : PortGroup) => decide (h.group = n.group)) = some true then { p with dropped := true } else p
          }.setCeiling
      | 4 =>
        if s.wantsSnapshot n.group then ((put s1 ((kept g).takeImage s.pkg (n.snap.drop 2))).snapshotArrived n.group).setCeiling
        else if known.isSome then (put s1 (kept g)).setCeiling
        else s1.answerStranger n g
      | 2 =>
        let m := (known.getD { memberZero with spans := [] }).take g.timeout s.now n
        let g' := { g with members := g.members.set n.sender m, gone := g.gone.del n.sender }
        ((put s1 g').answerJoin n g').setCeiling
      | _ =>
        match known with
        | some _ => (put s1 (kept g)).setCeiling
        | none =>
          if g.holds s.pkg s.now then s1.answerStranger n g
          else
            -- a joiner whose snapshot has not come keeps what members send meanwhile (log 18)
            (put s1 { g with members := g.members.set n.sender (memberZero.take g.timeout s.now n) }).setCeiling
/-- Deliver a notice to the POWER core, or keep it while that core restarts (18 R363). -/
def State.deliverNotice (s : State) (n : Notice) : State :=
  if s.fwUp 4 then s.acceptNotice n else { s with noticeWait := s.noticeWait ++ [n] }
/-- Notices that have waited for the POWER core. -/
def State.waitedNotices (s : State) : State :=
  if s.fwUp 4 then s.noticeWait.foldl (fun s n => s.acceptNotice n) { s with noticeWait := [] } else s
/-- NOTICE_RECEIVE. -/
def execNoticeReceive (n : Notice) (s : State) : Out := finish (s.deliverNotice n)

/-- A membership begins after a time and by now. -/
def PacerMember.begins (m : PacerMember) (t now : Nat) : Bool := m.spans.any fun x => t < x.1 && x.1 ≤ now
/-- Connections with packages over scale-out ports that have become members since a time start again; with this package's own
membership all of them do (20 R409). -/
def State.startMembers (s : State) (t : Nat) : State :=
  s.pacer.foldl (fun s e =>
    match s.groupTable e.1 with
    | none => s
    | some g =>
      let mine := match e.2.members.find? s.pkg with | some m => m.begins t s.now | none => false
      (s.otherPackages g).foldl (fun s o =>
        let new := match e.2.members.find? o.1 with | some m => mine || m.begins t s.now | none => false
        if o.2 && new then s.startConns o.1 else s) s) s

/-! ### Heartbeats, ceilings, drops (20 R399, R400, R404) -/

/-- HEARTBEAT_SEND: POWER repeats the package's limit, and FABRIC sends the time to the ranks over scale-out ports (20 R410;
log 5). -/
def execHeartbeatSend (group : Nat) (s : State) : Out :=
  match s.groupTable group with
  | none => .next s
  | some g =>
    if !s.fwUp 4 || !s.inGroup group then .next s
    else
      let n := s.notice group 1 s.ownLimit
      let s1 := (s.addOwnLimit group { seq := n.seq, eff := n.eff, limit := n.limit }).sendNotice g n
      .next (if s.fwUp 7 then (s.otherPackages g).foldl (fun s e => if e.2 then s.sendTime e.1 else s) s1 else s1)

/-- Members whose LEAVE has taken effect are members no more; a group without ports of this package is kept no more. -/
def PacerGroup.settle (g : PacerGroup) (t : Nat) : PacerGroup :=
  let open_ (m : PacerMember) : PacerMember := { m with spans := m.spans.filter fun x => match x.2 with | some l => t < l | none => true }
  let left := (g.members.filter fun e => (open_ e.2).spans.isEmpty).map (·.1)
  { g with members := SMap.mapVals (g.members.filter fun e => !left.contains e.1) open_, gone := KSet.addAll g.gone left
           ghosts := g.ghosts.filter fun l => t < l.eff }
def State.settleGroups (s : State) : State :=
  let p := s.pacer.mapVals fun g => g.settle s.now
  { s with pacer := p.filter fun e => !(e.2.gone.contains s.pkg) || s.boundPorts e.1 != [] }
/-- CEILING_CHANGE: the limits that are in effect now give CEIL. -/
def execCeilingChange (s : State) : Out := .next { s.settleGroups.setCeiling with lowering := [] }
/-- CLOCK_LOWER_BEGIN of a die, 2,000 ns before a lowering. -/
def execClockLowerBegin (die : Nat) (s : State) : Out :=
  match s.nextChange with
  | some (t, c) =>
    if c < s.ceil && t ≤ s.now + 2000 && die < s.dies then .next { s with lowering := s.lowering.add die } else .next s
  | none => .next s
/-- MEMBER_DROP: POWER removes a member that was silent until D; its limit counts until D + 50,000, so that a raise waits (20
R404). -/
def execMemberDrop (group member : Nat) (s : State) : Out :=
  match s.pacer.find? group with
  | none => .next s
  | some g =>
    match g.members.find? member with
    | none => .next s
    | some m =>
      if member = s.pkg || s.now < m.slast + g.timeout || !s.fwUp 4 then .next s
      else
        let d := m.slast + g.timeout
        let g' := { g with members := g.members.del member, gone := g.gone.add member
                           ghosts := g.ghosts ++ (m.limitAt s.now).toList.map fun l => { seq := 0, eff := d + leadTime, limit := l } }
        finish (({ s with pacer := s.pacer.set group g' }.bump pndropm).setCeiling)

/-! ### Timin links (20 R383 to R385) -/

/-- Beats of 128 bits at 800 Gb/s since FABTIME 0: 6.25 in a ns. -/
def State.beat (s : State) : Nat := s.now * 25 / 4
/-- The pace value of a channel: 1,024 before the receiver announces one (log 50). -/
def Link.paceOf (l : Link) (vc : Nat) : Nat := l.pace.getD vc 1024
/-- New pace values whose window has begun are in force. -/
def Link.pacesAt (l : Link) (b : Nat) : Link :=
  let due : SMap (Nat × Nat) := l.paceNext.filter fun e => e.2.2 ≤ b
  { l with pace := due.foldl (fun m e => m.set e.1 e.2.1) l.pace, paceNext := l.paceNext.filter fun e => !(e.2.2 ≤ b) }
/-- A flit of a channel may be sent: fewer than P in the last 1,024 beats. -/
def Link.paced (l : Link) (b vc : Nat) : Bool := ((l.sentAt.getD vc []).filter fun t => b < t + 1024).length < l.paceOf vc
/-- A flit of a channel is sent. -/
def Link.sendFlit (l : Link) (b vc : Nat) : Link :=
  { l with beat := b, sentAt := l.sentAt.put [] vc (b :: (l.sentAt.getD vc []).filter fun t => b < t + 1024) }
/-- The transfer whose flit goes next, with its place in the queue: one of channel 3 before the others, and otherwise the one
that has waited longest; the transfers of a channel go in order. -/
def Link.pick (l : Link) (b : Nat) : Option (Nat × OutFlit) :=
  let first (k : Nat) (o : OutFlit) : Bool := !((l.queue.take k).any fun x => x.vc = o.vc)
  let ready := ((List.range l.queue.length).filterMap fun k => (l.queue[k]?).map fun o => (k, o)).filter fun e =>
    first e.1 e.2 && l.paced b e.2.vc
  (ready.find? fun e => e.2.vc = 3).orElse fun _ => ready.head?
/-- What a destination gets once the last flit of its transfer has been sent. -/
def State.carry (s : State) (x : Sent) : State :=
  match x with
  | .peer op => { s with peerOut := s.peerOut ++ [op] }
  | x => { s with sent := s.sent ++ [x] }
/-- A link sends its next flit, one in 2 beats: flits that failed go again first, since the link keeps the order of its flits
(20 R384; log 50). -/
def State.linkSend (s : State) (i : Nat) : State :=
  let b := s.beat
  let l := (s.link i).pacesAt b
  let put (l : Link) : State := { s with links := s.links.set i l }
  if !l.up || b < l.beat + 2 then s
  else if l.resend < l.seq then
    match l.replay.find? fun f => f.seq = l.resend with
    | some f => if l.paced b f.vc then put { l.sendFlit b f.vc with resend := l.resend + 1 } else s
    | none => put { l with resend := l.resend + 1 }
  else match l.pick b with
    | none => s
    | some (k, o) =>
      let o' : OutFlit := { o with left := o.left - 1 }
      let whole := decide (o'.left = 0)
      let done : OutFlit := { o' with carried := true }
      let l' := { l.sendFlit b o.vc with
        queue := if whole then l.queue.eraseIdx k else l.queue.set k o'
        replay := l.replay ++ [{ seq := l.seq, vc := o.vc, last := if whole then some done else none }]
        seq := l.seq + 1, resend := l.seq + 1 }
      if whole && !o.carried then (put l').carry o.load else put l'

/-- What waited for accesses to peers goes on when they have been taken or lost (20 R389): a gang's words with the last of its
writes. -/
def State.peersDone (s : State) (before : State) : State :=
  let done (gid : Nat) : Bool := before.peerWrites gid 0 && !s.peerWrites gid 0
  let s1 := { s with gangs := (s.gangs.keys.filter done).foldl (fun m gid => m.upd gid Gang.retry) s.gangs }
  if before.peerQueued && !s.peerQueued then s1.resume else s1
/-- Link control that the other end of a link sends (20 R383, R384; log 50). -/
def State.linkControl (s : State) (i : Nat) (l : Link) : FlitBody → State
  | .payload _ => s
  | .pace vc p =>
    let l1 := l.pacesAt s.beat
    let l2 := { l1 with paceNext := l1.paceNext.set vc (p, s.beat / 1024 * 1024 + 1024) }
    { s with links := s.links.set i (if 3 < vc || p = 0 || 1024 < p then l else l2) }
  | .taken k =>
    let l1 := { l with replay := l.replay.filter fun f => k < f.seq, resend := min l.seq (max l.resend (k + 1)), sendFails := 0 }
    { s with links := s.links.set i l1 }.peersDone s
  | .again k => { s with links := s.links.set i { l with resend := min l.seq k, sendFails := l.sendFails + 1 } }
/-- Link control that this end sends: the flits that it has taken, that one is wanted again, and its pace values. -/
def State.control (s : State) (link : Nat) (b : FlitBody) : State := { s with sent := s.sent ++ [Sent.control link b] }
/-- The receiver announces its pace value for each virtual channel, from 1 to 1,024 (20 R383; log 50). -/
def State.announce (s : State) (link : Nat) : State :=
  (List.range 4).foldl (fun s vc => let (k, s1) := s.takeFree; s1.control link (.pace vc (Config.freeNat k % 1024 + 1))) s
/-- FLIT_RECEIVE: a flit that fails its check, or that follows one, is sent again; one for another package is dropped. -/
def execFlitReceive (link : Nat) (f : Flit) (s : State) : Out :=
  let l := s.link link
  if 16 ≤ link || !l.up then .next s
  else if !f.good then .next ({ s with links := s.links.set link { l with fails := l.fails + 1 } }.control link (.again l.next))
  else
    let l1 := { l with fails := 0 }
    match f.body with
    | .payload bytes =>
      if f.seq != l.next then .next { s with links := s.links.set link l1 }
      else
        let s1 := { s with links := s.links.set link { l1 with next := l.next + 1 } }.control link (.taken f.seq)
        if f.dest != s.pkg then .next (s1.bump fdrop)
        else .next { s1 with sent := s1.sent ++ [Sent.accepted f.vc bytes] }
    | body => finish (s.linkControl link l1 body)
/-- LINK_RETRAIN: after 16 flits failed in a row the link carries no traffic, and the transfers that the other end has not
taken move to the other links that reach their destination, or are lost (20 R384, R389). -/
def execLinkRetrain (link : Nat) (s : State) : Out :=
  let l := s.link link
  if 16 ≤ link || (l.fails < 16 && l.sendFails < 16) then .next s
  else
    let left := l.replay.filterMap (·.last) ++ l.queue
    let down : Link := { l with up := false, fails := 0, sendFails := 0, next := 0, queue := [], replay := [], seq := 0, resend := 0 }
    let s1 := { s with links := s.links.set link down }
    finish ((left.foldl (fun s o => s.dispatchFlit { o with left := o.flits }) s1).peersDone s)
/-- LINK_RETRAIN_DONE: the link carries traffic again, and its receiver announces its pace values. -/
def execLinkRetrainDone (link : Nat) (s : State) : Out :=
  if 16 ≤ link then .next s
  else .next ({ s with links := s.links.set link { s.link link with up := true, fails := 0 } }.announce link)

/-! ### Accesses of peers and of the host (20 R388, 17 R351) -/

/-- The channel group of a physical address lies in a partition (18 R374, 17 R354). -/
def State.chanOf (s : State) (part pa : Nat) : Bool :=
  s.paOk pa && (s.creg (.part part) 8).getLsbD (8 * (pa / (48 * 2 ^ 30)) + pa % (48 * 2 ^ 30) / (6 * 2 ^ 30))
/-- Perform an outside access at the home: bytes read, whether they are poisoned, and the state after. The steps of a
combined atomic or CAS are one indivisible step (07 R174). -/
def State.extPerform (s : State) (tenant : Nat) (l : Loc) (acc : ExtAcc) : List Byte × Bool × State :=
  let bytes (n : Nat) : List Byte := (List.range n).map fun i => s.homeByte l.kind (l.addr + i)
  let bad (n : Nat) : Bool := (List.range n).any fun i => s.homePoison l.kind (l.addr + i)
  let step (n : Nat) (r : Option Nat × List Nat) : List Byte × Bool × State :=
    (r.2.flatMap (leBytes n), bad n, match r.1 with
      | some v => if bad n then s else s.engWrite tenant l (leBytes n v) fun _ => false
      | none => s)
  match acc with
  | .read n => (bytes n, bad n, s.touchFor tenant n l)
  | .write bs => ([], false, s.engWrite tenant l bs fun _ => false)
  | .atomic op n sx xs => step n (atomSteps op (8 * n) sx none (leNat (bytes n)) xs)
  | .cas n xs => step n (atomSteps 0 (8 * n) false (some (xs.map (·.1))) (leNat (bytes n)) (xs.map (·.2)))
/-- Bytes that an access returns. -/
def accSize : ExtAcc → Nat
  | .read n => n
  | .write _ => 0
  | .atomic _ n _ xs => n * xs.length
  | .cas n xs => n * xs.length

/-- The answer to a peer's access to an address, on channel 1 (20 R383, R384). -/
def State.answerPeer (s : State) (src pa : Nat) (bs : List Byte) (bad : Bool) : State :=
  if bs.isEmpty then s else s.fabricSend 1 src bs.length (.peerRead src pa bs bad)
/-- PEER_ACCESS_RECEIVE: the access is checked, and performed or denied. -/
def execPeerAccessReceive (part rkey pa : Nat) (acc : PeerAcc) (s : State) : Out :=
  let ok := (s.keyKind rkey = 1 || s.keyKind rkey = 3) && s.tenantValid (s.keyOwner rkey) && s.tenantPart (s.keyOwner rkey) = part
    && s.chanOf part pa
  if 2048 ≤ rkey || 8 ≤ part || !ok then
    .next (((s.bump pdeny).report rptPeer pa).answerPeer acc.src pa (List.replicate (accSize acc.acc) 0) true)
  else
    let r := s.extPerform (s.keyOwner rkey) { kind := .mem rkey, addr := pa } acc.acc
    finish (r.2.2.answerPeer acc.src pa r.1 r.2.1)

/-- The partition whose channel group holds an address. -/
def State.partOfPa (s : State) (pa : Nat) : Option Nat := (List.range 8).find? fun p => s.chanOf p pa

end Sys2Proof.Machine
end

