-- ==== Sys2Proof/Machine/Ether.lean ====
section
/-! DEFINITION. The scale-out ports: frames, the transport's receiver and sender, timers, priority flow control and link
state (20 R405 to R410). -/

namespace Sys2Proof.Machine

/-! ### The receiver (20 R409) -/

/-- Nanoseconds between acknowledgements, and between a sender's time-outs. -/
def ackDelay : Nat := 2000
def retryDelay : Nat := 200000
/-- How far a PSN lies ahead of another. -/
def psnAhead (a b : Nat) : Nat := (a + 2 ^ 32 - b % 2 ^ 32) % 2 ^ 32

/-- Send an ACK or a NACK of a connection with the next expected PSN and the congestion echo. -/
def State.emitAck (s : State) (port kind remote vc : Nat) (c : Conn) : State :=
  s.emit port kind { vc := vc, src := s.pkg, dst := remote, psn := c.expect, ce := c.ce } []
/-- Acknowledge what has been delivered; a paused priority, or a port not in use, holds the ACK back. -/
def State.sendAck (s : State) (port remote vc : Nat) : State :=
  let k := connKey remote vc
  let c := s.conn k
  if !s.maySend port 1 then s.setConn k { c with ackAt := some s.now }
  else (s.setConn k { c with sinceAck := 0, ackAt := none, ce := false }).emitAck port 1 remote vc c
/-- Collective messages that have arrived whole on a connection reach the ranks of this package (20 R393, R410). -/
def State.takeColls (s : State) (k : Nat) : Nat → State
  | 0 => s
  | f + 1 =>
    let b := s.collBuf.getD k []
    let n := leNat (b.take 4)
    if b.length < 36 || b.length < n || n < 36 then s
    else
      let x := collOfBytes (b.take n)
      let s1 := { s with collBuf := s.collBuf.put [] k (b.drop n) }.collDeliver x
      ((s1.localRanks x.group).foldl (fun s e => s.tryColls (e.1 / 4) (e.1 % 4) x.n) s1).takeColls k f
/-- The numbers of 8 bytes that some bytes hold. -/
def numbersOf (b : List Byte) : List Nat := (List.range (b.length / 8)).map fun i => leNat ((b.drop (8 * i)).take 8)
/-- Deliver a sequenced packet to its channel: collective payload on 2, on 3 a notice, or before it the record of a
snapshot. -/
def State.passUp (s : State) (remote vc : Nat) (p : Packet) : State :=
  let k := connKey remote vc
  let b := s.collBuf.getD k []
  match p.notice with
  | some n =>
    if n.kind = 4 then { s with collBuf := s.collBuf.del k }.deliverNotice { n with snap := n.snap.take 2 ++ numbersOf b }
    else s.deliverNotice n
  | none =>
    if vc = 2 then { s with collBuf := s.collBuf.put [] k (b ++ p.payload) }.takeColls k (b.length + p.payload.length)
    else if vc = 3 then { s with collBuf := s.collBuf.put [] k (b ++ p.payload) }
    else { s with sent := s.sent ++ [Sent.accepted vc p.payload] }
/-- One packet in order: delivered, and acknowledged with the 16th. -/
def State.takeInOrder (s : State) (port remote vc : Nat) (p : Packet) : State :=
  let k := connKey remote vc
  let c := s.conn k
  let c' := { c with expect := (c.expect + 1) % 2 ^ 32, sinceAck := c.sinceAck + 1
                     ackAt := some (c.ackAt.getD (s.now + ackDelay)) }
  let s1 := (s.setConn k c').passUp remote vc p
  if 16 ≤ c'.sinceAck then s1.sendAck port remote vc else s1
/-- Packets that were held and are in order now. -/
def State.takeHeld (s : State) (port remote vc : Nat) : Nat → State
  | 0 => s
  | f + 1 =>
    let k := connKey remote vc
    let c := s.conn k
    match c.held.find? fun p => p.psn = c.expect with
    | none => s
    | some p =>
      ((s.setConn k { c with held := c.held.filter fun q => q.psn != c.expect }).takeInOrder port remote vc p).takeHeld
        port remote vc f
/-- A sequenced packet arrives. -/
def State.recvSeq (s : State) (port : Nat) (h : PktHdr) (p : Packet) : State :=
  let k := connKey h.src h.vc
  let c0 := (s.conns.find? k).getD { s.newConn h.src with port := (s.routePorts h.src).headD port }
  let s0 := if h.ce && p.notice.isNone then s.ethCount port 0x50 1 else s
  let c := { c0 with ce := c0.ce || (h.ce && p.notice.isNone) }
  let s1 := s0.setConn k c
  let d := psnAhead p.psn c.expect
  if d = 0 then (s1.takeInOrder port h.src h.vc p).takeHeld port h.src h.vc c.held.length
  else if 2 ^ 31 ≤ d then s1
  else
    let hold := c.held.length < 256 && !(c.held.any fun q => q.psn = p.psn)
    let nack := (match c.nackAt with | some t => t + ackDelay ≤ s.now | none => true)
      && s.maySend port 2
    let c' := { c with held := if hold then c.held ++ [p] else c.held, nackAt := if nack then some s.now else c.nackAt }
    let s2 := s1.setConn k c'
    if nack then s2.emitAck port 2 h.src h.vc c' else s2

/-! ### The sender (20 R409) -/

/-- The window after an ACK or a NACK. -/
def nextWindow (w : Nat) (ce ack : Bool) : Nat := if ce then max 8 (w / 2) else if ack then min 256 (w + 1) else w
/-- Send unacknowledged packets of a connection again, and count them; while a pause holds one of them back, or the port
is not in use, the retransmission is owed (20 R405, R406). -/
def State.resend (s : State) (remote vc : Nat) (c : Conn) (ps : List Packet) : State :=
  if ps.all fun p => s.maySend c.port p.kind then
    ps.foldl (fun s p => (s.emitSeq remote vc c p).ethCount c.port 0x48 1) s
  else s.setConn (connKey remote vc) { c with resend := true }
/-- An ACK: the packets before its PSN are acknowledged. -/
def State.recvAck (s : State) (h : PktHdr) : State :=
  let k := connKey h.src h.vc
  match s.conns.find? k with
  | none => s
  | some c =>
    let rest := c.unacked.filter fun p => psnAhead p.psn h.psn < 2 ^ 31
    let moved := rest.length < c.unacked.length
    let c' := { c with unacked := rest, window := nextWindow c.window h.ce true
                       progress := if moved then s.now else c.progress, timeouts := if moved then 0 else c.timeouts }
    (s.setConn k c').pump h.src h.vc c.queue.length
/-- A NACK: every unacknowledged packet from its PSN is sent again, in order. -/
def State.recvNack (s : State) (h : PktHdr) : State :=
  let k := connKey h.src h.vc
  match s.conns.find? k with
  | none => s
  | some c =>
    let c' := { c with window := nextWindow c.window h.ce false }
    (s.setConn k c').resend h.src h.vc c' (c.unacked.filter fun p => psnAhead p.psn h.psn < 2 ^ 31)

/-- The next port that a route allows above a port. -/
def State.nextPort (s : State) (remote port : Nat) : Option Nat := (s.routePorts remote).find? fun p => port < p
/-- RETRANSMIT_TIMEOUT: 200 µs without progress; after 16 in a row the connection moves to the next port, or its
destination is unreachable. -/
def execRetransmitTimeout (conn : Nat) (s : State) : Out :=
  match s.conns.find? conn with
  | none => .next s
  | some c =>
    if c.dead || c.unacked.isEmpty || s.now < c.progress + retryDelay then .next s
    else if c.timeouts + 1 < 16 then
      let c' := { c with timeouts := c.timeouts + 1, progress := s.now }
      .next ((s.setConn conn c').resend (conn / 4) (conn % 4) c' c.unacked)
    else
      match s.nextPort (conn / 4) c.port with
      | some p =>
        let c' := { c with timeouts := 0, progress := s.now, port := p }
        .next ((s.setConn conn c').resend (conn / 4) (conn % 4) c' c.unacked)
      | none => .next (s.setConn conn { c with timeouts := 0, dead := true, unacked := [], queue := [] })
/-- ACK_TIMER: 2 µs after the first delivery that is not yet acknowledged. -/
def execAckTimer (conn : Nat) (s : State) : Out :=
  let c := s.conn conn
  match c.ackAt with
  | some t => .next (if t ≤ s.now then s.sendAck c.port (conn / 4) (conn % 4) else s)
  | none => .next s

/-! ### Packets (20 R408, R410) -/

/-- A TIME packet: FABRIC measures the offset of a member's time, its path delay corrected, and reports one beyond ±50 ns;
within that it may move FABTIME towards the member's, by a free value (20 R397, R410; log 5). -/
def State.recvTime (s : State) (src stamp : Nat) : State :=
  if !s.fwUp 7 then s
  else if s.now + 50 < stamp || stamp + 50 < s.now then s.report rptTime src
  else
    let (k, s1) := s.takeFree
    let lo := min s.now stamp
    { s1 with fabtime := BitVec.ofNat 64 (lo + (Config.freeNat k) % (max s.now stamp - lo + 1)) }
/-- A notice from its bytes (20 Table 155). -/
def noticeOf (b : List Byte) : Notice :=
  let f (o n : Nat) : Nat := leNat ((b.drop o).take n)
  { group := f 0 8, sender := f 8 2, kind := f 0xA 1, limit := f 0xC 2, seq := f 0x10 8, sent := f 0x18 8, eff := f 0x20 8
    snap := if f 0xA 1 = 4 then [f 0x28 8, f 0x30 8] else [] }
/-- An accepted packet of a port in use, by its type. -/
def State.packetIn (s : State) (port kind : Nat) (h : PktHdr) (payload : List Byte) : State :=
  match kind with
  | 0 => s.recvSeq port h { psn := h.psn, payload := payload, notice := none }
  | 1 => s.recvAck h
  | 2 => s.recvNack h
  | 3 => s.recvSeq port h { psn := h.psn, payload := [], notice := some (noticeOf payload) }
  | _ => s.recvTime h.src (leNat (payload.take 8))

/-- DATA, ACK, NACK, NOTICE and TIME packets that a port in use has accepted. -/
def execDataPkt (port : Nat) (h : PktHdr) (payload : List Byte) (s : State) : Out :=
  finish (if s.ethEn port then s.packetIn port 0 h payload else s)
def execAckPkt (port : Nat) (h : PktHdr) (s : State) : Out := finish (if s.ethEn port then s.recvAck h else s)
def execNackPkt (port : Nat) (h : PktHdr) (s : State) : Out := finish (if s.ethEn port then s.recvNack h else s)
def execNoticePkt (port : Nat) (h : PktHdr) (n : Notice) (s : State) : Out :=
  finish (if s.ethEn port then s.recvSeq port h { psn := h.psn, payload := [], notice := some n } else s)
def execTimePkt (port : Nat) (h : PktHdr) (stamp : Nat) (s : State) : Out :=
  finish (if s.ethEn port then s.recvTime h.src stamp else s)

/-! ### Frames (20 R405, R408) -/

def State.mtu (s : State) (port : Nat) : Nat := fld (s.creg .hub (ethOff port 0)) 22 14
/-- A port drops a frame: it is bad, too long, for another station, of another protocol, or with more than one 802.1Q tag, the
second of which stands where the EtherType should. -/
def State.frameBad (s : State) (port : Nat) (f : EthFrame) : Bool :=
  !f.fcsOk || s.mtu port + 18 < f.len || f.dstMac != fld (s.creg .hub (ethOff port 8)) 0 48
    || (f.etherType != 0x0800 && f.etherType != 0x86DD) || 1 < f.tags
/-- A port drops a packet: its UDP port, version, CRC, length, destination or type is wrong. -/
def State.packetBad (s : State) (port : Nat) (f : EthFrame) : Bool :=
  f.udpPort != fld (s.creg .hub (ethOff port 0x20)) 0 16 || f.version != 1 || !f.crcOk || !f.lengthOk
    || f.hdr.dst != s.pkg || 5 ≤ f.kind
/-- With PFCEN the port sends priority flow control on PRID and PRIC. When its receiver asks for a pause, and how long, the
spec leaves open: free values (20 R405; log 47). -/
def State.sendPfc (s : State) (port : Nat) : State :=
  let c := s.creg .hub (ethOff port 0)
  if !c.getLsbD 1 then s
  else
    let (k, s1) := s.takeFree
    let n := Config.freeNat k
    if Config.freeBool k then { s1 with sent := s1.sent ++ [Sent.pfc port (fld c (if n % 2 = 0 then 16 else 19) 3) (n / 2 % 65536)] }
    else s1
/-- ETH_FRAME_RECEIVE. -/
def execEthFrameReceive (port : Nat) (f : EthFrame) (s : State) : Out :=
  if 4 ≤ port || !s.ethEn port then .next s
  else if s.frameBad port f || s.packetBad port f then .next (s.ethCount port 0x40 1)
  else finish (((s.ethCount port 0x38 1).sendPfc port).packetIn port f.kind f.hdr f.payload)

/-! ### Priority flow control and link state (20 R405, R406) -/

/-- What waited on a priority of a port may be sent. -/
def State.unpause (s : State) (port prio : Nat) : State :=
  let s1 := { s with pfcPause := s.pfcPause.del (8 * port + prio) }
  s1.conns.keys.foldl (fun s k =>
    let c := s.conn k
    if c.port != port then s
    else
      let c' := { c with resend := false }
      (if c.resend then (s.setConn k c').resend (k / 4) (k % 4) c' c.unacked else s).pump (k / 4) (k % 4) c.queue.length) s1
/-- PFC_RECEIVE: a quantum is 512 bit times of 800 Gb/s, 0.64 ns. -/
def execPfcReceive (port prio quanta : Nat) (s : State) : Out :=
  let c := s.creg .hub (ethOff port 0)
  if 4 ≤ port || !s.ethEn port || !c.getLsbD 1 || !(prio = fld c 16 3 || prio = fld c 19 3) then .next s
  else
    let s1 := s.ethCount port 0x58 quanta
    if quanta = 0 then .next (s1.unpause port prio)
    else .next { s1 with pfcPause := s1.pfcPause.set (8 * port + prio) (s1.now + (quanta * 64 + 99) / 100) }
/-- PFC_PAUSE_EXPIRY. -/
def execPfcPauseExpiry (port prio : Nat) (s : State) : Out :=
  match s.pfcPause.find? (8 * port + prio) with
  | some t => .next (if t ≤ s.now then s.unpause port prio else s)
  | none => .next s
/-- A bit of ESTAT. -/
def State.setStat (s : State) (port bit : Nat) (b : Bool) : State :=
  if 4 ≤ port then s else s.setCreg .hub (ethOff port 0x28) (setFld (s.creg .hub (ethOff port 0x28)) bit 1 (b2n b))
def execEthLinkUpDown (port : Nat) (up : Bool) (s : State) : Out := .next (s.setStat port 0 up)
def execFecAlignmentLock (port : Nat) (locked : Bool) (s : State) : Out := .next (s.setStat port 1 locked)

end Sys2Proof.Machine
end

