-- ==== Sys2Proof/Machine/Secure.lean ====
section
/-! DEFINITION. SEC: SPDM requests and measurements, secured messages, and the TDISP states of the partitions' device
interfaces (18 R370 to R373). Code numbers of SPDM 1.2 messages are PRESUMED (log 20). -/

namespace Sys2Proof.Machine

/-! ### SPDM (18 R371) -/

/-- Bytes whose content the spec does not give. -/
def State.freeBytes (s : State) (n : Nat) : List Byte × State :=
  let (k, s1) := s.takeFree
  ((List.range n).map fun i => Config.freeByte k i, s1)
/-- Send a response: version 1.2, its code, its content. -/
def State.respond (s : State) (code : Nat) (body : List Byte) : State :=
  { s with sent := s.sent ++ [Sent.spdm (leBytes 1 0x12 ++ leBytes 1 code ++ body)] }
/-- The error response to a request out of its order. -/
def State.spdmError (s : State) : State := s.respond 0x7F (leBytes 1 4 ++ leBytes 1 0)
/-- A request to SEC: it waits while SEC restarts. -/
def onSec (s : State) (f : State → State) : Out := .next (if s.fwUp 5 then f s else s.defer)
/-- A response that ends in a signature over its content and the request's nonce. -/
def signed (body nonce : List Byte) : List Byte := body ++ Config.ed448Sign (body ++ nonce)

/-- GET_VERSION: SPDM 1.2, and the exchange begins anew. -/
def execGetVersion (s : State) : Out :=
  onSec s fun s => { s with spdm := { s.spdm with version := true, caps := false, algos := false, pending := [] } }.respond
    0x04 (leBytes 1 1 ++ leBytes 2 0x1200)
/-- GET_CAPABILITIES, after the version. -/
def execGetCapabilities (s : State) : Out :=
  onSec s fun s =>
    if !s.spdm.version then s.spdmError
    else
      let (b, s1) := s.freeBytes 10
      { s1 with spdm := { s1.spdm with caps := true } }.respond 0x61 b
/-- NEGOTIATE_ALGORITHMS: SEC offers only Ed448, SHAKE256 and AES-256-GCM; the numbers name the requester's choices, 1 for
the one that SEC offers. -/
def execNegotiateAlgorithms (sign hash aead : Nat) (s : State) : Out :=
  onSec s fun s =>
    if !s.spdm.caps || sign != 1 || hash != 1 || aead != 1 then s.spdmError
    else { s with spdm := { s.spdm with algos := true } }.respond 0x63 (leBytes 1 1 ++ leBytes 1 1 ++ leBytes 1 1)
/-- GET_DIGESTS: the digest of the certificate chain. -/
def execGetDigests (s : State) : Out :=
  onSec s fun s =>
    if !s.spdm.algos then s.spdmError
    else
      let (b, s1) := s.freeBytes 64
      s1.respond 0x01 b
/-- GET_CERTIFICATE: a part of the certificate chain. -/
def execGetCertificate (slot off len : Nat) (s : State) : Out :=
  onSec s fun s =>
    if !s.spdm.algos then s.spdmError
    else
      let (b, s1) := s.freeBytes len
      s1.respond 0x02 (leBytes 1 slot ++ leBytes 4 off ++ leBytes 4 len ++ b)
/-- CHALLENGE: signed with the device key. -/
def execChallenge (slot : Nat) (nonce : List Byte) (s : State) : Out :=
  onSec s fun s =>
    if !s.spdm.algos then s.spdmError
    else
      let (b, s1) := s.freeBytes 32
      s1.respond 0x03 (signed (leBytes 1 slot ++ b) nonce)

/-- What a measurement index covers, 18 Table 136. -/
def State.measured (s : State) (i : Nat) : Option (List Byte) :=
  if i = 1 then some (Config.bootRomVersion ++ Config.fusedKeyHash ++ leBytes 4 Config.fusedMinSecurity)
  else if i = 2 then some ((s.image.drop 0x90).take 64 ++ leBytes 4 s.secver)
  else if 4 ≤ i && i < 12 then some (((s.mcodeImage.getD (i - 4) []).drop 0x90).take 64)
  else if 12 ≤ i && i < 20 then
    let p := i - 12
    some (leBytes 8 (s.creg (.part p) 0).toNat ++ leBytes 8 (s.creg (.part p) 8).toNat
      ++ (List.range 512).flatMap (fun h => leBytes 2 (s.creg (.part p) (0x4000 + 2 * h)).toNat)
      ++ (List.range 96).flatMap (fun v => leBytes 2 (s.creg (.part p) (0x5000 + 2 * v)).toNat)
      ++ leBytes 1 (s.tdi.getD p 0))
  else none
/-- A measurement block: its index and the digest of what it covers. -/
def State.block (s : State) (i : Nat) : Option (List Byte) :=
  (s.measured i).map fun b => leBytes 1 i ++ Config.shake256 b
/-- GET_MEASUREMENTS: one index, or every block for index 0xFF. -/
def execGetMeasurements (index : Nat) (sign : Bool) (nonce : List Byte) (s : State) : Out :=
  onSec s fun s =>
    let body : Option (List Byte) :=
      if index = 0xFF then some (((List.range 20).filterMap s.block).flatMap id) else s.block index
    match s.spdm.algos, body with
    | true, some b => s.respond 0x60 (if sign then signed b nonce else b)
    | _, _ => s.spdmError
/-- KEY_EXCHANGE: a session begins. -/
def execKeyExchange (session : Nat) (share : List Byte) (s : State) : Out :=
  onSec s fun s =>
    if !s.spdm.algos then s.spdmError
    else
      let (b, s1) := s.freeBytes 56
      { s1 with spdm := { s1.spdm with pending := s1.spdm.pending.add session } }.respond 0x64
        (signed (leBytes 4 session ++ b) share)
/-- FINISH: the session is established where the requester's proof holds; whether it does is a free value. -/
def execFinish (session : Nat) (mac : List Byte) (s : State) : Out :=
  onSec s fun s =>
    let (k, s1) := s.takeFree
    if !s.spdm.pending.contains session || !Config.freeBool (k + mac.length) then s1.spdmError
    else { s1 with spdm := { s1.spdm with pending := s1.spdm.pending.del session
                                          sessions := s1.spdm.sessions.add session } }.respond 0x65 []

/-! ### Secured messages (18 R370, R372, R373) -/

/-- Write a key slot's descriptor, which no translation names any more: its channel table is empty from then on. -/
def State.setSlot (s : State) (slot kind owner : Nat) : State :=
  let s1 := s.dropSlot slot
  { s1.setCreg .hub (0x500000 + 8 * slot) (BitVec.ofNat 64 (kind + 256 * owner)) with chans := s1.chans.del slot }
/-- A slot belongs to a tenant of a locked partition, before a change or after it. -/
def State.slotHeld (s : State) (slot owner : Nat) : Option Nat :=
  let p (t : Nat) : Option Nat :=
    if s.tenantValid t && s.tdiHeld (s.tenantPart t) then some (s.tenantPart t) else none
  (if s.keyKind slot = 0 then none else p (s.keyOwner slot)).orElse fun _ => p owner
/-- SPDM_SESSION_MESSAGE, in an established session. -/
def execSpdmSessionMessage (m : SecMsg) (s : State) : Out :=
  onSec s fun s =>
    if s.spdm.sessions.isEmpty then s
    else match m with
      | .writeKey slot kind owner mat =>
        if 2048 ≤ slot || 4 ≤ kind || 512 ≤ owner then s
        else match s.slotHeld slot owner with
          | some p => s.tdiFail p
          | none =>
            { s.setSlot slot kind owner with keyMat := s.keyMat.set slot mat }
      | .ideKey stream mat => if 8 < stream then s else { s with ideKeys := s.ideKeys.set stream mat }
      | .emptyChannels slot => { s with chans := s.chans.del slot }

/-! ### TDISP (18 R370) -/

/-- TDISP_REQUEST of a virtual function: VF p + 1 serves partition p. A request that its state does not allow changes
nothing. -/
def execTdispRequest (vf : Nat) (r : TdispReq) (s : State) : Out :=
  onSec s fun s =>
    if vf = 0 || 8 < vf then s
    else
      let p := vf - 1
      let st := s.tdi.getD p 0
      let goto (x : Nat) : State := { s with tdi := s.tdi.put 0 p x }
      match r with
      | .lock => if st = tdiUnlocked then goto tdiLocked else s
      | .start => if st = tdiLocked then goto tdiRun else s
      | .stop => goto tdiUnlocked

end Sys2Proof.Machine
end

