-- ==== Sys2Proof/Machine/Regs.lean ====
section
/-! DEFINITION. The control pages as the host and firmware see them: REGISTER_WRITE of every register that has no row of its
own, under its field access codes (00 R6), and what a read returns. -/

namespace Sys2Proof.Machine

/-! ### Which registers can be written -/

/-- Privileges, ascending (00 R6). -/
def writerLevel : Writer → Nat
  | .program _ => 0
  | .host _ => 1
  | .firmware => 2

/-- A register's least privilege and the bits that a write sets. -/
structure RegRule where
  level : Nat
  mask : W64
  deriving DecidableEq, Repr

def fwBits (m : W64) : Option RegRule := some { level := 2, mask := m }
def hostBits (m : W64) : Option RegRule := some { level := 1, mask := m }
def onesW (n : Nat) : W64 := BitVec.ofNat 64 (2 ^ n - 1)

/-- Entry i of a table of n entries. -/
def inTable (off base stride n : Nat) : Option Nat :=
  if base ≤ off && off < base + stride * n && (off - base) % stride = 0 then some ((off - base) / stride) else none

/-- Core page: PSCHED, PMATRIX, SPOBASE, SPOCAP, SPODROP, and the count of groups parked without a monitor. -/
def coreRule (off : Nat) : Option RegRule :=
  if (inTable off 0x100 8 4).isSome then fwBits 0xFFFFFFFFFFFF00FF
  else if (inTable off 0x120 8 4).isSome then fwBits 0x1FFFFFFFF
  else if (inTable off 0x180 32 4).isSome then fwBits (onesW 52)
  else if (inTable off 0x188 32 4).isSome then fwBits (onesW 17)
  else if (inTable off 0x198 32 4).isSome || off = 0x150 then fwBits (onesW 64)
  else none
/-- Slice page, 14 Table 104. -/
def sliceRule (off : Nat) : Option RegRule :=
  if off = 0x108 || off = 0x110 || off = 0x118 then fwBits (onesW 64)
  else if (inTable off 0x1000 4 512).isSome then fwBits (onesW 16)
  else none
/-- Fields of a stream port, 16 Table 113: TENANT by firmware, the others by the host. -/
def portRule (off : Nat) : Option RegRule :=
  if off = 0 then fwBits 0x7FC
  else if off = 8 then hostBits 0x01FFFFFFFFFFFFF0
  else if off = 0x28 || (inTable off 0x100 8 32).isSome then hostBits (onesW 64)
  else none
/-- Partition page: 14 Tables 103, 106, 162; 16 Tables 113, 119; 17 Tables 125, 128; 20 Table 148. -/
def partRule (off : Nat) : Option RegRule :=
  if off = 0 then fwBits 0xFF00FFFFFFFFFFFF
  else if off = 0x8000 then fwBits (onesW 9)
  else if off = 8 || off = 0x8008 || off = 0x8010 then fwBits (onesW 64)
  else if (inTable off 0x4000 2 512).isSome then fwBits 0x81FF
  else if (inTable off 0x5000 2 96).isSome then fwBits 0x807F
  else if (inTable off 0x8040 8 4).isSome || off = 0x8068 then fwBits (onesW 32)
  else if off = 0x8060 then fwBits (onesW 16)
  else if off = 0x8070 then hostBits (onesW 32)
  else if 0x8400 ≤ off && off < 0x8C00 then portRule ((off - 0x8400) % 0x200)
  else if (inTable off 0x10000 8 2048).isSome then fwBits 0x800000003FFFFFFF
  else none
/-- A tenant record, 17 Table 124. -/
def tenantRule (k : Nat) : Option RegRule :=
  match k with
  | 0 => fwBits 0xF
  | 8 => fwBits (onesW 16)
  | 0x10 => fwBits (onesW 32)
  | 0x18 => fwBits (onesW 32)
  | 0x20 => fwBits 0x1F07FF
  | _ => none
/-- A feed queue, 17 Table 127. -/
def queueRule (k : Nat) : Option RegRule :=
  match k with
  | 0 => fwBits (onesW 57)
  | 8 => fwBits (onesW 57)
  | 0x10 => fwBits (onesW 57)
  | 0x18 => fwBits (onesW 57)
  | 0x20 => fwBits (onesW 17)
  | _ => none
/-- A scale-out port, 20 Table 159. -/
def ethRule (k : Nat) : Option RegRule :=
  match k with
  | 0 => fwBits (onesW 36)
  | 8 => fwBits (onesW 48)
  | 0x10 => fwBits (onesW 64)
  | 0x18 => fwBits (onesW 64)
  | 0x20 => fwBits (onesW 16)
  | 0x30 => fwBits (onesW 64)
  | 0x38 => fwBits (onesW 64)
  | 0x40 => fwBits (onesW 64)
  | 0x48 => fwBits (onesW 64)
  | 0x50 => fwBits (onesW 64)
  | 0x58 => fwBits (onesW 64)
  | _ => none
/-- A word of a scale-out route entry, 20 Table 160. -/
def routeRule (k : Nat) : Option RegRule :=
  match k with
  | 0 => fwBits 0xFFFFFFFF001FFFFF
  | 8 => fwBits 0xFFFF
  | _ => fwBits (onesW 64)
/-- Hub page. -/
def hubRule (off : Nat) : Option RegRule :=
  if off = 0x300020 then fwBits 0xFFFFF
  else if off = 0x300000 then fwBits (onesW 32)
  else if (inTable off 0x310000 8 5).isSome then fwBits (onesW 64)
  else if 0x320000 ≤ off && off < 0x320400 then ethRule ((off - 0x320000) % 0x100)
  else if 0x330000 ≤ off && off < 0x350000 && off % 8 = 0 then routeRule (off % 32)
  else if 0x400000 ≤ off && off < 0x408000 then tenantRule (off % 64)
  else if 0x480000 ≤ off && off < 0x490000 then queueRule (off % 64)
  else if (inTable off 0x500000 8 2048).isSome then fwBits 0x1FF03
  else none
/-- Cluster page: CLKPAT and SLOPE, 12 Tables 96, 97. -/
def clusterRule (off : Nat) : Option RegRule :=
  if off = 0 then fwBits (onesW 16) else if off = 8 then fwBits (onesW 32) else none
/-- Translation roots of the tenants, PKG.INDEX, and the links of the route to each fabric address (20 R385; log 45). -/
def unplacedRule (off : Nat) : Option RegRule :=
  if (inTable off 0 8 512).isSome then fwBits 0xFFFFFFFFFFF00
  else if off = 0x1000 then hostBits (onesW 16)
  else if (inTable off 0x2000 8 65536).isSome then fwBits (onesW 16)
  else none
/-- The registers that take a plain write. A core or a slice of a die that the part lacks has its control page too: the spec
says nothing of it (DESIGN CHOICE, log 61). -/
def regRule : Page → Nat → Option RegRule
  | .hub, off => hubRule off
  | .part p, off => if p < 8 then partRule off else none
  | .cluster c, off => if c < 48 then clusterRule off else none
  | .core c, off => if c < 384 then coreRule off else none
  | .slice n, off => if n < 384 then sliceRule off else none
  | .heart, _ => none
  | .unplaced, off => unplacedRule off

/-! ### Values that are stored as others -/

/-- RDVLIMIT from 1 to 1,023 stores 1,024 (08 R188); a BPN of 0 stores 1 (17 Table 125). A SLICE or a BINTIME outside its
range in 05 Table 43 is stored and acts as written (DESIGN CHOICE, log 61). -/
def storedAs (p : Page) (off : Nat) (v : W64) : W64 :=
  match p with
  | .core _ =>
    if (inTable off 0x120 8 4).isSome && 0 < fld v 0 32 && fld v 0 32 < 1024 then setFld v 0 32 1024 else v
  | .part _ => if off = 0x8060 && v = 0 then 1 else v
  | _ => v

/-! ### When a write is rejected -/

/-- No workgroup of a partition is resident and all its ports are IDLE (17 R354). -/
def State.partIdle (s : State) (part : Nat) : Bool :=
  !(s.wgs.any fun e => s.tenantPart e.2.tenant = part && e.2.status = .resident)
    && (List.range 4).all fun p => (s.port part p).state = .idle
/-- A resource that a partition may be given: clusters of present dies, heads and encoders that the part has, and nothing
that another partition holds (17 R354). -/
def State.pcfgOk (s : State) (part : Nat) (v : W64) : Bool :=
  let others := (List.range 8).filter fun p => p != part
  (s.dies = 2 || fld v 24 24 = 0) && (s.hasHeads || (!v.getLsbD 59 && !v.getLsbD 63))
    && others.all fun p =>
      let o := s.creg (.part p) 0
      (fld o 0 48 &&& fld v 0 48) = 0
        && !(v.getLsbD 59 && o.getLsbD 59 && fld o 56 3 = fld v 56 3)
        && !(v.getLsbD 63 && o.getLsbD 63 && fld o 60 3 = fld v 60 3)
def State.pchanOk (s : State) (part : Nat) (v : W64) : Bool :=
  ((List.range 8).filter fun p => p != part).all fun p => s.creg (.part p) 8 &&& v = 0
/-- Another partition's table of n 2-byte entries names the same unit. -/
def State.tableShares (s : State) (part base n : Nat) (v : W64) : Bool :=
  v.getLsbD 15 && ((List.range 8).filter fun p => p != part).any fun p =>
    (List.range n).any fun i => s.creg (.part p) (base + 2 * i) = v
/-- A unit of a die that the part has. -/
def State.homeOk (s : State) (part : Nat) (v : W64) : Bool :=
  (!v.getLsbD 15 || fld v 0 9 < 192 * s.dies) && !s.tableShares part 0x4000 512 v
def State.vmapOk (s : State) (part : Nat) (v : W64) : Bool :=
  (!v.getLsbD 15 || !v.getLsbD 6 || s.dies = 2) && !s.tableShares part 0x5000 96 v
/-- The partition whose locked interface a write of the page would change (18 R370). -/
def State.lockOf (s : State) (p : Page) (off : Nat) (v : W64) : Option Nat :=
  match p with
  | .part q =>
    if (off = 0 || off = 8 || (0x4000 ≤ off && off < 0x4400) || (0x5000 ≤ off && off < 0x50C0)) && s.tdiHeld q then some q
    else none
  | .hub =>
    if 0x400000 ≤ off && off < 0x408000 then
      let t := (off - 0x400000) / 64
      let q := s.tenantPart t
      let q' := fld v 1 3
      if s.tenantValid t && s.tdiHeld q then some q
      else if off % 64 = 0 && v.getLsbD 0 && s.tdiHeld q' then some q'
      else none
    else if 0x500000 ≤ off && off < 0x504000 then s.slotHeld ((off - 0x500000) / 8) (fld v 8 9)
    else none
  | _ => none
/-- The register takes the value in the state it is in. -/
def State.takesWrite (s : State) (p : Page) (off : Nat) (v : W64) : Bool :=
  match p with
  | .core c =>
    -- SPOBASE and SPOCAP only while OCNT is 0 (05 R129)
    if (inTable off 0x180 32 4).isSome then fld (s.creg (.core c) (off + 0x10)) 0 17 = 0
    else if (inTable off 0x188 32 4).isSome then fld (s.creg (.core c) (off + 8)) 0 17 = 0
    else true
  | .part q =>
    if off = 0 then s.partIdle q && s.pcfgOk q v
    else if off = 8 then s.partIdle q && s.pchanOk q v
    else if 0x4000 ≤ off && off < 0x4400 then s.partIdle q && s.homeOk q v
    else if 0x5000 ≤ off && off < 0x50C0 then s.partIdle q && s.vmapOk q v
    else if 0x8400 ≤ off && off < 0x8C00 && (off - 0x8400) % 0x200 != 0x28 && (off - 0x8400) % 0x200 != 0 then
      -- TPC and TK only while the port is IDLE or STOPPED (16 R314)
      let st := (s.port q ((off - 0x8400) / 0x200)).state
      st != .run && st != .halting
    else true
  | .hub =>
    if 0x480000 ≤ off && off < 0x490000 then
      -- a queue's registers only while EN is 0 (17 R350); EN alone may be cleared (log 21)
      let q := (off - 0x480000) / 64
      let c := s.creg .hub (qreg q 0x20)
      !c.getLsbD 16 || (off % 64 = 0x20 && v = setFld c 16 1 0)
    else if 0x320000 ≤ off && off < 0x320400 && (off - 0x320000) % 0x100 ≤ 0x20 then
      -- ECFG to EUDP only while EN is 0, and EN only with a UDP port (20 R406)
      let port := (off - 0x320000) / 0x100
      let c := s.creg .hub (ethOff port 0)
      !c.getLsbD 0 && !(off % 0x100 = 0 && v.getLsbD 0 && fld (s.creg .hub (ethOff port 0x20)) 0 16 = 0)
    else true
  | _ => true

/-! ### The write -/

/-- A field of a stream port: the speculative copy equals the architectural one while the port is not RUN. -/
def State.writePort (s : State) (q off : Nat) (v : W64) : State :=
  let n := (off - 0x8400) / 0x200
  let k := (off - 0x8400) % 0x200
  let p := s.port q n
  if k = 0 then s.setPort q n { p with tenant := fld v 2 9 }
  else if k = 0x28 then s.setPort q n { p with retired := v }
  else
    let c : PortCtx := if k = 8 then { p.arch with tpc := v.toNat } else { p.arch with k := p.arch.k.put 0 ((k - 0x100) / 8) v }
    s.setPort q n { p with arch := c, spec := c }
/-- Store a masked value in a register, with what the write itself starts. -/
def State.writeReg (s : State) (p : Page) (off : Nat) (v : W64) : State :=
  match p with
  | .unplaced =>
    if off = 0x1000 then { s with pkg := v.toNat }
    else if 0x2000 ≤ off then { s with timinRoute := s.timinRoute.put 0xFFFF ((off - 0x2000) / 8) v.toNat }
    else { s with roots := s.roots.put 0 (off / 8) v.toNat }
  | .cluster c => if off = 0 then s.setClkpat c v else s.setSlope c v
  | .part q =>
    if off = 0x8000 then s.setWlimit q v
    else if 0x8400 ≤ off && off < 0x8C00 then s.writePort q off v else s.setCreg p off v
  | .hub =>
    let slot := (off - 0x500000) / 8
    if off = 0x300000 then s.setPcap v
    else if 0x500000 ≤ off && off < 0x504000 then s.setSlot slot (fld v 0 2) (fld v 8 9)
    else
    let limit := 0x400000 ≤ off && off < 0x408000 && 8 ≤ off % 64 && off % 64 ≤ 0x18
    let s1 := if limit then s.setCregNext p off v else s.setCreg p off v
    if 0x330000 ≤ off && off < 0x350000 then s1.startConns (fld (s1.creg .hub (off / 32 * 32)) 0 16)
    else s1
  -- PSCHED, PMATRIX and WMASK act from the next cycle on (05 R121, 08 R188, 14 R284)
  | .core _ => if 0x100 ≤ off && off < 0x140 then s.setCregNext p off v else s.setCreg p off v
  | .slice _ => if 0x1000 ≤ off && off < 0x1800 then s.setCregNext p off v else s.setCreg p off v
  | _ => s.setCreg p off v

/-- What a function of the host link maps (18 R369): BAR0 of PF0, numbered 0, the hub page and the heartbeat page; BAR0 of VF
p + 1 the port registers and the feed queues of partition p. Registers that the host writes through HOSTIF or at bring-up and
to which the spec gives no BAR are reached by PF0, and the page-fault registers of a partition by its VF too (log 45). -/
def State.hostReach (s : State) (fn : Nat) (p : Page) (off : Nat) : Bool :=
  match p with
  | .hub =>
    fn = 0 || (0x480000 ≤ off && off < 0x490000 && s.tenantPart (fld (s.creg .hub (qreg ((off - 0x480000) / 64) 0x20)) 7 9) + 1 = fn)
  | .heart => fn = 0
  | .part q =>
    if 0x8400 ≤ off && off < 0x8C00 then fn = q + 1
    else 0x8070 ≤ off && off ≤ 0x8080 && (fn = 0 || fn = q + 1)
  | .unplaced => fn = 0
  | _ => false
/-- A register that the host writes through HOSTIF (14 R413, 16 R314). -/
def throughHostif : Page → Bool
  | .part _ => true
  | _ => false

/-- A write below the register's privilege raises PRIV where a program makes it (00 R6), at the address of a group of its
gang; the spec gives no TRAPADDR for it (log 45). -/
def State.privWrite (s : State) (gid : Nat) : State :=
  match s.here? gid with
  | none => s
  | some (g, _) =>
    let m := if g.eligible = 0 then g.liveMask else g.eligible
    let pc := g.pcOf (lowLane m)
    let (k, s1) := s.takeFree
    s1.takeTrap gid (maskWhere fun l => m.getLsbD l && g.pcOf l = pc && g.unit l = g.unit (lowLane m)) Cause.priv (pcImage pc)
      (Config.freeW64 k)

/-- REGISTER_WRITE. A host's write below the register's privilege has no effect: the host takes no trap (log 45). -/
def execRegisterWrite (by_ : Writer) (page : Page) (off : Nat) (v : W64) (s : State) : Out :=
  let far := match by_ with | .host fn => !s.hostReach fn page off | _ => false
  match regRule page off with
  | none => .next s
  | some r =>
    let x := storedAs page off (v &&& r.mask)
    if far then .next s
    else if writerLevel by_ < r.level then
      (match by_ with | .program gid => finish (s.privWrite gid) | _ => .next s)
    else if r.level = 1 && throughHostif page && !s.hostif then .next s.defer
    else match s.lockOf page off x with
      | some q => .next (s.tdiFail q)
      | none => .next (if s.takesWrite page off x then s.writeReg page off x else s)

/-! ### What a read returns -/

/-- TSTATE of a port, 16 Table 114. -/
def Port.tstate (p : Port) : Nat :=
  let st := match p.state with | .idle => 0 | .run => 1 | .stoppedFault => 2 | .stoppedCancel => 3 | .halting => 4
  st + 2 ^ 8 * p.cause + 2 ^ 16 * p.sub + 2 ^ 24 * p.bind + 2 ^ 28 * b2n p.imprecise + 2 ^ 32 * p.tidx
/-- A register of a stream port. -/
def State.readPort (s : State) (q off : Nat) : Nat :=
  let p := s.port q ((off - 0x8400) / 0x200)
  match (off - 0x8400) % 0x200 with
  | 0 => p.tenant * 4
  | 8 => p.arch.tpc
  | 0x10 => p.tstate
  | 0x18 => p.detail.toNat
  | 0x20 => p.trappc.toNat
  | 0x28 => p.retired.toNat
  | 0x30 => p.arch.phase
  | k => if 0x100 ≤ k then (p.arch.k.getD ((k - 0x100) / 8) 0).toNat else 0
/-- PFAULT: the oldest held fault (14 Table 162). -/
def State.pfault (s : State) (part : Nat) : Nat :=
  match s.heldFaults part with
  | (_, f) :: _ => f.tenant + 2 ^ 9 * f.kind + 2 ^ 11 + 2 ^ 16 * fld f.va 16 41
  | [] => 0
/-- Bytes of a mailbox as it lies in the hub page: 64 for each message, the oldest first (18 R361; log 45). -/
def mailBytes (q : List MailMsg) : List Byte :=
  q.flatMap fun m => leBytes 2 m.sender ++ leBytes 2 m.kind ++ leBytes 4 m.seq.toNat ++ (m.payload ++ List.replicate 56 0).take 56
/-- A control register as a read returns it: what the state holds elsewhere is computed, a write-only field reads 0. -/
def State.readReg (s : State) (p : Page) (off : Nat) : Nat :=
  match p with
  | .hub =>
    if off = 0 then 0
    else if off = 8 then s.bootCode + 2 ^ 8 * s.restarting.toNat
    else if 0x200000 ≤ off && off < 0x208000 && off % 0x1000 = 0xF00 then
      16 - (s.mail.getD ((off - 0x200000) / 0x1000) []).length
    else if 0x200000 ≤ off && off < 0x208000 && off % 0x1000 < 0x400 then
      leNat (((mailBytes (s.mail.getD ((off - 0x200000) / 0x1000) [])).drop (off % 0x1000)).take 8)
    else if 0x400000 ≤ off && off < 0x408000 then
      let t := (off - 0x400000) / 64
      let r := (s.creg .hub off).toNat
      if off % 64 = 8 then r + 2 ^ 16 * s.slotsUsed t
      else if off % 64 = 0x10 then r + 2 ^ 32 * (s.useBw.getD t 0 / 256)
      else if off % 64 = 0x18 then r + 2 ^ 32 * s.useEn.getD t 0
      else r
    else (s.creg .hub off).toNat
  | .part q =>
    if 0x8400 ≤ off && off < 0x8C00 then s.readPort q off
    else if off = 0x8078 then s.pfault q
    else if off = 0x8080 then 0
    else (match inTable off 0x8100 8 17 with | some c => (s.freeList q c).length | none => (s.creg p off).toNat)
  | .slice n =>
    if off = 0x100 then (s.monitors.filter fun m => m.site = Site.slice n).length
    else (match inTable off 0x2000 4 512 with | some t => s.l2Occ n t | none => (s.creg p off).toNat)
  | .heart => if off % 8 = 0 then (s.heart.getD (off / 8) 0).toNat else 0
  | .unplaced =>
    if off = 0x1000 then s.pkg
    else if 0x2000 ≤ off then s.timinRoute.getD ((off - 0x2000) / 8) 0xFFFF
    else s.roots.getD (off / 8) 0
  | _ => (s.creg p off).toNat

/-! ### The host link (18 R369, R370) -/

/-- HOST_LINK_ACCESS, under no key (log 19): memory through PF0 or through a partition's own function, a control page through
BAR0, or the staging window. PF0 reaches no memory of a partition whose interface is locked, and the attempt moves the
interface to ERROR (18 R370). Registers with an event of their own are written by that event. -/
def execHostLinkAccess (t : HostTarget) (acc : ExtAcc) (s : State) : Out :=
  let answer (s : State) (bs : List Byte) (bad : Bool) : State :=
    if accSize acc = 0 then s else { s with sent := s.sent ++ [Sent.hostRead bs bad] }
  match t with
  | .staging off =>
    (match acc with
     | .write bs =>
       .next { s with staging := (addressed off bs).foldl (fun m b => if b.1 < stagingSize then m.put 0 b.1 b.2 else m) s.staging }
     | .read n => .next (answer s ((List.range n).map fun i => s.staging.getD (off + i) 0) false)
     | _ => .next s)
  | .bar0 fn page off =>
    (match acc with
     | .write bs => execRegisterWrite (.host fn) page off (BitVec.ofNat 64 (leNat bs)) s
     | .read n => .next (answer s (leBytes n (if s.hostReach fn page off then s.readReg page off else 0)) false)
     | _ => .next s)
  | .memory fn pa =>
    let held := match fn, s.partOfPa pa with | none, some p => if s.tdiHeld p then some p else none | _, _ => none
    let mine := match fn with | none => true | some p => s.chanOf p pa
    match held with
    | some p => .next (s.tdiFail p)
    | none =>
      if !mine then .next (answer s (List.replicate (accSize acc) 0) false)
      else
        let r := s.extPerform 0 { kind := .mem plainKey, addr := pa } acc
        finish (answer r.2.2 r.1 r.2.1)

end Sys2Proof.Machine
end

