-- ==== Sys2Proof/Machine/Scal.lean ====
section
/-! DEFINITION. The SCAL class (04 R99 to R102). -/

namespace Sys2Proof.Machine

/-- Source k of n: the s-register, or the sign-extended immediate in place of the last one used (04 R99). -/
def scalSrc (c : Ctx) (w : ScalW) (n k : Nat) : W64 :=
  if w.i = 1 && k + 1 = n then w.imm.signExtend 64
  else match k with
    | 0 => c.r.s w.sa.toNat
    | 1 => c.r.s w.sb.toNat
    | _ => c.r.s w.sc.toNat

/-- The s-registers that the word reads. -/
def scalReads (w : ScalW) (n : Nat) : List Nat :=
  ([w.sa.toNat, w.sb.toNat, w.sc.toNat].take n).take (if w.i = 1 then n - 1 else n)

def scalUseOf (w : ScalW) (n : Nat) : WordUse := { active := guardOf w.g, ssrcs := scalReads w n }

/-- A scalar instruction: SD takes a value of the sources, once for the gang (04 R99). -/
def scalWord (i : Instr) (w : ScalW) (n : Nat) (f : W64 → W64 → W64 → W64) : State → Out :=
  coreWord i (scalUseOf w n) noChk
    (onGang fun c g =>
      g.setS w.sd.toNat (f (scalSrc c w n 0) (if 2 ≤ n then scalSrc c w n 1 else 0) (if 3 ≤ n then scalSrc c w n 2 else 0)))

def execSmov (w : ScalW) : State → Out := scalWord (.smov w) w 1 fun a _ _ => a
def execSmovi (w : ScalW) : State → Out := scalWord (.smovi w) w 1 fun a _ _ => a
/-- SMOVI64, 04 R101: two words. -/
def execSmovi64 (w : ScalW) (hi : IWord) : State → Out :=
  coreWord (.smovi64 w hi) { active := guardOf w.g, words := 2 } noChk
    (onGang fun _ g => g.setS w.sd.toNat (hi.extractLsb' 0 32 ++ w.imm))
def execSadd (w : ScalW) : State → Out := scalWord (.sadd w) w 2 fun a b _ => a + b
def execSsub (w : ScalW) : State → Out := scalWord (.ssub w) w 2 fun a b _ => a - b
def execSmul (w : ScalW) : State → Out := scalWord (.smul w) w 2 fun a b _ => a * b
/-- High half of the product, signed with AUX[0]. -/
def mulHigh (sg : Bool) (a b : W64) : W64 :=
  BitVec.ofInt 64 ((if sg then a.toInt * b.toInt else (a.toNat * b.toNat : Nat)) / (2 ^ 64 : Nat))
def execSmulh (w : ScalW) : State → Out := scalWord (.smulh w) w 2 fun a b _ => mulHigh (w.aux.getLsbD 0) a b
def execSand (w : ScalW) : State → Out := scalWord (.sand w) w 2 fun a b _ => a &&& b
def execSor (w : ScalW) : State → Out := scalWord (.sor w) w 2 fun a b _ => a ||| b
def execSxor (w : ScalW) : State → Out := scalWord (.sxor w) w 2 fun a b _ => a ^^^ b
def execSshl (w : ScalW) : State → Out := scalWord (.sshl w) w 2 fun a b _ => a <<< (b.toNat % 64)
def execSshr (w : ScalW) : State → Out := scalWord (.sshr w) w 2 fun a b _ => a >>> (b.toNat % 64)
def execSsra (w : ScalW) : State → Out := scalWord (.ssra w) w 2 fun a b _ => a.sshiftRight (b.toNat % 64)
/-- SCMP conditions: 0 to 5 signed, 6 LTU, 7 GEU. -/
def scalCmp (cc : Nat) (a b : W64) : Bool :=
  if cc = 6 then a.toNat < b.toNat else if cc = 7 then b.toNat ≤ a.toNat else cmpInt cc a.toInt b.toInt
def execScmp (w : ScalW) : State → Out := scalWord (.scmp w) w 2 fun a b _ => if scalCmp w.aux.toNat a b then 1 else 0
def execSsel (w : ScalW) : State → Out := scalWord (.ssel w) w 3 fun a b c => if c = 0 then b else a
def sLess (sg : Bool) (a b : W64) : Bool := if sg then a.toInt < b.toInt else a.toNat < b.toNat
def execSmin (w : ScalW) : State → Out := scalWord (.smin w) w 2 fun a b _ => if sLess (w.aux.getLsbD 0) b a then b else a
def execSmax (w : ScalW) : State → Out := scalWord (.smax w) w 2 fun a b _ => if sLess (w.aux.getLsbD 0) a b then b else a
def execSclz (w : ScalW) : State → Out := scalWord (.sclz w) w 1 fun a _ _ => BitVec.ofNat 64 (clzNat 64 a.toNat)
def execSpopc (w : ScalW) : State → Out := scalWord (.spopc w) w 1 fun a _ _ => BitVec.ofNat 64 (popNat 64 a.toNat)
def execSlea (w : ScalW) : State → Out := scalWord (.slea w) w 2 fun a b _ => a + b <<< w.aux.toNat
/-- VTOS, 04 R102: VR through PMV from the lowest active lane. -/
def execVtos (w : ScalW) : State → Out :=
  coreWord (.vtos w)
    { active := guardOf w.g, srcs := [{ reg := w.vr.toNat, trap := w.ev = 1, perm := w.pmv, low := true }] } noChk
    (onGang fun c g =>
      let x := c.r.v (permSrc w.pmv (lowLane c.act)) w.vr.toNat
      g.setS w.sd.toNat (if w.aux.getLsbD 0 then x.signExtend 64 else x.setWidth 64))
/-- STOV, 04 R102. -/
def execStov (w : ScalW) : State → Out :=
  let u := scalUseOf w 1
  coreWord (.stov w) { u with dsts := [(w.vr.toNat, 1)] } noChk
    (eachLane fun c g l => g.setV l w.vr.toNat ((scalSrc c w 1 0).setWidth 32))

end Sys2Proof.Machine
end

