-- ==== Sys2Proof/Machine/Xlane.lean ====
section
/-! DEFINITION. The XLANE class (06 R141 to R145). -/

namespace Sys2Proof.Machine

/-- The use of an XLANE word: gang-collective; A (and for SHFL and PUSH a 32-bit B) as sources, D of T's width. -/
def xlUse (w : VecW) (reads : Nat) (dw : Nat) : WordUse :=
  let wd := widthOf w.t
  let a : List VSrc := if 1 ≤ reads then [{ reg := w.a.toNat, count := regsOf wd, trap := w.ea = 1 }] else []
  let b : List VSrc := if 2 ≤ reads && w.i = 0 then [{ reg := w.b.toNat, trap := w.eb = 1, perm := w.pmb }] else []
  { active := guardOf w.g, srcs := a ++ b, collective := true
    dsts := if dw = 0 then [] else [(w.d.toNat, regsOf dw)]
    evens := (if wd = 64 && 1 ≤ reads then [w.a.toNat] else []) ++ (if dw = 64 then [w.d.toNat] else []) }

/-- val(j): source A of any lane (06 R143). -/
def xlVal (c : Ctx) (w : VecW) (j : Nat) : Nat := c.r.vw (widthOf w.t) j w.a.toNat
/-- The lane index operand: b[4:0] or IMM. -/
def xlIdx (c : Ctx) (w : VecW) (l : Nat) : Nat :=
  (if w.i = 1 then w.imm.toNat else (c.r.v (permSrc w.pmb l) w.b.toNat).toNat) % 32
/-- pr(l): the predicate that U names, inverted with U[3]. -/
def xlPred (c : Ctx) (w : VecW) (l : Nat) : Bool := c.r.p l (w.u.toNat % 8) != w.u.getLsbD 3

/-- The poison check of values taken from lanes (14 R297). -/
def xlPoison (w : VecW) (from_ : Ctx → List Nat) (c : Ctx) (_ : State) : Check :=
  if c.act = 0 then .ok
  else if (from_ c).any fun j => (List.range (regsOf (widthOf w.t))).any fun k => c.r.poison.contains (vkey j (w.a.toNat + k))
    then .trap Cause.poison (BitVec.ofNat 64 w.a.toNat) else .ok

/-- Write D of a lane. -/
def xlSet (w : VecW) (g : Gang) (l x : Nat) : Gang := g.setVw (widthOf w.t) l w.d.toNat x

def execShfl (w : VecW) : State → Out :=
  coreWord (.shfl w) (xlUse w 2 (widthOf w.t)) (xlPoison w fun c => (lanesOf c.act).map (xlIdx c w))
    (eachLane fun c g l => xlSet w g l (xlVal c w (xlIdx c w l)))
def execPush (w : VecW) : State → Out :=
  coreWord (.push w) (xlUse w 2 (widthOf w.t)) noChk
    (eachLane fun c g l =>
      let d := xlIdx c w l
      if c.act.getLsbD d then xlSet w g d (xlVal c w l) else { g with fpstat := g.fpstat ||| 0x100 })
def execSlup (w : VecW) : State → Out :=
  coreWord (.slup w) { xlUse w 1 (widthOf w.t) with ssrcs := [w.s.toNat] }
    (xlPoison w fun c => ((lanesOf c.act).filter fun l => (c.r.s w.s.toNat).toNat ≤ l).map (· - (c.r.s w.s.toNat).toNat))
    (eachLane fun c g l =>
      let k := (c.r.s w.s.toNat).toNat
      if k ≤ l then xlSet w g l (xlVal c w (l - k)) else g)
def execSldn (w : VecW) : State → Out :=
  coreWord (.sldn w) { xlUse w 1 (widthOf w.t) with ssrcs := [w.s.toNat] }
    (xlPoison w fun c =>
      ((lanesOf c.act).filter fun l => l + (c.r.s w.s.toNat).toNat ≤ 31).map (· + (c.r.s w.s.toNat).toNat))
    (eachLane fun c g l =>
      let k := (c.r.s w.s.toNat).toNat
      if l + k ≤ 31 then xlSet w g l (xlVal c w (l + k)) else g)

/-- The lanes of A whose predicate is 1, ascending. -/
def xlSel (c : Ctx) (w : VecW) : List Nat := (lanesOf c.act).filter (xlPred c w)
def execCmprs (w : VecW) : State → Out :=
  coreWord (.cmprs w) (xlUse w 1 (widthOf w.t)) noChk
    (onGang fun c g =>
      ((xlSel c w).zip (lanesOf c.act)).foldl (fun g e => xlSet w g e.2 (xlVal c w e.1)) g)
def execExpnd (w : VecW) : State → Out :=
  coreWord (.expnd w) (xlUse w 1 (widthOf w.t)) noChk
    (onGang fun c g =>
      ((xlSel c w).zip (lanesOf c.act)).foldl (fun g e => xlSet w g e.1 (xlVal c w e.2)) g)

def execBallot (w : VecW) : State → Out :=
  coreWord (.ballot w) (xlUse w 0 32) noChk
    (eachLane fun c g l => g.setV l w.d.toNat (c.act &&& maskWhere (xlPred c w)))
def execVoteall (w : VecW) : State → Out :=
  coreWord (.voteall w) (xlUse w 0 0) noChk
    (eachLane fun c g l => g.setP l w.pd.toNat ((lanesOf c.act).all (xlPred c w)))
def execVoteany (w : VecW) : State → Out :=
  coreWord (.voteany w) (xlUse w 0 0) noChk
    (eachLane fun c g l => g.setP l w.pd.toNat ((lanesOf c.act).any (xlPred c w)))
def execVoteeq (w : VecW) : State → Out :=
  coreWord (.voteeq w) (xlUse w 1 0) noChk
    (eachLane fun c g l =>
      g.setP l w.pd.toNat ((lanesOf c.act).all fun j => xlVal c w j = xlVal c w (lowLane c.act)))
def execMatchLanes (w : VecW) : State → Out :=
  coreWord (.matchLanes w) (xlUse w 1 32) noChk
    (eachLane fun c g l =>
      g.setV l w.d.toNat (c.act &&& maskWhere fun j => xlVal c w j = xlVal c w l))
def execActmask (w : VecW) : State → Out :=
  coreWord (.actmask w) (xlUse w 0 32) noChk (eachLane fun c g l => g.setV l w.d.toNat c.act)

/-! ### Folds (06 R145) -/

/-- The first value of a fold, read once: under FP32 any NaN is written as the canonical NaN, and a signalling one sets
NV, and under FZ a subnormal is read as a zero (02 R37). -/
def foldFirst (fz : Bool) (t : BitVec 4) (x : Nat) : Nat × Flg :=
  if t = Fmt.fp32 then
    match decodeF fmtFp32 x with
    | .nan g => (fmtFp32.nanCode, if g then fNV else 0)
    | v => (if (read32 fz x).isZero then fmtFp32.signBit v.sign else x, 0)
  else (x, 0)

/-- A fold over values: each partial result and all flags. -/
def foldVals (fz : Bool) (t : BitVec 4) (op : Nat → Nat → FRes) : List Nat → List Nat × Flg
  | [] => ([], 0)
  | x :: xs =>
    let first := foldFirst fz t x
    let r := xs.foldl (fun (acc : Nat × List Nat × Flg) y =>
      let v := op acc.1 y
      (v.1, acc.2.1 ++ [v.1], acc.2.2 ||| v.2)) (first.1, [first.1], first.2)
    (r.2.1, r.2.2)

/-- The operations of folds. -/
def foldAdd (c : Ctx) (w : VecW) (a b : Nat) : FRes :=
  if w.t = Fmt.fp32 then fAdd c.r.fz (rndOf w.rm 0 0 0) a b else ((a + b) % 2 ^ widthOf w.t, 0)
def foldMinMax (isMax : Bool) (c : Ctx) (w : VecW) (a b : Nat) : FRes :=
  if w.t = Fmt.fp32 then fMinMax c.r.fz isMax a b
  else
    let wd := widthOf w.t
    (if (asInt (signedOf w.t) wd a ≤ asInt (signedOf w.t) wd b) != isMax then a else b, 0)

/-- A reduction: D of every lane of A, and with U[0] the s-register, extended by T. -/
def redWord (i : Instr) (w : VecW) (op : Ctx → VecW → Nat → Nat → FRes) : State → Out :=
  coreWord i (xlUse w 1 (widthOf w.t)) noChk
    (onGang fun c g =>
      let r := foldVals c.r.fz w.t (op c w) ((lanesOf c.act).map (xlVal c w))
      let v := r.1.getLastD 0 % 2 ^ widthOf w.t
      let g1 := (lanesOf c.act).foldl (fun g l => xlSet w g l v) g
      let wide : W64 := if widthOf w.t = 32 && w.t = Fmt.si32 then (BitVec.ofNat 32 v).signExtend 64 else BitVec.ofNat 64 v
      (if w.u.getLsbD 0 then g1.setS w.s.toNat wide else g1).raise r.2)
def execRedadd (w : VecW) : State → Out := redWord (.redadd w) w foldAdd
def execRedmin (w : VecW) : State → Out := redWord (.redmin w) w (foldMinMax false)
def execRedmax (w : VecW) : State → Out := redWord (.redmax w) w (foldMinMax true)
/-- SCANADD: each lane its partial fold, or with U[1] the one before it. -/
def execScanadd (w : VecW) : State → Out :=
  coreWord (.scanadd w) (xlUse w 1 (widthOf w.t)) noChk
    (onGang fun c g =>
      let ls := lanesOf c.act
      let r := foldVals c.r.fz w.t (foldAdd c w) (ls.map (xlVal c w))
      let outs := if w.u.getLsbD 1 then 0 :: r.1 else r.1
      ((ls.zip outs).foldl (fun g e => xlSet w g e.1 e.2) g).raise r.2)

end Sys2Proof.Machine
end

