-- ==== Sys2Proof/Machine/Dispatch.lean ====
section
/-! DEFINITION. One arm for each constructor of Instr: the direct call of its meaning. -/

namespace Sys2Proof.Machine

def exec (i : Instr) (s : State) : Host.Outcome State Fault Refusal :=
  match i with
  | .nop w => Sys2Proof.Machine.execNop w s
  | .bra w => Sys2Proof.Machine.execBra w s
  | .brx w => Sys2Proof.Machine.execBrx w s
  | .call w => Sys2Proof.Machine.execCall w s
  | .callx w => Sys2Proof.Machine.execCallx w s
  | .ret w => Sys2Proof.Machine.execRet w s
  | .fuse w => Sys2Proof.Machine.execFuse w s
  | .exit w => Sys2Proof.Machine.execExit w s
  | .trap w => Sys2Proof.Machine.execTrap w s
  | .brk w => Sys2Proof.Machine.execBrk w s
  | .yield w => Sys2Proof.Machine.execYield w s
  | .sread w => Sys2Proof.Machine.execSread w s
  | .swrite w => Sys2Proof.Machine.execSwrite w s
  | .eret w => Sys2Proof.Machine.execEret w s
  | .syscall w => Sys2Proof.Machine.execSyscall w s
  | .sleep w => Sys2Proof.Machine.execSleep w s
  | .smov w => Sys2Proof.Machine.execSmov w s
  | .smovi w => Sys2Proof.Machine.execSmovi w s
  | .smovi64 w hi => Sys2Proof.Machine.execSmovi64 w hi s
  | .sadd w => Sys2Proof.Machine.execSadd w s
  | .ssub w => Sys2Proof.Machine.execSsub w s
  | .smul w => Sys2Proof.Machine.execSmul w s
  | .smulh w => Sys2Proof.Machine.execSmulh w s
  | .sand w => Sys2Proof.Machine.execSand w s
  | .sor w => Sys2Proof.Machine.execSor w s
  | .sxor w => Sys2Proof.Machine.execSxor w s
  | .sshl w => Sys2Proof.Machine.execSshl w s
  | .sshr w => Sys2Proof.Machine.execSshr w s
  | .ssra w => Sys2Proof.Machine.execSsra w s
  | .scmp w => Sys2Proof.Machine.execScmp w s
  | .ssel w => Sys2Proof.Machine.execSsel w s
  | .smin w => Sys2Proof.Machine.execSmin w s
  | .smax w => Sys2Proof.Machine.execSmax w s
  | .sclz w => Sys2Proof.Machine.execSclz w s
  | .spopc w => Sys2Proof.Machine.execSpopc w s
  | .vtos w => Sys2Proof.Machine.execVtos w s
  | .stov w => Sys2Proof.Machine.execStov w s
  | .slea w => Sys2Proof.Machine.execSlea w s
  | .iadd w => Sys2Proof.Machine.execIadd w s
  | .isub w => Sys2Proof.Machine.execIsub w s
  | .imul w => Sys2Proof.Machine.execImul w s
  | .imulh w => Sys2Proof.Machine.execImulh w s
  | .imad w => Sys2Proof.Machine.execImad w s
  | .imin w => Sys2Proof.Machine.execImin w s
  | .imax w => Sys2Proof.Machine.execImax w s
  | .iabs w => Sys2Proof.Machine.execIabs w s
  | .ineg w => Sys2Proof.Machine.execIneg w s
  | .and w => Sys2Proof.Machine.execAnd w s
  | .or w => Sys2Proof.Machine.execOr w s
  | .xor w => Sys2Proof.Machine.execXor w s
  | .not w => Sys2Proof.Machine.execNot w s
  | .shl w => Sys2Proof.Machine.execShl w s
  | .shr w => Sys2Proof.Machine.execShr w s
  | .sra w => Sys2Proof.Machine.execSra w s
  | .rot w => Sys2Proof.Machine.execRot w s
  | .bfe w => Sys2Proof.Machine.execBfe w s
  | .bfi w => Sys2Proof.Machine.execBfi w s
  | .clz w => Sys2Proof.Machine.execClz w s
  | .popc w => Sys2Proof.Machine.execPopc w s
  | .brev w => Sys2Proof.Machine.execBrev w s
  | .icmp w => Sys2Proof.Machine.execIcmp w s
  | .sel w => Sys2Proof.Machine.execSel w s
  | .mov w => Sys2Proof.Machine.execMov w s
  | .movi w => Sys2Proof.Machine.execMovi w s
  | .iaddsh w => Sys2Proof.Machine.execIaddsh w s
  | .idot4 w => Sys2Proof.Machine.execIdot4 w s
  | .fadd w => Sys2Proof.Machine.execFadd w s
  | .fsub w => Sys2Proof.Machine.execFsub w s
  | .fmul w => Sys2Proof.Machine.execFmul w s
  | .ffma w => Sys2Proof.Machine.execFfma w s
  | .fmin w => Sys2Proof.Machine.execFmin w s
  | .fmax w => Sys2Proof.Machine.execFmax w s
  | .fcmp w => Sys2Proof.Machine.execFcmp w s
  | .fclass w => Sys2Proof.Machine.execFclass w s
  | .frnd w => Sys2Proof.Machine.execFrnd w s
  | .fdot2 w => Sys2Proof.Machine.execFdot2 w s
  | .fscale w => Sys2Proof.Machine.execFscale w s
  | .ffract w => Sys2Proof.Machine.execFfract w s
  | .fdiv w => Sys2Proof.Machine.execFdiv w s
  | .cvt w => Sys2Proof.Machine.execCvt w s
  | .pack w => Sys2Proof.Machine.execPack w s
  | .unpack w => Sys2Proof.Machine.execUnpack w s
  | .qnt w => Sys2Proof.Machine.execQnt w s
  | .dqnt w => Sys2Proof.Machine.execDqnt w s
  | .rcp w => Sys2Proof.Machine.execRcp w s
  | .rsq w => Sys2Proof.Machine.execRsq w s
  | .sqrt w => Sys2Proof.Machine.execSqrt w s
  | .exp2 w => Sys2Proof.Machine.execExp2 w s
  | .log2 w => Sys2Proof.Machine.execLog2 w s
  | .sin w => Sys2Proof.Machine.execSin w s
  | .cos w => Sys2Proof.Machine.execCos w s
  | .tanh w => Sys2Proof.Machine.execTanh w s
  | .vpair w => Sys2Proof.Machine.execVpair w s
  | .shfl w => Sys2Proof.Machine.execShfl w s
  | .push w => Sys2Proof.Machine.execPush w s
  | .ballot w => Sys2Proof.Machine.execBallot w s
  | .voteall w => Sys2Proof.Machine.execVoteall w s
  | .voteany w => Sys2Proof.Machine.execVoteany w s
  | .voteeq w => Sys2Proof.Machine.execVoteeq w s
  | .cmprs w => Sys2Proof.Machine.execCmprs w s
  | .expnd w => Sys2Proof.Machine.execExpnd w s
  | .slup w => Sys2Proof.Machine.execSlup w s
  | .sldn w => Sys2Proof.Machine.execSldn w s
  | .redadd w => Sys2Proof.Machine.execRedadd w s
  | .redmin w => Sys2Proof.Machine.execRedmin w s
  | .redmax w => Sys2Proof.Machine.execRedmax w s
  | .scanadd w => Sys2Proof.Machine.execScanadd w s
  | .matchLanes w => Sys2Proof.Machine.execMatchLanes w s
  | .actmask w => Sys2Proof.Machine.execActmask w s
  | .ld w => Sys2Proof.Machine.execLd w s
  | .st w => Sys2Proof.Machine.execSt w s
  | .ldu w => Sys2Proof.Machine.execLdu w s
  | .atom w => Sys2Proof.Machine.execAtom w s
  | .red w => Sys2Proof.Machine.execRed w s
  | .cas w => Sys2Proof.Machine.execCas w s
  | .ord w => Sys2Proof.Machine.execOrd w s
  | .fence w => Sys2Proof.Machine.execFence w s
  | .waitc w => Sys2Proof.Machine.execWaitc w s
  | .pref w => Sys2Proof.Machine.execPref w s
  | .invt w => Sys2Proof.Machine.execInvt w s
  | .mma w k => Sys2Proof.Machine.execMma w k s
  | .tlma w k => Sys2Proof.Machine.execTlma w k s
  | .tlpre w => Sys2Proof.Machine.execTlpre w s
  | .mzero w => Sys2Proof.Machine.execMzero w s
  | .mldt w => Sys2Proof.Machine.execMldt w s
  | .mstt w => Sys2Proof.Machine.execMstt w s
  | .rast w => Sys2Proof.Machine.execRast w s
  | .blend w => Sys2Proof.Machine.execBlend w s
  | .filt w => Sys2Proof.Machine.execFilt w s
  | .trav w => Sys2Proof.Machine.execTrav w s
  | .bin w => Sys2Proof.Machine.execBin w s
  | .binPop w => Sys2Proof.Machine.execBinPop w s
  | .mcode op w => Sys2Proof.Machine.execMcode op w s
  | .bar w => Sys2Proof.Machine.execBar w s
  | .barc w => Sys2Proof.Machine.execBarc w s
  | .barcFinal w => Sys2Proof.Machine.execBarcFinal w s
  | .barg w => Sys2Proof.Machine.execBarg w s
  | .grd w => Sys2Proof.Machine.execGrd w s
  | .gwr w => Sys2Proof.Machine.execGwr w s
  | .gatom w => Sys2Proof.Machine.execGatom w s
  | .xclaim w => Sys2Proof.Machine.execXclaim w s
  | .xgive w => Sys2Proof.Machine.execXgive w s
  | .xquery w => Sys2Proof.Machine.execXquery w s
  | .spawn w => Sys2Proof.Machine.execSpawn w s
  | .spawnf w => Sys2Proof.Machine.execSpawnf w s
  | .qpop w => Sys2Proof.Machine.execQpop w s
  | .qpush w => Sys2Proof.Machine.execQpush w s
  | .cancel w => Sys2Proof.Machine.execCancel w s
  | .cntrd w => Sys2Proof.Machine.execCntrd w s
  | .cecopy w k => Sys2Proof.Machine.execCecopy w k s
  | .cegath w k => Sys2Proof.Machine.execCegath w k s
  | .cescat w k => Sys2Proof.Machine.execCescat w k s
  | .cefill w => Sys2Proof.Machine.execCefill w s
  | .cedec w k => Sys2Proof.Machine.execCedec w k s
  | .cestat w => Sys2Proof.Machine.execCestat w s
  | .tnop w => Sys2Proof.Machine.execTnop w s
  | .tbind w => Sys2Proof.Machine.execTbind w s
  | .tfree w => Sys2Proof.Machine.execTfree w s
  | .tlaunch w bs => Sys2Proof.Machine.execTlaunch w bs s
  | .tcopy w => Sys2Proof.Machine.execTcopy w s
  | .tfill w => Sys2Proof.Machine.execTfill w s
  | .tallred w => Sys2Proof.Machine.execTallred w s
  | .tallgat w => Sys2Proof.Machine.execTallgat w s
  | .trdscat w => Sys2Proof.Machine.execTrdscat w s
  | .tdraw w bs => Sys2Proof.Machine.execTdraw w bs s
  | .tpresent w => Sys2Proof.Machine.execTpresent w s
  | .twait w => Sys2Proof.Machine.execTwait w s
  | .tsignal w => Sys2Proof.Machine.execTsignal w s
  | .tfence w => Sys2Proof.Machine.execTfence w s
  | .tkmov w => Sys2Proof.Machine.execTkmov w s
  | .tkadd w => Sys2Proof.Machine.execTkadd w s
  | .tkld w => Sys2Proof.Machine.execTkld w s
  | .tkbr w => Sys2Proof.Machine.execTkbr w s
  | .tphase w => Sys2Proof.Machine.execTphase w s
  | .tgroup w => Sys2Proof.Machine.execTgroup w s
  | .tend w => Sys2Proof.Machine.execTend w s
  | .producerWriteback gang idx => Sys2Proof.Machine.execProducerWriteback gang idx s
  | .laneExited gang => Sys2Proof.Machine.execLaneExited gang s
  | .sleepWake gang => Sys2Proof.Machine.execSleepWake gang s
  | .activeSetRemove pid => Sys2Proof.Machine.execActiveSetRemove pid s
  | .quadSplit gang quad => Sys2Proof.Machine.execQuadSplit gang quad s
  | .timeSliceEnd wg => Sys2Proof.Machine.execTimeSliceEnd wg s
  | .admission part pid => Sys2Proof.Machine.execAdmission part pid s
  | .drainTimeout wg => Sys2Proof.Machine.execDrainTimeout wg s
  | .contextSave wg addr => Sys2Proof.Machine.execContextSave wg addr s
  | .contextRestore wg pid => Sys2Proof.Machine.execContextRestore wg pid s
  | .xclaimGrant pid => Sys2Proof.Machine.execXclaimGrant pid s
  | .xgiveCredit gang => Sys2Proof.Machine.execXgiveCredit gang s
  | .regDeadlockReport pid => Sys2Proof.Machine.execRegDeadlockReport pid s
  | .latheStep core lathe => Sys2Proof.Machine.execLatheStep core lathe s
  | .matrixPassStart pid => Sys2Proof.Machine.execMatrixPassStart pid s
  | .matrixBlock pid => Sys2Proof.Machine.execMatrixBlock pid s
  | .rdvStallWatchdog gang pc => Sys2Proof.Machine.execRdvStallWatchdog gang pc s
  | .binTimerExpire pid bin => Sys2Proof.Machine.execBinTimerExpire pid bin s
  | .binLaunch pid => Sys2Proof.Machine.execBinLaunch pid s
  | .starterWave cluster => Sys2Proof.Machine.execStarterWave cluster s
  | .waitcWake gang idx => Sys2Proof.Machine.execWaitcWake gang idx s
  | .parkedPoll gang idx => Sys2Proof.Machine.execParkedPoll gang idx s
  | .qpopCopy gang idx => Sys2Proof.Machine.execQpopCopy gang idx s
  | .wcbLineDrain core line => Sys2Proof.Machine.execWcbLineDrain core line s
  | .wcbDrainTimeout core line => Sys2Proof.Machine.execWcbDrainTimeout core line s
  | .engComplete cluster idx => Sys2Proof.Machine.execEngComplete cluster idx s
  | .pageFaultService part idx => Sys2Proof.Machine.execPageFaultService part idx s
  | .pfholdTimeout part => Sys2Proof.Machine.execPfholdTimeout part s
  | .pfrespReplay part tenant page => Sys2Proof.Machine.execPfrespReplay part tenant page s
  | .pfrespDeny part tenant page => Sys2Proof.Machine.execPfrespDeny part tenant page s
  | .tlbInvalidate tenant page => Sys2Proof.Machine.execTlbInvalidate tenant page s
  | .eccError unit addr double => Sys2Proof.Machine.execEccError unit addr double s
  | .illegalEncoding sub => Sys2Proof.Machine.execIllegalEncoding sub s
  | .fetchFault addr => Sys2Proof.Machine.execFetchFault addr s
  | .taskComplete part id => Sys2Proof.Machine.execTaskComplete part id s
  | .taskRetire part port => Sys2Proof.Machine.execTaskRetire part port s
  | .tctlGo part port tenant => Sys2Proof.Machine.execTctlGo part port tenant s
  | .tctlHalt part port => Sys2Proof.Machine.execTctlHalt part port s
  | .freeadd part v => Sys2Proof.Machine.execFreeadd part v s
  | .wlimitWrite part v => Sys2Proof.Machine.execWlimitWrite part v s
  | .snapshotTimeout part port => Sys2Proof.Machine.execSnapshotTimeout part port s
  | .bootctlGo => Sys2Proof.Machine.execBootctlGo s
  | .bootctlRestart mask => Sys2Proof.Machine.execBootctlRestart mask s
  | .bootImageCheckDone => Sys2Proof.Machine.execBootImageCheckDone s
  | .powerUp => Sys2Proof.Machine.execPowerUp s
  | .partitionReset part => Sys2Proof.Machine.execPartitionReset part s
  | .functionLevelReset => Sys2Proof.Machine.execFunctionLevelReset s
  | .coldReset => Sys2Proof.Machine.execColdReset s
  | .powerOff => Sys2Proof.Machine.execPowerOff s
  | .fwHeartbeat core => Sys2Proof.Machine.execFwHeartbeat core s
  | .peakTick energy => Sys2Proof.Machine.execPeakTick energy s
  | .intervalBoundary => Sys2Proof.Machine.execIntervalBoundary s
  | .powerMsTick energy temps => Sys2Proof.Machine.execPowerMsTick energy temps s
  | .headFrameStart head => Sys2Proof.Machine.execHeadFrameStart head s
  | .getVersion => Sys2Proof.Machine.execGetVersion s
  | .getCapabilities => Sys2Proof.Machine.execGetCapabilities s
  | .getDigests => Sys2Proof.Machine.execGetDigests s
  | .linkRetrain link => Sys2Proof.Machine.execLinkRetrain link s
  | .linkRetrainDone link => Sys2Proof.Machine.execLinkRetrainDone link s
  | .heartbeatSend group => Sys2Proof.Machine.execHeartbeatSend group s
  | .ceilingChange => Sys2Proof.Machine.execCeilingChange s
  | .clockLowerBegin die => Sys2Proof.Machine.execClockLowerBegin die s
  | .memberDrop group member => Sys2Proof.Machine.execMemberDrop group member s
  | .ackTimer conn => Sys2Proof.Machine.execAckTimer conn s
  | .retransmitTimeout conn => Sys2Proof.Machine.execRetransmitTimeout conn s
  | .pfcPauseExpiry port prio => Sys2Proof.Machine.execPfcPauseExpiry port prio s
  | .hostCancel level a b c => Sys2Proof.Machine.execHostCancel level a b c s
  | .qtailWrite q vs => Sys2Proof.Machine.execQtailWrite q vs s
  | .clkpatWrite cluster v => Sys2Proof.Machine.execClkpatWrite cluster v s
  | .slopeWrite cluster v => Sys2Proof.Machine.execSlopeWrite cluster v s
  | .pcapWrite v => Sys2Proof.Machine.execPcapWrite v s
  | .registerWrite by_ page off v => Sys2Proof.Machine.execRegisterWrite by_ page off v s
  | .mailboxWrite core sender kind seq payload => Sys2Proof.Machine.execMailboxWrite core sender kind seq payload s
  | .microcodeLoad part decls image => Sys2Proof.Machine.execMicrocodeLoad part decls image s
  | .negotiateAlgorithms sign hash aead => Sys2Proof.Machine.execNegotiateAlgorithms sign hash aead s
  | .getCertificate slot off len => Sys2Proof.Machine.execGetCertificate slot off len s
  | .challenge slot nonce => Sys2Proof.Machine.execChallenge slot nonce s
  | .getMeasurements index signed nonce => Sys2Proof.Machine.execGetMeasurements index signed nonce s
  | .keyExchange session share => Sys2Proof.Machine.execKeyExchange session share s
  | .finish session mac => Sys2Proof.Machine.execFinish session mac s
  | .encoderFrameDone enc bits => Sys2Proof.Machine.execEncoderFrameDone enc bits s
  | .encReadposWrite enc pos => Sys2Proof.Machine.execEncReadposWrite enc pos s
  | .flitReceive link f => Sys2Proof.Machine.execFlitReceive link f s
  | .peerAccessReceive part rkey pa acc => Sys2Proof.Machine.execPeerAccessReceive part rkey pa acc s
  | .noticeReceive n => Sys2Proof.Machine.execNoticeReceive n s
  | .collectiveHeaderReceive part port rank n op sub fmt count abort payload => Sys2Proof.Machine.execCollectiveHeaderReceive part port rank n op sub fmt count abort payload s
  | .ethFrameReceive port f => Sys2Proof.Machine.execEthFrameReceive port f s
  | .dataPkt port h payload => Sys2Proof.Machine.execDataPkt port h payload s
  | .ackPkt port h => Sys2Proof.Machine.execAckPkt port h s
  | .nackPkt port h => Sys2Proof.Machine.execNackPkt port h s
  | .noticePkt port h n => Sys2Proof.Machine.execNoticePkt port h n s
  | .timePkt port h stamp => Sys2Proof.Machine.execTimePkt port h stamp s
  | .pfcReceive port prio quanta => Sys2Proof.Machine.execPfcReceive port prio quanta s
  | .ethLinkUpDown port up => Sys2Proof.Machine.execEthLinkUpDown port up s
  | .fecAlignmentLock port locked => Sys2Proof.Machine.execFecAlignmentLock port locked s
  | .hostLinkAccess t acc => Sys2Proof.Machine.execHostLinkAccess t acc s
  | .tdispRequest vf r => Sys2Proof.Machine.execTdispRequest vf r s
  | .spdmSessionMessage m => Sys2Proof.Machine.execSpdmSessionMessage m s

end Sys2Proof.Machine
end

