-- ==== Sys2Proof/Machine/Agenda.lean ====
section
/-! DEFINITION. What a single step does: how a chosen action is carried out, the passing of a master cycle, and the choice
of what acts in a cycle (05 R112 to R118; log 1). -/

namespace Sys2Proof.Machine

/-! ### The issue of a word -/

/-- A load or a store of a vault: those of a gang keep their order in the list of accesses on their way (15 R299). -/
def vaultWord : Instr → Bool
  | .ld w | .ldu w | .st w | .atom w | .red w | .cas w => w.sp = 3
  | _ => false
/-- Words that read memory. -/
def loadsWord : Instr → Bool
  | .ld _ | .ldu _ | .waitc _ => true
  | _ => false
/-- A word waits for accesses of its gang that are on their way: to a vault (15 R299; log 58), or writes to a peer after a
FENCE at .SYS (20 R389). -/
def State.travelWait (s : State) (gid : Nat) (g : Gang) (i : Instr) : Bool :=
  (s.vaultOpen gid && (storesWord i || loadsWord i) && !vaultWord i) || (g.fence = some 4 && storesWord i && s.peerWrites gid 0)

/-- A word that has been fetched issues: the drains of a FENCE before a store, then its meaning. -/
def State.decodedIssue (s : State) (cu : Cur) (g : Gang) (i : Instr) (ext : Option (BitVec 8)) : Out :=
  if s.travelWait cu.gang g i then .next (s.updGang cu.gang fun g => g.addWait (g.issuing cu false) .operand)
  else
    let s1 := if storesWord i then s.settleFence cu.gang else s
    exec i ({ s1 with cur := some { cu with ext := ext } }.updGang cu.gang fun g => { g with fresh := false })

/-- The fetch unit's work for a group's word, then the word's meaning (03 R64 to R72). The first word of a launch must be a
target, which is looked at after the line map and before what else its encoding breaks (03 R66). -/
def State.fetchIssue (s : State) (cu : Cur) (w : Wg) (g : Gang) : Out :=
  let at_ : State := { s with cur := some cu }
  let line : W64 := (BitVec.ofNat 57 (cu.pc.toNat / 128 * 128)).signExtend 64
  match s.codeLine w g.codemap cu.pc with
  | .page va k => .next (s.parkPages cu.gang w.tenant [va] k (g.issuing cu false) cu.pc (some line))
  | .access => exec (.fetchFault line) at_
  | .ok c =>
    let stray := g.fresh && !c.target (wordIdx cu.pc)
    let started (s : State) : State := s.updGang cu.gang fun g => { g with fresh := false }
    let entry : Out :=
      finish ((started s).takeTrap cu.gang (g.issuing cu false) Cause.cfTarget (pcImage cu.pc) (pcImage cu.pc))
    match c.decodeAt (wordIdx cu.pc) with
    | .error sub => if stray && sub != 0x08 then entry else exec (.illegalEncoding sub) (started at_)
    | .ok (ins, ext) => if stray && ext != some 0x09 then entry else s.decodedIssue cu g ins ext

/-- A group of a gang's unit issues the word at an address, where it may (05 R112, R122, R133, R135); a workgroup that ERRH
has still to terminate, and a partition in ERROR, issue none (18 R360, R370). -/
def State.issueWord (s : State) (gid unit : Nat) (pc : PCAddr) (snap : Option Gang) : Out :=
  match s.here? gid with
  | none => .next s
  | some (g, w) =>
    let cu : Cur := { gang := gid, unit := unit, pc := pc, ext := none, snap := snap, port := none }
    let grp := g.issuing cu false
    if g.parked || !g.active || w.preempt || w.dying || s.partStopped (s.tenantPart w.tenant) || grp = 0 || !g.ordAllows grp then .next s
    else match (if g.handler then none else g.cancel) with
      | none => s.fetchIssue cu w g
      | some level =>
        if g.trapbase.getLsbD 0 then (s.updGang gid fun g => { g with cancel := none }).fetchIssue cu w g
        else finish (s.takeCancel gid g w.tenant grp pc level)

/-! ### Which groups issue in a cycle (05 R114 to R118) -/

/-- The ready units of a core partition. -/
def State.readyUnits (s : State) (pid : Nat) : List Ready :=
  (s.partGangs pid).flatMap fun e =>
    match s.wgs.find? e.2.wg with
    | none => []
    | some w =>
      if e.2.parked || !e.2.active || w.preempt || w.dying || s.partStopped (s.tenantPart w.tenant) then []
      else ((0 :: e.2.slots.keys).eraseDups).filterMap fun u =>
        let gs := e.2.groups u
        if gs.isEmpty then none else some { gang := e.1, unit := u, key := unitKey e.2 w u gs, grps := gs }

/-- The unit that a core partition selects: a gang that has yielded only where no other is ready (04 R104). -/
def State.selectUnit (s : State) (pid : Nat) : Option Ready :=
  let rs := s.readyUnits pid
  let quiet := rs.filter fun r => match s.gangs.find? r.gang with | some g => !g.yielded | none => false
  (sortLex Ready.key (if quiet.isEmpty then rs else quiet)).head?

/-- Ages of the groups that do not issue, and split counters of a unit's quads in which nothing issues (05 R117, R118). -/
def Gang.countOpportunity (g : Gang) (unit : Nat) (pcs : List PCAddr) : Gang :=
  let issues (l : Nat) : Bool := g.unit l = unit && pcs.contains (g.pcOf l)
  let e := lanesOf g.eligible
  let quad (q : Nat) : List Nat := e.filter fun l => l / 4 = q && g.unit l = unit
  { g with
    age := e.foldl (fun m l => if issues l then m else m.put 0 l (m.getD l 0 + 1)) g.age
    splitCnt := (List.range 8).foldl (fun m q =>
      if (quad q).isEmpty || (quad q).any issues then m else m.put 0 q (min 255 (m.getD q 0 + 1))) g.splitCnt }
/-- Consecutive cycles in which each unit has been ready but not selected (05 R114). -/
def countReady (rs : List Ready) (gang unit : Nat) (e : Nat × Gang) : Gang :=
  let us := (rs.filter fun r => r.gang = e.1).map Ready.unit
  { e.2 with
    yielded := false
    unitAge := us.foldl (fun (m : SMap Nat) u => m.put 0 u (if e.1 = gang && u = unit then 0 else e.2.unitAge.getD u 0 + 1)) [] }
/-- A fetch that misses fills the partition's L0 cache and its core's instruction cache (03 R64). -/
def State.fetchFill (s : State) (w : Wg) (codemap : W64) (pc : PCAddr) : State :=
  match s.codeLine w codemap pc with
  | .ok c =>
    let key := codeKey w.tenant (pc.toNat / 128)
    let held := ((s.l0.getD w.pid []).find? key).isSome || ((s.icache.getD (coreOf w.pid) []).find? key).isSome
    let s1 := if held then s else s.fetchUse (tlbUnit w.pid) w.tenant codemap (pc.toNat / 128)
    { s1 with l0 := s.l0.put [] w.pid ((s.l0.getD w.pid []).set key c)
              icache := s.icache.put [] (coreOf w.pid) ((s.icache.getD (coreOf w.pid) []).set key c) }
  | _ => s

/-- An issue opportunity: the counters, the lines fetched, then the chosen words, then the quads that split. -/
def State.opportunity (s : State) (gid unit : Nat) (pcs : List PCAddr) : State :=
  match s.here? gid with
  | none => s
  | some (g0, w) =>
    let rs := s.readyUnits w.pid
    let s1 := (s.partGangs w.pid).foldl (fun s e => s.setGang e.1 (countReady rs gid unit e)) s
    let s2 := pcs.foldl (fun s pc => s.fetchFill w g0.codemap pc) (s1.updGang gid fun g => g.countOpportunity unit pcs)
    let n := s.splitN w.pid
    match s2.gangs.find? gid with
    | none => s2
    | some g =>
      let splits := if n = 0 then [] else
        ((List.range 8).filter fun q => n ≤ g.splitCnt.getD q 0).map fun q => Agent.event (.quadSplit gid q)
      let words := (List.range pcs.length).map fun i =>
        Agent.issue gid unit (pcs.getD i 0) (if i = 0 then none else some g)
      { s2 with agenda := words ++ splits ++ s2.agenda }

/-! ### A master cycle passes -/

/-- n free values. -/
def State.takeFrees (s : State) : Nat → List Nat × State
  | 0 => ([], s)
  | n + 1 =>
    let (k, s1) := s.takeFree
    let (ks, s2) := s1.takeFrees n
    (Config.freeNat k :: ks, s2)
/-- What FABTIME brings when it passes from t to u: heartbeats of the firmware complex, ticks and intervals of POWER,
Pacer heartbeats and frames of the heads (18 R357 to R365, 20 R399, 17 R356). Energies and temperatures are free values. -/
def State.timeEvents (s : State) (t u : Nat) : List Agent × State :=
  let crossed (n : Nat) : Bool := t / n != u / n
  let fw := if crossed 1000000 then (List.range 8).map fun c => Agent.event (.fwHeartbeat c) else []
  let (pk, s1) := if crossed 1000 then
      (let (k, s1) := s.takeFree; ([Agent.event (.peakTick (Config.freeNat k))], s1)) else (([] : List Agent), s)
  let iv := if crossed 10000 then [Agent.event .intervalBoundary] else []
  let (ms, s2) := if crossed 1000000 then
      (let (k, s2) := s1.takeFree
       let (ts, s3) := s2.takeFrees (24 * s.dies)
       ([Agent.event (.powerMsTick (Config.freeNat k) ts)], s3)) else (([] : List Agent), s1)
  let hb := if crossed 100000 then s.pacer.keys.map fun g => Agent.event (.heartbeatSend g) else []
  let fr := if crossed 16666667 then s.heads.keys.map fun h => Agent.event (.headFrameStart h) else []
  (fw ++ pk ++ iv ++ ms ++ hb ++ fr, s2)

/-- A gang as a cycle ends: how long it has been blocked; its parked waits and rendezvous count the cycles in which they
count (05 R112, 07 R184, 08 R187). -/
def Gang.endCycle (g : Gang) (pidIssued ownIssued : Bool) : Gang :=
  let idle := g.eligible = 0 || g.parked
  let all := decide (g.liveMask &&& ~~~g.blockedMask = 0)
  let n := b2n (if all then pidIssued else ownIssued)
  let poll (k : WaitKind) : WaitKind :=
    match k with
    | .waitc r true p wk => .waitc r true (p + 1) wk
    | .qpop q t vd sd m true p wk => .qpop q t vd sd m true (p + 1) wk
    | k => k
  { g with
    blocked := if idle then g.blocked + 1 else 0
    waits := if pidIssued then g.waits.map fun w => { w with kind := poll w.kind } else g.waits
    rdvCnt := ((g.qops.filter fun o => o.phase = .rendezvous).map fun o => o.pc.toNat).eraseDups.foldl
      (fun m a => m.put 0 a (g.rdvCnt.getD a 0 + n)) [] }
/-- A CANCEL or a save that is due stops what waits at a rendezvous or for the array, and macros between their steps
(05 R135, 08 R203, 09 R208). -/
def State.stopGang (s : State) (e : Nat × Gang) : State :=
  if s.stopDue e.2 then (s.updGang e.1 fun g => g.dropQ fun o => o.phase != .running && o.phase != .queued).stopMacros e.1 else s
/-- A core partition as a cycle ends: bin timers, the deadlock's cycles (05 R125, R131), and its array's period, which
counts no cycle whose pulse is swallowed (12 R272). -/
def State.endPart (swallowed : Nat → Bool) (cy : Nat) (s : State) (e : Nat × CorePart) : State :=
  let p := e.2
  let held := swallowed (clusterOf e.1) && cy < p.array
  let age (b : SpawnBin) : SpawnBin := if b.state = .filling && p.issued then { b with timer := b.timer + 1 } else b
  s.setCpart e.1
    { p with bins := p.bins.mapVals age, issued := false, array := if held then p.array + 1 else p.array
             deadlock := if s.claimDeadlock e.1 then p.deadlock + 1 else 0 }

/-- Gangs whose vault accesses have all been performed in this cycle issue again what waited for them. -/
def State.vaultsDone (s before : State) : State :=
  (before.vops.map (·.gang)).eraseDups.foldl (fun s gid =>
    if before.vaultOpen gid && !s.vaultOpen gid then s.updGang gid Gang.retry else s) s

/-- The core's pulse is swallowed: operations on their way to its g-register port come a cycle later (12 R272). -/
def State.holdPort (s : State) (wid : Nat) : State :=
  s.updWg wid fun w => { w with gops := w.gops.map fun o => { o with cycle := o.cycle + 1 } }
/-- One master cycle passes. FABTIME goes on by 1000 / f ns (log 5). -/
def State.tickOne (s0 : State) : State :=
  let s := { (s0.vaultCycle s0.cycle s0.swallowed).vaultsDone s0 with cregOld := [], tailSeen := [], latheBusy := [] }
  let f := s.freq
  let acc := s.fabFrac + 1000
  let t := s.fabtime.toNat
  let s1 := { s with cycle := s.cycle + 1, fabtime := s.fabtime + BitVec.ofNat 64 (acc / f), fabFrac := acc % f }
  let s2 := if s1.cycle % 16 = 0 then s1.frameBegin else s1
  let s3 := s2.wgs.foldl (fun s e =>
    if e.2.gops.isEmpty then s else if s2.swallowed (clusterOf e.2.pid) then s.holdPort e.1 else s.gport e.1 s2.cycle) s2
  let wgOf (g : Gang) : Option Wg := match s3.wgs.find? g.wg with
    | some w => if w.status = .resident then some w else none
    | none => none
  let ended (g : Gang) : Gang := match wgOf g with
    | some w => g.endCycle (s3.cpart w.pid).issued (g.lastIssue = s.cycle + 1)
    | none => g
  let s4 := { s3 with gangs := s3.gangs.mapVals ended }
  let s5 := (s4.gangs.filter fun e => (wgOf e.2).isSome && e.2.cancel.isSome).foldl State.stopGang s4
  let s6 := s5.cparts.foldl (State.endPart s0.swallowed s0.cycle) s5
  let s7 := { s6 with tasks := s6.tasks.mapVals fun t => if t.parked then { t with polls := t.polls + 1 } else t }
  let s8 := s7.takeMail.waitedNotices.startMembers t
  let (es, s9) := s8.timeEvents t (t + acc / f)
  { s9 with agenda := s9.agenda ++ es }
def State.tick (s : State) : Nat → State
  | 0 => s
  | n + 1 => s.tickOne.tick n

/-! ### Caches (03 R68, 07 R172, 14 R295, 15 R305) -/

/-- A line's bytes as its own key reads them. -/
def State.lineBytes (s : State) (line : Nat) : List Byte := (List.range 128).map fun i => s.memByte (128 * line + i)
/-- A line's bytes as the lathes of a core read them (07 R172). -/
def State.texBytes (s : State) (core line : Nat) : List Byte :=
  (List.range 128).map fun i => (s.bufByte core (128 * line + i)).getD (s.memByte (128 * line + i))
def State.lineClean (s : State) (line : Nat) : Bool := !((List.range 8).any fun i => s.memPoison.contains (8 * line + i))
/-- The caches of a core partition and its core take a new copy of a line's words, of its map entry, or of both, for a tenant
that runs there. -/
def State.codeFill (s : State) (pid tenant line : Nat) (words maps : Bool) : State :=
  let key := codeKey tenant line
  match List.find? (fun (e : Nat × Gang) => match s.here? e.1 with
      | some (_, w) => w.pid = pid && w.tenant = tenant | none => false) s.gangs with
  | none => s
  | some (_, g) =>
    match s.readLine (tlbUnit pid) tenant g.codemap line with
    | .ok new =>
      let copyIn (c : SMap CodeLine) : SMap CodeLine :=
        c.set key (match c.find? key with
          | some old => { words := if words then new.words else old.words, map := if maps then new.map else old.map }
          | none => new)
      { s with l0 := s.l0.put [] pid (copyIn (s.l0.getD pid []))
               icache := s.icache.put [] (coreOf pid) (copyIn (s.icache.getD (coreOf pid) [])) }
    | _ => s
def dropKey {α : Type} [DecidableEq α] (m : SMap (SMap α)) (k j : Nat) : SMap (SMap α) := m.put [] k ((m.getD k []).del j)
/-- A TLB takes a leaf, where it has room: 64 entries in the L1 TLB of a core partition, 2,048 in a cluster's (14 R292). -/
def State.tlbFill (s0 : State) (unit tenant page : Nat) : State :=
  let held := (s0.tlb.filter fun e => e.1 / 2 ^ 50 = unit).length
  let s := s0.walkUse unit tenant (va57 (page * 65536))
  match s.walk tenant (page * 65536) with
  | .ok (pte, level) =>
    if (if unit < 256 then 2048 else 64) ≤ held then s
    else { s with tlb := s.tlb.set (tlbKey unit tenant page) { pte := pte, level := level } }
  | .error _ => s

/-! ### One action -/

/-- A port of a task window decodes its next word (16 R313, R320). -/
def State.decodePort (s : State) (part port : Nat) : Out :=
  if !s.decodes part port || s.portHeld part port || s.partStopped part then .next s
  else
    let s1 := { s with cur := some { gang := 0, unit := 0, pc := 0, ext := none, snap := none, port := some (part, port) } }
    match (s.port part port).denied with
    | some va => exec (.fetchFault va) s1
    | none =>
    match s.taskFetch part port with
    | .ok i => exec i s1
    | .bad sub => exec (.illegalEncoding sub) s1
    | .access va => exec (.fetchFault va) s1
    | .page va => .next (s.portPage part port va)

/-- An event happens; one that needs a firmware core that restarts is made again later (18 R363). -/
def State.runEvent (s : State) (i : Instr) : Out :=
  match exec i { s with cur := none, deferNow := false } with
  | .next t => .next (if t.deferNow then { t with deferNow := false, deferred := t.deferred ++ [Agent.event i] } else t)
  | r => r

/-- Carry out an action that has been chosen. A package without power only takes power-up (18 R364). -/
def State.runAgent (s : State) (a : Agent) : Out :=
  if !s.powered then
    match a with
    | .event .powerUp => exec .powerUp { s with cur := none }
    | _ => .next s
  else
    match a with
    | .issue gid unit pc snap => s.issueWord gid unit pc snap
    | .event i => s.runEvent i
    | .decodeTask part port => s.decodePort part port
    | .issueTask part id => if s.partStopped part then .next s else finish (s.issueTask part id)
    | .tick n => finish (s.tick n)
    | .opportunity gid unit pcs => .next (s.opportunity gid unit pcs)
    | .codeFill pid tenant line words map => .next (s.codeFill pid tenant line words map)
    | .codeDrop pid tenant line l0 =>
      .next (if l0 then { s with l0 := dropKey s.l0 pid (codeKey tenant line) }
        else { s with icache := dropKey s.icache (coreOf pid) (codeKey tenant line) })
    | .l1Fill core line => .next (if s.lineClean line then
        { s with l1 := s.l1.put [] core ((s.l1.getD core []).set line (s.lineBytes line))
                 l1Bad := s.l1Bad.filter fun g => !((List.range 8).any fun i => g = l1Granule core (128 * line + 16 * i)) } else s)
    | .l1Drop core line => .next { s with l1 := dropKey s.l1 core line }
    | .texFill core line => .next (if s.lineClean line then
        { s with tex := s.tex.put [] core ((s.tex.getD core []).set line (s.texBytes core line)) } else s)
    | .texDrop core line => .next { s with tex := dropKey s.tex core line }
    | .tlbFill unit tenant page => .next (s.tlbFill unit tenant page)
    | .tlbDrop unit tenant page => .next { s with tlb := s.tlb.del (tlbKey unit tenant page) }
    | .engineMove cluster idx n => finish (s.moveMany cluster idx n)
    | .linkSend link => finish (s.linkSend link)

/-! ### What acts in a cycle (log 1) -/

/-- Events of a gang that are due. -/
def Gang.dueEvents (s : State) (pid gid : Nat) (g : Gang) : List Agent :=
  let one (b : Bool) (i : Instr) : List Agent := if b then [.event i] else []
  let lim := fld (s.pmatrix pid) 0 32
  (g.prods.filter (·.ready)).map (fun p => Agent.event (.producerWriteback gid p.id))
  ++ one (g.waits.any fun x => x.kind = .exit) (.laneExited gid)
  ++ one (g.waits.any fun x => match x.kind with | .sleep d => d ≤ s.fabtime.toNat | _ => false) (.sleepWake gid)
  ++ one (g.waits.any fun x => match x.kind with | .xgive n => g.giveReady n | _ => false) (.xgiveCredit gid)
  ++ g.waits.flatMap (fun x => match x.kind with
    | .waitc _ p n wk => one wk (.waitcWake gid x.id) ++ one (p && 4096 ≤ n) (.parkedPoll gid x.id)
    | .qpop _ _ _ _ _ p n wk => one wk (.qpopCopy gid x.id) ++ one (p && 4096 ≤ n) (.parkedPoll gid x.id)
    | _ => [])
  ++ (g.rdvCnt.filter fun e => lim != 0 && lim ≤ e.2).map fun e => Agent.event (.rdvStallWatchdog gid e.1)
/-- Events of a core partition that are due. -/
def State.partDue (s : State) (pid : Nat) : List Agent :=
  let gs := s.partGangs pid
  let p := s.cpart pid
  let one (b : Bool) (i : Instr) : List Agent := if b then [.event i] else []
  let active := (gs.filter fun e => e.2.active).length
  let pass := !(s.livePass p.pass).isEmpty
  gs.flatMap (fun e => Gang.dueEvents s pid e.1 e.2)
  ++ one ((s.claims pid).head?.any fun c => c.2.2.2 ≤ s.xfree pid) (.xclaimGrant pid)
  ++ one ((gs.any fun e => e.2.active && (e.2.eligible = 0 || e.2.parked) && (16 ≤ e.2.blocked || e.2.sleeps))
      || (active < 8 && (s.oldestIdle pid).isSome)) (.activeSetRemove pid)
  ++ (p.bins.filter fun b => b.2.state = .filling && s.binTime pid ≤ b.2.timer).map (fun b => Agent.event (.binTimerExpire pid b.1))
  ++ one (!p.readyOrder.isEmpty) (.binLaunch pid)
  ++ one (gs.any fun e => e.2.qops.any fun o => o.phase = .rendezvous || o.phase = .empties || (!pass && o.phase = .queued))
      (.matrixPassStart pid)
  ++ one (pass && p.array ≤ s.cycle) (.matrixBlock pid)
  ++ one (1024 ≤ p.deadlock) (.regDeadlockReport pid)

/-- A cluster of a partition whose device interface stands in ERROR: it does no work (18 R370). -/
def State.clusterStopped (s : State) (c : Nat) : Bool :=
  (List.range 8).any fun p => s.partStopped p && (s.partClusters p).contains c
/-- The cluster's cores and engine act in this cycle: its pulse is not swallowed (12 R272), and its partition runs. -/
def State.clusterActs (s : State) (c : Nat) : Bool := !s.swallowed c && !s.clusterStopped c
/-- Events of the shared units of a core and of a cluster that are due. -/
def State.coreDue (s : State) (core : Nat) : List Agent :=
  let n := if s.clusterActs (core / 8) then (s.latheReqs core).length else 0
  let old (b : Nat × BufLine) : Bool := b.2.since + 16384 ≤ s.cycle
  (if 1 ≤ n then [Agent.event (.latheStep core 0)] else []) ++ (if 2 ≤ n then [Agent.event (.latheStep core 1)] else [])
  ++ ((s.wcb.getD core []).filter old).map (fun b => Agent.event (.wcbDrainTimeout core b.1))
  ++ (if core % 8 = 0 then ((s.cpt.getD (core / 8) []).filter old).map fun b => Agent.event (.wcbDrainTimeout core b.1) else [])
def State.clusterDue (s : State) (c : Nat) : List Agent :=
  (if (s.starter c).queue.isEmpty || s.cycle < (s.starter c).next then [] else [Agent.event (.starterWave c)])
  ++ (if s.clusterActs c then ((s.engine c).filter fun k => s.engMayRun c k).map fun k => Agent.event (.engComplete c k.id) else [])

/-- Where firmware keeps the context area of a workgroup: 16 MiB below the top of HBM for each (log 1). -/
def State.saveArea (s : State) (wid : Nat) : Nat := s.stacks * (48 * 2 ^ 30) - (wid % 1024 + 1) * 2 ^ 24
/-- Every live lane of a workgroup sleeps on an armed monitor that has not been written: it comes back when one is (07
R183). -/
def State.asleep (s : State) (w : Wg) : Bool :=
  let armed (k : WaitKind) : Bool := match k with | .waitc _ false _ false => true | .qpop _ _ _ _ _ false _ false => true | _ => false
  (s.wgGangs w).all fun e =>
    e.2.cancel.isNone && e.2.liveMask &&& ~~~(e.2.waits.foldl (fun m x => if armed x.kind then m ||| x.lanes else m) 0) = 0
/-- Saved workgroups that come back now: after a migration at once; otherwise where no waiting workgroup of their class or
above could be admitted, unless all of a unit is asleep (07 R183, 17 R349; log 1). -/
def State.restoreDue (s : State) (part : Nat) : List Agent :=
  let next := s.pickWaiting (s.waitOrder part) (none, [], [])
  let first (w : Wg) : Bool := match next with
    | some (lid, _) => (match s.launches.find? lid with | some L => w.cls ≤ L.cls | none => false)
    | none => false
  ((s.wgs.filter fun e => e.2.status = .saved && s.tenantPart e.2.tenant = part
      && (s.unitOf e.1).head?.all (fun m => m.1 = e.1) && !e.2.dying
      && (e.2.migrate.isSome || (!first e.2 && !(s.unitOf e.1).all fun m => s.asleep m.2))).filterMap fun e =>
    ((s.partPids part).find? fun pid => (match e.2.migrate with | some c => c = clusterOf pid | none => true)
        && s.meets pid (s.savedNeed e.2)).map fun pid => Agent.event (.contextRestore e.1 pid)).take 1
/-- Admission: where the first workgroup that can be admitted finds room. -/
def State.admitDue (s : State) (part : Nat) : List Agent :=
  let pids := s.partPids part
  if (s.waitOrder part).isEmpty then []
  else
    let at_ := match s.pickWaiting (s.waitOrder part) (none, [], []) with
      | some (lid, _) => (match s.launches.find? lid with
        | some L => pids.find? fun pid => (s.placing pid L).isSome
        | none => none)
      | none => none
    [Agent.event (.admission part (at_.getD (pids.headD 0)))]
/-- Events of a partition's workgroups. -/
def State.wgDue (s : State) : List Agent :=
  s.wgs.flatMap fun e =>
    let w := e.2
    let slice := fld (s.psched w.pid) 16 32
    if w.status = .saved || w.dying then []
    else
      (if w.preempt && (s.unitOf e.1).head?.all (fun m => m.1 = e.1) then [Agent.event (.contextSave e.1 (s.saveArea e.1))] else [])
      ++ (if slice != 0 && slice ≤ w.slice && !w.leaving then [Agent.event (.timeSliceEnd e.1)] else [])
      ++ (match w.drainBy with | some t => if t ≤ s.now then [Agent.event (.drainTimeout e.1)] else [] | none => [])

/-- Four ports, in turn after the last one served. -/
def portsAfter (last : Nat) : List Nat := (List.range 4).map fun i => (last + 1 + i) % 4
/-- What a partition's task window does in a cycle (16 R320, R322, R326). -/
def State.windowDue (s : State) (part : Nat) : List Agent :=
  if s.partStopped part then []
  else
  let ts := s.tasks.filter fun e => e.2.part = part
  let oldest (port : Nat) : Option Nat := ((s.portTasks part port).find? fun e => s.taskReady part e.1).map (·.1)
  ((portsAfter (s.decodeLast.getD part 3)).filter fun p => s.decodes part p && !s.portHeld part p).map (Agent.decodeTask part ·)
  ++ (((portsAfter (s.issueLast.getD part 3)).filterMap oldest).take 1).map (Agent.issueTask part ·)
  ++ (ts.filter fun e => e.2.st = .issued).map (fun e => Agent.event (.taskComplete part e.1))
  ++ ((List.range 4).filter fun p => let q := s.port part p; q.state = .run || q.state = .halting).flatMap fun p =>
      [Agent.event (.taskRetire part p), Agent.event (.snapshotTimeout part p)]
/-- Page faults and held faults of a partition (14 R413). -/
def State.faultDue (s : State) (part : Nat) : List Agent :=
  if (s.partFaults part).isEmpty then []
  else [Agent.event (.pageFaultService part 0), Agent.event (.pfholdTimeout part)]

/-- What the fabric, the Pacer and the scale-out ports do by themselves (20 R383, R384, R400, R404, R409, R410). -/
def State.fabricDue (s : State) : List Agent :=
  (s.links.filter fun e => 16 ≤ e.2.fails || 16 ≤ e.2.sendFails).map (fun e => Agent.event (.linkRetrain e.1))
  ++ (s.links.filter fun e => e.2.up && (!e.2.queue.isEmpty || e.2.resend < e.2.seq)).map (fun e => Agent.linkSend e.1)
  ++ (if s.ceilingAt s.now != s.ceil || s.pacer.any (fun e => e.2.settle s.now != e.2) then [Agent.event .ceilingChange] else [])
  ++ (match s.nextChange with
    | some (t, c) => if c < s.ceil && t ≤ s.now + 2000 then
        ((List.range s.dies).filter fun d => !s.lowering.contains d).map fun d => Agent.event (.clockLowerBegin d) else []
    | none => [])
  ++ s.pacer.flatMap (fun e => (e.2.members.filter fun m => m.1 != s.pkg && m.2.slast + e.2.timeout ≤ s.now).map
      fun m => Agent.event (.memberDrop e.1 m.1))
  ++ s.conns.flatMap (fun e =>
    (match e.2.ackAt with | some t => if t ≤ s.now then [Agent.event (.ackTimer e.1)] else [] | none => [])
    ++ (if !e.2.dead && !e.2.unacked.isEmpty && e.2.progress + retryDelay ≤ s.now then [Agent.event (.retransmitTimeout e.1)]
        else []))
  ++ (s.pfcPause.filter fun e => e.2 ≤ s.now).map fun e => Agent.event (.pfcPauseExpiry (e.1 / 8) (e.1 % 8))

/-- Core partitions on which a workgroup is resident. -/
def State.busyPids (s : State) : List Nat :=
  sortNat ((s.wgs.filter fun e => e.2.status = .resident).map fun e => e.2.pid)
/-- Core partitions with work of their own: a resident workgroup, or spawn bins (05 R131). -/
def State.workPids (s : State) : List Nat :=
  sortNat (s.busyPids ++ (s.cparts.filter fun e => !e.2.bins.isEmpty).map (·.1))
/-- The units of a partition that has none ready in a cycle have not been ready for consecutive cycles (05 R114). -/
def State.restReady (s : State) (pid : Nat) : State :=
  (s.partGangs pid).foldl (fun s e => if e.2.unitAge.isEmpty then s else s.updGang e.1 fun g => { g with unitAge := [] }) s
/-- Choose what acts in the next master cycle: the events that are due, then an issue opportunity for each core partition,
where its cluster acts, then the cycle's end. -/
def State.plan (s : State) : State :=
  if !s.powered then { s with agenda := [.tick 1] }
  else
    let pids := s.workPids.filter fun pid => s.clusterActs (clusterOf pid)
    let parts := List.range 8
    let cores := sortNat (s.busyPids.map coreOf ++ s.wcb.keys ++ s.cpt.keys.map (8 * ·))
    let issue := pids.filterMap fun pid =>
      (s.selectUnit pid).map fun r => Agent.opportunity r.gang r.unit (s.chosenPcs r)
    let rest := (pids.filter fun pid => (s.selectUnit pid).isNone).foldl (fun s pid => s.restReady pid) s
    { rest with agenda :=
        pids.flatMap s.partDue ++ cores.flatMap s.coreDue
        ++ (sortNat (s.starters.keys ++ s.engines.keys)).flatMap s.clusterDue
        ++ parts.flatMap s.faultDue ++ s.wgDue ++ parts.flatMap s.restoreDue ++ parts.flatMap s.admitDue
        ++ parts.flatMap s.windowDue ++ s.fabricDue ++ issue ++ [.tick 1] }

end Sys2Proof.Machine
end

