-- ==== Sys2Proof/Machine/Step.lean ====
section
/-! DEFINITION. One step of the machine: the first action of the agenda, or the choice of what acts in the next master
cycle where the agenda is empty (log 1); and the placing of one instruction where the next step runs it (log 22). -/

namespace Sys2Proof.Machine

/-- One step. -/
def step (s : State) : Host.Outcome State Fault Refusal :=
  match s.agenda with
  | [] => .next s.plan
  | a :: rest => { s with agenda := rest }.runAgent a

/-- A core word, and what follows it, in the first fetch line of core 0, and a gang of 32 lanes on core partition 0 that
issues it. -/
def State.placeCore (s : State) (word : Nat → IWord) : State :=
  let lid := s.nextLaunch.toNat
  let launch : Launch :=
    { part := 0, port := 0, task := 0, tenant := 0, cls := 0, count := 1, entry := 0, codemap := 0, trapbase := 0
      slotPlan := 0, spawns := [], base := 256, ext := 0, scrLen := 0, gangs := 1, lanes := 32, clus := 1, restart := false
      barg := false, tile := false, est := 0, tileW := 0, tileH := 0, sregs := [], waiting := [], live := 1
      launchCnt := counterZero, graphCnt := counterZero, graphLive := 1, phase := 0, job := 0, cancelled := false
      graphCancelled := false, grid := [], report := none, poison := [], rank := 0, gsize := 1 }
  let g : Gang := { newGang s.nextWg 0 32 256 0 0 0 0 0 [] [] with fresh := false, active := true }
  let w : Wg := { wgZero lid 0 0 0 0 with gangs := [s.nextGang], seq := s.admitSeq }
  let line : CodeLine := { words := (List.range 8).map word, map := 0x0101 }
  { s with
    powered := true
    agenda := [.issue s.nextGang 0 0 none]
    launches := s.launches.set lid launch, nextLaunch := s.nextLaunch + 1
    wgs := s.wgs.set s.nextWg w, nextWg := s.nextWg + 1, admitSeq := s.admitSeq + 1
    gangs := s.gangs.set s.nextGang g, nextGang := s.nextGang + 1
    icache := s.icache.set 0 ((s.icache.getD 0 []).set (codeKey 0 0) line) }

/-- A TASK word and its bindings at physical address 0 of a page that tenant 0 maps at virtual address 0, with tenant 0
valid, and stream port 0 of partition 0 that decodes it. -/
def State.placeTask (s : State) (v : Nat) : State :=
  let port : Port := { portZero with state := .run }
  let s1 := (((s.setCreg .hub (tenantOff 0 0) 1).setCreg .hub 0x500000 3).setCreg (.part 0) 0x4000 0x8000).setCreg (.part 0) 0x4002 0x8000
  { s1 with
    powered := true
    agenda := [.decodeTask 0 0]
    mem := (addressed 0 (leBytes 256 v)).foldl (fun m b => m.put 0 b.1 b.2) s.mem
    tlb := s.tlb.set (tlbKey 255 0 0) { pte := 0xF, level := 16 }
    ports := s.ports.set (portKey 0 0) port }

/-- The state with the instruction whose bits are w placed where the next step runs it: the bits from nbits on are 0. -/
def State.withFetchWord (s : State) (nbits w : Nat) : State :=
  let v := w % 2 ^ nbits
  let word (k : Nat) : IWord := BitVec.ofNat 128 (v / 2 ^ (128 * k))
  if clsOf (word 0) = 0xC then s.placeTask v else s.placeCore word

end Sys2Proof.Machine
end

