-- ==== Sys2Proof/Claims.lean ====
section
/-! DEFINITION. The terms that claims about instructions use: a group that nothing delays, and what the issue of one word
changes and leaves alone. -/

namespace Sys2Proof.Machine

/-! ### A group that issues a word -/

/-- A group stands at the cursor with the first word of its gang's cycle, fetched whole, and nothing in the gang delays
it: all 256 registers are allocated, full and free of poison, and no producer or prefix is outstanding (01 R17, 03 R72). -/
structure Calm (s : State) (cu : Cur) (g : Gang) (w : Wg) : Prop where
  cur : s.cur = some cu
  ext : cu.ext = none
  snap : cu.snap = none
  gang : s.gangs.find? cu.gang = some g
  wg : s.wgs.find? g.wg = some w
  group : g.groupAt cu.unit cu.pc false ≠ 0
  ord : g.ord = none
  empty : g.empty = []
  poison : g.poison = []
  regs : g.base + g.xcount = 256
  prods : g.prods = []
  mem : s.absentAcc = none

/-- The group of a word (05 R114; of a gang-collective word, the lanes of every unit: 05 R119). -/
def grpOf (g : Gang) (cu : Cur) (all : Bool) : LaneMask := g.groupAt cu.unit cu.pc all
/-- Its active set: the lanes whose guard is true (01 R15). -/
def actOf (g : Gang) (cu : Cur) (all : Bool) (gd : BitVec 4) : LaneMask := grpOf g cu all &&& maskWhere (g.guard gd)
/-- The address n words after the cursor's. -/
def Cur.after (cu : Cur) (n : Nat) : PCAddr := (cu.pc + BitVec.ofNat 57 (16 * n)) &&& ~~~(15 : PCAddr)

/-- Everything outside one gang is as before, but for the slice count of a workgroup and the issued mark of a core
partition. -/
def OnlyGang (s t : State) (gid : Nat) : Prop :=
  t = { s with gangs := t.gangs, wgs := t.wgs, cparts := t.cparts }
  ∧ (∀ j, j ≠ gid → t.gangs.find? j = s.gangs.find? j)
  ∧ (∀ j, (t.wgs.find? j).map (fun w => { w with slice := 0 }) = (s.wgs.find? j).map fun w => { w with slice := 0 })
  ∧ ∀ j, { t.cpart j with issued := false } = { s.cpart j with issued := false }

/-- Everything of a gang but its PCs, register files, FPSTAT, issue counts and units is as before; a word that is not
gang-collective leaves the units too. -/
def SameGang (g h : Gang) (all : Bool) : Prop :=
  h = { g with pcs := h.pcs, vr := h.vr, pr := h.pr, sr := h.sr, fpstat := h.fpstat, age := h.age, splitCnt := h.splitCnt,
               issuecnt := h.issuecnt, lastIssue := h.lastIssue, unitOf := h.unitOf, slots := h.slots }
  ∧ (all = false → h.unitOf = g.unitOf ∧ h.slots = g.slots)

/-- The lanes of a mask stand at an address, the others where they stood. -/
def PcsMoved (g h : Gang) (grp : LaneMask) (pc : PCAddr) : Prop :=
  ∀ l, l < 32 → h.pcOf l = if grp.getLsbD l then pc else g.pcOf l

/-- A word of n words has run in a group (`all`: a gang-collective one): the group stands after it, and nothing but the
gang's registers has changed; what they hold now, a claim says of h. -/
def Ran (s t : State) (cu : Cur) (g h : Gang) (all : Bool) (n : Nat) : Prop :=
  t.gangs.find? cu.gang = some h ∧ OnlyGang s t cu.gang ∧ SameGang g h all ∧ PcsMoved g h (grpOf g cu all) (cu.after n)

/-- The v-registers: register or pair d takes a value in the lanes of a mask, and every other register keeps its own. -/
def WroteV (g h : Gang) (act : LaneMask) (dw d : Nat) (val : Nat → Nat) : Prop :=
  (∀ l, act.getLsbD l = true → h.vw dw l d = val l)
  ∧ ∀ l r, l < 32 → r < 256 → ¬(act.getLsbD l = true ∧ d ≤ r ∧ r < d + regsOf dw) → h.v l r = g.v l r

/-- The predicates: pd takes a value in the lanes of a mask (p0 stays 1), and every other predicate keeps its own. -/
def WroteP (g h : Gang) (act : LaneMask) (pd : Nat) (val : Nat → Bool) : Prop :=
  (∀ l, act.getLsbD l = true → h.p l pd = (val l || pd == 0))
  ∧ ∀ l i, l < 32 → i < 8 → ¬(act.getLsbD l = true ∧ i = pd) → h.p l i = g.p l i

/-- FPSTAT: the flags of the lanes of a mask are raised, and no other bit changes. -/
def RaisedF (g h : Gang) (act : LaneMask) (fl : Nat → Flg) : Prop :=
  ∀ i, h.fpstat.getLsbD i = (g.fpstat.getLsbD i || (lanesOf act).any fun l => (fl l).getLsbD i)

/-- The s-registers: n takes a value where a lane is active, and every other one keeps its own. -/
def WroteS (g h : Gang) (act : LaneMask) (n : Nat) (x : W64) : Prop :=
  ∀ k, h.s k = if k = n ∧ act ≠ 0 then x else g.s k

/-- The register files that a word does not write. -/
def KeptP (g h : Gang) : Prop := h.pr = g.pr
def KeptS (g h : Gang) : Prop := h.sr = g.sr
def KeptV (g h : Gang) : Prop := h.vr = g.vr
def KeptF (g h : Gang) : Prop := h.fpstat = g.fpstat

/-! ### Operands of layout V words, as 03 R49 and R50 give them -/

/-- Source k (0 A, 1 B, 2 C) of a word with n sources: a register or pair of the permuted lane, or in place of the last
source the immediate, which is sign-extended to 64 bits under a signed 64-bit type. -/
def operandV (g : Gang) (w : VecW) (n wd k l : Nat) : Nat :=
  if w.i = 1 ∧ k + 1 = n then (if wd = 64 ∧ signedOf w.t = true then (w.imm.signExtend 64).toNat else w.imm.toNat)
  else if k = 0 then g.vw wd (permSrc w.pma l) w.a.toNat
  else if k = 1 then g.vw wd (permSrc w.pmb l) w.b.toNat
  else g.vw wd (permSrc w.pmc l) w.c.toNat

/-- Pairs are named by their even register (03 R48): sources of width sw, destination of width dw. -/
def EvenV (w : VecW) (sw dw : Nat) : Prop :=
  (sw = 64 → w.a.toNat % 2 = 0 ∧ w.b.toNat % 2 = 0 ∧ w.c.toNat % 2 = 0) ∧ (dw = 64 → w.d.toNat % 2 = 0)

/-- The value of a register image of width wd: two's complement under a signed type (04 R80). -/
def valueT (sg : Bool) (wd x : Nat) : Int := if sg = true ∧ 2 ^ (wd - 1) ≤ x then (x : Int) - 2 ^ wd else x
/-- The low wd bits of an exact result (04 R80). -/
def imageT (wd : Nat) (v : Int) : Nat := (v % 2 ^ wd).toNat
/-- An exact result clamped to the range of the type (04 R81). -/
def clampT (sg : Bool) (wd : Nat) (v : Int) : Int :=
  if sg then (if v < -2 ^ (wd - 1) then -2 ^ (wd - 1) else if 2 ^ (wd - 1) - 1 < v then 2 ^ (wd - 1) - 1 else v)
  else (if v < 0 then 0 else if 2 ^ wd - 1 < v then 2 ^ wd - 1 else v)

/-- An integer word of n sources completes in every lane of its active set with a result, and changes nothing else: f
gives it from the word, the signedness and width of its type, and the images of its sources. -/
def IntegerWord (mk : VecW → Instr) (n : Nat) (d32 : Bool)
    (f : VecW → Bool → Nat → Nat → Nat → Nat → Nat) : Prop :=
  ∀ (s : State) (cu : Cur) (g : Gang) (wg : Wg) (w : VecW), Calm s cu g wg → (mk w).wf = true →
    EvenV w (widthOf w.t) (if d32 then 32 else widthOf w.t) →
    ∃ t h, exec (mk w) s = .next t ∧ Ran s t cu g h false 1
      ∧ WroteV g h (actOf g cu false w.g) (if d32 then 32 else widthOf w.t) w.d.toNat (fun l =>
          f w (signedOf w.t) (widthOf w.t) (operandV g w n (widthOf w.t) 0 l) (operandV g w n (widthOf w.t) 1 l)
            (operandV g w n (widthOf w.t) 2 l))
      ∧ KeptP g h ∧ KeptS g h ∧ KeptF g h

/-! ### Kinds of words -/

/-- A word of layout V that writes a register or pair of width dw in some lanes of its active set, and raises flags: `on`
says in which lanes, `val` what, `fl` which flags a lane raises. Nothing else changes. Its pairs are even: `ev`. -/
def VectorWord (mk : VecW → Instr) (all : Bool) (ev : VecW → Prop) (dw : VecW → Nat)
    (on : Gang → LaneMask → VecW → Nat → Bool) (val : Gang → LaneMask → VecW → Nat → Nat)
    (fl : Gang → LaneMask → VecW → Nat → Flg) : Prop :=
  ∀ (s : State) (cu : Cur) (g : Gang) (wg : Wg) (w : VecW), Calm s cu g wg → (mk w).wf = true → ev w →
    ∃ t h, exec (mk w) s = .next t ∧ Ran s t cu g h all 1
      ∧ WroteV g h (actOf g cu all w.g &&& maskWhere (on g (actOf g cu all w.g) w)) (dw w) w.d.toNat
          (val g (actOf g cu all w.g) w)
      ∧ RaisedF g h (actOf g cu all w.g) (fl g (actOf g cu all w.g) w) ∧ KeptP g h ∧ KeptS g h

/-- A word of layout V that writes predicate PD in every lane of its active set, and raises flags. -/
def PredicateWord (mk : VecW → Instr) (all : Bool) (ev : VecW → Prop) (val : Gang → LaneMask → VecW → Nat → Bool)
    (fl : Gang → LaneMask → VecW → Nat → Flg) : Prop :=
  ∀ (s : State) (cu : Cur) (g : Gang) (wg : Wg) (w : VecW), Calm s cu g wg → (mk w).wf = true → ev w →
    ∃ t h, exec (mk w) s = .next t ∧ Ran s t cu g h all 1
      ∧ WroteP g h (actOf g cu all w.g) w.pd.toNat (val g (actOf g cu all w.g) w)
      ∧ RaisedF g h (actOf g cu all w.g) (fl g (actOf g cu all w.g) w) ∧ KeptV g h ∧ KeptS g h

/-- A scalar word takes effect once for the gang where a lane is active: SD takes a value (04 R99). -/
def ScalarWord (mk : ScalW → Instr) (n : Nat) (val : ScalW → W64 → W64 → W64 → W64) : Prop :=
  ∀ (s : State) (cu : Cur) (g : Gang) (wg : Wg) (w : ScalW), Calm s cu g wg → (mk w).wf = true →
    let x := fun k => if w.i = 1 ∧ k + 1 = n then w.imm.signExtend 64
      else if k = 0 then g.s w.sa.toNat else if k = 1 then g.s w.sb.toNat else g.s w.sc.toNat
    ∃ t h, exec (mk w) s = .next t ∧ Ran s t cu g h false 1
      ∧ WroteS g h (actOf g cu false w.g) w.sd.toNat (val w (x 0) (x 1) (x 2)) ∧ KeptF g h ∧ KeptP g h ∧ KeptV g h

/-- A long-latency word has issued: the group stands after it, its destinations are empty, and a producer holds their
values and flags; nothing else changes, and nothing at all but the PCs where no lane is active (01 R16, 04 R78). -/
def Produced (s t : State) (cu : Cur) (g : Gang) (all : Bool) (n : Nat) (act : LaneMask) (ready : Bool) (ds : List Dest)
    (fl : Flg) : Prop :=
  ∃ h, t.gangs.find? cu.gang = some h ∧ OnlyGang s t cu.gang ∧ PcsMoved g h (grpOf g cu all) (cu.after n)
    ∧ h = { g with pcs := h.pcs, age := h.age, splitCnt := h.splitCnt, issuecnt := h.issuecnt, lastIssue := h.lastIssue
                   empty := h.empty, prods := h.prods, nextId := h.nextId, unitOf := h.unitOf, slots := h.slots }
    ∧ (all = false → h.unitOf = g.unitOf ∧ h.slots = g.slots)
    ∧ h.empty = (if act = 0 then [] else KSet.addAll [] (ds.map (·.key)))
    ∧ h.prods = (if act = 0 then [] else [{ id := g.nextId, ready := ready, flags := fl, dests := ds }])
    ∧ h.nextId = (if act = 0 then g.nextId else g.nextId + 1)

/-- The sources of a floating-point word, after the modifiers of U (04 R86). -/
def operandF (g : Gang) (w : VecW) (n k l : Nat) : Nat :=
  if k = 0 then modSign (w.u.getLsbD 0) (w.u.getLsbD 1) (operandV g w n 32 0 l)
  else if k = 1 then modSign (w.u.getLsbD 2) (w.u.getLsbD 3) (operandV g w n 32 1 l)
  else operandV g w n 32 k l

/-- Every active lane; no flag. -/
def everyLane : Gang → LaneMask → VecW → Nat → Bool := fun _ _ _ _ => true
def noFlag : Gang → LaneMask → VecW → Nat → Flg := fun _ _ _ _ => 0

/-- Source k of a floating-point word that takes modifiers, or takes none. -/
def floatArg (mods : Bool) (g : Gang) (w : VecW) (n k l : Nat) : Nat :=
  if mods then operandF g w n k l else operandV g w n 32 k l
/-- Its result in a lane: image and flags. -/
def floatRes (mods : Bool) (n : Nat) (f : VecW → Bool → Rnd → Nat → Nat → Nat → FRes) (g : Gang) (w : VecW) (l : Nat) : FRes :=
  f w g.fz (rndOf w.rm 0 l 0) (floatArg mods g w n 0 l) (floatArg mods g w n 1 l) (floatArg mods g w n 2 l)

/-- A floating-point word of n sources: D of every active lane takes the rounded result, and its flags are raised. -/
def FloatWord (mk : VecW → Instr) (n : Nat) (mods : Bool) (f : VecW → Bool → Rnd → Nat → Nat → Nat → FRes) : Prop :=
  VectorWord mk false (fun _ => True) (fun _ => 32) everyLane (fun g _ w l => (floatRes mods n f g w l).1 % 2 ^ 32)
    fun g _ w l => (floatRes mods n f g w l).2

/-- A long-latency floating-point word of n sources. -/
def FloatLong (mk : VecW → Instr) (n : Nat) (f : Bool → Rnd → Nat → Nat → FRes) : Prop :=
  ∀ (s : State) (cu : Cur) (g : Gang) (wg : Wg) (w : VecW), Calm s cu g wg → (mk w).wf = true →
    let r := fun l => f g.fz (rndOf w.rm 0 l 0) (operandV g w n 32 0 l) (operandV g w n 32 1 l)
    ∃ t, exec (mk w) s = .next t
      ∧ Produced s t cu g false 1 (actOf g cu false w.g) true
          ((lanesOf (actOf g cu false w.g)).map fun l =>
            { key := vkey l w.d.toNat, val := BitVec.ofNat 64 ((r l).1 % 2 ^ 32), poison := false })
          ((lanesOf (actOf g cu false w.g)).foldl (fun a l => a ||| (r l).2) 0)

/-- The finite images of a format with infinities, and their values (02 R24). -/
def FiniteIn (f : FFmt) (x : Nat) : Prop := x < 2 ^ (f.eb + f.mb + 1) ∧ x / 2 ^ f.mb % 2 ^ f.eb ≠ 2 ^ f.eb - 1
def valueIn (f : FFmt) (x : Nat) : ℚ :=
  let e : Int := (x / 2 ^ f.mb % 2 ^ f.eb : Nat)
  let m : ℚ := (x % 2 ^ f.mb : Nat)
  (-1) ^ (x / 2 ^ (f.eb + f.mb)) * if e = 0 then m * 2 ^ (1 - (f.bias : Int) - f.mb) else (2 ^ f.mb + m) * 2 ^ (e - f.bias - f.mb)

/-- The value of an unpacked finite number. -/
def finValue : FVal → ℚ
  | .fin s m e => (if s = true then -1 else 1) * (m : ℚ) * (2 : ℚ) ^ e
  | _ => 0

/-- A result is a nonzero exact value v rounded to a format by a mode of 02 Table 14, with its flags: OF and NX beyond the
largest finite value (Table 15), UF where the result is tiny after rounding and inexact (R37), NX where it is inexact. -/
def Rounded (f : FFmt) (rnd : Rnd) (v : ℝ) (r : FRes) : Prop :=
  let two (k : Int) : ℝ := (2 : ℝ) ^ k
  let b : Int := f.bias
  let n : Int := f.mb
  let sign : Nat → Prop := fun x => 2 ^ (f.eb + f.mb) ≤ x ↔ v < 0
  let away : Prop := rnd = .rp ∧ 0 < v ∨ rnd = .rm ∧ v < 0
  let beyond : Prop := rnd = .rne ∧ two (b + 1) - two (b - n - 1) ≤ |v| ∨ away ∧ two (b + 1) - two (b - n) < |v| ∨ two (b + 1) ≤ |v|
  let tiny : Prop := |v| < two (1 - b) ∧ (rnd = .rne → |v| < two (1 - b) - two (-1 - b - n)) ∧
    (away → |v| ≤ two (1 - b) - two (-b - n))
  let w : ℝ := valueIn f r.1
  (beyond → sign r.1 ∧ r.1 % 2 ^ (f.eb + f.mb) + 1 = (2 ^ f.eb - 1) * 2 ^ f.mb + (if rnd = .rne ∨ away then 1 else 0)
    ∧ r.2 = fOF ||| fNX) ∧
  (¬beyond → FiniteIn f r.1 ∧ sign r.1
    ∧ (∀ x, FiniteIn f x → let z : ℝ := valueIn f x
        (rnd = .rne → |w - v| ≤ |z - v| ∧ (|w - v| = |z - v| → z ≠ w → r.1 % 2 = 0)) ∧
        (away → |v| ≤ |w| ∧ (|v| ≤ |z| → |w| ≤ |z|)) ∧
        (rnd ≠ .rne → ¬away → |w| ≤ |v| ∧ (|z| ≤ |v| → |z| ≤ |w|)))
    ∧ (w = v → r.2 = 0) ∧ (w ≠ v → tiny → r.2 = fUF ||| fNX) ∧ (w ≠ v → ¬tiny → r.2 = fNX))

/-! ### Cross-lane words (06 R141 to R145) -/

/-- Pairs of a cross-lane word are even; its lane index is one register. -/
def EvenX (w : VecW) : Prop := widthOf w.t = 64 → w.a.toNat % 2 = 0 ∧ w.d.toNat % 2 = 0
/-- a[l], val(j), the lane index and pr(l) of 06 R143. -/
def laneA (g : Gang) (w : VecW) (l : Nat) : Nat := g.vw (widthOf w.t) l w.a.toNat
def laneIdx (g : Gang) (w : VecW) (l : Nat) : Nat :=
  (if w.i = 1 then w.imm.toNat else (g.v (permSrc w.pmb l) w.b.toNat).toNat) % 32
def lanePred (g : Gang) (w : VecW) (l : Nat) : Bool := g.p l (w.u.toNat % 8) != w.u.getLsbD 3
/-- The lanes of an active set whose predicate is 1. -/
def chosen (g : Gang) (w : VecW) (act : LaneMask) : LaneMask := act &&& maskWhere (lanePred g w)
/-- How many lanes of a mask lie below a lane; the k-th lane of a mask. -/
def rankIn (m : LaneMask) (l : Nat) : Nat := ((lanesOf m).filter (· < l)).length
def nthLane (m : LaneMask) (k : Nat) : Nat := (lanesOf m).getD k 0
/-- A cross-lane word that moves values and raises no flag. -/
def MoveWord (mk : VecW → Instr) (on : Gang → LaneMask → VecW → Nat → Bool) (val : Gang → LaneMask → VecW → Nat → Nat) : Prop :=
  VectorWord mk true EvenX (fun w => widthOf w.t) on val noFlag

/-- A fold of 06 R145 over the lanes of the active set, in ascending order: partial results and flags. -/
def laneFold (g : Gang) (w : VecW) (act : LaneMask) (op : Nat → Nat → FRes) : List Nat × Flg :=
  foldVals g.fz w.t op ((lanesOf act).map (laneA g w))
/-- Addition, and minimum or maximum, as a fold takes them. -/
def laneAdd (g : Gang) (w : VecW) (a b : Nat) : FRes :=
  if w.t = Fmt.fp32 then fAdd g.fz (rndOf w.rm 0 0 0) a b else ((a + b) % 2 ^ widthOf w.t, 0)
def laneMinMax (isMax : Bool) (g : Gang) (w : VecW) (a b : Nat) : FRes :=
  if w.t = Fmt.fp32 then fMinMax g.fz isMax a b
  else
    let va := valueT (signedOf w.t) (widthOf w.t) a
    let vb := valueT (signedOf w.t) (widthOf w.t) b
    (if isMax then (if vb < va then a else b) else if va ≤ vb then a else b, 0)

/-- A reduction: D of every active lane, and with U[0] the s-register, take the last partial result (06 R145). -/
def ReductionWord (mk : VecW → Instr) (op : Gang → VecW → Nat → Nat → FRes) : Prop :=
  ∀ (s : State) (cu : Cur) (g : Gang) (wg : Wg) (w : VecW), Calm s cu g wg → (mk w).wf = true → EvenX w →
    let act := actOf g cu true w.g
    let r := laneFold g w act (op g w)
    let x := r.1.getLastD 0 % 2 ^ widthOf w.t
    ∃ t h, exec (mk w) s = .next t ∧ Ran s t cu g h true 1 ∧ WroteV g h act (widthOf w.t) w.d.toNat (fun _ => x)
      ∧ RaisedF g h act (fun _ => r.2) ∧ KeptP g h
      ∧ WroteS g h (if w.u = 1 then act else 0) w.s.toNat
          (if w.t = Fmt.si32 then (BitVec.ofNat 32 x).signExtend 64 else BitVec.ofNat 64 x)

/-! ### Words with effects of their own -/

/-- A word of n words has passed in its group and changed nothing else: no register of the gang either. -/
def Passed (s k : State) (cu : Cur) (g h : Gang) (all : Bool) (n : Nat) : Prop :=
  Ran s k cu g h all n ∧ KeptV g h ∧ KeptP g h ∧ KeptS g h ∧ KeptF g h
/-- A word passes and then has an effect E: a function of the state k in which it has done nothing but pass. -/
def Effect (i : Instr) (s : State) (cu : Cur) (g : Gang) (all : Bool) (n : Nat) (E : State → State) : Prop :=
  ∃ k h, Passed s k cu g h all n ∧ exec i s = .next (E k)

/-- What a word sees of its gang and workgroup as it issues. -/
def seen (cu : Cur) (g : Gang) (wg : Wg) (all : Bool) (gd : BitVec 4) : Ctx :=
  { gid := cu.gang, r := g, pc := cu.pc, grp := grpOf g cu all, act := actOf g cu all gd, wg := wg, pfx := none
    slot := g.slotOf cu.unit }

/-- An address may be reached by a branch, call or return (03 R66): it is a multiple of 16, and the line map of its line
marks it as a target; one that no directory entry covers faults at its first fetch (04 R103). -/
def Target (s : State) (g : Gang) (wg : Wg) (x : W64) : Prop :=
  x.toNat % 16 = 0 ∧
  match s.codeLine wg g.codemap (x.setWidth 57) with
  | .ok c => c.target (wordIdx (x.setWidth 57)) = true
  | .access => True
  | .page _ _ => False

/-- A branch has run: the active lanes stand at their targets, the other lanes of the group after the word. -/
def Jumped (s t : State) (cu : Cur) (g h : Gang) (act : LaneMask) (dest : Nat → W64) : Prop :=
  t.gangs.find? cu.gang = some h ∧ OnlyGang s t cu.gang ∧ SameGang g h false
  ∧ (∀ l, l < 32 → h.pcOf l = if act.getLsbD l then (dest l).setWidth 57
      else if (grpOf g cu false).getLsbD l then cu.after 1 else g.pcOf l)
  ∧ KeptP g h ∧ KeptS g h ∧ KeptF g h

/-- A word without a link, and one that writes the address of the next word to the pair VD, jump in every active lane. -/
def BranchWord (mk : CtrlW → Instr) (link : Bool) (dest : Cur → Gang → CtrlW → Nat → W64) : Prop :=
  ∀ (s : State) (cu : Cur) (g : Gang) (wg : Wg) (w : CtrlW), Calm s cu g wg → (mk w).wf = true → w.vd.toNat % 2 = 0 →
    w.va.toNat % 2 = 0 → (∀ l, (actOf g cu false w.g).getLsbD l = true → Target s g wg (dest cu g w l)) →
    ∃ t h, exec (mk w) s = .next t ∧ Jumped s t cu g h (actOf g cu false w.g) (dest cu g w)
      ∧ if link then WroteV g h (actOf g cu false w.g) 64 w.vd.toNat (fun _ => (cu.pc + 16).toNat) else KeptV g h

/-- A gang has entered its handler (05 R134, 07 R179): the lanes of the group stand at TRAPBASE, TRAPCAUSE holds the cause
and the lowest trapped lane; nothing outside the gang changes but the monitors that serve no group any more. -/
def Trapped (s t : State) (cu : Cur) (g : Gang) (all : Bool) (cause : Nat) (pc addr : W64) : Prop :=
  let grp := grpOf g cu all
  ∃ h, t.gangs.find? cu.gang = some h ∧ OnlyGang s { t with monitors := s.monitors } cu.gang
    ∧ h = { g with pcs := h.pcs, waits := h.waits, age := h.age, splitCnt := h.splitCnt, issuecnt := h.issuecnt
                   lastIssue := h.lastIssue, unitOf := h.unitOf, slots := h.slots, handler := true, fresh := false
                   trapped := grp, trapcause := BitVec.ofNat 64 (cause + 256 * lowLane grp), trappc := pc, trapaddr := addr
                   ordSusp := none }
    ∧ (all = false → h.unitOf = g.unitOf ∧ h.slots = g.slots)
    ∧ ∀ l, l < 32 → grp.getLsbD l = true → h.pcOf l = g.trapbase.setWidth 57 &&& ~~~(15 : PCAddr)
/-- Nothing holds back a word that orders the gang's earlier accesses: none of its matrix words has steps to make (08 R203),
and where the word acts at .SYS, none of its writes is on its way to a peer (20 R389). -/
def Orders (s : State) (cu : Cur) (g : Gang) (sys : Prop) : Prop :=
  (∀ o ∈ g.qops, o.phase = .rendezvous) ∧ (sys → s.peerWrites cu.gang 0 = false)
/-- The gang has a handler and does not run it. -/
def HasHandler (g : Gang) : Prop := g.handler = false ∧ fld g.trapbase 4 53 ≠ 0

/-- A wait at a QPOP. -/
def Wait.popping (w : Wait) : Bool := match w.kind with | .qpop .. => true | _ => false

/-! ### Memory words (07 R160 to R176) -/

/-- The address of a lane's access: base, index and offset (07 R160). -/
def addrM (g : Gang) (w : MemW) (l : Nat) : W64 :=
  (if w.nb = 1 then 0 else g.s w.sb.toNat) + (if w.vx = 1 then (g.v (permSrc w.pma l) w.va.toNat).setWidth 64 else 0)
    + w.imm.signExtend 64

/-- An access of n bytes at x in a space passes the checks of 07 R166 and Table 55 and names the place p. -/
def Reaches (s : State) (wid : Nat) (wg : Wg) (sp n : Nat) (acc : AccKind) (x : W64) (p : Loc) : Prop :=
  x.toNat % n = 0 ∧
  match sp with
  | 0 => s.translate (tlbUnit wg.pid) wg.tenant acc x = .ok p
  | 1 => x.toNat + n ≤ wg.scrLen ∧ p = { kind := .scr wid, addr := x.toNat }
  | 2 => wg.groupSize ≠ 0 ∧ wg.passedFinal = false ∧ fld x 21 43 = 0 ∧ fld x 18 3 < wg.groupSize
      ∧ fld x 0 18 + n ≤ wg.scrLen
      ∧ ∃ e, s.memberOf wg (fld x 18 3) = some e ∧ e.2.passedFinal = false ∧ p = { kind := .scr e.1, addr := fld x 0 18 }
  | _ => fld x 29 35 = 0 ∧ fld x 22 7 < 96
      ∧ ∃ v, s.vaultOf (s.tenantPart wg.tenant) (fld x 22 7) = some v ∧ p = { kind := .vault, addr := v * 2 ^ 22 + fld x 0 22 }

/-- A place of this package, in memory that a stack of the part holds (18 R374). -/
def Here (s : State) (p : Loc) : Prop :=
  match p.kind with
  | .mem _ => s.paOk p.addr = true
  | .peer _ => False
  | _ => True
/-- No slot plan of a workgroup on the core owns a slot of a place's vault (14 R290): accesses are best-effort. -/
def BestEffort (s : State) (core : Nat) (p : Loc) : Prop := s.ownedSlots core p = []

/-- The lanes of a mask reach places of this package, no vault of an owned slot among them; where they are vaults, no earlier
access of the gang is on its way to one (log 58). -/
def LanesReach (s : State) (cu : Cur) (g : Gang) (wg : Wg) (w : MemW) (acc : AccKind) (lanes : List Nat)
    (place : Nat → Loc) : Prop :=
  (w.sp = 3 → s.vaultOpen cu.gang = false) ∧
  ∀ l ∈ lanes, Reaches s g.wg wg w.sp.toNat (2 ^ w.wd.toNat) acc (addrM g w l) (place l) ∧ Here s (place l)
    ∧ BestEffort s (coreOf wg.pid) (place l)
/-- The lanes of a mask reach vaults, one of them in slots that a plan of the core's workgroups owns (14 R290, R291), or an
earlier access of the gang is on its way to a vault: all the word's accesses then wait in its order (15 R299; log 58). -/
def LanesOwn (s : State) (cu : Cur) (g : Gang) (wg : Wg) (w : MemW) (acc : AccKind) (lanes : List Nat)
    (place : Nat → Loc) : Prop :=
  (∀ l ∈ lanes, Reaches s g.wg wg w.sp.toNat (2 ^ w.wd.toNat) acc (addrM g w l) (place l) ∧ (place l).kind = .vault) ∧
  (s.vaultOpen cu.gang = true ∨ ∃ l ∈ lanes, ¬BestEffort s (coreOf wg.pid) (place l))
/-- An access on its way to a vault: it waits for the next of its slots, where it has any. -/
def waitingAccess (s : State) (core gid prod : Nat) (p : Loc) (act : VaultAct) : VaultOp :=
  { core := core, gang := gid, prod := prod, addr := p.addr, act := act, slots := s.ownedSlots core p
    dist := vaultTime (vaultOverCore core) (p.addr / 2 ^ 22), acq := none, sentAt := none, performed := false }

/-- A register run of a memory word is aligned to its size (07 R165). -/
def MemAligned (w : MemW) (r : Nat) : Prop := (w.wd = 3 → r % 2 = 0) ∧ (w.wd = 4 → r % 4 = 0)
/-- Registers of a memory word's value. -/
def regsM (w : MemW) : Nat := (2 ^ w.wd.toNat + 3) / 4
/-- Register j of a value: its 32 bits at 32j, a narrower value extended by SX (07 R167). -/
def regM (w : MemW) (v j : Nat) : W32 :=
  match w.wd.toNat with
  | 0 => if w.sx = 1 then (BitVec.ofNat 8 v).signExtend 32 else (BitVec.ofNat 8 v).setWidth 32
  | 1 => if w.sx = 1 then (BitVec.ofNat 16 v).signExtend 32 else (BitVec.ofNat 16 v).setWidth 32
  | _ => BitVec.ofNat 32 (v / 2 ^ (32 * j))
/-- The value that a run of registers of a lane holds. -/
def valM (g : Gang) (w : MemW) (l r : Nat) : Nat :=
  ((List.range (regsM w)).map fun j => (g.v l (r + j)).toNat * 2 ^ (32 * j)).sum

/-- A producer holds the values of a word that has passed, as `Produced` says of the gang. -/
def Holds (t : State) (cu : Cur) (g : Gang) (all : Bool) (n : Nat) (act : LaneMask) (ready : Bool) (ds : List Dest)
    (fl : Flg) : Prop :=
  ∃ h, t.gangs.find? cu.gang = some h ∧ PcsMoved g h (grpOf g cu all) (cu.after n)
    ∧ h = { g with pcs := h.pcs, age := h.age, splitCnt := h.splitCnt, issuecnt := h.issuecnt, lastIssue := h.lastIssue
                   empty := h.empty, prods := h.prods, nextId := h.nextId, waits := h.waits }
    ∧ h.empty = (if act = 0 then [] else KSet.addAll [] (ds.map (·.key)))
    ∧ h.prods = (if act = 0 then [] else [{ id := g.nextId, ready := ready, flags := fl, dests := ds }])
    ∧ h.nextId = (if act = 0 then g.nextId else g.nextId + 1)

/-- A read changes nothing outside its gang but what the caches and the counters of accesses hold. -/
def ReadOnly (s t : State) (gid : Nat) : Prop :=
  OnlyGang s { t with l1 := s.l1, l2 := s.l2, l2clock := s.l2clock, useBw := s.useBw, cregs := s.cregs } gid
  ∧ ∀ p off, (∀ c, p ≠ .core c) → t.creg p off = s.creg p off

/-- Byte a of a place's kind lies in an access of n bytes. -/
def Covers (p : Loc) (n : Nat) (k : LocKind) (a : Nat) : Prop := p.kind = k ∧ p.addr ≤ a ∧ a < p.addr + n
/-- A byte that an access to another line of memory cannot touch: it lies in the same kind of place, in no HBM line of the
access, or in no HBM at all. -/
def Apart (p : Loc) (k : LocKind) (a : Nat) : Prop :=
  p.kind = k ∨ (match k, p.kind with | .mem _, .mem _ => a / 128 ≠ p.addr / 128 | _, _ => True)
/-- No store waits in a buffer of any core or cluster. -/
def Drained (s : State) : Prop := s.wcb = [] ∧ s.cpt = []

/-- Every gang keeps its lanes' status and its registers. -/
def RegsKept (s t : State) : Prop :=
  ∀ j, (t.gangs.find? j).map (fun q => (q.status, q.vr, q.pr, q.sr, q.fpstat))
    = (s.gangs.find? j).map fun q => (q.status, q.vr, q.pr, q.sr, q.fpstat)
/-- A word that produces nothing has passed; waits of other lanes of its gang may have been woken. -/
def PassedOn (t : State) (cu : Cur) (g : Gang) : Prop :=
  ∃ h, t.gangs.find? cu.gang = some h ∧ PcsMoved g h (grpOf g cu false) (cu.after 1) ∧ SameGang g { h with waits := g.waits } false
    ∧ KeptV g h ∧ KeptP g h ∧ KeptS g h ∧ KeptF g h

/-- Lanes of an atomic with the address of a lane, ascending; its operands, and for CAS its compare values. -/
def withAddr (g : Gang) (w : MemW) (act : LaneMask) (x : W64) : List Nat := (lanesOf act).filter fun l => addrM g w l = x
def operandsM (g : Gang) (w : MemW) (ls : List Nat) : List Nat := ls.map fun l => valM g w (permSrc w.pmb l) w.vb.toNat
def comparesM (g : Gang) (w : MemW) (ls : List Nat) : List Nat := ls.map fun l => valM g w l w.vd.toNat

/-- ATOM, RED and CAS (07 R173 to R176), where no two addresses name one place and no store waits in a buffer: the lanes
of one address act in ascending order on its value, each returns what it found, and no other byte changes. -/
def AtomicWord (mk : MemW → Instr) (cas ret : Bool) : Prop :=
  ∀ (s : State) (cu : Cur) (g : Gang) (wg : Wg) (w : MemW) (place : Nat → Loc), Calm s cu g wg → (mk w).wf = true →
    Drained s → (ret = true → MemAligned w w.vd.toNat) → MemAligned w w.vb.toNat →
    let act := actOf g cu false w.g
    let n := 2 ^ w.wd.toNat
    let core := coreOf wg.pid
    LanesReach s cu g wg w .write (lanesOf act) place →
    (∀ l ∈ lanesOf act, ∀ m ∈ lanesOf act, (place l).kind = (place m).kind ∧ (place l = place m → addrM g w l = addrM g w m)) →
    let r (x : W64) : Option Nat × List Nat :=
      let ls := withAddr g w act x
      atomSteps w.ao.toNat (8 * n) (w.sx = 1) (if cas then some (comparesM g w ls) else none)
        (s.loadNat core false (place (ls.headD 0)) n) (operandsM g w ls)
    ∃ t, exec (mk w) s = .next t ∧ RegsKept s t
      ∧ (∀ l ∈ lanesOf act, ∀ v, (r (addrM g w l)).1 = some v → t.loadNat core false (place l) n = v % 2 ^ (8 * n))
      ∧ (∀ k a, (∀ l ∈ lanesOf act, Apart (place l) k a ∧ ((r (addrM g w l)).1.isSome = true → ¬Covers (place l) n k a)) →
          t.loadByte core false k a = s.loadByte core false k a)
      ∧ if ret then
          Holds t cu g false 1 act true
            ((((lanesOf act).map (addrM g w)).eraseDups).flatMap fun x =>
              ((withAddr g w act x).zip (r x).2).flatMap fun e => (List.range (regsM w)).map fun j =>
                { key := vkey e.1 (w.vd.toNat + j), val := (BitVec.ofNat 32 (e.2 / 2 ^ (32 * j))).setWidth 64
                  poison := s.loadPoisoned core false (place ((withAddr g w act x).headD 0)) n }) 0
        else PassedOn t cu g

/-! ### Matrix tiles (08 R189 to R191, R201) -/

/-- A tile descriptor passes the checks of 08 R191: reserved bits are 0, ROT is legal, and the fields are aligned. -/
def DescOk (d0 d1 : W64) : Prop :=
  fld d0 18 14 = 0 ∧ fld d0 48 16 = 0 ∧ fld d1 18 2 = 0 ∧ fld d1 23 41 = 0 ∧ fld d1 20 3 < 6
  ∧ fld d0 0 18 % 16 = 0 ∧ fld d0 32 16 % 16 = 0 ∧ fld d1 0 18 % 16 = 0
/-- The offsets of the bytes of a lane's n elements of wd bits in a tile, in element order: along its row, or with TR down
its column. -/
def tileBytes (g : Gang) (w : MmaW) (wd n l : Nat) : List Nat :=
  let off (r k : Nat) : Nat := tileOff (g.s w.sa0.toNat) (g.s w.sa1.toNat) (w.imm.signExtend 64) (l / 8) r k
  if w.tr = 1 then (List.range n).flatMap fun e => (List.range (wd / 8)).map fun i => off e (wd / 8 * (l % 8) + i)
  else (List.range (wd * n / 8)).map (off (l % 8))

/-- Lanes wait at a word: every register of the gang is as before, and the group stands at the word (05 R114). -/
def Blocked (s t : State) (cu : Cur) (g h : Gang) (all : Bool) : Prop :=
  t.gangs.find? cu.gang = some h ∧ OnlyGang s t cu.gang ∧ PcsMoved g h (grpOf g cu all) (cu.after 0)
  ∧ KeptV g h ∧ KeptP g h ∧ KeptS g h ∧ KeptF g h

/-! ### Macro-instructions (09 R204 to R207) -/

/-- A macro-instruction whose blocks are FRESH and whose operands pass its checks asks for a lathe: its group is blocked on
the word, and its state block and outputs are empty. `outs`: the lanes, first register and count of its outputs. -/
def MacroWord (mk : MacroW → Instr) (gangKind : Bool) (state : Nat) (chk : MacroW → Ctx → State → Check)
    (fits : State → Gang → LaneMask → MacroW → Prop) (outs : LaneMask → MacroW → List (LaneMask × Nat × Nat)) : Prop :=
  ∀ (s : State) (cu : Cur) (g : Gang) (wg : Wg) (w : MacroW), Calm s cu g wg → (mk w).wf = true →
    let act := actOf g cu gangKind w.g
    let grp := grpOf g cu gangKind
    act ≠ 0 → (∀ l ∈ lanesOf act, g.v l w.vs.toNat = 0) → w.vs.toNat + state ≤ 256 → fits s g act w →
    chk w (seen cu g wg gangKind w.g) s = .ok →
    let keys := ((act, w.vs.toNat, state) :: outs act w).flatMap fun o =>
      (lanesOf o.1).flatMap fun l => (List.range o.2.2).map fun j => vkey l (o.2.1 + j)
    ∃ t h, exec (mk w) s = .next t ∧ Blocked s t cu g h gangKind
      ∧ h.waits = g.waits ++ [{ id := g.nextId + 1, lanes := grp, kind := .lathe }]
      ∧ h.mops = g.mops ++ [{ wait := g.nextId + 1, pc := cu.pc, ins := mk w, grp := grp, act := act, stopped := 0
                              began := 0, prod := g.nextId, waitPix := [] }]
      ∧ ∀ k, k ∈ h.empty ↔ k ∈ keys

/-! ### Engine commands (12 R264 to R267) -/

/-- An ENG word that passes its checks places one command at the end of its cluster's queue, and counts it. -/
def EngineWord (i : Instr) (op : Nat) (w : EngW) (k : BitVec 120) : Prop :=
  ∀ (s : State) (cu : Cur) (g : Gang) (wg : Wg), Calm s cu g wg → i.wf = true →
    let c := seen cu g wg false w.g
    let cl := clusterOf wg.pid
    actOf g cu false w.g ≠ 0 → engChecks op w k c s = .ok →
    ∃ t h m, exec i s = .next t ∧ t.gangs.find? cu.gang = some h
      ∧ SameGang g { h with cmdIssued := g.cmdIssued, empty := g.empty, prods := g.prods, nextId := g.nextId
                            waits := g.waits } false
      ∧ PcsMoved g h (grpOf g cu false) (cu.after i.wordCount)
      ∧ KeptV g h ∧ KeptP g h ∧ KeptS g h ∧ KeptF g h ∧ h.cmdIssued = (g.cmdIssued + 1) % 2 ^ 32
      ∧ (w.rt = 0 → h.empty = [] ∧ h.prods = [] ∧ m.rt = none)
      ∧ (w.rt = 1 → m.rt = some (w.vr.toNat, actOf g cu false w.g, g.nextId) ∧ (∀ k, k ∈ h.empty ↔
          ∃ l j, (actOf g cu false w.g).getLsbD l = true ∧ j < m.total / 128 ∧ k = vkey l (w.vr.toNat + j)))
      ∧ t.engines.getD cl [] = s.engines.getD cl [] ++ [m] ∧ (∀ j, j ≠ cl → t.engines.getD j [] = s.engines.getD j [])
      ∧ t.engNext = s.engNext + 1
      ∧ m.id = s.engNext ∧ m.gang = cu.gang ∧ m.wg = g.wg ∧ m.tenant = wg.tenant ∧ m.op = op ∧ m.src = g.s w.ss.toNat
      ∧ m.dst = g.s w.sd.toNat ∧ m.srcSp = w.ssp.toNat ∧ m.dstSp = w.dsp.toNat
      ∧ m.n = (if op = 5 then 16 else (g.s w.sn.toNat).toNat) ∧ m.acq = decide (w.acq = 1) ∧ m.rel = decide (w.rel = 1)
      ∧ m.scope = w.sc.toNat ∧ m.sig = (if w.sig = 1 then some (g.s w.sg.toNat) else none) ∧ m.sv = g.s w.sv.toNat
      ∧ m.moved = 0 ∧ m.fault = none ∧ m.task = none
      ∧ (w.acq = 0 → t.mem = s.mem ∧ t.vmem = s.vmem)

/-! ### Tasks (16 R315, R320, R321, R331) -/

/-- A port of a task window decodes: it runs, the window has room, and it has decoded no task in this cycle (16 R320). -/
structure PortReady (s : State) (part port : Nat) : Prop where
  cur : ∃ c, s.cur = some c ∧ c.port = some (part, port)
  decodes : s.decodes part port = true
  room : s.entriesUsed part < fld (s.creg (.part part) 0x8000) 0 9
  first : s.winMark.getD (4 * part) 0 ≠ s.cycle + 1

/-- The n words of a port's next task lie in memory that a stack of the part holds (18 R374). -/
def WordsHere (s : State) (part port n : Nat) : Prop :=
  let p := s.port part port
  (s.winTouch p.tenant (vaOf p.spec.tpc) (16 * n) true).absentAcc = none
/-- The port's speculative state n words on. -/
def Port.after (p : Port) (n : Nat) : PortCtx := { p.spec with tpc := (p.spec.tpc + 16 * n) % 2 ^ 57 }

/-- A task has entered the window as its youngest entry, and the port holds q and decodes on from q's speculative state:
the entry keeps the k-registers before the task, the state d after it, and the handles and regions of d, whose free lists
the window now has. Other ports, other entries, memory, and all the rest of the device are as before, but for what the
L2 keeps and counts of the read of the task's words, and the requests for words in a peer's memory. -/
def Entered (s t : State) (part port : Nat) (i : Instr) (late : Bool) (d : Dec) (q : Port) (phases : Nat) : Prop :=
  ∃ e ps wm, t = { s with tasks := s.tasks.set s.nextTask e, nextTask := s.nextTask + 1, ports := ps, winMark := wm
                          freeLists := d.lists, decodeLast := s.decodeLast.put 3 part port
                          nextPhase := s.nextPhase + phases, l2 := t.l2, l2clock := t.l2clock, useBw := t.useBw
                          links := t.links, freeCtr := t.freeCtr }
    ∧ e.part = part ∧ e.port = port ∧ e.ins = i ∧ e.addr = (s.port part port).spec.tpc ∧ e.kin = (s.port part port).spec.k
    ∧ e.st = (if late then .waiting else .completed) ∧ e.fault = none ∧ e.phaseId = (s.port part port).phaseId
    ∧ e.after = d.ctx ∧ e.olds = d.olds ∧ e.news = d.news ∧ e.regs = d.regs ∧ e.lids = [] ∧ e.cmds = []
    ∧ t.port part port = q ∧ (∀ k, k ≠ portKey part port → ps.find? k = s.ports.find? k)
    ∧ (∀ k, wm.getD k 0 = if k = 4 * part then s.cycle + 1 else s.winMark.getD k 0)

/-- A region that a task asks for: the number of its binding, mode, buffer, bytes (none: the whole buffer), residence. -/
structure Want where
  bind : Nat
  mode : Nat
  t : Nat
  ext : Option (Nat × Nat)
  res : Bool
  deriving DecidableEq, Repr

/-- Regions of binding words, numbered from i. -/
def bindWants (k : SMap W64) : Nat → List BindW → List Want
  | _, [] => []
  | i, b :: bs =>
    { bind := i, mode := b.mode.toNat, t := b.t.toNat, res := b.res = 1
      ext := if b.whole = 1 then none else some ((kOf k b.ko).toNat, (kOf k b.kl).toNat) } :: bindWants k (i + 1) bs
/-- The regions of a task, in the order in which they are resolved (16 R333 to R336). -/
def wantsOf (k : SMap W64) : Instr → List Want
  | .tlaunch _ bs => bindWants k 0 bs
  | .tdraw w bs => { bind := 0, mode := 2, t := w.ta.toNat, ext := none, res := true } :: bindWants k 1 bs
  | .tcopy w =>
    [{ bind := 0xF, mode := if w.sub = 1 then 3 else 1, t := w.ta.toNat, res := false
       ext := some ((kOf k w.ka).toNat, (kOf k w.kc).toNat) },
     { bind := 0xF, mode := 0, t := w.tb.toNat, ext := some ((kOf k w.kb).toNat, (kOf k w.kc).toNat), res := false }]
  | .tfill w =>
    [{ bind := 0xF, mode := if w.sub = 1 then 3 else 1, t := w.ta.toNat, res := false
       ext := some ((kOf k w.ka).toNat, (kOf k w.kb).toNat) }]
  | .tallred w | .tallgat w | .trdscat w =>
    [{ bind := 0xF, mode := 3, t := w.ta.toNat, ext := none, res := false },
     { bind := 0xF, mode := 0, t := w.tb.toNat, ext := some (0, (kOf k w.ka).toNat * (widthOf w.fmt / 8)), res := false }]
  | .tpresent w => [{ bind := 0xF, mode := 0, t := w.ta.toNat, ext := none, res := false }]
  | _ => []

/-- 16 R321: one region is resolved against the buffer map; OVW first takes a new handle of the buffer's class. -/
def Resolves (part : Nat) (x : Want) (a b : Dec) : Prop :=
  ∃ e bufs, a.ctx.bufs.find? x.t = some e ∧
    let list := listKey part e.cls
    let h := if x.mode = 3 then (a.lists.getD list []).headD 0 else e.handle
    b = { ctx := { a.ctx with bufs := bufs }, lists := b.lists
          olds := if x.mode = 3 then a.olds ++ [(e.cls, e.handle)] else a.olds
          news := if x.mode = 3 then a.news ++ [(e.cls, h)] else a.news
          regs := a.regs ++ [{ t := x.t, handle := h, off := (x.ext.getD (0, e.size)).1, len := (x.ext.getD (0, e.size)).2
                               mode := x.mode, size := e.size, fmt := e.fmt, shape := e.shape, res := x.res }] }
    ∧ (∀ j, bufs.find? j = if j = x.t then some { e with handle := h } else a.ctx.bufs.find? j)
    ∧ ∀ k, b.lists.getD k [] = if x.mode = 3 ∧ k = list then (a.lists.getD k []).tail else a.lists.getD k []
/-- Regions are resolved one after another. -/
def ResolvesAll (part : Nat) : List Want → Dec → Dec → Prop
  | [], a, b => a = b
  | x :: xs, a, b => ∃ m, Resolves part x a m ∧ ResolvesAll part xs m b

/-- A binding word that passes the checks of 16 R315 and R316. -/
def BindOk (b : BindW) : Prop :=
  b.mark = 0xCFF ∧ b.rsv = 0 ∧ b.ko.toNat < 32 ∧ b.kl.toNat < 32 ∧ (b.whole = 1 → b.ko = 0 ∧ b.kl = 0)
  ∧ (b.mode = 3 → b.whole = 1)
/-- The binding words of a task. -/
def bindsOf : Instr → List BindW
  | .tlaunch _ bs => bs
  | .tdraw _ bs => bs
  | _ => []

/-- Where a decode of n words starts: nothing recorded, the lists as they stand. -/
def decBegin (s : State) (p : Port) (n : Nat) : Dec :=
  { ctx := p.after n, lists := s.freeLists, olds := [], news := [], regs := [] }
/-- A k-register takes a value. -/
def WroteK (a b : PortCtx) (n : BitVec 6) (x : W64) : Prop :=
  b = { a with k := b.k } ∧ ∀ j, b.k.getD j 0 = if j = n.toNat then x else a.k.getD j 0

/-- A task that acts at decode: it completes there, and the port goes on with d. -/
def DecodeTask (i : Instr) (D : State → Port → Dec → Dec → Prop) (ok : State → Nat → Port → Prop) : Prop :=
  ∀ (s : State) (part port : Nat), PortReady s part port → WordsHere s part port 1 → i.wf = true →
    ok s part (s.port part port) →
    let p := s.port part port
    ∃ t d, exec i s = .next t ∧ D s p (decBegin s p 1) d ∧ Entered s t part port i false d { p with spec := d.ctx } 0

/-! ### Events -/

/-- A gang whose workgroup stands on a core partition. -/
def Resident (s : State) (gid : Nat) (g : Gang) (w : Wg) : Prop :=
  s.gangs.find? gid = some g ∧ s.wgs.find? g.wg = some w ∧ w.status = .resident
/-- One gang has become h; nothing else has changed. -/
def GangOnly (s t : State) (gid : Nat) (h : Gang) : Prop :=
  t = { s with gangs := t.gangs } ∧ ∀ j, t.gangs.find? j = if j = gid then some h else s.gangs.find? j
/-- The lanes of a mask have moved past the word that each stands on. -/
def Advanced (g h : Gang) (m : LaneMask) : Prop :=
  ∀ l, l < 32 → h.pcOf l = if m.getLsbD l then (g.pcOf l + 16) &&& ~~~(15 : PCAddr) else g.pcOf l

/-- A gang has entered its handler with ACCESS at an address, and is parked no more. -/
def Denied (t : State) (g : Gang) (gid : Nat) (lanes : LaneMask) (pc : PCAddr) (va : W64) : Prop :=
  ∃ h, t.gangs.find? gid = some h ∧ h.handler = true ∧ h.trapped = lanes ∧ h.parked = false
    ∧ h.trapcause = BitVec.ofNat 64 (0x06 + 256 * lowLane lanes) ∧ h.trappc = pc.setWidth 64 ∧ h.trapaddr = va
    ∧ (∀ l, l < 32 → lanes.getLsbD l = true → h.pcOf l = g.trapbase.setWidth 57 &&& ~~~(15 : PCAddr))
    ∧ KeptV g h ∧ KeptP g h ∧ KeptS g h ∧ KeptF g h
/-- SEC has answered a request: version 1.2, a code, a content; its session state is x. -/
def Answered (s t : State) (code : Nat) (body : List Byte) (x : Spdm) : Prop :=
  t = { s with freeCtr := t.freeCtr, spdm := x, sent := s.sent ++ [Sent.spdm (leBytes 1 0x12 ++ leBytes 1 code ++ body)] }

end Sys2Proof.Machine
end

