-- ==== Sys2Proof/Safety.lean ====
section
/-! DEFINITION. What a safe run is, in the terms that claims use: the canonical form of memory, and steps that go
on. -/

namespace Sys2Proof.Machine

/-- The canonical form of a memory: addresses strictly rising, and no byte listed that reads as an unlisted one does. -/
def Memory.wf (m : SMap Byte) : Bool := m.canon 0
/-- Every memory of the device is in canonical form: HBM, the vaults, and the scratchpads. -/
def State.memWf (s : State) : Bool :=
  Memory.wf s.mem && Memory.wf s.vmem && s.wgs.all fun e => Memory.wf e.2.scr

/-- Gangs and workgroups stand once each, by number, and every gang has been given its number. -/
def State.unitsWf (s : State) : Bool := s.gangs.wf && s.wgs.wf && s.gangs.all fun e => decide (e.1 < s.nextGang)

/-- The machine goes on. -/
def Goes (o : Host.Outcome State Fault Refusal) : Prop := ∃ t, o = .next t
/-- A run of n steps that neither faults nor refuses. -/
def SafeRun (n : Nat) (s : State) : Prop :=
  match n with
  | 0 => True
  | k + 1 => ∃ t, step s = .next t ∧ SafeRun k t

end Sys2Proof.Machine
end

