-- ==== Sys2Proof/Certificates/Slice0/Obligations.lean ====
section
/-! DEFINITION. The statements for the provers. -/

open Sys2Proof Sys2Proof.Machine

/-- 04 R80, R81, R84: sums, products and comparisons of integers, computed exactly and reduced to the width of T, or
clamped to its range with .SAT; the byte dot product IDOT4. -/
def Obligations.IntegerArithmetic : Prop :=
  (IntegerWord .iadd 2 false fun w sg wd a b _ =>
    let v := valueT sg wd a + valueT sg wd b
    imageT wd (if w.u = 1 then clampT sg wd v else v)) ∧
  (IntegerWord .isub 2 false fun w sg wd a b _ =>
    let v := valueT sg wd a - valueT sg wd b
    imageT wd (if w.u = 1 then clampT sg wd v else v)) ∧
  (IntegerWord .imul 2 false fun _ sg wd a b _ => imageT wd (valueT sg wd a * valueT sg wd b)) ∧
  (IntegerWord .imulh 2 false fun _ sg wd a b _ => imageT wd (valueT sg wd a * valueT sg wd b / 2 ^ wd)) ∧
  (IntegerWord .imad 3 false fun _ sg wd a b c => imageT wd (valueT sg wd a * valueT sg wd b + valueT sg wd c)) ∧
  (IntegerWord .imin 2 false fun _ sg wd a b _ => imageT wd (min (valueT sg wd a) (valueT sg wd b))) ∧
  (IntegerWord .imax 2 false fun _ sg wd a b _ => imageT wd (max (valueT sg wd a) (valueT sg wd b))) ∧
  (IntegerWord .iabs 1 false fun w sg wd a _ _ =>
    let v := |valueT sg wd a|
    imageT wd (if w.u = 1 then clampT sg wd v else v)) ∧
  (IntegerWord .ineg 1 false fun w sg wd a _ _ =>
    let v := -valueT sg wd a
    imageT wd (if w.u = 1 then clampT sg wd v else v)) ∧
  (IntegerWord .iaddsh 2 false fun w sg wd a b _ => imageT wd (valueT sg wd a + valueT sg wd b * 2 ^ w.u.toNat)) ∧
  IntegerWord .idot4 3 false fun _ sg _ a b c =>
    let el (x i : Nat) : Int := valueT sg 8 (x / 256 ^ i % 256)
    imageT 32 ((c : Int) + el a 0 * el b 0 + el a 1 * el b 1 + el a 2 * el b 2 + el a 3 * el b 3)

/-- 04 R80, R82, R85: bitwise words, shifts by the low bits of b, bit counts, bit fields and moves. -/
def Obligations.IntegerBits : Prop :=
  (IntegerWord .and 2 false fun _ _ wd a b _ => (BitVec.ofNat wd a &&& BitVec.ofNat wd b).toNat) ∧
  (IntegerWord .or 2 false fun _ _ wd a b _ => (BitVec.ofNat wd a ||| BitVec.ofNat wd b).toNat) ∧
  (IntegerWord .xor 2 false fun _ _ wd a b _ => (BitVec.ofNat wd a ^^^ BitVec.ofNat wd b).toNat) ∧
  (IntegerWord .not 1 false fun _ _ wd a _ _ => (~~~BitVec.ofNat wd a).toNat) ∧
  (IntegerWord .shl 2 false fun _ _ wd a b _ => (BitVec.ofNat wd a <<< (b % wd)).toNat) ∧
  (IntegerWord .shr 2 false fun _ _ wd a b _ => (BitVec.ofNat wd a >>> (b % wd)).toNat) ∧
  (IntegerWord .sra 2 false fun _ _ wd a b _ => ((BitVec.ofNat wd a).sshiftRight (b % wd)).toNat) ∧
  (IntegerWord .rot 2 false fun _ _ wd a b _ => ((BitVec.ofNat wd a).rotateLeft (b % wd)).toNat) ∧
  (IntegerWord .clz 1 true fun _ _ wd a _ _ => ((List.range wd).filter fun i => a < 2 ^ i).length) ∧
  (IntegerWord .popc 1 true fun _ _ wd a _ _ => ((List.range wd).filter fun i => a.testBit i).length) ∧
  (IntegerWord .brev 1 false fun _ _ wd a _ _ => (BitVec.ofNat wd a).reverse.toNat) ∧
  (IntegerWord .bfe 3 false fun _ sg wd a b c =>
    let o := b % wd
    let k := min (o + c / 256 % (2 * wd)) wd - o
    let f := a / 2 ^ o % 2 ^ k
    if k = 0 then 0 else imageT wd (valueT sg k f)) ∧
  (IntegerWord .bfi 3 false fun _ _ wd a b c =>
    let o := c % wd
    let k := min (o + c / 256 % (2 * wd)) wd - o
    a % 2 ^ o + b % 2 ^ k * 2 ^ o + a / 2 ^ (o + k) * 2 ^ (o + k)) ∧
  (IntegerWord .mov 1 false fun _ _ _ a _ _ => a) ∧
  IntegerWord .movi 1 false fun _ _ _ a _ _ => a

/-- 04 R83: ICMP writes the comparison under T's signedness to PD, and SEL chooses by the predicate that PD names; with p0
it always takes a. -/
def Obligations.CompareAndSelect : Prop :=
  PredicateWord .icmp false (fun w => EvenV w (widthOf w.t) 32)
    (fun g _ w l =>
      let a := valueT (signedOf w.t) (widthOf w.t) (operandV g w 2 (widthOf w.t) 0 l)
      let b := valueT (signedOf w.t) (widthOf w.t) (operandV g w 2 (widthOf w.t) 1 l)
      match w.u.toNat with
      | 0 => a = b
      | 1 => a ≠ b
      | 2 => a < b
      | 3 => a ≤ b
      | 4 => a > b
      | _ => a ≥ b) noFlag ∧
  VectorWord .sel false (fun w => EvenV w (widthOf w.t) (widthOf w.t)) (fun w => widthOf w.t) everyLane
    (fun g _ w l => if g.p l w.pd.toNat then operandV g w 2 (widthOf w.t) 0 l else operandV g w 2 (widthOf w.t) 1 l) noFlag

/-- Steps of the matrix array and of the macro-instructions, as values. 02 R42 to R44: a block step, exact or through the
window of 28 bits. 09 R217, R218, R221: the edges, box and top-left marks that setup leaves, coverage, and the depth at a
position. 09 R226, R227: the colour of a sample blended over its destination, and unpacked bytes. 10 R231, R232, R233:
logarithms, weights of a bilinear footprint, and a weighted channel. 10 R240: the box test. 10 R245: the queues of a
primitive. -/
def Obligations.MacroSteps : Prop :=
  let rounded (v : ℚ) (x : Nat) : Prop := ∃ fl, Rounded fmtFp32 .rne (v : ℝ) (x, fl)
  let q := valueIn fmtFp32
  let fin := FiniteIn fmtFp32
  let block (acc : Nat) (b : FRes) : Nat × Flg :=
    ((fAdd false .rne acc b.1).1, (b.2 ||| (fAdd false .rne acc b.1).2) &&& (fNV ||| fOF))
  (∀ (acc : Nat) (ps : List FVal) (sa sb : Nat) (win : Bool),
    let nan := (∃ p ∈ ps, p.isNan = true) ∨ sa = 255 ∨ sb = 255 ∨ (.inf true ∈ ps ∧ .inf false ∈ ps)
    (nan → blockStep acc ps sa sb win = (fmtFp32.nanCode, fNV)) ∧
    (¬nan → ∀ s, .inf s ∈ ps → blockStep acc ps sa sb win = block acc (if s = true then 0xFF800000 else 0x7F800000, 0)) ∧
    (¬nan → (∀ s, .inf s ∉ ps) → ps ≠ [] →
      ((∀ p ∈ ps, finValue p = 0) → blockStep acc ps sa sb win
        = block acc (if ∀ p ∈ ps, p.sign = true then 2 ^ 31 else 0, 0)) ∧
      ∀ emax : Int, (∃ p ∈ ps, (2 : ℚ) ^ emax ≤ |finValue p|) → (∀ p ∈ ps, |finValue p| < (2 : ℚ) ^ (emax + 1)) →
        let g : ℚ := (2 : ℚ) ^ (emax - 27)
        let cut (a : ℚ) : ℚ := (if a < 0 then -1 else 1) * (⌊|a| / g⌋ : ℚ) * g
        let z : ℚ := (ps.map fun p => if win = true then cut (finValue p) else finValue p).sum
        (z = 0 → blockStep acc ps sa sb win = block acc (0, 0)) ∧
        (z ≠ 0 → ∃ b, Rounded fmtFp32 .rne ((z * (2 : ℚ) ^ ((sa : Int) - 127) * (2 : ℚ) ^ ((sb : Int) - 127) : ℚ) : ℝ) b
          ∧ blockStep acc ps sa sb win = block acc b))) ∧
  (∀ (s t : State) (m : MCtx) (g : Gang), s.gangs.find? m.gid = some g → m.lead < 32 → g.laneStatus m.lead ≠ 0 → m.mw.vs.toNat + 24 ≤ 256 →
    m.w.tileW ≤ 256 → m.w.tileH ≤ 256 → rastSetup s m = (t, .run) →
    let x (k : Nat) : Int := (m.inp s m.lead (4 * (k % 3))).toInt
    let y (k : Nat) : Int := (m.inp s m.lead (4 * (k % 3) + 1)).toInt
    let A (k : Nat) : Int := y (k + 1) - y (k + 2)
    let B (k : Nat) : Int := x (k + 2) - x (k + 1)
    let C (k : Nat) : Int := x (k + 1) * y (k + 2) - x (k + 2) * y (k + 1)
    let area := A 0 * x 0 + B 0 * y 0 + C 0
    let sg : Int := if area < 0 then -1 else 1
    let r := m.rast s
    let reg (k : Nat) : W32 := m.st t m.lead k
    area ≠ 0 ∧ (reg 3 ++ reg 2).toInt = |area| ∧
    (∀ k, k < 3 → (reg (4 + 4 * k)).toInt = sg * A k ∧ (reg (5 + 4 * k)).toInt = sg * B k
      ∧ (reg (7 + 4 * k) ++ reg (6 + 4 * k)).toInt = sg * C k
      ∧ reg (19 + k) = BitVec.ofNat 32 (fDiv false .rne 0x3F800000 (m.inp s m.lead (4 * k + 3)).toNat).1
      ∧ ((reg 23).getLsbD k = true ↔ 0 < sg * A k ∨ A k = 0 ∧ 0 < sg * B k)) ∧
    (∀ p : Nat, p < m.w.tileW → let X : Int := r.ox + p
      (((reg 1).toNat % 256 ≤ p ∧ p ≤ (reg 1).toNat / 2 ^ 8 % 256) ↔
        X < r.rtw ∧ (∃ k, k < 3 ∧ x k < 256 * (X + 1)) ∧ ∃ k, k < 3 ∧ 256 * X < x k)) ∧
    ∀ p : Nat, p < m.w.tileH → let Y : Int := r.oy + p
      (((reg 1).toNat / 2 ^ 16 % 256 ≤ p ∧ p ≤ (reg 1).toNat / 2 ^ 24) ↔
        Y < r.rth ∧ (∃ k, k < 3 ∧ y k < 256 * (Y + 1)) ∧ ∃ k, k < 3 ∧ 256 * Y < y k)) ∧
  (∀ (r : Rast) (x y : Int) (e : Nat → Int) (z : Nat → Nat), r.eAt x y = (List.range 3).map e →
    (r.inside x y = true ↔ ∀ k, k < 3 → 0 < e k ∨ e k = 0 ∧ r.tl.testBit k = true) ∧
    (r.z = (List.range 3).map (fun k => Dy.ofF (z k)) → (∀ k, k < 3 → fin (z k)) → 0 < r.a2 →
      let n : ℚ := e 0 * q (z 0) + e 1 * q (z 1) + e 2 * q (z 2)
      (n = 0 → r.zAt x y = 0) ∧ (n ≠ 0 → rounded (n / r.a2) (r.zAt x y)))) ∧
  (∀ (b : W64) (i : Nat) (src dst con : Nat → Nat), i < 3 →
    (b.getLsbD 28 = false → blendChan b i src dst con = src i) ∧
    (b.getLsbD 28 = true → (b.extractLsb' 0 12).toNat = 0x076 → blendChan b i src dst con
      = (fAdd false .rne (fMul false .rne (src i) (src 3)).1
          (fMul false .rne (dst i) (fSub false .rne 0x3F800000 (src 3)).1).1).1)) ∧
  (∀ c : Nat, 0 < c → c ≤ 255 → rounded (c / 255) (unorm8 c)) ∧
  (∀ x, fin x → 0 < q x → (2 : ℚ) ^ log128 x ≤ q x ^ 128 ∧ q x ^ 128 < (2 : ℚ) ^ (log128 x + 1)) ∧
  (∀ (t : Tex) (free lev k u v : Nat), k < 4 →
    let at_ (c n : Nat) : Nat := (fSub false .rne (fMul false .rne c (convF fmtFp32 .rne (FVal.ofInt n)).1).1 0x3F000000).1
    let x := at_ u (t.lw lev)
    let y := at_ v (t.lh lev)
    let part (a : Nat) : Int := ⌊(q a - ⌊q a⌋) * 256⌋
    let share (a : Nat) (far : Prop) [Decidable far] : Int := if far then part a else 256 - part a
    let w := bilinear t free lev k u v
    fin x → fin y → w.1 = ⌊q x⌋ + (k % 2 : Nat) ∧ w.2.1 = ⌊q y⌋ + (k / 2 : Nat)
      ∧ (w.2.2 : Int) = share x (k % 2 = 1) * share y (k / 2 = 1)) ∧
  (∀ c w : Nat, fin c → q c ≠ 0 → 0 < w → rounded (q c * w) (f32Scale c (FVal.ofInt w))) ∧
  (∀ (r : Ray) (b : Nat → Nat),
    let d (a : Nat) : Nat := r.d.getD a 0
    let side (a k : Nat) : Nat := (fMul false .rne (fSub false .rne (b k) (r.o.getD a 0)).1 (fDiv false .rne 0x3F800000 (d a)).1).1
    let flat (a : Nat) : Prop := d a % 2 ^ 31 = 0
    let near (x : Nat) : Prop := x = r.tmin ∨ ∃ a, a < 3 ∧ ¬flat a ∧ x = nextF false (fMinC (side a a) (side a (3 + a)))
    let far (x : Nat) : Prop := x = r.t ∨ ∃ a, a < 3 ∧ ¬flat a ∧ x = nextF true (fMaxC (side a a) (side a (3 + a)))
    let pass := ∀ a, a < 3 → if d a % 2 ^ 31 = 0 then f32Le (b a) (r.o.getD a 0) = true ∧ f32Le (r.o.getD a 0) (b (3 + a)) = true
      else f32IsNan (side a a) = false ∧ f32IsNan (side a (3 + a)) = false
    (∀ n, boxHit r b = some n → pass ∧ near n ∧ (∀ x, near x → f32Le x n = true) ∧ ∀ x, far x → f32Le n x = true) ∧
    (boxHit r b = none → pass → ∃ x y, near x ∧ far y ∧ f32Le x y = false)) ∧
  (∀ x, fin x → ∀ y, fin y →
    (fin (nextF true x) → q x < q (nextF true x) ∧ (q x < q y → q (nextF true x) ≤ q y)) ∧
    (fin (nextF false x) → q (nextF false x) < q x ∧ (q y < q x → q y ≤ q (nextF false x)))) ∧
  ∀ (b : BinG) (size : Bool) (thr : Nat) (v : Nat → W32), 0 < b.tx → 0 < b.ty → 0 < b.tsz →
    (∀ k, k < 6 → -2 ^ 25 ≤ (v k).toInt ∧ (v k).toInt < 2 ^ 25) →
    let meets (o : Nat) (X : Int) : Prop := (∃ k, k < 3 ∧ (v (2 * k + o)).toInt < 256 * (X + 1)) ∧
      ∃ k, k < 3 ∧ 256 * X < (v (2 * k + o)).toInt
    let box (X Y : Int) : Prop := meets 0 X ∧ meets 1 Y
    let limit : Int := if thr = 0 then 2 else thr
    let small := size = true ∧ (∃ X Y, box X Y)
      ∧ ∀ X Y X' Y', box X Y → box X' Y' → X' - X < limit ∧ Y' - Y < limit
    ∃ qs, binQueues b size thr (fun k => (v k).toNat) = .ok qs ∧ (small → qs = [b.tx * b.ty]) ∧
      (¬small → qs.Pairwise (· < ·) ∧ ∀ n, n ∈ qs ↔ n < b.tx * b.ty
        ∧ ∃ X Y : Nat, box X Y ∧ X / b.tsz = n % b.tx ∧ Y / b.tsz = n / b.tx)

/-- 04 R86 to R91: the floating-point words of one issue write their rounded result and raise its flags. -/
def Obligations.FloatWords : Prop :=
  (FloatWord .fadd 2 true fun _ fz r a b _ => fAdd fz r a b) ∧
  (FloatWord .fsub 2 true fun _ fz r a b _ => fSub fz r a b) ∧
  (FloatWord .fmul 2 true fun _ fz r a b _ => fMul fz r a b) ∧
  (FloatWord .ffma 3 true fun _ fz r a b c => fFma fz r a b c) ∧
  (FloatWord .fmin 2 true fun _ fz _ a b _ => fMinMax fz false a b) ∧
  (FloatWord .fmax 2 true fun _ fz _ a b _ => fMinMax fz true a b) ∧
  (FloatWord .fclass 1 false fun _ _ _ a _ _ => (fClass a, 0)) ∧
  (FloatWord .frnd 1 false fun _ fz r a _ _ => fRnd fz r a) ∧
  (FloatWord .fdot2 3 false fun w fz r a b c => fDot2 (if w.t = Fmt.fp16 then fmtFp16 else fmtBf16) fz r a b c) ∧
  (FloatWord .fscale 2 false fun _ fz r a b _ => fScale fz r a (valueT true 32 b)) ∧
  (FloatWord .ffract 1 false fun _ fz r a _ _ => fFract fz r a) ∧
  PredicateWord .fcmp false (fun _ => True)
    (fun g _ w l => (fCmp g.fz w.u.toNat (operandV g w 2 32 0 l) (operandV g w 2 32 1 l)).1)
    fun g _ w l => (fCmp g.fz w.u.toNat (operandV g w 2 32 0 l) (operandV g w 2 32 1 l)).2

/-- 04 R78, R87, R92: division, square root and the special functions are long-latency producers. -/
def Obligations.LongFloatWords : Prop :=
  (FloatLong .fdiv 2 fun fz r a b => fDiv fz r a b) ∧ (FloatLong .sqrt 1 fun fz r a _ => fSqrt fz r a) ∧
  (FloatLong .rcp 1 fun fz _ a _ => flush32 fz (sfRcp (read32 fz a))) ∧
  (FloatLong .rsq 1 fun fz _ a _ => flush32 fz (sfRsq (read32 fz a))) ∧
  (FloatLong .exp2 1 fun fz _ a _ => flush32 fz (sfExp2 (read32 fz a))) ∧
  (FloatLong .log2 1 fun fz _ a _ => flush32 fz (sfLog2 (read32 fz a))) ∧
  (FloatLong .sin 1 fun fz _ a _ => flush32 fz (sfSin (read32 fz a))) ∧
  (FloatLong .cos 1 fun fz _ a _ => flush32 fz (sfCos (read32 fz a))) ∧
  FloatLong .tanh 1 fun fz _ a _ => flush32 fz (sfTanh (read32 fz a))

/-- 04 R88: minimumNumber and maximumNumber with −0 below +0, on FP32 images with FZ off; 0x7FC0_0000 is the canonical
NaN (02 R25), NV comes from a signalling NaN alone. 04 R90: FCLASS sets exactly one bit, by the sign, exponent and fraction
of the image. -/
def Obligations.MinimumMaximumAndClass : Prop :=
  (∀ a b : Nat, a < 2 ^ 32 → b < 2 ^ 32 →
    let nan (x : Nat) : Bool := 0x7F800000 < x % 2 ^ 31
    let snan (x : Nat) : Bool := nan x && x % 2 ^ 23 < 2 ^ 22
    let key (x : Nat) : Int := if x < 2 ^ 31 then x else -(x - 2 ^ 31 : Int) - 1
    let pick (isMax : Bool) : Nat :=
      if nan a && nan b then 0x7FC00000 else if nan a then b else if nan b then a
      else if (key a ≤ key b) = (isMax = false) then a else b
    ∀ isMax, fMinMax false isMax a b = (pick isMax, if snan a || snan b then fNV else 0)) ∧
  ∀ a : Nat, a < 2 ^ 32 →
    let m := a % 2 ^ 31
    let neg := 2 ^ 31 ≤ a
    fClass a = 2 ^ (if 0x7F800000 < m then (if m % 2 ^ 23 < 2 ^ 22 then 8 else 9)
      else if neg then (if m = 0x7F800000 then 0 else if 2 ^ 23 ≤ m then 1 else if m = 0 then 3 else 2)
      else if m = 0x7F800000 then 7 else if 2 ^ 23 ≤ m then 6 else if m = 0 then 4 else 5)

/-- 04 Table 39, R92: the special functions and SQRT at the special inputs: the infinities and zeros, every finite value below
0 where the function has no value there, and every NaN, which gives the canonical NaN. -/
def Obligations.SpecialInputs : Prop :=
  let at_ (f : FVal → FRes) : List FRes := [0xFF800000, 0x80000000, 0, 0x7F800000].map fun x => f (read32 false x)
  let nan : FRes := (0x7FC00000, fNV)
  at_ sfRcp = [(0x80000000, 0), (0xFF800000, fDZ), (0x7F800000, fDZ), (0, 0)] ∧
  at_ sfRsq = [nan, (0xFF800000, fDZ), (0x7F800000, fDZ), (0, 0)] ∧
  [0xFF800000, 0x80000000, 0, 0x7F800000].map (fSqrt false .rne) = [nan, (0x80000000, 0), (0, 0), (0x7F800000, 0)] ∧
  at_ sfExp2 = [(0, 0), (0x3F800000, 0), (0x3F800000, 0), (0x7F800000, 0)] ∧
  at_ sfLog2 = [nan, (0xFF800000, fDZ), (0xFF800000, fDZ), (0x7F800000, 0)] ∧
  at_ sfSin = [nan, (0x80000000, 0), (0, 0), nan] ∧ at_ sfCos = [nan, (0x3F800000, 0), (0x3F800000, 0), nan] ∧
  at_ sfTanh = [(0xBF800000, 0), (0x80000000, 0), (0, 0), (0x3F800000, 0)] ∧
  (∀ x, 0x80000000 < x → x < 0xFF800000 →
    sfRsq (read32 false x) = nan ∧ sfLog2 (read32 false x) = nan ∧ ∀ rnd, fSqrt false rnd x = nan) ∧
  ∀ x, x < 2 ^ 32 → 0x7F800000 < x % 2 ^ 31 →
    let r : FRes := (0x7FC00000, if x % 2 ^ 23 < 2 ^ 22 then fNV else 0)
    (∀ f ∈ [sfRcp, sfRsq, sfExp2, sfLog2, sfSin, sfCos, sfTanh], f (read32 false x) = r) ∧ ∀ rnd, fSqrt false rnd x = r

/-- 04 R94 to R98: conversions write their result and raise its flags; `seed` is the s-register that .RS reads. -/
def Obligations.Conversions : Prop :=
  (VectorWord .cvt false (fun w => EvenV w (widthOf w.u) (widthOf w.t)) (fun w => if widthOf w.t = 64 then 64 else 32) everyLane
    (fun g _ w l => (cvtElem w.t w.u (rndOf w.rm (g.s w.s.toNat) l 0)
      (if w.i = 1 then (if widthOf w.u = 64 ∧ signedOf w.u = true then (w.imm.signExtend 64).toNat else w.imm.toNat)
       else g.vw (widthOf w.u) (permSrc w.pma l) w.a.toNat)).1 % 2 ^ (if widthOf w.t = 64 then 64 else 32))
    fun g _ w l => (cvtElem w.t w.u (rndOf w.rm (g.s w.s.toNat) l 0)
      (if w.i = 1 then (if widthOf w.u = 64 ∧ signedOf w.u = true then (w.imm.signExtend 64).toNat else w.imm.toNat)
       else g.vw (widthOf w.u) (permSrc w.pma l) w.a.toNat)).2) ∧
  (let n (w : VecW) : Nat := if widthOf w.t = 16 then 2 else 3
   let e (g : Gang) (w : VecW) (k l : Nat) : FRes :=
     convTo w.t (rndOf w.rm (g.s w.s.toNat) l k) (valueOf w.u (operandV g w (n w) 32 k l))
   VectorWord .pack false (fun _ => True) (fun _ => 32) everyLane
     (fun g _ w l => (if widthOf w.t = 16 then (e g w 0 l).1 + (e g w 1 l).1 * 2 ^ 16
        else operandV g w 3 32 2 l / 2 ^ 16 + (e g w 0 l).1 * 2 ^ 16 + (e g w 1 l).1 * 2 ^ 24) % 2 ^ 32)
     fun g _ w l => (e g w 0 l).2 ||| (e g w 1 l).2) ∧
  (let e (g : Gang) (w : VecW) (l : Nat) : FRes :=
     let b := operandV g w 2 32 1 l
     convTo w.t (rndOf w.rm 0 l 0) (valueOf w.u (operandV g w 2 32 0 l / (if widthOf w.u = 16 then 2 ^ (16 * (b % 2)) else 2 ^ (8 * (b % 4)))))
   VectorWord .unpack false (fun _ => True) (fun _ => 32) everyLane (fun g _ w l => (e g w l).1 % 2 ^ 32)
     fun g _ w l => (e g w l).2) ∧
  (let val (g : Gang) (w : VecW) (j : Nat) : FVal := decodeF fmtFp32 (operandV g w 1 32 0 j)
   let sc (g : Gang) (act : LaneMask) (w : VecW) (l : Nat) : Nat :=
     quantScale w.t (((lanesOf act).filter fun j => j / 8 = l / 8).map (val g w))
   let e (g : Gang) (act : LaneMask) (w : VecW) (l : Nat) : FRes :=
     if sc g act w l = 255 then (match ffmtOf w.t with | some f => f.nanCode | none => 16, fNV)
     else quantConv w.t (rndOf w.rm (g.s w.s.toNat) l 0) (fvScale (val g w l) (127 - (sc g act w l : Int)))
   VectorWord .qnt false (fun w => EvenV w 32 64) (fun _ => 64) everyLane
     (fun g act w l => (e g act w l).1 % 2 ^ 32 + sc g act w l * 2 ^ 32) fun g act w l => (e g act w l).2) ∧
  FloatWord .dqnt 2 false fun w _ r a b _ => dequant w.t r a b

/-- 06 R143: SHFL, SLUP, SLDN, CMPRS and EXPND move values between lanes, reading every source before a write. PUSH gives a
destination lane the value of the highest lane that names it, and sets PUSHDROP (FPSTAT bit 8) where a named lane is not
active. -/
def Obligations.LaneMoves : Prop :=
  (MoveWord .shfl everyLane fun g _ w l => laneA g w (laneIdx g w l)) ∧
  (MoveWord .slup (fun g _ w l => (g.s w.s.toNat).toNat ≤ l) fun g _ w l => laneA g w (l - (g.s w.s.toNat).toNat)) ∧
  (MoveWord .sldn (fun g _ w l => l + (g.s w.s.toNat).toNat ≤ 31) fun g _ w l => laneA g w (l + (g.s w.s.toNat).toNat)) ∧
  (MoveWord .cmprs (fun g act w l => rankIn act l < laneCount (chosen g w act))
    fun g act w l => laneA g w (nthLane (chosen g w act) (rankIn act l))) ∧
  (MoveWord .expnd (fun g act w l => (chosen g w act).getLsbD l)
    fun g act w l => laneA g w (nthLane act (rankIn (chosen g w act) l))) ∧
  ∀ (s : State) (cu : Cur) (g : Gang) (wg : Wg) (w : VecW), Calm s cu g wg → (Instr.push w).wf = true → EvenX w →
    let act := actOf g cu true w.g
    let namers (d : Nat) : List Nat := (lanesOf act).filter fun l => laneIdx g w l = d
    ∃ t h, exec (.push w) s = .next t ∧ Ran s t cu g h true 1
      ∧ WroteV g h (act &&& maskWhere fun d => (namers d).length ≠ 0) (widthOf w.t) w.d.toNat
          (fun d => laneA g w ((namers d).getLastD 0))
      ∧ h.fpstat = (if (lanesOf act).any (fun l => !act.getLsbD (laneIdx g w l)) then g.fpstat ||| 0x100 else g.fpstat)
      ∧ KeptP g h ∧ KeptS g h

/-- 06 R144: votes, ballots and matches count the lanes of the active set alone. -/
def Obligations.LaneVotes : Prop :=
  (VectorWord .ballot true (fun _ => True) (fun _ => 32) everyLane (fun g act w _ => (chosen g w act).toNat) noFlag) ∧
  (PredicateWord .voteall true (fun _ => True) (fun g act w _ => (lanesOf act).all (lanePred g w)) noFlag) ∧
  (PredicateWord .voteany true (fun _ => True) (fun g act w _ => (lanesOf act).any (lanePred g w)) noFlag) ∧
  (PredicateWord .voteeq true EvenX
    (fun g act w _ => (lanesOf act).all fun j => (lanesOf act).all fun k => laneA g w j = laneA g w k) noFlag) ∧
  (VectorWord .matchLanes true EvenX (fun _ => 32) everyLane
    (fun g act w l => (act &&& maskWhere fun j => laneA g w j = laneA g w l).toNat) noFlag) ∧
  VectorWord .actmask true (fun _ => True) (fun _ => 32) everyLane (fun _ act _ _ => act.toNat) noFlag

/-- 06 R145: reductions and scans fold the active lanes in ascending order.
06 R145: under an integer type REDADD's fold is the sum modulo 2^w. -/
def Obligations.LaneFolds : Prop :=
  (ReductionWord .redadd laneAdd ∧ ReductionWord .redmin (laneMinMax false) ∧ ReductionWord .redmax (laneMinMax true) ∧
   VectorWord .scanadd true EvenX (fun w => widthOf w.t) everyLane
     (fun g act w l => ((if w.u = 2 then 0 :: (laneFold g w act (laneAdd g w)).1 else (laneFold g w act (laneAdd g w)).1).getD
       (rankIn act l) 0) % 2 ^ widthOf w.t)
     fun g act w _ => (laneFold g w act (laneAdd g w)).2) ∧
  (∀ (g : Gang) (w : VecW) (act : LaneMask), act ≠ 0 → Fmt.ints.contains w.t = true →
     (laneFold g w act (laneAdd g w)).1.getLastD 0 % 2 ^ widthOf w.t
       = ((lanesOf act).map (laneA g w)).foldl (· + ·) 0 % 2 ^ widthOf w.t
     ∧ (laneFold g w act (laneAdd g w)).2 = 0)

/-- 04 R100: the scalar words. -/
def Obligations.ScalarWords : Prop :=
  (ScalarWord .smov 1 fun _ a _ _ => a) ∧ (ScalarWord .smovi 1 fun w _ _ _ => w.imm.signExtend 64) ∧
  (ScalarWord .sadd 2 fun _ a b _ => a + b) ∧ (ScalarWord .ssub 2 fun _ a b _ => a - b) ∧
  (ScalarWord .smul 2 fun _ a b _ => a * b) ∧
  (ScalarWord .smulh 2 fun w a b _ =>
    if w.aux = 1 then BitVec.ofInt 64 (a.toInt * b.toInt / 2 ^ 64) else BitVec.ofNat 64 (a.toNat * b.toNat / 2 ^ 64)) ∧
  (ScalarWord .sand 2 fun _ a b _ => a &&& b) ∧ (ScalarWord .sor 2 fun _ a b _ => a ||| b) ∧
  (ScalarWord .sxor 2 fun _ a b _ => a ^^^ b) ∧
  (ScalarWord .sshl 2 fun _ a b _ => a <<< (b.extractLsb' 0 6).toNat) ∧
  (ScalarWord .sshr 2 fun _ a b _ => a >>> (b.extractLsb' 0 6).toNat) ∧
  (ScalarWord .ssra 2 fun _ a b _ => a.sshiftRight (b.extractLsb' 0 6).toNat) ∧
  (ScalarWord .scmp 2 fun w a b _ =>
    let yes : Bool := match w.aux.toNat with
      | 0 => a == b
      | 1 => a != b
      | 2 => a.slt b
      | 3 => a.sle b
      | 4 => b.slt a
      | 5 => b.sle a
      | 6 => a.ult b
      | _ => b.ule a
    if yes then 1 else 0) ∧
  (ScalarWord .ssel 3 fun _ a b c => if c ≠ 0 then a else b) ∧
  (ScalarWord .smin 2 fun w a b _ => if w.aux = 1 then (if a.sle b then a else b) else if a.ule b then a else b) ∧
  (ScalarWord .smax 2 fun w a b _ => if w.aux = 1 then (if a.sle b then b else a) else if a.ule b then b else a) ∧
  (ScalarWord .sclz 1 fun _ a _ _ => BitVec.ofNat 64 ((List.range 64).filter fun i => a.toNat < 2 ^ i).length) ∧
  (ScalarWord .spopc 1 fun _ a _ _ => BitVec.ofNat 64 ((List.range 64).filter fun i => a.getLsbD i).length) ∧
  ScalarWord .slea 2 fun w a b _ => a + b <<< w.aux.toNat

/-- 04 R101, R102: SMOVI64 writes the two words' immediates; VTOS reads the lowest active lane; STOV writes sa[31:0] to
every active lane. -/
def Obligations.ScalarMoves : Prop :=
  ∀ (s : State) (cu : Cur) (g : Gang) (wg : Wg) (w : ScalW), Calm s cu g wg →
    (∀ hi : IWord, (Instr.smovi64 w hi).wf = true →
      ∃ t h, exec (.smovi64 w hi) s = .next t ∧ Ran s t cu g h false 2
        ∧ WroteS g h (actOf g cu false w.g) w.sd.toNat (hi.setWidth 32 ++ w.imm) ∧ KeptF g h ∧ KeptP g h ∧ KeptV g h) ∧
    ((Instr.vtos w).wf = true →
      let x := g.v (permSrc w.pmv (lowLane (actOf g cu false w.g))) w.vr.toNat
      ∃ t h, exec (.vtos w) s = .next t ∧ Ran s t cu g h false 1
        ∧ WroteS g h (actOf g cu false w.g) w.sd.toNat (if w.aux = 1 then x.signExtend 64 else x.setWidth 64)
        ∧ KeptF g h ∧ KeptP g h ∧ KeptV g h) ∧
    ((Instr.stov w).wf = true →
      let x := if w.i = 1 then w.imm.signExtend 64 else g.s w.sa.toNat
      ∃ t h, exec (.stov w) s = .next t ∧ Ran s t cu g h false 1
        ∧ WroteV g h (actOf g cu false w.g) 32 w.vr.toNat (fun _ => (x.setWidth 32).toNat) ∧ KeptF g h ∧ KeptP g h ∧ KeptS g h)

/-- 03 R60 to R63: both halves of a pair read their sources before either writes, each in the lanes of its own guard, and
raise their flags together; an SFU half is a long-latency producer, which empties its destination (01 R16). -/
def Obligations.PairWords : Prop :=
  ∀ (s : State) (cu : Cur) (g : Gang) (wg : Wg) (w : PairW) (x y : CopOp), Calm s cu g wg → (Instr.vpair w).wf = true →
    copOf w.x.cop = some x → copOf w.y.cop = some y →
    let grp := grpOf g cu false
    let on (h : HalfW) : LaneMask := grp &&& maskWhere (g.guard h.g)
    let srcA (h : HalfW) (l : Nat) : W32 := if w.sh = 1 then g.v (permSrc w.x.pms l) w.x.a.toNat else g.v l h.a.toNat
    let val (h : HalfW) (o : CopOp) (l : Nat) : W32 × Bool × Flg :=
      let a := srcA h l
      let b := g.v l h.b.toNat
      let c := g.v l h.c.toNat
      let fp (r : FRes) : W32 × Bool × Flg := (BitVec.ofNat 32 r.1, false, r.2)
      let sf (f : FVal → FRes) : W32 × Bool × Flg := fp (flush32 g.fz (f (read32 g.fz a.toNat)))
      match o with
      | .iadd => (a + b, false, 0)
      | .isub => (a - b, false, 0)
      | .and => (a &&& b, false, 0)
      | .or => (a ||| b, false, 0)
      | .xor => (a ^^^ b, false, 0)
      | .shl => (a <<< (b.toNat % 32), false, 0)
      | .shr => (a >>> (b.toNat % 32), false, 0)
      | .mov => (a, false, 0)
      | .sel => (if g.p l h.cnd.toNat then a else b, false, 0)
      | .icmp =>
        let yes : Bool := match h.cnd.toNat with
          | 0 => a == b
          | 1 => a != b
          | 2 => a.slt b
          | 3 => a.sle b
          | 4 => b.slt a
          | 5 => b.sle a
          | 6 => a.ult b
          | _ => b.ule a
        (0, yes, 0)
      | .fadd => fp (fAdd g.fz .rne a.toNat b.toNat)
      | .fmul => fp (fMul g.fz .rne a.toNat b.toNat)
      | .ffma => fp (fFma g.fz .rne a.toNat b.toNat c.toNat)
      | .fmin => fp (fMinMax g.fz false a.toNat b.toNat)
      | .fmax => fp (fMinMax g.fz true a.toNat b.toNat)
      | .fcmp => let r := fCmp g.fz h.cnd.toNat a.toNat b.toNat; (0, r.1, r.2)
      | .rcp => sf sfRcp
      | .rsq => sf sfRsq
      | .exp2 => sf sfExp2
      | .log2 => sf sfLog2
    let yNow := y.cls ≠ .sfu
    let reg (h : HalfW) (o : CopOp) (l r : Nat) : Prop := (on h).getLsbD l = true ∧ o.toPred = false ∧ r = h.d.toNat
    let pred (h : HalfW) (o : CopOp) (l i : Nat) : Prop := (on h).getLsbD l = true ∧ o.toPred = true ∧ i = h.d.toNat ∧ i ≠ 0
    ∃ t h, exec (.vpair w) s = .next t ∧ t.gangs.find? cu.gang = some h ∧ OnlyGang s t cu.gang
      ∧ SameGang g { h with empty := g.empty, prods := g.prods, nextId := g.nextId } false ∧ PcsMoved g h grp (cu.after 1)
      ∧ KeptS g h
      ∧ (∀ l r, l < 32 → r < 256 →
          (reg w.x x l r → h.v l r = (val w.x x l).1) ∧ (yNow → reg w.y y l r → h.v l r = (val w.y y l).1)
          ∧ (¬reg w.x x l r → ¬(yNow ∧ reg w.y y l r) → h.v l r = g.v l r))
      ∧ (∀ l i, l < 32 → i < 8 →
          (pred w.x x l i → h.p l i = (val w.x x l).2.1) ∧ (pred w.y y l i → h.p l i = (val w.y y l).2.1)
          ∧ (¬pred w.x x l i → ¬pred w.y y l i → h.p l i = g.p l i))
      ∧ (∀ i, h.fpstat.getLsbD i = (g.fpstat.getLsbD i || (lanesOf (on w.x)).any (fun l => (val w.x x l).2.2.getLsbD i)
          || (lanesOf (on w.y)).any fun l => (val w.y y l).2.2.getLsbD i))
      ∧ h.prods = (if yNow ∨ on w.y = 0 then [] else
          [{ id := g.nextId, ready := true, flags := 0
             dests := (lanesOf (on w.y)).map fun l =>
               { key := vkey l w.y.d.toNat, val := (val w.y y l).1.setWidth 64, poison := false } }])
      ∧ h.empty = (if yNow ∨ on w.y = 0 then [] else KSet.addAll [] ((lanesOf (on w.y)).map fun l => vkey l w.y.d.toNat))
      ∧ h.nextId = (if yNow ∨ on w.y = 0 then g.nextId else g.nextId + 1)

/-- 04 R104, 05 R119, 07 R171, R172, R177, R180, 15 R301: words whose effect is on no register, and the drains of a
release. FUSE is gang-collective; PREF never faults (log 57). FENCE.SC drains at once, and the drains of FENCE.REL and
FENCE.AR are due before the gang's next store (the model's reading of 15 Table 112, log 13). After the drains of a release
at a scope above .CLUS, no store of the core waits in its buffer or in its cluster's point. -/
def Obligations.QuietWords : Prop :=
  (∀ (s : State) (core scope : Nat), 2 ≤ scope →
    (s.drainScope core scope).wcb.getD core [] = [] ∧ (s.drainScope core scope).cpt.getD (core / 8) [] = []) ∧
  ∀ (s : State) (cu : Cur) (g : Gang) (wg : Wg), Calm s cu g wg →
    (∀ w : CtrlW, (Instr.nop w).wf = true → Effect (.nop w) s cu g false 1 fun k => k) ∧
    (∀ w : CtrlW, (Instr.fuse w).wf = true → Effect (.fuse w) s cu g true 1 fun k => k) ∧
    (∀ w : CtrlW, (Instr.yield w).wf = true → Effect (.yield w) s cu g false 1 fun k =>
      if actOf g cu false w.g = 0 then k else k.updGang cu.gang fun h => { h with yielded := true }) ∧
    (∀ w : MemW, (Instr.pref w).wf = true → Effect (.pref w) s cu g false 1 fun k => k) ∧
    (∀ w : MemW, (Instr.invt w).wf = true → Effect (.invt w) s cu g false 1 fun k =>
      if actOf g cu false w.g = 0 then k else { k with tex := k.tex.put [] (coreOf wg.pid) [] }) ∧
    (∀ w : MemW, (Instr.ord w).wf = true → g.handler = false ∨ g.ordSusp = none → Effect (.ord w) s cu g false 1 fun k =>
      if actOf g cu false w.g = 0 then k
      else k.updGang cu.gang fun h =>
        { h with ord := some { order := w.od.toNat, scope := w.sc.toNat, lane := lowLane (grpOf g cu false) } }) ∧
    (∀ w : MemW, (Instr.fence w).wf = true →
      (actOf g cu false w.g ≠ 0 → Orders s cu g (w.od = 4 ∧ w.sc = 4)) →
      Effect (.fence w) s cu g false 1 fun k =>
        if actOf g cu false w.g = 0 then k
        else if w.od = 4 then (k.drainScope (coreOf wg.pid) w.sc.toNat).acquireCore (coreOf wg.pid) w.sc.toNat
        else
          let d := if w.od = 1 then k
            else k.updGang cu.gang fun h => { h with fence := some (max (h.fence.getD 0) w.sc.toNat) }
          if w.od = 2 then d else d.acquireCore (coreOf wg.pid) w.sc.toNat)

/-- 02 R26, R34, R36, R37: a nonzero exact value is rounded to the nearest representable value that the mode allows, and its
flags are those of 02 Table 15 and R37. So are the exact sum, difference, product, fused product, quotient, square root and
scaling of finite FP32 values, and conversions between FP32, FP16 and BF16; an exact zero sum has the sign of R26. -/
def Obligations.Rounding : Prop :=
  ∀ rnd ∈ [Rnd.rne, .rz, .rp, .rm],
    let q (x : Nat) : ℝ := valueIn fmtFp32 x
    let rounds := Rounded fmtFp32 rnd
    (∀ f ∈ [fmtFp32, fmtFp16, fmtBf16], ∀ (s : Bool) (m : Nat) (e : Int), m ≠ 0 →
      Rounded f rnd ((if s = true then -1 else 1) * (m : ℝ) * (2 : ℝ) ^ e) (roundF f rnd s m e false)) ∧
    (∀ f ∈ [(fmtFp32, Fmt.fp32), (fmtFp16, Fmt.fp16), (fmtBf16, Fmt.bf16)],
      ∀ h ∈ [(fmtFp32, Fmt.fp32), (fmtFp16, Fmt.fp16), (fmtBf16, Fmt.bf16)], ∀ x, FiniteIn h.1 x → valueIn h.1 x ≠ 0 →
        Rounded f.1 rnd (valueIn h.1 x) (convTo f.2 rnd (valueOf h.2 x))) ∧
    ∀ a b c : Nat, FiniteIn fmtFp32 a → FiniteIn fmtFp32 b → FiniteIn fmtFp32 c →
      (q a + q b ≠ 0 → rounds (q a + q b) (fAdd false rnd a b)) ∧ (q a - q b ≠ 0 → rounds (q a - q b) (fSub false rnd a b)) ∧
      (q a + q b = 0 → fAdd false rnd a b
        = (if a = 2 ^ 31 ∧ b = 2 ^ 31 ∨ rnd = .rm ∧ ¬(a = 0 ∧ b = 0) then 2 ^ 31 else 0, 0)) ∧
      (q a * q b ≠ 0 → rounds (q a * q b) (fMul false rnd a b)) ∧
      (q a * q b + q c ≠ 0 → rounds (q a * q b + q c) (fFma false rnd a b c)) ∧
      (q a ≠ 0 → q b ≠ 0 → rounds (q a / q b) (fDiv false rnd a b)) ∧ (0 < q a → rounds (Real.sqrt (q a)) (fSqrt false rnd a)) ∧
      ∀ k : Int, q a ≠ 0 → rounds (q a * (2 : ℝ) ^ k) (fScale false rnd a k)

/-- 03 R52, R66, 04 R103: branches, calls and returns. That a target's upper bits are not checked, and that a target in a line
that the directory does not cover passes here and faults at its fetch, is the model's reading (log 29). -/
def Obligations.Branches : Prop :=
  let rel (cu : Cur) (_ : Gang) (w : CtrlW) (_ : Nat) : W64 := (cu.pc + (w.imm.signExtend 57) * 16).setWidth 64
  let reg (_ : Cur) (g : Gang) (w : CtrlW) (_ : Nat) : W64 := g.s w.sa.toNat
  BranchWord .bra false rel ∧ BranchWord .brx false reg ∧ BranchWord .call true rel ∧ BranchWord .callx true reg ∧
  BranchWord .ret false fun _ g w l => g.v (permSrc w.pma l) (w.va.toNat + 1) ++ g.v (permSrc w.pma l) w.va.toNat

/-- 01 R12, R13, R19, 04 R105: the active lanes become exited (status 2), and a gang with no live lane is gone; every other
gang keeps its registers and lanes. -/
def Obligations.ExitWord : Prop :=
  ∀ (s : State) (cu : Cur) (g : Gang) (wg : Wg) (w : CtrlW), Calm s cu g wg → (Instr.exit w).wf = true →
    wg.groupSize = 0 ∨ wg.passedFinal = true →
    let act := actOf g cu false w.g
    ∃ t, exec (.exit w) s = .next t
      ∧ (∀ j, j ≠ cu.gang → (t.gangs.find? j).map (fun q => (q.status, q.vr, q.pr, q.sr, q.fpstat))
          = (s.gangs.find? j).map fun q => (q.status, q.vr, q.pr, q.sr, q.fpstat))
      ∧ if g.liveMask &&& ~~~act = 0 ∧ act ≠ 0 then t.gangs.find? cu.gang = none
        else ∃ h, t.gangs.find? cu.gang = some h ∧ KeptV g h ∧ KeptP g h ∧ KeptS g h ∧ KeptF g h
          ∧ ∀ l, l < 32 → h.laneStatus l = if act.getLsbD l then 2 else g.laneStatus l

/-- 04 R106, 05 R134: TRAP and BRK enter the handler with causes 0x0E and 0x0F, with TRAPPC the next word and TRAPADDR the
immediate; with no active lane they only pass. -/
def Obligations.TrapWords : Prop :=
  ∀ (s : State) (cu : Cur) (g : Gang) (wg : Wg) (w : CtrlW), Calm s cu g wg → HasHandler g →
    ∀ e ∈ [(Instr.trap w, 0x0E), (Instr.brk w, 0x0F)], e.1.wf = true →
      (actOf g cu false w.g ≠ 0 →
        ∃ t, exec e.1 s = .next t
          ∧ Trapped s t cu g false e.2 ((cu.pc + 16).setWidth 64) (w.imm.setWidth 64)) ∧
      (actOf g cu false w.g = 0 → Effect e.1 s cu g false 1 fun k => k)

/-- 05 R134, 18 R363: without a handler, or in handler mode, an exception terminates the workgroup: it and its gangs are
gone, and its launch keeps the first report. While the ERRH core restarts the termination waits (the model's reading, log
15). -/
def Obligations.NoHandlerTerminates : Prop :=
  ∀ (s : State) (gid cause : Nat) (g : Gang) (wg : Wg) (L : Launch) (lanes : LaneMask) (pc addr : W64),
    s.gangs.find? gid = some g → s.wgs.find? g.wg = some wg → s.launches.find? wg.launch = some L → ¬HasHandler g →
    wg.groupSize = 0 → cause ≠ 0x10 →
    let t := s.takeTrap gid lanes cause pc addr
    let r : Report := { cause := cause, pc := pc, addr := addr }
    (s.fwUp 3 = true → t.wgs.find? g.wg = none ∧ (∀ j ∈ wg.gangs, t.gangs.find? j = none)
      ∧ ∃ M, t.launches.find? wg.launch = some M ∧ M.report = some (L.report.getD r)) ∧
    (s.fwUp 3 = false → (∀ e ∈ s.terms, e.1 ≠ g.wg) →
      t = { s with wgs := t.wgs, terms := s.terms ++ [(g.wg, r)] }
        ∧ ∀ j, t.wgs.find? j = if j = g.wg then some { wg with dying := true } else s.wgs.find? j)

/-- 03 R71, R72, 05 R134: a core word that breaks a field check traps with ILLEGAL and the subcode, whatever its guards.
01 R17, 05 Table 44: a word that reads an empty register in trap mode raises FE_EMPTY at the lowest such register and
lane: stated of a source of one word, in one lane; under a permute the lane is the reading one's (log 24, read from 01
R17). -/
def Obligations.WordsThatTrap : Prop :=
  (∀ (s : State) (cu : Cur) (g : Gang) (wg : Wg) (i : Instr) (u : WordUse) (chk : Ctx → State → Check)
     (body : Ctx → State → State) (x : BitVec 8), Calm s cu g wg → HasHandler g → i.staticCheck = some x → u.absent = false →
     u.first = .ok →
     ∃ t, coreWord i u chk body s = .next t
       ∧ Trapped s t cu g u.collective 0x01 (cu.pc.setWidth 64) (x.setWidth 64)) ∧
  (∀ (s : State) (cu : Cur) (g : Gang) (wg : Wg) (w : VecW) (k l : Nat), Calm s cu { g with empty := [] } wg →
     (Instr.mov w).wf = true → EvenV w (widthOf w.t) (widthOf w.t) → w.ea = 1 → w.i = 0 → g.empty = [k] →
     k = vkey l w.a.toNat → HasHandler g → (actOf g cu false w.g).getLsbD l = true →
     ∃ t, exec (.mov w) { s with gangs := s.gangs.set cu.gang g } = .next t
       ∧ Trapped { s with gangs := s.gangs.set cu.gang g } t cu g false 0x03 (cu.pc.setWidth 64)
           (BitVec.ofNat 64 (w.a.toNat + 256 * l)))

/-- 04 R108, 03 Table 34: SREAD returns a special register as the lane, or the lowest active lane, sees it. The values are
those of 01 Table 8, 05 Table 46 and R123, and of the registers that the gang holds; that ISSUECNT leaves out the SREAD's
own issue is the model's choice (log 54). -/
def Obligations.SpecialReads : Prop :=
  ∀ (s : State) (cu : Cur) (g : Gang) (wg : Wg) (w : CtrlW), Calm s cu g wg → (Instr.sread w).wf = true → g.waits = [] →
    let act := actOf g cu false w.g
    let x (l : Nat) : W64 := s.special (seen cu g wg false w.g) l (w.imm.toNat % 256)
    ∃ t h, exec (.sread w) s = .next t ∧ Ran s t cu g h false 1 ∧ KeptP g h ∧ KeptF g h
      ∧ (if w.vx = 1 then WroteV g h act 32 w.vd.toNat (fun l => ((x l).setWidth 32).toNat) ∧ KeptS g h
         else WroteS g h act w.sd.toNat (x (lowLane act)) ∧ KeptV g h)
      ∧ ∀ L, s.launches.find? wg.launch = some L → ∀ l,
          let here (v : Wg) : Bool := v.pid = wg.pid && v.status = .resident
          let charged (j : Nat × Gang) : Nat := match s.wgs.find? j.2.wg with
            | some v => if here v then j.2.base + j.2.xcount else 0
            | none => 0
          let bases (v : Wg) : List Nat := match s.launches.find? v.launch with
            | some M => if here v then M.spawns.map (·.base) else []
            | none => []
          let used := (s.gangs.map charged).sum + (s.wgs.flatMap fun v => bases v.2).foldl max 0
          let n (v : Nat) : W64 := BitVec.ofNat 64 v
          ∀ e ∈ [(0x00, n l), (0x01, n (l / 4)), (0x02, n (l / 8)),
              (0x03, n (g.idx + 2 ^ 8 * g.slots.getD 0 0 + 2 ^ 12 * (wg.pid % 4))), (0x04, n wg.wgid),
              (0x05, n (L.count + 2 ^ 32 * (wg.count - 1))), (0x06, n wg.launch), (0x07, n (wg.pid / 4 % 8)),
              (0x08, n (wg.pid / 32 % 24)), (0x09, n (wg.pid / 768)), (0x0A, n s.pkg), (0x10, act.setWidth 64),
              (0x11, (maskWhere fun j => g.laneStatus j = 1).setWidth 64), (0x18, g.issuecnt), (0x1B, s.fabtime),
              (0x20, g.trapbase), (0x21, g.trapcause), (0x22, g.trappc), (0x23, g.trapaddr), (0x28, g.codemap),
              (0x29, n g.xcount), (0x2A, n (1024 - used)), (0x30, g.fpstat), (0x31, n L.rank), (0x32, n L.gsize)],
            w.imm.toNat % 256 = e.1 → x l = e.2

/-- 04 R108, 02 Table 16, 05 Table 45, R137: SWRITE writes the writable bits of TRAPBASE and FPSTAT, and in handler mode of
TRAPCAUSE, TRAPPC and TRAPADDR; any other register raises PRIV with its number. -/
def Obligations.SpecialWrites : Prop :=
  ∀ (s : State) (cu : Cur) (g : Gang) (wg : Wg) (w : CtrlW), Calm s cu g wg → (Instr.swrite w).wf = true → g.waits = [] →
    let act := actOf g cu false w.g
    let n := w.imm.toNat % 256
    let x : W64 := if w.vx = 1 then (g.v (permSrc w.pma (lowLane act)) w.va.toNat).setWidth 64 else g.s w.sa.toNat
    let put (r : Nat) (m old : W64) : W64 := if n = r ∧ act ≠ 0 then x &&& m else old
    (n = 0x20 ∨ n = 0x30 ∨ (g.handler = true ∧ (n = 0x21 ∨ n = 0x22 ∨ n = 0x23)) →
      ∃ t h, exec (.swrite w) s = .next t ∧ t.gangs.find? cu.gang = some h ∧ OnlyGang s t cu.gang
        ∧ PcsMoved g h (grpOf g cu false) (cu.after 1)
        ∧ h = { g with pcs := h.pcs, age := h.age, splitCnt := h.splitCnt, issuecnt := h.issuecnt, lastIssue := h.lastIssue
                       trapbase := put 0x20 0x01FFFFFFFFFFFFF1 g.trapbase, trapcause := put 0x21 0x1FFF g.trapcause
                       trappc := put 0x22 0x01FFFFFFFFFFFFF0 g.trappc, trapaddr := put 0x23 0xFFFFFFFFFFFFFFFF g.trapaddr
                       fpstat := put 0x30 0x1011F g.fpstat }) ∧
    (¬(n = 0x20 ∨ n = 0x30) → HasHandler g →
      ∃ t, exec (.swrite w) s = .next t
        ∧ Trapped s t cu g false 0x11 (cu.pc.setWidth 64) (BitVec.ofNat 64 n))

/-- 05 R134, 04 R109, 07 R179: ERET resumes the trapped lanes that are still live at TRAPPC, leaves what they wait for,
leaves handler mode and restores the prefix; outside handler mode it raises PRIV. -/
def Obligations.ExceptionReturn : Prop :=
  ∀ (s : State) (cu : Cur) (g : Gang) (wg : Wg) (w : CtrlW), Calm s cu g wg → (Instr.eret w).wf = true →
    let act := actOf g cu false w.g
    (g.handler = true → act ≠ 0 →
      ∃ t h, exec (.eret w) s = .next t ∧ t.gangs.find? cu.gang = some h
        ∧ OnlyGang s { t with monitors := s.monitors } cu.gang
        ∧ h = { g with pcs := h.pcs, age := h.age, splitCnt := h.splitCnt, issuecnt := h.issuecnt, lastIssue := h.lastIssue
                       waits := h.waits, qops := h.qops, handler := false, trapped := 0, ord := g.ordSusp, ordSusp := none }
        ∧ (∀ x ∈ h.waits, x.lanes &&& g.trapped = 0) ∧ (g.waits = [] → h.waits = []) ∧ (g.qops = [] → h.qops = [])
        ∧ ∀ l, l < 32 → h.pcOf l = if g.trapped.getLsbD l = true ∧ g.isLive l = true then g.trappc.setWidth 57 &&& ~~~(15 : PCAddr)
            else if (grpOf g cu false).getLsbD l then cu.after 1 else g.pcOf l) ∧
    (g.handler = true → act = 0 → Effect (.eret w) s cu g false 1 fun k => k) ∧
    (HasHandler g →
      ∃ t, exec (.eret w) s = .next t ∧ Trapped s t cu g false 0x11 (cu.pc.setWidth 64) 0xFFFF)

/-- 04 R107, 18 R368, Table 135: the services of SYSCALL while the host-interface core runs, and SLEEP. SYSCALL is
answered in one step, and a sleeping group stands past its word (log 26); TIME's s1 is 1000 × CEIL (log 28); the pages of
LOG's bytes are present (log 14). -/
def Obligations.CallAndSleep : Prop :=
  ∀ (s : State) (cu : Cur) (g : Gang) (wg : Wg) (w : CtrlW), Calm s cu g wg →
    let act := actOf g cu false w.g
    ((Instr.syscall w).wf = true → s.fwUp 0 = true → wg.groupSize = 0 → Orders s cu g True →
      (w.imm = 1 → s.logPages (seen cu g wg false w.g) = .ok) →
      (w.imm = 3 → s.fwUp 3 = true ∧ (∀ j q, s.gangs.find? j = some q → ∀ x ∈ q.waits, x.popping = false)
        ∧ ∀ pid, s.ringCount pid = 0) →
      ∃ t, exec (.syscall w) s = .next t
        ∧ (act ≠ 0 → w.imm = 3 → t.wgs.find? g.wg = none)
        ∧ (act = 0 ∨ w.imm ≠ 3 → ∃ h, t.gangs.find? cu.gang = some h ∧ SameGang g { h with waits := g.waits } false
            ∧ PcsMoved g h (grpOf g cu false) (cu.after 1) ∧ KeptV g h ∧ KeptP g h ∧ KeptF g h
            ∧ (∀ n, 2 ≤ n → h.s n = g.s n) ∧ (act = 0 → KeptS g h)
            ∧ (act ≠ 0 → (w.imm = 0 → h.s 0 = BitVec.ofNat 64 s.fwver ∧ h.s 1 = BitVec.ofNat 64 s.secver)
              ∧ (w.imm = 2 → h.s 0 = s.fabtime ∧ h.s 1 = BitVec.ofNat 64 (1000 * s.ceil))
              ∧ (4 ≤ w.imm.toNat → h.s 0 = 0xFFFFFFFFFFFFFFFF ∧ h.s 1 = g.s 1)))) ∧
    ((Instr.sleep w).wf = true →
      let n := if w.i = 1 then w.imm.toNat else (g.s w.sa.toNat).toNat % 2 ^ 32
      Effect (.sleep w) s cu g false 1 fun k =>
        if act = 0 ∨ n = 0 then k
        else k.updGang cu.gang fun h =>
          { h with waits := h.waits ++ [{ id := h.nextId, lanes := act, kind := .sleep (s.fabtime.toNat + n) }]
                   nextId := h.nextId + 1 })

/-- 07 R160 to R170: a load produces the bytes at its place, in the memory as the core sees it, in VD of each lane; LDU those
of the lowest active lane in an s-register. Nothing stored changes. -/
def Obligations.Loads : Prop :=
  ∀ (s : State) (cu : Cur) (g : Gang) (wg : Wg) (w : MemW) (place : Nat → Loc), Calm s cu g wg →
    let act := actOf g cu false w.g
    let n := 2 ^ w.wd.toNat
    let core := coreOf wg.pid
    let v (l : Nat) : Nat := s.loadNat core (w.pl = 2) (place l) n
    ((Instr.ld w).wf = true → MemAligned w w.vd.toNat → LanesReach s cu g wg w .read (lanesOf act) place →
      ∃ t, exec (.ld w) s = .next t ∧ ReadOnly s t cu.gang
        ∧ Holds t cu g false 1 act true ((lanesOf act).flatMap fun l => (List.range (regsM w)).map fun j =>
            { key := vkey l (w.vd.toNat + j), val := (regM w (v l) j).setWidth 64
              poison := s.loadPoisoned core (w.pl = 2) (place l) n }) 0) ∧
    ((Instr.ldu w).wf = true → LanesReach s cu g wg w .read (if act = 0 then [] else [lowLane act]) place →
      ∃ t, exec (.ldu w) s = .next t ∧ ReadOnly s t cu.gang
        ∧ Holds t cu g false 1 act true
            [{ key := skey (w.vd.toNat % 64), poison := s.loadPoisoned core (w.pl = 2) (place (lowLane act)) n
               val := if w.sx = 1 then (BitVec.ofNat (8 * n) (v (lowLane act))).signExtend 64
                 else BitVec.ofNat 64 (v (lowLane act)) }] 0)

/-- 07 R163, R165, R168: after a store the core reads VD's bytes at each place, of the highest lane where places meet, and
every other byte as before. -/
def Obligations.Stores : Prop :=
  ∀ (s : State) (cu : Cur) (g : Gang) (wg : Wg) (w : MemW) (place : Nat → Loc), Calm s cu g wg → (Instr.st w).wf = true →
    Drained s → MemAligned w w.vd.toNat →
    let act := actOf g cu false w.g
    let n := 2 ^ w.wd.toNat
    let core := coreOf wg.pid
    LanesReach s cu g wg w .write (lanesOf act) place →
    (∀ l ∈ lanesOf act, ∀ m ∈ lanesOf act, (place l).kind = (place m).kind) →
    ∃ t, exec (.st w) s = .next t ∧ RegsKept s t ∧ PassedOn t cu g
      ∧ (∀ l ∈ lanesOf act, ∀ i, i < n →
          (∀ m ∈ lanesOf act, l < m → ¬Covers (place m) n (place l).kind ((place l).addr + i)) →
          t.loadByte core false (place l).kind ((place l).addr + i) = (leBytes n (valM g w l w.vd.toNat)).getD i 0)
      ∧ ∀ k a, (∀ l ∈ lanesOf act, Apart (place l) k a ∧ ¬Covers (place l) n k a) →
          t.loadByte core false k a = s.loadByte core false k a

/-- 14 R290, R291, 15 R299: an access to a vault for which a workgroup of the core owns slots waits for its slot, and the
word's other accesses to vaults, and the gang's later ones, wait in order behind it: each is counted in LATOWN or LATBE by
its own class, and the producer is not ready. That the slots are fixed at issue is the model's choice (log 58). -/
def Obligations.OwnedVaultAccesses : Prop :=
  ∀ (s : State) (cu : Cur) (g : Gang) (wg : Wg) (w : MemW) (place : Nat → Loc), Calm s cu g wg →
    let act := actOf g cu false w.g
    let n := 2 ^ w.wd.toNat
    let core := coreOf wg.pid
    let keys (l : Nat) : List Nat := (List.range (regsM w)).map fun j => vkey l (w.vd.toNat + j)
    let empty (k : Nat) : Dest := { key := k, val := 0, poison := false }
    let xs := ((lanesOf act).map (addrM g w)).eraseDups
    let sent (t : State) (os : List VaultOp) : Prop := t.vops = s.vops ++ os ∧ t.vmem = s.vmem
      ∧ t.creg (.core core) 0x140 = s.creg (.core core) 0x140 + BitVec.ofNat 64 (os.filter fun o => !o.slots.isEmpty).length
      ∧ t.creg (.core core) 0x148 = s.creg (.core core) 0x148 + BitVec.ofNat 64 (os.filter fun o => o.slots.isEmpty).length
    let atomic (cas ret : Bool) : List VaultOp := xs.map fun x =>
      let ls := withAddr g w act x
      waitingAccess s core cu.gang g.nextId (place (ls.headD 0))
        (.atomic w.ao.toNat n (w.sx = 1) cas (if ret then ls.map keys else []) ((comparesM g w ls).zip (operandsM g w ls)))
    act ≠ 0 →
    ((Instr.ld w).wf = true → MemAligned w w.vd.toNat → LanesOwn s cu g wg w .read (lanesOf act) place →
      ∃ t, exec (.ld w) s = .next t ∧ Holds t cu g false 1 act false (((lanesOf act).flatMap keys).map empty) 0
        ∧ sent t ((lanesOf act).map fun l => waitingAccess s core cu.gang g.nextId (place l) (.read n (w.sx = 1) (keys l)))) ∧
    ((Instr.ldu w).wf = true → LanesOwn s cu g wg w .read [lowLane act] place →
      ∃ t, exec (.ldu w) s = .next t ∧ Holds t cu g false 1 act false [empty (skey (w.vd.toNat % 64))] 0
        ∧ sent t [waitingAccess s core cu.gang g.nextId (place (lowLane act)) (.read n (w.sx = 1) [skey (w.vd.toNat % 64)])]) ∧
    ((Instr.st w).wf = true → MemAligned w w.vd.toNat → LanesOwn s cu g wg w .write (lanesOf act) place →
      ∃ t, exec (.st w) s = .next t ∧ PassedOn t cu g
        ∧ sent t ((lanesOf act).map fun l =>
            waitingAccess s core cu.gang 0 (place l) (.write (leBytes n (valM g w l w.vd.toNat))))) ∧
    (MemAligned w w.vb.toNat → LanesOwn s cu g wg w .write (lanesOf act) place →
      ((Instr.red w).wf = true → ∃ t, exec (.red w) s = .next t ∧ PassedOn t cu g ∧ sent t (atomic false false)) ∧
      (MemAligned w w.vd.toNat →
        ∀ e ∈ [(Instr.atom w, false), (Instr.cas w, true)], e.1.wf = true → ∃ t, exec e.1 s = .next t
          ∧ Holds t cu g false 1 act false
              ((xs.flatMap fun x => (withAddr g w act x).flatMap keys).map empty) 0
          ∧ sent t (atomic e.2 true)))

/-- 14 R289, R291, 15 R299: an access sets out in the first of its slots whose pulse is not swallowed; T(h) after that it
has been performed at its vault, and its data are back 2T(h) after it: its producer is then ready, and its write-back is
the next action. One without slots, with nothing of its gang before it, is performed as the cycle ends. That a write is
over where it is performed, and that the slots are those found at issue, is the model's choice (log 58). -/
def Obligations.VaultJourney : Prop :=
  ∀ (s : State) (o : VaultOp) (cy : Nat) (swallowed : Nat → Bool), s.vops = [o] → o.performed = false → 18 ≤ o.dist →
    let t := s.vaultCycle cy swallowed
    let mine := o.slots.contains (cy % 64) = true ∧ swallowed (o.core / 8) = false
    let past (k : Nat) : Prop := o.slots = [] ∨ ∃ c, o.sentAt = some c ∧ c + k ≤ cy + 1
    (o.sentAt = none → o.slots ≠ [] → t = { s with vops := [if mine then { o with sentAt := some cy } else o] }) ∧
    (o.sentAt ≠ none → ¬past o.dist → t = s) ∧
    (past o.dist →
      (∀ bs, o.act = .write bs → t.vops = [] ∧ t.agenda = s.agenda ∧ ∀ a, t.vmem.getD a 0
        = if o.addr ≤ a ∧ a < o.addr + bs.length then bs.getD (a - o.addr) 0 else s.vmem.getD a 0) ∧
      (∀ n sx keys, o.act = .read n sx keys → t.vmem = s.vmem ∧
        (past (2 * o.dist) → t.vops = [] ∧ t.agenda = s.agenda ++ [.event (.producerWriteback o.gang o.prod)]) ∧
        (¬past (2 * o.dist) → t.vops = [{ o with performed := true }] ∧ t.agenda = s.agenda) ∧
        ∀ g, s.gangs.find? o.gang = some g → ∃ h, t.gangs.find? o.gang = some h ∧ KeptV g h ∧ KeptP g h ∧ KeptS g h
          ∧ ∀ p ∈ h.prods, p.id = o.prod → (past (2 * o.dist) → p.ready = true)
            ∧ ∀ d ∈ p.dests, ∀ k < 8192, ∀ j, j < keys.length → keys.getD j 0 = k → (∀ i, i < j → keys.getD i 0 ≠ k) → d.key = k →
                d.val = (loadReg n sx (s.loadNat o.core false { kind := .vault, addr := o.addr } n) j).setWidth 64))

/-- 07 R173 to R176: atomics. -/
def Obligations.Atomics : Prop :=
  AtomicWord .atom false true ∧ AtomicWord .red false false ∧ AtomicWord .cas true true

/-- 07 Table 58, R174, R175: what the lanes of one address do in turn, for integer operations and CAS: the value written
and the old values. The floating-point adds form a partial sum S of the lanes in FP32: a lane finds the word plus the S of
the lanes below it, and the word plus the last S is written; FADD.BF16X2 does so in each half, on exact BF16 operands. -/
def Obligations.AtomicSteps : Prop :=
  (∀ (m : Nat) (sg : Bool) (bs : List Nat), m < 2 ^ 32 → (∀ b ∈ bs, b < 2 ^ 32) → bs ≠ [] →
    let part (widen : Nat → Nat) (i : Nat) : Nat :=
      ((bs.take (i + 1)).drop 1).foldl (fun a b => (fAdd false .rne a (widen b)).1) (widen (bs.headD 0))
    let each (r : Nat → Nat) : Option Nat × List Nat :=
      (some (r (bs.length - 1)), (List.range bs.length).map fun i => if i = 0 then m else r (i - 1))
    let half (k x : Nat) : Nat := x / 2 ^ (16 * k) % 2 ^ 16
    let r (k i : Nat) : Nat :=
      (sumRound fmtBf16 .rne [decodeF fmtBf16 (half k m), decodeF fmtFp32 (part (fun b => half k b * 2 ^ 16) i)]).1
    atomSteps 9 32 sg none m bs = each (fun i => (fAdd false .rne m (part id i)).1) ∧
    atomSteps 10 32 sg none m bs = each (fun i => r 0 i + 2 ^ 16 * r 1 i)) ∧
  ∀ (wd m : Nat) (sg : Bool) (bs ds : List Nat), wd ∈ [32, 64] → m < 2 ^ wd → (∀ b ∈ bs, b < 2 ^ wd) →
    ds.length = bs.length →
    let each (f : Nat → Nat → Nat) : Option Nat × List Nat :=
      (some (bs.foldl f m), (List.range bs.length).map fun i => (bs.take i).foldl f m)
    atomSteps 0 wd sg none m bs = each (fun a b => (BitVec.ofNat wd a + BitVec.ofNat wd b).toNat) ∧
    atomSteps 1 wd sg none m bs = each (fun a b => if valueT sg wd b < valueT sg wd a then b else a) ∧
    atomSteps 2 wd sg none m bs = each (fun a b => if valueT sg wd a < valueT sg wd b then b else a) ∧
    atomSteps 3 wd sg none m bs = each (fun a b => a &&& b) ∧ atomSteps 4 wd sg none m bs = each (fun a b => a ||| b) ∧
    atomSteps 5 wd sg none m bs = each (fun a b => a ^^^ b) ∧ atomSteps 6 wd sg none m bs = each (fun _ b => b) ∧
    atomSteps 7 wd sg none m bs = each (fun a b => if b ≤ a then 0 else a + 1) ∧
    atomSteps 8 wd sg none m bs = each (fun a b => if a = 0 ∨ b < a then b else a - 1) ∧
    (atomSteps 0 wd sg (some ds) m bs).2
      = (List.range bs.length).map fun i => ((ds.zip bs).take i).foldl (fun a e => if a = e.1 then e.2 else a) m

/-- 07 R182 to R184: WAITC passes where the condition holds on the value read; otherwise the group stays at the word and
sleeps on a monitor, or is parked where none has room. -/
def Obligations.WaitWord : Prop :=
  ∀ (s : State) (cu : Cur) (g : Gang) (wg : Wg) (w : MemW) (place : Nat → Loc), Calm s cu g wg →
    (Instr.waitc w).wf = true → MemAligned w w.vd.toNat → MemAligned w w.vb.toNat →
    let act := actOf g cu false w.g
    let grp := grpOf g cu false
    let n := 2 ^ w.wd.toNat
    let l := lowLane act
    (act ≠ 0 → Reaches s g.wg wg w.sp.toNat n .read (addrM g w l) (place l) ∧ Here s (place l)
      ∧ s.loadPoisoned (coreOf wg.pid) false (place l) n = false) →
    let mask := valM g w (permSrc w.pmb l) w.vb.toNat
    let a := valueT (w.sx = 1) (8 * n) (s.loadNat (coreOf wg.pid) false (place l) n &&& mask)
    let b := valueT (w.sx = 1) (8 * n) (valM g w l w.vd.toNat &&& mask)
    let r : WaitRead := { sp := w.sp.toNat, va := addrM g w l, loc := place l, n := n, value := valM g w l w.vd.toNat
                          mask := mask, cc := w.cm.toNat, signed := w.sx = 1, pfx := none }
    let cond : Prop := if w.cm = 0 then a = b else if w.cm = 1 then a ≠ b else if w.cm = 2 then b ≤ a else b < a
    (act = 0 ∨ cond → ∃ t h, exec (.waitc w) s = .next t ∧ ReadOnly s t cu.gang ∧ t.gangs.find? cu.gang = some h
      ∧ SameGang g h false ∧ PcsMoved g h grp (cu.after 1) ∧ KeptV g h ∧ KeptP g h ∧ KeptS g h ∧ KeptF g h) ∧
    (act ≠ 0 → ¬cond → ∃ t h parked, exec (.waitc w) s = .next t ∧ t.gangs.find? cu.gang = some h
      ∧ PcsMoved g h grp (cu.after 0) ∧ KeptV g h ∧ KeptP g h ∧ KeptS g h ∧ KeptF g h
      ∧ h.waits = g.waits ++ [{ id := g.nextId, lanes := grp, kind := .waitc r parked 0 false }]
      ∧ (parked = true → t.monitors = s.monitors)
      ∧ (parked = false → ∃ m ∈ t.monitors, m.word = { kind := (place l).kind.plain, addr := (place l).addr / 8 * 8 }
          ∧ m.sleepers.length ≤ 16 ∧ Sleeper.gang cu.gang g.nextId ∈ m.sleepers))

/-- 08 R185, R186: a quarter operation, whatever its guards, brings every lane of its group to the rendezvous of its quarter,
and the lanes of the active set take part. -/
def Obligations.QuarterWords : Prop :=
  ∀ (s : State) (cu : Cur) (g : Gang) (wg : Wg) (w : MmaW) (k : BitVec 120), Calm s cu g wg → g.qops = [] →
    ∀ i ∈ [Instr.mma w k, .tlma w k, .tlpre w], i.wf = true →
      let grp := grpOf g cu false
      ∃ t h, exec i s = .next t ∧ Blocked s t cu g h false
        ∧ h.qops.map (fun o => (o.q, o.pc, o.ins, o.arrived, o.parts, o.phase))
          = (((List.range 4).filter fun q => grp &&& quarterMask q != 0).map fun q =>
              (q, cu.pc, i, grp &&& quarterMask q, actOf g cu false w.g &&& quarterMask q, QPhase.rendezvous))
        ∧ h.waits.map (fun x => (x.id, x.lanes, x.kind))
          = g.waits.map (fun x => (x.id, x.lanes, x.kind)) ++ h.qops.map (fun o => (o.wait, o.arrived, WaitKind.matrix))

/-- 08 R190, R191, R201: MLDT produces each lane's K elements of FA, packed, from its row, or column, of its quarter's
tile. 08 R201: MSTT stores the eight D values of each lane, converted to FD with RNE, to its row or column; where offsets
meet the last of them in ascending lane order stands, and every other byte is as before. That IMM is sign-extended is the
model's reading (log 35). MZERO writes zeros to D, and with bit TR to the state word, of every active lane. -/
def Obligations.MatrixTiles : Prop :=
  (∀ (s : State) (cu : Cur) (g : Gang) (wg : Wg) (w : MmaW), Calm s cu g wg → (Instr.mzero w).wf = true →
     w.vd.toNat % 8 = 0 →
     ∃ t h, exec (.mzero w) s = .next t ∧ Ran s t cu g h false 1 ∧ KeptP g h ∧ KeptS g h ∧ KeptF g h
       ∧ ∀ l r, l < 32 → r < 256 → h.v l r =
           if (actOf g cu false w.g).getLsbD l = true ∧ (w.vd.toNat ≤ r ∧ r < w.vd.toNat + 8 ∨ w.tr = 1 ∧ r = w.vst.toNat)
           then 0 else g.v l r) ∧
  (∀ (s : State) (cu : Cur) (g : Gang) (wg : Wg) (w : MmaW), Calm s cu g wg → (Instr.mldt w).wf = true →
     let act := actOf g cu false w.g
     let wd := widthOf w.fa
     let k := (g.s w.sk.toNat).toNat
     let regs := (wd * k + 31) / 32
     k % 8 = 0 → 8 ≤ k → k ≤ 65536 → w.vd.toNat + regs ≤ 256 → DescOk (g.s w.sa0.toNat) (g.s w.sa1.toNat) →
     (∀ l ∈ lanesOf act, ∀ o ∈ tileBytes g w wd k l, o < wg.scrLen) →
     let part (l j : Nat) : List Nat := ((tileBytes g w wd k l).drop (4 * j)).take 4
     ∃ t, exec (.mldt w) s = .next t
       ∧ Produced s t cu g false 1 act true
           ((lanesOf act).flatMap fun l => (List.range regs).map fun j =>
             { key := vkey l (w.vd.toNat + j), val := BitVec.ofNat 64 (leNat ((part l j).map (s.scrByte g.wg)))
               poison := (part l j).any fun o => wg.scrPoison.contains (o / 16) }) 0) ∧
  (∀ (s : State) (cu : Cur) (g : Gang) (wg : Wg) (w : MmaW), Calm s cu g wg → (Instr.mstt w).wf = true →
     let act := actOf g cu false w.g
     let wd := widthOf w.fd
     w.vd.toNat % 8 = 0 → DescOk (g.s w.sa0.toNat) (g.s w.sa1.toNat) →
     (∀ l ∈ lanesOf act, ∀ o ∈ tileBytes g w wd 8 l, o < wg.scrLen) →
     let r (l j : Nat) : FRes := convTo w.fd .rne (decodeF fmtFp32 (g.v l (w.vd.toNat + j)).toNat)
     let image (l : Nat) : Nat := ((List.range 8).map fun j => (r l j).1 % 2 ^ wd * 2 ^ (wd * j)).sum
     let writes := (lanesOf act).flatMap fun l => (tileBytes g w wd 8 l).zip (leBytes wd (image l))
     ∃ t h, exec (.mstt w) s = .next t ∧ t.gangs.find? cu.gang = some h ∧ SameGang g { h with waits := g.waits } false
       ∧ PcsMoved g h (grpOf g cu false) (cu.after 1) ∧ KeptV g h ∧ KeptP g h ∧ KeptS g h
       ∧ RaisedF g h act (fun l => (List.range 8).foldl (fun f j => f ||| (r l j).2) 0)
       ∧ (∀ o, t.scrByte g.wg o = match writes.reverse.find? (fun e => e.1 == o) with
           | some e => e.2
           | none => s.scrByte g.wg o)
       ∧ t.mem = s.mem ∧ t.vmem = s.vmem ∧ ∀ j o, j ≠ g.wg → t.scrByte j o = s.scrByte j o)

/-- 09 R204 to R207, R412, R213, R224, R229, R235, R243: the macro-instructions ask for a lathe where their checks pass. A
BLEND here covers a sample in every lane, an MCODE is declared by loaded microcode. -/
def Obligations.MacroWords : Prop :=
  (MacroWord .rast true 24 rastChk
    (fun _ _ _ w => w.vs.toNat % 8 = 0 ∧ w.vi.toNat + 12 ≤ 256 ∧ w.vo.toNat + 9 ≤ 256)
    fun act w => [(fullQuadMask act, w.vo.toNat, 9)]) ∧
  (MacroWord .blend false 1 blendChk
    (fun _ g act w => w.vi.toNat + 4 ≤ 256 ∧ w.vo.toNat + 9 ≤ 256 ∧ ∀ l ∈ lanesOf act,
      (g.v l (w.vo.toNat + 1)).toNat &&& covMask (g.v l w.vo.toNat).toNat ≠ 0)
    fun _ _ => []) ∧
  (MacroWord .filt false 9 filtChk
    (fun _ _ _ w => w.s0.toNat % 2 = 0 ∧ w.vi.toNat + (if w.mods.getLsbD 0 then 3 else 6) ≤ 256 ∧ w.vo.toNat + 4 ≤ 256)
    fun act w => [(act, w.vo.toNat, 4)]) ∧
  (MacroWord .trav false 24 travChk
    (fun _ _ _ w => w.vs.toNat % 8 = 0 ∧ w.vi.toNat % 2 = 0 ∧ w.vi.toNat + 11 ≤ 256 ∧ w.vo.toNat + 4 ≤ 256)
    fun act w => [(act, w.vo.toNat, 4)]) ∧
  (MacroWord .bin true 1 (fun w => binChk w false) (fun _ _ _ w => w.vi.toNat + 8 ≤ 256) fun _ _ => []) ∧
  (MacroWord .binPop true 1 (fun w => binChk w true) (fun _ _ _ w => w.vo.toNat + 9 ≤ 256)
    fun act w => [(act, w.vo.toNat, 9)]) ∧
  ∀ (op : BitVec 8) (d : McodeDecl),
    MacroWord (.mcode op) d.gangKind d.stateLen (fun w => fun c _ => ctlChecks w d.gangKind d.reasons c)
      (fun s _ _ w => s.curDecl op.toNat = some d ∧ mcodeBad d w = none ∧ w.vs.toNat % max d.align 1 = 0
        ∧ w.vi.toNat + d.inLen ≤ 256 ∧ w.vo.toNat + d.outLen ≤ 256)
      fun act w => if d.useVO && !d.outRead then [(act, w.vo.toNat, d.outLen)] else []

/-- 06 R147, R148, 12 R260, R261: the active lanes of a barrier word block there, and the barrier is looked at. 06 R147,
12 R274: a workgroup barrier opens when every gang that has not ended has all its live lanes blocked at it: the lanes pass
the word and wait for the starter, the release count rises by one modulo 256, the arrived mask is cleared, and the record
still holds the number of gangs it expects (11 R251, Table 88; log 49). Stated of barriers without COUNT. -/
def Obligations.BarrierWords : Prop :=
  (∀ (s : State) (cu : Cur) (g : Gang) (wg : Wg) (w : SyncW), Calm s cu g wg →
     let act := actOf g cu true w.g
     let x := (g.s w.sa.toNat).toNat
     let hold (k : State) (kind : WaitKind) : State := k.updGang cu.gang fun h => h.holdAt act cu.pc kind
     ((Instr.bar w).wf = true → wg.groupSize = 0 ∨ w.imm.toNat % 16 < 12 → w.aux = 1 → 1 ≤ x → x ≤ 16 →
       Effect (.bar w) s cu g true 1 fun k =>
         if act = 0 then k else (hold k (.bar (w.imm.toNat % 16) x)).checkBar g.wg (w.imm.toNat % 16)) ∧
     ((Instr.bar w).wf = true → wg.groupSize = 0 ∨ w.imm.toNat % 16 < 12 → w.aux ≠ 1 →
       Effect (.bar w) s cu g true 1 fun k =>
         if act = 0 then k else (hold k (.bar (w.imm.toNat % 16) 0)).checkBar g.wg (w.imm.toNat % 16)) ∧
     ((Instr.barc w).wf = true → wg.groupSize ≠ 0 → wg.passedFinal = false →
       Effect (.barc w) s cu g true 1 fun k =>
         let b := hold k (.barc (w.imm.toNat % 4))
         if act = 0 then k else b.checkBarc g.wg (w.imm.toNat % 4) b.engineIdle) ∧
     ((Instr.barcFinal w).wf = true → wg.groupSize ≠ 0 → wg.passedFinal = false →
       Effect (.barcFinal w) s cu g true 1 fun k =>
         let b := hold k (.barc 4)
         if act = 0 then k else b.checkBarc g.wg 4 b.engineIdle) ∧
     ((Instr.barg w).wf = true → (∃ L, s.launches.find? wg.launch = some L ∧ L.barg = true) → wg.binGang = false →
       Effect (.barg w) s cu g true 1 fun k =>
         if act = 0 then k else (hold k (.barg (w.imm.toNat % 4))).checkBarg wg.launch (w.imm.toNat % 4))) ∧
  (∀ (s : State) (wid b : Nat) (w : Wg), s.wgs.find? wid = some w → w.gangs ≠ [] →
     (∀ j ∈ w.gangs, ∃ q, s.gangs.find? j = some q ∧ q.idx < 16 ∧ q.liveMask ≠ 0 ∧ q.barCount b = 0
       ∧ ∀ l, l < 32 → q.isLive l = true → ∃ x ∈ q.waits, isBar b x.kind = true ∧ x.lanes.getLsbD l = true) →
     (w.bars.getD b barZero).arrived = 0 →
     let t := s.checkBar wid b
     (∃ v, t.wgs.find? wid = some v
       ∧ v.bars.getD b barZero =
           { arrived := 0, expected := w.gangs.length, count := ((w.bars.getD b barZero).count + 1) % 256, counted := false })
     ∧ ∀ j ∈ w.gangs, ∀ q, s.gangs.find? j = some q → ∃ h, t.gangs.find? j = some h
         ∧ (∀ x ∈ h.waits, isBar b x.kind = false)
         ∧ ∀ l, l < 32 → (∃ x ∈ q.waits, isBar b x.kind = true ∧ x.lanes.getLsbD l = true) →
             h.pcOf l = (q.pcOf l + 16) &&& ~~~(15 : PCAddr) ∧ ∃ x ∈ h.waits, x.kind = .starter ∧ x.lanes.getLsbD l = true)

/-- 06 R149, R150, R153: a g-register word sends one operation to the workgroup's port; a read, an atomic and XQUERY leave
their s-register empty until it acts.
06 R149, R150: what an operation does at the port: a read returns the register to the s-register that waits for it, a
write replaces it, GATOM returns the old value and combines. -/
def Obligations.PortWords : Prop :=
  (∀ (s : State) (cu : Cur) (g : Gang) (wg : Wg) (w : SyncW), Calm s cu g wg → wg.gops = [] →
     let act := actOf g cu false w.g
     let x : W64 := if w.i = 1 then w.imm.signExtend 64 else g.s w.sa.toNat
     let awaits : Producer :=
       { id := g.nextId, ready := false, flags := 0, dests := [{ key := skey w.sd.toNat, val := 0, poison := false }] }
     let sent (i : Instr) (d op gr : Nat) (x : W64) (rd : Bool) : Prop :=
       ∃ t h v, exec i s = .next t ∧ t.gangs.find? cu.gang = some h ∧ t.wgs.find? g.wg = some v
         ∧ (∀ j, j ≠ cu.gang → t.gangs.find? j = s.gangs.find? j)
         ∧ PcsMoved g h (grpOf g cu false) (cu.after 1) ∧ KeptV g h ∧ KeptP g h ∧ KeptS g h ∧ KeptF g h
         ∧ v.gr = wg.gr ∧ v.gops = (if act = 0 then [] else
             [{ cycle := s.cycle + d, slot := g.slotOf cu.unit, gang := cu.gang, op := op, g := gr, x := x, sd := g.nextId }])
         ∧ h.empty = (if rd = true ∧ act ≠ 0 then [skey w.sd.toNat] else [])
         ∧ h.prods = (if rd = true ∧ act ≠ 0 then [awaits] else [])
     ((Instr.grd w).wf = true → sent (.grd w) 1 0 w.gr.toNat 0 true) ∧
     ((Instr.gwr w).wf = true → sent (.gwr w) 1 1 w.gr.toNat x false) ∧
     ((Instr.gatom w).wf = true → sent (.gatom w) 3 (2 + w.aux.toNat) w.gr.toNat x true) ∧
     ((Instr.xquery w).wf = true → sent (.xquery w) 1 15 0 0 true)) ∧
  (∀ (s : State) (wid : Nat) (o : GOp) (w : Wg) (g : Gang) (p : Producer) (n : Nat), s.wgs.find? wid = some w →
     s.gangs.find? o.gang = some g → g.prods = [p] → p.id = o.sd → p.flags = 0 →
     p.dests = [{ key := skey n, val := 0, poison := false }] → g.empty = [skey n] → g.poison = [] →
     let old := w.gr.getD o.g 0
     let t := s.gopAct wid o
     let reg (r : Nat) : Option W64 := (t.wgs.find? wid).map fun v => v.gr.getD r 0
     let sent : Prop := ∃ h, t.gangs.find? o.gang = some h ∧ h.s n = old ∧ h.empty = [] ∧ h.prods = []
       ∧ ∀ k, k ≠ n → h.s k = g.s k
     (o.op = 0 → sent ∧ ∀ r, reg r = some (w.gr.getD r 0)) ∧
     (o.op = 1 → t.gangs = s.gangs ∧ ∀ r, reg r = some (if r = o.g then o.x else w.gr.getD r 0)) ∧
     (2 ≤ o.op → o.op ≤ 10 → sent ∧ ∀ r, reg r = some (if r ≠ o.g then w.gr.getD r 0
       else match o.op - 2 with
         | 0 => old + o.x
         | 1 => if o.x.slt old then o.x else old
         | 2 => if old.slt o.x then o.x else old
         | 3 => if o.x.ult old then o.x else old
         | 4 => if old.ult o.x then o.x else old
         | 5 => old &&& o.x
         | 6 => old ||| o.x
         | 7 => old ^^^ o.x
         | _ => o.x)))

/-- 06 R151, R152: XCLAIM waits at the word for the grant of n entries; XGIVE waits there until its entries are credited. -/
def Obligations.BlockWords : Prop :=
  ∀ (s : State) (cu : Cur) (g : Gang) (wg : Wg) (w : SyncW), Calm s cu g wg →
    let act := actOf g cu false w.g
    let n := (if w.i = 1 then w.imm.signExtend 64 else g.s w.sa.toNat : W64).toNat
    let waits (t : State) (h : Gang) (kind : WaitKind) : Prop :=
      t.gangs.find? cu.gang = some h ∧ PcsMoved g h (grpOf g cu false) (cu.after 0) ∧ KeptV g h ∧ KeptP g h ∧ KeptS g h
        ∧ KeptF g h ∧ h.waits = g.waits ++ [{ id := g.nextId, lanes := grpOf g cu false, kind := kind }]
        ∧ (∀ j, j ≠ cu.gang → t.gangs.find? j = s.gangs.find? j) ∧ t.mem = s.mem ∧ t.vmem = s.vmem
    act ≠ 0 → 8 ≤ n → n % 8 = 0 →
    ((Instr.xclaim w).wf = true → g.xcount + n ≤ g.xlimit →
      ∃ t h o, exec (.xclaim w) s = .next t ∧ waits t h (.xclaim n o)) ∧
    ((Instr.xgive w).wf = true → n ≤ g.xcount → ∃ t h, exec (.xgive w) s = .next t ∧ waits t h (.xgive n))

/-- 05 R128, R129, 06 R154, R155: SPAWN places one record for each active lane, lanes ascending: in the bins while they
have room; where no bin takes it, in the overflow ring's next entries while it has room; and PD is 1 in the lanes that
found none, which SPODROP counts. SPAWNF makes the FILLING bins of an entry, or all, READY. -/
def Obligations.SpawnWords : Prop :=
  ∀ (s : State) (cu : Cur) (g : Gang) (wg : Wg) (w : SyncW) (L : Launch), Calm s cu g wg →
    s.launches.find? wg.launch = some L →
    let key : W64 := if w.i = 1 then (cu.pc + (w.imm.signExtend 57) * 16).setWidth 64 else g.s w.sa.toNat
    let free (p : CorePart) : Nat := 32 - ((List.range 32).filter fun b => (p.bins.find? b).isSome).length
    let record (l : Nat) : SpawnRec :=
      { entry := key.toNat, launch := wg.launch, tenant := wg.tenant, cls := wg.cls
        w0 := g.v l w.va.toNat, w1 := g.v l (w.va.toNat + 1)
        w2 := g.v l (w.va.toNat + 2), w3 := g.v l (w.va.toNat + 3) }
    ((Instr.spawn w).wf = true → w.va.toNat + 4 ≤ 256 → (∃ e ∈ L.spawns, e.addr = key.toNat) → Orders s cu g False →
      let act := actOf g cu false w.g
      let p := s.cpart wg.pid
      let n := s.ringCount wg.pid
      let cap := fld (s.spo wg.pid 1) 0 17
      let took := min (laneCount act) (cap - n)
      let entryAt (k : Nat) : Nat := fld (s.spo wg.pid 0) 0 52 + 32 * ((fld (s.spo wg.pid 2) 32 16 + n + k) % cap)
      let bytes (l : Nat) : List Byte :=
        leBytes 8 key.toNat ++ ((List.range 4).flatMap fun j => leBytes 4 (g.v l (w.va.toNat + j)).toNat) ++ leBytes 4 wg.launch
          ++ leBytes 2 wg.tenant ++ [BitVec.ofNat 8 wg.cls, 0]
      free p = 0 → (∀ e ∈ p.bins, e.2.state = .filling → e.2.key ≠ key.toNat) → n ≤ cap →
      (∀ k, k < took → s.paOk (entryAt k) = true) →
      ∃ t h, exec (.spawn w) s = .next t ∧ t.gangs.find? cu.gang = some h ∧ PcsMoved g h (grpOf g cu false) (cu.after 1)
        ∧ WroteP g h act w.pd.toNat (fun l => decide (cap - n ≤ rankIn act l)) ∧ KeptV g h ∧ KeptS g h ∧ KeptF g h
        ∧ (t.cpart wg.pid).bins = p.bins ∧ t.ringCount wg.pid = n + took
        ∧ fld (t.spo wg.pid 2) 32 16 = fld (s.spo wg.pid 2) 32 16
        ∧ t.spo wg.pid 3 = s.spo wg.pid 3 + BitVec.ofNat 64 (laneCount act - took)
        ∧ ∀ l ∈ lanesOf act, rankIn act l < cap - n → ∀ i, i < 32 →
            t.homeByte (.mem plainKey) (entryAt (rankIn act l) + i) = (bytes l).getD i 0) ∧
    ((Instr.spawn w).wf = true → w.va.toNat + 4 ≤ 256 → (∃ e ∈ L.spawns, e.addr = key.toNat) → Orders s cu g False →
      let act := actOf g cu false w.g
      laneCount act ≤ free (s.cpart wg.pid) → ((s.cpart wg.pid).bins.map (·.1)).Pairwise (· < ·) →
      ∃ t h, exec (.spawn w) s = .next t ∧ t.gangs.find? cu.gang = some h ∧ PcsMoved g h (grpOf g cu false) (cu.after 1)
        ∧ WroteP g h act w.pd.toNat (fun _ => false) ∧ KeptV g h ∧ KeptS g h ∧ KeptF g h
        ∧ ∀ r, ((t.cpart wg.pid).bins.flatMap fun b => b.2.recs).count r
            = ((s.cpart wg.pid).bins.flatMap fun b => b.2.recs).count r
              + ((lanesOf act).filter fun l => r = record l).length) ∧
    ((Instr.spawnf w).wf = true →
      let act := actOf g cu true w.g
      let hit (b : SpawnBin) : Bool := act != 0 && b.state = .filling && (w.aux = 1 || b.key = key.toNat)
      ∃ t h, exec (.spawnf w) s = .next t ∧ t.gangs.find? cu.gang = some h ∧ PcsMoved g h (grpOf g cu true) (cu.after 1)
        ∧ KeptV g h ∧ KeptP g h ∧ KeptS g h ∧ KeptF g h
        ∧ ∀ b, (t.cpart wg.pid).bins.find? b = ((s.cpart wg.pid).bins.find? b).map fun x =>
            if hit x then { x with state := .ready } else x)

/-- 06 R156, 17 R352: QPOP takes the queue's next index and waits at the word, on the index's sequence word, with its
registers empty.
06 R157, 17 R352: QPUSH to a full queue sets PD and changes nothing; otherwise it takes the next index, writes the record
from its lanes and then the index to its sequence word, and clears PD. Every other byte is as before. The pages of the
record and of the sequence word are held by the TLBs that the core partition looks in. -/
def Obligations.QueueWords : Prop :=
  (∀ (s : State) (cu : Cur) (g : Gang) (wg : Wg) (w : SyncW), Calm s cu g wg → (Instr.qpop w).wf = true →
     let act := actOf g cu false w.g
     let q := (g.s w.sa.toNat).toNat
     let idx := fld (s.creg .hub (qreg q 0x38)) 0 32
     let un := tlbUnit wg.pid
     act ≠ 0 → q < 1024 → (s.qcfg q).getLsbD 16 = true → fld (s.qcfg q) 7 9 = wg.tenant →
     (s.qregs q = 2 → w.vd.toNat % 2 = 0) →
     (∃ p, s.translate un wg.tenant .read (s.qseqVa q idx) = .ok p ∧ Here s p) →
     (∃ p, s.translate un wg.tenant .read (s.qslotVa q idx) = .ok p) →
     ∃ t h parked, exec (.qpop w) s = .next t ∧ t.gangs.find? cu.gang = some h
       ∧ PcsMoved g h (grpOf g cu false) (cu.after 0) ∧ KeptV g h ∧ KeptP g h ∧ KeptS g h ∧ KeptF g h
       ∧ h.waits = g.waits ++ [{ id := g.nextId + 1, lanes := grpOf g cu false
                                 kind := .qpop q idx w.vd.toNat w.sd.toNat act parked 0
                                   (s.seqReady wg.pid wg.tenant q idx) }]
       ∧ (∀ k, k ∈ h.empty ↔ k = skey w.sd.toNat ∨ ∃ j, j < s.qsize q / 4 ∧ act.getLsbD (j % 32) = true
           ∧ k = vkey (j % 32) (w.vd.toNat + j / 32))
       ∧ fld (t.creg .hub (qreg q 0x38)) 0 32 = (idx + 1) % 2 ^ 32
       ∧ fld (t.creg .hub (qreg q 0x38)) 32 32 = fld (s.creg .hub (qreg q 0x38)) 32 32
       ∧ t.mem = s.mem ∧ t.vmem = s.vmem ∧ ∀ j, j ≠ cu.gang → t.gangs.find? j = s.gangs.find? j) ∧
  (∀ (s : State) (cu : Cur) (g : Gang) (wg : Wg) (w : SyncW) (pr pd ps : Loc), Calm s cu g wg → (Instr.qpush w).wf = true →
     Drained s → Orders s cu g False →
     let act := actOf g cu false w.g
     let q := (g.s w.sa.toNat).toNat
     let un := tlbUnit wg.pid
     let core := coreOf wg.pid
     let idx := s.loadNat core false pr 4
     let full := s.qcap q ≤ (idx + 2 ^ 32 - fld (s.creg .hub (qreg q 0x28)) 0 32) % 2 ^ 32
     act ≠ 0 → q < 1024 → (s.qcfg q).getLsbD 16 = true → fld (s.qcfg q) 7 9 = wg.tenant →
     (s.qregs q = 2 → w.va.toNat % 2 = 0) →
     s.translate un wg.tenant .write (s.qva q 0x10 0) = .ok pr → s.translate un wg.tenant .write (s.qslotVa q idx) = .ok pd →
     s.translate un wg.tenant .write (s.qseqVa q idx) = .ok ps → Here s pr → Here s pd → Here s ps →
     pr.kind = ps.kind → pd.kind = ps.kind → pr.addr % 4 = 0 → ps.addr % 4 = 0 → pd.addr % 64 = 0 →
     (64 < s.qsize q → pd.addr % 128 = 0) →
     (∀ x ∈ [s.qslotVa q idx, s.qseqVa q idx], (s.tlbFind un wg.tenant (fld x 0 57 / 2 ^ 16)).isSome = true) →
     ∃ t h, exec (.qpush w) s = .next t ∧ t.gangs.find? cu.gang = some h ∧ SameGang g { h with waits := g.waits } false
       ∧ PcsMoved g h (grpOf g cu false) (cu.after 1) ∧ WroteP g h act w.pd.toNat (fun _ => decide full)
       ∧ KeptV g h ∧ KeptS g h ∧ KeptF g h
       ∧ (full → ∀ k a, t.loadByte core false k a = s.loadByte core false k a)
       ∧ (¬full → t.loadNat core false ps 4 = idx
           ∧ ∀ k a, Apart pr k a → Apart pd k a → Apart { pd with addr := pd.addr + 128 } k a → ¬Covers pd (s.qsize q) k a →
               Apart ps k a → ¬Covers pr 4 k a → ¬Covers ps 4 k a → t.loadByte core false k a = s.loadByte core false k a))

/-- 06 R158, R159: CANCEL 0 makes CANCEL pending in every gang of the workgroup, once; CANCEL of a higher level cancels it
(with no record in an overflow ring); CNTRD returns the counts of a level, ended and cancelled. 06 R158, 17 R341:
cancelling a launch drops its waiting workgroups, counting each as ended and cancelled, and makes CANCEL pending in every
gang that runs for it; a level once cancelled stays as it is. That the mark of a workgroup that has written nothing falls
with an empty active set too (log 31), that CNTRD's counts are those at its issue (log 33), and that a CANCEL already
pending keeps its level (log 70), is the model's choice. -/
def Obligations.CancelWords : Prop :=
  (∀ (s : State) (cu : Cur) (g : Gang) (wg : Wg) (w : SyncW), Calm s cu g wg →
     let act := actOf g cu false w.g
     let mark (k : State) : State := k.updWg g.wg fun v => { v with noWrite := false }
     ((Instr.cancel w).wf = true → w.imm = 0 → Effect (.cancel w) s cu g false 1 fun k =>
       if act = 0 then mark k
       else if wg.unitCancelled = true then mark k
       else (wg.gangs.foldl (fun k j => k.updGang j fun q => { q with cancel := some (q.cancel.getD 0) }) (mark k)).updWg
         g.wg fun v => { v with unitCancelled := true }) ∧
     ((Instr.cancel w).wf = true → w.imm ≠ 0 → (∀ pid, s.ringCount pid = 0) → Effect (.cancel w) s cu g false 1 fun k =>
       if act = 0 then mark k else (mark k).cancelLevel wg.launch w.imm.toNat) ∧
     ((Instr.cntrd w).wf = true → ∀ L, s.launches.find? wg.launch = some L →
       let n : Counter := match w.imm.toNat with
         | 1 => L.launchCnt
         | 2 => L.graphCnt
         | 3 => s.phases.getD L.phase counterZero
         | _ => s.jobs.getD L.job counterZero
       ∃ t h, exec (.cntrd w) s = .next t ∧ t.gangs.find? cu.gang = some h ∧ OnlyGang s { t with l1 := s.l1 } cu.gang
         ∧ SameGang g h false ∧ PcsMoved g h (grpOf g cu false) (cu.after 1) ∧ KeptV g h ∧ KeptP g h ∧ KeptF g h
         ∧ WroteS g h act w.sd.toNat (BitVec.ofNat 64 (n.ended + 2 ^ 32 * n.cancelled)))) ∧
  (∀ (s : State) (lid : Nat) (L : Launch), s.launches.find? lid = some L →
     (s.levelCancelled lid 1 = true → s.cancelLevel lid 1 = s) ∧
     (∀ M, (s.cancelLaunch lid 1 false).launches.find? lid = some M →
       M.waiting = [] ∧ M.cancelled = true
       ∧ M.launchCnt.cancelled % 2 ^ 32 = (L.launchCnt.cancelled + L.waiting.length) % 2 ^ 32
       ∧ M.launchCnt.ended % 2 ^ 32 = (L.launchCnt.ended + L.waiting.length) % 2 ^ 32) ∧
     ∀ j q v, s.gangs.find? j = some q → s.wgs.find? q.wg = some v → v.launch = lid → v.binGang = false →
       ∃ h, (s.cancelLaunch lid 1 false).gangs.find? j = some h ∧ h = { q with cancel := some (q.cancel.getD 1) })

/-- 12 R264 to R267: the ENG words. -/
def Obligations.EngineWords : Prop :=
  ∀ (w : EngW) (k : BitVec 120), EngineWord (.cecopy w k) 0 w k ∧ EngineWord (.cegath w k) 1 w k ∧
    EngineWord (.cescat w k) 2 w k ∧ EngineWord (.cefill w) 3 w 0 ∧ EngineWord (.cedec w k) 4 w k ∧
    EngineWord (.cestat w) 5 w 0

/-- 16 R331, R338, R339: TNOP, TKMOV, TKADD, TKBR, TPHASE and TEND execute and complete at decode. They write the
speculative k-registers and TPC, the phase, or stop the port's decoding, and nothing else. -/
def Obligations.DecodeTasks : Prop :=
  ∀ (w : TaskW),
    let k (p : Port) (n : BitVec 6) : W64 := kOf p.spec.k n
    let imm : W64 := w.imm.signExtend 64
    DecodeTask (.tnop w) (fun _ _ a b => b = a) (fun _ _ _ => True) ∧
    DecodeTask (.tkmov w) (fun _ p a b => b = { a with ctx := b.ctx }
      ∧ WroteK a.ctx b.ctx w.ka (if w.sub.getLsbD 0 = true then k p w.kb else imm)) (fun _ _ _ => True) ∧
    DecodeTask (.tkadd w) (fun _ p a b => b = { a with ctx := b.ctx }
      ∧ WroteK a.ctx b.ctx w.ka (k p w.kb + if w.sub.getLsbD 0 = true then k p w.kc else imm)) (fun _ _ _ => True) ∧
    DecodeTask (.tkbr w) (fun _ p a b =>
      let x := k p w.ka
      let y := k p w.kb
      let holds : Prop := match w.sub.toNat with
        | 0 => x = y
        | 1 => x ≠ y
        | 2 => x.toInt < y.toInt
        | 3 => y.toInt ≤ x.toInt
        | 4 => x.toNat < y.toNat
        | _ => y.toNat ≤ x.toNat
      let dest : Int := (p.spec.tpc + 16 * w.imm.toInt) % 2 ^ 57
      (holds → b = { a with ctx := { a.ctx with tpc := dest.toNat } }) ∧ (¬holds → b = a)) (fun _ _ _ => True) ∧
    ∀ (s : State) (part port : Nat), PortReady s part port → WordsHere s part port 1 →
      let p := s.port part port
      let a := decBegin s p 1
      let c : PortCtx := { a.ctx with phase := (p.spec.phase + 1) % 2 ^ 32 }
      ((Instr.tphase w).wf = true → ∃ t, exec (.tphase w) s = .next t
        ∧ Entered s t part port (.tphase w) false { a with ctx := c } { p with spec := c, phaseId := s.nextPhase } 1) ∧
      ((Instr.tend w).wf = true → ∃ t, exec (.tend w) s = .next t
        ∧ Entered s t part port (.tend w) false a { p with spec := a.ctx, stopDecode := true } 0)

/-- 16 R332: TBIND gives a buffer the first handle of the smallest class that holds its size, TFREE makes it unbound; each
records the old handle. -/
def Obligations.BufferTasks : Prop :=
  ∀ (w : TaskW) (c : Nat),
    DecodeTask (.tbind w) (fun s p a b => ∃ part h rest, s.cur.bind (·.port) = some part
        ∧ s.freeLists.getD (listKey part.1 c) [] = h :: rest
        ∧ b = { ctx := { a.ctx with bufs := b.ctx.bufs }, lists := b.lists, news := [(c, h)], regs := []
                olds := match p.spec.bufs.find? w.ta.toNat with | some o => [(o.cls, o.handle)] | none => [] }
        ∧ (∀ j, b.ctx.bufs.find? j = if j = w.ta.toNat then
            some { handle := h, cls := c, size := (kOf p.spec.k w.ka).toNat, fmt := w.fmt.toNat, shape := kOf p.spec.k w.kb }
            else a.ctx.bufs.find? j)
        ∧ ∀ j, b.lists.getD j [] = if j = listKey part.1 c then rest else s.freeLists.getD j [])
      (fun s part p => 1 ≤ (kOf p.spec.k w.ka).toNat ∧ (kOf p.spec.k w.ka).toNat ≤ 2 ^ (16 + c) ∧ c ≤ 16
        ∧ (∀ j, j < c → 2 ^ (16 + j) < (kOf p.spec.k w.ka).toNat) ∧ s.freeLists.getD (listKey part c) [] ≠ []) ∧
    DecodeTask (.tfree w) (fun _ p a b => ∃ o bufs, p.spec.bufs.find? w.ta.toNat = some o
        ∧ b = { a with ctx := { a.ctx with bufs := bufs }, olds := [(o.cls, o.handle)] }
        ∧ ∀ j, bufs.find? j = if j = w.ta.toNat then none else a.ctx.bufs.find? j)
      (fun _ _ p => (p.spec.bufs.find? w.ta.toNat).isSome = true)

/-- 16 R320, R321, R331: TLAUNCH, TDRAW, TCOPY, TFILL, TALLRED, TALLGAT, TRDSCAT, TPRESENT, TWAIT, TSIGNAL, TFENCE, TKLD
and TGROUP enter the window and wait to issue. Each region is resolved at decode, in order, OVW to a new handle. -/
def Obligations.IssueTasks : Prop :=
  ∀ (w : TaskW) (bs : List BindW), ∀ i ∈ [Instr.tlaunch w bs, .tdraw w bs, .tcopy w, .tfill w, .tallred w, .tallgat w,
      .trdscat w, .tpresent w, .twait w, .tsignal w, .tfence w, .tkld w, .tgroup w],
    ∀ (s : State) (part port : Nat), PortReady s part port → WordsHere s part port (1 + (bindsOf i).length) →
      i.wf = true → (∀ b ∈ (bindsOf i), BindOk b) →
      let p := s.port part port
      let xs := wantsOf p.spec.k i
      let cls (x : Want) : Option Nat := (p.spec.bufs.find? x.t).map (·.cls)
      (∀ x ∈ xs, (cls x).isSome = true) →
      (∀ c, (xs.filter fun x => x.mode = 3 && cls x = some c).length ≤ (s.freeLists.getD (listKey part c) []).length) →
      ∃ t d, exec i s = .next t ∧ ResolvesAll part xs (decBegin s p (1 + (bindsOf i).length)) d
        ∧ Entered s t part port i true d { p with spec := d.ctx } 0

/-- 01 R16, R18, R19, 04 R107, 05 R112, R118, R124, R125, 06 R151, R152, 08 R187: what the events of a gang do once they
are due: a producer's values arrive, lanes exit, sleepers wake, blocked gangs leave the active set, a quad splits, claims
are granted, credited or reported as a deadlock, and a rendezvous stalls. -/
def Obligations.GangEvents : Prop :=
  (∀ (s : State) (gid id : Nat) (g : Gang) (w : Wg) (p : Producer), Resident s gid g w →
    g.prods.find? (fun q => q.id = id) = some p → p.ready = true → (p.dests.map (·.key)).Nodup →
    (∀ q ∈ g.prods, q.id ≠ id → ∀ d ∈ p.dests, ∀ e ∈ q.dests, d.key ≠ e.key) → (∀ x ∈ g.waits, x.kind ≠ .operand) →
    ∃ t h, exec (.producerWriteback gid id) s = .next t ∧ GangOnly s t gid h
      ∧ h = { g with vr := h.vr, sr := h.sr, poison := h.poison, empty := h.empty
                     prods := g.prods.filter fun q => q.id != id, fpstat := g.fpstat ||| p.flags.setWidth 64 }
      ∧ (∀ k, k ∈ h.empty ↔ k ∈ g.empty ∧ ∀ d ∈ p.dests, d.key ≠ k)
      ∧ (∀ d ∈ p.dests, ∀ l r, l < 32 → r < 256 → d.key = vkey l r → g.laneStatus l ≠ 0 → h.v l r = d.val.setWidth 32)
      ∧ (∀ d ∈ p.dests, ∀ n, d.key = skey n → h.s n = d.val)
      ∧ (∀ l r, l < 32 → r < 256 → (∀ d ∈ p.dests, d.key ≠ vkey l r) → h.v l r = g.v l r)
      ∧ ∀ n, (∀ d ∈ p.dests, d.key ≠ skey n) → h.s n = g.s n) ∧
  (∀ (s : State) (gid : Nat) (g : Gang) (w : Wg) (x : Wait), Resident s gid g w → s.absentAcc = none →
    w.gangs = [gid] → w.bars = [] → w.groupSize = 0 → w.binGang = false → g.waits = [x] → x.kind = .exit → x.lanes ≠ 0 →
    (∀ k ∈ g.empty, k < 8192 → x.lanes.getLsbD (k / 256) = false) → g.liveMask &&& ~~~x.lanes ≠ 0 →
    ∃ t h, exec (.laneExited gid) s = .next t ∧ t.gangs.find? gid = some h
      ∧ (∀ j, j ≠ gid → t.gangs.find? j = s.gangs.find? j) ∧ h.waits = []
      ∧ (∀ l, l < 32 → h.laneStatus l = if x.lanes.getLsbD l then 2 else g.laneStatus l)
      ∧ h.pcs = g.pcs ∧ h.vr = g.vr ∧ h.pr = g.pr ∧ h.sr = g.sr ∧ h.fpstat = g.fpstat ∧ t.mem = s.mem ∧ t.vmem = s.vmem) ∧
  (∀ (s : State) (gid : Nat) (g : Gang) (w : Wg), Resident s gid g w →
    let due (x : Wait) : Bool := match x.kind with | .sleep d => d ≤ s.fabtime.toNat | _ => false
    (∃ x ∈ g.waits, due x = true ∧ x.lanes ≠ 0) →
    ∃ t h, exec (.sleepWake gid) s = .next t ∧ GangOnly s t gid h
      ∧ h = { g with waits := g.waits.filter (fun x => !due x), age := h.age }
      ∧ ∀ x ∈ g.waits, due x = true → ∀ l, l < 32 → x.lanes.getLsbD l = true → h.age.getD l 0 = 0) ∧
  (∀ (s : State) (pid : Nat), s.gangs.wf = true →
    let out (g : Gang) : Prop := (g.eligible = 0 ∨ g.parked = true) ∧ (16 ≤ g.blocked ∨ g.sleeps = true)
    ∃ t, exec (.activeSetRemove pid) s = .next t ∧ t = { s with gangs := t.gangs }
      ∧ (∀ j, (t.gangs.find? j).map (fun q => { q with active := false })
          = (s.gangs.find? j).map fun q => { q with active := false })
      ∧ ∀ j g w, Resident s j g w → w.pid = pid → g.active = true →
          ∃ h, t.gangs.find? j = some h ∧ (h.active = false ↔ out g)) ∧
  (∀ (s : State) (gid q slot : Nat) (rest : List Nat) (g : Gang) (w : Wg), Resident s gid g w → q < 8 →
    s.splitN w.pid ≠ 0 → s.splitN w.pid ≤ g.splitCnt.getD q 0 → s.freeSlots w.pid 15 = slot :: rest → g.slots.length < 8 →
    (∃ k, 1 ≤ k ∧ k < 8 ∧ g.slots.find? k = none) →
    (∃ l, l < 32 ∧ g.isLive l = true ∧ g.unit l = g.unit (4 * q) ∧ l / 4 ≠ q) →
    ∃ t h k, exec (.quadSplit gid q) s = .next t ∧ GangOnly s t gid h ∧ 1 ≤ k ∧ k < 8 ∧ g.slots.find? k = none
      ∧ h = { g with unitOf := h.unitOf, slots := g.slots.set k slot, splitCnt := g.splitCnt.put 0 q 0 }
      ∧ ∀ l, l < 32 → h.unit l = if l / 4 = q then k else g.unit l) ∧
  (∀ (s : State) (pid o gid n : Nat) (x : Wait) (rest : List (Nat × Nat × Wait × Nat)) (g : Gang),
    s.claims pid = (o, gid, x, n) :: rest → s.gangs.find? gid = some g → n ≤ s.xfree pid →
    ∃ t h, exec (.xclaimGrant pid) s = .next t ∧ GangOnly s t gid h ∧ h.xcount = g.xcount + n ∧ Advanced g h x.lanes
      ∧ h.waits = g.waits.filter (fun y => y.id != x.id)
      ∧ (∀ l r, l < 32 → r < 256 → h.v l r = if g.base + g.xcount ≤ r ∧ r < g.base + g.xcount + n then 0 else g.v l r)
      ∧ h.sr = g.sr ∧ h.pr = g.pr) ∧
  (∀ (s : State) (gid n : Nat) (g : Gang) (w : Wg) (x : Wait), Resident s gid g w → g.waits = [x] → x.kind = .xgive n →
    (∀ k ∈ g.empty, k < 8192 → ¬(g.base + g.xcount - n ≤ k % 256 ∧ k % 256 < g.base + g.xcount)) →
    ∃ t h, exec (.xgiveCredit gid) s = .next t ∧ GangOnly s t gid h ∧ h.xcount = g.xcount - n ∧ Advanced g h x.lanes
      ∧ h.waits = [] ∧ h.sr = g.sr ∧ h.pr = g.pr
      ∧ ∀ l r, l < 32 → r < 256 → ¬(g.base + g.xcount - n ≤ r ∧ r < g.base + g.xcount - n + n) → h.v l r = g.v l r) ∧
  (∀ (s : State) (gid n o : Nat) (g : Gang) (w : Wg) (x : Wait), Resident s gid g w → s.wgs.wf = true →
    s.partGangs w.pid = [(gid, g)] → w.gangs = [gid] → 1024 ≤ (s.cpart w.pid).deadlock →
    (∀ j v, s.wgs.find? j = some v → v.pid = w.pid → v.preempt = false) →
    g.waits = [x] → x.kind = .xclaim n o → x.lanes = g.liveMask → g.liveMask ≠ 0 → HasHandler g →
    ∃ t h, exec (.regDeadlockReport w.pid) s = .next t ∧ t.gangs.find? gid = some h
      ∧ (∀ j, j ≠ gid → t.gangs.find? j = s.gangs.find? j) ∧ h.handler = true ∧ h.trapped = g.liveMask ∧ h.waits = []
      ∧ h.trapcause = BitVec.ofNat 64 (0x0A + 256 * lowLane g.liveMask) ∧ h.trappc = (g.pcOf (lowLane g.liveMask)).setWidth 64
      ∧ h.trapaddr = BitVec.ofNat 64 (n % 2 ^ 16 + 2 ^ 16 * (s.xfree w.pid % 2 ^ 16))
      ∧ (∀ l, l < 32 → g.liveMask.getLsbD l = true → h.pcOf l = g.trapbase.setWidth 57 &&& ~~~(15 : PCAddr))
      ∧ (t.cpart w.pid).deadlock = 0 ∧ KeptV g h ∧ KeptS g h ∧ KeptP g h ∧ KeptF g h ∧ t.mem = s.mem) ∧
  (∀ (s : State) (gid pc : Nat) (g : Gang) (w : Wg), Resident s gid g w →
    let lim := fld (s.cregNow (.core (coreOf w.pid)) (0x120 + 8 * (w.pid % 4))) 0 32
    let os := g.qops.filter fun o => o.phase = .rendezvous && o.pc.toNat = pc
    let lanes : LaneMask := os.foldl (fun m o => m ||| o.arrived) 0
    lim ≠ 0 → lim ≤ g.rdvCnt.getD pc 0 → os ≠ [] → HasHandler g →
    ∃ t h, exec (.rdvStallWatchdog gid pc) s = .next t ∧ t.gangs.find? gid = some h
      ∧ (∀ j, j ≠ gid → t.gangs.find? j = s.gangs.find? j) ∧ h.handler = true ∧ h.trapped = lanes
      ∧ h.trapcause = BitVec.ofNat 64 (0x0B + 256 * lowLane lanes) ∧ h.trappc = BitVec.ofNat 64 pc
      ∧ h.trapaddr = BitVec.ofNat 64 (os.foldl (fun m o => m ||| 2 ^ o.q) 0)
      ∧ (∀ l, l < 32 → lanes.getLsbD l = true → h.pcOf l = g.trapbase.setWidth 57 &&& ~~~(15 : PCAddr))
      ∧ KeptV g h ∧ KeptS g h ∧ KeptP g h ∧ KeptF g h ∧ t.mem = s.mem)

/-- 01 R14, 05 R111, R122, R130, R131, R139, R140, 12 R274, 17 R342, R345 to R347: what the events of scheduling do: a
workgroup is admitted where the first in order has not to ask for room, gives way, is saved and is restored; a spawn bin
becomes READY and launches; a starter's wave. When each is due, and where firmware keeps a saved context, is the model's
choice (log 1). -/
def Obligations.SchedulingEvents : Prop :=
  (∀ (s : State) (part pid lid n : Nat) (L : Launch), s.partStopped part = false → clusterOf pid ∈ s.partClusters part →
    s.fwUp 1 = true → s.pickWaiting (s.waitOrder part) (none, [], []) = some (lid, n) →
    s.launches.find? lid = some L → L.clus < 2 → s.admits pid L.need = true → L.slotPlan = 0 → L.lanes ≤ 32 →
    (∀ x, (s.waitOrder part).head? = some x → ∀ M, s.launches.find? x.1 = some M →
      s.fitsSome M = true ∨ s.latOf part M.cls = 0) → s.absentAcc = none →
    ∃ t v, exec (.admission part pid) s = .next t ∧ t.wgs.find? s.nextWg = some v
      ∧ v.launch = lid ∧ v.wgid = n ∧ v.pid = pid ∧ v.tenant = L.tenant ∧ v.cls = L.cls ∧ v.status = .resident
      ∧ v.count = L.gangs ∧ v.scrLen = L.scrLen ∧ v.scr = [] ∧ v.gr = [] ∧ v.bars = []
      ∧ v.gangs = (List.range L.gangs).map (s.nextGang + ·)
      ∧ t.launches.find? lid = some { L with waiting := L.waiting.del n }
      ∧ (∀ j, j ≠ s.nextWg → t.wgs.find? j = s.wgs.find? j) ∧ t.mem = s.mem ∧ t.vmem = s.vmem
      ∧ ∀ i, i < L.gangs → ∃ h, t.gangs.find? (s.nextGang + i) = some h ∧ h.wg = s.nextWg ∧ h.idx = i ∧ h.n = L.lanes
          ∧ h.base = L.base ∧ h.xcount = 0 ∧ h.xlimit = L.ext ∧ h.codemap = L.codemap ∧ h.handler = false
          ∧ (∀ l, l < 32 → h.laneStatus l = if l < L.lanes then 1 else 0)
          ∧ (∀ l, l < L.lanes → h.pcOf l = BitVec.ofNat 57 (L.entry / 16 * 16))
          ∧ (∀ k, h.s k = L.sregs.getD k 0) ∧ (∀ l r, h.v l r = 0) ∧ (∀ l k, h.p l k = (k == 0)) ∧ h.fpstat = 0
          ∧ h.empty = [] ∧ h.poison = [] ∧ h.waits = []) ∧
  (∀ (s : State) (id : Nat) (w : Wg) (x : Nat × Nat) (L : Launch), s.wgs.find? id = some w → w.status = .resident →
    w.leaving = false → w.groupSize = 0 → s.fwUp 1 = true →
    let slice := fld (s.psched w.pid) 16 32
    let part := s.tenantPart w.tenant
    slice ≠ 0 → slice ≤ w.slice → (s.waitOrder part).find? (fun y =>
      match s.launches.find? y.1 with | some M => w.cls ≤ M.cls | none => false) = some x → s.launches.find? x.1 = some L →
    let lat := s.latOf part L.cls
    ∃ t, exec (.timeSliceEnd id) s = .next t ∧
      match chooseMethod lat (s.drainEst w) (s.flushEst w) (s.saveEst w) (w.restartable && w.noWrite) with
      | .drain => t.wgs.find? id = some { w with
          drainBy := some (s.fabtime.toNat + s.drainEst w + lat), migrate := none, preempt := false
          heldSlots := KSet.addAll [] ((s.wgGangs w).flatMap fun g => g.2.slots.vals) } ∧ t = { s with wgs := t.wgs }
      | .flush => (∀ e ∈ s.wgGangs w, e.2.cancel = none) → w.cancelled = false → w.unitCancelled = false →
          ∀ M, s.launches.find? w.launch = some M → M.cancelled = false → M.graphCancelled = false →
            t.wgs.find? id = none ∧ (∀ e ∈ s.wgGangs w, t.gangs.find? e.1 = none)
            ∧ t.launches.find? w.launch = some { M with waiting := M.waiting.add w.wgid }
      | .save => t.wgs.find? id = some { w with preempt := true, migrate := none } ∧ t = { s with wgs := t.wgs }) ∧
  (∀ (s : State) (id d : Nat) (w : Wg), s.wgs.find? id = some w → w.groupSize = 0 → w.drainBy = some d →
    d ≤ s.fabtime.toNat → s.fwUp 1 = true →
    ∃ t, exec (.drainTimeout id) s = .next t ∧ t = { s with wgs := t.wgs }
      ∧ ∀ j, t.wgs.find? j = if j = id then some { w with drainBy := none, heldSlots := [], preempt := true }
          else s.wgs.find? j) ∧
  (∀ (s : State) (id addr : Nat) (w : Wg), s.wgs.find? id = some w → w.status = .resident → w.preempt = true →
    w.groupSize = 0 → addr % 128 = 0 → s.fwUp 1 = true → s.saveReady (id, w) = true → Drained s →
    s.absentAcc = none → w.gangs.Nodup → (∀ e ∈ s.wgGangs w, e.2.cancel = none) → (∀ o ∈ s.vops, o.gang ∉ w.gangs) →
    let gs := (s.wgGangs w).map fun e => (e.1, e.2.unqueue.settle)
    let body := w.areaHead (gangOffsets w gs) ++ gs.flatMap fun e => e.2.areaBytes
    s.paOk addr = true → s.paOk (addr + body.length - 1) = true →
    ∃ t, exec (.contextSave id addr) s = .next t
      ∧ t.wgs.find? id = some { w with status := .saved, ctxAddr := addr, preempt := false, drainBy := none, heldSlots := []
                                       plan := [], links := [], slots := [] }
      ∧ (∀ i, i < body.length → t.homeByte (.mem plainKey) (addr + i) = body.getD i 0)
      ∧ (∀ j, j ≠ id → t.wgs.find? j = s.wgs.find? j) ∧ t.vmem = s.vmem) ∧
  (∀ (s : State) (id pid : Nat) (w : Wg), s.wgs.find? id = some w → w.status = .saved → w.groupSize = 0 → w.migrate = none →
    w.dying = false →
    let part := s.tenantPart w.tenant
    let gs := s.wgGangs w
    let a := w.ctxAddr
    let off (g : Gang) : Nat := a + s.areaNat (a + 0x200 + 8 * g.idx) 8
    clusterOf pid ∈ s.partClusters part → s.partStopped part = false → s.fwUp 1 = true → s.absentAcc = none →
    s.meets pid (s.savedNeed w) = true → s.wgAreaOk a = true → (∀ e ∈ gs, s.gangAreaOk (off e.2) = true) → w.gangs.Nodup →
    ∃ t v, exec (.contextRestore id pid) s = .next t ∧ t.wgs.find? id = some v ∧ v.status = .resident ∧ v.pid = pid
      ∧ v.slice = 0 ∧ v.gangs = w.gangs ∧ (∀ r, r < 32 → v.gr.getD r 0 = BitVec.ofNat 64 (s.areaNat (a + 0x100 + 8 * r) 8))
      ∧ (∀ i, i < w.scrLen → v.scr.getD i 0 = s.memByteAs 0 (a + 0x400 + roundUp (2 * (w.tileW * w.tileH)) 128 + i))
      ∧ (∀ e ∈ gs, ∃ h, t.gangs.find? e.1 = some h ∧
          let f (o n : Nat) : Nat := s.areaNat (off e.2 + o) n
          h.status = BitVec.ofNat 64 (f 0x08 8) ∧ h.base = f 4 2 ∧ h.xcount = f 6 2
          ∧ h.fpstat = BitVec.ofNat 64 (f 0x20 8) ∧ h.issuecnt = BitVec.ofNat 64 (f 0x28 8)
          ∧ h.codemap = BitVec.ofNat 64 (f 0x30 8) ∧ h.trapbase = BitVec.ofNat 64 (f 0x40 8)
          ∧ h.trapcause = BitVec.ofNat 64 (f 0x48 8) ∧ h.trappc = BitVec.ofNat 64 (f 0x50 8)
          ∧ h.trapaddr = BitVec.ofNat 64 (f 0x58 8) ∧ h.pr = BitVec.ofNat 256 (f 0x80 32)
          ∧ (∀ n, n < 64 → h.s n = BitVec.ofNat 64 (f (0x200 + 8 * n) 8))
          ∧ (∀ l r, l < 32 → r < 256 → r < h.base + h.xcount →
              h.vr.getD (vkey l r) 0 = BitVec.ofNat 32 (f (0x800 + 128 * r + 4 * l) 4))
          ∧ ∀ l, l < 32 → (∀ x ∈ e.2.waits, x.kind ≠ .starter) → h.pcOf l = BitVec.ofNat 57 (f (0x100 + 8 * l) 8))
      ∧ t.mem = s.mem ∧ t.vmem = s.vmem) ∧
  (∀ (s : State) (pid bin : Nat) (b : SpawnBin), (s.cpart pid).bins.find? bin = some b → b.state = .filling →
    s.binTime pid ≤ b.timer →
    ∃ t, exec (.binTimerExpire pid bin) s = .next t ∧ t = { s with cparts := t.cparts }
      ∧ (∀ j, j ≠ pid → t.cparts.find? j = s.cparts.find? j)
      ∧ t.cpart pid = { s.cpart pid with
          bins := (s.cpart pid).bins.set bin { b with state := .ready }, readyOrder := (s.cpart pid).readyOrder ++ [bin] }) ∧
  (∀ (s : State) (pid b slot : Nat) (rest slots : List Nat) (bin : SpawnBin) (r : SpawnRec) (rs : List SpawnRec) (L : Launch)
    (e : SpawnEntry), (s.cpart pid).readyOrder = b :: rest → (s.cpart pid).bins.find? b = some bin → bin.recs = r :: rs →
    bin.recs.length ≤ 32 → s.freeSlots pid 16 = slot :: slots → s.launches.find? r.launch = some L →
    s.partStopped L.part = false → L.spawns.find? (fun x => x.addr = r.entry) = some e → e.base + s.poolUsed pid ≤ 1024 →
    s.ringCount pid = 0 → s.absentAcc = none →
    ∃ t v h, exec (.binLaunch pid) s = .next t ∧ (t.cpart pid).bins.find? b = none ∧ (t.cpart pid).readyOrder = rest
      ∧ t.wgs.find? s.nextWg = some v ∧ v.binGang = true ∧ v.launch = r.launch ∧ v.tenant = L.tenant ∧ v.cls = r.cls
      ∧ v.pid = pid ∧ v.gangs = [s.nextGang] ∧ t.gangs.find? s.nextGang = some h ∧ h.base = e.base ∧ h.xlimit = e.ext
      ∧ h.slots = [(0, slot)] ∧ (∀ l, l < 32 → h.laneStatus l = if l < bin.recs.length then 1 else 0)
      ∧ (∀ l, l < bin.recs.length → h.pcOf l = BitVec.ofNat 57 (r.entry / 16 * 16))
      ∧ (∀ l x, bin.recs[l]? = some x → h.v l 0 = x.w0 ∧ h.v l 1 = x.w1 ∧ h.v l 2 = x.w2 ∧ h.v l 3 = x.w3)
      ∧ t.launches.find? r.launch = some { L with graphLive := L.graphLive + 1 } ∧ t.mem = s.mem) ∧
  (∀ (s : State) (cl : Nat), (s.starter cl).queue ≠ [] → (s.starter cl).next ≤ s.cycle → 1 ≤ s.waveOf cl →
    (∀ e ∈ (s.starter cl).queue, e.after = none) →
    let q := (s.starter cl).queue
    let n := s.waveOf cl
    ∃ t, exec (.starterWave cl) s = .next t ∧ t = { s with gangs := t.gangs, starters := t.starters }
      ∧ t.starter cl = { queue := q.drop n, next := s.cycle + s.gapOf cl + 1, last := s.cycle }
      ∧ ∀ j, (t.gangs.find? j).map (fun h => (h.waits, { h with waits := [], age := [] }))
          = (s.gangs.find? j).map fun g =>
              (if (q.take n).any (fun e => e.gang = j) then g.waits.filter (fun x => !(decide (x.kind = .starter))) else g.waits,
                { g with waits := [], age := [] }))

/-- 05 R126, 06 R156, 07 R163, R183, R184, 08 R194, R198, 12 R266, 15 R301: what the events of the units do: a lathe's
granted step, the array's passes and blocks, groups woken by a monitor or by the parked poll, a queue's copy, buffer
drains, and a completed engine command. When each is due (log 1), that a buffered line reaches its home in one step (log
12), and that a pass starts after 2 cycles (log 63), is the model's choice. -/
def Obligations.UnitEvents : Prop :=
  (∀ (s : State) (core lathe k : Nat) (m : MCtx) (M : Macro) (g : Gang), lathe < 2 → s.latheReqs core = [(k, m, M)] →
    m.op.act &&& ~~~m.op.stopped ≠ 0 → M.gangKind = false →
    s.latheBusy.find? (2 * core + (1 - lathe)) ≠ some (m.gid, m.op.wait) →
    let s0 := { s with lathes := s.lathes.put 0 (2 * core + lathe) (k + 1)
                       latheBusy := s.latheBusy.set (2 * core + lathe) (m.gid, m.op.wait) }
    let r := (m.readyLanes M s0).foldl (fun (a : State × List (Nat × StepEnd)) l =>
      if M.ready a.1 m l = true then
        let x := M.step a.1 m l
        (x.1, a.2 ++ [(l, x.2)])
      else a) (s0, [])
    let ls := r.2.map (·.1)
    (∀ e ∈ r.2, e.2 = .run) → r.1.absentAcc = none → r.1.gangs.find? m.gid = some g → r.1.stopDue g = false →
    ∃ t h, exec (.latheStep core lathe) s = .next t ∧ t.gangs.find? m.gid = some h
      ∧ (∀ j, j ≠ m.gid → t.gangs.find? j = r.1.gangs.find? j)
      ∧ (∀ l, l < 32 → l ∈ ls → g.laneStatus l ≠ 0 →
          (h.v l m.mw.vs.toNat).toNat = (g.v l m.mw.vs.toNat).toNat / 4096 * 4096 + 1)
      ∧ h.mops = g.mops.map (fun o =>
          if o.wait = m.op.wait then { o with stopped := m.op.stopped, began := m.op.began ||| maskWhere (ls.contains ·) } else o)
      ∧ h.pcs = g.pcs ∧ t.lathes = r.1.lathes) ∧
  (∀ (s : State) (core lathe k : Nat) (m : MCtx) (M : Macro) (g : Gang), lathe < 2 → s.latheReqs core = [(k, m, M)] →
    m.op.act &&& ~~~m.op.stopped ≠ 0 → M.gangKind = true → m.lead ∈ lanesOf m.op.act →
    s.latheBusy.find? (2 * core + (1 - lathe)) ≠ some (m.gid, m.op.wait) →
    let s0 := { s with lathes := s.lathes.put 0 (2 * core + lathe) (k + 1)
                       latheBusy := s.latheBusy.set (2 * core + lathe) (m.gid, m.op.wait) }
    let x := M.step s0 m m.lead
    M.ready s0 m m.lead = true → x.2 = .run → x.1.absentAcc = none → x.1.gangs.find? m.gid = some g → x.1.stopDue g = false →
    (∀ l, m.op.act.getLsbD l = true → g.laneStatus l ≠ 0) → 1 ≤ M.state → m.mw.vs.toNat + M.state ≤ 256 →
    ∃ t h, exec (.latheStep core lathe) s = .next t ∧ t.gangs.find? m.gid = some h
      ∧ (∀ j, j ≠ m.gid → t.gangs.find? j = x.1.gangs.find? j)
      ∧ (∀ l, m.op.act.getLsbD l = true →
          (h.v l m.mw.vs.toNat).toNat = (g.v m.lead m.mw.vs.toNat).toNat / 4096 * 4096 + 1
          ∧ ∀ j, 1 ≤ j → j < M.state → h.v l (m.mw.vs.toNat + j) = g.v m.lead (m.mw.vs.toNat + j))
      ∧ h.pcs = g.pcs ∧ t.lathes = x.1.lathes) ∧
  (∀ (s : State) (pid gid : Nat) (g : Gang) (w : Wg) (o : QOp), Resident s gid g w → s.partGangs pid = [(gid, g)] →
    g.qops = [o] → o.phase = .queued → (s.cpart pid).pass = [] → o.next < o.k / 8 → s.stopDue g = false →
    s.absentAcc = none → max o.cycle (s.cpart pid).array + 2 ≤ s.cycle →
    ∃ t h, exec (.matrixPassStart pid) s = .next t ∧ t = { s with gangs := t.gangs, cparts := t.cparts }
      ∧ t.gangs.find? gid = some h ∧ h = { g with qops := [{ o with phase := .running }] }
      ∧ (∀ j, j ≠ gid → t.gangs.find? j = s.gangs.find? j) ∧ (t.cpart pid).pass = [(gid, o.wait)]) ∧
  (∀ (s : State) (pid gid : Nat) (g : Gang) (o : QOp) (m : MInfo) (D : Nat → Gang), s.gangs.find? gid = some g →
    g.qops = [o] → (s.cpart pid).pass = [(gid, o.wait)] → mInfo o.ins = some m → m.kind ≠ 2 → D 0 = g →
    (∀ i, i < o.blocks → ∃ d f, mmaBlock s g.wg (D i) m { o with next := o.next + i } = .ok (d, f)
      ∧ D (i + 1) = { d.raise f with qops := [{ o with next := o.next + i + 1 }] }) →
    s.stopDue g = false → s.absentAcc = none → o.next + o.blocks < o.k / 8 →
    ∃ t h, exec (.matrixBlock pid) s = .next t ∧ t = { s with gangs := t.gangs, cparts := t.cparts }
      ∧ t.gangs.find? gid = some h ∧ h = D o.blocks
      ∧ h.qops = [{ o with next := o.next + o.blocks }] ∧ h.pcs = g.pcs ∧ h.sr = g.sr ∧ h.pr = g.pr
      ∧ (∀ j, j ≠ gid → t.gangs.find? j = s.gangs.find? j) ∧ (t.cpart pid).pass = [(gid, o.wait)]) ∧
  (∀ (s : State) (pid gid : Nat) (g : Gang) (o : QOp) (m : MInfo) (v : Wg) (bs : List (Nat × Byte)) (f : Flg),
    s.gangs.find? gid = some g → s.wgs.find? g.wg = some v →
    g.qops = [o] → (s.cpart pid).pass = [(gid, o.wait)] → mInfo o.ins = some m → m.kind = 2 →
    tlpreBlock s g.wg g m o = .ok (bs, f) → s.stopDue g = false → s.absentAcc = none → o.next + 1 < o.k / 8 →
    ∃ t h, exec (.matrixBlock pid) s = .next t ∧ t.gangs.find? gid = some h
      ∧ (∀ a, t.scrByte g.wg a = match bs.reverse.find? (fun e => e.1 == a) with
          | some e => e.2
          | none => s.scrByte g.wg a)
      ∧ (∀ j a, j ≠ g.wg → t.scrByte j a = s.scrByte j a) ∧ t.mem = s.mem ∧ t.vmem = s.vmem
      ∧ h.vr = g.vr ∧ h.fpstat = g.fpstat ||| f.setWidth 64 ∧ h.qops = [{ o with next := o.next + 1 }]
      ∧ h.pcs = g.pcs ∧ h.sr = g.sr ∧ h.pr = g.pr ∧ (t.cpart pid).pass = [(gid, o.wait)]) ∧
  (∀ (s : State) (gid : Nat) (g : Gang) (w : Wg) (x : Wait) (r : WaitRead) (p : Loc), Resident s gid g w →
    s.absentAcc = none → g.wait? x.id = some x → g.parked = false → r.pfx = none → s.waitPlace w r = .ok p → Here s p →
    s.loadPoisoned (coreOf w.pid) false p r.n = false → s.waitHolds (coreOf w.pid) { r with loc := p } = true →
    let moved (t : State) : Prop := ∃ h, t.gangs.find? gid = some h ∧ h.waits = g.waits.filter (fun y => !(decide (y.id = x.id)))
      ∧ Advanced g h x.lanes ∧ KeptV g h ∧ KeptP g h ∧ KeptS g h ∧ KeptF g h
      ∧ (∀ j, j ≠ gid → t.gangs.find? j = s.gangs.find? j) ∧ t.mem = s.mem ∧ t.vmem = s.vmem
    (∀ p n, x.kind = .waitc r p n true → ∃ t, exec (.waitcWake gid x.id) s = .next t ∧ moved t) ∧
    (∀ n wk, x.kind = .waitc r true n wk → 4096 ≤ n → ∃ t, exec (.parkedPoll gid x.id) s = .next t ∧ moved t)) ∧
  (∀ (s : State) (gid q i vd sd n : Nat) (g : Gang) (w : Wg) (x : Wait) (ls : LaneMask) (pk : Bool) (p : Loc) (pr : Producer),
    Resident s gid g w → s.absentAcc = none → g.waits = [x] → x.kind = .qpop q i vd sd ls pk n true →
    g.prods = [pr] → pr.id = x.id - 1 → (pr.dests.map (·.key)).Nodup → g.parked = false →
    let core := coreOf w.pid
    s.seqReady w.pid w.tenant q i = true → s.translate (tlbUnit w.pid) w.tenant .read (s.qslotVa q i) = .ok p → Here s p →
    (∃ y, s.translate (tlbUnit w.pid) w.tenant .read (s.qseqVa q i) = .ok y ∧ Here s y) →
    (s.creg .hub (qreg q 0x28)).toNat ≠ i → (s.creg .hub (qreg q 0x28)).toNat ∉ s.qcopied.getD q [] →
    ∃ t h, exec (.qpopCopy gid x.id) s = .next t ∧ t.gangs.find? gid = some h ∧ h.waits = [] ∧ h.prods = []
      ∧ Advanced g h x.lanes
      ∧ (∀ d ∈ pr.dests, d.key = skey sd → h.s sd = BitVec.ofNat 64 i)
      ∧ (∀ d ∈ pr.dests, ∀ l k, l < 32 → vd + k < 256 → d.key = vkey l (vd + k) → ls.getLsbD l = true →
          32 * k + l < s.qsize q / 4 → g.laneStatus l ≠ 0 →
          h.v l (vd + k) = BitVec.ofNat 32 (s.loadNat core false { p with addr := p.addr + 4 * (32 * k + l) } 4))
      ∧ t.mem = s.mem ∧ t.vmem = s.vmem) ∧
  (∀ (s : State) (core line : Nat) (b : BufLine), (s.wcb.getD core []).find? line = some b →
    (s.cpt.getD (core / 8) []).find? line = none → s.absentAcc = none →
    let done (t : State) : Prop := ((t.wcb.getD core []).find? line).isNone = true
      ∧ ((t.cpt.getD (core / 8) []).find? line).isNone = true
      ∧ (∀ o, o < 128 → t.homeByte (.mem b.key) (128 * line + o)
          = (b.bytes.find? o).getD (s.homeByte (.mem b.key) (128 * line + o)))
      ∧ (∀ a, a / 128 ≠ line → t.memByte a = s.memByte a) ∧ t.vmem = s.vmem
    (∀ e ∈ b.bytes, e.1 < 128) → b.bytes.wf = true →
    (∃ t, exec (.wcbLineDrain core line) s = .next t ∧ done t) ∧
    (b.since + 16384 ≤ s.cycle → ∃ t, exec (.wcbDrainTimeout core line) s = .next t ∧ done t)) ∧
  (∀ (s : State) (cl : Nat) (k : EngCmd) (g : Gang) (w : Wg), (s.engine cl).find? (fun e => e.id = k.id) = some k →
    s.engMayRun cl k = true → k.fault = none → k.moved = k.total → k.sig = none → k.rel = false → k.task = none →
    s.gangs.find? k.gang = some g → s.wgs.find? k.wg = some w → w.groupSize = 0 → s.absentAcc = none →
    (∀ e ∈ s.engine cl, e.gang = k.gang → e.counts = none) → s.peerWrites 0 k.id = false →
    ∃ t h, exec (.engComplete cl k.id) s = .next t ∧ t.engine cl = (s.engine cl).filter (fun e => e.id != k.id)
      ∧ t.gangs.find? k.gang = some h ∧ h.cmdDone = (g.cmdDone + 1) % 2 ^ 32 ∧ h.cmdFault = g.cmdFault % 2 ^ 32
      ∧ h.pcs = g.pcs ∧ h.vr = g.vr ∧ h.sr = g.sr ∧ t.mem = s.mem ∧ t.vmem = s.vmem)

/-- 03 R65, R71, 14 R295, R296, R297, R413: a fault of a page is replayed, held for the host, or becomes ACCESS; a TLB
invalidation leaves no entry of the page; an ECC error is counted, and a double one poisons; a word that cannot be fetched
or decoded traps. The unit number of an L2 slice, 1024 + its own, is the model's choice (log 68). -/
def Obligations.FaultEvents : Prop :=
  (∀ (s : State) (f : PageFault) (gid : Nat) (lanes : LaneMask) (pc : PCAddr) (g : Gang), s.faults = [f] →
    f.who = .gang gid lanes pc → s.gangs.find? gid = some g → g.mops = [] → (∀ x ∈ g.waits, x.popping = false) →
    s.absentAcc = none → s.fwUp 2 = true →
    let us := fld (s.creg (.part f.part) 0x8070) 0 32
    let replayed (t : State) : Prop := t = { s with faults := [], gangs := t.gangs }
      ∧ ∀ j, t.gangs.find? j = if j = gid then some { g with parked := false } else s.gangs.find? j
    let denied (t : State) : Prop := t.faults = [] ∧ t.mem = s.mem ∧ Denied t g gid lanes pc f.report
      ∧ ∀ j, j ≠ gid → t.gangs.find? j = s.gangs.find? j
    (f.held = none →
      (s.walkOk f = true → ∃ t, exec (.pageFaultService f.part 0) s = .next t ∧ replayed t) ∧
      (s.walkOk f = false → us = 0 → HasHandler g → ∃ t, exec (.pageFaultService f.part 0) s = .next t ∧ denied t) ∧
      (s.walkOk f = false → us ≠ 0 → ∃ t, exec (.pageFaultService f.part 0) s = .next t
        ∧ t = { s with faults := [{ f with held := some s.fabtime }], msix := t.msix }
        ∧ t.msix = (let v := s.creg .hub (tenantOff f.tenant 0x20)
            if fld v 16 5 = 0 then s.msix else s.msix ++ [(s.tenantPart f.tenant + 1, fld v 0 11)]))) ∧
    (∀ h, f.held = some h →
      (h.toNat + 1000 * us ≤ s.fabtime.toNat → HasHandler g → ∃ t, exec (.pfholdTimeout f.part) s = .next t ∧ denied t) ∧
      let page := fld f.va 16 41
      s.fwUp 0 = true →
      (s.walkOk f = true → ∃ t, exec (.pfrespReplay f.part f.tenant page) s = .next t ∧ replayed t) ∧
      (s.walkOk f = false → HasHandler g → ∃ t, exec (.pfrespReplay f.part f.tenant page) s = .next t ∧ denied t) ∧
      (HasHandler g → ∃ t, exec (.pfrespDeny f.part f.tenant page) s = .next t ∧ denied t))) ∧
  (∀ (s : State) (tenant page : Nat), s.fwUp 2 = true → s.peerQueued = false → Drained s → s.absentAcc = none →
    ∃ t, exec (.tlbInvalidate tenant page) s = .next t ∧ t = { s with tlb := t.tlb }
      ∧ ∀ e, e ∈ t.tlb ↔ e ∈ s.tlb ∧ tlbCovers tenant page e = false) ∧
  (∀ (s : State) (unit addr : Nat), unit < 384 →
    (exec (.eccError unit addr false) s = .next (s.setCreg (.slice unit) 0x110 (s.creg (.slice unit) 0x110 + 1))) ∧
    ∃ t, exec (.eccError unit addr true) s = .next t ∧ t.creg (.slice unit) 0x118 = s.creg (.slice unit) 0x118 + 1
      ∧ t.memPoison = s.memPoison.add (addr / 16) ∧ (s.fwUp 3 = true → t.errReports = s.errReports ++ [(unit, addr)])
      ∧ t.mem = s.mem ∧ t.gangs = s.gangs) ∧
  (∀ (s : State) (slice addr : Nat), slice < 384 →
    ∃ t, exec (.eccError (1024 + slice) addr true) s = .next t
      ∧ t.creg (.slice slice) 0x118 = s.creg (.slice slice) 0x118 + 1
      ∧ (∀ i, i < 8 → t.memPoison.contains (addr / 128 * 8 + i) = true) ∧ t.mem = s.mem ∧ t.gangs = s.gangs) ∧
  (∀ (s : State) (cu : Cur) (g : Gang) (wg : Wg) (x : BitVec 8) (addr : W64), Calm s cu g wg → cu.port = none → HasHandler g →
    (∃ t, exec (.illegalEncoding x) s = .next t
      ∧ Trapped s t cu g false 0x01 (cu.pc.setWidth 64) (x.setWidth 64)) ∧
    ∃ t, exec (.fetchFault addr) s = .next t ∧ Trapped s t cu g false 0x06 (cu.pc.setWidth 64) addr)

/-- 06 R158, 16 R314, R318, R319, R325 to R327, R329, 17 R352, 20 R402: what the events of a task window and the host's
control of it do. That the buffers of a stream that has ended stay bound until the next GO is read from 19 Table 144 (log
67). -/
def Obligations.WindowEvents : Prop :=
  (∀ (s : State) (part id : Nat) (x : WinTask) (w : TaskW), s.tasks.find? id = some x → x.part = part → x.st = .issued →
    s.taskHeld part id = false → (x.ins = .tcopy w ∨ x.ins = .tfill w) → x.cmds = [] → x.fault = none → x.poison = [] →
    x.lids = [] → s.absentAcc = none → s.partStopped part = false →
    ∃ t, exec (.taskComplete part id) s = .next t ∧ t = { s with tasks := t.tasks, l2 := t.l2 }
      ∧ ∀ j, t.tasks.find? j = if j = id then some { x with st := .completed } else s.tasks.find? j) ∧
  (∀ (s : State) (part port id : Nat) (x : WinTask), (s.port part port).state = .run → s.portTasks part port = [(id, x)] →
    s.tasks.find? id = some x → s.jobCancelled.contains (s.port part port).job = false → s.absentAcc = none → x.lids = [] →
    s.partStopped part = false →
    (x.st = .completed → (∀ w, x.ins ≠ .tend w) → (∀ w, x.ins ≠ .tgroup w) → (∀ h ∈ x.olds, h.1 < 32) →
      ∃ t, exec (.taskRetire part port) s = .next t ∧ t.tasks.find? id = none
        ∧ t.port part port = { s.port part port with
            arch := { x.after with group := (s.port part port).arch.group }, retired := (s.port part port).retired + 1 }
        ∧ (∀ c, c < 32 → t.freeList part c = s.freeList part c ++ ((x.olds.filter fun h => h.1 = c).map (·.2)))
        ∧ t.gangs = s.gangs ∧ t.mem = s.mem) ∧
    (∀ f, x.st = .faulted → x.fault = some f → x.cmds = [] → (s.port part port).spec.group = none →
      (s.port part port).arch.group = none →
      ∃ t, exec (.taskRetire part port) s = .next t ∧ t.tasks.find? id = none
        ∧ (let p := s.port part port
           let q := t.port part port
           q.state = .stoppedFault ∧ q.cause = f.cause ∧ q.sub = f.sub ∧ q.bind = f.bind ∧ q.detail = f.detail
            ∧ q.trappc = f.trappc ∧ q.tidx = p.retired.toNat % 2 ^ 32 ∧ q.imprecise = false ∧ q.arch = p.arch ∧ q.spec = p.arch
            ∧ q.retired = p.retired)
        ∧ t.gangs = s.gangs ∧ t.mem = s.mem)) ∧
  (∀ (s : State) (part port tenant : Nat), s.fwUp 0 = true →
    let p := s.port part port
    (p.state ≠ .run → p.state ≠ .halting → s.tenantValid tenant = true → s.tenantPart tenant = part →
      let arch : PortCtx := if p.ended = true then { p.arch with bufs := [] } else p.arch
      ∃ t, exec (.tctlGo part port tenant) s = .next t
        ∧ t = { s with ports := t.ports, nextPhase := s.nextPhase + 1, nextJob := s.nextJob + 1, freeLists := t.freeLists
                       faults := s.faults.filter fun f => !(f.who = FaultWho.decode part port) }
        ∧ t.port part port = { p with state := .run, tenant := tenant, cause := 0, sub := 0, bind := 0xF, imprecise := false
                                      tidx := 0, detail := 0, trappc := 0, arch := arch, spec := arch, stopDecode := false
                                      denied := none, ended := false, phaseId := s.nextPhase, job := s.nextJob }
        ∧ ((∀ b ∈ p.arch.bufs, b.2.cls < 32) → ∀ c, c < 32 → t.freeList part c = s.freeList part c
            ++ if p.ended = true then (p.arch.bufs.filter fun b => b.2.cls = c).map (·.2.handle) else [])
        ∧ ∀ k, k ≠ portKey part port → t.ports.find? k = s.ports.find? k) ∧
    (p.state = .run → ∃ t, exec (.tctlHalt part port) s = .next t ∧ t = { s with ports := t.ports }
      ∧ t.port part port = { p with state := .halting } ∧ ∀ k, k ≠ portKey part port → t.ports.find? k = s.ports.find? k)) ∧
  (∀ (s : State) (part : Nat) (v : W64), s.fwUp 0 = true → (s.handles.getD part []).length < 4096 →
    fld v 0 5 ≤ 16 → fld v 5 11 = 0 →
    ∃ t, exec (.freeadd part v) s = .next t ∧ t = { s with freeLists := t.freeLists, handles := t.handles }
      ∧ t.handles.getD part [] = s.handles.getD part [] ++ [(fld v 0 5, fld v 16 41 * 65536)]
      ∧ ∀ k, t.freeLists.getD k [] = if k = listKey part (fld v 0 5) then s.freeLists.getD k [] ++ [fld v 16 41 * 65536]
          else s.freeLists.getD k []) ∧
  (∀ (s : State) (part : Nat) (v : W64), exec (.wlimitWrite part v) s
    = .next (s.setCreg (.part part) 0x8000 (BitVec.ofNat 64 (max 1 (min 256 (fld v 0 9)))))) ∧
  (∀ (s : State) (part port id e : Nat) (x : WinTask) (w : TaskW) (g : PortGroup) (pg : PacerGroup) (m : PacerMember),
    s.tasks.find? id = some x → s.portTasks part port = [(id, x)] → x.ins = .tgroup w → x.pend = some g → x.joinAt = some e →
    x.st = .issued → x.stage = 1 → x.fault = none → e - 50000 + g.timeout ≤ s.fabtime.toNat → s.fwUp 4 = true →
    s.pacer.find? g.group = some pg → pg.members.find? s.pkg = some m →
    ∃ t, exec (.snapshotTimeout part port) s = .next t
      ∧ t.tasks.find? id = some { x with st := .faulted, fault := some (taskFault 0x0A 0 0xF 0) }
      ∧ t.pacer.find? g.group
          = some { pg with members := pg.members.upd s.pkg fun m =>
              { m with spans := m.spans.map fun y => (y.1, some (y.2.getD (s.fabtime.toNat + 50000))) } }) ∧
  (∀ (s : State) (lid : Nat) (L : Launch), s.fwUp 0 = true → s.launches.find? lid = some L →
    L.cancelled = false → L.graphCancelled = false → s.absentAcc = none →
    ∃ t M, exec (.hostCancel 1 lid 0 0) s = .next t ∧ t.launches.find? lid = some M ∧ M.waiting = [] ∧ M.cancelled = true
      ∧ ∀ j g w, s.gangs.find? j = some g → s.wgs.find? g.wg = some w → w.launch = lid → w.binGang = false → g.cancel = none →
          ∃ h, t.gangs.find? j = some h ∧ h.cancel = some 1) ∧
  ∀ (s : State) (q : Nat) (v : W32),
    let tail := (s.creg .hub (qreg q 0x30)).toNat
    let d := (v.toNat + 2 ^ 32 - tail) % 2 ^ 32
    let k (t : State) : W64 := t.creg .hub (qreg q 0x38)
    tail < 2 ^ 32 → s.tailSeen.find? q = none →
    ∃ t, exec (.qtailWrite q [v]) s = .next t ∧ t = { s with cregs := t.cregs, tailSeen := t.tailSeen }
      ∧ (0 < d ∧ d < 2 ^ 31 → t.creg .hub (qreg q 0x30) = v.setWidth 64 ∧ k t = k s)
      ∧ (d = 0 ∨ 2 ^ 31 ≤ d → t.creg .hub (qreg q 0x30) = s.creg .hub (qreg q 0x30) ∧ fld (k t) 0 32 = fld (k s) 0 32
          ∧ fld (k t) 32 32 = (fld (k s) 32 32 + 1) % 2 ^ 32)
      ∧ ∀ j, j ≠ cregKey .hub (qreg q 0x30) → j ≠ cregKey .hub (qreg q 0x38) → t.cregs.find? j = s.cregs.find? j

/-- 17 R356, 18 R357 to R359, R361 to R366, 12 R272, R273, 00 R6: what bring-up, resets, firmware cores, power, clocks,
displays and register writes do. Where an image ends and what restarts lose (log 15), when an encoder's ring has room (log
17), who reaches a register and which group takes PRIV (log 45), and when TICKS counts and PEINT is copied (log 46), is
the model's choice. -/
def Obligations.BootAndPowerEvents : Prop :=
  (∀ (s : State),
    let lost : State := { State.reset with part := s.part, freeCtr := s.freeCtr, agenda := s.agenda }
    (s.powered = false → exec .powerUp s = .next lost) ∧
    (exec .powerOff s = .next { lost with powered := false, fwCores := 0 }) ∧
    (s.powered = true → exec .coldReset s = .next lost) ∧
    (s.bootCode ≤ 4 → exec .bootctlGo s = .next { s with bootCode := 0x40 }) ∧
    (s.bootCode = 0x40 → exec .bootImageCheckDone s = .next
      (if imageFault s.staged = 0 then
        { s with bootCode := 0x80, fwCores := 0xFF, image := s.staged, secver := leNat ((s.staged.drop 4).take 4)
                 fwver := leNat ((s.staged.drop 8).take 8)
                 fwMem := (List.range 8).foldl (fun m i => m.put [] i (imageSection s.staged i)) [] }
       else { s with bootCode := imageFault s.staged })) ∧
    (∀ mask, s.bootCode = 0x80 → s.mailStall = [] → ∃ t, exec (.bootctlRestart mask) s = .next t
      ∧ t = { s with
          fwCores := s.fwCores &&& ~~~mask, restarting := s.restarting ||| mask, mail := t.mail, fwMem := t.fwMem
          spdm := if mask.getLsbD 5 = true then State.reset.spdm else s.spdm }
      ∧ (∀ e, e ∈ t.mail ↔ e ∈ s.mail ∧ mask.getLsbD e.1 = false)
      ∧ ∀ i, i < 8 → t.fwMem.getD i [] = if mask.getLsbD i = true then imageSection s.image i else s.fwMem.getD i []) ∧
    (∀ core, core < 8 → s.absentAcc = none → ∀ t, exec (.fwHeartbeat core) s = .next t →
      (s.fwUp core = true → t.heart.getD core 0 = s.heart.getD core 0 + 1 ∧ t.fwCores = s.fwCores ∧ t.agenda = s.agenda
        ∧ t.deferred = s.deferred ∧ t.gangs = s.gangs ∧ t.mem = s.mem) ∧
      (s.fwCores.getLsbD core = false → s.restarting.getLsbD core = true → (∀ e ∈ s.mailStall, e.1 ≠ core) → s.terms = [] → t.fwUp core = true
        ∧ t.restarting.getLsbD core = false)) ∧
    (∀ core, core < 8 → s.fwUp core = true → s.absentAcc = none → ∃ t, exec (.fwHeartbeat core) s = .next t) ∧
    (∀ core, core < 8 → core ≠ 0 → s.fwUp core = false → s.restarting.getLsbD core = true → s.absentAcc = none → s.terms = [] →
      s.errWait = [] → s.fwWait = [] → s.fwUp 0 = false → ∃ t, exec (.fwHeartbeat core) s = .next t ∧ t.agenda = s.agenda ++ s.deferred
        ∧ t.deferred = [] ∧ t.gangs = s.gangs ∧ t.mem = s.mem) ∧
    (∀ core sender kind q pl, core < 8 → sender = 8 ∨ sender < 8 ∧ s.fwUp sender = true →
      let m : MailMsg := { sender := sender, kind := kind % 65536, seq := q, payload := pl.take 56 }
      ((s.mail.getD core []).length < 16 → ∃ t, exec (.mailboxWrite core sender kind q pl) s = .next t
        ∧ t = { s with mail := t.mail }
        ∧ ∀ j, t.mail.getD j [] = if j = core then s.mail.getD core [] ++ [m] else s.mail.getD j []) ∧
      (16 ≤ (s.mail.getD core []).length → (∃ t, exec (.mailboxWrite core sender kind q pl) s = .next t ∧ t.mail = s.mail
        ∧ if sender = 8 then t = { s with cregs := t.cregs }
            ∧ t.creg .hub (0x200F08 + 0x1000 * core) = s.creg .hub (0x200F08 + 0x1000 * core) + 1
          else t = { s with mailStall := s.mailStall ++ [(sender, core, m)] } ∧ t.fwUp sender = false))) ∧
    (∀ part decls image, part < 8 → s.fwUp 5 = true → s.tdi.getD part 0 = 0 → s.mcodeBusy part = false →
      ∃ t, exec (.microcodeLoad part decls image) s = .next t ∧ t = { s with microcode := t.microcode, mcodeImage := t.mcodeImage }
        ∧ if imageFault image = 0 then
            t.microcode.getD part [] = decls.filter (fun d => 0x40 ≤ d.entry && d.entry ≤ 0xFF) ∧ t.mcodeImage.getD part [] = image
          else t = s)) ∧
  (∀ (s : State), s.absentAcc = none → (∀ j g, s.gangs.find? j = some g → ∀ x ∈ g.waits, x.popping = false) →
    (∀ part, part < 8 → s.fwUp 3 = true → ∃ t, exec (.partitionReset part) s = .next t
      ∧ (∀ q, q < 4 → (t.port part q).state = .idle ∧ (t.port part q).retired = (s.port part q).retired)
      ∧ (∀ e ∈ t.tasks, e.2.part ≠ part) ∧ (∀ e ∈ t.wgs, s.tenantPart e.2.tenant ≠ part)
      ∧ (∀ c ∈ s.partClusters part, t.engines.find? c = none)) ∧
    ∃ t, exec .functionLevelReset s = .next t ∧ t.keyMat = [] ∧ t.chans = [] ∧ t.ideKeys = []
      ∧ (s.bootCode = 0x80 → s.mailStall = [] → t.fwCores = 0 ∧ t.restarting = 0xFF) ∧ ∀ k, k < 2048 → t.keyKind k = 0) ∧
  (∀ (s : State) (e : Nat),
    let ticks := lastN 10 (s.peakTicks ++ [e])
    let n := fld (s.creg .hub 0x300018) 0 5
    let p := fld (s.creg .hub 0x300000) 0 16 * 10000
    (∃ t, exec (.peakTick e) s = .next t ∧ t.peakTicks = ticks
      ∧ fld (t.creg .hub 0x300018) 0 5
          = (if 15 * p ≤ 16 * ticks.sum then max 4 (n - 2) else if 8 * ticks.sum < 7 * p then min 16 (n + 1) else n)
      ∧ fld (t.creg .hub 0x300018) 32 32 = (fld (s.creg .hub 0x300018) 32 32 + if n < 16 then 1 else 0) % 2 ^ 32
      ∧ t.gangs = s.gangs ∧ t.mem = s.mem) ∧
    (exec .intervalBoundary s = .next
      { s.setCreg .hub 0x300008 (BitVec.ofNat 64 (s.peakTicks.sum % 2 ^ 32)) with useBw := [], useEn := [] }) ∧
    ∀ temps, s.absentAcc = none →
      let total := (lastN 1000 (s.msTicks ++ [e])).sum
      let read := (temps.take (24 * s.dies)).map (· % 4096)
      let avg := fld (s.creg .hub 0x300000) 16 16 * 10 ^ 6
      let hot := fld (s.creg .hub 0x300020) 0 12
      let down := 31 * avg < 32 * total ∨ ∃ x ∈ read, hot ≤ x
      let up := 8 * total < 7 * avg ∧ ∀ x ∈ read, x + 80 ≤ hot
      let cut := if read.any (hot + 32 ≤ ·) then 200 else 100
      ∃ t, exec (.powerMsTick e temps) s = .next t
      ∧ t.msTicks = lastN 1000 (s.msTicks ++ [e]) ∧ t.creg .hub 0x300010 = BitVec.ofNat 64 (total % 2 ^ 48)
      ∧ (∀ c, c < temps.length → c < 24 * s.dies → t.creg .hub (0x300100 + 8 * c) = BitVec.ofNat 64 (temps.getD c 0 % 4096))
      ∧ t.gangs = s.gangs ∧ t.mem = s.mem
      ∧ (s.fwUp 4 = false ∨ ¬down ∧ ¬up → t.ownLimit = s.ownLimit ∧ t.pacerSeq = s.pacerSeq ∧ t.sent = s.sent ∧ t.links = s.links)
      ∧ (s.fwUp 4 = true → down ∨ up → (∀ x ∈ s.ownLimits, x.seq ≤ s.pacerSeq) →
          let l (k : Nat) : LimitAt := { seq := k, eff := s.fabtime.toNat + 50000, limit := t.ownLimit }
          (down → t.ownLimit = max 100 (s.ownLimit - cut)) ∧ (¬down → t.ownLimit = min 2500 (s.ownLimit + 50))
          ∧ t.pacerSeq = s.pacerSeq + 1 + s.boundGroups.length ∧ l (s.pacerSeq + 1) ∈ t.ownLimits
          ∧ ∀ gid ∈ s.boundGroups, ∃ k, s.pacerSeq + 1 < k ∧ k ≤ t.pacerSeq
            ∧ (∀ pg m, s.pacer.find? gid = some pg → pg.members.find? s.pkg = some m → (∀ x ∈ m.limits, x.seq ≤ s.pacerSeq) →
                ∃ q h, t.pacer.find? gid = some q ∧ q.members.find? s.pkg = some h ∧ l k ∈ h.limits)
            ∧ ∀ g o i, s.groupTable gid = some g → o ∈ s.otherPackages g → o.2 = false → s.linkFor o.1 0 = some i →
                ∃ x ∈ (t.link i).queue, x.dst = o.1 ∧ x.vc = 3
                  ∧ x.load = .noticeTo o.1 { group := gid, sender := s.pkg, kind := 0, limit := t.ownLimit, seq := k
                                             sent := s.fabtime.toNat, eff := s.fabtime.toNat + 50000, snap := [] })) ∧
  (∀ (s : State) (c : Nat) (v : W64), c < 24 * s.dies →
    (4 ≤ popcount (fld v 0 16) → ∃ t, exec (.clkpatWrite c v) s = .next t ∧ t.writtenPat c = fld v 0 16
      ∧ t.patInForce c = s.patInForce c ∧ t = { s with patWritten := t.patWritten, cregs := t.cregs }
      ∧ fld (t.creg (.cluster c) 0) 16 16 = limitPat (fld v 0 16) 16 0 (fld (s.creg .hub 0x300018) 0 5)) ∧
    (let limit := fld v 0 16
     let g := max 1 (fld v 16 16)
     let gap := min 255 ((g + limit - 1) / limit - 1)
     let wg := if limit = 0 then (64, 0) else (min 64 (max 1 (limit * (gap + 1) / g)), gap)
     exec (.slopeWrite c v) s = .next (s.setCreg (.cluster c) 8
       (BitVec.ofNat 64 (limit + 2 ^ 16 * g + 2 ^ 32 * wg.1 + 2 ^ 40 * wg.2))))) ∧
  (∀ (s : State) (v : W64),
    let cap (x top : Nat) : Nat := if x = 0 then 100 else min x top
    exec (.pcapWrite v) s = .next (s.setCreg .hub 0x300000
      (BitVec.ofNat 64 (cap (fld v 0 16) 3600 + 2 ^ 16 * cap (fld v 16 16) 3000)))) ∧
  (∀ (s : State) (b : Writer) (p : Page) (off : Nat) (v : W64) (r : RegRule), regRule p off = some r →
    let x := storedAs p off (v &&& r.mask)
    (∀ fn, b = .host fn → r.level = 2 → exec (.registerWrite b p off v) s = .next s) ∧
    (∀ gid g w, b = .program gid → Resident s gid g w → HasHandler g → r.level ≠ 0 → s.absentAcc = none →
      ∃ t h, exec (.registerWrite b p off v) s = .next t ∧ t.cregs = s.cregs ∧ t.gangs.find? gid = some h
        ∧ h.handler = true ∧ h.trapcause = BitVec.ofNat 64 (Cause.priv + 256 * lowLane h.trapped)
        ∧ h.trappc = pcImage (g.pcOf (lowLane (if g.eligible = 0 then g.liveMask else g.eligible)))) ∧
    (b = .firmware → r.level = 2 → (∃ n, p = .core n ∨ p = .slice n) → s.lockOf p off x = none → s.takesWrite p off x = true →
      let next := (∃ c, p = .core c ∧ 0x100 ≤ off ∧ off < 0x140) ∨ ∃ c, p = .slice c ∧ 0x1000 ≤ off ∧ off < 0x1800
      ∃ t, exec (.registerWrite b p off v) s = .next t ∧ t = { s.setCreg p off x with cregOld := t.cregOld }
        ∧ (next → t.cregNow p off = s.cregNow p off) ∧ (¬next → t = s.setCreg p off x))) ∧
  (∀ (s : State) (n : Nat) (p : Present) (rest : List Present) (x : WinTask) (w : TaskW), s.tasks.find? p.task = some x →
    x.part = p.part → x.st = .issued → x.ins = .tpresent w → x.stage = 3 → s.absentAcc = none →
    (let h := s.heads.getD n headZero
     h.pending = some p → ∃ t, exec (.headFrameStart n) s = .next t ∧ t = { s with heads := t.heads, tasks := t.tasks }
      ∧ t.heads.getD n headZero = { pending := h.waiting.head?, waiting := h.waiting.drop 1, latched := some p }
      ∧ ∀ j, t.tasks.find? j = if j = p.task then some { x with stage := 2 } else s.tasks.find? j) ∧
    ∀ bits, let e := s.encs.getD n encZero
      let size := (ringOf p.desc).2
      let len := 8 + bits.length
      s.partStopped p.part = false → e.bits = none → e.queue = p :: rest →
      (e.room size len = false →
        ∃ t, exec (.encoderFrameDone n bits) s = .next t ∧ t = { s with encs := t.encs, tasks := t.tasks }
          ∧ t.encs.getD n encZero = { e with queue := rest, bits := some (p, bits) }
          ∧ ∀ j, t.tasks.find? j = if j = p.task then some { x with stage := 1 } else s.tasks.find? j) ∧
      ∀ q key, let a := vaOf ((ringOf p.desc).1 + e.wpos)
        e.room size len = true → s.encHeld n = false → e.wpos + len ≤ size → a.toNat % 128 + len ≤ 128 →
        s.translate 255 p.tenant .write a = .ok q → q.kind = .mem key → Here s q → s.winMay p.tenant a len = .ok () →
        ∃ t, exec (.encoderFrameDone n bits) s = .next t
          ∧ t.encs.getD n encZero = { e with queue := rest, wpos := (e.wpos + len) % size, bits := none }
          ∧ (∀ i, i < len → t.homeByte q.kind (q.addr + i) = (leBytes 8 bits.length ++ bits).getD i 0)
          ∧ t.vmem = s.vmem ∧ t.gangs.map (·.1) = s.gangs.map (·.1)) ∧
  ∀ (s : State) (n pos : Nat), s.fwUp 6 = true → (s.encs.getD n encZero).bits = none → s.absentAcc = none →
    exec (.encReadposWrite n pos) s = .next { s with encs := s.encs.set n { s.encs.getD n encZero with rpos := pos } }

/-- 18 R370 to R373: SEC answers SPDM requests in their order and refuses others; secured messages write keys; TDISP moves a
partition's interface between its states. The code numbers of the messages are the model's (log 20). -/
def Obligations.SecurityEvents : Prop :=
  ∀ (s : State), s.fwUp 5 = true →
    let ok (i : Instr) (code : Nat) (x : Spdm) : Prop := ∃ t body, exec i s = .next t ∧ Answered s t code body x
    let no (i : Instr) : Prop := ∃ t, exec i s = .next t ∧ Answered s t 0x7F (leBytes 1 4 ++ leBytes 1 0) s.spdm
    let y := s.spdm
    ok .getVersion 0x04 { y with version := true, caps := false, algos := false, pending := [] } ∧
    (y.version = true → ok .getCapabilities 0x61 { y with caps := true }) ∧ (y.version = false → no .getCapabilities) ∧
    (y.caps = true → ok (.negotiateAlgorithms 1 1 1) 0x63 { y with algos := true }) ∧
    (∀ a b c, y.caps = false ∨ a ≠ 1 ∨ b ≠ 1 ∨ c ≠ 1 → no (.negotiateAlgorithms a b c)) ∧
    (y.algos = true → ok .getDigests 0x01 y ∧ (∀ slot off len, ok (.getCertificate slot off len) 0x02 y)
      ∧ (∀ slot nonce, ok (.challenge slot nonce) 0x03 y)
      ∧ (∀ i sg nonce b, s.measured i = some b → i ≠ 0xFF → ∃ t, exec (.getMeasurements i sg nonce) s = .next t
          ∧ let d := leBytes 1 i ++ Config.shake256 b
            Answered s t 0x60 (if sg = true then d ++ Config.ed448Sign (d ++ nonce) else d) y)
      ∧ ∀ n share, ok (.keyExchange n share) 0x64 { y with pending := y.pending.add n }) ∧
    (y.algos = false → no .getDigests ∧ (∀ slot off len, no (.getCertificate slot off len))
      ∧ (∀ slot nonce, no (.challenge slot nonce)) ∧ (∀ i sg nonce, no (.getMeasurements i sg nonce))
      ∧ ∀ n share, no (.keyExchange n share)) ∧
    (∀ n mac, n ∈ y.pending → if Config.freeBool (s.freeCtr + mac.length) = true
      then ok (.finish n mac) 0x65 { y with pending := y.pending.del n, sessions := y.sessions.add n }
      else no (.finish n mac)) ∧
    (∀ n mac, n ∉ y.pending → ∃ t, exec (.finish n mac) s = .next t
      ∧ Answered s t 0x7F (leBytes 1 4 ++ leBytes 1 0) y) ∧
    (∀ vf, 1 ≤ vf → vf ≤ 8 → ∀ r, ∃ t, exec (.tdispRequest vf r) s = .next t ∧ t = { s with tdi := t.tdi }
      ∧ ∀ p, t.tdi.getD p 0 = if p ≠ vf - 1 then s.tdi.getD p 0 else
          match r, s.tdi.getD p 0 with
          | .lock, 0 => 1
          | .start, 1 => 2
          | .stop, _ => 0
          | _, x => x) ∧
    (y.sessions ≠ [] →
      (∀ slot kind owner mat, slot < 2048 → kind < 4 → owner < 512 → s.slotHeld slot owner = none → Drained s →
        ∃ t, exec (.spdmSessionMessage (.writeKey slot kind owner mat)) s = .next t
          ∧ (∀ j, t.keyMat.find? j = if j = slot then some mat else s.keyMat.find? j)
          ∧ t.creg .hub (0x500000 + 8 * slot) = BitVec.ofNat 64 (kind + 256 * owner) ∧ t.chans.find? slot = none
          ∧ (∀ e, e ∈ t.tlb ↔ e ∈ s.tlb ∧ (e.2.pte.getLsbD 4 = true ∨ fld e.2.pte 53 11 ≠ slot))
          ∧ t = { s with keyMat := t.keyMat, cregs := t.cregs, chans := t.chans, tlb := t.tlb }) ∧
      (∀ n mat, n ≤ 8 → exec (.spdmSessionMessage (.ideKey n mat)) s = .next { s with ideKeys := s.ideKeys.set n mat }) ∧
      ∀ slot, exec (.spdmSessionMessage (.emptyChannels slot)) s = .next { s with chans := s.chans.del slot }) ∧
    (y.sessions = [] → ∀ m, exec (.spdmSessionMessage m) s = .next s)

/-- 17 R351, 18 R364, 20 R383 to R388, R393, R399 to R410: what the Timin links, the Pacer, the scale-out ports and the
accesses of peers and of the host do. That FABTIME is moved within ±50 ns (log 5), what the host's accesses reach (log
19), a packet's fields that R408 does not fix and a collective message's bytes (log 47), and the control that links
exchange with its pace values (log 50), is the model's choice. -/
def Obligations.FabricEvents : Prop :=
  (∀ (s : State) (n : Nat), n < 16 →
    let l := s.link n
    let put (l : Link) : State := { s with links := s.links.set n l }
    (16 ≤ l.fails ∨ 16 ≤ l.sendFails → l.queue = [] → l.replay = [] → s.peerQueued = false → s.absentAcc = none →
      exec (.linkRetrain n) s = .next (put
        { l with up := false, fails := 0, sendFails := 0, next := 0, queue := [], replay := [], seq := 0, resend := 0 })) ∧
    (l.fails < 16 → l.sendFails < 16 → exec (.linkRetrain n) s = .next s) ∧
    (∃ p : Nat → Nat, (∀ vc, 1 ≤ p vc ∧ p vc ≤ 1024) ∧ exec (.linkRetrainDone n) s = .next
      { put { l with up := true, fails := 0 } with
        freeCtr := s.freeCtr + 4, sent := s.sent ++ (List.range 4).map fun vc => Sent.control n (.pace vc (p vc)) }) ∧
    ∀ f : Flit, l.up = true → s.absentAcc = none →
      (f.good = false → exec (.flitReceive n f) s = .next
        { put { l with fails := l.fails + 1 } with sent := s.sent ++ [Sent.control n (.again l.next)] }) ∧
      (∀ bs, f.good = true → f.body = .payload bs →
        (f.seq ≠ l.next → exec (.flitReceive n f) s = .next (put { l with fails := 0 })) ∧
        (f.seq = l.next → f.dest = s.pkg → exec (.flitReceive n f) s = .next
          { put { l with fails := 0, next := l.next + 1 } with
            sent := s.sent ++ [Sent.control n (.taken f.seq), Sent.accepted f.vc bs] }) ∧
        (f.seq = l.next → f.dest ≠ s.pkg → ∃ t, exec (.flitReceive n f) s = .next t
          ∧ t.sent = s.sent ++ [Sent.control n (.taken f.seq)]
          ∧ t.link n = { l with fails := 0, next := l.next + 1 } ∧ t.creg .hub 0x310000 = s.creg .hub 0x310000 + 1)) ∧
      (∀ vc p, f.good = true → f.body = .pace vc p → vc < 4 → 1 ≤ p → p ≤ 1024 → ∃ t, exec (.flitReceive n f) s = .next t
        ∧ t = { s with links := t.links } ∧ (t.link n).paceNext.find? vc = some (p, s.beat / 1024 * 1024 + 1024)
        ∧ (t.link n).queue = l.queue ∧ (t.link n).replay = l.replay) ∧
      (∀ k, f.good = true → f.body = .taken k → s.peerQueued = false → ∃ t, exec (.flitReceive n f) s = .next t
        ∧ t = { s with links := t.links } ∧ (t.link n).sendFails = 0 ∧ (t.link n).queue = l.queue
        ∧ ∀ x, x ∈ (t.link n).replay ↔ x ∈ l.replay ∧ k < x.seq) ∧
      (∀ k, f.good = true → f.body = .again k → exec (.flitReceive n f) s = .next
        (put { l with fails := 0, resend := min l.seq k, sendFails := l.sendFails + 1 }))) ∧
  (∀ (s : State) (n : Nat) (o : OutFlit) (rest : List OutFlit), s.powered = true → s.absentAcc = none →
    s.agenda = [.linkSend n] → (s.link n).up = true → (s.link n).beat + 2 ≤ s.beat → (s.link n).seq ≤ (s.link n).resend →
    (s.link n).queue = o :: rest → (∀ x ∈ rest, x.vc ≠ 3) → (s.link n).paceNext = [] →
    ((s.link n).sentAt.getD o.vc []).countP (fun b => decide (s.beat < b + 1024)) < (s.link n).pace.getD o.vc 1024 →
    ∃ t, step s = .next t ∧ (t.link n).seq = (s.link n).seq + 1 ∧ (t.link n).beat = s.beat
      ∧ (t.link n).sentAt.getD o.vc [] = s.beat :: ((s.link n).sentAt.getD o.vc []).filter fun b => decide (s.beat < b + 1024)
      ∧ (if o.left ≤ 1 then (t.link n).queue = rest else (t.link n).queue = { o with left := o.left - 1 } :: rest)) ∧
  (∀ (s : State) (gid : Nat) (g : PortGroup) (pg : PacerGroup) (m : PacerMember), s.groupTable gid = some g →
    s.fwUp 4 = true → s.pacer.find? gid = some pg → pg.members.find? s.pkg = some m → m.stays = true →
    (∀ e ∈ s.otherPackages g, e.2 = false) →
    let now := s.fabtime.toNat
    let n : Notice :=
      { group := gid, sender := s.pkg, kind := 1, limit := s.ownLimit, seq := s.pacerSeq + 1, sent := now
        eff := now + 50000, snap := [] }
    ∃ t, exec (.heartbeatSend gid) s = .next t
      ∧ t = { s with pacer := t.pacer, pacerSeq := s.pacerSeq + 1, links := t.links }
      ∧ (∀ e i, s.otherPackages g = [e] → s.linkFor e.1 0 = some i →
          (t.link i).queue = (s.link i).queue ++ [{ vc := 3, dst := e.1, left := 3, flits := 3, carried := false
                                                    load := .noticeTo e.1 n }])
      ∧ (s.otherPackages g = [] → t.links = s.links)
      ∧ t.pacer.find? gid = some { pg with members := pg.members.upd s.pkg fun m =>
          { m with limits := pruneLimits now (m.limits ++ [{ seq := n.seq, eff := n.eff, limit := n.limit }]) } }) ∧
  (∀ (s : State), s.pacer = [] → ∃ t, exec .ceilingChange s = .next t
    ∧ t = { s with ceil := s.ownAt s.fabtime.toNat, ceilNext := t.ceilNext, lowering := [] }) ∧
  (∀ (s : State) (die x c : Nat), s.nextChange = some (x, c) → c < s.ceil → x ≤ s.fabtime.toNat + 2000 → die < s.dies →
    exec (.clockLowerBegin die) s = .next { s with lowering := s.lowering.add die }) ∧
  (∀ (s : State) (gid mb : Nat) (pg : PacerGroup) (m : PacerMember), s.pacer.find? gid = some pg →
    pg.members.find? mb = some m → mb ≠ s.pkg → m.slast + pg.timeout ≤ s.fabtime.toNat → s.fwUp 4 = true →
    s.absentAcc = none →
    ∃ t, exec (.memberDrop gid mb) s = .next t ∧ t.creg .hub 0x310020 = s.creg .hub 0x310020 + 1
      ∧ t.pacer.find? gid = some { pg with
          members := pg.members.del mb, gone := pg.gone.add mb
          ghosts := pg.ghosts ++ (m.limitAt s.fabtime.toNat).toList.map fun l =>
            { seq := 0, eff := m.slast + pg.timeout + 50000, limit := l } }
      ∧ t.gangs = s.gangs ∧ t.mem = s.mem) ∧
  (∀ (s : State) (k : Nat) (c : Conn), s.conns.find? k = some c →
    (∀ x, c.ackAt = some x → x ≤ s.fabtime.toNat → s.maySend c.port 1 = true →
      ∃ t, exec (.ackTimer k) s = .next t ∧ t.conns.find? k = some { c with sinceAck := 0, ackAt := none, ce := false }
        ∧ t.sent = s.sent ++ [Sent.packet
            (s.packetOf c.port 1 { vc := k % 4, src := s.pkg, dst := k / 4, psn := c.expect, ce := c.ce } [])]) ∧
    (c.dead = false → c.unacked ≠ [] → c.progress + 200000 ≤ s.fabtime.toNat →
      (c.timeouts < 15 → ∃ t, exec (.retransmitTimeout k) s = .next t ∧
        let may := ∀ p ∈ c.unacked, s.maySend c.port p.kind = true
        t.conns.find? k = some { c with timeouts := c.timeouts + 1, progress := s.fabtime.toNat
                                        resend := if c.unacked.all fun p => s.maySend c.port p.kind then c.resend else true }
        ∧ (may → t.sent.length = s.sent.length + c.unacked.length) ∧ (¬may → t.sent = s.sent)) ∧
      (15 ≤ c.timeouts → s.nextPort (k / 4) c.port = none → ∃ t, exec (.retransmitTimeout k) s = .next t
        ∧ t = { s with conns := t.conns }
        ∧ t.conns.find? k = some { c with timeouts := 0, dead := true, unacked := [], queue := [] }))) ∧
  (∀ (s : State) (port prio quanta x : Nat), port < 4 →
    (s.conns = [] → s.pfcPause.find? (8 * port + prio) = some x → x ≤ s.fabtime.toNat →
      exec (.pfcPauseExpiry port prio) s = .next { s with pfcPause := s.pfcPause.del (8 * port + prio) }) ∧
    (let c := s.creg .hub (ethOff port 0)
     c.getLsbD 0 = true → c.getLsbD 1 = true → prio = fld c 16 3 ∨ prio = fld c 19 3 → quanta ≠ 0 →
      ∃ t, exec (.pfcReceive port prio quanta) s = .next t
        ∧ t.pfcPause.find? (8 * port + prio) = some (s.fabtime.toNat + (quanta * 64 + 99) / 100)
        ∧ t.creg .hub (ethOff port 0x58) = s.creg .hub (ethOff port 0x58) + BitVec.ofNat 64 quanta) ∧
    ∀ b, (∃ t, exec (.ethLinkUpDown port b) s = .next t ∧ (t.creg .hub (ethOff port 0x28)).getLsbD 0 = b
        ∧ t = { s with cregs := t.cregs }) ∧
      ∃ t, exec (.fecAlignmentLock port b) s = .next t ∧ (t.creg .hub (ethOff port 0x28)).getLsbD 1 = b
        ∧ t = { s with cregs := t.cregs }) ∧
  (∀ (s : State) (src part rkey pa : Nat) (n i : Nat), rkey < 2048 → part < 8 → s.linkFor src pa = some i →
    let ok := (s.keyKind rkey = 1 ∨ s.keyKind rkey = 3) ∧ s.tenantValid (s.keyOwner rkey) = true
      ∧ s.tenantPart (s.keyOwner rkey) = part ∧ s.chanOf part pa = true
    let reply (bs : List Byte) (bad : Bool) : List OutFlit := (s.link i).queue ++
      [{ vc := 1, dst := src, left := n / 32 + 1, flits := n / 32 + 1, carried := false, load := .peerRead src pa bs bad }]
    (ok → 1 ≤ n → s.absentAcc = none → ∃ t p, exec (.peerAccessReceive part rkey pa ⟨src, .read n⟩) s = .next t
      ∧ (t.link i).queue = reply ((List.range n).map fun i => s.homeByte (.mem rkey) (pa + i)) p ∧ t.mem = s.mem) ∧
    (¬ok → 1 ≤ n → ∃ t, exec (.peerAccessReceive part rkey pa ⟨src, .read n⟩) s = .next t ∧ t.mem = s.mem
      ∧ t.creg .hub 0x310008 = s.creg .hub 0x310008 + 1 ∧ (t.link i).queue = reply (List.replicate n 0) true
      ∧ (s.fwUp 3 = true → t.errReports = s.errReports ++ [(rptPeer, pa)])) ∧
    ∀ bs, ¬ok → ∃ t, exec (.peerAccessReceive part rkey pa ⟨src, .write bs⟩) s = .next t ∧ t.mem = s.mem ∧ t.links = s.links
      ∧ t.creg .hub 0x310008 = s.creg .hub 0x310008 + 1) ∧
  (∀ (s : State) (n : Notice), s.absentAcc = none →
    (s.fwUp 4 = false →
      exec (.noticeReceive n) s = .next { s with noticeWait := s.noticeWait ++ [n] }) ∧
    ∀ pg m, s.fwUp 4 = true → s.pacer.find? n.group = some pg → pg.members.find? n.sender = some m →
      (n.seq ≤ m.lastSeq → ∃ t, exec (.noticeReceive n) s = .next t ∧ t = { s with cregs := t.cregs }
        ∧ t.creg .hub 0x310018 = s.creg .hub 0x310018 + 1) ∧
      (m.lastSeq < n.seq → n.kind = 0 → 100 ≤ n.limit → n.limit ≤ 2500 → n.sent + 50000 ≤ n.eff → s.fabtime.toNat ≤ n.eff →
        ∃ t, exec (.noticeReceive n) s = .next t
          ∧ t = (let next := { pg with members := pg.members.set n.sender (m.take pg.timeout s.fabtime.toNat n) }
                 { s with pacer := s.pacer.set n.group next, ceil := t.ceil, ceilNext := t.ceilNext }))) ∧
  (∀ (s : State) (part port rank n op sb fmt count : Nat) (ab : Bool) (pl : List CollElem), s.absentAcc = none →
    s.portTasks part port = [] → ∃ t, exec (.collectiveHeaderReceive part port rank n op sb fmt count ab pl) s = .next t
      ∧ t = { s with collIn := t.collIn } ∧ (t.collIn.getD (collKey part port n) []).find? rank
          = some { op := op, sub := sb, fmt := fmt, count := count, abort := ab, payload := pl }) ∧
  (∀ (s : State) (port : Nat) (f : EthFrame), port < 4 → s.ethEn port = true → s.absentAcc = none →
    (s.frameBad port f = true ∨ s.packetBad port f = true →
      exec (.ethFrameReceive port f) s = .next (s.ethCount port 0x40 1)) ∧
    (s.frameBad port f = false → s.packetBad port f = false → f.kind = 4 →
      ∃ t, exec (.ethFrameReceive port f) s = .next t ∧ t.creg .hub (ethOff port 0x38) = s.creg .hub (ethOff port 0x38) + 1)) ∧
  (∀ (s : State) (port : Nat) (h : PktHdr) (c : Conn) (n : Notice), s.ethEn port = true → s.absentAcc = none →
    s.conns.find? (connKey h.src h.vc) = some c → h.vc < 4 → c.held = [] → c.sinceAck < 15 → h.ce = false → h.psn = c.expect →
    let c1 := { c with expect := (c.expect + 1) % 2 ^ 32, sinceAck := c.sinceAck + 1,
                       ackAt := some (c.ackAt.getD (s.fabtime.toNat + 2000)) }
    c.expect < 2 ^ 32 →
    let k := connKey h.src h.vc
    (∀ pl, ∃ t, exec (.dataPkt port h pl) s = .next t ∧ t.conns.find? k = some c1 ∧
      let all := s.collBuf.getD k [] ++ pl
      (h.vc < 2 → t = { s with conns := t.conns, sent := s.sent ++ [Sent.accepted h.vc pl] }) ∧
      (h.vc = 3 ∨ h.vc = 2 ∧ all.length < 36 → t = { s with conns := t.conns, collBuf := t.collBuf } ∧ t.collBuf.getD k [] = all) ∧
      let x := collOfBytes all
      (h.vc = 2 → 36 ≤ all.length → leNat (all.take 4) = all.length → s.groupTable x.group = none → s.localRanks x.group = [] →
        t = { s with conns := t.conns, collBuf := t.collBuf, groupMail := t.groupMail } ∧ t.collBuf.getD k [] = [] ∧ x ∈ t.groupMail)) ∧
    (s.fwUp 4 = false → n.kind ≠ 4 → ∃ t, exec (.noticePkt port h n) s = .next t
      ∧ t.conns.find? (connKey h.src h.vc) = some c1 ∧ t = { s with conns := t.conns, noticeWait := s.noticeWait ++ [n] })) ∧
  (∀ (s : State) (port : Nat) (h : PktHdr) (c : Conn), s.ethEn port = true → s.absentAcc = none →
    s.conns.find? (connKey h.src h.vc) = some c → c.queue = [] →
    let rest := c.unacked.filter fun p => psnAhead p.psn h.psn < 2 ^ 31
    (rest.length < c.unacked.length → ∃ t, exec (.ackPkt port h) s = .next t ∧ t = { s with conns := t.conns }
      ∧ t.conns.find? (connKey h.src h.vc) = some { c with
          unacked := rest, progress := s.fabtime.toNat, timeouts := 0
          window := if h.ce = true then max 8 (c.window / 2) else min 256 (c.window + 1) }) ∧
    ((∀ p ∈ rest, s.maySend c.port p.kind = true) →
      ∃ t, exec (.nackPkt port h) s = .next t ∧ t.sent.length = s.sent.length + rest.length
        ∧ t.conns.find? (connKey h.src h.vc) = some { c with window := if h.ce = true then max 8 (c.window / 2) else c.window })) ∧
  (∀ (s : State) (port : Nat) (h : PktHdr) (x : Nat), s.ethEn port = true → s.fwUp 7 = true → s.fwUp 3 = true → s.absentAcc = none →
    let now := s.fabtime.toNat
    (now + 50 < x ∨ x + 50 < now → exec (.timePkt port h x) s = .next { s with errReports := s.errReports ++ [(rptTime, h.src)] }) ∧
    (x ≤ now + 50 → now ≤ x + 50 → ∃ y, min now x ≤ y ∧ y ≤ max now x
      ∧ exec (.timePkt port h x) s = .next { s with fabtime := BitVec.ofNat 64 y, freeCtr := s.freeCtr + 1 })) ∧
  (∀ (s : State) (p pa : Nat) (acc : ExtAcc), s.partOfPa pa = some p → s.tdiHeld p = true →
    exec (.hostLinkAccess (.memory none pa) acc) s = .next { s with tdi := s.tdi.set p 3 }) ∧
  (∀ (s : State) (p pa : Nat) (bs : List Byte), s.chanOf p pa = false →
    exec (.hostLinkAccess (.memory (some p) pa) (.write bs)) s = .next s) ∧
  (∀ (s : State) (fn n off : Nat) (p : Page), 1 ≤ n → s.hostReach fn p off = true →
    exec (.hostLinkAccess (.bar0 fn p off) (.read n)) s = .next
      { s with sent := s.sent ++ [Sent.hostRead (leBytes n (s.readReg p off)) false] }) ∧
  ∀ (s : State) (off : Nat) (bs : List Byte), off + bs.length ≤ 2 ^ 24 →
    ∃ t, exec (.hostLinkAccess (.staging off) (.write bs)) s = .next t ∧ t = { s with staging := t.staging }
      ∧ ∀ a, t.staging.getD a 0 = if off ≤ a ∧ a < off + bs.length then bs.getD (a - off) 0 else s.staging.getD a 0

/-- The reset values of the spec's register tables, as a read returns them. That no byte of memory is listed, so that each
reads 0, is the model's choice (log 6). -/
def Obligations.ResetState : Prop :=
  let r := State.reset.readReg
  (∀ c, c < 384 → ∀ p, p < 4 → r (.core c) (0x100 + 8 * p) = 16 + 2 ^ 16 * 1048576 + 2 ^ 48 * 2048
    ∧ r (.core c) (0x120 + 8 * p) = 65536 + 2 ^ 32 ∧ ∀ k, k < 4 → r (.core c) (0x180 + 32 * p + 8 * k) = 0) ∧
  (∀ c, c < 48 → r (.cluster c) 0 = 0xFFFF + 2 ^ 16 * 0xFFFF
    ∧ r (.cluster c) 8 = 256 + 2 ^ 16 * 512 + 2 ^ 32 * 1 + 2 ^ 40 * 1) ∧
  (∀ n, n < 384 → (∀ k, k < 4 → r (.slice n) (0x100 + 8 * k) = 0)
    ∧ ∀ t, t < 512 → r (.slice n) (0x1000 + 4 * t) = 0xFFFF ∧ r (.slice n) (0x2000 + 4 * t) = 0) ∧
  (∀ p, p < 8 →
    (r (.part p) 0 = 0 ∧ r (.part p) 8 = 0 ∧ (∀ h, h < 512 → r (.part p) (0x4000 + 2 * h) = 0)
      ∧ (∀ v, v < 96 → r (.part p) (0x5000 + 2 * v) = 0) ∧ ∀ e, e < 2048 → r (.part p) (0x10000 + 8 * e) = 0) ∧
    (r (.part p) 0x8000 = 256 ∧ r (.part p) 0x8008 = 0 ∧ r (.part p) 0x8010 = 0 ∧ (∀ c, c < 4 → r (.part p) (0x8040 + 8 * c) = 0)
      ∧ r (.part p) 0x8060 = 64 ∧ r (.part p) 0x8068 = 500 ∧ ∀ k, k < 3 → r (.part p) (0x8070 + 8 * k) = 0) ∧
    ∀ q, q < 4 → (∀ k, k < 7 → r (.part p) (0x8400 + 0x200 * q + 8 * k) = if k = 2 then 0x0F000000 else 0)
      ∧ ∀ j, j < 32 → r (.part p) (0x8500 + 0x200 * q + 8 * j) = 0) ∧
  ((∀ t, t < 512 → ∀ k, k < 5 → r .hub (0x400000 + 64 * t + 8 * k) = if k = 2 ∨ k = 3 then 0xFFFFFFFF else 0)
    ∧ (∀ q, q < 1024 → ∀ k, k < 8 → r .hub (0x480000 + 64 * q + 8 * k) = 0) ∧ ∀ k, k < 2048 → r .hub (0x500000 + 8 * k) = 0) ∧
  (r .hub 0x300000 = 3600 + 2 ^ 16 * 3000 ∧ r .hub 0x300008 = 0 ∧ r .hub 0x300010 = 0 ∧ r .hub 0x300018 = 16
    ∧ r .hub 0x300020 = 1520 + 2 ^ 12 * 8 ∧ r .hub 0 = 0 ∧ r .hub 8 = 0 ∧ ∀ k, k < 5 → r .hub (0x310000 + 8 * k) = 0) ∧
  (∀ p, p < 4 → ∀ k, k < 12 → r .hub (0x320000 + 256 * p + 8 * k) = if k = 0 then 2 ^ 22 * 1500 else 0) ∧
  (State.reset.fabtime = 0 ∧ State.reset.ceil = 2500 ∧ State.reset.ceilNext = 2500) ∧
  State.reset.memWf = true ∧ State.reset.mem = [] ∧ State.reset.vmem = []

/-- Instruction words that the spec writes out, with the fields that it names for them and every other field 0 (04 R106,
03 R74 and R61, 04 R94, 06 R143, 07 R164, 08 R195, 09 R214, 12 R260, 19, 12 R266, 18 R373, 16 R331, 17 R355). -/
def Obligations.DecodeSampleWords : Prop :=
  let v := VecW.unpack 0
  let h := HalfW.unpack 0
  let e := EngW.unpack 0
  let k := TaskW.unpack 0
  decodeTableWord 128 0x001100000000000000000000FFFFFFFE = some (.bra { CtrlW.unpack 0 with g := 1, imm := -2 }) ∧
  decodeTableWord 128 0x223A040523060000005002003F800000
    = some (.ffma { v with g := 0xA, d := 4, a := 5, pma := 0x23, b := 6, eb := 1, i := 1, rm := 1, imm := 0x3F800000 }) ∧
  decodeTableWord 128 0x23000203000000000002080500000000 = some (.cvt { v with d := 2, a := 3, t := 2, rm := 0b100, s := 5 }) ∧
  decodeTableWord 128 0x384401012141602000001A121C000000 = some (.vpair
      { sh := 1, rsv := 0, x := { h with cop := 0x22, d := 8, a := 9, b := 10, c := 11, pms := 0x40 }
        y := { h with cop := 0, d := 13, a := 9, b := 14 } }) ∧
  decodeTableWord 128 0x4000040A000B0000000A000000000000 = some (.shfl { v with d := 4, a := 0x0A, b := 0x0B, t := 0xA }) ∧
  decodeTableWord 128 0x50000802000000101000200000000010
    = some (.ld { MemW.unpack 0 with vd := 8, va := 2, sb := 4, wd := 0b010, vx := 1, imm := 0x10 }) ∧
  decodeTableWord 128 0x7000000000280C824A2F220000000000 = some (.mma
      { MmaW.unpack 0 with vst := 0x28, sk := 3, sa0 := 8, sa1 := 9, sb0 := 10, sb1 := 11, as := 1, bs := 1, fa := 2, fb := 2 } 0) ∧
  decodeTableWord 128 0x8000406070515000C000000000000000 = some (.rast
      { MacroW.unpack 0 with vs := 0x40, vi := 0x60, vo := 0x70, s0 := 20, s1 := 21, mods := 3 }) ∧
  decodeTableWord 128 0x90100000000000080000000000000000 = some (.barcFinal { SyncW.unpack 0 with aux := 1 }) ∧
  decodeTableWord 128 0x90B00000001420000000000000000000 = some (.qpop { SyncW.unpack 0 with sd := 5, sa := 2 }) ∧
  decodeTableWord 128 0xA0001051872123DD0000000000000000 = some (.cecopy
      { e with ss := 4, sd := 5, sn := 6, sg := 7, sv := 8, rel := 1, sc := 1, dsp := 1, fst := 0xEE, sig := 1 } 0) ∧
  decodeTableWord 256 0xFA200000040890000000000000000000A04010518A2D63BB0000000000000025 = some (.cedec
      { e with ss := 4, sd := 5, sn := 6, sg := 10, sv := 11, rel := 1, sc := 3, dsp := 1, fst := 0xDD, sig := 1, imm := 37 }
      0x200000040890000000000000000000) ∧
  decodeTableWord 384 0xCFFC3000800000000000000000000000CFF01000800000000000000000000000C0300000422000020000000000000000
    = some (.tlaunch
      { k with ka := 1, kb := 2, kc := 8, nb := 2 }
      [{ mark := 0xCFF, mode := 0, t := 1, ko := 0, kl := 0, whole := 1, res := 0, rsv := 0 },
       { mark := 0xCFF, mode := 3, t := 3, ko := 0, kl := 0, whole := 1, res := 0, rsv := 0 }]) ∧
  decodeTableWord 128 0xC0A01400C00000300000000000000000 = some (.tpresent { k with ta := 5, ka := 3, sub := 3 })

/-- 03 R46 to R60, 16 R331: every instruction of the encoding tables has words, the decoder reads the instruction from their
bytes and leaves the bytes after them, and the bytes that it reads an instruction from are the bytes of its words. -/
def Obligations.RoundTrip : Prop :=
  let bytesOf (ws : List IWord) : List Byte := ws.flatMap fun w => leBytes 16 w.toNat
  (∀ (i : Instr) (rest : List Byte), i.hasWord = true →
    ∃ ws, encode i = some ws ∧ decodeBytes (bytesOf ws ++ rest) = some (.ok (i, rest))) ∧
  ∀ (bytes : List Byte) (i : Instr) (rest : List Byte), 256 ≤ bytes.length → decodeBytes bytes = some (.ok (i, rest)) →
    i.hasWord = true ∧ ∃ ws, encode i = some ws ∧ bytes = bytesOf ws ++ rest

/-- A step carries out the action that is first in the agenda, and with an empty agenda chooses what acts in the next cycle
(the model's own order, log 1): a group that may issue runs the instruction whose words stand at its address, a port the task
whose words stand at its TPC, an event runs as it is, and a package without power takes power-up alone (18 R364). -/
def Obligations.StepRuns : Prop :=
  (∀ s : State, s.agenda = [] → step s = .next s.plan) ∧
  (∀ (s : State) (rest : List Agent) (gid unit : Nat) (pc : PCAddr) (snap : Option Gang) (g : Gang) (w : Wg) (line : CodeLine)
      (i : Instr) (ws : List IWord), s.powered = true → s.agenda = .issue gid unit pc snap :: rest →
    Resident s gid g w → g.parked = false → g.active = true → w.preempt = false → w.dying = false →
    s.partStopped (s.tenantPart w.tenant) = false → g.groupAt unit pc false ≠ 0 → s.travelWait gid g i = false →
    g.ordAllows (g.groupAt unit pc false) = true → g.handler = true ∨ g.cancel = none →
    ({ s with agenda := rest } : State).codeLine w g.codemap pc = .ok line →
    let k := wordIdx pc
    (g.fresh = true → line.target k = true) →
    i.hasWord = true → encode i = some ws → clsOf (ws.headD 0) ≠ 0xC → line.start k = true → k + ws.length ≤ 8 →
    (∀ j, j < ws.length → line.word (k + j) = ws.getD j 0) →
    (ws.length = 2 → line.start (k + 1) = false ∧ line.target (k + 1) = false) →
    (i.contOwner = none → k + ws.length ≤ 7 → clsOf (line.word (k + ws.length)) ≠ 0xF) →
    let s0 : State := { s with agenda := rest }
    let s1 : State := if storesWord i = true then s0.settleFence gid else s0
    step s = exec i
      { s1 with
        gangs := s1.gangs.upd gid fun g => { g with fresh := false }
        cur := some { gang := gid, unit := unit, pc := pc, ext := none, snap := snap, port := none } }) ∧
  (∀ (s : State) (rest : List Agent) (part port : Nat) (i : Instr) (w : IWord) (bs : List IWord),
    s.powered = true → s.agenda = .decodeTask part port :: rest → s.decodes part port = true → s.portHeld part port = false →
    s.partStopped part = false →
    let p := s.port part port
    p.denied = none → i.wf = true → encode i = some (w :: bs) → clsOf w = 0xC →
    s.streamWords p.tenant p.spec.tpc 1 = .ok [w] →
    s.streamWords p.tenant ((p.spec.tpc + 16) % 2 ^ 57) bs.length = .ok bs →
    step s = exec i
      { s with
        agenda := rest
        cur := some { gang := 0, unit := 0, pc := 0, ext := none, snap := none, port := some (part, port) } }) ∧
  (∀ (s t : State) (rest : List Agent) (i : Instr), s.powered = true → s.agenda = .event i :: rest →
    exec i { s with agenda := rest, cur := none, deferNow := false } = .next t →
    step s = .next (if t.deferNow = true then { t with deferNow := false, deferred := t.deferred ++ [.event i] } else t)) ∧
  ∀ (s : State) (a : Agent) (rest : List Agent), s.powered = false → s.agenda = a :: rest →
    step s = if a = .event .powerUp then exec .powerUp { s with agenda := rest, cur := none } else .next { s with agenda := rest }

/-- Every step keeps the canonical form of HBM, the vaults and the scratchpads: addresses strictly rise, and no byte is
listed that reads as an unlisted one does (the model's form of memory: log 6). -/
def Obligations.StepKeepsMemoryForm : Prop := ∀ s t : State, s.memWf = true → step s = .next t → t.memWf = true

/-- 01 R12, 05 R123, R124, 06 R151: what no step does to a gang that no saved workgroup lists. No lane of it becomes live,
and an exited lane stays exited; its base and its extended size stay, and XCOUNT stays within that size where the claims
that wait fit in it together (log 72). A gang's number is never used again. -/
def Obligations.StepKeepsGangs : Prop :=
  ∀ s t : State, s.unitsWf = true → step s = .next t →
    t.unitsWf = true ∧
    ∀ (id : Nat) (g h : Gang), s.gangs.find? id = some g → t.gangs.find? id = some h →
      (∀ e ∈ s.wgs, e.2.status = .saved → id ∉ e.2.gangs) →
      (∀ l, l < 32 → (h.laneStatus l = 1 → g.laneStatus l = 1) ∧ (g.laneStatus l = 2 → h.laneStatus l = 2) ∧ h.p l 0 = true) ∧
      h.base = g.base ∧ h.xlimit = g.xlimit ∧
      (g.xcount + (g.waits.map fun x => match x.kind with | .xclaim n _ => n | _ => 0).sum ≤ g.xlimit → h.xcount ≤ h.xlimit)
end

