-- ==== Sys2Proof/Laws/Exec.lean ====
section
/-! SUPPORT. The arm of each instruction in `exec`. -/

namespace Sys2Proof.Machine

theorem exec_nop (w : CtrlW) (s : State) :
    exec (.nop w) s = execNop w s := rfl
theorem exec_bra (w : CtrlW) (s : State) :
    exec (.bra w) s = execBra w s := rfl
theorem exec_brx (w : CtrlW) (s : State) :
    exec (.brx w) s = execBrx w s := rfl
theorem exec_call (w : CtrlW) (s : State) :
    exec (.call w) s = execCall w s := rfl
theorem exec_callx (w : CtrlW) (s : State) :
    exec (.callx w) s = execCallx w s := rfl
theorem exec_ret (w : CtrlW) (s : State) :
    exec (.ret w) s = execRet w s := rfl
theorem exec_fuse (w : CtrlW) (s : State) :
    exec (.fuse w) s = execFuse w s := rfl
theorem exec_exit (w : CtrlW) (s : State) :
    exec (.exit w) s = execExit w s := rfl
theorem exec_trap (w : CtrlW) (s : State) :
    exec (.trap w) s = execTrap w s := rfl
theorem exec_brk (w : CtrlW) (s : State) :
    exec (.brk w) s = execBrk w s := rfl
theorem exec_yield (w : CtrlW) (s : State) :
    exec (.yield w) s = execYield w s := rfl
theorem exec_sread (w : CtrlW) (s : State) :
    exec (.sread w) s = execSread w s := rfl
theorem exec_swrite (w : CtrlW) (s : State) :
    exec (.swrite w) s = execSwrite w s := rfl
theorem exec_eret (w : CtrlW) (s : State) :
    exec (.eret w) s = execEret w s := rfl
theorem exec_syscall (w : CtrlW) (s : State) :
    exec (.syscall w) s = execSyscall w s := rfl
theorem exec_sleep (w : CtrlW) (s : State) :
    exec (.sleep w) s = execSleep w s := rfl
theorem exec_smov (w : ScalW) (s : State) :
    exec (.smov w) s = execSmov w s := rfl
theorem exec_smovi (w : ScalW) (s : State) :
    exec (.smovi w) s = execSmovi w s := rfl
theorem exec_smovi64 (w : ScalW) (hi : BitVec 128) (s : State) :
    exec (.smovi64 w hi) s = execSmovi64 w hi s := rfl
theorem exec_sadd (w : ScalW) (s : State) :
    exec (.sadd w) s = execSadd w s := rfl
theorem exec_ssub (w : ScalW) (s : State) :
    exec (.ssub w) s = execSsub w s := rfl
theorem exec_smul (w : ScalW) (s : State) :
    exec (.smul w) s = execSmul w s := rfl
theorem exec_smulh (w : ScalW) (s : State) :
    exec (.smulh w) s = execSmulh w s := rfl
theorem exec_sand (w : ScalW) (s : State) :
    exec (.sand w) s = execSand w s := rfl
theorem exec_sor (w : ScalW) (s : State) :
    exec (.sor w) s = execSor w s := rfl
theorem exec_sxor (w : ScalW) (s : State) :
    exec (.sxor w) s = execSxor w s := rfl
theorem exec_sshl (w : ScalW) (s : State) :
    exec (.sshl w) s = execSshl w s := rfl
theorem exec_sshr (w : ScalW) (s : State) :
    exec (.sshr w) s = execSshr w s := rfl
theorem exec_ssra (w : ScalW) (s : State) :
    exec (.ssra w) s = execSsra w s := rfl
theorem exec_scmp (w : ScalW) (s : State) :
    exec (.scmp w) s = execScmp w s := rfl
theorem exec_ssel (w : ScalW) (s : State) :
    exec (.ssel w) s = execSsel w s := rfl
theorem exec_smin (w : ScalW) (s : State) :
    exec (.smin w) s = execSmin w s := rfl
theorem exec_smax (w : ScalW) (s : State) :
    exec (.smax w) s = execSmax w s := rfl
theorem exec_sclz (w : ScalW) (s : State) :
    exec (.sclz w) s = execSclz w s := rfl
theorem exec_spopc (w : ScalW) (s : State) :
    exec (.spopc w) s = execSpopc w s := rfl
theorem exec_vtos (w : ScalW) (s : State) :
    exec (.vtos w) s = execVtos w s := rfl
theorem exec_stov (w : ScalW) (s : State) :
    exec (.stov w) s = execStov w s := rfl
theorem exec_slea (w : ScalW) (s : State) :
    exec (.slea w) s = execSlea w s := rfl
theorem exec_iadd (w : VecW) (s : State) :
    exec (.iadd w) s = execIadd w s := rfl
theorem exec_isub (w : VecW) (s : State) :
    exec (.isub w) s = execIsub w s := rfl
theorem exec_imul (w : VecW) (s : State) :
    exec (.imul w) s = execImul w s := rfl
theorem exec_imulh (w : VecW) (s : State) :
    exec (.imulh w) s = execImulh w s := rfl
theorem exec_imad (w : VecW) (s : State) :
    exec (.imad w) s = execImad w s := rfl
theorem exec_imin (w : VecW) (s : State) :
    exec (.imin w) s = execImin w s := rfl
theorem exec_imax (w : VecW) (s : State) :
    exec (.imax w) s = execImax w s := rfl
theorem exec_iabs (w : VecW) (s : State) :
    exec (.iabs w) s = execIabs w s := rfl
theorem exec_ineg (w : VecW) (s : State) :
    exec (.ineg w) s = execIneg w s := rfl
theorem exec_and (w : VecW) (s : State) :
    exec (.and w) s = execAnd w s := rfl
theorem exec_or (w : VecW) (s : State) :
    exec (.or w) s = execOr w s := rfl
theorem exec_xor (w : VecW) (s : State) :
    exec (.xor w) s = execXor w s := rfl
theorem exec_not (w : VecW) (s : State) :
    exec (.not w) s = execNot w s := rfl
theorem exec_shl (w : VecW) (s : State) :
    exec (.shl w) s = execShl w s := rfl
theorem exec_shr (w : VecW) (s : State) :
    exec (.shr w) s = execShr w s := rfl
theorem exec_sra (w : VecW) (s : State) :
    exec (.sra w) s = execSra w s := rfl
theorem exec_rot (w : VecW) (s : State) :
    exec (.rot w) s = execRot w s := rfl
theorem exec_bfe (w : VecW) (s : State) :
    exec (.bfe w) s = execBfe w s := rfl
theorem exec_bfi (w : VecW) (s : State) :
    exec (.bfi w) s = execBfi w s := rfl
theorem exec_clz (w : VecW) (s : State) :
    exec (.clz w) s = execClz w s := rfl
theorem exec_popc (w : VecW) (s : State) :
    exec (.popc w) s = execPopc w s := rfl
theorem exec_brev (w : VecW) (s : State) :
    exec (.brev w) s = execBrev w s := rfl
theorem exec_icmp (w : VecW) (s : State) :
    exec (.icmp w) s = execIcmp w s := rfl
theorem exec_sel (w : VecW) (s : State) :
    exec (.sel w) s = execSel w s := rfl
theorem exec_mov (w : VecW) (s : State) :
    exec (.mov w) s = execMov w s := rfl
theorem exec_movi (w : VecW) (s : State) :
    exec (.movi w) s = execMovi w s := rfl
theorem exec_iaddsh (w : VecW) (s : State) :
    exec (.iaddsh w) s = execIaddsh w s := rfl
theorem exec_idot4 (w : VecW) (s : State) :
    exec (.idot4 w) s = execIdot4 w s := rfl
theorem exec_fadd (w : VecW) (s : State) :
    exec (.fadd w) s = execFadd w s := rfl
theorem exec_fsub (w : VecW) (s : State) :
    exec (.fsub w) s = execFsub w s := rfl
theorem exec_fmul (w : VecW) (s : State) :
    exec (.fmul w) s = execFmul w s := rfl
theorem exec_ffma (w : VecW) (s : State) :
    exec (.ffma w) s = execFfma w s := rfl
theorem exec_fmin (w : VecW) (s : State) :
    exec (.fmin w) s = execFmin w s := rfl
theorem exec_fmax (w : VecW) (s : State) :
    exec (.fmax w) s = execFmax w s := rfl
theorem exec_fcmp (w : VecW) (s : State) :
    exec (.fcmp w) s = execFcmp w s := rfl
theorem exec_fclass (w : VecW) (s : State) :
    exec (.fclass w) s = execFclass w s := rfl
theorem exec_frnd (w : VecW) (s : State) :
    exec (.frnd w) s = execFrnd w s := rfl
theorem exec_fdot2 (w : VecW) (s : State) :
    exec (.fdot2 w) s = execFdot2 w s := rfl
theorem exec_fscale (w : VecW) (s : State) :
    exec (.fscale w) s = execFscale w s := rfl
theorem exec_ffract (w : VecW) (s : State) :
    exec (.ffract w) s = execFfract w s := rfl
theorem exec_fdiv (w : VecW) (s : State) :
    exec (.fdiv w) s = execFdiv w s := rfl
theorem exec_cvt (w : VecW) (s : State) :
    exec (.cvt w) s = execCvt w s := rfl
theorem exec_pack (w : VecW) (s : State) :
    exec (.pack w) s = execPack w s := rfl
theorem exec_unpack (w : VecW) (s : State) :
    exec (.unpack w) s = execUnpack w s := rfl
theorem exec_qnt (w : VecW) (s : State) :
    exec (.qnt w) s = execQnt w s := rfl
theorem exec_dqnt (w : VecW) (s : State) :
    exec (.dqnt w) s = execDqnt w s := rfl
theorem exec_rcp (w : VecW) (s : State) :
    exec (.rcp w) s = execRcp w s := rfl
theorem exec_rsq (w : VecW) (s : State) :
    exec (.rsq w) s = execRsq w s := rfl
theorem exec_sqrt (w : VecW) (s : State) :
    exec (.sqrt w) s = execSqrt w s := rfl
theorem exec_exp2 (w : VecW) (s : State) :
    exec (.exp2 w) s = execExp2 w s := rfl
theorem exec_log2 (w : VecW) (s : State) :
    exec (.log2 w) s = execLog2 w s := rfl
theorem exec_sin (w : VecW) (s : State) :
    exec (.sin w) s = execSin w s := rfl
theorem exec_cos (w : VecW) (s : State) :
    exec (.cos w) s = execCos w s := rfl
theorem exec_tanh (w : VecW) (s : State) :
    exec (.tanh w) s = execTanh w s := rfl
theorem exec_vpair (w : PairW) (s : State) :
    exec (.vpair w) s = execVpair w s := rfl
theorem exec_shfl (w : VecW) (s : State) :
    exec (.shfl w) s = execShfl w s := rfl
theorem exec_push (w : VecW) (s : State) :
    exec (.push w) s = execPush w s := rfl
theorem exec_ballot (w : VecW) (s : State) :
    exec (.ballot w) s = execBallot w s := rfl
theorem exec_voteall (w : VecW) (s : State) :
    exec (.voteall w) s = execVoteall w s := rfl
theorem exec_voteany (w : VecW) (s : State) :
    exec (.voteany w) s = execVoteany w s := rfl
theorem exec_voteeq (w : VecW) (s : State) :
    exec (.voteeq w) s = execVoteeq w s := rfl
theorem exec_cmprs (w : VecW) (s : State) :
    exec (.cmprs w) s = execCmprs w s := rfl
theorem exec_expnd (w : VecW) (s : State) :
    exec (.expnd w) s = execExpnd w s := rfl
theorem exec_slup (w : VecW) (s : State) :
    exec (.slup w) s = execSlup w s := rfl
theorem exec_sldn (w : VecW) (s : State) :
    exec (.sldn w) s = execSldn w s := rfl
theorem exec_redadd (w : VecW) (s : State) :
    exec (.redadd w) s = execRedadd w s := rfl
theorem exec_redmin (w : VecW) (s : State) :
    exec (.redmin w) s = execRedmin w s := rfl
theorem exec_redmax (w : VecW) (s : State) :
    exec (.redmax w) s = execRedmax w s := rfl
theorem exec_scanadd (w : VecW) (s : State) :
    exec (.scanadd w) s = execScanadd w s := rfl
theorem exec_matchLanes (w : VecW) (s : State) :
    exec (.matchLanes w) s = execMatchLanes w s := rfl
theorem exec_actmask (w : VecW) (s : State) :
    exec (.actmask w) s = execActmask w s := rfl
theorem exec_ld (w : MemW) (s : State) :
    exec (.ld w) s = execLd w s := rfl
theorem exec_st (w : MemW) (s : State) :
    exec (.st w) s = execSt w s := rfl
theorem exec_ldu (w : MemW) (s : State) :
    exec (.ldu w) s = execLdu w s := rfl
theorem exec_atom (w : MemW) (s : State) :
    exec (.atom w) s = execAtom w s := rfl
theorem exec_red (w : MemW) (s : State) :
    exec (.red w) s = execRed w s := rfl
theorem exec_cas (w : MemW) (s : State) :
    exec (.cas w) s = execCas w s := rfl
theorem exec_ord (w : MemW) (s : State) :
    exec (.ord w) s = execOrd w s := rfl
theorem exec_fence (w : MemW) (s : State) :
    exec (.fence w) s = execFence w s := rfl
theorem exec_waitc (w : MemW) (s : State) :
    exec (.waitc w) s = execWaitc w s := rfl
theorem exec_pref (w : MemW) (s : State) :
    exec (.pref w) s = execPref w s := rfl
theorem exec_invt (w : MemW) (s : State) :
    exec (.invt w) s = execInvt w s := rfl
theorem exec_mma (w : MmaW) (k : BitVec 120) (s : State) :
    exec (.mma w k) s = execMma w k s := rfl
theorem exec_tlma (w : MmaW) (k : BitVec 120) (s : State) :
    exec (.tlma w k) s = execTlma w k s := rfl
theorem exec_tlpre (w : MmaW) (s : State) :
    exec (.tlpre w) s = execTlpre w s := rfl
theorem exec_mzero (w : MmaW) (s : State) :
    exec (.mzero w) s = execMzero w s := rfl
theorem exec_mldt (w : MmaW) (s : State) :
    exec (.mldt w) s = execMldt w s := rfl
theorem exec_mstt (w : MmaW) (s : State) :
    exec (.mstt w) s = execMstt w s := rfl
theorem exec_rast (w : MacroW) (s : State) :
    exec (.rast w) s = execRast w s := rfl
theorem exec_blend (w : MacroW) (s : State) :
    exec (.blend w) s = execBlend w s := rfl
theorem exec_filt (w : MacroW) (s : State) :
    exec (.filt w) s = execFilt w s := rfl
theorem exec_trav (w : MacroW) (s : State) :
    exec (.trav w) s = execTrav w s := rfl
theorem exec_bin (w : MacroW) (s : State) :
    exec (.bin w) s = execBin w s := rfl
theorem exec_binPop (w : MacroW) (s : State) :
    exec (.binPop w) s = execBinPop w s := rfl
theorem exec_mcode (op : BitVec 8) (w : MacroW) (s : State) :
    exec (.mcode op w) s = execMcode op w s := rfl
theorem exec_bar (w : SyncW) (s : State) :
    exec (.bar w) s = execBar w s := rfl
theorem exec_barc (w : SyncW) (s : State) :
    exec (.barc w) s = execBarc w s := rfl
theorem exec_barcFinal (w : SyncW) (s : State) :
    exec (.barcFinal w) s = execBarcFinal w s := rfl
theorem exec_barg (w : SyncW) (s : State) :
    exec (.barg w) s = execBarg w s := rfl
theorem exec_grd (w : SyncW) (s : State) :
    exec (.grd w) s = execGrd w s := rfl
theorem exec_gwr (w : SyncW) (s : State) :
    exec (.gwr w) s = execGwr w s := rfl
theorem exec_gatom (w : SyncW) (s : State) :
    exec (.gatom w) s = execGatom w s := rfl
theorem exec_xclaim (w : SyncW) (s : State) :
    exec (.xclaim w) s = execXclaim w s := rfl
theorem exec_xgive (w : SyncW) (s : State) :
    exec (.xgive w) s = execXgive w s := rfl
theorem exec_xquery (w : SyncW) (s : State) :
    exec (.xquery w) s = execXquery w s := rfl
theorem exec_spawn (w : SyncW) (s : State) :
    exec (.spawn w) s = execSpawn w s := rfl
theorem exec_spawnf (w : SyncW) (s : State) :
    exec (.spawnf w) s = execSpawnf w s := rfl
theorem exec_qpop (w : SyncW) (s : State) :
    exec (.qpop w) s = execQpop w s := rfl
theorem exec_qpush (w : SyncW) (s : State) :
    exec (.qpush w) s = execQpush w s := rfl
theorem exec_cancel (w : SyncW) (s : State) :
    exec (.cancel w) s = execCancel w s := rfl
theorem exec_cntrd (w : SyncW) (s : State) :
    exec (.cntrd w) s = execCntrd w s := rfl
theorem exec_cecopy (w : EngW) (k : BitVec 120) (s : State) :
    exec (.cecopy w k) s = execCecopy w k s := rfl
theorem exec_cegath (w : EngW) (k : BitVec 120) (s : State) :
    exec (.cegath w k) s = execCegath w k s := rfl
theorem exec_cescat (w : EngW) (k : BitVec 120) (s : State) :
    exec (.cescat w k) s = execCescat w k s := rfl
theorem exec_cefill (w : EngW) (s : State) :
    exec (.cefill w) s = execCefill w s := rfl
theorem exec_cedec (w : EngW) (k : BitVec 120) (s : State) :
    exec (.cedec w k) s = execCedec w k s := rfl
theorem exec_cestat (w : EngW) (s : State) :
    exec (.cestat w) s = execCestat w s := rfl
theorem exec_tnop (w : TaskW) (s : State) :
    exec (.tnop w) s = execTnop w s := rfl
theorem exec_tbind (w : TaskW) (s : State) :
    exec (.tbind w) s = execTbind w s := rfl
theorem exec_tfree (w : TaskW) (s : State) :
    exec (.tfree w) s = execTfree w s := rfl
theorem exec_tlaunch (w : TaskW) (bs : List BindW) (s : State) :
    exec (.tlaunch w bs) s = execTlaunch w bs s := rfl
theorem exec_tcopy (w : TaskW) (s : State) :
    exec (.tcopy w) s = execTcopy w s := rfl
theorem exec_tfill (w : TaskW) (s : State) :
    exec (.tfill w) s = execTfill w s := rfl
theorem exec_tallred (w : TaskW) (s : State) :
    exec (.tallred w) s = execTallred w s := rfl
theorem exec_tallgat (w : TaskW) (s : State) :
    exec (.tallgat w) s = execTallgat w s := rfl
theorem exec_trdscat (w : TaskW) (s : State) :
    exec (.trdscat w) s = execTrdscat w s := rfl
theorem exec_tdraw (w : TaskW) (bs : List BindW) (s : State) :
    exec (.tdraw w bs) s = execTdraw w bs s := rfl
theorem exec_tpresent (w : TaskW) (s : State) :
    exec (.tpresent w) s = execTpresent w s := rfl
theorem exec_twait (w : TaskW) (s : State) :
    exec (.twait w) s = execTwait w s := rfl
theorem exec_tsignal (w : TaskW) (s : State) :
    exec (.tsignal w) s = execTsignal w s := rfl
theorem exec_tfence (w : TaskW) (s : State) :
    exec (.tfence w) s = execTfence w s := rfl
theorem exec_tkmov (w : TaskW) (s : State) :
    exec (.tkmov w) s = execTkmov w s := rfl
theorem exec_tkadd (w : TaskW) (s : State) :
    exec (.tkadd w) s = execTkadd w s := rfl
theorem exec_tkld (w : TaskW) (s : State) :
    exec (.tkld w) s = execTkld w s := rfl
theorem exec_tkbr (w : TaskW) (s : State) :
    exec (.tkbr w) s = execTkbr w s := rfl
theorem exec_tphase (w : TaskW) (s : State) :
    exec (.tphase w) s = execTphase w s := rfl
theorem exec_tgroup (w : TaskW) (s : State) :
    exec (.tgroup w) s = execTgroup w s := rfl
theorem exec_tend (w : TaskW) (s : State) :
    exec (.tend w) s = execTend w s := rfl
theorem exec_producerWriteback (gang idx : Nat) (s : State) :
    exec (.producerWriteback gang idx) s = execProducerWriteback gang idx s := rfl
theorem exec_laneExited (gang : Nat) (s : State) :
    exec (.laneExited gang) s = execLaneExited gang s := rfl
theorem exec_sleepWake (gang : Nat) (s : State) :
    exec (.sleepWake gang) s = execSleepWake gang s := rfl
theorem exec_activeSetRemove (pid : Nat) (s : State) :
    exec (.activeSetRemove pid) s = execActiveSetRemove pid s := rfl
theorem exec_quadSplit (gang quad : Nat) (s : State) :
    exec (.quadSplit gang quad) s = execQuadSplit gang quad s := rfl
theorem exec_timeSliceEnd (wg : Nat) (s : State) :
    exec (.timeSliceEnd wg) s = execTimeSliceEnd wg s := rfl
theorem exec_admission (part pid : Nat) (s : State) :
    exec (.admission part pid) s = execAdmission part pid s := rfl
theorem exec_drainTimeout (wg : Nat) (s : State) :
    exec (.drainTimeout wg) s = execDrainTimeout wg s := rfl
theorem exec_contextSave (wg addr : Nat) (s : State) :
    exec (.contextSave wg addr) s = execContextSave wg addr s := rfl
theorem exec_contextRestore (wg pid : Nat) (s : State) :
    exec (.contextRestore wg pid) s = execContextRestore wg pid s := rfl
theorem exec_xclaimGrant (pid : Nat) (s : State) :
    exec (.xclaimGrant pid) s = execXclaimGrant pid s := rfl
theorem exec_xgiveCredit (gang : Nat) (s : State) :
    exec (.xgiveCredit gang) s = execXgiveCredit gang s := rfl
theorem exec_regDeadlockReport (pid : Nat) (s : State) :
    exec (.regDeadlockReport pid) s = execRegDeadlockReport pid s := rfl
theorem exec_latheStep (core lathe : Nat) (s : State) :
    exec (.latheStep core lathe) s = execLatheStep core lathe s := rfl
theorem exec_matrixPassStart (pid : Nat) (s : State) :
    exec (.matrixPassStart pid) s = execMatrixPassStart pid s := rfl
theorem exec_matrixBlock (pid : Nat) (s : State) :
    exec (.matrixBlock pid) s = execMatrixBlock pid s := rfl
theorem exec_rdvStallWatchdog (gang pc : Nat) (s : State) :
    exec (.rdvStallWatchdog gang pc) s = execRdvStallWatchdog gang pc s := rfl
theorem exec_binTimerExpire (pid bin : Nat) (s : State) :
    exec (.binTimerExpire pid bin) s = execBinTimerExpire pid bin s := rfl
theorem exec_binLaunch (pid : Nat) (s : State) :
    exec (.binLaunch pid) s = execBinLaunch pid s := rfl
theorem exec_starterWave (cluster : Nat) (s : State) :
    exec (.starterWave cluster) s = execStarterWave cluster s := rfl
theorem exec_waitcWake (gang idx : Nat) (s : State) :
    exec (.waitcWake gang idx) s = execWaitcWake gang idx s := rfl
theorem exec_parkedPoll (gang idx : Nat) (s : State) :
    exec (.parkedPoll gang idx) s = execParkedPoll gang idx s := rfl
theorem exec_qpopCopy (gang idx : Nat) (s : State) :
    exec (.qpopCopy gang idx) s = execQpopCopy gang idx s := rfl
theorem exec_wcbLineDrain (core line : Nat) (s : State) :
    exec (.wcbLineDrain core line) s = execWcbLineDrain core line s := rfl
theorem exec_wcbDrainTimeout (core line : Nat) (s : State) :
    exec (.wcbDrainTimeout core line) s = execWcbDrainTimeout core line s := rfl
theorem exec_engComplete (cluster idx : Nat) (s : State) :
    exec (.engComplete cluster idx) s = execEngComplete cluster idx s := rfl
theorem exec_pageFaultService (part idx : Nat) (s : State) :
    exec (.pageFaultService part idx) s = execPageFaultService part idx s := rfl
theorem exec_pfholdTimeout (part : Nat) (s : State) :
    exec (.pfholdTimeout part) s = execPfholdTimeout part s := rfl
theorem exec_pfrespReplay (part tenant page : Nat) (s : State) :
    exec (.pfrespReplay part tenant page) s = execPfrespReplay part tenant page s := rfl
theorem exec_pfrespDeny (part tenant page : Nat) (s : State) :
    exec (.pfrespDeny part tenant page) s = execPfrespDeny part tenant page s := rfl
theorem exec_tlbInvalidate (tenant page : Nat) (s : State) :
    exec (.tlbInvalidate tenant page) s = execTlbInvalidate tenant page s := rfl
theorem exec_eccError (unit addr : Nat) (double : Bool) (s : State) :
    exec (.eccError unit addr double) s = execEccError unit addr double s := rfl
theorem exec_illegalEncoding (sub : BitVec 8) (s : State) :
    exec (.illegalEncoding sub) s = execIllegalEncoding sub s := rfl
theorem exec_fetchFault (addr : W64) (s : State) :
    exec (.fetchFault addr) s = execFetchFault addr s := rfl
theorem exec_taskComplete (part id : Nat) (s : State) :
    exec (.taskComplete part id) s = execTaskComplete part id s := rfl
theorem exec_taskRetire (part port : Nat) (s : State) :
    exec (.taskRetire part port) s = execTaskRetire part port s := rfl
theorem exec_tctlGo (part port tenant : Nat) (s : State) :
    exec (.tctlGo part port tenant) s = execTctlGo part port tenant s := rfl
theorem exec_tctlHalt (part port : Nat) (s : State) :
    exec (.tctlHalt part port) s = execTctlHalt part port s := rfl
theorem exec_freeadd (part : Nat) (v : W64) (s : State) :
    exec (.freeadd part v) s = execFreeadd part v s := rfl
theorem exec_wlimitWrite (part : Nat) (v : W64) (s : State) :
    exec (.wlimitWrite part v) s = execWlimitWrite part v s := rfl
theorem exec_snapshotTimeout (part port : Nat) (s : State) :
    exec (.snapshotTimeout part port) s = execSnapshotTimeout part port s := rfl
theorem exec_bootctlGo (s : State) :
    exec (.bootctlGo) s = execBootctlGo s := rfl
theorem exec_bootctlRestart (mask : BitVec 8) (s : State) :
    exec (.bootctlRestart mask) s = execBootctlRestart mask s := rfl
theorem exec_bootImageCheckDone (s : State) :
    exec (.bootImageCheckDone) s = execBootImageCheckDone s := rfl
theorem exec_powerUp (s : State) :
    exec (.powerUp) s = execPowerUp s := rfl
theorem exec_partitionReset (part : Nat) (s : State) :
    exec (.partitionReset part) s = execPartitionReset part s := rfl
theorem exec_functionLevelReset (s : State) :
    exec (.functionLevelReset) s = execFunctionLevelReset s := rfl
theorem exec_coldReset (s : State) :
    exec (.coldReset) s = execColdReset s := rfl
theorem exec_powerOff (s : State) :
    exec (.powerOff) s = execPowerOff s := rfl
theorem exec_fwHeartbeat (core : Nat) (s : State) :
    exec (.fwHeartbeat core) s = execFwHeartbeat core s := rfl
theorem exec_peakTick (energy : Nat) (s : State) :
    exec (.peakTick energy) s = execPeakTick energy s := rfl
theorem exec_intervalBoundary (s : State) :
    exec (.intervalBoundary) s = execIntervalBoundary s := rfl
theorem exec_powerMsTick (energy : Nat) (temps : List Nat) (s : State) :
    exec (.powerMsTick energy temps) s = execPowerMsTick energy temps s := rfl
theorem exec_headFrameStart (head : Nat) (s : State) :
    exec (.headFrameStart head) s = execHeadFrameStart head s := rfl
theorem exec_getVersion (s : State) :
    exec (.getVersion) s = execGetVersion s := rfl
theorem exec_getCapabilities (s : State) :
    exec (.getCapabilities) s = execGetCapabilities s := rfl
theorem exec_getDigests (s : State) :
    exec (.getDigests) s = execGetDigests s := rfl
theorem exec_linkRetrain (link : Nat) (s : State) :
    exec (.linkRetrain link) s = execLinkRetrain link s := rfl
theorem exec_linkRetrainDone (link : Nat) (s : State) :
    exec (.linkRetrainDone link) s = execLinkRetrainDone link s := rfl
theorem exec_heartbeatSend (group : Nat) (s : State) :
    exec (.heartbeatSend group) s = execHeartbeatSend group s := rfl
theorem exec_ceilingChange (s : State) :
    exec (.ceilingChange) s = execCeilingChange s := rfl
theorem exec_clockLowerBegin (die : Nat) (s : State) :
    exec (.clockLowerBegin die) s = execClockLowerBegin die s := rfl
theorem exec_memberDrop (group member : Nat) (s : State) :
    exec (.memberDrop group member) s = execMemberDrop group member s := rfl
theorem exec_ackTimer (conn : Nat) (s : State) :
    exec (.ackTimer conn) s = execAckTimer conn s := rfl
theorem exec_retransmitTimeout (conn : Nat) (s : State) :
    exec (.retransmitTimeout conn) s = execRetransmitTimeout conn s := rfl
theorem exec_pfcPauseExpiry (port prio : Nat) (s : State) :
    exec (.pfcPauseExpiry port prio) s = execPfcPauseExpiry port prio s := rfl
theorem exec_hostCancel (level a b c : Nat) (s : State) :
    exec (.hostCancel level a b c) s = execHostCancel level a b c s := rfl
theorem exec_qtailWrite (q : Nat) (vs : List W32) (s : State) :
    exec (.qtailWrite q vs) s = execQtailWrite q vs s := rfl
theorem exec_clkpatWrite (cluster : Nat) (v : W64) (s : State) :
    exec (.clkpatWrite cluster v) s = execClkpatWrite cluster v s := rfl
theorem exec_slopeWrite (cluster : Nat) (v : W64) (s : State) :
    exec (.slopeWrite cluster v) s = execSlopeWrite cluster v s := rfl
theorem exec_pcapWrite (v : W64) (s : State) :
    exec (.pcapWrite v) s = execPcapWrite v s := rfl
theorem exec_registerWrite (by_ : Writer) (page : Page) (off : Nat) (v : W64) (s : State) :
    exec (.registerWrite by_ page off v) s = execRegisterWrite by_ page off v s := rfl
theorem exec_mailboxWrite (core sender kind : Nat) (seq : W32) (payload : List Byte) (s : State) :
    exec (.mailboxWrite core sender kind seq payload) s = execMailboxWrite core sender kind seq payload s := rfl
theorem exec_microcodeLoad (part : Nat) (decls : List McodeDecl) (image : List Byte) (s : State) :
    exec (.microcodeLoad part decls image) s = execMicrocodeLoad part decls image s := rfl
theorem exec_negotiateAlgorithms (sign hash aead : Nat) (s : State) :
    exec (.negotiateAlgorithms sign hash aead) s = execNegotiateAlgorithms sign hash aead s := rfl
theorem exec_getCertificate (slot off len : Nat) (s : State) :
    exec (.getCertificate slot off len) s = execGetCertificate slot off len s := rfl
theorem exec_challenge (slot : Nat) (nonce : List Byte) (s : State) :
    exec (.challenge slot nonce) s = execChallenge slot nonce s := rfl
theorem exec_getMeasurements (index : Nat) (signed : Bool) (nonce : List Byte) (s : State) :
    exec (.getMeasurements index signed nonce) s = execGetMeasurements index signed nonce s := rfl
theorem exec_keyExchange (session : Nat) (share : List Byte) (s : State) :
    exec (.keyExchange session share) s = execKeyExchange session share s := rfl
theorem exec_finish (session : Nat) (mac : List Byte) (s : State) :
    exec (.finish session mac) s = execFinish session mac s := rfl
theorem exec_encoderFrameDone (enc : Nat) (bits : List Byte) (s : State) :
    exec (.encoderFrameDone enc bits) s = execEncoderFrameDone enc bits s := rfl
theorem exec_encReadposWrite (enc pos : Nat) (s : State) :
    exec (.encReadposWrite enc pos) s = execEncReadposWrite enc pos s := rfl
theorem exec_flitReceive (link : Nat) (f : Flit) (s : State) :
    exec (.flitReceive link f) s = execFlitReceive link f s := rfl
theorem exec_peerAccessReceive (part rkey pa : Nat) (acc : PeerAcc) (s : State) :
    exec (.peerAccessReceive part rkey pa acc) s = execPeerAccessReceive part rkey pa acc s := rfl
theorem exec_noticeReceive (n : Notice) (s : State) :
    exec (.noticeReceive n) s = execNoticeReceive n s := rfl
theorem exec_collectiveHeaderReceive (part port rank n op sub fmt count : Nat) (abort : Bool) (payload : List CollElem) (s : State) :
    exec (.collectiveHeaderReceive part port rank n op sub fmt count abort payload) s = execCollectiveHeaderReceive part port rank n op sub fmt count abort payload s := rfl
theorem exec_ethFrameReceive (port : Nat) (f : EthFrame) (s : State) :
    exec (.ethFrameReceive port f) s = execEthFrameReceive port f s := rfl
theorem exec_dataPkt (port : Nat) (h : PktHdr) (payload : List Byte) (s : State) :
    exec (.dataPkt port h payload) s = execDataPkt port h payload s := rfl
theorem exec_ackPkt (port : Nat) (h : PktHdr) (s : State) :
    exec (.ackPkt port h) s = execAckPkt port h s := rfl
theorem exec_nackPkt (port : Nat) (h : PktHdr) (s : State) :
    exec (.nackPkt port h) s = execNackPkt port h s := rfl
theorem exec_noticePkt (port : Nat) (h : PktHdr) (n : Notice) (s : State) :
    exec (.noticePkt port h n) s = execNoticePkt port h n s := rfl
theorem exec_timePkt (port : Nat) (h : PktHdr) (stamp : Nat) (s : State) :
    exec (.timePkt port h stamp) s = execTimePkt port h stamp s := rfl
theorem exec_pfcReceive (port prio quanta : Nat) (s : State) :
    exec (.pfcReceive port prio quanta) s = execPfcReceive port prio quanta s := rfl
theorem exec_ethLinkUpDown (port : Nat) (up : Bool) (s : State) :
    exec (.ethLinkUpDown port up) s = execEthLinkUpDown port up s := rfl
theorem exec_fecAlignmentLock (port : Nat) (locked : Bool) (s : State) :
    exec (.fecAlignmentLock port locked) s = execFecAlignmentLock port locked s := rfl
theorem exec_hostLinkAccess (t : HostTarget) (acc : ExtAcc) (s : State) :
    exec (.hostLinkAccess t acc) s = execHostLinkAccess t acc s := rfl
theorem exec_tdispRequest (vf : Nat) (r : TdispReq) (s : State) :
    exec (.tdispRequest vf r) s = execTdispRequest vf r s := rfl
theorem exec_spdmSessionMessage (m : SecMsg) (s : State) :
    exec (.spdmSessionMessage m) s = execSpdmSessionMessage m s := rfl

end Sys2Proof.Machine
end

