-- ==== Sys2Proof/Laws/SMap.lean ====
section
/-! SUPPORT. The sparse maps: reads after writes, and that every operation keeps the canonical form. -/

namespace Sys2Proof.SMap

variable {α : Type}

@[simp] theorem find?_nil (k : Nat) : ([] : SMap α).find? k = none := rfl

/-- A write is read back. -/
@[simp] theorem find?_set_self (m : SMap α) (k : Nat) (v : α) : (m.set k v).find? k = some v := by
  induction m with
  | nil => simp [set, SMap.find?]
  | cons e m ih =>
    obtain ⟨j, u⟩ := e
    by_cases h1 : k < j
    · simp [set, h1, SMap.find?]
    · by_cases h2 : k = j
      · simp [set, h2, SMap.find?]
      · simp [set, h1, h2, SMap.find?, Ne.symm h2, ih]

/-- A write leaves every other key alone. -/
theorem find?_set_ne (m : SMap α) {k j : Nat} (v : α) (h : j ≠ k) : (m.set k v).find? j = m.find? j := by
  induction m with
  | nil => simp [set, SMap.find?, Ne.symm h]
  | cons e m ih =>
    obtain ⟨i, u⟩ := e
    by_cases h1 : k < i
    · simp [set, h1, SMap.find?, Ne.symm h]
    · by_cases h2 : k = i
      · subst h2; simp [set, SMap.find?, Ne.symm h]
      · simp [set, h1, h2, SMap.find?, ih]

theorem find?_set (m : SMap α) (k j : Nat) (v : α) : (m.set k v).find? j = if j = k then some v else m.find? j := by
  by_cases h : j = k
  · simp [h]
  · simp [h, find?_set_ne m v h]

/-- A change of one entry. -/
theorem find?_upd (m : SMap α) (k j : Nat) (f : α → α) :
    (m.upd k f).find? j = if j = k then (m.find? k).map f else m.find? j := by
  induction m with
  | nil => simp [upd, SMap.find?]
  | cons e m ih =>
    obtain ⟨i, u⟩ := e
    by_cases h1 : i = k
    · subst h1
      by_cases h2 : j = i
      · simp [upd, SMap.find?, h2]
      · simp [upd, SMap.find?, h2, Ne.symm h2]
    · by_cases h2 : j = k
      · subst h2; simp [upd, SMap.find?, h1, ih]
      · simp only [upd, h1, SMap.find?, if_false]
        by_cases h3 : i = j <;> simp [h3, ih, h2]

@[simp] theorem find?_upd_self (m : SMap α) (k : Nat) (f : α → α) : (m.upd k f).find? k = (m.find? k).map f := by
  simp [find?_upd]

/-- Keys above a bound lie above a smaller one. -/
theorem above_mono {m : SMap α} : ∀ {a b : Nat}, a ≤ b → above b m = true → above a m = true := by
  induction m with
  | nil => intros; rfl
  | cons e m ih =>
    obtain ⟨i, u⟩ := e
    intro a b hab h
    simp only [above, Bool.and_eq_true, decide_eq_true_eq] at h ⊢
    exact ⟨by omega, h.2⟩

theorem find?_above {m : SMap α} : ∀ {a k : Nat}, above a m = true → k < a → m.find? k = none := by
  induction m with
  | nil => intros; rfl
  | cons e m ih =>
    obtain ⟨i, u⟩ := e
    intro a k h hk
    simp only [above, Bool.and_eq_true, decide_eq_true_eq] at h
    have : i ≠ k := by omega
    simp [SMap.find?, this, ih h.2 (by omega : k < i + 1)]

theorem above_set {m : SMap α} : ∀ {a : Nat} (k : Nat) (v : α), above a m = true → a ≤ k → above a (m.set k v) = true := by
  induction m with
  | nil => intro a k v _ hk; simp [set, above, hk]
  | cons e m ih =>
    obtain ⟨i, u⟩ := e
    intro a k v h hk
    simp only [above, Bool.and_eq_true, decide_eq_true_eq] at h
    by_cases h1 : k < i
    · simp only [set, h1, if_true, above, Bool.and_eq_true, decide_eq_true_eq]; exact ⟨hk, by omega, h.2⟩
    · by_cases h2 : k = i
      · subst h2; simp [set, above, hk, h.2]
      · simp [set, h1, h2, above, h.1, ih k v h.2 (by omega : i + 1 ≤ k)]

theorem above_del {m : SMap α} : ∀ {a : Nat} (k : Nat), above a m = true → above a (m.del k) = true := by
  induction m with
  | nil => intros; rfl
  | cons e m ih =>
    obtain ⟨i, u⟩ := e
    intro a k h
    simp only [above, Bool.and_eq_true, decide_eq_true_eq] at h
    by_cases h1 : i = k
    · simp only [del, h1, if_true]; exact ih k (above_mono (by omega : a ≤ i + 1) h.2)
    · simp [del, h1, above, h.1, ih k h.2]

theorem find?_del (m : SMap α) (k j : Nat) : (m.del k).find? j = if j = k then none else m.find? j := by
  induction m with
  | nil => simp [del, SMap.find?]
  | cons e m ih =>
    obtain ⟨i, u⟩ := e
    by_cases h1 : i = k
    · subst h1
      by_cases h2 : j = i
      · simpa [del, h2] using ih
      · simpa [del, SMap.find?, h2, Ne.symm h2] using ih
    · by_cases h2 : j = k
      · subst h2; simpa [del, h1, SMap.find?] using ih
      · simp only [del, h1, SMap.find?, if_false, h2]
        by_cases h3 : i = j <;> simp [h3, ih, h2]

theorem wf_set {m : SMap α} (k : Nat) (v : α) (h : m.wf = true) : (m.set k v).wf = true := above_set k v h (Nat.zero_le k)
theorem wf_del {m : SMap α} (k : Nat) (h : m.wf = true) : (m.del k).wf = true := above_del k h

section
variable [DecidableEq α]

theorem noDefault_set {d : α} {m : SMap α} (k : Nat) {v : α} (hv : v ≠ d) (h : m.noDefault d = true) :
    (m.set k v).noDefault d = true := by
  induction m with
  | nil => simp [set, noDefault, hv]
  | cons e m ih =>
    obtain ⟨i, u⟩ := e
    simp only [noDefault, List.all_cons, Bool.and_eq_true] at h ih
    by_cases h1 : k < i
    · simp only [set, h1, if_true, noDefault, List.all_cons, h.1, h.2, Bool.true_and, Bool.and_true, decide_eq_true_eq]; exact hv
    · by_cases h2 : k = i
      · subst h2; simp only [set, lt_irrefl, if_false, if_true, noDefault, List.all_cons, h.2, Bool.and_true, decide_eq_true_eq]; exact hv
      · simp only [set, h1, h2, if_false, noDefault, List.all_cons, h.1, Bool.true_and]; exact ih h.2

theorem noDefault_del {d : α} {m : SMap α} (k : Nat) (h : m.noDefault d = true) : (m.del k).noDefault d = true := by
  induction m with
  | nil => rfl
  | cons e m ih =>
    obtain ⟨i, u⟩ := e
    simp only [noDefault, List.all_cons, Bool.and_eq_true] at h ih
    by_cases h1 : i = k
    · simp only [del, h1, if_true, noDefault]; exact ih h.2
    · simp only [del, h1, if_false, noDefault, List.all_cons, h.1, Bool.true_and]; exact ih h.2

/-- A write keeps the canonical form. -/
theorem canon_put {d : α} {m : SMap α} (k : Nat) (v : α) (h : m.canon d = true) : (m.put d k v).canon d = true := by
  simp only [canon, Bool.and_eq_true] at h ⊢
  by_cases hv : v = d
  · simp only [put, hv, if_true]; exact ⟨wf_del k h.1, noDefault_del k h.2⟩
  · simp only [put, hv, if_false]; exact ⟨wf_set k v h.1, noDefault_set k hv h.2⟩

/-- What a key reads as after a write. -/
theorem getD_put {d : α} (m : SMap α) (k j : Nat) (v : α) :
    (m.put d k v).getD j d = if j = k then v else m.getD j d := by
  by_cases hv : v = d
  · simp only [put, hv, if_true, getD, find?_del]
    by_cases hj : j = k <;> simp [hj]
  · simp only [put, hv, if_false, getD, find?_set]
    by_cases hj : j = k <;> simp [hj]

/-- Several writes keep the canonical form. -/
theorem canon_putAll {d : α} (xs : List (Nat × α)) : ∀ {m : SMap α}, m.canon d = true →
    (xs.foldl (fun m b => m.put d b.1 b.2) m).canon d = true := by
  induction xs with
  | nil => intro m h; exact h
  | cons x xs ih => intro m h; exact ih (canon_put x.1 x.2 h)

/-- Several writes leave a key that none of them names. -/
theorem getD_putAll {d : α} (xs : List (Nat × α)) (j : Nat) : ∀ {m : SMap α}, j ∉ xs.map (·.1) →
    (xs.foldl (fun m b => m.put d b.1 b.2) m).getD j d = m.getD j d := by
  induction xs with
  | nil => intros; rfl
  | cons x xs ih =>
    intro m hj
    simp only [List.map_cons, List.mem_cons, not_or] at hj
    rw [List.foldl_cons, ih hj.2, getD_put, if_neg hj.1]

end

end Sys2Proof.SMap
end

