-- ==== Sys2Proof/Laws/State.lean ====
section
/-! SUPPORT. What each field of the state, and of a gang, is after an update: one lemma a field, so that no proof unfolds
a record update. -/

namespace Sys2Proof.Machine

/-! ### Updates of the state -/

@[simp] theorem State.setGang_part (s : State) (gid : Nat) (g : Gang) : (s.setGang gid g).part = s.part := rfl
@[simp] theorem State.setGang_powered (s : State) (gid : Nat) (g : Gang) : (s.setGang gid g).powered = s.powered := rfl
@[simp] theorem State.setGang_agenda (s : State) (gid : Nat) (g : Gang) : (s.setGang gid g).agenda = s.agenda := rfl
@[simp] theorem State.setGang_cur (s : State) (gid : Nat) (g : Gang) : (s.setGang gid g).cur = s.cur := rfl
@[simp] theorem State.setGang_deferNow (s : State) (gid : Nat) (g : Gang) : (s.setGang gid g).deferNow = s.deferNow := rfl
@[simp] theorem State.setGang_deferred (s : State) (gid : Nat) (g : Gang) : (s.setGang gid g).deferred = s.deferred := rfl
@[simp] theorem State.setGang_freeCtr (s : State) (gid : Nat) (g : Gang) : (s.setGang gid g).freeCtr = s.freeCtr := rfl
@[simp] theorem State.setGang_cycle (s : State) (gid : Nat) (g : Gang) : (s.setGang gid g).cycle = s.cycle := rfl
@[simp] theorem State.setGang_fabtime (s : State) (gid : Nat) (g : Gang) : (s.setGang gid g).fabtime = s.fabtime := rfl
@[simp] theorem State.setGang_fabFrac (s : State) (gid : Nat) (g : Gang) : (s.setGang gid g).fabFrac = s.fabFrac := rfl
@[simp] theorem State.setGang_ceil (s : State) (gid : Nat) (g : Gang) : (s.setGang gid g).ceil = s.ceil := rfl
@[simp] theorem State.setGang_ceilNext (s : State) (gid : Nat) (g : Gang) : (s.setGang gid g).ceilNext = s.ceilNext := rfl
@[simp] theorem State.setGang_mem (s : State) (gid : Nat) (g : Gang) : (s.setGang gid g).mem = s.mem := rfl
@[simp] theorem State.setGang_vmem (s : State) (gid : Nat) (g : Gang) : (s.setGang gid g).vmem = s.vmem := rfl
@[simp] theorem State.setGang_memPoison (s : State) (gid : Nat) (g : Gang) : (s.setGang gid g).memPoison = s.memPoison := rfl
@[simp] theorem State.setGang_vmemPoison (s : State) (gid : Nat) (g : Gang) : (s.setGang gid g).vmemPoison = s.vmemPoison := rfl
@[simp] theorem State.setGang_lineKey (s : State) (gid : Nat) (g : Gang) : (s.setGang gid g).lineKey = s.lineKey := rfl
@[simp] theorem State.setGang_absentAcc (s : State) (gid : Nat) (g : Gang) : (s.setGang gid g).absentAcc = s.absentAcc := rfl
@[simp] theorem State.setGang_wcb (s : State) (gid : Nat) (g : Gang) : (s.setGang gid g).wcb = s.wcb := rfl
@[simp] theorem State.setGang_cpt (s : State) (gid : Nat) (g : Gang) : (s.setGang gid g).cpt = s.cpt := rfl
@[simp] theorem State.setGang_l1 (s : State) (gid : Nat) (g : Gang) : (s.setGang gid g).l1 = s.l1 := rfl
@[simp] theorem State.setGang_l1Bad (s : State) (gid : Nat) (g : Gang) : (s.setGang gid g).l1Bad = s.l1Bad := rfl
@[simp] theorem State.setGang_tex (s : State) (gid : Nat) (g : Gang) : (s.setGang gid g).tex = s.tex := rfl
@[simp] theorem State.setGang_icache (s : State) (gid : Nat) (g : Gang) : (s.setGang gid g).icache = s.icache := rfl
@[simp] theorem State.setGang_l0 (s : State) (gid : Nat) (g : Gang) : (s.setGang gid g).l0 = s.l0 := rfl
@[simp] theorem State.setGang_tlb (s : State) (gid : Nat) (g : Gang) : (s.setGang gid g).tlb = s.tlb := rfl
@[simp] theorem State.setGang_vops (s : State) (gid : Nat) (g : Gang) : (s.setGang gid g).vops = s.vops := rfl
@[simp] theorem State.setGang_monitors (s : State) (gid : Nat) (g : Gang) : (s.setGang gid g).monitors = s.monitors := rfl
@[simp] theorem State.setGang_faults (s : State) (gid : Nat) (g : Gang) : (s.setGang gid g).faults = s.faults := rfl
@[simp] theorem State.setGang_cregs (s : State) (gid : Nat) (g : Gang) : (s.setGang gid g).cregs = s.cregs := rfl
@[simp] theorem State.setGang_roots (s : State) (gid : Nat) (g : Gang) : (s.setGang gid g).roots = s.roots := rfl
@[simp] theorem State.setGang_pkg (s : State) (gid : Nat) (g : Gang) : (s.setGang gid g).pkg = s.pkg := rfl
@[simp] theorem State.setGang_nextGang (s : State) (gid : Nat) (g : Gang) : (s.setGang gid g).nextGang = s.nextGang := rfl
@[simp] theorem State.setGang_wgs (s : State) (gid : Nat) (g : Gang) : (s.setGang gid g).wgs = s.wgs := rfl
@[simp] theorem State.setGang_nextWg (s : State) (gid : Nat) (g : Gang) : (s.setGang gid g).nextWg = s.nextWg := rfl
@[simp] theorem State.setGang_admitSeq (s : State) (gid : Nat) (g : Gang) : (s.setGang gid g).admitSeq = s.admitSeq := rfl
@[simp] theorem State.setGang_launches (s : State) (gid : Nat) (g : Gang) : (s.setGang gid g).launches = s.launches := rfl
@[simp] theorem State.setGang_nextLaunch (s : State) (gid : Nat) (g : Gang) : (s.setGang gid g).nextLaunch = s.nextLaunch := rfl
@[simp] theorem State.setGang_phases (s : State) (gid : Nat) (g : Gang) : (s.setGang gid g).phases = s.phases := rfl
@[simp] theorem State.setGang_jobs (s : State) (gid : Nat) (g : Gang) : (s.setGang gid g).jobs = s.jobs := rfl
@[simp] theorem State.setGang_phaseCancelled (s : State) (gid : Nat) (g : Gang) : (s.setGang gid g).phaseCancelled = s.phaseCancelled := rfl
@[simp] theorem State.setGang_jobCancelled (s : State) (gid : Nat) (g : Gang) : (s.setGang gid g).jobCancelled = s.jobCancelled := rfl
@[simp] theorem State.setGang_cparts (s : State) (gid : Nat) (g : Gang) : (s.setGang gid g).cparts = s.cparts := rfl
@[simp] theorem State.setGang_cregOld (s : State) (gid : Nat) (g : Gang) : (s.setGang gid g).cregOld = s.cregOld := rfl
@[simp] theorem State.setGang_taskWake (s : State) (gid : Nat) (g : Gang) : (s.setGang gid g).taskWake = s.taskWake := rfl
@[simp] theorem State.setGang_starters (s : State) (gid : Nat) (g : Gang) : (s.setGang gid g).starters = s.starters := rfl
@[simp] theorem State.setGang_lathes (s : State) (gid : Nat) (g : Gang) : (s.setGang gid g).lathes = s.lathes := rfl
@[simp] theorem State.setGang_latheBusy (s : State) (gid : Nat) (g : Gang) : (s.setGang gid g).latheBusy = s.latheBusy := rfl
@[simp] theorem State.setGang_engines (s : State) (gid : Nat) (g : Gang) : (s.setGang gid g).engines = s.engines := rfl
@[simp] theorem State.setGang_engNext (s : State) (gid : Nat) (g : Gang) : (s.setGang gid g).engNext = s.engNext := rfl
@[simp] theorem State.setGang_chans (s : State) (gid : Nat) (g : Gang) : (s.setGang gid g).chans = s.chans := rfl
@[simp] theorem State.setGang_keyMat (s : State) (gid : Nat) (g : Gang) : (s.setGang gid g).keyMat = s.keyMat := rfl
@[simp] theorem State.setGang_hostlog (s : State) (gid : Nat) (g : Gang) : (s.setGang gid g).hostlog = s.hostlog := rfl
@[simp] theorem State.setGang_fwCores (s : State) (gid : Nat) (g : Gang) : (s.setGang gid g).fwCores = s.fwCores := rfl
@[simp] theorem State.setGang_fwMem (s : State) (gid : Nat) (g : Gang) : (s.setGang gid g).fwMem = s.fwMem := rfl
@[simp] theorem State.setGang_mailStall (s : State) (gid : Nat) (g : Gang) : (s.setGang gid g).mailStall = s.mailStall := rfl
@[simp] theorem State.setGang_fwWait (s : State) (gid : Nat) (g : Gang) : (s.setGang gid g).fwWait = s.fwWait := rfl
@[simp] theorem State.setGang_terms (s : State) (gid : Nat) (g : Gang) : (s.setGang gid g).terms = s.terms := rfl
@[simp] theorem State.setGang_errWait (s : State) (gid : Nat) (g : Gang) : (s.setGang gid g).errWait = s.errWait := rfl
@[simp] theorem State.setGang_microcode (s : State) (gid : Nat) (g : Gang) : (s.setGang gid g).microcode = s.microcode := rfl
@[simp] theorem State.setGang_openings (s : State) (gid : Nat) (g : Gang) : (s.setGang gid g).openings = s.openings := rfl
@[simp] theorem State.setGang_qcopied (s : State) (gid : Nat) (g : Gang) : (s.setGang gid g).qcopied = s.qcopied := rfl
@[simp] theorem State.setGang_msix (s : State) (gid : Nat) (g : Gang) : (s.setGang gid g).msix = s.msix := rfl
@[simp] theorem State.setGang_peerOut (s : State) (gid : Nat) (g : Gang) : (s.setGang gid g).peerOut = s.peerOut := rfl
@[simp] theorem State.setGang_fwver (s : State) (gid : Nat) (g : Gang) : (s.setGang gid g).fwver = s.fwver := rfl
@[simp] theorem State.setGang_secver (s : State) (gid : Nat) (g : Gang) : (s.setGang gid g).secver = s.secver := rfl
@[simp] theorem State.setGang_heldScr (s : State) (gid : Nat) (g : Gang) : (s.setGang gid g).heldScr = s.heldScr := rfl
@[simp] theorem State.setGang_l2 (s : State) (gid : Nat) (g : Gang) : (s.setGang gid g).l2 = s.l2 := rfl
@[simp] theorem State.setGang_l2clock (s : State) (gid : Nat) (g : Gang) : (s.setGang gid g).l2clock = s.l2clock := rfl
@[simp] theorem State.setGang_tailSeen (s : State) (gid : Nat) (g : Gang) : (s.setGang gid g).tailSeen = s.tailSeen := rfl
@[simp] theorem State.setGang_useBw (s : State) (gid : Nat) (g : Gang) : (s.setGang gid g).useBw = s.useBw := rfl
@[simp] theorem State.setGang_useEn (s : State) (gid : Nat) (g : Gang) : (s.setGang gid g).useEn = s.useEn := rfl
@[simp] theorem State.setGang_ports (s : State) (gid : Nat) (g : Gang) : (s.setGang gid g).ports = s.ports := rfl
@[simp] theorem State.setGang_tasks (s : State) (gid : Nat) (g : Gang) : (s.setGang gid g).tasks = s.tasks := rfl
@[simp] theorem State.setGang_nextTask (s : State) (gid : Nat) (g : Gang) : (s.setGang gid g).nextTask = s.nextTask := rfl
@[simp] theorem State.setGang_freeLists (s : State) (gid : Nat) (g : Gang) : (s.setGang gid g).freeLists = s.freeLists := rfl
@[simp] theorem State.setGang_handles (s : State) (gid : Nat) (g : Gang) : (s.setGang gid g).handles = s.handles := rfl
@[simp] theorem State.setGang_decodeLast (s : State) (gid : Nat) (g : Gang) : (s.setGang gid g).decodeLast = s.decodeLast := rfl
@[simp] theorem State.setGang_winMark (s : State) (gid : Nat) (g : Gang) : (s.setGang gid g).winMark = s.winMark := rfl
@[simp] theorem State.setGang_issueLast (s : State) (gid : Nat) (g : Gang) : (s.setGang gid g).issueLast = s.issueLast := rfl
@[simp] theorem State.setGang_nextPhase (s : State) (gid : Nat) (g : Gang) : (s.setGang gid g).nextPhase = s.nextPhase := rfl
@[simp] theorem State.setGang_nextJob (s : State) (gid : Nat) (g : Gang) : (s.setGang gid g).nextJob = s.nextJob := rfl
@[simp] theorem State.setGang_collIn (s : State) (gid : Nat) (g : Gang) : (s.setGang gid g).collIn = s.collIn := rfl
@[simp] theorem State.setGang_groupMail (s : State) (gid : Nat) (g : Gang) : (s.setGang gid g).groupMail = s.groupMail := rfl
@[simp] theorem State.setGang_collBuf (s : State) (gid : Nat) (g : Gang) : (s.setGang gid g).collBuf = s.collBuf := rfl
@[simp] theorem State.setGang_presents (s : State) (gid : Nat) (g : Gang) : (s.setGang gid g).presents = s.presents := rfl
@[simp] theorem State.setGang_heads (s : State) (gid : Nat) (g : Gang) : (s.setGang gid g).heads = s.heads := rfl
@[simp] theorem State.setGang_encs (s : State) (gid : Nat) (g : Gang) : (s.setGang gid g).encs = s.encs := rfl
@[simp] theorem State.setGang_bootCode (s : State) (gid : Nat) (g : Gang) : (s.setGang gid g).bootCode = s.bootCode := rfl
@[simp] theorem State.setGang_restarting (s : State) (gid : Nat) (g : Gang) : (s.setGang gid g).restarting = s.restarting := rfl
@[simp] theorem State.setGang_staging (s : State) (gid : Nat) (g : Gang) : (s.setGang gid g).staging = s.staging := rfl
@[simp] theorem State.setGang_mail (s : State) (gid : Nat) (g : Gang) : (s.setGang gid g).mail = s.mail := rfl
@[simp] theorem State.setGang_heart (s : State) (gid : Nat) (g : Gang) : (s.setGang gid g).heart = s.heart := rfl
@[simp] theorem State.setGang_image (s : State) (gid : Nat) (g : Gang) : (s.setGang gid g).image = s.image := rfl
@[simp] theorem State.setGang_mcodeImage (s : State) (gid : Nat) (g : Gang) : (s.setGang gid g).mcodeImage = s.mcodeImage := rfl
@[simp] theorem State.setGang_peakTicks (s : State) (gid : Nat) (g : Gang) : (s.setGang gid g).peakTicks = s.peakTicks := rfl
@[simp] theorem State.setGang_msTicks (s : State) (gid : Nat) (g : Gang) : (s.setGang gid g).msTicks = s.msTicks := rfl
@[simp] theorem State.setGang_patWritten (s : State) (gid : Nat) (g : Gang) : (s.setGang gid g).patWritten = s.patWritten := rfl
@[simp] theorem State.setGang_ownLimit (s : State) (gid : Nat) (g : Gang) : (s.setGang gid g).ownLimit = s.ownLimit := rfl
@[simp] theorem State.setGang_ownLimits (s : State) (gid : Nat) (g : Gang) : (s.setGang gid g).ownLimits = s.ownLimits := rfl
@[simp] theorem State.setGang_lowering (s : State) (gid : Nat) (g : Gang) : (s.setGang gid g).lowering = s.lowering := rfl
@[simp] theorem State.setGang_links (s : State) (gid : Nat) (g : Gang) : (s.setGang gid g).links = s.links := rfl
@[simp] theorem State.setGang_timinRoute (s : State) (gid : Nat) (g : Gang) : (s.setGang gid g).timinRoute = s.timinRoute := rfl
@[simp] theorem State.setGang_pacer (s : State) (gid : Nat) (g : Gang) : (s.setGang gid g).pacer = s.pacer := rfl
@[simp] theorem State.setGang_pacerSeq (s : State) (gid : Nat) (g : Gang) : (s.setGang gid g).pacerSeq = s.pacerSeq := rfl
@[simp] theorem State.setGang_noticeWait (s : State) (gid : Nat) (g : Gang) : (s.setGang gid g).noticeWait = s.noticeWait := rfl
@[simp] theorem State.setGang_conns (s : State) (gid : Nat) (g : Gang) : (s.setGang gid g).conns = s.conns := rfl
@[simp] theorem State.setGang_pfcPause (s : State) (gid : Nat) (g : Gang) : (s.setGang gid g).pfcPause = s.pfcPause := rfl
@[simp] theorem State.setGang_spdm (s : State) (gid : Nat) (g : Gang) : (s.setGang gid g).spdm = s.spdm := rfl
@[simp] theorem State.setGang_tdi (s : State) (gid : Nat) (g : Gang) : (s.setGang gid g).tdi = s.tdi := rfl
@[simp] theorem State.setGang_ideKeys (s : State) (gid : Nat) (g : Gang) : (s.setGang gid g).ideKeys = s.ideKeys := rfl
@[simp] theorem State.setGang_sent (s : State) (gid : Nat) (g : Gang) : (s.setGang gid g).sent = s.sent := rfl
@[simp] theorem State.setGang_errReports (s : State) (gid : Nat) (g : Gang) : (s.setGang gid g).errReports = s.errReports := rfl
@[simp] theorem State.setGang_eccCounts (s : State) (gid : Nat) (g : Gang) : (s.setGang gid g).eccCounts = s.eccCounts := rfl

@[simp] theorem State.updGang_part (s : State) (gid : Nat) (f : Gang → Gang) : (s.updGang gid f).part = s.part := rfl
@[simp] theorem State.updGang_powered (s : State) (gid : Nat) (f : Gang → Gang) : (s.updGang gid f).powered = s.powered := rfl
@[simp] theorem State.updGang_agenda (s : State) (gid : Nat) (f : Gang → Gang) : (s.updGang gid f).agenda = s.agenda := rfl
@[simp] theorem State.updGang_cur (s : State) (gid : Nat) (f : Gang → Gang) : (s.updGang gid f).cur = s.cur := rfl
@[simp] theorem State.updGang_deferNow (s : State) (gid : Nat) (f : Gang → Gang) : (s.updGang gid f).deferNow = s.deferNow := rfl
@[simp] theorem State.updGang_deferred (s : State) (gid : Nat) (f : Gang → Gang) : (s.updGang gid f).deferred = s.deferred := rfl
@[simp] theorem State.updGang_freeCtr (s : State) (gid : Nat) (f : Gang → Gang) : (s.updGang gid f).freeCtr = s.freeCtr := rfl
@[simp] theorem State.updGang_cycle (s : State) (gid : Nat) (f : Gang → Gang) : (s.updGang gid f).cycle = s.cycle := rfl
@[simp] theorem State.updGang_fabtime (s : State) (gid : Nat) (f : Gang → Gang) : (s.updGang gid f).fabtime = s.fabtime := rfl
@[simp] theorem State.updGang_fabFrac (s : State) (gid : Nat) (f : Gang → Gang) : (s.updGang gid f).fabFrac = s.fabFrac := rfl
@[simp] theorem State.updGang_ceil (s : State) (gid : Nat) (f : Gang → Gang) : (s.updGang gid f).ceil = s.ceil := rfl
@[simp] theorem State.updGang_ceilNext (s : State) (gid : Nat) (f : Gang → Gang) : (s.updGang gid f).ceilNext = s.ceilNext := rfl
@[simp] theorem State.updGang_mem (s : State) (gid : Nat) (f : Gang → Gang) : (s.updGang gid f).mem = s.mem := rfl
@[simp] theorem State.updGang_vmem (s : State) (gid : Nat) (f : Gang → Gang) : (s.updGang gid f).vmem = s.vmem := rfl
@[simp] theorem State.updGang_memPoison (s : State) (gid : Nat) (f : Gang → Gang) : (s.updGang gid f).memPoison = s.memPoison := rfl
@[simp] theorem State.updGang_vmemPoison (s : State) (gid : Nat) (f : Gang → Gang) : (s.updGang gid f).vmemPoison = s.vmemPoison := rfl
@[simp] theorem State.updGang_lineKey (s : State) (gid : Nat) (f : Gang → Gang) : (s.updGang gid f).lineKey = s.lineKey := rfl
@[simp] theorem State.updGang_absentAcc (s : State) (gid : Nat) (f : Gang → Gang) : (s.updGang gid f).absentAcc = s.absentAcc := rfl
@[simp] theorem State.updGang_wcb (s : State) (gid : Nat) (f : Gang → Gang) : (s.updGang gid f).wcb = s.wcb := rfl
@[simp] theorem State.updGang_cpt (s : State) (gid : Nat) (f : Gang → Gang) : (s.updGang gid f).cpt = s.cpt := rfl
@[simp] theorem State.updGang_l1 (s : State) (gid : Nat) (f : Gang → Gang) : (s.updGang gid f).l1 = s.l1 := rfl
@[simp] theorem State.updGang_l1Bad (s : State) (gid : Nat) (f : Gang → Gang) : (s.updGang gid f).l1Bad = s.l1Bad := rfl
@[simp] theorem State.updGang_tex (s : State) (gid : Nat) (f : Gang → Gang) : (s.updGang gid f).tex = s.tex := rfl
@[simp] theorem State.updGang_icache (s : State) (gid : Nat) (f : Gang → Gang) : (s.updGang gid f).icache = s.icache := rfl
@[simp] theorem State.updGang_l0 (s : State) (gid : Nat) (f : Gang → Gang) : (s.updGang gid f).l0 = s.l0 := rfl
@[simp] theorem State.updGang_tlb (s : State) (gid : Nat) (f : Gang → Gang) : (s.updGang gid f).tlb = s.tlb := rfl
@[simp] theorem State.updGang_vops (s : State) (gid : Nat) (f : Gang → Gang) : (s.updGang gid f).vops = s.vops := rfl
@[simp] theorem State.updGang_monitors (s : State) (gid : Nat) (f : Gang → Gang) : (s.updGang gid f).monitors = s.monitors := rfl
@[simp] theorem State.updGang_faults (s : State) (gid : Nat) (f : Gang → Gang) : (s.updGang gid f).faults = s.faults := rfl
@[simp] theorem State.updGang_cregs (s : State) (gid : Nat) (f : Gang → Gang) : (s.updGang gid f).cregs = s.cregs := rfl
@[simp] theorem State.updGang_roots (s : State) (gid : Nat) (f : Gang → Gang) : (s.updGang gid f).roots = s.roots := rfl
@[simp] theorem State.updGang_pkg (s : State) (gid : Nat) (f : Gang → Gang) : (s.updGang gid f).pkg = s.pkg := rfl
@[simp] theorem State.updGang_nextGang (s : State) (gid : Nat) (f : Gang → Gang) : (s.updGang gid f).nextGang = s.nextGang := rfl
@[simp] theorem State.updGang_wgs (s : State) (gid : Nat) (f : Gang → Gang) : (s.updGang gid f).wgs = s.wgs := rfl
@[simp] theorem State.updGang_nextWg (s : State) (gid : Nat) (f : Gang → Gang) : (s.updGang gid f).nextWg = s.nextWg := rfl
@[simp] theorem State.updGang_admitSeq (s : State) (gid : Nat) (f : Gang → Gang) : (s.updGang gid f).admitSeq = s.admitSeq := rfl
@[simp] theorem State.updGang_launches (s : State) (gid : Nat) (f : Gang → Gang) : (s.updGang gid f).launches = s.launches := rfl
@[simp] theorem State.updGang_nextLaunch (s : State) (gid : Nat) (f : Gang → Gang) : (s.updGang gid f).nextLaunch = s.nextLaunch := rfl
@[simp] theorem State.updGang_phases (s : State) (gid : Nat) (f : Gang → Gang) : (s.updGang gid f).phases = s.phases := rfl
@[simp] theorem State.updGang_jobs (s : State) (gid : Nat) (f : Gang → Gang) : (s.updGang gid f).jobs = s.jobs := rfl
@[simp] theorem State.updGang_phaseCancelled (s : State) (gid : Nat) (f : Gang → Gang) : (s.updGang gid f).phaseCancelled = s.phaseCancelled := rfl
@[simp] theorem State.updGang_jobCancelled (s : State) (gid : Nat) (f : Gang → Gang) : (s.updGang gid f).jobCancelled = s.jobCancelled := rfl
@[simp] theorem State.updGang_cparts (s : State) (gid : Nat) (f : Gang → Gang) : (s.updGang gid f).cparts = s.cparts := rfl
@[simp] theorem State.updGang_cregOld (s : State) (gid : Nat) (f : Gang → Gang) : (s.updGang gid f).cregOld = s.cregOld := rfl
@[simp] theorem State.updGang_taskWake (s : State) (gid : Nat) (f : Gang → Gang) : (s.updGang gid f).taskWake = s.taskWake := rfl
@[simp] theorem State.updGang_starters (s : State) (gid : Nat) (f : Gang → Gang) : (s.updGang gid f).starters = s.starters := rfl
@[simp] theorem State.updGang_lathes (s : State) (gid : Nat) (f : Gang → Gang) : (s.updGang gid f).lathes = s.lathes := rfl
@[simp] theorem State.updGang_latheBusy (s : State) (gid : Nat) (f : Gang → Gang) : (s.updGang gid f).latheBusy = s.latheBusy := rfl
@[simp] theorem State.updGang_engines (s : State) (gid : Nat) (f : Gang → Gang) : (s.updGang gid f).engines = s.engines := rfl
@[simp] theorem State.updGang_engNext (s : State) (gid : Nat) (f : Gang → Gang) : (s.updGang gid f).engNext = s.engNext := rfl
@[simp] theorem State.updGang_chans (s : State) (gid : Nat) (f : Gang → Gang) : (s.updGang gid f).chans = s.chans := rfl
@[simp] theorem State.updGang_keyMat (s : State) (gid : Nat) (f : Gang → Gang) : (s.updGang gid f).keyMat = s.keyMat := rfl
@[simp] theorem State.updGang_hostlog (s : State) (gid : Nat) (f : Gang → Gang) : (s.updGang gid f).hostlog = s.hostlog := rfl
@[simp] theorem State.updGang_fwCores (s : State) (gid : Nat) (f : Gang → Gang) : (s.updGang gid f).fwCores = s.fwCores := rfl
@[simp] theorem State.updGang_fwMem (s : State) (gid : Nat) (f : Gang → Gang) : (s.updGang gid f).fwMem = s.fwMem := rfl
@[simp] theorem State.updGang_mailStall (s : State) (gid : Nat) (f : Gang → Gang) : (s.updGang gid f).mailStall = s.mailStall := rfl
@[simp] theorem State.updGang_fwWait (s : State) (gid : Nat) (f : Gang → Gang) : (s.updGang gid f).fwWait = s.fwWait := rfl
@[simp] theorem State.updGang_terms (s : State) (gid : Nat) (f : Gang → Gang) : (s.updGang gid f).terms = s.terms := rfl
@[simp] theorem State.updGang_errWait (s : State) (gid : Nat) (f : Gang → Gang) : (s.updGang gid f).errWait = s.errWait := rfl
@[simp] theorem State.updGang_microcode (s : State) (gid : Nat) (f : Gang → Gang) : (s.updGang gid f).microcode = s.microcode := rfl
@[simp] theorem State.updGang_openings (s : State) (gid : Nat) (f : Gang → Gang) : (s.updGang gid f).openings = s.openings := rfl
@[simp] theorem State.updGang_qcopied (s : State) (gid : Nat) (f : Gang → Gang) : (s.updGang gid f).qcopied = s.qcopied := rfl
@[simp] theorem State.updGang_msix (s : State) (gid : Nat) (f : Gang → Gang) : (s.updGang gid f).msix = s.msix := rfl
@[simp] theorem State.updGang_peerOut (s : State) (gid : Nat) (f : Gang → Gang) : (s.updGang gid f).peerOut = s.peerOut := rfl
@[simp] theorem State.updGang_fwver (s : State) (gid : Nat) (f : Gang → Gang) : (s.updGang gid f).fwver = s.fwver := rfl
@[simp] theorem State.updGang_secver (s : State) (gid : Nat) (f : Gang → Gang) : (s.updGang gid f).secver = s.secver := rfl
@[simp] theorem State.updGang_heldScr (s : State) (gid : Nat) (f : Gang → Gang) : (s.updGang gid f).heldScr = s.heldScr := rfl
@[simp] theorem State.updGang_l2 (s : State) (gid : Nat) (f : Gang → Gang) : (s.updGang gid f).l2 = s.l2 := rfl
@[simp] theorem State.updGang_l2clock (s : State) (gid : Nat) (f : Gang → Gang) : (s.updGang gid f).l2clock = s.l2clock := rfl
@[simp] theorem State.updGang_tailSeen (s : State) (gid : Nat) (f : Gang → Gang) : (s.updGang gid f).tailSeen = s.tailSeen := rfl
@[simp] theorem State.updGang_useBw (s : State) (gid : Nat) (f : Gang → Gang) : (s.updGang gid f).useBw = s.useBw := rfl
@[simp] theorem State.updGang_useEn (s : State) (gid : Nat) (f : Gang → Gang) : (s.updGang gid f).useEn = s.useEn := rfl
@[simp] theorem State.updGang_ports (s : State) (gid : Nat) (f : Gang → Gang) : (s.updGang gid f).ports = s.ports := rfl
@[simp] theorem State.updGang_tasks (s : State) (gid : Nat) (f : Gang → Gang) : (s.updGang gid f).tasks = s.tasks := rfl
@[simp] theorem State.updGang_nextTask (s : State) (gid : Nat) (f : Gang → Gang) : (s.updGang gid f).nextTask = s.nextTask := rfl
@[simp] theorem State.updGang_freeLists (s : State) (gid : Nat) (f : Gang → Gang) : (s.updGang gid f).freeLists = s.freeLists := rfl
@[simp] theorem State.updGang_handles (s : State) (gid : Nat) (f : Gang → Gang) : (s.updGang gid f).handles = s.handles := rfl
@[simp] theorem State.updGang_decodeLast (s : State) (gid : Nat) (f : Gang → Gang) : (s.updGang gid f).decodeLast = s.decodeLast := rfl
@[simp] theorem State.updGang_winMark (s : State) (gid : Nat) (f : Gang → Gang) : (s.updGang gid f).winMark = s.winMark := rfl
@[simp] theorem State.updGang_issueLast (s : State) (gid : Nat) (f : Gang → Gang) : (s.updGang gid f).issueLast = s.issueLast := rfl
@[simp] theorem State.updGang_nextPhase (s : State) (gid : Nat) (f : Gang → Gang) : (s.updGang gid f).nextPhase = s.nextPhase := rfl
@[simp] theorem State.updGang_nextJob (s : State) (gid : Nat) (f : Gang → Gang) : (s.updGang gid f).nextJob = s.nextJob := rfl
@[simp] theorem State.updGang_collIn (s : State) (gid : Nat) (f : Gang → Gang) : (s.updGang gid f).collIn = s.collIn := rfl
@[simp] theorem State.updGang_groupMail (s : State) (gid : Nat) (f : Gang → Gang) : (s.updGang gid f).groupMail = s.groupMail := rfl
@[simp] theorem State.updGang_collBuf (s : State) (gid : Nat) (f : Gang → Gang) : (s.updGang gid f).collBuf = s.collBuf := rfl
@[simp] theorem State.updGang_presents (s : State) (gid : Nat) (f : Gang → Gang) : (s.updGang gid f).presents = s.presents := rfl
@[simp] theorem State.updGang_heads (s : State) (gid : Nat) (f : Gang → Gang) : (s.updGang gid f).heads = s.heads := rfl
@[simp] theorem State.updGang_encs (s : State) (gid : Nat) (f : Gang → Gang) : (s.updGang gid f).encs = s.encs := rfl
@[simp] theorem State.updGang_bootCode (s : State) (gid : Nat) (f : Gang → Gang) : (s.updGang gid f).bootCode = s.bootCode := rfl
@[simp] theorem State.updGang_restarting (s : State) (gid : Nat) (f : Gang → Gang) : (s.updGang gid f).restarting = s.restarting := rfl
@[simp] theorem State.updGang_staging (s : State) (gid : Nat) (f : Gang → Gang) : (s.updGang gid f).staging = s.staging := rfl
@[simp] theorem State.updGang_mail (s : State) (gid : Nat) (f : Gang → Gang) : (s.updGang gid f).mail = s.mail := rfl
@[simp] theorem State.updGang_heart (s : State) (gid : Nat) (f : Gang → Gang) : (s.updGang gid f).heart = s.heart := rfl
@[simp] theorem State.updGang_image (s : State) (gid : Nat) (f : Gang → Gang) : (s.updGang gid f).image = s.image := rfl
@[simp] theorem State.updGang_mcodeImage (s : State) (gid : Nat) (f : Gang → Gang) : (s.updGang gid f).mcodeImage = s.mcodeImage := rfl
@[simp] theorem State.updGang_peakTicks (s : State) (gid : Nat) (f : Gang → Gang) : (s.updGang gid f).peakTicks = s.peakTicks := rfl
@[simp] theorem State.updGang_msTicks (s : State) (gid : Nat) (f : Gang → Gang) : (s.updGang gid f).msTicks = s.msTicks := rfl
@[simp] theorem State.updGang_patWritten (s : State) (gid : Nat) (f : Gang → Gang) : (s.updGang gid f).patWritten = s.patWritten := rfl
@[simp] theorem State.updGang_ownLimit (s : State) (gid : Nat) (f : Gang → Gang) : (s.updGang gid f).ownLimit = s.ownLimit := rfl
@[simp] theorem State.updGang_ownLimits (s : State) (gid : Nat) (f : Gang → Gang) : (s.updGang gid f).ownLimits = s.ownLimits := rfl
@[simp] theorem State.updGang_lowering (s : State) (gid : Nat) (f : Gang → Gang) : (s.updGang gid f).lowering = s.lowering := rfl
@[simp] theorem State.updGang_links (s : State) (gid : Nat) (f : Gang → Gang) : (s.updGang gid f).links = s.links := rfl
@[simp] theorem State.updGang_timinRoute (s : State) (gid : Nat) (f : Gang → Gang) : (s.updGang gid f).timinRoute = s.timinRoute := rfl
@[simp] theorem State.updGang_pacer (s : State) (gid : Nat) (f : Gang → Gang) : (s.updGang gid f).pacer = s.pacer := rfl
@[simp] theorem State.updGang_pacerSeq (s : State) (gid : Nat) (f : Gang → Gang) : (s.updGang gid f).pacerSeq = s.pacerSeq := rfl
@[simp] theorem State.updGang_noticeWait (s : State) (gid : Nat) (f : Gang → Gang) : (s.updGang gid f).noticeWait = s.noticeWait := rfl
@[simp] theorem State.updGang_conns (s : State) (gid : Nat) (f : Gang → Gang) : (s.updGang gid f).conns = s.conns := rfl
@[simp] theorem State.updGang_pfcPause (s : State) (gid : Nat) (f : Gang → Gang) : (s.updGang gid f).pfcPause = s.pfcPause := rfl
@[simp] theorem State.updGang_spdm (s : State) (gid : Nat) (f : Gang → Gang) : (s.updGang gid f).spdm = s.spdm := rfl
@[simp] theorem State.updGang_tdi (s : State) (gid : Nat) (f : Gang → Gang) : (s.updGang gid f).tdi = s.tdi := rfl
@[simp] theorem State.updGang_ideKeys (s : State) (gid : Nat) (f : Gang → Gang) : (s.updGang gid f).ideKeys = s.ideKeys := rfl
@[simp] theorem State.updGang_sent (s : State) (gid : Nat) (f : Gang → Gang) : (s.updGang gid f).sent = s.sent := rfl
@[simp] theorem State.updGang_errReports (s : State) (gid : Nat) (f : Gang → Gang) : (s.updGang gid f).errReports = s.errReports := rfl
@[simp] theorem State.updGang_eccCounts (s : State) (gid : Nat) (f : Gang → Gang) : (s.updGang gid f).eccCounts = s.eccCounts := rfl

@[simp] theorem State.updWg_part (s : State) (w : Nat) (f : Wg → Wg) : (s.updWg w f).part = s.part := rfl
@[simp] theorem State.updWg_powered (s : State) (w : Nat) (f : Wg → Wg) : (s.updWg w f).powered = s.powered := rfl
@[simp] theorem State.updWg_agenda (s : State) (w : Nat) (f : Wg → Wg) : (s.updWg w f).agenda = s.agenda := rfl
@[simp] theorem State.updWg_cur (s : State) (w : Nat) (f : Wg → Wg) : (s.updWg w f).cur = s.cur := rfl
@[simp] theorem State.updWg_deferNow (s : State) (w : Nat) (f : Wg → Wg) : (s.updWg w f).deferNow = s.deferNow := rfl
@[simp] theorem State.updWg_deferred (s : State) (w : Nat) (f : Wg → Wg) : (s.updWg w f).deferred = s.deferred := rfl
@[simp] theorem State.updWg_freeCtr (s : State) (w : Nat) (f : Wg → Wg) : (s.updWg w f).freeCtr = s.freeCtr := rfl
@[simp] theorem State.updWg_cycle (s : State) (w : Nat) (f : Wg → Wg) : (s.updWg w f).cycle = s.cycle := rfl
@[simp] theorem State.updWg_fabtime (s : State) (w : Nat) (f : Wg → Wg) : (s.updWg w f).fabtime = s.fabtime := rfl
@[simp] theorem State.updWg_fabFrac (s : State) (w : Nat) (f : Wg → Wg) : (s.updWg w f).fabFrac = s.fabFrac := rfl
@[simp] theorem State.updWg_ceil (s : State) (w : Nat) (f : Wg → Wg) : (s.updWg w f).ceil = s.ceil := rfl
@[simp] theorem State.updWg_ceilNext (s : State) (w : Nat) (f : Wg → Wg) : (s.updWg w f).ceilNext = s.ceilNext := rfl
@[simp] theorem State.updWg_mem (s : State) (w : Nat) (f : Wg → Wg) : (s.updWg w f).mem = s.mem := rfl
@[simp] theorem State.updWg_vmem (s : State) (w : Nat) (f : Wg → Wg) : (s.updWg w f).vmem = s.vmem := rfl
@[simp] theorem State.updWg_memPoison (s : State) (w : Nat) (f : Wg → Wg) : (s.updWg w f).memPoison = s.memPoison := rfl
@[simp] theorem State.updWg_vmemPoison (s : State) (w : Nat) (f : Wg → Wg) : (s.updWg w f).vmemPoison = s.vmemPoison := rfl
@[simp] theorem State.updWg_lineKey (s : State) (w : Nat) (f : Wg → Wg) : (s.updWg w f).lineKey = s.lineKey := rfl
@[simp] theorem State.updWg_absentAcc (s : State) (w : Nat) (f : Wg → Wg) : (s.updWg w f).absentAcc = s.absentAcc := rfl
@[simp] theorem State.updWg_wcb (s : State) (w : Nat) (f : Wg → Wg) : (s.updWg w f).wcb = s.wcb := rfl
@[simp] theorem State.updWg_cpt (s : State) (w : Nat) (f : Wg → Wg) : (s.updWg w f).cpt = s.cpt := rfl
@[simp] theorem State.updWg_l1 (s : State) (w : Nat) (f : Wg → Wg) : (s.updWg w f).l1 = s.l1 := rfl
@[simp] theorem State.updWg_l1Bad (s : State) (w : Nat) (f : Wg → Wg) : (s.updWg w f).l1Bad = s.l1Bad := rfl
@[simp] theorem State.updWg_tex (s : State) (w : Nat) (f : Wg → Wg) : (s.updWg w f).tex = s.tex := rfl
@[simp] theorem State.updWg_icache (s : State) (w : Nat) (f : Wg → Wg) : (s.updWg w f).icache = s.icache := rfl
@[simp] theorem State.updWg_l0 (s : State) (w : Nat) (f : Wg → Wg) : (s.updWg w f).l0 = s.l0 := rfl
@[simp] theorem State.updWg_tlb (s : State) (w : Nat) (f : Wg → Wg) : (s.updWg w f).tlb = s.tlb := rfl
@[simp] theorem State.updWg_vops (s : State) (w : Nat) (f : Wg → Wg) : (s.updWg w f).vops = s.vops := rfl
@[simp] theorem State.updWg_monitors (s : State) (w : Nat) (f : Wg → Wg) : (s.updWg w f).monitors = s.monitors := rfl
@[simp] theorem State.updWg_faults (s : State) (w : Nat) (f : Wg → Wg) : (s.updWg w f).faults = s.faults := rfl
@[simp] theorem State.updWg_cregs (s : State) (w : Nat) (f : Wg → Wg) : (s.updWg w f).cregs = s.cregs := rfl
@[simp] theorem State.updWg_roots (s : State) (w : Nat) (f : Wg → Wg) : (s.updWg w f).roots = s.roots := rfl
@[simp] theorem State.updWg_pkg (s : State) (w : Nat) (f : Wg → Wg) : (s.updWg w f).pkg = s.pkg := rfl
@[simp] theorem State.updWg_gangs (s : State) (w : Nat) (f : Wg → Wg) : (s.updWg w f).gangs = s.gangs := rfl
@[simp] theorem State.updWg_nextGang (s : State) (w : Nat) (f : Wg → Wg) : (s.updWg w f).nextGang = s.nextGang := rfl
@[simp] theorem State.updWg_nextWg (s : State) (w : Nat) (f : Wg → Wg) : (s.updWg w f).nextWg = s.nextWg := rfl
@[simp] theorem State.updWg_admitSeq (s : State) (w : Nat) (f : Wg → Wg) : (s.updWg w f).admitSeq = s.admitSeq := rfl
@[simp] theorem State.updWg_launches (s : State) (w : Nat) (f : Wg → Wg) : (s.updWg w f).launches = s.launches := rfl
@[simp] theorem State.updWg_nextLaunch (s : State) (w : Nat) (f : Wg → Wg) : (s.updWg w f).nextLaunch = s.nextLaunch := rfl
@[simp] theorem State.updWg_phases (s : State) (w : Nat) (f : Wg → Wg) : (s.updWg w f).phases = s.phases := rfl
@[simp] theorem State.updWg_jobs (s : State) (w : Nat) (f : Wg → Wg) : (s.updWg w f).jobs = s.jobs := rfl
@[simp] theorem State.updWg_phaseCancelled (s : State) (w : Nat) (f : Wg → Wg) : (s.updWg w f).phaseCancelled = s.phaseCancelled := rfl
@[simp] theorem State.updWg_jobCancelled (s : State) (w : Nat) (f : Wg → Wg) : (s.updWg w f).jobCancelled = s.jobCancelled := rfl
@[simp] theorem State.updWg_cparts (s : State) (w : Nat) (f : Wg → Wg) : (s.updWg w f).cparts = s.cparts := rfl
@[simp] theorem State.updWg_cregOld (s : State) (w : Nat) (f : Wg → Wg) : (s.updWg w f).cregOld = s.cregOld := rfl
@[simp] theorem State.updWg_taskWake (s : State) (w : Nat) (f : Wg → Wg) : (s.updWg w f).taskWake = s.taskWake := rfl
@[simp] theorem State.updWg_starters (s : State) (w : Nat) (f : Wg → Wg) : (s.updWg w f).starters = s.starters := rfl
@[simp] theorem State.updWg_lathes (s : State) (w : Nat) (f : Wg → Wg) : (s.updWg w f).lathes = s.lathes := rfl
@[simp] theorem State.updWg_latheBusy (s : State) (w : Nat) (f : Wg → Wg) : (s.updWg w f).latheBusy = s.latheBusy := rfl
@[simp] theorem State.updWg_engines (s : State) (w : Nat) (f : Wg → Wg) : (s.updWg w f).engines = s.engines := rfl
@[simp] theorem State.updWg_engNext (s : State) (w : Nat) (f : Wg → Wg) : (s.updWg w f).engNext = s.engNext := rfl
@[simp] theorem State.updWg_chans (s : State) (w : Nat) (f : Wg → Wg) : (s.updWg w f).chans = s.chans := rfl
@[simp] theorem State.updWg_keyMat (s : State) (w : Nat) (f : Wg → Wg) : (s.updWg w f).keyMat = s.keyMat := rfl
@[simp] theorem State.updWg_hostlog (s : State) (w : Nat) (f : Wg → Wg) : (s.updWg w f).hostlog = s.hostlog := rfl
@[simp] theorem State.updWg_fwCores (s : State) (w : Nat) (f : Wg → Wg) : (s.updWg w f).fwCores = s.fwCores := rfl
@[simp] theorem State.updWg_fwMem (s : State) (w : Nat) (f : Wg → Wg) : (s.updWg w f).fwMem = s.fwMem := rfl
@[simp] theorem State.updWg_mailStall (s : State) (w : Nat) (f : Wg → Wg) : (s.updWg w f).mailStall = s.mailStall := rfl
@[simp] theorem State.updWg_fwWait (s : State) (w : Nat) (f : Wg → Wg) : (s.updWg w f).fwWait = s.fwWait := rfl
@[simp] theorem State.updWg_terms (s : State) (w : Nat) (f : Wg → Wg) : (s.updWg w f).terms = s.terms := rfl
@[simp] theorem State.updWg_errWait (s : State) (w : Nat) (f : Wg → Wg) : (s.updWg w f).errWait = s.errWait := rfl
@[simp] theorem State.updWg_microcode (s : State) (w : Nat) (f : Wg → Wg) : (s.updWg w f).microcode = s.microcode := rfl
@[simp] theorem State.updWg_openings (s : State) (w : Nat) (f : Wg → Wg) : (s.updWg w f).openings = s.openings := rfl
@[simp] theorem State.updWg_qcopied (s : State) (w : Nat) (f : Wg → Wg) : (s.updWg w f).qcopied = s.qcopied := rfl
@[simp] theorem State.updWg_msix (s : State) (w : Nat) (f : Wg → Wg) : (s.updWg w f).msix = s.msix := rfl
@[simp] theorem State.updWg_peerOut (s : State) (w : Nat) (f : Wg → Wg) : (s.updWg w f).peerOut = s.peerOut := rfl
@[simp] theorem State.updWg_fwver (s : State) (w : Nat) (f : Wg → Wg) : (s.updWg w f).fwver = s.fwver := rfl
@[simp] theorem State.updWg_secver (s : State) (w : Nat) (f : Wg → Wg) : (s.updWg w f).secver = s.secver := rfl
@[simp] theorem State.updWg_heldScr (s : State) (w : Nat) (f : Wg → Wg) : (s.updWg w f).heldScr = s.heldScr := rfl
@[simp] theorem State.updWg_l2 (s : State) (w : Nat) (f : Wg → Wg) : (s.updWg w f).l2 = s.l2 := rfl
@[simp] theorem State.updWg_l2clock (s : State) (w : Nat) (f : Wg → Wg) : (s.updWg w f).l2clock = s.l2clock := rfl
@[simp] theorem State.updWg_tailSeen (s : State) (w : Nat) (f : Wg → Wg) : (s.updWg w f).tailSeen = s.tailSeen := rfl
@[simp] theorem State.updWg_useBw (s : State) (w : Nat) (f : Wg → Wg) : (s.updWg w f).useBw = s.useBw := rfl
@[simp] theorem State.updWg_useEn (s : State) (w : Nat) (f : Wg → Wg) : (s.updWg w f).useEn = s.useEn := rfl
@[simp] theorem State.updWg_ports (s : State) (w : Nat) (f : Wg → Wg) : (s.updWg w f).ports = s.ports := rfl
@[simp] theorem State.updWg_tasks (s : State) (w : Nat) (f : Wg → Wg) : (s.updWg w f).tasks = s.tasks := rfl
@[simp] theorem State.updWg_nextTask (s : State) (w : Nat) (f : Wg → Wg) : (s.updWg w f).nextTask = s.nextTask := rfl
@[simp] theorem State.updWg_freeLists (s : State) (w : Nat) (f : Wg → Wg) : (s.updWg w f).freeLists = s.freeLists := rfl
@[simp] theorem State.updWg_handles (s : State) (w : Nat) (f : Wg → Wg) : (s.updWg w f).handles = s.handles := rfl
@[simp] theorem State.updWg_decodeLast (s : State) (w : Nat) (f : Wg → Wg) : (s.updWg w f).decodeLast = s.decodeLast := rfl
@[simp] theorem State.updWg_winMark (s : State) (w : Nat) (f : Wg → Wg) : (s.updWg w f).winMark = s.winMark := rfl
@[simp] theorem State.updWg_issueLast (s : State) (w : Nat) (f : Wg → Wg) : (s.updWg w f).issueLast = s.issueLast := rfl
@[simp] theorem State.updWg_nextPhase (s : State) (w : Nat) (f : Wg → Wg) : (s.updWg w f).nextPhase = s.nextPhase := rfl
@[simp] theorem State.updWg_nextJob (s : State) (w : Nat) (f : Wg → Wg) : (s.updWg w f).nextJob = s.nextJob := rfl
@[simp] theorem State.updWg_collIn (s : State) (w : Nat) (f : Wg → Wg) : (s.updWg w f).collIn = s.collIn := rfl
@[simp] theorem State.updWg_groupMail (s : State) (w : Nat) (f : Wg → Wg) : (s.updWg w f).groupMail = s.groupMail := rfl
@[simp] theorem State.updWg_collBuf (s : State) (w : Nat) (f : Wg → Wg) : (s.updWg w f).collBuf = s.collBuf := rfl
@[simp] theorem State.updWg_presents (s : State) (w : Nat) (f : Wg → Wg) : (s.updWg w f).presents = s.presents := rfl
@[simp] theorem State.updWg_heads (s : State) (w : Nat) (f : Wg → Wg) : (s.updWg w f).heads = s.heads := rfl
@[simp] theorem State.updWg_encs (s : State) (w : Nat) (f : Wg → Wg) : (s.updWg w f).encs = s.encs := rfl
@[simp] theorem State.updWg_bootCode (s : State) (w : Nat) (f : Wg → Wg) : (s.updWg w f).bootCode = s.bootCode := rfl
@[simp] theorem State.updWg_restarting (s : State) (w : Nat) (f : Wg → Wg) : (s.updWg w f).restarting = s.restarting := rfl
@[simp] theorem State.updWg_staging (s : State) (w : Nat) (f : Wg → Wg) : (s.updWg w f).staging = s.staging := rfl
@[simp] theorem State.updWg_mail (s : State) (w : Nat) (f : Wg → Wg) : (s.updWg w f).mail = s.mail := rfl
@[simp] theorem State.updWg_heart (s : State) (w : Nat) (f : Wg → Wg) : (s.updWg w f).heart = s.heart := rfl
@[simp] theorem State.updWg_image (s : State) (w : Nat) (f : Wg → Wg) : (s.updWg w f).image = s.image := rfl
@[simp] theorem State.updWg_mcodeImage (s : State) (w : Nat) (f : Wg → Wg) : (s.updWg w f).mcodeImage = s.mcodeImage := rfl
@[simp] theorem State.updWg_peakTicks (s : State) (w : Nat) (f : Wg → Wg) : (s.updWg w f).peakTicks = s.peakTicks := rfl
@[simp] theorem State.updWg_msTicks (s : State) (w : Nat) (f : Wg → Wg) : (s.updWg w f).msTicks = s.msTicks := rfl
@[simp] theorem State.updWg_patWritten (s : State) (w : Nat) (f : Wg → Wg) : (s.updWg w f).patWritten = s.patWritten := rfl
@[simp] theorem State.updWg_ownLimit (s : State) (w : Nat) (f : Wg → Wg) : (s.updWg w f).ownLimit = s.ownLimit := rfl
@[simp] theorem State.updWg_ownLimits (s : State) (w : Nat) (f : Wg → Wg) : (s.updWg w f).ownLimits = s.ownLimits := rfl
@[simp] theorem State.updWg_lowering (s : State) (w : Nat) (f : Wg → Wg) : (s.updWg w f).lowering = s.lowering := rfl
@[simp] theorem State.updWg_links (s : State) (w : Nat) (f : Wg → Wg) : (s.updWg w f).links = s.links := rfl
@[simp] theorem State.updWg_timinRoute (s : State) (w : Nat) (f : Wg → Wg) : (s.updWg w f).timinRoute = s.timinRoute := rfl
@[simp] theorem State.updWg_pacer (s : State) (w : Nat) (f : Wg → Wg) : (s.updWg w f).pacer = s.pacer := rfl
@[simp] theorem State.updWg_pacerSeq (s : State) (w : Nat) (f : Wg → Wg) : (s.updWg w f).pacerSeq = s.pacerSeq := rfl
@[simp] theorem State.updWg_noticeWait (s : State) (w : Nat) (f : Wg → Wg) : (s.updWg w f).noticeWait = s.noticeWait := rfl
@[simp] theorem State.updWg_conns (s : State) (w : Nat) (f : Wg → Wg) : (s.updWg w f).conns = s.conns := rfl
@[simp] theorem State.updWg_pfcPause (s : State) (w : Nat) (f : Wg → Wg) : (s.updWg w f).pfcPause = s.pfcPause := rfl
@[simp] theorem State.updWg_spdm (s : State) (w : Nat) (f : Wg → Wg) : (s.updWg w f).spdm = s.spdm := rfl
@[simp] theorem State.updWg_tdi (s : State) (w : Nat) (f : Wg → Wg) : (s.updWg w f).tdi = s.tdi := rfl
@[simp] theorem State.updWg_ideKeys (s : State) (w : Nat) (f : Wg → Wg) : (s.updWg w f).ideKeys = s.ideKeys := rfl
@[simp] theorem State.updWg_sent (s : State) (w : Nat) (f : Wg → Wg) : (s.updWg w f).sent = s.sent := rfl
@[simp] theorem State.updWg_errReports (s : State) (w : Nat) (f : Wg → Wg) : (s.updWg w f).errReports = s.errReports := rfl
@[simp] theorem State.updWg_eccCounts (s : State) (w : Nat) (f : Wg → Wg) : (s.updWg w f).eccCounts = s.eccCounts := rfl

@[simp] theorem State.updLaunch_part (s : State) (l : Nat) (f : Launch → Launch) : (s.updLaunch l f).part = s.part := rfl
@[simp] theorem State.updLaunch_powered (s : State) (l : Nat) (f : Launch → Launch) : (s.updLaunch l f).powered = s.powered := rfl
@[simp] theorem State.updLaunch_agenda (s : State) (l : Nat) (f : Launch → Launch) : (s.updLaunch l f).agenda = s.agenda := rfl
@[simp] theorem State.updLaunch_cur (s : State) (l : Nat) (f : Launch → Launch) : (s.updLaunch l f).cur = s.cur := rfl
@[simp] theorem State.updLaunch_deferNow (s : State) (l : Nat) (f : Launch → Launch) : (s.updLaunch l f).deferNow = s.deferNow := rfl
@[simp] theorem State.updLaunch_deferred (s : State) (l : Nat) (f : Launch → Launch) : (s.updLaunch l f).deferred = s.deferred := rfl
@[simp] theorem State.updLaunch_freeCtr (s : State) (l : Nat) (f : Launch → Launch) : (s.updLaunch l f).freeCtr = s.freeCtr := rfl
@[simp] theorem State.updLaunch_cycle (s : State) (l : Nat) (f : Launch → Launch) : (s.updLaunch l f).cycle = s.cycle := rfl
@[simp] theorem State.updLaunch_fabtime (s : State) (l : Nat) (f : Launch → Launch) : (s.updLaunch l f).fabtime = s.fabtime := rfl
@[simp] theorem State.updLaunch_fabFrac (s : State) (l : Nat) (f : Launch → Launch) : (s.updLaunch l f).fabFrac = s.fabFrac := rfl
@[simp] theorem State.updLaunch_ceil (s : State) (l : Nat) (f : Launch → Launch) : (s.updLaunch l f).ceil = s.ceil := rfl
@[simp] theorem State.updLaunch_ceilNext (s : State) (l : Nat) (f : Launch → Launch) : (s.updLaunch l f).ceilNext = s.ceilNext := rfl
@[simp] theorem State.updLaunch_mem (s : State) (l : Nat) (f : Launch → Launch) : (s.updLaunch l f).mem = s.mem := rfl
@[simp] theorem State.updLaunch_vmem (s : State) (l : Nat) (f : Launch → Launch) : (s.updLaunch l f).vmem = s.vmem := rfl
@[simp] theorem State.updLaunch_memPoison (s : State) (l : Nat) (f : Launch → Launch) : (s.updLaunch l f).memPoison = s.memPoison := rfl
@[simp] theorem State.updLaunch_vmemPoison (s : State) (l : Nat) (f : Launch → Launch) : (s.updLaunch l f).vmemPoison = s.vmemPoison := rfl
@[simp] theorem State.updLaunch_lineKey (s : State) (l : Nat) (f : Launch → Launch) : (s.updLaunch l f).lineKey = s.lineKey := rfl
@[simp] theorem State.updLaunch_absentAcc (s : State) (l : Nat) (f : Launch → Launch) : (s.updLaunch l f).absentAcc = s.absentAcc := rfl
@[simp] theorem State.updLaunch_wcb (s : State) (l : Nat) (f : Launch → Launch) : (s.updLaunch l f).wcb = s.wcb := rfl
@[simp] theorem State.updLaunch_cpt (s : State) (l : Nat) (f : Launch → Launch) : (s.updLaunch l f).cpt = s.cpt := rfl
@[simp] theorem State.updLaunch_l1 (s : State) (l : Nat) (f : Launch → Launch) : (s.updLaunch l f).l1 = s.l1 := rfl
@[simp] theorem State.updLaunch_l1Bad (s : State) (l : Nat) (f : Launch → Launch) : (s.updLaunch l f).l1Bad = s.l1Bad := rfl
@[simp] theorem State.updLaunch_tex (s : State) (l : Nat) (f : Launch → Launch) : (s.updLaunch l f).tex = s.tex := rfl
@[simp] theorem State.updLaunch_icache (s : State) (l : Nat) (f : Launch → Launch) : (s.updLaunch l f).icache = s.icache := rfl
@[simp] theorem State.updLaunch_l0 (s : State) (l : Nat) (f : Launch → Launch) : (s.updLaunch l f).l0 = s.l0 := rfl
@[simp] theorem State.updLaunch_tlb (s : State) (l : Nat) (f : Launch → Launch) : (s.updLaunch l f).tlb = s.tlb := rfl
@[simp] theorem State.updLaunch_vops (s : State) (l : Nat) (f : Launch → Launch) : (s.updLaunch l f).vops = s.vops := rfl
@[simp] theorem State.updLaunch_monitors (s : State) (l : Nat) (f : Launch → Launch) : (s.updLaunch l f).monitors = s.monitors := rfl
@[simp] theorem State.updLaunch_faults (s : State) (l : Nat) (f : Launch → Launch) : (s.updLaunch l f).faults = s.faults := rfl
@[simp] theorem State.updLaunch_cregs (s : State) (l : Nat) (f : Launch → Launch) : (s.updLaunch l f).cregs = s.cregs := rfl
@[simp] theorem State.updLaunch_roots (s : State) (l : Nat) (f : Launch → Launch) : (s.updLaunch l f).roots = s.roots := rfl
@[simp] theorem State.updLaunch_pkg (s : State) (l : Nat) (f : Launch → Launch) : (s.updLaunch l f).pkg = s.pkg := rfl
@[simp] theorem State.updLaunch_gangs (s : State) (l : Nat) (f : Launch → Launch) : (s.updLaunch l f).gangs = s.gangs := rfl
@[simp] theorem State.updLaunch_nextGang (s : State) (l : Nat) (f : Launch → Launch) : (s.updLaunch l f).nextGang = s.nextGang := rfl
@[simp] theorem State.updLaunch_wgs (s : State) (l : Nat) (f : Launch → Launch) : (s.updLaunch l f).wgs = s.wgs := rfl
@[simp] theorem State.updLaunch_nextWg (s : State) (l : Nat) (f : Launch → Launch) : (s.updLaunch l f).nextWg = s.nextWg := rfl
@[simp] theorem State.updLaunch_admitSeq (s : State) (l : Nat) (f : Launch → Launch) : (s.updLaunch l f).admitSeq = s.admitSeq := rfl
@[simp] theorem State.updLaunch_nextLaunch (s : State) (l : Nat) (f : Launch → Launch) : (s.updLaunch l f).nextLaunch = s.nextLaunch := rfl
@[simp] theorem State.updLaunch_phases (s : State) (l : Nat) (f : Launch → Launch) : (s.updLaunch l f).phases = s.phases := rfl
@[simp] theorem State.updLaunch_jobs (s : State) (l : Nat) (f : Launch → Launch) : (s.updLaunch l f).jobs = s.jobs := rfl
@[simp] theorem State.updLaunch_phaseCancelled (s : State) (l : Nat) (f : Launch → Launch) : (s.updLaunch l f).phaseCancelled = s.phaseCancelled := rfl
@[simp] theorem State.updLaunch_jobCancelled (s : State) (l : Nat) (f : Launch → Launch) : (s.updLaunch l f).jobCancelled = s.jobCancelled := rfl
@[simp] theorem State.updLaunch_cparts (s : State) (l : Nat) (f : Launch → Launch) : (s.updLaunch l f).cparts = s.cparts := rfl
@[simp] theorem State.updLaunch_cregOld (s : State) (l : Nat) (f : Launch → Launch) : (s.updLaunch l f).cregOld = s.cregOld := rfl
@[simp] theorem State.updLaunch_taskWake (s : State) (l : Nat) (f : Launch → Launch) : (s.updLaunch l f).taskWake = s.taskWake := rfl
@[simp] theorem State.updLaunch_starters (s : State) (l : Nat) (f : Launch → Launch) : (s.updLaunch l f).starters = s.starters := rfl
@[simp] theorem State.updLaunch_lathes (s : State) (l : Nat) (f : Launch → Launch) : (s.updLaunch l f).lathes = s.lathes := rfl
@[simp] theorem State.updLaunch_latheBusy (s : State) (l : Nat) (f : Launch → Launch) : (s.updLaunch l f).latheBusy = s.latheBusy := rfl
@[simp] theorem State.updLaunch_engines (s : State) (l : Nat) (f : Launch → Launch) : (s.updLaunch l f).engines = s.engines := rfl
@[simp] theorem State.updLaunch_engNext (s : State) (l : Nat) (f : Launch → Launch) : (s.updLaunch l f).engNext = s.engNext := rfl
@[simp] theorem State.updLaunch_chans (s : State) (l : Nat) (f : Launch → Launch) : (s.updLaunch l f).chans = s.chans := rfl
@[simp] theorem State.updLaunch_keyMat (s : State) (l : Nat) (f : Launch → Launch) : (s.updLaunch l f).keyMat = s.keyMat := rfl
@[simp] theorem State.updLaunch_hostlog (s : State) (l : Nat) (f : Launch → Launch) : (s.updLaunch l f).hostlog = s.hostlog := rfl
@[simp] theorem State.updLaunch_fwCores (s : State) (l : Nat) (f : Launch → Launch) : (s.updLaunch l f).fwCores = s.fwCores := rfl
@[simp] theorem State.updLaunch_fwMem (s : State) (l : Nat) (f : Launch → Launch) : (s.updLaunch l f).fwMem = s.fwMem := rfl
@[simp] theorem State.updLaunch_mailStall (s : State) (l : Nat) (f : Launch → Launch) : (s.updLaunch l f).mailStall = s.mailStall := rfl
@[simp] theorem State.updLaunch_fwWait (s : State) (l : Nat) (f : Launch → Launch) : (s.updLaunch l f).fwWait = s.fwWait := rfl
@[simp] theorem State.updLaunch_terms (s : State) (l : Nat) (f : Launch → Launch) : (s.updLaunch l f).terms = s.terms := rfl
@[simp] theorem State.updLaunch_errWait (s : State) (l : Nat) (f : Launch → Launch) : (s.updLaunch l f).errWait = s.errWait := rfl
@[simp] theorem State.updLaunch_microcode (s : State) (l : Nat) (f : Launch → Launch) : (s.updLaunch l f).microcode = s.microcode := rfl
@[simp] theorem State.updLaunch_openings (s : State) (l : Nat) (f : Launch → Launch) : (s.updLaunch l f).openings = s.openings := rfl
@[simp] theorem State.updLaunch_qcopied (s : State) (l : Nat) (f : Launch → Launch) : (s.updLaunch l f).qcopied = s.qcopied := rfl
@[simp] theorem State.updLaunch_msix (s : State) (l : Nat) (f : Launch → Launch) : (s.updLaunch l f).msix = s.msix := rfl
@[simp] theorem State.updLaunch_peerOut (s : State) (l : Nat) (f : Launch → Launch) : (s.updLaunch l f).peerOut = s.peerOut := rfl
@[simp] theorem State.updLaunch_fwver (s : State) (l : Nat) (f : Launch → Launch) : (s.updLaunch l f).fwver = s.fwver := rfl
@[simp] theorem State.updLaunch_secver (s : State) (l : Nat) (f : Launch → Launch) : (s.updLaunch l f).secver = s.secver := rfl
@[simp] theorem State.updLaunch_heldScr (s : State) (l : Nat) (f : Launch → Launch) : (s.updLaunch l f).heldScr = s.heldScr := rfl
@[simp] theorem State.updLaunch_l2 (s : State) (l : Nat) (f : Launch → Launch) : (s.updLaunch l f).l2 = s.l2 := rfl
@[simp] theorem State.updLaunch_l2clock (s : State) (l : Nat) (f : Launch → Launch) : (s.updLaunch l f).l2clock = s.l2clock := rfl
@[simp] theorem State.updLaunch_tailSeen (s : State) (l : Nat) (f : Launch → Launch) : (s.updLaunch l f).tailSeen = s.tailSeen := rfl
@[simp] theorem State.updLaunch_useBw (s : State) (l : Nat) (f : Launch → Launch) : (s.updLaunch l f).useBw = s.useBw := rfl
@[simp] theorem State.updLaunch_useEn (s : State) (l : Nat) (f : Launch → Launch) : (s.updLaunch l f).useEn = s.useEn := rfl
@[simp] theorem State.updLaunch_ports (s : State) (l : Nat) (f : Launch → Launch) : (s.updLaunch l f).ports = s.ports := rfl
@[simp] theorem State.updLaunch_tasks (s : State) (l : Nat) (f : Launch → Launch) : (s.updLaunch l f).tasks = s.tasks := rfl
@[simp] theorem State.updLaunch_nextTask (s : State) (l : Nat) (f : Launch → Launch) : (s.updLaunch l f).nextTask = s.nextTask := rfl
@[simp] theorem State.updLaunch_freeLists (s : State) (l : Nat) (f : Launch → Launch) : (s.updLaunch l f).freeLists = s.freeLists := rfl
@[simp] theorem State.updLaunch_handles (s : State) (l : Nat) (f : Launch → Launch) : (s.updLaunch l f).handles = s.handles := rfl
@[simp] theorem State.updLaunch_decodeLast (s : State) (l : Nat) (f : Launch → Launch) : (s.updLaunch l f).decodeLast = s.decodeLast := rfl
@[simp] theorem State.updLaunch_winMark (s : State) (l : Nat) (f : Launch → Launch) : (s.updLaunch l f).winMark = s.winMark := rfl
@[simp] theorem State.updLaunch_issueLast (s : State) (l : Nat) (f : Launch → Launch) : (s.updLaunch l f).issueLast = s.issueLast := rfl
@[simp] theorem State.updLaunch_nextPhase (s : State) (l : Nat) (f : Launch → Launch) : (s.updLaunch l f).nextPhase = s.nextPhase := rfl
@[simp] theorem State.updLaunch_nextJob (s : State) (l : Nat) (f : Launch → Launch) : (s.updLaunch l f).nextJob = s.nextJob := rfl
@[simp] theorem State.updLaunch_collIn (s : State) (l : Nat) (f : Launch → Launch) : (s.updLaunch l f).collIn = s.collIn := rfl
@[simp] theorem State.updLaunch_groupMail (s : State) (l : Nat) (f : Launch → Launch) : (s.updLaunch l f).groupMail = s.groupMail := rfl
@[simp] theorem State.updLaunch_collBuf (s : State) (l : Nat) (f : Launch → Launch) : (s.updLaunch l f).collBuf = s.collBuf := rfl
@[simp] theorem State.updLaunch_presents (s : State) (l : Nat) (f : Launch → Launch) : (s.updLaunch l f).presents = s.presents := rfl
@[simp] theorem State.updLaunch_heads (s : State) (l : Nat) (f : Launch → Launch) : (s.updLaunch l f).heads = s.heads := rfl
@[simp] theorem State.updLaunch_encs (s : State) (l : Nat) (f : Launch → Launch) : (s.updLaunch l f).encs = s.encs := rfl
@[simp] theorem State.updLaunch_bootCode (s : State) (l : Nat) (f : Launch → Launch) : (s.updLaunch l f).bootCode = s.bootCode := rfl
@[simp] theorem State.updLaunch_restarting (s : State) (l : Nat) (f : Launch → Launch) : (s.updLaunch l f).restarting = s.restarting := rfl
@[simp] theorem State.updLaunch_staging (s : State) (l : Nat) (f : Launch → Launch) : (s.updLaunch l f).staging = s.staging := rfl
@[simp] theorem State.updLaunch_mail (s : State) (l : Nat) (f : Launch → Launch) : (s.updLaunch l f).mail = s.mail := rfl
@[simp] theorem State.updLaunch_heart (s : State) (l : Nat) (f : Launch → Launch) : (s.updLaunch l f).heart = s.heart := rfl
@[simp] theorem State.updLaunch_image (s : State) (l : Nat) (f : Launch → Launch) : (s.updLaunch l f).image = s.image := rfl
@[simp] theorem State.updLaunch_mcodeImage (s : State) (l : Nat) (f : Launch → Launch) : (s.updLaunch l f).mcodeImage = s.mcodeImage := rfl
@[simp] theorem State.updLaunch_peakTicks (s : State) (l : Nat) (f : Launch → Launch) : (s.updLaunch l f).peakTicks = s.peakTicks := rfl
@[simp] theorem State.updLaunch_msTicks (s : State) (l : Nat) (f : Launch → Launch) : (s.updLaunch l f).msTicks = s.msTicks := rfl
@[simp] theorem State.updLaunch_patWritten (s : State) (l : Nat) (f : Launch → Launch) : (s.updLaunch l f).patWritten = s.patWritten := rfl
@[simp] theorem State.updLaunch_ownLimit (s : State) (l : Nat) (f : Launch → Launch) : (s.updLaunch l f).ownLimit = s.ownLimit := rfl
@[simp] theorem State.updLaunch_ownLimits (s : State) (l : Nat) (f : Launch → Launch) : (s.updLaunch l f).ownLimits = s.ownLimits := rfl
@[simp] theorem State.updLaunch_lowering (s : State) (l : Nat) (f : Launch → Launch) : (s.updLaunch l f).lowering = s.lowering := rfl
@[simp] theorem State.updLaunch_links (s : State) (l : Nat) (f : Launch → Launch) : (s.updLaunch l f).links = s.links := rfl
@[simp] theorem State.updLaunch_timinRoute (s : State) (l : Nat) (f : Launch → Launch) : (s.updLaunch l f).timinRoute = s.timinRoute := rfl
@[simp] theorem State.updLaunch_pacer (s : State) (l : Nat) (f : Launch → Launch) : (s.updLaunch l f).pacer = s.pacer := rfl
@[simp] theorem State.updLaunch_pacerSeq (s : State) (l : Nat) (f : Launch → Launch) : (s.updLaunch l f).pacerSeq = s.pacerSeq := rfl
@[simp] theorem State.updLaunch_noticeWait (s : State) (l : Nat) (f : Launch → Launch) : (s.updLaunch l f).noticeWait = s.noticeWait := rfl
@[simp] theorem State.updLaunch_conns (s : State) (l : Nat) (f : Launch → Launch) : (s.updLaunch l f).conns = s.conns := rfl
@[simp] theorem State.updLaunch_pfcPause (s : State) (l : Nat) (f : Launch → Launch) : (s.updLaunch l f).pfcPause = s.pfcPause := rfl
@[simp] theorem State.updLaunch_spdm (s : State) (l : Nat) (f : Launch → Launch) : (s.updLaunch l f).spdm = s.spdm := rfl
@[simp] theorem State.updLaunch_tdi (s : State) (l : Nat) (f : Launch → Launch) : (s.updLaunch l f).tdi = s.tdi := rfl
@[simp] theorem State.updLaunch_ideKeys (s : State) (l : Nat) (f : Launch → Launch) : (s.updLaunch l f).ideKeys = s.ideKeys := rfl
@[simp] theorem State.updLaunch_sent (s : State) (l : Nat) (f : Launch → Launch) : (s.updLaunch l f).sent = s.sent := rfl
@[simp] theorem State.updLaunch_errReports (s : State) (l : Nat) (f : Launch → Launch) : (s.updLaunch l f).errReports = s.errReports := rfl
@[simp] theorem State.updLaunch_eccCounts (s : State) (l : Nat) (f : Launch → Launch) : (s.updLaunch l f).eccCounts = s.eccCounts := rfl

@[simp] theorem State.setCreg_part (s : State) (p : Page) (off : Nat) (v : W64) : (s.setCreg p off v).part = s.part := rfl
@[simp] theorem State.setCreg_powered (s : State) (p : Page) (off : Nat) (v : W64) : (s.setCreg p off v).powered = s.powered := rfl
@[simp] theorem State.setCreg_agenda (s : State) (p : Page) (off : Nat) (v : W64) : (s.setCreg p off v).agenda = s.agenda := rfl
@[simp] theorem State.setCreg_cur (s : State) (p : Page) (off : Nat) (v : W64) : (s.setCreg p off v).cur = s.cur := rfl
@[simp] theorem State.setCreg_deferNow (s : State) (p : Page) (off : Nat) (v : W64) : (s.setCreg p off v).deferNow = s.deferNow := rfl
@[simp] theorem State.setCreg_deferred (s : State) (p : Page) (off : Nat) (v : W64) : (s.setCreg p off v).deferred = s.deferred := rfl
@[simp] theorem State.setCreg_freeCtr (s : State) (p : Page) (off : Nat) (v : W64) : (s.setCreg p off v).freeCtr = s.freeCtr := rfl
@[simp] theorem State.setCreg_cycle (s : State) (p : Page) (off : Nat) (v : W64) : (s.setCreg p off v).cycle = s.cycle := rfl
@[simp] theorem State.setCreg_fabtime (s : State) (p : Page) (off : Nat) (v : W64) : (s.setCreg p off v).fabtime = s.fabtime := rfl
@[simp] theorem State.setCreg_fabFrac (s : State) (p : Page) (off : Nat) (v : W64) : (s.setCreg p off v).fabFrac = s.fabFrac := rfl
@[simp] theorem State.setCreg_ceil (s : State) (p : Page) (off : Nat) (v : W64) : (s.setCreg p off v).ceil = s.ceil := rfl
@[simp] theorem State.setCreg_ceilNext (s : State) (p : Page) (off : Nat) (v : W64) : (s.setCreg p off v).ceilNext = s.ceilNext := rfl
@[simp] theorem State.setCreg_mem (s : State) (p : Page) (off : Nat) (v : W64) : (s.setCreg p off v).mem = s.mem := rfl
@[simp] theorem State.setCreg_vmem (s : State) (p : Page) (off : Nat) (v : W64) : (s.setCreg p off v).vmem = s.vmem := rfl
@[simp] theorem State.setCreg_memPoison (s : State) (p : Page) (off : Nat) (v : W64) : (s.setCreg p off v).memPoison = s.memPoison := rfl
@[simp] theorem State.setCreg_vmemPoison (s : State) (p : Page) (off : Nat) (v : W64) : (s.setCreg p off v).vmemPoison = s.vmemPoison := rfl
@[simp] theorem State.setCreg_lineKey (s : State) (p : Page) (off : Nat) (v : W64) : (s.setCreg p off v).lineKey = s.lineKey := rfl
@[simp] theorem State.setCreg_absentAcc (s : State) (p : Page) (off : Nat) (v : W64) : (s.setCreg p off v).absentAcc = s.absentAcc := rfl
@[simp] theorem State.setCreg_wcb (s : State) (p : Page) (off : Nat) (v : W64) : (s.setCreg p off v).wcb = s.wcb := rfl
@[simp] theorem State.setCreg_cpt (s : State) (p : Page) (off : Nat) (v : W64) : (s.setCreg p off v).cpt = s.cpt := rfl
@[simp] theorem State.setCreg_l1 (s : State) (p : Page) (off : Nat) (v : W64) : (s.setCreg p off v).l1 = s.l1 := rfl
@[simp] theorem State.setCreg_l1Bad (s : State) (p : Page) (off : Nat) (v : W64) : (s.setCreg p off v).l1Bad = s.l1Bad := rfl
@[simp] theorem State.setCreg_tex (s : State) (p : Page) (off : Nat) (v : W64) : (s.setCreg p off v).tex = s.tex := rfl
@[simp] theorem State.setCreg_icache (s : State) (p : Page) (off : Nat) (v : W64) : (s.setCreg p off v).icache = s.icache := rfl
@[simp] theorem State.setCreg_l0 (s : State) (p : Page) (off : Nat) (v : W64) : (s.setCreg p off v).l0 = s.l0 := rfl
@[simp] theorem State.setCreg_tlb (s : State) (p : Page) (off : Nat) (v : W64) : (s.setCreg p off v).tlb = s.tlb := rfl
@[simp] theorem State.setCreg_vops (s : State) (p : Page) (off : Nat) (v : W64) : (s.setCreg p off v).vops = s.vops := rfl
@[simp] theorem State.setCreg_monitors (s : State) (p : Page) (off : Nat) (v : W64) : (s.setCreg p off v).monitors = s.monitors := rfl
@[simp] theorem State.setCreg_faults (s : State) (p : Page) (off : Nat) (v : W64) : (s.setCreg p off v).faults = s.faults := rfl
@[simp] theorem State.setCreg_roots (s : State) (p : Page) (off : Nat) (v : W64) : (s.setCreg p off v).roots = s.roots := rfl
@[simp] theorem State.setCreg_pkg (s : State) (p : Page) (off : Nat) (v : W64) : (s.setCreg p off v).pkg = s.pkg := rfl
@[simp] theorem State.setCreg_gangs (s : State) (p : Page) (off : Nat) (v : W64) : (s.setCreg p off v).gangs = s.gangs := rfl
@[simp] theorem State.setCreg_nextGang (s : State) (p : Page) (off : Nat) (v : W64) : (s.setCreg p off v).nextGang = s.nextGang := rfl
@[simp] theorem State.setCreg_wgs (s : State) (p : Page) (off : Nat) (v : W64) : (s.setCreg p off v).wgs = s.wgs := rfl
@[simp] theorem State.setCreg_nextWg (s : State) (p : Page) (off : Nat) (v : W64) : (s.setCreg p off v).nextWg = s.nextWg := rfl
@[simp] theorem State.setCreg_admitSeq (s : State) (p : Page) (off : Nat) (v : W64) : (s.setCreg p off v).admitSeq = s.admitSeq := rfl
@[simp] theorem State.setCreg_launches (s : State) (p : Page) (off : Nat) (v : W64) : (s.setCreg p off v).launches = s.launches := rfl
@[simp] theorem State.setCreg_nextLaunch (s : State) (p : Page) (off : Nat) (v : W64) : (s.setCreg p off v).nextLaunch = s.nextLaunch := rfl
@[simp] theorem State.setCreg_phases (s : State) (p : Page) (off : Nat) (v : W64) : (s.setCreg p off v).phases = s.phases := rfl
@[simp] theorem State.setCreg_jobs (s : State) (p : Page) (off : Nat) (v : W64) : (s.setCreg p off v).jobs = s.jobs := rfl
@[simp] theorem State.setCreg_phaseCancelled (s : State) (p : Page) (off : Nat) (v : W64) : (s.setCreg p off v).phaseCancelled = s.phaseCancelled := rfl
@[simp] theorem State.setCreg_jobCancelled (s : State) (p : Page) (off : Nat) (v : W64) : (s.setCreg p off v).jobCancelled = s.jobCancelled := rfl
@[simp] theorem State.setCreg_cparts (s : State) (p : Page) (off : Nat) (v : W64) : (s.setCreg p off v).cparts = s.cparts := rfl
@[simp] theorem State.setCreg_cregOld (s : State) (p : Page) (off : Nat) (v : W64) : (s.setCreg p off v).cregOld = s.cregOld := rfl
@[simp] theorem State.setCreg_taskWake (s : State) (p : Page) (off : Nat) (v : W64) : (s.setCreg p off v).taskWake = s.taskWake := rfl
@[simp] theorem State.setCreg_starters (s : State) (p : Page) (off : Nat) (v : W64) : (s.setCreg p off v).starters = s.starters := rfl
@[simp] theorem State.setCreg_lathes (s : State) (p : Page) (off : Nat) (v : W64) : (s.setCreg p off v).lathes = s.lathes := rfl
@[simp] theorem State.setCreg_latheBusy (s : State) (p : Page) (off : Nat) (v : W64) : (s.setCreg p off v).latheBusy = s.latheBusy := rfl
@[simp] theorem State.setCreg_engines (s : State) (p : Page) (off : Nat) (v : W64) : (s.setCreg p off v).engines = s.engines := rfl
@[simp] theorem State.setCreg_engNext (s : State) (p : Page) (off : Nat) (v : W64) : (s.setCreg p off v).engNext = s.engNext := rfl
@[simp] theorem State.setCreg_chans (s : State) (p : Page) (off : Nat) (v : W64) : (s.setCreg p off v).chans = s.chans := rfl
@[simp] theorem State.setCreg_keyMat (s : State) (p : Page) (off : Nat) (v : W64) : (s.setCreg p off v).keyMat = s.keyMat := rfl
@[simp] theorem State.setCreg_hostlog (s : State) (p : Page) (off : Nat) (v : W64) : (s.setCreg p off v).hostlog = s.hostlog := rfl
@[simp] theorem State.setCreg_fwCores (s : State) (p : Page) (off : Nat) (v : W64) : (s.setCreg p off v).fwCores = s.fwCores := rfl
@[simp] theorem State.setCreg_fwMem (s : State) (p : Page) (off : Nat) (v : W64) : (s.setCreg p off v).fwMem = s.fwMem := rfl
@[simp] theorem State.setCreg_mailStall (s : State) (p : Page) (off : Nat) (v : W64) : (s.setCreg p off v).mailStall = s.mailStall := rfl
@[simp] theorem State.setCreg_fwWait (s : State) (p : Page) (off : Nat) (v : W64) : (s.setCreg p off v).fwWait = s.fwWait := rfl
@[simp] theorem State.setCreg_terms (s : State) (p : Page) (off : Nat) (v : W64) : (s.setCreg p off v).terms = s.terms := rfl
@[simp] theorem State.setCreg_errWait (s : State) (p : Page) (off : Nat) (v : W64) : (s.setCreg p off v).errWait = s.errWait := rfl
@[simp] theorem State.setCreg_microcode (s : State) (p : Page) (off : Nat) (v : W64) : (s.setCreg p off v).microcode = s.microcode := rfl
@[simp] theorem State.setCreg_openings (s : State) (p : Page) (off : Nat) (v : W64) : (s.setCreg p off v).openings = s.openings := rfl
@[simp] theorem State.setCreg_qcopied (s : State) (p : Page) (off : Nat) (v : W64) : (s.setCreg p off v).qcopied = s.qcopied := rfl
@[simp] theorem State.setCreg_msix (s : State) (p : Page) (off : Nat) (v : W64) : (s.setCreg p off v).msix = s.msix := rfl
@[simp] theorem State.setCreg_peerOut (s : State) (p : Page) (off : Nat) (v : W64) : (s.setCreg p off v).peerOut = s.peerOut := rfl
@[simp] theorem State.setCreg_fwver (s : State) (p : Page) (off : Nat) (v : W64) : (s.setCreg p off v).fwver = s.fwver := rfl
@[simp] theorem State.setCreg_secver (s : State) (p : Page) (off : Nat) (v : W64) : (s.setCreg p off v).secver = s.secver := rfl
@[simp] theorem State.setCreg_heldScr (s : State) (p : Page) (off : Nat) (v : W64) : (s.setCreg p off v).heldScr = s.heldScr := rfl
@[simp] theorem State.setCreg_l2 (s : State) (p : Page) (off : Nat) (v : W64) : (s.setCreg p off v).l2 = s.l2 := rfl
@[simp] theorem State.setCreg_l2clock (s : State) (p : Page) (off : Nat) (v : W64) : (s.setCreg p off v).l2clock = s.l2clock := rfl
@[simp] theorem State.setCreg_tailSeen (s : State) (p : Page) (off : Nat) (v : W64) : (s.setCreg p off v).tailSeen = s.tailSeen := rfl
@[simp] theorem State.setCreg_useBw (s : State) (p : Page) (off : Nat) (v : W64) : (s.setCreg p off v).useBw = s.useBw := rfl
@[simp] theorem State.setCreg_useEn (s : State) (p : Page) (off : Nat) (v : W64) : (s.setCreg p off v).useEn = s.useEn := rfl
@[simp] theorem State.setCreg_ports (s : State) (p : Page) (off : Nat) (v : W64) : (s.setCreg p off v).ports = s.ports := rfl
@[simp] theorem State.setCreg_tasks (s : State) (p : Page) (off : Nat) (v : W64) : (s.setCreg p off v).tasks = s.tasks := rfl
@[simp] theorem State.setCreg_nextTask (s : State) (p : Page) (off : Nat) (v : W64) : (s.setCreg p off v).nextTask = s.nextTask := rfl
@[simp] theorem State.setCreg_freeLists (s : State) (p : Page) (off : Nat) (v : W64) : (s.setCreg p off v).freeLists = s.freeLists := rfl
@[simp] theorem State.setCreg_handles (s : State) (p : Page) (off : Nat) (v : W64) : (s.setCreg p off v).handles = s.handles := rfl
@[simp] theorem State.setCreg_decodeLast (s : State) (p : Page) (off : Nat) (v : W64) : (s.setCreg p off v).decodeLast = s.decodeLast := rfl
@[simp] theorem State.setCreg_winMark (s : State) (p : Page) (off : Nat) (v : W64) : (s.setCreg p off v).winMark = s.winMark := rfl
@[simp] theorem State.setCreg_issueLast (s : State) (p : Page) (off : Nat) (v : W64) : (s.setCreg p off v).issueLast = s.issueLast := rfl
@[simp] theorem State.setCreg_nextPhase (s : State) (p : Page) (off : Nat) (v : W64) : (s.setCreg p off v).nextPhase = s.nextPhase := rfl
@[simp] theorem State.setCreg_nextJob (s : State) (p : Page) (off : Nat) (v : W64) : (s.setCreg p off v).nextJob = s.nextJob := rfl
@[simp] theorem State.setCreg_collIn (s : State) (p : Page) (off : Nat) (v : W64) : (s.setCreg p off v).collIn = s.collIn := rfl
@[simp] theorem State.setCreg_groupMail (s : State) (p : Page) (off : Nat) (v : W64) : (s.setCreg p off v).groupMail = s.groupMail := rfl
@[simp] theorem State.setCreg_collBuf (s : State) (p : Page) (off : Nat) (v : W64) : (s.setCreg p off v).collBuf = s.collBuf := rfl
@[simp] theorem State.setCreg_presents (s : State) (p : Page) (off : Nat) (v : W64) : (s.setCreg p off v).presents = s.presents := rfl
@[simp] theorem State.setCreg_heads (s : State) (p : Page) (off : Nat) (v : W64) : (s.setCreg p off v).heads = s.heads := rfl
@[simp] theorem State.setCreg_encs (s : State) (p : Page) (off : Nat) (v : W64) : (s.setCreg p off v).encs = s.encs := rfl
@[simp] theorem State.setCreg_bootCode (s : State) (p : Page) (off : Nat) (v : W64) : (s.setCreg p off v).bootCode = s.bootCode := rfl
@[simp] theorem State.setCreg_restarting (s : State) (p : Page) (off : Nat) (v : W64) : (s.setCreg p off v).restarting = s.restarting := rfl
@[simp] theorem State.setCreg_staging (s : State) (p : Page) (off : Nat) (v : W64) : (s.setCreg p off v).staging = s.staging := rfl
@[simp] theorem State.setCreg_mail (s : State) (p : Page) (off : Nat) (v : W64) : (s.setCreg p off v).mail = s.mail := rfl
@[simp] theorem State.setCreg_heart (s : State) (p : Page) (off : Nat) (v : W64) : (s.setCreg p off v).heart = s.heart := rfl
@[simp] theorem State.setCreg_image (s : State) (p : Page) (off : Nat) (v : W64) : (s.setCreg p off v).image = s.image := rfl
@[simp] theorem State.setCreg_mcodeImage (s : State) (p : Page) (off : Nat) (v : W64) : (s.setCreg p off v).mcodeImage = s.mcodeImage := rfl
@[simp] theorem State.setCreg_peakTicks (s : State) (p : Page) (off : Nat) (v : W64) : (s.setCreg p off v).peakTicks = s.peakTicks := rfl
@[simp] theorem State.setCreg_msTicks (s : State) (p : Page) (off : Nat) (v : W64) : (s.setCreg p off v).msTicks = s.msTicks := rfl
@[simp] theorem State.setCreg_patWritten (s : State) (p : Page) (off : Nat) (v : W64) : (s.setCreg p off v).patWritten = s.patWritten := rfl
@[simp] theorem State.setCreg_ownLimit (s : State) (p : Page) (off : Nat) (v : W64) : (s.setCreg p off v).ownLimit = s.ownLimit := rfl
@[simp] theorem State.setCreg_ownLimits (s : State) (p : Page) (off : Nat) (v : W64) : (s.setCreg p off v).ownLimits = s.ownLimits := rfl
@[simp] theorem State.setCreg_lowering (s : State) (p : Page) (off : Nat) (v : W64) : (s.setCreg p off v).lowering = s.lowering := rfl
@[simp] theorem State.setCreg_links (s : State) (p : Page) (off : Nat) (v : W64) : (s.setCreg p off v).links = s.links := rfl
@[simp] theorem State.setCreg_timinRoute (s : State) (p : Page) (off : Nat) (v : W64) : (s.setCreg p off v).timinRoute = s.timinRoute := rfl
@[simp] theorem State.setCreg_pacer (s : State) (p : Page) (off : Nat) (v : W64) : (s.setCreg p off v).pacer = s.pacer := rfl
@[simp] theorem State.setCreg_pacerSeq (s : State) (p : Page) (off : Nat) (v : W64) : (s.setCreg p off v).pacerSeq = s.pacerSeq := rfl
@[simp] theorem State.setCreg_noticeWait (s : State) (p : Page) (off : Nat) (v : W64) : (s.setCreg p off v).noticeWait = s.noticeWait := rfl
@[simp] theorem State.setCreg_conns (s : State) (p : Page) (off : Nat) (v : W64) : (s.setCreg p off v).conns = s.conns := rfl
@[simp] theorem State.setCreg_pfcPause (s : State) (p : Page) (off : Nat) (v : W64) : (s.setCreg p off v).pfcPause = s.pfcPause := rfl
@[simp] theorem State.setCreg_spdm (s : State) (p : Page) (off : Nat) (v : W64) : (s.setCreg p off v).spdm = s.spdm := rfl
@[simp] theorem State.setCreg_tdi (s : State) (p : Page) (off : Nat) (v : W64) : (s.setCreg p off v).tdi = s.tdi := rfl
@[simp] theorem State.setCreg_ideKeys (s : State) (p : Page) (off : Nat) (v : W64) : (s.setCreg p off v).ideKeys = s.ideKeys := rfl
@[simp] theorem State.setCreg_sent (s : State) (p : Page) (off : Nat) (v : W64) : (s.setCreg p off v).sent = s.sent := rfl
@[simp] theorem State.setCreg_errReports (s : State) (p : Page) (off : Nat) (v : W64) : (s.setCreg p off v).errReports = s.errReports := rfl
@[simp] theorem State.setCreg_eccCounts (s : State) (p : Page) (off : Nat) (v : W64) : (s.setCreg p off v).eccCounts = s.eccCounts := rfl

@[simp] theorem State.setGang_gangs (s : State) (gid : Nat) (g : Gang) : (s.setGang gid g).gangs = s.gangs.set gid g := rfl
@[simp] theorem State.updGang_gangs (s : State) (gid : Nat) (f : Gang → Gang) :
    (s.updGang gid f).gangs = s.gangs.upd gid f := rfl
@[simp] theorem State.updWg_wgs (s : State) (w : Nat) (f : Wg → Wg) : (s.updWg w f).wgs = s.wgs.upd w f := rfl
@[simp] theorem State.updLaunch_launches (s : State) (l : Nat) (f : Launch → Launch) :
    (s.updLaunch l f).launches = s.launches.upd l f := rfl

/-! ### Updates of a gang -/

@[simp] theorem Gang.setPc_wg (g : Gang) (m : LaneMask) (pc : PCAddr) : (g.setPc m pc).wg = g.wg := rfl
@[simp] theorem Gang.setPc_idx (g : Gang) (m : LaneMask) (pc : PCAddr) : (g.setPc m pc).idx = g.idx := rfl
@[simp] theorem Gang.setPc_n (g : Gang) (m : LaneMask) (pc : PCAddr) : (g.setPc m pc).n = g.n := rfl
@[simp] theorem Gang.setPc_status (g : Gang) (m : LaneMask) (pc : PCAddr) : (g.setPc m pc).status = g.status := rfl
@[simp] theorem Gang.setPc_vr (g : Gang) (m : LaneMask) (pc : PCAddr) : (g.setPc m pc).vr = g.vr := rfl
@[simp] theorem Gang.setPc_pr (g : Gang) (m : LaneMask) (pc : PCAddr) : (g.setPc m pc).pr = g.pr := rfl
@[simp] theorem Gang.setPc_sr (g : Gang) (m : LaneMask) (pc : PCAddr) : (g.setPc m pc).sr = g.sr := rfl
@[simp] theorem Gang.setPc_empty (g : Gang) (m : LaneMask) (pc : PCAddr) : (g.setPc m pc).empty = g.empty := rfl
@[simp] theorem Gang.setPc_poison (g : Gang) (m : LaneMask) (pc : PCAddr) : (g.setPc m pc).poison = g.poison := rfl
@[simp] theorem Gang.setPc_base (g : Gang) (m : LaneMask) (pc : PCAddr) : (g.setPc m pc).base = g.base := rfl
@[simp] theorem Gang.setPc_xcount (g : Gang) (m : LaneMask) (pc : PCAddr) : (g.setPc m pc).xcount = g.xcount := rfl
@[simp] theorem Gang.setPc_xlimit (g : Gang) (m : LaneMask) (pc : PCAddr) : (g.setPc m pc).xlimit = g.xlimit := rfl
@[simp] theorem Gang.setPc_fpstat (g : Gang) (m : LaneMask) (pc : PCAddr) : (g.setPc m pc).fpstat = g.fpstat := rfl
@[simp] theorem Gang.setPc_issuecnt (g : Gang) (m : LaneMask) (pc : PCAddr) : (g.setPc m pc).issuecnt = g.issuecnt := rfl
@[simp] theorem Gang.setPc_lastIssue (g : Gang) (m : LaneMask) (pc : PCAddr) : (g.setPc m pc).lastIssue = g.lastIssue := rfl
@[simp] theorem Gang.setPc_trapbase (g : Gang) (m : LaneMask) (pc : PCAddr) : (g.setPc m pc).trapbase = g.trapbase := rfl
@[simp] theorem Gang.setPc_trapcause (g : Gang) (m : LaneMask) (pc : PCAddr) : (g.setPc m pc).trapcause = g.trapcause := rfl
@[simp] theorem Gang.setPc_trappc (g : Gang) (m : LaneMask) (pc : PCAddr) : (g.setPc m pc).trappc = g.trappc := rfl
@[simp] theorem Gang.setPc_trapaddr (g : Gang) (m : LaneMask) (pc : PCAddr) : (g.setPc m pc).trapaddr = g.trapaddr := rfl
@[simp] theorem Gang.setPc_codemap (g : Gang) (m : LaneMask) (pc : PCAddr) : (g.setPc m pc).codemap = g.codemap := rfl
@[simp] theorem Gang.setPc_handler (g : Gang) (m : LaneMask) (pc : PCAddr) : (g.setPc m pc).handler = g.handler := rfl
@[simp] theorem Gang.setPc_trapped (g : Gang) (m : LaneMask) (pc : PCAddr) : (g.setPc m pc).trapped = g.trapped := rfl
@[simp] theorem Gang.setPc_ord (g : Gang) (m : LaneMask) (pc : PCAddr) : (g.setPc m pc).ord = g.ord := rfl
@[simp] theorem Gang.setPc_ordSusp (g : Gang) (m : LaneMask) (pc : PCAddr) : (g.setPc m pc).ordSusp = g.ordSusp := rfl
@[simp] theorem Gang.setPc_fence (g : Gang) (m : LaneMask) (pc : PCAddr) : (g.setPc m pc).fence = g.fence := rfl
@[simp] theorem Gang.setPc_unitOf (g : Gang) (m : LaneMask) (pc : PCAddr) : (g.setPc m pc).unitOf = g.unitOf := rfl
@[simp] theorem Gang.setPc_slots (g : Gang) (m : LaneMask) (pc : PCAddr) : (g.setPc m pc).slots = g.slots := rfl
@[simp] theorem Gang.setPc_splitCnt (g : Gang) (m : LaneMask) (pc : PCAddr) : (g.setPc m pc).splitCnt = g.splitCnt := rfl
@[simp] theorem Gang.setPc_age (g : Gang) (m : LaneMask) (pc : PCAddr) : (g.setPc m pc).age = g.age := rfl
@[simp] theorem Gang.setPc_unitAge (g : Gang) (m : LaneMask) (pc : PCAddr) : (g.setPc m pc).unitAge = g.unitAge := rfl
@[simp] theorem Gang.setPc_prods (g : Gang) (m : LaneMask) (pc : PCAddr) : (g.setPc m pc).prods = g.prods := rfl
@[simp] theorem Gang.setPc_waits (g : Gang) (m : LaneMask) (pc : PCAddr) : (g.setPc m pc).waits = g.waits := rfl
@[simp] theorem Gang.setPc_nextId (g : Gang) (m : LaneMask) (pc : PCAddr) : (g.setPc m pc).nextId = g.nextId := rfl
@[simp] theorem Gang.setPc_cancel (g : Gang) (m : LaneMask) (pc : PCAddr) : (g.setPc m pc).cancel = g.cancel := rfl
@[simp] theorem Gang.setPc_parked (g : Gang) (m : LaneMask) (pc : PCAddr) : (g.setPc m pc).parked = g.parked := rfl
@[simp] theorem Gang.setPc_fresh (g : Gang) (m : LaneMask) (pc : PCAddr) : (g.setPc m pc).fresh = g.fresh := rfl
@[simp] theorem Gang.setPc_active (g : Gang) (m : LaneMask) (pc : PCAddr) : (g.setPc m pc).active = g.active := rfl
@[simp] theorem Gang.setPc_blocked (g : Gang) (m : LaneMask) (pc : PCAddr) : (g.setPc m pc).blocked = g.blocked := rfl
@[simp] theorem Gang.setPc_yielded (g : Gang) (m : LaneMask) (pc : PCAddr) : (g.setPc m pc).yielded = g.yielded := rfl
@[simp] theorem Gang.setPc_cmdIssued (g : Gang) (m : LaneMask) (pc : PCAddr) : (g.setPc m pc).cmdIssued = g.cmdIssued := rfl
@[simp] theorem Gang.setPc_cmdDone (g : Gang) (m : LaneMask) (pc : PCAddr) : (g.setPc m pc).cmdDone = g.cmdDone := rfl
@[simp] theorem Gang.setPc_cmdFault (g : Gang) (m : LaneMask) (pc : PCAddr) : (g.setPc m pc).cmdFault = g.cmdFault := rfl
@[simp] theorem Gang.setPc_qops (g : Gang) (m : LaneMask) (pc : PCAddr) : (g.setPc m pc).qops = g.qops := rfl
@[simp] theorem Gang.setPc_mops (g : Gang) (m : LaneMask) (pc : PCAddr) : (g.setPc m pc).mops = g.mops := rfl
@[simp] theorem Gang.setPc_rdvCnt (g : Gang) (m : LaneMask) (pc : PCAddr) : (g.setPc m pc).rdvCnt = g.rdvCnt := rfl

@[simp] theorem Gang.setV_wg (g : Gang) (l r : Nat) (x : W32) : (g.setV l r x).wg = g.wg := rfl
@[simp] theorem Gang.setV_idx (g : Gang) (l r : Nat) (x : W32) : (g.setV l r x).idx = g.idx := rfl
@[simp] theorem Gang.setV_n (g : Gang) (l r : Nat) (x : W32) : (g.setV l r x).n = g.n := rfl
@[simp] theorem Gang.setV_status (g : Gang) (l r : Nat) (x : W32) : (g.setV l r x).status = g.status := rfl
@[simp] theorem Gang.setV_pcs (g : Gang) (l r : Nat) (x : W32) : (g.setV l r x).pcs = g.pcs := rfl
@[simp] theorem Gang.setV_pr (g : Gang) (l r : Nat) (x : W32) : (g.setV l r x).pr = g.pr := rfl
@[simp] theorem Gang.setV_sr (g : Gang) (l r : Nat) (x : W32) : (g.setV l r x).sr = g.sr := rfl
@[simp] theorem Gang.setV_base (g : Gang) (l r : Nat) (x : W32) : (g.setV l r x).base = g.base := rfl
@[simp] theorem Gang.setV_xcount (g : Gang) (l r : Nat) (x : W32) : (g.setV l r x).xcount = g.xcount := rfl
@[simp] theorem Gang.setV_xlimit (g : Gang) (l r : Nat) (x : W32) : (g.setV l r x).xlimit = g.xlimit := rfl
@[simp] theorem Gang.setV_fpstat (g : Gang) (l r : Nat) (x : W32) : (g.setV l r x).fpstat = g.fpstat := rfl
@[simp] theorem Gang.setV_issuecnt (g : Gang) (l r : Nat) (x : W32) : (g.setV l r x).issuecnt = g.issuecnt := rfl
@[simp] theorem Gang.setV_lastIssue (g : Gang) (l r : Nat) (x : W32) : (g.setV l r x).lastIssue = g.lastIssue := rfl
@[simp] theorem Gang.setV_trapbase (g : Gang) (l r : Nat) (x : W32) : (g.setV l r x).trapbase = g.trapbase := rfl
@[simp] theorem Gang.setV_trapcause (g : Gang) (l r : Nat) (x : W32) : (g.setV l r x).trapcause = g.trapcause := rfl
@[simp] theorem Gang.setV_trappc (g : Gang) (l r : Nat) (x : W32) : (g.setV l r x).trappc = g.trappc := rfl
@[simp] theorem Gang.setV_trapaddr (g : Gang) (l r : Nat) (x : W32) : (g.setV l r x).trapaddr = g.trapaddr := rfl
@[simp] theorem Gang.setV_codemap (g : Gang) (l r : Nat) (x : W32) : (g.setV l r x).codemap = g.codemap := rfl
@[simp] theorem Gang.setV_handler (g : Gang) (l r : Nat) (x : W32) : (g.setV l r x).handler = g.handler := rfl
@[simp] theorem Gang.setV_trapped (g : Gang) (l r : Nat) (x : W32) : (g.setV l r x).trapped = g.trapped := rfl
@[simp] theorem Gang.setV_ord (g : Gang) (l r : Nat) (x : W32) : (g.setV l r x).ord = g.ord := rfl
@[simp] theorem Gang.setV_ordSusp (g : Gang) (l r : Nat) (x : W32) : (g.setV l r x).ordSusp = g.ordSusp := rfl
@[simp] theorem Gang.setV_fence (g : Gang) (l r : Nat) (x : W32) : (g.setV l r x).fence = g.fence := rfl
@[simp] theorem Gang.setV_unitOf (g : Gang) (l r : Nat) (x : W32) : (g.setV l r x).unitOf = g.unitOf := rfl
@[simp] theorem Gang.setV_slots (g : Gang) (l r : Nat) (x : W32) : (g.setV l r x).slots = g.slots := rfl
@[simp] theorem Gang.setV_splitCnt (g : Gang) (l r : Nat) (x : W32) : (g.setV l r x).splitCnt = g.splitCnt := rfl
@[simp] theorem Gang.setV_age (g : Gang) (l r : Nat) (x : W32) : (g.setV l r x).age = g.age := rfl
@[simp] theorem Gang.setV_unitAge (g : Gang) (l r : Nat) (x : W32) : (g.setV l r x).unitAge = g.unitAge := rfl
@[simp] theorem Gang.setV_prods (g : Gang) (l r : Nat) (x : W32) : (g.setV l r x).prods = g.prods := rfl
@[simp] theorem Gang.setV_waits (g : Gang) (l r : Nat) (x : W32) : (g.setV l r x).waits = g.waits := rfl
@[simp] theorem Gang.setV_nextId (g : Gang) (l r : Nat) (x : W32) : (g.setV l r x).nextId = g.nextId := rfl
@[simp] theorem Gang.setV_cancel (g : Gang) (l r : Nat) (x : W32) : (g.setV l r x).cancel = g.cancel := rfl
@[simp] theorem Gang.setV_parked (g : Gang) (l r : Nat) (x : W32) : (g.setV l r x).parked = g.parked := rfl
@[simp] theorem Gang.setV_fresh (g : Gang) (l r : Nat) (x : W32) : (g.setV l r x).fresh = g.fresh := rfl
@[simp] theorem Gang.setV_active (g : Gang) (l r : Nat) (x : W32) : (g.setV l r x).active = g.active := rfl
@[simp] theorem Gang.setV_blocked (g : Gang) (l r : Nat) (x : W32) : (g.setV l r x).blocked = g.blocked := rfl
@[simp] theorem Gang.setV_yielded (g : Gang) (l r : Nat) (x : W32) : (g.setV l r x).yielded = g.yielded := rfl
@[simp] theorem Gang.setV_cmdIssued (g : Gang) (l r : Nat) (x : W32) : (g.setV l r x).cmdIssued = g.cmdIssued := rfl
@[simp] theorem Gang.setV_cmdDone (g : Gang) (l r : Nat) (x : W32) : (g.setV l r x).cmdDone = g.cmdDone := rfl
@[simp] theorem Gang.setV_cmdFault (g : Gang) (l r : Nat) (x : W32) : (g.setV l r x).cmdFault = g.cmdFault := rfl
@[simp] theorem Gang.setV_qops (g : Gang) (l r : Nat) (x : W32) : (g.setV l r x).qops = g.qops := rfl
@[simp] theorem Gang.setV_mops (g : Gang) (l r : Nat) (x : W32) : (g.setV l r x).mops = g.mops := rfl
@[simp] theorem Gang.setV_rdvCnt (g : Gang) (l r : Nat) (x : W32) : (g.setV l r x).rdvCnt = g.rdvCnt := rfl

@[simp] theorem Gang.putS_wg (g : Gang) (n : Nat) (x : W64) : (g.putS n x).wg = g.wg := rfl
@[simp] theorem Gang.putS_idx (g : Gang) (n : Nat) (x : W64) : (g.putS n x).idx = g.idx := rfl
@[simp] theorem Gang.putS_n (g : Gang) (n : Nat) (x : W64) : (g.putS n x).n = g.n := rfl
@[simp] theorem Gang.putS_status (g : Gang) (n : Nat) (x : W64) : (g.putS n x).status = g.status := rfl
@[simp] theorem Gang.putS_pcs (g : Gang) (n : Nat) (x : W64) : (g.putS n x).pcs = g.pcs := rfl
@[simp] theorem Gang.putS_vr (g : Gang) (n : Nat) (x : W64) : (g.putS n x).vr = g.vr := rfl
@[simp] theorem Gang.putS_pr (g : Gang) (n : Nat) (x : W64) : (g.putS n x).pr = g.pr := rfl
@[simp] theorem Gang.putS_empty (g : Gang) (n : Nat) (x : W64) : (g.putS n x).empty = g.empty := rfl
@[simp] theorem Gang.putS_base (g : Gang) (n : Nat) (x : W64) : (g.putS n x).base = g.base := rfl
@[simp] theorem Gang.putS_xcount (g : Gang) (n : Nat) (x : W64) : (g.putS n x).xcount = g.xcount := rfl
@[simp] theorem Gang.putS_xlimit (g : Gang) (n : Nat) (x : W64) : (g.putS n x).xlimit = g.xlimit := rfl
@[simp] theorem Gang.putS_fpstat (g : Gang) (n : Nat) (x : W64) : (g.putS n x).fpstat = g.fpstat := rfl
@[simp] theorem Gang.putS_issuecnt (g : Gang) (n : Nat) (x : W64) : (g.putS n x).issuecnt = g.issuecnt := rfl
@[simp] theorem Gang.putS_lastIssue (g : Gang) (n : Nat) (x : W64) : (g.putS n x).lastIssue = g.lastIssue := rfl
@[simp] theorem Gang.putS_trapbase (g : Gang) (n : Nat) (x : W64) : (g.putS n x).trapbase = g.trapbase := rfl
@[simp] theorem Gang.putS_trapcause (g : Gang) (n : Nat) (x : W64) : (g.putS n x).trapcause = g.trapcause := rfl
@[simp] theorem Gang.putS_trappc (g : Gang) (n : Nat) (x : W64) : (g.putS n x).trappc = g.trappc := rfl
@[simp] theorem Gang.putS_trapaddr (g : Gang) (n : Nat) (x : W64) : (g.putS n x).trapaddr = g.trapaddr := rfl
@[simp] theorem Gang.putS_codemap (g : Gang) (n : Nat) (x : W64) : (g.putS n x).codemap = g.codemap := rfl
@[simp] theorem Gang.putS_handler (g : Gang) (n : Nat) (x : W64) : (g.putS n x).handler = g.handler := rfl
@[simp] theorem Gang.putS_trapped (g : Gang) (n : Nat) (x : W64) : (g.putS n x).trapped = g.trapped := rfl
@[simp] theorem Gang.putS_ord (g : Gang) (n : Nat) (x : W64) : (g.putS n x).ord = g.ord := rfl
@[simp] theorem Gang.putS_ordSusp (g : Gang) (n : Nat) (x : W64) : (g.putS n x).ordSusp = g.ordSusp := rfl
@[simp] theorem Gang.putS_fence (g : Gang) (n : Nat) (x : W64) : (g.putS n x).fence = g.fence := rfl
@[simp] theorem Gang.putS_unitOf (g : Gang) (n : Nat) (x : W64) : (g.putS n x).unitOf = g.unitOf := rfl
@[simp] theorem Gang.putS_slots (g : Gang) (n : Nat) (x : W64) : (g.putS n x).slots = g.slots := rfl
@[simp] theorem Gang.putS_splitCnt (g : Gang) (n : Nat) (x : W64) : (g.putS n x).splitCnt = g.splitCnt := rfl
@[simp] theorem Gang.putS_age (g : Gang) (n : Nat) (x : W64) : (g.putS n x).age = g.age := rfl
@[simp] theorem Gang.putS_unitAge (g : Gang) (n : Nat) (x : W64) : (g.putS n x).unitAge = g.unitAge := rfl
@[simp] theorem Gang.putS_prods (g : Gang) (n : Nat) (x : W64) : (g.putS n x).prods = g.prods := rfl
@[simp] theorem Gang.putS_waits (g : Gang) (n : Nat) (x : W64) : (g.putS n x).waits = g.waits := rfl
@[simp] theorem Gang.putS_nextId (g : Gang) (n : Nat) (x : W64) : (g.putS n x).nextId = g.nextId := rfl
@[simp] theorem Gang.putS_cancel (g : Gang) (n : Nat) (x : W64) : (g.putS n x).cancel = g.cancel := rfl
@[simp] theorem Gang.putS_parked (g : Gang) (n : Nat) (x : W64) : (g.putS n x).parked = g.parked := rfl
@[simp] theorem Gang.putS_fresh (g : Gang) (n : Nat) (x : W64) : (g.putS n x).fresh = g.fresh := rfl
@[simp] theorem Gang.putS_active (g : Gang) (n : Nat) (x : W64) : (g.putS n x).active = g.active := rfl
@[simp] theorem Gang.putS_blocked (g : Gang) (n : Nat) (x : W64) : (g.putS n x).blocked = g.blocked := rfl
@[simp] theorem Gang.putS_yielded (g : Gang) (n : Nat) (x : W64) : (g.putS n x).yielded = g.yielded := rfl
@[simp] theorem Gang.putS_cmdIssued (g : Gang) (n : Nat) (x : W64) : (g.putS n x).cmdIssued = g.cmdIssued := rfl
@[simp] theorem Gang.putS_cmdDone (g : Gang) (n : Nat) (x : W64) : (g.putS n x).cmdDone = g.cmdDone := rfl
@[simp] theorem Gang.putS_cmdFault (g : Gang) (n : Nat) (x : W64) : (g.putS n x).cmdFault = g.cmdFault := rfl
@[simp] theorem Gang.putS_qops (g : Gang) (n : Nat) (x : W64) : (g.putS n x).qops = g.qops := rfl
@[simp] theorem Gang.putS_mops (g : Gang) (n : Nat) (x : W64) : (g.putS n x).mops = g.mops := rfl
@[simp] theorem Gang.putS_rdvCnt (g : Gang) (n : Nat) (x : W64) : (g.putS n x).rdvCnt = g.rdvCnt := rfl

@[simp] theorem Gang.setS_wg (g : Gang) (n : Nat) (x : W64) : (g.setS n x).wg = g.wg := rfl
@[simp] theorem Gang.setS_idx (g : Gang) (n : Nat) (x : W64) : (g.setS n x).idx = g.idx := rfl
@[simp] theorem Gang.setS_n (g : Gang) (n : Nat) (x : W64) : (g.setS n x).n = g.n := rfl
@[simp] theorem Gang.setS_status (g : Gang) (n : Nat) (x : W64) : (g.setS n x).status = g.status := rfl
@[simp] theorem Gang.setS_pcs (g : Gang) (n : Nat) (x : W64) : (g.setS n x).pcs = g.pcs := rfl
@[simp] theorem Gang.setS_vr (g : Gang) (n : Nat) (x : W64) : (g.setS n x).vr = g.vr := rfl
@[simp] theorem Gang.setS_pr (g : Gang) (n : Nat) (x : W64) : (g.setS n x).pr = g.pr := rfl
@[simp] theorem Gang.setS_base (g : Gang) (n : Nat) (x : W64) : (g.setS n x).base = g.base := rfl
@[simp] theorem Gang.setS_xcount (g : Gang) (n : Nat) (x : W64) : (g.setS n x).xcount = g.xcount := rfl
@[simp] theorem Gang.setS_xlimit (g : Gang) (n : Nat) (x : W64) : (g.setS n x).xlimit = g.xlimit := rfl
@[simp] theorem Gang.setS_fpstat (g : Gang) (n : Nat) (x : W64) : (g.setS n x).fpstat = g.fpstat := rfl
@[simp] theorem Gang.setS_issuecnt (g : Gang) (n : Nat) (x : W64) : (g.setS n x).issuecnt = g.issuecnt := rfl
@[simp] theorem Gang.setS_lastIssue (g : Gang) (n : Nat) (x : W64) : (g.setS n x).lastIssue = g.lastIssue := rfl
@[simp] theorem Gang.setS_trapbase (g : Gang) (n : Nat) (x : W64) : (g.setS n x).trapbase = g.trapbase := rfl
@[simp] theorem Gang.setS_trapcause (g : Gang) (n : Nat) (x : W64) : (g.setS n x).trapcause = g.trapcause := rfl
@[simp] theorem Gang.setS_trappc (g : Gang) (n : Nat) (x : W64) : (g.setS n x).trappc = g.trappc := rfl
@[simp] theorem Gang.setS_trapaddr (g : Gang) (n : Nat) (x : W64) : (g.setS n x).trapaddr = g.trapaddr := rfl
@[simp] theorem Gang.setS_codemap (g : Gang) (n : Nat) (x : W64) : (g.setS n x).codemap = g.codemap := rfl
@[simp] theorem Gang.setS_handler (g : Gang) (n : Nat) (x : W64) : (g.setS n x).handler = g.handler := rfl
@[simp] theorem Gang.setS_trapped (g : Gang) (n : Nat) (x : W64) : (g.setS n x).trapped = g.trapped := rfl
@[simp] theorem Gang.setS_ord (g : Gang) (n : Nat) (x : W64) : (g.setS n x).ord = g.ord := rfl
@[simp] theorem Gang.setS_ordSusp (g : Gang) (n : Nat) (x : W64) : (g.setS n x).ordSusp = g.ordSusp := rfl
@[simp] theorem Gang.setS_fence (g : Gang) (n : Nat) (x : W64) : (g.setS n x).fence = g.fence := rfl
@[simp] theorem Gang.setS_unitOf (g : Gang) (n : Nat) (x : W64) : (g.setS n x).unitOf = g.unitOf := rfl
@[simp] theorem Gang.setS_slots (g : Gang) (n : Nat) (x : W64) : (g.setS n x).slots = g.slots := rfl
@[simp] theorem Gang.setS_splitCnt (g : Gang) (n : Nat) (x : W64) : (g.setS n x).splitCnt = g.splitCnt := rfl
@[simp] theorem Gang.setS_age (g : Gang) (n : Nat) (x : W64) : (g.setS n x).age = g.age := rfl
@[simp] theorem Gang.setS_unitAge (g : Gang) (n : Nat) (x : W64) : (g.setS n x).unitAge = g.unitAge := rfl
@[simp] theorem Gang.setS_waits (g : Gang) (n : Nat) (x : W64) : (g.setS n x).waits = g.waits := rfl
@[simp] theorem Gang.setS_nextId (g : Gang) (n : Nat) (x : W64) : (g.setS n x).nextId = g.nextId := rfl
@[simp] theorem Gang.setS_cancel (g : Gang) (n : Nat) (x : W64) : (g.setS n x).cancel = g.cancel := rfl
@[simp] theorem Gang.setS_parked (g : Gang) (n : Nat) (x : W64) : (g.setS n x).parked = g.parked := rfl
@[simp] theorem Gang.setS_fresh (g : Gang) (n : Nat) (x : W64) : (g.setS n x).fresh = g.fresh := rfl
@[simp] theorem Gang.setS_active (g : Gang) (n : Nat) (x : W64) : (g.setS n x).active = g.active := rfl
@[simp] theorem Gang.setS_blocked (g : Gang) (n : Nat) (x : W64) : (g.setS n x).blocked = g.blocked := rfl
@[simp] theorem Gang.setS_yielded (g : Gang) (n : Nat) (x : W64) : (g.setS n x).yielded = g.yielded := rfl
@[simp] theorem Gang.setS_cmdIssued (g : Gang) (n : Nat) (x : W64) : (g.setS n x).cmdIssued = g.cmdIssued := rfl
@[simp] theorem Gang.setS_cmdDone (g : Gang) (n : Nat) (x : W64) : (g.setS n x).cmdDone = g.cmdDone := rfl
@[simp] theorem Gang.setS_cmdFault (g : Gang) (n : Nat) (x : W64) : (g.setS n x).cmdFault = g.cmdFault := rfl
@[simp] theorem Gang.setS_qops (g : Gang) (n : Nat) (x : W64) : (g.setS n x).qops = g.qops := rfl
@[simp] theorem Gang.setS_mops (g : Gang) (n : Nat) (x : W64) : (g.setS n x).mops = g.mops := rfl
@[simp] theorem Gang.setS_rdvCnt (g : Gang) (n : Nat) (x : W64) : (g.setS n x).rdvCnt = g.rdvCnt := rfl

@[simp] theorem Gang.raise_wg (g : Gang) (f : Flg) : (g.raise f).wg = g.wg := rfl
@[simp] theorem Gang.raise_idx (g : Gang) (f : Flg) : (g.raise f).idx = g.idx := rfl
@[simp] theorem Gang.raise_n (g : Gang) (f : Flg) : (g.raise f).n = g.n := rfl
@[simp] theorem Gang.raise_status (g : Gang) (f : Flg) : (g.raise f).status = g.status := rfl
@[simp] theorem Gang.raise_pcs (g : Gang) (f : Flg) : (g.raise f).pcs = g.pcs := rfl
@[simp] theorem Gang.raise_vr (g : Gang) (f : Flg) : (g.raise f).vr = g.vr := rfl
@[simp] theorem Gang.raise_pr (g : Gang) (f : Flg) : (g.raise f).pr = g.pr := rfl
@[simp] theorem Gang.raise_sr (g : Gang) (f : Flg) : (g.raise f).sr = g.sr := rfl
@[simp] theorem Gang.raise_empty (g : Gang) (f : Flg) : (g.raise f).empty = g.empty := rfl
@[simp] theorem Gang.raise_poison (g : Gang) (f : Flg) : (g.raise f).poison = g.poison := rfl
@[simp] theorem Gang.raise_base (g : Gang) (f : Flg) : (g.raise f).base = g.base := rfl
@[simp] theorem Gang.raise_xcount (g : Gang) (f : Flg) : (g.raise f).xcount = g.xcount := rfl
@[simp] theorem Gang.raise_xlimit (g : Gang) (f : Flg) : (g.raise f).xlimit = g.xlimit := rfl
@[simp] theorem Gang.raise_issuecnt (g : Gang) (f : Flg) : (g.raise f).issuecnt = g.issuecnt := rfl
@[simp] theorem Gang.raise_lastIssue (g : Gang) (f : Flg) : (g.raise f).lastIssue = g.lastIssue := rfl
@[simp] theorem Gang.raise_trapbase (g : Gang) (f : Flg) : (g.raise f).trapbase = g.trapbase := rfl
@[simp] theorem Gang.raise_trapcause (g : Gang) (f : Flg) : (g.raise f).trapcause = g.trapcause := rfl
@[simp] theorem Gang.raise_trappc (g : Gang) (f : Flg) : (g.raise f).trappc = g.trappc := rfl
@[simp] theorem Gang.raise_trapaddr (g : Gang) (f : Flg) : (g.raise f).trapaddr = g.trapaddr := rfl
@[simp] theorem Gang.raise_codemap (g : Gang) (f : Flg) : (g.raise f).codemap = g.codemap := rfl
@[simp] theorem Gang.raise_handler (g : Gang) (f : Flg) : (g.raise f).handler = g.handler := rfl
@[simp] theorem Gang.raise_trapped (g : Gang) (f : Flg) : (g.raise f).trapped = g.trapped := rfl
@[simp] theorem Gang.raise_ord (g : Gang) (f : Flg) : (g.raise f).ord = g.ord := rfl
@[simp] theorem Gang.raise_ordSusp (g : Gang) (f : Flg) : (g.raise f).ordSusp = g.ordSusp := rfl
@[simp] theorem Gang.raise_fence (g : Gang) (f : Flg) : (g.raise f).fence = g.fence := rfl
@[simp] theorem Gang.raise_unitOf (g : Gang) (f : Flg) : (g.raise f).unitOf = g.unitOf := rfl
@[simp] theorem Gang.raise_slots (g : Gang) (f : Flg) : (g.raise f).slots = g.slots := rfl
@[simp] theorem Gang.raise_splitCnt (g : Gang) (f : Flg) : (g.raise f).splitCnt = g.splitCnt := rfl
@[simp] theorem Gang.raise_age (g : Gang) (f : Flg) : (g.raise f).age = g.age := rfl
@[simp] theorem Gang.raise_unitAge (g : Gang) (f : Flg) : (g.raise f).unitAge = g.unitAge := rfl
@[simp] theorem Gang.raise_prods (g : Gang) (f : Flg) : (g.raise f).prods = g.prods := rfl
@[simp] theorem Gang.raise_waits (g : Gang) (f : Flg) : (g.raise f).waits = g.waits := rfl
@[simp] theorem Gang.raise_nextId (g : Gang) (f : Flg) : (g.raise f).nextId = g.nextId := rfl
@[simp] theorem Gang.raise_cancel (g : Gang) (f : Flg) : (g.raise f).cancel = g.cancel := rfl
@[simp] theorem Gang.raise_parked (g : Gang) (f : Flg) : (g.raise f).parked = g.parked := rfl
@[simp] theorem Gang.raise_fresh (g : Gang) (f : Flg) : (g.raise f).fresh = g.fresh := rfl
@[simp] theorem Gang.raise_active (g : Gang) (f : Flg) : (g.raise f).active = g.active := rfl
@[simp] theorem Gang.raise_blocked (g : Gang) (f : Flg) : (g.raise f).blocked = g.blocked := rfl
@[simp] theorem Gang.raise_yielded (g : Gang) (f : Flg) : (g.raise f).yielded = g.yielded := rfl
@[simp] theorem Gang.raise_cmdIssued (g : Gang) (f : Flg) : (g.raise f).cmdIssued = g.cmdIssued := rfl
@[simp] theorem Gang.raise_cmdDone (g : Gang) (f : Flg) : (g.raise f).cmdDone = g.cmdDone := rfl
@[simp] theorem Gang.raise_cmdFault (g : Gang) (f : Flg) : (g.raise f).cmdFault = g.cmdFault := rfl
@[simp] theorem Gang.raise_qops (g : Gang) (f : Flg) : (g.raise f).qops = g.qops := rfl
@[simp] theorem Gang.raise_mops (g : Gang) (f : Flg) : (g.raise f).mops = g.mops := rfl
@[simp] theorem Gang.raise_rdvCnt (g : Gang) (f : Flg) : (g.raise f).rdvCnt = g.rdvCnt := rfl

@[simp] theorem Gang.freshAge_wg (g : Gang) (m : LaneMask) : (g.freshAge m).wg = g.wg := rfl
@[simp] theorem Gang.freshAge_idx (g : Gang) (m : LaneMask) : (g.freshAge m).idx = g.idx := rfl
@[simp] theorem Gang.freshAge_n (g : Gang) (m : LaneMask) : (g.freshAge m).n = g.n := rfl
@[simp] theorem Gang.freshAge_status (g : Gang) (m : LaneMask) : (g.freshAge m).status = g.status := rfl
@[simp] theorem Gang.freshAge_pcs (g : Gang) (m : LaneMask) : (g.freshAge m).pcs = g.pcs := rfl
@[simp] theorem Gang.freshAge_vr (g : Gang) (m : LaneMask) : (g.freshAge m).vr = g.vr := rfl
@[simp] theorem Gang.freshAge_pr (g : Gang) (m : LaneMask) : (g.freshAge m).pr = g.pr := rfl
@[simp] theorem Gang.freshAge_sr (g : Gang) (m : LaneMask) : (g.freshAge m).sr = g.sr := rfl
@[simp] theorem Gang.freshAge_empty (g : Gang) (m : LaneMask) : (g.freshAge m).empty = g.empty := rfl
@[simp] theorem Gang.freshAge_poison (g : Gang) (m : LaneMask) : (g.freshAge m).poison = g.poison := rfl
@[simp] theorem Gang.freshAge_base (g : Gang) (m : LaneMask) : (g.freshAge m).base = g.base := rfl
@[simp] theorem Gang.freshAge_xcount (g : Gang) (m : LaneMask) : (g.freshAge m).xcount = g.xcount := rfl
@[simp] theorem Gang.freshAge_xlimit (g : Gang) (m : LaneMask) : (g.freshAge m).xlimit = g.xlimit := rfl
@[simp] theorem Gang.freshAge_fpstat (g : Gang) (m : LaneMask) : (g.freshAge m).fpstat = g.fpstat := rfl
@[simp] theorem Gang.freshAge_issuecnt (g : Gang) (m : LaneMask) : (g.freshAge m).issuecnt = g.issuecnt := rfl
@[simp] theorem Gang.freshAge_lastIssue (g : Gang) (m : LaneMask) : (g.freshAge m).lastIssue = g.lastIssue := rfl
@[simp] theorem Gang.freshAge_trapbase (g : Gang) (m : LaneMask) : (g.freshAge m).trapbase = g.trapbase := rfl
@[simp] theorem Gang.freshAge_trapcause (g : Gang) (m : LaneMask) : (g.freshAge m).trapcause = g.trapcause := rfl
@[simp] theorem Gang.freshAge_trappc (g : Gang) (m : LaneMask) : (g.freshAge m).trappc = g.trappc := rfl
@[simp] theorem Gang.freshAge_trapaddr (g : Gang) (m : LaneMask) : (g.freshAge m).trapaddr = g.trapaddr := rfl
@[simp] theorem Gang.freshAge_codemap (g : Gang) (m : LaneMask) : (g.freshAge m).codemap = g.codemap := rfl
@[simp] theorem Gang.freshAge_handler (g : Gang) (m : LaneMask) : (g.freshAge m).handler = g.handler := rfl
@[simp] theorem Gang.freshAge_trapped (g : Gang) (m : LaneMask) : (g.freshAge m).trapped = g.trapped := rfl
@[simp] theorem Gang.freshAge_ord (g : Gang) (m : LaneMask) : (g.freshAge m).ord = g.ord := rfl
@[simp] theorem Gang.freshAge_ordSusp (g : Gang) (m : LaneMask) : (g.freshAge m).ordSusp = g.ordSusp := rfl
@[simp] theorem Gang.freshAge_fence (g : Gang) (m : LaneMask) : (g.freshAge m).fence = g.fence := rfl
@[simp] theorem Gang.freshAge_unitOf (g : Gang) (m : LaneMask) : (g.freshAge m).unitOf = g.unitOf := rfl
@[simp] theorem Gang.freshAge_slots (g : Gang) (m : LaneMask) : (g.freshAge m).slots = g.slots := rfl
@[simp] theorem Gang.freshAge_splitCnt (g : Gang) (m : LaneMask) : (g.freshAge m).splitCnt = g.splitCnt := rfl
@[simp] theorem Gang.freshAge_unitAge (g : Gang) (m : LaneMask) : (g.freshAge m).unitAge = g.unitAge := rfl
@[simp] theorem Gang.freshAge_prods (g : Gang) (m : LaneMask) : (g.freshAge m).prods = g.prods := rfl
@[simp] theorem Gang.freshAge_waits (g : Gang) (m : LaneMask) : (g.freshAge m).waits = g.waits := rfl
@[simp] theorem Gang.freshAge_nextId (g : Gang) (m : LaneMask) : (g.freshAge m).nextId = g.nextId := rfl
@[simp] theorem Gang.freshAge_cancel (g : Gang) (m : LaneMask) : (g.freshAge m).cancel = g.cancel := rfl
@[simp] theorem Gang.freshAge_parked (g : Gang) (m : LaneMask) : (g.freshAge m).parked = g.parked := rfl
@[simp] theorem Gang.freshAge_fresh (g : Gang) (m : LaneMask) : (g.freshAge m).fresh = g.fresh := rfl
@[simp] theorem Gang.freshAge_active (g : Gang) (m : LaneMask) : (g.freshAge m).active = g.active := rfl
@[simp] theorem Gang.freshAge_blocked (g : Gang) (m : LaneMask) : (g.freshAge m).blocked = g.blocked := rfl
@[simp] theorem Gang.freshAge_yielded (g : Gang) (m : LaneMask) : (g.freshAge m).yielded = g.yielded := rfl
@[simp] theorem Gang.freshAge_cmdIssued (g : Gang) (m : LaneMask) : (g.freshAge m).cmdIssued = g.cmdIssued := rfl
@[simp] theorem Gang.freshAge_cmdDone (g : Gang) (m : LaneMask) : (g.freshAge m).cmdDone = g.cmdDone := rfl
@[simp] theorem Gang.freshAge_cmdFault (g : Gang) (m : LaneMask) : (g.freshAge m).cmdFault = g.cmdFault := rfl
@[simp] theorem Gang.freshAge_qops (g : Gang) (m : LaneMask) : (g.freshAge m).qops = g.qops := rfl
@[simp] theorem Gang.freshAge_mops (g : Gang) (m : LaneMask) : (g.freshAge m).mops = g.mops := rfl
@[simp] theorem Gang.freshAge_rdvCnt (g : Gang) (m : LaneMask) : (g.freshAge m).rdvCnt = g.rdvCnt := rfl

@[simp] theorem Gang.dropWaits_wg (g : Gang) (p : Wait → Bool) : (g.dropWaits p).wg = g.wg := rfl
@[simp] theorem Gang.dropWaits_idx (g : Gang) (p : Wait → Bool) : (g.dropWaits p).idx = g.idx := rfl
@[simp] theorem Gang.dropWaits_n (g : Gang) (p : Wait → Bool) : (g.dropWaits p).n = g.n := rfl
@[simp] theorem Gang.dropWaits_status (g : Gang) (p : Wait → Bool) : (g.dropWaits p).status = g.status := rfl
@[simp] theorem Gang.dropWaits_pcs (g : Gang) (p : Wait → Bool) : (g.dropWaits p).pcs = g.pcs := rfl
@[simp] theorem Gang.dropWaits_vr (g : Gang) (p : Wait → Bool) : (g.dropWaits p).vr = g.vr := rfl
@[simp] theorem Gang.dropWaits_pr (g : Gang) (p : Wait → Bool) : (g.dropWaits p).pr = g.pr := rfl
@[simp] theorem Gang.dropWaits_sr (g : Gang) (p : Wait → Bool) : (g.dropWaits p).sr = g.sr := rfl
@[simp] theorem Gang.dropWaits_empty (g : Gang) (p : Wait → Bool) : (g.dropWaits p).empty = g.empty := rfl
@[simp] theorem Gang.dropWaits_poison (g : Gang) (p : Wait → Bool) : (g.dropWaits p).poison = g.poison := rfl
@[simp] theorem Gang.dropWaits_base (g : Gang) (p : Wait → Bool) : (g.dropWaits p).base = g.base := rfl
@[simp] theorem Gang.dropWaits_xcount (g : Gang) (p : Wait → Bool) : (g.dropWaits p).xcount = g.xcount := rfl
@[simp] theorem Gang.dropWaits_xlimit (g : Gang) (p : Wait → Bool) : (g.dropWaits p).xlimit = g.xlimit := rfl
@[simp] theorem Gang.dropWaits_fpstat (g : Gang) (p : Wait → Bool) : (g.dropWaits p).fpstat = g.fpstat := rfl
@[simp] theorem Gang.dropWaits_issuecnt (g : Gang) (p : Wait → Bool) : (g.dropWaits p).issuecnt = g.issuecnt := rfl
@[simp] theorem Gang.dropWaits_lastIssue (g : Gang) (p : Wait → Bool) : (g.dropWaits p).lastIssue = g.lastIssue := rfl
@[simp] theorem Gang.dropWaits_trapbase (g : Gang) (p : Wait → Bool) : (g.dropWaits p).trapbase = g.trapbase := rfl
@[simp] theorem Gang.dropWaits_trapcause (g : Gang) (p : Wait → Bool) : (g.dropWaits p).trapcause = g.trapcause := rfl
@[simp] theorem Gang.dropWaits_trappc (g : Gang) (p : Wait → Bool) : (g.dropWaits p).trappc = g.trappc := rfl
@[simp] theorem Gang.dropWaits_trapaddr (g : Gang) (p : Wait → Bool) : (g.dropWaits p).trapaddr = g.trapaddr := rfl
@[simp] theorem Gang.dropWaits_codemap (g : Gang) (p : Wait → Bool) : (g.dropWaits p).codemap = g.codemap := rfl
@[simp] theorem Gang.dropWaits_handler (g : Gang) (p : Wait → Bool) : (g.dropWaits p).handler = g.handler := rfl
@[simp] theorem Gang.dropWaits_trapped (g : Gang) (p : Wait → Bool) : (g.dropWaits p).trapped = g.trapped := rfl
@[simp] theorem Gang.dropWaits_ord (g : Gang) (p : Wait → Bool) : (g.dropWaits p).ord = g.ord := rfl
@[simp] theorem Gang.dropWaits_ordSusp (g : Gang) (p : Wait → Bool) : (g.dropWaits p).ordSusp = g.ordSusp := rfl
@[simp] theorem Gang.dropWaits_fence (g : Gang) (p : Wait → Bool) : (g.dropWaits p).fence = g.fence := rfl
@[simp] theorem Gang.dropWaits_unitOf (g : Gang) (p : Wait → Bool) : (g.dropWaits p).unitOf = g.unitOf := rfl
@[simp] theorem Gang.dropWaits_slots (g : Gang) (p : Wait → Bool) : (g.dropWaits p).slots = g.slots := rfl
@[simp] theorem Gang.dropWaits_splitCnt (g : Gang) (p : Wait → Bool) : (g.dropWaits p).splitCnt = g.splitCnt := rfl
@[simp] theorem Gang.dropWaits_age (g : Gang) (p : Wait → Bool) : (g.dropWaits p).age = g.age := rfl
@[simp] theorem Gang.dropWaits_unitAge (g : Gang) (p : Wait → Bool) : (g.dropWaits p).unitAge = g.unitAge := rfl
@[simp] theorem Gang.dropWaits_prods (g : Gang) (p : Wait → Bool) : (g.dropWaits p).prods = g.prods := rfl
@[simp] theorem Gang.dropWaits_nextId (g : Gang) (p : Wait → Bool) : (g.dropWaits p).nextId = g.nextId := rfl
@[simp] theorem Gang.dropWaits_cancel (g : Gang) (p : Wait → Bool) : (g.dropWaits p).cancel = g.cancel := rfl
@[simp] theorem Gang.dropWaits_parked (g : Gang) (p : Wait → Bool) : (g.dropWaits p).parked = g.parked := rfl
@[simp] theorem Gang.dropWaits_fresh (g : Gang) (p : Wait → Bool) : (g.dropWaits p).fresh = g.fresh := rfl
@[simp] theorem Gang.dropWaits_active (g : Gang) (p : Wait → Bool) : (g.dropWaits p).active = g.active := rfl
@[simp] theorem Gang.dropWaits_blocked (g : Gang) (p : Wait → Bool) : (g.dropWaits p).blocked = g.blocked := rfl
@[simp] theorem Gang.dropWaits_yielded (g : Gang) (p : Wait → Bool) : (g.dropWaits p).yielded = g.yielded := rfl
@[simp] theorem Gang.dropWaits_cmdIssued (g : Gang) (p : Wait → Bool) : (g.dropWaits p).cmdIssued = g.cmdIssued := rfl
@[simp] theorem Gang.dropWaits_cmdDone (g : Gang) (p : Wait → Bool) : (g.dropWaits p).cmdDone = g.cmdDone := rfl
@[simp] theorem Gang.dropWaits_cmdFault (g : Gang) (p : Wait → Bool) : (g.dropWaits p).cmdFault = g.cmdFault := rfl
@[simp] theorem Gang.dropWaits_qops (g : Gang) (p : Wait → Bool) : (g.dropWaits p).qops = g.qops := rfl
@[simp] theorem Gang.dropWaits_mops (g : Gang) (p : Wait → Bool) : (g.dropWaits p).mops = g.mops := rfl
@[simp] theorem Gang.dropWaits_rdvCnt (g : Gang) (p : Wait → Bool) : (g.dropWaits p).rdvCnt = g.rdvCnt := rfl

@[simp] theorem Gang.addWait_wg (g : Gang) (m : LaneMask) (k : WaitKind) : (g.addWait m k).wg = g.wg := rfl
@[simp] theorem Gang.addWait_idx (g : Gang) (m : LaneMask) (k : WaitKind) : (g.addWait m k).idx = g.idx := rfl
@[simp] theorem Gang.addWait_n (g : Gang) (m : LaneMask) (k : WaitKind) : (g.addWait m k).n = g.n := rfl
@[simp] theorem Gang.addWait_status (g : Gang) (m : LaneMask) (k : WaitKind) : (g.addWait m k).status = g.status := rfl
@[simp] theorem Gang.addWait_pcs (g : Gang) (m : LaneMask) (k : WaitKind) : (g.addWait m k).pcs = g.pcs := rfl
@[simp] theorem Gang.addWait_vr (g : Gang) (m : LaneMask) (k : WaitKind) : (g.addWait m k).vr = g.vr := rfl
@[simp] theorem Gang.addWait_pr (g : Gang) (m : LaneMask) (k : WaitKind) : (g.addWait m k).pr = g.pr := rfl
@[simp] theorem Gang.addWait_sr (g : Gang) (m : LaneMask) (k : WaitKind) : (g.addWait m k).sr = g.sr := rfl
@[simp] theorem Gang.addWait_empty (g : Gang) (m : LaneMask) (k : WaitKind) : (g.addWait m k).empty = g.empty := rfl
@[simp] theorem Gang.addWait_poison (g : Gang) (m : LaneMask) (k : WaitKind) : (g.addWait m k).poison = g.poison := rfl
@[simp] theorem Gang.addWait_base (g : Gang) (m : LaneMask) (k : WaitKind) : (g.addWait m k).base = g.base := rfl
@[simp] theorem Gang.addWait_xcount (g : Gang) (m : LaneMask) (k : WaitKind) : (g.addWait m k).xcount = g.xcount := rfl
@[simp] theorem Gang.addWait_xlimit (g : Gang) (m : LaneMask) (k : WaitKind) : (g.addWait m k).xlimit = g.xlimit := rfl
@[simp] theorem Gang.addWait_fpstat (g : Gang) (m : LaneMask) (k : WaitKind) : (g.addWait m k).fpstat = g.fpstat := rfl
@[simp] theorem Gang.addWait_issuecnt (g : Gang) (m : LaneMask) (k : WaitKind) : (g.addWait m k).issuecnt = g.issuecnt := rfl
@[simp] theorem Gang.addWait_lastIssue (g : Gang) (m : LaneMask) (k : WaitKind) : (g.addWait m k).lastIssue = g.lastIssue := rfl
@[simp] theorem Gang.addWait_trapbase (g : Gang) (m : LaneMask) (k : WaitKind) : (g.addWait m k).trapbase = g.trapbase := rfl
@[simp] theorem Gang.addWait_trapcause (g : Gang) (m : LaneMask) (k : WaitKind) : (g.addWait m k).trapcause = g.trapcause := rfl
@[simp] theorem Gang.addWait_trappc (g : Gang) (m : LaneMask) (k : WaitKind) : (g.addWait m k).trappc = g.trappc := rfl
@[simp] theorem Gang.addWait_trapaddr (g : Gang) (m : LaneMask) (k : WaitKind) : (g.addWait m k).trapaddr = g.trapaddr := rfl
@[simp] theorem Gang.addWait_codemap (g : Gang) (m : LaneMask) (k : WaitKind) : (g.addWait m k).codemap = g.codemap := rfl
@[simp] theorem Gang.addWait_handler (g : Gang) (m : LaneMask) (k : WaitKind) : (g.addWait m k).handler = g.handler := rfl
@[simp] theorem Gang.addWait_trapped (g : Gang) (m : LaneMask) (k : WaitKind) : (g.addWait m k).trapped = g.trapped := rfl
@[simp] theorem Gang.addWait_ord (g : Gang) (m : LaneMask) (k : WaitKind) : (g.addWait m k).ord = g.ord := rfl
@[simp] theorem Gang.addWait_ordSusp (g : Gang) (m : LaneMask) (k : WaitKind) : (g.addWait m k).ordSusp = g.ordSusp := rfl
@[simp] theorem Gang.addWait_fence (g : Gang) (m : LaneMask) (k : WaitKind) : (g.addWait m k).fence = g.fence := rfl
@[simp] theorem Gang.addWait_unitOf (g : Gang) (m : LaneMask) (k : WaitKind) : (g.addWait m k).unitOf = g.unitOf := rfl
@[simp] theorem Gang.addWait_slots (g : Gang) (m : LaneMask) (k : WaitKind) : (g.addWait m k).slots = g.slots := rfl
@[simp] theorem Gang.addWait_splitCnt (g : Gang) (m : LaneMask) (k : WaitKind) : (g.addWait m k).splitCnt = g.splitCnt := rfl
@[simp] theorem Gang.addWait_age (g : Gang) (m : LaneMask) (k : WaitKind) : (g.addWait m k).age = g.age := rfl
@[simp] theorem Gang.addWait_unitAge (g : Gang) (m : LaneMask) (k : WaitKind) : (g.addWait m k).unitAge = g.unitAge := rfl
@[simp] theorem Gang.addWait_prods (g : Gang) (m : LaneMask) (k : WaitKind) : (g.addWait m k).prods = g.prods := rfl
@[simp] theorem Gang.addWait_cancel (g : Gang) (m : LaneMask) (k : WaitKind) : (g.addWait m k).cancel = g.cancel := rfl
@[simp] theorem Gang.addWait_parked (g : Gang) (m : LaneMask) (k : WaitKind) : (g.addWait m k).parked = g.parked := rfl
@[simp] theorem Gang.addWait_fresh (g : Gang) (m : LaneMask) (k : WaitKind) : (g.addWait m k).fresh = g.fresh := rfl
@[simp] theorem Gang.addWait_active (g : Gang) (m : LaneMask) (k : WaitKind) : (g.addWait m k).active = g.active := rfl
@[simp] theorem Gang.addWait_blocked (g : Gang) (m : LaneMask) (k : WaitKind) : (g.addWait m k).blocked = g.blocked := rfl
@[simp] theorem Gang.addWait_yielded (g : Gang) (m : LaneMask) (k : WaitKind) : (g.addWait m k).yielded = g.yielded := rfl
@[simp] theorem Gang.addWait_cmdIssued (g : Gang) (m : LaneMask) (k : WaitKind) : (g.addWait m k).cmdIssued = g.cmdIssued := rfl
@[simp] theorem Gang.addWait_cmdDone (g : Gang) (m : LaneMask) (k : WaitKind) : (g.addWait m k).cmdDone = g.cmdDone := rfl
@[simp] theorem Gang.addWait_cmdFault (g : Gang) (m : LaneMask) (k : WaitKind) : (g.addWait m k).cmdFault = g.cmdFault := rfl
@[simp] theorem Gang.addWait_qops (g : Gang) (m : LaneMask) (k : WaitKind) : (g.addWait m k).qops = g.qops := rfl
@[simp] theorem Gang.addWait_mops (g : Gang) (m : LaneMask) (k : WaitKind) : (g.addWait m k).mops = g.mops := rfl
@[simp] theorem Gang.addWait_rdvCnt (g : Gang) (m : LaneMask) (k : WaitKind) : (g.addWait m k).rdvCnt = g.rdvCnt := rfl

@[simp] theorem Gang.setP_wg (g : Gang) (l i : Nat) (b : Bool) : (g.setP l i b).wg = g.wg := by unfold Gang.setP; split <;> rfl
@[simp] theorem Gang.setP_idx (g : Gang) (l i : Nat) (b : Bool) : (g.setP l i b).idx = g.idx := by unfold Gang.setP; split <;> rfl
@[simp] theorem Gang.setP_n (g : Gang) (l i : Nat) (b : Bool) : (g.setP l i b).n = g.n := by unfold Gang.setP; split <;> rfl
@[simp] theorem Gang.setP_status (g : Gang) (l i : Nat) (b : Bool) : (g.setP l i b).status = g.status := by unfold Gang.setP; split <;> rfl
@[simp] theorem Gang.setP_pcs (g : Gang) (l i : Nat) (b : Bool) : (g.setP l i b).pcs = g.pcs := by unfold Gang.setP; split <;> rfl
@[simp] theorem Gang.setP_vr (g : Gang) (l i : Nat) (b : Bool) : (g.setP l i b).vr = g.vr := by unfold Gang.setP; split <;> rfl
@[simp] theorem Gang.setP_sr (g : Gang) (l i : Nat) (b : Bool) : (g.setP l i b).sr = g.sr := by unfold Gang.setP; split <;> rfl
@[simp] theorem Gang.setP_empty (g : Gang) (l i : Nat) (b : Bool) : (g.setP l i b).empty = g.empty := by unfold Gang.setP; split <;> rfl
@[simp] theorem Gang.setP_poison (g : Gang) (l i : Nat) (b : Bool) : (g.setP l i b).poison = g.poison := by unfold Gang.setP; split <;> rfl
@[simp] theorem Gang.setP_base (g : Gang) (l i : Nat) (b : Bool) : (g.setP l i b).base = g.base := by unfold Gang.setP; split <;> rfl
@[simp] theorem Gang.setP_xcount (g : Gang) (l i : Nat) (b : Bool) : (g.setP l i b).xcount = g.xcount := by unfold Gang.setP; split <;> rfl
@[simp] theorem Gang.setP_xlimit (g : Gang) (l i : Nat) (b : Bool) : (g.setP l i b).xlimit = g.xlimit := by unfold Gang.setP; split <;> rfl
@[simp] theorem Gang.setP_fpstat (g : Gang) (l i : Nat) (b : Bool) : (g.setP l i b).fpstat = g.fpstat := by unfold Gang.setP; split <;> rfl
@[simp] theorem Gang.setP_issuecnt (g : Gang) (l i : Nat) (b : Bool) : (g.setP l i b).issuecnt = g.issuecnt := by unfold Gang.setP; split <;> rfl
@[simp] theorem Gang.setP_lastIssue (g : Gang) (l i : Nat) (b : Bool) : (g.setP l i b).lastIssue = g.lastIssue := by unfold Gang.setP; split <;> rfl
@[simp] theorem Gang.setP_trapbase (g : Gang) (l i : Nat) (b : Bool) : (g.setP l i b).trapbase = g.trapbase := by unfold Gang.setP; split <;> rfl
@[simp] theorem Gang.setP_trapcause (g : Gang) (l i : Nat) (b : Bool) : (g.setP l i b).trapcause = g.trapcause := by unfold Gang.setP; split <;> rfl
@[simp] theorem Gang.setP_trappc (g : Gang) (l i : Nat) (b : Bool) : (g.setP l i b).trappc = g.trappc := by unfold Gang.setP; split <;> rfl
@[simp] theorem Gang.setP_trapaddr (g : Gang) (l i : Nat) (b : Bool) : (g.setP l i b).trapaddr = g.trapaddr := by unfold Gang.setP; split <;> rfl
@[simp] theorem Gang.setP_codemap (g : Gang) (l i : Nat) (b : Bool) : (g.setP l i b).codemap = g.codemap := by unfold Gang.setP; split <;> rfl
@[simp] theorem Gang.setP_handler (g : Gang) (l i : Nat) (b : Bool) : (g.setP l i b).handler = g.handler := by unfold Gang.setP; split <;> rfl
@[simp] theorem Gang.setP_trapped (g : Gang) (l i : Nat) (b : Bool) : (g.setP l i b).trapped = g.trapped := by unfold Gang.setP; split <;> rfl
@[simp] theorem Gang.setP_ord (g : Gang) (l i : Nat) (b : Bool) : (g.setP l i b).ord = g.ord := by unfold Gang.setP; split <;> rfl
@[simp] theorem Gang.setP_ordSusp (g : Gang) (l i : Nat) (b : Bool) : (g.setP l i b).ordSusp = g.ordSusp := by unfold Gang.setP; split <;> rfl
@[simp] theorem Gang.setP_fence (g : Gang) (l i : Nat) (b : Bool) : (g.setP l i b).fence = g.fence := by unfold Gang.setP; split <;> rfl
@[simp] theorem Gang.setP_unitOf (g : Gang) (l i : Nat) (b : Bool) : (g.setP l i b).unitOf = g.unitOf := by unfold Gang.setP; split <;> rfl
@[simp] theorem Gang.setP_slots (g : Gang) (l i : Nat) (b : Bool) : (g.setP l i b).slots = g.slots := by unfold Gang.setP; split <;> rfl
@[simp] theorem Gang.setP_splitCnt (g : Gang) (l i : Nat) (b : Bool) : (g.setP l i b).splitCnt = g.splitCnt := by unfold Gang.setP; split <;> rfl
@[simp] theorem Gang.setP_age (g : Gang) (l i : Nat) (b : Bool) : (g.setP l i b).age = g.age := by unfold Gang.setP; split <;> rfl
@[simp] theorem Gang.setP_unitAge (g : Gang) (l i : Nat) (b : Bool) : (g.setP l i b).unitAge = g.unitAge := by unfold Gang.setP; split <;> rfl
@[simp] theorem Gang.setP_prods (g : Gang) (l i : Nat) (b : Bool) : (g.setP l i b).prods = g.prods := by unfold Gang.setP; split <;> rfl
@[simp] theorem Gang.setP_waits (g : Gang) (l i : Nat) (b : Bool) : (g.setP l i b).waits = g.waits := by unfold Gang.setP; split <;> rfl
@[simp] theorem Gang.setP_nextId (g : Gang) (l i : Nat) (b : Bool) : (g.setP l i b).nextId = g.nextId := by unfold Gang.setP; split <;> rfl
@[simp] theorem Gang.setP_cancel (g : Gang) (l i : Nat) (b : Bool) : (g.setP l i b).cancel = g.cancel := by unfold Gang.setP; split <;> rfl
@[simp] theorem Gang.setP_parked (g : Gang) (l i : Nat) (b : Bool) : (g.setP l i b).parked = g.parked := by unfold Gang.setP; split <;> rfl
@[simp] theorem Gang.setP_fresh (g : Gang) (l i : Nat) (b : Bool) : (g.setP l i b).fresh = g.fresh := by unfold Gang.setP; split <;> rfl
@[simp] theorem Gang.setP_active (g : Gang) (l i : Nat) (b : Bool) : (g.setP l i b).active = g.active := by unfold Gang.setP; split <;> rfl
@[simp] theorem Gang.setP_blocked (g : Gang) (l i : Nat) (b : Bool) : (g.setP l i b).blocked = g.blocked := by unfold Gang.setP; split <;> rfl
@[simp] theorem Gang.setP_yielded (g : Gang) (l i : Nat) (b : Bool) : (g.setP l i b).yielded = g.yielded := by unfold Gang.setP; split <;> rfl
@[simp] theorem Gang.setP_cmdIssued (g : Gang) (l i : Nat) (b : Bool) : (g.setP l i b).cmdIssued = g.cmdIssued := by unfold Gang.setP; split <;> rfl
@[simp] theorem Gang.setP_cmdDone (g : Gang) (l i : Nat) (b : Bool) : (g.setP l i b).cmdDone = g.cmdDone := by unfold Gang.setP; split <;> rfl
@[simp] theorem Gang.setP_cmdFault (g : Gang) (l i : Nat) (b : Bool) : (g.setP l i b).cmdFault = g.cmdFault := by unfold Gang.setP; split <;> rfl
@[simp] theorem Gang.setP_qops (g : Gang) (l i : Nat) (b : Bool) : (g.setP l i b).qops = g.qops := by unfold Gang.setP; split <;> rfl
@[simp] theorem Gang.setP_mops (g : Gang) (l i : Nat) (b : Bool) : (g.setP l i b).mops = g.mops := by unfold Gang.setP; split <;> rfl
@[simp] theorem Gang.setP_rdvCnt (g : Gang) (l i : Nat) (b : Bool) : (g.setP l i b).rdvCnt = g.rdvCnt := by unfold Gang.setP; split <;> rfl

@[simp] theorem Gang.addProducer_wg (g : Gang) (ds : List Dest) (r : Bool) (f : Flg) : (g.addProducer ds r f).wg = g.wg := rfl
@[simp] theorem Gang.addProducer_idx (g : Gang) (ds : List Dest) (r : Bool) (f : Flg) : (g.addProducer ds r f).idx = g.idx := rfl
@[simp] theorem Gang.addProducer_n (g : Gang) (ds : List Dest) (r : Bool) (f : Flg) : (g.addProducer ds r f).n = g.n := rfl
@[simp] theorem Gang.addProducer_status (g : Gang) (ds : List Dest) (r : Bool) (f : Flg) : (g.addProducer ds r f).status = g.status := rfl
@[simp] theorem Gang.addProducer_pcs (g : Gang) (ds : List Dest) (r : Bool) (f : Flg) : (g.addProducer ds r f).pcs = g.pcs := rfl
@[simp] theorem Gang.addProducer_vr (g : Gang) (ds : List Dest) (r : Bool) (f : Flg) : (g.addProducer ds r f).vr = g.vr := rfl
@[simp] theorem Gang.addProducer_pr (g : Gang) (ds : List Dest) (r : Bool) (f : Flg) : (g.addProducer ds r f).pr = g.pr := rfl
@[simp] theorem Gang.addProducer_sr (g : Gang) (ds : List Dest) (r : Bool) (f : Flg) : (g.addProducer ds r f).sr = g.sr := rfl
@[simp] theorem Gang.addProducer_poison (g : Gang) (ds : List Dest) (r : Bool) (f : Flg) : (g.addProducer ds r f).poison = g.poison := rfl
@[simp] theorem Gang.addProducer_base (g : Gang) (ds : List Dest) (r : Bool) (f : Flg) : (g.addProducer ds r f).base = g.base := rfl
@[simp] theorem Gang.addProducer_xcount (g : Gang) (ds : List Dest) (r : Bool) (f : Flg) : (g.addProducer ds r f).xcount = g.xcount := rfl
@[simp] theorem Gang.addProducer_xlimit (g : Gang) (ds : List Dest) (r : Bool) (f : Flg) : (g.addProducer ds r f).xlimit = g.xlimit := rfl
@[simp] theorem Gang.addProducer_fpstat (g : Gang) (ds : List Dest) (r : Bool) (f : Flg) : (g.addProducer ds r f).fpstat = g.fpstat := rfl
@[simp] theorem Gang.addProducer_issuecnt (g : Gang) (ds : List Dest) (r : Bool) (f : Flg) : (g.addProducer ds r f).issuecnt = g.issuecnt := rfl
@[simp] theorem Gang.addProducer_lastIssue (g : Gang) (ds : List Dest) (r : Bool) (f : Flg) : (g.addProducer ds r f).lastIssue = g.lastIssue := rfl
@[simp] theorem Gang.addProducer_trapbase (g : Gang) (ds : List Dest) (r : Bool) (f : Flg) : (g.addProducer ds r f).trapbase = g.trapbase := rfl
@[simp] theorem Gang.addProducer_trapcause (g : Gang) (ds : List Dest) (r : Bool) (f : Flg) : (g.addProducer ds r f).trapcause = g.trapcause := rfl
@[simp] theorem Gang.addProducer_trappc (g : Gang) (ds : List Dest) (r : Bool) (f : Flg) : (g.addProducer ds r f).trappc = g.trappc := rfl
@[simp] theorem Gang.addProducer_trapaddr (g : Gang) (ds : List Dest) (r : Bool) (f : Flg) : (g.addProducer ds r f).trapaddr = g.trapaddr := rfl
@[simp] theorem Gang.addProducer_codemap (g : Gang) (ds : List Dest) (r : Bool) (f : Flg) : (g.addProducer ds r f).codemap = g.codemap := rfl
@[simp] theorem Gang.addProducer_handler (g : Gang) (ds : List Dest) (r : Bool) (f : Flg) : (g.addProducer ds r f).handler = g.handler := rfl
@[simp] theorem Gang.addProducer_trapped (g : Gang) (ds : List Dest) (r : Bool) (f : Flg) : (g.addProducer ds r f).trapped = g.trapped := rfl
@[simp] theorem Gang.addProducer_ord (g : Gang) (ds : List Dest) (r : Bool) (f : Flg) : (g.addProducer ds r f).ord = g.ord := rfl
@[simp] theorem Gang.addProducer_ordSusp (g : Gang) (ds : List Dest) (r : Bool) (f : Flg) : (g.addProducer ds r f).ordSusp = g.ordSusp := rfl
@[simp] theorem Gang.addProducer_fence (g : Gang) (ds : List Dest) (r : Bool) (f : Flg) : (g.addProducer ds r f).fence = g.fence := rfl
@[simp] theorem Gang.addProducer_unitOf (g : Gang) (ds : List Dest) (r : Bool) (f : Flg) : (g.addProducer ds r f).unitOf = g.unitOf := rfl
@[simp] theorem Gang.addProducer_slots (g : Gang) (ds : List Dest) (r : Bool) (f : Flg) : (g.addProducer ds r f).slots = g.slots := rfl
@[simp] theorem Gang.addProducer_splitCnt (g : Gang) (ds : List Dest) (r : Bool) (f : Flg) : (g.addProducer ds r f).splitCnt = g.splitCnt := rfl
@[simp] theorem Gang.addProducer_age (g : Gang) (ds : List Dest) (r : Bool) (f : Flg) : (g.addProducer ds r f).age = g.age := rfl
@[simp] theorem Gang.addProducer_unitAge (g : Gang) (ds : List Dest) (r : Bool) (f : Flg) : (g.addProducer ds r f).unitAge = g.unitAge := rfl
@[simp] theorem Gang.addProducer_waits (g : Gang) (ds : List Dest) (r : Bool) (f : Flg) : (g.addProducer ds r f).waits = g.waits := rfl
@[simp] theorem Gang.addProducer_cancel (g : Gang) (ds : List Dest) (r : Bool) (f : Flg) : (g.addProducer ds r f).cancel = g.cancel := rfl
@[simp] theorem Gang.addProducer_parked (g : Gang) (ds : List Dest) (r : Bool) (f : Flg) : (g.addProducer ds r f).parked = g.parked := rfl
@[simp] theorem Gang.addProducer_fresh (g : Gang) (ds : List Dest) (r : Bool) (f : Flg) : (g.addProducer ds r f).fresh = g.fresh := rfl
@[simp] theorem Gang.addProducer_active (g : Gang) (ds : List Dest) (r : Bool) (f : Flg) : (g.addProducer ds r f).active = g.active := rfl
@[simp] theorem Gang.addProducer_blocked (g : Gang) (ds : List Dest) (r : Bool) (f : Flg) : (g.addProducer ds r f).blocked = g.blocked := rfl
@[simp] theorem Gang.addProducer_yielded (g : Gang) (ds : List Dest) (r : Bool) (f : Flg) : (g.addProducer ds r f).yielded = g.yielded := rfl
@[simp] theorem Gang.addProducer_cmdIssued (g : Gang) (ds : List Dest) (r : Bool) (f : Flg) : (g.addProducer ds r f).cmdIssued = g.cmdIssued := rfl
@[simp] theorem Gang.addProducer_cmdDone (g : Gang) (ds : List Dest) (r : Bool) (f : Flg) : (g.addProducer ds r f).cmdDone = g.cmdDone := rfl
@[simp] theorem Gang.addProducer_cmdFault (g : Gang) (ds : List Dest) (r : Bool) (f : Flg) : (g.addProducer ds r f).cmdFault = g.cmdFault := rfl
@[simp] theorem Gang.addProducer_qops (g : Gang) (ds : List Dest) (r : Bool) (f : Flg) : (g.addProducer ds r f).qops = g.qops := rfl
@[simp] theorem Gang.addProducer_mops (g : Gang) (ds : List Dest) (r : Bool) (f : Flg) : (g.addProducer ds r f).mops = g.mops := rfl
@[simp] theorem Gang.addProducer_rdvCnt (g : Gang) (ds : List Dest) (r : Bool) (f : Flg) : (g.addProducer ds r f).rdvCnt = g.rdvCnt := rfl

@[simp] theorem Gang.exitLanes_wg (g : Gang) (m : LaneMask) : (g.exitLanes m).wg = g.wg := rfl
@[simp] theorem Gang.exitLanes_idx (g : Gang) (m : LaneMask) : (g.exitLanes m).idx = g.idx := rfl
@[simp] theorem Gang.exitLanes_n (g : Gang) (m : LaneMask) : (g.exitLanes m).n = g.n := rfl
@[simp] theorem Gang.exitLanes_pcs (g : Gang) (m : LaneMask) : (g.exitLanes m).pcs = g.pcs := rfl
@[simp] theorem Gang.exitLanes_vr (g : Gang) (m : LaneMask) : (g.exitLanes m).vr = g.vr := rfl
@[simp] theorem Gang.exitLanes_pr (g : Gang) (m : LaneMask) : (g.exitLanes m).pr = g.pr := rfl
@[simp] theorem Gang.exitLanes_sr (g : Gang) (m : LaneMask) : (g.exitLanes m).sr = g.sr := rfl
@[simp] theorem Gang.exitLanes_empty (g : Gang) (m : LaneMask) : (g.exitLanes m).empty = g.empty := rfl
@[simp] theorem Gang.exitLanes_poison (g : Gang) (m : LaneMask) : (g.exitLanes m).poison = g.poison := rfl
@[simp] theorem Gang.exitLanes_base (g : Gang) (m : LaneMask) : (g.exitLanes m).base = g.base := rfl
@[simp] theorem Gang.exitLanes_xcount (g : Gang) (m : LaneMask) : (g.exitLanes m).xcount = g.xcount := rfl
@[simp] theorem Gang.exitLanes_xlimit (g : Gang) (m : LaneMask) : (g.exitLanes m).xlimit = g.xlimit := rfl
@[simp] theorem Gang.exitLanes_fpstat (g : Gang) (m : LaneMask) : (g.exitLanes m).fpstat = g.fpstat := rfl
@[simp] theorem Gang.exitLanes_issuecnt (g : Gang) (m : LaneMask) : (g.exitLanes m).issuecnt = g.issuecnt := rfl
@[simp] theorem Gang.exitLanes_lastIssue (g : Gang) (m : LaneMask) : (g.exitLanes m).lastIssue = g.lastIssue := rfl
@[simp] theorem Gang.exitLanes_trapbase (g : Gang) (m : LaneMask) : (g.exitLanes m).trapbase = g.trapbase := rfl
@[simp] theorem Gang.exitLanes_trapcause (g : Gang) (m : LaneMask) : (g.exitLanes m).trapcause = g.trapcause := rfl
@[simp] theorem Gang.exitLanes_trappc (g : Gang) (m : LaneMask) : (g.exitLanes m).trappc = g.trappc := rfl
@[simp] theorem Gang.exitLanes_trapaddr (g : Gang) (m : LaneMask) : (g.exitLanes m).trapaddr = g.trapaddr := rfl
@[simp] theorem Gang.exitLanes_codemap (g : Gang) (m : LaneMask) : (g.exitLanes m).codemap = g.codemap := rfl
@[simp] theorem Gang.exitLanes_handler (g : Gang) (m : LaneMask) : (g.exitLanes m).handler = g.handler := rfl
@[simp] theorem Gang.exitLanes_trapped (g : Gang) (m : LaneMask) : (g.exitLanes m).trapped = g.trapped := rfl
@[simp] theorem Gang.exitLanes_ord (g : Gang) (m : LaneMask) : (g.exitLanes m).ord = g.ord := rfl
@[simp] theorem Gang.exitLanes_ordSusp (g : Gang) (m : LaneMask) : (g.exitLanes m).ordSusp = g.ordSusp := rfl
@[simp] theorem Gang.exitLanes_fence (g : Gang) (m : LaneMask) : (g.exitLanes m).fence = g.fence := rfl
@[simp] theorem Gang.exitLanes_unitOf (g : Gang) (m : LaneMask) : (g.exitLanes m).unitOf = g.unitOf := rfl
@[simp] theorem Gang.exitLanes_slots (g : Gang) (m : LaneMask) : (g.exitLanes m).slots = g.slots := rfl
@[simp] theorem Gang.exitLanes_splitCnt (g : Gang) (m : LaneMask) : (g.exitLanes m).splitCnt = g.splitCnt := rfl
@[simp] theorem Gang.exitLanes_age (g : Gang) (m : LaneMask) : (g.exitLanes m).age = g.age := rfl
@[simp] theorem Gang.exitLanes_unitAge (g : Gang) (m : LaneMask) : (g.exitLanes m).unitAge = g.unitAge := rfl
@[simp] theorem Gang.exitLanes_prods (g : Gang) (m : LaneMask) : (g.exitLanes m).prods = g.prods := rfl
@[simp] theorem Gang.exitLanes_waits (g : Gang) (m : LaneMask) : (g.exitLanes m).waits = g.waits := rfl
@[simp] theorem Gang.exitLanes_nextId (g : Gang) (m : LaneMask) : (g.exitLanes m).nextId = g.nextId := rfl
@[simp] theorem Gang.exitLanes_cancel (g : Gang) (m : LaneMask) : (g.exitLanes m).cancel = g.cancel := rfl
@[simp] theorem Gang.exitLanes_parked (g : Gang) (m : LaneMask) : (g.exitLanes m).parked = g.parked := rfl
@[simp] theorem Gang.exitLanes_fresh (g : Gang) (m : LaneMask) : (g.exitLanes m).fresh = g.fresh := rfl
@[simp] theorem Gang.exitLanes_active (g : Gang) (m : LaneMask) : (g.exitLanes m).active = g.active := rfl
@[simp] theorem Gang.exitLanes_blocked (g : Gang) (m : LaneMask) : (g.exitLanes m).blocked = g.blocked := rfl
@[simp] theorem Gang.exitLanes_yielded (g : Gang) (m : LaneMask) : (g.exitLanes m).yielded = g.yielded := rfl
@[simp] theorem Gang.exitLanes_cmdIssued (g : Gang) (m : LaneMask) : (g.exitLanes m).cmdIssued = g.cmdIssued := rfl
@[simp] theorem Gang.exitLanes_cmdDone (g : Gang) (m : LaneMask) : (g.exitLanes m).cmdDone = g.cmdDone := rfl
@[simp] theorem Gang.exitLanes_cmdFault (g : Gang) (m : LaneMask) : (g.exitLanes m).cmdFault = g.cmdFault := rfl
@[simp] theorem Gang.exitLanes_qops (g : Gang) (m : LaneMask) : (g.exitLanes m).qops = g.qops := rfl
@[simp] theorem Gang.exitLanes_mops (g : Gang) (m : LaneMask) : (g.exitLanes m).mops = g.mops := rfl
@[simp] theorem Gang.exitLanes_rdvCnt (g : Gang) (m : LaneMask) : (g.exitLanes m).rdvCnt = g.rdvCnt := rfl

@[simp] theorem Gang.setPc_pcs (g : Gang) (m : LaneMask) (pc : PCAddr) :
    (g.setPc m pc).pcs = (lanesOf m).foldl (fun p l => p.put 0 l (pc &&& ~~~(15 : PCAddr))) g.pcs := rfl

end Sys2Proof.Machine
end

