-- ==== Sys2Proof/Laws/Lanes.lean ====
section
/-! SUPPORT. Lane masks, and the registers of a gang after writes in a set of lanes. -/

namespace Sys2Proof.Machine

/-! ### Masks -/

theorem maskSum (p : Nat → Bool) (n : Nat) :
    (List.range n).foldl (fun a l => if p l then a + 2 ^ l else a) 0 < 2 ^ n ∧
    ∀ i, ((List.range n).foldl (fun a l => if p l then a + 2 ^ l else a) 0).testBit i = (decide (i < n) && p i) := by
  induction n with
  | zero => simp
  | succ n ih =>
    rw [List.range_succ, List.foldl_append]
    simp only [List.foldl_cons, List.foldl_nil]
    generalize (List.range n).foldl (fun a l => if p l then a + 2 ^ l else a) 0 = x at ih
    obtain ⟨hlt, hb⟩ := ih
    by_cases h : p n
    · simp only [h, if_true]
      refine ⟨by rw [Nat.pow_succ]; omega, fun i => ?_⟩
      rw [Nat.add_comm]
      by_cases h1 : i = n
      · subst h1; rw [Nat.testBit_two_pow_add_eq, hb]; simp [h]
      · by_cases h2 : i < n
        · rw [Nat.testBit_two_pow_add_gt h2, hb]; simp [h2, Nat.lt_succ_of_lt h2]
        · have h3 : n < i := by omega
          have : (2 ^ n + x) < 2 ^ i := by
            have : 2 ^ (n + 1) ≤ 2 ^ i := Nat.pow_le_pow_right (by omega) (by omega)
            rw [Nat.pow_succ] at this; omega
          rw [Nat.testBit_lt_two_pow this]
          have : ¬ i < n + 1 := by omega
          simp [this]
    · simp only [h]
      refine ⟨by rw [Nat.pow_succ]; simp; omega, fun i => ?_⟩
      simp only [if_neg (by simp : ¬ (false = true)), hb]
      by_cases h1 : i = n
      · subst h1; simp [h]
      · by_cases h2 : i < n
        · simp [h2, Nat.lt_succ_of_lt h2]
        · have : ¬ i < n + 1 := by omega
          simp [h2, this]

/-- A lane of a mask of lanes that meet a condition. -/
@[simp] theorem getLsbD_maskWhere (p : Nat → Bool) (l : Nat) : (maskWhere p).getLsbD l = (decide (l < 32) && p l) := by
  unfold maskWhere
  rw [BitVec.getLsbD_ofNat, (maskSum p 32).2]
  by_cases h : l < 32 <;> simp [h]

@[simp] theorem mem_lanesOf {m : LaneMask} {l : Nat} : l ∈ lanesOf m ↔ m.getLsbD l = true := by
  simp only [lanesOf, List.mem_filter, List.mem_range]
  exact ⟨fun h => h.2, fun h => ⟨BitVec.lt_of_getLsbD h, h⟩⟩

theorem lanesOf_nodup (m : LaneMask) : (lanesOf m).Nodup := List.Nodup.filter _ List.nodup_range

theorem lanesOf_zero : lanesOf 0 = [] := by decide

theorem lt_of_lane {m : LaneMask} {l : Nat} (h : m.getLsbD l = true) : l < 32 := BitVec.lt_of_getLsbD h

theorem mask_ne_zero {m : LaneMask} {l : Nat} (h : m.getLsbD l = true) : m ≠ 0 := by
  intro h0; rw [h0] at h; simp at h

theorem lane_of_ne_zero {m : LaneMask} (h : m ≠ 0) : ∃ l, m.getLsbD l = true := by
  by_contra hc
  simp only [not_exists] at hc
  exact h (BitVec.eq_of_getLsbD_eq fun i _ => by simpa using hc i)

/-- The lanes of a one-lane mask. -/
theorem lanesOf_one {l : Nat} (h : l < 32) : lanesOf (BitVec.ofNat 32 (2 ^ l)) = [l] := by
  interval_cases l <;> decide

/-- Active lanes are live. -/
theorem live_of_group {g : Gang} {u : Nat} {pc : PCAddr} {all : Bool} {l : Nat}
    (h : (g.groupAt u pc all).getLsbD l = true) : g.laneStatus l = 1 := by
  unfold Gang.groupAt Gang.eligible at h
  rw [BitVec.getLsbD_and, Bool.and_eq_true] at h
  have h1 := h.1
  have : (g.liveMask).getLsbD l = true := by
    by_cases hw : (g.waits.any fun w => w.kind = .ticket) = true
    · rw [if_pos hw] at h1; simp at h1
    · rw [if_neg hw] at h1
      by_cases hh : g.handler
      · rw [if_pos hh] at h1
        simp only [BitVec.getLsbD_and, Bool.and_eq_true] at h1
        exact h1.1.1
      · rw [if_neg hh] at h1
        simp only [BitVec.getLsbD_and, Bool.and_eq_true] at h1
        exact h1.1
  simp [Gang.liveMask, Gang.isLive] at this
  exact this.2

/-- A group of one unit is part of the gang's group. -/
theorem group_ne_zero {g : Gang} {u : Nat} {pc : PCAddr} (h : g.groupAt u pc false ≠ 0) : g.groupAt u pc true ≠ 0 := by
  obtain ⟨l, hl⟩ := lane_of_ne_zero h
  apply mask_ne_zero (l := l)
  simp only [Gang.groupAt, BitVec.getLsbD_and, getLsbD_maskWhere, Bool.and_eq_true] at hl ⊢
  refine ⟨hl.1, hl.2.1, ?_⟩
  have := hl.2.2
  simp only [Bool.false_or, decide_eq_true_eq] at this ⊢
  simp_all

/-! ### One v-register -/

/-- A gang whose registers are all full and clean stays so under writes: only the register file changes. -/
structure Clear (g : Gang) : Prop where
  empty : g.empty = []
  poison : g.poison = []

/-- A gang with another register file. -/
def Gang.withVr (g : Gang) (m : SMap W32) : Gang := { g with vr := m }
@[simp] theorem Gang.withVr_vr (g : Gang) (m : SMap W32) : (g.withVr m).vr = m := rfl
@[simp] theorem Gang.withVr_status (g : Gang) (m : SMap W32) : (g.withVr m).status = g.status := rfl
@[simp] theorem Gang.withVr_laneStatus (g : Gang) (m : SMap W32) (l : Nat) : (g.withVr m).laneStatus l = g.laneStatus l := rfl
@[simp] theorem Gang.withVr_withVr (g : Gang) (m k : SMap W32) : (g.withVr m).withVr k = g.withVr k := rfl
theorem Clear.withVr {g : Gang} (h : Clear g) (m : SMap W32) : Clear (g.withVr m) := ⟨h.empty, h.poison⟩

theorem setV_eq {g : Gang} (h : Clear g) (l r : Nat) (x : W32) : g.setV l r x = g.withVr (g.vr.put 0 (vkey l r) x) := by
  simp [Gang.setV, Gang.withVr, h.empty, h.poison, KSet.del]

theorem vkey_inj {l r l' r' : Nat} (hr : r < 256) (hr' : r' < 256) : vkey l r = vkey l' r' ↔ l = l' ∧ r = r' := by
  unfold vkey; omega

theorem v_putV (g : Gang) {l r l' r' : Nat} (x : W32) (hr : r < 256) (hr' : r' < 256) :
    (g.withVr (g.vr.put 0 (vkey l r) x)).v l' r'
      = if l' = l ∧ r' = r then (if g.laneStatus l = 0 then 0 else x) else g.v l' r' := by
  simp only [Gang.v, Gang.withVr_laneStatus, Gang.withVr_vr, SMap.getD_put, vkey_inj hr' hr]
  by_cases h : l' = l ∧ r' = r
  · simp [h.1, h.2]
  · simp [h]

/-! ### A register or pair in a set of lanes -/

/-- A register or pair of a lane, in the register file. -/
def putW (dw d : Nat) (m : SMap W32) (l x : Nat) : SMap W32 :=
  if dw = 64 then
    (m.put 0 (vkey l d) ((BitVec.ofNat 64 x).extractLsb' 0 32)).put 0 (vkey l (d + 1)) ((BitVec.ofNat 64 x).extractLsb' 32 32)
  else m.put 0 (vkey l d) (BitVec.ofNat 32 x)

theorem setVw_eq {g : Gang} (h : Clear g) (dw l d x : Nat) : g.setVw dw l d x = g.withVr (putW dw d g.vr l x) := by
  unfold Gang.setVw putW
  split
  · unfold Gang.setV64
    rw [setV_eq h, setV_eq (h.withVr _), Gang.withVr_withVr, Gang.withVr_vr]
  · rw [setV_eq h]

theorem foldl_setVw {g : Gang} (h : Clear g) (dw d : Nat) (val : Nat → Nat) (ls : List Nat) :
    ls.foldl (fun g l => g.setVw dw l d (val l)) g = g.withVr (ls.foldl (fun m l => putW dw d m l (val l)) g.vr) := by
  induction ls generalizing g with
  | nil => rfl
  | cons l ls ih => rw [List.foldl_cons, setVw_eq h, ih (h.withVr _), List.foldl_cons, Gang.withVr_withVr, Gang.withVr_vr]

/-- What register r of a lane holds of a value written at d. -/
def partOf (dw d x r : Nat) : W32 :=
  if dw = 64 then (if r = d then (BitVec.ofNat 64 x).extractLsb' 0 32 else (BitVec.ofNat 64 x).extractLsb' 32 32)
  else BitVec.ofNat 32 x

theorem getD_putW (dw d : Nat) (m : SMap W32) (l x l' r : Nat) (hd : d + regsOf dw ≤ 256) (hr : r < 256) :
    (putW dw d m l x).getD (vkey l' r) 0
      = if l' = l ∧ d ≤ r ∧ r < d + regsOf dw then partOf dw d x r else m.getD (vkey l' r) 0 := by
  unfold putW partOf
  by_cases h : dw = 64
  · simp only [regsOf, h, if_true] at hd ⊢
    rw [SMap.getD_put, SMap.getD_put]
    simp only [vkey_inj hr (by omega : d + 1 < 256), vkey_inj hr (by omega : d < 256)]
    by_cases h1 : l' = l
    · subst h1
      by_cases h2 : r = d
      · subst h2; simp
      · by_cases h3 : r = d + 1
        · subst h3; simp
        · have : ¬ (d ≤ r ∧ r < d + 2) := by omega
          simp [h2, h3, this]
    · simp [h1]
  · simp only [regsOf, h, if_false] at hd ⊢
    rw [SMap.getD_put]
    simp only [vkey_inj hr (by omega : d < 256)]
    have : (d ≤ r ∧ r < d + 1) ↔ r = d := by omega
    simp only [this]

theorem getD_foldl_putW (dw d : Nat) (val : Nat → Nat) (l r : Nat) (hd : d + regsOf dw ≤ 256) (hr : r < 256) :
    ∀ (ls : List Nat) (m : SMap W32), (ls.foldl (fun m l => putW dw d m l (val l)) m).getD (vkey l r) 0
      = if l ∈ ls ∧ d ≤ r ∧ r < d + regsOf dw then partOf dw d (val l) r else m.getD (vkey l r) 0 := by
  intro ls
  induction ls with
  | nil => intro m; simp
  | cons k ls ih =>
    intro m
    rw [List.foldl_cons, ih, getD_putW _ _ _ _ _ _ _ hd hr]
    by_cases h : l ∈ ls
    · simp only [List.mem_cons, h, or_true, true_and]
      by_cases h2 : d ≤ r ∧ r < d + regsOf dw <;> simp [h2]
    · by_cases h1 : l = k
      · subst h1; simp [h]
      · simp [h, h1]

theorem halves (x : W64) : x.extractLsb' 32 32 ++ x.extractLsb' 0 32 = x := by
  apply BitVec.eq_of_getLsbD_eq
  intro i hi
  rw [BitVec.getLsbD_append]
  by_cases h : i < 32
  · simp [h]
  · simp only [h, if_false]
    rw [BitVec.getLsbD_extractLsb']
    simp [show i - 32 < 32 by omega, show 32 + (i - 32) = i by omega]

end Sys2Proof.Machine
end

