-- ==== Sys2Proof/Laws/Issue.lean ====
section
/-! SUPPORT. What the issue of a core word does: the checks pass for a group that nothing delays, the group moves on, and
the word's effect follows. The lemmas of each kind of result are here once. -/

namespace Sys2Proof.Machine

theorem finish_next {s : State} (h : s.absentAcc = none) : finish s = .next s := by simp [finish, h]

/-- The context of a group that nothing delays. -/
def ctxC (cu : Cur) (g : Gang) (w : Wg) (u : WordUse) : Ctx :=
  { gid := cu.gang, r := g, pc := cu.pc, grp := grpOf g cu u.collective,
    act := grpOf g cu u.collective &&& maskWhere (u.active g), wg := w, pfx := none, slot := g.slotOf cu.unit }

theorem Calm.clear {s : State} {cu : Cur} {g : Gang} {w : Wg} (h : Calm s cu g w) : Clear g := ⟨h.empty, h.poison⟩

theorem Calm.ctxOf {s : State} {cu : Cur} {g : Gang} {w : Wg} (h : Calm s cu g w) (u : WordUse) :
    s.ctxOf u = some (ctxC cu g w u) := by
  have hg : g.groupAt cu.unit cu.pc u.collective ≠ 0 := by
    cases u.collective
    · exact h.group
    · exact group_ne_zero h.group
  have hi : g.issuing cu u.collective = g.groupAt cu.unit cu.pc u.collective := by simp [Gang.issuing, h.snap]
  simp only [State.ctxOf, h.cur, h.gang, h.wg, hi]
  rw [if_neg hg]
  simp [ctxC, grpOf, h.ord, h.snap]

/-- What a word's use must meet so that the common checks pass (03 R72): nothing of it is wrong whatever the gang, and its
registers are in range and aligned. -/
structure Fits (u : WordUse) : Prop where
  absent : u.absent = false := by rfl
  decl : u.decl = none := by rfl
  sync : u.syncBad = false := by rfl
  priv : u.priv = none := by rfl
  early : u.early = .ok := by rfl
  first : u.first = .ok := by rfl
  srcs : ∀ v ∈ u.srcs, v.reg + v.count ≤ 256
  dsts : ∀ d ∈ u.dsts, d.1 + d.2 ≤ 256
  evens : ∀ r ∈ u.evens, r % 2 = 0
  quads : ∀ r ∈ u.quads, r % 4 = 0
  aligned : ∀ r ∈ u.aligned, r.1 % r.2 = 0

theorem wordChecks_ok {i : Instr} {u : WordUse} {pc : PCAddr} (hs : i.staticCheck = none) (hu : Fits u) :
    wordChecks i u none false pc = .ok := by
  simp [wordChecks, hs, hu.absent, hu.decl, hu.sync, hu.priv]

theorem laneChecks_ok {c : Ctx} {g : Gang} {u : WordUse} (hu : Fits u) (hc : c.r = g) (he : g.empty = []) (hp : g.poison = [])
    (hr : g.base + g.xcount = 256) (hd : g.prods = []) : laneChecks c g u = .ok := by
  unfold laneChecks
  split
  · rfl
  · have h1 : outOfRange g u = false := by
      simp only [outOfRange, hr, Bool.or_eq_false_iff, List.any_eq_false, decide_eq_true_eq]
      exact ⟨fun v hv => by have := hu.srcs v hv; omega, fun v hv => by have := hu.dsts v hv; omega⟩
    have h2 : (u.evens.any fun r => decide (r % 2 = 1)) = false := by
      simp only [List.any_eq_false, decide_eq_true_eq]; intro r hr; have := hu.evens r hr; omega
    have h3 : (u.quads.any fun r => r % 4 != 0) = false := by
      simp only [List.any_eq_false, bne_iff_ne, ne_eq, Decidable.not_not]; intro r hr; exact hu.quads r hr
    have h4 : (u.aligned.any fun r => r.1 % r.2 != 0) = false := by
      simp only [List.any_eq_false, bne_iff_ne, ne_eq, Decidable.not_not]; intro r hr; exact hu.aligned r hr
    have h5 : ∀ l, Ctx.emptyIn c g l = [] := by intro l; simp [Ctx.emptyIn, he]
    have h6 : c.mustWait g u = false := by simp [Ctx.mustWait, hc, h5, he, hd]
    have h7 : c.poisoned g u = [] := by simp [Ctx.poisoned, hp]
    simp [hu.early, Check.next, hc, h1, h2, h3, h4, h5, h6, h7]

/-- The state in which the word's own effect begins: the issue is charged and the group has passed the word. -/
def issued (s : State) (c : Ctx) (u : WordUse) : State := (s.chargeIssue c.gid).passWord c u

/-- A word of a group that nothing delays has its effect. -/
theorem coreWord_calm {s : State} {cu : Cur} {g : Gang} {w : Wg} {i : Instr} {u : WordUse} {chk : Ctx → State → Check}
    {body : Ctx → State → State} (h : Calm s cu g w) (hs : i.staticCheck = none) (hu : Fits u)
    (hc : chk (ctxC cu g w u) s = .ok) :
    coreWord i u chk body s = finish (body (ctxC cu g w u) (issued s (ctxC cu g w u) u)) := by
  unfold coreWord
  rw [h.ctxOf u]
  have e1 : ((s.cur.map (·.ext)).getD none) = none := by simp [h.cur, h.ext]
  have e2 : (ctxC cu g w u).pfx.isSome = false := rfl
  have e3 : s.gangs.find? (ctxC cu g w u).gid = some g := h.gang
  have e4 : laneChecks (ctxC cu g w u) g u = .ok := laneChecks_ok hu rfl h.empty h.poison h.regs h.prods
  simp only [e1, e2, hu.first, wordChecks_ok hs hu, e3, e4, Check.next, hc]
  rfl

/-! ### The issued state -/

/-- A gang whose issue is charged. -/
def Gang.charged (g : Gang) (cycle : Nat) : Gang :=
  if g.lastIssue = cycle + 1 then g else { g with lastIssue := cycle + 1, issuecnt := g.issuecnt + 1 }
/-- A gang whose group has passed a word. -/
def Gang.passed (g : Gang) (c : Ctx) (u : WordUse) : Gang :=
  { (g.issued c.grp c.pc u.collective).setPc c.grp (c.pc + BitVec.ofNat 57 (16 * u.words)) with
    ord := if u.carrier then none else g.ord }

theorem passWord_eq (s : State) (c : Ctx) (u : WordUse) : s.passWord c u = s.updGang c.gid fun g => g.passed c u := rfl

theorem OnlyGang.refl (s : State) (gid : Nat) : OnlyGang s s gid := ⟨rfl, fun _ _ => rfl, fun _ => rfl, fun _ => rfl⟩

theorem OnlyGang.updGang {s t : State} {gid : Nat} (h : OnlyGang s t gid) (f : Gang → Gang) :
    OnlyGang s (t.updGang gid f) gid := by
  obtain ⟨h1, h2, h3, h4⟩ := h
  refine ⟨?_, fun j hj => ?_, h3, h4⟩
  · conv_lhs => rw [h1]
    rfl
  · simp only [State.updGang, SMap.find?_upd, if_neg hj]; exact h2 j hj

theorem State.setCpart_cpart (s : State) (pid j : Nat) (p : CorePart) :
    (s.setCpart pid p).cpart j = if j = pid then p else s.cpart j := by
  unfold State.cpart State.setCpart SMap.getD
  simp only [SMap.find?_set]
  split <;> rfl

theorem OnlyGang.charge {s : State} {gid : Nat} : OnlyGang s (s.chargeIssue gid) gid := by
  unfold State.chargeIssue
  cases hg : s.gangs.find? gid with
  | none => exact OnlyGang.refl s gid
  | some g =>
    simp only
    split
    · exact OnlyGang.refl s gid
    · have key : ∀ t : State, t = (s.updGang gid fun g => { g with lastIssue := s.cycle + 1, issuecnt := g.issuecnt + 1 }).updWg
          g.wg (fun w => { w with slice := w.slice + 1 }) → OnlyGang s t gid := by
        rintro t rfl
        refine ⟨rfl, fun j hj => ?_, fun j => ?_, fun j => rfl⟩
        · simp [State.updWg, State.updGang, SMap.find?_upd, hj]
        · simp only [State.updWg, State.updGang, SMap.find?_upd]
          by_cases hj : j = g.wg
          · subst hj; simp [Option.map_map, Function.comp_def]
          · simp [hj]
      split
      · exact key _ rfl
      · obtain ⟨k1, k2, k3, k4⟩ := key _ rfl
        refine ⟨rfl, k2, k3, fun j => ?_⟩
        rw [State.setCpart_cpart]
        split
        · next hj => subst hj; exact k4 _
        · exact k4 j

theorem OnlyGang.issued (s : State) (c : Ctx) (u : WordUse) : OnlyGang s (issued s c u) c.gid :=
  OnlyGang.charge.updGang _

theorem chargeIssue_gang {s : State} {gid : Nat} {g : Gang} (h : s.gangs.find? gid = some g) :
    (s.chargeIssue gid).gangs.find? gid = some (g.charged s.cycle) := by
  unfold State.chargeIssue Gang.charged
  simp only [h]
  split
  · exact h
  · split <;> simp [State.updWg, State.updGang, State.setCpart, h]

theorem issued_gang {s : State} {c : Ctx} {u : WordUse} {g : Gang} (h : s.gangs.find? c.gid = some g) :
    (issued s c u).gangs.find? c.gid = some ((g.charged s.cycle).passed c u) := by
  unfold issued
  rw [passWord_eq]
  simp [State.updGang, chargeIssue_gang h]

theorem OnlyGang.absentAcc {s t : State} {gid : Nat} (h : OnlyGang s t gid) : t.absentAcc = s.absentAcc := by
  rw [h.1]

/-! ### The gang that has passed a word -/

theorem mergeUnits_same (g : Gang) (us : List Nat) :
    g.mergeUnits us = { g with unitOf := (g.mergeUnits us).unitOf, slots := (g.mergeUnits us).slots } := by
  unfold Gang.mergeUnits; split <;> rfl

theorem charged_same (g : Gang) (n : Nat) :
    g.charged n = { g with issuecnt := (g.charged n).issuecnt, lastIssue := (g.charged n).lastIssue } := by
  unfold Gang.charged; split <;> rfl

/-- Passing a word moves PCs, ages, split counts, issue counts and units, and nothing else. -/
theorem passed_keep {g : Gang} {c : Ctx} {u : WordUse} (n : Nat) (ho : g.ord = none) :
    ∃ p a sc ic li uo sl, (g.charged n).passed c u
      = { g with pcs := p, age := a, splitCnt := sc, issuecnt := ic, lastIssue := li, unitOf := uo, slots := sl }
      ∧ (u.collective = false → uo = g.unitOf ∧ sl = g.slots) := by
  have hc := charged_same g n
  have ho' : (g.charged n).ord = none := by rw [hc]; exact ho
  refine ⟨((g.charged n).passed c u).pcs, ((g.charged n).passed c u).age, ((g.charged n).passed c u).splitCnt,
    ((g.charged n).passed c u).issuecnt, ((g.charged n).passed c u).lastIssue, ((g.charged n).passed c u).unitOf,
    ((g.charged n).passed c u).slots, ?_⟩
  unfold Gang.passed Gang.issued
  cases hcol : u.collective
  · simp only [Bool.false_eq_true, if_false, ho', ite_self]
    refine ⟨?_, fun _ => ?_⟩
    · rw [hc, ← ho]; rfl
    · rw [hc]; exact ⟨rfl, rfl⟩
  · simp only [if_true, ho', ite_self]
    refine ⟨?_, fun h => by simp at h⟩
    rw [mergeUnits_same, hc, ← ho]; rfl

theorem passed_same {g : Gang} {c : Ctx} {u : WordUse} (n : Nat) (ho : g.ord = none) :
    SameGang g ((g.charged n).passed c u) u.collective := by
  obtain ⟨p, a, sc, ic, li, uo, sl, h1, h2⟩ := passed_keep (c := c) (u := u) n ho
  rw [h1]
  exact ⟨rfl, h2⟩

theorem pcs_foldl (pc : PCAddr) (l : Nat) : ∀ (ls : List Nat) (m : SMap PCAddr),
    (ls.foldl (fun p l => p.put 0 l pc) m).getD l 0 = if l ∈ ls then pc else m.getD l 0 := by
  intro ls
  induction ls with
  | nil => intro m; simp
  | cons k ls ih =>
    intro m
    rw [List.foldl_cons, ih, SMap.getD_put]
    by_cases h : l ∈ ls
    · simp [h]
    · simp [h]

theorem setPc_pcOf (g : Gang) (m : LaneMask) (pc : PCAddr) (l : Nat) :
    (g.setPc m pc).pcOf l = if m.getLsbD l then pc &&& ~~~(15 : PCAddr) else g.pcOf l := by
  simp only [Gang.setPc, Gang.pcOf, pcs_foldl, mem_lanesOf]

theorem passed_pcOf (g : Gang) (c : Ctx) (u : WordUse) (l : Nat) :
    (g.passed c u).pcOf l
      = if c.grp.getLsbD l then (c.pc + BitVec.ofNat 57 (16 * u.words)) &&& ~~~(15 : PCAddr) else g.pcOf l := by
  have h : (g.passed c u).pcOf l = ((g.issued c.grp c.pc u.collective).setPc
      c.grp (c.pc + BitVec.ofNat 57 (16 * u.words))).pcOf l := rfl
  rw [h, setPc_pcOf]
  unfold Gang.issued
  cases u.collective
  · rfl
  · simp only [if_true]; rw [mergeUnits_same]; rfl

theorem charged_pcOf (g : Gang) (n l : Nat) : (g.charged n).pcOf l = g.pcOf l := by rw [charged_same]; rfl

theorem PcsMoved.passed {cu : Cur} {g : Gang} {w : Wg} {u : WordUse} (n k : Nat) (hk : u.words = k) :
    PcsMoved g ((g.charged n).passed (ctxC cu g w u) u) (grpOf g cu u.collective) (cu.after k) := by
  intro l _
  rw [passed_pcOf, charged_pcOf, hk]
  rfl

/-- A word whose effect leaves everything as it is but the register files of its gang. -/
theorem Ran.of {s t : State} {cu : Cur} {g h : Gang} {w : Wg} {u : WordUse} {k : Nat} (hc : Calm s cu g w)
    (hk : u.words = k) (ht : OnlyGang s t cu.gang) (hg : t.gangs.find? cu.gang = some h)
    (hh : h = { (g.charged s.cycle).passed (ctxC cu g w u) u with vr := h.vr, pr := h.pr, sr := h.sr, fpstat := h.fpstat }) :
    Ran s t cu g h u.collective k := by
  obtain ⟨h1, h2⟩ := passed_same (c := ctxC cu g w u) (u := u) s.cycle hc.ord
  refine ⟨hg, ht, ⟨?_, fun ha => ?_⟩, fun l hl => ?_⟩
  · conv_lhs => rw [hh, h1]
    rw [hh]
  · rw [hh]; exact h2 ha
  · rw [hh]; exact PcsMoved.passed (cu := cu) (g := g) (w := w) (u := u) s.cycle k hk l hl

/-- Words with an effect on the gang alone. -/
theorem onGang_calm {s : State} {cu : Cur} {g : Gang} {w : Wg} {i : Instr} {u : WordUse} {chk : Ctx → State → Check}
    {F : Ctx → Gang → Gang} (h : Calm s cu g w) (hs : i.staticCheck = none) (hu : Fits u)
    (hc : chk (ctxC cu g w u) s = .ok) :
    ∃ t, coreWord i u chk (onGang F) s = .next t ∧ OnlyGang s t cu.gang ∧
      t.gangs.find? cu.gang = some
        (if (ctxC cu g w u).act = 0 then (g.charged s.cycle).passed (ctxC cu g w u) u
         else F (ctxC cu g w u) ((g.charged s.cycle).passed (ctxC cu g w u) u)) := by
  rw [coreWord_calm h hs hu hc]
  have ho := OnlyGang.issued s (ctxC cu g w u) u
  have hg := issued_gang (s := s) (c := ctxC cu g w u) (u := u) h.gang
  unfold onGang
  split
  · exact ⟨_, finish_next (by rw [ho.absentAcc]; exact h.mem), ho, hg⟩
  · refine ⟨_, finish_next (by rw [(ho.updGang _).absentAcc]; exact h.mem), ho.updGang _, ?_⟩
    have hg' : (issued s (ctxC cu g w u) u).gangs.find? cu.gang = _ := hg
    show ((issued s (ctxC cu g w u) u).gangs.upd cu.gang _).find? cu.gang = _
    rw [SMap.find?_upd_self, hg']; rfl

theorem passed_clear {g : Gang} {c : Ctx} {u : WordUse} (n : Nat) (h : Clear g) : Clear ((g.charged n).passed c u) := by
  constructor <;> (unfold Gang.passed Gang.issued; cases u.collective) <;> simp only [Bool.false_eq_true, if_false, if_true]
  all_goals first | (rw [mergeUnits_same, charged_same]) | rw [charged_same]
  all_goals first | exact h.empty | exact h.poison

theorem passed_vr (g : Gang) (c : Ctx) (u : WordUse) (n : Nat) : ((g.charged n).passed c u).vr = g.vr := by
  unfold Gang.passed Gang.issued; cases u.collective <;> simp only [Bool.false_eq_true, if_false, if_true] <;>
    first | (rw [mergeUnits_same, charged_same]; rfl) | (rw [charged_same]; rfl)
theorem passed_pr (g : Gang) (c : Ctx) (u : WordUse) (n : Nat) : ((g.charged n).passed c u).pr = g.pr := by
  unfold Gang.passed Gang.issued; cases u.collective <;> simp only [Bool.false_eq_true, if_false, if_true] <;>
    first | (rw [mergeUnits_same, charged_same]; rfl) | (rw [charged_same]; rfl)
theorem passed_sr (g : Gang) (c : Ctx) (u : WordUse) (n : Nat) : ((g.charged n).passed c u).sr = g.sr := by
  unfold Gang.passed Gang.issued; cases u.collective <;> simp only [Bool.false_eq_true, if_false, if_true] <;>
    first | (rw [mergeUnits_same, charged_same]; rfl) | (rw [charged_same]; rfl)
theorem passed_fpstat (g : Gang) (c : Ctx) (u : WordUse) (n : Nat) : ((g.charged n).passed c u).fpstat = g.fpstat := by
  unfold Gang.passed Gang.issued; cases u.collective <;> simp only [Bool.false_eq_true, if_false, if_true] <;>
    first | (rw [mergeUnits_same, charged_same]; rfl) | (rw [charged_same]; rfl)
theorem passed_status (g : Gang) (c : Ctx) (u : WordUse) (n : Nat) : ((g.charged n).passed c u).status = g.status := by
  unfold Gang.passed Gang.issued; cases u.collective <;> simp only [Bool.false_eq_true, if_false, if_true] <;>
    first | (rw [mergeUnits_same, charged_same]; rfl) | (rw [charged_same]; rfl)

/-! ### Kinds of results -/

theorem WroteV.of {g h : Gang} {act : LaneMask} {dw d : Nat} {val : Nat → Nat} (hs : h.status = g.status)
    (hv : h.vr = (lanesOf act).foldl (fun m l => putW dw d m l (val l)) g.vr)
    (live : ∀ l, act.getLsbD l = true → g.laneStatus l ≠ 0) (hd : d + regsOf dw ≤ 256)
    (hval : ∀ l, act.getLsbD l = true → val l < 2 ^ (if dw = 64 then 64 else 32)) : WroteV g h act dw d val := by
  have key : ∀ l r, r < 256 → h.v l r = if g.laneStatus l = 0 then 0
      else if act.getLsbD l = true ∧ d ≤ r ∧ r < d + regsOf dw then partOf dw d (val l) r else g.vr.getD (vkey l r) 0 := by
    intro l r hr
    simp only [Gang.v, Gang.laneStatus, hs, hv, getD_foldl_putW dw d val l r hd hr, mem_lanesOf]
    congr
  refine ⟨fun l hl => ?_, fun l r _ hr hn => ?_⟩
  · have hlive := live l hl
    unfold Gang.vw Gang.v64
    have hb := hval l hl
    by_cases h64 : dw = 64
    · simp only [h64, if_true, regsOf] at hd hb key ⊢
      rw [key _ _ (by omega), key _ _ (by omega)]
      simp only [hlive, if_false, hl, partOf, if_true]
      simp only [show d ≤ d + 1 by omega, show d + 1 < d + 2 by omega, show d ≤ d by omega, show d < d + 2 by omega,
        and_self, if_true, show ¬ (d + 1 = d) by omega, if_false]
      rw [halves]; simp only [BitVec.toNat_ofNat]; exact Nat.mod_eq_of_lt hb
    · simp only [h64, if_false, regsOf] at hd hb key ⊢
      rw [key _ _ (by omega)]
      simp [hlive, hl, partOf, h64]; exact hb
  · rw [key l r hr]; simp only [hn, if_false]; rfl

theorem raise_zero (g : Gang) : g.raise 0 = g := by
  have : g.fpstat ||| (0 : Flg).setWidth 64 = g.fpstat := by simp
  unfold Gang.raise; rw [this]

theorem setF_foldl {g : Gang} (h : Clear g) (dw d : Nat) (val : Nat → Nat) (fl : Nat → Flg) (ls : List Nat) :
    ls.foldl (fun g l => (g.setVw dw l d (val l)).raise (fl l)) g
      = { g with vr := ls.foldl (fun m l => putW dw d m l (val l)) g.vr
                 fpstat := ls.foldl (fun x l => x ||| (fl l).setWidth 64) g.fpstat } := by
  induction ls generalizing g with
  | nil => rfl
  | cons l ls ih =>
    have h' : Clear ((g.withVr (putW dw d g.vr l (val l))).raise (fl l)) := ⟨h.empty, h.poison⟩
    rw [List.foldl_cons, setVw_eq h, ih h']
    rfl

theorem flags_foldl (fl : Nat → Flg) (i : Nat) (hi : i < 64) : ∀ (ls : List Nat) (x : W64),
    (ls.foldl (fun x l => x ||| (fl l).setWidth 64) x).getLsbD i = (x.getLsbD i || ls.any fun l => (fl l).getLsbD i) := by
  intro ls
  induction ls with
  | nil => intro x; simp
  | cons l ls ih =>
    intro x
    rw [List.foldl_cons, ih, BitVec.getLsbD_or, BitVec.getLsbD_setWidth, List.any_cons, Bool.or_assoc]
    simp [hi]

theorem RaisedF.of {g h : Gang} {act : LaneMask} {fl : Nat → Flg}
    (hf : h.fpstat = (lanesOf act).foldl (fun x l => x ||| (fl l).setWidth 64) g.fpstat) : RaisedF g h act fl := by
  intro i
  rw [hf]
  by_cases hi : i < 64
  · exact flags_foldl fl i hi _ _
  · rw [BitVec.getLsbD_of_ge _ _ (by omega), BitVec.getLsbD_of_ge _ _ (by omega)]
    symm
    simp only [Bool.false_or, List.any_eq_false]
    intro l _
    rw [BitVec.getLsbD_of_ge _ _ (by omega)]
    simp

/-- The active lanes of a word. -/
theorem act_live {cu : Cur} {g : Gang} {w : Wg} {u : WordUse} (l : Nat)
    (h : (ctxC cu g w u).act.getLsbD l = true) : g.laneStatus l ≠ 0 := by
  have h1 : ((grpOf g cu u.collective) &&& maskWhere (u.active g)).getLsbD l = true := h
  rw [BitVec.getLsbD_and, Bool.and_eq_true] at h1
  rw [live_of_group h1.1]
  decide

/-- A word that writes one register or pair of each active lane, and raises flags. -/
theorem vecFlags_calm {s : State} {cu : Cur} {g : Gang} {w : Wg} {i : Instr} {u : WordUse} {chk : Ctx → State → Check}
    {dw d k : Nat} {val : Ctx → Nat → Nat} {fl : Ctx → Nat → Flg} (h : Calm s cu g w) (hs : i.staticCheck = none)
    (hu : Fits u) (hk : u.words = k) (hd : d + regsOf dw ≤ 256) (hc : chk (ctxC cu g w u) s = .ok)
    (hv : ∀ l, val (ctxC cu g w u) l < 2 ^ (if dw = 64 then 64 else 32)) :
    ∃ t h', coreWord i u chk (eachLane fun c g l => (g.setVw dw l d (val c l)).raise (fl c l)) s = .next t ∧
      Ran s t cu g h' u.collective k ∧ WroteV g h' (ctxC cu g w u).act dw d (val (ctxC cu g w u)) ∧
      RaisedF g h' (ctxC cu g w u).act (fl (ctxC cu g w u)) ∧ KeptP g h' ∧ KeptS g h' := by
  obtain ⟨t, ht, ho, hg⟩ := onGang_calm (F := fun c g => (lanesOf c.act).foldl
    (fun g l => (g.setVw dw l d (val c l)).raise (fl c l)) g) h hs hu hc
  have hcl := passed_clear (c := ctxC cu g w u) (u := u) s.cycle h.clear
  rw [setF_foldl hcl] at hg
  have hz : (if (ctxC cu g w u).act = 0 then (g.charged s.cycle).passed (ctxC cu g w u) u else
      { (g.charged s.cycle).passed (ctxC cu g w u) u with
        vr := (lanesOf (ctxC cu g w u).act).foldl (fun m l => putW dw d m l (val (ctxC cu g w u) l))
          ((g.charged s.cycle).passed (ctxC cu g w u) u).vr
        fpstat := (lanesOf (ctxC cu g w u).act).foldl (fun x l => x ||| (fl (ctxC cu g w u) l).setWidth 64)
          ((g.charged s.cycle).passed (ctxC cu g w u) u).fpstat })
      = { (g.charged s.cycle).passed (ctxC cu g w u) u with
        vr := (lanesOf (ctxC cu g w u).act).foldl (fun m l => putW dw d m l (val (ctxC cu g w u) l))
          ((g.charged s.cycle).passed (ctxC cu g w u) u).vr
        fpstat := (lanesOf (ctxC cu g w u).act).foldl (fun x l => x ||| (fl (ctxC cu g w u) l).setWidth 64)
          ((g.charged s.cycle).passed (ctxC cu g w u) u).fpstat } := by
    split
    · next h0 => rw [h0, lanesOf_zero]; rfl
    · rfl
  rw [hz] at hg
  refine ⟨t, _, ht, Ran.of h hk ho hg rfl, WroteV.of ?_ ?_ (act_live) hd (fun l _ => hv l), RaisedF.of ?_, ?_, ?_⟩
  · exact passed_status ..
  · simp only [passed_vr]
  · simp only [passed_fpstat]
  · exact passed_pr ..
  · exact passed_sr ..

/-- A word that writes one register or pair of each active lane. -/
theorem vec_calm {s : State} {cu : Cur} {g : Gang} {w : Wg} {i : Instr} {u : WordUse} {chk : Ctx → State → Check}
    {dw d k : Nat} {val : Ctx → Nat → Nat} (h : Calm s cu g w) (hs : i.staticCheck = none)
    (hu : Fits u) (hk : u.words = k) (hd : d + regsOf dw ≤ 256) (hc : chk (ctxC cu g w u) s = .ok)
    (hv : ∀ l, val (ctxC cu g w u) l < 2 ^ (if dw = 64 then 64 else 32)) :
    ∃ t h', coreWord i u chk (eachLane fun c g l => g.setVw dw l d (val c l)) s = .next t ∧
      Ran s t cu g h' u.collective k ∧ WroteV g h' (ctxC cu g w u).act dw d (val (ctxC cu g w u)) ∧
      KeptF g h' ∧ KeptP g h' ∧ KeptS g h' := by
  have e : (fun (c : Ctx) (g : Gang) (l : Nat) => g.setVw dw l d (val c l))
      = fun c g l => (g.setVw dw l d (val c l)).raise 0 := by
    funext c g l; exact (raise_zero _).symm
  rw [e]
  obtain ⟨t, h', h1, h2, h3, h4, h5, h6⟩ := vecFlags_calm (fl := fun _ _ => 0) h hs hu hk hd hc hv
  refine ⟨t, h', h1, h2, h3, ?_, h5, h6⟩
  apply BitVec.eq_of_getLsbD_eq
  intro i _
  rw [h4 i]; simp

/-! ### Predicates -/

theorem p_setP (g : Gang) {l i l' i' : Nat} (b : Bool) (hl : l < 32) (hi : i < 8) (hl' : l' < 32) (hi' : i' < 8) :
    (g.setP l i b).p l' i' = if l' = l ∧ i' = i then (b || i == 0) else g.p l' i' := by
  unfold Gang.setP Gang.p
  by_cases h0 : i = 0
  · subst h0
    by_cases h1 : i' = 0
    · simp [h1]
    · simp [h1]
  · have hb : ∀ n, (BitVec.ofNat 256 (2 ^ (8 * l + i))).getLsbD n = decide (n = 8 * l + i) := by
      intro n
      rw [BitVec.getLsbD_ofNat, Nat.testBit_two_pow]
      by_cases hn : n = 8 * l + i
      · simp [hn]; omega
      · have : ¬ (8 * l + i = n) := fun h => hn h.symm
        simp [hn, this]
    generalize BitVec.ofNat 256 (2 ^ (8 * l + i)) = m at hb
    simp only [h0, if_false]
    have hlt : 8 * l' + i' < 256 := by omega
    by_cases h1 : i' = 0
    · have : ¬ (0 = i) := fun h => h0 h.symm
      simp [h1, this]
    · have e : (8 * l' + i' = 8 * l + i) ↔ (l' = l ∧ i' = i) := by omega
      by_cases h2 : l' = l ∧ i' = i
      · obtain ⟨rfl, rfl⟩ := h2
        cases b <;> simp [h0, hb]
      · have : ¬ (8 * l' + i' = 8 * l + i) := fun h => h2 (e.mp h)
        cases b
        · simp only [h2, if_false, BitVec.getLsbD_and, BitVec.getLsbD_not, hb, this, decide_false, Bool.not_false,
            hlt, decide_true, Bool.and_true, Bool.false_eq_true]
        · simp only [h2, if_false, BitVec.getLsbD_or, hb, this, decide_false, Bool.or_false, if_true]

/-- A gang with other predicates and flags. -/
def Gang.withPF (g : Gang) (p : BitVec 256) (f : W64) : Gang := { g with pr := p, fpstat := f }

theorem setP_eq (g : Gang) (l i : Nat) (b : Bool) (f : Flg) :
    (g.setP l i b).raise f = g.withPF (g.setP l i b).pr (g.fpstat ||| f.setWidth 64) := by
  unfold Gang.setP Gang.raise Gang.withPF
  split <;> rfl

theorem foldl_setP (i : Nat) (hi : i < 8) (val : Nat → Bool) (fl : Nat → Flg) : ∀ (ls : List Nat) (g : Gang),
    (∀ l ∈ ls, l < 32) →
    (ls.foldl (fun g l => (g.setP l i (val l)).raise (fl l)) g
      = g.withPF (ls.foldl (fun g l => (g.setP l i (val l)).raise (fl l)) g).pr
          (ls.foldl (fun x l => x ||| (fl l).setWidth 64) g.fpstat)) ∧
    ∀ l' i', l' < 32 → i' < 8 → (ls.foldl (fun g l => (g.setP l i (val l)).raise (fl l)) g).p l' i'
      = if l' ∈ ls ∧ i' = i then (val l' || i == 0) else g.p l' i' := by
  intro ls
  induction ls with
  | nil => intro g _; exact ⟨rfl, fun l' i' _ _ => by simp⟩
  | cons l ls ih =>
    intro g hls
    have hl := hls l (List.mem_cons_self ..)
    obtain ⟨i1, i2⟩ := ih ((g.setP l i (val l)).raise (fl l)) (fun x hx => hls x (List.mem_cons_of_mem _ hx))
    rw [List.foldl_cons]
    refine ⟨?_, fun l' i' hl' hi' => ?_⟩
    · conv_lhs => rw [i1]
      rw [setP_eq]; rfl
    · rw [i2 l' i' hl' hi']
      have : ((g.setP l i (val l)).raise (fl l)).p l' i' = (g.setP l i (val l)).p l' i' := rfl
      rw [this, p_setP g _ hl hi hl' hi']
      by_cases h1 : l' ∈ ls
      · by_cases h2 : i' = i
        · simp [h1, h2]
        · simp [h2]
      · by_cases h2 : l' = l
        · subst h2; simp [h1]
        · simp [h1, h2]

/-- A word that writes one predicate of each active lane, and raises flags. -/
theorem predFlags_calm {s : State} {cu : Cur} {g : Gang} {w : Wg} {i : Instr} {u : WordUse} {chk : Ctx → State → Check}
    {pd k : Nat} {val : Ctx → Nat → Bool} {fl : Ctx → Nat → Flg} (h : Calm s cu g w) (hs : i.staticCheck = none)
    (hu : Fits u) (hk : u.words = k) (hd : pd < 8) (hc : chk (ctxC cu g w u) s = .ok) :
    ∃ t h', coreWord i u chk (eachLane fun c g l => (g.setP l pd (val c l)).raise (fl c l)) s = .next t ∧
      Ran s t cu g h' u.collective k ∧ WroteP g h' (ctxC cu g w u).act pd (val (ctxC cu g w u)) ∧
      RaisedF g h' (ctxC cu g w u).act (fl (ctxC cu g w u)) ∧ KeptV g h' ∧ KeptS g h' := by
  obtain ⟨t, ht, ho, hg⟩ := onGang_calm (F := fun c g => (lanesOf c.act).foldl
    (fun g l => (g.setP l pd (val c l)).raise (fl c l)) g) h hs hu hc
  obtain ⟨f1, f2⟩ := foldl_setP pd hd (val (ctxC cu g w u)) (fl (ctxC cu g w u)) (lanesOf (ctxC cu g w u).act)
    ((g.charged s.cycle).passed (ctxC cu g w u) u) (fun l hl => lt_of_lane (mem_lanesOf.mp hl))
  have hz : (if (ctxC cu g w u).act = 0 then (g.charged s.cycle).passed (ctxC cu g w u) u else
      (lanesOf (ctxC cu g w u).act).foldl (fun y l => (y.setP l pd (val (ctxC cu g w u) l)).raise (fl (ctxC cu g w u) l))
        ((g.charged s.cycle).passed (ctxC cu g w u) u))
      = (lanesOf (ctxC cu g w u).act).foldl (fun y l => (y.setP l pd (val (ctxC cu g w u) l)).raise (fl (ctxC cu g w u) l))
        ((g.charged s.cycle).passed (ctxC cu g w u) u) := by
    split
    · next h0 => rw [h0, lanesOf_zero]; rfl
    · rfl
  replace hg := hg.trans (congrArg some hz)
  have hp : ∀ l i, ((g.charged s.cycle).passed (ctxC cu g w u) u).p l i = g.p l i := by
    intro l i; unfold Gang.p; rw [passed_pr]
  refine ⟨t, _, ht, Ran.of h hk ho hg ?_, ⟨fun l hl => ?_, fun l i hl hi hn => ?_⟩, RaisedF.of ?_, ?_, ?_⟩
  · conv_lhs => rw [f1]
    rw [f1]; rfl
  · rw [f2 l pd (lt_of_lane hl) hd]; simp [mem_lanesOf, hl]
  · rw [f2 l i hl hi, if_neg (by rw [mem_lanesOf]; exact hn)]; exact hp l i
  · rw [f1]; simp only [Gang.withPF, passed_fpstat]
  · unfold KeptV; rw [f1]; exact passed_vr ..
  · unfold KeptS; rw [f1]; exact passed_sr ..

/-- A word that writes one predicate of each active lane. -/
theorem pred_calm {s : State} {cu : Cur} {g : Gang} {w : Wg} {i : Instr} {u : WordUse} {chk : Ctx → State → Check}
    {pd k : Nat} {val : Ctx → Nat → Bool} (h : Calm s cu g w) (hs : i.staticCheck = none)
    (hu : Fits u) (hk : u.words = k) (hd : pd < 8) (hc : chk (ctxC cu g w u) s = .ok) :
    ∃ t h', coreWord i u chk (eachLane fun c g l => g.setP l pd (val c l)) s = .next t ∧
      Ran s t cu g h' u.collective k ∧ WroteP g h' (ctxC cu g w u).act pd (val (ctxC cu g w u)) ∧
      KeptF g h' ∧ KeptV g h' ∧ KeptS g h' := by
  have e : (fun (c : Ctx) (g : Gang) (l : Nat) => g.setP l pd (val c l))
      = fun c g l => (g.setP l pd (val c l)).raise 0 := by
    funext c g l; exact (raise_zero _).symm
  rw [e]
  obtain ⟨t, h', h1, h2, h3, h4, h5, h6⟩ := predFlags_calm (fl := fun _ _ => 0) h hs hu hk hd hc
  refine ⟨t, h', h1, h2, h3, ?_, h5, h6⟩
  apply BitVec.eq_of_getLsbD_eq
  intro i _
  rw [h4 i]; simp

/-! ### s-registers and other fields -/

theorem setS_eq {g : Gang} (h : Clear g) (hp : g.prods = []) (n : Nat) (x : W64) :
    g.setS n x = { g with sr := g.sr.put 0 n x } := by
  simp [Gang.setS, Gang.putS, h.empty, h.poison, hp, KSet.del]

theorem passed_prods {g : Gang} {c : Ctx} {u : WordUse} (n : Nat) (h : g.prods = []) : ((g.charged n).passed c u).prods = [] := by
  unfold Gang.passed Gang.issued; cases u.collective <;> simp only [Bool.false_eq_true, if_false, if_true] <;>
    first | (rw [mergeUnits_same, charged_same]; exact h) | (rw [charged_same]; exact h)

/-- A word that writes one s-register. -/
theorem scal_calm {s : State} {cu : Cur} {g : Gang} {w : Wg} {i : Instr} {u : WordUse} {chk : Ctx → State → Check}
    {n k : Nat} {val : Ctx → W64} (h : Calm s cu g w) (hs : i.staticCheck = none) (hu : Fits u) (hk : u.words = k)
    (hc : chk (ctxC cu g w u) s = .ok) :
    ∃ t h', coreWord i u chk (onGang fun c g => g.setS n (val c)) s = .next t ∧
      Ran s t cu g h' u.collective k ∧ WroteS g h' (ctxC cu g w u).act n (val (ctxC cu g w u)) ∧
      KeptF g h' ∧ KeptP g h' ∧ KeptV g h' := by
  obtain ⟨t, ht, ho, hg⟩ := onGang_calm (F := fun c g => g.setS n (val c)) h hs hu hc
  have hcl := passed_clear (c := ctxC cu g w u) (u := u) s.cycle h.clear
  rw [setS_eq hcl (passed_prods _ h.prods)] at hg
  by_cases h0 : (ctxC cu g w u).act = 0
  · rw [if_pos h0] at hg
    refine ⟨t, _, ht, Ran.of h hk ho hg rfl, fun j => ?_, passed_fpstat .., passed_pr .., passed_vr ..⟩
    rw [if_neg (fun hh => hh.2 h0), Gang.s, passed_sr]
    rfl
  · rw [if_neg h0] at hg
    refine ⟨t, _, ht, Ran.of h hk ho hg rfl, fun j => ?_, passed_fpstat .., passed_pr .., passed_vr ..⟩
    simp only [Gang.s, SMap.getD_put, passed_sr]
    by_cases hj : j = n
    · simp only [hj, h0, if_true, ne_eq, not_false_eq_true, and_self]
    · simp only [hj, if_false, false_and]

end Sys2Proof.Machine
end

