-- ==== Sys2Proof/Laws/Memory.lean ====
section
/-! SUPPORT. The memories: every operation that writes one keeps its canonical form, and leaves every other byte alone. -/

namespace Sys2Proof.Machine

theorem reset_memWf : State.reset.memWf = true := by decide

/-! ### Waking sleepers writes no memory -/

@[simp] theorem State.wakeSleeper_mem (s : State) (x : Sleeper) : (s.wakeSleeper x).mem = s.mem := by cases x <;> rfl
@[simp] theorem State.wakeSleeper_vmem (s : State) (x : Sleeper) : (s.wakeSleeper x).vmem = s.vmem := by cases x <;> rfl
@[simp] theorem State.wakeSleeper_wgs (s : State) (x : Sleeper) : (s.wakeSleeper x).wgs = s.wgs := by cases x <;> rfl

/-- A field that no step of a fold changes. -/
theorem foldl_keeps {σ β γ : Type} (f : σ → β → σ) (p : σ → γ) (h : ∀ s b, p (f s b) = p s) (xs : List β) :
    ∀ s, p (xs.foldl f s) = p s := by
  induction xs with
  | nil => intro s; rfl
  | cons x xs ih => intro s; rw [List.foldl_cons, ih, h]

theorem State.wakeWrites_keeps {γ : Type} (p : State → γ) (h : ∀ s x, p (State.wakeSleeper s x) = p s)
    (hm : ∀ (s : State) ms, p { s with monitors := ms } = p s) (s : State) (k : LocKind) (as : List Nat) :
    p (s.wakeWrites k as) = p s := by
  exact (foldl_keeps (fun (s : State) (m : Monitor) => m.sleepers.foldl State.wakeSleeper s) p
    (fun t m => foldl_keeps _ p h m.sleepers t) _ _).trans (hm s _)

@[simp] theorem State.wakeWrites_mem (s : State) (k : LocKind) (as : List Nat) : (s.wakeWrites k as).mem = s.mem :=
  State.wakeWrites_keeps (·.mem) (by simp) (fun _ _ => rfl) s k as
@[simp] theorem State.wakeWrites_vmem (s : State) (k : LocKind) (as : List Nat) : (s.wakeWrites k as).vmem = s.vmem :=
  State.wakeWrites_keeps (·.vmem) (by simp) (fun _ _ => rfl) s k as
@[simp] theorem State.wakeWrites_wgs (s : State) (k : LocKind) (as : List Nat) : (s.wakeWrites k as).wgs = s.wgs :=
  State.wakeWrites_keeps (·.wgs) (by simp) (fun _ _ => rfl) s k as

/-! ### Rekeying a line -/

@[simp] theorem State.rekeyLine_vmem (s : State) (l t : Nat) : (s.rekeyLine l t).vmem = s.vmem := by
  unfold State.rekeyLine; split <;> rfl
@[simp] theorem State.rekeyLine_wgs (s : State) (l t : Nat) : (s.rekeyLine l t).wgs = s.wgs := by
  unfold State.rekeyLine; split <;> rfl

theorem canon_puts {ι : Type} (f : ι → Nat) (g : ι → Byte) (xs : List ι) : ∀ {m : SMap Byte}, m.canon 0 = true →
    (xs.foldl (fun m i => m.put 0 (f i) (g i)) m).canon 0 = true := by
  induction xs with
  | nil => intro m h; exact h
  | cons x xs ih => intro m h; exact ih (SMap.canon_put _ _ h)

theorem State.rekeyLine_canon {s : State} (l t : Nat) (h : Memory.wf s.mem = true) : Memory.wf (s.rekeyLine l t).mem = true := by
  unfold State.rekeyLine
  split
  · exact h
  · exact canon_puts _ _ _ h

theorem rekeyLines_canon (t : Nat) (ls : List Nat) : ∀ {s : State}, Memory.wf s.mem = true →
    Memory.wf (ls.foldl (fun s l => s.rekeyLine l t) s).mem = true := by
  induction ls with
  | nil => intro s h; exact h
  | cons l ls ih => intro s h; exact ih (State.rekeyLine_canon l t h)

/-! ### Writes -/

theorem scr_canon {wgs : SMap Wg} (w : Nat) (f : Wg → Wg) (hf : ∀ g : Wg, Memory.wf g.scr = true → Memory.wf (f g).scr = true)
    (h : wgs.all (fun e => Memory.wf e.2.scr) = true) : (wgs.upd w f).all (fun e => Memory.wf e.2.scr) = true := by
  induction wgs with
  | nil => rfl
  | cons e m ih =>
    obtain ⟨i, u⟩ := e
    simp only [List.all_cons, Bool.and_eq_true] at h
    by_cases h1 : i = w
    · simp [SMap.upd, h1, hf u h.1]; simpa using h.2
    · simp only [SMap.upd, h1, if_false, List.all_cons, h.1, Bool.true_and]; exact ih h.2

/-- A transfer on its way to a link changes the links alone. -/
theorem State.peerSend_links (s : State) (e a : Nat) (acc : ExtAcc) (gang cmd : Nat) :
    ∃ ls, s.peerSend e a acc gang cmd = { s with links := ls } := by
  unfold State.peerSend State.fabricSend State.dispatchFlit
  split
  · exact ⟨s.links, rfl⟩
  · exact ⟨_, rfl⟩

/-- Bytes written at their home keep every memory's canonical form. -/
theorem State.homeWrite_memWf {s : State} (k : LocKind) (bs : List (Nat × Byte)) (gang cmd : Nat) (h : s.memWf = true) :
    (s.homeWrite k bs gang cmd).memWf = true := by
  simp only [State.memWf, Bool.and_eq_true] at h ⊢
  obtain ⟨⟨hm, hv⟩, hs⟩ := h
  cases k with
  | mem key =>
    simp only [State.homeWrite, State.wakeWrites_mem, State.wakeWrites_vmem, State.wakeWrites_wgs]
    refine ⟨⟨SMap.canon_putAll bs (rekeyLines_canon _ _ hm), ?_⟩, ?_⟩
    · rw [foldl_keeps _ (State.vmem) (by simp)]; exact hv
    · rw [foldl_keeps _ (State.wgs) (by simp)]; exact hs
  | scr w =>
    simp only [State.homeWrite, State.wakeWrites_mem, State.wakeWrites_vmem, State.wakeWrites_wgs, State.updWg_mem,
      State.updWg_vmem, State.updWg_wgs]
    exact ⟨⟨hm, hv⟩, scr_canon w _ (fun g hg => SMap.canon_putAll bs hg) hs⟩
  | vault =>
    simp only [State.homeWrite, State.wakeWrites_mem, State.wakeWrites_vmem, State.wakeWrites_wgs]
    exact ⟨⟨hm, SMap.canon_putAll bs hv⟩, hs⟩
  | peer e =>
    simp only [State.homeWrite, State.wakeWrites_mem, State.wakeWrites_vmem, State.wakeWrites_wgs]
    obtain ⟨ls, hl⟩ := s.peerSend_links e ((bs.map (·.1)).headD 0) (ExtAcc.write (bs.map (·.2))) gang cmd
    rw [hl]
    exact ⟨⟨hm, hv⟩, hs⟩

/-- A key change of a line keeps every memory's canonical form. -/
theorem State.rekeyLine_memWf {s : State} (l t : Nat) (h : s.memWf = true) : (s.rekeyLine l t).memWf = true := by
  simp only [State.memWf, Bool.and_eq_true, State.rekeyLine_vmem, State.rekeyLine_wgs] at h ⊢
  exact ⟨⟨State.rekeyLine_canon l t h.1.1, h.1.2⟩, h.2⟩

/-- A vault byte that is not written reads as before. -/
theorem State.homeWrite_vault_other {s : State} (bs : List (Nat × Byte)) (a : Nat)
    (ha : a ∉ bs.map (·.1)) : (s.homeWrite .vault bs).vmem.getD a 0 = s.vmem.getD a 0 := by
  simp only [State.homeWrite, State.wakeWrites_vmem]
  exact SMap.getD_putAll bs a ha

end Sys2Proof.Machine
end

