-- ==== Sys2Proof/Laws/Words.lean ====
section
/-! SUPPORT. Each layout of words reads back what it packs: fields, class and opcode (03 Tables 21 to 29, 16 Tables 116,
117). -/

namespace Sys2Proof.Laws

/-- Bits of a concatenation above its lower part. -/
theorem extract_append_hi {w v : Nat} (x : BitVec w) (y : BitVec v) (s n : Nat) (h : v ≤ s) :
    (x ++ y).extractLsb' s n = x.extractLsb' (s - v) n := BitVec.extractLsb'_append_eq_of_le h
/-- The lower part of a concatenation. -/
theorem extract_append_lo {w v : Nat} (x : BitVec w) (y : BitVec v) : (x ++ y).extractLsb' 0 v = y := by
  simpa using BitVec.extractLsb'_append_eq_right (a := x) (b := y)
theorem extract_all {w : Nat} (x : BitVec w) : x.extractLsb' 0 w = x := by simp

theorem CtrlW.unpack_pack (c : BitVec 4) (o : BitVec 8) (w : CtrlW) : CtrlW.unpack (w.pack c o) = w := by
  unfold CtrlW.unpack CtrlW.pack
  congr 1 <;> (repeat (erw [extract_append_hi _ _ _ _ (by decide)])) <;> exact extract_append_lo _ _
@[simp] theorem CtrlW.clsOf_pack (c : BitVec 4) (o : BitVec 8) (w : CtrlW) : clsOf (w.pack c o) = c := by
  unfold clsOf CtrlW.pack
  repeat (erw [extract_append_hi _ _ _ _ (by decide)])
  exact extract_all _
@[simp] theorem CtrlW.opOf_pack (c : BitVec 4) (o : BitVec 8) (w : CtrlW) : opOf (w.pack c o) = o := by
  unfold opOf CtrlW.pack
  repeat (erw [extract_append_hi _ _ _ _ (by decide)])
  exact extract_append_lo _ _

theorem ScalW.unpack_pack (c : BitVec 4) (o : BitVec 8) (w : ScalW) : ScalW.unpack (w.pack c o) = w := by
  unfold ScalW.unpack ScalW.pack
  congr 1 <;> (repeat (erw [extract_append_hi _ _ _ _ (by decide)])) <;> exact extract_append_lo _ _
@[simp] theorem ScalW.clsOf_pack (c : BitVec 4) (o : BitVec 8) (w : ScalW) : clsOf (w.pack c o) = c := by
  unfold clsOf ScalW.pack
  repeat (erw [extract_append_hi _ _ _ _ (by decide)])
  exact extract_all _
@[simp] theorem ScalW.opOf_pack (c : BitVec 4) (o : BitVec 8) (w : ScalW) : opOf (w.pack c o) = o := by
  unfold opOf ScalW.pack
  repeat (erw [extract_append_hi _ _ _ _ (by decide)])
  exact extract_append_lo _ _

theorem VecW.unpack_pack (c : BitVec 4) (o : BitVec 8) (w : VecW) : VecW.unpack (w.pack c o) = w := by
  unfold VecW.unpack VecW.pack
  congr 1 <;> (repeat (erw [extract_append_hi _ _ _ _ (by decide)])) <;> exact extract_append_lo _ _
@[simp] theorem VecW.clsOf_pack (c : BitVec 4) (o : BitVec 8) (w : VecW) : clsOf (w.pack c o) = c := by
  unfold clsOf VecW.pack
  repeat (erw [extract_append_hi _ _ _ _ (by decide)])
  exact extract_all _
@[simp] theorem VecW.opOf_pack (c : BitVec 4) (o : BitVec 8) (w : VecW) : opOf (w.pack c o) = o := by
  unfold opOf VecW.pack
  repeat (erw [extract_append_hi _ _ _ _ (by decide)])
  exact extract_append_lo _ _

theorem MemW.unpack_pack (c : BitVec 4) (o : BitVec 8) (w : MemW) : MemW.unpack (w.pack c o) = w := by
  unfold MemW.unpack MemW.pack
  congr 1 <;> (repeat (erw [extract_append_hi _ _ _ _ (by decide)])) <;> exact extract_append_lo _ _
@[simp] theorem MemW.clsOf_pack (c : BitVec 4) (o : BitVec 8) (w : MemW) : clsOf (w.pack c o) = c := by
  unfold clsOf MemW.pack
  repeat (erw [extract_append_hi _ _ _ _ (by decide)])
  exact extract_all _
@[simp] theorem MemW.opOf_pack (c : BitVec 4) (o : BitVec 8) (w : MemW) : opOf (w.pack c o) = o := by
  unfold opOf MemW.pack
  repeat (erw [extract_append_hi _ _ _ _ (by decide)])
  exact extract_append_lo _ _

theorem MmaW.unpack_pack (c : BitVec 4) (o : BitVec 8) (w : MmaW) : MmaW.unpack (w.pack c o) = w := by
  unfold MmaW.unpack MmaW.pack
  congr 1 <;> (repeat (erw [extract_append_hi _ _ _ _ (by decide)])) <;> exact extract_append_lo _ _
@[simp] theorem MmaW.clsOf_pack (c : BitVec 4) (o : BitVec 8) (w : MmaW) : clsOf (w.pack c o) = c := by
  unfold clsOf MmaW.pack
  repeat (erw [extract_append_hi _ _ _ _ (by decide)])
  exact extract_all _
@[simp] theorem MmaW.opOf_pack (c : BitVec 4) (o : BitVec 8) (w : MmaW) : opOf (w.pack c o) = o := by
  unfold opOf MmaW.pack
  repeat (erw [extract_append_hi _ _ _ _ (by decide)])
  exact extract_append_lo _ _

theorem MacroW.unpack_pack (c : BitVec 4) (o : BitVec 8) (w : MacroW) : MacroW.unpack (w.pack c o) = w := by
  unfold MacroW.unpack MacroW.pack
  congr 1 <;> (repeat (erw [extract_append_hi _ _ _ _ (by decide)])) <;> exact extract_append_lo _ _
@[simp] theorem MacroW.clsOf_pack (c : BitVec 4) (o : BitVec 8) (w : MacroW) : clsOf (w.pack c o) = c := by
  unfold clsOf MacroW.pack
  repeat (erw [extract_append_hi _ _ _ _ (by decide)])
  exact extract_all _
@[simp] theorem MacroW.opOf_pack (c : BitVec 4) (o : BitVec 8) (w : MacroW) : opOf (w.pack c o) = o := by
  unfold opOf MacroW.pack
  repeat (erw [extract_append_hi _ _ _ _ (by decide)])
  exact extract_append_lo _ _

theorem SyncW.unpack_pack (c : BitVec 4) (o : BitVec 8) (w : SyncW) : SyncW.unpack (w.pack c o) = w := by
  unfold SyncW.unpack SyncW.pack
  congr 1 <;> (repeat (erw [extract_append_hi _ _ _ _ (by decide)])) <;> exact extract_append_lo _ _
@[simp] theorem SyncW.clsOf_pack (c : BitVec 4) (o : BitVec 8) (w : SyncW) : clsOf (w.pack c o) = c := by
  unfold clsOf SyncW.pack
  repeat (erw [extract_append_hi _ _ _ _ (by decide)])
  exact extract_all _
@[simp] theorem SyncW.opOf_pack (c : BitVec 4) (o : BitVec 8) (w : SyncW) : opOf (w.pack c o) = o := by
  unfold opOf SyncW.pack
  repeat (erw [extract_append_hi _ _ _ _ (by decide)])
  exact extract_append_lo _ _

theorem EngW.unpack_pack (c : BitVec 4) (o : BitVec 8) (w : EngW) : EngW.unpack (w.pack c o) = w := by
  unfold EngW.unpack EngW.pack
  congr 1 <;> (repeat (erw [extract_append_hi _ _ _ _ (by decide)])) <;> exact extract_append_lo _ _
@[simp] theorem EngW.clsOf_pack (c : BitVec 4) (o : BitVec 8) (w : EngW) : clsOf (w.pack c o) = c := by
  unfold clsOf EngW.pack
  repeat (erw [extract_append_hi _ _ _ _ (by decide)])
  exact extract_all _
@[simp] theorem EngW.opOf_pack (c : BitVec 4) (o : BitVec 8) (w : EngW) : opOf (w.pack c o) = o := by
  unfold opOf EngW.pack
  repeat (erw [extract_append_hi _ _ _ _ (by decide)])
  exact extract_append_lo _ _

theorem TaskW.unpack_pack (c : BitVec 4) (o : BitVec 8) (w : TaskW) : TaskW.unpack (w.pack c o) = w := by
  unfold TaskW.unpack TaskW.pack
  congr 1 <;> (repeat (erw [extract_append_hi _ _ _ _ (by decide)])) <;> exact extract_append_lo _ _
@[simp] theorem TaskW.clsOf_pack (c : BitVec 4) (o : BitVec 8) (w : TaskW) : clsOf (w.pack c o) = c := by
  unfold clsOf TaskW.pack
  repeat (erw [extract_append_hi _ _ _ _ (by decide)])
  exact extract_all _
@[simp] theorem TaskW.opOf_pack (c : BitVec 4) (o : BitVec 8) (w : TaskW) : opOf (w.pack c o) = o := by
  unfold opOf TaskW.pack
  repeat (erw [extract_append_hi _ _ _ _ (by decide)])
  exact extract_append_lo _ _

theorem HalfW.unpack_pack (w : HalfW) : HalfW.unpack w.pack = w := by
  unfold HalfW.unpack HalfW.pack
  congr 1 <;> (repeat (erw [extract_append_hi _ _ _ _ (by decide)])) <;> first | exact extract_append_lo _ _ | exact extract_all _
theorem BindW.unpack_pack (w : BindW) : BindW.unpack w.pack = w := by
  unfold BindW.unpack BindW.pack
  congr 1 <;> (repeat (erw [extract_append_hi _ _ _ _ (by decide)])) <;> first | exact extract_append_lo _ _ | exact extract_all _
@[simp] theorem PairW.clsOf_pack (w : PairW) : clsOf w.pack = 3 := by
  unfold clsOf PairW.pack
  repeat (erw [extract_append_hi _ _ _ _ (by decide)])
  exact extract_all _
@[simp] theorem contWord_cls (own : BitVec 4) (k : BitVec 120) : clsOf (contWord own k) = 0xF := by
  unfold clsOf contWord
  repeat (erw [extract_append_hi _ _ _ _ (by decide)])
  exact extract_all _
@[simp] theorem contWord_payload (own : BitVec 4) (k : BitVec 120) : payloadOf (contWord own k) = k := by
  unfold payloadOf contWord
  exact extract_append_lo _ _

end Sys2Proof.Laws
end

