-- ==== Sys2Proof/Laws/PerInstr.lean ====
section
/-! SUPPORT. A law of every instruction as syntax: the first word of an instruction is never of class 0xF, the class of
continuation words (03 R58), so that a stream of words can be told apart. -/

namespace Sys2Proof.Laws.Encoding

/-- The first word of the instruction, where it has words, is no continuation word. -/
def Statement (i : Instr) : Prop := ∀ ws, encode i = some ws → clsOf (ws.headD 0) ≠ 0xF

theorem of_none {ws : List IWord} {p : Prop} (h : none = some ws) : p := nomatch h
theorem of_CtrlW {c : BitVec 4} {o : BitVec 8} {w : CtrlW} {l ws : List IWord} (hc : c ≠ 0xF)
    (h : some (w.pack c o :: l) = some ws) : clsOf (ws.headD 0) ≠ 0xF := by
  cases h
  simpa using hc
theorem of_ScalW {c : BitVec 4} {o : BitVec 8} {w : ScalW} {l ws : List IWord} (hc : c ≠ 0xF)
    (h : some (w.pack c o :: l) = some ws) : clsOf (ws.headD 0) ≠ 0xF := by
  cases h
  simpa using hc
theorem of_VecW {c : BitVec 4} {o : BitVec 8} {w : VecW} {l ws : List IWord} (hc : c ≠ 0xF)
    (h : some (w.pack c o :: l) = some ws) : clsOf (ws.headD 0) ≠ 0xF := by
  cases h
  simpa using hc
theorem of_MemW {c : BitVec 4} {o : BitVec 8} {w : MemW} {l ws : List IWord} (hc : c ≠ 0xF)
    (h : some (w.pack c o :: l) = some ws) : clsOf (ws.headD 0) ≠ 0xF := by
  cases h
  simpa using hc
theorem of_MmaW {c : BitVec 4} {o : BitVec 8} {w : MmaW} {l ws : List IWord} (hc : c ≠ 0xF)
    (h : some (w.pack c o :: l) = some ws) : clsOf (ws.headD 0) ≠ 0xF := by
  cases h
  simpa using hc
theorem of_MacroW {c : BitVec 4} {o : BitVec 8} {w : MacroW} {l ws : List IWord} (hc : c ≠ 0xF)
    (h : some (w.pack c o :: l) = some ws) : clsOf (ws.headD 0) ≠ 0xF := by
  cases h
  simpa using hc
theorem of_SyncW {c : BitVec 4} {o : BitVec 8} {w : SyncW} {l ws : List IWord} (hc : c ≠ 0xF)
    (h : some (w.pack c o :: l) = some ws) : clsOf (ws.headD 0) ≠ 0xF := by
  cases h
  simpa using hc
theorem of_EngW {c : BitVec 4} {o : BitVec 8} {w : EngW} {l ws : List IWord} (hc : c ≠ 0xF)
    (h : some (w.pack c o :: l) = some ws) : clsOf (ws.headD 0) ≠ 0xF := by
  cases h
  simpa using hc
theorem of_TaskW {c : BitVec 4} {o : BitVec 8} {w : TaskW} {l ws : List IWord} (hc : c ≠ 0xF)
    (h : some (w.pack c o :: l) = some ws) : clsOf (ws.headD 0) ≠ 0xF := by
  cases h
  simpa using hc
theorem of_PairW {w : PairW} {l ws : List IWord} (h : some (w.pack :: l) = some ws) : clsOf (ws.headD 0) ≠ 0xF := by
  cases h
  simp

theorem nop (w : CtrlW) : Statement (.nop w) := fun _ h => of_CtrlW (by decide) h
theorem bra (w : CtrlW) : Statement (.bra w) := fun _ h => of_CtrlW (by decide) h
theorem brx (w : CtrlW) : Statement (.brx w) := fun _ h => of_CtrlW (by decide) h
theorem call (w : CtrlW) : Statement (.call w) := fun _ h => of_CtrlW (by decide) h
theorem callx (w : CtrlW) : Statement (.callx w) := fun _ h => of_CtrlW (by decide) h
theorem ret (w : CtrlW) : Statement (.ret w) := fun _ h => of_CtrlW (by decide) h
theorem fuse (w : CtrlW) : Statement (.fuse w) := fun _ h => of_CtrlW (by decide) h
theorem exit (w : CtrlW) : Statement (.exit w) := fun _ h => of_CtrlW (by decide) h
theorem trap (w : CtrlW) : Statement (.trap w) := fun _ h => of_CtrlW (by decide) h
theorem brk (w : CtrlW) : Statement (.brk w) := fun _ h => of_CtrlW (by decide) h
theorem yield (w : CtrlW) : Statement (.yield w) := fun _ h => of_CtrlW (by decide) h
theorem sread (w : CtrlW) : Statement (.sread w) := fun _ h => of_CtrlW (by decide) h
theorem swrite (w : CtrlW) : Statement (.swrite w) := fun _ h => of_CtrlW (by decide) h
theorem eret (w : CtrlW) : Statement (.eret w) := fun _ h => of_CtrlW (by decide) h
theorem syscall (w : CtrlW) : Statement (.syscall w) := fun _ h => of_CtrlW (by decide) h
theorem sleep (w : CtrlW) : Statement (.sleep w) := fun _ h => of_CtrlW (by decide) h
theorem smov (w : ScalW) : Statement (.smov w) := fun _ h => of_ScalW (by decide) h
theorem smovi (w : ScalW) : Statement (.smovi w) := fun _ h => of_ScalW (by decide) h
theorem smovi64 (w : ScalW) (hi : BitVec 128) : Statement (.smovi64 w hi) := fun _ h => of_ScalW (by decide) h
theorem sadd (w : ScalW) : Statement (.sadd w) := fun _ h => of_ScalW (by decide) h
theorem ssub (w : ScalW) : Statement (.ssub w) := fun _ h => of_ScalW (by decide) h
theorem smul (w : ScalW) : Statement (.smul w) := fun _ h => of_ScalW (by decide) h
theorem smulh (w : ScalW) : Statement (.smulh w) := fun _ h => of_ScalW (by decide) h
theorem sand (w : ScalW) : Statement (.sand w) := fun _ h => of_ScalW (by decide) h
theorem sor (w : ScalW) : Statement (.sor w) := fun _ h => of_ScalW (by decide) h
theorem sxor (w : ScalW) : Statement (.sxor w) := fun _ h => of_ScalW (by decide) h
theorem sshl (w : ScalW) : Statement (.sshl w) := fun _ h => of_ScalW (by decide) h
theorem sshr (w : ScalW) : Statement (.sshr w) := fun _ h => of_ScalW (by decide) h
theorem ssra (w : ScalW) : Statement (.ssra w) := fun _ h => of_ScalW (by decide) h
theorem scmp (w : ScalW) : Statement (.scmp w) := fun _ h => of_ScalW (by decide) h
theorem ssel (w : ScalW) : Statement (.ssel w) := fun _ h => of_ScalW (by decide) h
theorem smin (w : ScalW) : Statement (.smin w) := fun _ h => of_ScalW (by decide) h
theorem smax (w : ScalW) : Statement (.smax w) := fun _ h => of_ScalW (by decide) h
theorem sclz (w : ScalW) : Statement (.sclz w) := fun _ h => of_ScalW (by decide) h
theorem spopc (w : ScalW) : Statement (.spopc w) := fun _ h => of_ScalW (by decide) h
theorem vtos (w : ScalW) : Statement (.vtos w) := fun _ h => of_ScalW (by decide) h
theorem stov (w : ScalW) : Statement (.stov w) := fun _ h => of_ScalW (by decide) h
theorem slea (w : ScalW) : Statement (.slea w) := fun _ h => of_ScalW (by decide) h
theorem iadd (w : VecW) : Statement (.iadd w) := fun _ h => of_VecW (by decide) h
theorem isub (w : VecW) : Statement (.isub w) := fun _ h => of_VecW (by decide) h
theorem imul (w : VecW) : Statement (.imul w) := fun _ h => of_VecW (by decide) h
theorem imulh (w : VecW) : Statement (.imulh w) := fun _ h => of_VecW (by decide) h
theorem imad (w : VecW) : Statement (.imad w) := fun _ h => of_VecW (by decide) h
theorem imin (w : VecW) : Statement (.imin w) := fun _ h => of_VecW (by decide) h
theorem imax (w : VecW) : Statement (.imax w) := fun _ h => of_VecW (by decide) h
theorem iabs (w : VecW) : Statement (.iabs w) := fun _ h => of_VecW (by decide) h
theorem ineg (w : VecW) : Statement (.ineg w) := fun _ h => of_VecW (by decide) h
theorem and (w : VecW) : Statement (.and w) := fun _ h => of_VecW (by decide) h
theorem or (w : VecW) : Statement (.or w) := fun _ h => of_VecW (by decide) h
theorem xor (w : VecW) : Statement (.xor w) := fun _ h => of_VecW (by decide) h
theorem not (w : VecW) : Statement (.not w) := fun _ h => of_VecW (by decide) h
theorem shl (w : VecW) : Statement (.shl w) := fun _ h => of_VecW (by decide) h
theorem shr (w : VecW) : Statement (.shr w) := fun _ h => of_VecW (by decide) h
theorem sra (w : VecW) : Statement (.sra w) := fun _ h => of_VecW (by decide) h
theorem rot (w : VecW) : Statement (.rot w) := fun _ h => of_VecW (by decide) h
theorem bfe (w : VecW) : Statement (.bfe w) := fun _ h => of_VecW (by decide) h
theorem bfi (w : VecW) : Statement (.bfi w) := fun _ h => of_VecW (by decide) h
theorem clz (w : VecW) : Statement (.clz w) := fun _ h => of_VecW (by decide) h
theorem popc (w : VecW) : Statement (.popc w) := fun _ h => of_VecW (by decide) h
theorem brev (w : VecW) : Statement (.brev w) := fun _ h => of_VecW (by decide) h
theorem icmp (w : VecW) : Statement (.icmp w) := fun _ h => of_VecW (by decide) h
theorem sel (w : VecW) : Statement (.sel w) := fun _ h => of_VecW (by decide) h
theorem mov (w : VecW) : Statement (.mov w) := fun _ h => of_VecW (by decide) h
theorem movi (w : VecW) : Statement (.movi w) := fun _ h => of_VecW (by decide) h
theorem iaddsh (w : VecW) : Statement (.iaddsh w) := fun _ h => of_VecW (by decide) h
theorem idot4 (w : VecW) : Statement (.idot4 w) := fun _ h => of_VecW (by decide) h
theorem fadd (w : VecW) : Statement (.fadd w) := fun _ h => of_VecW (by decide) h
theorem fsub (w : VecW) : Statement (.fsub w) := fun _ h => of_VecW (by decide) h
theorem fmul (w : VecW) : Statement (.fmul w) := fun _ h => of_VecW (by decide) h
theorem ffma (w : VecW) : Statement (.ffma w) := fun _ h => of_VecW (by decide) h
theorem fmin (w : VecW) : Statement (.fmin w) := fun _ h => of_VecW (by decide) h
theorem fmax (w : VecW) : Statement (.fmax w) := fun _ h => of_VecW (by decide) h
theorem fcmp (w : VecW) : Statement (.fcmp w) := fun _ h => of_VecW (by decide) h
theorem fclass (w : VecW) : Statement (.fclass w) := fun _ h => of_VecW (by decide) h
theorem frnd (w : VecW) : Statement (.frnd w) := fun _ h => of_VecW (by decide) h
theorem fdot2 (w : VecW) : Statement (.fdot2 w) := fun _ h => of_VecW (by decide) h
theorem fscale (w : VecW) : Statement (.fscale w) := fun _ h => of_VecW (by decide) h
theorem ffract (w : VecW) : Statement (.ffract w) := fun _ h => of_VecW (by decide) h
theorem fdiv (w : VecW) : Statement (.fdiv w) := fun _ h => of_VecW (by decide) h
theorem cvt (w : VecW) : Statement (.cvt w) := fun _ h => of_VecW (by decide) h
theorem pack (w : VecW) : Statement (.pack w) := fun _ h => of_VecW (by decide) h
theorem unpack (w : VecW) : Statement (.unpack w) := fun _ h => of_VecW (by decide) h
theorem qnt (w : VecW) : Statement (.qnt w) := fun _ h => of_VecW (by decide) h
theorem dqnt (w : VecW) : Statement (.dqnt w) := fun _ h => of_VecW (by decide) h
theorem rcp (w : VecW) : Statement (.rcp w) := fun _ h => of_VecW (by decide) h
theorem rsq (w : VecW) : Statement (.rsq w) := fun _ h => of_VecW (by decide) h
theorem sqrt (w : VecW) : Statement (.sqrt w) := fun _ h => of_VecW (by decide) h
theorem exp2 (w : VecW) : Statement (.exp2 w) := fun _ h => of_VecW (by decide) h
theorem log2 (w : VecW) : Statement (.log2 w) := fun _ h => of_VecW (by decide) h
theorem sin (w : VecW) : Statement (.sin w) := fun _ h => of_VecW (by decide) h
theorem cos (w : VecW) : Statement (.cos w) := fun _ h => of_VecW (by decide) h
theorem tanh (w : VecW) : Statement (.tanh w) := fun _ h => of_VecW (by decide) h
theorem vpair (w : PairW) : Statement (.vpair w) := fun _ h => of_PairW h
theorem shfl (w : VecW) : Statement (.shfl w) := fun _ h => of_VecW (by decide) h
theorem push (w : VecW) : Statement (.push w) := fun _ h => of_VecW (by decide) h
theorem ballot (w : VecW) : Statement (.ballot w) := fun _ h => of_VecW (by decide) h
theorem voteall (w : VecW) : Statement (.voteall w) := fun _ h => of_VecW (by decide) h
theorem voteany (w : VecW) : Statement (.voteany w) := fun _ h => of_VecW (by decide) h
theorem voteeq (w : VecW) : Statement (.voteeq w) := fun _ h => of_VecW (by decide) h
theorem cmprs (w : VecW) : Statement (.cmprs w) := fun _ h => of_VecW (by decide) h
theorem expnd (w : VecW) : Statement (.expnd w) := fun _ h => of_VecW (by decide) h
theorem slup (w : VecW) : Statement (.slup w) := fun _ h => of_VecW (by decide) h
theorem sldn (w : VecW) : Statement (.sldn w) := fun _ h => of_VecW (by decide) h
theorem redadd (w : VecW) : Statement (.redadd w) := fun _ h => of_VecW (by decide) h
theorem redmin (w : VecW) : Statement (.redmin w) := fun _ h => of_VecW (by decide) h
theorem redmax (w : VecW) : Statement (.redmax w) := fun _ h => of_VecW (by decide) h
theorem scanadd (w : VecW) : Statement (.scanadd w) := fun _ h => of_VecW (by decide) h
theorem matchLanes (w : VecW) : Statement (.matchLanes w) := fun _ h => of_VecW (by decide) h
theorem actmask (w : VecW) : Statement (.actmask w) := fun _ h => of_VecW (by decide) h
theorem ld (w : MemW) : Statement (.ld w) := fun _ h => of_MemW (by decide) h
theorem st (w : MemW) : Statement (.st w) := fun _ h => of_MemW (by decide) h
theorem ldu (w : MemW) : Statement (.ldu w) := fun _ h => of_MemW (by decide) h
theorem atom (w : MemW) : Statement (.atom w) := fun _ h => of_MemW (by decide) h
theorem red (w : MemW) : Statement (.red w) := fun _ h => of_MemW (by decide) h
theorem cas (w : MemW) : Statement (.cas w) := fun _ h => of_MemW (by decide) h
theorem ord (w : MemW) : Statement (.ord w) := fun _ h => of_MemW (by decide) h
theorem fence (w : MemW) : Statement (.fence w) := fun _ h => of_MemW (by decide) h
theorem waitc (w : MemW) : Statement (.waitc w) := fun _ h => of_MemW (by decide) h
theorem pref (w : MemW) : Statement (.pref w) := fun _ h => of_MemW (by decide) h
theorem invt (w : MemW) : Statement (.invt w) := fun _ h => of_MemW (by decide) h
theorem mma (w : MmaW) (k : BitVec 120) : Statement (.mma w k) := fun _ h => of_MmaW (by decide) h
theorem tlma (w : MmaW) (k : BitVec 120) : Statement (.tlma w k) := fun _ h => of_MmaW (by decide) h
theorem tlpre (w : MmaW) : Statement (.tlpre w) := fun _ h => of_MmaW (by decide) h
theorem mzero (w : MmaW) : Statement (.mzero w) := fun _ h => of_MmaW (by decide) h
theorem mldt (w : MmaW) : Statement (.mldt w) := fun _ h => of_MmaW (by decide) h
theorem mstt (w : MmaW) : Statement (.mstt w) := fun _ h => of_MmaW (by decide) h
theorem rast (w : MacroW) : Statement (.rast w) := fun _ h => of_MacroW (by decide) h
theorem blend (w : MacroW) : Statement (.blend w) := fun _ h => of_MacroW (by decide) h
theorem filt (w : MacroW) : Statement (.filt w) := fun _ h => of_MacroW (by decide) h
theorem trav (w : MacroW) : Statement (.trav w) := fun _ h => of_MacroW (by decide) h
theorem bin (w : MacroW) : Statement (.bin w) := fun _ h => of_MacroW (by decide) h
theorem binPop (w : MacroW) : Statement (.binPop w) := fun _ h => of_MacroW (by decide) h
theorem mcode (op : BitVec 8) (w : MacroW) : Statement (.mcode op w) := fun _ h => of_MacroW (by decide) h
theorem bar (w : SyncW) : Statement (.bar w) := fun _ h => of_SyncW (by decide) h
theorem barc (w : SyncW) : Statement (.barc w) := fun _ h => of_SyncW (by decide) h
theorem barcFinal (w : SyncW) : Statement (.barcFinal w) := fun _ h => of_SyncW (by decide) h
theorem barg (w : SyncW) : Statement (.barg w) := fun _ h => of_SyncW (by decide) h
theorem grd (w : SyncW) : Statement (.grd w) := fun _ h => of_SyncW (by decide) h
theorem gwr (w : SyncW) : Statement (.gwr w) := fun _ h => of_SyncW (by decide) h
theorem gatom (w : SyncW) : Statement (.gatom w) := fun _ h => of_SyncW (by decide) h
theorem xclaim (w : SyncW) : Statement (.xclaim w) := fun _ h => of_SyncW (by decide) h
theorem xgive (w : SyncW) : Statement (.xgive w) := fun _ h => of_SyncW (by decide) h
theorem xquery (w : SyncW) : Statement (.xquery w) := fun _ h => of_SyncW (by decide) h
theorem spawn (w : SyncW) : Statement (.spawn w) := fun _ h => of_SyncW (by decide) h
theorem spawnf (w : SyncW) : Statement (.spawnf w) := fun _ h => of_SyncW (by decide) h
theorem qpop (w : SyncW) : Statement (.qpop w) := fun _ h => of_SyncW (by decide) h
theorem qpush (w : SyncW) : Statement (.qpush w) := fun _ h => of_SyncW (by decide) h
theorem cancel (w : SyncW) : Statement (.cancel w) := fun _ h => of_SyncW (by decide) h
theorem cntrd (w : SyncW) : Statement (.cntrd w) := fun _ h => of_SyncW (by decide) h
theorem cecopy (w : EngW) (k : BitVec 120) : Statement (.cecopy w k) := fun _ h => of_EngW (by decide) h
theorem cegath (w : EngW) (k : BitVec 120) : Statement (.cegath w k) := fun _ h => of_EngW (by decide) h
theorem cescat (w : EngW) (k : BitVec 120) : Statement (.cescat w k) := fun _ h => of_EngW (by decide) h
theorem cefill (w : EngW) : Statement (.cefill w) := fun _ h => of_EngW (by decide) h
theorem cedec (w : EngW) (k : BitVec 120) : Statement (.cedec w k) := fun _ h => of_EngW (by decide) h
theorem cestat (w : EngW) : Statement (.cestat w) := fun _ h => of_EngW (by decide) h
theorem tnop (w : TaskW) : Statement (.tnop w) := fun _ h => of_TaskW (by decide) h
theorem tbind (w : TaskW) : Statement (.tbind w) := fun _ h => of_TaskW (by decide) h
theorem tfree (w : TaskW) : Statement (.tfree w) := fun _ h => of_TaskW (by decide) h
theorem tlaunch (w : TaskW) (bs : List BindW) : Statement (.tlaunch w bs) := fun _ h => of_TaskW (by decide) h
theorem tcopy (w : TaskW) : Statement (.tcopy w) := fun _ h => of_TaskW (by decide) h
theorem tfill (w : TaskW) : Statement (.tfill w) := fun _ h => of_TaskW (by decide) h
theorem tallred (w : TaskW) : Statement (.tallred w) := fun _ h => of_TaskW (by decide) h
theorem tallgat (w : TaskW) : Statement (.tallgat w) := fun _ h => of_TaskW (by decide) h
theorem trdscat (w : TaskW) : Statement (.trdscat w) := fun _ h => of_TaskW (by decide) h
theorem tdraw (w : TaskW) (bs : List BindW) : Statement (.tdraw w bs) := fun _ h => of_TaskW (by decide) h
theorem tpresent (w : TaskW) : Statement (.tpresent w) := fun _ h => of_TaskW (by decide) h
theorem twait (w : TaskW) : Statement (.twait w) := fun _ h => of_TaskW (by decide) h
theorem tsignal (w : TaskW) : Statement (.tsignal w) := fun _ h => of_TaskW (by decide) h
theorem tfence (w : TaskW) : Statement (.tfence w) := fun _ h => of_TaskW (by decide) h
theorem tkmov (w : TaskW) : Statement (.tkmov w) := fun _ h => of_TaskW (by decide) h
theorem tkadd (w : TaskW) : Statement (.tkadd w) := fun _ h => of_TaskW (by decide) h
theorem tkld (w : TaskW) : Statement (.tkld w) := fun _ h => of_TaskW (by decide) h
theorem tkbr (w : TaskW) : Statement (.tkbr w) := fun _ h => of_TaskW (by decide) h
theorem tphase (w : TaskW) : Statement (.tphase w) := fun _ h => of_TaskW (by decide) h
theorem tgroup (w : TaskW) : Statement (.tgroup w) := fun _ h => of_TaskW (by decide) h
theorem tend (w : TaskW) : Statement (.tend w) := fun _ h => of_TaskW (by decide) h
theorem producerWriteback (gang idx : Nat) : Statement (.producerWriteback gang idx) := fun _ h => of_none h
theorem laneExited (gang : Nat) : Statement (.laneExited gang) := fun _ h => of_none h
theorem sleepWake (gang : Nat) : Statement (.sleepWake gang) := fun _ h => of_none h
theorem activeSetRemove (pid : Nat) : Statement (.activeSetRemove pid) := fun _ h => of_none h
theorem quadSplit (gang quad : Nat) : Statement (.quadSplit gang quad) := fun _ h => of_none h
theorem timeSliceEnd (wg : Nat) : Statement (.timeSliceEnd wg) := fun _ h => of_none h
theorem admission (part pid : Nat) : Statement (.admission part pid) := fun _ h => of_none h
theorem drainTimeout (wg : Nat) : Statement (.drainTimeout wg) := fun _ h => of_none h
theorem contextSave (wg addr : Nat) : Statement (.contextSave wg addr) := fun _ h => of_none h
theorem contextRestore (wg pid : Nat) : Statement (.contextRestore wg pid) := fun _ h => of_none h
theorem xclaimGrant (pid : Nat) : Statement (.xclaimGrant pid) := fun _ h => of_none h
theorem xgiveCredit (gang : Nat) : Statement (.xgiveCredit gang) := fun _ h => of_none h
theorem regDeadlockReport (pid : Nat) : Statement (.regDeadlockReport pid) := fun _ h => of_none h
theorem latheStep (core lathe : Nat) : Statement (.latheStep core lathe) := fun _ h => of_none h
theorem matrixPassStart (pid : Nat) : Statement (.matrixPassStart pid) := fun _ h => of_none h
theorem matrixBlock (pid : Nat) : Statement (.matrixBlock pid) := fun _ h => of_none h
theorem rdvStallWatchdog (gang pc : Nat) : Statement (.rdvStallWatchdog gang pc) := fun _ h => of_none h
theorem binTimerExpire (pid bin : Nat) : Statement (.binTimerExpire pid bin) := fun _ h => of_none h
theorem binLaunch (pid : Nat) : Statement (.binLaunch pid) := fun _ h => of_none h
theorem starterWave (cluster : Nat) : Statement (.starterWave cluster) := fun _ h => of_none h
theorem waitcWake (gang idx : Nat) : Statement (.waitcWake gang idx) := fun _ h => of_none h
theorem parkedPoll (gang idx : Nat) : Statement (.parkedPoll gang idx) := fun _ h => of_none h
theorem qpopCopy (gang idx : Nat) : Statement (.qpopCopy gang idx) := fun _ h => of_none h
theorem wcbLineDrain (core line : Nat) : Statement (.wcbLineDrain core line) := fun _ h => of_none h
theorem wcbDrainTimeout (core line : Nat) : Statement (.wcbDrainTimeout core line) := fun _ h => of_none h
theorem engComplete (cluster idx : Nat) : Statement (.engComplete cluster idx) := fun _ h => of_none h
theorem pageFaultService (part idx : Nat) : Statement (.pageFaultService part idx) := fun _ h => of_none h
theorem pfholdTimeout (part : Nat) : Statement (.pfholdTimeout part) := fun _ h => of_none h
theorem pfrespReplay (part tenant page : Nat) : Statement (.pfrespReplay part tenant page) := fun _ h => of_none h
theorem pfrespDeny (part tenant page : Nat) : Statement (.pfrespDeny part tenant page) := fun _ h => of_none h
theorem tlbInvalidate (tenant page : Nat) : Statement (.tlbInvalidate tenant page) := fun _ h => of_none h
theorem eccError (unit addr : Nat) (double : Bool) : Statement (.eccError unit addr double) := fun _ h => of_none h
theorem illegalEncoding (sub : BitVec 8) : Statement (.illegalEncoding sub) := fun _ h => of_none h
theorem fetchFault (addr : W64) : Statement (.fetchFault addr) := fun _ h => of_none h
theorem taskComplete (part id : Nat) : Statement (.taskComplete part id) := fun _ h => of_none h
theorem taskRetire (part port : Nat) : Statement (.taskRetire part port) := fun _ h => of_none h
theorem tctlGo (part port tenant : Nat) : Statement (.tctlGo part port tenant) := fun _ h => of_none h
theorem tctlHalt (part port : Nat) : Statement (.tctlHalt part port) := fun _ h => of_none h
theorem freeadd (part : Nat) (v : W64) : Statement (.freeadd part v) := fun _ h => of_none h
theorem wlimitWrite (part : Nat) (v : W64) : Statement (.wlimitWrite part v) := fun _ h => of_none h
theorem snapshotTimeout (part port : Nat) : Statement (.snapshotTimeout part port) := fun _ h => of_none h
theorem bootctlGo : Statement (.bootctlGo) := fun _ h => of_none h
theorem bootctlRestart (mask : BitVec 8) : Statement (.bootctlRestart mask) := fun _ h => of_none h
theorem bootImageCheckDone : Statement (.bootImageCheckDone) := fun _ h => of_none h
theorem powerUp : Statement (.powerUp) := fun _ h => of_none h
theorem partitionReset (part : Nat) : Statement (.partitionReset part) := fun _ h => of_none h
theorem functionLevelReset : Statement (.functionLevelReset) := fun _ h => of_none h
theorem coldReset : Statement (.coldReset) := fun _ h => of_none h
theorem powerOff : Statement (.powerOff) := fun _ h => of_none h
theorem fwHeartbeat (core : Nat) : Statement (.fwHeartbeat core) := fun _ h => of_none h
theorem peakTick (energy : Nat) : Statement (.peakTick energy) := fun _ h => of_none h
theorem intervalBoundary : Statement (.intervalBoundary) := fun _ h => of_none h
theorem powerMsTick (energy : Nat) (temps : List Nat) : Statement (.powerMsTick energy temps) := fun _ h => of_none h
theorem headFrameStart (head : Nat) : Statement (.headFrameStart head) := fun _ h => of_none h
theorem getVersion : Statement (.getVersion) := fun _ h => of_none h
theorem getCapabilities : Statement (.getCapabilities) := fun _ h => of_none h
theorem getDigests : Statement (.getDigests) := fun _ h => of_none h
theorem linkRetrain (link : Nat) : Statement (.linkRetrain link) := fun _ h => of_none h
theorem linkRetrainDone (link : Nat) : Statement (.linkRetrainDone link) := fun _ h => of_none h
theorem heartbeatSend (group : Nat) : Statement (.heartbeatSend group) := fun _ h => of_none h
theorem ceilingChange : Statement (.ceilingChange) := fun _ h => of_none h
theorem clockLowerBegin (die : Nat) : Statement (.clockLowerBegin die) := fun _ h => of_none h
theorem memberDrop (group member : Nat) : Statement (.memberDrop group member) := fun _ h => of_none h
theorem ackTimer (conn : Nat) : Statement (.ackTimer conn) := fun _ h => of_none h
theorem retransmitTimeout (conn : Nat) : Statement (.retransmitTimeout conn) := fun _ h => of_none h
theorem pfcPauseExpiry (port prio : Nat) : Statement (.pfcPauseExpiry port prio) := fun _ h => of_none h
theorem hostCancel (level a b c : Nat) : Statement (.hostCancel level a b c) := fun _ h => of_none h
theorem qtailWrite (q : Nat) (vs : List W32) : Statement (.qtailWrite q vs) := fun _ h => of_none h
theorem clkpatWrite (cluster : Nat) (v : W64) : Statement (.clkpatWrite cluster v) := fun _ h => of_none h
theorem slopeWrite (cluster : Nat) (v : W64) : Statement (.slopeWrite cluster v) := fun _ h => of_none h
theorem pcapWrite (v : W64) : Statement (.pcapWrite v) := fun _ h => of_none h
theorem registerWrite (by_ : Writer) (page : Page) (off : Nat) (v : W64) : Statement (.registerWrite by_ page off v) := fun _ h => of_none h
theorem mailboxWrite (core sender kind : Nat) (seq : W32) (payload : List Byte) : Statement (.mailboxWrite core sender kind seq payload) := fun _ h => of_none h
theorem microcodeLoad (part : Nat) (decls : List McodeDecl) (image : List Byte) : Statement (.microcodeLoad part decls image) := fun _ h => of_none h
theorem negotiateAlgorithms (sign hash aead : Nat) : Statement (.negotiateAlgorithms sign hash aead) := fun _ h => of_none h
theorem getCertificate (slot off len : Nat) : Statement (.getCertificate slot off len) := fun _ h => of_none h
theorem challenge (slot : Nat) (nonce : List Byte) : Statement (.challenge slot nonce) := fun _ h => of_none h
theorem getMeasurements (index : Nat) (signed : Bool) (nonce : List Byte) : Statement (.getMeasurements index signed nonce) := fun _ h => of_none h
theorem keyExchange (session : Nat) (share : List Byte) : Statement (.keyExchange session share) := fun _ h => of_none h
theorem finish (session : Nat) (mac : List Byte) : Statement (.finish session mac) := fun _ h => of_none h
theorem encoderFrameDone (enc : Nat) (bits : List Byte) : Statement (.encoderFrameDone enc bits) := fun _ h => of_none h
theorem encReadposWrite (enc pos : Nat) : Statement (.encReadposWrite enc pos) := fun _ h => of_none h
theorem flitReceive (link : Nat) (f : Flit) : Statement (.flitReceive link f) := fun _ h => of_none h
theorem peerAccessReceive (part rkey pa : Nat) (acc : PeerAcc) : Statement (.peerAccessReceive part rkey pa acc) := fun _ h => of_none h
theorem noticeReceive (n : Notice) : Statement (.noticeReceive n) := fun _ h => of_none h
theorem collectiveHeaderReceive (part port rank n op sub fmt count : Nat) (abort : Bool) (payload : List CollElem) : Statement (.collectiveHeaderReceive part port rank n op sub fmt count abort payload) := fun _ h => of_none h
theorem ethFrameReceive (port : Nat) (f : EthFrame) : Statement (.ethFrameReceive port f) := fun _ h => of_none h
theorem dataPkt (port : Nat) (h : PktHdr) (payload : List Byte) : Statement (.dataPkt port h payload) := fun _ h => of_none h
theorem ackPkt (port : Nat) (h : PktHdr) : Statement (.ackPkt port h) := fun _ h => of_none h
theorem nackPkt (port : Nat) (h : PktHdr) : Statement (.nackPkt port h) := fun _ h => of_none h
theorem noticePkt (port : Nat) (h : PktHdr) (n : Notice) : Statement (.noticePkt port h n) := fun _ h => of_none h
theorem timePkt (port : Nat) (h : PktHdr) (stamp : Nat) : Statement (.timePkt port h stamp) := fun _ h => of_none h
theorem pfcReceive (port prio quanta : Nat) : Statement (.pfcReceive port prio quanta) := fun _ h => of_none h
theorem ethLinkUpDown (port : Nat) (up : Bool) : Statement (.ethLinkUpDown port up) := fun _ h => of_none h
theorem fecAlignmentLock (port : Nat) (locked : Bool) : Statement (.fecAlignmentLock port locked) := fun _ h => of_none h
theorem hostLinkAccess (t : HostTarget) (acc : ExtAcc) : Statement (.hostLinkAccess t acc) := fun _ h => of_none h
theorem tdispRequest (vf : Nat) (r : TdispReq) : Statement (.tdispRequest vf r) := fun _ h => of_none h
theorem spdmSessionMessage (m : SecMsg) : Statement (.spdmSessionMessage m) := fun _ h => of_none h

end Sys2Proof.Laws.Encoding
end

