-- ==== Sys2Proof/Laws/Vector.lean ====
section
/-! SUPPORT. Words of layout V: their use meets the common checks, and their operands are those of 03 R49 and R50. -/

namespace Sys2Proof.Machine

theorem staticCheck_of_wf {i : Instr} (h : i.wf = true) : i.staticCheck = none := by
  simp only [Instr.wf, Bool.and_eq_true, decide_eq_true_eq] at h
  exact h.2

theorem sub_or_none {a b : Sub} (h : Sub.or a b = none) : a = none ∧ b = none := by
  unfold Sub.or at h
  split at h
  · simp at h
  · exact ⟨rfl, h⟩

theorem sub_when_none {c : Bool} {x : BitVec 8} (h : Sub.when c x = none) : c = false := by
  cases c
  · rfl
  · simp [Sub.when] at h

/-- A word that passes its field check names one of its row's types. -/
theorem vecCheck_type {v : VecUse} {w : VecW} (h : vecCheck v w = none) : v.ts.contains w.t = true := by
  unfold vecCheck at h
  have h2 := sub_when_none (sub_or_none h).2
  simp only [Bool.or_eq_false_iff, Bool.not_eq_false'] at h2
  exact h2.1.1.1.1.1.1.1

theorem width_of_ints {t : BitVec 4} (h : Fmt.ints.contains t = true) : widthOf t = 32 ∨ widthOf t = 64 := by
  revert h; revert t; decide

/-- The common checks pass for a layout V word whose pairs are even. -/
theorem vecUse_fits {w : VecW} {n sw dw : Nat} {p : Bool} (h : EvenV w sw dw) : Fits (vecUseOf w n sw dw p) := by
  have hsrc : ∀ v ∈ vecSrcs w n (regsOf sw), v.reg + v.count ≤ 256 ∧ (regsOf sw = 2 → v.reg % 2 = 0) := by
    intro v hv
    unfold vecSrcs at hv
    simp only [List.mem_append] at hv
    have ha := w.a.isLt
    have hb := w.b.isLt
    have hc := w.c.isLt
    have hreg : regsOf sw = 1 ∨ regsOf sw = 2 := by unfold regsOf; split <;> simp
    have h64 : regsOf sw = 2 → sw = 64 := by unfold regsOf; split <;> simp_all
    rcases hv with (hv | hv) | hv
    all_goals
      split at hv
      · simp only [List.mem_singleton] at hv
        subst hv
        refine ⟨?_, fun h2 => ?_⟩
        · rcases hreg with h1 | h1
          · simp only [h1]; omega
          · have := h.1 (h64 h1); simp only [h1]; omega
        · have := h.1 (h64 h2); simp only; omega
      · simp at hv
  refine { srcs := fun v hv => (hsrc v hv).1, dsts := ?_, evens := ?_, quads := ?_, aligned := ?_ }
  · intro d hd
    simp only [vecUseOf] at hd
    split at hd
    · simp at hd
    · simp only [List.mem_singleton] at hd
      subst hd
      have := w.d.isLt
      by_cases h64 : dw = 64
      · have := h.2 h64; simp only [regsOf, h64, if_true]; omega
      · simp only [regsOf, h64, if_false]; omega
  · intro r hr
    simp only [vecUseOf, List.mem_append] at hr
    rcases hr with hr | hr
    · split at hr
      · next h2 =>
        simp only [List.mem_map] at hr
        obtain ⟨v, hv, rfl⟩ := hr
        exact (hsrc v hv).2 h2
      · simp at hr
    · split at hr
      · next h2 => simp only [List.mem_singleton] at hr; subst hr; exact h.2 h2
      · simp at hr
  · intro r hr; simp [vecUseOf] at hr
  · intro r hr; simp [vecUseOf] at hr

theorem destV_fits {w : VecW} {sw dw : Nat} (h : EvenV w sw dw) : w.d.toNat + regsOf dw ≤ 256 := by
  have := w.d.isLt
  by_cases h64 : dw = 64
  · have := h.2 h64; simp only [regsOf, h64, if_true]; omega
  · simp only [regsOf, h64, if_false]; omega

/-- A source of a layout V word is the operand that the spec gives it. -/
theorem vecSrc_eq {cu : Cur} {g : Gang} {wg : Wg} {u : WordUse} (w : VecW) (n wd k l : Nat) :
    vecSrc (ctxC cu g wg u) w n wd k l = operandV g w n wd k l := by
  unfold vecSrc operandV immSrc
  by_cases h : w.i = 1 ∧ k + 1 = n
  · simp [h]
  · have h' : ¬ ((decide (w.i = 1) && decide (k + 1 = n)) = true) := by simpa using h
    simp only [h, h', if_false]
    match k with
    | 0 => rfl
    | 1 => rfl
    | k + 2 => simp; rfl

theorem actOf_eq {cu : Cur} {g : Gang} {wg : Wg} {u : WordUse} {gd : BitVec 4} (h : u.active = guardOf gd) :
    (ctxC cu g wg u).act = actOf g cu u.collective gd := by
  simp only [ctxC, actOf, h]; rfl

theorem vw_lt (g : Gang) (wd l r : Nat) : g.vw wd l r < 2 ^ (if wd = 64 then 64 else 32) := by
  unfold Gang.vw
  split
  · exact BitVec.isLt _
  · exact BitVec.isLt _

theorem operandV_lt (g : Gang) (w : VecW) (n wd k l : Nat) : operandV g w n wd k l < 2 ^ (if wd = 64 then 64 else 32) := by
  unfold operandV
  split
  · split
    · next h => rw [h.1]; exact BitVec.isLt _
    · have := w.imm.isLt
      by_cases h : wd = 64
      · rw [if_pos h]; omega
      · rw [if_neg h]; exact this
  · split
    · exact vw_lt ..
    · split <;> exact vw_lt ..

/-- An integer word of the shared shape has the result that a claim gives it, where the two agree on images. -/
theorem IntegerWord.of {mk : VecW → Instr} {n : Nat} {d32 : Bool} {f f' : VecW → Bool → Nat → Nat → Nat → Nat → Nat}
    (hx : ∀ w s, exec (mk w) s = intWord (mk w) w n d32 (f' w) s)
    (ht : ∀ w, (mk w).staticCheck = none → Fmt.ints.contains w.t = true)
    (hf : ∀ w sg wd a b c, wd = 32 ∨ wd = 64 → a < 2 ^ wd → b < 2 ^ wd → c < 2 ^ wd →
      f' w sg wd a (if 2 ≤ n then b else 0) (if 3 ≤ n then c else 0) = f w sg wd a b c
      ∧ f w sg wd a b c < 2 ^ (if d32 then 32 else wd)) : IntegerWord mk n d32 f := by
  intro s cu g wg w hc hwf he
  have hs := staticCheck_of_wf hwf
  have hwd := width_of_ints (ht w hs)
  have e1 : (if widthOf w.t = 64 then 64 else 32) = widthOf w.t := by rcases hwd with h | h <;> simp [h]
  have hb : ∀ k l, operandV g w n (widthOf w.t) k l < 2 ^ widthOf w.t := by
    intro k l; have := operandV_lt g w n (widthOf w.t) k l; rwa [e1] at this
  rw [hx]
  unfold intWord
  have e2 : 2 ^ (if (if d32 = true then 32 else widthOf w.t) = 64 then 64 else 32) = 2 ^ (if d32 = true then 32 else widthOf w.t) := by
    cases d32 <;> rcases hwd with h | h <;> simp [h]
  obtain ⟨t, h', h1, h2, h3, h4, h5, h6⟩ := vec_calm (chk := noChk) (k := 1)
    (val := fun c l => f' w (signedOf w.t) (widthOf w.t) (vecSrc c w n (widthOf w.t) 0 l)
      (if 2 ≤ n then vecSrc c w n (widthOf w.t) 1 l else 0) (if 3 ≤ n then vecSrc c w n (widthOf w.t) 2 l else 0))
    hc hs (vecUse_fits (n := n) (p := false) he) rfl (destV_fits he) rfl (by
      intro l
      simp only [vecSrc_eq]
      have := hf w (signedOf w.t) (widthOf w.t) _ _ _ hwd (hb 0 l) (hb 1 l) (hb 2 l)
      rw [this.1, e2]; exact this.2)
  refine ⟨t, h', h1, h2, ?_, h5, h6, h4⟩
  rw [actOf_eq (gd := w.g) rfl] at h3
  simp only [vecSrc_eq] at h3
  refine ⟨fun l hl => ?_, h3.2⟩
  rw [h3.1 l hl]
  exact (hf w (signedOf w.t) (widthOf w.t) _ _ _ hwd (hb 0 l) (hb 1 l) (hb 2 l)).1

/-! ### Floating-point words -/

/-- Every lane of a mask. -/
theorem all_on (act : LaneMask) : act &&& maskWhere (fun _ => true) = act := by
  have : maskWhere (fun _ => true) = BitVec.allOnes 32 := by decide
  rw [this, BitVec.and_allOnes]
theorem evenV32 (w : VecW) : EvenV w 32 32 := ⟨fun h => by omega, fun h => by omega⟩
/-- A floating-point word of the shared shape. -/
theorem FloatWord.of {mk : VecW → Instr} {n : Nat} {mods : Bool} {f : VecW → Bool → Rnd → Nat → Nat → Nat → FRes}
    (f' : VecW → Bool → Rnd → Nat → Nat → Nat → FRes)
    (hx : ∀ w s, exec (mk w) s = fpWord (mk w) w n mods (f' w) s)
    (hf : ∀ w fz r a b c, b < 2^32 ∨ 2 ≤ n ∧ mods = true  → f' w fz r a (if 2 ≤ n then b else 0) (if 3 ≤ n then c else 0) = f w fz r a b c) (h2 : mods = true → 2 ≤ n) :
    FloatWord mk n mods f := by
  intro s cu g wg w hc hwf _
  have hs := staticCheck_of_wf hwf
  rw [hx]
  unfold fpWord
  let val : Ctx → Nat → Nat := fun c l => (let (a, b, x) := fpSrcs c w n mods l; (f' w c.r.fz (rndOf w.rm 0 l 0) a b x).1 % 2^32)
  let fl : Ctx → Nat → Flg := fun c l => (let (a, b, x) := fpSrcs c w n mods l; (f' w c.r.fz (rndOf w.rm 0 l 0) a b x).2)
  have e : (fun (c : Ctx) (g : Gang) (l : Nat) => (let (a, b, x) := fpSrcs c w n mods l; g.setF l w.d.toNat (f' w c.r.fz (rndOf w.rm 0 l 0) a b x)))
      = fun c g l => (g.setVw 32 l w.d.toNat (val c l)).raise (fl c l) := by
    funext c g l
    simp only [Gang.setF, Gang.setVw, val, fl]
    have : ∀ x, BitVec.ofNat 32 (x % 2^32) = BitVec.ofNat 32 x := by intro x; apply BitVec.eq_of_toNat_eq; simp
    simp only [this]; rfl
  rw [e]
  obtain ⟨t, h', k1, k2, k3, k4, k5, k6⟩ := vecFlags_calm (chk := noChk) (k := 1) (val := val) (fl := fl) hc hs
    (vecUse_fits (n := n) (p := false) (evenV32 w)) rfl (destV_fits (evenV32 w)) rfl (by
      intro l; simp only [val]; exact Nat.mod_lt _ (by decide))
  rw [actOf_eq (gd := w.g) rfl] at k3 k4
  have er : ∀ l, (let (a, b, x) := fpSrcs (ctxC cu g wg (vecUseOf w n 32 32)) w n mods l; (f' w g.fz (rndOf w.rm 0 l 0) a b x)) = floatRes mods n f g w l := by
    intro l
    simp only [fpSrcs, vecSrc_eq, floatRes, floatArg]
    cases hm : mods
    · simp only [Bool.false_eq_true, if_false]
      exact hf _ _ _ _ _ _ (.inl (operandV_lt ..))
    · have hn := h2 hm
      simp only [if_true, hn]
      rw [← hf]
      · simp [operandF, hn]
      · exact .inr ⟨hn, hm⟩
  refine ⟨t, h', k1, k2, ?_, ?_, k5, k6⟩
  · show WroteV g h' (actOf g cu false w.g &&& maskWhere (fun _ => true)) _ _ _
    rw [all_on]
    refine ⟨fun l hl => ?_, k3.2⟩
    rw [k3.1 l hl]; exact congrArg (fun x : FRes => x.1 % 2^32) (er l)
  · intro i
    rw [k4 i]
    congr 1
    congr 1
    funext l
    exact congrArg (fun x : FRes => x.2.getLsbD i) (er l)

/-! ### Long-latency words -/

theorem produced_calm {s : State} {cu : Cur} {g : Gang} {w : Wg} {i : Instr} {u : WordUse} {chk : Ctx → State → Check}
    {n : Nat} {ready : Bool} {ds : Ctx → List Dest} {fl : Ctx → Flg} (h : Calm s cu g w) (hs : i.staticCheck = none)
    (hu : Fits u) (hn : u.words = n) (hc : chk (ctxC cu g w u) s = .ok) :
    ∃ t, coreWord i u chk (onGang fun c g => g.addProducer (ds c) ready (fl c)) s = .next t ∧
      Produced s t cu g u.collective n (ctxC cu g w u).act ready (ds (ctxC cu g w u)) (fl (ctxC cu g w u)) := by
  obtain ⟨t, ht, ho, hg⟩ := onGang_calm (F := fun c g => g.addProducer (ds c) ready (fl c)) h hs hu hc
  obtain ⟨p, a, sc, ic, li, uo, sl, p1, p2⟩ := passed_keep (c := ctxC cu g w u) (u := u) s.cycle h.ord
  have p3 : PcsMoved g ((g.charged s.cycle).passed (ctxC cu g w u) u) (grpOf g cu u.collective) (cu.after n) :=
    PcsMoved.passed s.cycle n hn
  rw [p1] at hg p3
  refine ⟨t, ht, _, hg, ho, ?_, ?_, ?_, ?_, ?_, ?_⟩ <;> split
  · exact p3
  · exact p3
  · simp only [h.empty, h.prods]
  · simp only [h.empty, h.prods, Gang.addProducer]
  · exact p2
  · exact p2
  · exact h.empty
  · simp only [Gang.addProducer, h.empty]
  · exact h.prods
  · simp only [Gang.addProducer, h.prods]; rfl
  · rfl
  · simp only [Gang.addProducer]

/-- A long-latency floating-point word of the shared shape. -/
theorem FloatLong.of {mk : VecW → Instr} {n : Nat} {f : Bool → Rnd → Nat → Nat → FRes} (f' : Bool → Rnd → Nat → Nat → FRes)
    (hx : ∀ w s, exec (mk w) s = fpLong (mk w) w n f' s)
    (hf : ∀ fz r a b, f' fz r a (if 2 ≤ n then b else 0) = f fz r a b) : FloatLong mk n f := by
  intro s cu g wg w hc hwf
  have hs := staticCheck_of_wf hwf
  rw [hx]
  unfold fpLong
  obtain ⟨t, h1, h2⟩ := produced_calm (chk := noChk) (n := 1) (u := vecUseOf w n 32 32 true) (ready := true)
    (ds := fun c =>
      let res (l : Nat) : FRes := let (a, b, _) := fpSrcs c w n false l; f' c.r.fz (rndOf w.rm 0 l 0) a b
      vdests c w.d.toNat 1 (fun l _ => BitVec.ofNat 32 (res l).1) fun _ => false)
    (fl := fun c =>
      let res (l : Nat) : FRes := let (a, b, _) := fpSrcs c w n false l; f' c.r.fz (rndOf w.rm 0 l 0) a b
      (lanesOf c.act).foldl (fun fl l => fl ||| (res l).2) 0)
    hc hs (vecUse_fits (evenV32 w)) rfl rfl
  refine ⟨t, h1, ?_⟩
  rw [actOf_eq (gd := w.g) rfl] at h2
  have e : ∀ l, f' g.fz (rndOf w.rm 0 l 0) (vecSrc (ctxC cu g wg (vecUseOf w n 32 32 true)) w n 32 0 l)
      (if 2 ≤ n then vecSrc (ctxC cu g wg (vecUseOf w n 32 32 true)) w n 32 1 l else 0)
      = f g.fz (rndOf w.rm 0 l 0) (operandV g w n 32 0 l) (operandV g w n 32 1 l) := by
    intro l; simp only [vecSrc_eq]; exact hf _ _ _ _
  have hd : ∀ (x : Nat), BitVec.setWidth 64 (BitVec.ofNat 32 x) = BitVec.ofNat 64 (x % 2 ^ 32) := by
    intro x; apply BitVec.eq_of_toNat_eq; simp
  have ea : (ctxC cu g wg (vecUseOf w n 32 32 true)).act = actOf g cu false w.g := actOf_eq (gd := w.g) rfl
  have er : (ctxC cu g wg (vecUseOf w n 32 32 true)).r = g := rfl
  simp only [vdests, fpSrcs, Bool.false_eq_true, if_false, er, e, ea, hd, List.range_one, List.map_cons, List.map_nil, Nat.add_zero] at h2
  have e2 : ∀ (ls : List Nat) (F : Nat → Dest), (ls.flatMap fun l => [F l]) = ls.map F := by
    intro ls F; induction ls with
    | nil => rfl
    | cons a ls ih => simp [ih]
  rw [e2] at h2
  exact h2

/-! ### Scalar words -/

/-- A scalar word of the shared shape. -/
theorem ScalarWord.of {mk : ScalW → Instr} {n : Nat} {val : ScalW → W64 → W64 → W64 → W64} (f : ScalW → W64 → W64 → W64 → W64)
    (hx : ∀ w s, exec (mk w) s = scalWord (mk w) w n (f w) s)
    (hf : ∀ w a b c, f w a (if 2 ≤ n then b else 0) (if 3 ≤ n then c else 0) = val w a b c) : ScalarWord mk n val := by
  intro s cu g wg w hc hwf x
  have hs := staticCheck_of_wf hwf
  rw [hx]
  unfold scalWord
  have hu : Fits (scalUseOf w n) :=
    { srcs := by simp [scalUseOf], dsts := by simp [scalUseOf], evens := by simp [scalUseOf], quads := by simp [scalUseOf],
      aligned := by simp [scalUseOf] }
  obtain ⟨t, h, h1, h2, h3, h4⟩ := scal_calm (chk := noChk) (k := 1) (n := w.sd.toNat)
    (val := fun c => f w (scalSrc c w n 0) (if 2 ≤ n then scalSrc c w n 1 else 0) (if 3 ≤ n then scalSrc c w n 2 else 0))
    hc hs hu rfl rfl
  refine ⟨t, h, h1, h2, ?_, h4⟩
  rw [actOf_eq (gd := w.g) rfl] at h3
  have e : ∀ k, k < 3 → scalSrc (ctxC cu g wg (scalUseOf w n)) w n k = x k := by
    intro k hk
    unfold scalSrc
    simp only [x]
    by_cases hi : w.i = 1 ∧ k + 1 = n
    · simp [hi]
    · have hi' : ¬ ((decide (w.i = 1) && decide (k + 1 = n)) = true) := by simpa using hi
      simp only [hi, hi', if_false]
      interval_cases k <;> rfl
  rw [e 0 (by omega), e 1 (by omega), e 2 (by omega), hf] at h3
  exact h3

end Sys2Proof.Machine
end

