-- ==== Sys2Proof/Tests/Slice0.lean ====
section
/-! SUPPORT. Tests: ill-formed words that the checks refuse, words that the spec writes out, worked examples of the spec, and
for each statement a state and operands that meet its hypotheses. -/

namespace Sys2Proof.Tests
open Sys2Proof Sys2Proof.Machine

set_option maxRecDepth 100000
set_option Elab.async false

/-! ### Words of zeros -/

def c0 : CtrlW := .unpack 0
def k0 : ScalW := .unpack 0
def v0 : VecW := .unpack 0
def m0 : MemW := .unpack 0
def x0 : MmaW := .unpack 0
def a0 : MacroW := .unpack 0
def y0 : SyncW := .unpack 0
def e0 : EngW := .unpack 0
def t0 : TaskW := .unpack 0
def h0 : HalfW := .unpack 0

/-! ### Ill-formed words (03 R72 and the rules of each word) -/

/-- Words that no encoding gives: a continuation that is not there, a count of bindings that is wrong, a code that is another
constructor's. -/
theorem test_wf_no_encoding :
    [Instr.mma { x0 with fa := 2, fb := 2 } 1, .cecopy e0 1, .tlaunch { t0 with nb := 1 } [], .mcode 0x3F a0,
     .bin { a0 with mods := 2 }, .binPop a0, .barc { y0 with aux := 1 }, .barcFinal y0,
     .vpair { sh := 0, rsv := 0, x := { h0 with cop := 0x7F }, y := h0 },
     .illegalEncoding 1].all (fun i => !i.wf) = true := by decide

/-- Subcodes of ill-formed words: reserved field, immediate use, modifier, format, continuation (03 Table 35). -/
theorem test_wf_subcodes :
    (Instr.nop { c0 with rsv1 := 1 }).wf = false ∧ (Instr.bra { c0 with i := 1 }).wf = false
    ∧ (Instr.sadd { k0 with aux := 1 }).staticCheck = some 3 ∧ (Instr.smovi k0).wf = false
    ∧ (Instr.mov { v0 with t := 0xA, i := 1 }).staticCheck = some 3 ∧ (Instr.icmp { v0 with t := 0xA, u := 6 }).staticCheck = some 4
    ∧ (Instr.iabs { v0 with t := 0xE }).staticCheck = some 4 ∧ (Instr.fadd { v0 with rm := 7 }).wf = false
    ∧ (Instr.rcp { v0 with rm := 1 }).staticCheck = some 4 ∧ (Instr.ld { m0 with wd := 7 }).wf = false
    ∧ (Instr.atom { m0 with wd := 0 }).wf = false ∧ (Instr.mma { x0 with fa := 9, fb := 9 } 0).wf = false
    ∧ (Instr.mldt { x0 with fa := 0xF }).wf = false ∧ (Instr.rast { a0 with mods := 2 }).staticCheck = some 4
    ∧ (Instr.bin { a0 with vo := 1 }).wf = false ∧ (Instr.barc { y0 with aux := 2 }).staticCheck = some 4
    ∧ (Instr.cntrd y0).staticCheck = some 4 ∧ (Instr.cecopy { e0 with rsv := 1 } 0).wf = false
    ∧ (Instr.tpresent t0).staticCheck = some 4 ∧ (Instr.tlaunch { t0 with nb := 9 } []).wf = false
    ∧ (Instr.vpair { sh := 0, rsv := 1, x := h0, y := h0 }).wf = false := by decide

/-! ### Words that the spec writes out (beside those of Obligations.DecodeSampleWords) -/

/-- 07 R177. -/
theorem test_decode_ord : decodeTableWord 128 0x50600000000000000026000000000000
    = some (.ord { m0 with od := 2, sc := 3 }) := by decide +kernel
/-- 13. -/
theorem test_decode_waitc : decodeTableWord 128 0x50803C00003E00251800400000000000
    = some (.waitc { m0 with vd := 0x3C, vb := 0x3E, sb := 9, sp := 1, wd := 3, cm := 1 }) := by decide +kernel
/-- 19. -/
theorem test_decode_mma_mixed : decodeTableWord 256 0xF70004600000000000000000000000007000000810180C000000250000000000
    = some (.mma { x0 with va := 8, vb := 0x10, vst := 0x18, sk := 3, fa := 2, fb := 5 } 0x000460000000000000000000000000) := by decide +kernel
/-- 11. -/
theorem test_decode_rast_plain : decodeTableWord 128 0x80004008185000000000000000000000
    = some (.rast { a0 with vs := 0x40, vi := 8, vo := 0x18, s0 := 20 }) := by decide +kernel
/-- 09. -/
theorem test_decode_blend : decodeTableWord 128 0x80107A50705976000000000000000000
    = some (.blend { a0 with vs := 0x7A, vi := 0x50, vo := 0x70, s0 := 22, s1 := 23, s2 := 24 }) := by decide +kernel
/-- 10. -/
theorem test_decode_filt : decodeTableWord 128 0x802020283028C0000000000000000000
    = some (.filt { a0 with vs := 0x20, vi := 0x28, vo := 0x30, s0 := 10, s1 := 12 }) := by decide +kernel
/-- 10 R235. -/
theorem test_decode_trav : decodeTableWord 128 0x8030405868400000000000000000000C
    = some (.trav { a0 with vs := 64, vi := 88, vo := 104, s0 := 16, imm := 12 }) := by decide +kernel
/-- 10 R243. -/
theorem test_decode_bin_size : decodeTableWord 128 0x80407800005155804000000000000020
    = some (.bin { a0 with vs := 120, s0 := 20, s1 := 21, s2 := 22, mods := 1, imm := 32 }) := by decide +kernel
/-- 06 R151. -/
theorem test_decode_xclaim : decodeTableWord 128 0x90600000000000000010000000000038
    = some (.xclaim { y0 with i := 1, imm := 56 }) := by decide +kernel
/-- 13. -/
theorem test_decode_xgive : decodeTableWord 128 0x90700000000000000010000000000038
    = some (.xgive { y0 with i := 1, imm := 56 }) := by decide +kernel
/-- 12 R260. -/
theorem test_decode_barc : decodeTableWord 128 0x90100000000000000000000000000002
    = some (.barc { y0 with imm := 2 }) := by decide +kernel
/-- 13. -/
theorem test_decode_cecopy_acq : decodeTableWord 128 0xA0004524D55E03DD0000000000000000
    = some (.cecopy { e0 with ss := 17, sd := 18, sn := 19, sg := 21, sv := 23, acq := 1, ssp := 0, dsp := 1, fst := 0xEE, sig := 1 } 0) := by decide +kernel
/-- 20 R391. -/
theorem test_decode_tgroup : decodeTableWord 128 0xC1300001050000000000000000000000
    = some (.tgroup { t0 with ka := 4, kb := 5 }) := by decide +kernel
/-- 19. -/
theorem test_decode_tlaunch_binds : decodeTableWord 384 0xCFF45000800000000000000000000000CFF03005000000000000000000000000C0300002C14000020000000000000000
    = some (.tlaunch { t0 with ka := 11, kb := 1, kc := 16, nb := 2 }
      [{ mark := 0xCFF, mode := 0, t := 3, ko := 0, kl := 5, whole := 0, res := 0, rsv := 0 },
       { mark := 0xCFF, mode := 1, t := 5, ko := 0, kl := 0, whole := 1, res := 0, rsv := 0 }]) := by decide +kernel
/-- 16 Table 33, 03 R57, R58: unassigned opcodes, reserved classes and a missing continuation are refused. -/
theorem test_decode_refused :
    [decodeTableWord 128 0xB0000000000000000000000000000000, decodeTableWord 128 0x21C00000000000000000000000000000,
     decodeTableWord 128 0xF7000000000000000000000000000000, decodeTableWord 128 0xA0400000000000000000000000000000,
     decodeTableWord 128 0x80500000000000000000000000000000] = [none, none, none, none, none] := by decide +kernel

/-! ### A gang that issues the word at address 0 -/

def cu0 : Cur := { gang := 1, unit := 0, pc := 0, ext := none, snap := none, port := none }
def g0 : Gang := { newGang 1 0 32 256 0 0 0 0 0 [] [] with fresh := false, active := true }
def w0 : Wg := { wgZero 1 0 0 0 0 with gangs := [1] }
/-- One gang of 32 lanes on core partition 0, with these changes. -/
def one (g : Gang) (w : Wg) : State :=
  { State.reset.withFetchWord 128 0 with agenda := [], cur := some cu0, gangs := [(1, g)], wgs := [(1, w)] }
/-- Register r of lane l after the next state. -/
def regAfter (l r : Nat) : Host.Outcome State Fault Refusal → Option Nat
  | .next t => (t.gangs.find? 1).map fun g => (g.v l r).toNat
  | _ => none
/-- FPSTAT after the next state. -/
def fpAfter : Host.Outcome State Fault Refusal → Option Nat
  | .next t => (t.gangs.find? 1).map fun g => g.fpstat.toNat
  | _ => none
/-- An instruction answers a next state. -/
def goes : Host.Outcome State Fault Refusal → Bool
  | .next _ => true
  | _ => false
/-- The gang with lane 0 holding these values in v1, v2, ... -/
def lane0 (xs : List W32) : Gang :=
  { g0 with vr := (List.range xs.length).foldl (fun m i => m.put 0 (vkey 0 (i + 1)) (xs.getD i 0)) [] }

/-! ### Worked examples of the spec -/

/-- 04 R81: under SI32, IADD.SAT of 0x7FFF_FFFF and 1 gives 0x7FFF_FFFF, and IADD 0x8000_0000. -/
theorem test_iadd_sat :
    (let s := one (lane0 [0x7FFFFFFF, 1]) w0
     let w : VecW := { v0 with d := 3, a := 1, b := 2, t := 0xA }
     (regAfter 0 3 (exec (.iadd { w with u := 1 }) s), regAfter 0 3 (exec (.iadd w) s))) = (some 0x7FFFFFFF, some 0x80000000) := by
  decide +kernel
/-- 04 R82: BFE.SI32 of 0x0F00 with o = 8 and n = 4 gives 0xFFFF_FFFF. -/
theorem test_bfe :
    regAfter 0 4 (exec (.bfe { v0 with d := 4, a := 1, b := 2, c := 3, t := 0xA }) (one (lane0 [0xF00, 8, 4 * 256]) w0))
      = some 0xFFFFFFFF := by decide +kernel
/-- 03 R49: v5.rot3 in lane 30 reads lane 1; v5.mir2 in lane 6 reads lane 5. -/
theorem test_permutes : (permSrc 0x23 30, permSrc 0x82 6) = (1, 5) := by decide
/-- 04 R90: FFRACT of −2^−30 gives 0x3F7F_FFFF. -/
theorem test_ffract : (fFract false .rne 0xB0800000).1 = 0x3F7FFFFF := by decide +kernel
/-- 02 R36: −300.7 to SI8 gives −128 with NV; 500.0 to E4M3 gives 0x7E with OF and NX. -/
theorem test_cvt_clamps :
    (convTo Fmt.si8 .rne (valueOf Fmt.fp32 0xC396599A), convTo Fmt.e4m3 .rne (valueOf Fmt.fp32 0x43FA0000))
      = ((0x80, fNV), (0x7E, fOF ||| fNX)) := by decide +kernel
/-- 04 R97: the quarter 3.0, −0.5, 1.0, 0.0, 2.5, −3.0, 0.0625, 1.75 quantizes with the scale byte 0x78 and no flag. -/
theorem test_qnt :
    (let xs : List W32 := [0x40400000, 0xBF000000, 0x3F800000, 0, 0x40200000, 0xC0400000, 0x3D800000, 0x3FE00000]
     let g : Gang := { g0 with vr := (List.range 8).foldl (fun m l => m.put 0 (vkey l 1) (xs.getD l 0)) [] }
     let o := exec (.qnt { v0 with d := 2, a := 1, t := 3 }) (one g w0)
     ((List.range 8).map fun l => regAfter l 2 o, regAfter 0 3 o, fpAfter o))
      = ([0x7C, 0xE8, 0x70, 0, 0x7A, 0xFC, 0x50, 0x76].map some, some 0x78, some 0) := by decide +kernel
/-- 06 Table 51. -/
def table51 : Gang :=
  let status : BitVec 64 := BitVec.ofNat 64 ((List.range 8).foldl (fun a l => a + 4 ^ l * (if l = 3 then 2 else 1)) 0)
  let vr : SMap W32 := (List.range 8).foldl (fun (m : SMap W32) l =>
    (m.put 0 (vkey l 1) (if l = 3 then 40 else BitVec.ofNat 32 (l + 1))).put 0 (vkey l 3) (BitVec.ofNat 32 (7 - l))) []
  let g1 : Gang := { newGang 1 0 8 256 0 0 0 0 0 [] vr with fresh := false, active := true, status := status }
  [0, 4, 5, 7].foldl (fun g l => g.setP l 1 true) ([0, 1, 2, 4, 6, 7].foldl (fun g l => g.setP l 2 true) g1)
theorem test_table51 :
    (let s := one table51 w0
     let at_ (i : Instr) (r : Nat) : List (Option Nat) := [0, 1, 2, 4, 5, 6, 7].map fun l => regAfter l r (exec i s)
     [at_ (.shfl { v0 with g := 2, d := 2, a := 1, b := 3, t := 0xA }) 2,
      at_ (.shfl { v0 with g := 2, d := 4, a := 1, i := 1, imm := 20, t := 0xA }) 4,
      at_ (.redadd { v0 with g := 2, d := 5, a := 1, t := 0xA }) 5,
      at_ (.ballot { v0 with g := 2, d := 6, u := 1, t := 0xE }) 6])
      = [[8, 7, 6, 40, 0, 2, 1], [0, 0, 0, 0, 0, 0, 0], [26, 26, 26, 26, 0, 26, 26],
         [0x91, 0x91, 0x91, 0x91, 0, 0x91, 0x91]].map (List.map some) := by decide +kernel
/-- 09 R226, R227: (1, 0, 0, 0.5) blended over the RGBA8 pixel (0, 0, 255, 255). -/
theorem test_blend_pixel :
    blendElem 0 0x1F071076 0 (fun i => [0x3F800000, 0, 0, 0x3F000000].getD i 0) 0xFFFF0000 = 0xFF800080 := by decide +kernel
/-- 12 R273: LIMIT = 100 and GSTEP = 300 give GAP = 2 and WAVE = 1. -/
theorem test_slope :
    (match exec (.slopeWrite 0 (100 + 300 * 65536)) State.reset with
     | .next t => (t.creg (.cluster 0) 8).toNat
     | _ => 0) = 100 + 300 * 2 ^ 16 + 1 * 2 ^ 32 + 2 * 2 ^ 40 := by decide +kernel
/-- 17 R345: a victim of 3 gangs with base 64, no tile and 8,192 bytes of scratchpad: each having issued 10,000
words of est 40,000: t_d 12,000, t_s 624, t_f 500 ns. -/
theorem test_preempt_estimates :
    (let g (i n : Nat) : Nat × Gang := (i, { g0 with idx := i - 1, base := 64, issuecnt := BitVec.ofNat 64 n })
     let w : Wg := { w0 with count := 3, gangs := [1, 2, 3], scrLen := 8192 }
     let s0 := one g0 w
     let s : State := { s0 with gangs := [g 1 10000, g 2 10000, g 3 10000], launches := s0.launches.mapVals fun L => { L with est := 40000 } }
     (s.drainEst w, s.saveEst w, s.flushEst w)) = (12000, 624, 500) := by decide +kernel
/-- 05 R134, 04 R106: a TRAP of 32 lanes writes the saved registers and moves the lanes to TRAPBASE. -/
theorem test_trap_entry :
    (match exec (.trap { c0 with imm := 7 }) (one { g0 with trapbase := 0x1000 } w0) with
     | .next t => (t.gangs.find? 1).map fun g => (g.handler, g.trapcause, g.trappc, g.trapaddr, g.pcOf 31)
     | _ => none) = some (true, 0x0E, 16, 7, 0x1000) := by decide +kernel
/-- The word of zeros, a NOP, runs as the first word after reset; so does a TNOP. -/
theorem test_first_step :
    (goes (step (State.reset.withFetchWord 128 0)), goes (step (State.reset.withFetchWord 128 (0xC * 2 ^ 124)))) = (true, true) := by
  decide +kernel

/-! ### States and operands that meet the hypotheses of the statements -/

/-- `Calm` as a test. -/
def calmB (s : State) (cu : Cur) (g : Gang) (w : Wg) : Bool :=
  s.cur = some cu && cu.ext = none && cu.snap = none && s.gangs.find? cu.gang = some g && s.wgs.find? g.wg = some w
    && g.groupAt cu.unit cu.pc false != 0 && g.ord = none && g.empty = [] && g.poison = [] && g.base + g.xcount = 256
    && g.prods = [] && s.absentAcc = none
theorem calm_of {s : State} {cu : Cur} {g : Gang} {w : Wg} (h : calmB s cu g w = true) : Calm s cu g w := by
  simp only [calmB, Bool.and_eq_true, decide_eq_true_eq, bne_iff_ne, and_assoc] at h
  obtain ⟨a, b, c, d, e, f, i, j, k, l, m, n⟩ := h
  exact ⟨a, b, c, d, e, f, i, j, k, l, m, n⟩
/-- A gang that all words of these tests find calm, its handler at 0x1000, and a register file of zeros. -/
def gH : Gang := { g0 with trapbase := 0x1000 }
theorem calm_g0 : Calm (one g0 w0) cu0 g0 w0 := calm_of (by decide +kernel)
theorem calm_gH : Calm (one gH w0) cu0 gH w0 := calm_of (by decide +kernel)
theorem handler_gH : HasHandler gH := by unfold HasHandler; decide
/-- Every word of a list is well formed and goes on in the calm state. -/
def ready (is : List Instr) : Bool := is.all fun i => i.wf && goes (exec i (one g0 w0))

def vi (t : BitVec 4) : VecW := { v0 with d := 254, a := 254, t := t }
theorem witness_IntegerArithmetic :
    EvenV (vi 0xB) 64 64 ∧ ready [.iadd { vi 0xB with b := 252, u := 1 }, .isub { vi 0xB with b := 252 }, .imul { vi 0xB with b := 252 },
      .imulh { vi 0xF with b := 252 }, .imad { vi 0xB with b := 252, c := 250 }, .imin { vi 0xB with b := 252 },
      .imax { vi 0xF with b := 252 }, .iabs { vi 0xB with u := 1 }, .ineg { vi 0xF with u := 1 },
      .iaddsh { vi 0xB with b := 252, u := 15 }] = true :=
  ⟨⟨fun _ => by decide, fun _ => by decide⟩, by decide +kernel⟩
theorem witness_IntegerBits :
    EvenV (vi 0xB) 64 64 ∧ ready ([Instr.and, .or, .xor, .shl, .shr, .sra, .rot].map (fun f => f { vi 0xB with b := 252 })
      ++ [Instr.not, .clz, .popc, .brev, .mov].map (fun f => f (vi 0xB))
      ++ [Instr.bfe, .bfi].map (fun f => f { vi 0xB with b := 252, c := 250 }) ++ [.movi { v0 with t := 0xB, i := 1, imm := -1 }]) = true :=
  ⟨⟨fun _ => by decide, fun _ => by decide⟩, by decide +kernel⟩
theorem witness_CompareAndSelect :
    EvenV { vi 0xB with d := 0 } 64 32 ∧ ready [.icmp { v0 with a := 254, b := 252, t := 0xB, u := 0, pd := 7 },
      .icmp { v0 with a := 254, b := 252, t := 0xF, u := 5 }, .sel { vi 0xB with b := 252, pd := 7 }] = true :=
  ⟨⟨fun _ => by decide, fun _ => by decide⟩, by decide +kernel⟩
theorem witness_IntegerArithmetic_dot : EvenV { vi 0xA with d := 255 } 32 32 ∧ ready [.idot4 { vi 0xA with d := 255, c := 255 }] = true :=
  ⟨⟨fun h => absurd h (by decide), fun h => absurd h (by decide)⟩, by decide +kernel⟩
theorem witness_MacroSteps_block :
    (∃ p ∈ [FVal.fin false 1 0, .fin true 3 (-2)], (2 : ℚ) ^ (0 : Int) ≤ |finValue p|)
    ∧ (∀ p ∈ [FVal.fin false 1 0, .fin true 3 (-2)], |finValue p| < (2 : ℚ) ^ ((0 : Int) + 1))
    ∧ (∀ p ∈ [FVal.fin true 0 5, .fin true 0 0], finValue p = 0) ∧ FVal.inf true ∈ [FVal.fin false 1 0, .inf true] := by
  refine ⟨⟨_, List.mem_cons_self, ?_⟩, ?_, ?_, by decide⟩ <;> norm_num [finValue, abs_of_pos, abs_of_neg]
theorem witness_MacroSteps_values :
    (FiniteIn fmtFp32 0x3F800000 ∧ FiniteIn fmtFp32 0x80000001 ∧ (List.range 3).map (fun k => Dy.ofF k) ≠ [] ∧ (0 : Int) < 1)
    ∧ ((0x10000076 : W64).getLsbD 28 = true ∧ ((0x10000076 : W64).extractLsb' 0 12).toNat = 0x076)
    ∧ FiniteIn fmtFp32 (fSub false .rne (fMul false .rne 0x3F800000 (convF fmtFp32 .rne (FVal.ofInt 16384)).1).1 0x3F000000).1
    ∧ FiniteIn fmtFp32 (nextF true 0x7F7FFFFE) ∧ FiniteIn fmtFp32 (nextF false 0) := by
  refine ⟨⟨?_, ?_, ?_, ?_⟩, ⟨?_, ?_⟩, ?_, ?_, ?_⟩ <;> (try unfold FiniteIn) <;> decide +kernel
/-- A ray from the origin along x, and boxes of it from 1 to 2 and from −2 to −1. -/
def ray0 : Ray := ⟨[0, 0, 0], [0x3F800000, 0, 0], 0, 0x7F800000, 0, 0, 0, 0, [], 0, 0, false⟩
theorem witness_MacroSteps_box :
    (boxHit ray0 fun k => [0x3F800000, 0, 0, 0x40000000, 0, 0].getD k 0).isSome = true
    ∧ boxHit ray0 (fun k => [0xC0000000, 0, 0, 0xBF800000, 0, 0].getD k 0) = none
    ∧ (0 < (binG 0 0x0001000000000101).tx ∧ 0 < (binG 0 0x0001000000000101).ty ∧ 0 < (binG 0 0x0001000000000101).tsz)
    ∧ (-2 ^ 25 ≤ (0xFE000000 : W32).toInt ∧ (0xFE000000 : W32).toInt < 2 ^ 25) := by decide +kernel
theorem witness_FloatWords :
    ready ([Instr.fadd, .fsub, .fmul, .fmin, .fmax].map (fun f => f { v0 with d := 255, b := 255, u := 0xF })
      ++ [.ffma { v0 with rm := 3 }, .fclass v0, .frnd { v0 with rm := 2 }, .fdot2 { v0 with t := 1 }, .fdot2 { v0 with t := 2 },
          .fscale v0, .ffract v0, .fcmp { v0 with u := 5, pd := 7 }]) = true := by decide +kernel
theorem witness_LongFloatWords :
    ready ([Instr.fdiv, .sqrt, .rcp, .rsq, .exp2, .log2, .sin, .cos, .tanh].map fun f => f { v0 with d := 255 }) = true := by
  decide +kernel
theorem witness_MinimumMaximumAndClass : (0xFFFFFFFF : Nat) < 2 ^ 32 := by decide
theorem witness_SpecialInputs : (0xFFFFFFFF : Nat) < 2 ^ 32 ∧ 0x7F800000 < 0x7F800001 % 2 ^ 31
    ∧ 0x80000000 < 0x80000001 ∧ 0x80000001 < 0xFF800000 := by decide
theorem witness_Conversions :
    EvenV { v0 with d := 254, t := 0xB, u := 0xF } 64 64 ∧ EvenV { v0 with d := 254, a := 255, t := 3 } 32 64 ∧
    ready [.cvt { v0 with d := 254, t := 0xB, u := 0xF }, .cvt { v0 with t := 2, rm := 4, s := 63 }, .pack { v0 with t := 1 },
      .pack { v0 with t := 3, i := 1 }, .unpack { v0 with u := 1, i := 1, imm := 1 }, .qnt { v0 with d := 254, a := 255, t := 3 },
      .dqnt { v0 with t := 4 }] = true :=
  ⟨⟨fun _ => by decide, fun _ => by decide⟩, ⟨fun h => absurd h (by decide), fun _ => by decide⟩, by decide +kernel⟩
theorem witness_LaneMoves :
    EvenX (vi 0xB) ∧ ready [.shfl { vi 0xB with b := 255 }, .slup { vi 0xB with s := 63 }, .sldn (vi 0xF), .cmprs { vi 0xA with u := 15 },
      .expnd { vi 0 with u := 8 }] = true := ⟨fun _ => by decide, by decide +kernel⟩
theorem witness_LaneMoves_push : EvenX (vi 0xB) ∧ ready [.push { vi 0xB with b := 255 }] = true := ⟨fun _ => by decide, by decide +kernel⟩
theorem witness_LaneVotes :
    EvenX { vi 0xF with d := 0 } ∧ ready [.ballot { v0 with t := 0xE, u := 15 }, .voteall { v0 with t := 0xE, pd := 7 },
      .voteany { v0 with t := 0xE }, .voteeq { v0 with a := 254, t := 0xF }, .matchLanes { vi 0xF with d := 0 },
      .actmask { v0 with t := 0xE }] = true := ⟨fun _ => by decide, by decide +kernel⟩
theorem witness_LaneFolds :
    EvenX (vi 0xB) ∧ ready [.redadd { vi 0xB with u := 1, s := 63 }, .redmin (vi 0), .redmax (vi 0xF), .scanadd { vi 0xB with u := 2 }] = true
    ∧ actOf g0 cu0 true 0 ≠ 0 ∧ Fmt.ints.contains (vi 0xB).t = true := ⟨fun _ => by decide, by decide +kernel, by decide, by decide⟩
theorem witness_ScalarWords :
    ready ([Instr.sadd, .ssub, .smul, .smulh, .sand, .sor, .sxor, .sshl, .sshr, .ssra, .smin, .smax, .slea].map
        (fun f => f { k0 with sd := 63, sa := 62, sb := 63 })
      ++ [Instr.smov, .ssel, .sclz, .spopc].map (fun f => f { k0 with sd := 63 }) ++ [.smovi { k0 with i := 1, imm := -1 },
      .scmp { k0 with aux := 0 }, .scmp { k0 with aux := 7 }, .smulh { k0 with aux := 1 }, .slea { k0 with aux := 15 }]) = true := by
  decide +kernel
theorem witness_ScalarMoves :
    ready [.smovi64 { k0 with sd := 63, i := 1, imm := -1 } 0xFFFFFFFF, .vtos { k0 with vr := 255, aux := 1 }, .stov { k0 with vr := 255 }]
      = true := by decide +kernel
theorem witness_PairWords :
    (copOf 0).isSome = true ∧ (copOf 0x40).isSome = true ∧
    ready [.vpair { sh := 0, rsv := 0, x := { h0 with cop := 0x20, d := 8, a := 1, b := 2 }, y := { h0 with cop := 0, d := 13, a := 3, b := 4 } },
      .vpair { sh := 0, rsv := 0, x := { h0 with cop := 0x20, d := 8, a := 1, b := 2 }, y := { h0 with cop := 0x40, d := 13, a := 3 } }]
      = true := by decide +kernel
theorem witness_QuietWords :
    g0.handler = false ∧ ready [.nop c0, .fuse c0, .yield c0, .pref { m0 with imm := 1 }, .invt m0, .ord { m0 with od := 1, sc := 0 },
      .ord { m0 with od := 4, sc := 4 }, .fence { m0 with od := 4, sc := 4 }, .fence { m0 with od := 1, sc := 0 }] = true := by decide +kernel
/-- Page 0 is a page of a peer. -/
def sPref : State :=
  { (one gH w0).setCreg (.part 0) 0x10000 (2 ^ 63) with tlb := [(tlbKey 0 0 0, { pte := 0x13, level := 16 })] }
/-- A PREF of a page of a peer never faults (07 R171). -/
theorem test_pref_peer :
    sPref.translate (tlbUnit w0.pid) w0.tenant .read 0 = .ok { kind := .peer 0, addr := 0 }
    ∧ (match exec (.pref { m0 with wd := 0 }) sPref with
      | .next t => (t.gangs.find? 1).map (·.handler)
      | _ => none) = some false := by decide +kernel
theorem witness_QuietWords_orders : Orders (one g0 w0) cu0 g0 True ∧ g0.fence = none ∧ 2 ≤ (2 : Nat) :=
  ⟨⟨fun _ h => absurd h List.not_mem_nil, fun _ => by decide +kernel⟩, rfl, by decide⟩
theorem witness_Rounding :
    Rnd.rp ∈ [Rnd.rne, .rz, .rp, .rm] ∧ FiniteIn fmtFp32 0x7F7FFFFF ∧ valueIn fmtFp32 0x3F800000 ≠ 0 ∧ 0 < valueIn fmtFp32 0x3F800000
    ∧ valueIn fmtFp16 1 ≠ 0 ∧ valueIn fmtFp32 0x3F800000 + valueIn fmtFp32 0xBF800000 = 0 := by
  refine ⟨by decide, by unfold FiniteIn; decide +kernel, ?_, ?_, ?_, ?_⟩ <;> norm_num [valueIn, fmtFp32, fmtFp16, FFmt.bias]

/-- Address 0 is a target of the line that the calm gang runs in. -/
theorem target0 : Target (one g0 w0) g0 w0 0 := ⟨by decide, rfl⟩
theorem witness_Branches :
    (c0.vd.toNat % 2 = 0 ∧ c0.va.toNat % 2 = 0) ∧ Target (one g0 w0) g0 w0 0 ∧
    ready [.bra c0, .brx { c0 with sa := 63 }, .call { c0 with vd := 254 }, .callx { c0 with vd := 254 }, .ret { c0 with va := 254 }]
      = true := ⟨by decide, target0, by decide +kernel⟩
theorem witness_ExitWord : (w0.groupSize = 0 ∨ w0.passedFinal = true) ∧ ready [.exit c0, .exit { c0 with g := 1 }] = true :=
  ⟨by decide, by decide +kernel⟩
theorem witness_TrapWords :
    HasHandler gH ∧ actOf gH cu0 false 0 ≠ 0 ∧ actOf gH cu0 false 1 = 0 ∧ ready [.trap c0, .brk { c0 with imm := -1 }] = true :=
  ⟨handler_gH, by decide, by decide, by decide +kernel⟩
/-- A gang in its handler. -/
def gT : Gang := { gH with handler := true, trapped := -1 }
theorem witness_NoHandlerTerminates :
    ¬HasHandler g0 ∧ ¬HasHandler gT ∧ (one g0 w0).gangs.find? 1 = some g0
    ∧ (one g0 w0).wgs.find? g0.wg = some w0 ∧ ((one g0 w0).launches.find? w0.launch).isSome = true ∧ w0.groupSize = 0
    ∧ (0x0E : Nat) ≠ 0x10 ∧ ({ one g0 w0 with fwCores := 8 } : State).fwUp 3 = true ∧ (one g0 w0).fwUp 3 = false
    ∧ (one g0 w0).terms = [] := by
  refine ⟨by unfold HasHandler; decide, by unfold HasHandler; decide, by decide +kernel, by decide +kernel, by decide +kernel, by decide,
    by decide, by decide +kernel, by decide +kernel, rfl⟩
/-- A gang with v1 of lane 0 empty. -/
def gE : Gang := { gH with empty := [vkey 0 1] }
theorem witness_WordsThatTrap :
    HasHandler gH ∧ (Instr.cntrd y0).staticCheck = some 4 ∧ ({ active := guardOf 0 } : WordUse).absent = false
    ∧ Calm (one gH w0) cu0 { gE with empty := [] } w0 ∧ (Instr.mov { v0 with a := 1, t := 0xA, ea := 1 }).wf = true
    ∧ EvenV { v0 with a := 1, t := 0xA, ea := 1 } 32 32 ∧ gE.empty = [vkey 0 1] ∧ HasHandler gE
    ∧ (actOf gE cu0 false 0).getLsbD 0 = true :=
  ⟨handler_gH, by decide, rfl, calm_gH, by decide, ⟨fun h => absurd h (by decide), fun h => absurd h (by decide)⟩, rfl,
    by unfold HasHandler; decide, by decide⟩
theorem witness_SpecialReads :
    g0.waits = [] ∧ ready [.sread { c0 with imm := 0x1B, sd := 63 }, .sread { c0 with vx := 1, vd := 255, imm := 0 }] = true :=
  ⟨rfl, by decide +kernel⟩
theorem witness_SpecialWrites :
    g0.waits = [] ∧ HasHandler gH ∧ gT.handler = true
    ∧ Calm (one gT w0) cu0 gT w0
    ∧ ready ([0x20, 0x30, 0x21, 0x23, 0x1B].map fun n => .swrite { c0 with imm := n }) = true :=
  ⟨rfl, handler_gH, rfl, calm_of (by decide +kernel), by decide +kernel⟩
theorem witness_ExceptionReturn :
    Calm (one gT w0) cu0 gT w0
    ∧ actOf gT cu0 false 0 ≠ 0 ∧ actOf gT cu0 false 1 = 0 ∧ HasHandler gH
    ∧ goes (exec (.eret c0) (one gT w0)) = true ∧ ready [.eret c0] = true :=
  ⟨calm_of (by decide +kernel), by decide, by decide, handler_gH, by decide +kernel, by decide +kernel⟩
theorem noRing {s : State} (h : s.cregs = []) (pid : Nat) : s.ringCount pid = 0 := by
  have z : cregReset (.core (coreOf pid)) (spoOff pid 2) = 0 := by
    have h : 0x180 ≤ spoOff pid 2 := by unfold spoOff; omega
    simp only [cregReset, Bool.and_eq_true, decide_eq_true_eq]
    rw [if_neg (fun x => by omega), if_neg (fun x => by omega)]
  simp [State.ringCount, State.spo, State.creg, h, z, fld, SMap.find?]
theorem witness_CallAndSleep :
    Calm { one g0 w0 with fwCores := 0xFF } cu0 g0 w0 ∧ w0.groupSize = 0
    ∧ ([0, 3].all fun c => ({ one g0 w0 with fwCores := 0xFF } : State).fwUp c) = true ∧ (∀ pid, ({ one g0 w0 with cregs := [] } : State).ringCount pid = 0)
    ∧ (∀ j q, (one g0 w0).gangs.find? j = some q → ∀ x ∈ q.waits, x.popping = false)
    ∧ ([0, 2, 3, 4, 0xFFFFFFFF].all fun n => (Instr.syscall { c0 with imm := n }).wf
        && goes (exec (.syscall { c0 with imm := n }) { one g0 w0 with fwCores := 0xFF })) = true
    ∧ ready [.sleep { c0 with i := 1, imm := 0 }, .sleep { c0 with i := 1, imm := -1 }] = true := by
  refine ⟨calm_of (by decide +kernel), by decide, by decide +kernel, noRing rfl, ?_, by decide +kernel, by decide +kernel⟩
  intro j q h x hx
  have : q = g0 := by
    simp only [one, SMap.find?] at h
    split at h
    · exact (Option.some.inj h).symm
    · exact absurd h (by simp)
  subst this
  exact absurd hx (by simp [g0, newGang])

theorem witness_CallAndSleep_orders :
    Orders { one g0 w0 with fwCores := 0xFF } cu0 g0 True
    ∧ ({ one g0 w0 with fwCores := 0xFF } : State).logPages (seen cu0 g0 w0 false 0) = .ok :=
  ⟨⟨fun _ h => absurd h List.not_mem_nil, fun _ => by decide +kernel⟩, by decide +kernel⟩

/-- A workgroup with a scratchpad of 64 KiB, in which all words of a lane of this gang reach address 0. -/
def wS : Wg := { w0 with scrLen := 65536 }
def place0 : Nat → Loc := fun _ => { kind := .scr 1, addr := 0 }
theorem calm_wS : Calm (one g0 wS) cu0 g0 wS := calm_of (by decide +kernel)
theorem reach0 (acc : AccKind) (wd : BitVec 3) (ls : List Nat) :
    LanesReach (one g0 wS) cu0 g0 wS { m0 with sp := 1, wd := wd } acc ls place0 := by
  refine ⟨fun h => absurd (show (1 : BitVec 2) = 3 from h) (by decide), fun l _ => ?_⟩
  have h : addrM g0 { m0 with sp := 1, wd := wd } l = 0 := rfl
  refine ⟨?_, trivial, rfl⟩
  rw [h]
  clear h
  exact ⟨Nat.zero_mod _, by revert wd; decide +kernel, rfl⟩
def readyS (is : List Instr) : Bool := is.all fun i => i.wf && goes (exec i (one g0 wS))
theorem witness_Loads :
    Calm (one g0 wS) cu0 g0 wS ∧ MemAligned { m0 with sp := 1, wd := 4 } 252
    ∧ LanesReach (one g0 wS) cu0 g0 wS { m0 with sp := 1, wd := 4, vd := 252 } .read (lanesOf (actOf g0 cu0 false 0)) place0
    ∧ readyS [.ld { m0 with sp := 1, wd := 4, vd := 252 }, .ldu { m0 with sp := 1, wd := 3, vd := 63 }] = true :=
  ⟨calm_wS, ⟨fun h => absurd h (by decide), fun _ => by decide⟩, reach0 .read 4 _, by decide +kernel⟩
theorem witness_Stores :
    Calm (one g0 wS) cu0 g0 wS ∧ Drained (one g0 wS) ∧ MemAligned { m0 with sp := 1, wd := 4 } 252
    ∧ LanesReach (one g0 wS) cu0 g0 wS { m0 with sp := 1, wd := 4, vd := 252 } .write (lanesOf (actOf g0 cu0 false 0)) place0
    ∧ (∀ l m : Nat, (place0 l).kind = (place0 m).kind) ∧ readyS [.st { m0 with sp := 1, wd := 4, vd := 252 }] = true :=
  ⟨calm_wS, ⟨rfl, rfl⟩, ⟨fun h => absurd h (by decide), fun _ => by decide⟩, reach0 .write 4 _, fun _ _ => rfl, by decide +kernel⟩
/-- The workgroup's slot plan owns slot 5 of vault 0, at which all addresses of this gang lie. -/
def wV : Wg := { w0 with slots := [5] }
def sV : State := (one g0 wV).setCreg (.part 0) 0x5000 0x8000
def placeV : Nat → Loc := fun _ => { kind := .vault, addr := 0 }
def mV (wd : BitVec 3) (vd vb : BitVec 8) : MemW := { m0 with sp := 3, wd := wd, vd := vd, vb := vb }
theorem ownV (wd : BitVec 3) (acc : AccKind) (vd vb : BitVec 8) (ls : List Nat) (hl : 0 ∈ ls) : LanesOwn sV cu0 g0 wV (mV wd vd vb) acc ls placeV := by
  refine ⟨fun l _ => ⟨?_, rfl⟩, .inr ⟨0, hl, (by decide +kernel : ¬sV.ownedSlots 0 { kind := .vault, addr := 0 } = [])⟩⟩
  have h : addrM g0 (mV wd vd vb) l = 0 := rfl
  rw [h]
  exact ⟨Nat.zero_mod _, by decide, by decide, 0, by decide +kernel, rfl⟩
theorem witness_OwnedVaultAccesses :
    Calm sV cu0 g0 wV ∧ actOf g0 cu0 false 0 ≠ 0 ∧ MemAligned (mV 3 254 252) 254 ∧ MemAligned (mV 3 254 252) 252
    ∧ LanesOwn sV cu0 g0 wV (mV 3 254 252) .write (lanesOf (actOf g0 cu0 false 0)) placeV ∧ LanesOwn sV cu0 g0 wV (mV 3 63 0) .read [0] placeV
    ∧ ([Instr.ld (mV 3 254 0), .ldu (mV 3 63 0), .st (mV 3 254 0), .atom (mV 3 254 252), .cas (mV 3 254 252), .red (mV 3 0 252)].all fun i =>
        i.wf && goes (exec i sV)) = true :=
  ⟨calm_of (by decide +kernel), by decide, ⟨fun _ => by decide, fun h => absurd h (by decide)⟩,
    ⟨fun _ => by decide, fun h => absurd h (by decide)⟩, ownV 3 .write 254 252 _ (by decide), ownV 3 .read 63 0 _ (by decide), by decide +kernel⟩
/-- A read of 4 bytes of vault 0 by core 0, whose slot is 5. -/
def vop0 (act : VaultAct) (sent : Option Nat) : VaultOp :=
  { core := 0, gang := 1, prod := 0, addr := 0, act := act, slots := [5], dist := 18, acq := none, sentAt := sent, performed := false }
theorem witness_VaultJourney :
    (vop0 (.read 4 false [0]) none).slots.contains (69 % 64) = true ∧ ({ sV with vops := [vop0 (.read 4 false [0]) (some 69)] } : State).gangs.find? 1 = some g0
    ∧ (0 < (vop0 (.write [7]) (some 69)).dist ∧ 69 + (vop0 (.write [7]) (some 69)).dist ≤ 87) ∧ [0].getD 0 0 = vkey 0 0 := by
  decide +kernel
theorem witness_Atomics :
    Calm (one g0 wS) cu0 g0 wS ∧ Drained (one g0 wS) ∧ MemAligned { m0 with sp := 1, wd := 3 } 254
    ∧ LanesReach (one g0 wS) cu0 g0 wS { m0 with sp := 1, wd := 3, vd := 254, vb := 254 } .write (lanesOf (actOf g0 cu0 false 0)) place0
    ∧ (∀ l m : Nat, (place0 l).kind = (place0 m).kind ∧
        (place0 l = place0 m → addrM g0 { m0 with sp := 1 } l = addrM g0 { m0 with sp := 1 } m))
    ∧ readyS [.atom { m0 with sp := 1, wd := 3, vd := 254, vb := 254, ao := 0 }, .red { m0 with sp := 1, wd := 3, vb := 254, ao := 6 },
        .cas { m0 with sp := 1, wd := 3, vd := 254, vb := 252 }] = true :=
  ⟨calm_wS, ⟨rfl, rfl⟩, ⟨fun _ => by decide, fun h => absurd h (by decide)⟩, reach0 .write 3 _, fun _ _ => ⟨rfl, fun _ => rfl⟩,
    by decide +kernel⟩
theorem witness_AtomicSteps :
    (64 : Nat) ∈ [32, 64] ∧ (2 ^ 64 - 1 : Nat) < 2 ^ 64 ∧ (∀ b ∈ [2 ^ 64 - 1, 0], b < 2 ^ 64) ∧ [1, 2].length = [2 ^ 64 - 1, 0].length := by
  decide
/-- At 0 the scratchpad holds 0: WAITC.EQ with 0 passes, WAITC.NE sleeps. -/
theorem witness_WaitWord :
    Calm (one g0 wS) cu0 g0 wS ∧ MemAligned { m0 with sp := 1, wd := 3, cm := 1 } 254
    ∧ LanesReach (one g0 wS) cu0 g0 wS { m0 with sp := 1, wd := 3, vd := 254, vb := 254 } .read [0] place0
    ∧ (one g0 wS).loadPoisoned (coreOf wS.pid) false (place0 0) 8 = false
    ∧ readyS [.waitc { m0 with sp := 1, wd := 3, vd := 254, vb := 254, cm := 0 }, .waitc { m0 with sp := 1, wd := 3, vd := 254, vb := 254, cm := 3 }]
      = true :=
  ⟨calm_wS, ⟨fun _ => by decide, fun h => absurd h (by decide)⟩, reach0 .read 3 _, by decide +kernel, by decide +kernel⟩
/-- A gang whose s3 holds K = 8. -/
def gK : Gang := { g0 with sr := [(3, 8)] }
def readyK (is : List Instr) : Bool := is.all fun i => i.wf && goes (exec i (one gK wS))
theorem witness_QuarterWords :
    g0.qops = [] ∧ Calm (one gK wS) cu0 gK wS ∧ readyK [.mma { x0 with fa := 2, fb := 2, vst := 40, sk := 3, as := 1, bs := 1 } 0,
      .tlma { x0 with vst := 40, sk := 3, as := 1, bs := 1 } 0, .tlpre { x0 with fa := 2, vst := 40, sk := 3, bs := 1 }] = true :=
  ⟨rfl, calm_of (by decide +kernel), by decide +kernel⟩
theorem witness_MatrixTiles_zero : (248 : Nat) % 8 = 0 ∧ ready [.mzero { x0 with vd := 248 }, .mzero { x0 with vd := 248, tr := 1, vst := 1 }] = true :=
  ⟨by decide, by decide +kernel⟩
theorem witness_MatrixTiles :
    Calm (one gK wS) cu0 gK wS ∧ ((gK.s 3).toNat % 8 = 0 ∧ 8 ≤ (gK.s 3).toNat ∧ (gK.s 3).toNat ≤ 65536)
    ∧ DescOk (gK.s 0) (gK.s 0) ∧ (252 : Nat) + (16 * 8 + 31) / 32 ≤ 256
    ∧ (∀ l ∈ lanesOf (actOf gK cu0 false 0), ∀ o ∈ tileBytes gK { x0 with fa := 2, sk := 3, vd := 252 } 16 8 l, o < wS.scrLen)
    ∧ (∀ l ∈ lanesOf (actOf gK cu0 false 0), ∀ o ∈ tileBytes gK { x0 with tr := 1, vd := 248 } 32 8 l, o < wS.scrLen)
    ∧ readyK [.mldt { x0 with fa := 2, sk := 3, vd := 252 }, .mstt { x0 with vd := 248, tr := 1 }, .mstt { x0 with vd := 248, fd := 5 }] = true :=
  ⟨calm_of (by decide +kernel), by decide, by unfold DescOk; decide, by decide, by decide +kernel, by decide +kernel, by decide +kernel⟩

/-- A gang with the descriptors of the macro-instructions, and coverage 1 in v201 of all lanes; a declared MCODE. -/
def gM : Gang := { g0 with
  sr := [(1, 8 * 2 ^ 32 + 8 * 2 ^ 48), (3, 0x10001), (7, 0x100000101)]
  vr := (List.range 32).foldl (fun m l => m.put 0 (vkey l 201) 1) [] }
def wM : Wg := { wS with tileW := 8, tileH := 8 }
def decl0 : McodeDecl := ⟨0x80, false, 1, 1, 1, false, 1, true, true, false, false, false, 0, false, false, []⟩
def sM : State := { one gM wM with microcode := [((one gM wM).tenantPart 0, [decl0])] }
theorem calm_M : Calm sM cu0 gM wM := calm_of (by decide +kernel)
def ma : MacroW := { a0 with vs := 0, vi := 240, vo := 200 }
def wRast : MacroW := { ma with s0 := 1, vi := 244, vo := 247 }
def wBlend : MacroW := { ma with vs := 255, s0 := 4, s1 := 5, s2 := 6 }
def wFilt : MacroW := { ma with s0 := 2, s1 := 4, vo := 252 }
def wTrav : MacroW := { ma with s0 := 4, vo := 252, imm := 1 }
def wBin : MacroW := { ma with vi := 248, vo := 0, s0 := 4, s1 := 7, imm := 1 }
def wPop : MacroW := { ma with mods := 2, vi := 0, vo := 247, s0 := 4, s1 := 7, s2 := 4, imm := 1 }
/-- A macro word of the calm gang passes its checks and goes on. -/
def asks (i : Instr) (w : MacroW) (gk : Bool) (chk : MacroW → Ctx → State → Check) : Bool :=
  i.wf && goes (exec i sM) && chk w (seen cu0 gM wM gk w.g) sM = .ok
    && (lanesOf (actOf gM cu0 gk w.g)).all fun l => gM.v l w.vs.toNat = 0
theorem witness_MacroWords :
    Calm sM cu0 gM wM ∧ (asks (.rast wRast) wRast true rastChk && asks (.blend wBlend) wBlend false blendChk
      && asks (.filt wFilt) wFilt false filtChk && asks (.trav wTrav) wTrav false travChk
      && asks (.bin wBin) wBin true (fun w => binChk w false) && asks (.binPop wPop) wPop true (fun w => binChk w true)
      && asks (.mcode 0x80 ma) ma false (fun w c _ => ctlChecks w decl0.gangKind decl0.reasons c)) = true
    ∧ sM.curDecl 0x80 = some decl0 ∧ mcodeBad decl0 ma = none
    ∧ ((lanesOf (actOf gM cu0 false 0)).all fun l => (gM.v l 201).toNat &&& covMask (gM.v l 200).toNat != 0) = true :=
  ⟨calm_M, by decide +kernel, by decide +kernel, by decide, by decide +kernel⟩

/-- All 32 lanes stand at a barrier word, and all but its opening is done. -/
def atBar (kind : WaitKind) : Gang := { g0 with waits := [{ id := 0, lanes := -1, kind := kind }] }
def gB : Gang := { g0 with sr := [(1, 16)] }
def bargState : State := { one g0 w0 with launches := (one g0 w0).launches.upd 1 fun L => { L with barg := true } }
theorem witness_BarrierWords :
    Calm (one gB w0) cu0 gB w0 ∧ w0.groupSize = 0 ∧ (1 ≤ (gB.s 1).toNat ∧ (gB.s 1).toNat ≤ 16)
    ∧ ((Instr.bar { y0 with aux := 1, sa := 1, imm := 15 }).wf && goes (exec (.bar { y0 with aux := 1, sa := 1, imm := 15 }) (one gB w0))) = true
    ∧ ready [.bar { y0 with imm := 15 }] = true
    ∧ Calm (one g0 { w0 with groupSize := 2 }) cu0 g0 { w0 with groupSize := 2 }
    ∧ ([Instr.barc { y0 with imm := 3 }, .barcFinal { y0 with aux := 1 }].all fun i => i.wf && goes (exec i (one g0 { w0 with groupSize := 2 }))) = true
    ∧ Calm bargState cu0 g0 w0 ∧ (∃ L, bargState.launches.find? w0.launch = some L ∧ L.barg = true)
    ∧ ((Instr.barg { y0 with imm := 3 }).wf && goes (exec (.barg { y0 with imm := 3 }) bargState)) = true
    ∧ (one (atBar (.bar 15 0)) w0).wgs.find? 1 = some w0 ∧ w0.gangs = [1]
    ∧ ((one (atBar (.bar 15 0)) w0).gangs.find? 1).map (fun q => decide (q.idx < 16 ∧ q.liveMask ≠ 0 ∧ q.barCount 15 = 0)
        && (List.range 32).all fun l => q.waits.any fun x => isBar 15 x.kind && x.lanes.getLsbD l) = some true
    ∧ (w0.bars.getD 15 barZero).arrived = 0 :=
  ⟨calm_of (by decide +kernel), rfl, by decide, by decide +kernel, by decide +kernel, calm_of (by decide +kernel), by decide +kernel,
    calm_of (by decide +kernel), ⟨_, rfl, rfl⟩, by decide +kernel, by decide +kernel, rfl, by decide +kernel, rfl⟩

/-- A gang that waits for a g-register in s63. -/
def gP : Gang := { g0 with
  empty := [skey 63], prods := [{ id := 5, ready := false, flags := 0, dests := [{ key := skey 63, val := 0, poison := false }] }] }
theorem witness_PortWords :
    w0.gops = [] ∧ ready [.grd { y0 with sd := 63, gr := 31 }, .gwr { y0 with gr := 31, i := 1, imm := -1 }, .gwr { y0 with sa := 63 },
      .gatom { y0 with sd := 63, aux := 8 }, .gatom { y0 with i := 1 }, .xquery { y0 with sd := 63 }] = true
    ∧ (one gP w0).wgs.find? 1 = some w0 ∧ (one gP w0).gangs.find? 1 = some gP ∧ gP.prods.map (·.id) = [5]
    ∧ gP.empty = [skey 63] ∧ gP.poison = [] ∧ (2 ≤ (10 : Nat) ∧ 2 ≤ (2 : Nat)) :=
  ⟨rfl, by decide +kernel, by decide +kernel, by decide +kernel, rfl, rfl, rfl, by decide⟩
def gX : Gang := { g0 with base := 192, xcount := 64, xlimit := 72 }
theorem witness_BlockWords :
    Calm (one gX w0) cu0 gX w0 ∧ actOf gX cu0 false 0 ≠ 0 ∧ gX.xcount + 8 ≤ gX.xlimit ∧ 64 ≤ gX.xcount
    ∧ ([Instr.xclaim { y0 with i := 1, imm := 8 }, .xgive { y0 with i := 1, imm := 64 }].all fun i => i.wf && goes (exec i (one gX w0))) = true :=
  ⟨calm_of (by decide +kernel), by decide, by decide, by decide, by decide +kernel⟩
/-- A launch whose spawn table has an entry at address 0. -/
def sSp : State :=
  { one g0 w0 with launches := (one g0 w0).launches.upd 1 fun L => { L with spawns := [⟨0, 256, 0⟩] } }
theorem witness_SpawnWords :
    Calm sSp cu0 g0 w0 ∧ (∃ L, sSp.launches.find? w0.launch = some L ∧ ∃ e ∈ L.spawns, e.addr = 0)
    ∧ (laneCount (actOf g0 cu0 false 0) ≤ 32 - ((List.range 32).filter fun b => ((sSp.cpart w0.pid).bins.find? b).isSome).length)
    ∧ ((sSp.cpart w0.pid).bins.map (·.1)).Pairwise (· < ·)
    ∧ ([Instr.spawn { y0 with va := 252, i := 1 }, .spawnf { y0 with i := 1 }, .spawnf { y0 with aux := 1 }].all fun i => i.wf && goes (exec i sSp)) = true :=
  ⟨calm_of (by decide +kernel), ⟨_, rfl, _, List.mem_singleton.mpr rfl, rfl⟩, by decide +kernel, by decide +kernel, by decide +kernel⟩
/-- Queue 0, with one record of 64 bytes at 0, its sequence word at 128, QRES at 192, in a page that cluster 0 maps. -/
def sQ : State :=
  let s := (((((one g0 w0).setCreg .hub 0x500000 3).setCreg (.part 0) 0x4000 0x8000).setCreg (.part 0) 0x4002 0x8000).setCreg .hub (qreg 0 0x20) 0x10000)
  { (s.setCreg .hub (qreg 0 8) 128).setCreg .hub (qreg 0 0x10) 192 with tlb := [(tlbKey 0 0 0, { pte := 0xF, level := 16 })] }
def at0 (a : Nat) : Loc := { kind := .mem 0, addr := a }
/-- The same queue, full: its consumer is one record behind. -/
def sQfull : State := { sQ with mem := [(192, 1)] }
/-- All 32 bins are taken, and the overflow ring has 4 places. -/
def sFull : State :=
  { sSp.setCreg (.core 0) (spoOff 0 1) 4 with
    cparts := [(0, { cpartZero with bins := (List.range 32).map fun b => (b, ⟨.ready, 0, [], 0⟩) })] }
theorem witness_SpawnWords_full :
    Calm sFull cu0 g0 w0 ∧ Orders sFull cu0 g0 False ∧ ((List.range 32).filter fun b => ((sFull.cpart w0.pid).bins.find? b).isSome).length = 32
    ∧ (∀ e ∈ (sFull.cpart w0.pid).bins, e.2.state = .filling → e.2.key ≠ 0) ∧ sFull.ringCount w0.pid = 0
    ∧ fld (sFull.spo w0.pid 1) 0 17 = 4 ∧ (List.range 4).all (fun k => sFull.paOk (32 * k)) = true
    ∧ goes (exec (.spawn { y0 with va := 252, i := 1 }) sFull) = true :=
  ⟨calm_of (by decide +kernel), ⟨fun _ h => absurd h List.not_mem_nil, fun h => h.elim⟩, by decide +kernel, by decide +kernel,
    by decide +kernel, by decide +kernel, by decide +kernel, by decide +kernel⟩
theorem witness_QueueWords :
    Calm sQ cu0 g0 w0 ∧ Drained sQ ∧ (sQ.qcfg 0).getLsbD 16 = true ∧ fld (sQ.qcfg 0) 7 9 = w0.tenant ∧ sQ.qregs 0 = 1
    ∧ sQ.translate 256 0 .read (sQ.qseqVa 0 0) = .ok (at0 128) ∧ sQ.translate 256 0 .read (sQ.qslotVa 0 0) = .ok (at0 0)
    ∧ sQ.translate 256 0 .write (sQ.qva 0 0x10 0) = .ok (at0 192) ∧ sQ.translate 256 0 .write (sQ.qslotVa 0 0) = .ok (at0 0)
    ∧ sQ.translate 256 0 .write (sQ.qseqVa 0 0) = .ok (at0 128) ∧ (Here sQ (at0 0) ∧ Here sQ (at0 128) ∧ Here sQ (at0 192))
    ∧ ([sQ.qslotVa 0 0, sQ.qseqVa 0 0].all fun x => (sQ.tlbFind 256 0 (fld x 0 57 / 2 ^ 16)).isSome) = true
    ∧ Calm sQfull cu0 g0 w0 ∧ sQfull.loadNat 0 false (at0 192) 4 = 1
    ∧ ([sQ, sQfull].all fun s => [Instr.qpop { y0 with vd := 254, sd := 63 }, .qpush { y0 with va := 254, pd := 7 }].all fun i =>
        i.wf && goes (exec i s)) = true :=
  ⟨calm_of (by decide +kernel), ⟨rfl, rfl⟩, by decide +kernel, by decide +kernel, by decide +kernel, by decide +kernel,
    by decide +kernel, by decide +kernel, by decide +kernel, by decide +kernel,
    ⟨(by decide +kernel : sQ.paOk 0 = true), (by decide +kernel : sQ.paOk 128 = true), (by decide +kernel : sQ.paOk 192 = true)⟩, by decide +kernel,
    calm_of (by decide +kernel), by decide +kernel, by decide +kernel⟩
theorem witness_CancelWords :
    w0.launch = 1 ∧ (∃ L, (one g0 w0).launches.find? 1 = some L) ∧ ((List.range 32).all fun p => (one g0 w0).ringCount p = 0) = true
    ∧ ready [.cancel y0, .cancel { y0 with imm := 1 }, .cancel { y0 with imm := 4 }, .cntrd { y0 with sd := 63, imm := 1 },
        .cntrd { y0 with sd := 63, imm := 4 }] = true
    ∧ (one g0 w0).gangs.find? 1 = some g0 ∧ (one g0 w0).wgs.find? g0.wg = some w0 ∧ w0.binGang = false
    ∧ (∀ pid, ({ one g0 w0 with cregs := [] } : State).ringCount pid = 0)
    ∧ ({ one g0 w0 with launches := (one g0 w0).launches.upd 1 fun L => { L with cancelled := true } } : State).levelCancelled 1 1 = true :=
  ⟨by decide +kernel, ⟨_, rfl⟩, by decide +kernel, by decide +kernel, by decide +kernel, by decide +kernel, rfl, noRing rfl,
    by decide +kernel⟩
/-- A gang whose s1 holds 2048, in a workgroup with a scratchpad; key slot 37 holds a video key of tenant 0. -/
def gN : Gang := { g0 with sr := [(1, 2048)] }
def sN : State := (one gN wS).setCreg .hub (0x500000 + 8 * 37) 2
def e1 : EngW := { e0 with ssp := 1, dsp := 1 }
def er : EngW := { e0 with ssp := 1, rt := 1, vr := 240, sn := 1 }
def ef : EngW := { e0 with dsp := 1 }
def ed : EngW := { ef with imm := 37 }
theorem witness_EngineWords :
    Calm sN cu0 gN wS ∧ actOf gN cu0 false 0 ≠ 0 ∧
    ([(Instr.cecopy e1 0, 0, e1), (.cegath e1 0, 1, e1), (.cescat e1 0, 2, e1), (.cefill ef, 3, ef), (.cedec ed 0, 4, ed),
      (.cestat ef, 5, ef), (.cecopy er 0, 0, er)].all fun (i, op, w) =>
        i.wf && goes (exec i sN) && engChecks op w 0 (seen cu0 gN wS false 0) sN = Check.ok) = true :=
  ⟨calm_of (by decide +kernel), by decide, by decide +kernel⟩

/-- Port 0 of partition 0 decodes a task, with buffer 0 bound and one free handle of its class. -/
def sT : State :=
  let s := State.reset.withFetchWord 128 (0xC * 2 ^ 124)
  { s with
    agenda := [], cur := some { cu0 with gang := 0, port := some (0, 0) }, freeLists := [(0, [1])]
    ports := s.ports.upd 0 fun p => { p with spec := { p.spec with bufs := [(0, ⟨0, 0, 65536, 0, 0⟩)], k := [(1, 65536)] } } }
/-- A decoding port: PortReady, as a test; the instruction is well formed and its decode goes on. -/
def decodesT (is : List Instr) : Bool := is.all fun i => i.wf && goes (exec i sT)
theorem ready_sT : PortReady sT 0 0 :=
  ⟨⟨_, rfl, rfl⟩, by decide +kernel, by decide +kernel, by decide +kernel⟩
theorem witness_DecodeTasks :
    PortReady sT 0 0 ∧ WordsHere sT 0 0 3 ∧ decodesT [.tnop t0, .tkmov { t0 with ka := 31, sub := 1, kb := 1 }, .tkmov { t0 with ka := 31, imm := -1 },
      .tkadd { t0 with sub := 1, kb := 1, kc := 1 }, .tkadd { t0 with imm := -1 }, .tkbr { t0 with imm := -1 }, .tkbr { t0 with sub := 5, imm := -1 },
      .tkbr { t0 with sub := 1 }, .tphase t0, .tend t0] = true :=
  ⟨ready_sT, (by decide +kernel : (sT.winTouch 0 0 48 true).absentAcc = none), by decide +kernel⟩
theorem witness_BufferTasks :
    PortReady sT 0 0 ∧ decodesT [.tbind { t0 with ta := 63, ka := 1 }, .tbind { t0 with ka := 1 }, .tfree t0] = true
    ∧ (let p := sT.port 0 0
       (kOf p.spec.k 1).toNat = 2 ^ (16 + 0) ∧ sT.freeLists.getD (listKey 0 0) [] ≠ [] ∧ (p.spec.bufs.find? 0).isSome = true) :=
  ⟨ready_sT, by decide +kernel, by decide +kernel⟩
def bw : BindW := ⟨0xCFF, 0, 0, 0, 0, 1, 0, 0⟩
theorem witness_IssueTasks :
    PortReady sT 0 0 ∧ BindOk bw ∧ ([Instr.tallred t0].all fun i => (wantsOf (sT.port 0 0).spec.k i).all fun x =>
      ((sT.port 0 0).spec.bufs.find? x.t).isSome) = true
    ∧ decodesT [.tlaunch { t0 with nb := 1 } [bw], .tdraw { t0 with nb := 1 } [bw], .tcopy t0, .tfill { t0 with sub := 1 }, .tallred t0,
        .tallgat t0, .trdscat t0, .tpresent { t0 with sub := 1 }, .twait t0, .tsignal t0, .tfence t0, .tkld t0, .tgroup t0] = true :=
  ⟨ready_sT, by unfold BindOk; decide, by decide +kernel, by decide +kernel⟩

/-! ### Witnesses of the events -/

/-- The gang of a state stands on core partition 0. -/
theorem resident_one (g : Gang) (hw : g.wg = 1) : Resident (one g w0) 1 g w0 := by
  refine ⟨rfl, ?_, rfl⟩
  rw [hw]; rfl
/-- One wait of some lanes. -/
def waiting (k : WaitKind) (m : LaneMask) : Gang := { g0 with waits := [{ id := 0, lanes := m, kind := k }] }
def gReady : Gang := { gP with prods := gP.prods.map fun p => { p with ready := true } }
def gSplit : Gang := { g0 with splitCnt := [(7, 16)] }
def gClaim : Gang := { gX with waits := [{ id := 0, lanes := -1, kind := .xclaim 8 0 }] }
def gDead : Gang := { gClaim with trapbase := 0x1000 }
def sDead : State := { one gDead w0 with cparts := [(0, { cpartZero with deadlock := 1024 })] }
def op0 : QOp := ⟨0, 3, 0, .mma x0 0, 0xFF, 0xFF, .rendezvous, 0, 0, 8, 0, 0, 0, 0, 0, 0⟩
def gStall : Gang := { gH with qops := [op0], rdvCnt := [(0, 1)] }
def sStall : State := (one gStall w0).setCreg (.core 0) 0x120 1
theorem witness_GangEvents :
    (gReady.prods.map (fun p => (p.id, p.ready, (p.dests.map (·.key)).Nodup)) = [(5, true, True)]
      ∧ gReady.waits = [] ∧ goes (exec (.producerWriteback 1 5) (one gReady w0)) = true)
    ∧ ((waiting .exit 0x80000000).liveMask &&& ~~~0x80000000 ≠ 0 ∧ w0.gangs = [1] ∧ w0.bars = [] ∧ w0.binGang = false
      ∧ goes (exec (.laneExited 1) (one (waiting .exit 0x80000000) w0)) = true)
    ∧ ((one (waiting (.sleep 0) 1) w0).fabtime.toNat = 0 ∧ goes (exec (.sleepWake 1) (one (waiting (.sleep 0) 1) w0)) = true)
    ∧ ((one (waiting (.sleep 5) (-1)) w0).gangs.wf = true ∧ (waiting (.sleep 5) (-1)).active = true
      ∧ goes (exec (.activeSetRemove 0) (one (waiting (.sleep 5) (-1)) w0)) = true)
    ∧ ((one gSplit w0).splitN 0 = 16 ∧ (one gSplit w0).freeSlots 0 15 ≠ [] ∧ gSplit.slots.find? 7 = none ∧ gSplit.unit 0 = gSplit.unit 28
      ∧ gSplit.isLive 0 = true ∧ goes (exec (.quadSplit 1 7) (one gSplit w0)) = true)
    ∧ ((one gClaim w0).claims 0 = [(0, 1, { id := 0, lanes := -1, kind := .xclaim 8 0 }, 8)] ∧ 8 ≤ (one gClaim w0).xfree 0
      ∧ goes (exec (.xclaimGrant 0) (one gClaim w0)) = true)
    ∧ (gX.xcount = 64 ∧ goes (exec (.xgiveCredit 1) (one { gX with waits := [{ id := 0, lanes := -1, kind := .xgive 64 }] } w0)) = true)
    ∧ (sDead.wgs.wf = true ∧ sDead.partGangs 0 = [(1, gDead)] ∧ (sDead.cpart 0).deadlock = 1024 ∧ w0.preempt = false
      ∧ gDead.liveMask = -1 ∧ HasHandler gDead ∧ goes (exec (.regDeadlockReport 0) sDead) = true)
    ∧ (fld (sStall.creg (.core 0) 0x120) 0 32 = 1 ∧ HasHandler gStall ∧ goes (exec (.rdvStallWatchdog 1 0) sStall) = true) := by
  refine ⟨⟨by simp [gReady, gP], rfl, by decide +kernel⟩, ⟨by decide, by decide, rfl, rfl, by decide +kernel⟩, ⟨by decide +kernel, by decide +kernel⟩,
    ⟨by decide +kernel, rfl, by decide +kernel⟩,
    ⟨by decide +kernel, by decide +kernel, by decide, by decide, by decide, by decide +kernel⟩, ⟨by decide +kernel, by decide +kernel, by decide +kernel⟩,
    ⟨rfl, by decide +kernel⟩, ⟨by decide +kernel, by decide +kernel, by decide +kernel, rfl, by decide, by unfold HasHandler; decide, by decide +kernel⟩,
    ⟨by decide +kernel, by unfold HasHandler; decide, by decide +kernel⟩⟩

/-- Partition 0 has cluster 0 and running firmware; its launch 1 has one more workgroup waiting. -/
def sAd (est : Nat) (w : Wg) : State :=
  let s := ((one g0 w).setCreg (.part 0) 0 1).setCreg .hub (tenantOff 0 8) 2
  { s with fwCores := 0xFF, launches := s.launches.upd 1 fun L => { L with waiting := [0], est := est } }
def wSlice : Wg := { w0 with slice := 1048576 }
def sLat (est : Nat) (w : Wg) : State := (sAd est w).setCreg (.part 0) 0x8040 500
def gSmall : Gang := { g0 with base := 1 }
def sSave : State := { sAd 0 { w0 with preempt := true } with cur := none, gangs := [(1, gSmall)] }
/-- A workgroup saved at 0x10000: the versions of the two areas, the offset of the gang's, one register entry. -/
def sSaved : State :=
  { sAd 0 { w0 with status := .saved, ctxAddr := 0x10000 } with
    gangs := [(1, gSmall)], mem := [(0x10000, 1), (0x10201, 4), (0x10400, 1), (0x10404, 1)] }
def bin0 (st : BinState) (n : Nat) : SpawnBin :=
  { state := st, key := 0, recs := (List.range n).map fun i => ⟨0, BitVec.ofNat 32 i, 0, 0, 0, 1, 0, 0⟩, timer := 2048 }
def sBin (st : BinState) (n : Nat) (ready : List Nat) : State :=
  { sSp with cparts := [(0, { cpartZero with bins := [(31, bin0 st n)], readyOrder := ready })] }
def sWave : State :=
  { one (waiting .starter (-1)) w0 with starters := [(0, { queue := [⟨1, 0, none⟩, ⟨2, 0, none⟩], next := 0, last := 0 })] }
def methodOf (est : Nat) (w : Wg) : PreMethod :=
  let s := sLat est w
  chooseMethod (s.latOf 0 0) (s.drainEst w) (s.flushEst w) (s.saveEst w) (w.restartable && w.noWrite)
theorem witness_SchedulingEvents_admission :
    (sAd 0 w0).partStopped 0 = false ∧ (sAd 0 w0).fwUp 1 = true
    ∧ (sAd 0 w0).pickWaiting ((sAd 0 w0).waitOrder 0) (none, [], []) = some (1, 0) ∧ ((sAd 0 w0).partClusters 0).contains (clusterOf 1) = true
    ∧ ((sAd 0 w0).launches.find? 1).map (fun L => ((sAd 0 w0).admits 1 L.need, L.clus, L.lanes, L.slotPlan)) = some (true, 1, 32, 0)
    ∧ goes (exec (.admission 0 1) (sAd 0 w0)) = true := by
  refine ⟨?_, ?_, ?_, ?_, ?_, ?_⟩ <;> decide +kernel
theorem witness_SchedulingEvents_head :
    (sAd 0 w0).latOf 0 0 = 0 ∧ (sAd 0 w0).absentAcc = none ∧ wSlice.cancelled = false ∧ wSlice.unitCancelled = false
    ∧ ((sLat 100000 wSlice).launches.find? 1).map (fun M => (M.cancelled, M.graphCancelled)) = some (false, false)
    ∧ sSaved.partStopped 0 = false ∧ sSaved.fwUp 1 = true ∧ sSave.absentAcc = none := by
  refine ⟨?_, ?_, ?_, ?_, ?_, ?_, ?_, ?_⟩ <;> decide +kernel
theorem witness_SchedulingEvents_slice :
    fld ((sAd 0 wSlice).creg (.core 0) 0x100) 16 32 = wSlice.slice ∧ wSlice.leaving = false
    ∧ methodOf 0 wSlice = .drain ∧ methodOf 100000 { wSlice with restartable := true, noWrite := true } = .flush
    ∧ methodOf 100000 wSlice = .save := by
  refine ⟨?_, ?_, ?_, ?_, ?_⟩ <;> decide +kernel
theorem witness_SchedulingEvents_slice_ends :
    ([sLat 0 wSlice, sLat 100000 { wSlice with restartable := true, noWrite := true }, sLat 100000 wSlice].all fun s =>
      s.waitOrder 0 = [(1, 0)] && goes (exec (.timeSliceEnd 1) s)) = true := by decide +kernel
theorem witness_SchedulingEvents_drain :
    (one g0 { w0 with drainBy := some 0 }).fabtime.toNat = 0
    ∧ goes (exec (.drainTimeout 1) { one g0 { w0 with drainBy := some 0 } with fwCores := 0xFF }) = true := by decide +kernel
theorem witness_SchedulingEvents_save :
    sSave.saveReady (1, { w0 with preempt := true }) = true ∧ (sSave.wgs.find? 1).map (·.preempt) = some true
    ∧ sSave.paOk 0x10000 = true ∧ sSave.paOk 0x1FFFF = true ∧ sSave.fwUp 1 = true ∧ sSave.vops = [] ∧ gSmall.cancel = none ∧ goes (exec (.contextSave 1 0x10000) sSave) = true := by
  refine ⟨?_, ?_, ?_, ?_, ?_, ?_, ?_, ?_⟩ <;> decide +kernel
theorem witness_SchedulingEvents_restore :
    (sSaved.wgs.find? 1).map (fun w => (w.status, w.groupSize, w.migrate, w.dying, w.ctxAddr, sSaved.meets 1 (sSaved.savedNeed w)))
        = some (.saved, 0, none, false, 0x10000, true) ∧ sSaved.wgAreaOk 0x10000 = true
    ∧ sSaved.gangAreaOk (0x10000 + sSaved.areaNat 0x10200 8) = true ∧ goes (exec (.contextRestore 1 1) sSaved) = true := by
  refine ⟨?_, ?_, ?_, ?_⟩ <;> decide +kernel
theorem witness_SchedulingEvents_bins :
    (sBin .filling 1 []).binTime 0 = 2048 ∧ goes (exec (.binTimerExpire 0 31) (sBin .filling 1 [])) = true
    ∧ (bin0 .ready 32).recs.length = 32 ∧ ((sBin .ready 32 [31]).freeSlots 0 16).isEmpty = false
    ∧ 256 + (sBin .ready 32 [31]).poolUsed 0 ≤ 1024
    ∧ (sBin .ready 32 [31]).ringCount 0 = 0 ∧ goes (exec (.binLaunch 0) (sBin .ready 32 [31])) = true := by
  refine ⟨?_, ?_, ?_, ?_, ?_, ?_, ?_⟩ <;> decide +kernel
theorem witness_SchedulingEvents_starter : 1 ≤ sWave.waveOf 0 ∧ goes (exec (.starterWave 0) sWave) = true := by decide +kernel

/-- The state after an instruction's step. -/
def after (i : Instr) (s : State) : State := match exec i s with | .next t => t | _ => s
/-- Lanes of the first lathe request of core 0 that step, and how their steps end. -/
def stepEnds (s : State) : List (Nat × StepEnd) :=
  match s.latheReqs 0 with
  | (k, m, M) :: _ =>
    let s0 := { s with lathes := s.lathes.put 0 0 (k + 1), latheBusy := s.latheBusy.set 0 (m.gid, m.op.wait) }
    ((m.readyLanes M s0).foldl (fun (a : State × List (Nat × StepEnd)) l =>
      if M.ready a.1 m l then
        let x := M.step a.1 m l
        (x.1, a.2 ++ [(l, x.2)])
      else a) (s0, [])).2
  | [] => []
def sFilt : State := after (.filt wFilt) sM
def opQ (k : Nat) (p : QPhase) : QOp := { op0 with ins := .mma { x0 with fa := 2, fb := 2 } 0, phase := p, k := k }
def sPass (k : Nat) (p : QPhase) (pass : List (Nat × Nat)) : State :=
  { one { gH with qops := [opQ k p] } w0 with cycle := 2, cparts := [(0, { cpartZero with pass := pass })] }
def readZero : WaitRead := ⟨1, 0, { kind := .scr 1, addr := 0 }, 4, 0, 0xFFFFFFFF, 0, false, none⟩
/-- Queue 0 has served index 0; its sequence word shows index 1, which the gang pops. -/
def sPop : State :=
  after (.qpop { y0 with vd := 254, sd := 63 }) { sQ.setCreg .hub (qreg 0 0x38) 1 with mem := [(128, 1)] }
def line127 : BufLine := { bytes := [(127, 5)], since := 0, key := 0, tenant := 0, launch := 1, poison := [] }
def sWcb : State := { one g0 w0 with wcb := [(0, [(3, line127)])], cycle := 16384 }
def sEng : State := after (.cefill ef) sN
theorem witness_UnitEvents_lathe :
    ((stepEnds sFilt).all fun e => e.2 = .run) = true ∧ (sFilt.latheReqs 0).map (fun r => (r.2.2.gangKind, r.2.1.op.act)) = [(false, -1)]
    ∧ sFilt.latheBusy = [] ∧ goes (exec (.latheStep 0 1) sFilt) = true := by
  refine ⟨?_, ?_, ?_, ?_⟩ <;> decide +kernel
/-- A RAST of the triangle (0, 0), (8, 0), (0, 8) has been issued. -/
def sRast : State :=
  let vs : List (Nat × W32) := [(235, 0x3F800000), (236, 2048), (239, 0x3F800000), (241, 2048), (243, 0x3F800000)]
  let g : Gang := { gM with vr := vs.foldl (fun m e => m.put 0 (vkey 0 e.1) e.2) gM.vr }
  after (.rast { wRast with vi := 232 }) { sM with gangs := [(1, g)] }
theorem witness_MacroSteps_setup :
    (match sRast.latheReqs 0 with
     | (_, m, _) :: _ =>
       (match sRast.gangs.find? m.gid with | some g => decide (g.laneStatus m.lead ≠ 0) | none => false)
         && m.lead < 32 && m.mw.vs.toNat + 24 ≤ 256 && m.w.tileW ≤ 256 && m.w.tileH ≤ 256 && (rastSetup sRast m).2 = .run
     | [] => false) = true := by decide +kernel
theorem witness_UnitEvents_lathe_gang :
    (match sRast.latheReqs 0 with
     | (k, m, M) :: _ =>
       let s0 := { sRast with lathes := sRast.lathes.put 0 0 (k + 1), latheBusy := sRast.latheBusy.set 0 (m.gid, m.op.wait) }
       M.gangKind && (lanesOf m.op.act).contains m.lead && M.ready s0 m m.lead && (M.step s0 m m.lead).2 = .run && 1 ≤ M.state
         && m.mw.vs.toNat + M.state ≤ 256
     | [] => false) = true ∧ goes (exec (.latheStep 0 0) sRast) = true := by decide +kernel
theorem witness_UnitEvents_matrix :
    (sPass 8 .queued []).partGangs 0 = [(1, { gH with qops := [opQ 8 .queued] })]
    ∧ max (opQ 8 .queued).cycle ((sPass 8 .queued []).cpart 0).array + 2 ≤ (sPass 8 .queued []).cycle
    ∧ (sPass 8 .queued []).stopDue { gH with qops := [opQ 8 .queued] } = false ∧ goes (exec (.matrixPassStart 0) (sPass 8 .queued [])) = true
    ∧ (mInfo (opQ 16 .running).ins).map (fun m => (m.kind, match mmaBlock (sPass 16 .running [(1, 0)]) 1 gH m (opQ 16 .running) with
        | .ok _ => true
        | _ => false)) = some (0, true)
    ∧ goes (exec (.matrixBlock 0) (sPass 16 .running [(1, 0)])) = true := by
  refine ⟨?_, ?_, ?_, ?_, ?_, ?_⟩ <;> decide +kernel
/-- A TLPRE of two blocks runs. -/
def opT : QOp := { op0 with ins := .tlpre { x0 with fa := 2 }, phase := .running, k := 16 }
def sTl : State := { one { gH with qops := [opT] } wS with cparts := [(0, { cpartZero with pass := [(1, 0)] })] }
theorem witness_UnitEvents_blocks :
    (opQ 16 .running).blocks = 1 ∧ (sPass 16 .running [(1, 0)]).absentAcc = none
    ∧ (sPass 16 .running [(1, 0)]).stopDue { gH with qops := [opQ 16 .running] } = false
    ∧ (mInfo opT.ins).map (fun m => (m.kind, match tlpreBlock sTl 1 { gH with qops := [opT] } m opT with | .ok _ => true | _ => false))
        = some (2, true)
    ∧ sTl.stopDue { gH with qops := [opT] } = false ∧ goes (exec (.matrixBlock 0) sTl) = true := by
  refine ⟨?_, ?_, ?_, ?_, ?_, ?_⟩ <;> decide +kernel
theorem witness_UnitEvents_waits :
    (one (waiting (.waitc readZero false 0 true) 1) wS).waitHolds 0 readZero = true
    ∧ (one (waiting (.waitc readZero false 0 true) 1) wS).waitPlace wS readZero = .ok readZero.loc
    ∧ (one (waiting (.waitc readZero false 0 true) 1) wS).loadPoisoned 0 false readZero.loc 4 = false
    ∧ goes (exec (.waitcWake 1 0) (one (waiting (.waitc readZero false 0 true) 1) wS)) = true
    ∧ goes (exec (.parkedPoll 1 0) (one (waiting (.waitc readZero true 4096 false) 1) wS)) = true := by
  refine ⟨?_, ?_, ?_, ?_, ?_⟩ <;> decide +kernel
theorem witness_UnitEvents_queue :
    (sPop.gangs.find? 1).map (fun g => (g.waits.map fun x => (x.id, x.kind), g.prods.map (·.id))) = some ([(1, .qpop 0 1 254 63 (-1) false 0 true)], [0])
    ∧ sPop.seqReady 0 0 0 1 = true ∧ sPop.translate 256 0 .read (sPop.qslotVa 0 1) = .ok (at0 0) ∧ sPop.paOk 0 = true
    ∧ (sPop.creg .hub (qreg 0 0x28)).toNat = 0 ∧ sPop.qcopied.getD 0 [] = [] ∧ goes (exec (.qpopCopy 1 1) sPop) = true := by
  refine ⟨?_, ?_, ?_, ?_, ?_, ?_, ?_⟩ <;> decide +kernel
theorem witness_UnitEvents_buffer :
    (sWcb.wcb.getD 0 []).find? 3 = some line127 ∧ line127.since + 16384 = sWcb.cycle
    ∧ goes (exec (.wcbLineDrain 0 3) sWcb) = true ∧ goes (exec (.wcbDrainTimeout 0 3) sWcb) = true := by
  refine ⟨?_, ?_, ?_, ?_⟩ <;> decide +kernel
theorem witness_UnitEvents_engine :
    ((sEng.engine 0).all fun k => k.fault.isNone && k.moved = k.total && k.sig.isNone && !k.rel && k.task.isNone && k.counts.isNone && sEng.engMayRun 0 k
      && !sEng.peerWrites 0 k.id) = true
    ∧ goes (exec (.engComplete 0 ((sEng.engine 0).map (·.id)).sum) sEng) = true := by
  refine ⟨?_, ?_⟩ <;> decide +kernel

/-- A parked gang's read of an address faults; a walk finds a leaf of 1 GiB at 0 and nothing above it. -/
def pf (va : W64) (held : Option W64) : PageFault := ⟨0, 0, 0, va, .gang 1 0xF0 0x40, va, held⟩
def sFault (us : W64) (f : PageFault) : State :=
  { (sQ.setCreg (.part 0) 0x4004 0x8000).setCreg (.part 0) 0x8070 us with
    roots := [(0, 0x10000)], mem := [(0, 1), (2, 2), (0x10000, 1), (0x20000, 0xF)], tlb := [], faults := [f], fwCores := 0xFF
    gangs := [(1, { gH with parked := true })] }
theorem witness_FaultEvents_pages :
    (sFault 0 (pf 0 none)).walkOk (pf 0 none) = true ∧ (sFault 0 (pf 0x40000000 none)).walkOk (pf 0x40000000 none) = false
    ∧ ([sFault 0 (pf 0 none), sFault 0 (pf 0x40000000 none), sFault 1 (pf 0x40000000 none)].all fun s => goes (exec (.pageFaultService 0 0) s)) = true
    ∧ (sFault 0 (pf 0 none)).fabtime = 0 ∧ HasHandler { gH with parked := true }
    ∧ ([Instr.pfholdTimeout 0, .pfrespReplay 0 0 2, .pfrespDeny 0 0 2].all fun i => goes (exec i (sFault 0 (pf 0x40000000 (some 0))))) = true
    ∧ goes (exec (.pfrespReplay 0 0 0) (sFault 0 (pf 0 (some 0)))) = true := by
  refine ⟨?_, ?_, ?_, ?_, (by unfold HasHandler; decide), ?_, ?_⟩ <;> decide +kernel
theorem witness_FaultEvents_rest :
    (Drained (sFault 0 (pf 0 none)) ∧ (sFault 0 (pf 0 none)).fwUp 2 = true ∧ (sFault 0 (pf 0 none)).peerQueued = false)
    ∧ goes (exec (.tlbInvalidate 0 0) (sFault 0 (pf 0 none))) = true ∧ goes (exec (.eccError 1407 (-1).toNat true) sQ) = true ∧ (383 : Nat) < 384 ∧ cu0.port = none
    ∧ HasHandler gH ∧ goes (exec (.illegalEncoding 1) (one gH w0)) = true ∧ goes (exec (.fetchFault (-1)) (one gH w0)) = true :=
  ⟨⟨⟨rfl, rfl⟩, by decide +kernel, by decide +kernel⟩, by decide +kernel, by decide +kernel, by decide, rfl, handler_gH,
    by decide +kernel, by decide +kernel⟩

/-- The window of partition 0 holds one task of port 0. -/
def task0 (i : Instr) (st : TaskState) (f : Option TaskFault) : WinTask :=
  ⟨0, 0, 0, i, st, f, [], ctxZero, [(0, 1)], [], [], 0, [], [], none, false, 0, 0, 0, none, none, false, [], true⟩
def sWin (x : WinTask) : State :=
  { State.reset.setCreg .hub (tenantOff 0 0) 1 with tasks := [(0, x)], ports := [(0, { portZero with state := .run })], fwCores := 0xFF }
def join0 : WinTask := { task0 (.tgroup t0) .issued none with stage := 1, joinAt := some 50000, pend := some ⟨0, 0, 2, [], [], [], [], 0⟩ }
def sJoin : State :=
  { sWin join0 with pacer := [(0, { members := [(0, ⟨0, 0, [], [(0, none)]⟩)], gone := [], timeout := 0, ghosts := [] })] }
theorem witness_WindowEvents :
    ([Instr.tcopy t0, .tfill t0].all fun i => !(sWin (task0 i .issued none)).taskHeld 0 0
      && goes (exec (.taskComplete 0 0) (sWin (task0 i .issued none)))) = true
    ∧ (sWin (task0 (.tcopy t0) .completed none)).portTasks 0 0 = [(0, task0 (.tcopy t0) .completed none)]
    ∧ goes (exec (.taskRetire 0 0) (sWin (task0 (.tcopy t0) .completed none))) = true
    ∧ goes (exec (.taskRetire 0 0) (sWin (task0 (.tcopy t0) .faulted (some ⟨1, 2, 0xF, 0, 0⟩)))) = true
    ∧ (sWin join0).tenantValid 0 = true ∧ goes (exec (.tctlGo 0 1 0) (sWin join0)) = true ∧ goes (exec (.tctlHalt 0 0) (sWin join0)) = true
    ∧ goes (exec (.freeadd 0 (16 + 2 ^ 16)) (sWin join0)) = true ∧ goes (exec (.wlimitWrite 0 0) (sWin join0)) = true
    ∧ sJoin.pkg = 0 ∧ sJoin.fabtime = 0 ∧ goes (exec (.snapshotTimeout 0 0) sJoin) = true
    ∧ goes (exec (.hostCancel 1 1 0 0) { one g0 w0 with fwCores := 0xFF }) = true
    ∧ (sQ.creg .hub (qreg 0 0x30)).toNat = 0 ∧ goes (exec (.qtailWrite 0 [0x7FFFFFFF]) sQ) = true := by
  refine ⟨?_, ?_, ?_, ?_, ?_, ?_, ?_, ?_, ?_, ?_, ?_, ?_, ?_, ?_, ?_⟩ <;> decide +kernel

theorem witness_WindowEvents_tail :
    sQ.tailSeen.find? 0 = none ∧ (2 ^ 31 ≤ (0x80000000 + 2 ^ 32 - 0) % 2 ^ 32) ∧ goes (exec (.qtailWrite 0 [0x80000000]) sQ) = true
    ∧ goes (exec (.qtailWrite 0 [0]) sQ) = true := by
  refine ⟨?_, ?_, ?_, ?_⟩ <;> decide +kernel
/-- A port whose stream has ended, with a buffer bound. -/
def sEnded : State :=
  { sWin join0 with
    ports := [(0, { portZero with state := .idle, ended := true, arch := { ctxZero with bufs := [(0, ⟨0, 0, 65536, 0, 0⟩)] } })] }
theorem witness_WindowEvents_ended :
    (sEnded.port 0 0).ended = true ∧ (∀ b ∈ (sEnded.port 0 0).arch.bufs, b.2.cls < 32) ∧ goes (exec (.tctlGo 0 0 0) sEnded) = true := by
  refine ⟨?_, ?_, ?_⟩ <;> decide +kernel

/-- A package whose display head 0 and encoder 0 hold a present of a task that waits for it. -/
def pres : Present := ⟨0, 0, 0, [], 0, 0⟩
def sPres : State :=
  { sWin { task0 (.tpresent { t0 with sub := 1 }) .issued none with stage := 3 } with
    heads := [(0, { pending := some pres, waiting := [], latched := none })], encs := [(0, { queue := [pres], wpos := 0, rpos := 0, bits := none })] }
def fwUp : State := { State.reset with fwCores := 0xFF, bootCode := 0x80, tdi := [] }
theorem witness_BootAndPowerEvents_boot :
    State.reset.powered = true ∧ { State.reset with powered := false }.powered = false ∧ State.reset.bootCode ≤ 4
    ∧ ({ State.reset with bootCode := 4 } : State).bootCode = 4 ∧ fwUp.mcodeBusy 7 = false
    ∧ ([Instr.coldReset, .powerOff, .bootctlGo].all fun i => goes (exec i State.reset)) = true
    ∧ fwUp.mailStall = [] ∧ fwUp.fwUp 7 = true ∧ fwUp.fwUp 3 = true ∧ fwUp.terms = [] ∧ fwUp.errWait = []
    ∧ ([Instr.bootctlRestart 0xFF, .fwHeartbeat 7, .mailboxWrite 7 8 0 0 [], .mailboxWrite 7 7 0 0 []].all fun i => goes (exec i fwUp)) = true
    ∧ (let s : State := { fwUp with fwCores := 0x7E, restarting := 0x81 }
       (s.fwUp 7, s.fwUp 0, s.restarting.getLsbD 7, goes (exec (.fwHeartbeat 7) s)) = (false, false, true, true))
    ∧ (let s : State := { fwUp with mail := [(7, List.replicate 16 ⟨0, 0, 0, []⟩)] }
       16 ≤ (s.mail.getD 7 []).length ∧ goes (exec (.mailboxWrite 7 8 0 0 []) s) = true ∧ goes (exec (.mailboxWrite 7 6 0 0 []) s) = true)
    ∧ goes (exec .powerUp { State.reset with powered := false }) = true := by
  refine ⟨?_, ?_, ?_, ?_, ?_, ?_, ?_, ?_, ?_, ?_, ?_, ?_, ?_, ?_, ?_⟩ <;> decide +kernel
theorem witness_BootAndPowerEvents_power :
    fwUp.dies = 2 ∧ popcount (fld 0xF 0 16) = 4 ∧ goes (exec (.clkpatWrite 47 0xF) fwUp) = true ∧ goes (exec (.slopeWrite 47 0) fwUp) = true
    ∧ State.reset.fwUp 4 = false ∧ goes (exec (.powerMsTick 5 [0x1000]) State.reset) = true
    ∧ goes (exec (.peakTick 60000000) fwUp) = true ∧ goes (exec .intervalBoundary fwUp) = true ∧ goes (exec (.pcapWrite (-1)) fwUp) = true := by
  refine ⟨?_, ?_, ?_, ?_, ?_, ?_, ?_, ?_, ?_⟩ <;> decide +kernel
theorem witness_BootAndPowerEvents_registers :
    (regRule (.core 383) 0x188).map (fun r => (r.level, fwUp.takesWrite (.core 383) 0x188 (storedAs (.core 383) 0x188 (-1 &&& r.mask)),
        (fwUp.lockOf (.core 383) 0x188 0).isNone)) = some (2, true, true)
    ∧ (∀ k, k < 4 → 0x188 ≠ 0x100 + 8 * k) ∧ HasHandler gH ∧ gH.liveMask ≠ 0
    ∧ ([Writer.firmware, .host 0].all fun b => goes (exec (.registerWrite b (.core 383) 0x100 (-1)) fwUp)) = true
    ∧ goes (exec (.registerWrite (.program 1) (.core 0) 0x100 0) (one gH w0)) = true :=
  ⟨by decide +kernel, by omega, handler_gH, by decide, by decide +kernel, by decide +kernel⟩
theorem witness_BootAndPowerEvents_display :
    goes (exec (.headFrameStart 0) sPres) = true ∧ (encZero.room (ringOf pres.desc).2 8) = false
    ∧ goes (exec (.encoderFrameDone 0 []) sPres) = true ∧ goes (exec (.encReadposWrite 1 5) sPres) = true := by
  refine ⟨?_, ?_, ?_, ?_⟩ <;> decide +kernel
/-- Encoder 0 holds a present whose ring of 64 KiB lies at 0. -/
def presR : Present := { pres with desc := List.replicate 0x22 0 ++ [1, 0] }
def sEnc : State :=
  { State.reset.withFetchWord 128 (0xC * 2 ^ 124) with
    agenda := [], fwCores := 0xFF, tasks := [(0, { task0 (.tpresent { t0 with sub := 1 }) .issued none with stage := 3 })]
    encs := [(0, { queue := [presR], wpos := 0, rpos := 0, bits := none })] }
theorem witness_BootAndPowerEvents_ring :
    ringOf presR.desc = (0, 65536) ∧ sEnc.partStopped 0 = false ∧ (sEnc.encs.getD 0 encZero).room 65536 9 = true ∧ sEnc.encHeld 0 = false
    ∧ (match sEnc.translate 255 0 .write 0 with
      | .ok q => sEnc.paOk q.addr && (match q.kind with | .mem _ => true | _ => false)
      | _ => false) = true
    ∧ (match sEnc.winMay 0 0 9 with | .ok _ => true | _ => false) = true ∧ goes (exec (.encoderFrameDone 0 [7]) sEnc) = true := by
  refine ⟨?_, ?_, ?_, ?_, ?_, ?_, ?_⟩ <;> decide +kernel
theorem witness_BootAndPowerEvents_resets :
    (sWin join0).gangs = [] ∧ goes (exec (.partitionReset 0) (sWin join0)) = true ∧ goes (exec .functionLevelReset (sWin join0)) = true := by
  refine ⟨?_, ?_, ?_⟩ <;> decide +kernel

/-- SEC with a session state. -/
def sec (v c a : Bool) (p x : KSet) : State := { fwUp with spdm := ⟨v, c, a, p, x⟩ }
theorem witness_SecurityEvents :
    (fwUp.fwUp 5 = true ∧ Drained fwUp ∧ (sec true true true [3] [3]).slotHeld 2047 511 = none)
    ∧ ([(Instr.getVersion, sec false false false [] []), (.getCapabilities, sec true false false [] []), (.getCapabilities, sec false false false [] []),
        (.negotiateAlgorithms 1 1 1, sec true true false [] []), (.negotiateAlgorithms 1 1 2, sec true true false [] []),
        (.getDigests, sec true true true [] []), (.getCertificate 0 0 0, sec true true true [] []), (.challenge 0 [], sec true true true [] []),
        (.keyExchange 1 [], sec true true true [] []), (.keyExchange 1 [], sec true true false [] []), (.finish 4 [], sec true true true [3] []),
        (.tdispRequest 8 .lock, sec true true true [] []), (.spdmSessionMessage (.writeKey 2047 3 511 5), sec true true true [] [3]),
        (.spdmSessionMessage (.ideKey 8 5), sec true true true [] [3]), (.spdmSessionMessage (.emptyChannels 0), sec true true true [] [3]),
        (.spdmSessionMessage (.emptyChannels 0), sec true true true [] [])].all fun p => goes (exec p.1 p.2)) = true
    ∧ (3 : Nat) ∈ (sec true true true [3] []).spdm.pending ∧ ((sec true true true [] []).measured 1).isSome = true := by
  refine ⟨⟨?_, ⟨rfl, rfl⟩, ?_⟩, ?_, ?_, ?_⟩ <;> decide +kernel

/-! Links, Pacer and scale-out ports. -/
def up0 : PacerMember := ⟨0, 0, [], [(0, none)]⟩
def pg0 (n : Nat) : PacerGroup := { members := [(n, up0)], gone := [], timeout := 0, ghosts := [] }
/-- Port 0 holds group 5 of packages 0 and 1, and the package is a member. -/
def sPace : State :=
  { fwUp with
    ports := [(0, { portZero with spec := { ctxZero with group := some ⟨5, 0, 2, [0, 1], [0, 0], [1, 0], [false, false], 0⟩ } })]
    pacer := [(5, pg0 0)] }
/-- A millisecond of high energy lowers the limit of a package with POWER up, and its group hears of it. -/
theorem witness_BootAndPowerEvents_lower :
    sPace.fwUp 4 = true ∧ 31 * (fld (sPace.creg .hub 0x300000) 16 16 * 10 ^ 6) < 32 * (lastN 1000 (sPace.msTicks ++ [10 ^ 12])).sum
    ∧ sPace.ownLimits = [] ∧ sPace.boundGroups = [5]
    ∧ ((sPace.pacer.find? 5).bind fun pg => pg.members.find? sPace.pkg).map (fun m => (m.limits, m.stays)) = some ([], true) := by
  refine ⟨?_, ?_, ?_, ?_, ?_⟩ <;> decide +kernel
/-- A lower limit of this package stands from time 2000 on. -/
def sLower : State :=
  { fwUp with ownLimits := [⟨1, 2000, 100⟩] }
def pk (n : Nat) : Packet := { psn := n, payload := [], notice := none }
def conn0 : Conn := ⟨7, [], 14, false, some 0, none, 3, [pk 1, pk 2], [], false, 8, 0, 14, 0, false⟩
/-- Scale-out port 3 is enabled with flow control; the connection with package 2 on virtual channel 3. -/
def sEth (c : Conn) : State :=
  { (State.reset.setCreg .hub (ethOff 3 0) (3 + 2 ^ 16 * 7)).setCreg .hub (ethOff 3 0x20) 4791 with
    conns := [(connKey 2 3, c)], fabtime := 200000 }
def hd (psn : Nat) : PktHdr := { vc := 3, src := 2, dst := 0, psn := psn, ce := false }
def frame0 (kind : Nat) : EthFrame := ⟨true, 0, 0, 0, 0x0800, 4791, true, 1, true, kind, hd 7, []⟩
/-- Key slot 2047 is plain, of a tenant of partition 0, whose channels include address 0. -/
def sPeer : State := ((State.reset.setCreg .hub (0x500000 + 8 * 2047) 3).setCreg (.part 0) 8 1).setCreg .hub (tenantOff 0 0) 1
def note (seq eff : Nat) : Notice := ⟨5, 0, 0, 100, seq, 0, eff, []⟩
theorem witness_FabricEvents_links :
    (fwUp.peerQueued = false ∧ fwUp.pkg = 0)
    ∧ ([{ linkZero with fails := 16 }, { linkZero with sendFails := 16 }].all fun l =>
        goes (exec (.linkRetrain 15) { fwUp with links := [(15, l)] })) = true
    ∧ goes (exec (.linkRetrain 15) fwUp) = true ∧ goes (exec (.linkRetrainDone 15) fwUp) = true
    ∧ ([(⟨0, 0, false, 0, .payload []⟩ : Flit), ⟨0, 0, true, 0, .payload []⟩, ⟨0, 1, true, 0, .payload []⟩, ⟨0, 0, true, 9, .payload []⟩,
        ⟨0, 0, true, 0, .pace 3 1024⟩, ⟨0, 0, true, 0, .taken 4⟩, ⟨0, 0, true, 0, .again 0⟩].all fun f =>
        goes (exec (.flitReceive 15 f) fwUp)) = true := by
  refine ⟨⟨?_, ?_⟩, ?_, ?_, ?_, ?_⟩ <;> decide +kernel
/-- Link 15 has a transfer of two flits on channel 3, and its last flit went 2 beats before. -/
def out0 : OutFlit := { vc := 3, dst := 1, left := 2, flits := 2, carried := false, load := .accepted 3 [] }
def sLink : State :=
  { fwUp with fabtime := 1024, agenda := [.linkSend 15], links := [(15, { linkZero with queue := [out0], beat := 6398 })] }
theorem witness_FabricEvents_send :
    (sLink.powered = true ∧ sLink.absentAcc = none ∧ (sLink.link 15).beat + 2 ≤ sLink.beat ∧ (sLink.link 15).paceNext = [])
    ∧ ((sLink.link 15).sentAt.getD 3 []).countP (fun b => decide (sLink.beat < b + 1024)) < (sLink.link 15).pace.getD 3 1024
    ∧ goes (step sLink) = true := by decide +kernel
theorem witness_FabricEvents_pacer :
    (sPace.groupTable 5).map (fun g => (sPace.otherPackages g, (sPace.linksTo 1).length)) = some ([(1, false)], 16) ∧ sPace.fwUp 4 = true
    ∧ goes (exec (.heartbeatSend 5) sPace) = true
    ∧ fwUp.pacer = [] ∧ goes (exec .ceilingChange fwUp) = true
    ∧ sLower.nextChange = some (2000, 100) ∧ sLower.ceil = 2500 ∧ goes (exec (.clockLowerBegin 1) sLower) = true
    ∧ goes (exec (.memberDrop 5 1) { sPace with pacer := [(5, pg0 1)] }) = true
    ∧ goes (exec (.noticeReceive (note 0 0)) State.reset) = true ∧ State.reset.fwUp 4 = false
    ∧ goes (exec (.noticeReceive (note 0 0)) sPace) = true ∧ goes (exec (.noticeReceive (note 1 50000)) sPace) = true
    ∧ fwUp.portTasks 0 0 = [] ∧ goes (exec (.collectiveHeaderReceive 0 0 1 0 0 0 0 0 false []) fwUp) = true := by
  refine ⟨?_, ?_, ?_, ?_, ?_, ?_, ?_, ?_, ?_, ?_, ?_, ?_, ?_, ?_, ?_⟩ <;> decide +kernel
theorem witness_FabricEvents_connections :
    (sEth conn0).conns.find? (connKey 2 3) = some conn0 ∧ (sEth conn0).fabtime.toNat = conn0.progress + 200000
    ∧ (sEth { conn0 with port := 3 }).maySend 3 0 = true ∧ (sEth { conn0 with port := 3 }).maySend 3 1 = true
    ∧ goes (exec (.ackTimer (connKey 2 3)) (sEth { conn0 with port := 3 })) = true
    ∧ goes (exec (.retransmitTimeout (connKey 2 3)) (sEth conn0)) = true
    ∧ ([pk 1, pk 2].filter fun p => psnAhead p.psn 2 < 2 ^ 31).length = 1
    ∧ ([Instr.dataPkt 3 (hd 7) [], .noticePkt 3 (hd 7) (note 1 0), .ackPkt 3 (hd 2), .nackPkt 3 (hd 2)].all fun i => goes (exec i (sEth conn0))) = true := by
  refine ⟨?_, ?_, ?_, ?_, ?_, ?_, ?_, ?_⟩ <;> decide +kernel
theorem witness_FabricEvents_collective :
    (leBytes 36 36).length = 36 ∧ leNat ((leBytes 36 36).take 4) = 36 ∧ (sEth conn0).groupTable (collOfBytes (leBytes 36 36)).group = none
    ∧ (sEth conn0).localRanks (collOfBytes (leBytes 36 36)).group = []
    ∧ goes (exec (.dataPkt 3 { hd 7 with vc := 2 } (leBytes 36 36)) (sEth conn0)) = true
    ∧ goes (exec (.timePkt 3 (hd 0) 200050) { sEth conn0 with fwCores := 0xFF }) = true := by
  refine ⟨?_, ?_, ?_, ?_, ?_, ?_⟩ <;> decide +kernel
theorem witness_FabricEvents_unreachable :
    (sEth { conn0 with timeouts := 15 }).nextPort 2 0 = none := by decide +kernel
theorem witness_FabricEvents_ports :
    goes (exec (.pfcPauseExpiry 3 7) { State.reset with pfcPause := [(31, 0)] }) = true
    ∧ ((sEth conn0).creg .hub (ethOff 3 0)).getLsbD 1 = true ∧ goes (exec (.pfcReceive 3 7 1) (sEth conn0)) = true
    ∧ ([Instr.ethLinkUpDown 3 true, .fecAlignmentLock 3 false].all fun i => goes (exec i (sEth conn0))) = true
    ∧ ((sEth conn0).frameBad 3 (frame0 4), (sEth conn0).packetBad 3 (frame0 4), (sEth conn0).packetBad 3 (frame0 5)) = (false, false, true)
    ∧ ([frame0 4, frame0 5].all fun f => goes (exec (.ethFrameReceive 3 f) ((sEth conn0).setCreg .hub (ethOff 3 0) 1))) = true
    ∧ goes (exec (.timePkt 3 (hd 0) 200051) { sEth conn0 with fwCores := 0xFF }) = true := by
  refine ⟨?_, ?_, ?_, ?_, ?_, ?_, ?_⟩ <;> decide +kernel
/-- A package that some link reaches has its link, whatever the hash chooses. -/
theorem linkFor_some {s : State} {dst : Nat} (pa : Nat) (h : 0 < (s.linksTo dst).length) : ∃ i, s.linkFor dst pa = some i :=
  ⟨_, List.getElem?_eq_getElem (Nat.lt_of_lt_of_le (Nat.mod_lt _ (by omega)) (by omega))⟩
theorem witness_FabricEvents_accesses :
    sPeer.keyKind 2047 = 3 ∧ sPeer.tenantValid (sPeer.keyOwner 2047) = true ∧ sPeer.tenantPart (sPeer.keyOwner 2047) = 0 ∧ sPeer.chanOf 0 0 = true ∧ sPeer.keyKind 0 = 0
    ∧ (∃ i, sPeer.linkFor 1 0 = some i) ∧ sPeer.partOfPa 0 = some 0 ∧ ({ sPeer with tdi := [(0, 2)] } : State).tdiHeld 0 = true
    ∧ sPeer.chanOf 7 0 = false ∧ sPeer.hostReach 0 .hub 8 = true
    ∧ ([Instr.peerAccessReceive 0 2047 0 ⟨1, .write [1]⟩, .peerAccessReceive 0 0 0 ⟨1, .write [1]⟩,
        .hostLinkAccess (.memory (some 7) 0) (.write [1]), .hostLinkAccess (.bar0 0 .hub 8) (.read 8),
        .hostLinkAccess (.staging (2 ^ 24 - 1)) (.write [1])].all fun i => goes (exec i sPeer)) = true := by
  refine ⟨?_, ?_, ?_, ?_, ?_, linkFor_some _ (by decide +kernel), ?_, ?_, ?_, ?_, ?_⟩ <;> decide +kernel

theorem witness_RoundTrip : (Instr.smovi64 { k0 with i := 1 } 5).hasWord = true ∧ (256 : Nat) ≤ (List.replicate 256 (0 : Byte)).length
    ∧ (match decodeBytes (List.replicate 256 (0 : Byte)) with
      | some (.ok (i, _)) => decide (i = Instr.nop c0)
      | _ => false) = true := by
  refine ⟨?_, ?_, ?_⟩
  · decide
  · decide
  · decide +kernel
theorem witness_StepKeepsMemoryForm : State.reset.memWf = true ∧ goes (step State.reset) = true := by decide +kernel
/-- The reset state with a word of zeros, NOP, placed: its agenda's first entry is the issue of that word. -/
def sNop : State := State.reset.withFetchWord 128 0
def sTnop : State := State.reset.withFetchWord 128 (0xC * 2 ^ 124)
theorem witness_StepKeepsGangs :
    sNop.unitsWf = true ∧ goes (step sNop) = true ∧ (sNop.gangs.find? 1).map (fun g => (g.xcount, g.xlimit, g.waits)) = some (0, 0, [])
    ∧ (sNop.wgs.all fun e => !(decide (e.2.status = .saved))) = true := by
  refine ⟨?_, ?_, ?_, ?_⟩ <;> decide +kernel
theorem witness_StepRuns :
    (State.reset.agenda = [] ∧ sNop.powered = true ∧ sNop.agenda = [.issue 1 0 0 none]
      ∧ (sNop.gangs.find? 1).map (fun g => !g.parked && g.active && !g.fresh && g.groupAt 0 0 false = -1 && g.ordAllows (-1) && g.cancel.isNone) = some true
      ∧ (sNop.wgs.find? 1).map (fun w => (w.status, w.preempt, w.dying, sNop.partStopped (sNop.tenantPart w.tenant))) = some (.resident, false, false, false)
      ∧ (sNop.gangs.find? 1).map (fun g => sNop.travelWait 1 g (.nop c0)) = some false)
    ∧ (match (sNop.wgs.find? 1), sNop.gangs.find? 1 with
        | some w, some g => (match sNop.codeLine w g.codemap 0 with
          | .ok l => l.start 0 && l.target 0 && l.word 0 = 0 && clsOf (l.word 1) ≠ 0xF
          | _ => false)
        | _, _ => false) = true
    ∧ encode (.nop c0) = some [0] ∧ (Instr.nop c0).hasWord = true ∧ (Instr.nop c0).contOwner = none
    ∧ (sTnop.agenda = [.decodeTask 0 0] ∧ sTnop.decodes 0 0 = true ∧ sTnop.portHeld 0 0 = false ∧ sTnop.partStopped 0 = false ∧ (sTnop.port 0 0).denied = none
      ∧ encode (.tnop t0) = some [0xC * 2 ^ 124] ∧ sTnop.streamWords 0 0 1 = .ok [0xC * 2 ^ 124] ∧ sTnop.streamWords 0 16 0 = .ok [])
    ∧ goes (exec .powerOff { State.reset with agenda := [] }) = true := by
  refine ⟨⟨?_, ?_, ?_, ?_, ?_, ?_⟩, ?_, ?_, ?_, ?_, ⟨?_, ?_, ?_, ?_, ?_, ?_, ?_, ?_⟩, ?_⟩ <;> decide +kernel

end Sys2Proof.Tests
end

section
/-! PROOFS. O59: every step keeps the memories in canonical form (00 R5, 14 R281, R287, log 6). `MemsWf` says the form of
the three memories as a proposition; the rules of the first part say what keeps it (a record update that touches no memory,
a choice, a fold, a change of one workgroup, a write), and then one lemma for each function of the model that answers a
state says that it keeps the form, in the model's own order, up to `step`. Only the writes of bytes, the drains, the rekeyed
lines and the scratchpads that come and go have more to say than that they leave the memories alone. -/

namespace Sys2Proof

theorem SMap.mem_of_mem_del {α : Type} {m : SMap α} {k : Nat} {e : Nat × α} (h : e ∈ m.del k) : e ∈ m := by
  induction m with
  | nil => exact h
  | cons x m ih =>
    obtain ⟨j, u⟩ := x
    by_cases hj : j = k
    · simp only [SMap.del, hj, if_true] at h
      exact List.mem_cons_of_mem _ (ih h)
    · simp only [SMap.del, hj, if_false, List.mem_cons] at h
      exact List.mem_cons.mpr (h.imp_right ih)

theorem SMap.mem_of_mem_set {α : Type} {m : SMap α} {k : Nat} {v : α} {e : Nat × α} (h : e ∈ m.set k v) : e = (k, v) ∨ e ∈ m := by
  induction m with
  | nil => exact .inl (List.mem_singleton.mp h)
  | cons x m ih =>
    obtain ⟨j, u⟩ := x
    simp only [SMap.set] at h
    split at h
    · exact List.mem_cons.mp h
    · split at h
      · exact (List.mem_cons.mp h).imp_right (List.mem_cons_of_mem _)
      · obtain rfl | h := List.mem_cons.mp h
        · exact .inr (List.mem_cons_self ..)
        · exact (ih h).imp_right (List.mem_cons_of_mem _)

end Sys2Proof

namespace Sys2Proof.Machine

/-- Three memories in canonical form: HBM, the vaults, and the scratchpads of the workgroups. -/
def MemsWf (mem vmem : SMap Byte) (wgs : SMap Wg) : Prop :=
  Memory.wf mem = true ∧ Memory.wf vmem = true ∧ wgs.all (fun e => Memory.wf e.2.scr) = true

/-- Every memory of the device is in canonical form. -/
def State.MemWf (s : State) : Prop := MemsWf s.mem s.vmem s.wgs

theorem State.memWf_iff {s : State} : s.memWf = true ↔ s.MemWf := by
  simp only [State.memWf, State.MemWf, MemsWf, Bool.and_eq_true, and_assoc]

/-- A meaning that goes on leaves every memory in canonical form. -/
def OutWf (o : Out) : Prop := ∀ t, o = .next t → t.MemWf

section
variable {s t : State}

/-- A record update that leaves the memories and the workgroups alone keeps the canonical form. -/
theorem State.MemWf.frame (h : match t with | { mem := m, vmem := v, wgs := w, .. } => MemsWf m v w) : t.MemWf := h

theorem State.MemWf.ite {c : Prop} [Decidable c] (hs : s.MemWf) (ht : t.MemWf) : (if c then s else t).MemWf := by
  split <;> assumption

theorem State.MemWf.foldl {α : Type} {f : State → α → State} {xs : List α} (h : s.MemWf)
    (hf : ∀ s x, s.MemWf → (f s x).MemWf) : (xs.foldl f s).MemWf := by
  induction xs generalizing s with
  | nil => exact h
  | cons x xs ih => exact ih (hf s x h)

/-- A fold over a state and a value beside it. -/
theorem State.MemWf.foldlFst {α β : Type} {f : State × β → α → State × β} {xs : List α} {p : State × β} (h : p.1.MemWf)
    (hf : ∀ p x, p.1.MemWf → (f p x).1.MemWf) : (xs.foldl f p).1.MemWf := by
  induction xs generalizing p with
  | nil => exact h
  | cons x xs ih => exact ih (hf p x h)

theorem State.MemWf.foldlSnd {α β : Type} {f : β × State → α → β × State} {xs : List α} {p : β × State} (h : p.2.MemWf)
    (hf : ∀ p x, p.2.MemWf → (f p x).2.MemWf) : (xs.foldl f p).2.MemWf := by
  induction xs generalizing p with
  | nil => exact h
  | cons x xs ih => exact ih (hf p x h)

theorem State.MemWf.of_fst {α : Type} {p : State × α} {x : α} (h : p.1.MemWf) (e : p = (s, x)) : s.MemWf := by
  subst e; exact h
theorem State.MemWf.of_snd {α : Type} {p : α × State} {x : α} (h : p.2.MemWf) (e : p = (x, s)) : s.MemWf := by
  subst e; exact h
theorem State.MemWf.of_snd_snd {α β : Type} {p : α × β × State} {x : α} {y : β} (h : p.2.2.MemWf) (e : p = (x, y, s)) :
    s.MemWf := by
  subst e; exact h

theorem State.MemWf.next (h : s.MemWf) : OutWf (.next s) := by
  rintro t ⟨rfl⟩; exact h
theorem OutWf.fault {r : Fault} : OutWf (.fault r) := by
  intro t h; cases h
theorem OutWf.refused {r : Refusal} : OutWf (.refused r) := by
  intro t h; cases h
theorem OutWf.next (h : s.MemWf) : OutWf (.next s) := h.next
theorem OutWf.ite {c : Prop} [Decidable c] {o p : Out} (ho : OutWf o) (hp : OutWf p) : OutWf (if c then o else p) := by
  split <;> assumption
theorem State.MemWf.finish (h : s.MemWf) : OutWf (finish s) := by
  unfold Machine.finish
  split
  · exact OutWf.fault
  · exact h.next

/-- A workgroup that keeps its scratchpad keeps the canonical form. -/
theorem State.MemWf.updWg {w : Nat} {f : Wg → Wg} (h : s.MemWf) (hf : ∀ g, (match f g with | { scr := x, .. } => x) = g.scr) :
    (s.updWg w f).MemWf := by
  obtain ⟨hm, hv, hw⟩ := h
  refine ⟨hm, hv, scr_canon w f (fun g hg => ?_) hw⟩
  have : (f g).scr = g.scr := hf g
  rwa [this]
/-- Every workgroup's scratchpad is in canonical form. -/
theorem State.MemWf.scr_wf (h : s.MemWf) {e : Nat × Wg} (he : e ∈ s.wgs) : Memory.wf e.2.scr = true :=
  List.all_eq_true.mp h.2.2 e he
/-- The memories of a state beside other workgroups. -/
theorem State.MemWf.withWgs {ws : SMap Wg} (h : s.MemWf) (hw : ∀ e ∈ ws, Memory.wf e.2.scr = true) : MemsWf s.mem s.vmem ws :=
  ⟨h.1, h.2.1, List.all_eq_true.mpr hw⟩
/-- The workgroups that are left keep their scratchpads. -/
theorem State.MemWf.delWg {w : Nat} (h : s.MemWf) : State.MemWf { s with wgs := s.wgs.del w } :=
  .frame (h.withWgs fun _ he => h.scr_wf (SMap.mem_of_mem_del he))
/-- A workgroup that is written, with its scratchpad in canonical form. -/
theorem State.MemWf.setWg {w : Nat} {v : Wg} (h : s.MemWf) (hv : Memory.wf v.scr = true) :
    MemsWf s.mem s.vmem (s.wgs.set w v) :=
  h.withWgs fun e he => by
    obtain rfl | he := SMap.mem_of_mem_set he
    · exact hv
    · exact h.scr_wf he

theorem State.MemWf.homeWrite {k bs gang cmd} (h : s.MemWf) : (s.homeWrite k bs gang cmd).MemWf :=
  State.memWf_iff.mp (State.homeWrite_memWf k bs gang cmd (State.memWf_iff.mpr h))
theorem State.MemWf.rekeyLine {l t} (h : s.MemWf) : (s.rekeyLine l t).MemWf :=
  State.memWf_iff.mp (State.rekeyLine_memWf l t (State.memWf_iff.mpr h))
end
end Sys2Proof.Machine
end

section
namespace Sys2Proof.Machine
variable {s : State}

/-! ### The state -/

theorem State.MemWf.reset : State.reset.MemWf := State.memWf_iff.mp reset_memWf

/-! ### Shared operations -/

theorem State.MemWf.setGang {gid g} (h : s.MemWf) : (s.setGang gid g).MemWf := .frame h
theorem State.MemWf.updGang {gid f} (h : s.MemWf) : (s.updGang gid f).MemWf := .frame h
theorem State.MemWf.updLaunch {l f} (h : s.MemWf) : (s.updLaunch l f).MemWf := .frame h
theorem State.MemWf.defer (h : s.MemWf) : s.defer.MemWf := .frame h
theorem State.MemWf.takeFree (h : s.MemWf) : s.takeFree.2.MemWf := .frame h
theorem State.MemWf.setCreg {p off v} (h : s.MemWf) : (s.setCreg p off v).MemWf := .frame h
theorem State.MemWf.setCpart {pid p} (h : s.MemWf) : (s.setCpart pid p).MemWf := .frame h
theorem State.MemWf.setCregNext {p off v} (h : s.MemWf) : (s.setCregNext p off v).MemWf := .frame h

theorem State.MemWf.checkPa {pa} (h : s.MemWf) : (s.checkPa pa).MemWf := by
  unfold State.checkPa
  exact .ite h (.frame h)

theorem State.MemWf.dispatchFlit {o} (h : s.MemWf) : (s.dispatchFlit o).MemWf := by
  unfold State.dispatchFlit
  split
  · exact h
  · exact .frame h

theorem State.MemWf.fabricSend {vc dst bytes x} (h : s.MemWf) : (s.fabricSend vc dst bytes x).MemWf := h.dispatchFlit
theorem State.MemWf.peerSend {e a acc gang cmd} (h : s.MemWf) : (s.peerSend e a acc gang cmd).MemWf := h.fabricSend

theorem State.MemWf.wakeSleeper {w} (h : s.MemWf) : (s.wakeSleeper w).MemWf := by
  unfold State.wakeSleeper
  split
  · exact h.updGang
  · exact .frame h

theorem State.MemWf.wakeWrites {k addrs} (h : s.MemWf) : (s.wakeWrites k addrs).MemWf := by
  unfold State.wakeWrites
  exact .foldl (.frame h) fun _ _ h => h.foldl fun _ _ h => h.wakeSleeper

theorem State.MemWf.poisonAt {k a} (h : s.MemWf) : (s.poisonAt k a).MemWf := by
  unfold State.poisonAt
  split
  · exact .frame h
  · exact h.updWg fun _ => rfl
  · exact .frame h
  · exact h

theorem State.MemWf.reportPoison {launch l n} (h : s.MemWf) : (s.reportPoison launch l n).MemWf := by
  unfold State.reportPoison
  split
  · exact .ite h h.updLaunch
  · exact h

theorem State.MemWf.l2Access {part t pa byp wr} (h : s.MemWf) : (s.l2Access part t pa byp wr).MemWf := by
  unfold State.l2Access
  extract_lets
  split
  · exact .frame h
  · split <;> exact .frame h

theorem State.MemWf.l2Use {key pa byp wr} (h : s.MemWf) : (s.l2Use key pa byp wr).MemWf := by
  unfold State.l2Use
  exact .ite h h.l2Access

theorem State.MemWf.walkUse {unit tenant x} (h : s.MemWf) : (s.walkUse unit tenant x).MemWf := by
  unfold State.walkUse
  exact .ite h (h.foldl fun _ _ h => h.l2Access)

theorem State.MemWf.walksUse {unit tenant xs} (h : s.MemWf) : (s.walksUse unit tenant xs).MemWf :=
  h.foldl fun _ _ h => h.walkUse

theorem State.MemWf.dropL1Cluster {cl line} (h : s.MemWf) : (s.dropL1Cluster cl line).MemWf := .frame h

theorem State.MemWf.drainPoint {cl line} (h : s.MemWf) : (s.drainPoint cl line).MemWf := by
  unfold State.drainPoint
  split
  · exact h
  · exact .foldl (.homeWrite (.l2Use (.dropL1Cluster (.frame h)))) fun _ _ h => h.reportPoison

theorem State.MemWf.drainToPoint {core line} (h : s.MemWf) : (s.drainToPoint core line).MemWf := by
  unfold State.drainToPoint
  split
  · exact h
  · exact .frame h

theorem State.MemWf.drainLine {core line} (h : s.MemWf) : (s.drainLine core line).MemWf := by
  unfold State.drainLine
  exact .ite h.drainToPoint.drainPoint h

theorem State.MemWf.drainScope {core scope} (h : s.MemWf) : (s.drainScope core scope).MemWf := by
  unfold State.drainScope
  split
  · exact h
  · extract_lets s1
    have h1 : s1.MemWf := h.foldl fun _ _ h => h.drainToPoint
    exact .ite h1 (h1.foldl fun _ _ h => h.drainPoint)

theorem State.MemWf.drainForStore {core line} (h : s.MemWf) : (s.drainForStore core line).MemWf :=
  h.drainLine.drainPoint

theorem State.MemWf.dropL1 {core line} (h : s.MemWf) : (s.dropL1 core line).MemWf := .frame h

theorem State.MemWf.storeBytes {core p bs} (h : s.MemWf) : (s.storeBytes core p bs).MemWf := by
  unfold State.storeBytes
  split
  · exact h.drainForStore.dropL1.homeWrite
  · exact h.homeWrite

theorem State.MemWf.strStore {core p key tenant launch bs} (h : s.MemWf) :
    (s.strStore core p key tenant launch bs).MemWf := by
  unfold State.strStore
  extract_lets line s1
  have h1 : s1.MemWf := by
    unfold s1
    split
    · exact h
    · split
      · exact h.drainLine
      · exact h
  exact .dropL1 (.frame h1)

theorem State.MemWf.pruneMonitors (h : s.MemWf) : s.pruneMonitors.MemWf := .frame h
theorem State.MemWf.enqueueStarter {cl es} (h : s.MemWf) : (s.enqueueStarter cl es).MemWf := .frame h

theorem State.MemWf.releaseGangs {cl gids p} (h : s.MemWf) : (s.releaseGangs cl gids p).MemWf := by
  unfold State.releaseGangs
  exact (h.foldl fun _ _ h => h.updGang).enqueueStarter.pruneMonitors

theorem State.MemWf.checkBar {wid b} (h : s.MemWf) : (s.checkBar wid b).MemWf := by
  unfold State.checkBar
  split
  · exact h
  · exact .ite (.frame (State.MemWf.releaseGangs (h.updWg fun _ => rfl))) (h.updWg fun _ => rfl)

theorem State.MemWf.acquireCore {core scope} (h : s.MemWf) : (s.acquireCore core scope).MemWf := by
  unfold State.acquireCore
  exact .ite h (.frame h)

theorem State.MemWf.checkBarc {wid b engineIdle} (h : s.MemWf) : (s.checkBarc wid b engineIdle).MemWf := by
  unfold State.checkBarc
  split
  · exact h
  · extract_lets ms ok s1 s2 s3
    have h1 : s1.MemWf := h.foldl fun _ _ h => h.drainScope
    have h2 : s2.MemWf := h1.foldl fun _ _ h => h.acquireCore
    have h3 : s3.MemWf := h2.foldl fun _ _ h => h.updWg fun v => by by_cases hb : b = 4 <;> simp [hb]
    exact .ite (.frame h3.releaseGangs) (h.foldl fun _ _ h => h.updWg fun v => by by_cases hb : b = 4 <;> simp [hb])

theorem State.MemWf.checkBarg {lid b} (h : s.MemWf) : (s.checkBarg lid b).MemWf := by
  unfold State.checkBarg
  split
  · exact h
  · extract_lets ws arrivedWg r s1 s2 cls k order gidsOf s3 s4
    have h1 : s1.MemWf := h.foldl fun _ _ h => h.drainScope
    have h2 : s2.MemWf := h1.foldl fun _ _ h => h.acquireCore
    have h3 : s3.MemWf := h2.foldl fun _ _ h => h.foldl fun _ _ h => h.updGang
    have h4 : s4.MemWf := h3.foldl fun _ _ h => h.enqueueStarter
    exact .ite (.pruneMonitors (.frame h4)) h.updLaunch

theorem State.MemWf.signal {tenant off} (h : s.MemWf) : (s.signal tenant off).MemWf := by
  unfold State.signal
  exact .ite h (.frame h)

theorem State.MemWf.writeShadow {q head hold} (h : s.MemWf) : (s.writeShadow q head hold).MemWf := by
  unfold State.writeShadow
  extract_lets
  split
  · extract_lets
    refine .homeWrite ?_
    split
    · exact h.walkUse.checkPa.l2Use
    · exact h.walkUse.checkPa
  · exact .ite (.frame h) h
  · exact h

theorem State.MemWf.advanceHead {q} (h : s.MemWf) : (s.advanceHead q).MemWf := by
  unfold State.advanceHead
  exact .ite h (.writeShadow (.frame h))

theorem State.MemWf.markCopied {q t} (h : s.MemWf) : (s.markCopied q t).MemWf := by
  unfold State.markCopied
  exact .advanceHead (.frame h)

theorem State.MemWf.ringWrite {pid k r} (h : s.MemWf) : (s.ringWrite pid k r).MemWf := by
  unfold State.ringWrite
  exact h.checkPa.homeWrite

theorem State.MemWf.setRing {pid count head} (h : s.MemWf) : (s.setRing pid count head).MemWf := h.setCreg

theorem State.MemWf.placeRec {pid r} (h : s.MemWf) : (s.placeRec pid r).2.MemWf := by
  unfold State.placeRec
  split
  · exact h.setCpart
  · extract_lets
    split
    · exact h.ringWrite.setRing
    · exact h.setCreg

theorem State.MemWf.refill {pid n} (h : s.MemWf) : (s.refill pid n).MemWf := by
  induction n generalizing s with
  | zero => exact h
  | succ n ih =>
    unfold State.refill
    extract_lets
    split
    · exact h
    · split
      · exact h
      · exact ih h.setCpart.setRing

theorem State.MemWf.ringFilter {pid bad} (h : s.MemWf) : (s.ringFilter pid bad).MemWf := by
  unfold State.ringFilter
  extract_lets n keep s1
  have h1 : s1.MemWf := by
    unfold s1
    refine h.foldl fun _ _ h => ?_
    split
    · exact h.ringWrite
    · exact h
  exact .ite h h1.setRing

theorem State.MemWf.dropRecords {lids} (h : s.MemWf) : (s.dropRecords lids).MemWf :=
  h.foldl fun _ _ h => h.setCpart.ringFilter.refill

theorem State.MemWf.countUnit {lid binGang canc} (h : s.MemWf) : (s.countUnit lid binGang canc).MemWf := by
  unfold State.countUnit
  split
  · exact h
  · exact .ite h.updLaunch (.frame h)

theorem State.MemWf.giveUpIndices {g tenant} (h : s.MemWf) : (s.giveUpIndices g tenant).MemWf := by
  unfold State.giveUpIndices
  refine h.foldl fun _ _ h => ?_
  split
  · exact h.markCopied.signal
  · exact h

theorem State.MemWf.keepCounts {gid} (h : s.MemWf) : (s.keepCounts gid).MemWf := by
  unfold State.keepCounts
  split
  · exact h
  · exact .frame h

theorem State.MemWf.removeGang {gid} (h : s.MemWf) : (s.removeGang gid).MemWf := by
  unfold State.removeGang
  exact .pruneMonitors (.frame h.keepCounts)

theorem State.MemWf.holdScr {w} (h : s.MemWf) : (s.holdScr w).MemWf := by
  unfold State.holdScr
  exact .ite h (.ite (.frame h) (.frame h))

theorem State.MemWf.endWg {wid canc} (h : s.MemWf) : (s.endWg wid canc).MemWf := by
  unfold State.endWg
  split
  · exact h
  · exact .delWg h.drainScope.countUnit.holdScr

theorem State.MemWf.checkGrids {lid} (h : s.MemWf) : (s.checkGrids lid).MemWf := h.foldl fun _ _ h => h.checkBarg

theorem State.MemWf.endGang {gid canc engineIdle} (h : s.MemWf) : (s.endGang gid canc engineIdle).MemWf := by
  unfold State.endGang
  split
  · exact h
  · extract_lets s1 s2 s3
    have h1 : s1.MemWf := h.removeGang.updWg fun _ => rfl
    have h2 : s2.MemWf := h1.foldl fun _ _ h => h.checkBar
    have h3 : s3.MemWf := h2.foldl fun _ _ h => h.checkBarc
    split
    · exact h1
    · exact .ite h1.endWg.checkGrids h3.checkGrids

theorem State.MemWf.dropWg {wid canc} (h : s.MemWf) : (s.dropWg wid canc).MemWf := by
  unfold State.dropWg
  split
  · exact h
  · exact (h.foldl fun _ _ h => h.giveUpIndices.removeGang).endWg

theorem State.MemWf.cancelLaunch {lid level whole} (h : s.MemWf) : (s.cancelLaunch lid level whole).MemWf := by
  unfold State.cancelLaunch
  split
  · exact h
  · exact .frame (h.foldl fun _ _ h => h.countUnit)

theorem State.MemWf.terminateNow {wid r} (h : s.MemWf) : (s.terminateNow wid r).MemWf := by
  unfold State.terminateNow
  split
  · exact h
  · exact .checkGrids (.dropRecords (.cancelLaunch (.updLaunch (.ite h.dropWg (h.foldl fun _ _ h => h.dropWg)))))

theorem State.MemWf.terminate {wid r} (h : s.MemWf) : (s.terminate wid r).MemWf := by
  unfold State.terminate
  exact .ite h.terminateNow (.ite h (.frame (h.updWg fun _ => rfl)))

theorem State.MemWf.waitedTerms (h : s.MemWf) : s.waitedTerms.MemWf := by
  unfold State.waitedTerms
  exact .ite (.foldl (.frame h) fun _ _ h => h.terminateNow) h

theorem State.MemWf.takeTrap {gid lanes cause pc addr} (h : s.MemWf) : (s.takeTrap gid lanes cause pc addr).MemWf := by
  unfold State.takeTrap
  split
  · exact h
  · exact .ite h.terminate h.updGang.pruneMonitors

/-! ### Core words -/

theorem State.MemWf.chargeIssue {gid} (h : s.MemWf) : (s.chargeIssue gid).MemWf := by
  unfold State.chargeIssue
  split
  · exact h
  · split
    · exact h
    · extract_lets s1 s2
      have h2 : s2.MemWf := h.updGang.updWg fun _ => rfl
      split
      · exact h2
      · exact h2.setCpart

theorem State.MemWf.parkPages {gid tenant vas kind lanes pc report} (h : s.MemWf) :
    (s.parkPages gid tenant vas kind lanes pc report).MemWf :=
  .frame h

theorem State.MemWf.parkPage {gid tenant va kind lanes pc} (h : s.MemWf) :
    (s.parkPage gid tenant va kind lanes pc).MemWf :=
  h.parkPages

theorem State.MemWf.failCheck {c k} (h : s.MemWf) : (s.failCheck c k).MemWf := by
  unfold State.failCheck
  split
  · exact h
  · exact h.takeTrap
  · exact h.updGang
  · exact h.parkPages
  · exact h.parkPages
  · exact h.terminate

theorem State.MemWf.passWord {c u} (h : s.MemWf) : (s.passWord c u).MemWf := h.updGang
theorem State.MemWf.faultWord {c u} (h : s.MemWf) : (s.faultWord c u).MemWf := h.chargeIssue.updGang

theorem State.MemWf.coreWord {i u chk body} (h : s.MemWf) (hbody : ∀ c t, t.MemWf → (body c t).MemWf) :
    OutWf (Machine.coreWord i u chk body s) := by
  unfold Machine.coreWord
  cases s.ctxOf u with
  | none => exact h.next
  | some c =>
    dsimp only
    generalize u.first.next _ = k
    cases k
    case ok =>
      dsimp only
      split
      · exact h.next
      · generalize Check.next _ _ = k
        cases k
        case ok => exact (hbody _ _ h.chargeIssue.passWord).finish
        case wait | page | codePage => all_goals exact h.failCheck.finish
        case trap | kill => all_goals exact h.faultWord.failCheck.finish
    case wait | page | codePage => all_goals exact h.failCheck.finish
    case kill => exact h.faultWord.failCheck.finish
    case trap cause a =>
      -- the match compares the cause with the number 8
      obtain _ | _ | _ | _ | _ | _ | _ | _ | _ | n := cause
      case succ.succ.succ.succ.succ.succ.succ.succ.zero => exact h.faultWord.updGang.failCheck.finish
      all_goals exact h.faultWord.failCheck.finish

theorem State.MemWf.onGang {f c} (h : s.MemWf) : (Machine.onGang f c s).MemWf := by
  unfold Machine.onGang
  exact .ite h h.updGang

theorem State.MemWf.eachLane {f c} (h : s.MemWf) : (Machine.eachLane f c s).MemWf := h.onGang

/-! ### Integer words -/

theorem State.MemWf.intWord {i w n d32 f} (h : s.MemWf) : OutWf (Machine.intWord i w n d32 f s) :=
  h.coreWord fun _ _ h => h.eachLane

/-! ### Floating-point words -/

theorem State.MemWf.fpWord {i w n mods f} (h : s.MemWf) : OutWf (Machine.fpWord i w n mods f s) :=
  h.coreWord fun _ _ h => h.eachLane

theorem State.MemWf.fpLong {i w n f} (h : s.MemWf) : OutWf (Machine.fpLong i w n f s) :=
  h.coreWord fun _ _ h => h.onGang

/-! ### Paired words -/

theorem State.MemWf.execVpair {w} (h : s.MemWf) : OutWf (Machine.execVpair w s) := by
  unfold Machine.execVpair
  exact h.coreWord fun _ _ h => h.onGang

/-! ### Fetch -/

theorem State.MemWf.fetchUse {unit tenant codemap line} (h : s.MemWf) :
    (s.fetchUse unit tenant codemap line).MemWf := by
  unfold State.fetchUse
  extract_lets dir use n seen s1
  have huse : ∀ acc s' x, s'.MemWf → (use acc s' x).MemWf := by
    intro acc s' x hs'
    unfold use
    split
    · split
      · exact hs'.walkUse.l2Use
      · exact hs'
    · exact hs'.walkUse
  have h1 : s1.MemWf := h.foldl fun _ _ h => huse _ _ _ h
  split
  · exact huse _ _ _ (huse _ _ _ h1)
  · exact h1

/-! ### Control words -/

theorem State.MemWf.fenceSc {core scope} (h : s.MemWf) : (s.fenceSc core scope).MemWf := h.drainScope.acquireCore

theorem State.MemWf.branchWord {i u link f} (h : s.MemWf) : OutWf (Machine.branchWord i u link f s) :=
  h.coreWord fun _ _ h => h.eachLane

theorem State.MemWf.checkBarriers {wid} (h : s.MemWf) : (s.checkBarriers wid).MemWf := by
  unfold State.checkBarriers
  split
  · exact h
  · exact ((h.foldl fun _ _ h => h.checkBar).foldl fun _ _ h => h.checkBarc).foldl fun _ _ h => h.checkBarg

theorem State.MemWf.exitNow {gid m} (h : s.MemWf) : (s.exitNow gid m).MemWf := by
  unfold State.exitNow
  extract_lets
  split
  · exact h.updGang
  · exact .ite h.updGang.endGang h.updGang.checkBarriers

theorem State.MemWf.execExit {w} (h : s.MemWf) : OutWf (Machine.execExit w s) := by
  unfold Machine.execExit
  refine h.coreWord fun _ _ h => ?_
  split
  · exact h
  · exact .ite (.ite h h.updGang) (.exitNow (.ite h h.updGang))

theorem State.MemWf.codeTrap {i w cause} (h : s.MemWf) : OutWf (Machine.codeTrap i w cause s) := by
  unfold Machine.codeTrap
  exact h.coreWord fun _ _ h => .ite h h.takeTrap

theorem State.MemWf.serviceCall {c n} (h : s.MemWf) : (s.serviceCall c n).MemWf := by
  unfold State.serviceCall
  extract_lets
  split
  · exact h.updGang
  · split
    rename_i s1 e
    have h1 : s1.MemWf := .of_snd h.takeFree e
    split
    · exact h1.updGang
    · exact .ite h1.updGang (.updGang (.frame h1))
  · exact h.updGang
  · exact h.terminate
  · exact h.updGang

theorem State.MemWf.execSyscall {w} (h : s.MemWf) : OutWf (Machine.execSyscall w s) := by
  unfold Machine.execSyscall
  exact h.coreWord fun _ _ h => .ite (h.updWg fun _ => rfl) (.serviceCall (.fenceSc (h.updWg fun _ => rfl)))

/-! ### Memory words -/

theorem State.MemWf.clearResident {id} (h : s.MemWf) : (s.clearResident id).MemWf := .frame h

theorem State.MemWf.touch {n p byp wr} (h : s.MemWf) : (s.touch n p byp wr).MemWf := by
  unfold State.touch
  split
  · exact h.checkPa.l2Use
  · exact .frame (State.MemWf.ite h h.peerSend)
  · exact h

theorem State.MemWf.useBytes {tenant n} (h : s.MemWf) : (s.useBytes tenant n).MemWf := .frame h

theorem State.MemWf.touchFor {tenant n p byp wr} (h : s.MemWf) : (s.touchFor tenant n p byp wr).MemWf := by
  unfold State.touchFor
  split
  · exact h.touch.useBytes
  · exact h.useBytes
  · exact h.touch

theorem State.MemWf.touchAt {core tenant n p byp wr} (h : s.MemWf) : (s.touchAt core tenant n p byp wr).MemWf := by
  unfold State.touchAt
  extract_lets
  split
  · exact h.touchFor.setCreg
  · exact h.touchFor

theorem State.MemWf.sendVault {c n prod p act} (h : s.MemWf) : (s.sendVault c n prod p act).MemWf := .frame h

theorem State.MemWf.beforeCarrier {core p} (h : s.MemWf) : (s.beforeCarrier core p).MemWf := by
  unfold State.beforeCarrier
  split
  · exact .ite h.drainScope h
  · exact h

theorem State.MemWf.afterCarrier {core p} (h : s.MemWf) : (s.afterCarrier core p).MemWf := by
  unfold State.afterCarrier
  split
  · exact .ite h.acquireCore h
  · exact h

theorem State.MemWf.memWalks {w low c} (h : s.MemWf) : (Machine.memWalks w low c s).MemWf := by
  unfold Machine.memWalks
  exact .ite h.walksUse h

theorem State.MemWf.carrierBody {w low f c} (h : s.MemWf) (hf : ∀ c t t', t.MemWf → t'.MemWf → (f c t t').MemWf) :
    (Machine.carrierBody w low f c s).MemWf := by
  unfold Machine.carrierBody
  exact .ite h (.afterCarrier (hf _ _ _ h h.beforeCarrier.memWalks))

theorem State.MemWf.wrote {wid} (h : s.MemWf) : (s.wrote wid).MemWf := h.updWg fun _ => rfl

theorem State.MemWf.readLane {core tenant pl p n} (h : s.MemWf) : (s.readLane core tenant pl p n).2.2.MemWf := by
  unfold State.readLane
  extract_lets str s1 v s2
  have h2 : s2.MemWf := by
    unfold s2
    split
    · exact .ite h.touchAt h.touchAt.dropL1
    · exact h.touchAt
  exact h2

theorem State.MemWf.sendReads {w c t prod ls keys} (h : s.MemWf) : (s.sendReads w c t prod ls keys).MemWf :=
  h.foldl fun _ _ h => h.sendVault

theorem State.MemWf.execLd {w} (h : s.MemWf) : OutWf (Machine.execLd w s) := by
  unfold Machine.execLd
  extract_lets
  exact h.coreWord fun _ _ h => h.carrierBody fun _ _ _ h h' => .ite h'.sendReads.updGang (h'.foldlFst
    fun _ _ h => h.readLane).updGang

theorem State.MemWf.storeLane {w c p bs} (h : s.MemWf) : (s.storeLane w c p bs).MemWf := by
  unfold State.storeLane
  split
  · exact .ite h.checkPa.strStore h.touchAt.storeBytes.reportPoison
  · exact h.touchAt.storeBytes

theorem State.MemWf.execSt {w} (h : s.MemWf) : OutWf (Machine.execSt w s) := by
  unfold Machine.execSt
  exact h.coreWord fun _ _ h => .carrierBody (.ite h.wrote h) fun _ _ _ h h' => .ite (h'.foldl
    fun _ _ h => h.sendVault) (h'.foldl fun _ _ h => h.storeLane)

theorem State.MemWf.execLdu {w} (h : s.MemWf) : OutWf (Machine.execLdu w s) := by
  unfold Machine.execLdu
  exact h.coreWord fun _ _ h => h.carrierBody fun _ _ _ h h' => .ite h'.sendReads.updGang h'.readLane.updGang

theorem State.MemWf.atomicAt {core tenant byp p n ao sx ds bs} (h : s.MemWf) :
    (s.atomicAt core tenant byp p n ao sx ds bs).2.2.MemWf := by
  unfold State.atomicAt
  extract_lets s1
  have h1 : s1.MemWf := by
    unfold s1
    split
    · exact h.touchAt.drainForStore
    · exact h.touchAt
  split
  · exact h1.peerSend
  · split
    · exact h1.storeBytes
    · split
      · exact h1.dropL1
      · exact h1

theorem State.MemWf.atomBody {w cas ret c t} (ht : t.MemWf) : (Machine.atomBody w cas ret c s t).MemWf := by
  unfold Machine.atomBody
  extract_lets n k xs order lanes bs ds place dests s1 r
  have h1 : s1.MemWf := ht.foldl fun _ _ h => h.sendVault
  have hr : r.1.MemWf := ht.foldlFst fun _ _ h => h.atomicAt.reportPoison
  exact .ite (.ite h1.updGang h1) (.ite hr.updGang hr)

theorem State.MemWf.atomWord {i w cas ret} (h : s.MemWf) : OutWf (Machine.atomWord i w cas ret s) := by
  unfold Machine.atomWord
  exact h.coreWord fun _ _ h => h.wrote.carrierBody fun _ _ _ h h' => h'.atomBody

theorem State.MemWf.execFence {w} (h : s.MemWf) : OutWf (Machine.execFence w s) := by
  unfold Machine.execFence
  exact h.coreWord fun _ _ h => .ite h (.ite h.beforeCarrier.afterCarrier (.afterCarrier (.ite h.updGang h)))

theorem State.MemWf.settleFence {gid} (h : s.MemWf) : (s.settleFence gid).MemWf := by
  unfold State.settleFence
  split
  · exact h
  · split
    · exact h.drainScope.updGang
    · exact h

theorem State.MemWf.execInvt {w} (h : s.MemWf) : OutWf (Machine.execInvt w s) := by
  unfold Machine.execInvt
  exact h.coreWord fun _ _ h => .ite h (.frame h)

theorem State.MemWf.vaultAct {o} (h : s.MemWf) : (s.vaultAct o).MemWf := by
  unfold State.vaultAct
  extract_lets
  split
  · exact h.homeWrite
  · exact h.updGang
  · extract_lets m bad r s1
    have h1 : s1.MemWf := by
      unfold s1
      split
      · exact h.homeWrite
      · exact h
    exact h1.updGang

theorem State.MemWf.vaultPerform {o} (h : s.MemWf) : (s.vaultPerform o).MemWf := by
  unfold State.vaultPerform
  split
  · exact h.vaultAct.acquireCore
  · exact h.vaultAct

theorem State.MemWf.vaultDue {cy done os} (h : s.MemWf) : (s.vaultDue cy done os).1.MemWf := by
  induction os generalizing s done with
  | nil => exact h
  | cons o os ih =>
    unfold State.vaultDue
    extract_lets
    split
    · exact ih h
    · exact ih h.vaultPerform.updGang

theorem State.MemWf.vaultCycle {cy swallowed} (h : s.MemWf) : (s.vaultCycle cy swallowed).MemWf := by
  unfold State.vaultCycle
  exact .ite h (.frame h.vaultDue)

theorem State.MemWf.vaultFinish {gid} (h : s.MemWf) : (s.vaultFinish gid).MemWf := by
  unfold State.vaultFinish
  exact .updGang (.foldl (.frame h) fun _ _ h => h.vaultPerform)

theorem State.MemWf.arm {part p x} (h : s.MemWf) : (s.arm part p x).2.MemWf := by
  unfold State.arm
  split
  · exact h
  · extract_lets
    split
    · exact .frame h
    · split
      · exact .frame h
      · exact h.setCreg

theorem State.MemWf.waitTouch {core tenant p n byp} (h : s.MemWf) : (s.waitTouch core tenant p n byp).MemWf := by
  unfold State.waitTouch
  extract_lets
  split
  · exact h.touchAt.dropL1
  · exact h.touchAt

theorem State.MemWf.sleepOn {gid part lanes r} (h : s.MemWf) : (s.sleepOn gid part lanes r).MemWf := by
  unfold State.sleepOn
  split
  · exact h
  · exact h.arm.updGang

theorem State.MemWf.execWaitc {w} (h : s.MemWf) : OutWf (Machine.execWaitc w s) := by
  unfold Machine.execWaitc
  extract_lets
  exact h.coreWord fun _ _ h => .ite h
    (.ite h.beforeCarrier.memWalks.waitTouch.afterCarrier h.beforeCarrier.memWalks.waitTouch.updGang.sleepOn)

theorem State.MemWf.parkWait {gid tenant wid r lanes pc} (h : s.MemWf) : (s.parkWait gid tenant wid r lanes pc).MemWf :=
  h.updGang.parkPage

theorem State.MemWf.repeatRead {gid wid r lanes parked} (h : s.MemWf) :
    (s.repeatRead gid wid r lanes parked).MemWf := by
  unfold State.repeatRead
  split
  · exact h
  · split
    · exact h
    · split
      · exact h
      · extract_lets core pc s0
        have h0 : s0.MemWf := .ite h.walkUse h
        split
        · exact h.parkWait
        · exact h.takeTrap
        · split
          · exact h.takeTrap
          · extract_lets
            split
            · exact h0.waitTouch.updGang.updGang.afterCarrier.pruneMonitors
            · exact .ite h0.waitTouch.updGang.updGang h0.waitTouch.updGang.pruneMonitors.sleepOn

/-! ### Synchronisation words -/

theorem State.MemWf.blockAt {k c} (h : s.MemWf) : (Machine.blockAt k c s).MemWf := by
  unfold Machine.blockAt
  exact .ite h h.updGang

theorem State.MemWf.execBar {w} (h : s.MemWf) : OutWf (Machine.execBar w s) := by
  unfold Machine.execBar
  exact h.coreWord fun _ _ h => .ite h.blockAt h.blockAt.checkBar

theorem State.MemWf.barcWord {i w b} (h : s.MemWf) : OutWf (Machine.barcWord i w b s) := by
  unfold Machine.barcWord
  exact h.coreWord fun _ _ h => .ite h.blockAt h.blockAt.checkBarc

theorem State.MemWf.execBarg {w} (h : s.MemWf) : OutWf (Machine.execBarg w s) := by
  unfold Machine.execBarg
  exact h.coreWord fun _ _ h => .ite h.blockAt h.blockAt.checkBarg

theorem State.MemWf.sendGop {c d op g x sd} (h : s.MemWf) : (s.sendGop c d op g x sd).MemWf := by
  unfold State.sendGop
  split
  · exact h
  · extract_lets s1
    have h1 : s1.MemWf := by
      unfold s1
      split
      · exact h.updGang
      · exact h
    exact h1.updWg fun _ => rfl

theorem State.MemWf.execGrd {w} (h : s.MemWf) : OutWf (Machine.execGrd w s) := by
  unfold Machine.execGrd
  exact h.coreWord fun _ _ h => .ite h h.sendGop

theorem State.MemWf.execGwr {w} (h : s.MemWf) : OutWf (Machine.execGwr w s) := by
  unfold Machine.execGwr
  exact h.coreWord fun _ _ h => .ite h h.sendGop

theorem State.MemWf.execGatom {w} (h : s.MemWf) : OutWf (Machine.execGatom w s) := by
  unfold Machine.execGatom
  exact h.coreWord fun _ _ h => .ite h h.sendGop

theorem State.MemWf.deliver {gid id x} (h : s.MemWf) : (s.deliver gid id x).MemWf := h.updGang

theorem State.MemWf.gopAct {wid o} (h : s.MemWf) : (s.gopAct wid o).MemWf := by
  unfold State.gopAct
  split
  · exact h
  · extract_lets
    split
    · exact h.deliver
    · exact h.updWg fun _ => rfl
    · exact h.deliver
    · exact .updGang (.deliver (h.updWg fun _ => rfl))

theorem State.MemWf.gport {wid cycle} (h : s.MemWf) : (s.gport wid cycle).MemWf := by
  unfold State.gport
  split
  · exact h
  · exact .foldl (h.updWg fun _ => rfl) fun _ _ h => h.gopAct

theorem State.MemWf.execXclaim {w} (h : s.MemWf) : OutWf (Machine.execXclaim w s) := by
  unfold Machine.execXclaim
  exact h.coreWord fun _ _ h => .ite h h.updGang.setCpart

theorem State.MemWf.execXgive {w} (h : s.MemWf) : OutWf (Machine.execXgive w s) := by
  unfold Machine.execXgive
  exact h.coreWord fun _ _ h => .ite h h.updGang

theorem State.MemWf.execXquery {w} (h : s.MemWf) : OutWf (Machine.execXquery w s) := by
  unfold Machine.execXquery
  exact h.coreWord fun _ _ h => .ite h h.sendGop

theorem State.MemWf.execSpawn {w} (h : s.MemWf) : OutWf (Machine.execSpawn w s) := by
  unfold Machine.execSpawn
  exact h.coreWord fun _ _ h => .ite h.wrote (h.wrote.drainScope.foldl fun _ _ h => h.placeRec.updGang)

theorem State.MemWf.execSpawnf {w} (h : s.MemWf) : OutWf (Machine.execSpawnf w s) := by
  unfold Machine.execSpawnf
  exact h.coreWord fun _ _ h => .ite h.wrote h.wrote.setCpart

theorem State.MemWf.tailStep {q v} (h : s.MemWf) : (s.tailStep q v).MemWf := by
  unfold State.tailStep
  exact .ite h.setCreg h.setCreg

theorem State.MemWf.tailWrites {q vs} (h : s.MemWf) : (s.tailWrites q vs).MemWf := by
  unfold State.tailWrites
  exact .foldl (.frame h) fun _ _ h => h.tailStep

theorem State.MemWf.seqTouch {pid tenant q t} (h : s.MemWf) : (s.seqTouch pid tenant q t).MemWf := by
  unfold State.seqTouch
  split
  · exact h.walkUse.touchFor
  · exact h

theorem State.MemWf.execQpop {w} (h : s.MemWf) : OutWf (Machine.execQpop w s) := by
  unfold Machine.execQpop
  refine h.coreWord fun _ _ h => ?_
  extract_lets s0 k t s1 words ds s2
  have h2 : s2.MemWf := h.wrote.setCreg.seqTouch.updGang
  split
  · exact h.wrote
  · split
    rename_i s3 e
    have h3 : s3.MemWf := by
      refine .of_snd ?_ e
      split
      · exact h2
      · split
        · exact h2.arm
        · exact h2
    exact h3.updGang

theorem State.MemWf.execQpush {w} (h : s.MemWf) : OutWf (Machine.execQpush w s) := by
  unfold Machine.execQpush
  extract_lets
  refine h.coreWord fun _ _ h => ?_
  extract_lets
  split
  · exact h.wrote
  · split
    · exact h.wrote
    · extract_lets t sT head s1
      have h1 : s1.MemWf := h.wrote.walksUse.touchFor.storeBytes
      split
      · exact h.wrote.walksUse.touchFor.updGang
      · split
        · extract_lets s2 s3 s4
          have h3 : s3.MemWf := .ite h1.touchFor.storeBytes h1.touchFor.storeBytes.storeBytes
          have h4 : s4.MemWf := h3.touchFor.drainScope.storeBytes
          exact h4.tailWrites.updGang
        · exact h1

theorem State.MemWf.qpopTry {gid x q t vd sd lanes} (h : s.MemWf) : (s.qpopTry gid x q t vd sd lanes).2.MemWf := by
  unfold State.qpopTry
  split
  · exact h
  · split
    · exact h
    · extract_lets core s0
      have h0 : s0.MemWf := .ite h h.seqTouch
      split
      · exact h0
      · split
        · exact h0
        · exact h0.walkUse.touchFor.acquireCore.updGang.pruneMonitors.markCopied

theorem State.MemWf.cancelLevel {lid level} (h : s.MemWf) : (s.cancelLevel lid level).MemWf := by
  unfold State.cancelLevel
  split
  · exact h
  · split
    · exact h
    · extract_lets ls s1 s2 s3 s4
      have h1 : s1.MemWf := h.foldl fun _ _ h => h.cancelLaunch
      have h2 : s2.MemWf := .ite h1 h1.dropRecords
      have h3 : s3.MemWf := .ite (.frame h2) h2
      have h4 : s4.MemWf := .ite (.frame h3) h3
      exact h4.foldl fun _ _ h => h.checkGrids

theorem State.MemWf.execCancel {w} (h : s.MemWf) : OutWf (Machine.execCancel w s) := by
  unfold Machine.execCancel
  exact h.coreWord fun _ _ h => .ite h.wrote (.ite (.ite h.wrote ((h.wrote.foldl fun _ _ h => h.updGang).updWg
    fun _ => rfl)) h.wrote.cancelLevel)

theorem State.MemWf.execCntrd {w} (h : s.MemWf) : OutWf (Machine.execCntrd w s) := by
  unfold Machine.execCntrd
  exact h.coreWord fun _ _ h => .ite h h.acquireCore.updGang

/-! ### The copy engine -/

theorem State.MemWf.setEngine {cl q} (h : s.MemWf) : (s.setEngine cl q).MemWf := .frame h
theorem State.MemWf.updCmd {cl id f} (h : s.MemWf) : (s.updCmd cl id f).MemWf := h.setEngine

theorem State.MemWf.engWord {i op w k} (h : s.MemWf) : OutWf (Machine.engWord i op w k s) := by
  unfold Machine.engWord
  refine h.coreWord fun _ _ h => ?_
  extract_lets s0 m pid s1 s2
  have h1 : s1.MemWf := by
    unfold s1
    split
    · exact h.wrote.updGang
    · exact h.wrote
  have h2 : s2.MemWf := .ite h1.drainScope h1
  exact .ite h.wrote (.frame h2)

theorem State.MemWf.dropL1Line {line} (h : s.MemWf) : (s.dropL1Line line).MemWf := .frame h

theorem State.MemWf.engWrite {tenant l bs bad cmd} (h : s.MemWf) : (s.engWrite tenant l bs bad cmd).MemWf := by
  unfold State.engWrite
  extract_lets s0
  have h0 : s0.MemWf := by
    unfold s0
    split
    · exact h.dropL1Line
    · exact h
  exact h0.touchFor.homeWrite.foldl fun _ _ h => .ite h.poisonAt h

theorem State.MemWf.engReport {k l n} (h : s.MemWf) : (s.engReport k l n).MemWf := by
  unfold State.engReport
  split
  · exact .ite h (.frame h)
  · exact h.reportPoison

theorem State.MemWf.engPage {cl k va kind} (h : s.MemWf) : (s.engPage cl k va kind).MemWf := .frame h

theorem State.MemWf.engWalk {cl k sp x} (h : s.MemWf) : (s.engWalk cl k sp x).MemWf := by
  unfold State.engWalk
  exact .ite h.walkUse h

theorem State.MemWf.engTouch {cl k sp x n} (h : s.MemWf) : (s.engTouch cl k sp x n).MemWf := by
  unfold State.engTouch
  split
  · exact h.engWalk.touchFor
  · exact h

theorem State.MemWf.engElem {cl k m} (h : s.MemWf) : (s.engElem cl k m).1.MemWf := by
  unfold State.engElem
  split
  · extract_lets
    split
    · exact h
    · split
      · exact h.engTouch
      · exact h
  · exact h

theorem State.MemWf.movePiece {cl ka} (h : s.MemWf) : (s.movePiece cl ka).MemWf := by
  unfold State.movePiece
  split
  rename_i sb k e
  have hb : sb.MemWf := .of_fst h.engElem e
  extract_lets s1 stop
  have h1 : s1.MemWf := hb.updCmd
  have hstop : ∀ t r a, t.MemWf → (stop t r a).MemWf := by
    intro t r a ht
    unfold stop
    split
    · exact ht.engPage
    · exact ht.updCmd
    · exact ht
  split
  · exact hstop _ _ _ h1
  · split
    · exact hstop _ _ _ h1
    · split
      · exact .updCmd (.engReport (.engWrite (.engWalk (.ite h1 h1.engTouch))))
      · exact hstop _ _ _ h1

theorem State.MemWf.moveMany {cl id n} (h : s.MemWf) : (s.moveMany cl id n).MemWf := by
  induction n generalizing s with
  | zero => exact h
  | succ n ih =>
    unfold State.moveMany
    split
    · exact h
    · exact .ite h (ih h.movePiece)

theorem State.MemWf.touchPieces {cl k n m} (h : s.MemWf) : (State.touchPieces cl k n m s).MemWf := by
  induction n generalizing s k m with
  | zero => exact h
  | succ n ih =>
    unfold State.touchPieces
    split
    · exact h
    · split
      · exact ih h.engElem.engTouch
      · exact h

theorem State.MemWf.deliverRt {k vr pid bs bad} (h : s.MemWf) : (s.deliverRt k vr pid bs bad).MemWf := h.updGang

theorem State.MemWf.engWhole_put {cl k stop x bs bad n} (h : s.MemWf) (hstop : ∀ t r a, t.MemWf → (stop t r a).MemWf) :
    (State.engWhole.put cl k stop s x bs bad n).MemWf := by
  induction n generalizing s x bs bad with
  | zero => exact h
  | succ n ih =>
    unfold State.engWhole.put
    split
    · exact h
    · split
      · exact ih h.engWalk.engWrite.updCmd
      · exact hstop _ _ _ h

theorem State.MemWf.engWhole {cl k} (h : s.MemWf) : (s.engWhole cl k).MemWf := by
  unfold State.engWhole
  extract_lets stop wr cnt tbl mat iv rej last s0 s1 s2
  have hstop : ∀ t r a, t.MemWf → (stop t r a).MemWf := by
    intro t r a ht
    unfold stop
    split
    · exact ht.engPage
    · exact ht.updCmd
    · exact ht
  have hwr : ∀ t bs bad, t.MemWf → (wr t bs bad).MemWf := fun _ _ _ ht => ht.engWhole_put hstop
  have h1 : s1.MemWf := .frame h.touchPieces.engTouch
  have h2 : s2.MemWf := .frame h1
  split
  · exact h.engPage
  · exact hwr _ _ _ h
  · split
    · exact hstop _ _ _ h
    · exact hstop _ _ _ h
    · exact .ite h.updCmd (.ite h1.updCmd (.ite h1.updCmd (hwr _ _ _ h2)))
  · split
    · exact hstop _ _ _ h
    · exact h.touchPieces.deliverRt.updCmd
  · exact h

theorem State.MemWf.engReason {k r} (h : s.MemWf) : (s.engReason k r).2.2.MemWf := by
  unfold State.engReason
  split
  · exact h
  · split
    · exact h
    · exact h.takeFree.takeFree

theorem State.MemWf.engKill {k cause addr} (h : s.MemWf) : (s.engKill k cause addr).MemWf := by
  unfold State.engKill
  exact .ite h.terminate h.updLaunch

theorem State.MemWf.engRetire {cl k faulted} (h : s.MemWf) : (s.engRetire cl k faulted).MemWf := by
  unfold State.engRetire
  exact .checkBarc (.frame h)

theorem State.MemWf.engTaskDone {k r} (h : s.MemWf) : (s.engTaskDone k r).MemWf := by
  unfold State.engTaskDone
  split
  · exact h
  · exact .frame h

theorem State.MemWf.dropRt {k} (h : s.MemWf) : (s.dropRt k).MemWf := by
  unfold State.dropRt
  split
  · exact h.updGang
  · exact h

theorem State.MemWf.engFinish {cl id} (h : s.MemWf) : (s.engFinish cl id).MemWf := by
  unfold State.engFinish
  split
  · exact h
  · split
    · exact h
    · extract_lets s1
      have h1 : s1.MemWf := .ite (.ite h.engWhole h) h.moveMany
      split
      · exact h1
      · split
        · exact h1
        · extract_lets s2
          have h2 : s2.MemWf := .ite h1.drainScope h1
          split
          · exact h2
          · split
            · split
              · exact h2.engRetire.engTaskDone
              · exact .ite h2.engRetire.engTaskDone h2.engReason.dropRt.engRetire.engKill
            · split
              · exact h2.engPage
              · exact h2.dropRt.engRetire.engKill
              · exact h2.engWalk.engWrite.dropRt.engRetire

/-! ### Matrix words -/

theorem State.MemWf.quarterWord {ins w sregs} (h : s.MemWf) : OutWf (Machine.quarterWord ins w sregs s) :=
  h.coreWord fun _ _ h => h.updGang

theorem State.MemWf.startQuarters {gid ops0} (h : s.MemWf) : (s.startQuarters gid ops0).MemWf := by
  unfold State.startQuarters
  split
  · exact h
  · split
    · exact h
    · extract_lets ops act each fail first held go goAct s1 es ps st k
      have hfail : ∀ s' os c, s'.MemWf → (fail s' os c).MemWf := by
        intro s' os c hs'
        unfold fail
        split
        · exact hs'.updGang.takeTrap
        · exact hs'
      clear_value first
      split
      · clear_value k
        split
        · exact h.updGang.foldl fun _ _ h => h.updGang
        · exact hfail _ _ _ h.updGang
      · exact hfail _ _ _ h

theorem State.MemWf.rdvScan {gid} (h : s.MemWf) : (s.rdvScan gid).MemWf := by
  unfold State.rdvScan
  split
  · exact h
  · extract_lets done pcs s1
    have h1 : s1.MemWf := by
      unfold s1
      refine h.foldl fun _ _ h => ?_
      split
      · exact h
      · exact h.updGang.startQuarters
    refine h1.foldl fun _ _ h => ?_
    split
    · exact .ite h.startQuarters h
    · exact h

theorem State.MemWf.boundary {gid o} (h : s.MemWf) : (s.boundary gid o).MemWf := by
  unfold State.boundary
  split
  · exact h
  · split
    · exact h
    · exact .ite h.updGang (.ite h.updGang h)

theorem State.MemWf.stopQueued {gid} (h : s.MemWf) : (s.stopQueued gid).MemWf := by
  unfold State.stopQueued
  split
  · exact h
  · exact .ite h.updGang h

theorem State.MemWf.passStart {pid} (h : s.MemWf) : (s.passStart pid).MemWf := by
  unfold State.passStart
  extract_lets s1 cp all
  have h1 : s1.MemWf := h.foldl fun _ _ h => h.rdvScan.stopQueued
  split
  · exact h1
  · clear_value all
    split
    · exact h1.setCpart
    · exact .ite h1.setCpart ((h1.foldl fun _ _ h => h.updGang).foldl fun _ _ h => h.boundary).setCpart

theorem State.MemWf.poisonStop {pass bad} (h : s.MemWf) : (s.poisonStop pass bad).MemWf := by
  unfold State.poisonStop
  extract_lets isBad first lanes s1
  have h1 : s1.MemWf := h.foldl fun _ _ h => h.updGang
  clear_value first
  split
  · exact .ite h1 h1.takeTrap
  · exact h1

theorem State.MemWf.passBlock {pid} (h : s.MemWf) : (s.passBlock pid).MemWf := by
  unfold State.passBlock
  extract_lets cp ops badOf bads s1 __src s1' s2
  have h1' : s1'.MemWf := by
    unfold s1'
    refine h.foldl fun _ _ h => ?_
    split
    · extract_lets
      split
      · split
        · exact h.homeWrite.updGang
        · exact h
      · split
        · exact h.setGang
        · exact h
    · exact h
  have h2 : s2.MemWf := h1'.foldl fun _ _ h => h.boundary
  exact .ite h.poisonStop.setCpart h2.setCpart

theorem State.MemWf.matrixBlock {pid} (h : s.MemWf) : (s.matrixBlock pid).MemWf := by
  unfold State.matrixBlock
  extract_lets head
  clear_value head
  split
  · exact h.setCpart
  · exact .setCpart (.ite h.passBlock.passBlock h.passBlock)

theorem State.MemWf.rdvStall {gid pc} (h : s.MemWf) : (s.rdvStall gid pc).MemWf := by
  unfold State.rdvStall
  split
  · exact h
  · split
    · exact h
    · exact .ite h h.updGang.takeTrap

theorem State.MemWf.execMldt {w} (h : s.MemWf) : OutWf (Machine.execMldt w s) := by
  unfold Machine.execMldt
  exact h.coreWord fun _ _ h => .ite h h.updGang

theorem State.MemWf.execMstt {w} (h : s.MemWf) : OutWf (Machine.execMstt w s) := by
  unfold Machine.execMstt
  exact h.coreWord fun _ _ h => h.foldl fun _ _ h => h.homeWrite.updGang

/-! ### Instructions of many steps -/

theorem State.MemWf.startMacro {i w gangKind state outs skip c} (h : s.MemWf) :
    (Machine.startMacro i w gangKind state outs skip c s).MemWf := by
  unfold Machine.startMacro
  exact .ite h h.updGang

theorem State.MemWf.mCtx_put {m l r x} (h : s.MemWf) : (Machine.MCtx.put m s l r x).MemWf := h.updGang
theorem State.MemWf.mCtx_putSt {m l k x} (h : s.MemWf) : (Machine.MCtx.putSt m s l k x).MemWf := h.mCtx_put
theorem State.MemWf.mCtx_putOut {m l k x} (h : s.MemWf) : (Machine.MCtx.putOut m s l k x).MemWf := h.mCtx_put

theorem State.MemWf.mCtx_putSts {m l k xs} (h : s.MemWf) : (Machine.MCtx.putSts m s l k xs).MemWf :=
  h.foldl fun _ _ h => h.mCtx_putSt

theorem State.MemWf.mCtx_putOuts {m l k xs} (h : s.MemWf) : (Machine.MCtx.putOuts m s l k xs).MemWf :=
  h.foldl fun _ _ h => h.mCtx_putOut

theorem State.MemWf.mCtx_putProg {m l p} (h : s.MemWf) : (Machine.MCtx.putProg m s l p).MemWf := h.mCtx_putSt

theorem State.MemWf.lathRead {m tex x n} (h : s.MemWf) : (s.lathRead m tex x n).1.MemWf := by
  unfold State.lathRead
  split
  · exact h
  · exact h
  · extract_lets s1 copy
    clear_value copy
    split
    · exact h.walkUse.touchFor
    · split
      · exact h.walkUse.touchFor
      · split
        · exact .ite h.walkUse.touchFor h.walkUse.touchFor.dropL1
        · exact h.walkUse.touchFor

theorem State.MemWf.lathWords {m xs} (h : s.MemWf) : (s.lathWords m xs).1.MemWf := by
  induction xs generalizing s with
  | nil => exact h
  | cons x xs ih =>
    unfold State.lathWords
    split
    · rename_i s1 _ e
      exact .of_fst h.lathRead e
    · rename_i s1 _ e
      have h1 : s1.MemWf := .of_fst h.lathRead e
      split
      · rename_i s2 _ e
        exact .of_fst (ih h1) e
      · rename_i s2 _ e
        exact .of_fst (ih h1) e

theorem State.MemWf.lathWrite {m x bs} (h : s.MemWf) : (s.lathWrite m x bs).1.MemWf := by
  unfold State.lathWrite
  split
  · exact h
  · exact h
  · exact h.wrote.walkUse.touchFor.storeBytes.reportPoison

theorem State.MemWf.endMacro {m gangKind stopped fault} (h : s.MemWf) :
    (s.endMacro m gangKind stopped fault).MemWf := by
  unfold State.endMacro
  split
  · exact h
  · extract_lets op here code callb done pass tgt tc
    clear_value tc
    split
    · exact h.updGang.parkPages
    · extract_lets
      split
      · exact h.updGang
      · split
        · exact h.updGang.takeTrap
        · exact h.updGang.takeTrap
        · exact h.updGang.parkPage
        · exact .ite h.updGang h.updGang.takeTrap

theorem State.MemWf.mCtx_mark {m lanes code} (h : s.MemWf) : (Machine.MCtx.mark m s lanes code).MemWf :=
  h.foldl fun _ _ h => h.mCtx_putSt

theorem State.MemWf.preemptMacro {m gangKind stopped began fault} (h : s.MemWf) :
    (s.preemptMacro m gangKind stopped began fault).MemWf :=
  h.mCtx_mark.endMacro

theorem State.MemWf.macroBoundary {m M ends} (h : s.MemWf) : (s.macroBoundary m M ends).MemWf := by
  unfold State.macroBoundary
  extract_lets writeEnd s1 s2
  have hwriteEnd : ∀ s' e', s'.MemWf → (writeEnd s' e').MemWf := by
    intro s' e' hs'
    unfold writeEnd
    split
    · exact hs'.mCtx_putSt
    · exact hs'.mCtx_putSt
    · exact hs'.takeFree.mCtx_putSt
    · exact hs'.mCtx_putSt
  have h2 : s2.MemWf := .ite ((h.foldl hwriteEnd).foldl fun _ _ h => .ite h (h.foldl
    fun _ _ h => h.mCtx_putSt)) (h.foldl hwriteEnd)
  split
  · exact h2.preemptMacro
  · split
    · exact h2.endMacro
    · split
      · exact h2
      · exact .ite h2.preemptMacro h2.updGang

/-- Every unit of work of an engine of instructions of many steps keeps the memories in canonical form. -/
def Macro.KeepsMem (M : Macro) : Prop := ∀ s m l, s.MemWf → (M.step s m l).1.MemWf

theorem State.MemWf.macroStep {m M} (h : s.MemWf) (hM : M.KeepsMem) : (s.macroStep m M).MemWf := by
  unfold State.macroStep
  split
  · exact h.endMacro
  · extract_lets r
    have hr : r.1.MemWf := by
      refine State.MemWf.foldlFst (p := (s, [])) h fun _ _ h => ?_
      split
      · exact hM _ _ _ h
      · exact h
    exact hr.macroBoundary

theorem State.MemWf.rast_take {r m wid cw ch lq ps} (h : s.MemWf) :
    (Machine.Rast.take r s m wid cw ch lq ps).MemWf := by
  unfold Machine.Rast.take
  refine h.foldl fun _ _ h => ?_
  extract_lets p s1 ts s2
  have h1 : s1.MemWf := h.foldl fun _ _ h => h.homeWrite
  have h2 : s2.MemWf := h1.foldl fun _ _ h => h.updWg fun _ => rfl
  exact h2.mCtx_putOuts

/-! ### RAST -/

theorem State.MemWf.rastClear {m fill} (h : s.MemWf) : (Machine.rastClear m s fill).MemWf :=
  h.foldl fun _ _ h => h.foldl fun _ _ h => h.mCtx_putOut

theorem State.MemWf.rastNone {r m regs} (h : s.MemWf) : (Machine.rastNone r m s regs).1.MemWf := by
  unfold Machine.rastNone
  exact (h.foldl fun _ _ h => h.takeFree.mCtx_putSt).mCtx_putProg.rastClear

theorem State.MemWf.rastSetup {m} (h : s.MemWf) : (Machine.rastSetup s m).1.MemWf := by
  unfold Machine.rastSetup
  extract_lets
  split
  · exact h
  · split
    · exact h.mCtx_putSts.mCtx_putSt.rastNone
    · split
      · exact h.mCtx_putSts.mCtx_putSts.rastNone
      · exact h.mCtx_putSts.mCtx_putSts.mCtx_putSt.mCtx_putProg

theorem State.MemWf.rast_rate {r m cell} (h : s.MemWf) : (Machine.Rast.rate r s m cell).1.MemWf := by
  unfold Machine.Rast.rate
  split
  · exact h
  · extract_lets
    split
    · rename_i e
      exact .of_fst h.lathRead e
    · rename_i s1 _ e
      have h1 : s1.MemWf := .of_fst h.lathRead e
      split <;> exact h1

theorem State.MemWf.rastDeliver {r m wid cw ch qs ls fill} (h : s.MemWf) :
    (Machine.rastDeliver r m wid cw ch qs ls s fill).1.MemWf := by
  induction qs generalizing s ls fill with
  | nil => exact h
  | cons q qs ih =>
    cases ls with
    | nil => exact h
    | cons l ls =>
      unfold Machine.rastDeliver
      extract_lets
      split
      · exact ih h.rast_take
      · exact h

theorem State.MemWf.depthWrites {wid ps} (h : s.MemWf) : (Machine.depthWrites wid s ps).MemWf :=
  h.foldl fun _ _ h => h.foldl fun _ _ h => h.homeWrite

theorem State.MemWf.rastEnd {m fill status} (h : s.MemWf) : (Machine.rastEnd m s fill status).1.MemWf := h.rastClear
theorem State.MemWf.rastDone {m r fill} (h : s.MemWf) : (Machine.rastDone m s r fill).1.MemWf := h.mCtx_putProg.rastEnd
theorem State.MemWf.setWaitPix {m ps} (h : s.MemWf) : (Machine.setWaitPix m s ps).MemWf := h.updGang

theorem State.MemWf.rastWalk {m} (h : s.MemWf) : (Machine.rastWalk s m).1.MemWf := by
  unfold Machine.rastWalk
  extract_lets
  split
  · exact h.rastDone
  · extract_lets same qrow0 qcol0 cy cx nextCell
    have hnextCell : ∀ s' fill', s'.MemWf → (nextCell s' fill').1.MemWf := by
      intro s' fill' hs'
      unfold nextCell
      split
      · exact hs'.mCtx_putProg.mCtx_putSt
      · exact hs'.mCtx_putSt.rastDone
    split
    · rename_i s1 _ e
      have h1 : s1.MemWf := .of_fst h.rast_rate e
      exact h1.mCtx_putProg
    · rename_i s1 _ _ e
      have h1 : s1.MemWf := .of_fst h.rast_rate e
      extract_lets
      split
      · exact h1
      · split
        · exact hnextCell _ _ h1
        · extract_lets
          split
          split
          · exact h1.mCtx_putProg.rastEnd
          · split
            · rename_i s2 _ _ _ e _
              have h2 : s2.MemWf := .of_fst h1.rastDeliver e
              extract_lets s3
              have h3 : s3.MemWf := h2.mCtx_putProg.mCtx_putSt
              split
              · exact h3.rastEnd
              · exact h3.setWaitPix
            · rename_i s2 _ _ _ e _
              have h2 : s2.MemWf := .of_fst h1.rastDeliver e
              exact h2.mCtx_putProg.mCtx_putSt
            · rename_i s2 _ e _
              have h2 : s2.MemWf := .of_fst h1.rastDeliver e
              split
              · exact h2.mCtx_putProg.mCtx_putSt
              · exact hnextCell _ _ h2

theorem State.MemWf.rastStep {m l} (h : s.MemWf) : (Machine.rastStep s m l).1.MemWf := by
  unfold Machine.rastStep
  split
  rename_i s1 e
  have h1 : s1.MemWf := .of_snd h.setWaitPix.takeFree e
  split
  · exact h1.rastSetup
  · split
    · exact h1
    · extract_lets s1'
      have h1' : s1'.MemWf := .ite h1.mCtx_putSt h1
      split
      · exact h1'.rastSetup
      · exact h1'.rastWalk

/-! ### BLEND -/

theorem State.MemWf.blendPixel {t m wid l shape i ks}
    (h : s.MemWf) (e : Machine.blendPixel s m wid l shape i ks = .ok t) :
    t.MemWf := by
  unfold Machine.blendPixel at e
  extract_lets _ _ _ _ _ _ _ _ _ bad at e
  clear_value bad
  split at e
  · cases e
  · obtain rfl := Except.ok.inj e
    exact h.foldl fun _ _ h => h.homeWrite

theorem State.MemWf.blendStep {m l} (h : s.MemWf) : (Machine.blendStep s m l).1.MemWf := by
  unfold Machine.blendStep
  split
  split
  · exact h
  · split
    · exact h.mCtx_putProg
    · extract_lets wid p px r
      have hr : ∀ s1, r = .ok s1 → s1.MemWf := by
        intro s1 e
        unfold r at e
        split at e
        · cases e; exact h
        · exact h.blendPixel e
      clear_value r
      split
      · exact h.mCtx_putProg
      · extract_lets s2
        have h2 : s2.MemWf := (hr _ rfl).updWg fun _ => rfl
        split <;> exact h2.mCtx_putProg

/-! ### FILT -/

theorem State.MemWf.filtStep {m l} (h : s.MemWf) : (Machine.filtStep s m l).1.MemWf := by
  unfold Machine.filtStep
  extract_lets s0 free t x n tx cnt next done
  have h0 : s0.MemWf := .frame h
  have hdone : ∀ t, t.MemWf → (done t).1.MemWf := fun _ ht => ht.mCtx_putOuts.mCtx_putProg
  clear_value done s0
  split
  · exact h0
  · split
    · exact h0.mCtx_putSts
    · split
      · exact h0
      · split
        · exact hdone _ h0
        · split
          extract_lets at_
          split
          · rename_i s1 _ e
            have h1 : s1.MemWf := .of_fst h0.lathRead e
            exact h1.mCtx_putProg
          · rename_i s1 _ e
            have h1 : s1.MemWf := .of_fst h0.lathRead e
            extract_lets cs accs s2
            have h2 : s2.MemWf := h1.mCtx_putSts.mCtx_putProg
            split
            · exact h2
            · exact hdone _ h2

/-! ### TRAV -/

theorem State.MemWf.travSetup {m l} (h : s.MemWf) : (Machine.travSetup s m l).1.MemWf := by
  unfold Machine.travSetup
  extract_lets v zero bad
  clear_value bad
  split
  · exact h
  · exact h.mCtx_putSts.mCtx_putProg

theorem State.MemWf.leafHeader {m leaf} (h : s.MemWf) : (Machine.leafHeader s m leaf).1.MemWf := by
  unfold Machine.leafHeader
  extract_lets
  split
  · rename_i e
    exact .of_fst h.lathWords e
  · rename_i s2 _ e
    have h2 : s2.MemWf := .of_fst h.lathWords e
    extract_lets
    split <;> exact h2

theorem State.MemWf.travCommit {m l hit} (h : s.MemWf) : (Machine.travCommit m s l hit).MemWf := h.mCtx_putSts

theorem State.MemWf.nextTri {m l acc sp tri count} (h : s.MemWf) : (Machine.nextTri m s l acc sp tri count).MemWf :=
  h.mCtx_putProg

theorem State.MemWf.travResume {m l} (h : s.MemWf) : (Machine.travResume s m l).1.MemWf := by
  unfold Machine.travResume
  extract_lets r anyhit out take s0
  have h0 : s0.MemWf := .ite h.travCommit h
  split
  · split
    · rename_i s1 _ e
      have h1 : s1.MemWf := .of_fst h0.leafHeader e
      exact h1.nextTri
    · rename_i s1 _ _ _ e
      have h1 : s1.MemWf := .of_fst h0.leafHeader e
      exact h1.nextTri
  · exact h0.mCtx_putProg

theorem State.MemWf.travTri {m l} (h : s.MemWf) : (Machine.travTri s m l).1.MemWf := by
  unfold Machine.travTri
  extract_lets
  split
  · rename_i e
    exact .of_fst h.leafHeader e
  · rename_i s1 _ _ _ e
    have h1 : s1.MemWf := .of_fst h.leafHeader e
    split
    · exact h1.mCtx_putProg
    · split
      · exact h1
      · split
        · rename_i e
          exact .of_fst h1.lathWords e
        · rename_i s2 _ e
          have h2 : s2.MemWf := .of_fst h1.lathWords e
          split
          · exact h2.nextTri
          · extract_lets
            split
            · split
              · exact h2.travCommit
              · exact h2.travCommit.nextTri
            · exact h2.mCtx_putOuts

theorem State.MemWf.putStack {m l acc scap scnt st inleaf} (h : s.MemWf) :
    (Machine.putStack m s l acc scap scnt st inleaf).MemWf :=
  h.mCtx_putSts.mCtx_putSt.mCtx_putProg

theorem State.MemWf.travPop {m l} (h : s.MemWf) : (Machine.travPop s m l).1.MemWf := by
  unfold Machine.travPop
  extract_lets r acc spillVa popped
  have hpopped : popped.1.MemWf := by
    unfold popped
    split
    · exact h
    · split
      · rename_i s1 _ e
        exact .of_fst h.lathRead e
      · rename_i s1 _ e
        exact .of_fst h.lathRead e
  clear_value popped
  split
  · exact h
  · split
    · exact hpopped
    · split
      · exact hpopped.putStack
      · extract_lets
        split
        · rename_i s2 _ e
          exact .of_fst hpopped.lathWords e
        · rename_i s2 _ e
          have h2 : s2.MemWf := .of_fst hpopped.lathWords e
          extract_lets
          split
          · exact h2
          · extract_lets wr
            have hwr : wr.1.MemWf := by
              refine State.MemWf.foldlFst (p := (s2, none)) h2 fun _ _ h => ?_
              split
              · exact h
              · exact h.lathWrite
            split
            · exact hwr
            · exact hwr.putStack
      · split
        · rename_i s2 _ e
          exact .of_fst hpopped.leafHeader e
        · rename_i s2 _ e
          have h2 : s2.MemWf := .of_fst hpopped.leafHeader e
          exact h2.mCtx_putSt.putStack
      · exact hpopped.putStack.mCtx_putOuts

theorem State.MemWf.travStep {m l} (h : s.MemWf) : (Machine.travStep s m l).1.MemWf := by
  unfold Machine.travStep
  split
  · exact h.travSetup
  · split
    · exact h
    · split
      · exact h.travResume
      · split
        · exact h.travTri
        · exact h.travPop

/-! ### BIN, BIN.POP, MCODE and the lathes -/

theorem State.MemWf.binRead {m x} (h : s.MemWf) : (s.binRead m x).1.MemWf := by
  unfold State.binRead
  split
  · exact h
  · exact h
  · refine State.MemWf.lathRead ?_
    split
    · exact h.drainForStore
    · exact h

theorem State.MemWf.binAppend {m b q cap l} (h : s.MemWf) : (Machine.binAppend s m b q cap l).1.MemWf := by
  unfold Machine.binAppend
  split
  · rename_i e
    exact .of_fst h.binRead e
  · rename_i s1 _ e
    have h1 : s1.MemWf := .of_fst h.binRead e
    split
    · exact h1
    · extract_lets
      split
      · rename_i e
        exact .of_fst h1.lathWrite e
      · rename_i s3 e
        have h3 : s3.MemWf := .of_fst h1.lathWrite e
        split
        · rename_i e
          exact .of_fst h3.lathWrite e
        · rename_i e
          exact .of_fst h3.lathWrite e

theorem State.MemWf.binStep {m lead} (h : s.MemWf) : (Machine.binStep s m lead).1.MemWf := by
  unfold Machine.binStep
  extract_lets
  split
  · exact h
  · split
    · exact h.mCtx_putProg
    · exact h.mCtx_putProg
    · split
      · rename_i s1 _ e
        have h1 : s1.MemWf := .of_fst h.binAppend e
        exact h1.mCtx_putProg
      · rename_i s1 e
        have h1 : s1.MemWf := .of_fst h.binAppend e
        exact h1.mCtx_putProg
      · rename_i s1 e
        have h1 : s1.MemWf := .of_fst h.binAppend e
        split <;> exact h1.mCtx_putProg

theorem State.MemWf.binPopLane {m b q slot n l} (h : s.MemWf) : (Machine.binPopLane m b q slot n l s).1.MemWf := by
  unfold Machine.binPopLane
  extract_lets
  split
  · split
    · rename_i e
      exact .of_fst h.lathWords e
    · rename_i s2 _ e
      have h2 : s2.MemWf := .of_fst h.lathWords e
      exact h2.mCtx_putOuts.updWg fun _ => rfl
  · exact h.mCtx_putOut

theorem State.MemWf.binPopStep {m lead} (h : s.MemWf) : (Machine.binPopStep s m lead).1.MemWf := by
  unfold Machine.binPopStep
  extract_lets b sq slot q wid s1
  have h1 : s1.MemWf := h.updWg fun _ => rfl
  split
  · exact h
  · split
    · exact h1.foldl fun _ _ h => h.mCtx_putOut
    · split
      · rename_i e
        exact .of_fst h.lathRead e
      · rename_i s1 _ e
        have h1 : s1.MemWf := .of_fst h.lathRead e
        extract_lets s2 r
        have hr : r.1.MemWf := by
          unfold r
          refine h1.acquireCore.foldlFst fun _ _ h => ?_
          split
          · exact h
          · exact h.binPopLane
        split
        · exact h1
        · exact hr

theorem State.MemWf.execMcode {op w} (h : s.MemWf) : OutWf (Machine.execMcode op w s) := by
  unfold Machine.execMcode
  extract_lets
  refine h.coreWord fun _ _ h => ?_
  split
  · exact h.startMacro
  · exact h

theorem State.MemWf.mcodeRun {d m l} (h : s.MemWf) : (Machine.mcodeRun d s m l).1.MemWf := by
  unfold Machine.mcodeRun
  exact .ite (.foldl (.mCtx_putSts (.frame h)) fun _ _ h => h.mCtx_putOuts) (.mCtx_putSts (.frame h))

/-- The engines of RAST, BLEND, FILT, TRAV, BIN, BIN.POP and MCODE keep the memories in canonical form. -/
theorem macroOf_keepsMem {tenant : Nat} {i : Instr} {x : MacroW × Macro} (hx : s.macroOf tenant i = some x) :
    x.2.KeepsMem := by
  unfold State.macroOf at hx
  split at hx
  case h_7 w =>
    obtain ⟨d, -, rfl⟩ := Option.map_eq_some_iff.mp hx
    exact fun _ _ _ h => h.mcodeRun
  case h_8 => cases hx
  all_goals cases hx
  · exact fun _ _ _ h => h.rastStep
  · exact fun _ _ _ h => h.blendStep
  · exact fun _ _ _ h => h.filtStep
  · exact fun _ _ _ h => h.travStep
  · exact fun _ _ _ h => h.binStep
  · exact fun _ _ _ h => h.binPopStep

theorem mctxs_keepsMem {gid : Nat} {x : MCtx × Macro} (hx : x ∈ s.mctxs gid) : x.2.KeepsMem := by
  unfold State.mctxs at hx
  split at hx
  · cases hx
  · split at hx
    · cases hx
    · obtain ⟨o, -, ho⟩ := List.mem_filterMap.mp hx
      obtain ⟨y, hy, rfl⟩ := Option.map_eq_some_iff.mp ho
      exact macroOf_keepsMem hy

theorem latheReqs_keepsMem {core : Nat} {x : Nat × MCtx × Macro} (hx : x ∈ s.latheReqs core) : x.2.2.KeepsMem := by
  obtain ⟨y, hy, hxy⟩ := List.mem_filterMap.mp hx
  obtain ⟨e, -, he⟩ := List.mem_flatMap.mp hy
  split at hxy
  · cases hxy
    split at he
    · cases he
    · exact mctxs_keepsMem he
  · cases hxy

/-- A fold that keeps an entry or takes the next one ends with an entry of the list, or where it began. -/
theorem foldl_pick_mem {α : Type} {f : Option α → α → Option α} (hf : ∀ a x, f a x = a ∨ f a x = some x) {xs : List α} :
    ∀ {a : Option α} {y : α}, xs.foldl f a = some y → a = some y ∨ y ∈ xs := by
  induction xs with
  | nil => exact fun h => .inl h
  | cons x xs ih =>
    intro a y h
    obtain h | h := ih h
    · obtain e | e := hf a x
      · exact .inl (e ▸ h)
      · obtain rfl : x = y := Option.some.inj (e.symm.trans h)
        exact .inr (List.mem_cons_self ..)
    · exact .inr (List.mem_cons_of_mem _ h)

theorem State.MemWf.latheStep {core lathe} (h : s.MemWf) : (s.latheStep core lathe).MemWf := by
  unfold State.latheStep
  extract_lets reqs last pick
  have hpick : ∀ {xs : List (Nat × MCtx × Macro)} {x}, pick xs = some x → x ∈ xs := fun {xs x} hx => by
    refine (foldl_pick_mem (fun a y => ?_) hx).resolve_left nofun
    cases a with
    | none => exact .inr rfl
    | some z =>
      dsimp only
      split
      · exact .inr rfl
      · exact .inl rfl
  split
  · exact h
  · rename_i k m M e
    have hx : (k, m, M) ∈ reqs := by
      obtain e | ⟨-, e⟩ := Option.or_eq_some_iff.mp (Option.or_eq_orElse.trans e)
      · exact List.mem_of_mem_filter (hpick e)
      · exact hpick e
    exact State.MemWf.macroStep (.frame h) (latheReqs_keepsMem (List.mem_of_mem_filter hx))

theorem State.MemWf.stopMacros {gid} (h : s.MemWf) : (s.stopMacros gid).MemWf := by
  unfold State.stopMacros
  split
  · exact h
  · exact .ite h (h.foldl fun _ _ h => .ite h h.preemptMacro)

/-! ### CANCEL falling due -/

theorem State.MemWf.takeCancel {gid g tenant grp pc level} (h : s.MemWf) :
    (s.takeCancel gid g tenant grp pc level).MemWf :=
  .takeTrap (h.giveUpIndices.updGang.updWg fun _ => rfl)

theorem State.MemWf.cancelFirst {gid} (h : s.MemWf) : (s.cancelFirst gid).MemWf := by
  unfold State.cancelFirst
  split
  · exact h
  · split
    · split
      · exact h
      · split
        · exact h.takeCancel
        · exact h
    · exact h

/-! ### Admission and pre-emption -/

theorem State.MemWf.tenantUse {unit tenant va n} (h : s.MemWf) : (s.tenantUse unit tenant va n).MemWf := by
  unfold State.tenantUse
  refine h.foldl fun _ _ h => ?_
  extract_lets
  split
  · split
    · exact h.walkUse.l2Use
    · exact h.walkUse
  · exact h

theorem State.MemWf.planUse {unit tenant plan} (h : s.MemWf) : (s.planUse unit tenant plan).MemWf := by
  unfold State.planUse
  split
  · exact h
  · extract_lets
    split
    · exact .ite h.tenantUse h.tenantUse.tenantUse
    · exact h.tenantUse

theorem State.MemWf.grantPlan {wid plan} (h : s.MemWf) : (s.grantPlan wid plan).MemWf := by
  unfold State.grantPlan
  split
  · exact h
  · extract_lets
    split
    · exact h.planUse
    · exact .frame h.planUse
    · exact .ite h.planUse (h.planUse.updWg fun _ => rfl)

theorem State.MemWf.fillActive {pid n} (h : s.MemWf) : (s.fillActive pid n).MemWf := by
  induction n generalizing s with
  | zero => exact h
  | succ n ih =>
    unfold State.fillActive
    split
    · exact h
    · split
      · exact h
      · exact ih h.updGang

theorem State.MemWf.freshCore {core} (h : s.MemWf) : (s.freshCore core).MemWf := .frame h

theorem State.MemWf.addWg {w slots gangOf} (h : s.MemWf) (hw : Memory.wf w.scr = true) :
    (s.addWg w slots gangOf).MemWf := by
  unfold State.addWg
  extract_lets wid ids s1
  have h1 : s1.MemWf := .frame (h.setWg hw)
  exact h1.freshCore.fillActive

theorem State.MemWf.admitWg {lid wgid pid} (h : s.MemWf) : (s.admitWg lid wgid pid).MemWf := by
  unfold State.admitWg
  split
  · exact h
  · exact .grantPlan (.setCreg (.setCreg (h.updLaunch.addWg rfl)))

theorem State.MemWf.flushWg {wid} (h : s.MemWf) : (s.flushWg wid).MemWf := by
  unfold State.flushWg
  split
  · exact h
  · extract_lets s1 s2
    have h1 : s1.MemWf := h.foldl fun _ _ h => h.removeGang
    have h2 : s2.MemWf := .delWg h1
    exact .ite h2.countUnit.checkGrids h2.updLaunch

theorem State.MemWf.preemptUnit {wid lat} (h : s.MemWf) : (s.preemptUnit wid lat).MemWf := by
  unfold State.preemptUnit
  extract_lets ms sum td s1
  have h1 : s1.MemWf := h.foldl fun _ _ h => h.foldl fun _ _ h => h.cancelFirst
  split
  · exact h.foldl fun _ _ h => h.updWg fun _ => rfl
  · exact h1.foldl fun _ _ h => h.flushWg
  · exact h.foldl fun _ _ h => h.updWg fun _ => rfl

theorem State.MemWf.requestRoom {part} (h : s.MemWf) : (s.requestRoom part).MemWf := by
  unfold State.requestRoom
  split
  · exact h
  · split
    · exact h
    · split
      · exact h
      · split
        · exact h.preemptUnit
        · exact h

theorem State.MemWf.execAdmission {part pid} (h : s.MemWf) : OutWf (Machine.execAdmission part pid s) := by
  unfold Machine.execAdmission
  split
  · exact h.next
  · extract_lets
    split
    · exact h.requestRoom.finish
    · split
      · exact h.requestRoom.finish
      · split
        · exact h.requestRoom.finish
        · exact (h.requestRoom.foldl fun _ _ h => h.admitWg).finish

theorem State.MemWf.execTimeSliceEnd {wg} (h : s.MemWf) : OutWf (Machine.execTimeSliceEnd wg s) := by
  unfold Machine.execTimeSliceEnd
  split
  · exact h.next
  · extract_lets
    split
    · exact h.next
    · split
      · exact h.next
      · split
        · exact h.next
        · exact h.preemptUnit.next

theorem State.MemWf.execDrainTimeout {wg} (h : s.MemWf) : OutWf (Machine.execDrainTimeout wg s) := by
  unfold Machine.execDrainTimeout
  split
  · exact h.next
  · exact .ite (.next (h.foldl fun _ _ h => h.updWg fun _ => rfl)) h.next

/-! ### Context save and restore -/

theorem State.MemWf.saveWg {wid addr} (h : s.MemWf) : (s.saveWg wid addr).MemWf := by
  unfold State.saveWg
  extract_lets s1
  have h1 : s1.MemWf := by
    unfold s1
    split
    · exact h
    · exact h.foldl fun _ _ h => h.vaultFinish.updGang
  split
  · exact h
  · extract_lets gs offs body s2 s3 s4 s5
    have h3 : s3.MemWf := h1.drainScope.checkPa.checkPa.homeWrite
    have h4 : s4.MemWf := h3.updWg fun _ => rfl
    have h5 : s5.MemWf := h4.foldl fun _ _ h => h.updGang
    exact .pruneMonitors (.frame h5)

theorem State.MemWf.execContextSave {wg addr} (h : s.MemWf) : OutWf (Machine.execContextSave wg addr s) := by
  unfold Machine.execContextSave
  extract_lets ms s1
  have h1 : s1.MemWf := h.foldl fun _ _ h => h.foldl fun _ _ h => h.stopMacros.cancelFirst
  exact .ite h.next (.ite h1.finish (h1.foldlFst fun _ _ h => h.saveWg).finish)

theorem State.MemWf.disarm {gids} (h : s.MemWf) : (s.disarm gids).MemWf := .frame h

theorem State.MemWf.restoreWg {wid pid} (h : s.MemWf) : (s.restoreWg wid pid).MemWf := by
  unfold State.restoreWg
  split
  · exact h
  · extract_lets a off gs p rec0 scr0 fl order gs1 gs2 w1 src s1 src' s2 queue s3
    have hw : Memory.wf w1.scr = true := canon_puts _ _ _ rfl
    have h1 : s1.MemWf := .frame (h.freshCore.disarm.withWgs (List.all_eq_true.mp (h.setWg hw).2.2))
    have h3 : s3.MemWf := .ite h1.setCpart h1.setCpart.enqueueStarter
    exact .ite h.terminate (.fillActive (.frame h3))

theorem State.MemWf.execContextRestore {wg pid} (h : s.MemWf) : OutWf (Machine.execContextRestore wg pid s) := by
  unfold Machine.execContextRestore
  extract_lets
  split
  · exact h.next
  · extract_lets
    split
    · exact h.next
    · split
      · exact .ite h.restoreWg.finish h.next
      · split
        · exact h.next
        · refine State.MemWf.finish ?_
          refine h.foldl fun _ _ h => ?_
          split
          · exact h.restoreWg
          · exact h

/-! ### Events of gangs and core partitions -/

theorem State.MemWf.execProducerWriteback {gang idx} (h : s.MemWf) :
    OutWf (Machine.execProducerWriteback gang idx s) := by
  unfold Machine.execProducerWriteback
  split
  · exact h.next
  · exact .ite h.updGang.next h.next

theorem State.MemWf.execLaneExited {gang} (h : s.MemWf) : OutWf (Machine.execLaneExited gang s) := by
  unfold Machine.execLaneExited
  split
  · exact h.next
  · exact .ite h.next (.ite h.updGang.takeTrap.finish h.updGang.exitNow.finish)

theorem State.MemWf.execSleepWake {gang} (h : s.MemWf) : OutWf (Machine.execSleepWake gang s) := by
  unfold Machine.execSleepWake
  split
  · exact h.next
  · exact .ite h.next h.updGang.next

theorem State.MemWf.execActiveSetRemove {pid} (h : s.MemWf) : OutWf (Machine.execActiveSetRemove pid s) := by
  unfold Machine.execActiveSetRemove
  exact (h.foldl fun _ _ h => .ite h.updGang h).fillActive.next

theorem State.MemWf.execQuadSplit {gang quad} (h : s.MemWf) : OutWf (Machine.execQuadSplit gang quad s) := by
  unfold Machine.execQuadSplit
  split
  · exact h.next
  · extract_lets
    split
    · exact .ite h.next h.updGang.next
    · exact h.next

theorem State.MemWf.execXclaimGrant {pid} (h : s.MemWf) : OutWf (Machine.execXclaimGrant pid s) := by
  unfold Machine.execXclaimGrant
  split
  · exact h.next
  · exact .ite h.next h.updGang.next

theorem State.MemWf.execXgiveCredit {gang} (h : s.MemWf) : OutWf (Machine.execXgiveCredit gang s) := by
  unfold Machine.execXgiveCredit
  split
  · exact h.next
  · split
    · exact h.next
    · exact h.updGang.next

theorem State.MemWf.deadlockTrap {gid xfree} (h : s.MemWf) : (s.deadlockTrap gid xfree).MemWf := by
  unfold State.deadlockTrap
  split
  · exact h
  · extract_lets
    split
    · exact h
    · exact h.updGang.takeTrap

theorem State.MemWf.execRegDeadlockReport {pid} (h : s.MemWf) : OutWf (Machine.execRegDeadlockReport pid s) := by
  unfold Machine.execRegDeadlockReport
  split
  · exact h.next
  · extract_lets
    split
    · exact h.next
    · exact (h.setCpart.foldl fun _ _ h => h.deadlockTrap).next

theorem State.MemWf.execBinTimerExpire {pid bin} (h : s.MemWf) : OutWf (Machine.execBinTimerExpire pid bin s) := by
  unfold Machine.execBinTimerExpire
  extract_lets
  split
  · exact h.next
  · exact .ite h.setCpart.next h.next

theorem State.MemWf.execBinLaunch {pid} (h : s.MemWf) : OutWf (Machine.execBinLaunch pid s) := by
  unfold Machine.execBinLaunch
  extract_lets
  split
  · exact h.next
  · split
    · exact h.setCpart.next
    · split
      · split
        · exact h.next
        · split
          · exact h.next
          · split
            · exact h.next
            · exact .ite h.next (State.MemWf.finish (.refill (.updLaunch (h.takeFree.setCpart.addWg rfl))))
      · exact h.next

theorem State.MemWf.execStarterWave {cluster} (h : s.MemWf) : OutWf (Machine.execStarterWave cluster s) := by
  unfold Machine.execStarterWave
  exact .ite h.next (.ite h.next (State.MemWf.next (.foldl (.frame h) fun _ _ h => h.updGang)))

theorem State.MemWf.execRdvStallWatchdog {gang pc} (h : s.MemWf) : OutWf (Machine.execRdvStallWatchdog gang pc s) := by
  unfold Machine.execRdvStallWatchdog
  split
  · exact h.rdvStall.next
  · exact h.next

theorem State.MemWf.qpopSleep {gid w x q t vd sd m parked} (h : s.MemWf) :
    (s.qpopSleep gid w x q t vd sd m parked).MemWf := by
  unfold State.qpopSleep
  split
  rename_i s1 e
  have h1 : s1.MemWf := by
    refine .of_snd ?_ e
    split
    · exact h
    · split
      · exact h.arm
      · exact h
  exact h1.updGang

theorem State.MemWf.qpopAgain {gid w g x q t vd sd m parked} (h : s.MemWf) :
    (s.qpopAgain gid w g x q t vd sd m parked).MemWf := by
  unfold State.qpopAgain
  extract_lets
  split
  · exact h
  · split
    · exact h.markCopied.signal.updGang.takeTrap
    · exact .ite h.updGang.parkPages (.ite h.qpopTry h.qpopTry.pruneMonitors.qpopSleep)

theorem State.MemWf.execWaitcWake {gang idx} (h : s.MemWf) : OutWf (Machine.execWaitcWake gang idx s) := by
  unfold Machine.execWaitcWake
  split
  · exact h.next
  · split
    · split
      · exact h.repeatRead.finish
      · exact h.next
    · exact h.next

theorem State.MemWf.execParkedPoll {gang idx} (h : s.MemWf) : OutWf (Machine.execParkedPoll gang idx s) := by
  unfold Machine.execParkedPoll
  split
  · exact h.next
  · split
    · split
      · exact .ite h.repeatRead.finish h.next
      · exact .ite h.qpopAgain.finish h.next
      · exact h.next
    · exact h.next

theorem State.MemWf.execQpopCopy {gang idx} (h : s.MemWf) : OutWf (Machine.execQpopCopy gang idx s) := by
  unfold Machine.execQpopCopy
  split
  · exact h.next
  · split
    · split
      · exact h.qpopAgain.finish
      · exact h.next
    · exact h.next

theorem State.MemWf.execWcbDrainTimeout {core line} (h : s.MemWf) :
    OutWf (Machine.execWcbDrainTimeout core line s) := by
  unfold Machine.execWcbDrainTimeout
  exact .ite h.drainLine.finish (.ite h.drainPoint.finish h.next)

/-! ### The task window -/

theorem State.MemWf.setPort {part p x} (h : s.MemWf) : (s.setPort part p x).MemWf := .frame h
theorem State.MemWf.updTask {id f} (h : s.MemWf) : (s.updTask id f).MemWf := .frame h
theorem State.MemWf.returnHandle {part h'} (h : s.MemWf) : (s.returnHandle part h').MemWf := .frame h

theorem State.MemWf.winPut {tenant n va bs bad} (h : s.MemWf) : (s.winPut tenant n va bs bad).MemWf := by
  induction n generalizing s va bs bad with
  | zero => exact h
  | succ n ih =>
    unfold State.winPut
    split
    · exact h
    · split
      · exact ih h.walkUse.engWrite
      · exact h

theorem State.MemWf.winWrite {tenant va bs bad} (h : s.MemWf) : (s.winWrite tenant va bs bad).MemWf := h.winPut

theorem State.MemWf.winTouch {tenant va n byp} (h : s.MemWf) : (s.winTouch tenant va n byp).MemWf := by
  unfold State.winTouch
  extract_lets
  refine h.foldl fun _ _ h => ?_
  extract_lets
  split
  · exact h.walkUse.touchFor
  · exact h

theorem State.MemWf.addTask {t} (h : s.MemWf) : (s.addTask t).MemWf := .frame h

theorem State.MemWf.decodeFault {part port i f d} (h : s.MemWf) : (s.decodeFault part port i f d).MemWf := by
  unfold State.decodeFault
  exact .setPort (.frame h)

theorem State.MemWf.countStall {part k off} (h : s.MemWf) : (s.countStall part k off).MemWf := by
  unfold State.countStall
  exact .ite h (.frame h)

theorem State.MemWf.badTask {part port i f d n} (h : s.MemWf) : (s.badTask part port i f d n).MemWf := by
  unfold State.badTask
  exact .ite h (.ite h.countStall h.winTouch.decodeFault)

theorem State.MemWf.taskWord {i bs first late f post} (h : s.MemWf) (hpost : ∀ t k, t.MemWf → (post t k).1.MemWf) :
    OutWf (Machine.taskWord i bs first late f post s) := by
  unfold Machine.taskWord
  split
  · exact h.next
  · extract_lets p addr d0 __src d1 n bad
    split
    · exact h.next
    · clear_value bad
      split
      · exact h.badTask.finish
      · split
        · exact h.badTask.finish
        · exact .ite h.next (.ite h.badTask.finish h.countStall.next)
        · exact .ite h.countStall.next (State.MemWf.finish (.setPort (hpost _ _ (.frame h.winTouch))))

theorem State.MemWf.noPost {p} (h : s.MemWf) : (Machine.noPost s p).1.MemWf := h

theorem State.MemWf.execTphase {w} (h : s.MemWf) : OutWf (Machine.execTphase w s) := by
  unfold Machine.execTphase
  exact h.taskWord fun _ _ h => .frame h

theorem State.MemWf.lateTask {i bs first f} (h : s.MemWf) : OutWf (Machine.lateTask i bs first f s) :=
  h.taskWord fun _ _ h => h.noPost

theorem State.MemWf.collTask {i w} (h : s.MemWf) : OutWf (Machine.collTask i w s) := h.lateTask
theorem State.MemWf.plainTask {i} (h : s.MemWf) : OutWf (Machine.plainTask i s) := h.lateTask
theorem State.MemWf.portPage {part port va} (h : s.MemWf) : (s.portPage part port va).MemWf := .frame h
theorem State.MemWf.dropDecode {part port} (h : s.MemWf) : (s.dropDecode part port).MemWf := .frame h

/-! ### The fabric -/

theorem State.MemWf.report {what which} (h : s.MemWf) : (s.report what which).MemWf := by
  unfold State.report
  exact .ite (.frame h) (.frame h)

theorem State.MemWf.waitedReports (h : s.MemWf) : s.waitedReports.MemWf := by
  unfold State.waitedReports
  exact .ite (.frame h) h

theorem State.MemWf.ethCount {p k n} (h : s.MemWf) : (s.ethCount p k n).MemWf := h.setCreg
theorem State.MemWf.setConn {k c} (h : s.MemWf) : (s.setConn k c).MemWf := .frame h

theorem State.MemWf.startConns {remote} (h : s.MemWf) : (s.startConns remote).MemWf := by
  unfold State.startConns
  exact h.foldl fun _ _ h => .frame h

theorem State.MemWf.emit {port kind h' payload} (h : s.MemWf) : (s.emit port kind h' payload).MemWf := by
  unfold State.emit
  exact .ethCount (.frame h)

theorem State.MemWf.emitSeq {remote vc c p} (h : s.MemWf) : (s.emitSeq remote vc c p).MemWf := h.emit

theorem State.MemWf.pump {remote vc n} (h : s.MemWf) : (s.pump remote vc n).MemWf := by
  induction n generalizing s with
  | zero => exact h
  | succ n ih =>
    unfold State.pump
    extract_lets c
    split
    · exact h
    · exact .ite h (ih h.setConn.emitSeq)

theorem State.MemWf.sendSeq {remote vc payload n} (h : s.MemWf) : (s.sendSeq remote vc payload n).MemWf := by
  unfold State.sendSeq
  exact .ite h h.setConn.pump

theorem State.MemWf.sendPieces {remote vc n bs k} (h : s.MemWf) : (s.sendPieces remote vc n bs k).MemWf := by
  induction k generalizing s bs with
  | zero => exact h
  | succ k ih =>
    unfold State.sendPieces
    exact .ite h (ih h.sendSeq)

theorem State.MemWf.sendData {remote vc bs} (h : s.MemWf) : (s.sendData remote vc bs).MemWf := h.sendPieces

theorem State.MemWf.sendTime {remote} (h : s.MemWf) : (s.sendTime remote).MemWf := by
  unfold State.sendTime
  exact .ite h h.emit

theorem State.MemWf.setCeiling (h : s.MemWf) : s.setCeiling.MemWf := .frame h

theorem State.MemWf.carryNotice {n dst} (h : s.MemWf) : (s.carryNotice n dst).MemWf := by
  unfold State.carryNotice
  exact .ite h.sendData.sendSeq h.fabricSend

theorem State.MemWf.sendNotice {g n} (h : s.MemWf) : (s.sendNotice g n).MemWf := by
  unfold State.sendNotice
  exact .foldl (.frame h) fun _ _ h => h.carryNotice

theorem State.MemWf.addOwnLimit {group l} (h : s.MemWf) : (s.addOwnLimit group l).MemWf := .frame h

theorem State.MemWf.sendLimit {limit} (h : s.MemWf) : (s.sendLimit limit).MemWf := by
  unfold State.sendLimit
  extract_lets
  refine .foldl (.frame h) fun _ _ h => ?_
  split
  · exact h.addOwnLimit.sendNotice
  · exact h

theorem State.MemWf.joinGroup {g} (h : s.MemWf) : (s.joinGroup g).MemWf := by
  unfold State.joinGroup
  exact .setCeiling (.sendNotice (.frame h))

theorem State.MemWf.sendLeave {g} (h : s.MemWf) : (s.sendLeave g).MemWf := by
  unfold State.sendLeave
  exact .setCeiling (.sendNotice (.frame h))

theorem State.MemWf.leaveGroup {g} (h : s.MemWf) : (s.leaveGroup g).MemWf := by
  unfold State.leaveGroup
  exact .ite h.sendLeave (.frame h)

theorem State.MemWf.unbindPort {part port} (h : s.MemWf) : (s.unbindPort part port).MemWf := by
  unfold State.unbindPort
  extract_lets
  split
  · exact h
  · exact .ite (.leaveGroup (.frame h)) (.frame h)

theorem State.MemWf.collPut {part port n rank m} (h : s.MemWf) : (s.collPut part port n rank m).MemWf := .frame h

theorem State.MemWf.collDeliver {x} (h : s.MemWf) : (s.collDeliver x).MemWf := by
  unfold State.collDeliver
  exact .ite (h.foldl fun _ _ h => h.collPut) (.frame (h.foldl fun _ _ h => h))

theorem State.MemWf.takeMessages {part port group} (h : s.MemWf) : (s.takeMessages part port group).MemWf :=
  h.foldl fun _ _ h => h.collPut

theorem State.MemWf.sendColl {part port g n m} (h : s.MemWf) : (s.sendColl part port g n m).MemWf := by
  unfold State.sendColl
  exact h.collDeliver.foldl fun _ _ h => .ite h.sendData h.fabricSend

theorem State.MemWf.collSend {part port g n m} (h : s.MemWf) : (s.collSend part port g n m).MemWf := by
  unfold State.collSend
  exact .ite h.sendColl (.frame h)

theorem State.MemWf.sendAbort {part port} (h : s.MemWf) : (s.sendAbort part port).MemWf := by
  unfold State.sendAbort
  extract_lets
  split
  · exact h
  · exact h.collSend

theorem State.MemWf.waitedRequests (h : s.MemWf) : s.waitedRequests.MemWf := by
  unfold State.waitedRequests
  extract_lets go
  have hgo : ∀ s' a, s'.MemWf → (go s' a).MemWf := by
    intro s' a hs'
    unfold go
    split
    · exact .ite hs'.sendLeave (.frame hs')
    · exact .ite hs'.sendColl (.frame hs')
  exact .foldl (.frame h) hgo

/-! ### Issue of tasks -/

theorem State.MemWf.failTask {id f} (h : s.MemWf) : (s.failTask id f).MemWf := h.updTask
theorem State.MemWf.failWith {id cause detail} (h : s.MemWf) : (s.failWith id cause detail).MemWf := h.failTask
theorem State.MemWf.doneTask {id} (h : s.MemWf) : (s.doneTask id).MemWf := h.updTask.clearResident

theorem State.MemWf.taskPage {id va kind} (h : s.MemWf) : (s.taskPage id va kind).MemWf := by
  unfold State.taskPage
  split
  · exact h
  · exact .frame h

theorem State.MemWf.onWin {α : Type} {id kind} {r : WinRes α} {f : α → State} (h : s.MemWf) (hf : ∀ x, (f x).MemWf) :
    (s.onWin id kind r f).MemWf := by
  unfold State.onWin
  split
  · exact hf _
  · exact h.taskPage
  · exact h.failWith

theorem State.MemWf.newLaunch {id t r sp count} (h : s.MemWf) : (s.newLaunch id t r sp count).MemWf := by
  unfold State.newLaunch
  exact .updTask (.frame h)

theorem State.MemWf.issueLaunch {id t rec_ count draw zero} (h : s.MemWf) (hzero : ∀ t, t.MemWf → (zero t).MemWf) :
    (s.issueLaunch id t rec_ count draw zero).MemWf := by
  unfold State.issueLaunch
  extract_lets ten s1
  have h1 : s1.MemWf := h.winTouch
  split
  · exact h.failWith
  · split
    · exact h.taskPage
    · exact h.failWith
    · extract_lets r table go
      have htable : ∀ f : State → List SpawnEntry → State, (∀ t sp, t.MemWf → (f t sp).MemWf) → (table f).MemWf := by
        intro f hf
        unfold table
        split
        · exact h.taskPage
        · exact h1.failWith
        · exact hf _ _ h1.winTouch
      clear_value table
      have hgo : ∀ t sp, t.MemWf → (go t sp).MemWf := fun t sp ht => .ite (hzero t ht) ht.newLaunch
      split
      · exact h1.failTask
      · split
        · apply htable
          intro t sp ht
          split
          · exact ht.failWith
          · split
            · exact ht.failTask
            · exact hgo _ _ ht
        · split
          · exact h1.failTask
          · exact htable _ hgo

theorem State.MemWf.placeCmd {id k part} (h : s.MemWf) : (s.placeCmd id k part).MemWf := by
  unfold State.placeCmd
  split
  · exact h
  · exact .updTask (.frame h)

theorem State.MemWf.appendFrame {enc p bits} (h : s.MemWf) : (s.appendFrame enc p bits).MemWf := by
  unfold State.appendFrame
  split
  extract_lets
  split
  · exact .frame h
  · split
    · exact .frame h.winWrite.winWrite
    · exact .frame h
    · exact .frame h
    · exact .frame h

theorem State.MemWf.appendWaiting {enc} (h : s.MemWf) : (s.appendWaiting enc).MemWf := by
  unfold State.appendWaiting
  split
  · exact h.appendFrame
  · exact h

theorem State.MemWf.issuePresent {id t w} (h : s.MemWf) : (s.issuePresent id t w).MemWf := by
  unfold State.issuePresent
  extract_lets ten head enc
  refine h.onWin fun _ => ?_
  split
  · exact h.winTouch.failWith
  · split
    · exact h.winTouch.failWith
    · split
      · exact h.winTouch.failTask
      · extract_lets pr s1 s2
        have h1 : s1.MemWf := by
          unfold s1
          clear_value head
          split
          · exact .frame h.winTouch
          · exact h.winTouch
        have h2 : s2.MemWf := by
          unfold s2
          clear_value enc
          split
          · exact .frame h1
          · exact h1
        exact h2.updTask

theorem State.MemWf.issueColl {id t op w} (h : s.MemWf) : (s.issueColl id t op w).MemWf := by
  unfold State.issueColl
  extract_lets
  split
  · exact h.failWith
  · split
    · exact h.failWith
    · split
      · exact h.failWith
      · split
        · exact h.failWith
        · split
          · exact h.failWith
          · exact .ite h.setPort.updTask.doneTask (h.onWin fun _ => h.setPort.winTouch.updTask.collSend.collPut)

theorem State.MemWf.onWord {id t a acc f} (h : s.MemWf) (hf : ∀ x, (f x).MemWf) : (s.onWord id t a acc f).MemWf := by
  unfold State.onWord
  split
  · exact h.failWith
  · split
    · exact hf _
    · exact h.taskPage
    · exact h.failWith

theorem State.MemWf.tryWait {id t w} (h : s.MemWf) : (s.tryWait id t w).MemWf := by
  unfold State.tryWait
  extract_lets
  refine h.onWord fun _ => ?_
  split
  · exact h.failWith
  · extract_lets s0
    have h0 : s0.MemWf := h.touchFor
    split
    · exact h0.updTask.doneTask
    · split
      rename_i s1 e
      have h1 : s1.MemWf := by
        refine .of_snd ?_ e
        split
        · exact h0
        · exact h0.arm
      exact h1.updTask

theorem State.MemWf.loadK {id t n x} (h : s.MemWf) : (s.loadK id t n x).MemWf := h.setPort.updTask

theorem State.MemWf.issueGroup {id t w} (h : s.MemWf) : (s.issueGroup id t w).MemWf := by
  unfold State.issueGroup
  extract_lets
  split
  · exact h.failWith
  · split
    · exact h.taskPage
    · exact h.failWith
    · extract_lets
      split
      · exact h.taskPage
      · exact h.failWith
      · extract_lets
        split
        · exact h.winTouch.failWith
        · split
          · exact h.winTouch.failWith
          · split
            · exact h.winTouch.failWith
            · split
              · exact h.winTouch.taskPage
              · exact h.failWith
              · exact h.failWith
              · extract_lets out g s1
                have h1 : s1.MemWf := h.winTouch.winWrite.unbindPort
                exact .updTask (.ite h1.takeFree.joinGroup h1.takeFree)
          · exact h.winTouch.failWith

theorem State.MemWf.issueTask {part id} (h : s.MemWf) : (s.issueTask part id).MemWf := by
  unfold State.issueTask
  split
  · exact h
  · split
    · exact h
    · extract_lets
      split
      · exact .doneTask (.frame h)
      · split
        · exact .failWith (.frame h)
        · exact .failTask (.frame h)
        · split
          · exact .issueLaunch (.frame h) fun _ h => h.updTask.doneTask
          · exact .issueLaunch (.frame h) fun _ h => h.updTask
          · exact .placeCmd (.frame h)
          · exact .placeCmd (.frame h)
          · exact .issuePresent (.frame h)
          · exact .tryWait (.frame h)
          · exact .onWord (.frame h) fun _ => .doneTask (.updTask (.engWrite (.frame h)))
          · exact .doneTask (.updTask (.frame h))
          · exact .onWord (.frame h) fun _ => .doneTask (.loadK (.updTask (.touchFor (.frame h))))
          · exact .issueGroup (.frame h)
          · split
            · exact .issueColl (.frame h)
            · exact .frame h

/-! ### End of tasks -/

theorem State.MemWf.finishTask {id} (h : s.MemWf) : (s.finishTask id).MemWf := by
  unfold State.finishTask
  split
  · exact h
  · split
    · exact h.failWith.clearResident
    · exact h.doneTask

theorem State.MemWf.reportTask {id tenant va n} (h : s.MemWf) : (s.reportTask id tenant va n).MemWf := by
  unfold State.reportTask
  exact .ite h h.updTask

theorem State.MemWf.tryColl {id t op w} (h : s.MemWf) : (s.tryColl id t op w).MemWf := by
  unfold State.tryColl
  extract_lets
  split
  · exact h
  · split
    · exact h.failWith
    · split
      · exact h.failWith
      · extract_lets all
        split
        · exact h
        · clear_value all
          split
          · exact h
          · split
            · exact .failWith (.frame h)
            · exact h.onWin fun _ => .finishTask (.reportTask (.frame h.winWrite))

theorem State.MemWf.tryPresent {id t w} (h : s.MemWf) : (s.tryPresent id t w).MemWf := by
  unfold State.tryPresent
  split
  · exact h
  · exact h.onWin fun _ => .ite (.doneTask (.frame h)) (h.onWin fun _ => .doneTask (.winWrite (.frame h)))

theorem State.MemWf.tryGroup {id t} (h : s.MemWf) : (s.tryGroup id t).MemWf := by
  unfold State.tryGroup
  split
  · exact .ite h h.setPort.takeMessages.doneTask
  · exact h

theorem State.MemWf.tryDraw {id t w} (h : s.MemWf) : (s.tryDraw id t w).MemWf := by
  unfold State.tryDraw
  split
  · exact h
  · split
    · exact h.finishTask
    · split
      · exact h.doneTask
      · extract_lets x s1 s2
        have h2 : s2.MemWf := h.updTask.issueLaunch fun _ h => h.finishTask
        exact .ite h2.updTask h2

theorem State.MemWf.tryTask {part id} (h : s.MemWf) : (s.tryTask part id).MemWf := by
  unfold State.tryTask
  split
  · exact h
  · split
    · exact h
    · split
      · split
        · exact h.failTask.clearResident
        · exact .ite h.finishTask h
      · split
        · exact h.failTask.clearResident
        · exact h.tryDraw
      · split
        · exact h
        · split
          · exact h.failTask
          · exact h.finishTask
      · split
        · exact h
        · split
          · exact h.failTask
          · exact h.finishTask
      · split
        · exact h
        · exact .ite h (.ite (.frame (State.MemWf.tryWait (.frame h))) (.tryWait (.frame h)))
      · exact h.tryPresent
      · exact h.tryGroup
      · split
        · exact h.tryColl
        · exact h

theorem State.MemWf.execSnapshotTimeout {part port} (h : s.MemWf) :
    OutWf (Machine.execSnapshotTimeout part port s) := by
  unfold Machine.execSnapshotTimeout
  split
  · exact h.next
  · split
    · exact h.failWith.leaveGroup.next
    · exact h.next

theorem State.MemWf.tryColls {part port n} (h : s.MemWf) : (s.tryColls part port n).MemWf :=
  h.foldl fun _ _ h => h.tryTask

theorem State.MemWf.signalPort {part port} (h : s.MemWf) : (s.signalPort part port).MemWf := h.signal

theorem State.MemWf.dropTask {part id} (h : s.MemWf) : (s.dropTask part id).MemWf := by
  unfold State.dropTask
  split
  · exact h
  · exact .frame h

theorem State.MemWf.retireTask {part port id t} (h : s.MemWf) : (s.retireTask part port id t).MemWf := by
  unfold State.retireTask
  extract_lets p grp __src s1 s2
  have h2 : s2.MemWf := h.setPort.dropTask.foldl fun _ _ h => h.returnHandle
  split
  · exact h2.setPort.sendAbort.unbindPort.signalPort
  · exact h2

theorem State.MemWf.cancelTasks {ts} (h : s.MemWf) : (s.cancelTasks ts).MemWf :=
  h.foldl fun _ _ h => h.foldl fun _ _ h => h.cancelLevel

theorem State.MemWf.squash {part port ts} (h : s.MemWf) : (s.squash part port ts).MemWf := by
  unfold State.squash
  extract_lets s1 mine s2
  have h1 : s1.MemWf := h.foldl fun _ _ h => h.foldl fun _ _ h => h.returnHandle
  have h2 : s2.MemWf := h1.foldl fun _ _ h => h.dropTask
  exact .setPort (.dropDecode (.frame h2))

theorem State.MemWf.faultStop {part port ts f} (h : s.MemWf) : (s.faultStop part port ts f).MemWf := by
  unfold State.faultStop
  exact .ite h.cancelTasks h.cancelTasks.squash.setPort.sendAbort.signalPort

theorem State.MemWf.cancelStop {part port ts} (h : s.MemWf) : (s.cancelStop part port ts).MemWf := by
  unfold State.cancelStop
  exact .ite h.cancelTasks.setPort h.cancelTasks.setPort.squash.setPort.sendAbort.signalPort

theorem State.MemWf.retirePort {part port n} (h : s.MemWf) : (s.retirePort part port n).MemWf := by
  induction n generalizing s with
  | zero => exact h
  | succ n ih =>
    unfold State.retirePort
    extract_lets p ts
    clear_value ts
    split
    · exact h
    · split
      · exact h.cancelStop
      · split
        · exact .ite h.dropDecode.setPort.sendAbort h
        · split
          · exact ih h.retireTask
          · exact h.faultStop
          · exact h

theorem State.MemWf.startStream {part port} (h : s.MemWf) : (s.startStream part port).MemWf := by
  unfold State.startStream
  exact .ite h (h.foldl fun _ _ h => h.returnHandle).setPort

theorem State.MemWf.execTctlGo {part port tenant} (h : s.MemWf) : OutWf (Machine.execTctlGo part port tenant s) := by
  unfold Machine.execTctlGo
  exact .ite h.defer.next (.ite h.next (State.MemWf.next (.setPort (.frame h.startStream))))

theorem State.MemWf.execTctlHalt {part port} (h : s.MemWf) : OutWf (Machine.execTctlHalt part port s) := by
  unfold Machine.execTctlHalt
  exact .ite h.defer.next (.ite h.setPort.next h.next)

theorem State.MemWf.execFreeadd {part v} (h : s.MemWf) : OutWf (Machine.execFreeadd part v s) := by
  unfold Machine.execFreeadd
  exact .ite h.defer.next (.ite h.next (State.MemWf.next (.returnHandle (.frame h))))

theorem State.MemWf.setWlimit {part v} (h : s.MemWf) : (s.setWlimit part v).MemWf := h.setCreg

theorem State.MemWf.cancelPhase {ph} (h : s.MemWf) : (s.cancelPhase ph).MemWf := by
  unfold State.cancelPhase
  split
  · exact h
  · extract_lets
    split
    · exact .frame h
    · exact h.cancelLevel

theorem State.MemWf.cancelJob {job} (h : s.MemWf) : (s.cancelJob job).MemWf := by
  unfold State.cancelJob
  split
  · exact h
  · extract_lets
    split
    · exact .frame h
    · exact h.cancelLevel

theorem State.MemWf.execHostCancel {level a b c} (h : s.MemWf) : OutWf (Machine.execHostCancel level a b c s) := by
  unfold Machine.execHostCancel
  split
  · exact h.defer.next
  · split
    · exact h.cancelLevel.finish
    · exact h.cancelLevel.finish
    · split
      · exact h.cancelPhase.finish
      · exact h.next
    · exact h.cancelJob.finish
    · exact h.next

/-! ### Page faults, invalidation and ECC errors -/

theorem State.MemWf.dropFault {f} (h : s.MemWf) : (s.dropFault f).MemWf := by
  unfold State.dropFault
  extract_lets
  split
  · exact .updGang (.frame h)
  · exact .frame h

theorem State.MemWf.replayFault {f} (h : s.MemWf) : (s.replayFault f).MemWf := by
  unfold State.replayFault
  extract_lets
  split
  · split
    · exact h.dropFault.grantPlan
    · exact h.dropFault
  · exact h.dropFault.writeShadow
  · exact h.dropFault.appendWaiting
  · exact h.dropFault

theorem State.MemWf.denyFault {f} (h : s.MemWf) : (s.denyFault f).MemWf := by
  unfold State.denyFault
  extract_lets
  split
  · split
    · exact h.dropFault
    · exact .takeTrap (.updGang (.giveUpIndices (.frame h.dropFault)))
  · split
    · exact h.dropFault
    · split
      · exact .ite h.dropFault.dropRt.engRetire.engTaskDone h.dropFault.dropRt.engRetire.engKill
      · exact h.dropFault.updCmd
  · exact h.dropFault.failWith
  · exact h.dropFault.setPort
  · exact h.dropFault
  · exact h.dropFault
  · exact .frame h.dropFault

theorem State.MemWf.serviceFault {f} (h : s.MemWf) : (s.serviceFault f).MemWf := by
  unfold State.serviceFault
  exact .ite h.replayFault (.ite h.denyFault (.signal (.frame h)))

theorem State.MemWf.execPageFaultService {part idx} (h : s.MemWf) :
    OutWf (Machine.execPageFaultService part idx s) := by
  unfold Machine.execPageFaultService
  split
  · exact h.next
  · split
    · exact h.serviceFault.finish
    · exact h.next

theorem State.MemWf.execPfholdTimeout {part} (h : s.MemWf) : OutWf (Machine.execPfholdTimeout part s) := by
  unfold Machine.execPfholdTimeout
  extract_lets
  split
  · exact h.next
  · split
    · exact h.denyFault.finish
    · exact h.next

theorem State.MemWf.execPfrespReplay {part tenant page} (h : s.MemWf) :
    OutWf (Machine.execPfrespReplay part tenant page s) := by
  unfold Machine.execPfrespReplay
  exact .ite h.defer.next (h.foldl fun _ _ h => .ite h.replayFault h.denyFault).finish

theorem State.MemWf.execPfrespDeny {part tenant page} (h : s.MemWf) :
    OutWf (Machine.execPfrespDeny part tenant page s) := by
  unfold Machine.execPfrespDeny
  exact .ite h.defer.next (h.foldl fun _ _ h => h.denyFault).finish

theorem State.MemWf.drainTenant {tenant} (h : s.MemWf) : (s.drainTenant tenant).MemWf := by
  unfold State.drainTenant
  extract_lets s1
  have h1 : s1.MemWf := h.foldl fun _ _ h => h.foldl fun _ _ h => h.drainLine
  exact h1.foldl fun _ _ h => h.foldl fun _ _ h => h.drainPoint

theorem State.MemWf.execTlbInvalidate {tenant page} (h : s.MemWf) :
    OutWf (Machine.execTlbInvalidate tenant page s) := by
  unfold Machine.execTlbInvalidate
  exact .ite h.defer.next (State.MemWf.finish (.frame h.drainTenant))

theorem State.MemWf.countEcc {unit double} (h : s.MemWf) : (s.countEcc unit double).MemWf := by
  unfold State.countEcc
  exact .ite h.setCreg (.frame h)

theorem State.MemWf.poisonUnit {unit addr} (h : s.MemWf) : (s.poisonUnit unit addr).MemWf := by
  unfold State.poisonUnit
  split
  · exact h.poisonAt
  · exact .ite h.poisonAt (.ite h.poisonAt (.ite (h.foldl fun _ _ h => h.poisonAt) (.ite (.frame h) h.updGang)))

theorem State.MemWf.execEccError {unit addr double} (h : s.MemWf) :
    OutWf (Machine.execEccError unit addr double s) := by
  unfold Machine.execEccError
  exact State.MemWf.next (.ite h.countEcc.poisonUnit.report h.countEcc)

theorem State.MemWf.execIllegalEncoding {sub} (h : s.MemWf) : OutWf (Machine.execIllegalEncoding sub s) := by
  unfold Machine.execIllegalEncoding
  split
  · exact h.next
  · split
    · exact h.badTask.finish
    · split
      · exact h.next
      · exact h.chargeIssue.updGang.takeTrap.finish

theorem State.MemWf.execFetchFault {addr} (h : s.MemWf) : OutWf (Machine.execFetchFault addr s) := by
  unfold Machine.execFetchFault
  split
  · exact h.next
  · split
    · exact h.badTask.finish
    · split
      · exact h.next
      · exact h.takeTrap.finish

/-! ### Bring-up and firmware cores -/

theorem State.MemWf.fresh : s.fresh.MemWf := by
  unfold State.fresh
  exact .frame State.MemWf.reset

theorem State.MemWf.execPowerUp (h : s.MemWf) : OutWf (Machine.execPowerUp s) := by
  unfold Machine.execPowerUp
  exact State.MemWf.next (.ite h State.MemWf.fresh)

theorem State.MemWf.execPowerOff : OutWf (Machine.execPowerOff s) := by
  unfold Machine.execPowerOff
  exact State.MemWf.next (.frame State.MemWf.fresh)

theorem State.MemWf.execColdReset (h : s.MemWf) : OutWf (Machine.execColdReset s) := by
  unfold Machine.execColdReset
  exact State.MemWf.next (.ite State.MemWf.fresh h)

theorem State.MemWf.execBootctlGo (h : s.MemWf) : OutWf (Machine.execBootctlGo s) := by
  unfold Machine.execBootctlGo
  exact State.MemWf.next (.ite (.frame h) h)

theorem State.MemWf.execBootImageCheckDone (h : s.MemWf) : OutWf (Machine.execBootImageCheckDone s) := by
  unfold Machine.execBootImageCheckDone
  split
  · exact h.next
  · extract_lets
    split <;> exact State.MemWf.next (.frame h)

theorem State.MemWf.resume (h : s.MemWf) : s.resume.MemWf := by
  unfold State.resume
  extract_lets calls s1
  have h1 : s1.MemWf := .ite (.frame h) h
  clear_value s1
  exact .waitedRequests (.waitedReports (.waitedTerms (.frame h1)))

theorem State.MemWf.unstall (h : s.MemWf) : s.unstall.MemWf := by
  unfold State.unstall
  extract_lets s1
  have h1 : s1.MemWf := h.foldl fun _ _ h => .ite (.frame h) h
  exact .ite h1.resume h1

theorem State.MemWf.restartCores {mask} (h : s.MemWf) : (s.restartCores mask).MemWf := by
  unfold State.restartCores
  exact .unstall (.frame h)

theorem State.MemWf.execBootctlRestart {mask} (h : s.MemWf) : OutWf (Machine.execBootctlRestart mask s) := by
  unfold Machine.execBootctlRestart
  exact State.MemWf.next (.ite h.restartCores h)

theorem State.MemWf.execFwHeartbeat {core} (h : s.MemWf) : OutWf (Machine.execFwHeartbeat core s) := by
  unfold Machine.execFwHeartbeat
  exact .ite h.next (State.MemWf.finish (.ite (.frame h) (.resume (.frame h))))

theorem State.MemWf.execMailboxWrite {core sender kind seq payload} (h : s.MemWf) :
    OutWf (Machine.execMailboxWrite core sender kind seq payload s) := by
  unfold Machine.execMailboxWrite
  split
  · exact h.next
  · exact .ite h.next (.ite (State.MemWf.next (.frame h)) (.ite h.setCreg.next (State.MemWf.next (.frame h))))

theorem State.MemWf.takeMail (h : s.MemWf) : s.takeMail.MemWf := by
  unfold State.takeMail
  exact .unstall (.frame h)

theorem State.MemWf.tdiFail {part} (h : s.MemWf) : (s.tdiFail part).MemWf := by
  unfold State.tdiFail
  exact .ite (.frame h) h

theorem State.MemWf.execMicrocodeLoad {part decls image} (h : s.MemWf) :
    OutWf (Machine.execMicrocodeLoad part decls image s) := by
  unfold Machine.execMicrocodeLoad
  split
  · exact h.next
  · exact .ite h.defer.next (.ite h.tdiFail.next (.ite h.next (.ite h.defer.next (State.MemWf.next (.frame h)))))

theorem State.MemWf.resetPartition {part} (h : s.MemWf) : (s.resetPartition part).MemWf := by
  unfold State.resetPartition
  extract_lets mine s1 cls s2 ts pres s3 slices s4 s5 s6
  have h1 : s1.MemWf := h.foldl fun _ _ h => h.dropWg
  have h2 : s2.MemWf := h1.foldl fun _ _ h => .frame (h.foldl fun _ _ h => h.drainScope)
  have h3 : s3.MemWf := h2.foldl fun _ _ h => h.dropTask
  have h5 : s5.MemWf := .foldl (.frame h3) fun _ _ h => .ite h.setPort h.setPort.sendAbort
  have h6 : s6.MemWf := h5.foldl fun _ _ h => h.unbindPort
  exact h6.pruneMonitors.tdiFail

theorem State.MemWf.execPartitionReset {part} (h : s.MemWf) : OutWf (Machine.execPartitionReset part s) := by
  unfold Machine.execPartitionReset
  exact .ite h.next (.ite h.defer.next h.resetPartition.finish)

theorem State.MemWf.dropSlot {slot} (h : s.MemWf) : (s.dropSlot slot).MemWf := by
  unfold State.dropSlot
  extract_lets s1 s2
  have h1 : s1.MemWf := h.foldl fun _ _ h => h.foldl fun _ _ h => h.drainLine
  have h2 : s2.MemWf := h1.foldl fun _ _ h => h.foldl fun _ _ h => h.drainPoint
  exact .frame h2

theorem State.MemWf.eraseKeys (h : s.MemWf) : s.eraseKeys.MemWf := by
  unfold State.eraseKeys
  exact .foldl (.frame (h.foldl fun _ _ h => h.dropSlot)) fun _ _ h => h.setCreg

theorem State.MemWf.execFunctionLevelReset (h : s.MemWf) : OutWf (Machine.execFunctionLevelReset s) := by
  unfold Machine.execFunctionLevelReset
  extract_lets s1
  have h1 : s1.MemWf := h.foldl fun _ _ h => h.resetPartition
  exact State.MemWf.finish (.eraseKeys (.ite h1.restartCores h1))

/-! ### Power and clocks -/

theorem State.MemWf.showPat {c pat} (h : s.MemWf) : (s.showPat c pat).MemWf := h.setCreg

theorem State.MemWf.frameBegin (h : s.MemWf) : s.frameBegin.MemWf := by
  unfold State.frameBegin
  exact h.foldl fun _ _ h => .ite h h.showPat

theorem State.MemWf.setClkpat {cluster v} (h : s.MemWf) : (s.setClkpat cluster v).MemWf := by
  unfold State.setClkpat
  exact .ite h (.showPat (.frame h))

theorem State.MemWf.setSlope {cluster v} (h : s.MemWf) : (s.setSlope cluster v).MemWf := by
  unfold State.setSlope
  exact .ite h h.setCreg

theorem State.MemWf.setPcap {v} (h : s.MemWf) : (s.setPcap v).MemWf := h.setCreg

theorem State.MemWf.attributeTo {ts left} (h : s.MemWf) : (s.attributeTo ts left).MemWf := by
  induction ts generalizing s left with
  | nil => exact h
  | cons t ts ih => exact ih (.frame h.takeFree)

theorem State.MemWf.execPeakTick {energy} (h : s.MemWf) : OutWf (Machine.execPeakTick energy s) := by
  unfold Machine.execPeakTick
  extract_lets ticks n n' below s1 s2
  have h1 : s1.MemWf := .setCreg (.frame h)
  have h2 : s2.MemWf := .ite h1 (h1.foldl fun _ _ h => h.showPat)
  exact State.MemWf.next (.ite h2.attributeTo h2)

theorem State.MemWf.execIntervalBoundary (h : s.MemWf) : OutWf (Machine.execIntervalBoundary s) := by
  unfold Machine.execIntervalBoundary
  exact State.MemWf.next (.frame h)

theorem State.MemWf.migrateHot {part} (h : s.MemWf) : (s.migrateHot part).MemWf := by
  unfold State.migrateHot
  extract_lets
  split
  · split
    · exact h
    · extract_lets
      split
      · exact h.updWg fun _ => rfl
      · exact h
  · exact h

theorem State.MemWf.execPowerMsTick {energy temps} (h : s.MemWf) : OutWf (Machine.execPowerMsTick energy temps s) := by
  unfold Machine.execPowerMsTick
  extract_lets ticks e1s s1 n s2 s3
  have h1 : s1.MemWf := .setCreg (.frame h)
  have h2 : s2.MemWf := h1.foldl fun _ _ h => h.setCreg
  have h3 : s3.MemWf := by
    unfold s3
    split
    · exact h2.sendLimit
    · exact h2
  exact .ite h2.next (h3.setCeiling.foldl fun _ _ h => h.migrateHot).finish

/-! ### Displays -/

theorem State.MemWf.presentDone {p bit} (h : s.MemWf) : (s.presentDone p bit).MemWf := h.updTask.tryTask

theorem State.MemWf.execHeadFrameStart {head} (h : s.MemWf) : OutWf (Machine.execHeadFrameStart head s) := by
  unfold Machine.execHeadFrameStart
  extract_lets
  split
  · exact h.next
  · exact State.MemWf.finish (.presentDone (.frame h))

theorem State.MemWf.execEncoderFrameDone {enc bits} (h : s.MemWf) :
    OutWf (Machine.execEncoderFrameDone enc bits s) := by
  unfold Machine.execEncoderFrameDone
  extract_lets
  split
  · exact .ite h.next (State.MemWf.finish (.appendFrame (.presentDone (.frame h))))
  · exact h.next

theorem State.MemWf.execEncReadposWrite {enc pos} (h : s.MemWf) : OutWf (Machine.execEncReadposWrite enc pos s) := by
  unfold Machine.execEncReadposWrite
  exact .ite h.defer.next (State.MemWf.finish (.appendWaiting (.frame h)))

/-! ### The Pacer -/

theorem State.MemWf.bump {off} (h : s.MemWf) : (s.bump off).MemWf := h.setCreg

theorem State.MemWf.noticeTo {g dst n} (h : s.MemWf) : (s.noticeTo g dst n).MemWf := by
  unfold State.noticeTo
  exact .carryNotice (.frame h)

theorem State.MemWf.answerJoin {n pg} (h : s.MemWf) : (s.answerJoin n pg).MemWf := by
  unfold State.answerJoin
  split
  · exact h
  · exact .ite h.takeFree.sendNotice h

theorem State.MemWf.snapshotArrived {group} (h : s.MemWf) : (s.snapshotArrived group).MemWf := .frame h

theorem State.MemWf.answerStranger {n g} (h : s.MemWf) : (s.answerStranger n g).MemWf := by
  unfold State.answerStranger
  split
  · exact .ite h.noticeTo h
  · exact h

theorem State.MemWf.acceptNotice {n} (h : s.MemWf) : (s.acceptNotice n).MemWf := by
  unfold State.acceptNotice
  split
  · exact h
  · extract_lets bad known old s1
    have h1 : s1.MemWf := .ite h.bump.report h
    split
    · exact h.bump
    · split
      · exact h
      · split
        · exact .setCeiling (.frame h1)
        · exact .ite (.setCeiling (.snapshotArrived (.frame h1))) (.ite (.setCeiling (.frame h1)) h1.answerStranger)
        · exact .setCeiling (.answerJoin (.frame h1))
        · clear_value known
          split
          · exact .setCeiling (.frame h1)
          · exact .ite h1.answerStranger (.setCeiling (.frame h1))

theorem State.MemWf.deliverNotice {n} (h : s.MemWf) : (s.deliverNotice n).MemWf := by
  unfold State.deliverNotice
  exact .ite h.acceptNotice (.frame h)

theorem State.MemWf.waitedNotices (h : s.MemWf) : s.waitedNotices.MemWf := by
  unfold State.waitedNotices
  exact .ite (.foldl (.frame h) fun _ _ h => h.acceptNotice) h

theorem State.MemWf.startMembers {t} (h : s.MemWf) : (s.startMembers t).MemWf := by
  unfold State.startMembers
  refine h.foldl fun _ _ h => ?_
  split
  · exact h
  · exact h.foldl fun _ _ h => .ite h.startConns h

theorem State.MemWf.execHeartbeatSend {group} (h : s.MemWf) : OutWf (Machine.execHeartbeatSend group s) := by
  unfold Machine.execHeartbeatSend
  split
  · exact h.next
  · split
    · exact h.next
    · extract_lets
      refine .next ?_
      exact .ite (h.addOwnLimit.sendNotice.foldl fun _ _ h => .ite h.sendTime h) h.addOwnLimit.sendNotice

theorem State.MemWf.settleGroups (h : s.MemWf) : s.settleGroups.MemWf := .frame h

theorem State.MemWf.execCeilingChange (h : s.MemWf) : OutWf (Machine.execCeilingChange s) := by
  unfold Machine.execCeilingChange
  exact State.MemWf.next (.frame h)

theorem State.MemWf.execClockLowerBegin {die} (h : s.MemWf) : OutWf (Machine.execClockLowerBegin die s) := by
  unfold Machine.execClockLowerBegin
  split
  · exact .ite (State.MemWf.next (.frame h)) h.next
  · exact h.next

theorem State.MemWf.execMemberDrop {group member} (h : s.MemWf) : OutWf (Machine.execMemberDrop group member s) := by
  unfold Machine.execMemberDrop
  split
  · exact h.next
  · split
    · exact h.next
    · exact .ite h.next (State.MemWf.finish (.setCeiling (.bump (.frame h))))

theorem State.MemWf.carry {x} (h : s.MemWf) : (s.carry x).MemWf := by
  unfold State.carry
  split <;> exact .frame h

theorem State.MemWf.linkSend {i} (h : s.MemWf) : (s.linkSend i).MemWf := by
  unfold State.linkSend
  extract_lets
  split
  · exact h
  · split
    · split
      · exact .ite (.frame h) h
      · exact .frame h
    · split
      · exact h
      · exact .ite (.carry (.frame h)) (.frame h)

theorem State.MemWf.peersDone {t} (h : s.MemWf) : (s.peersDone t).MemWf := by
  unfold State.peersDone
  exact .ite (.resume (.frame h)) (.frame h)

theorem State.MemWf.linkControl {i l c} (h : s.MemWf) : (s.linkControl i l c).MemWf := by
  unfold State.linkControl
  split
  · exact h
  · exact .frame h
  · exact .peersDone (.frame h)
  · exact .frame h

theorem State.MemWf.control {link b} (h : s.MemWf) : (s.control link b).MemWf := .frame h
theorem State.MemWf.announce {link} (h : s.MemWf) : (s.announce link).MemWf := h.foldl fun _ _ h => h.takeFree.control

theorem State.MemWf.execFlitReceive {link f} (h : s.MemWf) : OutWf (Machine.execFlitReceive link f s) := by
  unfold Machine.execFlitReceive
  extract_lets l l1 s1
  have h1 : s1.MemWf := .control (.frame h)
  split
  · exact h.next
  · split
    · exact State.MemWf.next (.control (.frame h))
    · split
      · exact .ite (State.MemWf.next (.frame h)) (.ite h1.bump.next (State.MemWf.next (.frame h1)))
      · exact h.linkControl.finish

theorem State.MemWf.execLinkRetrain {link} (h : s.MemWf) : OutWf (Machine.execLinkRetrain link s) := by
  unfold Machine.execLinkRetrain
  exact .ite h.next (State.MemWf.finish (.peersDone (.foldl (.frame h) fun _ _ h => h.dispatchFlit)))

theorem State.MemWf.execLinkRetrainDone {link} (h : s.MemWf) : OutWf (Machine.execLinkRetrainDone link s) := by
  unfold Machine.execLinkRetrainDone
  exact .ite h.next (State.MemWf.next (.announce (.frame h)))

theorem State.MemWf.extPerform {tenant l acc} (h : s.MemWf) : (s.extPerform tenant l acc).2.2.MemWf := by
  unfold State.extPerform
  extract_lets bytes bad step
  have hstep : ∀ n r, (step n r).2.2.MemWf := by
    intro n r
    unfold step
    split
    · exact .ite h h.engWrite
    · exact h
  split
  · exact h.touchFor
  · exact h.engWrite
  · exact hstep _ _
  · exact hstep _ _

theorem State.MemWf.answerPeer {src pa bs bad} (h : s.MemWf) : (s.answerPeer src pa bs bad).MemWf := by
  unfold State.answerPeer
  exact .ite h h.fabricSend

theorem State.MemWf.execPeerAccessReceive {part rkey pa acc} (h : s.MemWf) :
    OutWf (Machine.execPeerAccessReceive part rkey pa acc s) := by
  unfold Machine.execPeerAccessReceive
  exact .ite h.bump.report.answerPeer.next h.extPerform.answerPeer.finish

/-! ### The scale-out ports -/

theorem State.MemWf.emitAck {port kind remote vc c} (h : s.MemWf) : (s.emitAck port kind remote vc c).MemWf := h.emit

theorem State.MemWf.sendAck {port remote vc} (h : s.MemWf) : (s.sendAck port remote vc).MemWf := by
  unfold State.sendAck
  exact .ite h.setConn h.setConn.emitAck

theorem State.MemWf.takeColls {k n} (h : s.MemWf) : (s.takeColls k n).MemWf := by
  induction n generalizing s with
  | zero => exact h
  | succ n ih =>
    unfold State.takeColls
    extract_lets b len x s1
    have h1 : s1.MemWf := .collDeliver (.frame h)
    exact .ite h (ih (h1.foldl fun _ _ h => h.tryColls))

theorem State.MemWf.passUp {remote vc p} (h : s.MemWf) : (s.passUp remote vc p).MemWf := by
  unfold State.passUp
  extract_lets
  split
  · exact .ite (.deliverNotice (.frame h)) h.deliverNotice
  · exact .ite (.takeColls (.frame h)) (.ite (.frame h) (.frame h))

theorem State.MemWf.takeInOrder {port remote vc p} (h : s.MemWf) : (s.takeInOrder port remote vc p).MemWf := by
  unfold State.takeInOrder
  exact .ite h.setConn.passUp.sendAck h.setConn.passUp

theorem State.MemWf.takeHeld {port remote vc n} (h : s.MemWf) : (s.takeHeld port remote vc n).MemWf := by
  induction n generalizing s with
  | zero => exact h
  | succ n ih =>
    unfold State.takeHeld
    extract_lets
    split
    · exact h
    · exact ih h.setConn.takeInOrder

theorem State.MemWf.recvSeq {port h' p} (h : s.MemWf) : (s.recvSeq port h' p).MemWf := by
  unfold State.recvSeq
  extract_lets k __src c0 s0
  have h0 : s0.MemWf := .ite h.ethCount h
  split
  · exact h0.setConn.takeInOrder.takeHeld
  · exact .ite h0.setConn (.ite h0.setConn.setConn.emitAck h0.setConn.setConn)

theorem State.MemWf.resend {remote vc c ps} (h : s.MemWf) : (s.resend remote vc c ps).MemWf := by
  unfold State.resend
  exact .ite (h.foldl fun _ _ h => h.emitSeq.ethCount) h.setConn

theorem State.MemWf.recvAck {h'} (h : s.MemWf) : (s.recvAck h').MemWf := by
  unfold State.recvAck
  extract_lets
  split
  · exact h
  · exact h.setConn.pump

theorem State.MemWf.recvNack {h'} (h : s.MemWf) : (s.recvNack h').MemWf := by
  unfold State.recvNack
  extract_lets
  split
  · exact h
  · exact h.setConn.resend

theorem State.MemWf.execRetransmitTimeout {conn} (h : s.MemWf) : OutWf (Machine.execRetransmitTimeout conn s) := by
  unfold Machine.execRetransmitTimeout
  split
  · exact h.next
  · split
    · exact h.next
    · split
      · exact h.setConn.resend.next
      · split
        · exact h.setConn.resend.next
        · exact h.setConn.next

theorem State.MemWf.execAckTimer {conn} (h : s.MemWf) : OutWf (Machine.execAckTimer conn s) := by
  unfold Machine.execAckTimer
  extract_lets
  split
  · exact State.MemWf.next (.ite h.sendAck h)
  · exact h.next

theorem State.MemWf.recvTime {src stamp} (h : s.MemWf) : (s.recvTime src stamp).MemWf := by
  unfold State.recvTime
  exact .ite h (.ite h.report (.frame h))

theorem State.MemWf.packetIn {port kind h' payload} (h : s.MemWf) : (s.packetIn port kind h' payload).MemWf := by
  unfold State.packetIn
  split
  · exact h.recvSeq
  · exact h.recvAck
  · exact h.recvNack
  · exact h.recvSeq
  · exact h.recvTime

theorem State.MemWf.execDataPkt {port h' payload} (h : s.MemWf) : OutWf (Machine.execDataPkt port h' payload s) := by
  unfold Machine.execDataPkt
  exact State.MemWf.finish (.ite h.packetIn h)

theorem State.MemWf.execAckPkt {port h'} (h : s.MemWf) : OutWf (Machine.execAckPkt port h' s) := by
  unfold Machine.execAckPkt
  exact State.MemWf.finish (.ite h.recvAck h)

theorem State.MemWf.execNackPkt {port h'} (h : s.MemWf) : OutWf (Machine.execNackPkt port h' s) := by
  unfold Machine.execNackPkt
  exact State.MemWf.finish (.ite h.recvNack h)

theorem State.MemWf.execNoticePkt {port h' n} (h : s.MemWf) : OutWf (Machine.execNoticePkt port h' n s) := by
  unfold Machine.execNoticePkt
  exact State.MemWf.finish (.ite h.recvSeq h)

theorem State.MemWf.execTimePkt {port h' stamp} (h : s.MemWf) : OutWf (Machine.execTimePkt port h' stamp s) := by
  unfold Machine.execTimePkt
  exact State.MemWf.finish (.ite h.recvTime h)

theorem State.MemWf.sendPfc {port} (h : s.MemWf) : (s.sendPfc port).MemWf := by
  unfold State.sendPfc
  exact .ite h (.ite (.frame h) h.takeFree)

theorem State.MemWf.execEthFrameReceive {port f} (h : s.MemWf) : OutWf (Machine.execEthFrameReceive port f s) := by
  unfold Machine.execEthFrameReceive
  exact .ite h.next (.ite h.ethCount.next h.ethCount.sendPfc.packetIn.finish)

theorem State.MemWf.unpause {port prio} (h : s.MemWf) : (s.unpause port prio).MemWf := by
  unfold State.unpause
  exact .foldl (.frame h) fun _ _ h => .ite h (.pump (.ite h.setConn.resend h))

theorem State.MemWf.execPfcReceive {port prio quanta} (h : s.MemWf) :
    OutWf (Machine.execPfcReceive port prio quanta s) := by
  unfold Machine.execPfcReceive
  exact .ite h.next (.ite h.ethCount.unpause.next (State.MemWf.next (.frame h)))

theorem State.MemWf.execPfcPauseExpiry {port prio} (h : s.MemWf) : OutWf (Machine.execPfcPauseExpiry port prio s) := by
  unfold Machine.execPfcPauseExpiry
  split
  · exact State.MemWf.next (.ite h.unpause h)
  · exact h.next

theorem State.MemWf.setStat {port bit b} (h : s.MemWf) : (s.setStat port bit b).MemWf := by
  unfold State.setStat
  exact .ite h h.setCreg

/-! ### SEC -/

theorem State.MemWf.freeBytes {n} (h : s.MemWf) : (s.freeBytes n).2.MemWf := h.takeFree
theorem State.MemWf.respond {code body} (h : s.MemWf) : (s.respond code body).MemWf := .frame h
theorem State.MemWf.spdmError (h : s.MemWf) : s.spdmError.MemWf := h.respond

theorem State.MemWf.onSec {f} (h : s.MemWf) (hf : ∀ t, t.MemWf → (f t).MemWf) : OutWf (Machine.onSec s f) := by
  unfold Machine.onSec
  exact State.MemWf.next (.ite (hf _ h) h.defer)

theorem State.MemWf.execGetVersion (h : s.MemWf) : OutWf (Machine.execGetVersion s) := by
  unfold Machine.execGetVersion
  exact h.onSec fun _ h => .respond (.frame h)

theorem State.MemWf.execGetCapabilities (h : s.MemWf) : OutWf (Machine.execGetCapabilities s) := by
  unfold Machine.execGetCapabilities
  exact h.onSec fun _ h => .ite h.spdmError (.respond (.frame h))

theorem State.MemWf.execNegotiateAlgorithms {sign hash aead} (h : s.MemWf) :
    OutWf (Machine.execNegotiateAlgorithms sign hash aead s) := by
  unfold Machine.execNegotiateAlgorithms
  exact h.onSec fun _ h => .ite h.spdmError (.respond (.frame h))

theorem State.MemWf.execGetDigests (h : s.MemWf) : OutWf (Machine.execGetDigests s) := by
  unfold Machine.execGetDigests
  exact h.onSec fun _ h => .ite h.spdmError (.respond (.frame h))

theorem State.MemWf.execGetCertificate {slot off len} (h : s.MemWf) :
    OutWf (Machine.execGetCertificate slot off len s) := by
  unfold Machine.execGetCertificate
  exact h.onSec fun _ h => .ite h.spdmError (.respond (.frame h))

theorem State.MemWf.execChallenge {slot nonce} (h : s.MemWf) : OutWf (Machine.execChallenge slot nonce s) := by
  unfold Machine.execChallenge
  exact h.onSec fun _ h => .ite h.spdmError (.respond (.frame h))

theorem State.MemWf.execGetMeasurements {index sign nonce} (h : s.MemWf) :
    OutWf (Machine.execGetMeasurements index sign nonce s) := by
  unfold Machine.execGetMeasurements
  refine h.onSec fun _ h => ?_
  extract_lets body
  clear_value body
  split
  · exact h.respond
  · exact h.spdmError

theorem State.MemWf.execKeyExchange {session share} (h : s.MemWf) :
    OutWf (Machine.execKeyExchange session share s) := by
  unfold Machine.execKeyExchange
  exact h.onSec fun _ h => .ite h.spdmError (.respond (.frame h))

theorem State.MemWf.execFinish {session mac} (h : s.MemWf) : OutWf (Machine.execFinish session mac s) := by
  unfold Machine.execFinish
  exact h.onSec fun _ h => .ite h.takeFree.spdmError (.respond (.frame h))

theorem State.MemWf.setSlot {slot kind owner} (h : s.MemWf) : (s.setSlot slot kind owner).MemWf := by
  unfold State.setSlot
  exact .frame h.dropSlot

theorem State.MemWf.execSpdmSessionMessage {m} (h : s.MemWf) : OutWf (Machine.execSpdmSessionMessage m s) := by
  unfold Machine.execSpdmSessionMessage
  refine h.onSec fun _ h => ?_
  split
  · exact h
  · split
    · split
      · exact h
      · split
        · exact h.tdiFail
        · exact .frame h.setSlot
    · exact .ite h (.frame h)
    · exact .frame h

theorem State.MemWf.execTdispRequest {vf r} (h : s.MemWf) : OutWf (Machine.execTdispRequest vf r s) := by
  unfold Machine.execTdispRequest
  refine h.onSec fun _ h => ?_
  split
  · exact h
  · extract_lets
    split
    · exact .ite (.frame h) h
    · exact .ite (.frame h) h
    · exact .frame h

/-! ### Register writes -/

theorem State.MemWf.writePort {q off v} (h : s.MemWf) : (s.writePort q off v).MemWf := by
  unfold State.writePort
  exact .ite h.setPort (.ite h.setPort h.setPort)

theorem State.MemWf.writeReg {p off v} (h : s.MemWf) : (s.writeReg p off v).MemWf := by
  unfold State.writeReg
  split
  · exact .ite (.frame h) (.ite (.frame h) (.frame h))
  · exact .ite h.setClkpat h.setSlope
  · exact .ite h.setWlimit (.ite h.writePort h.setCreg)
  · extract_lets slot limit s1
    have h1 : s1.MemWf := .ite h.setCregNext h.setCreg
    exact .ite h.setPcap (.ite h.setSlot (.ite h1.startConns h1))
  · exact .ite h.setCregNext h.setCreg
  · exact .ite h.setCregNext h.setCreg
  · exact h.setCreg

theorem State.MemWf.privWrite {gid} (h : s.MemWf) : (s.privWrite gid).MemWf := by
  unfold State.privWrite
  split
  · exact h
  · exact h.takeFree.takeTrap

theorem State.MemWf.execRegisterWrite {by_ page off v} (h : s.MemWf) :
    OutWf (Machine.execRegisterWrite by_ page off v s) := by
  unfold Machine.execRegisterWrite
  extract_lets
  split
  · exact h.next
  · extract_lets
    split
    · exact h.next
    · split
      · split
        · exact h.privWrite.finish
        · exact h.next
      · split
        · exact h.defer.next
        · split
          · exact h.tdiFail.next
          · exact State.MemWf.next (.ite h.writeReg h)

theorem State.MemWf.execHostLinkAccess {t acc} (h : s.MemWf) : OutWf (Machine.execHostLinkAccess t acc s) := by
  unfold Machine.execHostLinkAccess
  extract_lets
  split
  · split
    · exact State.MemWf.next (.frame h)
    · exact State.MemWf.next (.ite h (.frame h))
    · exact h.next
  · split
    · exact h.execRegisterWrite
    · exact State.MemWf.next (.ite h (.frame h))
    · exact h.next
  · extract_lets held
    clear_value held
    split
    · exact h.tdiFail.next
    · split
      · exact State.MemWf.next (.ite h (.frame h))
      · exact State.MemWf.finish (.ite h.extPerform (.frame h.extPerform))

/-! ### Scalar words -/

theorem State.MemWf.scalWord {i w n f} (h : s.MemWf) : OutWf (Machine.scalWord i w n f s) :=
  h.coreWord fun _ _ h => h.onGang

/-! ### Cross-lane words -/

theorem State.MemWf.redWord {i w op} (h : s.MemWf) : OutWf (Machine.redWord i w op s) :=
  h.coreWord fun _ _ h => h.onGang

/-! ### Dispatch -/

theorem State.MemWf.exec {i} (h : s.MemWf) : OutWf (Machine.exec i s) := by
  cases i <;> unfold Machine.exec
  case nop | fuse | pref => exact h.coreWord fun _ _ h => h
  case bra | brx | call | callx | ret => exact h.branchWord
  case exit => exact h.execExit
  case trap | brk => exact h.codeTrap
  case yield | sread | swrite | sleep | smovi64 | vtos | cmprs | expnd | scanadd | ord =>
    exact h.coreWord fun _ _ h => h.onGang
  case eret => exact h.coreWord fun _ _ h => h.onGang.pruneMonitors
  case syscall => exact h.execSyscall
  case smov | smovi | sadd | ssub | smul | smulh | sand | sor | sxor | sshl | sshr | ssra | scmp | ssel | smin | smax |
      sclz | spopc | slea => exact h.scalWord
  case stov | icmp | sel | fcmp | cvt | pack | unpack | qnt | shfl | push | ballot | voteall | voteany | voteeq | slup |
      sldn | matchLanes | actmask | mzero => exact h.coreWord fun _ _ h => h.eachLane
  case iadd | isub | imul | imulh | imad | imin | imax | iabs | ineg | and | or | xor | not | shl | shr | sra | rot |
      bfe | bfi | clz | popc | brev | mov | movi | iaddsh | idot4 => exact h.intWord
  case fadd | fsub | fmul | ffma | fmin | fmax | fclass | frnd | fdot2 | fscale | ffract | dqnt => exact h.fpWord
  case fdiv | rcp | rsq | sqrt | exp2 | log2 | sin | cos | tanh => exact h.fpLong
  case vpair => exact h.execVpair
  case redadd | redmin | redmax => exact h.redWord
  case ld => exact h.execLd
  case st => exact h.execSt
  case ldu => exact h.execLdu
  case atom | red | cas => exact h.atomWord
  case fence => exact h.execFence
  case waitc => exact h.execWaitc
  case invt => exact h.execInvt
  case mma | tlma | tlpre => exact h.quarterWord
  case mldt => exact h.execMldt
  case mstt => exact h.execMstt
  case rast | filt | trav | bin | binPop => exact h.coreWord fun _ _ h => h.startMacro
  case blend => exact h.coreWord fun _ _ h => h.updGang.startMacro
  case mcode => exact h.execMcode
  case bar => exact h.execBar
  case barc | barcFinal => exact h.barcWord
  case barg => exact h.execBarg
  case grd => exact h.execGrd
  case gwr => exact h.execGwr
  case gatom => exact h.execGatom
  case xclaim => exact h.execXclaim
  case xgive => exact h.execXgive
  case xquery => exact h.execXquery
  case spawn => exact h.execSpawn
  case spawnf => exact h.execSpawnf
  case qpop => exact h.execQpop
  case qpush => exact h.execQpush
  case cancel => exact h.execCancel
  case cntrd => exact h.execCntrd
  case cecopy | cegath | cescat | cefill | cedec | cestat => exact h.engWord
  case tnop | tbind | tfree | tkmov | tkadd | tkbr => exact h.taskWord fun _ _ h => h.noPost
  case tlaunch | tcopy | tfill | tdraw | tpresent => exact h.lateTask
  case tallred | tallgat | trdscat => exact h.collTask
  case twait | tsignal | tfence | tkld | tgroup => exact h.plainTask
  case tphase => exact h.execTphase
  case tend => exact h.taskWord fun _ _ h => h
  case producerWriteback => exact h.execProducerWriteback
  case laneExited => exact h.execLaneExited
  case sleepWake => exact h.execSleepWake
  case activeSetRemove => exact h.execActiveSetRemove
  case quadSplit => exact h.execQuadSplit
  case timeSliceEnd => exact h.execTimeSliceEnd
  case admission => exact h.execAdmission
  case drainTimeout => exact h.execDrainTimeout
  case contextSave => exact h.execContextSave
  case contextRestore => exact h.execContextRestore
  case xclaimGrant => exact h.execXclaimGrant
  case xgiveCredit => exact h.execXgiveCredit
  case regDeadlockReport => exact h.execRegDeadlockReport
  case latheStep => exact h.latheStep.finish
  case matrixPassStart => exact h.passStart.finish
  case matrixBlock => exact h.matrixBlock.finish
  case rdvStallWatchdog => exact h.execRdvStallWatchdog
  case binTimerExpire => exact h.execBinTimerExpire
  case binLaunch => exact h.execBinLaunch
  case starterWave => exact h.execStarterWave
  case waitcWake => exact h.execWaitcWake
  case parkedPoll => exact h.execParkedPoll
  case qpopCopy => exact h.execQpopCopy
  case wcbLineDrain => exact h.drainLine.finish
  case wcbDrainTimeout => exact h.execWcbDrainTimeout
  case engComplete => exact h.engFinish.finish
  case pageFaultService => exact h.execPageFaultService
  case pfholdTimeout => exact h.execPfholdTimeout
  case pfrespReplay => exact h.execPfrespReplay
  case pfrespDeny => exact h.execPfrespDeny
  case tlbInvalidate => exact h.execTlbInvalidate
  case eccError => exact h.execEccError
  case illegalEncoding => exact h.execIllegalEncoding
  case fetchFault => exact h.execFetchFault
  case taskComplete => exact h.tryTask.finish
  case taskRetire => exact h.retirePort.finish
  case tctlGo => exact h.execTctlGo
  case tctlHalt => exact h.execTctlHalt
  case freeadd => exact h.execFreeadd
  case wlimitWrite => exact h.setWlimit.next
  case snapshotTimeout => exact h.execSnapshotTimeout
  case bootctlGo => exact h.execBootctlGo
  case bootctlRestart => exact h.execBootctlRestart
  case bootImageCheckDone => exact h.execBootImageCheckDone
  case powerUp => exact h.execPowerUp
  case partitionReset => exact h.execPartitionReset
  case functionLevelReset => exact h.execFunctionLevelReset
  case coldReset => exact h.execColdReset
  case powerOff => exact State.MemWf.execPowerOff
  case fwHeartbeat => exact h.execFwHeartbeat
  case peakTick => exact h.execPeakTick
  case intervalBoundary => exact h.execIntervalBoundary
  case powerMsTick => exact h.execPowerMsTick
  case headFrameStart => exact h.execHeadFrameStart
  case getVersion => exact h.execGetVersion
  case getCapabilities => exact h.execGetCapabilities
  case getDigests => exact h.execGetDigests
  case linkRetrain => exact h.execLinkRetrain
  case linkRetrainDone => exact h.execLinkRetrainDone
  case heartbeatSend => exact h.execHeartbeatSend
  case ceilingChange => exact h.execCeilingChange
  case clockLowerBegin => exact h.execClockLowerBegin
  case memberDrop => exact h.execMemberDrop
  case ackTimer => exact h.execAckTimer
  case retransmitTimeout => exact h.execRetransmitTimeout
  case pfcPauseExpiry => exact h.execPfcPauseExpiry
  case hostCancel => exact h.execHostCancel
  case qtailWrite => exact h.tailWrites.next
  case clkpatWrite => exact h.setClkpat.next
  case slopeWrite => exact h.setSlope.next
  case pcapWrite => exact h.setPcap.next
  case registerWrite => exact h.execRegisterWrite
  case mailboxWrite => exact h.execMailboxWrite
  case microcodeLoad => exact h.execMicrocodeLoad
  case negotiateAlgorithms => exact h.execNegotiateAlgorithms
  case getCertificate => exact h.execGetCertificate
  case challenge => exact h.execChallenge
  case getMeasurements => exact h.execGetMeasurements
  case keyExchange => exact h.execKeyExchange
  case finish => exact h.execFinish
  case encoderFrameDone => exact h.execEncoderFrameDone
  case encReadposWrite => exact h.execEncReadposWrite
  case flitReceive => exact h.execFlitReceive
  case peerAccessReceive => exact h.execPeerAccessReceive
  case noticeReceive => exact h.deliverNotice.finish
  case collectiveHeaderReceive => exact h.collPut.tryColls.finish
  case ethFrameReceive => exact h.execEthFrameReceive
  case dataPkt => exact h.execDataPkt
  case ackPkt => exact h.execAckPkt
  case nackPkt => exact h.execNackPkt
  case noticePkt => exact h.execNoticePkt
  case timePkt => exact h.execTimePkt
  case pfcReceive => exact h.execPfcReceive
  case ethLinkUpDown | fecAlignmentLock => exact h.setStat.next
  case hostLinkAccess => exact h.execHostLinkAccess
  case tdispRequest => exact h.execTdispRequest
  case spdmSessionMessage => exact h.execSpdmSessionMessage

/-! ### Carrying out an action -/

theorem State.MemWf.decodedIssue {cu g i ext} (h : s.MemWf) : OutWf (s.decodedIssue cu g i ext) := by
  unfold State.decodedIssue
  exact .ite h.updGang.next (State.MemWf.exec (.updGang (.frame (State.MemWf.ite h.settleFence h))))

theorem State.MemWf.fetchIssue {cu w g} (h : s.MemWf) : OutWf (s.fetchIssue cu w g) := by
  unfold State.fetchIssue
  extract_lets
  split
  · exact h.parkPages.next
  · exact State.MemWf.exec (.frame h)
  · extract_lets
    split
    · exact .ite h.updGang.takeTrap.finish (State.MemWf.exec (.updGang (.frame h)))
    · exact .ite h.updGang.takeTrap.finish h.decodedIssue

theorem State.MemWf.issueWord {gid unit pc snap} (h : s.MemWf) : OutWf (s.issueWord gid unit pc snap) := by
  unfold State.issueWord
  split
  · exact h.next
  · extract_lets
    split
    · exact h.next
    · split
      · exact h.fetchIssue
      · exact .ite h.updGang.fetchIssue h.takeCancel.finish

theorem State.MemWf.fetchFill {w codemap pc} (h : s.MemWf) : (s.fetchFill w codemap pc).MemWf := by
  unfold State.fetchFill
  split
  · exact .frame (State.MemWf.ite h h.fetchUse)
  · exact h

theorem State.MemWf.opportunity {gid unit pcs} (h : s.MemWf) : (s.opportunity gid unit pcs).MemWf := by
  unfold State.opportunity
  split
  · exact h
  · extract_lets rs s1 s2
    have h1 : s1.MemWf := h.foldl fun _ _ h => h.setGang
    have h2 : s2.MemWf := h1.updGang.foldl fun _ _ h => h.fetchFill
    split
    · exact h2
    · exact .frame h2

theorem State.MemWf.takeFrees {n} (h : s.MemWf) : (s.takeFrees n).2.MemWf := by
  induction n generalizing s with
  | zero => exact h
  | succ n ih => exact ih h.takeFree

theorem State.MemWf.timeEvents {t u} (h : s.MemWf) : (s.timeEvents t u).2.MemWf := by
  unfold State.timeEvents
  extract_lets crossed
  split
  rename_i s1 e
  have h1 : s1.MemWf := by
    refine .of_snd ?_ e
    split
    · exact h.takeFree
    · exact h
  split
  rename_i s2 e
  refine .of_snd ?_ e
  split
  · exact h1.takeFree.takeFrees
  · exact h1

theorem State.MemWf.stopGang {e} (h : s.MemWf) : (s.stopGang e).MemWf := by
  unfold State.stopGang
  exact .ite h.updGang.stopMacros h

theorem State.MemWf.endPart {swallowed cy e} (h : s.MemWf) : (State.endPart swallowed cy s e).MemWf := h.setCpart

theorem State.MemWf.vaultsDone {t} (h : s.MemWf) : (s.vaultsDone t).MemWf := by
  unfold State.vaultsDone
  exact h.foldl fun _ _ h => .ite h.updGang h

theorem State.MemWf.holdPort {wid} (h : s.MemWf) : (s.holdPort wid).MemWf := h.updWg fun _ => rfl

theorem State.MemWf.tickOne (h : s.MemWf) : s.tickOne.MemWf := by
  unfold State.tickOne
  extract_lets __src s' f acc t s1 s2 s3 wgOf ended s4 s5 s6 s7 s8
  have h' : s'.MemWf := .frame h.vaultCycle.vaultsDone
  have h2 : s2.MemWf := .ite (.frameBegin (.frame h')) (.frame h')
  have h3 : s3.MemWf := h2.foldl fun _ _ h => .ite h (.ite h.holdPort h.gport)
  have h5 : s5.MemWf := .foldl (.frame h3) fun _ _ h => h.stopGang
  have h6 : s6.MemWf := h5.foldl fun _ _ h => h.endPart
  have h8 : s8.MemWf := .startMembers (.waitedNotices (.takeMail (.frame h6)))
  exact .frame h8.timeEvents

theorem State.MemWf.tick {n} (h : s.MemWf) : (s.tick n).MemWf := by
  induction n generalizing s with
  | zero => exact h
  | succ n ih => exact ih h.tickOne

theorem State.MemWf.codeFill {pid tenant line words maps} (h : s.MemWf) :
    (s.codeFill pid tenant line words maps).MemWf := by
  unfold State.codeFill
  extract_lets
  split
  · exact h
  · split
    · exact .frame h
    · exact h

theorem State.MemWf.tlbFill {unit tenant page} (h : s.MemWf) : (s.tlbFill unit tenant page).MemWf := by
  unfold State.tlbFill
  extract_lets
  split
  · exact .ite h.walkUse (.frame h.walkUse)
  · exact h.walkUse

theorem State.MemWf.decodePort {part port} (h : s.MemWf) : OutWf (s.decodePort part port) := by
  unfold State.decodePort
  split
  · exact h.next
  · extract_lets
    split
    · exact State.MemWf.exec (.frame h)
    · split
      · exact State.MemWf.exec (.frame h)
      · exact State.MemWf.exec (.frame h)
      · exact State.MemWf.exec (.frame h)
      · exact h.portPage.next

theorem State.MemWf.runEvent {i} (h : s.MemWf) : OutWf (s.runEvent i) := by
  have he : OutWf (Machine.exec i { s with cur := none, deferNow := false }) := State.MemWf.exec (.frame h)
  unfold State.runEvent
  generalize Machine.exec i { s with cur := none, deferNow := false } = o at he ⊢
  cases o with
  | next t => exact .next (.ite (.frame (he t rfl)) (he t rfl))
  | fault r => exact .fault
  | refused r => exact .refused

theorem State.MemWf.runAgent {a} (h : s.MemWf) : OutWf (s.runAgent a) := by
  unfold State.runAgent
  split
  · split
    · exact State.MemWf.exec (.frame h)
    · exact h.next
  · split
    · exact h.issueWord
    · exact h.runEvent
    · exact h.decodePort
    · exact .ite h.next h.issueTask.finish
    · exact h.tick.finish
    · exact h.opportunity.next
    · exact h.codeFill.next
    · exact State.MemWf.next (.ite (.frame h) (.frame h))
    · exact State.MemWf.next (.ite (.frame h) h)
    · exact State.MemWf.next (.frame h)
    · exact State.MemWf.next (.ite (.frame h) h)
    · exact State.MemWf.next (.frame h)
    · exact h.tlbFill.next
    · exact State.MemWf.next (.frame h)
    · exact h.moveMany.finish
    · exact h.linkSend.finish

theorem State.MemWf.restReady {pid} (h : s.MemWf) : (s.restReady pid).MemWf := by
  unfold State.restReady
  exact h.foldl fun _ _ h => .ite h h.updGang

theorem State.MemWf.plan (h : s.MemWf) : s.plan.MemWf := by
  unfold State.plan
  exact .ite (.frame h) (.frame (h.foldl fun _ _ h => h.restReady))

/-! ### The step -/

theorem State.MemWf.step (h : s.MemWf) : OutWf (Machine.step s) := by
  unfold Machine.step
  split
  · exact h.plan.next
  · exact State.MemWf.runAgent (.frame h)

/-- Settles O59: each function that a step calls keeps the canonical form, whatever the state. -/
theorem stepKeepsMemoryForm : Obligations.StepKeepsMemoryForm :=
  fun _ t hs ht => State.memWf_iff.mpr (State.MemWf.step (State.memWf_iff.mp hs) t ht)

end Sys2Proof.Machine
end

/-! PROOFS. O52: bring-up, resets, firmware cores, power, clocks, displays and register writes (12, 17, 18). -/

section
namespace Sys2Proof
variable {α : Type}

/-- A map whose unlisted keys read as d, after some keys of a list have taken new values. -/
theorem SMap.getD_foldl_put [DecidableEq α] {d : α} (c : Nat → Bool) (f : Nat → α) (j : Nat) (ks : List Nat) (m : SMap α) :
    (ks.foldl (fun m i => if c i then m.put d i (f i) else m) m).getD j d
      = if j ∈ ks ∧ c j = true then f j else m.getD j d := by
  induction ks generalizing m with
  | nil => simp
  | cons k ks ih =>
    rw [List.foldl_cons, ih]
    by_cases hk : j = k
    · subst hk
      cases hc : c j <;> simp [SMap.getD_put]
    · cases hc : c k <;> simp [SMap.getD_put, hk]

theorem SMap.getD_set (m : SMap α) (k j : Nat) (v d : α) : (m.set k v).getD j d = if j = k then v else m.getD j d := by
  simp only [SMap.getD, SMap.find?_set]
  split <;> rfl

end Sys2Proof

namespace Sys2Proof.Machine
variable {s : State}

/-! ### Control registers -/

@[simp] theorem State.creg_setCreg_self (s : State) (p : Page) (off : Nat) (v : W64) : (s.setCreg p off v).creg p off = v := by
  by_cases hv : v = cregReset p off <;> simp [State.setCreg, State.creg, hv, SMap.find?_del]

theorem State.creg_setCreg_ne (s : State) {p q : Page} {off o : Nat} (v : W64) (h : cregKey q o ≠ cregKey p off) :
    (s.setCreg p off v).creg q o = s.creg q o := by
  by_cases hv : v = cregReset p off <;> simp [State.setCreg, State.creg, hv, SMap.find?_del, SMap.find?_set, h]

/-! ### Bring-up (18 R364, Table 133) -/

theorem exec_bootctlGo_unset (h : s.bootCode ≤ 4) : exec .bootctlGo s = .next { s with bootCode := 0x40 } := by
  rw [exec_bootctlGo, execBootctlGo, if_pos h]

theorem exec_bootImageCheckDone_checking (h : s.bootCode = 0x40) :
    exec .bootImageCheckDone s = .next
      (if imageFault s.staged = 0 then
        { s with bootCode := 0x80, fwCores := 0xFF, image := s.staged, secver := leNat ((s.staged.drop 4).take 4)
                 fwver := leNat ((s.staged.drop 8).take 8)
                 fwMem := (List.range 8).foldl (fun m i => m.put [] i (imageSection s.staged i)) [] }
       else { s with bootCode := imageFault s.staged }) := by
  rw [exec_bootImageCheckDone, execBootImageCheckDone, if_neg (by simp [h])]
  cases hf : imageFault s.staged with
  | zero => simp [hf, imageNat]
  | succ n => simp [hf]

/-! ### Restarts and mailboxes (18 R361 to R363) -/

theorem State.unstall_of_none (h : s.mailStall = []) : s.unstall = s := by
  unfold State.unstall
  simp [h]

theorem State.restartCores_of_none (mask : BitVec 8) (h : s.mailStall = []) :
    s.restartCores mask = { s with
      fwCores := s.fwCores &&& ~~~mask, restarting := s.restarting ||| mask, mail := s.mail.filter fun e => !mask.getLsbD e.1
      fwMem := (List.range 8).foldl (fun m i => if mask.getLsbD i then m.put [] i (imageSection s.image i) else m) s.fwMem
      spdm := if mask.getLsbD 5 then State.reset.spdm else s.spdm } := by
  unfold State.restartCores
  rw [State.unstall_of_none (by simp [h])]
  simp [h]

theorem exec_bootctlRestart_running (mask : BitVec 8) (hc : s.bootCode = 0x80) (hm : s.mailStall = []) :
    ∃ t, exec (.bootctlRestart mask) s = .next t
      ∧ t = { s with
          fwCores := s.fwCores &&& ~~~mask, restarting := s.restarting ||| mask, mail := t.mail, fwMem := t.fwMem
          spdm := if mask.getLsbD 5 = true then State.reset.spdm else s.spdm }
      ∧ (∀ e, e ∈ t.mail ↔ e ∈ s.mail ∧ mask.getLsbD e.1 = false)
      ∧ ∀ i, i < 8 → t.fwMem.getD i [] = if mask.getLsbD i = true then imageSection s.image i else s.fwMem.getD i [] := by
  refine ⟨_, by rw [exec_bootctlRestart, execBootctlRestart, if_pos hc, State.restartCores_of_none mask hm], rfl, ?_, ?_⟩
  · simp
  · intro i hi
    simp [SMap.getD_foldl_put, hi]

theorem getLsbD_ofNat_two_pow {w core i : Nat} (h : i < w) : (BitVec.ofNat w (2 ^ core)).getLsbD i = decide (core = i) := by
  rw [BitVec.getLsbD_ofNat, Nat.testBit_two_pow]
  simp [h]

/-- The heartbeat of a core that runs counts, and leaves the rest alone. -/
theorem exec_fwHeartbeat_up {core : Nat} (hc : core < 8) (hu : s.fwUp core = true) (ha : s.absentAcc = none) :
    exec (.fwHeartbeat core) s = .next { s with heart := s.heart.put 0 core (s.heart.getD core 0 + 1)
                                                restarting := s.restarting &&& ~~~BitVec.ofNat 8 (2 ^ core) } := by
  have hb : s.fwCores ||| BitVec.ofNat 8 (2 ^ core) = s.fwCores := by
    simp only [State.fwUp, Bool.and_eq_true] at hu
    refine BitVec.eq_of_getLsbD_eq fun i hi => ?_
    rw [BitVec.getLsbD_or, getLsbD_ofNat_two_pow hi]
    by_cases h : core = i
    · simp [← h, hu.1]
    · simp [h]
  rw [exec_fwHeartbeat, execFwHeartbeat, if_neg (by simp [hu, hc])]
  simp only [hu, if_true, hb]
  exact finish_next ha

/-- The state in which a core that was held in reset runs again. -/
def State.released (s : State) (core : Nat) : State :=
  { s with heart := s.heart.put 0 core (s.heart.getD core 0 + 1), fwCores := s.fwCores ||| BitVec.ofNat 8 (2 ^ core)
           restarting := s.restarting &&& ~~~BitVec.ofNat 8 (2 ^ core) }

/-- The heartbeat of a core that a restart releases. -/
theorem exec_fwHeartbeat_released {core : Nat} (hc : core < 8) (hu : s.fwUp core = false)
    (hr : s.restarting.getLsbD core = true) :
    exec (.fwHeartbeat core) s = finish (s.released core).resume := by
  rw [exec_fwHeartbeat, execFwHeartbeat, if_neg (by simp [hr, hc])]
  simp [hu, State.released]

theorem exec_mailboxWrite_live {core sender kind : Nat} {q : W32} {pl : List Byte} (hc : core < 8)
    (hs : sender = 8 ∨ sender < 8 ∧ s.fwUp sender = true) :
    exec (.mailboxWrite core sender kind q pl) s =
      (let m : MailMsg := { sender := sender, kind := kind % 65536, seq := q, payload := pl.take 56 }
       let off := 0x200F08 + 0x1000 * core
       if (s.mail.getD core []).length < 16 then .next { s with mail := s.mail.put [] core (s.mail.getD core [] ++ [m]) }
       else if sender = 8 then .next (s.setCreg .hub off (s.creg .hub off + 1))
       else .next { s with mailStall := s.mailStall ++ [(sender, core, m)] }) := by
  have h1 : ¬(decide (8 ≤ core) || decide (8 < sender)) = true := by
    simp; omega
  have h2 : ¬(sender != 8 && !s.fwUp sender) = true := by
    obtain rfl | ⟨-, hu⟩ := hs
    · simp
    · simp [hu]
  rw [exec_mailboxWrite, execMailboxWrite, if_neg h1]
  simp only [if_neg h2]

/-- A message that finds a full mailbox: the host's is counted, a firmware core stalls. -/
theorem exec_mailboxWrite_full {core sender kind : Nat} {q : W32} {pl : List Byte} (hc : core < 8)
    (hs : sender = 8 ∨ sender < 8 ∧ s.fwUp sender = true) (hf : 16 ≤ (s.mail.getD core []).length) :
    let m : MailMsg := { sender := sender, kind := kind % 65536, seq := q, payload := pl.take 56 }
    ∃ t, exec (.mailboxWrite core sender kind q pl) s = .next t ∧ t.mail = s.mail
      ∧ if sender = 8 then t = { s with cregs := t.cregs }
          ∧ t.creg .hub (0x200F08 + 0x1000 * core) = s.creg .hub (0x200F08 + 0x1000 * core) + 1
        else t = { s with mailStall := s.mailStall ++ [(sender, core, m)] } ∧ t.fwUp sender = false := by
  intro m
  rw [exec_mailboxWrite_live hc hs]
  simp only [if_neg (Nat.not_lt.mpr hf)]
  by_cases h8 : sender = 8
  · simp only [h8, if_true]
    exact ⟨_, rfl, rfl, rfl, State.creg_setCreg_self ..⟩
  · simp only [h8, if_false]
    exact ⟨_, rfl, rfl, rfl, by simp [State.fwUp]⟩

theorem exec_microcodeLoad_ready {part : Nat} {decls : List McodeDecl} {image : List Byte} (hp : part < 8)
    (hu : s.fwUp 5 = true) (ht : s.tdi.getD part 0 = 0) (hb : s.mcodeBusy part = false) :
    ∃ t, exec (.microcodeLoad part decls image) s = .next t ∧ t = { s with microcode := t.microcode, mcodeImage := t.mcodeImage }
      ∧ if imageFault image = 0 then
          t.microcode.getD part [] = decls.filter (fun d => 0x40 ≤ d.entry && d.entry ≤ 0xFF) ∧ t.mcodeImage.getD part [] = image
        else t = s := by
  have hh : s.tdiHeld part = false := by simp [State.tdiHeld, ht, tdiUnlocked]
  rw [exec_microcodeLoad, execMicrocodeLoad, if_neg (Nat.not_le.mpr hp)]
  simp only [hu, hh, hb]
  by_cases hi : imageFault image = 0
  · simp [hi, SMap.getD_put]
  · simp [hi]

end Sys2Proof.Machine
end

section
namespace Sys2Proof.Machine
variable {s t u : State}

/-! ### What is sent over the fabric (20 R383, R407 to R409) -/

/-- The links' queues grow at their ends, the routes stay, and so do the control registers below the scale-out ports'. -/
structure Grows (s t : State) : Prop where
  route : t.timinRoute = s.timinRoute
  creg : ∀ {off : Nat}, off < 0x320000 → t.creg .hub off = s.creg .hub off
  link : ∀ i, ∃ q, t.link i = { s.link i with queue := (s.link i).queue ++ q }

theorem Grows.of_links (hr : t.timinRoute = s.timinRoute)
    (hc : ∀ {off : Nat}, off < 0x320000 → t.creg .hub off = s.creg .hub off) (hl : t.links = s.links) : Grows s t :=
  ⟨hr, hc, fun _ => ⟨[], by simp [State.link, hl]⟩⟩

theorem Grows.trans (h : Grows s t) (k : Grows t u) : Grows s u where
  route := k.route.trans h.route
  creg ho := (k.creg ho).trans (h.creg ho)
  link i := by
    obtain ⟨p, hp⟩ := h.link i
    obtain ⟨q, hq⟩ := k.link i
    exact ⟨p ++ q, by rw [hq, hp]; simp⟩

theorem Grows.linkFor (h : Grows s t) (dst pa : Nat) : t.linkFor dst pa = s.linkFor dst pa := by
  have hu : ∀ i, (t.link i).up = (s.link i).up := fun i => by
    obtain ⟨q, hq⟩ := h.link i
    rw [hq]
  simp only [State.linkFor, State.linksTo, h.route, hu]

/-- What a link's queue holds stays there. -/
theorem Grows.queue (h : Grows s t) {i : Nat} {x : OutFlit} (hx : x ∈ (s.link i).queue) : x ∈ (t.link i).queue := by
  obtain ⟨q, hq⟩ := h.link i
  rw [hq]
  exact List.mem_append_left _ hx

/-- Something is sent: packets and flits are added, the transport's state and the ports' counters move, and nothing else. -/
structure Sends (s t : State) : Prop extends Grows s t where
  frame : t = { s with links := t.links, sent := t.sent, conns := t.conns, cregs := t.cregs }

theorem Sends.refl (s : State) : Sends s s := ⟨.of_links rfl (fun _ => rfl) rfl, rfl⟩
theorem Sends.trans (h : Sends s t) (k : Sends t u) : Sends s u :=
  ⟨h.toGrows.trans k.toGrows, k.frame.trans (by rw [h.frame])⟩

theorem Sends.foldl {α : Type} {f : State → α → State} (hf : ∀ s x, Sends s (f s x)) (xs : List α) :
    Sends s (xs.foldl f s) := by
  induction xs generalizing s with
  | nil => exact .refl s
  | cons x xs ih => exact (hf s x).trans ih

theorem State.dispatchFlit_sends (s : State) (o : OutFlit) : Sends s (s.dispatchFlit o) := by
  unfold State.dispatchFlit
  split
  · exact .refl s
  · next i _ =>
    refine ⟨⟨rfl, fun _ => rfl, fun j => ?_⟩, rfl⟩
    by_cases hj : j = i
    · exact ⟨[o], by simp [State.link, hj, SMap.getD_set]⟩
    · exact ⟨[], by simp [State.link, hj, SMap.getD_set]⟩

theorem State.fabricSend_sends (s : State) (vc dst bytes : Nat) (x : Sent) : Sends s (s.fabricSend vc dst bytes x) :=
  s.dispatchFlit_sends _

theorem State.emit_sends (s : State) (port kind : Nat) (h : PktHdr) (bs : List Byte) : Sends s (s.emit port kind h bs) :=
  ⟨.of_links rfl (fun ho => State.creg_setCreg_ne _ _ (by simp only [cregKey, pageCode, ethOff]; omega)) rfl, rfl⟩

theorem State.setConn_sends (s : State) (k : Nat) (c : Conn) : Sends s (s.setConn k c) :=
  ⟨.of_links rfl (fun _ => rfl) rfl, rfl⟩

theorem State.pump_sends (s : State) (remote vc n : Nat) : Sends s (s.pump remote vc n) := by
  induction n generalizing s with
  | zero => exact .refl s
  | succ n ih =>
    unfold State.pump
    extract_lets c
    split
    · exact .refl s
    · split
      · exact .refl s
      · exact ((s.setConn_sends _ _).trans (State.emit_sends ..)).trans (ih _)

theorem State.sendSeq_sends (s : State) (remote vc : Nat) (bs : List Byte) (n : Option Notice) :
    Sends s (s.sendSeq remote vc bs n) := by
  unfold State.sendSeq
  extract_lets k c0
  split
  · exact .refl s
  · exact (s.setConn_sends _ _).trans (State.pump_sends ..)

theorem State.sendPieces_sends (s : State) (remote vc n : Nat) (bs : List Byte) (f : Nat) :
    Sends s (s.sendPieces remote vc n bs f) := by
  induction f generalizing s bs with
  | zero => exact .refl s
  | succ f ih =>
    unfold State.sendPieces
    split
    · exact .refl s
    · exact (s.sendSeq_sends ..).trans (ih ..)

theorem State.sendData_sends (s : State) (remote vc : Nat) (bs : List Byte) : Sends s (s.sendData remote vc bs) :=
  s.sendPieces_sends ..

theorem State.carryNotice_sends (s : State) (n : Notice) (dst : Nat × Bool) : Sends s (s.carryNotice n dst) := by
  unfold State.carryNotice
  split
  · exact (s.sendData_sends ..).trans (State.sendSeq_sends ..)
  · exact s.fabricSend_sends ..

theorem State.sendNotice_sends (s : State) (g : PortGroup) (n : Notice) :
    Sends { s with pacerSeq := n.seq } (s.sendNotice g n) :=
  Sends.foldl (fun s e => s.carryNotice_sends n e) _

/-! ### Messages and notices of the package -/

/-- Messages or notices go out, or wait for firmware: the groups' records and the ceiling may move too. -/
structure Talks (s t : State) : Prop where
  frame : t = { s with
    links := t.links, sent := t.sent, conns := t.conns, cregs := t.cregs, pacer := t.pacer, pacerSeq := t.pacerSeq
    ceil := t.ceil, ceilNext := t.ceilNext, collIn := t.collIn, groupMail := t.groupMail, fwWait := t.fwWait }

theorem Talks.refl (s : State) : Talks s s := ⟨rfl⟩
theorem Talks.trans (h : Talks s t) (k : Talks t u) : Talks s u := ⟨k.frame.trans (by rw [h.frame])⟩
theorem Sends.talks (h : Sends s t) : Talks s t := ⟨by rw [h.frame]⟩
theorem Talks.foldl {α : Type} {f : State → α → State} (hf : ∀ s x, Talks s (f s x)) (xs : List α) :
    Talks s (xs.foldl f s) := by
  induction xs generalizing s with
  | nil => exact .refl s
  | cons x xs ih => exact (hf s x).trans ih

theorem State.setCeiling_talks (s : State) : Talks s s.setCeiling := ⟨rfl⟩

theorem State.sendLeave_talks (s : State) (g : PortGroup) : Talks s (s.sendLeave g) := by
  unfold State.sendLeave
  extract_lets n
  exact Talks.trans (Talks.trans ⟨rfl⟩ (State.sendNotice_sends _ g n).talks) (State.setCeiling_talks _)

theorem State.leaveGroup_talks (s : State) (g : PortGroup) : Talks s (s.leaveGroup g) := by
  unfold State.leaveGroup
  split
  · exact s.sendLeave_talks g
  · exact ⟨rfl⟩

theorem State.collDeliver_talks (s : State) (x : GroupMsg) : Talks s (s.collDeliver x) := by
  unfold State.collDeliver
  extract_lets s1
  have h1 : Talks s s1 := Talks.foldl (fun _ _ => ⟨rfl⟩) _
  split
  · exact h1
  · exact h1.trans ⟨rfl⟩

theorem State.sendColl_talks (s : State) (part port : Nat) (g : PortGroup) (n : Nat) (m : CollMsg) :
    Talks s (s.sendColl part port g n m) := by
  unfold State.sendColl
  extract_lets x bs
  refine (s.collDeliver_talks x).trans (Talks.foldl (fun s e => ?_) _)
  split
  · exact (s.sendData_sends ..).talks
  · exact (s.fabricSend_sends ..).talks

theorem State.collSend_talks (s : State) (part port : Nat) (g : PortGroup) (n : Nat) (m : CollMsg) :
    Talks s (s.collSend part port g n m) := by
  unfold State.collSend
  split
  · exact s.sendColl_talks ..
  · exact ⟨rfl⟩

theorem State.sendAbort_talks (s : State) (part port : Nat) : Talks s (s.sendAbort part port) := by
  unfold State.sendAbort
  extract_lets p
  split
  · exact .refl s
  · exact s.collSend_talks ..

theorem State.waitedRequests_talks (s : State) : Talks s s.waitedRequests := by
  unfold State.waitedRequests
  extract_lets go
  refine Talks.trans ⟨rfl⟩ (Talks.foldl (fun s r => ?_) _)
  unfold go
  split
  · split
    · exact s.sendLeave_talks _
    · exact ⟨rfl⟩
  · split
    · exact s.sendColl_talks ..
    · exact ⟨rfl⟩

end Sys2Proof.Machine
end

section
namespace Sys2Proof.Machine
variable {s t : State}

/-! ### Requests that wait for a firmware core (18 R362, R363, R365) -/

theorem finish_eq_next (h : finish s = .next t) : t = s := by
  unfold finish at h
  split at h
  · cases h
  · cases h; rfl

theorem State.waitedTerms_of_none (h : s.terms = []) : s.waitedTerms = s := by
  unfold State.waitedTerms
  split
  · rw [h, List.foldl_nil, ← h]
  · rfl

theorem State.resume_of_terms (h : s.terms = []) : ∃ u : State,
    u = { s with gangs := u.gangs, agenda := s.agenda ++ s.deferred, deferred := [], errReports := u.errReports, errWait := u.errWait }
      ∧ (s.fwUp 0 = false → u.gangs = s.gangs) ∧ Talks u s.resume := by
  unfold State.resume
  extract_lets calls s1
  have h1 : s1 = { s with gangs := s1.gangs } := by
    unfold s1
    split <;> rfl
  have hg : s.fwUp 0 = false → s1.gangs = s.gangs := fun h0 => by simp [s1, h0]
  clear_value s1
  rw [State.waitedTerms_of_none (s := { s1 with agenda := s1.agenda ++ s1.deferred, deferred := [] })
    (show s1.terms = [] by rw [h1]; exact h)]
  refine ⟨_, ?_, ?_, State.waitedRequests_talks _⟩
  · unfold State.waitedReports
    split <;> rw [h1]
  · unfold State.waitedReports
    split <;> exact hg

/-- A core that a restart releases runs from its heartbeat on. -/
theorem fwUp_of_released {core : Nat} (hc : core < 8) (hu : s.fwCores.getLsbD core = false)
    (hr : s.restarting.getLsbD core = true) (hm : ∀ e ∈ s.mailStall, e.1 ≠ core) (ht : s.terms = [])
    (h : exec (.fwHeartbeat core) s = .next t) : t.fwUp core = true ∧ t.restarting.getLsbD core = false := by
  rw [exec_fwHeartbeat_released hc (by simp [State.fwUp, hu]) hr] at h
  obtain ⟨u, hu, -, hk⟩ := State.resume_of_terms (s := s.released core) ht
  have hb : (BitVec.ofNat 8 (2 ^ core)).getLsbD core = true := by rw [getLsbD_ofNat_two_pow hc]; simp
  rw [finish_eq_next h, hk.frame, hu]
  constructor
  · simp only [State.fwUp, State.released, BitVec.getLsbD_or, hb, Bool.or_true, Bool.true_and,
      Bool.not_eq_true', List.any_eq_false, decide_eq_true_eq]
    exact hm
  · simp only [State.released, BitVec.getLsbD_and, BitVec.getLsbD_not, hb, Bool.not_true, Bool.and_false]

/-- What waited for the host's interface runs again when a core of another kind is released. -/
theorem exec_fwHeartbeat_resumes {core : Nat} (hc : core < 8) (h0 : core ≠ 0) (hu : s.fwUp core = false)
    (hr : s.restarting.getLsbD core = true) (ha : s.absentAcc = none) (ht : s.terms = []) (hh : s.fwUp 0 = false) :
    ∃ t, exec (.fwHeartbeat core) s = .next t ∧ t.agenda = s.agenda ++ s.deferred ∧ t.deferred = [] ∧ t.gangs = s.gangs
      ∧ t.mem = s.mem := by
  obtain ⟨u, hu', hg, hk⟩ := State.resume_of_terms (s := s.released core) ht
  have hup : (s.released core).fwUp 0 = false := by
    simp only [State.fwUp, State.released, BitVec.getLsbD_or,
      getLsbD_ofNat_two_pow (w := 8) (core := core) (i := 0) (by omega), h0, decide_false,
      Bool.or_false]
    exact hh
  have hg := hg hup
  rw [exec_fwHeartbeat_released hc hu hr]
  refine ⟨_, finish_next ?_, ?_⟩
  · rw [hk.frame, hu']; exact ha
  · rw [hk.frame]
    exact ⟨by rw [hu']; rfl, by rw [hu'], hg, by rw [hu']; rfl⟩

end Sys2Proof.Machine
end

section
namespace Sys2Proof.Machine
variable {s t : State}

theorem fld_ofNat {x lo n : Nat} (h : lo + n ≤ 64) : fld (BitVec.ofNat 64 x) lo n = x / 2 ^ lo % 2 ^ n := by
  have hl : 2 ^ 64 = 2 ^ lo * 2 ^ (64 - lo) := by rw [← Nat.pow_add]; congr 1; omega
  rw [fld, BitVec.extractLsb'_toNat, BitVec.toNat_ofNat, Nat.shiftRight_eq_div_pow, hl, Nat.mod_mul_right_div_self,
    Nat.mod_mod_of_dvd _ (Nat.pow_dvd_pow 2 (by omega))]

theorem fld_lt (x : W64) (lo n : Nat) : fld x lo n < 2 ^ n := BitVec.isLt _

theorem sumNat_eq_sum (xs : List Nat) : sumNat xs = xs.sum := by
  rw [sumNat, ← List.sum_eq_foldl]

theorem foldl_setCreg_frame {α : Type} (p : α → Page) (o : α → Nat) (v : State → α → W64) (xs : List α) :
    xs.foldl (fun s x => s.setCreg (p x) (o x) (v s x)) s
      = { s with cregs := (xs.foldl (fun s x => s.setCreg (p x) (o x) (v s x)) s).cregs } := by
  induction xs generalizing s with
  | nil => rfl
  | cons x xs ih => exact ih.trans rfl

theorem foldl_setCreg_creg {α : Type} {p : α → Page} {o : α → Nat} {v : State → α → W64} {xs : List α} {q : Page} {off : Nat}
    (h : ∀ x ∈ xs, cregKey q off ≠ cregKey (p x) (o x)) :
    (xs.foldl (fun s x => s.setCreg (p x) (o x) (v s x)) s).creg q off = s.creg q off := by
  induction xs generalizing s with
  | nil => rfl
  | cons x xs ih =>
    obtain ⟨hx, hxs⟩ := List.forall_mem_cons.mp h
    exact (ih hxs).trans (State.creg_setCreg_ne _ _ hx)

/-! ### The peak integrator (18 R357, R358) -/

theorem State.attributeTo_frame (s : State) (ts : List Nat) (left : Nat) :
    s.attributeTo ts left = { s with freeCtr := (s.attributeTo ts left).freeCtr, useEn := (s.attributeTo ts left).useEn } := by
  induction ts generalizing s left with
  | nil => rfl
  | cons t ts ih => exact (ih _ _).trans rfl

theorem nextThrottle_lt (e p n : Nat) (h : n < 32) : nextThrottle e p n < 32 := by
  unfold nextThrottle
  split
  · omega
  · split <;> omega

/-- PTHR after a tick: the level, and the count of ticks with a level below 16. -/
theorem exec_peakTick_eq (e : Nat) : ∃ t, exec (.peakTick e) s = .next t ∧ t.peakTicks = lastN 10 (s.peakTicks ++ [e])
    ∧ t.gangs = s.gangs ∧ t.mem = s.mem
    ∧ t.creg .hub 0x300018 = BitVec.ofNat 64
        (nextThrottle (lastN 10 (s.peakTicks ++ [e])).sum (s.peakCap * 10000) s.throttleN
          + 2 ^ 32 * ((fld (s.creg .hub 0x300018) 32 32 + b2n (decide (s.throttleN < 16))) % 2 ^ 32)) := by
  rw [← sumNat_eq_sum, exec_peakTick]
  unfold execPeakTick
  extract_lets ticks n n' below s1 s2 tens
  have h1 : s1.creg .hub 0x300018 = BitVec.ofNat 64 (n' + 2 ^ 32 * (below % 2 ^ 32)) := State.creg_setCreg_self ..
  have h2 : s2 = { s1 with cregs := s2.cregs } := by
    unfold s2
    split
    · rfl
    · exact foldl_setCreg_frame (fun c => .cluster c) (fun _ => 0) _ _
  have h3 : s2.creg .hub 0x300018 = s1.creg .hub 0x300018 := by
    unfold s2
    split
    · rfl
    · exact foldl_setCreg_creg (p := fun c => .cluster c) (o := fun _ => 0) fun c _ => by
        simp only [cregKey, pageCode]; omega
  clear_value s2
  refine ⟨_, rfl, ?_⟩
  split
  · rw [State.attributeTo_frame]
    exact ⟨by rw [h2]; rfl, by rw [h2]; rfl, by rw [h2]; rfl, h3.trans h1⟩
  · exact ⟨by rw [h2]; rfl, by rw [h2]; rfl, by rw [h2]; rfl, h3.trans h1⟩

theorem exec_peakTick_spec (e : Nat) :
    let ticks := lastN 10 (s.peakTicks ++ [e])
    let n := fld (s.creg .hub 0x300018) 0 5
    let p := fld (s.creg .hub 0x300000) 0 16 * 10000
    ∃ t, exec (.peakTick e) s = .next t ∧ t.peakTicks = ticks
      ∧ fld (t.creg .hub 0x300018) 0 5
          = (if 15 * p ≤ 16 * ticks.sum then max 4 (n - 2) else if 8 * ticks.sum < 7 * p then min 16 (n + 1) else n)
      ∧ fld (t.creg .hub 0x300018) 32 32 = (fld (s.creg .hub 0x300018) 32 32 + if n < 16 then 1 else 0) % 2 ^ 32
      ∧ t.gangs = s.gangs ∧ t.mem = s.mem := by
  intro ticks n p
  obtain ⟨t, he, hp, hg, hm, hc⟩ := exec_peakTick_eq (s := s) e
  have hn : nextThrottle ticks.sum p n < 32 := nextThrottle_lt _ _ _ (fld_lt _ 0 5)
  have hb : b2n (decide (s.throttleN < 16)) = if n < 16 then 1 else 0 := by
    simp only [b2n, decide_eq_true_eq]; rfl
  refine ⟨t, he, hp, ?_, ?_, hg, hm⟩
  · rw [hc, fld_ofNat (by decide)]
    change (nextThrottle ticks.sum p n + _) / 1 % 32 = nextThrottle ticks.sum p n
    omega
  · rw [hc, fld_ofNat (by decide), hb]
    change (nextThrottle ticks.sum p n + _) / _ % _ = _
    omega

theorem exec_intervalBoundary_eq (s : State) : exec .intervalBoundary s = .next
    { s.setCreg .hub 0x300008 (BitVec.ofNat 64 (s.peakTicks.sum % 2 ^ 32)) with useBw := [], useEn := [] } := by
  rw [exec_intervalBoundary, execIntervalBoundary, sumNat_eq_sum]

/-! ### Pulse patterns, the starter's limit and the caps (12 R272, R273; 18 R357, R358) -/

theorem limitPat_lt (w k i n : Nat) : limitPat w k i n + 2 ^ i ≤ 2 ^ (i + k) := by
  induction k generalizing i n with
  | zero => simp [limitPat]
  | succ k ih =>
    have h (n : Nat) : limitPat w k (i + 1) n + 2 ^ i * 2 ≤ 2 ^ (i + 1 + k) := ih (i + 1) n
    rw [show i + (k + 1) = i + 1 + k by omega]
    simp only [limitPat]
    split
    · split
      · have := Nat.pow_le_pow_right (n := 2) (by omega) (show i ≤ i + 1 + k by omega)
        omega
      · have := h (n - 1)
        omega
    · have := h n
      omega

theorem State.nextPat_lt (s : State) (c : Nat) : s.nextPat c < 2 ^ 16 := by
  have := limitPat_lt (s.writtenPat c) 16 0 s.throttleN
  rw [State.nextPat]
  omega

theorem State.showPat_creg (s : State) (c pat : Nat) : (s.showPat c pat).creg (.cluster c) 0
    = BitVec.ofNat 64 (pat + 2 ^ 16 * s.nextPat c + 2 ^ 32 * b2n (s.nextPat c != pat)) := State.creg_setCreg_self ..

theorem exec_clkpatWrite_enough {c : Nat} {v : W64} (hc : c < 24 * s.dies) (hp : 4 ≤ popcount (fld v 0 16)) :
    ∃ t, exec (.clkpatWrite c v) s = .next t ∧ t.writtenPat c = fld v 0 16
      ∧ t.patInForce c = s.patInForce c ∧ t = { s with patWritten := t.patWritten, cregs := t.cregs }
      ∧ fld (t.creg (.cluster c) 0) 16 16 = limitPat (fld v 0 16) 16 0 (fld (s.creg .hub 0x300018) 0 5) := by
  let s1 : State := { s with patWritten := s.patWritten.put 0xFFFF c (fld v 0 16) }
  have hw : s1.writtenPat c = fld v 0 16 := by simp [s1, State.writtenPat, SMap.getD_put]
  have hn : s1.nextPat c = limitPat (fld v 0 16) 16 0 (fld (s.creg .hub 0x300018) 0 5) := by rw [State.nextPat, hw]; rfl
  have hl := s1.nextPat_lt c
  have hf : s.patInForce c < 2 ^ 16 := fld_lt _ 0 16
  have he : exec (.clkpatWrite c v) s = .next (s1.showPat c (s.patInForce c)) := by
    rw [exec_clkpatWrite, execClkpatWrite, State.setClkpat, if_neg (by simp; omega)]
  refine ⟨_, he, hw, ?_, rfl, ?_⟩
  · rw [State.patInForce, State.showPat_creg, fld_ofNat (by decide)]
    omega
  · rw [State.showPat_creg, fld_ofNat (by decide), ← hn]
    have : b2n (s1.nextPat c != s.patInForce c) ≤ 1 := by unfold b2n; split <;> omega
    omega

theorem exec_slopeWrite_eq {c : Nat} (v : W64) (hc : c < 24 * s.dies) :
    let limit := fld v 0 16
    let g := max 1 (fld v 16 16)
    let gap := min 255 ((g + limit - 1) / limit - 1)
    let wg := if limit = 0 then (64, 0) else (min 64 (max 1 (limit * (gap + 1) / g)), gap)
    exec (.slopeWrite c v) s = .next (s.setCreg (.cluster c) 8
      (BitVec.ofNat 64 (limit + 2 ^ 16 * g + 2 ^ 32 * wg.1 + 2 ^ 40 * wg.2))) := by
  intro limit g gap wg
  have hwg : waveGap limit g = wg := by
    unfold waveGap wg
    split
    · rfl
    · next hl => rw [ceilDiv, if_neg hl]
  rw [exec_slopeWrite, execSlopeWrite, State.setSlope, if_neg (Nat.not_le.mpr hc)]
  simp only [← hwg, limit, g]

end Sys2Proof.Machine
end

section
namespace Sys2Proof
theorem nodup_eraseDups (xs : List Nat) : xs.eraseDups.Nodup := by
  induction h : xs.length using Nat.strong_induction_on generalizing xs with
  | _ n ih =>
    cases xs with
    | nil => simp
    | cons x xs =>
      rw [List.eraseDups_cons, List.nodup_cons]
      exact ⟨by simp [List.mem_eraseDups], ih _ (by rw [← h]; exact Nat.lt_succ_of_le (List.length_filter_le ..)) _ rfl⟩
end Sys2Proof

namespace Sys2Proof.Machine
variable {s t u : State}

/-! ### LIMIT notices (20 R398 to R400) -/

/-- A package of the table that no scale-out port serves hears of the notice over the link to it. -/
theorem State.carryNotice_queue {n : Notice} {dst i : Nat} (h : s.linkFor dst 0 = some i) :
    ∃ x ∈ ((s.carryNotice n (dst, false)).link i).queue, x.dst = dst ∧ x.vc = 3 ∧ x.load = .noticeTo dst n := by
  simp only [State.carryNotice, State.fabricSend, State.dispatchFlit, h, State.link, SMap.getD_set, if_true, Bool.false_eq_true,
    if_false]
  exact ⟨_, List.mem_append_right _ (List.mem_singleton_self _), rfl, rfl, rfl⟩

theorem State.sendNotice_queue {g : PortGroup} {n : Notice} {o : Nat × Bool} {i : Nat} (ho : o ∈ s.otherPackages g)
    (hs : o.2 = false) (hl : s.linkFor o.1 0 = some i) :
    ∃ x ∈ ((s.sendNotice g n).link i).queue, x.dst = o.1 ∧ x.vc = 3 ∧ x.load = .noticeTo o.1 n := by
  obtain ⟨dst, so⟩ := o
  obtain rfl : so = false := hs
  obtain ⟨xs, ys, hxy⟩ := List.append_of_mem ho
  rw [State.sendNotice, hxy, List.foldl_append, List.foldl_cons]
  have h1 : Sends { s with pacerSeq := n.seq } (xs.foldl (fun s e => s.carryNotice n e) { s with pacerSeq := n.seq }) :=
    Sends.foldl (fun s e => s.carryNotice_sends n e) _
  obtain ⟨x, hx, hxs⟩ := State.carryNotice_queue (n := n) ((h1.linkFor dst 0).trans hl)
  exact ⟨x, (Sends.foldl (fun s e => s.carryNotice_sends n e) ys).queue hx, hxs⟩

/-- Notices go out to groups. -/
structure Notifies (s t : State) : Prop extends Grows s t where
  frame : t = { s with links := t.links, sent := t.sent, conns := t.conns, cregs := t.cregs, pacer := t.pacer, pacerSeq := t.pacerSeq }

theorem Notifies.refl (s : State) : Notifies s s := ⟨.of_links rfl (fun _ => rfl) rfl, rfl⟩
theorem Notifies.trans (h : Notifies s t) (k : Notifies t u) : Notifies s u :=
  ⟨h.toGrows.trans k.toGrows, k.frame.trans (by rw [h.frame])⟩

theorem Notifies.groupTable (h : Notifies s t) (g : Nat) : t.groupTable g = s.groupTable g := by
  rw [h.frame]; rfl
theorem Notifies.otherPackages (h : Notifies s t) (g : PortGroup) : t.otherPackages g = s.otherPackages g := by
  rw [h.frame]; rfl
theorem Notifies.pkg (h : Notifies s t) : t.pkg = s.pkg := by rw [h.frame]
theorem Notifies.fabtime (h : Notifies s t) : t.fabtime = s.fabtime := by rw [h.frame]

/-- The entry of a LIMIT sent now with a sequence number. -/
def State.limitEntry (s : State) (limit k : Nat) : LimitAt := { seq := k, eff := s.fabtime.toNat + 50000, limit := limit }
/-- The notice of a LIMIT sent now to a group. -/
def State.limitNotice (s : State) (limit gid k : Nat) : Notice :=
  { group := gid, sender := s.pkg, kind := 0, limit := limit, seq := k, sent := s.fabtime.toNat
    eff := s.fabtime.toNat + 50000, snap := [] }

/-- A limit sent now is kept: it is not in effect, and no other in effect has a larger number. -/
theorem limitEntry_mem_pruneLimits {limit k : Nat} {ls : List LimitAt} (h : ∀ x ∈ ls, x.seq < k) :
    s.limitEntry limit k ∈ pruneLimits s.now (ls ++ [s.limitEntry limit k]) := by
  have hcur : ∀ (xs : List LimitAt) (a : Nat), a ≤ k → (∀ x ∈ xs, x.seq ≤ k) →
      xs.foldl (fun (a : Nat) l => if l.eff ≤ s.now then max a l.seq else a) a ≤ k := by
    intro xs
    induction xs with
    | nil => exact fun a ha _ => ha
    | cons x xs ih =>
      intro a ha hx
      obtain ⟨hx, hxs⟩ := List.forall_mem_cons.mp hx
      refine ih _ ?_ hxs
      dsimp only
      split
      · exact Nat.max_le.mpr ⟨ha, hx⟩
      · exact ha
  refine List.mem_filter.mpr ⟨List.mem_append_right _ (List.mem_singleton_self _), decide_eq_true ?_⟩
  refine hcur _ _ (Nat.zero_le _) fun x hx => ?_
  obtain hx | hx := List.mem_append.mp hx
  · exact (h x hx).le
  · rw [List.mem_singleton.mp hx]; exact le_rfl

/-- What a LIMIT to one group does: the package's own entry takes it, and the others of the group's table are told. -/
def State.limitTo (s : State) (limit gid : Nat) : State :=
  match s.groupTable gid with
  | some g => (s.addOwnLimit gid (s.limitEntry limit (s.pacerSeq + 1))).sendNotice g (s.limitNotice limit gid (s.pacerSeq + 1))
  | none => s

theorem State.sendLimit_eq (s : State) (limit : Nat) : s.sendLimit limit =
    let s0 := { s with ownLimit := limit, pacerSeq := s.pacerSeq + 1
                       ownLimits := pruneLimits s.now (s.ownLimits ++ [s.limitEntry limit (s.pacerSeq + 1)]) }
    s0.boundGroups.foldl (fun s gid => s.limitTo limit gid) s0 := rfl

theorem State.limitTo_notifies (s : State) (limit gid : Nat) : Notifies s (s.limitTo limit gid) := by
  unfold State.limitTo
  split
  · next g _ =>
    have h := State.sendNotice_sends (s.addOwnLimit gid (s.limitEntry limit (s.pacerSeq + 1))) g
      (s.limitNotice limit gid (s.pacerSeq + 1))
    exact ⟨⟨h.route, h.creg, h.link⟩, by rw [h.frame]; rfl⟩
  · exact .refl s

theorem State.foldl_limitTo_notifies (s : State) (limit : Nat) (gs : List Nat) :
    Notifies s (gs.foldl (fun s gid => s.limitTo limit gid) s) := by
  induction gs generalizing s with
  | nil => exact .refl s
  | cons g gs ih => exact (s.limitTo_notifies limit g).trans (ih _)

theorem State.limitTo_pacerSeq {limit gid : Nat} {g : PortGroup} (h : s.groupTable gid = some g) :
    (s.limitTo limit gid).pacerSeq = s.pacerSeq + 1 := by
  simp only [State.limitTo, h]
  rw [(State.sendNotice_sends _ _ _).frame]
  rfl

theorem State.limitTo_pacer (s : State) (limit gid j : Nat) : (s.limitTo limit gid).pacer.find? j =
    if j = gid ∧ (s.groupTable gid).isSome then (s.pacer.find? gid).map fun pg =>
      { pg with members := pg.members.upd s.pkg fun m =>
        { m with limits := pruneLimits s.now (m.limits ++ [s.limitEntry limit (s.pacerSeq + 1)]) } }
    else s.pacer.find? j := by
  cases h : s.groupTable gid with
  | none => simp [State.limitTo, h]
  | some g =>
    simp only [State.limitTo, h]
    rw [(State.sendNotice_sends _ _ _).frame]
    simp [State.addOwnLimit, SMap.find?_upd]

/-- A group has heard of a LIMIT by the notice k: the package's own entry holds it, and so do the links to the others. -/
def Told (s t : State) (limit gid k : Nat) : Prop :=
  (∀ pg m, s.pacer.find? gid = some pg → pg.members.find? s.pkg = some m → (∀ x ∈ m.limits, x.seq ≤ s.pacerSeq) →
    ∃ q h, t.pacer.find? gid = some q ∧ q.members.find? s.pkg = some h ∧ s.limitEntry limit k ∈ h.limits)
  ∧ ∀ g o i, s.groupTable gid = some g → o ∈ s.otherPackages g → o.2 = false → s.linkFor o.1 0 = some i →
      ∃ x ∈ (t.link i).queue, x.dst = o.1 ∧ x.vc = 3 ∧ x.load = .noticeTo o.1 (s.limitNotice limit gid k)

theorem State.limitTo_told {limit gid : Nat} {g : PortGroup} (hg : s.groupTable gid = some g) :
    Told s (s.limitTo limit gid) limit gid (s.pacerSeq + 1) := by
  constructor
  · intro pg m hpg hm hx
    rw [State.limitTo_pacer, if_pos ⟨rfl, by simp [hg]⟩, hpg]
    exact ⟨_, _, rfl, by rw [SMap.find?_upd_self, hm]; rfl, limitEntry_mem_pruneLimits fun x h => Nat.lt_succ_of_le (hx x h)⟩
  · intro g' o i hg' ho hs hl
    obtain rfl : g = g' := Option.some.inj (hg.symm.trans hg')
    simp only [State.limitTo, hg]
    exact State.sendNotice_queue (s := s.addOwnLimit gid _) ho hs hl

theorem Told.later {limit gid k : Nat} (h : Told s t limit gid k) (hp : u.pacer.find? gid = t.pacer.find? gid)
    (hn : Notifies t u) : Told s u limit gid k := by
  refine ⟨fun pg m hpg hm hx => ?_, fun g o i hg ho hs hl => ?_⟩
  · rw [hp]; exact h.1 pg m hpg hm hx
  · obtain ⟨x, hx, hxs⟩ := h.2 g o i hg ho hs hl
    exact ⟨x, hn.queue hx, hxs⟩

theorem Told.earlier {limit gid k : Nat} (h : Told t u limit gid k) (hp : t.pacer.find? gid = s.pacer.find? gid)
    (hq : s.pacerSeq ≤ t.pacerSeq) (hn : Notifies s t) : Told s u limit gid k := by
  have he : t.limitEntry limit k = s.limitEntry limit k := by simp [State.limitEntry, hn.fabtime]
  have hm : t.limitNotice limit gid k = s.limitNotice limit gid k := by simp [State.limitNotice, hn.fabtime, hn.pkg]
  unfold Told at h ⊢
  rw [hp, hn.pkg, he, hm, hn.groupTable] at h
  refine ⟨fun pg m hpg hm hx => h.1 pg m hpg hm fun x h => (hx x h).trans hq, fun g o i hg ho hs hl => ?_⟩
  exact h.2 g o i hg (by rwa [hn.otherPackages]) hs (by rwa [hn.linkFor])

/-- Every group of a list without repetition hears of a LIMIT, each by a notice of its own. -/
theorem State.foldl_limitTo_told (limit : Nat) (gs : List Nat) (hd : gs.Nodup) (ht : ∀ g ∈ gs, (s.groupTable g).isSome) :
    (gs.foldl (fun s gid => s.limitTo limit gid) s).pacerSeq = s.pacerSeq + gs.length
    ∧ (∀ j, j ∉ gs → (gs.foldl (fun s gid => s.limitTo limit gid) s).pacer.find? j = s.pacer.find? j)
    ∧ ∀ gid ∈ gs, ∃ k, s.pacerSeq < k ∧ k ≤ s.pacerSeq + gs.length
        ∧ Told s (gs.foldl (fun s gid => s.limitTo limit gid) s) limit gid k := by
  induction gs generalizing s with
  | nil => simp
  | cons g gs ih =>
    obtain ⟨hg, hgs⟩ := List.forall_mem_cons.mp ht
    obtain ⟨hn, hd⟩ := List.nodup_cons.mp hd
    obtain ⟨tb, htb⟩ := Option.isSome_iff_exists.mp hg
    have h1 := s.limitTo_notifies limit g
    have hp : ∀ j, j ≠ g → (s.limitTo limit g).pacer.find? j = s.pacer.find? j := fun j hj => by
      rw [State.limitTo_pacer, if_neg (fun h => hj h.1)]
    have hq := State.limitTo_pacerSeq (limit := limit) htb
    obtain ⟨ih1, ih2, ih3⟩ := ih (s := s.limitTo limit g) hd fun x hx => by rw [h1.groupTable]; exact hgs x hx
    rw [List.foldl_cons, List.length_cons]
    refine ⟨by omega, fun j hj => ?_, fun gid hgid => ?_⟩
    · obtain ⟨hj, hjs⟩ := not_or.mp (fun h => hj (List.mem_cons.mpr h))
      exact (ih2 j hjs).trans (hp j hj)
    · obtain rfl | hgid := List.mem_cons.mp hgid
      · exact ⟨s.pacerSeq + 1, by omega, by omega,
          (State.limitTo_told htb).later (ih2 _ hn) (State.foldl_limitTo_notifies _ limit gs)⟩
      · obtain ⟨k, hk, hk', h⟩ := ih3 gid hgid
        refine ⟨k, by omega, by omega, h.earlier (hp gid fun e => hn (e ▸ hgid)) (by omega) h1⟩

theorem State.groupTable_of_bound {gid : Nat} (h : gid ∈ s.boundGroups) : (s.groupTable gid).isSome := by
  obtain ⟨e, he, rfl⟩ := List.mem_map.mp (List.mem_eraseDups.mp h)
  simp only [State.groupTable, Option.isSome_map, List.find?_isSome, decide_eq_true_eq]
  exact ⟨e, he, rfl⟩

end Sys2Proof.Machine
end

section
namespace Sys2Proof.Machine
variable {s t : State}

/-! ### The millisecond of POWER (18 R359) -/

theorem State.migrateHot_frame (s : State) (part : Nat) : s.migrateHot part = { s with wgs := (s.migrateHot part).wgs } := by
  unfold State.migrateHot
  extract_lets cs
  split
  · split
    · rfl
    · extract_lets ws
      split <;> rfl
  · rfl

theorem foldl_migrateHot_frame (ps : List Nat) : ps.foldl (fun s p => s.migrateHot p) s
    = { s with wgs := (ps.foldl (fun s p => s.migrateHot p) s).wgs } := by
  induction ps generalizing s with
  | nil => rfl
  | cons p ps ih =>
    rw [List.foldl_cons, ih, s.migrateHot_frame p]

/-- What the readings of a millisecond leave in the registers: the energy, and each sensor's temperature. -/
def State.sensed (s : State) (n total : Nat) (temps : List Nat) : State :=
  (List.range n).foldl
    (fun s c => s.setCreg .hub (0x300100 + 8 * c) (BitVec.ofNat 64 (temps.getD c 0 % 4096)))
    (s.setCreg .hub 0x300010 (BitVec.ofNat 64 (total % 2 ^ 48)))

theorem State.sensed_frame (s : State) (n total : Nat) (temps : List Nat) :
    s.sensed n total temps = { s with cregs := (s.sensed n total temps).cregs } :=
  (foldl_setCreg_frame (fun _ => .hub) (fun c => 0x300100 + 8 * c) _ _).trans rfl

theorem State.sensed_energy (s : State) (n total : Nat) (temps : List Nat) :
    (s.sensed n total temps).creg .hub 0x300010 = BitVec.ofNat 64 (total % 2 ^ 48) :=
  (foldl_setCreg_creg (p := fun _ => .hub) (o := fun c => 0x300100 + 8 * c) fun c _ => by simp only [cregKey]; omega).trans
    (State.creg_setCreg_self ..)

theorem State.sensed_other (s : State) (n total : Nat) (temps : List Nat) {off : Nat} (h : off < 0x300100) (h' : off ≠ 0x300010) :
    (s.sensed n total temps).creg .hub off = s.creg .hub off :=
  (foldl_setCreg_creg (p := fun _ => .hub) (o := fun c => 0x300100 + 8 * c) fun c _ => by simp only [cregKey]; omega).trans
    (State.creg_setCreg_ne _ _ (by simp only [cregKey]; omega))

theorem foldl_setCreg_table (f : Nat → W64) (n : Nat) {c : Nat} (hc : c < n) :
    ((List.range n).foldl (fun s c => s.setCreg .hub (0x300100 + 8 * c) (f c)) s).creg .hub (0x300100 + 8 * c) = f c := by
  induction n with
  | zero => omega
  | succ n ih =>
    rw [List.range_succ, List.foldl_append, List.foldl_cons, List.foldl_nil]
    by_cases h : c = n
    · rw [h, State.creg_setCreg_self]
    · rw [State.creg_setCreg_ne _ _ (by simp only [cregKey]; omega)]
      exact ih (by omega)

theorem State.sensed_temp (s : State) (total : Nat) (temps : List Nat) {n c : Nat} (h : c < n) :
    (s.sensed n total temps).creg .hub (0x300100 + 8 * c) = BitVec.ofNat 64 (temps.getD c 0 % 4096) :=
  foldl_setCreg_table _ _ h

/-- POWER's part of a millisecond: a LIMIT where one is due, the ceiling, and migrations. -/
def State.msActed (s : State) (total : Nat) (read : List Nat) : State :=
  let s3 := match nextLimit total s.avgCap s.tlim s.ownLimit read with
    | some l => s.sendLimit l
    | none => s
  (List.range 8).foldl (fun s p => s.migrateHot p) s3.setCeiling

/-- The state after a millisecond's readings. -/
def State.msRead (s : State) (ticks temps : List Nat) : State :=
  State.sensed { s with msTicks := ticks } (min temps.length (24 * s.dies)) ticks.sum temps

theorem exec_powerMsTick_eq (s : State) (e : Nat) (temps : List Nat) :
    exec (.powerMsTick e temps) s =
      let ticks := lastN 1000 (s.msTicks ++ [e])
      let s2 := s.msRead ticks temps
      if !s.fwUp 4 then .next s2
      else finish (s2.msActed ticks.sum ((temps.take (min temps.length (24 * s.dies))).map (· % 4096))) := by
  rw [exec_powerMsTick]
  unfold execPowerMsTick
  extract_lets ticks e1s s1 n s2 s3 s2'
  have he : e1s = ticks.sum := sumNat_eq_sum _
  have h2 : s2 = s2' := by
    unfold s2' State.msRead State.sensed
    rw [← he]
  have h3 : List.foldl (fun s p => s.migrateHot p) s3.setCeiling (List.range 8)
      = s2.msActed e1s ((temps.take n).map (· % 4096)) := by
    unfold State.msActed s3
    generalize nextLimit e1s s2.avgCap s2.tlim s2.ownLimit _ = o
    cases o <;> rfl
  rw [h3, h2, he]

/-- The ceiling follows, and workgroups may be marked for a move. -/
theorem migrated_frame (s : State) : ∃ t, (List.range 8).foldl (fun s p => s.migrateHot p) s.setCeiling = t
    ∧ t = { s with wgs := t.wgs, ceil := t.ceil, ceilNext := t.ceilNext } := by
  refine ⟨_, rfl, ?_⟩
  have h := foldl_migrateHot_frame (s := s.setCeiling) (List.range 8)
  generalize List.foldl _ _ _ = t at h ⊢
  rw [h]
  rfl

theorem State.msActed_none {total : Nat} {read : List Nat} (h : nextLimit total s.avgCap s.tlim s.ownLimit read = none) :
    ∃ t, s.msActed total read = t ∧ t = { s with wgs := t.wgs, ceil := t.ceil, ceilNext := t.ceilNext } := by
  rw [State.msActed, h]
  exact migrated_frame s

theorem State.msActed_some {total l : Nat} {read : List Nat} (h : nextLimit total s.avgCap s.tlim s.ownLimit read = some l) :
    ∃ t, s.msActed total read = t ∧ t = { s.sendLimit l with wgs := t.wgs, ceil := t.ceil, ceilNext := t.ceilNext } := by
  rw [State.msActed, h]
  exact migrated_frame _

theorem nextLimit_eq (total avg tlim limit : Nat) (read : List Nat) : nextLimit total avg tlim limit read =
    if 31 * (avg * 10 ^ 6) < 32 * total ∨ ∃ x ∈ read, tlim ≤ x then
      some (max 100 (limit - if read.any (tlim + 32 ≤ ·) then 200 else 100))
    else if 8 * total < 7 * (avg * 10 ^ 6) ∧ ∀ x ∈ read, x + 80 ≤ tlim then some (min 2500 (limit + 50))
    else none := by
  simp only [nextLimit, Nat.mul_assoc, Bool.or_eq_true, Bool.and_eq_true, decide_eq_true_eq, List.any_eq_true, List.all_eq_true]

end Sys2Proof.Machine
end

section
namespace Sys2Proof.Machine
variable {s t : State}

theorem State.msRead_frame (s : State) (ticks temps : List Nat) :
    s.msRead ticks temps = { s with msTicks := ticks, cregs := (s.msRead ticks temps).cregs } :=
  State.sensed_frame { s with msTicks := ticks } ..

theorem State.msRead_other (s : State) (ticks temps : List Nat) {off : Nat} (h : off < 0x300100) (h' : off ≠ 0x300010) :
    (s.msRead ticks temps).creg .hub off = s.creg .hub off :=
  State.sensed_other { s with msTicks := ticks } _ _ _ h h'

theorem State.msRead_avgCap (s : State) (ticks temps : List Nat) : (s.msRead ticks temps).avgCap = s.avgCap := by
  rw [State.avgCap, State.msRead_other _ _ _ (by omega) (by omega), State.avgCap]
theorem State.msRead_tlim (s : State) (ticks temps : List Nat) : (s.msRead ticks temps).tlim = s.tlim := by
  rw [State.tlim, State.msRead_other _ _ _ (by omega) (by omega), State.tlim]

/-- A LIMIT, and what its notices leave alone. -/
theorem State.sendLimit_notifies (s : State) (limit : Nat) :
    Notifies { s with ownLimit := limit, pacerSeq := s.pacerSeq + 1
                      ownLimits := pruneLimits s.now (s.ownLimits ++ [s.limitEntry limit (s.pacerSeq + 1)]) } (s.sendLimit limit) := by
  rw [State.sendLimit_eq]
  exact State.foldl_limitTo_notifies ..

theorem State.sendLimit_ownLimits {limit : Nat} (h : ∀ x ∈ s.ownLimits, x.seq ≤ s.pacerSeq) :
    s.limitEntry limit (s.pacerSeq + 1) ∈ (s.sendLimit limit).ownLimits := by
  rw [(s.sendLimit_notifies limit).frame]
  exact limitEntry_mem_pruneLimits fun x hx => Nat.lt_succ_of_le (h x hx)

theorem State.sendLimit_told (s : State) (limit : Nat) :
    (s.sendLimit limit).pacerSeq = s.pacerSeq + 1 + s.boundGroups.length
    ∧ ∀ gid ∈ s.boundGroups, ∃ k, s.pacerSeq + 1 < k ∧ k ≤ (s.sendLimit limit).pacerSeq
        ∧ Told { s with pacerSeq := s.pacerSeq + 1 } (s.sendLimit limit) limit gid k := by
  obtain ⟨hq, -, ht⟩ := State.foldl_limitTo_told (s := { s with
    ownLimit := limit, pacerSeq := s.pacerSeq + 1
    ownLimits := pruneLimits s.now (s.ownLimits ++ [s.limitEntry limit (s.pacerSeq + 1)]) }) limit s.boundGroups
      (nodup_eraseDups _) fun g hg => State.groupTable_of_bound hg
  rw [State.sendLimit_eq]
  refine ⟨hq, fun gid hg => ?_⟩
  obtain ⟨k, hk, hk', h⟩ := ht gid hg
  exact ⟨k, hk, hk'.trans hq.ge, h⟩

/-- The LIMIT that POWER sends in a millisecond, where it runs and one is due. -/
def State.msLimit (s : State) (total : Nat) (read : List Nat) : Option Nat :=
  if s.fwUp 4 then nextLimit total s.avgCap s.tlim s.ownLimit read else none

/-- The state in which a millisecond ends, but for the ceiling and marks for a move. -/
def State.msSent (s : State) : Option Nat → State
  | some l => s.sendLimit l
  | none => s

theorem msStep_frame (ticks temps read : List Nat) (ha : s.absentAcc = none) :
    ∃ t, (if !s.fwUp 4 then .next (s.msRead ticks temps) else finish ((s.msRead ticks temps).msActed ticks.sum read) : Out) = .next t
      ∧ t = { (s.msRead ticks temps).msSent (s.msLimit ticks.sum read) with wgs := t.wgs, ceil := t.ceil, ceilNext := t.ceilNext } := by
  have hown : (s.msRead ticks temps).ownLimit = s.ownLimit := by rw [s.msRead_frame]
  have habs : (s.msRead ticks temps).absentAcc = none := by rw [s.msRead_frame]; exact ha
  cases hu : s.fwUp 4
  · simp only [State.msLimit, hu, Bool.false_eq_true, if_false]
    exact ⟨_, rfl, rfl⟩
  · rw [if_neg (by decide)]
    cases hn : nextLimit ticks.sum s.avgCap s.tlim s.ownLimit read with
    | none =>
      simp only [State.msLimit, hu, if_true, hn, State.msSent]
      rw [← s.msRead_avgCap ticks temps, ← s.msRead_tlim ticks temps, ← hown] at hn
      obtain ⟨t, htt, hf⟩ := State.msActed_none hn
      rw [htt]
      exact ⟨t, finish_next (by rw [hf]; exact habs), hf⟩
    | some l =>
      simp only [State.msLimit, hu, if_true, hn, State.msSent]
      rw [← s.msRead_avgCap ticks temps, ← s.msRead_tlim ticks temps, ← hown] at hn
      obtain ⟨t, htt, hf⟩ := State.msActed_some hn
      rw [htt]
      refine ⟨t, finish_next ?_, hf⟩
      rw [hf, ((s.msRead ticks temps).sendLimit_notifies l).frame]
      exact habs

theorem exec_powerMsTick_frame (e : Nat) (temps : List Nat) (ha : s.absentAcc = none) :
    let ticks := lastN 1000 (s.msTicks ++ [e])
    ∃ t, exec (.powerMsTick e temps) s = .next t
      ∧ t = { (s.msRead ticks temps).msSent (s.msLimit ticks.sum ((temps.take (24 * s.dies)).map (· % 4096))) with
              wgs := t.wgs, ceil := t.ceil, ceilNext := t.ceilNext } := by
  intro ticks
  rw [exec_powerMsTick_eq, Nat.min_comm, ← List.take_eq_take_min]
  exact msStep_frame ticks temps _ ha

end Sys2Proof.Machine
end

section
namespace Sys2Proof.Machine
variable {s t : State}

theorem State.msSent_creg (s : State) (o : Option Nat) {off : Nat} (h : off < 0x320000) :
    (s.msSent o).creg .hub off = s.creg .hub off := by
  cases o with
  | none => rfl
  | some l => exact (s.sendLimit_notifies l).creg h

theorem State.msSent_frame (s : State) (o : Option Nat) : s.msSent o = { s with
    links := (s.msSent o).links, sent := (s.msSent o).sent, conns := (s.msSent o).conns, cregs := (s.msSent o).cregs
    pacer := (s.msSent o).pacer, pacerSeq := (s.msSent o).pacerSeq, ownLimit := (s.msSent o).ownLimit
    ownLimits := (s.msSent o).ownLimits } := by
  cases o with
  | none => rfl
  | some l =>
    simp only [State.msSent]
    have h := (s.sendLimit_notifies l).frame
    generalize s.sendLimit l = t at h ⊢
    rw [h]

/-- The readings of a millisecond, whatever POWER does with them. -/
theorem exec_powerMsTick_read {e : Nat} {temps : List Nat} (h : exec (.powerMsTick e temps) s = .next t) (ha : s.absentAcc = none) :
    let total := (lastN 1000 (s.msTicks ++ [e])).sum
    t.msTicks = lastN 1000 (s.msTicks ++ [e]) ∧ t.creg .hub 0x300010 = BitVec.ofNat 64 (total % 2 ^ 48)
      ∧ (∀ c, c < temps.length → c < 24 * s.dies → t.creg .hub (0x300100 + 8 * c) = BitVec.ofNat 64 (temps.getD c 0 % 4096))
      ∧ t.gangs = s.gangs ∧ t.mem = s.mem := by
  obtain ⟨t', he, hf⟩ := exec_powerMsTick_frame (s := s) e temps ha
  obtain rfl : t' = t := by rw [he] at h; exact Host.Outcome.next.inj h
  generalize lastN 1000 (s.msTicks ++ [e]) = ticks at hf ⊢
  generalize s.msLimit _ _ = o at hf
  have hc : ∀ {off : Nat}, off < 0x320000 → t'.creg .hub off = (s.msRead ticks temps).creg .hub off := fun ho => by
    rw [hf]; exact State.msSent_creg _ _ ho
  refine ⟨?_, ?_, fun c hc1 hc2 => ?_, ?_, ?_⟩
  · rw [hf, State.msSent_frame, s.msRead_frame]
  · rw [hc (by omega)]
    exact State.sensed_energy { s with msTicks := ticks } ..
  · have hd : 24 * s.dies ≤ 48 := by unfold State.dies; split <;> omega
    rw [hc (by omega)]
    exact State.sensed_temp { s with msTicks := ticks } _ _ (Nat.lt_min.mpr ⟨hc1, hc2⟩)
  · rw [hf, State.msSent_frame, s.msRead_frame]
  · rw [hf, State.msSent_frame, s.msRead_frame]

theorem State.msLimit_eq (hu : s.fwUp 4 = true) (total : Nat) (read : List Nat) :
    s.msLimit total read = nextLimit total s.avgCap s.tlim s.ownLimit read := by
  rw [State.msLimit, if_pos hu]

/-- A millisecond that sends no LIMIT. -/
theorem msSent_none_frame {ticks temps : List Nat}
    (h : t = { s.msRead ticks temps with wgs := t.wgs, ceil := t.ceil, ceilNext := t.ceilNext }) :
    t.ownLimit = s.ownLimit ∧ t.pacerSeq = s.pacerSeq ∧ t.sent = s.sent ∧ t.links = s.links := by
  rw [h, s.msRead_frame]
  exact ⟨rfl, rfl, rfl, rfl⟩

/-- A millisecond that sends a LIMIT: the package's own, and one to each group that it binds. -/
theorem msSent_some_told {ticks temps : List Nat} {l : Nat}
    (h : t = { (s.msRead ticks temps).sendLimit l with wgs := t.wgs, ceil := t.ceil, ceilNext := t.ceilNext }) :
    t.ownLimit = l ∧ t.pacerSeq = s.pacerSeq + 1 + s.boundGroups.length
      ∧ ((∀ x ∈ s.ownLimits, x.seq ≤ s.pacerSeq) → s.limitEntry l (s.pacerSeq + 1) ∈ t.ownLimits)
      ∧ ∀ gid ∈ s.boundGroups, ∃ k, s.pacerSeq + 1 < k ∧ k ≤ t.pacerSeq ∧ Told { s with pacerSeq := s.pacerSeq + 1 } t l gid k := by
  have hr := s.msRead_frame ticks temps
  generalize (s.msRead ticks temps) = r at h hr
  obtain ⟨hq, ht⟩ := r.sendLimit_told l
  have ho : r.ownLimits = s.ownLimits := by rw [hr]
  have hp : r.pacerSeq = s.pacerSeq := by rw [hr]
  have hb : r.boundGroups = s.boundGroups := by rw [hr]; rfl
  refine ⟨?_, ?_, fun hx => ?_, fun gid hg => ?_⟩
  · rw [h, (r.sendLimit_notifies l).frame]
  · rw [h]; exact hq.trans (by rw [hp, hb])
  · have := State.sendLimit_ownLimits (s := r) (limit := l) (by rw [ho, hp]; exact hx)
    rw [h]
    rw [hp] at this
    rw [hr] at this ⊢
    exact this
  · obtain ⟨k, hk, hk', htold⟩ := ht gid (by rw [hb]; exact hg)
    refine ⟨k, by omega, by rw [h]; exact hk', ?_⟩
    generalize r.sendLimit l = v at h htold
    rw [h]
    rw [hr] at htold
    exact htold

end Sys2Proof.Machine
end

section
namespace Sys2Proof.Machine
variable {s t : State}

/-- What a millisecond's readings ask for: a lower limit, or a higher one. -/
theorem exec_powerMsTick_spec (e : Nat) (temps : List Nat) (ha : s.absentAcc = none) :
    let total := (lastN 1000 (s.msTicks ++ [e])).sum
    let read := (temps.take (24 * s.dies)).map (· % 4096)
    let avg := fld (s.creg .hub 0x300000) 16 16 * 10 ^ 6
    let hot := fld (s.creg .hub 0x300020) 0 12
    let down := 31 * avg < 32 * total ∨ ∃ x ∈ read, hot ≤ x
    let up := 8 * total < 7 * avg ∧ ∀ x ∈ read, x + 80 ≤ hot
    let cut := if read.any (hot + 32 ≤ ·) then 200 else 100
    ∃ t, exec (.powerMsTick e temps) s = .next t
    ∧ t.msTicks = lastN 1000 (s.msTicks ++ [e]) ∧ t.creg .hub 0x300010 = BitVec.ofNat 64 (total % 2 ^ 48)
    ∧ (∀ c, c < temps.length → c < 24 * s.dies → t.creg .hub (0x300100 + 8 * c) = BitVec.ofNat 64 (temps.getD c 0 % 4096))
    ∧ t.gangs = s.gangs ∧ t.mem = s.mem
    ∧ (s.fwUp 4 = false ∨ ¬down ∧ ¬up → t.ownLimit = s.ownLimit ∧ t.pacerSeq = s.pacerSeq ∧ t.sent = s.sent ∧ t.links = s.links)
    ∧ (s.fwUp 4 = true → down ∨ up → (∀ x ∈ s.ownLimits, x.seq ≤ s.pacerSeq) →
        let l (k : Nat) : LimitAt := { seq := k, eff := s.fabtime.toNat + 50000, limit := t.ownLimit }
        (down → t.ownLimit = max 100 (s.ownLimit - cut)) ∧ (¬down → t.ownLimit = min 2500 (s.ownLimit + 50))
        ∧ t.pacerSeq = s.pacerSeq + 1 + s.boundGroups.length ∧ l (s.pacerSeq + 1) ∈ t.ownLimits
        ∧ ∀ gid ∈ s.boundGroups, ∃ k, s.pacerSeq + 1 < k ∧ k ≤ t.pacerSeq
          ∧ (∀ pg m, s.pacer.find? gid = some pg → pg.members.find? s.pkg = some m → (∀ x ∈ m.limits, x.seq ≤ s.pacerSeq) →
              ∃ q h, t.pacer.find? gid = some q ∧ q.members.find? s.pkg = some h ∧ l k ∈ h.limits)
          ∧ ∀ g o i, s.groupTable gid = some g → o ∈ s.otherPackages g → o.2 = false → s.linkFor o.1 0 = some i →
              ∃ x ∈ (t.link i).queue, x.dst = o.1 ∧ x.vc = 3
                ∧ x.load = .noticeTo o.1 { group := gid, sender := s.pkg, kind := 0, limit := t.ownLimit, seq := k
                                           sent := s.fabtime.toNat, eff := s.fabtime.toNat + 50000, snap := [] }) := by
  obtain ⟨t, he, hf⟩ := exec_powerMsTick_frame (s := s) e temps ha
  obtain ⟨hms, hen, htemp, hg, hm⟩ := exec_powerMsTick_read he ha
  generalize lastN 1000 (s.msTicks ++ [e]) = ticks at *
  intro total read avg hot down up cut
  have hlim : nextLimit total s.avgCap s.tlim s.ownLimit read =
      if down then some (max 100 (s.ownLimit - cut)) else if up then some (min 2500 (s.ownLimit + 50)) else none :=
    nextLimit_eq ..
  refine ⟨t, he, hms, hen, htemp, hg, hm, fun hno => msSent_none_frame (ticks := ticks) (temps := temps) ?_, fun hu hdu hx => ?_⟩
  · have : s.msLimit total read = none := by
      rw [State.msLimit]
      split
      · next hu =>
        obtain ⟨hd, hup⟩ := hno.resolve_left (by simp [hu])
        rw [hlim, if_neg hd, if_neg hup]
      · rfl
    rw [this] at hf
    exact hf
  · have hl : ∃ l, s.msLimit total read = some l ∧ (down → l = max 100 (s.ownLimit - cut)) ∧ (¬down → l = min 2500 (s.ownLimit + 50)) := by
      rw [State.msLimit_eq hu, hlim]
      by_cases hd : down
      · exact ⟨_, if_pos hd, fun _ => rfl, fun h => absurd hd h⟩
      · rw [if_neg hd, if_pos (hdu.resolve_left hd)]
        exact ⟨_, rfl, fun h => absurd h hd, fun _ => rfl⟩
    obtain ⟨l, hl, hdown, hup⟩ := hl
    rw [hl] at hf
    obtain ⟨ho, hq, hown, htold⟩ := msSent_some_told hf
    rw [ho]
    refine ⟨hdown, hup, hq, hown hx, fun gid hgid => ?_⟩
    obtain ⟨k, hk, hk', hp, hn⟩ := htold gid hgid
    exact ⟨k, hk, hk', fun pg m h1 h2 h3 => hp pg m h1 h2 fun x hx => (h3 x hx).trans (Nat.le_succ _), hn⟩

end Sys2Proof.Machine
end

section
namespace Sys2Proof.Machine
variable {s t : State}

/-! ### Register writes (00 R6) -/

theorem exec_pcapWrite_eq (s : State) (v : W64) :
    let cap (x top : Nat) : Nat := if x = 0 then 100 else min x top
    exec (.pcapWrite v) s = .next (s.setCreg .hub 0x300000
      (BitVec.ofNat 64 (cap (fld v 0 16) 3600 + 2 ^ 16 * cap (fld v 16 16) 3000))) := rfl

section
variable {p : Page} {off : Nat} {r : RegRule}

theorem exec_registerWrite_host {v : W64} {fn : Nat} (hr : regRule p off = some r) (hl : r.level = 2) :
    exec (.registerWrite (.host fn) p off v) s = .next s := by
  rw [exec_registerWrite, execRegisterWrite]
  simp only [hr, hl, writerLevel]
  split <;> rfl

/-- A trap of a gang with a handler. -/
theorem State.takeTrap_handler {gid : Nat} {g : Gang} (hg : s.gangs.find? gid = some g) (hh : HasHandler g) (lanes : LaneMask)
    (cause : Nat) (pc addr : W64) :
    s.takeTrap gid lanes cause pc addr = (s.updGang gid fun g => g.enterHandler lanes cause pc addr).pruneMonitors := by
  simp only [State.takeTrap, hg]
  rw [if_neg (by simp [hh.1, hh.2])]

theorem exec_registerWrite_priv {v : W64} {gid : Nat} {g : Gang} {w : Wg} (hr : regRule p off = some r)
    (hg : Resident s gid g w) (hh : HasHandler g) (hl : r.level ≠ 0) (ha : s.absentAcc = none) :
    ∃ t h, exec (.registerWrite (.program gid) p off v) s = .next t ∧ t.cregs = s.cregs ∧ t.gangs.find? gid = some h
      ∧ h.handler = true ∧ h.trapcause = BitVec.ofNat 64 (Cause.priv + 256 * lowLane h.trapped)
      ∧ h.trappc = pcImage (g.pcOf (lowLane (if g.eligible = 0 then g.liveMask else g.eligible))) := by
  obtain ⟨hf, hw, hs⟩ := hg
  have hhere : s.here? gid = some (g, w) := by simp [State.here?, hf, hw, hs]
  have hx : exec (.registerWrite (.program gid) p off v) s = finish (s.privWrite gid) := by
    rw [exec_registerWrite, execRegisterWrite]
    simp only [hr, writerLevel, Nat.pos_of_ne_zero hl, if_true]
    rfl
  rw [hx]
  simp only [State.privWrite, hhere]
  rw [State.takeTrap_handler (s := s.takeFree.2) hf hh]
  refine ⟨_, _, finish_next ha, rfl, (SMap.find?_upd_self ..).trans (by rw [State.takeFree, hf]; rfl), rfl, rfl, rfl⟩

theorem exec_registerWrite_firmware {v : W64} (hr : regRule p off = some r) (hl : r.level = 2)
    (hk : s.lockOf p off (storedAs p off (v &&& r.mask)) = none)
    (hw : s.takesWrite p off (storedAs p off (v &&& r.mask)) = true) :
    exec (.registerWrite .firmware p off v) s = .next (s.writeReg p off (storedAs p off (v &&& r.mask))) := by
  rw [exec_registerWrite, execRegisterWrite]
  simp [hr, hl, hk, hw, writerLevel]
  all_goals nofun

/-- A value that acts from the next cycle on: a read of this cycle sees the one before. -/
theorem State.setCregNext_cregNow (s : State) (p : Page) (off : Nat) (x : W64) :
    (s.setCregNext p off x).cregNow p off = s.cregNow p off := by
  unfold State.setCregNext State.cregNow
  cases h : s.cregOld.find? (cregKey p off) <;> simp [h]

theorem State.writeReg_unit {x : W64} (hp : (∃ n, p = .core n) ∨ ∃ n, p = .slice n) :
    let next := (∃ c, p = .core c ∧ 0x100 ≤ off ∧ off < 0x140) ∨ ∃ c, p = .slice c ∧ 0x1000 ≤ off ∧ off < 0x1800
    (next → s.writeReg p off x = s.setCregNext p off x) ∧ (¬next → s.writeReg p off x = s.setCreg p off x) := by
  obtain ⟨n, rfl⟩ | ⟨n, rfl⟩ := hp
  · by_cases h : 0x100 ≤ off ∧ off < 0x140
    · simp [State.writeReg, h]
    · refine ⟨by simp [h], fun _ => ?_⟩
      simp only [State.writeReg, Bool.and_eq_true, decide_eq_true_eq, if_neg h]
  · by_cases h : 0x1000 ≤ off ∧ off < 0x1800
    · simp [State.writeReg, h]
    · refine ⟨by simp [h], fun _ => ?_⟩
      simp only [State.writeReg, Bool.and_eq_true, decide_eq_true_eq, if_neg h]

theorem exec_registerWrite_unit {v : W64} (hr : regRule p off = some r) (hl : r.level = 2)
    (hp : (∃ n, p = .core n) ∨ ∃ n, p = .slice n) (hk : s.lockOf p off (storedAs p off (v &&& r.mask)) = none)
    (hw : s.takesWrite p off (storedAs p off (v &&& r.mask)) = true) :
    let x := storedAs p off (v &&& r.mask)
    let next := (∃ c, p = .core c ∧ 0x100 ≤ off ∧ off < 0x140) ∨ ∃ c, p = .slice c ∧ 0x1000 ≤ off ∧ off < 0x1800
    ∃ t, exec (.registerWrite .firmware p off v) s = .next t ∧ t = { s.setCreg p off x with cregOld := t.cregOld }
      ∧ (next → t.cregNow p off = s.cregNow p off) ∧ (¬next → t = s.setCreg p off x) := by
  intro x next
  obtain ⟨h1, h2⟩ := State.writeReg_unit (s := s) (off := off) (x := x) hp
  refine ⟨_, exec_registerWrite_firmware hr hl hk hw, ?_, fun hn => ?_, h2⟩
  · by_cases hn : next
    · rw [h1 hn]; rfl
    · rw [h2 hn]
  · rw [h1 hn]
    exact s.setCregNext_cregNow p off x
end

end Sys2Proof.Machine
end

section
namespace Sys2Proof
variable {α : Type}
theorem SMap.map_fst_upd (m : SMap α) (k : Nat) (f : α → α) : (m.upd k f).map (·.1) = m.map (·.1) := by
  induction m with
  | nil => rfl
  | cons e m ih =>
    obtain ⟨j, v⟩ := e
    simp only [SMap.upd]
    split
    · rfl
    · simp [ih]
end Sys2Proof

namespace Sys2Proof.Machine
variable {s t u : State}

/-! ### Stores that reach their home (14 R282 to R284, 15 R301) -/

/-- No gang waits for a QPOP. -/
def NoPop (gs : SMap Gang) : Prop := ∀ j g, gs.find? j = some g → ∀ x ∈ g.waits, x.popping = false

theorem NoPop.upd {gs : SMap Gang} {gid : Nat} {f : Gang → Gang} (h : NoPop gs)
    (hf : ∀ g, (∀ x ∈ g.waits, x.popping = false) → ∀ x ∈ (f g).waits, x.popping = false) : NoPop (gs.upd gid f) := by
  intro j g hg
  rw [SMap.find?_upd] at hg
  split at hg
  · obtain ⟨g', hg', rfl⟩ := Option.map_eq_some_iff.mp hg
    exact hf g' (h _ _ hg')
  · exact h j g hg

theorem NoPop.del {gs : SMap Gang} (gid : Nat) (h : NoPop gs) : NoPop (gs.del gid) := by
  intro j g hg
  rw [SMap.find?_del] at hg
  split at hg
  · cases hg
  · exact h j g hg

/-- Stores reach their home: memory, its keys and its poison, the buffers and caches on the way, and who is woken. -/
structure Stores (s t : State) : Prop where
  frame : t = { s with
    mem := t.mem, memPoison := t.memPoison, lineKey := t.lineKey, monitors := t.monitors, gangs := t.gangs
    taskWake := t.taskWake, launches := t.launches, l2 := t.l2, l2clock := t.l2clock, useBw := t.useBw, wcb := t.wcb
    cpt := t.cpt, l1 := t.l1 }
  keys : t.gangs.map (·.1) = s.gangs.map (·.1)
  calm : NoPop s.gangs → NoPop t.gangs

theorem Stores.refl (s : State) : Stores s s := ⟨rfl, rfl, id⟩
theorem Stores.trans (h : Stores s t) (k : Stores t u) : Stores s u :=
  ⟨k.frame.trans (by rw [h.frame]), k.keys.trans h.keys, k.calm ∘ h.calm⟩
theorem Stores.ite {c : Prop} [Decidable c] (h : Stores s t) (k : Stores s u) : Stores s (if c then t else u) := by
  split <;> assumption
theorem Stores.foldl {α : Type} {f : State → α → State} (hf : ∀ s x, Stores s (f s x)) (xs : List α) :
    Stores s (xs.foldl f s) := by
  induction xs generalizing s with
  | nil => exact .refl s
  | cons x xs ih => exact (hf s x).trans ih

/-- A change that leaves the gangs alone. -/
theorem Stores.of_gangs (hf : t = { s with
    mem := t.mem, memPoison := t.memPoison, lineKey := t.lineKey, monitors := t.monitors, taskWake := t.taskWake
    launches := t.launches, l2 := t.l2, l2clock := t.l2clock, useBw := t.useBw, wcb := t.wcb, cpt := t.cpt, l1 := t.l1 }) :
    Stores s t := by
  have hg : t.gangs = s.gangs := by rw [hf]
  exact ⟨by rw [hf], by rw [hg], fun h => by rw [hg]; exact h⟩

theorem Wait.wake_popping (w : Wait) : w.wake.popping = w.popping := by
  cases h : w.kind <;> simp [Wait.wake, Wait.popping, h]

theorem State.wakeSleeper_stores (s : State) (x : Sleeper) : Stores s (s.wakeSleeper x) := by
  cases x with
  | task part id => exact .of_gangs rfl
  | gang gid wid =>
    refine ⟨rfl, SMap.map_fst_upd .., fun h => h.upd fun g hg x hx => ?_⟩
    obtain ⟨w, hw, rfl⟩ := List.mem_map.mp hx
    split
    · rw [Wait.wake_popping]; exact hg w hw
    · exact hg w hw

theorem State.wakeWrites_stores (s : State) (k : LocKind) (as : List Nat) : Stores s (s.wakeWrites k as) := by
  unfold State.wakeWrites
  exact Stores.trans (.of_gangs rfl) (Stores.foldl (fun s m => Stores.foldl State.wakeSleeper_stores _) _)

theorem State.rekeyLine_stores (s : State) (l tag : Nat) : Stores s (s.rekeyLine l tag) := by
  unfold State.rekeyLine
  split
  · exact .refl s
  · exact .of_gangs rfl

theorem State.homeWrite_stores (s : State) (key : Nat) (bs : List (Nat × Byte)) (gang cmd : Nat) :
    Stores s (s.homeWrite (.mem key) bs gang cmd) := by
  unfold State.homeWrite
  extract_lets addrs s1
  have h1 : Stores s s1 := (Stores.foldl (fun s l => s.rekeyLine_stores l _) _).trans (.of_gangs rfl)
  exact h1.trans (State.wakeWrites_stores ..)

theorem State.l2Access_stores (s : State) (part t pa : Nat) (byp wr : Bool) : Stores s (s.l2Access part t pa byp wr) := by
  unfold State.l2Access
  extract_lets sl ways s1 moved mask
  split
  · exact .of_gangs rfl
  · split <;> exact .of_gangs rfl

theorem State.l2Use_stores (s : State) (key pa : Nat) (byp wr : Bool) : Stores s (s.l2Use key pa byp wr) := by
  unfold State.l2Use
  split
  · exact .refl s
  · exact s.l2Access_stores ..

theorem State.walkUse_stores (s : State) (unit tenant : Nat) (x : W64) : Stores s (s.walkUse unit tenant x) := by
  unfold State.walkUse
  exact .ite (.refl s) (Stores.foldl (fun s pa => s.l2Access_stores ..) _)

theorem State.reportPoison_stores (s : State) (launch : Nat) (l : Loc) (n : Nat) : Stores s (s.reportPoison launch l n) := by
  unfold State.reportPoison
  split
  · extract_lets gs
    split
    · exact .refl s
    · exact .of_gangs rfl
  · exact .refl s

theorem State.dropL1Cluster_stores (s : State) (cl line : Nat) : Stores s (s.dropL1Cluster cl line) := by
  unfold State.dropL1Cluster
  generalize List.foldl _ _ _ = m
  exact .of_gangs rfl

theorem State.drainPoint_stores (s : State) (cl line : Nat) : Stores s (s.drainPoint cl line) := by
  unfold State.drainPoint
  split
  · exact .refl s
  · next b _ =>
    extract_lets s1
    have h1 : Stores s s1 := by
      unfold s1
      generalize s.cpt.put [] cl _ = m
      exact Stores.trans (.of_gangs rfl) (State.dropL1Cluster_stores ..)
    clear_value s1
    have h2 : Stores s1 (s1.l2Use b.key (128 * line) false true) := s1.l2Use_stores ..
    generalize s1.l2Use b.key (128 * line) false true = s2 at h2 ⊢
    exact (h1.trans h2).trans ((s2.homeWrite_stores ..).trans (Stores.foldl (fun s e => s.reportPoison_stores ..) _))

theorem State.drainToPoint_stores (s : State) (core line : Nat) : Stores s (s.drainToPoint core line) := by
  unfold State.drainToPoint
  split
  · exact .refl s
  · exact .of_gangs rfl

theorem State.drainLine_stores (s : State) (core line : Nat) : Stores s (s.drainLine core line) := by
  unfold State.drainLine
  split
  · exact (s.drainToPoint_stores ..).trans (State.drainPoint_stores ..)
  · exact .refl s

theorem State.drainScope_stores (s : State) (core scope : Nat) : Stores s (s.drainScope core scope) := by
  unfold State.drainScope
  split
  · exact .refl s
  · extract_lets s1
    have h1 : Stores s s1 := Stores.foldl (fun s l => s.drainToPoint_stores ..) _
    split
    · exact h1
    · exact h1.trans (Stores.foldl (fun s l => s.drainPoint_stores ..) _)

end Sys2Proof.Machine
end

section
namespace Sys2Proof.Machine
variable {s t : State}

/-! ### Bytes at their home (14 R282) -/

theorem addressed_concat (a : Nat) (bs : List Byte) (b : Byte) : addressed a (bs ++ [b]) = addressed a bs ++ [(a + bs.length, b)] := by
  simp [addressed, List.range_succ, List.zipWith_append]

/-- Bytes that are written at an address are read back. -/
theorem getD_foldl_addressed (a : Nat) (bs : List Byte) (m : SMap Byte) {i : Nat} (hi : i < bs.length) :
    ((addressed a bs).foldl (fun m b => m.put 0 b.1 b.2) m).getD (a + i) 0 = bs.getD i 0 := by
  induction bs using List.reverseRecOn with
  | nil => simp at hi
  | append_singleton bs b ih =>
    rw [addressed_concat, List.foldl_append, List.foldl_cons, List.foldl_nil, SMap.getD_put]
    by_cases h : i = bs.length
    · simp [h]
    · have hi' : i < bs.length := by simp at hi; omega
      rw [if_neg (by omega), ih hi']
      simp [List.getD_eq_getElem?_getD, List.getElem?_append_left hi']

theorem mem_addressed_fst {a : Nat} {bs : List Byte} {i : Nat} (hi : i < bs.length) : a + i ∈ (addressed a bs).map (·.1) := by
  induction bs using List.reverseRecOn with
  | nil => simp at hi
  | append_singleton bs b ih =>
    rw [addressed_concat, List.map_append, List.mem_append]
    by_cases h : i = bs.length
    · exact .inr (by simp [h])
    · exact .inl (ih (by simp at hi; omega))

theorem State.rekeyLine_lineKey (s : State) (l tag j : Nat) :
    (s.rekeyLine l tag).lineKey.getD j 0 = if j = l then tag else s.lineKey.getD j 0 := by
  unfold State.rekeyLine
  split
  · next h => split <;> simp_all
  · exact SMap.getD_put ..

theorem foldl_rekeyLine_lineKey (tag j : Nat) (ls : List Nat) :
    (ls.foldl (fun s l => s.rekeyLine l tag) s).lineKey.getD j 0 = if j ∈ ls then tag else s.lineKey.getD j 0 := by
  induction ls generalizing s with
  | nil => simp
  | cons l ls ih =>
    rw [List.foldl_cons, ih, State.rekeyLine_lineKey]
    by_cases h : j ∈ ls <;> by_cases h' : j = l <;> simp [h, h']

@[simp] theorem State.wakeSleeper_lineKey (s : State) (x : Sleeper) : (s.wakeSleeper x).lineKey = s.lineKey := by cases x <;> rfl

/-- A write to HBM is read back under the key it was made with. -/
theorem State.homeWrite_homeByte (s : State) (key a : Nat) (bs : List Byte) (gang cmd : Nat) {i : Nat} (hi : i < bs.length) :
    (s.homeWrite (.mem key) (addressed a bs) gang cmd).homeByte (.mem key) (a + i) = bs.getD i 0 := by
  have hk : (s.homeWrite (.mem key) (addressed a bs) gang cmd).keyTag key = s.keyTag key := by
    rw [(s.homeWrite_stores key _ gang cmd).frame]
    rfl
  have hl : (s.homeWrite (.mem key) (addressed a bs) gang cmd).lineKey.getD ((a + i) / 128) 0 = s.keyTag key := by
    simp only [State.homeWrite]
    rw [State.wakeWrites_keeps State.lineKey (by simp) (fun _ _ => rfl), foldl_rekeyLine_lineKey, if_pos]
    exact List.mem_eraseDups.mpr (List.mem_map_of_mem (mem_addressed_fst hi))
  simp only [State.homeByte, State.memByteAs, hk, hl, if_true]
  simp only [State.memByte, State.homeWrite, State.wakeWrites_mem]
  exact getD_foldl_addressed a bs _ hi

/-- Bytes of one line that the window writes to HBM. -/
theorem State.winWrite_line {tenant key : Nat} {va : W64} {bs : List Byte} {q : Loc} (hl : va.toNat % 128 + bs.length ≤ 128)
    (ht : s.translate 255 tenant .write va = .ok q) (hq : q.kind = .mem key) (hh : Here s q) :
    Stores s (s.winWrite tenant va bs)
      ∧ ∀ i, i < bs.length → (s.winWrite tenant va bs).homeByte q.kind (q.addr + i) = bs.getD i 0 := by
  obtain ⟨k, pa⟩ := q
  obtain rfl : k = .mem key := hq
  cases hbs : bs with
  | nil => exact ⟨.refl s, by simp⟩
  | cons b bs' =>
    rw [← hbs]
    have hlen : bs.length = bs'.length + 1 := by rw [hbs]; rfl
    have hmin : min bs.length (toLine va) = bs.length := by unfold toLine; omega
    have hrest : ∀ (s : State) f v bad, s.winPut tenant f v [] bad = s := by
      intro s f v bad
      cases f <;> simp [State.winPut]
    have hw : s.winWrite tenant va bs = ((s.walkUse 255 tenant va).engWrite tenant ⟨.mem key, pa⟩ bs fun _ => false) := by
      rw [State.winWrite, hlen, State.winPut, if_neg (by simp [hbs]), ht]
      simp only [hmin, List.take_length, List.drop_length, hrest, List.getD_nil]
    have h1 := s.walkUse_stores 255 tenant va
    generalize s.walkUse 255 tenant va = s1 at hw h1
    have hpa : (s1.dropL1Line (pa / 128)).checkPa pa = s1.dropL1Line (pa / 128) :=
      if_pos (show s1.paOk pa = true by rw [h1.frame]; exact hh)
    have hw2 : s.winWrite tenant va bs
        = ((s1.dropL1Line (pa / 128)).l2Use key pa false true).homeWrite (.mem key) (addressed pa bs) 0 0 := by
      rw [hw]
      simp only [State.engWrite, State.touchFor, State.touch, Bool.false_eq_true, if_false, List.foldl_fixed]
      rw [hpa]
    rw [hw2]
    refine ⟨?_, fun i hi => State.homeWrite_homeByte _ _ _ _ _ _ hi⟩
    exact (h1.trans (.of_gangs rfl)).trans ((State.l2Use_stores ..).trans (State.homeWrite_stores ..))

end Sys2Proof.Machine
end

section
namespace Sys2Proof.Machine
variable {s t : State}

/-! ### Display heads and encoders (17 R356) -/

/-- A present of which a part is still to be done stays as it is. -/
theorem State.tryTask_present {part id : Nat} {x : WinTask} {w : TaskW} (hx : s.tasks.find? id = some x)
    (hi : x.ins = .tpresent w) (hs : x.stage ≠ 0) : s.tryTask part id = s := by
  simp only [State.tryTask, hx, hi]
  split
  · rfl
  · rw [State.tryPresent, if_pos (by simpa using hs)]

/-- The first of two units does its part of a present. -/
theorem State.presentDone_first {p : Present} {x : WinTask} {w : TaskW} (hx : s.tasks.find? p.task = some x)
    (hi : x.ins = .tpresent w) (hs : x.stage = 3) {bit : Nat} (hb : bit < 2) :
    ∃ t, s.presentDone p bit = t ∧ t = { s with tasks := t.tasks }
      ∧ ∀ j, t.tasks.find? j = if j = p.task then some { x with stage := 2 - bit } else s.tasks.find? j := by
  have hbit : (if bitsOf 3 bit 1 = 1 then 3 - 2 ^ bit else 3) = 2 - bit := by
    obtain rfl | rfl : bit = 0 ∨ bit = 1 := by omega
    · decide
    · decide
  have hu : ∀ j, (s.updTask p.task fun t => { t with stage := if bitsOf t.stage bit 1 = 1 then t.stage - 2 ^ bit else t.stage
      }).tasks.find? j = if j = p.task then some { x with stage := 2 - bit } else s.tasks.find? j := by
    intro j
    simp only [State.updTask, SMap.find?_upd, hx, Option.map_some, hs, hbit]
  refine ⟨_, rfl, ?_⟩
  rw [State.presentDone, State.tryTask_present ((hu p.task).trans (if_pos rfl)) hi (by simp only; omega)]
  exact ⟨rfl, hu⟩

theorem exec_headFrameStart_pending {n : Nat} {p : Present} {x : WinTask} {w : TaskW} (hx : s.tasks.find? p.task = some x)
    (hi : x.ins = .tpresent w) (hs : x.stage = 3) (ha : s.absentAcc = none) (hp : (s.heads.getD n headZero).pending = some p) :
    let h := s.heads.getD n headZero
    ∃ t, exec (.headFrameStart n) s = .next t ∧ t = { s with heads := t.heads, tasks := t.tasks }
      ∧ t.heads.getD n headZero = { pending := h.waiting.head?, waiting := h.waiting.drop 1, latched := some p }
      ∧ ∀ j, t.tasks.find? j = if j = p.task then some { x with stage := 2 } else s.tasks.find? j := by
  intro h
  obtain ⟨t, ht, hf, htask⟩ := State.presentDone_first (s := { s with
    heads := s.heads.set n { pending := h.waiting.head?, waiting := h.waiting.drop 1, latched := some p } }) hx hi hs (bit := 0)
      (by omega)
  refine ⟨t, ?_, by rw [hf], ?_, htask⟩
  · rw [exec_headFrameStart, execHeadFrameStart]
    simp only [hp]
    rw [ht]
    exact finish_next (by rw [hf]; exact ha)
  · rw [hf]
    exact (SMap.getD_set ..).trans (if_pos rfl)

/-- An encoder has read a surface whole: the present's part is done, and the frame goes to the ring. -/
theorem exec_encoderFrameDone_reads {n : Nat} {p : Present} {rest : List Present} {x : WinTask} {w : TaskW} (bits : List Byte)
    (hx : s.tasks.find? p.task = some x) (hi : x.ins = .tpresent w) (hs : x.stage = 3) (hstop : s.partStopped p.part = false)
    (hb : (s.encs.getD n encZero).bits = none) (hq : (s.encs.getD n encZero).queue = p :: rest) :
    ∃ u : State, exec (.encoderFrameDone n bits) s = finish (u.appendFrame n p bits)
      ∧ u = { s with encs := s.encs.set n { s.encs.getD n encZero with queue := rest }, tasks := u.tasks }
      ∧ ∀ j, u.tasks.find? j = if j = p.task then some { x with stage := 1 } else s.tasks.find? j := by
  obtain ⟨t, ht, hf, htask⟩ := State.presentDone_first (s := { s with
    encs := s.encs.set n { s.encs.getD n encZero with queue := rest } }) hx hi hs (bit := 1) (by omega)
  refine ⟨t, ?_, hf, htask⟩
  rw [exec_encoderFrameDone, execEncoderFrameDone, ← ht]
  simp only [hb, hq, hstop, Bool.false_eq_true, if_false]

/-- Which addresses may be written is a matter of the translation alone. -/
theorem State.winMay_congr {tenant : Nat} (h : ∀ va, t.translate 255 tenant .write va = s.translate 255 tenant .write va) (va : W64)
    (n : Nat) : t.winMay tenant va n = s.winMay tenant va n := by
  induction n generalizing va with
  | zero => rfl
  | succ n ih => simp only [State.winMay, h, ih]

theorem frameBytes_length (bits : List Byte) : (frameBytes bits).length = 8 + bits.length := by
  have : ∀ n v, (leBytes n v).length = n := by
    intro n
    induction n with
    | zero => intro v; rfl
    | succ n ih => intro v; simp [leBytes, ih]
  rw [frameBytes, List.length_append, this]

/-- Without room in the ring the frame waits in the encoder. -/
theorem State.appendFrame_full {n : Nat} {p : Present} {bits : List Byte}
    (hr : (s.encs.getD n encZero).room (ringOf p.desc).2 (8 + bits.length) = false) :
    s.appendFrame n p bits = { s with encs := s.encs.set n { s.encs.getD n encZero with bits := some (p, bits) } } := by
  simp only [State.appendFrame, frameBytes_length, hr]
  rw [if_pos (by simp)]

/-- With room before the ring's end, in one line that the tenant may write, the frame is in memory. -/
theorem State.appendFrame_room {n key : Nat} {p : Present} {bits : List Byte} {q : Loc}
    (hr : (s.encs.getD n encZero).room (ringOf p.desc).2 (8 + bits.length) = true) (hh : s.encHeld n = false)
    (hw : (s.encs.getD n encZero).wpos + (8 + bits.length) ≤ (ringOf p.desc).2)
    (hl : (vaOf ((ringOf p.desc).1 + (s.encs.getD n encZero).wpos)).toNat % 128 + (8 + bits.length) ≤ 128)
    (ht : s.translate 255 p.tenant .write (vaOf ((ringOf p.desc).1 + (s.encs.getD n encZero).wpos)) = .ok q)
    (hq : q.kind = .mem key) (hhere : Here s q)
    (hm : s.winMay p.tenant (vaOf ((ringOf p.desc).1 + (s.encs.getD n encZero).wpos)) (8 + bits.length) = .ok ()) :
    ∃ u, Stores s u ∧ (∀ i, i < 8 + bits.length → u.homeByte q.kind (q.addr + i) = (frameBytes bits).getD i 0)
      ∧ s.appendFrame n p bits = { u with encs := u.encs.set n { s.encs.getD n encZero with
          wpos := ((s.encs.getD n encZero).wpos + (8 + bits.length)) % (ringOf p.desc).2, bits := none } } := by
  obtain ⟨hst, hby⟩ := State.winWrite_line (bs := frameBytes bits) (by rw [frameBytes_length]; exact hl) ht hq hhere
  refine ⟨_, hst, fun i hi => hby i (by rw [frameBytes_length]; exact hi), ?_⟩
  have hmin : min (8 + bits.length) ((ringOf p.desc).2 - (s.encs.getD n encZero).wpos) = 8 + bits.length := by omega
  have htake : (frameBytes bits).take (8 + bits.length) = frameBytes bits := by rw [← frameBytes_length, List.take_length]
  have hdrop : (frameBytes bits).drop (8 + bits.length) = [] := by rw [← frameBytes_length, List.drop_length]
  simp only [State.appendFrame, frameBytes_length, hr, hh]
  rw [if_neg (by simp)]
  simp only [hmin, hm, htake, hdrop, Nat.sub_self, State.winMay, State.winWrite, State.winPut, List.length_nil]

section
variable {n : Nat} {p : Present} {rest : List Present} {x : WinTask} {w : TaskW} {bits : List Byte}

theorem exec_encoderFrameDone_full (hx : s.tasks.find? p.task = some x) (hi : x.ins = .tpresent w) (hs : x.stage = 3)
    (ha : s.absentAcc = none) (hstop : s.partStopped p.part = false) (hb : (s.encs.getD n encZero).bits = none)
    (hq : (s.encs.getD n encZero).queue = p :: rest)
    (hr : (s.encs.getD n encZero).room (ringOf p.desc).2 (8 + bits.length) = false) :
    ∃ t, exec (.encoderFrameDone n bits) s = .next t ∧ t = { s with encs := t.encs, tasks := t.tasks }
      ∧ t.encs.getD n encZero = { s.encs.getD n encZero with queue := rest, bits := some (p, bits) }
      ∧ ∀ j, t.tasks.find? j = if j = p.task then some { x with stage := 1 } else s.tasks.find? j := by
  obtain ⟨u, he, hu, ht⟩ := exec_encoderFrameDone_reads bits hx hi hs hstop hb hq
  have hue : u.encs.getD n encZero = { s.encs.getD n encZero with queue := rest } := by
    rw [hu]
    exact (SMap.getD_set ..).trans (if_pos rfl)
  have hf := State.appendFrame_full (s := u) (n := n) (p := p) (bits := bits) (by rw [hue]; exact hr)
  rw [he, hf]
  refine ⟨_, finish_next ?_, ?_, ?_, ht⟩
  · rw [hu]; exact ha
  · rw [hu]
  · rw [hue]
    exact (SMap.getD_set ..).trans (if_pos rfl)

theorem exec_encoderFrameDone_room {q : Loc} {key : Nat} (hx : s.tasks.find? p.task = some x) (hi : x.ins = .tpresent w)
    (hs : x.stage = 3) (ha : s.absentAcc = none) (hstop : s.partStopped p.part = false)
    (hb : (s.encs.getD n encZero).bits = none) (hq : (s.encs.getD n encZero).queue = p :: rest)
    (hr : (s.encs.getD n encZero).room (ringOf p.desc).2 (8 + bits.length) = true) (hh : s.encHeld n = false)
    (hw : (s.encs.getD n encZero).wpos + (8 + bits.length) ≤ (ringOf p.desc).2)
    (hl : (vaOf ((ringOf p.desc).1 + (s.encs.getD n encZero).wpos)).toNat % 128 + (8 + bits.length) ≤ 128)
    (ht : s.translate 255 p.tenant .write (vaOf ((ringOf p.desc).1 + (s.encs.getD n encZero).wpos)) = .ok q)
    (hk : q.kind = .mem key) (hhere : Here s q)
    (hm : s.winMay p.tenant (vaOf ((ringOf p.desc).1 + (s.encs.getD n encZero).wpos)) (8 + bits.length) = .ok ()) :
    ∃ t, exec (.encoderFrameDone n bits) s = .next t
      ∧ t.encs.getD n encZero = { s.encs.getD n encZero with
          queue := rest, wpos := ((s.encs.getD n encZero).wpos + (8 + bits.length)) % (ringOf p.desc).2, bits := none }
      ∧ (∀ i, i < 8 + bits.length → t.homeByte q.kind (q.addr + i) = (leBytes 8 bits.length ++ bits).getD i 0)
      ∧ t.vmem = s.vmem ∧ t.gangs.map (·.1) = s.gangs.map (·.1) := by
  obtain ⟨u, he, hu, -⟩ := exec_encoderFrameDone_reads bits hx hi hs hstop hb hq
  have hue : u.encs.getD n encZero = { s.encs.getD n encZero with queue := rest } := by
    rw [hu]
    exact (SMap.getD_set ..).trans (if_pos rfl)
  obtain ⟨v, hv, hby, hf⟩ := State.appendFrame_room (s := u) (n := n) (p := p) (bits := bits) (q := q) (key := key)
    (by rw [hue]; exact hr) (by rw [hu]; exact hh) (by rw [hue]; exact hw) (by rw [hue]; exact hl)
    (by rw [hue, hu]; exact ht) hk (by rw [hu]; exact hhere)
    (by rw [hue, State.winMay_congr (s := s) fun va => by rw [hu]; rfl]; exact hm)
  rw [he, hf]
  refine ⟨_, finish_next ?_, ?_, hby, ?_, ?_⟩
  · rw [hv.frame, hu]; exact ha
  · rw [hue]
    exact (SMap.getD_set ..).trans (if_pos rfl)
  · rw [hv.frame, hu]
  · exact hv.keys.trans (by rw [hu])
end

theorem exec_encReadposWrite_idle {n : Nat} (pos : Nat) (hu : s.fwUp 6 = true) (hb : (s.encs.getD n encZero).bits = none)
    (ha : s.absentAcc = none) :
    exec (.encReadposWrite n pos) s = .next { s with encs := s.encs.set n { s.encs.getD n encZero with rpos := pos } } := by
  have hn : (SMap.getD (s.encs.set n { s.encs.getD n encZero with rpos := pos }) n encZero).bits = none := by
    rw [SMap.getD_set, if_pos rfl]
    exact hb
  rw [exec_encReadposWrite, execEncReadposWrite, if_neg (by simp [hu])]
  simp only [State.appendWaiting, hn]
  exact finish_next ha

end Sys2Proof.Machine
end

section
namespace Sys2Proof
variable {α : Type}

theorem SMap.find?_mapVals {β : Type} (m : SMap α) (f : α → β) (k : Nat) : (m.mapVals f).find? k = (m.find? k).map f := by
  induction m with
  | nil => rfl
  | cons e m ih =>
    obtain ⟨j, v⟩ := e
    simp only [SMap.mapVals, List.map_cons, SMap.find?]
    split
    · rfl
    · exact ih

theorem SMap.ne_of_find?_none {m : SMap α} {k : Nat} (h : m.find? k = none) {e : Nat × α} (he : e ∈ m) : e.1 ≠ k := by
  induction m with
  | nil => simp at he
  | cons x m ih =>
    obtain ⟨j, v⟩ := x
    simp only [SMap.find?] at h
    split at h
    · cases h
    · next hj =>
      obtain rfl | he := List.mem_cons.mp he
      · exact hj
      · exact ih h he

theorem SMap.ne_of_mem_del {m : SMap α} {k : Nat} {e : Nat × α} (he : e ∈ m.del k) : e.1 ≠ k :=
  SMap.ne_of_find?_none (by rw [SMap.find?_del, if_pos rfl]) he

end Sys2Proof

namespace Sys2Proof.Machine
variable {s t u : State}

/-! ### Partition and function-level resets (18 R363) -/

/-- A port stays idle where it is, and keeps its count of retired tasks. -/
def PortKept (p q : Port) : Prop := q.retired = p.retired ∧ (p.state = .idle → q.state = .idle)

theorem PortKept.refl (p : Port) : PortKept p p := ⟨rfl, id⟩

/-- Work is taken away: workgroups, tasks and commands only go, and no gang comes to wait for a QPOP. -/
structure Shrinks (s t : State) : Prop where
  absent : t.absentAcc = s.absentAcc
  boot : t.bootCode = s.bootCode
  stall : t.mailStall = s.mailStall
  wgs : ∀ e ∈ t.wgs, e ∈ s.wgs
  tasks : ∀ e ∈ t.tasks, e ∈ s.tasks
  engines : ∀ c, s.engines.find? c = none → t.engines.find? c = none
  ports : ∀ k, PortKept (s.ports.getD k portZero) (t.ports.getD k portZero)
  calm : NoPop t.gangs

theorem Shrinks.refl (h : NoPop s.gangs) : Shrinks s s := ⟨rfl, rfl, rfl, fun _ => id, fun _ => id, fun _ => id, fun _ => .refl _, h⟩
theorem Shrinks.trans (h : Shrinks s t) (k : Shrinks t u) : Shrinks s u where
  absent := k.absent.trans h.absent
  boot := k.boot.trans h.boot
  stall := k.stall.trans h.stall
  wgs e he := h.wgs e (k.wgs e he)
  tasks e he := h.tasks e (k.tasks e he)
  engines c hc := k.engines c (h.engines c hc)
  ports i := ⟨(k.ports i).1.trans (h.ports i).1, (k.ports i).2 ∘ (h.ports i).2⟩
  calm := k.calm
theorem Shrinks.foldl {α : Type} {f : State → α → State} (hf : ∀ s x, NoPop s.gangs → Shrinks s (f s x)) (xs : List α)
    (h : NoPop s.gangs) : Shrinks s (xs.foldl f s) := by
  induction xs generalizing s with
  | nil => exact .refl h
  | cons x xs ih => exact (hf s x h).trans (ih (hf s x h).calm)

/-- A change of other fields. -/
theorem Shrinks.record (hc : NoPop s.gangs)
    (h : (t.absentAcc, t.bootCode, t.mailStall, t.wgs, t.tasks, t.engines, t.ports, t.gangs)
      = (s.absentAcc, s.bootCode, s.mailStall, s.wgs, s.tasks, s.engines, s.ports, s.gangs)) : Shrinks s t := by
  simp only [Prod.mk.injEq] at h
  obtain ⟨ha, hb, hm, hw, ht, he, hp, hg⟩ := h
  exact ⟨ha, hb, hm, by rw [hw]; exact fun _ => id, by rw [ht]; exact fun _ => id, by rw [he]; exact fun _ => id,
    by rw [hp]; exact fun _ => .refl _, by rwa [hg]⟩

/-- What holds of each element after its turn, and stays while work is taken away, holds of them all in the end. -/
theorem Shrinks.foldl_each {α : Type} {f : State → α → State} {Q : α → State → Prop}
    (hf : ∀ s x, NoPop s.gangs → Shrinks s (f s x) ∧ Q x (f s x)) (hQ : ∀ x s t, Shrinks s t → Q x s → Q x t) (xs : List α)
    (h : NoPop s.gangs) : Shrinks s (xs.foldl f s) ∧ ∀ x ∈ xs, Q x (xs.foldl f s) := by
  induction xs generalizing s with
  | nil => exact ⟨.refl h, by simp⟩
  | cons x xs ih =>
    obtain ⟨h1, hx⟩ := hf s x h
    obtain ⟨h2, hxs⟩ := ih h1.calm
    exact ⟨h1.trans h2, List.forall_mem_cons.mpr ⟨hQ x _ _ h2 hx, hxs⟩⟩

theorem Stores.shrinks (h : Stores s t) (hc : NoPop s.gangs) : Shrinks s t := by
  refine ⟨by rw [h.frame], by rw [h.frame], by rw [h.frame], ?_, ?_, ?_, ?_, h.calm hc⟩ <;> rw [h.frame]
  · exact fun _ => id
  · exact fun _ => id
  · exact fun _ => id
  · exact fun _ => .refl _

theorem Talks.shrinks (h : Talks s t) (hc : NoPop s.gangs) : Shrinks s t := .record hc (by rw [h.frame])

/-- A gang that waits for no QPOP gives no index up. -/
theorem State.giveUpIndices_of_calm {g : Gang} (tenant : Nat) (h : ∀ x ∈ g.waits, x.popping = false) :
    s.giveUpIndices g tenant = s := by
  unfold State.giveUpIndices
  generalize g.waits = ws at h
  induction ws with
  | nil => rfl
  | cons w ws ih =>
    obtain ⟨hw, hws⟩ := List.forall_mem_cons.mp h
    rw [List.foldl_cons]
    have : ∀ {k : WaitKind}, w.kind = k → (match k with | .qpop .. => true | _ => false) = false := by
      rintro k rfl; exact hw
    split
    · next hk => cases this hk
    · exact ih hws

theorem State.keepCounts_shrinks (gid : Nat) (hc : NoPop s.gangs) : Shrinks s (s.keepCounts gid) := by
  unfold State.keepCounts
  split
  · exact .refl hc
  · exact ⟨rfl, rfl, rfl, fun _ => id, fun _ => id, fun c h => by rw [SMap.find?_mapVals, h]; rfl, fun _ => .refl _, hc⟩

theorem State.removeGang_shrinks (gid : Nat) (hc : NoPop s.gangs) : Shrinks s (s.removeGang gid) := by
  have h := s.keepCounts_shrinks gid hc
  exact ⟨h.absent, h.boot, h.stall, h.wgs, h.tasks, h.engines, h.ports, hc.del gid⟩

theorem State.countUnit_shrinks (lid : Nat) (binGang canc : Bool) (hc : NoPop s.gangs) : Shrinks s (s.countUnit lid binGang canc) := by
  unfold State.countUnit
  split
  · exact .refl hc
  · extract_lets s1
    split <;> exact .record hc rfl

theorem State.holdScr_shrinks (w : Wg) (hc : NoPop s.gangs) : Shrinks s (s.holdScr w) := by
  unfold State.holdScr
  split
  · exact .refl hc
  · extract_lets grp
    split <;> exact .record hc rfl

theorem State.endWg_shrinks (wid : Nat) (canc : Bool) (hc : NoPop s.gangs) : Shrinks s (s.endWg wid canc) := by
  unfold State.endWg
  split
  · exact .refl hc
  · next w _ =>
    extract_lets s1
    have h1 : Shrinks s s1 := by
      have hd := (s.drainScope_stores (coreOf w.pid) 3).shrinks hc
      have hu := State.countUnit_shrinks w.launch w.binGang (canc || w.cancelled) hd.calm
      exact (hd.trans hu).trans (State.holdScr_shrinks _ hu.calm)
    exact h1.trans ⟨rfl, rfl, rfl, fun e => SMap.mem_of_mem_del, fun _ => id, fun _ => id, fun _ => .refl _, h1.calm⟩

theorem State.endWg_gone (wid : Nat) (canc : Bool) : ∀ e ∈ (s.endWg wid canc).wgs, e.1 ≠ wid := by
  unfold State.endWg
  split
  · next h => exact fun e => SMap.ne_of_find?_none h
  · exact fun e => SMap.ne_of_mem_del

/-- The workgroup's gangs end first: nothing of theirs is given up. -/
theorem foldl_removeGang_shrinks {tenant : Nat} {gs : List (Nat × Gang)} (hg : ∀ e ∈ gs, ∀ x ∈ e.2.waits, x.popping = false)
    (hc : NoPop s.gangs) : Shrinks s (gs.foldl (fun s e => (s.giveUpIndices e.2 tenant).removeGang e.1) s) := by
  induction gs generalizing s with
  | nil => exact .refl hc
  | cons e gs ih =>
    obtain ⟨he, hgs⟩ := List.forall_mem_cons.mp hg
    rw [List.foldl_cons, State.giveUpIndices_of_calm tenant he]
    exact (s.removeGang_shrinks e.1 hc).trans (ih hgs (s.removeGang_shrinks e.1 hc).calm)

theorem State.wgGangs_calm (w : Wg) (hc : NoPop s.gangs) : ∀ e ∈ s.wgGangs w, ∀ x ∈ e.2.waits, x.popping = false := by
  intro e he
  obtain ⟨gid, -, he⟩ := List.mem_filterMap.mp he
  obtain ⟨g, hg, rfl⟩ := Option.map_eq_some_iff.mp he
  exact hc gid g hg

theorem State.dropWg_shrinks (wid : Nat) (canc : Bool) (hc : NoPop s.gangs) :
    Shrinks s (s.dropWg wid canc) ∧ ∀ e ∈ (s.dropWg wid canc).wgs, e.1 ≠ wid := by
  unfold State.dropWg
  split
  · next h => exact ⟨.refl hc, fun e => SMap.ne_of_find?_none h⟩
  · next w _ =>
    have h1 := foldl_removeGang_shrinks (tenant := w.tenant) (s.wgGangs_calm w hc) hc
    exact ⟨h1.trans (State.endWg_shrinks _ _ h1.calm), State.endWg_gone _ _⟩

theorem State.dropTask_shrinks (part id : Nat) (hc : NoPop s.gangs) :
    Shrinks s (s.dropTask part id) ∧ ∀ e ∈ (s.dropTask part id).tasks, e.1 ≠ id := by
  unfold State.dropTask
  split
  · next h => exact ⟨.refl hc, fun e => SMap.ne_of_find?_none h⟩
  · exact ⟨⟨rfl, rfl, rfl, fun _ h => h, fun _ => SMap.mem_of_mem_del, fun _ h => h, fun _ => .refl _, hc⟩,
      fun _ => SMap.ne_of_mem_del⟩

/-- The caches, buffers and units of a cluster are emptied. -/
def State.resetCluster (s : State) (c : Nat) : State :=
  let s' := (List.range 8).foldl (fun s i => s.drainScope (8 * c + i) 2) s
  { s' with engines := s'.engines.del c, starters := s'.starters.del c
            cparts := s'.cparts.filter fun e => clusterOf e.1 != c }

theorem State.resetCluster_shrinks (c : Nat) (hc : NoPop s.gangs) :
    Shrinks s (s.resetCluster c) ∧ (s.resetCluster c).engines.find? c = none := by
  have h1 : Shrinks s ((List.range 8).foldl (fun s i => s.drainScope (8 * c + i) 2) s) :=
    Shrinks.foldl (fun s i h => (s.drainScope_stores _ _).shrinks h) _ hc
  unfold State.resetCluster
  generalize List.foldl _ _ _ = u at h1 ⊢
  exact ⟨h1.trans ⟨rfl, rfl, rfl, fun _ h => h, fun _ h => h, fun d hd => by rw [SMap.find?_del, hd]; split <;> rfl,
    fun _ => .refl _, h1.calm⟩,
    by rw [SMap.find?_del, if_pos rfl]⟩

/-- A stream port is reset, and tells its group. -/
def State.resetPort (s : State) (part q : Nat) : State :=
  let p := s.port part q
  let s' := s.setPort part q (portReset p)
  if p.state = .idle then s' else s'.sendAbort part q

/-- A port that is written: the others stay. -/
theorem State.setPort_shrinks {part q : Nat} {p : Port} (hc : NoPop s.gangs) (hp : PortKept (s.port part q) p) :
    Shrinks s (s.setPort part q p) :=
  ⟨rfl, rfl, rfl, fun _ => id, fun _ => id, fun _ => id, fun k => by
    rw [State.setPort, SMap.getD_set]
    split
    · next h => rw [h]; exact hp
    · exact .refl _, hc⟩

theorem State.port_setPort_self (s : State) (part q : Nat) (p : Port) : (s.setPort part q p).port part q = p :=
  (SMap.getD_set ..).trans (if_pos rfl)

theorem State.resetPort_shrinks (part q : Nat) (hc : NoPop s.gangs) :
    Shrinks s (s.resetPort part q) ∧ ((s.resetPort part q).port part q).state = .idle := by
  unfold State.resetPort
  extract_lets p s'
  have h1 : Shrinks s s' := State.setPort_shrinks hc ⟨rfl, fun _ => rfl⟩
  have h2 : (s'.port part q).state = .idle := by rw [State.port_setPort_self]; rfl
  split
  · exact ⟨h1, h2⟩
  · have h3 := (s'.sendAbort_talks part q).shrinks h1.calm
    exact ⟨h1.trans h3, (h3.ports _).2 h2⟩

theorem State.unbindPort_shrinks (part q : Nat) (hc : NoPop s.gangs) : Shrinks s (s.unbindPort part q) := by
  unfold State.unbindPort
  extract_lets p
  split
  · exact .refl hc
  · next g _ =>
    extract_lets last s2
    have h1 : Shrinks s (s.setPort part q { p with
        spec := { p.spec with group := none }, arch := { p.arch with group := none }, dropped := false }) :=
      State.setPort_shrinks hc ⟨rfl, id⟩
    have h2 : Shrinks s s2 := h1.trans (.record h1.calm rfl)
    split
    · exact h2.trans ((s2.leaveGroup_talks g).shrinks h2.calm)
    · exact h2

theorem foldl_dropWg_shrinks (ws : List (Nat × Wg)) (hc : NoPop s.gangs) :
    Shrinks s (ws.foldl (fun s e => s.dropWg e.1 false) s)
      ∧ ∀ x ∈ ws, ∀ e ∈ (ws.foldl (fun s e => s.dropWg e.1 false) s).wgs, e.1 ≠ x.1 :=
  Shrinks.foldl_each (f := fun s (e : Nat × Wg) => s.dropWg e.1 false) (Q := fun x s => ∀ e ∈ s.wgs, e.1 ≠ x.1)
    (fun s x h => s.dropWg_shrinks x.1 false h) (fun _ _ _ h hx e he => hx e (h.wgs e he)) ws hc

theorem foldl_resetCluster_shrinks (cs : List Nat) (hc : NoPop s.gangs) :
    Shrinks s (cs.foldl State.resetCluster s) ∧ ∀ c ∈ cs, (cs.foldl State.resetCluster s).engines.find? c = none :=
  Shrinks.foldl_each (f := State.resetCluster) (Q := fun c s => s.engines.find? c = none)
    (fun s c h => s.resetCluster_shrinks c h) (fun c _ _ h hx => h.engines c hx) cs hc

theorem foldl_dropTask_shrinks (part : Nat) (ts : List (Nat × WinTask)) (hc : NoPop s.gangs) :
    Shrinks s (ts.foldl (fun s e => s.dropTask part e.1) s)
      ∧ ∀ x ∈ ts, ∀ e ∈ (ts.foldl (fun s e => s.dropTask part e.1) s).tasks, e.1 ≠ x.1 :=
  Shrinks.foldl_each (f := fun s (e : Nat × WinTask) => s.dropTask part e.1) (Q := fun x s => ∀ e ∈ s.tasks, e.1 ≠ x.1)
    (fun s x h => s.dropTask_shrinks part x.1 h) (fun _ _ _ h hx e he => hx e (h.tasks e he)) ts hc

theorem foldl_resetPort_shrinks (part : Nat) (qs : List Nat) (hc : NoPop s.gangs) :
    Shrinks s (qs.foldl (fun s q => s.resetPort part q) s)
      ∧ ∀ q ∈ qs, ((qs.foldl (fun s q => s.resetPort part q) s).port part q).state = .idle :=
  Shrinks.foldl_each (f := fun s q => s.resetPort part q) (Q := fun q s => (s.port part q).state = .idle)
    (fun s q h => s.resetPort_shrinks part q h) (fun _ _ _ h hx => (h.ports _).2 hx) qs hc

theorem State.tdiFail_shrinks (part : Nat) (hc : NoPop s.gangs) : Shrinks s (s.pruneMonitors.tdiFail part) := by
  unfold State.tdiFail
  split <;> exact .record hc rfl

/-- A partition's reset: its work is gone, and its ports are idle. -/
theorem State.resetPartition_shrinks (part : Nat) (hc : NoPop s.gangs) :
    Shrinks s (s.resetPartition part)
      ∧ (∀ e ∈ (s.resetPartition part).wgs, s.tenantPart e.2.tenant ≠ part)
      ∧ (∀ e ∈ (s.resetPartition part).tasks, e.2.part ≠ part)
      ∧ (∀ c ∈ s.partClusters part, (s.resetPartition part).engines.find? c = none)
      ∧ ∀ q, q < 4 → ((s.resetPartition part).port part q).state = .idle := by
  unfold State.resetPartition
  extract_lets mine s1 cls s2 ts pres s3 slices s4 s5 s6
  obtain ⟨h1, hw⟩ := foldl_dropWg_shrinks (s.wgs.filter fun e => mine e.2.tenant) hc
  change Shrinks s s1 at h1
  change ∀ x ∈ _, ∀ e ∈ s1.wgs, _ at hw
  obtain ⟨h2, he⟩ := foldl_resetCluster_shrinks cls h1.calm
  change Shrinks s1 s2 at h2
  change ∀ c ∈ cls, s2.engines.find? c = none at he
  clear_value s1
  obtain ⟨h3, ht⟩ := foldl_dropTask_shrinks part ts h2.calm
  change Shrinks s2 s3 at h3
  change ∀ x ∈ ts, ∀ e ∈ s3.tasks, e.1 ≠ x.1 at ht
  clear_value s2
  have h4 : Shrinks s3 s4 := .record h3.calm rfl
  clear_value s3
  obtain ⟨h5, hp⟩ := foldl_resetPort_shrinks part (List.range 4) h4.calm
  change Shrinks s4 s5 at h5
  change ∀ q ∈ List.range 4, (s5.port part q).state = .idle at hp
  clear_value s4
  have h6 : Shrinks s5 s6 := Shrinks.foldl (fun s q h => s.unbindPort_shrinks part q h) _ h5.calm
  clear_value s5
  have h7 := s6.tdiFail_shrinks part h6.calm
  clear_value s6
  have h37 := h4.trans (h5.trans (h6.trans h7))
  refine ⟨h1.trans (h2.trans (h3.trans h37)), fun e hm hpart => ?_, fun e hm hpart => ?_, fun c h => ?_, fun q hq => ?_⟩
  · have hm1 := (h2.trans (h3.trans h37)).wgs e hm
    exact hw e (List.mem_filter.mpr ⟨h1.wgs e hm1, decide_eq_true hpart⟩) e hm1 rfl
  · have hm3 := h37.tasks e hm
    exact ht e (List.mem_filter.mpr ⟨h3.tasks e hm3, decide_eq_true hpart⟩) e hm3 rfl
  · exact (h3.trans h37).engines c (he c h)
  · exact ((h6.trans h7).ports _).2 (hp q (List.mem_range.mpr hq))

end Sys2Proof.Machine
end

section
namespace Sys2Proof.Machine
variable {s t : State}

theorem exec_partitionReset_spec {part : Nat} (hp : part < 8) (hu : s.fwUp 3 = true) (ha : s.absentAcc = none)
    (hc : NoPop s.gangs) :
    ∃ t, exec (.partitionReset part) s = .next t
      ∧ (∀ q, q < 4 → (t.port part q).state = .idle ∧ (t.port part q).retired = (s.port part q).retired)
      ∧ (∀ e ∈ t.tasks, e.2.part ≠ part) ∧ (∀ e ∈ t.wgs, s.tenantPart e.2.tenant ≠ part)
      ∧ ∀ c ∈ s.partClusters part, t.engines.find? c = none := by
  obtain ⟨h, hw, ht, he, hi⟩ := s.resetPartition_shrinks part hc
  refine ⟨s.resetPartition part, ?_, fun q hq => ⟨hi q hq, (h.ports _).1⟩, ht, hw, he⟩
  rw [exec_partitionReset, execPartitionReset, if_neg (Nat.not_le.mpr hp), if_neg (by simp [hu])]
  exact finish_next (h.absent.trans ha)

/-! ### Every firmware core is held (18 R363) -/

theorem State.fwUp_of_held (h : s.fwCores = 0) (core : Nat) : s.fwUp core = false := by simp [State.fwUp, h]

/-- Where no core runs, what waits for one goes on waiting. -/
theorem State.resume_of_held (h : s.fwCores = 0) : s.resume.absentAcc = s.absentAcc := by
  unfold State.resume State.waitedReports State.waitedTerms
  simp only [h, State.fwUp_of_held, Bool.false_eq_true, if_false]
  rw [(State.waitedRequests_talks _).frame]

/-- A write that waits for room in a mailbox is taken, or waits on. -/
theorem foldl_unstall_frame (es : List (Nat × Nat × MailMsg)) : ∃ m w,
    es.foldl (fun (s : State) e =>
      let q := s.mail.getD e.2.1 []
      if q.length < 16 then { s with mail := s.mail.put [] e.2.1 (q ++ [e.2.2]), mailStall := s.mailStall.erase e } else s) s
      = { s with mail := m, mailStall := w } := by
  induction es generalizing s with
  | nil => exact ⟨_, _, rfl⟩
  | cons e es ih =>
    rw [List.foldl_cons]
    dsimp only
    split
    · obtain ⟨m, w, h⟩ := ih (s := { s with
        mail := s.mail.put [] e.2.1 (s.mail.getD e.2.1 [] ++ [e.2.2]), mailStall := s.mailStall.erase e })
      exact ⟨m, w, h⟩
    · exact ih

theorem State.unstall_of_held (h : s.fwCores = 0) : s.unstall.absentAcc = s.absentAcc := by
  obtain ⟨m, w, hf⟩ := foldl_unstall_frame (s := s) s.mailStall
  unfold State.unstall
  rw [hf]
  extract_lets s1
  split
  · exact State.resume_of_held (s := s1) h
  · rfl

theorem BitVec.and_not_allOnes (x : BitVec 8) : x &&& ~~~0xFF = 0 := by
  rw [show (~~~0xFF : BitVec 8) = 0 from by decide]
  exact BitVec.and_zero

theorem State.restartCores_absentAcc : (s.restartCores 0xFF).absentAcc = s.absentAcc :=
  State.unstall_of_held (BitVec.and_not_allOnes s.fwCores)

theorem State.restartCores_all (h : s.mailStall = []) :
    (s.restartCores 0xFF).fwCores = 0 ∧ (s.restartCores 0xFF).restarting = 0xFF := by
  rw [State.restartCores_of_none 0xFF h]
  exact ⟨BitVec.and_not_allOnes _, BitVec.or_allOnes⟩

/-! ### Keys are erased (18 R363, R372) -/

/-- What the drains before a key's change leave as it is. -/
structure Drains (s t : State) : Prop where
  absent : t.absentAcc = s.absentAcc
  cregs : t.cregs = s.cregs
  cores : t.fwCores = s.fwCores
  restarting : t.restarting = s.restarting

theorem Stores.drains (h : Stores s t) : Drains s t := ⟨by rw [h.frame], by rw [h.frame], by rw [h.frame], by rw [h.frame]⟩

theorem State.dropSlot_drains (s : State) (slot : Nat) : Drains s (s.dropSlot slot) := by
  unfold State.dropSlot
  extract_lets s1 s2
  have h1 : Stores s s1 := Stores.foldl (fun s core => Stores.foldl (fun s (b : Nat × BufLine) => s.drainLine_stores core b.1) _) _
  have h2 : Stores s1 s2 := Stores.foldl (fun s cl => Stores.foldl (fun s (b : Nat × BufLine) => s.drainPoint_stores cl b.1) _) _
  obtain ⟨ha, hr, hc, hf⟩ := (h1.trans h2).drains
  exact ⟨ha, hr, hc, hf⟩

theorem foldl_dropSlot_drains (ks : List Nat) : Drains s (ks.foldl (fun s k => s.dropSlot k) s) := by
  induction ks generalizing s with
  | nil => exact ⟨rfl, rfl, rfl, rfl⟩
  | cons k ks ih =>
    obtain ⟨ha, hr, hc, hf⟩ := s.dropSlot_drains k
    obtain ⟨ia, ir, ic, jf⟩ := ih (s := s.dropSlot k)
    exact ⟨ia.trans ha, ir.trans hr, ic.trans hc, jf.trans hf⟩

/-- The key slots of a list, written with 0. -/
theorem foldl_clearSlot_creg (ks : List Nat) (k : Nat) :
    (ks.foldl (fun s k => s.setCreg .hub (0x500000 + 8 * k) 0) s).creg .hub (0x500000 + 8 * k)
      = if k ∈ ks then 0 else s.creg .hub (0x500000 + 8 * k) := by
  induction ks generalizing s with
  | nil => rfl
  | cons j ks ih =>
    rw [List.foldl_cons, ih]
    by_cases hk : k = j
    · simp [hk]
    · rw [State.creg_setCreg_ne _ _ (by simp only [cregKey]; omega)]
      simp [hk]

theorem State.eraseKeys_spec (s : State) :
    s.eraseKeys.absentAcc = s.absentAcc ∧ s.eraseKeys.fwCores = s.fwCores ∧ s.eraseKeys.restarting = s.restarting
      ∧ s.eraseKeys.keyMat = [] ∧ s.eraseKeys.chans = [] ∧ s.eraseKeys.ideKeys = []
      ∧ ∀ k, k < 2048 → s.eraseKeys.keyKind k = 0 := by
  unfold State.eraseKeys
  extract_lets ks s1
  obtain ⟨ha, hr, hc, hf⟩ : Drains s s1 := foldl_dropSlot_drains ks
  clear_value s1
  have hfr := foldl_setCreg_frame (s := { s1 with keyMat := [], chans := [], ideKeys := [] })
    (fun _ => .hub) (fun k => 0x500000 + 8 * k) (fun _ _ => 0) ks
  refine ⟨by rw [hfr]; exact ha, by rw [hfr]; exact hc, by rw [hfr]; exact hf,
    by rw [hfr], by rw [hfr], by rw [hfr], fun k hk => ?_⟩
  rw [State.keyKind, foldl_clearSlot_creg]
  split
  · decide
  · next hn =>
    have h0 : s.keyKind k = 0 := by
      by_contra h
      exact hn (List.mem_filter.mpr ⟨List.mem_range.mpr hk, by simp [h]⟩)
    rw [State.keyKind, State.creg, ← hr] at h0
    exact h0

theorem foldl_resetPartition_shrinks (ps : List Nat) (hc : NoPop s.gangs) :
    Shrinks s (ps.foldl (fun s p => s.resetPartition p) s) :=
  Shrinks.foldl (fun s p h => (s.resetPartition_shrinks p h).1) ps hc

theorem exec_functionLevelReset_spec (ha : s.absentAcc = none) (hc : NoPop s.gangs) :
    ∃ t, exec .functionLevelReset s = .next t ∧ t.keyMat = [] ∧ t.chans = [] ∧ t.ideKeys = []
      ∧ (s.bootCode = 0x80 → s.mailStall = [] → t.fwCores = 0 ∧ t.restarting = 0xFF) ∧ ∀ k, k < 2048 → t.keyKind k = 0 := by
  rw [exec_functionLevelReset, execFunctionLevelReset]
  have h1 := foldl_resetPartition_shrinks (List.range 8) hc
  generalize (List.range 8).foldl (fun s p => s.resetPartition p) s = s1 at h1 ⊢
  generalize hu : (if s1.bootCode = 0x80 then s1.restartCores 0xFF else s1) = u
  obtain ⟨ea, ec, ef, hk, hch, hi, hz⟩ := u.eraseKeys_spec
  have hua : u.absentAcc = none := by
    rw [← hu]
    split
    · exact State.restartCores_absentAcc.trans (h1.absent.trans ha)
    · exact h1.absent.trans ha
  refine ⟨u.eraseKeys, finish_next (ea.trans hua), hk, hch, hi, fun hb hm => ?_, hz⟩
  rw [ec, ef, ← hu, if_pos (h1.boot.trans hb)]
  exact State.restartCores_all (h1.stall.trans hm)

end Sys2Proof.Machine
end

section
namespace Sys2Proof.Machine
variable {s t : State}

theorem exec_powerUp_off (h : s.powered = false) : exec .powerUp s = .next s.fresh := by
  rw [exec_powerUp, execPowerUp, if_neg (by simp [h])]

theorem exec_coldReset_on (h : s.powered = true) : exec .coldReset s = .next s.fresh := by
  rw [exec_coldReset, execColdReset, if_pos h]

/-- The heartbeat of a core that runs. -/
theorem fwHeartbeat_of_up {core : Nat} (hc : core < 8) (hu : s.fwUp core = true) (ha : s.absentAcc = none)
    (h : exec (.fwHeartbeat core) s = .next t) :
    t.heart.getD core 0 = s.heart.getD core 0 + 1 ∧ t.fwCores = s.fwCores ∧ t.agenda = s.agenda
      ∧ t.deferred = s.deferred ∧ t.gangs = s.gangs ∧ t.mem = s.mem := by
  rw [exec_fwHeartbeat_up hc hu ha] at h
  obtain rfl := Host.Outcome.next.inj h
  exact ⟨(SMap.getD_put ..).trans (if_pos rfl), rfl, rfl, rfl, rfl, rfl⟩

/-- A message that finds room is appended to its mailbox. -/
theorem exec_mailboxWrite_room {core sender kind : Nat} {q : W32} {pl : List Byte} (hc : core < 8)
    (hs : sender = 8 ∨ sender < 8 ∧ s.fwUp sender = true) (hr : (s.mail.getD core []).length < 16) :
    let m : MailMsg := { sender := sender, kind := kind % 65536, seq := q, payload := pl.take 56 }
    ∃ t, exec (.mailboxWrite core sender kind q pl) s = .next t ∧ t = { s with mail := t.mail }
      ∧ ∀ j, t.mail.getD j [] = if j = core then s.mail.getD core [] ++ [m] else s.mail.getD j [] := by
  intro m
  rw [exec_mailboxWrite_live hc hs]
  exact ⟨_, if_pos hr, rfl, fun j => SMap.getD_put ..⟩

/-- Settles O52: each event's clause, from the lemma on that event. -/
theorem bootAndPowerEvents : Obligations.BootAndPowerEvents := by
  unfold Obligations.BootAndPowerEvents
  refine ⟨fun s => ⟨exec_powerUp_off, rfl, exec_coldReset_on, exec_bootctlGo_unset, exec_bootImageCheckDone_checking,
      exec_bootctlRestart_running, ?heartbeat, ?beats, ?resumes, ?mailbox, ?microcode⟩,
    fun s ha hc => ⟨fun part hp hu => exec_partitionReset_spec hp hu ha hc, exec_functionLevelReset_spec ha hc⟩,
    fun s e => ⟨exec_peakTick_spec e, exec_intervalBoundary_eq s, fun temps ha => exec_powerMsTick_spec e temps ha⟩,
    fun s c v hc => ⟨exec_clkpatWrite_enough hc, exec_slopeWrite_eq v hc⟩, exec_pcapWrite_eq,
    fun s b p off v r hr => ⟨?host, ?priv, ?unit⟩, ?display, fun s n pos hu hb ha => exec_encReadposWrite_idle pos hu hb ha⟩
  case heartbeat =>
    exact fun core hc ha t h => ⟨fun hu => fwHeartbeat_of_up hc hu ha h, fun hd hr hm ht => fwUp_of_released hc hd hr hm ht h⟩
  case beats => exact fun core hc hu ha => ⟨_, exec_fwHeartbeat_up hc hu ha⟩
  case resumes => exact fun core hc h0 hu hr ha ht _ _ hh => exec_fwHeartbeat_resumes hc h0 hu hr ha ht hh
  case mailbox =>
    exact fun core sender kind q pl hc hs => ⟨exec_mailboxWrite_room hc hs, exec_mailboxWrite_full hc hs⟩
  case microcode => exact fun part decls image hp hu ht hb => exec_microcodeLoad_ready hp hu ht hb
  case host =>
    rintro fn rfl hl
    exact exec_registerWrite_host hr hl
  case priv =>
    rintro gid g w rfl hg hh hl ha
    exact exec_registerWrite_priv hr hg hh hl ha
  case unit =>
    rintro rfl hl hp hk hw
    exact exec_registerWrite_unit hr hl (exists_or.mp hp) hk hw
  case display =>
    intro s n p rest x w hx _ _ hi hs ha
    refine ⟨fun hp => exec_headFrameStart_pending hx hi hs ha hp, fun bits hstop hb hq => ⟨?_, ?_⟩⟩
    · exact fun hr => exec_encoderFrameDone_full hx hi hs ha hstop hb hq hr
    · exact fun q key hr hh hw hl ht hk hhere hm => exec_encoderFrameDone_room hx hi hs ha hstop hb hq hr hh hw hl ht hk hhere hm

end Sys2Proof.Machine
end

/-! PROOFS. O60: what no step does to a gang (01 R12, 05 R123, R124, 06 R151). -/

section
namespace Sys2Proof

/-! ### Entries of a map in canonical form -/

theorem SMap.mem_of_find? {α : Type} {m : SMap α} {k : Nat} {v : α} (h : m.find? k = some v) : (k, v) ∈ m := by
  induction m with
  | nil => cases h
  | cons x m ih =>
    obtain ⟨j, u⟩ := x
    simp only [SMap.find?] at h
    split at h
    · next hj => cases h; exact hj ▸ List.mem_cons_self ..
    · exact List.mem_cons_of_mem _ (ih h)

theorem SMap.find?_of_mem {α : Type} {m : SMap α} (hm : m.wf = true) {k : Nat} {v : α} (h : (k, v) ∈ m) :
    m.find? k = some v := by
  suffices ∀ a, SMap.above a m = true → m.find? k = some v ∧ a ≤ k from (this 0 hm).1
  clear hm
  induction m with
  | nil => cases h
  | cons x m ih =>
    obtain ⟨j, u⟩ := x
    intro a ha
    simp only [SMap.above, Bool.and_eq_true, decide_eq_true_eq] at ha
    obtain ⟨hj, hm⟩ := ha
    rcases List.mem_cons.mp h with e | h
    · cases e; exact ⟨by simp [SMap.find?], hj⟩
    · obtain ⟨hf, hk⟩ := ih h (j + 1) hm
      exact ⟨by rw [SMap.find?, if_neg (by omega), hf], by omega⟩

theorem SMap.above_map {α β : Type} (f : Nat × α → β) (m : SMap α) (a : Nat) :
    SMap.above a (m.map fun e => (e.1, f e) : SMap β) = SMap.above a m := by
  induction m generalizing a with
  | nil => rfl
  | cons x m ih => exact congrArg (decide (a ≤ x.1) && ·) (ih (x.1 + 1))

theorem SMap.wf_mapVals {α β : Type} {m : SMap α} (f : α → β) (h : m.wf = true) : (m.mapVals f).wf = true :=
  (SMap.above_map (fun e => f e.2) m 0).trans h

theorem SMap.above_upd {α : Type} (m : SMap α) (k : Nat) (f : α → α) (a : Nat) :
    SMap.above a (m.upd k f) = SMap.above a m := by
  induction m generalizing a with
  | nil => rfl
  | cons x m ih =>
    simp only [SMap.upd]
    split
    · rfl
    · exact congrArg (decide (a ≤ x.1) && ·) (ih (x.1 + 1))

theorem SMap.wf_upd {α : Type} {m : SMap α} (k : Nat) (f : α → α) (h : m.wf = true) : (m.upd k f).wf = true :=
  (SMap.above_upd m k f 0).trans h

end Sys2Proof

namespace Sys2Proof.Machine

/-! ### What a gang keeps -/

/-- The lane status that a gang's may become: no lane becomes live, and an exited lane stays exited (01 R12). -/
def StatusKeeps (a b : BitVec 64) : Prop :=
  ∀ l, l < 32 → ((b.extractLsb' (2 * l) 2).toNat = 1 → (a.extractLsb' (2 * l) 2).toNat = 1)
    ∧ ((a.extractLsb' (2 * l) 2).toNat = 2 → (b.extractLsb' (2 * l) 2).toNat = 2)

theorem StatusKeeps.refl (a : BitVec 64) : StatusKeeps a a := fun _ _ => ⟨id, id⟩
theorem StatusKeeps.trans {a b c : BitVec 64} (x : StatusKeeps a b) (y : StatusKeeps b c) : StatusKeeps a c :=
  fun l hl => ⟨(x l hl).1 ∘ (y l hl).1, (y l hl).2 ∘ (x l hl).2⟩

/-- What a gang keeps, by its lane status, base, extended size and XCOUNT. -/
def Gang.KeepsAs (g : Gang) (status : BitVec 64) (base xlimit xcount : Nat) : Prop :=
  StatusKeeps g.status status ∧ base = g.base ∧ xlimit = g.xlimit ∧ xcount ≤ g.xcount

/-- Lane status, base and extended size are kept (05 R123), and XCOUNT does not rise. Every change of a gang but the grant
of a claim and the restore of a saved gang is of this kind. -/
def Gang.Keeps (g h : Gang) : Prop := g.KeepsAs h.status h.base h.xlimit h.xcount

/-- A record update that leaves status, base, extended size and XCOUNT alone. -/
theorem Gang.Keeps.frame {g h : Gang}
    (k : match h with | { status := st, base := b, xlimit := l, xcount := x, .. } => g.KeepsAs st b l x) : g.Keeps h := k

theorem Gang.keeps (g : Gang) : g.Keeps g := ⟨.refl _, rfl, rfl, Nat.le_refl _⟩

theorem Gang.Keeps.trans {g h k : Gang} (a : g.Keeps h) (b : h.Keeps k) : g.Keeps k := by
  obtain ⟨a1, a2, a3, a4⟩ := a
  obtain ⟨b1, b2, b3, b4⟩ := b
  exact ⟨a1.trans b1, b2.trans a2, b3.trans a3, b4.trans a4⟩

section
variable {g k : Gang}

theorem Gang.Keeps.ite {c : Prop} [Decidable c] {h : Gang} (a : g.Keeps h) (b : g.Keeps k) :
    g.Keeps (if c then h else k) := by
  split <;> assumption

/-- A fold over a gang whose every step keeps it. -/
theorem Gang.Keeps.foldl {α : Type} {f : Gang → α → Gang} {xs : List α} (h : g.Keeps k)
    (hf : ∀ k x, g.Keeps k → g.Keeps (f k x)) : g.Keeps (xs.foldl f k) := by
  induction xs generalizing k with
  | nil => exact h
  | cons x xs ih => exact ih (hf k x h)

end

/-- Extended entries that a gang's waiting claims ask for, together (05 R124). -/
def Gang.claimed (g : Gang) : Nat := (g.waits.map fun x => match x.kind with | .xclaim n _ => n | _ => 0).sum

/-- What a step keeps of a gang: as `Gang.Keeps`, but a granted claim may raise XCOUNT within the extended size where the
waiting claims fit in it together (log 72). -/
def Gang.Stepped (g h : Gang) : Prop :=
  StatusKeeps g.status h.status ∧ h.base = g.base ∧ h.xlimit = g.xlimit ∧
    (g.xcount + g.claimed ≤ g.xlimit → h.xcount ≤ h.xlimit)

theorem Gang.Stepped.keeps {g h k : Gang} (a : g.Stepped h) (b : h.Keeps k) : g.Stepped k := by
  obtain ⟨a1, a2, a3, a4⟩ := a
  obtain ⟨b1, b2, b3, b4⟩ := b
  exact ⟨a1.trans b1, b2.trans a2, b3.trans a3,
    fun hc => b3 ▸ b4.trans (a4 hc)⟩

theorem Gang.Keeps.stepped {g h : Gang} (a : g.Keeps h) : g.Stepped h := by
  obtain ⟨a1, a2, a3, a4⟩ := a
  exact ⟨a1, a2, a3, fun hc => by omega⟩

/-! ### What the gangs and workgroups of a state owe to an earlier one -/

/-- A gang that stands now was not there and has a number not given before, or has stepped from what it was; of a gang
whose number is `free` nothing more is said. -/
def GangFrom (s₀ : State) (free : Nat → Prop) (id : Nat) (g : Gang) : Prop :=
  s₀.nextGang ≤ id ∨ ∃ g₀, s₀.gangs.find? id = some g₀ ∧ (free id ∨ g₀.Stepped g)

/-- Gangs and workgroups stand once each, numbers of gangs are given in order, every gang has come from the earlier state,
and a workgroup lists gangs that it listed or whose numbers are new. -/
def UnitsFrom (s₀ : State) (free : Nat → Prop) (gangs : SMap Gang) (wgs : SMap Wg) (next : Nat) : Prop :=
  gangs.wf = true ∧ wgs.wf = true ∧ s₀.nextGang ≤ next ∧
  (∀ id g, gangs.find? id = some g → id < next ∧ GangFrom s₀ free id g) ∧
  ∀ wid w, wgs.find? wid = some w → ∀ id ∈ w.gangs, id < s₀.nextGang → ∃ v, s₀.wgs.find? wid = some v ∧ id ∈ v.gangs

/-- A state follows an earlier one as far as its gangs go. -/
def State.Follows (s s₀ : State) (free : Nat → Prop) : Prop := UnitsFrom s₀ free s.gangs s.wgs s.nextGang

/-- A meaning that goes on gives a state that follows. -/
def OutFollows (s₀ : State) (free : Nat → Prop) (o : Out) : Prop := ∀ t, o = .next t → t.Follows s₀ free

theorem State.unitsWf_iff {s : State} :
    s.unitsWf = true ↔ s.gangs.wf = true ∧ s.wgs.wf = true ∧ ∀ id g, s.gangs.find? id = some g → id < s.nextGang := by
  simp only [State.unitsWf, Bool.and_eq_true, and_assoc, List.all_eq_true, decide_eq_true_eq]
  refine and_congr_right fun hg => and_congr_right fun _ => ⟨fun h id g hf => h _ (SMap.mem_of_find? hf), fun h e he => ?_⟩
  exact h e.1 e.2 (SMap.find?_of_mem hg he)

section
variable {s₀ : State} {free : Nat → Prop} {s t : State}

/-! ### Rules -/

theorem State.Follows.refl (h : s.unitsWf = true) : s.Follows s free := by
  obtain ⟨hg, hw, hn⟩ := State.unitsWf_iff.mp h
  exact ⟨hg, hw, Nat.le_refl _, fun id g hf => ⟨hn id g hf, .inr ⟨g, hf, .inr g.keeps.stepped⟩⟩,
    fun wid w hf id hi _ => ⟨w, hf, hi⟩⟩

theorem State.Follows.unitsWf (h : s.Follows s₀ free) : s.unitsWf = true := by
  obtain ⟨hg, hw, _, hf, _⟩ := h
  exact State.unitsWf_iff.mpr ⟨hg, hw, fun id g e => (hf id g e).1⟩

/-- A record update that leaves gangs and workgroups alone. -/
theorem State.Follows.frame (h : match t with | { gangs := g, wgs := w, nextGang := n, .. } => UnitsFrom s₀ free g w n) :
    t.Follows s₀ free := h

theorem State.Follows.ite {c : Prop} [Decidable c] (hs : s.Follows s₀ free) (ht : t.Follows s₀ free) :
    (if c then s else t).Follows s₀ free := by
  split <;> assumption

theorem State.Follows.foldl {α : Type} {f : State → α → State} {xs : List α} (h : s.Follows s₀ free)
    (hf : ∀ s x, s.Follows s₀ free → (f s x).Follows s₀ free) : (xs.foldl f s).Follows s₀ free := by
  induction xs generalizing s with
  | nil => exact h
  | cons x xs ih => exact ih (hf s x h)

/-- A fold over a state and a value beside it. -/
theorem State.Follows.foldlFst {α β : Type} {f : State × β → α → State × β} {xs : List α} {p : State × β}
    (h : p.1.Follows s₀ free) (hf : ∀ p x, p.1.Follows s₀ free → (f p x).1.Follows s₀ free) :
    (xs.foldl f p).1.Follows s₀ free := by
  induction xs generalizing p with
  | nil => exact h
  | cons x xs ih => exact ih (hf p x h)

theorem State.Follows.of_fst {α : Type} {p : State × α} {x : α} (h : p.1.Follows s₀ free) (e : p = (s, x)) :
    s.Follows s₀ free := by
  subst e; exact h
theorem State.Follows.of_snd {α : Type} {p : α × State} {x : α} (h : p.2.Follows s₀ free) (e : p = (x, s)) :
    s.Follows s₀ free := by
  subst e; exact h

theorem State.Follows.next (h : s.Follows s₀ free) : OutFollows s₀ free (.next s) := by
  rintro t ⟨rfl⟩; exact h
theorem OutFollows.next (h : s.Follows s₀ free) : OutFollows s₀ free (.next s) := h.next
theorem OutFollows.fault {r : Fault} : OutFollows s₀ free (.fault r) := by
  intro t h; cases h
theorem OutFollows.refused {r : Refusal} : OutFollows s₀ free (.refused r) := by
  intro t h; cases h
theorem OutFollows.ite {c : Prop} [Decidable c] {o p : Out} (ho : OutFollows s₀ free o) (hp : OutFollows s₀ free p) :
    OutFollows s₀ free (if c then o else p) := by
  split <;> assumption
theorem State.Follows.finish (h : s.Follows s₀ free) : OutFollows s₀ free (finish s) := by
  unfold Machine.finish
  split
  · exact OutFollows.fault
  · exact h.next

/-! ### Changes of gangs -/

theorem GangFrom.keeps {id : Nat} {g h : Gang} (a : GangFrom s₀ free id g) (b : g.Keeps h) : GangFrom s₀ free id h :=
  a.imp_right fun ⟨g₀, hg, hf⟩ => ⟨g₀, hg, hf.imp_right (·.keeps b)⟩

/-- Other gangs, each of which keeps one that stands. -/
theorem State.Follows.withGangs {gs : SMap Gang} (h : s.Follows s₀ free) (hw : gs.wf = true)
    (hg : ∀ id g', gs.find? id = some g' → ∃ g, s.gangs.find? id = some g ∧ g.Keeps g') :
    UnitsFrom s₀ free gs s.wgs s.nextGang := by
  obtain ⟨_, h2, h3, h4, h5⟩ := h
  refine ⟨hw, h2, h3, fun id g' hf => ?_, h5⟩
  obtain ⟨g, hs, hk⟩ := hg id g' hf
  obtain ⟨hlt, hfrom⟩ := h4 id g hs
  exact ⟨hlt, hfrom.keeps hk⟩

theorem State.Follows.updGang {gid : Nat} {f : Gang → Gang} (h : s.Follows s₀ free)
    (hf : ∀ g : Gang, g.Keeps (f g)) : (s.updGang gid f).Follows s₀ free := by
  refine h.withGangs (SMap.wf_upd gid f h.1) fun id g' e => ?_
  simp only [State.updGang, SMap.find?_upd] at e
  split at e
  · next hi =>
    obtain ⟨g, hg, rfl⟩ := Option.map_eq_some_iff.mp e
    exact ⟨g, hi ▸ hg, hf g⟩
  · exact ⟨g', e, g'.keeps⟩

theorem State.Follows.mapGangs {f : Gang → Gang} (h : s.Follows s₀ free) (hf : ∀ g : Gang, g.Keeps (f g)) :
    UnitsFrom s₀ free (s.gangs.mapVals f) s.wgs s.nextGang := by
  refine h.withGangs (SMap.wf_mapVals f h.1) fun id g' e => ?_
  rw [SMap.find?_mapVals] at e
  obtain ⟨g, hg, rfl⟩ := Option.map_eq_some_iff.mp e
  exact ⟨g, hg, hf g⟩

/-- A fold that changes some gangs. -/
theorem State.Follows.updGangs {α : Type} {xs : List α} {k : α → Nat} {f : α → Gang → Gang} (h : s.Follows s₀ free)
    (hf : ∀ x g, Gang.Keeps g (f x g)) :
    UnitsFrom s₀ free (xs.foldl (fun gs x => gs.upd (k x) (f x)) s.gangs) s.wgs s.nextGang := by
  induction xs generalizing s with
  | nil => exact h
  | cons x xs ih => exact ih (h.updGang (hf x))

theorem State.Follows.delGang {gid : Nat} (h : s.Follows s₀ free) : UnitsFrom s₀ free (s.gangs.del gid) s.wgs s.nextGang := by
  refine h.withGangs (SMap.wf_del gid h.1) fun id g' e => ?_
  rw [SMap.find?_del] at e
  split at e
  · cases e
  · exact ⟨g', e, g'.keeps⟩

/-- A gang is written as it was in a state between, with a change. -/
theorem State.Follows.setGang {gid : Nat} {g g' : Gang} (h : t.Follows s₀ free) (hs : s.Follows s₀ free)
    (hg : s.gangs.find? gid = some g) (hn : s.nextGang ≤ t.nextGang) (hk : g.Keeps g') :
    (t.setGang gid g').Follows s₀ free := by
  obtain ⟨h1, h2, h3, h4, h5⟩ := h
  refine ⟨SMap.wf_set gid g' h1, h2, h3, fun id k e => ?_, h5⟩
  simp only [State.setGang, SMap.find?_set] at e
  split at e
  · next hi =>
    cases e
    obtain ⟨hlt, hfrom⟩ := hs.2.2.2.1 gid g hg
    exact ⟨hi ▸ hlt.trans_le hn, hi ▸ hfrom.keeps hk⟩
  · exact h4 id k e

/-! ### Changes of workgroups -/

/-- Other workgroups, each of which lists gangs that the one of its number listed. -/
theorem State.Follows.withWgs {ws : SMap Wg} (h : s.Follows s₀ free) (hw : ws.wf = true)
    (hg : ∀ id w', ws.find? id = some w' → ∃ w, s.wgs.find? id = some w ∧ w'.gangs ⊆ w.gangs) :
    UnitsFrom s₀ free s.gangs ws s.nextGang := by
  obtain ⟨h1, _, h3, h4, h5⟩ := h
  refine ⟨h1, hw, h3, h4, fun wid w' e id hi hlt => ?_⟩
  obtain ⟨w, hf, hsub⟩ := hg wid w' e
  exact h5 wid w hf id (hsub hi) hlt

theorem State.Follows.updWgSub {wid : Nat} {f : Wg → Wg} (h : s.Follows s₀ free) (hf : ∀ w, (f w).gangs ⊆ w.gangs) :
    (s.updWg wid f).Follows s₀ free := by
  refine h.withWgs (SMap.wf_upd wid f h.2.1) fun id w' e => ?_
  simp only [State.updWg, SMap.find?_upd] at e
  split at e
  · next hi =>
    obtain ⟨w, hw, rfl⟩ := Option.map_eq_some_iff.mp e
    exact ⟨w, hi ▸ hw, hf w⟩
  · exact ⟨w', e, List.Subset.refl _⟩

/-- A workgroup that keeps its list of gangs. -/
theorem State.Follows.updWg {wid : Nat} {f : Wg → Wg} (h : s.Follows s₀ free)
    (hf : ∀ w, (f w).gangs = w.gangs) : (s.updWg wid f).Follows s₀ free :=
  h.updWgSub fun w => hf w ▸ List.Subset.refl _

theorem State.Follows.delWg {wid : Nat} (h : s.Follows s₀ free) : UnitsFrom s₀ free s.gangs (s.wgs.del wid) s.nextGang := by
  refine h.withWgs (SMap.wf_del wid h.2.1) fun id w' e => ?_
  rw [SMap.find?_del] at e
  split at e
  · cases e
  · exact ⟨w', e, List.Subset.refl _⟩

end
end Sys2Proof.Machine
end

section
namespace Sys2Proof.Machine

/-! ### The operations over a gang keep it -/

/-- Bits of a two-bit field's mask or value, placed at bit 2l. -/
theorem getLsbD_field {x l i : Nat} (hx : x < 4) (hl : l < 32) :
    (BitVec.ofNat 64 (x * 2 ^ (2 * l))).getLsbD i = (decide (i / 2 = l) && x.testBit (i % 2)) := by
  rw [BitVec.getLsbD_ofNat, Nat.testBit_mul_two_pow]
  by_cases h : i / 2 = l
  · have h1 : i - 2 * l = i % 2 := by omega
    have h2 : i < 64 ∧ 2 * l ≤ i := by omega
    simp [h, h1, h2]
  · by_cases h1 : 2 * l ≤ i
    · have : x.testBit (i - 2 * l) = false :=
        Nat.testBit_lt_two_pow (hx.trans_le (show 2 ^ 2 ≤ 2 ^ (i - 2 * l) from Nat.pow_le_pow_right (by omega) (by omega)))
      simp [h, this]
    · simp [h, h1]

/-- A status field that is written reads what was written, and the other fields read as before. -/
theorem extract_setFld (st : BitVec 64) {x l k : Nat} (hx : x < 4) (hl : l < 32) :
    (setFld st (2 * l) 2 x).extractLsb' (2 * k) 2 = if k = l then BitVec.ofNat 2 x else st.extractLsb' (2 * k) 2 := by
  refine BitVec.eq_of_getLsbD_eq fun i hi => ?_
  have hd : (2 * k + i) / 2 = k ∧ (2 * k + i) % 2 = i := by omega
  have h3 : (3 : Nat).testBit i = true := by interval_cases i <;> rfl
  rw [setFld, Nat.mod_eq_of_lt (show x < 2 ^ 2 from hx)]
  simp only [BitVec.getLsbD_extractLsb', hi, decide_true, Bool.true_and, BitVec.getLsbD_or, BitVec.getLsbD_and,
    BitVec.getLsbD_not, getLsbD_field (show 2 ^ 2 - 1 < 4 by decide) hl, getLsbD_field hx hl, hd]
  by_cases h : k = l
  · simp [h, h3, hi, BitVec.getLsbD_ofNat, -BitVec.getLsbD_eq_getElem]
  · have : 2 * k + i < 64 ∨ st.getLsbD (2 * k + i) = false := (lt_or_ge _ _).imp_right (BitVec.getLsbD_of_ge st _)
    rcases this with h2 | h2 <;> simp [h, h2, hi]

theorem laneStatus_foldl_exit (ls : List Nat) (hls : ∀ l ∈ ls, l < 32) (k : Nat) (st : BitVec 64) :
    ((ls.foldl (fun st l => BitVec.ofNat 64 (setFld st (2 * l) 2 2).toNat) st).extractLsb' (2 * k) 2).toNat
      = if k ∈ ls then 2 else (st.extractLsb' (2 * k) 2).toNat := by
  induction ls generalizing st with
  | nil => rfl
  | cons l ls ih =>
    rw [List.foldl_cons, ih fun x hx => hls x (List.mem_cons_of_mem _ hx)]
    simp only [BitVec.ofNat_toNat, BitVec.setWidth_eq, List.mem_cons]
    rw [extract_setFld st (by decide) (hls l (List.mem_cons_self ..))]
    by_cases h : k = l <;> by_cases h2 : k ∈ ls <;> simp [h, h2]

/-- Lanes that become exited have status 2, and the others keep theirs (01 R12). -/
theorem Gang.laneStatus_exitLanes (g : Gang) (m : LaneMask) (l : Nat) :
    (g.exitLanes m).laneStatus l = if m.getLsbD l then 2 else g.laneStatus l := by
  refine (laneStatus_foldl_exit (lanesOf m) (fun x hx => lt_of_lane (mem_lanesOf.mp hx)) l g.status).trans ?_
  simp only [mem_lanesOf, Gang.laneStatus]
section
variable {g k : Gang}

theorem Gang.Keeps.exitLanes {m} (h : g.Keeps k) : g.Keeps (k.exitLanes m) := by
  refine h.trans ⟨fun l _ => ?_, rfl, rfl, Nat.le_refl _⟩
  have e := k.laneStatus_exitLanes m l
  simp only [Gang.laneStatus] at e
  rw [e]
  split <;> simp

theorem Gang.Keeps.setV64 {l r x} (h : g.Keeps k) : g.Keeps (k.setV64 l r x) := .frame h

theorem Gang.Keeps.setVw {w l r x} (h : g.Keeps k) : g.Keeps (k.setVw w l r x) := by
  unfold Gang.setVw
  exact .ite (.frame h) (.frame h)

theorem Gang.Keeps.setV {l r x} (h : g.Keeps k) : g.Keeps (k.setV l r x) := .frame h
theorem Gang.Keeps.setS {n x} (h : g.Keeps k) : g.Keeps (k.setS n x) := .frame h

theorem Gang.Keeps.setP {l i b} (h : g.Keeps k) : g.Keeps (k.setP l i b) := by
  unfold Gang.setP
  exact .ite h (.frame h)

theorem Gang.Keeps.retry (h : g.Keeps k) : g.Keeps k.retry := .frame h
theorem Gang.Keeps.setPc {m pc} (h : g.Keeps k) : g.Keeps (k.setPc m pc) := .frame h
theorem Gang.Keeps.freshAge {m} (h : g.Keeps k) : g.Keeps (k.freshAge m) := .frame h

theorem Gang.Keeps.mergeUnits {us} (h : g.Keeps k) : g.Keeps (k.mergeUnits us) := by
  unfold Gang.mergeUnits
  exact .ite h (.frame h)

theorem Gang.Keeps.freeDead (h : g.Keeps k) : g.Keeps k.freeDead := by
  unfold Gang.freeDead
  dsimp only
  split
  · exact h
  · exact .ite (.frame h) (.frame h)

theorem Gang.Keeps.releaseBar {p} (h : g.Keeps k) : g.Keeps (k.releaseBar p) := by
  unfold Gang.releaseBar
  exact .mergeUnits (.frame (Gang.Keeps.foldl h fun _ _ h => h.setPc))

theorem Gang.Keeps.advance {m} (h : g.Keeps k) : g.Keeps (k.advance m) := .freshAge (.foldl h fun _ _ h => h.setPc)

theorem Gang.Keeps.dropProducer {id} (h : g.Keeps k) : g.Keeps (k.dropProducer id) := .frame h

theorem Gang.Keeps.dropSleepers (h : g.Keeps k) : g.Keeps k.dropSleepers := by
  unfold Gang.dropSleepers
  refine .frame (Gang.Keeps.foldl h fun _ _ h => ?_)
  split
  · exact h.dropProducer
  · exact h

theorem Gang.Keeps.issued {grp pc all} (h : g.Keeps k) : g.Keeps (k.issued grp pc all) :=
  .frame (Gang.Keeps.ite h.mergeUnits h)

theorem Gang.Keeps.writeDest {d} (h : g.Keeps k) : g.Keeps (k.writeDest d) := by
  unfold Gang.writeDest
  extract_lets k1
  have h1 : g.Keeps k1 := .ite (.frame h) (.frame h)
  exact .ite (.frame h1) h1

theorem Gang.Keeps.complete {id} (h : g.Keeps k) : g.Keeps (k.complete id) := by
  unfold Gang.complete
  split
  · exact h
  · exact .frame (Gang.Keeps.foldl h fun _ _ h => h.writeDest)

theorem Gang.Keeps.writeSpecial {n x} (h : g.Keeps k) : g.Keeps (k.writeSpecial n x) := by
  unfold Gang.writeSpecial
  extract_lets
  split <;> exact .frame h

theorem Gang.Keeps.dropQ {p} (h : g.Keeps k) : g.Keeps (k.dropQ p) := by
  unfold Gang.dropQ
  extract_lets ids k1
  have h1 : g.Keeps k1 := .frame h
  exact .frame h1

theorem Gang.Keeps.arrive {q pc ins lanes parts} (h : g.Keeps k) : g.Keeps (k.arrive q pc ins lanes parts) := by
  unfold Gang.arrive
  extract_lets k1
  split <;> exact .frame h

theorem Gang.Keeps.passQ {o} (h : g.Keeps k) : g.Keeps (k.passQ o) := by
  unfold Gang.passQ
  exact h.dropQ.setPc.freshAge

theorem Gang.Keeps.endQ {o word pass} (h : g.Keeps k) : g.Keeps (k.endQ o word pass) := by
  unfold Gang.endQ
  extract_lets k1
  have h1 : g.Keeps k1 := by
    unfold k1
    split
    · exact Gang.Keeps.complete (.frame h)
    · exact h
  exact .ite h1.passQ h1.dropQ.freshAge

theorem Gang.Keeps.unqueue (h : g.Keeps k) : g.Keeps k.unqueue := .foldl h fun _ _ h => h.endQ

theorem Gang.Keeps.settle (h : g.Keeps k) : g.Keeps k.settle := by
  unfold Gang.settle
  extract_lets keep k1
  have h1 : g.Keeps k1 := h.dropQ
  exact .frame h1

end
end Sys2Proof.Machine
end

section
namespace Sys2Proof.Machine
variable {s₀ : State} {free : Nat → Prop} {s : State}

/-! ### Shared operations -/

theorem State.Follows.updLaunch {l f} (h : s.Follows s₀ free) : (s.updLaunch l f).Follows s₀ free := .frame h
theorem State.Follows.defer (h : s.Follows s₀ free) : s.defer.Follows s₀ free := .frame h
theorem State.Follows.takeFree (h : s.Follows s₀ free) : s.takeFree.2.Follows s₀ free := .frame h
theorem State.Follows.setCreg {p off v} (h : s.Follows s₀ free) : (s.setCreg p off v).Follows s₀ free := .frame h
theorem State.Follows.setCpart {pid p} (h : s.Follows s₀ free) : (s.setCpart pid p).Follows s₀ free := .frame h
theorem State.Follows.setCregNext {p off v} (h : s.Follows s₀ free) : (s.setCregNext p off v).Follows s₀ free := .frame h

theorem State.Follows.checkPa {pa} (h : s.Follows s₀ free) : (s.checkPa pa).Follows s₀ free := by
  unfold State.checkPa
  exact .ite h (.frame h)

theorem State.Follows.dispatchFlit {o} (h : s.Follows s₀ free) : (s.dispatchFlit o).Follows s₀ free := by
  unfold State.dispatchFlit
  split
  · exact h
  · exact .frame h

theorem State.Follows.fabricSend {vc dst bytes x} (h : s.Follows s₀ free) :
    (s.fabricSend vc dst bytes x).Follows s₀ free := h.dispatchFlit
theorem State.Follows.peerSend {e a acc gang cmd} (h : s.Follows s₀ free) :
    (s.peerSend e a acc gang cmd).Follows s₀ free := h.fabricSend

theorem State.Follows.wakeSleeper {w} (h : s.Follows s₀ free) : (s.wakeSleeper w).Follows s₀ free := by
  unfold State.wakeSleeper
  split
  · exact h.updGang fun g => .frame g.keeps
  · exact .frame h

theorem State.Follows.wakeWrites {k addrs} (h : s.Follows s₀ free) : (s.wakeWrites k addrs).Follows s₀ free := by
  unfold State.wakeWrites
  exact .foldl (.frame h) fun _ _ h => h.foldl fun _ _ h => h.wakeSleeper

theorem State.Follows.rekeyLine {l tag} (h : s.Follows s₀ free) : (s.rekeyLine l tag).Follows s₀ free := by
  unfold State.rekeyLine
  exact .ite h (.frame h)

theorem State.Follows.homeWrite {k bs gang cmd} (h : s.Follows s₀ free) : (s.homeWrite k bs gang cmd).Follows s₀ free := by
  unfold State.homeWrite
  extract_lets addrs s1
  suffices h1 : s1.Follows s₀ free from h1.wakeWrites
  unfold s1
  split
  · exact .frame (State.Follows.foldl h fun _ _ h => h.rekeyLine)
  · exact h.updWg fun _ => rfl
  · exact .frame h
  · exact h.peerSend

theorem State.Follows.poisonAt {k a} (h : s.Follows s₀ free) : (s.poisonAt k a).Follows s₀ free := by
  unfold State.poisonAt
  split
  · exact .frame h
  · exact h.updWg fun _ => rfl
  · exact .frame h
  · exact h

theorem State.Follows.reportPoison {launch l n} (h : s.Follows s₀ free) : (s.reportPoison launch l n).Follows s₀ free := by
  unfold State.reportPoison
  split
  · exact .ite h h.updLaunch
  · exact h

theorem State.Follows.l2Access {part t pa byp wr} (h : s.Follows s₀ free) :
    (s.l2Access part t pa byp wr).Follows s₀ free := by
  unfold State.l2Access
  extract_lets
  split
  · exact .frame h
  · split <;> exact .frame h

theorem State.Follows.l2Use {key pa byp wr} (h : s.Follows s₀ free) : (s.l2Use key pa byp wr).Follows s₀ free := by
  unfold State.l2Use
  exact .ite h h.l2Access

theorem State.Follows.walkUse {unit tenant x} (h : s.Follows s₀ free) : (s.walkUse unit tenant x).Follows s₀ free := by
  unfold State.walkUse
  exact .ite h (h.foldl fun _ _ h => h.l2Access)

theorem State.Follows.walksUse {unit tenant xs} (h : s.Follows s₀ free) : (s.walksUse unit tenant xs).Follows s₀ free :=
  h.foldl fun _ _ h => h.walkUse

theorem State.Follows.dropL1Cluster {cl line} (h : s.Follows s₀ free) : (s.dropL1Cluster cl line).Follows s₀ free := .frame h

theorem State.Follows.drainPoint {cl line} (h : s.Follows s₀ free) : (s.drainPoint cl line).Follows s₀ free := by
  unfold State.drainPoint
  split
  · exact h
  · exact .foldl (.homeWrite (.l2Use (.dropL1Cluster (.frame h)))) fun _ _ h => h.reportPoison

theorem State.Follows.drainToPoint {core line} (h : s.Follows s₀ free) : (s.drainToPoint core line).Follows s₀ free := by
  unfold State.drainToPoint
  split
  · exact h
  · exact .frame h

theorem State.Follows.drainLine {core line} (h : s.Follows s₀ free) : (s.drainLine core line).Follows s₀ free := by
  unfold State.drainLine
  exact .ite h.drainToPoint.drainPoint h

theorem State.Follows.drainScope {core scope} (h : s.Follows s₀ free) : (s.drainScope core scope).Follows s₀ free := by
  unfold State.drainScope
  split
  · exact h
  · extract_lets s1
    have h1 : s1.Follows s₀ free := h.foldl fun _ _ h => h.drainToPoint
    exact .ite h1 (h1.foldl fun _ _ h => h.drainPoint)

theorem State.Follows.drainForStore {core line} (h : s.Follows s₀ free) : (s.drainForStore core line).Follows s₀ free :=
  h.drainLine.drainPoint

theorem State.Follows.dropL1 {core line} (h : s.Follows s₀ free) : (s.dropL1 core line).Follows s₀ free := .frame h

theorem State.Follows.storeBytes {core p bs} (h : s.Follows s₀ free) : (s.storeBytes core p bs).Follows s₀ free := by
  unfold State.storeBytes
  split
  · exact h.drainForStore.dropL1.homeWrite
  · exact h.homeWrite

theorem State.Follows.strStore {core p key tenant launch bs} (h : s.Follows s₀ free) :
    (s.strStore core p key tenant launch bs).Follows s₀ free := by
  unfold State.strStore
  extract_lets line s1
  have h1 : s1.Follows s₀ free := by
    unfold s1
    split
    · exact h
    · split
      · exact h.drainLine
      · exact h
  exact .dropL1 (.frame h1)

theorem State.Follows.pruneMonitors (h : s.Follows s₀ free) : s.pruneMonitors.Follows s₀ free := .frame h
theorem State.Follows.enqueueStarter {cl es} (h : s.Follows s₀ free) : (s.enqueueStarter cl es).Follows s₀ free := .frame h

theorem State.Follows.releaseGangs {cl gids p} (h : s.Follows s₀ free) : (s.releaseGangs cl gids p).Follows s₀ free := by
  unfold State.releaseGangs
  exact (h.foldl fun _ _ h => h.updGang fun g => g.keeps.releaseBar).enqueueStarter.pruneMonitors

theorem State.Follows.checkBar {wid b} (h : s.Follows s₀ free) : (s.checkBar wid b).Follows s₀ free := by
  unfold State.checkBar
  split
  · exact h
  · exact .ite (.frame (State.Follows.releaseGangs (h.updWg fun _ => rfl))) (h.updWg fun _ => rfl)

theorem State.Follows.acquireCore {core scope} (h : s.Follows s₀ free) : (s.acquireCore core scope).Follows s₀ free := by
  unfold State.acquireCore
  exact .ite h (.frame h)

theorem State.Follows.checkBarc {wid b engineIdle} (h : s.Follows s₀ free) :
    (s.checkBarc wid b engineIdle).Follows s₀ free := by
  unfold State.checkBarc
  split
  · exact h
  · extract_lets ms ok s1 s2 s3
    have h1 : s1.Follows s₀ free := h.foldl fun _ _ h => h.drainScope
    have h2 : s2.Follows s₀ free := h1.foldl fun _ _ h => h.acquireCore
    have h3 : s3.Follows s₀ free := h2.foldl fun _ _ h => h.updWg fun v => by by_cases hb : b = 4 <;> simp [hb]
    exact .ite (.frame h3.releaseGangs) (h.foldl fun _ _ h => h.updWg fun v => by by_cases hb : b = 4 <;> simp [hb])

theorem State.Follows.checkBarg {lid b} (h : s.Follows s₀ free) : (s.checkBarg lid b).Follows s₀ free := by
  unfold State.checkBarg
  split
  · exact h
  · extract_lets ws arrivedWg r s1 s2 cls k order gidsOf s3 s4
    have h1 : s1.Follows s₀ free := h.foldl fun _ _ h => h.drainScope
    have h2 : s2.Follows s₀ free := h1.foldl fun _ _ h => h.acquireCore
    have h3 : s3.Follows s₀ free := h2.foldl fun _ _ h => h.foldl fun _ _ h => h.updGang fun g => g.keeps.releaseBar
    have h4 : s4.Follows s₀ free := h3.foldl fun _ _ h => h.enqueueStarter
    exact .ite (.pruneMonitors (.frame h4)) h.updLaunch

theorem State.Follows.signal {tenant off} (h : s.Follows s₀ free) : (s.signal tenant off).Follows s₀ free := by
  unfold State.signal
  exact .ite h (.frame h)

theorem State.Follows.writeShadow {q head hold} (h : s.Follows s₀ free) : (s.writeShadow q head hold).Follows s₀ free := by
  unfold State.writeShadow
  extract_lets
  split
  · extract_lets
    refine .homeWrite ?_
    split
    · exact h.walkUse.checkPa.l2Use
    · exact h.walkUse.checkPa
  · exact .ite (.frame h) h
  · exact h

theorem State.Follows.advanceHead {q} (h : s.Follows s₀ free) : (s.advanceHead q).Follows s₀ free := by
  unfold State.advanceHead
  exact .ite h (.writeShadow (.frame h))

theorem State.Follows.markCopied {q t} (h : s.Follows s₀ free) : (s.markCopied q t).Follows s₀ free := by
  unfold State.markCopied
  exact .advanceHead (.frame h)

theorem State.Follows.ringWrite {pid k r} (h : s.Follows s₀ free) : (s.ringWrite pid k r).Follows s₀ free := by
  unfold State.ringWrite
  exact h.checkPa.homeWrite

theorem State.Follows.setRing {pid count head} (h : s.Follows s₀ free) :
    (s.setRing pid count head).Follows s₀ free := h.setCreg

theorem State.Follows.placeRec {pid r} (h : s.Follows s₀ free) : (s.placeRec pid r).2.Follows s₀ free := by
  unfold State.placeRec
  split
  · exact h.setCpart
  · extract_lets
    split
    · exact h.ringWrite.setRing
    · exact h.setCreg

theorem State.Follows.refill {pid n} (h : s.Follows s₀ free) : (s.refill pid n).Follows s₀ free := by
  induction n generalizing s with
  | zero => exact h
  | succ n ih =>
    unfold State.refill
    extract_lets
    split
    · exact h
    · split
      · exact h
      · exact ih h.setCpart.setRing

theorem State.Follows.ringFilter {pid bad} (h : s.Follows s₀ free) : (s.ringFilter pid bad).Follows s₀ free := by
  unfold State.ringFilter
  extract_lets n keep s1
  have h1 : s1.Follows s₀ free := by
    unfold s1
    refine h.foldl fun _ _ h => ?_
    split
    · exact h.ringWrite
    · exact h
  exact .ite h h1.setRing

theorem State.Follows.dropRecords {lids} (h : s.Follows s₀ free) : (s.dropRecords lids).Follows s₀ free :=
  h.foldl fun _ _ h => h.setCpart.ringFilter.refill

theorem State.Follows.countUnit {lid binGang canc} (h : s.Follows s₀ free) :
    (s.countUnit lid binGang canc).Follows s₀ free := by
  unfold State.countUnit
  split
  · exact h
  · exact .ite h.updLaunch (.frame h)

theorem State.Follows.giveUpIndices {g tenant} (h : s.Follows s₀ free) : (s.giveUpIndices g tenant).Follows s₀ free := by
  unfold State.giveUpIndices
  refine h.foldl fun _ _ h => ?_
  split
  · exact h.markCopied.signal
  · exact h

theorem State.Follows.removeGang {gid} (h : s.Follows s₀ free) : (s.removeGang gid).Follows s₀ free := by
  unfold State.removeGang
  have e : s.keepCounts gid = { s with engines := (s.keepCounts gid).engines } := by
    unfold State.keepCounts
    split <;> rfl
  rw [e]
  exact .pruneMonitors (.frame h.delGang)

theorem State.Follows.holdScr {w} (h : s.Follows s₀ free) : (s.holdScr w).Follows s₀ free := by
  unfold State.holdScr
  exact .ite h (.ite (.frame h) (.frame h))

theorem State.Follows.endWg {wid canc} (h : s.Follows s₀ free) : (s.endWg wid canc).Follows s₀ free := by
  unfold State.endWg
  split
  · exact h
  · exact .delWg h.drainScope.countUnit.holdScr

theorem State.Follows.checkGrids {lid} (h : s.Follows s₀ free) :
    (s.checkGrids lid).Follows s₀ free := h.foldl fun _ _ h => h.checkBarg

theorem State.Follows.endGang {gid canc engineIdle} (h : s.Follows s₀ free) :
    (s.endGang gid canc engineIdle).Follows s₀ free := by
  unfold State.endGang
  split
  · exact h
  · extract_lets s1 s2 s3
    have h1 : s1.Follows s₀ free := h.removeGang.updWgSub fun w => List.filter_subset_self w.gangs
    have h2 : s2.Follows s₀ free := h1.foldl fun _ _ h => h.checkBar
    have h3 : s3.Follows s₀ free := h2.foldl fun _ _ h => h.checkBarc
    split
    · exact h1
    · exact .ite h1.endWg.checkGrids h3.checkGrids

theorem State.Follows.dropWg {wid canc} (h : s.Follows s₀ free) : (s.dropWg wid canc).Follows s₀ free := by
  unfold State.dropWg
  split
  · exact h
  · exact (h.foldl fun _ _ h => h.giveUpIndices.removeGang).endWg

theorem State.Follows.cancelLaunch {lid level whole} (h : s.Follows s₀ free) :
    (s.cancelLaunch lid level whole).Follows s₀ free := by
  unfold State.cancelLaunch
  split
  · exact h
  · refine .frame (State.Follows.mapGangs (.frame (State.Follows.foldl h fun _ _ h => h.countUnit)) fun g => ?_)
    split
    · exact .ite (.frame g.keeps) g.keeps
    · exact g.keeps

theorem State.Follows.terminateNow {wid r} (h : s.Follows s₀ free) : (s.terminateNow wid r).Follows s₀ free := by
  unfold State.terminateNow
  split
  · exact h
  · exact .checkGrids (.dropRecords (.cancelLaunch (.updLaunch (.ite h.dropWg (h.foldl fun _ _ h => h.dropWg)))))

theorem State.Follows.terminate {wid r} (h : s.Follows s₀ free) : (s.terminate wid r).Follows s₀ free := by
  unfold State.terminate
  exact .ite h.terminateNow (.ite h (.frame (h.updWg fun _ => rfl)))

theorem State.Follows.waitedTerms (h : s.Follows s₀ free) : s.waitedTerms.Follows s₀ free := by
  unfold State.waitedTerms
  exact .ite (.foldl (.frame h) fun _ _ h => h.terminateNow) h

theorem State.Follows.takeTrap {gid lanes cause pc addr} (h : s.Follows s₀ free) :
    (s.takeTrap gid lanes cause pc addr).Follows s₀ free := by
  unfold State.takeTrap
  split
  · exact h
  · exact .ite h.terminate (.pruneMonitors (.updGang h fun g => .frame g.keeps))

/-! ### Core words -/

theorem State.Follows.chargeIssue {gid} (h : s.Follows s₀ free) : (s.chargeIssue gid).Follows s₀ free := by
  unfold State.chargeIssue
  split
  · exact h
  · split
    · exact h
    · extract_lets s1 s2
      have h2 : s2.Follows s₀ free := .updWg (.updGang h fun g => .frame g.keeps) fun _ => rfl
      split
      · exact h2
      · exact h2.setCpart

theorem State.Follows.parkPages {gid tenant vas kind lanes pc report} (h : s.Follows s₀ free) :
    (s.parkPages gid tenant vas kind lanes pc report).Follows s₀ free :=
  .frame (h.updGang fun g => .frame g.keeps)

theorem State.Follows.parkPage {gid tenant va kind lanes pc} (h : s.Follows s₀ free) :
    (s.parkPage gid tenant va kind lanes pc).Follows s₀ free :=
  h.parkPages

theorem State.Follows.failCheck {c k} (h : s.Follows s₀ free) : (s.failCheck c k).Follows s₀ free := by
  unfold State.failCheck
  split
  · exact h
  · exact h.takeTrap
  · exact h.updGang fun g => .frame g.keeps
  · exact h.parkPages
  · exact h.parkPages
  · exact h.terminate

theorem State.Follows.passWord {c u} (h : s.Follows s₀ free) : (s.passWord c u).Follows s₀ free :=
  h.updGang fun g => .frame g.keeps.issued.setPc
theorem State.Follows.faultWord {c u} (h : s.Follows s₀ free) : (s.faultWord c u).Follows s₀ free :=
  h.chargeIssue.updGang fun g => g.keeps.issued

theorem State.Follows.coreWord {i u chk body} (h : s.Follows s₀ free)
    (hbody : ∀ c t, t.Follows s₀ free → (body c t).Follows s₀ free) :
    OutFollows s₀ free (Machine.coreWord i u chk body s) := by
  unfold Machine.coreWord
  cases s.ctxOf u with
  | none => exact h.next
  | some c =>
    dsimp only
    generalize u.first.next _ = k
    cases k
    case ok =>
      dsimp only
      split
      · exact h.next
      · generalize Check.next _ _ = k
        cases k
        case ok => exact (hbody _ _ h.chargeIssue.passWord).finish
        case wait | page | codePage => all_goals exact h.failCheck.finish
        case trap | kill => all_goals exact h.faultWord.failCheck.finish
    case wait | page | codePage => all_goals exact h.failCheck.finish
    case kill => exact h.faultWord.failCheck.finish
    case trap cause a =>
      -- the match compares the cause with the number 8
      obtain _ | _ | _ | _ | _ | _ | _ | _ | _ | n := cause
      case succ.succ.succ.succ.succ.succ.succ.succ.zero => exact State.Follows.finish (.failCheck
          (.updGang h.faultWord fun g => .frame g.keeps))
      all_goals exact h.faultWord.failCheck.finish

theorem State.Follows.onGang {f c} (h : s.Follows s₀ free)
    (hf : ∀ g : Gang, g.Keeps (f c g)) : (Machine.onGang f c s).Follows s₀ free := by
  unfold Machine.onGang
  exact .ite h (h.updGang hf)

theorem State.Follows.eachLane {f c} (h : s.Follows s₀ free)
    (hf : ∀ g k l, Gang.Keeps g k → g.Keeps (f c k l)) :
    (Machine.eachLane f c s).Follows s₀ free :=
  h.onGang fun g => .foldl g.keeps fun k l h => hf g k l h

/-! ### Integer words -/

theorem State.Follows.intWord {i w n d32 f} (h : s.Follows s₀ free) : OutFollows s₀ free (Machine.intWord i w n d32 f s) :=
  h.coreWord fun _ _ h => h.eachLane fun _ _ _ h => h.setVw

/-! ### Floating-point words -/

theorem State.Follows.fpWord {i w n mods f} (h : s.Follows s₀ free) : OutFollows s₀ free (Machine.fpWord i w n mods f s) :=
  h.coreWord fun _ _ h => (h.eachLane fun _ _ _ h => .frame h)

theorem State.Follows.fpLong {i w n f} (h : s.Follows s₀ free) : OutFollows s₀ free (Machine.fpLong i w n f s) :=
  h.coreWord fun _ _ h => h.onGang fun g => .frame g.keeps

/-! ### Paired words -/

theorem Gang.Keeps.writeHalf {g k c w x o} (h : Gang.Keeps g k) : g.Keeps (Machine.writeHalf c w x o k) := by
  refine .foldl h fun _ _ h => ?_
  extract_lets v
  split
  · exact .frame h
  · exact .frame h.setP

theorem Gang.Keeps.produceHalf {g k c w x o} (h : Gang.Keeps g k) : g.Keeps (Machine.produceHalf c w x o k) := by
  unfold Machine.produceHalf
  exact .ite h (.frame h)

theorem State.Follows.execVpair {w} (h : s.Follows s₀ free) : OutFollows s₀ free (Machine.execVpair w s) := by
  unfold Machine.execVpair
  exact h.coreWord fun _ _ h => h.onGang fun g => .ite g.keeps.writeHalf.produceHalf g.keeps.writeHalf.writeHalf

/-! ### Fetch -/

theorem State.Follows.fetchUse {unit tenant codemap line} (h : s.Follows s₀ free) :
    (s.fetchUse unit tenant codemap line).Follows s₀ free := by
  unfold State.fetchUse
  extract_lets dir use n seen s1
  have huse : ∀ acc s' x, s'.Follows s₀ free → (use acc s' x).Follows s₀ free := by
    intro acc s' x hs'
    unfold use
    split
    · split
      · exact hs'.walkUse.l2Use
      · exact hs'
    · exact hs'.walkUse
  have h1 : s1.Follows s₀ free := h.foldl fun _ _ h => huse _ _ _ h
  split
  · exact huse _ _ _ (huse _ _ _ h1)
  · exact h1

/-! ### Control words -/

theorem State.Follows.fenceSc {core scope} (h : s.Follows s₀ free) :
    (s.fenceSc core scope).Follows s₀ free := h.drainScope.acquireCore

theorem State.Follows.branchWord {i u link f} (h : s.Follows s₀ free) :
    OutFollows s₀ free (Machine.branchWord i u link f s) := by
  refine h.coreWord fun _ _ h => h.eachLane fun g k l hk => Gang.Keeps.setPc ?_
  split
  · exact hk.setV64
  · exact hk

theorem State.Follows.checkBarriers {wid} (h : s.Follows s₀ free) : (s.checkBarriers wid).Follows s₀ free := by
  unfold State.checkBarriers
  split
  · exact h
  · exact ((h.foldl fun _ _ h => h.checkBar).foldl fun _ _ h => h.checkBarc).foldl fun _ _ h => h.checkBarg

theorem State.Follows.exitNow {gid m} (h : s.Follows s₀ free) : (s.exitNow gid m).Follows s₀ free := by
  unfold State.exitNow
  extract_lets
  have h1 := h.updGang (gid := gid) fun g => (g.keeps.exitLanes (m := m)).freeDead
  split
  · exact h1
  · exact .ite h1.endGang h1.checkBarriers

theorem State.Follows.execExit {w} (h : s.Follows s₀ free) : OutFollows s₀ free (Machine.execExit w s) := by
  unfold Machine.execExit
  refine h.coreWord fun _ _ h => ?_
  split
  · exact h
  · exact .ite (.ite h (h.updGang fun g => .frame g.keeps)) (.exitNow (.ite h (h.updGang fun g => .frame g.keeps)))

theorem State.Follows.codeTrap {i w cause} (h : s.Follows s₀ free) : OutFollows s₀ free (Machine.codeTrap i w cause s) := by
  unfold Machine.codeTrap
  exact h.coreWord fun _ _ h => .ite h h.takeTrap

theorem State.Follows.serviceCall {c n} (h : s.Follows s₀ free) : (s.serviceCall c n).Follows s₀ free := by
  unfold State.serviceCall
  extract_lets
  split
  · exact h.updGang fun g => .frame g.keeps
  · split
    rename_i s1 e
    have h1 : s1.Follows s₀ free := .of_snd h.takeFree e
    split
    · exact h1.updGang fun g => .frame g.keeps
    · exact .ite (.updGang h1 fun g => .frame g.keeps) (.updGang (.frame h1) fun g => .frame g.keeps)
  · exact h.updGang fun g => .frame g.keeps
  · exact h.terminate
  · exact h.updGang fun g => .frame g.keeps

theorem State.Follows.execSyscall {w} (h : s.Follows s₀ free) : OutFollows s₀ free (Machine.execSyscall w s) := by
  unfold Machine.execSyscall
  exact h.coreWord fun _ _ h => .ite (h.updWg fun _ => rfl) (.serviceCall (.fenceSc (h.updWg fun _ => rfl)))

/-! ### Memory words -/

theorem State.Follows.clearResident {id} (h : s.Follows s₀ free) : (s.clearResident id).Follows s₀ free := .frame h

theorem State.Follows.touch {n p byp wr} (h : s.Follows s₀ free) : (s.touch n p byp wr).Follows s₀ free := by
  unfold State.touch
  split
  · exact h.checkPa.l2Use
  · exact .frame (State.Follows.ite h h.peerSend)
  · exact h

theorem State.Follows.useBytes {tenant n} (h : s.Follows s₀ free) : (s.useBytes tenant n).Follows s₀ free := .frame h

theorem State.Follows.touchFor {tenant n p byp wr} (h : s.Follows s₀ free) :
    (s.touchFor tenant n p byp wr).Follows s₀ free := by
  unfold State.touchFor
  split
  · exact h.touch.useBytes
  · exact h.useBytes
  · exact h.touch

theorem State.Follows.touchAt {core tenant n p byp wr} (h : s.Follows s₀ free) :
    (s.touchAt core tenant n p byp wr).Follows s₀ free := by
  unfold State.touchAt
  extract_lets
  split
  · exact h.touchFor.setCreg
  · exact h.touchFor

theorem State.Follows.sendVault {c n prod p act} (h : s.Follows s₀ free) :
    (s.sendVault c n prod p act).Follows s₀ free := .frame h

theorem State.Follows.beforeCarrier {core p} (h : s.Follows s₀ free) : (s.beforeCarrier core p).Follows s₀ free := by
  unfold State.beforeCarrier
  split
  · exact .ite h.drainScope h
  · exact h

theorem State.Follows.afterCarrier {core p} (h : s.Follows s₀ free) : (s.afterCarrier core p).Follows s₀ free := by
  unfold State.afterCarrier
  split
  · exact .ite h.acquireCore h
  · exact h

theorem State.Follows.memWalks {w low c} (h : s.Follows s₀ free) : (Machine.memWalks w low c s).Follows s₀ free := by
  unfold Machine.memWalks
  exact .ite h.walksUse h

theorem State.Follows.carrierBody {w low f c} (h : s.Follows s₀ free)
    (hf : ∀ c t t', t.Follows s₀ free → t'.Follows s₀ free → (f c t t').Follows s₀ free) :
    (Machine.carrierBody w low f c s).Follows s₀ free := by
  unfold Machine.carrierBody
  exact .ite h (.afterCarrier (hf _ _ _ h h.beforeCarrier.memWalks))

theorem State.Follows.wrote {wid} (h : s.Follows s₀ free) : (s.wrote wid).Follows s₀ free := h.updWg fun _ => rfl

theorem State.Follows.readLane {core tenant pl p n} (h : s.Follows s₀ free) :
    (s.readLane core tenant pl p n).2.2.Follows s₀ free := by
  unfold State.readLane
  extract_lets str s1 v s2
  have h2 : s2.Follows s₀ free := by
    unfold s2
    split
    · exact .ite h.touchAt h.touchAt.dropL1
    · exact h.touchAt
  exact h2

theorem State.Follows.sendReads {w c t prod ls keys} (h : s.Follows s₀ free) :
    (s.sendReads w c t prod ls keys).Follows s₀ free :=
  h.foldl fun _ _ h => h.sendVault

theorem State.Follows.execLd {w} (h : s.Follows s₀ free) : OutFollows s₀ free (Machine.execLd w s) := by
  unfold Machine.execLd
  extract_lets
  exact h.coreWord fun _ _ h => h.carrierBody fun _ _ _ h h' =>
    .ite (.updGang h'.sendReads fun g => .frame g.keeps) (.updGang (h'.foldlFst fun _ _ h => h.readLane) fun g =>
        .frame g.keeps)

theorem State.Follows.storeLane {w c p bs} (h : s.Follows s₀ free) : (s.storeLane w c p bs).Follows s₀ free := by
  unfold State.storeLane
  split
  · exact .ite h.checkPa.strStore h.touchAt.storeBytes.reportPoison
  · exact h.touchAt.storeBytes

theorem State.Follows.execSt {w} (h : s.Follows s₀ free) : OutFollows s₀ free (Machine.execSt w s) := by
  unfold Machine.execSt
  exact h.coreWord fun _ _ h => .carrierBody (.ite h.wrote h) fun _ _ _ h h' => .ite (h'.foldl
    fun _ _ h => h.sendVault) (h'.foldl fun _ _ h => h.storeLane)

theorem State.Follows.execLdu {w} (h : s.Follows s₀ free) : OutFollows s₀ free (Machine.execLdu w s) := by
  unfold Machine.execLdu
  exact h.coreWord fun _ _ h => h.carrierBody fun _ _ _ h h' => .ite (h'.sendReads.updGang fun g => .frame g.keeps)
      (h'.readLane.updGang fun g => .frame g.keeps)

theorem State.Follows.atomicAt {core tenant byp p n ao sx ds bs} (h : s.Follows s₀ free) :
    (s.atomicAt core tenant byp p n ao sx ds bs).2.2.Follows s₀ free := by
  unfold State.atomicAt
  extract_lets s1
  have h1 : s1.Follows s₀ free := by
    unfold s1
    split
    · exact h.touchAt.drainForStore
    · exact h.touchAt
  split
  · exact h1.peerSend
  · split
    · exact h1.storeBytes
    · split
      · exact h1.dropL1
      · exact h1

theorem State.Follows.atomBody {w cas ret c t} (ht : t.Follows s₀ free) :
    (Machine.atomBody w cas ret c s t).Follows s₀ free := by
  unfold Machine.atomBody
  extract_lets n k xs order lanes bs ds place dests s1 r
  have h1 : s1.Follows s₀ free := ht.foldl fun _ _ h => h.sendVault
  have hr : r.1.Follows s₀ free := ht.foldlFst fun _ _ h => h.atomicAt.reportPoison
  exact .ite (.ite (h1.updGang fun g => .frame g.keeps) h1) (.ite (hr.updGang fun g => .frame g.keeps) hr)

theorem State.Follows.atomWord {i w cas ret} (h : s.Follows s₀ free) :
    OutFollows s₀ free (Machine.atomWord i w cas ret s) := by
  unfold Machine.atomWord
  exact h.coreWord fun _ _ h => h.wrote.carrierBody fun _ _ _ h h' => h'.atomBody

theorem State.Follows.execFence {w} (h : s.Follows s₀ free) : OutFollows s₀ free (Machine.execFence w s) := by
  unfold Machine.execFence
  exact h.coreWord fun _ _ h => .ite h (.ite h.beforeCarrier.afterCarrier (.afterCarrier (.ite (h.updGang fun g =>
      .frame g.keeps) h)))

theorem State.Follows.settleFence {gid} (h : s.Follows s₀ free) : (s.settleFence gid).Follows s₀ free := by
  unfold State.settleFence
  split
  · exact h
  · split
    · exact h.drainScope.updGang fun g => .frame g.keeps
    · exact h

theorem State.Follows.execInvt {w} (h : s.Follows s₀ free) : OutFollows s₀ free (Machine.execInvt w s) := by
  unfold Machine.execInvt
  exact h.coreWord fun _ _ h => .ite h (.frame h)

theorem State.Follows.vaultAct {o} (h : s.Follows s₀ free) : (s.vaultAct o).Follows s₀ free := by
  unfold State.vaultAct
  extract_lets
  split
  · exact h.homeWrite
  · exact h.updGang fun g => .frame g.keeps
  · extract_lets m bad r s1
    have h1 : s1.Follows s₀ free := by
      unfold s1
      split
      · exact h.homeWrite
      · exact h
    exact h1.updGang fun g => .frame g.keeps

theorem State.Follows.vaultPerform {o} (h : s.Follows s₀ free) : (s.vaultPerform o).Follows s₀ free := by
  unfold State.vaultPerform
  split
  · exact h.vaultAct.acquireCore
  · exact h.vaultAct

theorem State.Follows.vaultDue {cy done os} (h : s.Follows s₀ free) : (s.vaultDue cy done os).1.Follows s₀ free := by
  induction os generalizing s done with
  | nil => exact h
  | cons o os ih =>
    unfold State.vaultDue
    extract_lets
    split
    · exact ih h
    · exact ih (h.vaultPerform.updGang fun g => .frame g.keeps)

theorem State.Follows.vaultCycle {cy swallowed} (h : s.Follows s₀ free) : (s.vaultCycle cy swallowed).Follows s₀ free := by
  unfold State.vaultCycle
  exact .ite h (.frame (h.vaultDue.updGangs fun _ g => .frame g.keeps))

theorem State.Follows.vaultFinish {gid} (h : s.Follows s₀ free) : (s.vaultFinish gid).Follows s₀ free := by
  unfold State.vaultFinish
  exact .updGang (.foldl (.frame h) fun _ _ h => h.vaultPerform) fun g => .frame g.keeps

theorem State.Follows.arm {part p x} (h : s.Follows s₀ free) : (s.arm part p x).2.Follows s₀ free := by
  unfold State.arm
  split
  · exact h
  · extract_lets
    split
    · exact .frame h
    · split
      · exact .frame h
      · exact h.setCreg

theorem State.Follows.waitTouch {core tenant p n byp} (h : s.Follows s₀ free) :
    (s.waitTouch core tenant p n byp).Follows s₀ free := by
  unfold State.waitTouch
  extract_lets
  split
  · exact h.touchAt.dropL1
  · exact h.touchAt

theorem State.Follows.sleepOn {gid part lanes r} (h : s.Follows s₀ free) : (s.sleepOn gid part lanes r).Follows s₀ free := by
  unfold State.sleepOn
  split
  · exact h
  · exact h.arm.updGang fun g => .frame g.keeps

theorem State.Follows.execWaitc {w} (h : s.Follows s₀ free) : OutFollows s₀ free (Machine.execWaitc w s) := by
  unfold Machine.execWaitc
  extract_lets
  refine h.coreWord fun _ _ h => .ite h ?_
  refine .ite h.beforeCarrier.memWalks.waitTouch.afterCarrier (.sleepOn (.updGang h.beforeCarrier.memWalks.waitTouch ?_))
  exact fun g => .frame g.keeps

theorem State.Follows.parkWait {gid tenant wid r lanes pc} (h : s.Follows s₀ free) :
    (s.parkWait gid tenant wid r lanes pc).Follows s₀ free :=
  .parkPage (.updGang h fun g => .frame g.keeps)

theorem State.Follows.repeatRead {gid wid r lanes parked} (h : s.Follows s₀ free) :
    (s.repeatRead gid wid r lanes parked).Follows s₀ free := by
  unfold State.repeatRead
  split
  · exact h
  · split
    · exact h
    · split
      · exact h
      · extract_lets core pc s0
        have h0 : s0.Follows s₀ free := .ite h.walkUse h
        split
        · exact h.parkWait
        · exact h.takeTrap
        · split
          · exact h.takeTrap
          · extract_lets
            split
            · refine .pruneMonitors (.afterCarrier (.updGang (.updGang h0.waitTouch ?_) fun g => g.keeps.advance))
              exact fun g => .frame g.keeps
            · refine .ite (.updGang (.updGang h0.waitTouch ?_) ?_) (.sleepOn (.pruneMonitors (.updGang h0.waitTouch ?_)))
              all_goals exact fun g => .frame g.keeps

/-! ### Synchronisation words -/

theorem State.Follows.blockAt {k c} (h : s.Follows s₀ free) : (Machine.blockAt k c s).Follows s₀ free := by
  unfold Machine.blockAt
  exact .ite h (h.updGang fun g => .frame g.keeps)

theorem State.Follows.execBar {w} (h : s.Follows s₀ free) : OutFollows s₀ free (Machine.execBar w s) := by
  unfold Machine.execBar
  exact h.coreWord fun _ _ h => .ite h.blockAt h.blockAt.checkBar

theorem State.Follows.barcWord {i w b} (h : s.Follows s₀ free) : OutFollows s₀ free (Machine.barcWord i w b s) := by
  unfold Machine.barcWord
  exact h.coreWord fun _ _ h => .ite h.blockAt h.blockAt.checkBarc

theorem State.Follows.execBarg {w} (h : s.Follows s₀ free) : OutFollows s₀ free (Machine.execBarg w s) := by
  unfold Machine.execBarg
  exact h.coreWord fun _ _ h => .ite h.blockAt h.blockAt.checkBarg

theorem State.Follows.sendGop {c d op g x sd} (h : s.Follows s₀ free) : (s.sendGop c d op g x sd).Follows s₀ free := by
  unfold State.sendGop
  split
  · exact h
  · extract_lets s1
    have h1 : s1.Follows s₀ free := by
      unfold s1
      split
      · exact h.updGang fun g => .frame g.keeps
      · exact h
    exact h1.updWg fun _ => rfl

theorem State.Follows.execGrd {w} (h : s.Follows s₀ free) : OutFollows s₀ free (Machine.execGrd w s) := by
  unfold Machine.execGrd
  exact h.coreWord fun _ _ h => .ite h h.sendGop

theorem State.Follows.execGwr {w} (h : s.Follows s₀ free) : OutFollows s₀ free (Machine.execGwr w s) := by
  unfold Machine.execGwr
  exact h.coreWord fun _ _ h => .ite h h.sendGop

theorem State.Follows.execGatom {w} (h : s.Follows s₀ free) : OutFollows s₀ free (Machine.execGatom w s) := by
  unfold Machine.execGatom
  exact h.coreWord fun _ _ h => .ite h h.sendGop

theorem State.Follows.deliver {gid id x} (h : s.Follows s₀ free) : (s.deliver gid id x).Follows s₀ free :=
  h.updGang fun g => .complete (.frame g.keeps)

theorem State.Follows.gopAct {wid o} (h : s.Follows s₀ free) : (s.gopAct wid o).Follows s₀ free := by
  unfold State.gopAct
  split
  · exact h
  · extract_lets
    split
    · exact h.deliver
    · exact h.updWg fun _ => rfl
    · exact h.deliver
    · exact .updGang (.deliver (h.updWg fun _ => rfl)) fun g => .frame g.keeps

theorem State.Follows.gport {wid cycle} (h : s.Follows s₀ free) : (s.gport wid cycle).Follows s₀ free := by
  unfold State.gport
  split
  · exact h
  · exact .foldl (h.updWg fun _ => rfl) fun _ _ h => h.gopAct

theorem State.Follows.execXclaim {w} (h : s.Follows s₀ free) : OutFollows s₀ free (Machine.execXclaim w s) := by
  unfold Machine.execXclaim
  exact h.coreWord fun _ _ h => .ite h (.setCpart (.updGang h fun g => .frame g.keeps))

theorem State.Follows.execXgive {w} (h : s.Follows s₀ free) : OutFollows s₀ free (Machine.execXgive w s) := by
  unfold Machine.execXgive
  exact h.coreWord fun _ _ h => .ite h (h.updGang fun g => .frame g.keeps)

theorem State.Follows.execXquery {w} (h : s.Follows s₀ free) : OutFollows s₀ free (Machine.execXquery w s) := by
  unfold Machine.execXquery
  exact h.coreWord fun _ _ h => .ite h h.sendGop

theorem State.Follows.execSpawn {w} (h : s.Follows s₀ free) : OutFollows s₀ free (Machine.execSpawn w s) := by
  unfold Machine.execSpawn
  exact h.coreWord fun _ _ h => .ite h.wrote (h.wrote.drainScope.foldl 
    fun _ _ h => h.placeRec.updGang fun g => g.keeps.setP)

theorem State.Follows.execSpawnf {w} (h : s.Follows s₀ free) : OutFollows s₀ free (Machine.execSpawnf w s) := by
  unfold Machine.execSpawnf
  exact h.coreWord fun _ _ h => .ite h.wrote h.wrote.setCpart

theorem State.Follows.tailStep {q v} (h : s.Follows s₀ free) : (s.tailStep q v).Follows s₀ free := by
  unfold State.tailStep
  exact .ite h.setCreg h.setCreg

theorem State.Follows.tailWrites {q vs} (h : s.Follows s₀ free) : (s.tailWrites q vs).Follows s₀ free := by
  unfold State.tailWrites
  extract_lets k
  split
  extract_lets all key s1
  have h1 : s1.Follows s₀ free := h.setCreg.setCreg
  exact .foldl (.frame h1) fun _ _ h => h.tailStep

theorem State.Follows.seqTouch {pid tenant q t} (h : s.Follows s₀ free) : (s.seqTouch pid tenant q t).Follows s₀ free := by
  unfold State.seqTouch
  split
  · exact h.walkUse.touchFor
  · exact h

theorem State.Follows.execQpop {w} (h : s.Follows s₀ free) : OutFollows s₀ free (Machine.execQpop w s) := by
  unfold Machine.execQpop
  refine h.coreWord fun _ _ h => ?_
  extract_lets s0 k t s1 words ds s2
  have h2 : s2.Follows s₀ free := h.wrote.setCreg.seqTouch.updGang fun g => .frame g.keeps
  split
  · exact h.wrote
  · split
    rename_i s3 e
    have h3 : s3.Follows s₀ free := by
      refine .of_snd ?_ e
      split
      · exact h2
      · split
        · exact h2.arm
        · exact h2
    exact h3.updGang fun g => .frame g.keeps

theorem State.Follows.execQpush {w} (h : s.Follows s₀ free) : OutFollows s₀ free (Machine.execQpush w s) := by
  unfold Machine.execQpush
  extract_lets
  refine h.coreWord fun _ _ h => ?_
  extract_lets
  split
  · exact h.wrote
  · split
    · exact h.wrote
    · extract_lets t sT head s1
      have h1 : s1.Follows s₀ free := h.wrote.walksUse.touchFor.storeBytes
      split
      · exact h.wrote.walksUse.touchFor.updGang fun g => .foldl g.keeps fun _ _ h => h.setP
      · split
        · extract_lets s2 s3 s4
          have h3 : s3.Follows s₀ free := .ite h1.touchFor.storeBytes h1.touchFor.storeBytes.storeBytes
          have h4 : s4.Follows s₀ free := h3.touchFor.drainScope.storeBytes
          exact h4.tailWrites.updGang fun g => .foldl g.keeps fun _ _ h => h.setP
        · exact h1

theorem State.Follows.qpopTry {gid x q t vd sd lanes} (h : s.Follows s₀ free) :
    (s.qpopTry gid x q t vd sd lanes).2.Follows s₀ free := by
  unfold State.qpopTry
  split
  · exact h
  · split
    · exact h
    · extract_lets core s0
      have h0 : s0.Follows s₀ free := .ite h h.seqTouch
      split
      · exact h0
      · split
        · exact h0
        · refine State.Follows.markCopied (.pruneMonitors (h0.walkUse.touchFor.acquireCore.updGang fun g => ?_))
          exact Gang.Keeps.advance (.frame (Gang.Keeps.complete (.frame g.keeps)))

theorem State.Follows.cancelLevel {lid level} (h : s.Follows s₀ free) : (s.cancelLevel lid level).Follows s₀ free := by
  unfold State.cancelLevel
  split
  · exact h
  · split
    · exact h
    · extract_lets ls s1 s2 s3 s4
      have h1 : s1.Follows s₀ free := h.foldl fun _ _ h => h.cancelLaunch
      have h2 : s2.Follows s₀ free := .ite h1 h1.dropRecords
      have h3 : s3.Follows s₀ free := .ite (.frame h2) h2
      have h4 : s4.Follows s₀ free := .ite (.frame h3) h3
      exact h4.foldl fun _ _ h => h.checkGrids

theorem State.Follows.execCancel {w} (h : s.Follows s₀ free) : OutFollows s₀ free (Machine.execCancel w s) := by
  unfold Machine.execCancel
  refine h.coreWord fun _ _ h => .ite h.wrote (.ite (.ite h.wrote (.updWg ?_ fun _ => rfl)) h.wrote.cancelLevel)
  exact h.wrote.foldl fun _ _ h => h.updGang fun g => .ite (.frame g.keeps) g.keeps

theorem State.Follows.execCntrd {w} (h : s.Follows s₀ free) : OutFollows s₀ free (Machine.execCntrd w s) := by
  unfold Machine.execCntrd
  exact h.coreWord fun _ _ h => .ite h (h.acquireCore.updGang fun g => .frame g.keeps)

end Sys2Proof.Machine
end

section
namespace Sys2Proof.Machine
variable {s₀ : State} {free : Nat → Prop} {s : State}

/-! ### The copy engine -/

theorem State.Follows.setEngine {cl q} (h : s.Follows s₀ free) : (s.setEngine cl q).Follows s₀ free := .frame h
theorem State.Follows.updCmd {cl id f} (h : s.Follows s₀ free) : (s.updCmd cl id f).Follows s₀ free := h.setEngine

theorem State.Follows.engWord {i op w k} (h : s.Follows s₀ free) : OutFollows s₀ free (Machine.engWord i op w k s) := by
  unfold Machine.engWord
  refine h.coreWord fun _ _ h => ?_
  extract_lets s0 m pid s1 s2
  have h1 : s1.Follows s₀ free := by
    unfold s1
    split
    · exact h.wrote.updGang fun g => .frame g.keeps
    · exact h.wrote
  have h2 : s2.Follows s₀ free := .ite h1.drainScope h1
  exact .ite h.wrote (.frame (h2.updGang fun g => .frame g.keeps))

theorem State.Follows.dropL1Line {line} (h : s.Follows s₀ free) : (s.dropL1Line line).Follows s₀ free := .frame h

theorem State.Follows.engWrite {tenant l bs bad cmd} (h : s.Follows s₀ free) :
    (s.engWrite tenant l bs bad cmd).Follows s₀ free := by
  unfold State.engWrite
  extract_lets s0
  have h0 : s0.Follows s₀ free := by
    unfold s0
    split
    · exact h.dropL1Line
    · exact h
  exact h0.touchFor.homeWrite.foldl fun _ _ h => .ite h.poisonAt h

theorem State.Follows.engReport {k l n} (h : s.Follows s₀ free) : (s.engReport k l n).Follows s₀ free := by
  unfold State.engReport
  split
  · exact .ite h (.frame h)
  · exact h.reportPoison

theorem State.Follows.engPage {cl k va kind} (h : s.Follows s₀ free) : (s.engPage cl k va kind).Follows s₀ free := .frame h

theorem State.Follows.engWalk {cl k sp x} (h : s.Follows s₀ free) : (s.engWalk cl k sp x).Follows s₀ free := by
  unfold State.engWalk
  exact .ite h.walkUse h

theorem State.Follows.engTouch {cl k sp x n} (h : s.Follows s₀ free) : (s.engTouch cl k sp x n).Follows s₀ free := by
  unfold State.engTouch
  split
  · exact h.engWalk.touchFor
  · exact h

theorem State.Follows.engElem {cl k m} (h : s.Follows s₀ free) : (s.engElem cl k m).1.Follows s₀ free := by
  unfold State.engElem
  split
  · extract_lets
    split
    · exact h
    · split
      · exact h.engTouch
      · exact h
  · exact h

theorem State.Follows.movePiece {cl ka} (h : s.Follows s₀ free) : (s.movePiece cl ka).Follows s₀ free := by
  unfold State.movePiece
  split
  rename_i sb k e
  have hb : sb.Follows s₀ free := .of_fst h.engElem e
  extract_lets s1 stop
  have h1 : s1.Follows s₀ free := hb.updCmd
  have hstop : ∀ t r a, t.Follows s₀ free → (stop t r a).Follows s₀ free := by
    intro t r a ht
    unfold stop
    split
    · exact ht.engPage
    · exact ht.updCmd
    · exact ht
  split
  · exact hstop _ _ _ h1
  · split
    · exact hstop _ _ _ h1
    · split
      · exact .updCmd (.engReport (.engWrite (.engWalk (.ite h1 h1.engTouch))))
      · exact hstop _ _ _ h1

theorem State.Follows.moveMany {cl id n} (h : s.Follows s₀ free) : (s.moveMany cl id n).Follows s₀ free := by
  induction n generalizing s with
  | zero => exact h
  | succ n ih =>
    unfold State.moveMany
    split
    · exact h
    · exact .ite h (ih h.movePiece)

theorem State.Follows.touchPieces {cl k n m} (h : s.Follows s₀ free) : (State.touchPieces cl k n m s).Follows s₀ free := by
  induction n generalizing s k m with
  | zero => exact h
  | succ n ih =>
    unfold State.touchPieces
    split
    · exact h
    · split
      · exact ih h.engElem.engTouch
      · exact h

theorem State.Follows.deliverRt {k vr pid bs bad} (h : s.Follows s₀ free) : (s.deliverRt k vr pid bs bad).Follows s₀ free :=
  h.updGang fun g => .complete (.frame g.keeps)

theorem State.Follows.engWhole_put {cl k stop x bs bad n} (h : s.Follows s₀ free)
    (hstop : ∀ t r a, t.Follows s₀ free → (stop t r a).Follows s₀ free) :
    (State.engWhole.put cl k stop s x bs bad n).Follows s₀ free := by
  induction n generalizing s x bs bad with
  | zero => exact h
  | succ n ih =>
    unfold State.engWhole.put
    split
    · exact h
    · split
      · exact ih h.engWalk.engWrite.updCmd
      · exact hstop _ _ _ h

theorem State.Follows.engWhole {cl k} (h : s.Follows s₀ free) : (s.engWhole cl k).Follows s₀ free := by
  unfold State.engWhole
  extract_lets stop wr cnt tbl mat iv rej last s0 s1 s2
  have hstop : ∀ t r a, t.Follows s₀ free → (stop t r a).Follows s₀ free := by
    intro t r a ht
    unfold stop
    split
    · exact ht.engPage
    · exact ht.updCmd
    · exact ht
  have hwr : ∀ t bs bad, t.Follows s₀ free → (wr t bs bad).Follows s₀ free := fun _ _ _ ht => ht.engWhole_put hstop
  have h1 : s1.Follows s₀ free := .frame h.touchPieces.engTouch
  have h2 : s2.Follows s₀ free := .frame h1
  split
  · exact h.engPage
  · exact hwr _ _ _ h
  · split
    · exact hstop _ _ _ h
    · exact hstop _ _ _ h
    · exact .ite h.updCmd (.ite h1.updCmd (.ite h1.updCmd (hwr _ _ _ h2)))
  · split
    · exact hstop _ _ _ h
    · exact h.touchPieces.deliverRt.updCmd
  · exact h

theorem State.Follows.engReason {k r} (h : s.Follows s₀ free) : (s.engReason k r).2.2.Follows s₀ free := by
  unfold State.engReason
  split
  · exact h
  · split
    · exact h
    · exact h.takeFree.takeFree

theorem State.Follows.engKill {k cause addr} (h : s.Follows s₀ free) : (s.engKill k cause addr).Follows s₀ free := by
  unfold State.engKill
  exact .ite h.terminate h.updLaunch

theorem State.Follows.engRetire {cl k faulted} (h : s.Follows s₀ free) : (s.engRetire cl k faulted).Follows s₀ free := by
  unfold State.engRetire
  extract_lets s1 up s2 s3
  have h2 : s2.Follows s₀ free := .frame (State.Follows.updGang (.frame h) fun g => .frame g.keeps)
  refine .checkBarc (.frame (h2.mapGangs fun g => ?_))
  split
  · exact .ite (.frame g.keeps) g.keeps
  · exact g.keeps

theorem State.Follows.engTaskDone {k r} (h : s.Follows s₀ free) : (s.engTaskDone k r).Follows s₀ free := by
  unfold State.engTaskDone
  split
  · exact h
  · exact .frame h

theorem State.Follows.dropRt {k} (h : s.Follows s₀ free) : (s.dropRt k).Follows s₀ free := by
  unfold State.dropRt
  split
  · exact h.updGang fun g => .frame g.keeps
  · exact h

theorem State.Follows.engFinish {cl id} (h : s.Follows s₀ free) : (s.engFinish cl id).Follows s₀ free := by
  unfold State.engFinish
  split
  · exact h
  · split
    · exact h
    · extract_lets s1
      have h1 : s1.Follows s₀ free := .ite (.ite h.engWhole h) h.moveMany
      split
      · exact h1
      · split
        · exact h1
        · extract_lets s2
          have h2 : s2.Follows s₀ free := .ite h1.drainScope h1
          split
          · exact h2
          · split
            · split
              · exact h2.engRetire.engTaskDone
              · exact .ite h2.engRetire.engTaskDone h2.engReason.dropRt.engRetire.engKill
            · split
              · exact h2.engPage
              · exact h2.dropRt.engRetire.engKill
              · exact h2.engWalk.engWrite.dropRt.engRetire

/-! ### Matrix words -/

theorem State.Follows.quarterWord {ins w sregs} (h : s.Follows s₀ free) :
    OutFollows s₀ free (Machine.quarterWord ins w sregs s) :=
  h.coreWord fun _ _ h => h.updGang fun g => .foldl g.keeps fun _ _ h => .ite h h.arrive

theorem State.Follows.startQuarters {gid ops0} (h : s.Follows s₀ free) : (s.startQuarters gid ops0).Follows s₀ free := by
  unfold State.startQuarters
  split
  · exact h
  · split
    · exact h
    · extract_lets ops act each fail first held go goAct s1 es ps st k
      have hfail : ∀ s' os c, s'.Follows s₀ free → (fail s' os c).Follows s₀ free := by
        intro s' os c hs'
        unfold fail
        split
        · exact (hs'.updGang fun g => g.keeps.dropQ).takeTrap
        · exact hs'
      clear_value first
      split
      · clear_value k
        split
        · refine .foldl (.updGang h fun g => .frame g.keeps) fun _ _ h => h.updGang fun g => ?_
          dsimp only
          split
          · exact .frame g.keeps
          · exact g.keeps.passQ
        · exact hfail _ _ _ (h.updGang fun g => .frame g.keeps)
      · exact hfail _ _ _ h

theorem State.Follows.rdvScan {gid} (h : s.Follows s₀ free) : (s.rdvScan gid).Follows s₀ free := by
  unfold State.rdvScan
  split
  · exact h
  · extract_lets done pcs s1
    have h1 : s1.Follows s₀ free := by
      unfold s1
      refine h.foldl fun _ _ h => ?_
      split
      · exact h
      · refine State.Follows.startQuarters (h.updGang fun g => ?_)
        exact .frame (Gang.Keeps.foldl g.keeps fun _ _ h => h.mergeUnits)
    refine h1.foldl fun _ _ h => ?_
    split
    · exact .ite h.startQuarters h
    · exact h

theorem State.Follows.boundary {gid o} (h : s.Follows s₀ free) : (s.boundary gid o).Follows s₀ free := by
  unfold State.boundary
  split
  · exact h
  · split
    · exact h
    · exact .ite (h.updGang fun g => g.keeps.endQ) (.ite (h.updGang fun g => g.keeps.endQ) h)

theorem State.Follows.stopQueued {gid} (h : s.Follows s₀ free) : (s.stopQueued gid).Follows s₀ free := by
  unfold State.stopQueued
  split
  · exact h
  · exact .ite (h.updGang fun g => g.keeps.unqueue) h

theorem State.Follows.passStart {pid} (h : s.Follows s₀ free) : (s.passStart pid).Follows s₀ free := by
  unfold State.passStart
  extract_lets s1 cp all
  have h1 : s1.Follows s₀ free := h.foldl fun _ _ h => h.rdvScan.stopQueued
  split
  · exact h1
  · clear_value all
    split
    · exact h1.setCpart
    · exact .ite h1.setCpart (.setCpart (.foldl (.foldl h1 fun _ _ h => h.updGang fun g =>
          .frame g.keeps) fun _ _ h => h.boundary))

theorem State.Follows.poisonStop {pass bad} (h : s.Follows s₀ free) : (s.poisonStop pass bad).Follows s₀ free := by
  unfold State.poisonStop
  extract_lets isBad first lanes s1
  have h1 : s1.Follows s₀ free := h.foldl fun _ _ h => h.updGang fun g => g.keeps.endQ
  clear_value first
  split
  · exact .ite h1 h1.takeTrap
  · exact h1

/-- A block of an operation writes registers and raises flags. -/
theorem mmaBlock_keeps {wid m o} {g g1 : Gang} {f : Flg} (h : mmaBlock s wid g m o = .ok (g1, f)) : g.Keeps g1 := by
  unfold mmaBlock at h
  extract_lets _ _ _ _ _ _ _ _ _ _ _ _ _ _ poisons at h
  clear_value poisons
  split at h
  · cases h
  · have e := congrArg Prod.fst (Except.ok.inj h)
    subst e
    refine List.foldlRecOn (motive := fun x : Gang × Flg => g.Keeps x.1) _ _ g.keeps fun x hx _ _ => ?_
    exact .frame hx

theorem State.Follows.passBlock {pid} (h : s.Follows s₀ free) : (s.passBlock pid).Follows s₀ free := by
  unfold State.passBlock
  extract_lets cp ops badOf bads s1 __src s1' s2
  have h1' : s1'.Follows s₀ free := by
    unfold s1'
    refine h.foldl fun _ _ h => ?_
    split
    · rename_i g m hg hm
      extract_lets next
      split
      · split
        · exact h.homeWrite.updGang fun g => .frame g.keeps
        · exact h
      · split
        · rename_i g1 f hb
          have hk := mmaBlock_keeps hb
          exact h.setGang h hg (Nat.le_refl _) (.frame hk)
        · exact h
    · exact h
  have h2 : s2.Follows s₀ free := h1'.foldl fun _ _ h => h.boundary
  exact .ite h.poisonStop.setCpart h2.setCpart

theorem State.Follows.matrixBlock {pid} (h : s.Follows s₀ free) : (s.matrixBlock pid).Follows s₀ free := by
  unfold State.matrixBlock
  extract_lets head
  clear_value head
  split
  · exact h.setCpart
  · exact .setCpart (.ite h.passBlock.passBlock h.passBlock)

theorem State.Follows.rdvStall {gid pc} (h : s.Follows s₀ free) : (s.rdvStall gid pc).Follows s₀ free := by
  unfold State.rdvStall
  split
  · exact h
  · split
    · exact h
    · exact .ite h (h.updGang fun g => g.keeps.dropQ).takeTrap

theorem State.Follows.execMldt {w} (h : s.Follows s₀ free) : OutFollows s₀ free (Machine.execMldt w s) := by
  unfold Machine.execMldt
  exact h.coreWord fun _ _ h => .ite h (h.updGang fun g => .frame g.keeps)

theorem State.Follows.execMstt {w} (h : s.Follows s₀ free) : OutFollows s₀ free (Machine.execMstt w s) := by
  unfold Machine.execMstt
  exact h.coreWord fun _ _ h => h.foldl fun _ _ h => h.homeWrite.updGang fun g => .frame g.keeps

/-! ### Instructions of many steps -/

theorem State.Follows.startMacro {i w gangKind state outs skip c} (h : s.Follows s₀ free) :
    (Machine.startMacro i w gangKind state outs skip c s).Follows s₀ free := by
  unfold Machine.startMacro
  extract_lets done keys ds
  refine .ite h (h.updGang fun g => ?_)
  extract_lets g1 g2
  have h1 : g.Keeps g1 := .frame g.keeps
  have h2 : g.Keeps g2 := .frame h1
  exact .frame h2

theorem State.Follows.mCtx_put {m l r x} (h : s.Follows s₀ free) :
    (Machine.MCtx.put m s l r x).Follows s₀ free := h.updGang fun g => .frame g.keeps
theorem State.Follows.mCtx_putSt {m l k x} (h : s.Follows s₀ free) :
    (Machine.MCtx.putSt m s l k x).Follows s₀ free := h.mCtx_put
theorem State.Follows.mCtx_putOut {m l k x} (h : s.Follows s₀ free) :
    (Machine.MCtx.putOut m s l k x).Follows s₀ free := h.mCtx_put

theorem State.Follows.mCtx_putSts {m l k xs} (h : s.Follows s₀ free) : (Machine.MCtx.putSts m s l k xs).Follows s₀ free :=
  h.foldl fun _ _ h => h.mCtx_putSt

theorem State.Follows.mCtx_putOuts {m l k xs} (h : s.Follows s₀ free) : (Machine.MCtx.putOuts m s l k xs).Follows s₀ free :=
  h.foldl fun _ _ h => h.mCtx_putOut

theorem State.Follows.mCtx_putProg {m l p} (h : s.Follows s₀ free) :
    (Machine.MCtx.putProg m s l p).Follows s₀ free := h.mCtx_putSt

theorem State.Follows.lathRead {m tex x n} (h : s.Follows s₀ free) : (s.lathRead m tex x n).1.Follows s₀ free := by
  unfold State.lathRead
  split
  · exact h
  · exact h
  · extract_lets s1 copy
    clear_value copy
    split
    · exact h.walkUse.touchFor
    · split
      · exact h.walkUse.touchFor
      · split
        · exact .ite h.walkUse.touchFor h.walkUse.touchFor.dropL1
        · exact h.walkUse.touchFor

theorem State.Follows.lathWords {m xs} (h : s.Follows s₀ free) : (s.lathWords m xs).1.Follows s₀ free := by
  induction xs generalizing s with
  | nil => exact h
  | cons x xs ih =>
    unfold State.lathWords
    split
    · rename_i s1 _ e
      exact .of_fst h.lathRead e
    · rename_i s1 _ e
      have h1 : s1.Follows s₀ free := .of_fst h.lathRead e
      split
      · rename_i s2 _ e
        exact .of_fst (ih h1) e
      · rename_i s2 _ e
        exact .of_fst (ih h1) e

theorem State.Follows.lathWrite {m x bs} (h : s.Follows s₀ free) : (s.lathWrite m x bs).1.Follows s₀ free := by
  unfold State.lathWrite
  split
  · exact h
  · exact h
  · exact h.wrote.walkUse.touchFor.storeBytes.reportPoison

theorem Gang.Keeps.closeMop {g k : Gang} {op} (h : g.Keeps k) : g.Keeps (k.closeMop op) := .frame h

theorem State.Follows.endMacro {m gangKind stopped fault} (h : s.Follows s₀ free) :
    (s.endMacro m gangKind stopped fault).Follows s₀ free := by
  unfold State.endMacro
  split
  · exact h
  · extract_lets op here code callb done pass tgt tc
    clear_value tc
    split
    · exact .parkPages (.updGang h fun g => .frame g.keeps)
    · extract_lets ok s1
      have h1 : s1.Follows s₀ free := h.updGang fun g => .ite g.keeps.closeMop.setPc.setPc g.keeps.closeMop.setPc
      clear_value s1
      split
      · exact h1
      · split
        · exact h1.takeTrap
        · exact h1.takeTrap
        · exact h1.parkPage
        · exact .ite h1 h1.takeTrap

theorem State.Follows.mCtx_mark {m lanes code} (h : s.Follows s₀ free) : (Machine.MCtx.mark m s lanes code).Follows s₀ free :=
  h.foldl fun _ _ h => h.mCtx_putSt

theorem State.Follows.preemptMacro {m gangKind stopped began fault} (h : s.Follows s₀ free) :
    (s.preemptMacro m gangKind stopped began fault).Follows s₀ free :=
  h.mCtx_mark.endMacro

theorem State.Follows.macroBoundary {m M ends} (h : s.Follows s₀ free) : (s.macroBoundary m M ends).Follows s₀ free := by
  unfold State.macroBoundary
  extract_lets writeEnd s1 s2
  have hwriteEnd : ∀ s' e', s'.Follows s₀ free → (writeEnd s' e').Follows s₀ free := by
    intro s' e' hs'
    unfold writeEnd
    split
    · exact hs'.mCtx_putSt
    · exact hs'.mCtx_putSt
    · exact hs'.takeFree.mCtx_putSt
    · exact hs'.mCtx_putSt
  have h2 : s2.Follows s₀ free := .ite ((h.foldl hwriteEnd).foldl fun _ _ h => .ite h (h.foldl
    fun _ _ h => h.mCtx_putSt)) (h.foldl hwriteEnd)
  split
  · exact h2.preemptMacro
  · split
    · exact h2.endMacro
    · split
      · exact h2
      · exact .ite h2.preemptMacro (h2.updGang fun g => .frame g.keeps)

/-- Every unit of work of an engine of instructions of many steps keeps the gangs. -/
def Macro.Follows (M : Macro) : Prop :=
  ∀ {s₀ free s m l}, State.Follows s s₀ free → (M.step s m l).1.Follows s₀ free

theorem State.Follows.macroStep {m M} (h : s.Follows s₀ free) (hM : M.Follows) : (s.macroStep m M).Follows s₀ free := by
  unfold State.macroStep
  split
  · exact h.endMacro
  · extract_lets r
    have hr : r.1.Follows s₀ free := by
      refine State.Follows.foldlFst (p := (s, [])) h fun _ _ h => ?_
      split
      · exact hM h
      · exact h
    exact hr.macroBoundary

theorem State.Follows.rast_take {r m wid cw ch lq ps} (h : s.Follows s₀ free) :
    (Machine.Rast.take r s m wid cw ch lq ps).Follows s₀ free := by
  unfold Machine.Rast.take
  refine h.foldl fun _ _ h => ?_
  extract_lets p s1 ts s2
  have h1 : s1.Follows s₀ free := h.foldl fun _ _ h => h.homeWrite
  have h2 : s2.Follows s₀ free := h1.foldl fun _ _ h => h.updWg fun _ => rfl
  exact h2.mCtx_putOuts

/-! ### RAST -/

theorem State.Follows.rastClear {m fill} (h : s.Follows s₀ free) : (Machine.rastClear m s fill).Follows s₀ free :=
  h.foldl fun _ _ h => h.foldl fun _ _ h => h.mCtx_putOut

theorem State.Follows.rastNone {r m regs} (h : s.Follows s₀ free) : (Machine.rastNone r m s regs).1.Follows s₀ free := by
  unfold Machine.rastNone
  exact (h.foldl fun _ _ h => h.takeFree.mCtx_putSt).mCtx_putProg.rastClear

theorem State.Follows.rastSetup {m} (h : s.Follows s₀ free) : (Machine.rastSetup s m).1.Follows s₀ free := by
  unfold Machine.rastSetup
  extract_lets
  split
  · exact h
  · split
    · exact h.mCtx_putSts.mCtx_putSt.rastNone
    · split
      · exact h.mCtx_putSts.mCtx_putSts.rastNone
      · exact h.mCtx_putSts.mCtx_putSts.mCtx_putSt.mCtx_putProg

theorem State.Follows.rast_rate {r m cell} (h : s.Follows s₀ free) : (Machine.Rast.rate r s m cell).1.Follows s₀ free := by
  unfold Machine.Rast.rate
  split
  · exact h
  · extract_lets
    split
    · rename_i e
      exact .of_fst h.lathRead e
    · rename_i s1 _ e
      have h1 : s1.Follows s₀ free := .of_fst h.lathRead e
      split <;> exact h1

theorem State.Follows.rastDeliver {r m wid cw ch qs ls fill} (h : s.Follows s₀ free) :
    (Machine.rastDeliver r m wid cw ch qs ls s fill).1.Follows s₀ free := by
  induction qs generalizing s ls fill with
  | nil => exact h
  | cons q qs ih =>
    cases ls with
    | nil => exact h
    | cons l ls =>
      unfold Machine.rastDeliver
      extract_lets
      split
      · exact ih h.rast_take
      · exact h

theorem State.Follows.depthWrites {wid ps} (h : s.Follows s₀ free) : (Machine.depthWrites wid s ps).Follows s₀ free :=
  h.foldl fun _ _ h => h.foldl fun _ _ h => h.homeWrite

theorem State.Follows.rastEnd {m fill status} (h : s.Follows s₀ free) :
    (Machine.rastEnd m s fill status).1.Follows s₀ free := h.rastClear
theorem State.Follows.rastDone {m r fill} (h : s.Follows s₀ free) :
    (Machine.rastDone m s r fill).1.Follows s₀ free := h.mCtx_putProg.rastEnd
theorem State.Follows.setWaitPix {m ps} (h : s.Follows s₀ free) :
    (Machine.setWaitPix m s ps).Follows s₀ free := h.updGang fun g => .frame g.keeps

theorem State.Follows.rastWalk {m} (h : s.Follows s₀ free) : (Machine.rastWalk s m).1.Follows s₀ free := by
  unfold Machine.rastWalk
  extract_lets
  split
  · exact h.rastDone
  · extract_lets same qrow0 qcol0 cy cx nextCell
    have hnextCell : ∀ s' fill', s'.Follows s₀ free → (nextCell s' fill').1.Follows s₀ free := by
      intro s' fill' hs'
      unfold nextCell
      split
      · exact hs'.mCtx_putProg.mCtx_putSt
      · exact hs'.mCtx_putSt.rastDone
    split
    · rename_i s1 _ e
      have h1 : s1.Follows s₀ free := .of_fst h.rast_rate e
      exact h1.mCtx_putProg
    · rename_i s1 _ _ e
      have h1 : s1.Follows s₀ free := .of_fst h.rast_rate e
      extract_lets
      split
      · exact h1
      · split
        · exact hnextCell _ _ h1
        · extract_lets
          split
          split
          · exact h1.mCtx_putProg.rastEnd
          · split
            · rename_i s2 _ _ _ e _
              have h2 : s2.Follows s₀ free := .of_fst h1.rastDeliver e
              extract_lets s3
              have h3 : s3.Follows s₀ free := h2.mCtx_putProg.mCtx_putSt
              split
              · exact h3.rastEnd
              · exact h3.setWaitPix
            · rename_i s2 _ _ _ e _
              have h2 : s2.Follows s₀ free := .of_fst h1.rastDeliver e
              exact h2.mCtx_putProg.mCtx_putSt
            · rename_i s2 _ e _
              have h2 : s2.Follows s₀ free := .of_fst h1.rastDeliver e
              split
              · exact h2.mCtx_putProg.mCtx_putSt
              · exact hnextCell _ _ h2

theorem State.Follows.rastStep {m l} (h : s.Follows s₀ free) : (Machine.rastStep s m l).1.Follows s₀ free := by
  unfold Machine.rastStep
  split
  rename_i s1 e
  have h1 : s1.Follows s₀ free := .of_snd h.setWaitPix.takeFree e
  split
  · exact h1.rastSetup
  · split
    · exact h1
    · extract_lets s1'
      have h1' : s1'.Follows s₀ free := .ite h1.mCtx_putSt h1
      split
      · exact h1'.rastSetup
      · exact h1'.rastWalk

/-! ### BLEND -/

theorem State.Follows.blendPixel {t m wid l shape i ks}
    (h : s.Follows s₀ free) (e : Machine.blendPixel s m wid l shape i ks = .ok t) :
    t.Follows s₀ free := by
  unfold Machine.blendPixel at e
  extract_lets _ _ _ _ _ _ _ _ _ bad at e
  clear_value bad
  split at e
  · cases e
  · obtain rfl := Except.ok.inj e
    exact h.foldl fun _ _ h => h.homeWrite

theorem State.Follows.blendStep {m l} (h : s.Follows s₀ free) : (Machine.blendStep s m l).1.Follows s₀ free := by
  unfold Machine.blendStep
  split
  split
  · exact h
  · split
    · exact h.mCtx_putProg
    · extract_lets wid p px r
      have hr : ∀ s1, r = .ok s1 → s1.Follows s₀ free := by
        intro s1 e
        unfold r at e
        split at e
        · cases e; exact h
        · exact h.blendPixel e
      clear_value r
      split
      · exact h.mCtx_putProg
      · extract_lets s2
        have h2 : s2.Follows s₀ free := (hr _ rfl).updWg fun _ => rfl
        split <;> exact h2.mCtx_putProg

/-! ### FILT -/

theorem State.Follows.filtStep {m l} (h : s.Follows s₀ free) : (Machine.filtStep s m l).1.Follows s₀ free := by
  unfold Machine.filtStep
  extract_lets s0 fv t x n tx cnt next done
  have h0 : s0.Follows s₀ free := .frame h
  have hdone : ∀ t, t.Follows s₀ free → (done t).1.Follows s₀ free := fun _ ht => ht.mCtx_putOuts.mCtx_putProg
  clear_value done s0
  split
  · exact h0
  · split
    · exact h0.mCtx_putSts
    · split
      · exact h0
      · split
        · exact hdone _ h0
        · split
          extract_lets at_
          split
          · rename_i s1 _ e
            have h1 : s1.Follows s₀ free := .of_fst h0.lathRead e
            exact h1.mCtx_putProg
          · rename_i s1 _ e
            have h1 : s1.Follows s₀ free := .of_fst h0.lathRead e
            extract_lets cs accs s2
            have h2 : s2.Follows s₀ free := h1.mCtx_putSts.mCtx_putProg
            split
            · exact h2
            · exact hdone _ h2

/-! ### TRAV -/

theorem State.Follows.travSetup {m l} (h : s.Follows s₀ free) : (Machine.travSetup s m l).1.Follows s₀ free := by
  unfold Machine.travSetup
  extract_lets v zero bad
  clear_value bad
  split
  · exact h
  · exact h.mCtx_putSts.mCtx_putProg

theorem State.Follows.leafHeader {m leaf} (h : s.Follows s₀ free) : (Machine.leafHeader s m leaf).1.Follows s₀ free := by
  unfold Machine.leafHeader
  extract_lets
  split
  · rename_i e
    exact .of_fst h.lathWords e
  · rename_i s2 _ e
    have h2 : s2.Follows s₀ free := .of_fst h.lathWords e
    extract_lets
    split <;> exact h2

theorem State.Follows.travCommit {m l hit} (h : s.Follows s₀ free) :
    (Machine.travCommit m s l hit).Follows s₀ free := h.mCtx_putSts

theorem State.Follows.nextTri {m l acc sp tri count} (h : s.Follows s₀ free) :
    (Machine.nextTri m s l acc sp tri count).Follows s₀ free :=
  h.mCtx_putProg

theorem State.Follows.travResume {m l} (h : s.Follows s₀ free) : (Machine.travResume s m l).1.Follows s₀ free := by
  unfold Machine.travResume
  extract_lets r anyhit out take s0
  have h0 : s0.Follows s₀ free := .ite h.travCommit h
  split
  · split
    · rename_i s1 _ e
      have h1 : s1.Follows s₀ free := .of_fst h0.leafHeader e
      exact h1.nextTri
    · rename_i s1 _ _ _ e
      have h1 : s1.Follows s₀ free := .of_fst h0.leafHeader e
      exact h1.nextTri
  · exact h0.mCtx_putProg

theorem State.Follows.travTri {m l} (h : s.Follows s₀ free) : (Machine.travTri s m l).1.Follows s₀ free := by
  unfold Machine.travTri
  extract_lets
  split
  · rename_i e
    exact .of_fst h.leafHeader e
  · rename_i s1 _ _ _ e
    have h1 : s1.Follows s₀ free := .of_fst h.leafHeader e
    split
    · exact h1.mCtx_putProg
    · split
      · exact h1
      · split
        · rename_i e
          exact .of_fst h1.lathWords e
        · rename_i s2 _ e
          have h2 : s2.Follows s₀ free := .of_fst h1.lathWords e
          split
          · exact h2.nextTri
          · extract_lets
            split
            · split
              · exact h2.travCommit
              · exact h2.travCommit.nextTri
            · exact h2.mCtx_putOuts

theorem State.Follows.putStack {m l acc scap scnt st inleaf} (h : s.Follows s₀ free) :
    (Machine.putStack m s l acc scap scnt st inleaf).Follows s₀ free :=
  h.mCtx_putSts.mCtx_putSt.mCtx_putProg

theorem State.Follows.travPop {m l} (h : s.Follows s₀ free) : (Machine.travPop s m l).1.Follows s₀ free := by
  unfold Machine.travPop
  extract_lets r acc spillVa popped
  have hpopped : popped.1.Follows s₀ free := by
    unfold popped
    split
    · exact h
    · split
      · rename_i s1 _ e
        exact .of_fst h.lathRead e
      · rename_i s1 _ e
        exact .of_fst h.lathRead e
  clear_value popped
  split
  · exact h
  · split
    · exact hpopped
    · split
      · exact hpopped.putStack
      · extract_lets
        split
        · rename_i s2 _ e
          exact .of_fst hpopped.lathWords e
        · rename_i s2 _ e
          have h2 : s2.Follows s₀ free := .of_fst hpopped.lathWords e
          extract_lets
          split
          · exact h2
          · extract_lets wr
            have hwr : wr.1.Follows s₀ free := by
              refine State.Follows.foldlFst (p := (s2, none)) h2 fun _ _ h => ?_
              split
              · exact h
              · exact h.lathWrite
            split
            · exact hwr
            · exact hwr.putStack
      · split
        · rename_i s2 _ e
          exact .of_fst hpopped.leafHeader e
        · rename_i s2 _ e
          have h2 : s2.Follows s₀ free := .of_fst hpopped.leafHeader e
          exact h2.mCtx_putSt.putStack
      · exact hpopped.putStack.mCtx_putOuts

theorem State.Follows.travStep {m l} (h : s.Follows s₀ free) : (Machine.travStep s m l).1.Follows s₀ free := by
  unfold Machine.travStep
  split
  · exact h.travSetup
  · split
    · exact h
    · split
      · exact h.travResume
      · split
        · exact h.travTri
        · exact h.travPop

/-! ### BIN, BIN.POP, MCODE and the lathes -/

theorem State.Follows.binRead {m x} (h : s.Follows s₀ free) : (s.binRead m x).1.Follows s₀ free := by
  unfold State.binRead
  split
  · exact h
  · exact h
  · refine State.Follows.lathRead ?_
    split
    · exact h.drainForStore
    · exact h

theorem State.Follows.binAppend {m b q cap l} (h : s.Follows s₀ free) :
    (Machine.binAppend s m b q cap l).1.Follows s₀ free := by
  unfold Machine.binAppend
  split
  · rename_i e
    exact .of_fst h.binRead e
  · rename_i s1 _ e
    have h1 : s1.Follows s₀ free := .of_fst h.binRead e
    split
    · exact h1
    · extract_lets
      split
      · rename_i e
        exact .of_fst h1.lathWrite e
      · rename_i s3 e
        have h3 : s3.Follows s₀ free := .of_fst h1.lathWrite e
        split
        · rename_i e
          exact .of_fst h3.lathWrite e
        · rename_i e
          exact .of_fst h3.lathWrite e

theorem State.Follows.binStep {m lead} (h : s.Follows s₀ free) : (Machine.binStep s m lead).1.Follows s₀ free := by
  unfold Machine.binStep
  extract_lets
  split
  · exact h
  · split
    · exact h.mCtx_putProg
    · exact h.mCtx_putProg
    · split
      · rename_i s1 _ e
        have h1 : s1.Follows s₀ free := .of_fst h.binAppend e
        exact h1.mCtx_putProg
      · rename_i s1 e
        have h1 : s1.Follows s₀ free := .of_fst h.binAppend e
        exact h1.mCtx_putProg
      · rename_i s1 e
        have h1 : s1.Follows s₀ free := .of_fst h.binAppend e
        split <;> exact h1.mCtx_putProg

theorem State.Follows.binPopLane {m b q slot n l} (h : s.Follows s₀ free) :
    (Machine.binPopLane m b q slot n l s).1.Follows s₀ free := by
  unfold Machine.binPopLane
  extract_lets
  split
  · split
    · rename_i e
      exact .of_fst h.lathWords e
    · rename_i s2 _ e
      have h2 : s2.Follows s₀ free := .of_fst h.lathWords e
      exact h2.mCtx_putOuts.updWg fun _ => rfl
  · exact h.mCtx_putOut

theorem State.Follows.binPopStep {m lead} (h : s.Follows s₀ free) : (Machine.binPopStep s m lead).1.Follows s₀ free := by
  unfold Machine.binPopStep
  extract_lets b sq slot q wid s1
  have h1 : s1.Follows s₀ free := h.updWg fun _ => rfl
  split
  · exact h
  · split
    · exact h1.foldl fun _ _ h => h.mCtx_putOut
    · split
      · rename_i e
        exact .of_fst h.lathRead e
      · rename_i s1 _ e
        have h1 : s1.Follows s₀ free := .of_fst h.lathRead e
        extract_lets s2 r
        have hr : r.1.Follows s₀ free := by
          unfold r
          refine h1.acquireCore.foldlFst fun _ _ h => ?_
          split
          · exact h
          · exact h.binPopLane
        split
        · exact h1
        · exact hr

theorem State.Follows.execMcode {op w} (h : s.Follows s₀ free) : OutFollows s₀ free (Machine.execMcode op w s) := by
  unfold Machine.execMcode
  extract_lets
  refine h.coreWord fun _ _ h => ?_
  split
  · exact h.startMacro
  · exact h

theorem State.Follows.mcodeRun {d m l} (h : s.Follows s₀ free) : (Machine.mcodeRun d s m l).1.Follows s₀ free := by
  unfold Machine.mcodeRun
  exact .ite (.foldl (.mCtx_putSts (.frame h)) fun _ _ h => h.mCtx_putOuts) (.mCtx_putSts (.frame h))

/-- The engines of RAST, BLEND, FILT, TRAV, BIN, BIN.POP and MCODE keep the gangs. -/
theorem macroOf_follows {tenant : Nat} {i : Instr} {x : MacroW × Macro} (hx : s.macroOf tenant i = some x) :
    x.2.Follows := by
  unfold State.macroOf at hx
  split at hx
  case h_7 w =>
    obtain ⟨d, -, rfl⟩ := Option.map_eq_some_iff.mp hx
    exact fun h => h.mcodeRun
  case h_8 => cases hx
  all_goals cases hx
  · exact fun h => h.rastStep
  · exact fun h => h.blendStep
  · exact fun h => h.filtStep
  · exact fun h => h.travStep
  · exact fun h => h.binStep
  · exact fun h => h.binPopStep

theorem mctxs_follows {gid : Nat} {x : MCtx × Macro} (hx : x ∈ s.mctxs gid) : x.2.Follows := by
  unfold State.mctxs at hx
  split at hx
  · cases hx
  · split at hx
    · cases hx
    · obtain ⟨o, -, ho⟩ := List.mem_filterMap.mp hx
      obtain ⟨y, hy, rfl⟩ := Option.map_eq_some_iff.mp ho
      exact macroOf_follows hy

theorem latheReqs_follows {core : Nat} {x : Nat × MCtx × Macro} (hx : x ∈ s.latheReqs core) : x.2.2.Follows := by
  obtain ⟨y, hy, hxy⟩ := List.mem_filterMap.mp hx
  obtain ⟨e, -, he⟩ := List.mem_flatMap.mp hy
  split at hxy
  · cases hxy
    split at he
    · cases he
    · exact mctxs_follows he
  · cases hxy

theorem State.Follows.latheStep {core lathe} (h : s.Follows s₀ free) : (s.latheStep core lathe).Follows s₀ free := by
  unfold State.latheStep
  extract_lets reqs last pick
  have hpick : ∀ {xs : List (Nat × MCtx × Macro)} {x}, pick xs = some x → x ∈ xs := fun {xs x} hx => by
    refine (foldl_pick_mem (fun a y => ?_) hx).resolve_left nofun
    cases a with
    | none => exact .inr rfl
    | some z =>
      dsimp only
      split
      · exact .inr rfl
      · exact .inl rfl
  split
  · exact h
  · rename_i k m M e
    have hx : (k, m, M) ∈ reqs := by
      obtain e | ⟨-, e⟩ := Option.or_eq_some_iff.mp (Option.or_eq_orElse.trans e)
      · exact List.mem_of_mem_filter (hpick e)
      · exact hpick e
    exact State.Follows.macroStep (.frame h) (latheReqs_follows (List.mem_of_mem_filter hx))

theorem State.Follows.stopMacros {gid} (h : s.Follows s₀ free) : (s.stopMacros gid).Follows s₀ free := by
  unfold State.stopMacros
  split
  · exact h
  · exact .ite h (h.foldl fun _ _ h => .ite h h.preemptMacro)

end Sys2Proof.Machine
end

section
namespace Sys2Proof.Machine
variable {s₀ : State} {free : Nat → Prop} {s : State}

/-! ### CANCEL falling due -/

theorem State.Follows.takeCancel {gid g tenant grp pc level} (h : s.Follows s₀ free) :
    (s.takeCancel gid g tenant grp pc level).Follows s₀ free := by
  refine .takeTrap (.updWg (h.giveUpIndices.updGang fun g => ?_) fun _ => rfl)
  exact .frame g.keeps.dropSleepers

theorem State.Follows.cancelFirst {gid} (h : s.Follows s₀ free) : (s.cancelFirst gid).Follows s₀ free := by
  unfold State.cancelFirst
  split
  · exact h
  · split
    · split
      · exact h
      · split
        · exact h.takeCancel
        · exact h
    · exact h

/-! ### Admission and pre-emption -/

theorem State.Follows.tenantUse {unit tenant va n} (h : s.Follows s₀ free) :
    (s.tenantUse unit tenant va n).Follows s₀ free := by
  unfold State.tenantUse
  refine h.foldl fun _ _ h => ?_
  extract_lets
  split
  · split
    · exact h.walkUse.l2Use
    · exact h.walkUse
  · exact h

theorem State.Follows.planUse {unit tenant plan} (h : s.Follows s₀ free) : (s.planUse unit tenant plan).Follows s₀ free := by
  unfold State.planUse
  split
  · exact h
  · extract_lets
    split
    · exact .ite h.tenantUse h.tenantUse.tenantUse
    · exact h.tenantUse

theorem State.Follows.grantPlan {wid plan} (h : s.Follows s₀ free) : (s.grantPlan wid plan).Follows s₀ free := by
  unfold State.grantPlan
  split
  · exact h
  · extract_lets
    split
    · exact h.planUse
    · exact .frame h.planUse
    · exact .ite h.planUse (h.planUse.updWg fun _ => rfl)

theorem State.Follows.fillActive {pid n} (h : s.Follows s₀ free) : (s.fillActive pid n).Follows s₀ free := by
  induction n generalizing s with
  | zero => exact h
  | succ n ih =>
    unfold State.fillActive
    split
    · exact h
    · split
      · exact h
      · exact ih (h.updGang fun g => .frame g.keeps)

theorem State.Follows.freshCore {core} (h : s.Follows s₀ free) : (s.freshCore core).Follows s₀ free := .frame h

theorem UnitsFrom.setGang {gs ws next id g} (h : UnitsFrom s₀ free gs ws next) (hlt : id < next)
    (hg : GangFrom s₀ free id g) : UnitsFrom s₀ free (gs.set id g) ws next := by
  obtain ⟨h1, h2, h3, h4, h5⟩ := h
  refine ⟨SMap.wf_set id g h1, h2, h3, fun j k e => ?_, h5⟩
  rw [SMap.find?_set] at e
  split at e
  · next hj => cases e; exact hj ▸ ⟨hlt, hg⟩
  · exact h4 j k e

theorem UnitsFrom.setGangs {α : Type} {xs : List α} {k : α → Nat} {f : α → Gang} {gs ws next}
    (h : UnitsFrom s₀ free gs ws next)
    (hx : ∀ x ∈ xs, k x < next ∧ GangFrom s₀ free (k x) (f x)) :
    UnitsFrom s₀ free (xs.foldl (fun m x => m.set (k x) (f x)) gs) ws next := by
  induction xs generalizing gs with
  | nil => exact h
  | cons x xs ih =>
    obtain ⟨hlt, hg⟩ := hx x (List.mem_cons_self ..)
    exact ih (h.setGang hlt hg) fun y hy => hx y (List.mem_cons_of_mem _ hy)

theorem UnitsFrom.setWg {gs ws next wid w} (h : UnitsFrom s₀ free gs ws next)
    (hw : ∀ id ∈ w.gangs, id < s₀.nextGang → ∃ v, s₀.wgs.find? wid = some v ∧ id ∈ v.gangs) :
    UnitsFrom s₀ free gs (ws.set wid w) next := by
  obtain ⟨h1, h2, h3, h4, h5⟩ := h
  refine ⟨h1, SMap.wf_set wid w h2, h3, h4, fun j v e => ?_⟩
  rw [SMap.find?_set] at e
  split at e
  · next hj => cases e; exact hj ▸ hw
  · exact h5 j v e

theorem UnitsFrom.more {gs ws next n} (h : UnitsFrom s₀ free gs ws next) : UnitsFrom s₀ free gs ws (next + n) := by
  obtain ⟨h1, h2, h3, h4, h5⟩ := h
  exact ⟨h1, h2, by omega, fun id g e => ⟨Nat.lt_add_right n (h4 id g e).1, (h4 id g e).2⟩, h5⟩

/-- The gangs of a workgroup that is added have numbers that were not given before. -/
theorem State.Follows.addWg {w slots gangOf} (h : s.Follows s₀ free) : (s.addWg w slots gangOf).Follows s₀ free := by
  unfold State.addWg
  extract_lets wid ids s1
  have hn : s₀.nextGang ≤ s.nextGang := h.2.2.1
  have h1 : s1.Follows s₀ free := by
    refine .frame (UnitsFrom.setWg (UnitsFrom.setGangs (UnitsFrom.more h) fun i hi => ?_) fun id hi hlt => ?_)
    · exact ⟨Nat.add_lt_add_left (List.mem_range.mp hi) _, .inl (by omega)⟩
    · obtain ⟨i, _, rfl⟩ := List.mem_map.mp hi
      omega
  exact h1.freshCore.fillActive

theorem State.Follows.admitWg {lid wgid pid} (h : s.Follows s₀ free) : (s.admitWg lid wgid pid).Follows s₀ free := by
  unfold State.admitWg
  split
  · exact h
  · exact .grantPlan (.setCreg (.setCreg (h.updLaunch.addWg)))

theorem State.Follows.flushWg {wid} (h : s.Follows s₀ free) : (s.flushWg wid).Follows s₀ free := by
  unfold State.flushWg
  split
  · exact h
  · extract_lets s1 s2
    have h1 : s1.Follows s₀ free := h.foldl fun _ _ h => h.removeGang
    have h2 : s2.Follows s₀ free := .delWg h1
    exact .ite h2.countUnit.checkGrids h2.updLaunch

theorem State.Follows.preemptUnit {wid lat} (h : s.Follows s₀ free) : (s.preemptUnit wid lat).Follows s₀ free := by
  unfold State.preemptUnit
  extract_lets ms sum td s1
  have h1 : s1.Follows s₀ free := h.foldl fun _ _ h => h.foldl fun _ _ h => h.cancelFirst
  split
  · exact h.foldl fun _ _ h => h.updWg fun _ => rfl
  · exact h1.foldl fun _ _ h => h.flushWg
  · exact h.foldl fun _ _ h => h.updWg fun _ => rfl

theorem State.Follows.requestRoom {part} (h : s.Follows s₀ free) : (s.requestRoom part).Follows s₀ free := by
  unfold State.requestRoom
  split
  · exact h
  · split
    · exact h
    · split
      · exact h
      · split
        · exact h.preemptUnit
        · exact h

theorem State.Follows.execAdmission {part pid} (h : s.Follows s₀ free) :
    OutFollows s₀ free (Machine.execAdmission part pid s) := by
  unfold Machine.execAdmission
  split
  · exact h.next
  · extract_lets
    split
    · exact h.requestRoom.finish
    · split
      · exact h.requestRoom.finish
      · split
        · exact h.requestRoom.finish
        · exact (h.requestRoom.foldl fun _ _ h => h.admitWg).finish

theorem State.Follows.execTimeSliceEnd {wg} (h : s.Follows s₀ free) : OutFollows s₀ free (Machine.execTimeSliceEnd wg s) := by
  unfold Machine.execTimeSliceEnd
  split
  · exact h.next
  · extract_lets
    split
    · exact h.next
    · split
      · exact h.next
      · split
        · exact h.next
        · exact h.preemptUnit.next

theorem State.Follows.execDrainTimeout {wg} (h : s.Follows s₀ free) : OutFollows s₀ free (Machine.execDrainTimeout wg s) := by
  unfold Machine.execDrainTimeout
  split
  · exact h.next
  · exact .ite (.next (h.foldl fun _ _ h => (h.updWg fun _ => rfl))) h.next

/-! ### Context save and restore -/

theorem State.Follows.saveWg {wid addr} (h : s.Follows s₀ free) : (s.saveWg wid addr).Follows s₀ free := by
  unfold State.saveWg
  extract_lets s1
  have h1 : s1.Follows s₀ free := by
    unfold s1
    split
    · exact h
    · exact h.foldl fun _ _ h => h.vaultFinish.updGang fun g => g.keeps.unqueue.settle
  split
  · exact h
  · extract_lets gs offs body s2 s3 s4 s5
    have h3 : s3.Follows s₀ free := h1.drainScope.checkPa.checkPa.homeWrite
    have h4 : s4.Follows s₀ free := h3.updWg fun _ => rfl
    have h5 : s5.Follows s₀ free := h4.foldl fun _ _ h => h.updGang fun g => .frame g.keeps
    exact .pruneMonitors (.frame h5)

theorem State.Follows.execContextSave {wg addr} (h : s.Follows s₀ free) :
    OutFollows s₀ free (Machine.execContextSave wg addr s) := by
  unfold Machine.execContextSave
  extract_lets ms s1
  have h1 : s1.Follows s₀ free := h.foldl fun _ _ h => h.foldl fun _ _ h => h.stopMacros.cancelFirst
  exact .ite h.next (.ite h1.finish (h1.foldlFst fun _ _ h => h.saveWg).finish)

theorem State.Follows.disarm {gids} (h : s.Follows s₀ free) : (s.disarm gids).Follows s₀ free := .frame h

theorem mem_wgGangs {w : Wg} {e : Nat × Gang} (h : e ∈ s.wgGangs w) : e.1 ∈ w.gangs ∧ s.gangs.find? e.1 = some e.2 := by
  obtain ⟨id, hi, hf⟩ := List.mem_filterMap.mp h
  obtain ⟨g, hg, rfl⟩ := Option.map_eq_some_iff.mp hf
  exact ⟨hi, hg⟩

theorem fst_mem_of_mem_reslot {gs : List (Nat × Gang)} {slots : List Nat} {e : Nat × Gang} (h : e ∈ reslot gs slots) :
    ∃ x ∈ gs, x.1 = e.1 := by
  obtain ⟨x, hx, rfl⟩ := List.mem_map.mp h
  exact ⟨x, hx, rfl⟩

/-- A workgroup whose gangs are free, or new, is rebuilt. -/
theorem State.Follows.restoreWg {wid pid} (h : s.Follows s₀ free)
    (hf : ∀ v, s₀.wgs.find? wid = some v → ∀ id ∈ v.gangs, free id) : (s.restoreWg wid pid).Follows s₀ free := by
  unfold State.restoreWg
  split
  · exact h
  · rename_i w hw
    extract_lets a off gs p rec0 scr0 fl order gs1 gs2 w1 src s1 src' s2 queue s3
    obtain ⟨_, _, _, h4, h5⟩ := id h
    have hgs : ∀ e ∈ gs2, e.1 < s.nextGang ∧ GangFrom s₀ free e.1 e.2 := by
      intro e he
      obtain ⟨x, hx, hxe⟩ := fst_mem_of_mem_reslot he
      obtain ⟨y, hy, rfl⟩ := List.mem_map.mp hx
      obtain ⟨hl, hg⟩ := mem_wgGangs hy
      obtain ⟨hlt, hfrom⟩ := h4 _ _ hg
      rw [← hxe]
      refine ⟨hlt, (lt_or_ge y.1 s₀.nextGang).elim (fun h0 => ?_) .inl⟩
      obtain ⟨v, hv, hiv⟩ := h5 wid w hw _ hl h0
      exact hfrom.imp_right fun ⟨g₀, hg₀, _⟩ => ⟨g₀, hg₀, .inl (hf v hv _ hiv)⟩
    have h1 : s1.Follows s₀ free := .frame (UnitsFrom.setGangs (UnitsFrom.setWg h (h5 wid w hw)) hgs)
    have h3 : s3.Follows s₀ free := .ite h1.setCpart h1.setCpart.enqueueStarter
    exact .ite h.terminate (.fillActive (.frame h3))

/-! ### The two events that say more: a grant of a claim, a restore

Each is stated of a state whose gangs and workgroups are those of the step's own start. -/

/-- Gangs that a saved workgroup lists. -/
def State.SavedGang (s : State) (id : Nat) : Prop := ∃ e ∈ s.wgs, e.2.status = .saved ∧ id ∈ e.2.gangs

/-- Workgroups are those of an earlier state, and every gang is one of it with the same waits. -/
def State.SameUnits (s s₀ : State) : Prop :=
  s.wgs = s₀.wgs ∧ ∀ id g, s.gangs.find? id = some g → ∃ g₀, s₀.gangs.find? id = some g₀ ∧ g₀.Keeps g ∧ g.waits = g₀.waits

theorem State.SameUnits.refl (s : State) : s.SameUnits s := ⟨rfl, fun _ g hg => ⟨g, hg, g.keeps, rfl⟩⟩

theorem State.SameUnits.frame {t : State} (h : s.SameUnits s₀) (hw : t.wgs = s.wgs) (hg : t.gangs = s.gangs) :
    t.SameUnits s₀ := by
  obtain ⟨h1, h2⟩ := h
  exact ⟨hw.trans h1, hg ▸ h2⟩

theorem State.SameUnits.updGang {gid : Nat} {f : Gang → Gang} (h : s.SameUnits s₀) (hf : ∀ g : Gang, g.Keeps (f g))
    (hx : ∀ g : Gang, (f g).waits = g.waits) : (s.updGang gid f).SameUnits s₀ := by
  obtain ⟨h1, h2⟩ := h
  refine ⟨h1, fun id g' e => ?_⟩
  simp only [State.updGang, SMap.find?_upd] at e
  split at e
  · next hi =>
    obtain ⟨g, hg, rfl⟩ := Option.map_eq_some_iff.mp e
    obtain ⟨g₀, hg₀, hk, hx₀⟩ := h2 gid g hg
    exact ⟨g₀, hi ▸ hg₀, hk.trans (hf g), (hx g).trans hx₀⟩
  · exact h2 id g' e

/-- Members of a unit are workgroups that stand. -/
theorem find?_of_mem_unitOf {wid : Nat} {e : Nat × Wg} (hw : s.wgs.wf = true) (he : e ∈ s.unitOf wid) :
    s.wgs.find? e.1 = some e.2 := by
  unfold State.unitOf at he
  split at he
  · cases he
  · next w hf =>
    split at he
    · cases List.mem_singleton.mp he
      exact hf
    · simp only [State.groupOf] at he
      split at he
      · cases he
      · exact SMap.find?_of_mem hw (List.mem_of_mem_filter he)

theorem State.Follows.execContextRestore {wg pid} (h : s.Follows s₀ s₀.SavedGang) (hs : s.SameUnits s₀) :
    OutFollows s₀ s₀.SavedGang (Machine.execContextRestore wg pid s) := by
  unfold Machine.execContextRestore
  extract_lets ms
  split
  · exact h.next
  · rename_i w hw
    extract_lets part here
    split
    · exact h.next
    · rename_i hok
      have hall : ∀ e ∈ ms, e.2.status = .saved := by
        intro e he
        simp only [Bool.or_eq_true, Bool.not_eq_true', not_or, Bool.not_eq_false, List.all_eq_true, Bool.and_eq_true,
          decide_eq_true_eq] at hok
        exact (hok.2 e he).1
      have hfree : ∀ e ∈ ms, ∀ v, s₀.wgs.find? e.1 = some v → ∀ id ∈ v.gangs, s₀.SavedGang id := by
        intro e he v hv id hi
        have hf := find?_of_mem_unitOf h.2.1 he
        rw [hs.1, hv] at hf
        cases hf
        exact ⟨_, SMap.mem_of_find? hv, hall e he, hi⟩
      split
      · rename_i h0
        have hm : (wg, w) ∈ ms := by simp [ms, State.unitOf, hw, h0]
        exact .ite (h.restoreWg (hfree _ hm)).finish h.next
      · split
        · exact h.next
        · refine State.Follows.finish (h.foldl fun _ i h => ?_)
          split
          · next e he => exact h.restoreWg (hfree e (List.mem_of_getElem? he))
          · exact h

/-- An entry that a claim in the list of claims asks for is among those that the gang's waiting claims ask for. -/
theorem mem_claims {pid o gid n : Nat} {x : Wait} (hg : s.gangs.wf = true) (h : (o, gid, x, n) ∈ s.claims pid) :
    ∃ g, s.gangs.find? gid = some g ∧ n ≤ g.claimed := by
  obtain ⟨i, _, hi⟩ := List.mem_filterMap.mp h
  obtain ⟨e, he, hx⟩ := List.mem_flatMap.mp (List.mem_of_getElem? hi)
  obtain ⟨y, hy, hk⟩ := List.mem_filterMap.mp hx
  split at hk
  · next m o' hkind =>
    cases hk
    refine ⟨e.2, SMap.find?_of_mem hg (List.mem_of_mem_filter he), List.single_le_sum (fun _ _ => Nat.zero_le _) _ ?_⟩
    exact List.mem_map.mpr ⟨x, hy, by rw [hkind]⟩
  · cases hk

theorem State.Follows.execXclaimGrant {pid} (h : s.Follows s₀ free) (hs : s.SameUnits s₀) :
    OutFollows s₀ free (Machine.execXclaimGrant pid s) := by
  unfold Machine.execXclaimGrant
  split
  · exact h.next
  · rename_i o gid x n rest hc
    refine .ite h.next (State.Follows.next ?_)
    obtain ⟨g, hg, hn⟩ := mem_claims h.1 (hc ▸ List.mem_cons_self .. : (o, gid, x, n) ∈ s.claims pid)
    obtain ⟨g₀, hg₀, ⟨k1, k2, k3, k4⟩, hx⟩ := hs.2 gid g hg
    obtain ⟨h1, h2, h3, h4, h5⟩ := h
    refine ⟨SMap.wf_upd _ _ h1, h2, h3, fun id k e => ?_, h5⟩
    simp only [State.updGang, SMap.find?_upd] at e
    split at e
    · next hi =>
      subst hi
      rw [hg] at e
      cases e
      refine ⟨(h4 id g hg).1, .inr ⟨g₀, hg₀, .inr ?_⟩⟩
      have hgr : g₀.Stepped ((g.dropWaits fun y => y.id = x.id).grant n) := by
        refine ⟨k1, k2, k3, fun hfit => ?_⟩
        have hcl : g.claimed = g₀.claimed := by rw [Gang.claimed, hx]; rfl
        show g.xcount + n ≤ g.xlimit
        omega
      exact hgr.keeps (Gang.keeps _).advance
    · exact h4 id k e

/-! ### Events of gangs and core partitions -/

theorem State.Follows.execProducerWriteback {gang idx} (h : s.Follows s₀ free) :
    OutFollows s₀ free (Machine.execProducerWriteback gang idx s) := by
  unfold Machine.execProducerWriteback
  split
  · exact h.next
  · exact .ite (h.updGang fun g => g.keeps.complete).next h.next

theorem State.Follows.execLaneExited {gang} (h : s.Follows s₀ free) : OutFollows s₀ free (Machine.execLaneExited gang s) := by
  unfold Machine.execLaneExited
  split
  · exact h.next
  · exact .ite h.next (.ite (State.Follows.finish (.takeTrap (.updGang h fun g => .frame g.keeps)))
        (State.Follows.finish (.exitNow (.updGang h fun g => .frame g.keeps))))

theorem State.Follows.execSleepWake {gang} (h : s.Follows s₀ free) : OutFollows s₀ free (Machine.execSleepWake gang s) := by
  unfold Machine.execSleepWake
  split
  · exact h.next
  · exact .ite h.next (State.Follows.next (.updGang h fun g => .frame g.keeps))

theorem State.Follows.execActiveSetRemove {pid} (h : s.Follows s₀ free) :
    OutFollows s₀ free (Machine.execActiveSetRemove pid s) := by
  unfold Machine.execActiveSetRemove
  exact State.Follows.next (.fillActive (.foldl h fun _ _ h => .ite (.updGang h fun g => .frame g.keeps) h))

theorem State.Follows.execQuadSplit {gang quad} (h : s.Follows s₀ free) :
    OutFollows s₀ free (Machine.execQuadSplit gang quad s) := by
  unfold Machine.execQuadSplit
  split
  · exact h.next
  · extract_lets
    split
    · exact .ite h.next (State.Follows.next (.updGang h fun g => .frame g.keeps))
    · exact h.next

theorem State.Follows.execXgiveCredit {gang} (h : s.Follows s₀ free) :
    OutFollows s₀ free (Machine.execXgiveCredit gang s) := by
  unfold Machine.execXgiveCredit
  split
  · exact h.next
  · split
    · exact h.next
    · refine (h.updGang fun g => ?_).next
      exact Gang.Keeps.advance ⟨.refl _, rfl, rfl, Nat.sub_le _ _⟩

theorem State.Follows.deadlockTrap {gid xfree} (h : s.Follows s₀ free) : (s.deadlockTrap gid xfree).Follows s₀ free := by
  unfold State.deadlockTrap
  split
  · exact h
  · extract_lets
    split
    · exact h
    · exact .takeTrap (.updGang h fun g => .frame g.keeps)

theorem State.Follows.execRegDeadlockReport {pid} (h : s.Follows s₀ free) :
    OutFollows s₀ free (Machine.execRegDeadlockReport pid s) := by
  unfold Machine.execRegDeadlockReport
  split
  · exact h.next
  · extract_lets
    split
    · exact h.next
    · exact (h.setCpart.foldl fun _ _ h => h.deadlockTrap).next

theorem State.Follows.execBinTimerExpire {pid bin} (h : s.Follows s₀ free) :
    OutFollows s₀ free (Machine.execBinTimerExpire pid bin s) := by
  unfold Machine.execBinTimerExpire
  extract_lets
  split
  · exact h.next
  · exact .ite h.setCpart.next h.next

theorem State.Follows.execBinLaunch {pid} (h : s.Follows s₀ free) : OutFollows s₀ free (Machine.execBinLaunch pid s) := by
  unfold Machine.execBinLaunch
  extract_lets
  split
  · exact h.next
  · split
    · exact h.setCpart.next
    · split
      · split
        · exact h.next
        · split
          · exact h.next
          · split
            · exact h.next
            · exact .ite h.next (State.Follows.finish (.refill (.updLaunch (h.takeFree.setCpart.addWg))))
      · exact h.next

theorem State.Follows.execStarterWave {cluster} (h : s.Follows s₀ free) :
    OutFollows s₀ free (Machine.execStarterWave cluster s) := by
  unfold Machine.execStarterWave
  exact .ite h.next (.ite h.next (State.Follows.next (.foldl (.frame h) fun _ _ h => (h.updGang fun g => .frame g.keeps))))

theorem State.Follows.execRdvStallWatchdog {gang pc} (h : s.Follows s₀ free) :
    OutFollows s₀ free (Machine.execRdvStallWatchdog gang pc s) := by
  unfold Machine.execRdvStallWatchdog
  split
  · exact h.rdvStall.next
  · exact h.next

theorem State.Follows.qpopSleep {gid w x q t vd sd m parked} (h : s.Follows s₀ free) :
    (s.qpopSleep gid w x q t vd sd m parked).Follows s₀ free := by
  unfold State.qpopSleep
  split
  rename_i s1 e
  have h1 : s1.Follows s₀ free := by
    refine .of_snd ?_ e
    split
    · exact h
    · split
      · exact h.arm
      · exact h
  exact h1.updGang fun g => .frame g.keeps

theorem State.Follows.qpopAgain {gid w g x q t vd sd m parked} (h : s.Follows s₀ free) :
    (s.qpopAgain gid w g x q t vd sd m parked).Follows s₀ free := by
  unfold State.qpopAgain
  extract_lets
  split
  · exact h
  · split
    · exact .takeTrap (.updGang h.markCopied.signal fun g => .frame g.keeps)
    · exact .ite (.parkPages (.updGang h fun g => .frame g.keeps)) (.ite h.qpopTry h.qpopTry.pruneMonitors.qpopSleep)

theorem State.Follows.execWaitcWake {gang idx} (h : s.Follows s₀ free) :
    OutFollows s₀ free (Machine.execWaitcWake gang idx s) := by
  unfold Machine.execWaitcWake
  split
  · exact h.next
  · split
    · split
      · exact h.repeatRead.finish
      · exact h.next
    · exact h.next

theorem State.Follows.execParkedPoll {gang idx} (h : s.Follows s₀ free) :
    OutFollows s₀ free (Machine.execParkedPoll gang idx s) := by
  unfold Machine.execParkedPoll
  split
  · exact h.next
  · split
    · split
      · exact .ite h.repeatRead.finish h.next
      · exact .ite h.qpopAgain.finish h.next
      · exact h.next
    · exact h.next

theorem State.Follows.execQpopCopy {gang idx} (h : s.Follows s₀ free) :
    OutFollows s₀ free (Machine.execQpopCopy gang idx s) := by
  unfold Machine.execQpopCopy
  split
  · exact h.next
  · split
    · split
      · exact h.qpopAgain.finish
      · exact h.next
    · exact h.next

theorem State.Follows.execWcbDrainTimeout {core line} (h : s.Follows s₀ free) :
    OutFollows s₀ free (Machine.execWcbDrainTimeout core line s) := by
  unfold Machine.execWcbDrainTimeout
  exact .ite h.drainLine.finish (.ite h.drainPoint.finish h.next)

/-! ### The task window -/

theorem State.Follows.setPort {part p x} (h : s.Follows s₀ free) : (s.setPort part p x).Follows s₀ free := .frame h
theorem State.Follows.updTask {id f} (h : s.Follows s₀ free) : (s.updTask id f).Follows s₀ free := .frame h
theorem State.Follows.returnHandle {part h'} (h : s.Follows s₀ free) : (s.returnHandle part h').Follows s₀ free := .frame h

theorem State.Follows.winPut {tenant n va bs bad} (h : s.Follows s₀ free) :
    (s.winPut tenant n va bs bad).Follows s₀ free := by
  induction n generalizing s va bs bad with
  | zero => exact h
  | succ n ih =>
    unfold State.winPut
    split
    · exact h
    · split
      · exact ih h.walkUse.engWrite
      · exact h

theorem State.Follows.winWrite {tenant va bs bad} (h : s.Follows s₀ free) :
    (s.winWrite tenant va bs bad).Follows s₀ free := h.winPut

theorem State.Follows.winTouch {tenant va n byp} (h : s.Follows s₀ free) : (s.winTouch tenant va n byp).Follows s₀ free := by
  unfold State.winTouch
  extract_lets
  refine h.foldl fun _ _ h => ?_
  extract_lets
  split
  · exact h.walkUse.touchFor
  · exact h

theorem State.Follows.addTask {t} (h : s.Follows s₀ free) : (s.addTask t).Follows s₀ free := .frame h

theorem State.Follows.decodeFault {part port i f d} (h : s.Follows s₀ free) :
    (s.decodeFault part port i f d).Follows s₀ free := by
  unfold State.decodeFault
  exact .setPort (.frame h)

theorem State.Follows.countStall {part k off} (h : s.Follows s₀ free) : (s.countStall part k off).Follows s₀ free := by
  unfold State.countStall
  exact .ite h (.frame h)

theorem State.Follows.badTask {part port i f d n} (h : s.Follows s₀ free) :
    (s.badTask part port i f d n).Follows s₀ free := by
  unfold State.badTask
  exact .ite h (.ite h.countStall h.winTouch.decodeFault)

theorem State.Follows.taskWord {i bs first late f post} (h : s.Follows s₀ free)
    (hpost : ∀ t k, t.Follows s₀ free → (post t k).1.Follows s₀ free) :
    OutFollows s₀ free (Machine.taskWord i bs first late f post s) := by
  unfold Machine.taskWord
  split
  · exact h.next
  · extract_lets p addr d0 __src d1 n bad
    split
    · exact h.next
    · clear_value bad
      split
      · exact h.badTask.finish
      · split
        · exact h.badTask.finish
        · exact .ite h.next (.ite h.badTask.finish h.countStall.next)
        · exact .ite h.countStall.next (State.Follows.finish (.setPort (hpost _ _ (.frame h.winTouch))))

theorem State.Follows.noPost {p} (h : s.Follows s₀ free) : (Machine.noPost s p).1.Follows s₀ free := h

theorem State.Follows.execTphase {w} (h : s.Follows s₀ free) : OutFollows s₀ free (Machine.execTphase w s) := by
  unfold Machine.execTphase
  exact h.taskWord fun _ _ h => .frame h

theorem State.Follows.lateTask {i bs first f} (h : s.Follows s₀ free) :
    OutFollows s₀ free (Machine.lateTask i bs first f s) :=
  h.taskWord fun _ _ h => h.noPost

theorem State.Follows.collTask {i w} (h : s.Follows s₀ free) : OutFollows s₀ free (Machine.collTask i w s) := h.lateTask
theorem State.Follows.plainTask {i} (h : s.Follows s₀ free) : OutFollows s₀ free (Machine.plainTask i s) := h.lateTask
theorem State.Follows.portPage {part port va} (h : s.Follows s₀ free) : (s.portPage part port va).Follows s₀ free := .frame h
theorem State.Follows.dropDecode {part port} (h : s.Follows s₀ free) : (s.dropDecode part port).Follows s₀ free := .frame h

/-! ### The fabric -/

theorem State.Follows.report {what which} (h : s.Follows s₀ free) : (s.report what which).Follows s₀ free := by
  unfold State.report
  exact .ite (.frame h) (.frame h)

theorem State.Follows.waitedReports (h : s.Follows s₀ free) : s.waitedReports.Follows s₀ free := by
  unfold State.waitedReports
  exact .ite (.frame h) h

theorem State.Follows.ethCount {p k n} (h : s.Follows s₀ free) : (s.ethCount p k n).Follows s₀ free := h.setCreg
theorem State.Follows.setConn {k c} (h : s.Follows s₀ free) : (s.setConn k c).Follows s₀ free := .frame h

theorem State.Follows.startConns {remote} (h : s.Follows s₀ free) : (s.startConns remote).Follows s₀ free := by
  unfold State.startConns
  exact h.foldl fun _ _ h => .frame h

theorem State.Follows.emit {port kind h' payload} (h : s.Follows s₀ free) :
    (s.emit port kind h' payload).Follows s₀ free := by
  unfold State.emit
  exact .ethCount (.frame h)

theorem State.Follows.emitSeq {remote vc c p} (h : s.Follows s₀ free) : (s.emitSeq remote vc c p).Follows s₀ free := h.emit

theorem State.Follows.pump {remote vc n} (h : s.Follows s₀ free) : (s.pump remote vc n).Follows s₀ free := by
  induction n generalizing s with
  | zero => exact h
  | succ n ih =>
    unfold State.pump
    extract_lets c
    split
    · exact h
    · exact .ite h (ih h.setConn.emitSeq)

theorem State.Follows.sendSeq {remote vc payload n} (h : s.Follows s₀ free) :
    (s.sendSeq remote vc payload n).Follows s₀ free := by
  unfold State.sendSeq
  exact .ite h h.setConn.pump

theorem State.Follows.sendPieces {remote vc n bs k} (h : s.Follows s₀ free) :
    (s.sendPieces remote vc n bs k).Follows s₀ free := by
  induction k generalizing s bs with
  | zero => exact h
  | succ k ih =>
    unfold State.sendPieces
    exact .ite h (ih h.sendSeq)

theorem State.Follows.sendData {remote vc bs} (h : s.Follows s₀ free) :
    (s.sendData remote vc bs).Follows s₀ free := h.sendPieces

theorem State.Follows.sendTime {remote} (h : s.Follows s₀ free) : (s.sendTime remote).Follows s₀ free := by
  unfold State.sendTime
  exact .ite h h.emit

theorem State.Follows.setCeiling (h : s.Follows s₀ free) : s.setCeiling.Follows s₀ free := .frame h

theorem State.Follows.carryNotice {n dst} (h : s.Follows s₀ free) : (s.carryNotice n dst).Follows s₀ free := by
  unfold State.carryNotice
  exact .ite h.sendData.sendSeq h.fabricSend

theorem State.Follows.sendNotice {g n} (h : s.Follows s₀ free) : (s.sendNotice g n).Follows s₀ free := by
  unfold State.sendNotice
  exact .foldl (.frame h) fun _ _ h => h.carryNotice

theorem State.Follows.addOwnLimit {group l} (h : s.Follows s₀ free) : (s.addOwnLimit group l).Follows s₀ free := .frame h

theorem State.Follows.sendLimit {limit} (h : s.Follows s₀ free) : (s.sendLimit limit).Follows s₀ free := by
  unfold State.sendLimit
  extract_lets
  refine .foldl (.frame h) fun _ _ h => ?_
  split
  · exact h.addOwnLimit.sendNotice
  · exact h

theorem State.Follows.joinGroup {g} (h : s.Follows s₀ free) : (s.joinGroup g).Follows s₀ free := by
  unfold State.joinGroup
  exact .setCeiling (.sendNotice (.frame h))

theorem State.Follows.sendLeave {g} (h : s.Follows s₀ free) : (s.sendLeave g).Follows s₀ free := by
  unfold State.sendLeave
  exact .setCeiling (.sendNotice (.frame h))

theorem State.Follows.leaveGroup {g} (h : s.Follows s₀ free) : (s.leaveGroup g).Follows s₀ free := by
  unfold State.leaveGroup
  exact .ite h.sendLeave (.frame h)

theorem State.Follows.unbindPort {part port} (h : s.Follows s₀ free) : (s.unbindPort part port).Follows s₀ free := by
  unfold State.unbindPort
  extract_lets
  split
  · exact h
  · exact .ite (.leaveGroup (.frame h)) (.frame h)

theorem State.Follows.collPut {part port n rank m} (h : s.Follows s₀ free) :
    (s.collPut part port n rank m).Follows s₀ free := .frame h

theorem State.Follows.collDeliver {x} (h : s.Follows s₀ free) : (s.collDeliver x).Follows s₀ free := by
  unfold State.collDeliver
  exact .ite (h.foldl fun _ _ h => h.collPut) (.frame (h.foldl fun _ _ h => h))

theorem State.Follows.takeMessages {part port group} (h : s.Follows s₀ free) :
    (s.takeMessages part port group).Follows s₀ free :=
  h.foldl fun _ _ h => h.collPut

theorem State.Follows.sendColl {part port g n m} (h : s.Follows s₀ free) : (s.sendColl part port g n m).Follows s₀ free := by
  unfold State.sendColl
  exact h.collDeliver.foldl fun _ _ h => .ite h.sendData h.fabricSend

theorem State.Follows.collSend {part port g n m} (h : s.Follows s₀ free) : (s.collSend part port g n m).Follows s₀ free := by
  unfold State.collSend
  exact .ite h.sendColl (.frame h)

theorem State.Follows.sendAbort {part port} (h : s.Follows s₀ free) : (s.sendAbort part port).Follows s₀ free := by
  unfold State.sendAbort
  extract_lets
  split
  · exact h
  · exact h.collSend

theorem State.Follows.waitedRequests (h : s.Follows s₀ free) : s.waitedRequests.Follows s₀ free := by
  unfold State.waitedRequests
  extract_lets go
  have hgo : ∀ s' a, s'.Follows s₀ free → (go s' a).Follows s₀ free := by
    intro s' a hs'
    unfold go
    split
    · exact .ite hs'.sendLeave (.frame hs')
    · exact .ite hs'.sendColl (.frame hs')
  exact .foldl (.frame h) hgo

/-! ### Issue of tasks -/

theorem State.Follows.failTask {id f} (h : s.Follows s₀ free) : (s.failTask id f).Follows s₀ free := h.updTask
theorem State.Follows.failWith {id cause detail} (h : s.Follows s₀ free) :
    (s.failWith id cause detail).Follows s₀ free := h.failTask
theorem State.Follows.doneTask {id} (h : s.Follows s₀ free) : (s.doneTask id).Follows s₀ free := h.updTask.clearResident

theorem State.Follows.taskPage {id va kind} (h : s.Follows s₀ free) : (s.taskPage id va kind).Follows s₀ free := by
  unfold State.taskPage
  split
  · exact h
  · exact .frame h

theorem State.Follows.onWin {α : Type} {id kind} {r : WinRes α} {f : α → State} (h : s.Follows s₀ free)
    (hf : ∀ x, (f x).Follows s₀ free) :
    (s.onWin id kind r f).Follows s₀ free := by
  unfold State.onWin
  split
  · exact hf _
  · exact h.taskPage
  · exact h.failWith

theorem State.Follows.newLaunch {id t r sp count} (h : s.Follows s₀ free) :
    (s.newLaunch id t r sp count).Follows s₀ free := by
  unfold State.newLaunch
  exact .updTask (.frame h)

theorem State.Follows.issueLaunch {id t rec_ count draw zero} (h : s.Follows s₀ free)
    (hzero : ∀ t, t.Follows s₀ free → (zero t).Follows s₀ free) :
    (s.issueLaunch id t rec_ count draw zero).Follows s₀ free := by
  unfold State.issueLaunch
  extract_lets ten s1
  have h1 : s1.Follows s₀ free := h.winTouch
  split
  · exact h.failWith
  · split
    · exact h.taskPage
    · exact h.failWith
    · extract_lets r table go
      have htable : ∀ f : State → List SpawnEntry → State, (∀ t sp, t.Follows s₀ free → (f t sp).Follows s₀ free) →
          (table f).Follows s₀ free := by
        intro f hf
        unfold table
        split
        · exact h.taskPage
        · exact h1.failWith
        · exact hf _ _ h1.winTouch
      clear_value table
      have hgo : ∀ t sp, t.Follows s₀ free → (go t sp).Follows s₀ free := fun t sp ht => .ite (hzero t ht) ht.newLaunch
      split
      · exact h1.failTask
      · split
        · apply htable
          intro t sp ht
          split
          · exact ht.failWith
          · split
            · exact ht.failTask
            · exact hgo _ _ ht
        · split
          · exact h1.failTask
          · exact htable _ hgo

theorem State.Follows.placeCmd {id k part} (h : s.Follows s₀ free) : (s.placeCmd id k part).Follows s₀ free := by
  unfold State.placeCmd
  split
  · exact h
  · exact .updTask (.frame h)

theorem State.Follows.appendFrame {enc p bits} (h : s.Follows s₀ free) : (s.appendFrame enc p bits).Follows s₀ free := by
  unfold State.appendFrame
  split
  extract_lets
  split
  · exact .frame h
  · split
    · exact .frame h.winWrite.winWrite
    · exact .frame h
    · exact .frame h
    · exact .frame h

theorem State.Follows.appendWaiting {enc} (h : s.Follows s₀ free) : (s.appendWaiting enc).Follows s₀ free := by
  unfold State.appendWaiting
  split
  · exact h.appendFrame
  · exact h

theorem State.Follows.issuePresent {id t w} (h : s.Follows s₀ free) : (s.issuePresent id t w).Follows s₀ free := by
  unfold State.issuePresent
  extract_lets ten head enc
  refine h.onWin fun _ => ?_
  split
  · exact h.winTouch.failWith
  · split
    · exact h.winTouch.failWith
    · split
      · exact h.winTouch.failTask
      · extract_lets pr s1 s2
        have h1 : s1.Follows s₀ free := by
          unfold s1
          clear_value head
          split
          · exact .frame h.winTouch
          · exact h.winTouch
        have h2 : s2.Follows s₀ free := by
          unfold s2
          clear_value enc
          split
          · exact .frame h1
          · exact h1
        exact h2.updTask

theorem State.Follows.issueColl {id t op w} (h : s.Follows s₀ free) : (s.issueColl id t op w).Follows s₀ free := by
  unfold State.issueColl
  extract_lets
  split
  · exact h.failWith
  · split
    · exact h.failWith
    · split
      · exact h.failWith
      · split
        · exact h.failWith
        · split
          · exact h.failWith
          · exact .ite h.setPort.updTask.doneTask (h.onWin fun _ => h.setPort.winTouch.updTask.collSend.collPut)

theorem State.Follows.onWord {id t a acc f} (h : s.Follows s₀ free) (hf : ∀ x, (f x).Follows s₀ free) :
    (s.onWord id t a acc f).Follows s₀ free := by
  unfold State.onWord
  split
  · exact h.failWith
  · split
    · exact hf _
    · exact h.taskPage
    · exact h.failWith

theorem State.Follows.tryWait {id t w} (h : s.Follows s₀ free) : (s.tryWait id t w).Follows s₀ free := by
  unfold State.tryWait
  extract_lets
  refine h.onWord fun _ => ?_
  split
  · exact h.failWith
  · extract_lets s0
    have h0 : s0.Follows s₀ free := h.touchFor
    split
    · exact h0.updTask.doneTask
    · split
      rename_i s1 e
      have h1 : s1.Follows s₀ free := by
        refine .of_snd ?_ e
        split
        · exact h0
        · exact h0.arm
      exact h1.updTask

theorem State.Follows.loadK {id t n x} (h : s.Follows s₀ free) : (s.loadK id t n x).Follows s₀ free := h.setPort.updTask

theorem State.Follows.issueGroup {id t w} (h : s.Follows s₀ free) : (s.issueGroup id t w).Follows s₀ free := by
  unfold State.issueGroup
  extract_lets
  split
  · exact h.failWith
  · split
    · exact h.taskPage
    · exact h.failWith
    · extract_lets
      split
      · exact h.taskPage
      · exact h.failWith
      · extract_lets
        split
        · exact h.winTouch.failWith
        · split
          · exact h.winTouch.failWith
          · split
            · exact h.winTouch.failWith
            · split
              · exact h.winTouch.taskPage
              · exact h.failWith
              · exact h.failWith
              · extract_lets out g s1
                have h1 : s1.Follows s₀ free := h.winTouch.winWrite.unbindPort
                exact .updTask (.ite h1.takeFree.joinGroup h1.takeFree)
          · exact h.winTouch.failWith

theorem State.Follows.issueTask {part id} (h : s.Follows s₀ free) : (s.issueTask part id).Follows s₀ free := by
  unfold State.issueTask
  split
  · exact h
  · split
    · exact h
    · extract_lets
      split
      · exact .doneTask (.frame h)
      · split
        · exact .failWith (.frame h)
        · exact .failTask (.frame h)
        · split
          · exact .issueLaunch (.frame h) fun _ h => h.updTask.doneTask
          · exact .issueLaunch (.frame h) fun _ h => h.updTask
          · exact .placeCmd (.frame h)
          · exact .placeCmd (.frame h)
          · exact .issuePresent (.frame h)
          · exact .tryWait (.frame h)
          · exact .onWord (.frame h) fun _ => .doneTask (.updTask (.engWrite (.frame h)))
          · exact .doneTask (.updTask (.frame h))
          · exact .onWord (.frame h) fun _ => .doneTask (.loadK (.updTask (.touchFor (.frame h))))
          · exact .issueGroup (.frame h)
          · split
            · exact .issueColl (.frame h)
            · exact .frame h

/-! ### End of tasks -/

theorem State.Follows.finishTask {id} (h : s.Follows s₀ free) : (s.finishTask id).Follows s₀ free := by
  unfold State.finishTask
  split
  · exact h
  · split
    · exact h.failWith.clearResident
    · exact h.doneTask

theorem State.Follows.reportTask {id tenant va n} (h : s.Follows s₀ free) :
    (s.reportTask id tenant va n).Follows s₀ free := by
  unfold State.reportTask
  exact .ite h h.updTask

theorem State.Follows.tryColl {id t op w} (h : s.Follows s₀ free) : (s.tryColl id t op w).Follows s₀ free := by
  unfold State.tryColl
  extract_lets
  split
  · exact h
  · split
    · exact h.failWith
    · split
      · exact h.failWith
      · extract_lets all
        split
        · exact h
        · clear_value all
          split
          · exact h
          · split
            · exact .failWith (.frame h)
            · exact h.onWin fun _ => .finishTask (.reportTask (.frame h.winWrite))

theorem State.Follows.tryPresent {id t w} (h : s.Follows s₀ free) : (s.tryPresent id t w).Follows s₀ free := by
  unfold State.tryPresent
  split
  · exact h
  · exact h.onWin fun _ => .ite (.doneTask (.frame h)) (h.onWin fun _ => .doneTask (.winWrite (.frame h)))

theorem State.Follows.tryGroup {id t} (h : s.Follows s₀ free) : (s.tryGroup id t).Follows s₀ free := by
  unfold State.tryGroup
  split
  · exact .ite h h.setPort.takeMessages.doneTask
  · exact h

theorem State.Follows.tryDraw {id t w} (h : s.Follows s₀ free) : (s.tryDraw id t w).Follows s₀ free := by
  unfold State.tryDraw
  split
  · exact h
  · split
    · exact h.finishTask
    · split
      · exact h.doneTask
      · extract_lets x s1 s2
        have h2 : s2.Follows s₀ free := h.updTask.issueLaunch fun _ h => h.finishTask
        exact .ite h2.updTask h2

theorem State.Follows.tryTask {part id} (h : s.Follows s₀ free) : (s.tryTask part id).Follows s₀ free := by
  unfold State.tryTask
  split
  · exact h
  · split
    · exact h
    · split
      · split
        · exact h.failTask.clearResident
        · exact .ite h.finishTask h
      · split
        · exact h.failTask.clearResident
        · exact h.tryDraw
      · split
        · exact h
        · split
          · exact h.failTask
          · exact h.finishTask
      · split
        · exact h
        · split
          · exact h.failTask
          · exact h.finishTask
      · split
        · exact h
        · exact .ite h (.ite (.frame (State.Follows.tryWait (.frame h))) (.tryWait (.frame h)))
      · exact h.tryPresent
      · exact h.tryGroup
      · split
        · exact h.tryColl
        · exact h

theorem State.Follows.execSnapshotTimeout {part port} (h : s.Follows s₀ free) :
    OutFollows s₀ free (Machine.execSnapshotTimeout part port s) := by
  unfold Machine.execSnapshotTimeout
  split
  · exact h.next
  · split
    · exact h.failWith.leaveGroup.next
    · exact h.next

theorem State.Follows.tryColls {part port n} (h : s.Follows s₀ free) : (s.tryColls part port n).Follows s₀ free :=
  h.foldl fun _ _ h => h.tryTask

theorem State.Follows.signalPort {part port} (h : s.Follows s₀ free) : (s.signalPort part port).Follows s₀ free := h.signal

theorem State.Follows.dropTask {part id} (h : s.Follows s₀ free) : (s.dropTask part id).Follows s₀ free := by
  unfold State.dropTask
  split
  · exact h
  · exact .frame h

theorem State.Follows.retireTask {part port id t} (h : s.Follows s₀ free) :
    (s.retireTask part port id t).Follows s₀ free := by
  unfold State.retireTask
  extract_lets p grp __src s1 s2
  have h2 : s2.Follows s₀ free := h.setPort.dropTask.foldl fun _ _ h => h.returnHandle
  split
  · exact h2.setPort.sendAbort.unbindPort.signalPort
  · exact h2

theorem State.Follows.cancelTasks {ts} (h : s.Follows s₀ free) : (s.cancelTasks ts).Follows s₀ free :=
  h.foldl fun _ _ h => h.foldl fun _ _ h => h.cancelLevel

theorem State.Follows.squash {part port ts} (h : s.Follows s₀ free) : (s.squash part port ts).Follows s₀ free := by
  unfold State.squash
  extract_lets s1 mine s2
  have h1 : s1.Follows s₀ free := h.foldl fun _ _ h => h.foldl fun _ _ h => h.returnHandle
  have h2 : s2.Follows s₀ free := h1.foldl fun _ _ h => h.dropTask
  exact .setPort (.dropDecode (.frame h2))

theorem State.Follows.faultStop {part port ts f} (h : s.Follows s₀ free) : (s.faultStop part port ts f).Follows s₀ free := by
  unfold State.faultStop
  exact .ite h.cancelTasks h.cancelTasks.squash.setPort.sendAbort.signalPort

theorem State.Follows.cancelStop {part port ts} (h : s.Follows s₀ free) : (s.cancelStop part port ts).Follows s₀ free := by
  unfold State.cancelStop
  exact .ite h.cancelTasks.setPort h.cancelTasks.setPort.squash.setPort.sendAbort.signalPort

theorem State.Follows.retirePort {part port n} (h : s.Follows s₀ free) : (s.retirePort part port n).Follows s₀ free := by
  induction n generalizing s with
  | zero => exact h
  | succ n ih =>
    unfold State.retirePort
    extract_lets p ts
    clear_value ts
    split
    · exact h
    · split
      · exact h.cancelStop
      · split
        · exact .ite h.dropDecode.setPort.sendAbort h
        · split
          · exact ih h.retireTask
          · exact h.faultStop
          · exact h

theorem State.Follows.startStream {part port} (h : s.Follows s₀ free) : (s.startStream part port).Follows s₀ free := by
  unfold State.startStream
  exact .ite h (h.foldl fun _ _ h => h.returnHandle).setPort

theorem State.Follows.execTctlGo {part port tenant} (h : s.Follows s₀ free) :
    OutFollows s₀ free (Machine.execTctlGo part port tenant s) := by
  unfold Machine.execTctlGo
  exact .ite h.defer.next (.ite h.next (State.Follows.next (.setPort (.frame h.startStream))))

theorem State.Follows.execTctlHalt {part port} (h : s.Follows s₀ free) :
    OutFollows s₀ free (Machine.execTctlHalt part port s) := by
  unfold Machine.execTctlHalt
  exact .ite h.defer.next (.ite h.setPort.next h.next)

theorem State.Follows.execFreeadd {part v} (h : s.Follows s₀ free) : OutFollows s₀ free (Machine.execFreeadd part v s) := by
  unfold Machine.execFreeadd
  exact .ite h.defer.next (.ite h.next (State.Follows.next (.returnHandle (.frame h))))

theorem State.Follows.setWlimit {part v} (h : s.Follows s₀ free) : (s.setWlimit part v).Follows s₀ free := h.setCreg

theorem State.Follows.cancelPhase {ph} (h : s.Follows s₀ free) : (s.cancelPhase ph).Follows s₀ free := by
  unfold State.cancelPhase
  split
  · exact h
  · extract_lets
    split
    · exact .frame h
    · exact h.cancelLevel

theorem State.Follows.cancelJob {job} (h : s.Follows s₀ free) : (s.cancelJob job).Follows s₀ free := by
  unfold State.cancelJob
  split
  · exact h
  · extract_lets
    split
    · exact .frame h
    · exact h.cancelLevel

theorem State.Follows.execHostCancel {level a b c} (h : s.Follows s₀ free) :
    OutFollows s₀ free (Machine.execHostCancel level a b c s) := by
  unfold Machine.execHostCancel
  split
  · exact h.defer.next
  · split
    · exact h.cancelLevel.finish
    · exact h.cancelLevel.finish
    · split
      · exact h.cancelPhase.finish
      · exact h.next
    · exact h.cancelJob.finish
    · exact h.next

end Sys2Proof.Machine
end

section
namespace Sys2Proof.Machine
variable {s₀ : State} {free : Nat → Prop} {s : State}

/-! ### Page faults, invalidation and ECC errors -/

theorem State.Follows.dropFault {f} (h : s.Follows s₀ free) : (s.dropFault f).Follows s₀ free := by
  unfold State.dropFault
  extract_lets
  split
  · exact .updGang (.frame h) fun g => .frame g.keeps
  · exact .frame h

theorem State.Follows.replayFault {f} (h : s.Follows s₀ free) : (s.replayFault f).Follows s₀ free := by
  unfold State.replayFault
  extract_lets
  split
  · split
    · exact h.dropFault.grantPlan
    · exact h.dropFault
  · exact h.dropFault.writeShadow
  · exact h.dropFault.appendWaiting
  · exact h.dropFault

theorem State.Follows.denyFault {f} (h : s.Follows s₀ free) : (s.denyFault f).Follows s₀ free := by
  unfold State.denyFault
  extract_lets
  split
  · split
    · exact h.dropFault
    · refine .takeTrap (.updGang (.giveUpIndices (.frame h.dropFault)) fun g => .frame (Gang.Keeps.foldl
          (.foldl g.keeps ?_) ?_))
      · exact fun _ _ h => h.closeMop
      · exact fun _ _ h => .frame h
  · split
    · exact h.dropFault
    · split
      · exact .ite h.dropFault.dropRt.engRetire.engTaskDone h.dropFault.dropRt.engRetire.engKill
      · exact h.dropFault.updCmd
  · exact h.dropFault.failWith
  · exact h.dropFault.setPort
  · exact h.dropFault
  · exact h.dropFault
  · exact .frame h.dropFault

theorem State.Follows.serviceFault {f} (h : s.Follows s₀ free) : (s.serviceFault f).Follows s₀ free := by
  unfold State.serviceFault
  exact .ite h.replayFault (.ite h.denyFault (.signal (.frame h)))

theorem State.Follows.execPageFaultService {part idx} (h : s.Follows s₀ free) :
    OutFollows s₀ free (Machine.execPageFaultService part idx s) := by
  unfold Machine.execPageFaultService
  split
  · exact h.next
  · split
    · exact h.serviceFault.finish
    · exact h.next

theorem State.Follows.execPfholdTimeout {part} (h : s.Follows s₀ free) :
    OutFollows s₀ free (Machine.execPfholdTimeout part s) := by
  unfold Machine.execPfholdTimeout
  extract_lets
  split
  · exact h.next
  · split
    · exact h.denyFault.finish
    · exact h.next

theorem State.Follows.execPfrespReplay {part tenant page} (h : s.Follows s₀ free) :
    OutFollows s₀ free (Machine.execPfrespReplay part tenant page s) := by
  unfold Machine.execPfrespReplay
  exact .ite h.defer.next (h.foldl fun _ _ h => .ite h.replayFault h.denyFault).finish

theorem State.Follows.execPfrespDeny {part tenant page} (h : s.Follows s₀ free) :
    OutFollows s₀ free (Machine.execPfrespDeny part tenant page s) := by
  unfold Machine.execPfrespDeny
  exact .ite h.defer.next (h.foldl fun _ _ h => h.denyFault).finish

theorem State.Follows.drainTenant {tenant} (h : s.Follows s₀ free) : (s.drainTenant tenant).Follows s₀ free := by
  unfold State.drainTenant
  extract_lets s1
  have h1 : s1.Follows s₀ free := h.foldl fun _ _ h => h.foldl fun _ _ h => h.drainLine
  exact h1.foldl fun _ _ h => h.foldl fun _ _ h => h.drainPoint

theorem State.Follows.execTlbInvalidate {tenant page} (h : s.Follows s₀ free) :
    OutFollows s₀ free (Machine.execTlbInvalidate tenant page s) := by
  unfold Machine.execTlbInvalidate
  exact .ite h.defer.next (State.Follows.finish (.frame h.drainTenant))

theorem State.Follows.countEcc {unit double} (h : s.Follows s₀ free) : (s.countEcc unit double).Follows s₀ free := by
  unfold State.countEcc
  exact .ite h.setCreg (.frame h)

theorem State.Follows.poisonUnit {unit addr} (h : s.Follows s₀ free) : (s.poisonUnit unit addr).Follows s₀ free := by
  unfold State.poisonUnit
  split
  · exact h.poisonAt
  · exact .ite h.poisonAt (.ite h.poisonAt (.ite (h.foldl fun _ _ h => h.poisonAt) (.ite (.frame h)
        (h.updGang fun g => .frame g.keeps))))

theorem State.Follows.execEccError {unit addr double} (h : s.Follows s₀ free) :
    OutFollows s₀ free (Machine.execEccError unit addr double s) := by
  unfold Machine.execEccError
  exact State.Follows.next (.ite h.countEcc.poisonUnit.report h.countEcc)

theorem State.Follows.execIllegalEncoding {sub} (h : s.Follows s₀ free) :
    OutFollows s₀ free (Machine.execIllegalEncoding sub s) := by
  unfold Machine.execIllegalEncoding
  split
  · exact h.next
  · split
    · exact h.badTask.finish
    · split
      · exact h.next
      · exact State.Follows.finish (.takeTrap (.updGang h.chargeIssue fun g => .frame g.keeps))

theorem State.Follows.execFetchFault {addr} (h : s.Follows s₀ free) : OutFollows s₀ free (Machine.execFetchFault addr s) := by
  unfold Machine.execFetchFault
  split
  · exact h.next
  · split
    · exact h.badTask.finish
    · split
      · exact h.next
      · exact h.takeTrap.finish

/-! ### Bring-up and firmware cores -/

/-- A package without gangs and workgroups. -/
def State.NoUnits (s : State) : Prop := s.gangs = [] ∧ s.wgs = []

theorem State.NoUnits.fresh : s.fresh.NoUnits := ⟨rfl, rfl⟩

/-- A step leaves a state that follows, or one that has no gangs and workgroups: one of power-up, cold reset or power-off
(18 R364). -/
def OutSteps (s₀ : State) (o : Out) : Prop := ∀ t, o = .next t → t.Follows s₀ s₀.SavedGang ∨ t.NoUnits

theorem OutFollows.steps {o : Out} (h : OutFollows s₀ s₀.SavedGang o) : OutSteps s₀ o := fun t e => .inl (h t e)

theorem State.NoUnits.steps (h : s.NoUnits) : OutSteps s₀ (.next s) := by
  rintro t ⟨rfl⟩; exact .inr h

theorem OutSteps.ite {c : Prop} [Decidable c] {o p : Out} (ho : OutSteps s₀ o) (hp : OutSteps s₀ p) :
    OutSteps s₀ (if c then o else p) := by
  split <;> assumption

/-- The events after which nothing stands. -/
def ResetEvent : Instr → Prop
  | .powerUp | .coldReset | .powerOff => True
  | _ => False

/-- A reset where it is due; else the package goes on. -/
theorem exec_resets {i : Instr} (hi : ResetEvent i) (h : s.Follows s₀ s₀.SavedGang) : OutSteps s₀ (Machine.exec i s) := by
  have hfresh : ∀ {c : Prop} [Decidable c], OutSteps s₀ (.next (if c then s else s.fresh)) := by
    intro c _
    split
    · exact h.next.steps
    · exact State.NoUnits.fresh.steps
  have hstay : ∀ {c : Prop} [Decidable c], OutSteps s₀ (.next (if c then s.fresh else s)) := by
    intro c _
    split
    · exact State.NoUnits.fresh.steps
    · exact h.next.steps
  cases i <;> try cases hi
  case powerUp => exact hfresh
  case coldReset => exact hstay
  case powerOff => exact State.NoUnits.steps ⟨rfl, rfl⟩

theorem State.Follows.execBootctlGo (h : s.Follows s₀ free) : OutFollows s₀ free (Machine.execBootctlGo s) := by
  unfold Machine.execBootctlGo
  exact State.Follows.next (.ite (.frame h) h)

theorem State.Follows.execBootImageCheckDone (h : s.Follows s₀ free) :
    OutFollows s₀ free (Machine.execBootImageCheckDone s) := by
  unfold Machine.execBootImageCheckDone
  split
  · exact h.next
  · extract_lets
    split <;> exact State.Follows.next (.frame h)

theorem State.Follows.resume (h : s.Follows s₀ free) : s.resume.Follows s₀ free := by
  unfold State.resume
  extract_lets calls s1
  have h1 : s1.Follows s₀ free := .ite (.frame (h.mapGangs fun g => .frame g.keeps)) h
  clear_value s1
  exact .waitedRequests (.waitedReports (.waitedTerms (.frame h1)))

theorem State.Follows.unstall (h : s.Follows s₀ free) : s.unstall.Follows s₀ free := by
  unfold State.unstall
  extract_lets s1
  have h1 : s1.Follows s₀ free := h.foldl fun _ _ h => .ite (.frame h) h
  exact .ite h1.resume h1

theorem State.Follows.restartCores {mask} (h : s.Follows s₀ free) : (s.restartCores mask).Follows s₀ free := by
  unfold State.restartCores
  exact .unstall (.frame h)

theorem State.Follows.execBootctlRestart {mask} (h : s.Follows s₀ free) :
    OutFollows s₀ free (Machine.execBootctlRestart mask s) := by
  unfold Machine.execBootctlRestart
  exact State.Follows.next (.ite h.restartCores h)

theorem State.Follows.execFwHeartbeat {core} (h : s.Follows s₀ free) :
    OutFollows s₀ free (Machine.execFwHeartbeat core s) := by
  unfold Machine.execFwHeartbeat
  exact .ite h.next (State.Follows.finish (.ite (.frame h) (.resume (.frame h))))

theorem State.Follows.execMailboxWrite {core sender kind seq payload} (h : s.Follows s₀ free) :
    OutFollows s₀ free (Machine.execMailboxWrite core sender kind seq payload s) := by
  unfold Machine.execMailboxWrite
  split
  · exact h.next
  · exact .ite h.next (.ite (State.Follows.next (.frame h)) (.ite h.setCreg.next (State.Follows.next (.frame h))))

theorem State.Follows.takeMail (h : s.Follows s₀ free) : s.takeMail.Follows s₀ free := by
  unfold State.takeMail
  exact .unstall (.frame h)

theorem State.Follows.tdiFail {part} (h : s.Follows s₀ free) : (s.tdiFail part).Follows s₀ free := by
  unfold State.tdiFail
  exact .ite (.frame h) h

theorem State.Follows.execMicrocodeLoad {part decls image} (h : s.Follows s₀ free) :
    OutFollows s₀ free (Machine.execMicrocodeLoad part decls image s) := by
  unfold Machine.execMicrocodeLoad
  split
  · exact h.next
  · exact .ite h.defer.next (.ite h.tdiFail.next (.ite h.next (.ite h.defer.next (State.Follows.next (.frame h)))))

theorem State.Follows.resetPartition {part} (h : s.Follows s₀ free) : (s.resetPartition part).Follows s₀ free := by
  unfold State.resetPartition
  extract_lets mine s1 cls s2 ts pres s3 slices s4 s5 s6
  have h1 : s1.Follows s₀ free := h.foldl fun _ _ h => h.dropWg
  have h2 : s2.Follows s₀ free := h1.foldl fun _ _ h => .frame (h.foldl fun _ _ h => h.drainScope)
  have h3 : s3.Follows s₀ free := h2.foldl fun _ _ h => h.dropTask
  have h5 : s5.Follows s₀ free := .foldl (.frame h3) fun _ _ h => .ite h.setPort h.setPort.sendAbort
  have h6 : s6.Follows s₀ free := h5.foldl fun _ _ h => h.unbindPort
  exact h6.pruneMonitors.tdiFail

theorem State.Follows.execPartitionReset {part} (h : s.Follows s₀ free) :
    OutFollows s₀ free (Machine.execPartitionReset part s) := by
  unfold Machine.execPartitionReset
  exact .ite h.next (.ite h.defer.next h.resetPartition.finish)

theorem State.Follows.dropSlot {slot} (h : s.Follows s₀ free) : (s.dropSlot slot).Follows s₀ free := by
  unfold State.dropSlot
  extract_lets s1 s2
  have h1 : s1.Follows s₀ free := h.foldl fun _ _ h => h.foldl fun _ _ h => h.drainLine
  have h2 : s2.Follows s₀ free := h1.foldl fun _ _ h => h.foldl fun _ _ h => h.drainPoint
  exact .frame h2

theorem State.Follows.eraseKeys (h : s.Follows s₀ free) : s.eraseKeys.Follows s₀ free := by
  unfold State.eraseKeys
  exact .foldl (.frame (h.foldl fun _ _ h => h.dropSlot)) fun _ _ h => h.setCreg

theorem State.Follows.execFunctionLevelReset (h : s.Follows s₀ free) :
    OutFollows s₀ free (Machine.execFunctionLevelReset s) := by
  unfold Machine.execFunctionLevelReset
  extract_lets s1
  have h1 : s1.Follows s₀ free := h.foldl fun _ _ h => h.resetPartition
  exact State.Follows.finish (.eraseKeys (.ite h1.restartCores h1))

/-! ### Power and clocks -/

theorem State.Follows.showPat {c pat} (h : s.Follows s₀ free) : (s.showPat c pat).Follows s₀ free := h.setCreg

theorem State.Follows.frameBegin (h : s.Follows s₀ free) : s.frameBegin.Follows s₀ free := by
  unfold State.frameBegin
  exact h.foldl fun _ _ h => .ite h h.showPat

theorem State.Follows.setClkpat {cluster v} (h : s.Follows s₀ free) : (s.setClkpat cluster v).Follows s₀ free := by
  unfold State.setClkpat
  exact .ite h (.showPat (.frame h))

theorem State.Follows.setSlope {cluster v} (h : s.Follows s₀ free) : (s.setSlope cluster v).Follows s₀ free := by
  unfold State.setSlope
  exact .ite h h.setCreg

theorem State.Follows.setPcap {v} (h : s.Follows s₀ free) : (s.setPcap v).Follows s₀ free := h.setCreg

theorem State.Follows.attributeTo {ts left} (h : s.Follows s₀ free) : (s.attributeTo ts left).Follows s₀ free := by
  induction ts generalizing s left with
  | nil => exact h
  | cons t ts ih => exact ih (.frame h.takeFree)

theorem State.Follows.execPeakTick {energy} (h : s.Follows s₀ free) : OutFollows s₀ free (Machine.execPeakTick energy s) := by
  unfold Machine.execPeakTick
  extract_lets ticks n n' below s1 s2
  have h1 : s1.Follows s₀ free := .setCreg (.frame h)
  have h2 : s2.Follows s₀ free := .ite h1 (h1.foldl fun _ _ h => h.showPat)
  exact State.Follows.next (.ite h2.attributeTo h2)

theorem State.Follows.execIntervalBoundary (h : s.Follows s₀ free) : OutFollows s₀ free (Machine.execIntervalBoundary s) := by
  unfold Machine.execIntervalBoundary
  exact State.Follows.next (.frame h)

theorem State.Follows.migrateHot {part} (h : s.Follows s₀ free) : (s.migrateHot part).Follows s₀ free := by
  unfold State.migrateHot
  extract_lets
  split
  · split
    · exact h
    · extract_lets
      split
      · exact h.updWg fun _ => rfl
      · exact h
  · exact h

theorem State.Follows.execPowerMsTick {energy temps} (h : s.Follows s₀ free) :
    OutFollows s₀ free (Machine.execPowerMsTick energy temps s) := by
  unfold Machine.execPowerMsTick
  extract_lets ticks e1s s1 n s2 s3
  have h1 : s1.Follows s₀ free := .setCreg (.frame h)
  have h2 : s2.Follows s₀ free := h1.foldl fun _ _ h => h.setCreg
  have h3 : s3.Follows s₀ free := by
    unfold s3
    split
    · exact h2.sendLimit
    · exact h2
  exact .ite h2.next (h3.setCeiling.foldl fun _ _ h => h.migrateHot).finish

/-! ### Displays -/

theorem State.Follows.presentDone {p bit} (h : s.Follows s₀ free) : (s.presentDone p bit).Follows s₀ free := h.updTask.tryTask

theorem State.Follows.execHeadFrameStart {head} (h : s.Follows s₀ free) :
    OutFollows s₀ free (Machine.execHeadFrameStart head s) := by
  unfold Machine.execHeadFrameStart
  extract_lets
  split
  · exact h.next
  · exact State.Follows.finish (.presentDone (.frame h))

theorem State.Follows.execEncoderFrameDone {enc bits} (h : s.Follows s₀ free) :
    OutFollows s₀ free (Machine.execEncoderFrameDone enc bits s) := by
  unfold Machine.execEncoderFrameDone
  extract_lets
  split
  · exact .ite h.next (State.Follows.finish (.appendFrame (.presentDone (.frame h))))
  · exact h.next

theorem State.Follows.execEncReadposWrite {enc pos} (h : s.Follows s₀ free) :
    OutFollows s₀ free (Machine.execEncReadposWrite enc pos s) := by
  unfold Machine.execEncReadposWrite
  exact .ite h.defer.next (State.Follows.finish (.appendWaiting (.frame h)))

/-! ### The Pacer -/

theorem State.Follows.bump {off} (h : s.Follows s₀ free) : (s.bump off).Follows s₀ free := h.setCreg

theorem State.Follows.noticeTo {g dst n} (h : s.Follows s₀ free) : (s.noticeTo g dst n).Follows s₀ free := by
  unfold State.noticeTo
  exact .carryNotice (.frame h)

theorem State.Follows.answerJoin {n pg} (h : s.Follows s₀ free) : (s.answerJoin n pg).Follows s₀ free := by
  unfold State.answerJoin
  split
  · exact h
  · exact .ite h.takeFree.sendNotice h

theorem State.Follows.snapshotArrived {group} (h : s.Follows s₀ free) : (s.snapshotArrived group).Follows s₀ free := .frame h

theorem State.Follows.answerStranger {n g} (h : s.Follows s₀ free) : (s.answerStranger n g).Follows s₀ free := by
  unfold State.answerStranger
  split
  · exact .ite h.noticeTo h
  · exact h

theorem State.Follows.acceptNotice {n} (h : s.Follows s₀ free) : (s.acceptNotice n).Follows s₀ free := by
  unfold State.acceptNotice
  split
  · exact h
  · extract_lets bad known old s1
    have h1 : s1.Follows s₀ free := .ite h.bump.report h
    split
    · exact h.bump
    · split
      · exact h
      · split
        · exact .setCeiling (.frame h1)
        · exact .ite (.setCeiling (.snapshotArrived (.frame h1))) (.ite (.setCeiling (.frame h1)) h1.answerStranger)
        · exact .setCeiling (.answerJoin (.frame h1))
        · clear_value known
          split
          · exact .setCeiling (.frame h1)
          · exact .ite h1.answerStranger (.setCeiling (.frame h1))

theorem State.Follows.deliverNotice {n} (h : s.Follows s₀ free) : (s.deliverNotice n).Follows s₀ free := by
  unfold State.deliverNotice
  exact .ite h.acceptNotice (.frame h)

theorem State.Follows.waitedNotices (h : s.Follows s₀ free) : s.waitedNotices.Follows s₀ free := by
  unfold State.waitedNotices
  exact .ite (.foldl (.frame h) fun _ _ h => h.acceptNotice) h

theorem State.Follows.startMembers {t} (h : s.Follows s₀ free) : (s.startMembers t).Follows s₀ free := by
  unfold State.startMembers
  refine h.foldl fun _ _ h => ?_
  split
  · exact h
  · exact h.foldl fun _ _ h => .ite h.startConns h

theorem State.Follows.execHeartbeatSend {group} (h : s.Follows s₀ free) :
    OutFollows s₀ free (Machine.execHeartbeatSend group s) := by
  unfold Machine.execHeartbeatSend
  split
  · exact h.next
  · split
    · exact h.next
    · extract_lets
      refine .next ?_
      exact .ite (h.addOwnLimit.sendNotice.foldl fun _ _ h => .ite h.sendTime h) h.addOwnLimit.sendNotice

theorem State.Follows.settleGroups (h : s.Follows s₀ free) : s.settleGroups.Follows s₀ free := .frame h

theorem State.Follows.execCeilingChange (h : s.Follows s₀ free) : OutFollows s₀ free (Machine.execCeilingChange s) := by
  unfold Machine.execCeilingChange
  exact State.Follows.next (.frame h)

theorem State.Follows.execClockLowerBegin {die} (h : s.Follows s₀ free) :
    OutFollows s₀ free (Machine.execClockLowerBegin die s) := by
  unfold Machine.execClockLowerBegin
  split
  · exact .ite (State.Follows.next (.frame h)) h.next
  · exact h.next

theorem State.Follows.execMemberDrop {group member} (h : s.Follows s₀ free) :
    OutFollows s₀ free (Machine.execMemberDrop group member s) := by
  unfold Machine.execMemberDrop
  split
  · exact h.next
  · split
    · exact h.next
    · exact .ite h.next (State.Follows.finish (.setCeiling (.bump (.frame h))))

theorem State.Follows.carry {x} (h : s.Follows s₀ free) : (s.carry x).Follows s₀ free := by
  unfold State.carry
  split <;> exact .frame h

theorem State.Follows.linkSend {i} (h : s.Follows s₀ free) : (s.linkSend i).Follows s₀ free := by
  unfold State.linkSend
  extract_lets
  split
  · exact h
  · split
    · split
      · exact .ite (.frame h) h
      · exact .frame h
    · split
      · exact h
      · exact .ite (.carry (.frame h)) (.frame h)

theorem State.Follows.peersDone {t} (h : s.Follows s₀ free) : (s.peersDone t).Follows s₀ free := by
  unfold State.peersDone
  extract_lets done s1
  have h1 : s1.Follows s₀ free := .frame (h.updGangs fun _ g => g.keeps.retry)
  exact .ite h1.resume h1

theorem State.Follows.linkControl {i l c} (h : s.Follows s₀ free) : (s.linkControl i l c).Follows s₀ free := by
  unfold State.linkControl
  split
  · exact h
  · exact .frame h
  · exact .peersDone (.frame h)
  · exact .frame h

theorem State.Follows.control {link b} (h : s.Follows s₀ free) : (s.control link b).Follows s₀ free := .frame h
theorem State.Follows.announce {link} (h : s.Follows s₀ free) :
    (s.announce link).Follows s₀ free := h.foldl fun _ _ h => h.takeFree.control

theorem State.Follows.execFlitReceive {link f} (h : s.Follows s₀ free) :
    OutFollows s₀ free (Machine.execFlitReceive link f s) := by
  unfold Machine.execFlitReceive
  extract_lets l l1 s1
  have h1 : s1.Follows s₀ free := .control (.frame h)
  split
  · exact h.next
  · split
    · exact State.Follows.next (.control (.frame h))
    · split
      · exact .ite (State.Follows.next (.frame h)) (.ite h1.bump.next (State.Follows.next (.frame h1)))
      · exact h.linkControl.finish

theorem State.Follows.execLinkRetrain {link} (h : s.Follows s₀ free) :
    OutFollows s₀ free (Machine.execLinkRetrain link s) := by
  unfold Machine.execLinkRetrain
  exact .ite h.next (State.Follows.finish (.peersDone (.foldl (.frame h) fun _ _ h => h.dispatchFlit)))

theorem State.Follows.execLinkRetrainDone {link} (h : s.Follows s₀ free) :
    OutFollows s₀ free (Machine.execLinkRetrainDone link s) := by
  unfold Machine.execLinkRetrainDone
  exact .ite h.next (State.Follows.next (.announce (.frame h)))

theorem State.Follows.extPerform {tenant l acc} (h : s.Follows s₀ free) :
    (s.extPerform tenant l acc).2.2.Follows s₀ free := by
  unfold State.extPerform
  extract_lets bytes bad step
  have hstep : ∀ n r, (step n r).2.2.Follows s₀ free := by
    intro n r
    unfold step
    split
    · exact .ite h h.engWrite
    · exact h
  split
  · exact h.touchFor
  · exact h.engWrite
  · exact hstep _ _
  · exact hstep _ _

theorem State.Follows.answerPeer {src pa bs bad} (h : s.Follows s₀ free) : (s.answerPeer src pa bs bad).Follows s₀ free := by
  unfold State.answerPeer
  exact .ite h h.fabricSend

theorem State.Follows.execPeerAccessReceive {part rkey pa acc} (h : s.Follows s₀ free) :
    OutFollows s₀ free (Machine.execPeerAccessReceive part rkey pa acc s) := by
  unfold Machine.execPeerAccessReceive
  exact .ite h.bump.report.answerPeer.next h.extPerform.answerPeer.finish

/-! ### The scale-out ports -/

theorem State.Follows.emitAck {port kind remote vc c} (h : s.Follows s₀ free) :
    (s.emitAck port kind remote vc c).Follows s₀ free := h.emit

theorem State.Follows.sendAck {port remote vc} (h : s.Follows s₀ free) : (s.sendAck port remote vc).Follows s₀ free := by
  unfold State.sendAck
  exact .ite h.setConn h.setConn.emitAck

theorem State.Follows.takeColls {k n} (h : s.Follows s₀ free) : (s.takeColls k n).Follows s₀ free := by
  induction n generalizing s with
  | zero => exact h
  | succ n ih =>
    unfold State.takeColls
    extract_lets b len x s1
    have h1 : s1.Follows s₀ free := .collDeliver (.frame h)
    exact .ite h (ih (h1.foldl fun _ _ h => h.tryColls))

theorem State.Follows.passUp {remote vc p} (h : s.Follows s₀ free) : (s.passUp remote vc p).Follows s₀ free := by
  unfold State.passUp
  extract_lets
  split
  · exact .ite (.deliverNotice (.frame h)) h.deliverNotice
  · exact .ite (.takeColls (.frame h)) (.ite (.frame h) (.frame h))

theorem State.Follows.takeInOrder {port remote vc p} (h : s.Follows s₀ free) :
    (s.takeInOrder port remote vc p).Follows s₀ free := by
  unfold State.takeInOrder
  exact .ite h.setConn.passUp.sendAck h.setConn.passUp

theorem State.Follows.takeHeld {port remote vc n} (h : s.Follows s₀ free) :
    (s.takeHeld port remote vc n).Follows s₀ free := by
  induction n generalizing s with
  | zero => exact h
  | succ n ih =>
    unfold State.takeHeld
    extract_lets
    split
    · exact h
    · exact ih h.setConn.takeInOrder

theorem State.Follows.recvSeq {port h' p} (h : s.Follows s₀ free) : (s.recvSeq port h' p).Follows s₀ free := by
  unfold State.recvSeq
  extract_lets k __src c0 s0
  have h0 : s0.Follows s₀ free := .ite h.ethCount h
  split
  · exact h0.setConn.takeInOrder.takeHeld
  · exact .ite h0.setConn (.ite h0.setConn.setConn.emitAck h0.setConn.setConn)

theorem State.Follows.resend {remote vc c ps} (h : s.Follows s₀ free) : (s.resend remote vc c ps).Follows s₀ free := by
  unfold State.resend
  exact .ite (h.foldl fun _ _ h => h.emitSeq.ethCount) h.setConn

theorem State.Follows.recvAck {h'} (h : s.Follows s₀ free) : (s.recvAck h').Follows s₀ free := by
  unfold State.recvAck
  extract_lets
  split
  · exact h
  · exact h.setConn.pump

theorem State.Follows.recvNack {h'} (h : s.Follows s₀ free) : (s.recvNack h').Follows s₀ free := by
  unfold State.recvNack
  extract_lets
  split
  · exact h
  · exact h.setConn.resend

theorem State.Follows.execRetransmitTimeout {conn} (h : s.Follows s₀ free) :
    OutFollows s₀ free (Machine.execRetransmitTimeout conn s) := by
  unfold Machine.execRetransmitTimeout
  split
  · exact h.next
  · split
    · exact h.next
    · split
      · exact h.setConn.resend.next
      · split
        · exact h.setConn.resend.next
        · exact h.setConn.next

theorem State.Follows.execAckTimer {conn} (h : s.Follows s₀ free) : OutFollows s₀ free (Machine.execAckTimer conn s) := by
  unfold Machine.execAckTimer
  extract_lets
  split
  · exact State.Follows.next (.ite h.sendAck h)
  · exact h.next

theorem State.Follows.recvTime {src stamp} (h : s.Follows s₀ free) : (s.recvTime src stamp).Follows s₀ free := by
  unfold State.recvTime
  exact .ite h (.ite h.report (.frame h))

theorem State.Follows.packetIn {port kind h' payload} (h : s.Follows s₀ free) :
    (s.packetIn port kind h' payload).Follows s₀ free := by
  unfold State.packetIn
  split
  · exact h.recvSeq
  · exact h.recvAck
  · exact h.recvNack
  · exact h.recvSeq
  · exact h.recvTime

theorem State.Follows.execDataPkt {port h' payload} (h : s.Follows s₀ free) :
    OutFollows s₀ free (Machine.execDataPkt port h' payload s) := by
  unfold Machine.execDataPkt
  exact State.Follows.finish (.ite h.packetIn h)

theorem State.Follows.execAckPkt {port h'} (h : s.Follows s₀ free) : OutFollows s₀ free (Machine.execAckPkt port h' s) := by
  unfold Machine.execAckPkt
  exact State.Follows.finish (.ite h.recvAck h)

theorem State.Follows.execNackPkt {port h'} (h : s.Follows s₀ free) : OutFollows s₀ free (Machine.execNackPkt port h' s) := by
  unfold Machine.execNackPkt
  exact State.Follows.finish (.ite h.recvNack h)

theorem State.Follows.execNoticePkt {port h' n} (h : s.Follows s₀ free) :
    OutFollows s₀ free (Machine.execNoticePkt port h' n s) := by
  unfold Machine.execNoticePkt
  exact State.Follows.finish (.ite h.recvSeq h)

theorem State.Follows.execTimePkt {port h' stamp} (h : s.Follows s₀ free) :
    OutFollows s₀ free (Machine.execTimePkt port h' stamp s) := by
  unfold Machine.execTimePkt
  exact State.Follows.finish (.ite h.recvTime h)

theorem State.Follows.sendPfc {port} (h : s.Follows s₀ free) : (s.sendPfc port).Follows s₀ free := by
  unfold State.sendPfc
  exact .ite h (.ite (.frame h) h.takeFree)

theorem State.Follows.execEthFrameReceive {port f} (h : s.Follows s₀ free) :
    OutFollows s₀ free (Machine.execEthFrameReceive port f s) := by
  unfold Machine.execEthFrameReceive
  exact .ite h.next (.ite h.ethCount.next h.ethCount.sendPfc.packetIn.finish)

theorem State.Follows.unpause {port prio} (h : s.Follows s₀ free) : (s.unpause port prio).Follows s₀ free := by
  unfold State.unpause
  exact .foldl (.frame h) fun _ _ h => .ite h (.pump (.ite h.setConn.resend h))

theorem State.Follows.execPfcReceive {port prio quanta} (h : s.Follows s₀ free) :
    OutFollows s₀ free (Machine.execPfcReceive port prio quanta s) := by
  unfold Machine.execPfcReceive
  exact .ite h.next (.ite h.ethCount.unpause.next (State.Follows.next (.frame h)))

theorem State.Follows.execPfcPauseExpiry {port prio} (h : s.Follows s₀ free) :
    OutFollows s₀ free (Machine.execPfcPauseExpiry port prio s) := by
  unfold Machine.execPfcPauseExpiry
  split
  · exact State.Follows.next (.ite h.unpause h)
  · exact h.next

theorem State.Follows.setStat {port bit b} (h : s.Follows s₀ free) : (s.setStat port bit b).Follows s₀ free := by
  unfold State.setStat
  exact .ite h h.setCreg

/-! ### SEC -/

theorem State.Follows.freeBytes {n} (h : s.Follows s₀ free) : (s.freeBytes n).2.Follows s₀ free := h.takeFree
theorem State.Follows.respond {code body} (h : s.Follows s₀ free) : (s.respond code body).Follows s₀ free := .frame h
theorem State.Follows.spdmError (h : s.Follows s₀ free) : s.spdmError.Follows s₀ free := h.respond

theorem State.Follows.onSec {f} (h : s.Follows s₀ free) (hf : ∀ t, t.Follows s₀ free → (f t).Follows s₀ free) :
    OutFollows s₀ free (Machine.onSec s f) := by
  unfold Machine.onSec
  exact State.Follows.next (.ite (hf _ h) h.defer)

theorem State.Follows.execGetVersion (h : s.Follows s₀ free) : OutFollows s₀ free (Machine.execGetVersion s) := by
  unfold Machine.execGetVersion
  exact h.onSec fun _ h => .respond (.frame h)

theorem State.Follows.execGetCapabilities (h : s.Follows s₀ free) : OutFollows s₀ free (Machine.execGetCapabilities s) := by
  unfold Machine.execGetCapabilities
  exact h.onSec fun _ h => .ite h.spdmError (.respond (.frame h))

theorem State.Follows.execNegotiateAlgorithms {sign hash aead} (h : s.Follows s₀ free) :
    OutFollows s₀ free (Machine.execNegotiateAlgorithms sign hash aead s) := by
  unfold Machine.execNegotiateAlgorithms
  exact h.onSec fun _ h => .ite h.spdmError (.respond (.frame h))

theorem State.Follows.execGetDigests (h : s.Follows s₀ free) : OutFollows s₀ free (Machine.execGetDigests s) := by
  unfold Machine.execGetDigests
  exact h.onSec fun _ h => .ite h.spdmError (.respond (.frame h))

theorem State.Follows.execGetCertificate {slot off len} (h : s.Follows s₀ free) :
    OutFollows s₀ free (Machine.execGetCertificate slot off len s) := by
  unfold Machine.execGetCertificate
  exact h.onSec fun _ h => .ite h.spdmError (.respond (.frame h))

theorem State.Follows.execChallenge {slot nonce} (h : s.Follows s₀ free) :
    OutFollows s₀ free (Machine.execChallenge slot nonce s) := by
  unfold Machine.execChallenge
  exact h.onSec fun _ h => .ite h.spdmError (.respond (.frame h))

theorem State.Follows.execGetMeasurements {index sign nonce} (h : s.Follows s₀ free) :
    OutFollows s₀ free (Machine.execGetMeasurements index sign nonce s) := by
  unfold Machine.execGetMeasurements
  refine h.onSec fun _ h => ?_
  extract_lets body
  clear_value body
  split
  · exact h.respond
  · exact h.spdmError

theorem State.Follows.execKeyExchange {session share} (h : s.Follows s₀ free) :
    OutFollows s₀ free (Machine.execKeyExchange session share s) := by
  unfold Machine.execKeyExchange
  exact h.onSec fun _ h => .ite h.spdmError (.respond (.frame h))

theorem State.Follows.execFinish {session mac} (h : s.Follows s₀ free) :
    OutFollows s₀ free (Machine.execFinish session mac s) := by
  unfold Machine.execFinish
  exact h.onSec fun _ h => .ite h.takeFree.spdmError (.respond (.frame h))

theorem State.Follows.setSlot {slot kind owner} (h : s.Follows s₀ free) : (s.setSlot slot kind owner).Follows s₀ free := by
  unfold State.setSlot
  exact .frame h.dropSlot

theorem State.Follows.execSpdmSessionMessage {m} (h : s.Follows s₀ free) :
    OutFollows s₀ free (Machine.execSpdmSessionMessage m s) := by
  unfold Machine.execSpdmSessionMessage
  refine h.onSec fun _ h => ?_
  split
  · exact h
  · split
    · split
      · exact h
      · split
        · exact h.tdiFail
        · exact .frame h.setSlot
    · exact .ite h (.frame h)
    · exact .frame h

theorem State.Follows.execTdispRequest {vf r} (h : s.Follows s₀ free) :
    OutFollows s₀ free (Machine.execTdispRequest vf r s) := by
  unfold Machine.execTdispRequest
  refine h.onSec fun _ h => ?_
  split
  · exact h
  · extract_lets
    split
    · exact .ite (.frame h) h
    · exact .ite (.frame h) h
    · exact .frame h

/-! ### Register writes -/

theorem State.Follows.writePort {q off v} (h : s.Follows s₀ free) : (s.writePort q off v).Follows s₀ free := by
  unfold State.writePort
  exact .ite h.setPort (.ite h.setPort h.setPort)

theorem State.Follows.writeReg {p off v} (h : s.Follows s₀ free) : (s.writeReg p off v).Follows s₀ free := by
  unfold State.writeReg
  split
  · exact .ite (.frame h) (.ite (.frame h) (.frame h))
  · exact .ite h.setClkpat h.setSlope
  · exact .ite h.setWlimit (.ite h.writePort h.setCreg)
  · extract_lets slot limit s1
    have h1 : s1.Follows s₀ free := .ite h.setCregNext h.setCreg
    exact .ite h.setPcap (.ite h.setSlot (.ite h1.startConns h1))
  · exact .ite h.setCregNext h.setCreg
  · exact .ite h.setCregNext h.setCreg
  · exact h.setCreg

theorem State.Follows.privWrite {gid} (h : s.Follows s₀ free) : (s.privWrite gid).Follows s₀ free := by
  unfold State.privWrite
  split
  · exact h
  · exact h.takeFree.takeTrap

theorem State.Follows.execRegisterWrite {by_ page off v} (h : s.Follows s₀ free) :
    OutFollows s₀ free (Machine.execRegisterWrite by_ page off v s) := by
  unfold Machine.execRegisterWrite
  extract_lets
  split
  · exact h.next
  · extract_lets
    split
    · exact h.next
    · split
      · split
        · exact h.privWrite.finish
        · exact h.next
      · split
        · exact h.defer.next
        · split
          · exact h.tdiFail.next
          · exact State.Follows.next (.ite h.writeReg h)

theorem State.Follows.execHostLinkAccess {t acc} (h : s.Follows s₀ free) :
    OutFollows s₀ free (Machine.execHostLinkAccess t acc s) := by
  unfold Machine.execHostLinkAccess
  extract_lets
  split
  · split
    · exact State.Follows.next (.frame h)
    · exact State.Follows.next (.ite h (.frame h))
    · exact h.next
  · split
    · exact h.execRegisterWrite
    · exact State.Follows.next (.ite h (.frame h))
    · exact h.next
  · extract_lets held
    clear_value held
    split
    · exact h.tdiFail.next
    · split
      · exact State.Follows.next (.ite h (.frame h))
      · exact State.Follows.finish (.ite h.extPerform (.frame h.extPerform))

/-! ### Scalar words -/

theorem State.Follows.scalWord {i w n f} (h : s.Follows s₀ free) : OutFollows s₀ free (Machine.scalWord i w n f s) :=
  h.coreWord fun _ _ h => h.onGang fun g => .frame g.keeps

/-! ### Cross-lane words -/

section
variable {g k : Gang}

theorem Gang.Keeps.xlSet {w l x} (h : g.Keeps k) : g.Keeps (Machine.xlSet w k l x) := h.setVw

theorem Gang.Keeps.leaveHandler (h : g.Keeps k) : g.Keeps k.leaveHandler := by
  have h1 : g.Keeps (k.leaveWaits k.trapped) := .frame h
  exact .frame h1.setPc

end

theorem State.Follows.redWord {i w op} (h : s.Follows s₀ free) : OutFollows s₀ free (Machine.redWord i w op s) := by
  refine h.coreWord fun _ _ h => h.onGang fun g => ?_
  have h1 : ∀ (xs : List Nat) v, g.Keeps (xs.foldl (fun g l => Machine.xlSet w g l v) g) :=
      fun _ _ => .foldl g.keeps fun _ _ h => h.xlSet
  exact .frame (Gang.Keeps.ite (.frame (h1 _ _)) (h1 _ _))

theorem State.Follows.execSread {w} (h : s.Follows s₀ free) : OutFollows s₀ free (Machine.execSread w s) := by
  unfold Machine.execSread
  exact h.coreWord fun _ _ h => h.onGang fun g => .ite (.foldl g.keeps fun _ _ h => h.setV) g.keeps.setS

theorem State.Follows.execEret {w} (h : s.Follows s₀ free) : OutFollows s₀ free (Machine.execEret w s) := by
  unfold Machine.execEret
  exact h.coreWord fun _ _ h => (h.onGang fun g => g.keeps.leaveHandler).pruneMonitors

theorem State.Follows.execSleep {w} (h : s.Follows s₀ free) : OutFollows s₀ free (Machine.execSleep w s) :=
  h.coreWord fun _ _ h => h.onGang fun g => .ite g.keeps (.frame g.keeps)

theorem State.Follows.execCmprs {w} (h : s.Follows s₀ free) : OutFollows s₀ free (Machine.execCmprs w s) :=
  h.coreWord fun _ _ h => h.onGang fun g => .foldl g.keeps fun _ _ h => h.xlSet

theorem State.Follows.execExpnd {w} (h : s.Follows s₀ free) : OutFollows s₀ free (Machine.execExpnd w s) :=
  h.coreWord fun _ _ h => h.onGang fun g => .foldl g.keeps fun _ _ h => h.xlSet

theorem State.Follows.execScanadd {w} (h : s.Follows s₀ free) : OutFollows s₀ free (Machine.execScanadd w s) := by
  refine h.coreWord fun c _ h => h.onGang fun g => ?_
  have h1 : ∀ xs : List (Nat × Nat), g.Keeps (xs.foldl (fun g e => Machine.xlSet w g e.1 e.2) g) :=
    fun _ => .foldl g.keeps fun _ _ h => h.xlSet
  exact .frame (h1 _)

theorem State.Follows.execMzero {w} (h : s.Follows s₀ free) : OutFollows s₀ free (Machine.execMzero w s) := by
  refine h.coreWord fun _ _ h => h.eachLane fun g k l hk => ?_
  have h1 : ∀ xs : List Nat, g.Keeps (xs.foldl (fun g j => g.setV l (w.vd.toNat + j) 0) k) :=
      fun _ => .foldl hk fun _ _ h => .frame h
  exact .ite (.frame (h1 _)) (h1 _)

theorem State.Follows.execBlend {w} (h : s.Follows s₀ free) : OutFollows s₀ free (Machine.execBlend w s) := by
  refine h.coreWord fun c _ h => State.Follows.startMacro (h.updGang fun g => .foldl g.keeps fun k l h => ?_)
  exact .frame h

/-! ### Dispatch -/

/-- Every meaning that is no reset: of a word that stores, or where gangs and workgroups are those of the step's start. -/
theorem State.Follows.exec {i} (h : s.Follows s₀ s₀.SavedGang) (hs : storesWord i = false → s.SameUnits s₀)
    (hi : ¬ ResetEvent i) : OutFollows s₀ s₀.SavedGang (Machine.exec i s) := by
  cases i <;> unfold Machine.exec
  case powerUp | coldReset | powerOff => exact (hi trivial).elim
  case nop | fuse | pref => exact h.coreWord fun _ _ h => h
  case bra | brx | call | callx | ret => exact h.branchWord
  case exit => exact h.execExit
  case trap | brk => exact h.codeTrap
  case yield | smovi64 | vtos | ord => exact h.coreWord fun _ _ h => h.onGang fun g => .frame g.keeps
  case sread => exact h.execSread
  case swrite => exact h.coreWord fun _ _ h => h.onGang fun g => g.keeps.writeSpecial
  case sleep => exact h.execSleep
  case cmprs => exact h.execCmprs
  case expnd => exact h.execExpnd
  case scanadd => exact h.execScanadd
  case eret => exact h.execEret
  case syscall => exact h.execSyscall
  case smov | smovi | sadd | ssub | smul | smulh | sand | sor | sxor | sshl | sshr | ssra | scmp | ssel | smin | smax |
      sclz | spopc | slea => exact h.scalWord
  case stov | pack | unpack | qnt | ballot | matchLanes | actmask => exact h.coreWord fun _ _ h =>
      (h.eachLane fun _ _ _ h => .frame h)
  case icmp | voteall | voteany | voteeq => exact h.coreWord fun _ _ h => h.eachLane fun _ _ _ h => h.setP
  case fcmp => exact h.coreWord fun _ _ h => h.eachLane fun _ _ _ h => .frame h.setP
  case sel => exact h.coreWord fun _ _ h => h.eachLane fun _ _ _ h => h.setVw
  case cvt => exact h.coreWord fun _ _ h => h.eachLane fun _ _ _ h => .frame h.setVw
  case shfl => exact h.coreWord fun _ _ h => h.eachLane fun _ _ _ h => h.xlSet
  case slup | sldn => exact h.coreWord fun _ _ h => h.eachLane fun _ _ _ h => .ite h.xlSet h
  case push => exact h.coreWord fun _ _ h => h.eachLane fun _ _ _ h => .ite h.xlSet (.frame h)
  case mzero => exact h.execMzero
  case iadd | isub | imul | imulh | imad | imin | imax | iabs | ineg | and | or | xor | not | shl | shr | sra | rot |
      bfe | bfi | clz | popc | brev | mov | movi | iaddsh | idot4 => exact h.intWord
  case fadd | fsub | fmul | ffma | fmin | fmax | fclass | frnd | fdot2 | fscale | ffract | dqnt => exact h.fpWord
  case fdiv | rcp | rsq | sqrt | exp2 | log2 | sin | cos | tanh => exact h.fpLong
  case vpair => exact h.execVpair
  case redadd | redmin | redmax => exact h.redWord
  case ld => exact h.execLd
  case st => exact h.execSt
  case ldu => exact h.execLdu
  case atom | red | cas => exact h.atomWord
  case fence => exact h.execFence
  case waitc => exact h.execWaitc
  case invt => exact h.execInvt
  case mma | tlma | tlpre => exact h.quarterWord
  case mldt => exact h.execMldt
  case mstt => exact h.execMstt
  case rast | filt | trav | bin | binPop => exact h.coreWord fun _ _ h => h.startMacro
  case blend => exact h.execBlend
  case mcode => exact h.execMcode
  case bar => exact h.execBar
  case barc | barcFinal => exact h.barcWord
  case barg => exact h.execBarg
  case grd => exact h.execGrd
  case gwr => exact h.execGwr
  case gatom => exact h.execGatom
  case xclaim => exact h.execXclaim
  case xgive => exact h.execXgive
  case xquery => exact h.execXquery
  case spawn => exact h.execSpawn
  case spawnf => exact h.execSpawnf
  case qpop => exact h.execQpop
  case qpush => exact h.execQpush
  case cancel => exact h.execCancel
  case cntrd => exact h.execCntrd
  case cecopy | cegath | cescat | cefill | cedec | cestat => exact h.engWord
  case tnop | tbind | tfree | tkmov | tkadd | tkbr => exact h.taskWord fun _ _ h => h.noPost
  case tlaunch | tcopy | tfill | tdraw | tpresent => exact h.lateTask
  case tallred | tallgat | trdscat => exact h.collTask
  case twait | tsignal | tfence | tkld | tgroup => exact h.plainTask
  case tphase => exact h.execTphase
  case tend => exact h.taskWord fun _ _ h => h
  case producerWriteback => exact h.execProducerWriteback
  case laneExited => exact h.execLaneExited
  case sleepWake => exact h.execSleepWake
  case activeSetRemove => exact h.execActiveSetRemove
  case quadSplit => exact h.execQuadSplit
  case timeSliceEnd => exact h.execTimeSliceEnd
  case admission => exact h.execAdmission
  case drainTimeout => exact h.execDrainTimeout
  case contextSave => exact h.execContextSave
  case contextRestore => exact h.execContextRestore (hs rfl)
  case xclaimGrant => exact h.execXclaimGrant (hs rfl)
  case xgiveCredit => exact h.execXgiveCredit
  case regDeadlockReport => exact h.execRegDeadlockReport
  case latheStep => exact h.latheStep.finish
  case matrixPassStart => exact h.passStart.finish
  case matrixBlock => exact h.matrixBlock.finish
  case rdvStallWatchdog => exact h.execRdvStallWatchdog
  case binTimerExpire => exact h.execBinTimerExpire
  case binLaunch => exact h.execBinLaunch
  case starterWave => exact h.execStarterWave
  case waitcWake => exact h.execWaitcWake
  case parkedPoll => exact h.execParkedPoll
  case qpopCopy => exact h.execQpopCopy
  case wcbLineDrain => exact h.drainLine.finish
  case wcbDrainTimeout => exact h.execWcbDrainTimeout
  case engComplete => exact h.engFinish.finish
  case pageFaultService => exact h.execPageFaultService
  case pfholdTimeout => exact h.execPfholdTimeout
  case pfrespReplay => exact h.execPfrespReplay
  case pfrespDeny => exact h.execPfrespDeny
  case tlbInvalidate => exact h.execTlbInvalidate
  case eccError => exact h.execEccError
  case illegalEncoding => exact h.execIllegalEncoding
  case fetchFault => exact h.execFetchFault
  case taskComplete => exact h.tryTask.finish
  case taskRetire => exact h.retirePort.finish
  case tctlGo => exact h.execTctlGo
  case tctlHalt => exact h.execTctlHalt
  case freeadd => exact h.execFreeadd
  case wlimitWrite => exact h.setWlimit.next
  case snapshotTimeout => exact h.execSnapshotTimeout
  case bootctlGo => exact h.execBootctlGo
  case bootctlRestart => exact h.execBootctlRestart
  case bootImageCheckDone => exact h.execBootImageCheckDone
  case partitionReset => exact h.execPartitionReset
  case functionLevelReset => exact h.execFunctionLevelReset
  case fwHeartbeat => exact h.execFwHeartbeat
  case peakTick => exact h.execPeakTick
  case intervalBoundary => exact h.execIntervalBoundary
  case powerMsTick => exact h.execPowerMsTick
  case headFrameStart => exact h.execHeadFrameStart
  case getVersion => exact h.execGetVersion
  case getCapabilities => exact h.execGetCapabilities
  case getDigests => exact h.execGetDigests
  case linkRetrain => exact h.execLinkRetrain
  case linkRetrainDone => exact h.execLinkRetrainDone
  case heartbeatSend => exact h.execHeartbeatSend
  case ceilingChange => exact h.execCeilingChange
  case clockLowerBegin => exact h.execClockLowerBegin
  case memberDrop => exact h.execMemberDrop
  case ackTimer => exact h.execAckTimer
  case retransmitTimeout => exact h.execRetransmitTimeout
  case pfcPauseExpiry => exact h.execPfcPauseExpiry
  case hostCancel => exact h.execHostCancel
  case qtailWrite => exact h.tailWrites.next
  case clkpatWrite => exact h.setClkpat.next
  case slopeWrite => exact h.setSlope.next
  case pcapWrite => exact h.setPcap.next
  case registerWrite => exact h.execRegisterWrite
  case mailboxWrite => exact h.execMailboxWrite
  case microcodeLoad => exact h.execMicrocodeLoad
  case negotiateAlgorithms => exact h.execNegotiateAlgorithms
  case getCertificate => exact h.execGetCertificate
  case challenge => exact h.execChallenge
  case getMeasurements => exact h.execGetMeasurements
  case keyExchange => exact h.execKeyExchange
  case finish => exact h.execFinish
  case encoderFrameDone => exact h.execEncoderFrameDone
  case encReadposWrite => exact h.execEncReadposWrite
  case flitReceive => exact h.execFlitReceive
  case peerAccessReceive => exact h.execPeerAccessReceive
  case noticeReceive => exact h.deliverNotice.finish
  case collectiveHeaderReceive => exact h.collPut.tryColls.finish
  case ethFrameReceive => exact h.execEthFrameReceive
  case dataPkt => exact h.execDataPkt
  case ackPkt => exact h.execAckPkt
  case nackPkt => exact h.execNackPkt
  case noticePkt => exact h.execNoticePkt
  case timePkt => exact h.execTimePkt
  case pfcReceive => exact h.execPfcReceive
  case ethLinkUpDown | fecAlignmentLock => exact h.setStat.next
  case hostLinkAccess => exact h.execHostLinkAccess
  case tdispRequest => exact h.execTdispRequest
  case spdmSessionMessage => exact h.execSpdmSessionMessage

/-! ### Carrying out an action -/

theorem exec_steps {i} (h : s.Follows s₀ s₀.SavedGang) (hs : storesWord i = false → s.SameUnits s₀) :
    OutSteps s₀ (Machine.exec i s) :=
  (em (ResetEvent i)).elim (fun hi => exec_resets hi h) fun hi => (h.exec hs hi).steps

theorem decodedIssue_steps {cu g i ext} (h : s.Follows s₀ s₀.SavedGang) (hs : s.SameUnits s₀) :
    OutSteps s₀ (s.decodedIssue cu g i ext) := by
  unfold State.decodedIssue
  refine .ite (OutFollows.steps (.next (.updGang h fun g => .frame g.keeps))) (exec_steps (.updGang ?_ fun g =>
      .frame g.keeps) fun hst => ?_)
  · exact .frame (State.Follows.ite h.settleFence h)
  rw [hst]
  exact .updGang (hs.frame rfl rfl) (fun g => .frame g.keeps) fun _ => rfl

theorem fetchIssue_steps {cu w g} (h : s.Follows s₀ s₀.SavedGang) (hs : s.SameUnits s₀) :
    OutSteps s₀ (s.fetchIssue cu w g) := by
  unfold State.fetchIssue
  extract_lets at_ line started entry
  split
  · exact h.parkPages.next.steps
  · exact exec_steps (.frame h) fun _ => hs.frame rfl rfl
  · extract_lets stray
    have hentry : OutSteps s₀ entry := OutFollows.steps (.finish (.takeTrap (.updGang h fun g => .frame g.keeps)))
    split
    · exact .ite hentry
        (exec_steps (.updGang (.frame h) fun g => .frame g.keeps) fun _ => .updGang (hs.frame rfl rfl) (fun g =>
            .frame g.keeps) fun _ => rfl)
    · exact .ite hentry (decodedIssue_steps h hs)

theorem issueWord_steps {gid unit pc snap} (h : s.Follows s₀ s₀.SavedGang) (hs : s.SameUnits s₀) :
    OutSteps s₀ (s.issueWord gid unit pc snap) := by
  unfold State.issueWord
  split
  · exact h.next.steps
  · extract_lets
    split
    · exact h.next.steps
    · split
      · exact fetchIssue_steps h hs
      · refine .ite (fetchIssue_steps (h.updGang fun g => .frame g.keeps) ?_) h.takeCancel.finish.steps
        exact hs.updGang (fun g => .frame g.keeps) fun _ => rfl

theorem State.Follows.fetchFill {w codemap pc} (h : s.Follows s₀ free) : (s.fetchFill w codemap pc).Follows s₀ free := by
  unfold State.fetchFill
  split
  · exact .frame (State.Follows.ite h h.fetchUse)
  · exact h

/-- The counters of gangs that stand are written. -/
theorem State.Follows.countReady {rs gid unit} {es : List (Nat × Gang)} (h : s.Follows s₀ free)
    (he : ∀ e ∈ es, s.gangs.find? e.1 = some e.2) :
    (es.foldl (fun s e => s.setGang e.1 (Machine.countReady rs gid unit e)) s).Follows s₀ free := by
  suffices ∀ t : State, t.Follows s₀ free → t.nextGang = s.nextGang →
      (es.foldl (fun s e => s.setGang e.1 (Machine.countReady rs gid unit e)) t).Follows s₀ free from this s h rfl
  induction es with
  | nil => exact fun _ ht _ => ht
  | cons e es ih =>
    intro t ht hn
    have hg := he e (List.mem_cons_self ..)
    exact ih (fun x hx => he x (List.mem_cons_of_mem _ hx)) _ (ht.setGang h hg hn.ge (.frame e.2.keeps)) hn

theorem State.Follows.opportunity {gid unit pcs} (h : s.Follows s₀ free) : (s.opportunity gid unit pcs).Follows s₀ free := by
  unfold State.opportunity
  split
  · exact h
  · extract_lets rs s1 s2
    have h1 : s1.Follows s₀ free := h.countReady fun e he => SMap.find?_of_mem h.1 (List.mem_of_mem_filter he)
    have h2 : s2.Follows s₀ free := .foldl (.updGang h1 fun g => .frame g.keeps) fun _ _ h => h.fetchFill
    split
    · exact h2
    · exact .frame h2

theorem State.Follows.takeFrees {n} (h : s.Follows s₀ free) : (s.takeFrees n).2.Follows s₀ free := by
  induction n generalizing s with
  | zero => exact h
  | succ n ih => exact ih h.takeFree

theorem State.Follows.timeEvents {t u} (h : s.Follows s₀ free) : (s.timeEvents t u).2.Follows s₀ free := by
  unfold State.timeEvents
  extract_lets crossed
  split
  rename_i s1 e
  have h1 : s1.Follows s₀ free := by
    refine .of_snd ?_ e
    split
    · exact h.takeFree
    · exact h
  split
  rename_i s2 e
  refine .of_snd ?_ e
  split
  · exact h1.takeFree.takeFrees
  · exact h1

theorem State.Follows.stopGang {e} (h : s.Follows s₀ free) : (s.stopGang e).Follows s₀ free := by
  unfold State.stopGang
  exact .ite (h.updGang fun g => g.keeps.dropQ).stopMacros h

theorem State.Follows.endPart {swallowed cy e} (h : s.Follows s₀ free) :
    (State.endPart swallowed cy s e).Follows s₀ free := h.setCpart

theorem State.Follows.vaultsDone {t} (h : s.Follows s₀ free) : (s.vaultsDone t).Follows s₀ free := by
  unfold State.vaultsDone
  exact h.foldl fun _ _ h => .ite (h.updGang fun g => .frame g.keeps) h

theorem State.Follows.holdPort {wid} (h : s.Follows s₀ free) : (s.holdPort wid).Follows s₀ free := h.updWg fun _ => rfl

theorem State.Follows.tickOne (h : s.Follows s₀ free) : s.tickOne.Follows s₀ free := by
  unfold State.tickOne
  extract_lets __src s' f acc t s1 s2 s3 wgOf ended s4 s5 s6 s7 s8
  have h' : s'.Follows s₀ free := .frame h.vaultCycle.vaultsDone
  have h2 : s2.Follows s₀ free := .ite (.frameBegin (.frame h')) (.frame h')
  have h3 : s3.Follows s₀ free := h2.foldl fun _ _ h => .ite h (.ite h.holdPort h.gport)
  have h4 : s4.Follows s₀ free := h3.mapGangs fun g => by
    unfold ended
    split
    · exact .frame g.keeps
    · exact g.keeps
  have h5 : s5.Follows s₀ free := h4.foldl fun _ _ h => h.stopGang
  have h6 : s6.Follows s₀ free := h5.foldl fun _ _ h => h.endPart
  have h8 : s8.Follows s₀ free := .startMembers (.waitedNotices (.takeMail (.frame h6)))
  exact .frame h8.timeEvents

theorem State.Follows.tick {n} (h : s.Follows s₀ free) : (s.tick n).Follows s₀ free := by
  induction n generalizing s with
  | zero => exact h
  | succ n ih => exact ih h.tickOne

theorem State.Follows.codeFill {pid tenant line words maps} (h : s.Follows s₀ free) :
    (s.codeFill pid tenant line words maps).Follows s₀ free := by
  unfold State.codeFill
  extract_lets
  split
  · exact h
  · split
    · exact .frame h
    · exact h

theorem State.Follows.tlbFill {unit tenant page} (h : s.Follows s₀ free) : (s.tlbFill unit tenant page).Follows s₀ free := by
  rw [State.tlbFill]
  split
  · exact .ite h.walkUse (.frame h.walkUse)
  · exact h.walkUse

theorem decodePort_steps {part port} (h : s.Follows s₀ s₀.SavedGang) (hs : s.SameUnits s₀) :
    OutSteps s₀ (s.decodePort part port) := by
  have hx : ∀ i cu, OutSteps s₀ (Machine.exec i { s with cur := cu }) :=
    fun _ _ => exec_steps (.frame h) fun _ => hs.frame rfl rfl
  unfold State.decodePort
  split
  · exact h.next.steps
  · extract_lets
    split
    · exact hx _ _
    · split
      · exact hx _ _
      · exact hx _ _
      · exact hx _ _
      · exact h.portPage.next.steps

theorem runEvent_steps {i} (h : s.Follows s₀ s₀.SavedGang) (hs : s.SameUnits s₀) : OutSteps s₀ (s.runEvent i) := by
  have he : OutSteps s₀ (Machine.exec i { s with cur := none, deferNow := false }) :=
    exec_steps (.frame h) fun _ => hs.frame rfl rfl
  unfold State.runEvent
  generalize Machine.exec i { s with cur := none, deferNow := false } = o at he ⊢
  cases o with
  | next t =>
    rcases he t rfl with ht | ht
    · exact OutFollows.steps (.next (.ite (.frame ht) ht))
    · refine State.NoUnits.steps ?_
      split <;> exact ht
  | fault r => exact OutFollows.fault.steps
  | refused r => exact OutFollows.refused.steps

theorem runAgent_steps {a} (h : s.Follows s₀ s₀.SavedGang) (hs : s.SameUnits s₀) : OutSteps s₀ (s.runAgent a) := by
  unfold State.runAgent
  split
  · split
    · exact exec_steps (.frame h) fun _ => hs.frame rfl rfl
    · exact h.next.steps
  · split
    · exact issueWord_steps h hs
    · exact runEvent_steps h hs
    · exact decodePort_steps h hs
    · exact .ite h.next.steps h.issueTask.finish.steps
    · exact h.tick.finish.steps
    · exact h.opportunity.next.steps
    · exact h.codeFill.next.steps
    · exact OutFollows.steps (.next (.ite (.frame h) (.frame h)))
    · exact OutFollows.steps (.next (.ite (.frame h) h))
    · exact OutFollows.steps (.next (.frame h))
    · exact OutFollows.steps (.next (.ite (.frame h) h))
    · exact OutFollows.steps (.next (.frame h))
    · exact h.tlbFill.next.steps
    · exact OutFollows.steps (.next (.frame h))
    · exact h.moveMany.finish.steps
    · exact h.linkSend.finish.steps

theorem State.Follows.restReady {pid} (h : s.Follows s₀ free) : (s.restReady pid).Follows s₀ free := by
  unfold State.restReady
  exact h.foldl fun _ _ h => .ite h (h.updGang fun g => .frame g.keeps)

theorem State.Follows.plan (h : s.Follows s₀ free) : s.plan.Follows s₀ free := by
  unfold State.plan
  exact .ite (.frame h) (.frame (h.foldl fun _ _ h => h.restReady))

/-! ### The step -/

theorem step_steps (h : s.unitsWf = true) : OutSteps s (Machine.step s) := by
  unfold Machine.step
  split
  · exact (State.Follows.refl h).plan.next.steps
  · exact runAgent_steps (.frame (State.Follows.refl h)) ((State.SameUnits.refl s).frame rfl rfl)

theorem State.NoUnits.unitsWf (h : s.NoUnits) : s.unitsWf = true := by
  obtain ⟨hg, hw⟩ := h
  exact State.unitsWf_iff.mpr ⟨by rw [hg]; rfl, by rw [hw]; rfl, fun id g e => by rw [hg] at e; cases e⟩

/-- A gang that stands before and after, and that no saved workgroup lists, has stepped. -/
theorem State.Follows.stepped {t : State} {id : Nat} {g h : Gang} (ht : t.Follows s s.SavedGang) (hs : s.unitsWf = true)
    (hg : s.gangs.find? id = some g) (hh : t.gangs.find? id = some h) (hf : ¬ s.SavedGang id) : g.Stepped h := by
  obtain ⟨_, _, _, hgangs, _⟩ := ht
  obtain ⟨_, _, hnum⟩ := State.unitsWf_iff.mp hs
  obtain ⟨_, hnew | ⟨g₀, hg₀, hfrom⟩⟩ := hgangs id h hh
  · exact absurd (hnum id g hg) (by omega)
  · rw [hg] at hg₀
    cases hg₀
    exact hfrom.resolve_left hf

/-- Settles O60: every function of the model keeps the gangs of an earlier state (`State.Follows`), but a reset, which
leaves none. Of the two events that do more, a grant of a claim raises XCOUNT by a number among those that wait, and a
restore rebuilds gangs that a saved workgroup lists. -/
theorem stepKeepsGangs : Obligations.StepKeepsGangs := by
  unfold Obligations.StepKeepsGangs
  intro s t hs hstep
  rcases step_steps hs t hstep with ht | ht
  · refine ⟨ht.unitsWf, fun id g h hg hh hsaved => ?_⟩
    obtain ⟨h1, h2, h3, h4⟩ := ht.stepped hs hg hh fun ⟨e, he, hst, hid⟩ => hsaved e he hst hid
    exact ⟨fun l hl => ⟨(h1 l hl).1, (h1 l hl).2, rfl⟩, h2, h3, h4⟩
  · refine ⟨ht.unitsWf, fun id g h _ hh _ => ?_⟩
    rw [ht.1] at hh
    cases hh

end Sys2Proof.Machine
end

/-! PROOFS. O6: division, square root and the special functions (04 R78, R87, R92). -/

section
namespace Sys2Proof.Machine

/-- Settles O6: each word has the shared shape of a long-latency word; one of a single source has no use for a second. -/
theorem longFloatWords : Obligations.LongFloatWords := by
  unfold Obligations.LongFloatWords
  exact ⟨.of (fDiv · · · ·) (fun _ _ => rfl) fun _ _ _ _ => rfl,
    .of (fun fz r a _ => fSqrt fz r a) (fun _ _ => rfl) fun _ _ _ _ => rfl,
    .of (fun fz _ a _ => special sfRcp fz a) (fun _ _ => rfl) fun _ _ _ _ => rfl,
    .of (fun fz _ a _ => special sfRsq fz a) (fun _ _ => rfl) fun _ _ _ _ => rfl,
    .of (fun fz _ a _ => special sfExp2 fz a) (fun _ _ => rfl) fun _ _ _ _ => rfl,
    .of (fun fz _ a _ => special sfLog2 fz a) (fun _ _ => rfl) fun _ _ _ _ => rfl,
    .of (fun fz _ a _ => special sfSin fz a) (fun _ _ => rfl) fun _ _ _ _ => rfl,
    .of (fun fz _ a _ => special sfCos fz a) (fun _ _ => rfl) fun _ _ _ _ => rfl,
    .of (fun fz _ a _ => special sfTanh fz a) (fun _ _ => rfl) fun _ _ _ _ => rfl⟩

end Sys2Proof.Machine
end

/-! PROOFS. O15: both halves of a VPAIR (03 R60 to R63). -/

section
namespace Sys2Proof.Machine

/-! ### FP32 images of the special functions -/

theorem fmtFp32_signBit_le (s : Bool) : fmtFp32.signBit s ≤ 2 ^ 31 := by cases s <;> decide

/-- A sign and an image of a magnitude. -/
theorem signBit_add_lt {s : Bool} {x : Nat} (h : x < 2 ^ 31) : fmtFp32.signBit s + x < 2 ^ 32 := by
  have := fmtFp32_signBit_le s
  omega

theorem fmtFp32_maxCode_lt : fmtFp32.maxCode < 2 ^ 31 := by decide
theorem fmtFp32_infCode_lt : fmtFp32.infCode < 2 ^ 31 := by decide

theorem nanRes_lt (b : Bool) : (nanRes fmtFp32 b).1 < 2 ^ 32 := by decide +revert
theorem zeroRes_lt (s : Bool) : (zeroRes fmtFp32 s).1 < 2 ^ 32 := by decide +revert
theorem infRes_lt (s : Bool) : (infRes fmtFp32 s).1 < 2 ^ 32 := by decide +revert

theorem overflowCode_lt (rnd : Rnd) (s : Bool) : overflowCode fmtFp32 rnd s < 2 ^ 32 := by
  unfold overflowCode
  extract_lets toMax
  refine signBit_add_lt ?_
  split
  · exact fmtFp32_maxCode_lt
  · exact fmtFp32_infCode_lt

theorem roundF_lt {rnd : Rnd} {s : Bool} {m : Nat} {e : Int} {st : Bool} : (roundF fmtFp32 rnd s m e st).1 < 2 ^ 32 := by
  unfold roundF
  extract_lets ex emin q
  split
  extract_lets code big
  clear_value big
  split
  · exact overflowCode_lt rnd s
  · next hle =>
    simp only [Bool.or_eq_true, decide_eq_true_eq, not_or, not_lt] at hle
    exact signBit_add_lt (hle.1.trans_lt fmtFp32_maxCode_lt)

theorem image_ite_lt {c : Prop} [Decidable c] {a b : FRes} (ha : a.1 < 2 ^ 32) (hb : b.1 < 2 ^ 32) :
    (if c then a else b).1 < 2 ^ 32 := by
  split <;> assumption

theorem flush32_lt {fz : Bool} {r : FRes} (h : r.1 < 2 ^ 32) : (flush32 fz r).1 < 2 ^ 32 := by
  unfold flush32
  exact image_ite_lt h (image_ite_lt ((Nat.sub_le _ _).trans_lt h) h)

theorem sfRcp_lt : (v : FVal) → (sfRcp v).1 < 2 ^ 32
  | .nan _ => nanRes_lt _
  | .inf _ => zeroRes_lt _
  | .fin .. => image_ite_lt (image_ite_lt (nanRes_lt _) (signBit_add_lt fmtFp32_infCode_lt)) (image_ite_lt
      (zeroRes_lt _) roundF_lt)

theorem sfRsq_lt : (v : FVal) → (sfRsq v).1 < 2 ^ 32
  | .nan _ => nanRes_lt _
  | .inf _ => image_ite_lt (nanRes_lt _) (zeroRes_lt _)
  | .fin .. => image_ite_lt (signBit_add_lt fmtFp32_infCode_lt) (image_ite_lt (nanRes_lt _) roundF_lt)

theorem sfExp2_lt : (v : FVal) → (sfExp2 v).1 < 2 ^ 32
  | .nan _ => nanRes_lt _
  | .inf _ => image_ite_lt (zeroRes_lt _) (infRes_lt _)
  | .fin .. => image_ite_lt roundF_lt (image_ite_lt (image_ite_lt roundF_lt (fmtFp32_infCode_lt.trans (by decide)))
      (image_ite_lt roundF_lt roundF_lt))

theorem sfLog2_lt : (v : FVal) → (sfLog2 v).1 < 2 ^ 32
  | .nan _ => nanRes_lt _
  | .inf _ => image_ite_lt (nanRes_lt _) (infRes_lt _)
  | .fin .. => image_ite_lt (signBit_add_lt fmtFp32_infCode_lt) (image_ite_lt (nanRes_lt _)
      (image_ite_lt (image_ite_lt (zeroRes_lt _) roundF_lt) roundF_lt))

/-! ### 32-bit operations on images -/

theorem signedNat_toNat (a : W32) : signedNat 32 a.toNat = a.toInt := by
  rw [signedNat, BitVec.toInt_eq_toNat_cond, Nat.mod_eq_of_lt a.isLt]
  split <;> split <;> omega

theorem cmp32_toNat {cc : Nat} (h : cc < 8) (a b : W32) : cmp32 cc a.toNat b.toNat =
    match (generalizing := false) cc with
    | 0 => a == b
    | 1 => a != b
    | 2 => a.slt b
    | 3 => a.sle b
    | 4 => b.slt a
    | 5 => b.sle a
    | 6 => a.ult b
    | _ => b.ule a := by
  unfold cmp32
  rw [signedNat_toNat, signedNat_toNat]
  interval_cases cc
  · simp [cmpInt, BitVec.toInt_inj, beq_eq_decide]
  · simp [cmpInt, BitVec.toInt_inj, bne, beq_eq_decide]
  all_goals rfl

/-! ### The halves of a pair -/

/-- What a word of the pair asks of its group. -/
def pairUse (w : PairW) : WordUse := { active := fun r l => r.guard w.x.g l || r.guard w.y.g l }

theorem pairUse_fits (w : PairW) : Fits (pairUse w) where
  srcs := by simp [pairUse]
  dsts := by simp [pairUse]
  evens := by simp [pairUse]
  quads := by simp [pairUse]
  aligned := by simp [pairUse]

section
variable {cu : Cur} {g : Gang} {wg : Wg} {w : PairW}

/-- A half is active in the lanes of the group in which its own guard is true (03 R61). -/
theorem halfOn_mask {h : HalfW} (hh : h = w.x ∨ h = w.y) :
    maskWhere (halfOn (ctxC cu g wg (pairUse w)) h) = grpOf g cu false &&& maskWhere (g.guard h.g) := by
  refine BitVec.eq_of_getLsbD_eq fun l hl => ?_
  simp only [getLsbD_maskWhere, halfOn, ctxC, pairUse, BitVec.getLsbD_and, hl, decide_true, Bool.true_and]
  rcases hh with rfl | rfl <;> cases (grpOf g cu false).getLsbD l <;> simp <;> tauto

end

/-- What a half writes in a lane, as a register image, a predicate and flags. -/
def halfImage (c : Ctx) (w : PairW) (h : HalfW) (o : CopOp) (l : Nat) : W32 × Bool × Flg :=
  let r := halfResult c w h o l
  (match r.1 with | .inl x => BitVec.ofNat 32 x | .inr _ => 0, match r.1 with | .inl _ => false | .inr b => b, r.2)

theorem halfResult_reg (c : Ctx) (w : PairW) (h : HalfW) {o : CopOp} (ho : o.toPred = false) (l : Nat) :
    ∃ x, (halfResult c w h o l).1 = .inl x := by
  cases o <;> cases ho <;> exact ⟨_, rfl⟩

theorem halfResult_pred (c : Ctx) (w : PairW) (h : HalfW) {o : CopOp} (ho : o.toPred = true) (l : Nat) :
    ∃ b, (halfResult c w h o l).1 = .inr b := by
  cases o <;> cases ho <;> exact ⟨_, rfl⟩

/-- A half has written a gang: its register or predicate in the lanes of a mask, and its flags. -/
structure HalfWrote (g h : Gang) (on : LaneMask) (toPred : Bool) (d : Nat) (val : Nat → W32 × Bool × Flg) : Prop where
  same : h = { g with vr := h.vr, pr := h.pr, fpstat := h.fpstat }
  regs : ∀ l r, l < 32 → r < 256 →
    h.v l r = if on.getLsbD l = true ∧ toPred = false ∧ r = d then (val l).1 else g.v l r
  preds : ∀ l i, l < 32 → i < 8 →
    h.p l i = if on.getLsbD l = true ∧ toPred = true ∧ i = d ∧ i ≠ 0 then (val l).2.1 else g.p l i
  flags : ∀ i, h.fpstat.getLsbD i = (g.fpstat.getLsbD i || (lanesOf on).any fun l => (val l).2.2.getLsbD i)

/-- A half that writes a register. -/
theorem HalfWrote.reg {g : Gang} {on : LaneMask} {d : Nat} {val : Nat → W32 × Bool × Flg} (hc : Clear g) (hd : d < 256)
    (live : ∀ l, on.getLsbD l = true → g.laneStatus l ≠ 0) :
    HalfWrote g ((lanesOf on).foldl (fun g l => (g.setV l d (val l).1).raise (val l).2.2) g) on false d val := by
  have e : ∀ (g : Gang) l, g.setV l d (val l).1 = g.setVw 32 l d (val l).1.toNat := by
    intro g l
    simp [Gang.setVw]
  simp only [e, setF_foldl hc 32 d (fun l => (val l).1.toNat) (fun l => (val l).2.2)]
  have hw : WroteV g { g with
      vr := (lanesOf on).foldl (fun m l => putW 32 d m l (val l).1.toNat) g.vr
      fpstat := (lanesOf on).foldl (fun x l => x ||| ((val l).2.2).setWidth 64) g.fpstat } on 32 d fun l => (val l).1.toNat :=
    .of rfl rfl live (show d + 1 ≤ 256 from hd) fun l _ => (val l).1.isLt
  refine ⟨rfl, fun l r hl hr => ?_, fun l i _ _ => ?_, RaisedF.of rfl⟩
  · split
    · next h =>
      obtain ⟨hon, _, rfl⟩ := h
      exact BitVec.eq_of_toNat_eq (by simpa [Gang.vw] using hw.1 l hon)
    · next h => exact hw.2 l r hl hr fun ⟨hon, h1, h2⟩ => h ⟨hon, rfl, Nat.le_antisymm (Nat.lt_succ_iff.mp h2) h1⟩
  · rw [if_neg (by simp)]
    rfl

/-- A half that writes a predicate. -/
theorem HalfWrote.pred {g : Gang} {on : LaneMask} {d : Nat} {val : Nat → W32 × Bool × Flg} (hd : d < 8) :
    HalfWrote g ((lanesOf on).foldl (fun g l => (g.setP l d (val l).2.1).raise (val l).2.2) g) on true d val := by
  obtain ⟨f1, f2⟩ := foldl_setP d hd (fun l => (val l).2.1) (fun l => (val l).2.2) (lanesOf on) g
    fun l hl => lt_of_lane (mem_lanesOf.mp hl)
  refine ⟨?_, fun l r _ _ => ?_, fun l i hl hi => ?_, RaisedF.of ?_⟩
  · conv_lhs => rw [f1]
    rw [f1]
    rfl
  · rw [if_neg (by simp), f1]
    rfl
  · simp only [f2 l i hl hi, mem_lanesOf]
    by_cases h0 : i = 0
    · subst h0
      simp only [ne_eq, not_true_eq_false, and_false, if_false]
      split
      · next h => simp [Gang.p, ← h.2]
      · rfl
    · by_cases h : on.getLsbD l = true ∧ i = d
      · obtain ⟨hon, rfl⟩ := h
        simp [hon, h0]
      · rw [if_neg h, if_neg fun k => h ⟨k.1, k.2.2.1⟩]
  · rw [f1]
    rfl

theorem writeHalf_wrote {c : Ctx} {w : PairW} {h : HalfW} {o : CopOp} {g : Gang} (hc : Clear g)
    (live : ∀ l, (maskWhere (halfOn c h)).getLsbD l = true → g.laneStatus l ≠ 0) (hp : o.toPred = true → h.d.toNat < 8) :
    HalfWrote g (writeHalf c w h o g) (maskWhere (halfOn c h)) o.toPred h.d.toNat (halfImage c w h o) := by
  cases ho : o.toPred with
  | false =>
    have e : writeHalf c w h o g = (lanesOf (maskWhere (halfOn c h))).foldl
        (fun g l => (g.setV l h.d.toNat (halfImage c w h o l).1).raise (halfImage c w h o l).2.2) g := by
      unfold writeHalf
      congr
      funext g l
      obtain ⟨x, hx⟩ := halfResult_reg c w h ho l
      simp only [halfImage, hx]
    rw [e]
    exact .reg hc h.d.isLt live
  | true =>
    have hd := hp ho
    have e : writeHalf c w h o g = (lanesOf (maskWhere (halfOn c h))).foldl
        (fun g l => (g.setP l h.d.toNat (halfImage c w h o l).2.1).raise (halfImage c w h o l).2.2) g := by
      unfold writeHalf
      congr
      funext g l
      obtain ⟨b, hb⟩ := halfResult_pred c w h ho l
      simp only [halfImage, hb, Nat.mod_eq_of_lt hd]
    rw [e]
    exact .pred hd

/-- A producer's value is the image that a half writes. -/
theorem halfResult_sfu (c : Ctx) (w : PairW) (h : HalfW) {o : CopOp} (ho : o.cls = .sfu) (l : Nat) :
    (match (halfResult c w h o l).1 with | .inl x => BitVec.ofNat 64 x | .inr _ => 0)
      = (halfImage c w h o l).1.setWidth 64 := by
  have key : ∀ x : Nat, x < 2 ^ 32 → BitVec.ofNat 64 x = (BitVec.ofNat 32 x).setWidth 64 := by
    intro x hx
    exact BitVec.eq_of_toNat_eq (by simp; omega)
  cases o <;> cases ho
  · exact key _ (flush32_lt (sfRcp_lt _))
  · exact key _ (flush32_lt (sfRsq_lt _))
  · exact key _ (flush32_lt (sfExp2_lt _))
  · exact key _ (flush32_lt (sfLog2_lt _))

/-- The gang after the second half: an SFU half holds its results back, as a producer. -/
structure SecondHalf (g h : Gang) (on : LaneMask) (o : CopOp) (d : Nat) (val : Nat → W32 × Bool × Flg) : Prop where
  same : h = { g with vr := h.vr, pr := h.pr, fpstat := h.fpstat, prods := h.prods, empty := h.empty, nextId := h.nextId }
  regs : ∀ l r, l < 32 → r < 256 → h.v l r
    = if o.cls ≠ .sfu ∧ on.getLsbD l = true ∧ o.toPred = false ∧ r = d then (val l).1 else g.v l r
  preds : ∀ l i, l < 32 → i < 8 →
    h.p l i = if on.getLsbD l = true ∧ o.toPred = true ∧ i = d ∧ i ≠ 0 then (val l).2.1 else g.p l i
  flags : ∀ i, h.fpstat.getLsbD i = (g.fpstat.getLsbD i || (lanesOf on).any fun l => (val l).2.2.getLsbD i)
  prods : h.prods = if o.cls ≠ .sfu ∨ on = 0 then g.prods else g.prods ++
    [{ id := g.nextId, ready := true, flags := 0
       dests := (lanesOf on).map fun l => { key := vkey l d, val := (val l).1.setWidth 64, poison := false } }]
  empty : h.empty = if o.cls ≠ .sfu ∨ on = 0 then g.empty else g.empty.addAll ((lanesOf on).map fun l => vkey l d)
  nextId : h.nextId = if o.cls ≠ .sfu ∨ on = 0 then g.nextId else g.nextId + 1

theorem HalfWrote.second {g h : Gang} {on : LaneMask} {o : CopOp} {d : Nat} {val : Nat → W32 × Bool × Flg}
    (hw : HalfWrote g h on o.toPred d val) (ho : o.cls ≠ .sfu) : SecondHalf g h on o d val := by
  obtain ⟨hs, hr, hp, hf⟩ := hw
  refine ⟨?_, fun l r hl h256 => ?_, hp, hf, ?_, ?_, ?_⟩
  · conv_lhs => rw [hs]
    rw [hs]
  · simp only [hr l r hl h256, ho, ne_eq, not_false_eq_true, true_and]
  all_goals
    rw [if_pos (.inl ho), hs]

theorem foldl_or_getLsbD (fl : Nat → Flg) (ls : List Nat) (x : Flg) (i : Nat) :
    (ls.foldl (fun a l => a ||| fl l) x).getLsbD i = (x.getLsbD i || ls.any fun l => (fl l).getLsbD i) := by
  induction ls generalizing x with
  | nil => simp
  | cons l ls ih => rw [List.foldl_cons, ih, BitVec.getLsbD_or, List.any_cons, Bool.or_assoc]

theorem produceHalf_second {c : Ctx} {w : PairW} {h : HalfW} {o : CopOp} {g : Gang} (ho : o.cls = .sfu) :
    SecondHalf g (produceHalf c w h o g) (maskWhere (halfOn c h)) o h.d.toNat (halfImage c w h o) := by
  have hp : o.toPred = false := by cases o <;> cases ho <;> rfl
  unfold produceHalf
  extract_lets on
  by_cases h0 : on = 0
  · rw [if_pos h0]
    have hl : ∀ l, on.getLsbD l = false := fun l => by simp [h0]
    refine ⟨rfl, fun l r _ _ => ?_, fun l i _ _ => ?_, fun i => ?_, ?_, ?_, ?_⟩
    · rw [if_neg fun k => k.1 ho]
    · rw [if_neg (by simp [hp])]
    · simp [show maskWhere (halfOn c h) = 0 from h0]
    all_goals exact (if_pos (.inr h0)).symm
  · rw [if_neg h0]
    have hn : ¬(o.cls ≠ .sfu ∨ maskWhere (halfOn c h) = 0) := by
      rintro (k | k)
      · exact k ho
      · exact h0 k
    refine ⟨rfl, fun l r _ _ => ?_, fun l i _ _ => ?_, fun i => ?_, ?_, ?_, ?_⟩
    · rw [if_neg fun k => k.1 ho]
      rfl
    · rw [if_neg (by simp [hp])]
      rfl
    · simp only [Gang.addProducer, Gang.raise, BitVec.getLsbD_or, BitVec.getLsbD_setWidth, foldl_or_getLsbD]
      by_cases hi : i < 64
      · simp [hi, on, halfImage]
      · have hf : ∀ f : Flg, f.getLsbD i = false := fun f => BitVec.getLsbD_of_ge _ _ (by omega)
        simp [hi, hf]
    · rw [if_neg hn]
      refine congrArg (fun ds => g.prods ++ [({ id := g.nextId, ready := true, flags := 0, dests := ds } : Producer)])
        (List.map_congr_left fun l _ => ?_)
      exact congrArg (fun v => ({ key := vkey l h.d.toNat, val := v, poison := false } : Dest)) (halfResult_sfu c w h ho l)
    · rw [if_neg hn]
      simp only [Gang.addProducer, Gang.raise, List.map_map]
      rfl
    · rw [if_neg hn]
      rfl

/-! ### The word -/

/-- The gang after both halves. -/
def pairGang (c : Ctx) (w : PairW) (x y : CopOp) (g : Gang) : Gang :=
  let g1 := writeHalf c w w.x x g
  if y.cls = .sfu then produceHalf c w w.y y g1 else writeHalf c w w.y y g1

/-- A predicate is named with the upper bits of D clear. -/
theorem halfBad03_pred {isY : Bool} {h : HalfW} {o : CopOp} (hb : halfBad03 isY h o = false) (ho : o.toPred = true) :
    h.d.toNat < 8 := by
  simp only [halfBad03, Bool.or_eq_false_iff, Bool.and_eq_false_imp, bne_eq_false_iff_eq] at hb
  obtain ⟨⟨⟨⟨_, hd⟩, _⟩, _⟩, _⟩ := hb
  have hd := congrArg BitVec.toNat (hd ho)
  simp [BitVec.extractLsb'_toNat, Nat.shiftRight_eq_div_pow] at hd
  omega

/-- The halves of a legal pair write different registers, or different predicates. -/
theorem pairLegal_dests {w : PairW} {x y : CopOp} (h : pairLegal w x y = true) :
    x.cls ≠ .sfu ∧ (x.toPred = y.toPred → w.x.d.toNat ≠ w.y.d.toNat) := by
  simp only [pairLegal, Bool.and_eq_true, bne_iff_ne, Bool.or_eq_true, Bool.not_eq_true', Bool.and_eq_false_imp] at h
  obtain ⟨⟨⟨⟨⟨⟨⟨hx, _⟩, _⟩, _⟩, hbank⟩, hpred⟩, _⟩, _⟩ := h
  refine ⟨hx, fun he hd => ?_⟩
  have hd : w.x.d = w.y.d := BitVec.eq_of_toNat_eq hd
  rw [hd, he] at hbank
  rw [hd, he] at hpred
  cases hy : y.toPred <;> simp [hy] at hbank hpred

/-- What the field check of a pair has seen (03 R60, R62). -/
theorem pairCheck_none {w : PairW} {x y : CopOp} (hx : copOf w.x.cop = some x) (hy : copOf w.y.cop = some y)
    (h : pairCheck w = none) :
    (x.toPred = true → w.x.d.toNat < 8) ∧ (y.toPred = true → w.y.d.toNat < 8) ∧ x.cls ≠ .sfu ∧
    (x.toPred = y.toPred → w.x.d.toNat ≠ w.y.d.toNat) := by
  simp only [pairCheck, hx, hy] at h
  obtain ⟨h3, h⟩ := sub_or_none h
  obtain ⟨_, h7⟩ := sub_or_none h
  have h3 := sub_when_none h3
  have h7 := sub_when_none h7
  simp only [Bool.or_eq_false_iff] at h3
  obtain ⟨⟨_, hbx⟩, hby⟩ := h3
  exact ⟨halfBad03_pred hbx, halfBad03_pred hby, pairLegal_dests (by simpa using h7)⟩

section
variable {s : State} {cu : Cur} {g : Gang} {wg : Wg} {w : PairW} {x y : CopOp}

theorem halfEmpty_nil {c : Ctx} {h : HalfW} {srcs : List VSrc} (hc : c.r.empty = []) : halfEmpty c h srcs = [] := by
  simp [halfEmpty, hc]

/-- Nothing of a pair is out of range, empty, poisoned or awaited in a gang that nothing delays. -/
theorem pairChecks_ok {u : WordUse} (hc : Calm s cu g wg) :
    (if pairRange w x y (ctxC cu g wg u) then illegalSub 0x05 else pairLanes w x y (ctxC cu g wg u) s) = .ok := by
  have hlim : (ctxC cu g wg u).r.base + (ctxC cu g wg u).r.xcount = 256 := hc.regs
  have hr : pairRange w x y (ctxC cu g wg u) = false := by
    simp only [pairRange, hlim, Bool.and_eq_false_imp, List.any_eq_false, decide_eq_true_eq, not_le]
    intro _ r hr
    simp only [List.mem_append, List.mem_map] at hr
    rcases hr with (⟨a, _, rfl⟩ | hr) | hr
    · exact a.isLt
    all_goals
      split at hr
      · cases hr
      · cases List.mem_singleton.mp hr
        exact BitVec.isLt _
  have he : ∀ h srcs, halfEmpty (ctxC cu g wg u) h srcs = [] := fun _ _ => halfEmpty_nil hc.empty
  have hg : s.gangs.find? (ctxC cu g wg u).gid = some g := hc.gang
  have hp : (ctxC cu g wg u).r.poison = [] := hc.poison
  have hnone : ∀ ls : List Nat, (ls.any fun _ => false) = false := fun ls => by simp
  simp [hr, pairLanes, hg, he, hp, hc.prods, hnone]

theorem writeHalf_none {c : Ctx} {h : HalfW} {o : CopOp} {k : Gang} (h0 : maskWhere (halfOn c h) = 0) :
    writeHalf c w h o k = k := by
  rw [writeHalf, h0, lanesOf_zero]
  rfl

/-- With no active lane neither half does anything. -/
theorem pairGang_none {c : Ctx} {k : Gang} (h0 : c.act = 0) : pairGang c w x y k = k := by
  have hm : ∀ h, maskWhere (halfOn c h) = 0 := by
    intro h
    refine BitVec.eq_of_getLsbD_eq fun l _ => ?_
    simp [halfOn, h0]
  unfold pairGang
  simp only [writeHalf_none (hm w.x), writeHalf_none (hm w.y), produceHalf, if_pos (hm w.y), ite_self]

/-- A pair issues, and both halves have acted on the gang that has passed it. -/
theorem vpair_runs (hc : Calm s cu g wg) (hwf : (Instr.vpair w).wf = true) (hx : copOf w.x.cop = some x)
    (hy : copOf w.y.cop = some y) :
    ∃ t, exec (.vpair w) s = .next t ∧ OnlyGang s t cu.gang ∧ t.gangs.find? cu.gang =
      some (pairGang (ctxC cu g wg (pairUse w)) w x y ((g.charged s.cycle).passed (ctxC cu g wg (pairUse w)) (pairUse w))) := by
  obtain ⟨t, ht, ho, hg⟩ := onGang_calm (F := fun c k => pairGang c w x y k)
    (chk := fun c s => if pairRange w x y c then illegalSub 0x05 else pairLanes w x y c s) hc (staticCheck_of_wf hwf)
    (pairUse_fits w) (pairChecks_ok hc)
  refine ⟨t, ?_, ho, ?_⟩
  · rw [← ht]
    show execVpair w s = _
    unfold execVpair
    rw [hx, hy]
    rfl
  · rw [hg]
    split
    · next h0 => rw [pairGang_none h0]
    · rfl

/-- Source A of a half in a lane: the shared port delivers X.A to both (03 R60). -/
def portA (g : Gang) (w : PairW) (h : HalfW) (l : Nat) : W32 :=
  if w.sh = 1 then g.v (permSrc w.x.pms l) w.x.a.toNat else g.v l h.a.toNat

theorem halfSrc_eq {u : WordUse} (h : HalfW) (l : Nat) :
    halfSrc (ctxC cu g wg u) w h 0 l = (portA g w h l).toNat
    ∧ halfSrc (ctxC cu g wg u) w h 1 l = (g.v l h.b.toNat).toNat
    ∧ halfSrc (ctxC cu g wg u) w h 2 l = (g.v l h.c.toNat).toNat := by
  refine ⟨?_, rfl, rfl⟩
  simp only [halfSrc, portA]
  split <;> rfl

end

theorem pairGang_wrote {c : Ctx} {w : PairW} {x y : CopOp} {g : Gang} (hc : Clear g)
    (live : ∀ l, c.act.getLsbD l = true → g.laneStatus l ≠ 0) (hx : x.toPred = true → w.x.d.toNat < 8)
    (hy : y.toPred = true → w.y.d.toNat < 8) :
    ∃ k, HalfWrote g k (maskWhere (halfOn c w.x)) x.toPred w.x.d.toNat (halfImage c w w.x x)
      ∧ SecondHalf k (pairGang c w x y g) (maskWhere (halfOn c w.y)) y w.y.d.toNat (halfImage c w w.y y) := by
  have hlive : ∀ h l, (maskWhere (halfOn c h)).getLsbD l = true → g.laneStatus l ≠ 0 := by
    intro h l hl
    simp only [getLsbD_maskWhere, halfOn, Bool.and_eq_true] at hl
    exact live l hl.2.1
  have h1 := writeHalf_wrote (w := w) hc (hlive w.x) hx
  have hcl : Clear (writeHalf c w w.x x g) := by
    constructor
    · rw [h1.same]; exact hc.empty
    · rw [h1.same]; exact hc.poison
  have hs : (writeHalf c w w.x x g).status = g.status := by rw [h1.same]
  refine ⟨_, h1, ?_⟩
  simp only [pairGang]
  split
  · next hsfu => exact produceHalf_second hsfu
  · next hsfu =>
    refine (writeHalf_wrote hcl (fun l hl => ?_) hy).second hsfu
    rw [Gang.laneStatus, hs]
    exact hlive w.y l hl

/-- Settles O15: the first half writes, the second writes or produces, and each half's results are those of the gang as the
word has read it. -/
theorem pairWords : Obligations.PairWords := by
  unfold Obligations.PairWords
  intro s cu g wg w x y hc hwf hx hy grp on srcA val yNow reg pred
  obtain ⟨hpx, hpy, hsx, hne⟩ := pairCheck_none hx hy (staticCheck_of_wf hwf)
  obtain ⟨t, ht, ho, hg⟩ := vpair_runs hc hwf hx hy
  have hval : ∀ h o l, halfImage (ctxC cu g wg (pairUse w)) w h o l = val h o l := by
    intro h o l
    obtain ⟨ha, hb, hcc⟩ := halfSrc_eq (cu := cu) (g := g) (wg := wg) (w := w) (u := pairUse w) h l
    have hreg : ∀ (z : W32) (n : Nat), z.toNat = n % 2 ^ 32 →
        ((BitVec.ofNat 32 (n % 2 ^ 32), false, 0) : W32 × Bool × Flg) = (z, false, 0) := by
      intro z n hz
      rw [← hz, BitVec.ofNat_toNat, BitVec.setWidth_eq]
    have hlt : ∀ z : W32, z.toNat = z.toNat % 2 ^ 32 := fun z => (Nat.mod_eq_of_lt z.isLt).symm
    generalize hA : portA g w h l = a at ha
    cases o <;> simp only [halfImage, halfResult, ha, hb, hcc] <;> subst hA
    case iadd => exact hreg _ _ (BitVec.toNat_add ..)
    case isub => exact hreg _ _ (by rw [BitVec.toNat_sub, Nat.add_comm]; rfl)
    case and => exact hreg _ _ (hlt (_ &&& _))
    case or => exact hreg _ _ (hlt (_ ||| _))
    case xor => exact hreg _ _ (hlt (_ ^^^ _))
    case shl => exact hreg _ _ (by rw [BitVec.toNat_shiftLeft, Nat.shiftLeft_eq]; rfl)
    case shr => exact hreg _ _ ((hlt (_ >>> _)).trans (by rw [BitVec.toNat_ushiftRight, Nat.shiftRight_eq_div_pow]; rfl))
    case mov => exact hreg _ _ (hlt _)
    case sel =>
      refine hreg _ _ ?_
      show BitVec.toNat (if g.p l h.cnd.toNat = true then _ else _) = (if g.p l h.cnd.toNat = true then _ else _) % 2 ^ 32
      split <;> exact hlt _
    case icmp =>
      have hcc := h.cnd.isLt
      refine congrArg (fun b => ((0 : W32), b, (0 : Flg))) ?_
      show cmp32 h.cnd.toNat _ _ = _
      generalize h.cnd.toNat = cc at hcc ⊢
      rw [cmp32_toNat hcc]
      rfl
    all_goals rfl
  obtain ⟨k, h1, h2⟩ := pairGang_wrote (c := ctxC cu g wg (pairUse w)) (w := w) (passed_clear s.cycle ⟨hc.empty, hc.poison⟩)
    (fun l hl => by rw [Gang.laneStatus, passed_status]; exact act_live l hl) hpx hpy
  rw [halfOn_mask (.inl rfl), show halfImage _ w w.x x = val w.x x from funext (hval w.x x)] at h1
  rw [halfOn_mask (.inr rfl), show halfImage _ w w.y y = val w.y y from funext (hval w.y y)] at h2
  obtain ⟨p, a, sc, ic, li, uo, sl, e, eu⟩ := passed_keep (c := ctxC cu g wg (pairUse w)) (u := pairUse w) s.cycle hc.ord
  have hpcs : PcsMoved g _ grp (cu.after 1) := PcsMoved.passed (w := wg) (u := pairUse w) s.cycle 1 rfl
  rw [e] at hg h1 h2 hpcs
  generalize pairGang _ w x y _ = h at hg h2
  obtain ⟨s1, r1, p1, f1⟩ := h1
  obtain ⟨s2, r2, p2, f2, hprods, hempty, hnext⟩ := h2
  refine ⟨t, h, ht, hg, ho, ⟨?_, fun _ => ?_⟩, fun l hl => ?_, ?_,
    fun l r hl hr => ⟨fun hw => ?_, fun hn hw => ?_, fun n1 n2 => ?_⟩,
    fun l i hl hi => ⟨fun hw => ?_, fun hw => ?_, fun n1 n2 => ?_⟩, fun i => ?_, ?_, ?_, ?_⟩
  · rw [s2, s1]
  · rw [s2, s1]
    exact eu rfl
  · rw [s2, s1]
    exact hpcs l hl
  · rw [KeptS, s2, s1]
  · rw [r2 l r hl hr, if_neg, r1 l r hl hr, if_pos hw]
    rintro ⟨_, _, hty, hry⟩
    exact hne (hw.2.1.trans hty.symm) (hw.2.2.symm.trans hry)
  · rw [r2 l r hl hr, if_pos ⟨hn, hw⟩]
  · rw [r2 l r hl hr, if_neg n2, r1 l r hl hr, if_neg n1]
    rfl
  · rw [p2 l i hl hi, if_neg, p1 l i hl hi, if_pos hw]
    rintro ⟨_, hty, hiy, _⟩
    exact hne (hw.2.1.trans hty.symm) (hw.2.2.1.symm.trans hiy)
  · rw [p2 l i hl hi, if_pos hw]
  · rw [p2 l i hl hi, if_neg n2, p1 l i hl hi, if_neg n1]
    rfl
  · rw [f2, f1]
  · rw [hprods, s1]
    simp only [hc.prods, List.nil_append]
    rfl
  · rw [hempty, s1]
    simp only [hc.empty]
    rfl
  · rw [hnext, s1]

end Sys2Proof.Machine
end

/-! PROOFS. O19: EXIT (01 R12, R13, R19, 04 R105). -/

section
namespace Sys2Proof.Machine

/-! ### What the lanes of a gang hold -/

/-- Lane status and register files. -/
def Gang.held (g : Gang) : BitVec 64 × SMap W32 × BitVec 256 × SMap W64 × W64 := (g.status, g.vr, g.pr, g.sr, g.fpstat)

theorem Gang.held_foldl {α : Type} {f : Gang → α → Gang} (hf : ∀ g x, (f g x).held = g.held) (xs : List α) (g : Gang) :
    (xs.foldl f g).held = g.held := by
  induction xs generalizing g with
  | nil => rfl
  | cons x xs ih => exact (ih _).trans (hf g x)

@[simp] theorem Gang.held_mergeUnits (g : Gang) (us : List Nat) : (g.mergeUnits us).held = g.held := by
  rw [mergeUnits_same]
  rfl

@[simp] theorem Gang.held_releaseBar (g : Gang) (p : WaitKind → Bool) : (g.releaseBar p).held = g.held := by
  unfold Gang.releaseBar
  extract_lets m g1
  have h1 : g1.held = g.held := Gang.held_foldl (f := fun g l => g.setPc (BitVec.ofNat 32 (2 ^ l)) (g.pcOf l + 16))
    (fun _ _ => rfl) _ g
  exact (Gang.held_mergeUnits _ _).trans h1

@[simp] theorem Gang.held_freeDead (g : Gang) : g.freeDead.held = g.held := by
  unfold Gang.freeDead
  dsimp only
  split
  · rfl
  · split <;> rfl

/-- The gangs hold what those of another map hold, and the same ones stand. -/
def HeldAs (a b : SMap Gang) : Prop := ∀ j, (b.find? j).map Gang.held = (a.find? j).map Gang.held

theorem HeldAs.upd {a b : SMap Gang} {gid : Nat} {f : Gang → Gang} (h : HeldAs a b) (hf : ∀ g, (f g).held = g.held) :
    HeldAs a (b.upd gid f) := by
  intro j
  rw [← h j, SMap.find?_upd]
  split
  · next e => subst e; simp [Option.map_map, Function.comp_def, hf]
  · rfl

/-- The gangs hold what they held, and no access to absent memory has been marked. -/
def StateHeld (s₀ : State) (gangs : SMap Gang) (acc : Option Nat) : Prop := acc = s₀.absentAcc ∧ HeldAs s₀.gangs gangs
def State.HoldsAs (s s₀ : State) : Prop := StateHeld s₀ s.gangs s.absentAcc

section
variable {s₀ s t : State}

theorem State.HoldsAs.refl (s : State) : s.HoldsAs s := ⟨rfl, fun _ => rfl⟩
/-- A record update that leaves the gangs alone. -/
theorem State.HoldsAs.frame (h : match t with | { gangs := g, absentAcc := a, .. } => StateHeld s₀ g a) : t.HoldsAs s₀ := h
theorem State.HoldsAs.ite {c : Prop} [Decidable c] (hs : s.HoldsAs s₀) (ht : t.HoldsAs s₀) :
    (if c then s else t).HoldsAs s₀ := by
  split <;> assumption
theorem State.HoldsAs.foldl {α : Type} {f : State → α → State} {xs : List α} (h : s.HoldsAs s₀)
    (hf : ∀ s x, s.HoldsAs s₀ → (f s x).HoldsAs s₀) : (xs.foldl f s).HoldsAs s₀ := by
  induction xs generalizing s with
  | nil => exact h
  | cons x xs ih => exact ih (hf s x h)
theorem State.HoldsAs.updGang {gid : Nat} {f : Gang → Gang} (h : s.HoldsAs s₀) (hf : ∀ g, (f g).held = g.held) :
    (s.updGang gid f).HoldsAs s₀ := ⟨h.1, h.2.upd hf⟩
theorem State.HoldsAs.updWg {wid : Nat} {f : Wg → Wg} (h : s.HoldsAs s₀) : (s.updWg wid f).HoldsAs s₀ := .frame h
theorem State.HoldsAs.updLaunch {lid : Nat} {f : Launch → Launch} (h : s.HoldsAs s₀) : (s.updLaunch lid f).HoldsAs s₀ :=
  .frame h

/-! ### Drains -/

theorem State.HoldsAs.wakeWrites {k as} (h : s.HoldsAs s₀) : (s.wakeWrites k as).HoldsAs s₀ := by
  unfold State.wakeWrites
  refine .foldl (.frame h) fun _ _ h => h.foldl fun s x h => ?_
  cases x with
  | gang gid wid => exact h.updGang fun _ => rfl
  | task part id => exact .frame h

theorem State.HoldsAs.homeWrite {key bs gang cmd} (h : s.HoldsAs s₀) : (s.homeWrite (.mem key) bs gang cmd).HoldsAs s₀ := by
  unfold State.homeWrite
  refine .wakeWrites (.frame (State.HoldsAs.foldl h fun s l h => ?_))
  unfold State.rekeyLine
  exact .ite h (.frame h)

/-- Stores that leave the gangs alone. -/
theorem State.HoldsAs.stores (h : s.HoldsAs s₀) (k : Stores s t) (hg : t.gangs = s.gangs) : t.HoldsAs s₀ := by
  have ha : t.absentAcc = s.absentAcc := by rw [k.frame]
  rw [State.HoldsAs, ha, hg]
  exact h

theorem State.l2Access_gangs (s : State) (part t pa : Nat) (byp wr : Bool) : (s.l2Access part t pa byp wr).gangs = s.gangs := by
  unfold State.l2Access
  extract_lets
  split
  · rfl
  · split <;> rfl

theorem State.l2Use_gangs (s : State) (key pa : Nat) (byp wr : Bool) : (s.l2Use key pa byp wr).gangs = s.gangs := by
  unfold State.l2Use
  split
  · rfl
  · exact s.l2Access_gangs ..

theorem State.reportPoison_gangs (s : State) (launch : Nat) (l : Loc) (n : Nat) :
    (s.reportPoison launch l n).gangs = s.gangs := by
  unfold State.reportPoison
  split
  · extract_lets gs
    split <;> rfl
  · rfl

theorem State.HoldsAs.drainPoint {cl line} (h : s.HoldsAs s₀) : (s.drainPoint cl line).HoldsAs s₀ := by
  unfold State.drainPoint
  split
  · exact h
  · extract_lets s1
    have h1 : s1.HoldsAs s₀ := .frame h
    exact .foldl (h1.stores (s1.l2Use_stores ..) (s1.l2Use_gangs ..)).homeWrite
      fun s _ h => h.stores (s.reportPoison_stores ..) (s.reportPoison_gangs ..)

theorem State.HoldsAs.drainScope {core scope} (h : s.HoldsAs s₀) : (s.drainScope core scope).HoldsAs s₀ := by
  unfold State.drainScope
  split
  · exact h
  · extract_lets s1
    have h1 : s1.HoldsAs s₀ := by
      refine h.foldl fun s l h => ?_
      unfold State.drainToPoint
      split
      · exact h
      · exact .frame h
    exact .ite h1 (h1.foldl fun _ _ h => h.drainPoint)

/-! ### Barriers and the end of a gang -/

theorem State.HoldsAs.pruneMonitors (h : s.HoldsAs s₀) : s.pruneMonitors.HoldsAs s₀ := .frame h
theorem State.HoldsAs.enqueueStarter {cl es} (h : s.HoldsAs s₀) : (s.enqueueStarter cl es).HoldsAs s₀ := .frame h

theorem State.HoldsAs.releaseGangs {cl gids p} (h : s.HoldsAs s₀) : (s.releaseGangs cl gids p).HoldsAs s₀ := by
  unfold State.releaseGangs
  exact (h.foldl fun _ _ h => h.updGang fun g => g.held_releaseBar p).enqueueStarter.pruneMonitors

theorem State.HoldsAs.checkBar {wid b} (h : s.HoldsAs s₀) : (s.checkBar wid b).HoldsAs s₀ := by
  unfold State.checkBar
  split
  · exact h
  · exact .ite (.frame (State.HoldsAs.releaseGangs h.updWg)) h.updWg

theorem State.HoldsAs.acquireCore {core scope} (h : s.HoldsAs s₀) : (s.acquireCore core scope).HoldsAs s₀ := by
  unfold State.acquireCore
  exact .ite h (.frame h)

theorem State.HoldsAs.checkBarc {wid b engineIdle} (h : s.HoldsAs s₀) : (s.checkBarc wid b engineIdle).HoldsAs s₀ := by
  unfold State.checkBarc
  split
  · exact h
  · extract_lets ms ok s1 s2 s3
    have h1 : s1.HoldsAs s₀ := h.foldl fun _ _ h => h.drainScope
    have h2 : s2.HoldsAs s₀ := h1.foldl fun _ _ h => h.acquireCore
    have h3 : s3.HoldsAs s₀ := h2.foldl fun _ _ h => h.updWg
    exact .ite (.frame h3.releaseGangs) (h.foldl fun _ _ h => h.updWg)

theorem State.HoldsAs.checkBarg {lid b} (h : s.HoldsAs s₀) : (s.checkBarg lid b).HoldsAs s₀ := by
  unfold State.checkBarg
  split
  · exact h
  · extract_lets ws arrivedWg r s1 s2 cls k order gidsOf s3 s4
    have h1 : s1.HoldsAs s₀ := h.foldl fun _ _ h => h.drainScope
    have h2 : s2.HoldsAs s₀ := h1.foldl fun _ _ h => h.acquireCore
    have h3 : s3.HoldsAs s₀ := h2.foldl fun _ _ h => h.foldl fun _ _ h => h.updGang fun g => g.held_releaseBar _
    have h4 : s4.HoldsAs s₀ := h3.foldl fun _ _ h => h.enqueueStarter
    exact .ite (.pruneMonitors (.frame h4)) h.updLaunch

theorem State.HoldsAs.checkGrids {lid} (h : s.HoldsAs s₀) : (s.checkGrids lid).HoldsAs s₀ := h.foldl fun _ _ h => h.checkBarg

theorem State.HoldsAs.checkBarriers {wid} (h : s.HoldsAs s₀) : (s.checkBarriers wid).HoldsAs s₀ := by
  unfold State.checkBarriers
  split
  · exact h
  · exact ((h.foldl fun _ _ h => h.checkBar).foldl fun _ _ h => h.checkBarc).foldl fun _ _ h => h.checkBarg

theorem State.HoldsAs.countUnit {lid binGang canc} (h : s.HoldsAs s₀) : (s.countUnit lid binGang canc).HoldsAs s₀ := by
  unfold State.countUnit
  split
  · exact h
  · exact .ite h.updLaunch (.frame h)

theorem State.HoldsAs.holdScr {w} (h : s.HoldsAs s₀) : (s.holdScr w).HoldsAs s₀ := by
  unfold State.holdScr
  exact .ite h (.ite (.frame h) (.frame h))

theorem State.HoldsAs.endWg {wid canc} (h : s.HoldsAs s₀) : (s.endWg wid canc).HoldsAs s₀ := by
  unfold State.endWg
  split
  · exact h
  · exact .frame h.drainScope.countUnit.holdScr

theorem State.keepCounts_same (s : State) (gid : Nat) : s.keepCounts gid = { s with engines := (s.keepCounts gid).engines } := by
  unfold State.keepCounts
  split <;> rfl

/-- A gang that ends is gone, and the others hold what they held. -/
theorem State.endGang_holds {gid canc engineIdle} :
    (s.endGang gid canc engineIdle).HoldsAs { s with gangs := s.gangs.del gid } := by
  have hr : (s.removeGang gid).HoldsAs { s with gangs := s.gangs.del gid } := by
    unfold State.removeGang
    rw [keepCounts_same]
    exact .pruneMonitors (.frame (State.HoldsAs.refl { s with gangs := s.gangs.del gid }))
  unfold State.endGang
  split
  · next hg =>
    refine ⟨rfl, fun j => ?_⟩
    rw [SMap.find?_del]
    split
    · next e => rw [e, hg]
    · rfl
  · extract_lets s1 s2 s3
    have h1 : s1.HoldsAs { s with gangs := s.gangs.del gid } := hr.updWg
    have h2 : s2.HoldsAs { s with gangs := s.gangs.del gid } := h1.foldl fun _ _ h => h.checkBar
    have h3 : s3.HoldsAs { s with gangs := s.gangs.del gid } := h2.foldl fun _ _ h => h.checkBarc
    split
    · exact h1
    · exact .ite h1.endWg.checkGrids h3.checkGrids

end

/-! ### EXIT -/

/-- The lanes that stay live where some exit. -/
theorem Gang.liveMask_exitLanes (g : Gang) (m : LaneMask) : (g.exitLanes m).freeDead.liveMask = g.liveMask &&& ~~~m := by
  have hs : (g.exitLanes m).freeDead.status = (g.exitLanes m).status := congrArg (·.1) (g.exitLanes m).held_freeDead
  have hl : ∀ l, (g.exitLanes m).freeDead.laneStatus l = if m.getLsbD l then 2 else g.laneStatus l := by
    intro l
    rw [← Gang.laneStatus_exitLanes, Gang.laneStatus, hs]
    rfl
  refine BitVec.eq_of_getLsbD_eq fun l h32 => ?_
  simp only [Gang.liveMask, getLsbD_maskWhere, Gang.isLive, hl, BitVec.getLsbD_and, BitVec.getLsbD_not, h32, decide_true,
    Bool.true_and]
  cases m.getLsbD l <;> simp

/-- Lanes exit at once: a gang with no live lane is gone, and the others hold what they held. -/
theorem State.exitNow_holds {s : State} {gid : Nat} {g : Gang} (m : LaneMask) (hg : s.gangs.find? gid = some g) :
    (s.exitNow gid m).HoldsAs { s with
      gangs := if g.liveMask &&& ~~~m = 0 then s.gangs.del gid else s.gangs.set gid (g.exitLanes m).freeDead } := by
  have hf : (s.updGang gid fun g => (g.exitLanes m).freeDead).gangs.find? gid = some (g.exitLanes m).freeDead := by
    simp [State.updGang, hg]
  unfold State.exitNow
  extract_lets s1
  rw [hf]
  simp only [Gang.liveMask_exitLanes]
  split
  · refine ⟨s1.endGang_holds.1, fun j => (s1.endGang_holds.2 j).trans ?_⟩
    simp only [s1, State.updGang, SMap.find?_del, SMap.find?_upd]
    split
    · rfl
    · rfl
  · have h := State.HoldsAs.checkBarriers (wid := (g.exitLanes m).freeDead.wg) (State.HoldsAs.refl s1)
    refine ⟨h.1, fun j => (h.2 j).trans ?_⟩
    simp only [s1, State.updGang, SMap.find?_upd, SMap.find?_set]
    split
    · next e => subst e; rw [hg]; rfl
    · rfl

theorem ctrlUse_fits (w : CtrlW) : Fits (ctrlUseOf w) where
  srcs := by simp [ctrlUseOf]
  dsts := by simp [ctrlUseOf]
  evens := by simp [ctrlUseOf]
  quads := by simp [ctrlUseOf]
  aligned := by simp [ctrlUseOf]

/-- EXIT in lanes of which every register is full: none of them waits (01 R19). -/
theorem exit_full {s : State} {gid : Nat} {g : Gang} {m : LaneMask} (pc : PCAddr) (hg : s.gangs.find? gid = some g)
    (hm : g.fullLanes m = m) :
    (match s.gangs.find? gid with
      | none => s
      | some g =>
        let now := g.fullLanes m
        let later := m &&& ~~~now
        let s1 := if later = 0 then s else s.updGang gid fun g => (g.setPc later pc).addWait later .exit
        if now = 0 then s1 else s1.exitNow gid now) = if m = 0 then s else s.exitNow gid m := by
  rw [hg]
  simp [hm]

/-- EXIT of a gang that nothing delays, outside a cluster group or past its final barrier. -/
theorem exit_runs {s : State} {cu : Cur} {g : Gang} {wg : Wg} {w : CtrlW} (hc : Calm s cu g wg)
    (hwf : (Instr.exit w).wf = true) (hfin : wg.groupSize = 0 ∨ wg.passedFinal = true) :
    let c := ctxC cu g wg (ctrlUseOf w)
    let s1 := issued s c (ctrlUseOf w)
    exec (.exit w) s = finish (if c.act = 0 then s1 else s1.exitNow cu.gang c.act) := by
  intro c s1
  have hok : exitCheck c s = .ok := by
    have h0 : wg.clusterExit c.gid g (g.fullLanes c.act) = false := by
      rcases hfin with h | h <;> simp [Wg.clusterExit, h]
    have hg : s.gangs.find? c.gid = some g := hc.gang
    simp [exitCheck, hg, show c.wg = wg from rfl, h0]
  have hg1 : s1.gangs.find? c.gid = some ((g.charged s.cycle).passed c (ctrlUseOf w)) := issued_gang hc.gang
  have hfull : ((g.charged s.cycle).passed c (ctrlUseOf w)).fullLanes c.act = c.act := by
    have he : ((g.charged s.cycle).passed c (ctrlUseOf w)).empty = [] := (passed_clear s.cycle hc.clear).empty
    refine BitVec.eq_of_getLsbD_eq fun l hl => ?_
    simp [Gang.fullLanes, he, hl]
  rw [exec_exit]
  unfold execExit
  rw [coreWord_calm hc (staticCheck_of_wf hwf) (ctrlUse_fits w) hok]
  exact congrArg finish (exit_full c.pc hg1 hfull)

/-- Settles O19: where no lane is active the word only passes; otherwise what ends or exits is the gang's own. -/
theorem exitWord : Obligations.ExitWord := by
  unfold Obligations.ExitWord
  intro s cu g wg w hc hwf hfin act
  have hact : (ctxC cu g wg (ctrlUseOf w)).act = act := actOf_eq rfl
  have hrun := exit_runs hc hwf hfin
  have ho := OnlyGang.issued s (ctxC cu g wg (ctrlUseOf w)) (ctrlUseOf w)
  have hg := issued_gang (s := s) (c := ctxC cu g wg (ctrlUseOf w)) (u := ctrlUseOf w) hc.gang
  simp only [hact] at hrun
  rw [show (ctxC cu g wg (ctrlUseOf w)).gid = cu.gang from rfl] at ho hg
  generalize issued s _ _ = s1 at hrun ho hg
  have hp : ((g.charged s.cycle).passed (ctxC cu g wg (ctrlUseOf w)) (ctrlUseOf w)).held = g.held := by
    simp only [Gang.held, passed_status, passed_vr, passed_pr, passed_sr, passed_fpstat]
  generalize Gang.passed _ _ _ = k at hg hp
  have hk : k.laneStatus = g.laneStatus := by
    have := congrArg (·.1) hp
    funext l
    exact congrArg (fun st : BitVec 64 => (st.extractLsb' (2 * l) 2).toNat) this
  have hlive : k.liveMask = g.liveMask := by
    unfold Gang.liveMask Gang.isLive
    rw [hk]
  have ha : s1.absentAcc = none := ho.absentAcc.trans hc.mem
  by_cases h0 : act = 0
  · rw [if_pos h0, finish_next ha] at hrun
    refine ⟨s1, hrun, fun j hj => by rw [ho.2.1 j hj], ?_⟩
    rw [if_neg fun h => h.2 h0]
    simp only [Gang.held, Prod.mk.injEq] at hp
    obtain ⟨_, hv, hpr, hsr, hf⟩ := hp
    refine ⟨k, hg, hv, hpr, hsr, hf, fun l _ => ?_⟩
    simp [h0, hk]
  · rw [if_neg h0] at hrun
    obtain ⟨habs, hh⟩ := s1.exitNow_holds act hg
    rw [finish_next (habs.trans ha)] at hrun
    refine ⟨_, hrun, fun j hj => ?_, ?_⟩
    · rw [← ho.2.1 j hj]
      refine (hh j).trans (congrArg _ ?_)
      dsimp only
      split
      · rw [SMap.find?_del, if_neg hj]
      · rw [SMap.find?_set, if_neg hj]
    · have hc := hh cu.gang
      simp only [hlive] at hc
      split
      · next h =>
        rw [if_pos h.1, SMap.find?_del, if_pos rfl] at hc
        simpa using hc
      · next h =>
        rw [if_neg fun h1 => h ⟨h1, h0⟩, SMap.find?_set, if_pos rfl] at hc
        obtain ⟨h', hf, hheld⟩ := Option.map_eq_some_iff.mp hc
        rw [Gang.held_freeDead] at hheld
        have hst := congrArg (·.1) hheld
        have hrest := (congrArg (·.2) hheld).trans (congrArg (·.2) hp)
        simp only [Gang.held, Prod.mk.injEq] at hrest
        obtain ⟨hv, hpr, hsr, hfp⟩ := hrest
        refine ⟨h', hf, hv, hpr, hsr, hfp, fun l _ => ?_⟩
        rw [← hk, ← Gang.laneStatus_exitLanes]
        exact congrArg (fun st : BitVec 64 => (st.extractLsb' (2 * l) 2).toNat) hst

end Sys2Proof.Machine
end

/-! PROOFS. O22: words that trap (01 R17, 03 R71, R72, 05 R134). -/

section
namespace Sys2Proof.Machine

/-! ### A word that faults enters the handler -/

/-- The issue of a word that faults changes ages, split and issue counts, and the units where it is gang-collective. -/
theorem issued_keep (g : Gang) (grp : LaneMask) (pc : PCAddr) (all : Bool) :
    ∃ a sc uo sl, g.issued grp pc all = { g with age := a, splitCnt := sc, unitOf := uo, slots := sl }
      ∧ (all = false → uo = g.unitOf ∧ sl = g.slots) := by
  unfold Gang.issued
  cases all
  · exact ⟨_, _, _, _, rfl, fun _ => ⟨rfl, rfl⟩⟩
  · simp only [if_true]
    rw [mergeUnits_same]
    exact ⟨_, _, _, _, rfl, nofun⟩

/-- The trapped lanes stand at TRAPBASE. -/
theorem Gang.enterHandler_pcOf {g : Gang} {lanes : LaneMask} {cause l : Nat} {pc addr : W64} (hl : lanes.getLsbD l = true) :
    (g.enterHandler lanes cause pc addr).pcOf l = g.trapbase.setWidth 57 &&& ~~~(15 : PCAddr) := by
  refine (setPc_pcOf _ _ _ l).trans ?_
  rw [if_pos hl, BitVec.setWidth_eq_extractLsb' (by decide), BitVec.and_assoc, BitVec.and_self]

/-- A trap at a word takes the group to the handler, and nothing else changes. -/
theorem faultWord_trapped {s : State} {cu : Cur} {g : Gang} {u : WordUse} {c : Ctx} (cause : Nat) (addr : W64)
    (hg : s.gangs.find? cu.gang = some g) (hh : HasHandler g) (ho : g.ord = none) (hm : s.absentAcc = none)
    (hc : c.gid = cu.gang ∧ c.grp = grpOf g cu u.collective ∧ c.pc = cu.pc) :
    ∃ t, finish ((s.faultWord c u).failCheck c (.trap cause addr)) = .next t
      ∧ Trapped s t cu g u.collective cause (cu.pc.setWidth 64) addr := by
  obtain ⟨hgid, hgrp, hpc⟩ := hc
  have hO : OnlyGang s (s.faultWord c u) cu.gang := by
    rw [State.faultWord, hgid]
    exact OnlyGang.charge.updGang _
  have hf : (s.faultWord c u).gangs.find? cu.gang
      = some ((g.charged s.cycle).issued (grpOf g cu u.collective) cu.pc u.collective) := by
    rw [State.faultWord, hgid, hgrp, hpc]
    simp [State.updGang, chargeIssue_gang hg]
  obtain ⟨a, sc, uo, sl, e, eu⟩ := issued_keep (g.charged s.cycle) (grpOf g cu u.collective) cu.pc u.collective
  rw [e, charged_same] at hf
  rw [charged_same] at eu
  generalize s.faultWord c u = s1 at hO hf
  simp only [State.failCheck, hgid, hgrp, hpc]
  rw [State.takeTrap_handler hf hh]
  have hO2 := hO.updGang fun k => k.enterHandler (grpOf g cu u.collective) cause (pcImage cu.pc) addr
  refine ⟨_, finish_next (hO2.absentAcc.trans hm), _, (SMap.find?_upd_self ..).trans (by rw [hf]; rfl), ?_, ?_, ?_, ?_⟩
  · obtain ⟨h1, h2, h3, h4⟩ := hO2
    refine ⟨?_, h2, h3, h4⟩
    have hmon : s.monitors = (s1.updGang cu.gang fun k =>
        k.enterHandler (grpOf g cu u.collective) cause (pcImage cu.pc) addr).monitors := by rw [h1]
    conv_lhs => rw [hmon]
    exact h1
  · simp only [Gang.enterHandler, ho]
    rfl
  · exact eu
  · exact fun l _ hl => Gang.enterHandler_pcOf hl

/-- A core word that breaks a field check traps with ILLEGAL and the subcode (03 R71, R72). -/
theorem coreWord_illegal {s : State} {cu : Cur} {g : Gang} {wg : Wg} {i : Instr} {u : WordUse} {chk : Ctx → State → Check}
    {body : Ctx → State → State} {x : BitVec 8} (hc : Calm s cu g wg) (hh : HasHandler g) (hx : i.staticCheck = some x)
    (ha : u.absent = false) (hf : u.first = .ok) :
    ∃ t, coreWord i u chk body s = .next t ∧ Trapped s t cu g u.collective 0x01 (cu.pc.setWidth 64) (x.setWidth 64) := by
  obtain ⟨t, ht, h⟩ := faultWord_trapped (u := u) (c := ctxC cu g wg u) Cause.illegal (x.setWidth 64) hc.gang hh hc.ord hc.mem
    ⟨rfl, rfl, rfl⟩
  refine ⟨t, ?_, h⟩
  rw [← ht]
  have e1 : ((s.cur.map (·.ext)).getD none) = none := by simp [hc.cur, hc.ext]
  have e2 : wordChecks i u none (ctxC cu g wg u).pfx.isSome (ctxC cu g wg u).pc = .trap Cause.illegal (x.setWidth 64) := by
    simp [wordChecks, ha, hx, illegalSub]
  unfold coreWord
  rw [hc.ctxOf u]
  dsimp only
  rw [e1, hf, show ∀ k, Check.next .ok k = k from fun _ => rfl, e2]
  rfl

/-! ### An empty register in trap mode -/

/-- FE_EMPTY of one register in one lane. -/
theorem feAddr_single {r l : Nat} (hr : r < 1000) (hl : l < 32) : feAddr [(r, l)] = BitVec.ofNat 64 (r + 256 * l) := by
  simp [feAddr, Nat.min_eq_right hr.le, Nat.min_eq_right hl.le]

/-- Where one register of one lane is empty, a source that begins there is found empty there alone. -/
theorem emptyIn_single {c : Ctx} {g : Gang} {v : VSrc} {l : Nat} (he : g.empty = [vkey l v.reg]) (hl : c.act.getLsbD l = true)
    (hlow : v.low = false) (hmask : v.mask = 0xFFFFFFFF) (hn : 1 ≤ v.count) (hr : v.reg + v.count ≤ 256) :
    c.emptyIn g [v] = [(v.reg, l)] := by
  have hlanes : c.checkLanes v = lanesOf c.act := by
    have hall : c.act &&& 0xFFFFFFFF = c.act := BitVec.and_allOnes
    rw [Ctx.checkLanes, hlow, hmask, hall]
    rfl
  obtain ⟨n, hn⟩ : ∃ n, v.count = n + 1 := ⟨v.count - 1, by omega⟩
  have hfst : (lanesOf c.act).filter (fun m => g.empty.contains (vkey m v.reg)) = [l] := by
    have hf : (fun m => g.empty.contains (vkey m v.reg)) = fun m => decide (m = l) := by
      funext m
      simp [he, vkey_inj (show v.reg < 256 by omega) (show v.reg < 256 by omega)]
    rw [hf, List.filter_eq, List.count_eq_one_of_mem (lanesOf_nodup _) (mem_lanesOf.mpr hl)]
    rfl
  have hrest : ∀ j, j < n → (lanesOf c.act).filter (fun m => g.empty.contains (vkey m (v.reg + (j + 1)))) = [] := by
    intro j hj
    refine List.filter_eq_nil_iff.mpr fun m _ => ?_
    simp [he, vkey_inj (show v.reg + (j + 1) < 256 by omega) (show v.reg < 256 by omega)]
  simp only [Ctx.emptyIn, List.flatMap_cons, List.flatMap_nil, List.append_nil, hlanes, hn, List.range_succ_eq_map,
    Nat.add_zero, hfst, List.map_cons, List.map_nil, List.flatMap_map]
  rw [List.flatMap_eq_nil_iff.mpr fun j hj => by rw [Nat.succ_eq_add_one, hrest j (List.mem_range.mp hj), List.map_nil]]
  rfl

/-- The common checks of a word that reads a register found empty in trap mode. -/
theorem laneChecks_feEmpty {c : Ctx} {g : Gang} {u : WordUse} {r l : Nat} (hu : Fits u) (hreg : g.base + g.xcount = 256)
    (hact : c.act ≠ 0) (he : c.emptyIn c.r (u.srcs.filter fun v => v.trap) = [(r, l)]) :
    laneChecks c g u = .trap Cause.feEmpty (feAddr [(r, l)]) := by
  have h1 : outOfRange g u = false := by
    simp only [outOfRange, hreg, Bool.or_eq_false_iff, List.any_eq_false, decide_eq_true_eq, not_lt]
    exact ⟨hu.srcs, hu.dsts⟩
  have h2 : (u.evens.any fun r => decide (r % 2 = 1)) = false :=
    List.any_eq_false.mpr fun r hr => by simp [hu.evens r hr]
  have h3 : (u.quads.any fun r => r % 4 != 0) = false := List.any_eq_false.mpr fun r hr => by simp [hu.quads r hr]
  have h4 : (u.aligned.any fun r => r.1 % r.2 != 0) = false := List.any_eq_false.mpr fun r hr => by simp [hu.aligned r hr]
  simp only [laneChecks, if_neg hact, hu.early, Check.next, h1, h2, h3, h4, he, Bool.or_false, Bool.false_eq_true, if_false,
    List.isEmpty_cons, Bool.not_false, if_true]

/-- The context of the group at the cursor, whatever its registers. -/
theorem ctxOf_of_group {s : State} {cu : Cur} {g : Gang} {wg : Wg} {u : WordUse} (hcur : s.cur = some cu)
    (hsnap : cu.snap = none) (hg : s.gangs.find? cu.gang = some g) (hw : s.wgs.find? g.wg = some wg) (ho : g.ord = none)
    (hgrp : g.groupAt cu.unit cu.pc u.collective ≠ 0) : s.ctxOf u = some (ctxC cu g wg u) := by
  have hi : g.issuing cu u.collective = g.groupAt cu.unit cu.pc u.collective := by simp [Gang.issuing, hsnap]
  simp only [State.ctxOf, hcur, hg, hw, hi]
  rw [if_neg hgrp]
  simp [ctxC, grpOf, ho, hsnap]

/-- Settles O22: the checks fail with the cause that the claim names, and the word enters the handler. -/
theorem wordsThatTrap : Obligations.WordsThatTrap := by
  unfold Obligations.WordsThatTrap
  refine ⟨fun s cu g wg i u chk body x => coreWord_illegal, ?_⟩
  intro s cu g wg w k l hc hwf hev hea hi hempty hk hh hl
  subst hk
  set u := vecUseOf w 1 (widthOf w.t) (widthOf w.t) with hu
  set c := ctxC cu g wg u with hcx
  have hg : { s with gangs := s.gangs.set cu.gang g }.gangs.find? cu.gang = some g := SMap.find?_set_self ..
  obtain ⟨t, ht, h⟩ := faultWord_trapped (s := { s with gangs := s.gangs.set cu.gang g }) (u := u) (c := c)
    Cause.feEmpty (BitVec.ofNat 64 (w.a.toNat + 256 * l)) hg hh hc.ord hc.mem ⟨rfl, rfl, rfl⟩
  refine ⟨t, ?_, h⟩
  rw [exec_mov, ← ht]
  have hfit : Fits u := vecUse_fits hev
  have hact : c.act.getLsbD l = true := by
    rw [hcx, actOf_eq (gd := w.g) rfl]
    exact hl
  have hsrc : u.srcs = [{ reg := w.a.toNat, count := regsOf (widthOf w.t), trap := true, perm := w.pma }] := by
    simp [hu, vecUseOf, vecSrcs, hi, hea]
  have he : c.emptyIn c.r (u.srcs.filter fun v => v.trap) = [(w.a.toNat, l)] := by
    have hin := hfit.srcs _ (hsrc ▸ List.mem_singleton_self _)
    rw [hsrc]
    exact emptyIn_single hempty hact rfl rfl (by unfold regsOf; dsimp only; split <;> omega) hin
  have hlane := laneChecks_feEmpty (g := g) hfit hc.regs (mask_ne_zero hact) he
  rw [feAddr_single (w.a.isLt.trans (by decide)) (lt_of_lane hact)] at hlane
  have hctx : { s with gangs := s.gangs.set cu.gang g }.ctxOf u = some c :=
    ctxOf_of_group hc.cur hc.snap hg hc.wg hc.ord hc.group
  have e1 : ((s.cur.map (·.ext)).getD none) = none := by simp [hc.cur, hc.ext]
  have e2 : wordChecks (.mov w) u none c.pfx.isSome c.pc = .ok := wordChecks_ok (staticCheck_of_wf hwf) hfit
  have hn : ∀ k, Check.next .ok k = k := fun _ => rfl
  show coreWord (.mov w) u noChk _ _ = _
  unfold coreWord
  rw [hctx]
  dsimp only
  rw [e1, hfit.first, hn, e2, show c.gid = cu.gang from rfl, hg]
  dsimp only
  rw [hlane]
  rfl

end Sys2Proof.Machine
end

/-! PROOFS. O47: the events of a gang (08 R187). -/

section
namespace Sys2Proof.Machine

/-- A quarter operation of an MMA at address 0 that waits for its rendezvous: lanes 0 to 7 have arrived. -/
def stallOp : QOp :=
  { wait := 0, q := 3, pc := 0, ins := .mma (MmaW.unpack 0) 0, arrived := 0xFF, parts := 0xFF, phase := .rendezvous, order := 0
    cycle := 0, k := 8, a0 := 0, a1 := 0, b0 := 0, b1 := 0, next := 0, prod := 0 }
/-- Of the lanes that have arrived, only lanes 0 to 3 wait for the operation yet. -/
def stallGang : Gang :=
  { newGang 1 0 32 256 0 0 0 0 0 [] [] with
    trapbase := 0x1000, qops := [stallOp], rdvCnt := [(0, 1)], waits := [{ id := 0, lanes := 0x0F, kind := .matrix }] }
def stallWg : Wg := { wgZero 1 0 0 0 0 with gangs := [1] }
/-- The rendezvous is to be reported after one cycle. -/
def stallState : State := { State.reset with gangs := [(1, stallGang)], wgs := [(1, stallWg)] }.setCreg (.core 0) 0x120 1

/-- The stalled rendezvous is reported for the lanes that wait, not for all that have arrived. -/
theorem stallState_trapped : ((stallState.rdvStall 1 0).gangs.find? 1).map (·.trapped) = some 0x0F := by decide +kernel

/-- Refutes O47: RDV_STALL is taken by the lanes that still wait for the rendezvous, and the operation's set of arrived
lanes may be larger. -/
theorem not_gangEvents : ¬ Obligations.GangEvents := by
  unfold Obligations.GangEvents
  intro ⟨_, _, _, _, _, _, _, _, hstall⟩
  obtain ⟨t, h, ht, hg, _, _, htrapped, _⟩ := hstall stallState 1 0 stallGang stallWg ⟨rfl, rfl, rfl⟩ (by decide +kernel)
    (by decide +kernel) (by decide) (by unfold HasHandler; decide)
  have hx : exec (.rdvStallWatchdog 1 0) stallState = .next (stallState.rdvStall 1 0) := rfl
  cases hx.symm.trans ht
  have h1 := stallState_trapped
  rw [hg] at h1
  have h2 : h.trapped = 0x0F := Option.some.inj h1
  rw [htrapped] at h2
  exact absurd h2 (by decide)

end Sys2Proof.Machine
end

/-! PROOFS. O48: the events of scheduling (05 R122, R130, 12 R274, 17 R345 to R347). -/

section
namespace Sys2Proof.Machine
variable {s : State}

/-! ### Giving way (17 R345 to R347) -/

theorem unitOf_alone {id : Nat} {w : Wg} (hw : s.wgs.find? id = some w) (h0 : w.groupSize = 0) : s.unitOf id = [(id, w)] := by
  simp only [State.unitOf, hw, if_pos h0]

/-- A drained victim that has not ended in time is to be saved. -/
theorem drainTimeout_runs {id d : Nat} {w : Wg} (hw : s.wgs.find? id = some w) (h0 : w.groupSize = 0)
    (hd : w.drainBy = some d) (hle : d ≤ s.fabtime.toNat) (hf : s.fwUp 1 = true) :
    exec (.drainTimeout id) s
      = .next (s.updWg id fun w => { w with drainBy := none, heldSlots := [], preempt := true }) := by
  simp [exec_drainTimeout, execDrainTimeout, hw, hf, hd, hle, unitOf_alone hw h0]

/-- A CANCEL that is due is taken first; gangs with none are left alone (05 R136). -/
theorem cancelFirst_none {gid : Nat} (h : ∀ g, s.gangs.find? gid = some g → g.cancel = none) : s.cancelFirst gid = s := by
  unfold State.cancelFirst
  split
  · rfl
  · next g hg =>
    rw [h g hg]
    split
    · next hc => cases hc
    · rfl

theorem mem_wgGangs_iff {w : Wg} {e : Nat × Gang} : e ∈ s.wgGangs w ↔ e.1 ∈ w.gangs ∧ s.gangs.find? e.1 = some e.2 := by
  refine ⟨mem_wgGangs, fun ⟨hi, hg⟩ => ?_⟩
  exact List.mem_filterMap.mpr ⟨e.1, hi, by rw [hg]; rfl⟩

theorem cancelFirst_foldl {w : Wg} (h : ∀ e ∈ s.wgGangs w, e.2.cancel = none) : w.gangs.foldl State.cancelFirst s = s := by
  have hall : ∀ gid ∈ w.gangs, s.cancelFirst gid = s := fun gid hgid =>
    cancelFirst_none fun g hg => h (gid, g) (mem_wgGangs_iff.mpr ⟨hgid, hg⟩)
  generalize w.gangs = gids at hall
  clear h
  induction gids with
  | nil => rfl
  | cons i is ih =>
    rw [List.foldl_cons, hall i (List.mem_cons_self ..)]
    exact ih fun j hj => hall j (List.mem_cons_of_mem _ hj)

theorem removeGang_gangs (s : State) (gid : Nat) : (s.removeGang gid).gangs = s.gangs.del gid := rfl
theorem removeGang_launches (s : State) (gid : Nat) : (s.removeGang gid).launches = s.launches := by
  unfold State.removeGang State.keepCounts
  cases s.gangs.find? gid <;> rfl

/-- Gangs that are removed are gone, and launches are as before. -/
theorem removeGangs_gone (es : List (Nat × Gang)) :
    (∀ j, (j ∈ es.map (·.1) ∨ s.gangs.find? j = none) → (es.foldl (fun s e => s.removeGang e.1) s).gangs.find? j = none)
    ∧ (es.foldl (fun s e => s.removeGang e.1) s).launches = s.launches := by
  induction es generalizing s with
  | nil => simp
  | cons e es ih =>
    obtain ⟨h1, h2⟩ := ih (s := s.removeGang e.1)
    refine ⟨fun j hj => h1 j ?_, h2.trans (removeGang_launches s e.1)⟩
    rw [removeGang_gangs, SMap.find?_del]
    rw [List.map_cons, List.mem_cons] at hj
    split
    · exact .inr rfl
    · next hne => exact hj.imp_left fun h => h.resolve_left hne

/-- A flushed workgroup is gone with its gangs, and waits again as a unit that has not started (17 R347). -/
theorem flushWg_waits {id : Nat} {w : Wg} {M : Launch} (hw : s.wgs.find? id = some w) (h1 : w.cancelled = false)
    (h2 : w.unitCancelled = false) (hM : s.launches.find? w.launch = some M) (h3 : M.cancelled = false)
    (h4 : M.graphCancelled = false) :
    (s.flushWg id).wgs.find? id = none ∧ (∀ e ∈ s.wgGangs w, (s.flushWg id).gangs.find? e.1 = none)
      ∧ (s.flushWg id).launches.find? w.launch = some { M with waiting := M.waiting.add w.wgid } := by
  obtain ⟨hg, hl⟩ := removeGangs_gone (s := s) (s.wgGangs w)
  have hd : (w.cancelled || w.unitCancelled || (M.cancelled || M.graphCancelled)) = false := by simp [h1, h2, h3, h4]
  simp only [State.flushWg, hw, hM, hd, Bool.false_eq_true, if_false]
  refine ⟨?_, fun e he => hg e.1 (.inl (List.mem_map_of_mem he)), ?_⟩
  · simp [State.updLaunch, SMap.find?_del]
  · simp [State.updLaunch, hl, hM]

/-- A workgroup outside a group gives way by the method of the smallest estimate. -/
theorem preemptUnit_alone {id lat : Nat} {w : Wg} (hw : s.wgs.find? id = some w) (h0 : w.groupSize = 0) :
    s.preemptUnit id lat =
      match chooseMethod lat (s.drainEst w) (s.flushEst w) (s.saveEst w) (w.restartable && w.noWrite) with
      | .drain => s.updWg id fun v =>
          { v with drainBy := some (s.fabtime.toNat + s.drainEst w + lat), migrate := none, preempt := false
                   heldSlots := KSet.addAll [] ((s.wgGangs v).flatMap fun g => g.2.slots.vals) }
      | .flush => (w.gangs.foldl State.cancelFirst s).flushWg id
      | .save => s.updWg id fun v => { v with preempt := true, migrate := none } := by
  have hf : unitFlushable [(id, w)] = (w.restartable && w.noWrite) := by simp [unitFlushable, flushable, h0]
  simp only [State.preemptUnit, unitOf_alone hw h0, hf, List.foldl_cons, List.foldl_nil, Nat.zero_add] <;> rfl

/-- A slice that has ended where a workgroup waits makes the running one give way (05 R122, 17 R345). -/
theorem timeSliceEnd_runs {id : Nat} {w : Wg} {x : Nat × Nat} {L : Launch} (hw : s.wgs.find? id = some w)
    (hst : w.status = .resident) (hl : w.leaving = false) (hf : s.fwUp 1 = true) (h0 : fld (s.psched w.pid) 16 32 ≠ 0)
    (hle : fld (s.psched w.pid) 16 32 ≤ w.slice)
    (hx : (s.waitOrder (s.tenantPart w.tenant)).find? (fun y =>
      match s.launches.find? y.1 with | some M => w.cls ≤ M.cls | none => false) = some x)
    (hL : s.launches.find? x.1 = some L) :
    exec (.timeSliceEnd id) s = .next (s.preemptUnit id (s.latOf (s.tenantPart w.tenant) L.cls)) := by
  rw [exec_timeSliceEnd, execTimeSliceEnd]
  simp only [hw, hst, hl, hf]
  rw [if_neg (by simp [h0, hle])]
  erw [hx]
  simp only [hL]

/-! ### Bins and the starter -/

/-- A FILLING bin becomes READY (05 R130). -/
theorem binTimerExpire_runs {pid bin : Nat} {b : SpawnBin} (hb : (s.cpart pid).bins.find? bin = some b)
    (hf : b.state = .filling) (ht : s.binTime pid ≤ b.timer) :
    exec (.binTimerExpire pid bin) s = .next (s.setCpart pid { s.cpart pid with
      bins := (s.cpart pid).bins.set bin { b with state := .ready }, readyOrder := (s.cpart pid).readyOrder ++ [bin] }) := by
  simp [exec_binTimerExpire, execBinTimerExpire, hb, hf, ht]

/-- What of a gang the starter sees: its waits, and the rest without its lanes' ages. -/
def Gang.started (g : Gang) : List Wait × Gang := (g.waits, { g with waits := [], age := [] })
/-- A gang that has started: no lane of it waits for the starter any more. -/
def Gang.startNow (g : Gang) : Gang :=
  (g.dropWaits fun x => x.kind = .starter).freshAge
    (g.waits.foldl (fun m x => if x.kind = .starter then m ||| x.lanes else m) 0)

/-- Gangs of a wave start, whatever their places in the queue. -/
theorem startGangs (es : List StartEntry) :
    es.foldl (fun s e => s.updGang e.gang Gang.startNow) s
        = { s with gangs := (es.foldl (fun s e => s.updGang e.gang Gang.startNow) s).gangs }
      ∧ ∀ j, ((es.foldl (fun s e => s.updGang e.gang Gang.startNow) s).gangs.find? j).map Gang.started
        = (s.gangs.find? j).map fun g =>
            (if es.any (fun e => e.gang = j) then g.waits.filter (fun x => !(decide (x.kind = .starter))) else g.waits,
              { g with waits := [], age := [] }) := by
  induction es generalizing s with
  | nil => exact ⟨rfl, fun j => rfl⟩
  | cons e es ih =>
    obtain ⟨h1, h2⟩ := ih (s := s.updGang e.gang Gang.startNow)
    refine ⟨by rw [List.foldl_cons, h1]; rfl, fun j => ?_⟩
    rw [List.foldl_cons, h2]
    simp only [State.updGang, SMap.find?_upd, List.any_cons]
    by_cases hj : e.gang = j
    · subst hj
      simp only [if_true, Option.map_map, decide_true, Bool.true_or]
      congr 1
      funext g
      refine Prod.ext ?_ rfl
      simp only [Function.comp, Gang.startNow, Gang.dropWaits, Gang.freshAge]
      split <;> simp
    · simp [hj, Ne.symm hj]

/-- The starter's next state: a wave has left its queue. -/
def State.waved (s : State) (cl : Nat) : Starter :=
  { queue := (s.starter cl).queue.drop (s.waveOf cl), next := s.cycle + s.gapOf cl + 1, last := s.cycle }

/-- A wave of a starter whose entries wait for no other cluster (12 R274). -/
theorem starterWave_runs {cl : Nat} (hq : (s.starter cl).queue ≠ []) (hn : (s.starter cl).next ≤ s.cycle)
    (hw : 1 ≤ s.waveOf cl) (ha : ∀ e ∈ (s.starter cl).queue, e.after = none) :
    exec (.starterWave cl) s = .next (((s.starter cl).queue.take (s.waveOf cl)).foldl
      (fun s e => s.updGang e.gang Gang.startNow) { s with starters := s.starters.set cl (s.waved cl) }) := by
  have hgo : ((s.starter cl).queue.take (s.waveOf cl)).takeWhile (fun e => s.startAllowed e)
      = (s.starter cl).queue.take (s.waveOf cl) := by
    refine List.takeWhile_eq_self_iff.mpr fun e he => ?_
    simp [State.startAllowed, ha e (List.mem_of_mem_take he)]
  have hne : (s.starter cl).queue.isEmpty = false := by simpa using hq
  have hne2 : ((s.starter cl).queue.take (s.waveOf cl)).isEmpty = false := by
    simp only [List.isEmpty_eq_false_iff, ne_eq, List.take_eq_nil_iff, hq, or_false]
    omega
  have hdrop : (s.starter cl).queue.drop ((s.starter cl).queue.take (s.waveOf cl)).length
      = (s.starter cl).queue.drop (s.waveOf cl) := by
    rw [List.length_take]
    rcases Nat.le_total (s.waveOf cl) (s.starter cl).queue.length with h | h
    · rw [Nat.min_eq_left h]
    · rw [Nat.min_eq_right h, List.drop_eq_nil_of_le (Nat.le_refl _), List.drop_eq_nil_of_le h]
  rw [exec_starterWave, execStarterWave]
  simp only [hne, hgo, hne2, hdrop, Bool.false_or, decide_eq_true_eq, Nat.not_lt.mpr hn, Bool.false_eq_true, if_false]
  rfl

end Sys2Proof.Machine
end


section
namespace Sys2Proof.Machine
variable {s : State}

/-! ### A gang as it starts (01 R14) -/

/-- The lanes below n in a map of two-bit codes of live lanes. -/
theorem launchCode (n : Nat) : let a := (List.range n).foldl (fun a l => a + 4 ^ l) 0
    a < 4 ^ n ∧ ∀ l, a / 4 ^ l % 4 = if l < n then 1 else 0 := by
  induction n with
  | zero => simp
  | succ n ih =>
    simp only [List.range_succ, List.foldl_append, List.foldl_cons, List.foldl_nil]
    generalize (List.range n).foldl (fun a l => a + 4 ^ l) 0 = a at ih
    obtain ⟨hlt, hl⟩ := ih
    refine ⟨by rw [Nat.pow_succ]; omega, fun l => ?_⟩
    rcases lt_trichotomy l n with h | h | h
    · obtain ⟨k, rfl⟩ : ∃ k, n = l + 1 + k := ⟨n - (l + 1), by omega⟩
      have e : a + 4 ^ (l + 1 + k) = a + 4 ^ l * (4 * 4 ^ k) := by ring
      rw [e, Nat.add_mul_div_left _ _ (Nat.pow_pos (by decide)), Nat.add_mul_mod_self_left, hl l, if_pos h, if_pos (by omega)]
    · subst h
      rw [Nat.add_div_right _ (Nat.pow_pos (by decide)), Nat.div_eq_of_lt hlt, if_pos (by omega)]
    · have : a + 4 ^ n < 4 ^ l := calc
        a + 4 ^ n < 4 ^ (n + 1) := by rw [Nat.pow_succ]; omega
        _ ≤ 4 ^ l := Nat.pow_le_pow_right (by decide) h
      rw [Nat.div_eq_of_lt this, if_neg (by omega)]

theorem launchStatus_lane {n : Nat} (hn : n ≤ 32) (l : Nat) :
    ((launchStatus n).extractLsb' (2 * l) 2).toNat = if l < n then 1 else 0 := by
  obtain ⟨hlt, hcode⟩ := launchCode n
  have h64 : (List.range n).foldl (fun a l => a + 4 ^ l) 0 < 2 ^ 64 :=
    hlt.trans_le ((Nat.pow_le_pow_right (by decide) hn).trans (by decide))
  rw [launchStatus, BitVec.extractLsb'_toNat, BitVec.toNat_ofNat, Nat.mod_eq_of_lt h64, Nat.shiftRight_eq_div_pow, Nat.pow_mul,
    ← hcode l]

theorem laneStatus_of_launch {g : Gang} {n : Nat} (h : g.status = launchStatus n) (hn : n ≤ 32) (l : Nat) :
    g.laneStatus l = if l < n then 1 else 0 := by
  rw [Gang.laneStatus, h]
  exact launchStatus_lane hn l

theorem pcOf_of_launch {g : Gang} {n l : Nat} {pc : PCAddr} (h : g.pcs = (List.range n).foldl (fun (m : SMap PCAddr) l => m.put 0 l pc) [])
    (hl : l < n) : g.pcOf l = pc := by
  rw [Gang.pcOf, h, pcs_foldl, if_pos (List.mem_range.mpr hl)]

theorem p_of_zero {g : Gang} (h : g.pr = 0) (l k : Nat) : g.p l k = (k == 0) := by
  simp [Gang.p, h, beq_eq_decide]

/-! ### Workgroups that are added -/

/-- The active set is filled: gangs become active, and nothing else changes (05 R112). -/
theorem fillActive_only (s : State) (pid k : Nat) :
    s.fillActive pid k = { s with gangs := (s.fillActive pid k).gangs }
      ∧ ∀ j g, s.gangs.find? j = some g → ∃ b, (s.fillActive pid k).gangs.find? j = some { g with active := b } := by
  induction k generalizing s with
  | zero => exact ⟨rfl, fun j g h => ⟨g.active, h⟩⟩
  | succ k ih =>
    unfold State.fillActive
    split
    · exact ⟨rfl, fun j g h => ⟨g.active, h⟩⟩
    · split
      · exact ⟨rfl, fun j g h => ⟨g.active, h⟩⟩
      · next gid _ =>
        obtain ⟨h1, h2⟩ := ih (s.updGang gid fun g => { g with active := true })
        refine ⟨h1, fun j g h => ?_⟩
        by_cases hj : j = gid
        · subst hj
          exact h2 j { g with active := true } (by simp [State.updGang, h])
        · exact h2 j g (by simp [State.updGang, SMap.find?_upd, hj, h])

theorem foldl_setGangs (f : Nat → Gang) (b n : Nat) (m : SMap Gang) {i : Nat} (hi : i < n) :
    ((List.range n).foldl (fun m i => m.set (b + i) (f i)) m).find? (b + i) = some (f i) := by
  induction n with
  | zero => omega
  | succ n ih =>
    rw [List.range_succ, List.foldl_append, List.foldl_cons, List.foldl_nil, SMap.find?_set]
    split
    · next h => rw [Nat.add_left_cancel h]
    · exact ih (by omega)

/-- A workgroup that is added stands under the next number, with its gangs in order (01 R14). -/
theorem addWg_adds (s : State) (w : Wg) (slots : List Nat) (gangOf : Nat → Nat → Gang) :
    let t := s.addWg w slots gangOf
    t = { s with wgs := t.wgs, gangs := t.gangs, nextWg := t.nextWg, nextGang := t.nextGang, admitSeq := t.admitSeq
                 icache := t.icache, l1 := t.l1, tex := t.tex, l0 := t.l0 }
      ∧ t.wgs = s.wgs.set s.nextWg { w with gangs := (List.range slots.length).map (s.nextGang + ·), seq := s.admitSeq }
      ∧ ∀ i, i < slots.length →
          ∃ b, t.gangs.find? (s.nextGang + i) = some { gangOf i (slots.getD i 0) with active := b } := by
  intro t
  obtain ⟨h1, h2⟩ := fillActive_only (({ s with
    wgs := s.wgs.set s.nextWg { w with gangs := (List.range slots.length).map (s.nextGang + ·), seq := s.admitSeq }
    nextWg := s.nextWg + 1, nextGang := s.nextGang + slots.length, admitSeq := s.admitSeq + 1
    gangs := (List.range slots.length).foldl (fun m i => m.set (s.nextGang + i) (gangOf i (slots.getD i 0))) s.gangs
    }).freshCore (coreOf w.pid)) w.pid 8
  have ht : t = _ := h1
  refine ⟨by rw [ht]; rfl, by rw [ht]; rfl, fun i hi => h2 _ _ (foldl_setGangs (fun i => gangOf i (slots.getD i 0)) _ _ _ hi)⟩

/-! ### Admission (05 R111, 17 R342) -/

theorem grantPlan_none (wid : Nat) : s.grantPlan wid 0 = s := by
  unfold State.grantPlan
  split
  · rfl
  · rfl

/-- The first in order does not ask for room where it fits somewhere, or its class has no latency (17 R345). -/
theorem requestRoom_none {part : Nat} (h : ∀ x, (s.waitOrder part).head? = some x → ∀ M, s.launches.find? x.1 = some M →
    s.fitsSome M = true ∨ s.latOf part M.cls = 0) : s.requestRoom part = s := by
  unfold State.requestRoom
  split
  · rfl
  · next lid n rest hw =>
    split
    · rfl
    · next L hL =>
      rw [hw] at h
      rw [if_pos]
      rcases h (lid, n) rfl L hL with h | h <;> simp [h]

/-- A launch's need takes as many slots as it has gangs. -/
theorem slotsFor_length {pid : Nat} {L : Launch} (h : s.admits pid L.need = true) :
    ((s.slotsFor pid L.gangs).take L.gangs).length = L.gangs := by
  simp only [State.admits, State.meets, Launch.need, Bool.and_eq_true] at h
  obtain ⟨⟨⟨⟨⟨_, hslots⟩, _⟩, _⟩, _⟩, _⟩ := h
  rw [List.length_take, State.slotsFor]
  by_cases h16 : L.gangs = 16
  · simp only [h16, decide_true, if_true, Bool.and_eq_true, decide_eq_true_eq] at hslots
    rw [if_pos h16, hslots.1.1.1, h16]
    rfl
  · simp only [h16, decide_false, Bool.false_eq_true, if_false] at hslots
    rw [if_neg h16]
    exact Nat.min_eq_left (of_decide_eq_true hslots)

/-- The gang of index i that a launch starts. -/
def Launch.gangAt (L : Launch) (wid i slot : Nat) : Gang :=
  newGang wid i L.lanes L.base L.ext slot L.entry L.codemap L.trapbase L.sregs []
/-- The workgroup of WGID n that a launch, not of a cluster group, starts. -/
def Launch.wgAt (L : Launch) (lid n pid : Nat) : Wg :=
  { wgZero lid n pid L.tenant L.cls with
    count := L.gangs, scrLen := L.scrLen, tileW := L.tileW, tileH := L.tileH, restartable := L.restart }

/-- The state in which a workgroup has been admitted. -/
theorem admitWg_adds {lid n pid : Nat} {L : Launch} (hL : s.launches.find? lid = some L) (hc : L.clus < 2)
    (hp : L.slotPlan = 0) :
    s.admitWg lid n pid =
      ((((s.updLaunch lid fun L => { L with waiting := L.waiting.del n }).addWg (L.wgAt lid n pid)
        ((s.slotsFor pid L.gangs).take L.gangs) (L.gangAt s.nextWg)).setCreg (.core (coreOf pid)) 0x140 0).setCreg
        (.core (coreOf pid)) 0x148 0) := by
  have h2 : ¬2 ≤ L.clus := Nat.not_le.mpr hc
  simp only [State.admitWg, hL, hp, grantPlan_none, if_neg h2, if_true]
  rfl

/-- The first workgroup in order that can be admitted is admitted (17 R342). -/
theorem admission_runs {part pid lid n : Nat} {L : Launch} (hs : s.partStopped part = false)
    (hcl : clusterOf pid ∈ s.partClusters part) (hf : s.fwUp 1 = true)
    (hpick : s.pickWaiting (s.waitOrder part) (none, [], []) = some (lid, n)) (hL : s.launches.find? lid = some L)
    (hc : L.clus < 2) (ha : s.admits pid L.need = true)
    (hroom : ∀ x, (s.waitOrder part).head? = some x → ∀ M, s.launches.find? x.1 = some M →
      s.fitsSome M = true ∨ s.latOf part M.cls = 0) :
    exec (.admission part pid) s = finish (s.admitWg lid n pid) := by
  have h2 : ¬2 ≤ L.clus := Nat.not_le.mpr hc
  have hpl : s.placing pid L = some [pid] := by simp [State.placing, h2, ha]
  rw [exec_admission, execAdmission, if_neg (by simp [hs, hcl, hf])]
  simp only [requestRoom_none hroom, hpick, hL, hpl, if_neg h2]
  rfl

/-! ### The launch of a bin (05 R130, R131) -/

/-- The registers v0 to v3 of the lanes that the records of a bin start. -/
def SpawnBin.payload (b : SpawnBin) (n : Nat) : SMap W32 :=
  (List.range n).foldl (fun m l =>
    match b.recs[l]? with
    | some r => (((m.put 0 (vkey l 0) r.w0).put 0 (vkey l 1) r.w1).put 0 (vkey l 2) r.w2).put 0 (vkey l 3) r.w3
    | none => m) []

theorem SpawnBin.payload_getD {b : SpawnBin} {l : Nat} {x : SpawnRec} (hx : b.recs[l]? = some x) (n : Nat) (hl : l < n) :
    let m := b.payload n
    m.getD (vkey l 0) 0 = x.w0 ∧ m.getD (vkey l 1) 0 = x.w1 ∧ m.getD (vkey l 2) 0 = x.w2 ∧ m.getD (vkey l 3) 0 = x.w3 := by
  induction n with
  | zero => omega
  | succ n ih =>
    simp only [SpawnBin.payload, List.range_succ, List.foldl_append, List.foldl_cons, List.foldl_nil] at ih ⊢
    by_cases h : l = n
    · subst h
      simp [hx, SMap.getD_put, vkey]
    · have h4 : ∀ i j, i < 4 → j < 4 → vkey l i ≠ vkey n j := by
        intro i j hi hj
        unfold vkey
        omega
      split
      · simp only [SMap.getD_put, h4, Nat.reduceLT, if_false]
        exact ih (by omega)
      · exact ih (by omega)

/-- The gang that a bin starts. -/
def SpawnBin.gang (b : SpawnBin) (L : Launch) (e : SpawnEntry) (entry wid slot : Nat) : Gang :=
  newGang wid 0 b.recs.length e.base e.ext slot entry L.codemap L.trapbase [] (b.payload b.recs.length)

/-- The bin that became READY first launches a gang in the lowest free slot. -/
theorem binLaunch_runs {pid b slot : Nat} {rest slots : List Nat} {bin : SpawnBin} {r : SpawnRec} {rs : List SpawnRec}
    {L : Launch} {e : SpawnEntry} (hb : (s.cpart pid).readyOrder = b :: rest) (hbin : (s.cpart pid).bins.find? b = some bin)
    (hr : bin.recs = r :: rs) (hslot : s.freeSlots pid 16 = slot :: slots) (hL : s.launches.find? r.launch = some L)
    (hs : s.partStopped L.part = false) (he : L.spawns.find? (fun x => x.addr = r.entry) = some e)
    (hroom : e.base + s.poolUsed pid ≤ 1024) (hring : s.ringCount pid = 0) :
    let s1 := s.takeFree.2.setCpart pid { s.cpart pid with bins := (s.cpart pid).bins.del b, readyOrder := rest }
    let w : Wg := { wgZero r.launch (Config.freeNat s.freeCtr % 2 ^ 32) pid L.tenant r.cls with binGang := true }
    exec (.binLaunch pid) s = finish ((s1.addWg w [slot] fun _ slot => bin.gang L e r.entry s.nextWg slot).updLaunch r.launch
      fun L => { L with graphLive := L.graphLive + 1 }) := by
  intro s1 w
  have hroom : ¬1024 - s.poolUsed pid < e.base := by omega
  have hring' : ((s1.addWg w [slot] fun _ slot => bin.gang L e r.entry s.nextWg slot).updLaunch r.launch
      fun L => { L with graphLive := L.graphLive + 1 }).ringCount pid = 0 := by
    obtain ⟨h1, _, _⟩ := addWg_adds s1 w [slot] fun _ slot => bin.gang L e r.entry s.nextWg slot
    have hcregs : (s1.addWg w [slot] fun _ slot => bin.gang L e r.entry s.nextWg slot).cregs = s.cregs := by rw [h1]; rfl
    simp only [State.ringCount, State.spo, State.creg, State.updLaunch_cregs, hcregs] at hring ⊢
    exact hring
  have hhead : bin.recs.head? = some r := by rw [hr]; rfl
  rw [exec_binLaunch, execBinLaunch]
  simp only [hb, hbin, hhead, hslot, hL, hs, he, if_neg hroom, Bool.false_eq_true, if_false]
  refine congrArg finish ?_
  exact (congrArg (State.refill _ pid) hring').trans rfl

end Sys2Proof.Machine
end


section
namespace Sys2Proof.Machine
variable {s : State}

/-! ### Restore (05 R139, R140) -/

/-- A map that a fold over a range fills. -/
theorem getD_foldl_range {α : Type} [DecidableEq α] {d : α} (f : Nat → α) {n i : Nat} (hi : i < n) :
    ((List.range n).foldl (fun (m : SMap α) i => m.put d i (f i)) []).getD i d = f i := by
  have h := SMap.getD_foldl_put (d := d) (fun _ => true) f i (List.range n) []
  simpa [hi] using h

/-- A lane's registers, written one after another. -/
theorem getD_lane (f : Nat → W32) (l n : Nat) (m : SMap W32) (k : Nat) :
    ((List.range n).foldl (fun m j => m.put 0 (vkey l j) (f j)) m).getD k 0
      = if vkey l 0 ≤ k ∧ k < vkey l n then f (k - vkey l 0) else m.getD k 0 := by
  induction n with
  | zero => rw [if_neg (by omega)]; rfl
  | succ n ih =>
    rw [List.range_succ, List.foldl_append, List.foldl_cons, List.foldl_nil, SMap.getD_put, ih]
    unfold vkey
    by_cases h : k = l * 256 + n
    · subst h
      rw [if_pos rfl, if_pos (by omega)]
      congr 1
      omega
    · rw [if_neg h]
      exact if_congr (by omega) rfl rfl

/-- The register file that an area's image fills lane by lane: an image of more than 256 entries runs over into the next
lane, which is written after it. -/
theorem getD_lanes (f : Nat → Nat → W32) {n k l r : Nat} (hl : l < k) (hr : r < n) (h256 : r < 256) :
    ((List.range k).foldl (fun (m : SMap W32) l =>
      (List.range n).foldl (fun m j => m.put 0 (vkey l j) (f l j)) m) []).getD (vkey l r) 0
      = f l r := by
  induction k with
  | zero => omega
  | succ k ih =>
    rw [List.range_succ, List.foldl_append, List.foldl_cons, List.foldl_nil, getD_lane]
    by_cases h : l = k
    · subst h
      rw [if_pos (by unfold vkey; omega)]
      congr 1
      unfold vkey
      omega
    · rw [if_neg (by unfold vkey; omega)]
      exact ih (by omega)

theorem foldl_setEach (es : List (Nat × Gang)) (hn : (es.map (·.1)).Nodup) (m : SMap Gang) {e : Nat × Gang} (he : e ∈ es) :
    (es.foldl (fun (m : SMap Gang) (e : Nat × Gang) => m.set e.1 e.2) m).find? e.1 = some e.2 := by
  induction es using List.reverseRecOn with
  | nil => cases he
  | append_singleton es x ih =>
    rw [List.map_append, List.map_singleton, List.nodup_append] at hn
    obtain ⟨hes, _, hx⟩ := hn
    rw [List.foldl_append, List.foldl_cons, List.foldl_nil, SMap.find?_set]
    rcases List.mem_append.mp he with he | he
    · rw [if_neg (hx _ (List.mem_map_of_mem he) _ (List.mem_singleton_self _))]
      exact ih hes he
    · rw [List.mem_singleton.mp he, if_pos rfl]

theorem wgGangs_fst (s : State) (w : Wg) : ((s.wgGangs w).map (·.1)).Sublist w.gangs := by
  unfold State.wgGangs
  induction w.gangs with
  | nil => exact .slnil
  | cons i is ih =>
    cases h : s.gangs.find? i with
    | none => simpa [List.filterMap_cons, h] using ih.cons i
    | some g => simpa [List.filterMap_cons, h] using ih.cons_cons i

/-- A saved workgroup whose areas are well formed is rebuilt, with the gangs of its areas, before the active set is filled. -/
theorem restoreWg_rebuilds {id pid : Nat} {w : Wg} (hw : s.wgs.find? id = some w) (hok : s.wgAreaOk w.ctxAddr = true)
    (hgok : ∀ e ∈ s.wgGangs w, s.gangAreaOk (w.ctxAddr + s.areaNat (w.ctxAddr + 0x200 + 8 * e.2.idx) 8) = true)
    (hn : w.gangs.Nodup) :
    ∃ x : State, s.restoreWg id pid = x.fillActive pid 8 ∧ x.absentAcc = s.absentAcc ∧ x.mem = s.mem ∧ x.vmem = s.vmem
      ∧ (∃ v : Wg, x.wgs.find? id = some v ∧ v.status = .resident ∧ v.pid = pid ∧ v.slice = 0 ∧ v.gangs = w.gangs
        ∧ (∀ r, r < 32 → v.gr.getD r 0 = BitVec.ofNat 64 (s.areaNat (w.ctxAddr + 0x100 + 8 * r) 8))
        ∧ (∀ i, i < w.scrLen →
            v.scr.getD i 0 = s.memByteAs 0 (w.ctxAddr + 0x400 + roundUp (2 * (w.tileW * w.tileH)) 128 + i)))
      ∧ ∀ e ∈ s.wgGangs w, ∃ order slots, x.gangs.find? e.1 = some { s.gangOfArea
          (w.ctxAddr + s.areaNat (w.ctxAddr + 0x200 + 8 * e.2.idx) 8) order e.2 with slots := slots } := by
  unfold State.restoreWg
  split
  · next h => rw [hw] at h; cases h
  · next w' h =>
    obtain rfl : w = w' := Option.some.inj (hw.symm.trans h)
    extract_lets a off gs p rec0 scr0 fl order gs1 gs2 w1 src s1 src' s2 queue s3
    rw [if_neg (by simpa [a, off, gs, hok] using hgok)]
    have h3 : s3 = { s2 with starters := s3.starters } := by
      unfold s3
      split <;> rfl
    have hgangs : s3.gangs = gs2.foldl (fun (m : SMap Gang) (e : Nat × Gang) => m.set e.1 e.2) s.gangs := by
      rw [h3]
      rfl
    have hwgs : s3.wgs = s.wgs.set id w1 := by
      rw [h3]
      rfl
    clear_value s3
    refine ⟨_, rfl, ?_, ?_, ?_, ⟨w1, ?_, rfl, rfl, rfl, rfl, fun r hr => ?_, fun i hi => ?_⟩, fun e he => ?_⟩
    · rw [h3]; rfl
    · rw [h3]; rfl
    · rw [h3]; rfl
    · rw [hwgs, SMap.find?_set_self]
    · simp only [w1]
      exact getD_foldl_range (fun r => BitVec.ofNat 64 (s.areaNat (a + 0x100 + 8 * r) 8)) hr
    · simp only [w1]
      exact getD_foldl_range (fun i => s.memByteAs 0 (scr0 + i)) hi
    · have hfst : gs2.map (·.1) = gs.map (·.1) := by simp [gs2, gs1, reslot]
      have hnd : (gs2.map (·.1)).Nodup := hfst ▸ hn.sublist (wgGangs_fst s w)
      have hmem : (e.1, s.gangOfArea (off e.2) (order + 64 * e.2.idx) e.2) ∈ gs1 := List.mem_map_of_mem he
      obtain ⟨y, hy, hye⟩ : ∃ y ∈ gs2, ∃ slots, y
          = (e.1, { s.gangOfArea (off e.2) (order + 64 * e.2.idx) e.2 with slots := slots }) :=
        ⟨_, List.mem_map_of_mem hmem, _, rfl⟩
      obtain ⟨slots, rfl⟩ := hye
      refine ⟨order + 64 * e.2.idx, slots, ?_⟩
      rw [hgangs]
      exact foldl_setEach gs2 hnd s.gangs hy

/-- No lane stands where it stood for the starter, in a gang that does not wait for it. -/
theorem released_zero {ws : List Wait} (h : ∀ x ∈ ws, x.kind ≠ .starter) (m : LaneMask) :
    ws.foldl (fun m w => if w.kind = .starter then m ||| w.lanes else m) m = m := by
  induction ws generalizing m with
  | nil => rfl
  | cons x xs ih =>
    rw [List.foldl_cons, if_neg (h x (List.mem_cons_self ..))]
    exact ih (fun y hy => h y (List.mem_cons_of_mem _ hy)) m

section
variable {a order l n : Nat} {g : Gang}

theorem gangOfArea_s (hn : n < 64) : (s.gangOfArea a order g).s n = BitVec.ofNat 64 (s.areaNat (a + (0x200 + 8 * n)) 8) := by
  unfold Gang.s State.gangOfArea
  dsimp only
  exact getD_foldl_range (fun n => BitVec.ofNat 64 (s.areaNat (a + (0x200 + 8 * n)) 8)) hn

theorem gangOfArea_vr {r : Nat} (hl : l < 32) (hr : r < 256)
    (hb : r < (s.gangOfArea a order g).base + (s.gangOfArea a order g).xcount) :
    (s.gangOfArea a order g).vr.getD (vkey l r) 0 = BitVec.ofNat 32 (s.areaNat (a + (0x800 + 128 * r + 4 * l)) 4) := by
  unfold State.gangOfArea at hb ⊢
  dsimp only at hb ⊢
  exact getD_lanes (fun l r => BitVec.ofNat 32 (s.areaNat (a + (0x800 + 128 * r + 4 * l)) 4)) hl hb hr

theorem gangOfArea_pcOf (hl : l < 32) (hw : ∀ x ∈ g.waits, x.kind ≠ .starter) :
    (s.gangOfArea a order g).pcOf l = BitVec.ofNat 57 (s.areaNat (a + (0x100 + 8 * l)) 8) := by
  unfold Gang.pcOf State.gangOfArea
  dsimp only
  refine (getD_foldl_range (fun l => if (g.waits.foldl (fun m w => if w.kind = .starter then m ||| w.lanes else m)
    (0 : LaneMask)).getLsbD l then g.pcOf l else BitVec.ofNat 57 (s.areaNat (a + (0x100 + 8 * l)) 8)) hl).trans ?_
  rw [released_zero hw]
  simp

end

/-- Slots and a place in the active set are none of a gang's registers. -/
theorem placed_same (k : Gang) (slots : SMap Nat) (b : Bool) :
    ({ k with slots := slots, active := b } : Gang).s = k.s ∧ ({ k with slots := slots, active := b } : Gang).vr = k.vr
      ∧ ({ k with slots := slots, active := b } : Gang).base + ({ k with slots := slots, active := b } : Gang).xcount
        = k.base + k.xcount
      ∧ ({ k with slots := slots, active := b } : Gang).pcOf = k.pcOf := ⟨rfl, rfl, rfl, rfl⟩

/-- What a restored gang holds of its area (05 Table 47). -/
theorem gangOfArea_fields (a order : Nat) (g : Gang) (slots : SMap Nat) (b : Bool) :
    let h := { s.gangOfArea a order g with slots := slots, active := b }
    let f (o n : Nat) : Nat := s.areaNat (a + o) n
    h.status = BitVec.ofNat 64 (f 0x08 8) ∧ h.base = f 4 2 ∧ h.xcount = f 6 2
      ∧ h.fpstat = BitVec.ofNat 64 (f 0x20 8) ∧ h.issuecnt = BitVec.ofNat 64 (f 0x28 8)
      ∧ h.codemap = BitVec.ofNat 64 (f 0x30 8) ∧ h.trapbase = BitVec.ofNat 64 (f 0x40 8)
      ∧ h.trapcause = BitVec.ofNat 64 (f 0x48 8) ∧ h.trappc = BitVec.ofNat 64 (f 0x50 8)
      ∧ h.trapaddr = BitVec.ofNat 64 (f 0x58 8) ∧ h.pr = BitVec.ofNat 256 (f 0x80 32)
      ∧ (∀ n, n < 64 → h.s n = BitVec.ofNat 64 (f (0x200 + 8 * n) 8))
      ∧ (∀ l r, l < 32 → r < 256 → r < h.base + h.xcount →
          h.vr.getD (vkey l r) 0 = BitVec.ofNat 32 (f (0x800 + 128 * r + 4 * l) 4))
      ∧ ∀ l, l < 32 → (∀ x ∈ g.waits, x.kind ≠ .starter) → h.pcOf l = BitVec.ofNat 57 (f (0x100 + 8 * l) 8) := by
  intro h f
  obtain ⟨hs, hvr, hb, hpc⟩ := placed_same (s.gangOfArea a order g) slots b
  refine ⟨rfl, rfl, rfl, rfl, rfl, rfl, rfl, rfl, rfl, rfl, rfl, fun n hn => ?_, fun l r hl hr hlt => ?_, fun l hl hw => ?_⟩
  · rw [show h.s = _ from hs]
    exact gangOfArea_s hn
  · rw [show h.base + h.xcount = _ from hb] at hlt
    rw [show h.vr = _ from hvr]
    exact gangOfArea_vr hl hr hlt
  · rw [show h.pcOf = _ from hpc]
    exact gangOfArea_pcOf hl hw

/-- A saved workgroup comes back where it meets R111 and R213. -/
theorem contextRestore_runs {id pid : Nat} {w : Wg} (hw : s.wgs.find? id = some w) (hst : w.status = .saved)
    (h0 : w.groupSize = 0) (hm : w.migrate = none) (hd : w.dying = false)
    (hcl : clusterOf pid ∈ s.partClusters (s.tenantPart w.tenant)) (hs : s.partStopped (s.tenantPart w.tenant) = false)
    (hf : s.fwUp 1 = true) (hmeets : s.meets pid (s.savedNeed w) = true) :
    exec (.contextRestore id pid) s = finish (s.restoreWg id pid) := by
  rw [exec_contextRestore, execContextRestore]
  simp [hw, unitOf_alone hw h0, hst, h0, hm, hd, hcl, hs, hf, hmeets]

end Sys2Proof.Machine
end


section
namespace Sys2Proof.Machine
variable {s : State}

/-! ### Save (05 R139) -/

theorem SMap.upd_self {α : Type} (m : SMap α) (k : Nat) : m.upd k (fun v => v) = m := by
  induction m with
  | nil => rfl
  | cons e m ih => simp [SMap.upd, ih]

/-- A gang all of whose long operations have ended has none to stop (09 R208). -/
theorem stopMacros_none {gid : Nat} (h : ∀ g, s.gangs.find? gid = some g → g.mops = []) : s.stopMacros gid = s := by
  have hm : s.mctxs gid = [] := by
    unfold State.mctxs
    split
    · rfl
    · next g hg =>
      split
      · rfl
      · rw [h g hg]
        rfl
  unfold State.stopMacros
  split
  · rfl
  · split
    · rfl
    · rw [hm]
      rfl

/-- What comes before a save leaves a workgroup that is ready for it as it is (05 R136, R139). -/
theorem saveFirst_foldl {id : Nat} {w : Wg} (hr : s.saveReady (id, w) = true) (hc : ∀ e ∈ s.wgGangs w, e.2.cancel = none) :
    w.gangs.foldl (fun s gid => (s.stopMacros gid).cancelFirst gid) s = s := by
  have hall : ∀ gid ∈ w.gangs, (s.stopMacros gid).cancelFirst gid = s := by
    intro gid hgid
    have hmem : ∀ g, s.gangs.find? gid = some g → (gid, g) ∈ s.wgGangs w := fun g hg => mem_wgGangs_iff.mpr ⟨hgid, hg⟩
    rw [stopMacros_none fun g hg => ?_]
    · exact cancelFirst_none fun g hg => hc _ (hmem g hg)
    · simp only [State.saveReady, Bool.and_eq_true, List.all_eq_true] at hr
      have hq := (hr.2 _ (hmem g hg)).1
      simp only [Gang.quiet, Bool.and_eq_true, List.isEmpty_iff] at hq
      exact hq.1.1.2
  generalize w.gangs = gids at hall
  induction gids with
  | nil => rfl
  | cons i is ih =>
    rw [List.foldl_cons, hall i (List.mem_cons_self ..)]
    exact ih fun j hj => hall j (List.mem_cons_of_mem _ hj)

/-- A gang with no access on the way has none to finish. -/
theorem vaultFinish_none {gid : Nat} (h : ∀ o ∈ s.vops, o.gang ≠ gid) : s.vaultFinish gid = s := by
  have hp : s.vops.partition (fun o => o.gang = gid) = ([], s.vops) := by
    rw [List.partition_eq_filter_filter]
    refine Prod.ext (List.filter_eq_nil_iff.mpr fun o ho => by simpa using h o ho) (List.filter_eq_self.mpr fun o ho => ?_)
    simpa using h o ho
  simp only [State.vaultFinish, hp, List.filter_nil, List.foldl_nil, List.any_nil, Bool.false_eq_true, if_false, List.map_id']
  simp only [State.updGang, SMap.upd_self]

/-- The gangs of a workgroup settle for its save. -/
theorem settle_foldl {gids : List Nat} (hn : gids.Nodup) (hv : ∀ o ∈ s.vops, o.gang ∉ gids) :
    ∃ m : SMap Gang, gids.foldl (fun s gid => (s.vaultFinish gid).updGang gid fun g => g.unqueue.settle) s = { s with gangs := m }
      ∧ ∀ j, m.find? j = if j ∈ gids then (s.gangs.find? j).map fun g => g.unqueue.settle else s.gangs.find? j := by
  induction gids generalizing s with
  | nil => exact ⟨s.gangs, rfl, fun j => rfl⟩
  | cons i is ih =>
    obtain ⟨hi, hn⟩ := List.nodup_cons.mp hn
    have h0 : s.vaultFinish i = s := vaultFinish_none fun o ho h => hv o ho (h ▸ List.mem_cons_self ..)
    obtain ⟨m, h1, h2⟩ := ih (s := s.updGang i fun g => g.unqueue.settle) hn
      fun o ho h => hv o ho (List.mem_cons_of_mem _ h)
    refine ⟨m, by rw [List.foldl_cons, h0]; exact h1, fun j => ?_⟩
    rw [h2]
    simp only [State.updGang, SMap.find?_upd, List.mem_cons]
    by_cases hj : j = i
    · subst hj
      simp [hi]
    · simp [hj]

theorem drainScope_drained (h : Drained s) (core scope : Nat) : s.drainScope core scope = s := by
  obtain ⟨h1, h2⟩ := h
  have hw : s.wcb.getD core [] = [] := by rw [h1]; rfl
  have hc : s.cpt.getD (core / 8) [] = [] := by rw [h2]; rfl
  simp only [State.drainScope, hw, hc, show SMap.keys ([] : SMap BufLine) = [] from rfl, List.foldl_nil, ite_self]

theorem checkPa_ok {pa : Nat} (h : s.paOk pa = true) : s.checkPa pa = s := if_pos h

theorem foldl_updGang_frame {α : Type} (k : α → Nat) (f : α → Gang → Gang) (xs : List α) (s : State) :
    ∃ m : SMap Gang, xs.foldl (fun s x => s.updGang (k x) (f x)) s = { s with gangs := m } := by
  induction xs generalizing s with
  | nil => exact ⟨s.gangs, rfl⟩
  | cons x xs ih =>
    obtain ⟨m, h⟩ := ih (s.updGang (k x) (f x))
    exact ⟨m, h⟩

/-- A byte of HBM does not depend on gangs and workgroups. -/
theorem homeByte_of_memory {s t : State} {key a : Nat} (h : t = { s with
    gangs := t.gangs, wgs := t.wgs, faults := t.faults, starters := t.starters, monitors := t.monitors }) :
    t.homeByte (.mem key) a = s.homeByte (.mem key) a := by
  rw [h]
  rfl

/-- The bytes of a workgroup's areas. -/
def Wg.areas (w : Wg) (gs : List (Nat × Gang)) : List Byte :=
  w.areaHead (gangOffsets w gs) ++ gs.flatMap fun e => e.2.areaBytes
/-- A workgroup that has been saved at an address. -/
def Wg.savedAt (w : Wg) (addr : Nat) : Wg :=
  { w with status := .saved, ctxAddr := addr, preempt := false, drainBy := none, heldSlots := [], plan := [], links := [], slots := [] }

/-- The areas of a workgroup are written, and it leaves its partition. -/
theorem saveWg_saves {id addr : Nat} {w : Wg} (hw : s.wgs.find? id = some w) (hd : Drained s) (hn : w.gangs.Nodup)
    (hv : ∀ o ∈ s.vops, o.gang ∉ w.gangs) :
    let body := w.areas ((s.wgGangs w).map fun e => (e.1, e.2.unqueue.settle))
    s.paOk addr = true → s.paOk (addr + body.length - 1) = true →
    (s.saveWg id addr).absentAcc = s.absentAcc ∧ (s.saveWg id addr).vmem = s.vmem
      ∧ (s.saveWg id addr).wgs = s.wgs.upd id (·.savedAt addr)
      ∧ ∀ i, i < body.length → (s.saveWg id addr).homeByte (.mem plainKey) (addr + i) = body.getD i 0 := by
  intro body h1 h2
  obtain ⟨m, hm, hfind⟩ := settle_foldl hn hv
  have hgs : ({ s with gangs := m } : State).wgGangs w = (s.wgGangs w).map fun e => (e.1, e.2.unqueue.settle) := by
    simp only [State.wgGangs, List.map_filterMap]
    refine List.filterMap_congr fun i hi => ?_
    rw [hfind, if_pos hi]
    cases s.gangs.find? i <;> rfl
  have hw1 : ({ s with gangs := m } : State).wgs.find? id = some w := hw
  have hd1 : Drained ({ s with gangs := m } : State) := hd
  have hp1 : ({ s with gangs := m } : State).paOk addr = true := h1
  have hp2 : ({ s with gangs := m } : State).paOk (addr + body.length - 1) = true := h2
  have hst := State.homeWrite_stores ({ s with gangs := m } : State) plainKey (addressed addr body) (State.curGid { s with gangs := m }) 0
  have hbytes := fun i => State.homeWrite_homeByte ({ s with gangs := m } : State) plainKey addr body
    (State.curGid { s with gangs := m }) 0 (i := i)
  have hwg0 : ({ s with gangs := m } : State).wgs = s.wgs := rfl
  have hvm0 : ({ s with gangs := m } : State).vmem = s.vmem := rfl
  have hab0 : ({ s with gangs := m } : State).absentAcc = s.absentAcc := rfl
  generalize ({ s with gangs := m } : State) = s1 at *
  unfold State.saveWg
  extract_lets sa
  have hsa : sa = s1 := by
    unfold sa
    rw [hw]
    exact hm
  clear_value sa
  subst hsa
  split
  · next h => rw [hw1] at h; cases h
  · next w' h =>
    obtain rfl : w = w' := Option.some.inj (hw1.symm.trans h)
    extract_lets gs offs body' s2 s3 s4 s5
    have hbody : body' = body := by rw [show body' = w.areas gs from rfl, show gs = _ from hgs]
    have h2 : s2 = sa := by
      unfold s2
      rw [drainScope_drained hd1, checkPa_ok hp1]
    have h3 : s3 = sa.homeWrite (.mem plainKey) (addressed addr body) sa.curGid 0 := by
      unfold s3
      rw [hbody, h2, checkPa_ok hp2]
    rw [← h3] at hst hbytes
    obtain ⟨m5, h5⟩ : ∃ m5 : SMap Gang, s5 = { s4 with gangs := m5 } := foldl_updGang_frame _ _ _ _
    have h4 : s4 = s3.updWg id (·.savedAt addr) := rfl
    clear_value s5 s4 s3
    subst h4 h5
    have hf := hst.frame
    have habs : s3.absentAcc = s.absentAcc := by rw [hf, ← hab0]
    have hvmem : s3.vmem = s.vmem := by rw [hf, ← hvm0]
    have hwgs : s3.wgs = s.wgs := by rw [hf, ← hwg0]
    refine ⟨habs, hvmem, ?_, fun i hi => (homeByte_of_memory rfl).trans (hbytes i hi)⟩
    rw [← hwgs]
    rfl

/-- A workgroup that is ready is saved (05 R139). -/
theorem contextSave_runs {id addr : Nat} {w : Wg} (hw : s.wgs.find? id = some w) (hst : w.status = .resident)
    (hp : w.preempt = true) (h0 : w.groupSize = 0) (ha : addr % 128 = 0) (hf : s.fwUp 1 = true)
    (hr : s.saveReady (id, w) = true) (hc : ∀ e ∈ s.wgGangs w, e.2.cancel = none) :
    exec (.contextSave id addr) s = finish (s.saveWg id addr) := by
  rw [exec_contextSave, execContextSave]
  simp [unitOf_alone hw h0, hst, hp, ha, hf, saveFirst_foldl hr hc, hr]

end Sys2Proof.Machine
end


section
namespace Sys2Proof.Machine
variable {s : State}

/-! ### What a gang is once it has started -/

/-- The gang of index i of a launch, as it stands. -/
theorem gangAt_fields (L : Launch) (wid i slot : Nat) (b : Bool) (hn : L.lanes ≤ 32) :
    let h := { L.gangAt wid i slot with active := b }
    h.wg = wid ∧ h.idx = i ∧ h.n = L.lanes ∧ h.base = L.base ∧ h.xcount = 0 ∧ h.xlimit = L.ext ∧ h.codemap = L.codemap
      ∧ h.handler = false ∧ (∀ l, l < 32 → h.laneStatus l = if l < L.lanes then 1 else 0)
      ∧ (∀ l, l < L.lanes → h.pcOf l = BitVec.ofNat 57 (L.entry / 16 * 16))
      ∧ (∀ k, h.s k = L.sregs.getD k 0) ∧ (∀ l r, h.v l r = 0) ∧ (∀ l k, h.p l k = (k == 0)) ∧ h.fpstat = 0
      ∧ h.empty = [] ∧ h.poison = [] ∧ h.waits = [] := by
  intro h
  exact ⟨rfl, rfl, rfl, rfl, rfl, rfl, rfl, rfl, fun l _ => laneStatus_of_launch rfl hn l, fun l hl => pcOf_of_launch rfl hl, fun k => rfl,
    fun l r => ite_self _, fun l k => p_of_zero rfl l k, rfl, rfl, rfl, rfl⟩

/-- The gang that a bin starts, as it stands (05 R131). -/
theorem binGang_fields (bin : SpawnBin) (L : Launch) (e : SpawnEntry) (entry wid slot : Nat) (b : Bool)
    (hn : bin.recs.length ≤ 32) :
    let h := { bin.gang L e entry wid slot with active := b }
    h.base = e.base ∧ h.xlimit = e.ext ∧ h.slots = [(0, slot)]
      ∧ (∀ l, l < 32 → h.laneStatus l = if l < bin.recs.length then 1 else 0)
      ∧ (∀ l, l < bin.recs.length → h.pcOf l = BitVec.ofNat 57 (entry / 16 * 16))
      ∧ ∀ l x, bin.recs[l]? = some x → h.v l 0 = x.w0 ∧ h.v l 1 = x.w1 ∧ h.v l 2 = x.w2 ∧ h.v l 3 = x.w3 := by
  intro h
  refine ⟨rfl, rfl, rfl, fun l _ => laneStatus_of_launch rfl hn l, fun l hl => pcOf_of_launch rfl hl, fun l x hx => ?_⟩
  have hl : l < bin.recs.length := (List.getElem?_eq_some_iff.mp hx).1
  have hst : h.laneStatus l = 1 := (laneStatus_of_launch rfl hn l).trans (if_pos hl)
  have hv : ∀ r, h.v l r = (bin.payload bin.recs.length).getD (vkey l r) 0 := by
    intro r
    rw [Gang.v, hst]
    rfl
  simp only [hv]
  exact SpawnBin.payload_getD hx _ hl

/-- Admission: the workgroup stands under the next number, and its gangs have started (01 R14, 17 R342). -/
theorem admission_admits {part pid lid n : Nat} {L : Launch} (hs : s.partStopped part = false)
    (hcl : clusterOf pid ∈ s.partClusters part) (hf : s.fwUp 1 = true)
    (hpick : s.pickWaiting (s.waitOrder part) (none, [], []) = some (lid, n)) (hL : s.launches.find? lid = some L)
    (hc : L.clus < 2) (ha : s.admits pid L.need = true) (hplan : L.slotPlan = 0)
    (hroom : ∀ x, (s.waitOrder part).head? = some x → ∀ M, s.launches.find? x.1 = some M →
      s.fitsSome M = true ∨ s.latOf part M.cls = 0) (habs : s.absentAcc = none) :
    ∃ t, exec (.admission part pid) s = .next t
      ∧ t.wgs = s.wgs.set s.nextWg
        { L.wgAt lid n pid with gangs := (List.range L.gangs).map (s.nextGang + ·), seq := s.admitSeq }
      ∧ t.launches.find? lid = some { L with waiting := L.waiting.del n } ∧ t.mem = s.mem ∧ t.vmem = s.vmem
      ∧ ∀ i, i < L.gangs → ∃ slot b, t.gangs.find? (s.nextGang + i) = some { L.gangAt s.nextWg i slot with active := b } := by
  have hlen := slotsFor_length ha
  obtain ⟨hfr, hwgs, hgangs⟩ := addWg_adds (s.updLaunch lid fun L => { L with waiting := L.waiting.del n }) (L.wgAt lid n pid)
    ((s.slotsFor pid L.gangs).take L.gangs) (L.gangAt s.nextWg)
  have hrun := admission_runs hs hcl hf hpick hL hc ha hroom
  rw [admitWg_adds hL hc hplan] at hrun
  generalize State.addWg _ _ _ _ = t at hfr hwgs hgangs hrun
  have habs' : t.absentAcc = none := by rw [hfr]; exact habs
  have hlaunch : t.launches = s.launches.upd lid fun L => { L with waiting := L.waiting.del n } := by rw [hfr]; rfl
  have hmem : t.mem = s.mem := by rw [hfr]; rfl
  have hvmem : t.vmem = s.vmem := by rw [hfr]; rfl
  rw [hlen] at hwgs hgangs
  refine ⟨_, hrun.trans (finish_next habs'), hwgs, ?_, hmem, hvmem, fun i hi => ⟨_, hgangs i hi⟩⟩
  show t.launches.find? lid = _
  rw [hlaunch, SMap.find?_upd_self, hL]
  rfl

/-- Restore: the workgroup is resident at its new place, and each of its gangs is what its saved area holds
(01 R14, 17 R347). -/
theorem contextRestore_restores {id pid : Nat} {w : Wg} (hw : s.wgs.find? id = some w) (hst : w.status = .saved)
    (h0 : w.groupSize = 0) (hm : w.migrate = none) (hd : w.dying = false)
    (hcl : clusterOf pid ∈ s.partClusters (s.tenantPart w.tenant)) (hs : s.partStopped (s.tenantPart w.tenant) = false)
    (hf : s.fwUp 1 = true) (habs : s.absentAcc = none) (hmeets : s.meets pid (s.savedNeed w) = true)
    (hok : s.wgAreaOk w.ctxAddr = true)
    (hgok : ∀ e ∈ s.wgGangs w, s.gangAreaOk (w.ctxAddr + s.areaNat (w.ctxAddr + 0x200 + 8 * e.2.idx) 8) = true)
    (hn : w.gangs.Nodup) :
    ∃ t v, exec (.contextRestore id pid) s = .next t ∧ t.wgs.find? id = some v ∧ v.status = .resident ∧ v.pid = pid
      ∧ v.slice = 0 ∧ v.gangs = w.gangs
      ∧ (∀ r, r < 32 → v.gr.getD r 0 = BitVec.ofNat 64 (s.areaNat (w.ctxAddr + 0x100 + 8 * r) 8))
      ∧ (∀ i, i < w.scrLen →
          v.scr.getD i 0 = s.memByteAs 0 (w.ctxAddr + 0x400 + roundUp (2 * (w.tileW * w.tileH)) 128 + i))
      ∧ (∀ e ∈ s.wgGangs w, ∃ order slots b, t.gangs.find? e.1 = some { s.gangOfArea
          (w.ctxAddr + s.areaNat (w.ctxAddr + 0x200 + 8 * e.2.idx) 8) order e.2 with slots := slots, active := b })
      ∧ t.mem = s.mem ∧ t.vmem = s.vmem := by
  obtain ⟨x, hx, h1, h2, h3, ⟨v, hv, hrest⟩, h4⟩ := restoreWg_rebuilds (pid := pid) hw hok hgok hn
  obtain ⟨v1, v2, v3, v4, v5, v6⟩ := hrest
  obtain ⟨hfr, hact⟩ := fillActive_only x pid 8
  have hrun := contextRestore_runs hw hst h0 hm hd hcl hs hf hmeets
  rw [hx] at hrun
  generalize x.fillActive pid 8 = t at hfr hact hrun
  have habs' : t.absentAcc = x.absentAcc := by rw [hfr]
  have hwgs : t.wgs = x.wgs := by rw [hfr]
  have hmem : t.mem = x.mem := by rw [hfr]
  have hvmem : t.vmem = x.vmem := by rw [hfr]
  refine ⟨t, v, hrun.trans (finish_next (habs'.trans (h1.trans habs))), hwgs ▸ hv, v1, v2, v3, v4, v5, v6,
    fun e he => ?_, hmem.trans h2, hvmem.trans h3⟩
  obtain ⟨order, slots, hg⟩ := h4 e he
  refine ⟨order, slots, ?_⟩
  generalize s.gangOfArea _ order e.2 = g at hg ⊢
  exact hact _ _ hg

/-- The launch of a bin: its workgroup stands under the next number, with one gang (05 R130, R131). -/
theorem binLaunch_launches {pid b slot : Nat} {rest slots : List Nat} {bin : SpawnBin} {r : SpawnRec} {rs : List SpawnRec}
    {L : Launch} {e : SpawnEntry} (hb : (s.cpart pid).readyOrder = b :: rest) (hbin : (s.cpart pid).bins.find? b = some bin)
    (hr : bin.recs = r :: rs) (hslot : s.freeSlots pid 16 = slot :: slots) (hL : s.launches.find? r.launch = some L)
    (hs : s.partStopped L.part = false) (he : L.spawns.find? (fun x => x.addr = r.entry) = some e)
    (hroom : e.base + s.poolUsed pid ≤ 1024) (hring : s.ringCount pid = 0) (habs : s.absentAcc = none) :
    ∃ t n act, exec (.binLaunch pid) s = .next t
      ∧ t.cpart pid = { s.cpart pid with bins := (s.cpart pid).bins.del b, readyOrder := rest }
      ∧ t.wgs = s.wgs.set s.nextWg
        { wgZero r.launch n pid L.tenant r.cls with binGang := true, gangs := [s.nextGang], seq := s.admitSeq }
      ∧ t.gangs.find? s.nextGang = some { bin.gang L e r.entry s.nextWg slot with active := act }
      ∧ t.launches.find? r.launch = some { L with graphLive := L.graphLive + 1 } ∧ t.mem = s.mem := by
  have hrun := binLaunch_runs hb hbin hr hslot hL hs he hroom hring
  obtain ⟨hfr, hwgs, hgangs⟩ := addWg_adds (s.takeFree.2.setCpart pid
    { s.cpart pid with bins := (s.cpart pid).bins.del b, readyOrder := rest })
    { wgZero r.launch (Config.freeNat s.freeCtr % 2 ^ 32) pid L.tenant r.cls with binGang := true } [slot]
    fun _ slot => bin.gang L e r.entry s.nextWg slot
  dsimp only at hrun
  generalize State.addWg _ _ _ _ = t at hfr hwgs hgangs hrun
  have habs' : t.absentAcc = none := by rw [hfr]; exact habs
  have hlaunch : t.launches = s.launches := by rw [hfr]; rfl
  have hmem : t.mem = s.mem := by rw [hfr]; rfl
  have hcp : t.cpart pid = { s.cpart pid with bins := (s.cpart pid).bins.del b, readyOrder := rest } := by
    rw [hfr]
    exact (State.setCpart_cpart ..).trans (if_pos rfl)
  obtain ⟨act, hg⟩ := hgangs 0 Nat.one_pos
  refine ⟨_, _, act, hrun.trans (finish_next habs'), hcp, hwgs, hg, ?_, hmem⟩
  show (t.launches.upd r.launch _).find? r.launch = _
  rw [hlaunch, SMap.find?_upd_self, hL]
  rfl

/-- Settles O48: each event, where it is due, has run to a state whose parts the lemmas above name. -/
theorem schedulingEvents : Obligations.SchedulingEvents := by
  unfold Obligations.SchedulingEvents
  refine ⟨?admission, ?slice, ?drain, ?save, ?restore, ?timer, ?launch, ?wave⟩
  case admission =>
    intro s part pid lid n L hs hcl hf hpick hL hc ha hplan hlanes hroom habs
    obtain ⟨t, hrun, hwgs, hlaunch, hmem, hvmem, hgangs⟩ := admission_admits hs hcl hf hpick hL hc ha hplan hroom habs
    refine ⟨t, _, hrun, by rw [hwgs, SMap.find?_set_self], rfl, rfl, rfl, rfl, rfl, rfl, rfl, rfl, rfl, rfl, rfl, rfl, hlaunch,
      fun j hj => by rw [hwgs, SMap.find?_set_ne _ _ hj], hmem, hvmem, fun i hi => ?_⟩
    obtain ⟨slot, b, hg⟩ := hgangs i hi
    exact ⟨_, hg, gangAt_fields L s.nextWg i slot b hlanes⟩
  case slice =>
    intro s id w x L hw hst hl h0 hf slice part hne hle hx hL lat
    refine ⟨_, timeSliceEnd_runs hw hst hl hf hne hle hx hL, ?_⟩
    rw [preemptUnit_alone hw h0]
    split
    · next hm =>
      rw [hm]
      exact ⟨(SMap.find?_upd_self ..).trans (congrArg _ hw), rfl⟩
    · next hm =>
      rw [hm]
      intro hc h1 h2 M hM h3 h4
      dsimp only
      rw [cancelFirst_foldl hc]
      exact flushWg_waits hw h1 h2 hM h3 h4
    · next hm =>
      rw [hm]
      exact ⟨(SMap.find?_upd_self ..).trans (congrArg _ hw), rfl⟩
  case drain =>
    intro s id d w hw h0 hd hle hf
    exact ⟨_, drainTimeout_runs hw h0 hd hle hf, rfl, fun j => by simp only [State.updWg, SMap.find?_upd, hw]; rfl⟩
  case save =>
    intro s id addr w hw hst hp h0 ha hf hr hd habs hn hc hv gs body hp1 hp2
    obtain ⟨h1, h2, h3, h4⟩ := saveWg_saves hw hd hn hv hp1 hp2
    refine ⟨_, (contextSave_runs hw hst hp h0 ha hf hr hc).trans (finish_next (h1.trans habs)), ?_, h4, fun j hj => ?_, h2⟩
    · rw [h3, SMap.find?_upd_self, hw]
      rfl
    · rw [h3, SMap.find?_upd, if_neg hj]
  case restore =>
    intro s id pid w hw hst h0 hm hd part gs a off hcl hs hf habs hmeets hok hgok hn
    obtain ⟨t, v, hrun, hv, v1, v2, v3, v4, v5, v6, hgangs, h2, h3⟩ :=
      contextRestore_restores hw hst h0 hm hd hcl hs hf habs hmeets hok hgok hn
    refine ⟨t, v, hrun, hv, v1, v2, v3, v4, v5, v6, fun e he => ?_, h2, h3⟩
    obtain ⟨order, slots, b, hg⟩ := hgangs e he
    exact ⟨_, hg, gangOfArea_fields (off e.2) order e.2 slots b⟩
  case timer =>
    intro s pid bin b hb hf ht
    refine ⟨_, binTimerExpire_runs hb hf ht, rfl, fun j hj => ?_, ?_⟩
    · simp [State.setCpart, SMap.find?_set, hj]
    · rw [State.setCpart_cpart, if_pos rfl]
  case launch =>
    intro s pid b slot rest slots bin r rs L e hb hbin hr hlen hslot hL hs he hroom hring habs
    obtain ⟨t, n, act, hrun, hcp, hwgs, hg, hlaunch, hmem⟩ := binLaunch_launches hb hbin hr hslot hL hs he hroom hring habs
    obtain ⟨f1, f2, f3, f4, f5, f6⟩ := binGang_fields bin L e r.entry s.nextWg slot act hlen
    refine ⟨t, _, _, hrun, ?_, by rw [hcp], by rw [hwgs, SMap.find?_set_self], rfl, rfl, rfl, rfl, rfl, rfl, hg, f1, f2, f3, f4,
      f5, f6, hlaunch, hmem⟩
    rw [hcp]
    exact (SMap.find?_del ..).trans (if_pos rfl)
  case wave =>
    intro s cl hq hn hw ha q n
    have hrun := starterWave_runs hq hn hw ha
    obtain ⟨h1, h2⟩ := startGangs (s := { s with starters := s.starters.set cl (s.waved cl) }) (q.take n)
    refine ⟨_, hrun, ?_, ?_, h2⟩
    · rw [h1]
    · rw [h1]
      exact (SMap.getD_set ..).trans (if_pos rfl)

end Sys2Proof.Machine
end

/-! PROOFS. O24: SWRITE (04 R108, 05 R137). -/

section
namespace Sys2Proof.Machine

/-! ### SWRITE -/

/-- What SWRITE uses of its gang (04 R108). -/
def swriteUse (w : CtrlW) (g : Gang) : WordUse :=
  { ctrlUseOf w with
    srcs := if w.vx = 1 then [{ reg := w.va.toNat, trap := w.ea = 1, perm := w.pma }] else []
    ssrcs := if w.vx = 1 then [] else [w.sa.toNat]
    priv := srPriv g (w.imm.toNat % 256) }

/-- The value that SWRITE writes, from the gang as its sources are read. -/
def swriteVal (w : CtrlW) (c : Ctx) : W64 :=
  if w.vx = 1 then (c.r.v (permSrc w.pma (lowLane c.act)) w.va.toNat).setWidth 64 else c.r.s w.sa.toNat

theorem execSwrite_of_cur {s : State} {cu : Cur} {g : Gang} (w : CtrlW) (hcur : s.cur = some cu)
    (hg : s.gangs.find? cu.gang = some g) :
    execSwrite w s = coreWord (.swrite w) (swriteUse w g) (fpstatWait (w.imm.toNat % 256))
      (onGang fun c g => g.writeSpecial (w.imm.toNat % 256) (swriteVal w c)) s := by
  simp only [execSwrite, State.curGang?, hcur, hg]
  rfl

/-- Access to FPSTAT waits for nothing where no producer and no wait is outstanding (02 R39). -/
theorem fpstatWait_ok {s : State} {c : Ctx} {g : Gang} (n : Nat) (hg : s.gangs.find? c.gid = some g) (hp : g.prods = [])
    (hw : g.waits = []) : fpstatWait n c s = .ok := by
  simp [fpstatWait, hg, Gang.resultsDone, hp, hw]

theorem swriteUse_fits {w : CtrlW} {g : Gang} (h : srPriv g (w.imm.toNat % 256) = none) : Fits (swriteUse w g) where
  priv := h
  srcs := by
    intro v hv
    have := w.va.isLt
    simp only [swriteUse] at hv
    split at hv
    · rw [List.mem_singleton.mp hv]
      dsimp only
      omega
    · cases hv
  dsts := nofun
  evens := nofun
  quads := nofun
  aligned := nofun

theorem srPriv_eq_none {g : Gang} {n : Nat} (h : n = 0x20 ∨ n = 0x30 ∨ (g.handler = true ∧ (n = 0x21 ∨ n = 0x22 ∨ n = 0x23))) :
    srPriv g n = none := by
  rw [srPriv, if_pos (by simpa [or_assoc] using h)]

theorem srPriv_eq_some {g : Gang} {n : Nat} (h : ¬(n = 0x20 ∨ n = 0x30)) (hh : g.handler = false) :
    srPriv g n = some (BitVec.ofNat 64 n) := by
  simpa [srPriv, hh] using h

/-- A write of a special register changes the five writable registers, each only under its own number. -/
theorem writeSpecial_eq (g : Gang) (n : Nat) (x : W64) :
    g.writeSpecial n x = { g with
      trapbase := if n = 0x20 then x &&& 0x01FFFFFFFFFFFFF1 else g.trapbase
      trapcause := if n = 0x21 then x &&& 0x1FFF else g.trapcause
      trappc := if n = 0x22 then x &&& 0x01FFFFFFFFFFFFF0 else g.trappc
      trapaddr := if n = 0x23 then x &&& 0xFFFFFFFFFFFFFFFF else g.trapaddr
      fpstat := if n = 0x30 then x &&& 0x1011F else g.fpstat } := by
  unfold Gang.writeSpecial srMask
  dsimp only
  split <;> simp_all

/-- A privileged core word whose register the gang may not write raises PRIV (03 R72, 05 R137). -/
theorem coreWord_priv {s : State} {cu : Cur} {g : Gang} {wg : Wg} {i : Instr} {u : WordUse} {chk : Ctx → State → Check}
    {body : Ctx → State → State} {a : W64} (hc : Calm s cu g wg) (hh : HasHandler g) (hx : i.staticCheck = none)
    (ha : u.absent = false) (hf : u.first = .ok) (hd : u.decl = none) (hs : u.syncBad = false) (hp : u.priv = some a) :
    ∃ t, coreWord i u chk body s = .next t ∧ Trapped s t cu g u.collective 0x11 (cu.pc.setWidth 64) a := by
  obtain ⟨t, ht, h⟩ := faultWord_trapped (u := u) (c := ctxC cu g wg u) Cause.priv a hc.gang hh hc.ord hc.mem ⟨rfl, rfl, rfl⟩
  refine ⟨t, ?_, h⟩
  rw [← ht]
  have e1 : ((s.cur.map (·.ext)).getD none) = none := by simp [hc.cur, hc.ext]
  have e2 : wordChecks i u none (ctxC cu g wg u).pfx.isSome (ctxC cu g wg u).pc = .trap Cause.priv a := by
    simp [wordChecks, ha, hx, hd, hs, hp]
  unfold coreWord
  rw [hc.ctxOf u]
  dsimp only
  rw [e1, hf, show ∀ k, Check.next .ok k = k from fun _ => rfl, e2]
  rfl

/-- Settles O24: a word that may write its register passes and writes the writable bits; any other fails with PRIV. -/
theorem specialWrites : Obligations.SpecialWrites := by
  unfold Obligations.SpecialWrites
  intro s cu g wg w hc hwf hwaits act n x put
  rw [exec_swrite, execSwrite_of_cur w hc.cur hc.gang]
  have hs := staticCheck_of_wf hwf
  refine ⟨fun hn => ?_, fun hn hh => coreWord_priv hc hh hs rfl rfl rfl rfl (srPriv_eq_some hn hh.1)⟩
  obtain ⟨t, ht, ho, hg⟩ := onGang_calm hc hs (swriteUse_fits (srPriv_eq_none hn))
    (F := fun c g => g.writeSpecial n (swriteVal w c)) (chk := fpstatWait n) (fpstatWait_ok n hc.gang hc.prods hwaits)
  have hact : (ctxC cu g wg (swriteUse w g)).act = act := actOf_eq (gd := w.g) rfl
  have hx : swriteVal w (ctxC cu g wg (swriteUse w g)) = x := by
    simp only [swriteVal, hact]
    rfl
  have hpcs := PcsMoved.passed (cu := cu) (g := g) (w := wg) (u := swriteUse w g) s.cycle 1 rfl
  obtain ⟨p, a, sc, ic, li, uo, sl, e, eu⟩ := passed_keep (c := ctxC cu g wg (swriteUse w g)) (u := swriteUse w g) s.cycle hc.ord
  obtain ⟨rfl, rfl⟩ := eu rfl
  rw [e] at hg hpcs
  rw [hact, hx, writeSpecial_eq] at hg
  by_cases h0 : act = 0
  · rw [if_pos h0] at hg
    refine ⟨t, _, ht, hg, ho, hpcs, ?_⟩
    simp [put, h0]
  · rw [if_neg h0] at hg
    refine ⟨t, _, ht, hg, ho, hpcs, ?_⟩
    simp only [put, ne_eq, h0, not_false_eq_true, and_true]

end Sys2Proof.Machine
end

/-! PROOFS. O4, O7, O17: floating-point values (02 R24 to R37). The magnitudes of a format rise with their images; its
units are those of the smallest positive value. -/

section
namespace Sys2Proof

/-! ### The magnitudes of a format -/

/-- The magnitude of an image without its sign bit, in units of the smallest positive value (02 R24). Images rise with their
magnitudes. -/
def codeMag (mb c : ℕ) : ℕ := if c < 2 ^ mb then c else (2 ^ mb + c % 2 ^ mb) * 2 ^ (c / 2 ^ mb - 1)

theorem codeMag_of_lt {mb c : ℕ} (h : c < 2 ^ mb) : codeMag mb c = c := if_pos h

/-- A normal image: exponent field k + 1, fraction j. -/
theorem codeMag_normal {mb j : ℕ} (k : ℕ) (hj : j < 2 ^ mb) : codeMag mb ((k + 1) * 2 ^ mb + j) = (2 ^ mb + j) * 2 ^ k := by
  have hP : 0 < 2 ^ mb := Nat.two_pow_pos mb
  have hdiv : ((k + 1) * 2 ^ mb + j) / 2 ^ mb = k + 1 := by
    rw [mul_comm, Nat.mul_add_div hP, Nat.div_eq_of_lt hj]
  have hmod : ((k + 1) * 2 ^ mb + j) % 2 ^ mb = j := by
    rw [mul_comm, Nat.mul_add_mod, Nat.mod_eq_of_lt hj]
  have hge : ¬(k + 1) * 2 ^ mb + j < 2 ^ mb := by nlinarith
  rw [codeMag, if_neg hge, hdiv, hmod, Nat.add_sub_cancel]

/-- Every image that is not subnormal is a normal one. -/
theorem exists_normal {mb c : ℕ} (h : 2 ^ mb ≤ c) : ∃ k j, j < 2 ^ mb ∧ c = (k + 1) * 2 ^ mb + j := by
  have hP : 0 < 2 ^ mb := Nat.two_pow_pos mb
  obtain ⟨k, hk⟩ := Nat.exists_eq_add_of_lt (Nat.div_pos h hP)
  refine ⟨k, c % 2 ^ mb, Nat.mod_lt _ hP, ?_⟩
  have := Nat.div_add_mod c (2 ^ mb)
  rw [hk, zero_add, mul_comm] at this
  exact this.symm

theorem codeMag_lt_succ (mb c : ℕ) : codeMag mb c < codeMag mb (c + 1) := by
  have hP : 0 < 2 ^ mb := Nat.two_pow_pos mb
  obtain h | h := lt_or_ge c (2 ^ mb)
  · rw [codeMag_of_lt h]
    obtain h1 | h1 := lt_or_ge (c + 1) (2 ^ mb)
    · rw [codeMag_of_lt h1]
      omega
    · have he : c + 1 = (0 + 1) * 2 ^ mb + 0 := by omega
      rw [he, codeMag_normal 0 hP]
      omega
  · obtain ⟨k, j, hj, rfl⟩ := exists_normal h
    rw [codeMag_normal k hj]
    obtain h1 | h1 := lt_or_ge (j + 1) (2 ^ mb)
    · rw [add_assoc, codeMag_normal k h1]
      exact Nat.mul_lt_mul_of_pos_right (by omega) (Nat.two_pow_pos k)
    · have he : (k + 1) * 2 ^ mb + j + 1 = (k + 1 + 1) * 2 ^ mb + 0 := by
        have : j + 1 = 2 ^ mb := by omega
        rw [add_assoc, this]; ring
      rw [he, codeMag_normal (k + 1) hP, pow_succ, add_zero]
      calc (2 ^ mb + j) * 2 ^ k < (2 ^ mb * 2) * 2 ^ k := Nat.mul_lt_mul_of_pos_right (by omega) (Nat.two_pow_pos k)
        _ = 2 ^ mb * (2 ^ k * 2) := by ring

theorem codeMag_strictMono (mb : ℕ) : StrictMono (codeMag mb) := strictMono_nat_of_lt_succ (codeMag_lt_succ mb)

@[simp] theorem codeMag_zero (mb : ℕ) : codeMag mb 0 = 0 := codeMag_of_lt (Nat.two_pow_pos mb)

/-- The image that holds r units of 2^p times the smallest positive value. -/
def roundCode (mb p r : ℕ) : ℕ := if r < 2 ^ mb then r else (p + 1) * 2 ^ mb + (r - 2 ^ mb)

theorem codeMag_roundCode {mb p r : ℕ} (hp : r < 2 ^ mb → p = 0) (hr : r ≤ 2 * 2 ^ mb) :
    codeMag mb (roundCode mb p r) = r * 2 ^ p := by
  unfold roundCode
  split
  · next h => rw [codeMag_of_lt h, hp h, pow_zero, mul_one]
  · next h =>
    obtain h1 | h1 := hr.lt_or_eq
    · rw [codeMag_normal p (by omega), Nat.add_sub_cancel' (not_lt.mp h)]
    · have he : (p + 1) * 2 ^ mb + (r - 2 ^ mb) = (p + 1 + 1) * 2 ^ mb + 0 := by
        have : r - 2 ^ mb = 2 ^ mb := by omega
        rw [this]; ring
      rw [he, codeMag_normal (p + 1) (Nat.two_pow_pos mb), h1, pow_succ]
      ring

theorem roundCode_succ {mb p r : ℕ} (hp : r < 2 ^ mb → p = 0) : roundCode mb p (r + 1) = roundCode mb p r + 1 := by
  unfold roundCode
  by_cases h : r < 2 ^ mb
  · rw [if_pos h, hp h]
    split <;> omega
  · rw [if_neg h, if_neg (by omega)]
    omega

/-- An image is even where its units are. -/
theorem roundCode_mod_two {mb p r : ℕ} (hmb : 0 < mb) : roundCode mb p r % 2 = r % 2 := by
  obtain ⟨n, rfl⟩ := Nat.exists_eq_succ_of_ne_zero hmb.ne'
  unfold roundCode
  split
  · rfl
  · next h =>
    rw [pow_succ] at h ⊢
    have : (p + 1) * (2 ^ n * 2) = 2 * ((p + 1) * 2 ^ n) := by ring
    omega

/-! ### Formats with infinities -/

/-- The formats of 02 Table 10 with infinities and a bias in the middle of the exponents. -/
structure FFmt.Ieee (f : FFmt) : Prop where
  mb_pos : 0 < f.mb
  bias_pos : 0 < f.bias
  exps : 2 ^ f.eb = 2 * f.bias + 2
  inf : f.inf = true

theorem fmtFp32_ieee : fmtFp32.Ieee := ⟨by decide, by decide, by decide, rfl⟩
theorem fmtFp16_ieee : fmtFp16.Ieee := ⟨by decide, by decide, by decide, rfl⟩
theorem fmtBf16_ieee : fmtBf16.Ieee := ⟨by decide, by decide, by decide, rfl⟩

/-- The exponent of the smallest positive value. -/
def FFmt.qmin (f : FFmt) : ℤ := 1 - (f.bias : ℤ) - f.mb

/-- The magnitude of an image without its sign bit. -/
def FFmt.mag (f : FFmt) (c : ℕ) : ℚ := codeMag f.mb c * (2 : ℚ) ^ f.qmin

theorem FFmt.mag_strictMono (f : FFmt) : StrictMono f.mag := fun _ _ h =>
  mul_lt_mul_of_pos_right (Nat.cast_lt.mpr (codeMag_strictMono f.mb h)) (by positivity)

@[simp] theorem FFmt.mag_zero (f : FFmt) : f.mag 0 = 0 := by simp [FFmt.mag]

theorem FFmt.mag_nonneg (f : FFmt) (c : ℕ) : 0 ≤ f.mag c := by
  unfold FFmt.mag
  positivity

/-- The magnitude of the largest finite image, and of the one after it. -/
theorem FFmt.Ieee.mag_infCode {f : FFmt} (h : f.Ieee) : f.mag f.infCode = (2 : ℚ) ^ ((f.bias : ℤ) + 1) := by
  have hc : f.infCode = (2 * f.bias + 1) * 2 ^ f.mb + 0 := by
    rw [FFmt.infCode, h.exps]; rfl
  rw [FFmt.mag, hc, codeMag_normal _ (Nat.two_pow_pos _), FFmt.qmin]
  push_cast
  rw [add_zero, ← zpow_natCast, ← zpow_natCast, ← zpow_add₀ two_ne_zero, ← zpow_add₀ two_ne_zero]
  congr 1
  push_cast
  ring

theorem FFmt.Ieee.infCode_pos {f : FFmt} (h : f.Ieee) : 0 < f.infCode := by
  rw [FFmt.infCode, h.exps]
  exact Nat.mul_pos (by omega) (Nat.two_pow_pos _)

theorem FFmt.Ieee.maxCode_succ {f : FFmt} (h : f.Ieee) : f.maxCode + 1 = f.infCode := by
  rw [FFmt.maxCode, if_pos h.inf]
  have := h.infCode_pos
  omega

theorem FFmt.Ieee.infCode_even {f : FFmt} (h : f.Ieee) : f.infCode % 2 = 0 := by
  obtain ⟨n, hn⟩ := Nat.exists_eq_succ_of_ne_zero h.mb_pos.ne'
  rw [FFmt.infCode, hn, pow_succ, ← mul_assoc, Nat.mul_mod_left]

theorem FFmt.Ieee.infCode_lt {f : FFmt} (h : f.Ieee) : f.infCode < 2 ^ (f.eb + f.mb) := by
  rw [FFmt.infCode, pow_add]
  exact Nat.mul_lt_mul_of_pos_right (by have := h.exps; omega) (Nat.two_pow_pos _)

theorem FFmt.Ieee.mag_maxCode {f : FFmt} (h : f.Ieee) :
    f.mag f.maxCode = (2 : ℚ) ^ ((f.bias : ℤ) + 1) - (2 : ℚ) ^ ((f.bias : ℤ) - f.mb) := by
  obtain ⟨b, hb⟩ : ∃ b, f.bias = b + 1 := ⟨f.bias - 1, by have := h.bias_pos; omega⟩
  have hP := Nat.two_pow_pos f.mb
  have hc : f.maxCode = (2 * b + 1 + 1) * 2 ^ f.mb + (2 ^ f.mb - 1) := by
    have hi : f.infCode = (2 * b + 1 + 1) * 2 ^ f.mb + 2 ^ f.mb := by
      rw [FFmt.infCode, h.exps, hb, show 2 * (b + 1) + 2 - 1 = 2 * b + 3 by omega]
      ring
    have := h.maxCode_succ
    omega
  have hm : codeMag f.mb f.maxCode = (2 * 2 ^ f.mb - 1) * 2 ^ (2 * b + 1) := by
    rw [hc, codeMag_normal _ (by omega), show 2 ^ f.mb + (2 ^ f.mb - 1) = 2 * 2 ^ f.mb - 1 by omega]
  have hz : (2 : ℚ) ^ (2 * b + 1) * (2 : ℚ) ^ (1 - ((b : ℤ) + 1) - f.mb) = (2 : ℚ) ^ ((b : ℤ) + 1 - f.mb) := by
    rw [← zpow_natCast, ← zpow_add₀ two_ne_zero]
    congr 1
    push_cast
    ring
  have hz1 : (2 : ℚ) ^ ((b : ℤ) + 1 + 1) = 2 * 2 ^ f.mb * (2 : ℚ) ^ ((b : ℤ) + 1 - f.mb) := by
    rw [← zpow_natCast, ← zpow_one_add₀ two_ne_zero, ← zpow_add₀ two_ne_zero]
    congr 1
    ring
  rw [FFmt.mag, hm, FFmt.qmin, hb]
  push_cast [Nat.cast_sub (show 1 ≤ 2 * 2 ^ f.mb by omega)]
  rw [mul_assoc, hz, hz1]
  ring

end Sys2Proof
end

/-! PROOFS. O4, O7, O17: what rounding to units gives, and the image around an exact magnitude that a mode takes (02 R34). -/

section
namespace Sys2Proof

/-! ### Rounding an exact magnitude to units -/

/-- An exact magnitude a as the rounding takes it: m × 2^e, or with the sticky bit one strictly between it and
(m + 1) × 2^e. -/
structure Exactly (m : ℕ) (e : ℤ) (st : Bool) (a : ℝ) : Prop where
  lo : (m : ℝ) * (2 : ℝ) ^ e ≤ a
  hi : a < ((m : ℝ) + 1) * (2 : ℝ) ^ e
  sticky : st = true ↔ (m : ℝ) * (2 : ℝ) ^ e ≠ a

theorem Exactly.of_eq (m : ℕ) (e : ℤ) : Exactly m e false ((m : ℝ) * (2 : ℝ) ^ e) :=
  ⟨le_rfl, mul_lt_mul_of_pos_right (lt_add_one _) (by positivity), by simp⟩

/-- The modes of 02 Table 14 that draw no number. -/
def Rnd.plain : Rnd → Prop
  | .rs _ => False
  | _ => True

/-- A mode takes a magnitude, of a sign, that lies the fraction x of a step above the k-th value, up to the next one
(02 R34). -/
def Rnd.up (rnd : Rnd) (s : Bool) (k : ℕ) (x : ℝ) : Prop :=
  match rnd with
  | .rne => 1 / 2 < x ∨ x = 1 / 2 ∧ k % 2 = 1
  | .rz => False
  | .rp => s = false ∧ x ≠ 0
  | .rm => s = true ∧ x ≠ 0
  | .rs _ => False

/-- Values stay. -/
theorem Rnd.not_up_zero (rnd : Rnd) (s : Bool) (k : ℕ) : ¬rnd.up s k 0 := by
  cases rnd <;> simp [Rnd.up]

/-- What `quantize` gives: the floor k or k + 1 as the mode takes it, and whether there is a rest. -/
structure Quantized (rnd : Rnd) (s : Bool) (t : ℝ) (r : ℕ × Bool) : Prop where
  up : rnd.up s ⌊t⌋₊ (t - ⌊t⌋₊) → r.1 = ⌊t⌋₊ + 1
  down : ¬rnd.up s ⌊t⌋₊ (t - ⌊t⌋₊) → r.1 = ⌊t⌋₊
  inexact : r.2 = true ↔ t ≠ ⌊t⌋₊

theorem natCast_lt_add_fract {x y : ℕ} {θ : ℝ} (h0 : 0 ≤ θ) (h1 : θ < 1) : (x : ℝ) < y + θ ↔ x < y ∨ y = x ∧ θ ≠ 0 := by
  obtain h | rfl | h := lt_trichotomy x y
  · have : (x : ℝ) + 1 ≤ y := by exact_mod_cast h
    exact iff_of_true (by linarith) (.inl h)
  · simpa using h0.lt_iff_ne'
  · have : (y : ℝ) + 1 ≤ x := by exact_mod_cast h
    exact iff_of_false (by linarith) (by omega)

theorem add_fract_eq_natCast {x y : ℕ} {θ : ℝ} (h0 : 0 ≤ θ) (h1 : θ < 1) : (y : ℝ) + θ = x ↔ y = x ∧ θ = 0 := by
  refine ⟨fun h => ?_, fun ⟨h, hθ⟩ => by rw [h, hθ, add_zero]⟩
  obtain rfl : y = x := by
    have h2 : (y : ℝ) ≤ x := by linarith
    have h3 : (x : ℝ) < (y + 1 : ℕ) := by push_cast; linarith
    have := Nat.cast_le.mp h2
    have := Nat.cast_lt.mp h3
    omega
  exact ⟨rfl, by linarith⟩

theorem quantize_spec {rnd : Rnd} {s : Bool} {m : ℕ} {e q : ℤ} {st : Bool} {a : ℝ} (hr : rnd.plain) (h : Exactly m e st a)
    (hq : st = true → e < q) : Quantized rnd s (a / (2 : ℝ) ^ q) (quantize rnd s m e st q) := by
  unfold quantize
  split
  · next hle =>
    have hst : st = false := by
      cases st
      · rfl
      · exact absurd (hq rfl) (not_lt.mpr hle)
    subst hst
    have ha : a / (2 : ℝ) ^ q = ((m * 2 ^ (e - q).toNat : ℕ) : ℝ) := by
      have hz : (2 : ℝ) ^ (e - q).toNat = (2 : ℝ) ^ e / (2 : ℝ) ^ q := by
        rw [← zpow_natCast, Int.toNat_of_nonneg (by omega), zpow_sub₀ two_ne_zero]
      have he : (m : ℝ) * (2 : ℝ) ^ e = a := by simpa using h.sticky
      push_cast
      rw [hz, ← he, mul_div_assoc]
    rw [ha]
    refine ⟨fun hu => absurd hu ?_, fun _ => ?_, ?_⟩ <;> rw [Nat.floor_natCast]
    · rw [sub_self]
      exact Rnd.not_up_zero _ _ _
    · simp
  · next hgt =>
    obtain ⟨n, hn⟩ : ∃ n : ℕ, (q - e).toNat = n + 1 := ⟨(q - e).toNat - 1, by omega⟩
    have hz : (2 : ℝ) ^ q = (2 : ℝ) ^ e * 2 ^ (n + 1) := by
      rw [← zpow_natCast, ← zpow_add₀ two_ne_zero]
      congr 1
      omega
    extract_lets sh r rem half inexact up
    have hm : r * 2 ^ (n + 1) + rem = m := by
      show m / 2 ^ sh * 2 ^ (n + 1) + m % 2 ^ sh = m
      rw [show sh = n + 1 from hn]
      exact Nat.div_add_mod' m _
    have hrem : rem < 2 ^ (n + 1) := by
      show m % 2 ^ sh < _
      rw [show sh = n + 1 from hn]
      exact Nat.mod_lt _ (Nat.two_pow_pos _)
    have hhalf : half = 2 ^ n := by
      show 2 ^ (sh - 1) = _
      rw [show sh = n + 1 from hn, Nat.add_sub_cancel]
    obtain ⟨θ, hθ⟩ : ∃ θ : ℝ, a = (m + θ) * (2 : ℝ) ^ e := ⟨a / 2 ^ e - m, by field_simp; ring⟩
    have he : (0 : ℝ) < (2 : ℝ) ^ e := by positivity
    have h0 : 0 ≤ θ := by
      have := h.lo
      rw [hθ, mul_le_mul_iff_left₀ he] at this
      linarith
    have h1 : θ < 1 := by
      have := h.hi
      rw [hθ, mul_lt_mul_iff_left₀ he] at this
      linarith
    have hst : st = true ↔ θ ≠ 0 := by
      rw [h.sticky, hθ, ne_eq, mul_left_inj' he.ne']
      simp
    have ht : a / (2 : ℝ) ^ q = r + (rem + θ) / 2 ^ (n + 1) := by
      rw [hθ, hz, ← hm]
      push_cast
      field_simp
      ring
    have hρ0 : 0 ≤ ((rem : ℝ) + θ) / 2 ^ (n + 1) := by positivity
    have hρ1 : ((rem : ℝ) + θ) / 2 ^ (n + 1) < 1 := by
      rw [div_lt_one (by positivity)]
      have : (rem : ℝ) + 1 ≤ 2 ^ (n + 1) := by exact_mod_cast hrem
      linarith
    have hfl : ⌊a / (2 : ℝ) ^ q⌋₊ = r := by
      rw [ht, Nat.floor_eq_iff (by positivity)]
      exact ⟨by linarith, by linarith⟩
    have hz0 : rem + θ = 0 ↔ rem = 0 ∧ θ = 0 := by
      simpa using add_fract_eq_natCast (x := 0) h0 h1
    have hin : inexact = true ↔ a / (2 : ℝ) ^ q - r ≠ 0 := by
      rw [ht, add_sub_cancel_left, ne_eq, div_eq_zero_iff, hz0, or_iff_left (by positivity), not_and_or, ← ne_eq θ, ← hst]
      simp [inexact]
    have hlt : 1 / 2 < a / (2 : ℝ) ^ q - r ↔ half < rem ∨ rem = half ∧ st = true := by
      rw [ht, hst, hhalf, ← natCast_lt_add_fract h0 h1, add_sub_cancel_left, lt_div_iff₀ (by positivity), pow_succ]
      push_cast
      rw [show (1 : ℝ) / 2 * (2 ^ n * 2) = 2 ^ n by ring]
    have heq : a / (2 : ℝ) ^ q - r = 1 / 2 ↔ rem = half ∧ st = false := by
      rw [ht, ← Bool.not_eq_true, hst, not_not, hhalf, ← add_fract_eq_natCast h0 h1, add_sub_cancel_left,
        div_eq_iff (by positivity), pow_succ]
      push_cast
      rw [show (1 : ℝ) / 2 * (2 ^ n * 2) = 2 ^ n by ring]
    have hup : (inexact && up) = true ↔ rnd.up s r (a / (2 : ℝ) ^ q - r) := by
      rw [Bool.and_eq_true]
      cases rnd with
      | rne =>
        have hne : half ≠ 0 := by rw [hhalf]; positivity
        have hrest : inexact = true ↔ rem ≠ 0 ∨ st = true := by simp [inexact]
        simp only [Rnd.up, hlt, heq, up, hrest, Bool.or_eq_true, Bool.and_eq_true, decide_eq_true_eq]
        clear_value half rem r
        grind
      | rz => simp [Rnd.up, up]
      | rp => simp [Rnd.up, up, hin]
      | rm => simp [Rnd.up, up, hin]
      | rs h => exact hr.elim
    refine ⟨fun hu => ?_, fun hu => ?_, ?_⟩ <;> rw [hfl] at *
    · exact if_pos (hup.mpr hu)
    · exact if_neg (mt hup.mp hu)
    · exact hin.trans (not_congr sub_eq_zero)

/-! ### The image that a rounding chooses -/

/-- The two images around a magnitude a, and the one that the mode takes. -/
structure FFmt.Image (f : FFmt) (rnd : Rnd) (s : Bool) (a : ℝ) (k c : ℕ) : Prop where
  lo : (f.mag k : ℝ) ≤ a
  hi : a < (f.mag (k + 1) : ℝ)
  up : rnd.up s k ((a - f.mag k) / (f.mag (k + 1) - f.mag k)) → c = k + 1
  down : ¬rnd.up s k ((a - f.mag k) / (f.mag (k + 1) - f.mag k)) → c = k

/-- A mode that takes every magnitude of a sign up. -/
def Rnd.away (rnd : Rnd) (s : Bool) : Prop := rnd = .rp ∧ s = false ∨ rnd = .rm ∧ s = true

theorem Rnd.up_of_away {rnd : Rnd} {s : Bool} (h : rnd.away s) {k : ℕ} {x : ℝ} : rnd.up s k x ↔ x ≠ 0 := by
  obtain ⟨rfl, rfl⟩ | ⟨rfl, rfl⟩ := h <;> simp [Rnd.up]

theorem Rnd.not_up_of_toward {rnd : Rnd} {s : Bool} (h : ¬rnd.away s) (hn : rnd ≠ .rne) {k : ℕ} {x : ℝ} : ¬rnd.up s k x := by
  cases rnd <;> simp_all [Rnd.up, Rnd.away]

section
variable {f : FFmt} {rnd : Rnd} {s : Bool} {a : ℝ} {k c : ℕ}

theorem FFmt.cast_mag_strictMono (f : FFmt) : StrictMono fun c => (f.mag c : ℝ) := fun _ _ h =>
  Rat.cast_lt.mpr (f.mag_strictMono h)

theorem FFmt.step_pos (f : FFmt) (k : ℕ) : (0 : ℝ) < f.mag (k + 1) - f.mag k :=
  sub_pos.mpr (f.cast_mag_strictMono (Nat.lt_succ_self k))

namespace FFmt.Image

theorem eq_or (h : f.Image rnd s a k c) : c = k ∨ c = k + 1 := by
  by_cases hu : rnd.up s k ((a - f.mag k) / (f.mag (k + 1) - f.mag k))
  · exact .inr (h.up hu)
  · exact .inl (h.down hu)

/-- Rounding away from zero. -/
theorem away (h : f.Image rnd s a k c) (hw : rnd.away s) : a ≤ f.mag c ∧ ∀ j, a ≤ f.mag j → (f.mag c : ℝ) ≤ f.mag j := by
  by_cases ha : a = f.mag k
  · have hc : c = k := h.down (by rw [Rnd.up_of_away hw, ha, sub_self, zero_div]; simp)
    rw [hc, ← ha]
    exact ⟨le_rfl, fun _ h => h⟩
  · have hc : c = k + 1 :=
      h.up ((Rnd.up_of_away hw).mpr (div_ne_zero (sub_ne_zero.mpr ha) (f.step_pos k).ne'))
    rw [hc]
    refine ⟨h.hi.le, fun j hj => ?_⟩
    have hlt := (h.lo.lt_of_ne' ha).trans_le hj
    exact f.cast_mag_strictMono.monotone (f.cast_mag_strictMono.lt_iff_lt.mp hlt)

/-- Rounding toward zero. -/
theorem toward (h : f.Image rnd s a k c) (hw : ¬rnd.away s) (hn : rnd ≠ .rne) :
    (f.mag c : ℝ) ≤ a ∧ ∀ j, f.mag j ≤ a → (f.mag j : ℝ) ≤ f.mag c := by
  rw [h.down (Rnd.not_up_of_toward hw hn)]
  refine ⟨h.lo, fun j hj => ?_⟩
  exact f.cast_mag_strictMono.monotone (Nat.lt_succ_iff.mp (f.cast_mag_strictMono.lt_iff_lt.mp (hj.trans_lt h.hi)))

/-- The middle between the two images decides rounding to nearest. -/
theorem up_rne_iff (f : FFmt) (k : ℕ) (a : ℝ) : Rnd.rne.up s k ((a - f.mag k) / (f.mag (k + 1) - f.mag k))
    ↔ f.mag (k + 1) - a < a - f.mag k ∨ f.mag (k + 1) - a = a - f.mag k ∧ k % 2 = 1 := by
  have hs := f.step_pos k
  rw [Rnd.up, lt_div_iff₀ hs, div_eq_iff hs.ne']
  refine or_congr ⟨fun _ => by linarith, fun _ => by linarith⟩ (and_congr_left fun _ => ⟨fun _ => by linarith, fun _ => by linarith⟩)

/-- Rounding to nearest, ties to even. -/
theorem nearest (h : f.Image .rne s a k c) (j : ℕ) :
    |(f.mag c : ℝ) - a| ≤ |f.mag j - a| ∧ (|(f.mag c : ℝ) - a| = |f.mag j - a| → j ≠ c → c % 2 = 0) := by
  have hlo := h.lo
  have hhi := h.hi
  have below : j ≤ k → |(f.mag j : ℝ) - a| = a - f.mag j ∧ (f.mag j : ℝ) ≤ f.mag k := fun hj => by
    have := f.cast_mag_strictMono.monotone hj
    exact ⟨by rw [abs_sub_comm, abs_of_nonneg (by linarith)], this⟩
  have above : k + 1 ≤ j → |(f.mag j : ℝ) - a| = f.mag j - a ∧ (f.mag (k + 1) : ℝ) ≤ f.mag j := fun hj => by
    have := f.cast_mag_strictMono.monotone hj
    exact ⟨abs_of_nonneg (by linarith), this⟩
  by_cases hu : Rnd.rne.up s k ((a - f.mag k) / (f.mag (k + 1) - f.mag k))
  · rw [h.up hu, abs_of_pos (sub_pos.mpr hhi)]
    rw [up_rne_iff] at hu
    obtain hj | hj := le_or_gt j k
    · obtain ⟨e, hle⟩ := below hj
      rw [e]
      refine ⟨by obtain h | h := hu <;> linarith, fun he _ => ?_⟩
      obtain h | ⟨_, h⟩ := hu
      · linarith
      · omega
    · obtain ⟨e, hle⟩ := above hj
      rw [e]
      exact ⟨by linarith, fun he hne => absurd (f.cast_mag_strictMono.injective (by linarith : (f.mag j : ℝ) = f.mag (k + 1))) hne⟩
  · rw [h.down hu, abs_sub_comm, abs_of_nonneg (sub_nonneg.mpr hlo)]
    rw [up_rne_iff, not_or, not_lt, not_and] at hu
    obtain ⟨h1, h2⟩ := hu
    obtain hj | hj := le_or_gt j k
    · obtain ⟨e, hle⟩ := below hj
      rw [e]
      exact ⟨by linarith, fun he hne => absurd (f.cast_mag_strictMono.injective (by linarith : (f.mag j : ℝ) = f.mag k)) hne⟩
    · obtain ⟨e, hle⟩ := above hj
      rw [e]
      refine ⟨by linarith, fun he _ => ?_⟩
      have := h2 (by linarith)
      omega

/-- The image is a's own where a is the magnitude of one. -/
theorem exact_iff (h : f.Image rnd s a k c) : (f.mag c : ℝ) = a ↔ a = f.mag k := by
  refine ⟨fun he => ?_, fun he => ?_⟩
  · obtain rfl | rfl := h.eq_or
    · exact he.symm
    · exact absurd he h.hi.ne'
  · rw [h.down (by rw [he, sub_self, zero_div]; exact Rnd.not_up_zero _ _ _), he]

end FFmt.Image
end

end Sys2Proof
end

/-! PROOFS. O4, O7, O17: rounding to units is rounding to images. -/

section
namespace Sys2Proof

/-! ### `roundF` -/

/-- The unit to which an exact magnitude is rounded: that of its binade, or the smallest positive value. -/
def FFmt.unit (f : FFmt) (m : ℕ) (e : ℤ) : ℤ := max ((Nat.log2 m : ℤ) + e) (1 - f.bias) - f.mb

/-- Results that are tiny after rounding with an unbounded exponent (02 R37). -/
def FFmt.Tiny (f : FFmt) (rnd : Rnd) (s : Bool) (a : ℝ) : Prop :=
  a < (2 : ℝ) ^ (1 - (f.bias : ℤ))
  ∧ (rnd = .rne → a < (2 : ℝ) ^ (1 - (f.bias : ℤ)) - (2 : ℝ) ^ (-1 - (f.bias : ℤ) - f.mb))
  ∧ (rnd.away s → a ≤ (2 : ℝ) ^ (1 - (f.bias : ℤ)) - (2 : ℝ) ^ (-(f.bias : ℤ) - f.mb))

theorem Rnd.up_congr {rnd : Rnd} {s : Bool} {j k : ℕ} {x : ℝ} (h : j % 2 = k % 2) : rnd.up s j x ↔ rnd.up s k x := by
  cases rnd <;> simp [Rnd.up, h]

section
variable {f : FFmt} {rnd : Rnd} {s : Bool} {m : ℕ} {e : ℤ} {st : Bool} {a : ℝ}

theorem Exactly.binade (h : Exactly m e st a) (hm : m ≠ 0) :
    (2 : ℝ) ^ ((Nat.log2 m : ℤ) + e) ≤ a ∧ a < (2 : ℝ) ^ ((Nat.log2 m : ℤ) + e + 1) := by
  have he : (0 : ℝ) < (2 : ℝ) ^ e := by positivity
  have h1 : (2 : ℝ) ^ Nat.log2 m ≤ m := by exact_mod_cast Nat.log2_self_le hm
  have h2 : (m : ℝ) + 1 ≤ (2 : ℝ) ^ (Nat.log2 m + 1) := by exact_mod_cast Nat.lt_log2_self
  constructor
  · rw [zpow_add₀ two_ne_zero, zpow_natCast]
    exact (mul_le_mul_of_nonneg_right h1 he.le).trans h.lo
  · rw [add_right_comm, zpow_add₀ two_ne_zero, ← Nat.cast_succ, zpow_natCast]
    exact h.hi.trans_le (mul_le_mul_of_nonneg_right h2 he.le)

theorem Exactly.pos (h : Exactly m e st a) (hm : m ≠ 0) : 0 < a := lt_of_lt_of_le (by positivity) (h.binade hm).1

/-- The magnitude of an image of r units, in a binade where units of 2^q are its steps. -/
theorem FFmt.mag_roundCode {q : ℤ} {r : ℕ} (hq : f.qmin ≤ q) (hs : r < 2 ^ f.mb → q = f.qmin) (hr : r ≤ 2 * 2 ^ f.mb) :
    f.mag (roundCode f.mb (q - f.qmin).toNat r) = r * (2 : ℚ) ^ q := by
  rw [FFmt.mag, codeMag_roundCode (fun h => by rw [hs h, sub_self]; rfl) hr]
  push_cast
  rw [mul_assoc, ← zpow_natCast, Int.toNat_of_nonneg (by omega), ← zpow_add₀ two_ne_zero, sub_add_cancel]

/-- In units, a magnitude lies below the end of its binade; and below the start only among the subnormal values. -/
theorem Exactly.units (h : Exactly m e st a) (hm : m ≠ 0) : a / (2 : ℝ) ^ f.unit m e < 2 * 2 ^ f.mb
    ∧ (a / (2 : ℝ) ^ f.unit m e < 2 ^ f.mb → f.unit m e = f.qmin) := by
  obtain ⟨h1, h2⟩ := h.binade hm
  have hq : (2 : ℝ) ^ f.unit m e * 2 ^ f.mb = (2 : ℝ) ^ (max ((Nat.log2 m : ℤ) + e) (1 - f.bias)) := by
    rw [← zpow_natCast, ← zpow_add₀ two_ne_zero, FFmt.unit, sub_add_cancel]
  rw [div_lt_iff₀ (by positivity), div_lt_iff₀ (by positivity), mul_assoc, mul_comm (2 ^ f.mb : ℝ), hq]
  constructor
  · refine h2.trans_le ?_
    rw [zpow_add_one₀ two_ne_zero, mul_comm]
    have := zpow_le_zpow_right₀ (one_le_two (α := ℝ)) (le_max_left ((Nat.log2 m : ℤ) + e) (1 - f.bias))
    linarith
  · intro hlt
    have := (zpow_lt_zpow_iff_right₀ (one_lt_two (α := ℝ))).mp (h1.trans_lt hlt)
    unfold FFmt.unit FFmt.qmin
    omega

/-- Rounding to units rounds to images. -/
theorem Quantized.image {r : ℕ × Bool} (h : Exactly m e st a) (hm : m ≠ 0) (hmb : 0 < f.mb)
    (hr : Quantized rnd s (a / (2 : ℝ) ^ f.unit m e) r) :
    ∃ k, f.Image rnd s a k (roundCode f.mb (f.unit m e - f.qmin).toNat r.1)
      ∧ (r.2 = true ↔ (f.mag (roundCode f.mb (f.unit m e - f.qmin).toNat r.1) : ℝ) ≠ a) := by
  obtain ⟨hlt, hsub⟩ := h.units (f := f) hm
  have hu : (0 : ℝ) < (2 : ℝ) ^ f.unit m e := by positivity
  have hnn : 0 ≤ a / (2 : ℝ) ^ f.unit m e := div_nonneg (h.pos hm).le hu.le
  have hq : f.qmin ≤ f.unit m e := by unfold FFmt.unit FFmt.qmin; omega
  obtain ⟨hup, hdown, hin⟩ := hr
  have hlo := Nat.floor_le hnn
  have hhi := Nat.lt_floor_add_one (a / (2 : ℝ) ^ f.unit m e)
  generalize ht : a / (2 : ℝ) ^ f.unit m e = t at *
  generalize hk : ⌊t⌋₊ = k at *
  have hkmax : k < 2 * 2 ^ f.mb := by
    have : (k : ℝ) < ((2 * 2 ^ f.mb : ℕ) : ℝ) := by push_cast; linarith
    exact_mod_cast this
  have hksub : k < 2 ^ f.mb → f.unit m e = f.qmin := fun hk1 => hsub (by
    have : (k : ℝ) + 1 ≤ 2 ^ f.mb := by exact_mod_cast hk1
    linarith)
  have hcsub : k < 2 ^ f.mb → (f.unit m e - f.qmin).toNat = 0 := fun h => by rw [hksub h, sub_self]; rfl
  have ha : a = t * (2 : ℝ) ^ f.unit m e := by rw [← ht, div_mul_cancel₀ _ hu.ne']
  have m0 : (f.mag (roundCode f.mb (f.unit m e - f.qmin).toNat k) : ℝ) = k * (2 : ℝ) ^ f.unit m e := by
    rw [FFmt.mag_roundCode hq hksub hkmax.le]
    push_cast
    rfl
  have m1 : (f.mag (roundCode f.mb (f.unit m e - f.qmin).toNat k + 1) : ℝ) = (k + 1) * (2 : ℝ) ^ f.unit m e := by
    rw [← roundCode_succ hcsub, FFmt.mag_roundCode hq (fun h => hksub (by omega)) (by omega)]
    push_cast
    rfl
  have hx : (a - f.mag (roundCode f.mb (f.unit m e - f.qmin).toNat k))
      / (f.mag (roundCode f.mb (f.unit m e - f.qmin).toNat k + 1) - f.mag (roundCode f.mb (f.unit m e - f.qmin).toNat k)) = t - k := by
    rw [m0, m1, ha, ← sub_mul, ← sub_mul, add_sub_cancel_left, one_mul, mul_div_cancel_right₀ _ hu.ne']
  have himg : f.Image rnd s a (roundCode f.mb (f.unit m e - f.qmin).toNat k) (roundCode f.mb (f.unit m e - f.qmin).toNat r.1) := by
    refine ⟨?_, ?_, fun hu => ?_, fun hu => ?_⟩
    · rw [m0, ha]
      exact mul_le_mul_of_nonneg_right hlo hu.le
    · rw [m1, ha]
      exact mul_lt_mul_of_pos_right hhi hu
    · rw [hx, Rnd.up_congr (roundCode_mod_two hmb)] at hu
      rw [hup hu, roundCode_succ hcsub]
    · rw [hx, Rnd.up_congr (roundCode_mod_two hmb)] at hu
      rw [hdown hu]
  refine ⟨_, himg, ?_⟩
  rw [hin, ne_eq, ne_eq, not_iff_not, himg.exact_iff, m0, ha, mul_left_inj' hu.ne']

end

end Sys2Proof
end

/-! PROOFS. O4, O7, O17: results beyond the largest finite value, and tiny results (02 Table 15, R37). -/

section
namespace Sys2Proof

section
variable {f : FFmt} {rnd : Rnd} {s : Bool} {m : ℕ} {e : ℤ} {st : Bool} {a : ℝ} {k c : ℕ}

/-- Magnitudes whose rounding lies beyond the largest finite value (02 Table 15). -/
def FFmt.Beyond (f : FFmt) (rnd : Rnd) (s : Bool) (a : ℝ) : Prop :=
  rnd = .rne ∧ (2 : ℝ) ^ ((f.bias : ℤ) + 1) - (2 : ℝ) ^ ((f.bias : ℤ) - f.mb - 1) ≤ a
  ∨ rnd.away s ∧ (2 : ℝ) ^ ((f.bias : ℤ) + 1) - (2 : ℝ) ^ ((f.bias : ℤ) - f.mb) < a
  ∨ (2 : ℝ) ^ ((f.bias : ℤ) + 1) ≤ a

theorem FFmt.Image.beyond_iff (h : f.Image rnd s a k c) (hf : f.Ieee) : f.maxCode < c ↔ f.Beyond rnd s a := by
  have hD : (f.mag (f.maxCode + 1) : ℝ) = (2 : ℝ) ^ ((f.bias : ℤ) + 1) := by
    rw [hf.maxCode_succ, hf.mag_infCode]
    push_cast
    rfl
  have hd : (f.mag f.maxCode : ℝ) = (2 : ℝ) ^ ((f.bias : ℤ) + 1) - (2 : ℝ) ^ ((f.bias : ℤ) - f.mb) := by
    rw [hf.mag_maxCode]
    push_cast
    rfl
  have hstep : (2 : ℝ) ^ ((f.bias : ℤ) - f.mb) = 2 * (2 : ℝ) ^ ((f.bias : ℤ) - f.mb - 1) := by
    rw [← zpow_one_add₀ two_ne_zero]
    congr 1
    ring
  have hodd : f.maxCode % 2 = 1 := by
    have := hf.maxCode_succ
    have := hf.infCode_even
    omega
  have hpos : (0 : ℝ) < (2 : ℝ) ^ ((f.bias : ℤ) - f.mb - 1) := by positivity
  have hmono := f.cast_mag_strictMono.monotone
  have hlo := h.lo
  have hhi := h.hi
  unfold FFmt.Beyond
  rw [hstep] at hd
  rw [hstep, ← hD]
  rw [← hD] at hd
  obtain hk | rfl | hk := lt_trichotomy k f.maxCode
  · have hle : (f.mag (k + 1) : ℝ) ≤ f.mag f.maxCode := hmono hk
    have hc : c ≤ k + 1 := by have := h.eq_or; omega
    refine iff_of_false (by omega) ?_
    rintro (⟨_, h1⟩ | ⟨_, h1⟩ | h1) <;> linarith
  · by_cases hu : rnd.up s f.maxCode ((a - f.mag f.maxCode) / (f.mag (f.maxCode + 1) - f.mag f.maxCode))
    · refine iff_of_true (by rw [h.up hu]; omega) ?_
      by_cases hn : rnd = .rne
      · subst hn
        rw [FFmt.Image.up_rne_iff] at hu
        refine .inl ⟨rfl, ?_⟩
        obtain hu | ⟨hu, _⟩ := hu <;> linarith
      · have hw : rnd.away s := by
          by_contra hw
          exact Rnd.not_up_of_toward hw hn hu
        have hne : a ≠ f.mag f.maxCode := fun he => Rnd.not_up_zero rnd s f.maxCode (by simpa [he] using hu)
        exact .inr (.inl ⟨hw, by linarith [hlo.lt_of_ne' hne]⟩)
    · refine iff_of_false (by rw [h.down hu]; omega) ?_
      rintro (⟨rfl, h1⟩ | ⟨hw, h1⟩ | h1)
      · rw [FFmt.Image.up_rne_iff] at hu
        have hmid : (f.mag (f.maxCode + 1) : ℝ) - a ≤ a - f.mag f.maxCode := by linarith
        exact hu (hmid.lt_or_eq.imp_right fun h => ⟨h, hodd⟩)
      · rw [Rnd.up_of_away hw, not_not, div_eq_zero_iff, or_iff_left (f.step_pos _).ne'] at hu
        linarith
      · linarith
  · have hle : (f.mag (f.maxCode + 1) : ℝ) ≤ f.mag k := hmono hk
    exact iff_of_true (by have := h.eq_or; omega) (.inr (.inr (by linarith)))

/-- Units below the end of a binade that do not round to its end. -/
theorem tiny_units {r k n : ℕ} {t : ℝ} (hkN : k + 1 ≤ 2 * n) (hlo : k ≤ t) (hhi : t < k + 1)
    (hup : rnd.up s k (t - k) → r = k + 1) (hdown : ¬rnd.up s k (t - k) → r = k) :
    r < n * 2 ↔ (rnd = .rne → t < (2 * n : ℕ) - 1 / 2) ∧ (rnd.away s → t ≤ (2 * n : ℕ) - 1) := by
  have hN : (k : ℝ) + 1 ≤ (2 * n : ℕ) := by exact_mod_cast hkN
  obtain hk | hk := hkN.lt_or_eq
  · have hN1 : (k : ℝ) + 1 + 1 ≤ (2 * n : ℕ) := by exact_mod_cast hk
    refine iff_of_true ?_ ⟨fun _ => by linarith, fun _ => by linarith⟩
    by_cases hu : rnd.up s k (t - k)
    · have := hup hu
      omega
    · have := hdown hu
      omega
  · have hN1 : ((2 * n : ℕ) : ℝ) = k + 1 := by exact_mod_cast hk.symm
    rw [hN1]
    by_cases hu : rnd.up s k (t - k)
    · rw [hup hu]
      refine iff_of_false (by omega) fun ⟨hn, hw⟩ => ?_
      by_cases hne : rnd = .rne
      · have := hn hne
        subst hne
        obtain h | ⟨h, _⟩ := hu <;> linarith
      · have ha : rnd.away s := by
          by_contra ha
          exact Rnd.not_up_of_toward ha hne hu
        rw [Rnd.up_of_away ha] at hu
        exact hu (by linarith [hw ha])
    · rw [hdown hu]
      refine iff_of_true (by omega) ⟨?_, fun hw => ?_⟩
      · rintro rfl
        by_contra hge
        have hmid : 1 / 2 ≤ t - k := by linarith
        exact hu (hmid.lt_or_eq.imp_right fun h => ⟨h.symm, by omega⟩)
      · rw [Rnd.up_of_away hw, not_not] at hu
        linarith

/-- The rounding with an unbounded exponent shows whether a result is tiny. -/
theorem Exactly.tiny_iff (h : Exactly m e st a) (hm : m ≠ 0) (hmb : 0 < f.mb) {r : ℕ × Bool}
    (hr : Quantized rnd s (a / (2 : ℝ) ^ ((Nat.log2 m : ℤ) + e - f.mb)) r) :
    ((Nat.log2 m : ℤ) + e < 1 - f.bias
      ∧ r.1 < 2 ^ f.mb * (if (Nat.log2 m : ℤ) + e = 1 - f.bias - 1 then 2 else 4)) ↔ f.Tiny rnd s a := by
  obtain ⟨h1, h2⟩ := h.binade hm
  generalize (Nat.log2 m : ℤ) + e = ex at *
  have hu : (0 : ℝ) < (2 : ℝ) ^ (ex - f.mb) := by positivity
  have ha : a = a / (2 : ℝ) ^ (ex - f.mb) * (2 : ℝ) ^ (ex - f.mb) := by rw [div_mul_cancel₀ _ hu.ne']
  have htop : (2 : ℝ) ^ (ex + 1) = (2 * 2 ^ f.mb : ℕ) * (2 : ℝ) ^ (ex - f.mb) := by
    push_cast
    rw [← zpow_natCast, ← zpow_one_add₀ two_ne_zero, ← zpow_add₀ two_ne_zero]
    congr 1
    ring
  obtain ⟨hup, hdown, _⟩ := hr
  have hlo := Nat.floor_le (div_nonneg (h.pos hm).le hu.le)
  have hhi := Nat.lt_floor_add_one (a / (2 : ℝ) ^ (ex - f.mb))
  generalize ht : a / (2 : ℝ) ^ (ex - f.mb) = t at *
  generalize hk : ⌊t⌋₊ = k at *
  have htN : t < (2 * 2 ^ f.mb : ℕ) := by
    rw [ha, htop, mul_lt_mul_iff_left₀ hu] at h2
    exact h2
  have hkN : k + 1 ≤ 2 * 2 ^ f.mb := by exact_mod_cast hlo.trans_lt htN
  have hr1 : r.1 ≤ k + 1 := by
    by_cases hu : rnd.up s k (t - k)
    · exact (hup hu).le
    · rw [hdown hu]
      omega
  obtain hex | hex := le_or_gt (1 - (f.bias : ℤ)) ex
  · refine iff_of_false (fun h => absurd h.1 (not_lt.mpr hex)) fun hT => ?_
    have := zpow_le_zpow_right₀ (one_le_two (α := ℝ)) hex
    linarith [hT.1]
  · have hP := Nat.two_pow_pos f.mb
    obtain hex1 | hex1 := eq_or_ne ex (1 - f.bias - 1)
    · rw [if_pos hex1, and_iff_right hex]
      have e1 : (2 : ℝ) ^ (1 - (f.bias : ℤ)) = (2 * 2 ^ f.mb : ℕ) * (2 : ℝ) ^ (ex - f.mb) := by
        rw [← htop, hex1, sub_add_cancel]
      have e2 : (2 : ℝ) ^ (-(f.bias : ℤ) - f.mb) = (2 : ℝ) ^ (ex - f.mb) := by
        congr 1
        omega
      have e3 : (2 : ℝ) ^ (-1 - (f.bias : ℤ) - f.mb) = 1 / 2 * (2 : ℝ) ^ (ex - f.mb) := by
        rw [one_div, ← zpow_neg_one, ← zpow_add₀ two_ne_zero]
        congr 1
        omega
      unfold FFmt.Tiny
      rw [e1, e2, e3, ← sub_mul, ← sub_one_mul, ha, mul_lt_mul_iff_left₀ hu, mul_lt_mul_iff_left₀ hu, mul_le_mul_iff_left₀ hu,
        and_iff_right htN]
      exact tiny_units hkN hlo hhi hup hdown
    · rw [if_neg hex1]
      refine iff_of_true ⟨hex, by omega⟩ ?_
      have e1 : (2 : ℝ) ^ (1 - (f.bias : ℤ)) = 2 * (2 : ℝ) ^ (-(f.bias : ℤ)) := by
        rw [← zpow_one_add₀ two_ne_zero]
        congr 1
      have h3 : (2 : ℝ) ^ (ex + 1) ≤ (2 : ℝ) ^ (-(f.bias : ℤ)) := zpow_le_zpow_right₀ one_le_two (by omega)
      have h4 : (2 : ℝ) ^ (-(f.bias : ℤ) - f.mb) ≤ (2 : ℝ) ^ (-(f.bias : ℤ)) := zpow_le_zpow_right₀ one_le_two (by omega)
      have h5 : (2 : ℝ) ^ (-1 - (f.bias : ℤ) - f.mb) ≤ (2 : ℝ) ^ (-(f.bias : ℤ)) := zpow_le_zpow_right₀ one_le_two (by omega)
      refine ⟨?_, fun _ => ?_, fun _ => ?_⟩ <;> rw [e1]
      · have : (0 : ℝ) < (2 : ℝ) ^ (-(f.bias : ℤ)) := by positivity
        linarith
      · linarith
      · linarith

end

end Sys2Proof
end

/-! PROOFS. O4, O7, O17: `roundF` by cases, and the values of images (02 R24). -/

section
namespace Sys2Proof

section
variable {f : FFmt} {rnd : Rnd} {s : Bool} {m : ℕ} {e : ℤ} {st : Bool} {a : ℝ}

/-- `roundF` in a mode that draws no number, through the image that its units name. -/
theorem roundF_eq (hr : rnd.plain) : roundF f rnd s m e st =
    let r := quantize rnd s m e st (f.unit m e)
    let c := roundCode f.mb (f.unit m e - f.qmin).toNat r.1
    let tiny := (Nat.log2 m : ℤ) + e < 1 - f.bias && (quantize rnd s m e st ((Nat.log2 m : ℤ) + e - f.mb)).1
      < 2 ^ f.mb * (if (Nat.log2 m : ℤ) + e = 1 - f.bias - 1 then 2 else 4)
    if f.maxCode < c then (overflowCode f rnd s, fOF ||| fNX)
    else (f.signBit s + c, if r.2 = true then (if tiny = true then fUF ||| fNX else fNX) else 0) := by
  have hq : (f.unit m e + f.mb + f.bias).toNat = (f.unit m e - f.qmin).toNat + 1 := by
    unfold FFmt.unit FFmt.qmin
    omega
  unfold roundCode
  rw [← hq]
  cases rnd
  case rs => exact hr.elim
  all_goals
    simp only [roundF, Bool.or_false, decide_eq_true_eq, FFmt.unit]
    rfl

/-- What `roundF` gives: an image that the mode chooses, replaced beyond the largest finite value, and its flags. -/
theorem roundF_image (hf : 0 < f.mb) (hr : rnd.plain) (hm : m ≠ 0) (h : Exactly m e st a) (hst : st = true → 2 ^ (f.mb + 1) ≤ m) :
    ∃ k c, f.Image rnd s a k c ∧
      (f.maxCode < c → roundF f rnd s m e st = (overflowCode f rnd s, fOF ||| fNX)) ∧
      (¬f.maxCode < c → (roundF f rnd s m e st).1 = f.signBit s + c
        ∧ ((f.mag c : ℝ) = a → (roundF f rnd s m e st).2 = 0)
        ∧ ((f.mag c : ℝ) ≠ a → f.Tiny rnd s a → (roundF f rnd s m e st).2 = fUF ||| fNX)
        ∧ ((f.mag c : ℝ) ≠ a → ¬f.Tiny rnd s a → (roundF f rnd s m e st).2 = fNX)) := by
  have hlog : st = true → e < (Nat.log2 m : ℤ) + e - f.mb := fun h => by
    have := (Nat.le_log2 hm).mpr (hst h)
    omega
  have hT := h.tiny_iff hm hf (quantize_spec (s := s) hr h hlog)
  obtain ⟨k, hi, hx⟩ := Quantized.image h hm hf (quantize_spec (s := s) hr h (q := f.unit m e) fun h => by
    have := hlog h
    unfold FFmt.unit
    omega)
  refine ⟨k, _, hi, ?_⟩
  rw [roundF_eq hr]
  dsimp only
  generalize roundCode f.mb _ _ = c at *
  generalize (quantize rnd s m e st (f.unit m e)).2 = i at *
  refine ⟨fun ho => if_pos ho, fun ho => ?_⟩
  rw [if_neg ho]
  refine ⟨rfl, fun he => ?_, fun he ht => ?_, fun he ht => ?_⟩
  · exact if_neg (fun hi => hx.mp hi he)
  · dsimp only
    rw [if_pos (hx.mpr he), if_pos (by simpa using hT.mpr ht)]
  · dsimp only
    rw [if_pos (hx.mpr he), if_neg (fun h => ht (hT.mp (by simpa using h)))]

end

end Sys2Proof

namespace Sys2Proof.Machine

/-! ### The values of images -/

section
variable {f : FFmt} {x : ℕ}

/-- The exponent and fraction of an image are those of the image without its sign bit. -/
theorem exp_eq (f : FFmt) (x : ℕ) : x / 2 ^ f.mb % 2 ^ f.eb = x % 2 ^ (f.eb + f.mb) / 2 ^ f.mb := by
  rw [add_comm, pow_add, Nat.mod_mul_right_div_self]
theorem frac_eq (f : FFmt) (x : ℕ) : x % 2 ^ f.mb = x % 2 ^ (f.eb + f.mb) % 2 ^ f.mb :=
  (Nat.mod_mod_of_dvd _ (Nat.pow_dvd_pow 2 (by omega))).symm

theorem exp_eq_top : x % 2 ^ (f.eb + f.mb) / 2 ^ f.mb = 2 ^ f.eb - 1 ↔ f.infCode ≤ x % 2 ^ (f.eb + f.mb) := by
  have hlt : x % 2 ^ (f.eb + f.mb) / 2 ^ f.mb < 2 ^ f.eb := by
    rw [Nat.div_lt_iff_lt_mul (Nat.two_pow_pos _), ← pow_add]
    exact Nat.mod_lt _ (Nat.two_pow_pos _)
  rw [FFmt.infCode, ← Nat.le_div_iff_mul_le (Nat.two_pow_pos _)]
  omega

/-- The finite images: those whose magnitude does not pass the largest. -/
theorem finiteIn_iff (hf : f.Ieee) : FiniteIn f x ↔ x < 2 ^ (f.eb + f.mb + 1) ∧ x % 2 ^ (f.eb + f.mb) ≤ f.maxCode := by
  have := hf.maxCode_succ
  rw [FiniteIn, exp_eq, ne_eq, exp_eq_top]
  exact and_congr_right fun _ => by omega

end

/-- The value of an image: its sign and its magnitude. -/
theorem valueIn_eq (f : FFmt) (x : ℕ) : valueIn f x = (-1) ^ (x / 2 ^ (f.eb + f.mb)) * f.mag (x % 2 ^ (f.eb + f.mb)) := by
  have hP := Nat.two_pow_pos f.mb
  unfold valueIn
  rw [exp_eq, frac_eq]
  generalize x % 2 ^ (f.eb + f.mb) = c
  dsimp only
  obtain hc | hc := lt_or_ge c (2 ^ f.mb)
  · rw [Nat.div_eq_of_lt hc, Nat.mod_eq_of_lt hc, if_pos Nat.cast_zero, FFmt.mag, codeMag_of_lt hc, FFmt.qmin]
  · obtain ⟨k, j, hj, rfl⟩ := exists_normal hc
    rw [FFmt.mag, codeMag_normal k hj, mul_comm (k + 1), Nat.mul_add_div hP, Nat.div_eq_of_lt hj, Nat.mul_add_mod,
      Nat.mod_eq_of_lt hj, if_neg (by omega), FFmt.qmin]
    push_cast
    rw [mul_assoc, ← zpow_natCast (_ : ℚ) k, ← zpow_add₀ two_ne_zero]
    congr 2
    congr 1
    ring

theorem valueIn_signBit_add {f : FFmt} {c : ℕ} (s : Bool) (hc : c < 2 ^ (f.eb + f.mb)) :
    valueIn f (f.signBit s + c) = (if s = true then -1 else 1) * f.mag c := by
  have hP := Nat.two_pow_pos (f.eb + f.mb)
  rw [valueIn_eq]
  cases s
  · simp [FFmt.signBit, Nat.div_eq_of_lt hc, Nat.mod_eq_of_lt hc]
  · simp [FFmt.signBit, Nat.add_div_left, hP, Nat.div_eq_of_lt hc, Nat.mod_eq_of_lt hc]

/-- Every image is a sign and an image without one. -/
theorem exists_signBit_add {f : FFmt} {x : ℕ} (hx : x < 2 ^ (f.eb + f.mb + 1)) :
    ∃ s c, c < 2 ^ (f.eb + f.mb) ∧ x = f.signBit s + c := by
  obtain h | h := lt_or_ge x (2 ^ (f.eb + f.mb))
  · exact ⟨false, x, h, by simp [FFmt.signBit]⟩
  · rw [pow_succ] at hx
    exact ⟨true, x - 2 ^ (f.eb + f.mb), by omega, by simp [FFmt.signBit]; omega⟩

theorem finiteIn_signBit_add {f : FFmt} {c : ℕ} (hf : f.Ieee) (s : Bool) (hc : c ≤ f.maxCode) : FiniteIn f (f.signBit s + c) := by
  have hmax := hf.maxCode_succ
  have hinf := hf.infCode_lt
  have h1 : (f.signBit s + c) % 2 ^ (f.eb + f.mb) = c := by
    cases s <;> simp [FFmt.signBit, Nat.mod_eq_of_lt (show c < 2 ^ (f.eb + f.mb) by omega)]
  rw [finiteIn_iff hf, h1, pow_succ]
  refine ⟨?_, hc⟩
  cases s <;> simp [FFmt.signBit] <;> omega

/-- The sum of a sign bit and an image without it has the sign of the bit. -/
theorem signBit_le_iff {f : FFmt} {c : ℕ} (s : Bool) (hc : c < 2 ^ (f.eb + f.mb)) :
    2 ^ (f.eb + f.mb) ≤ f.signBit s + c ↔ s = true := by
  cases s <;> simp [FFmt.signBit, hc]

end Sys2Proof.Machine
end

/-! PROOFS. O4, O7, O17: `roundF` rounds once. -/

section
namespace Sys2Proof.Machine

section
variable {f : FFmt} {rnd : Rnd} {s : Bool} {m : ℕ} {e : ℤ} {st : Bool} {a : ℝ}

/-- The results of 02 Table 15 beyond the largest finite value. -/
theorem overflowCode_far (hf : f.Ieee) (h : rnd = .rne ∨ rnd.away s) : overflowCode f rnd s = f.signBit s + f.infCode := by
  obtain rfl | ⟨rfl, rfl⟩ | ⟨rfl, rfl⟩ := h <;> simp [overflowCode, hf.inf]

theorem overflowCode_near (hr : rnd.plain) (h : ¬(rnd = .rne ∨ rnd.away s)) : overflowCode f rnd s = f.signBit s + f.maxCode := by
  rw [not_or] at h
  obtain ⟨hn, ha⟩ := h
  cases rnd <;> simp_all [overflowCode, Rnd.away, Rnd.plain]

/-- A finite value, seen from a sign: a magnitude of the same or of the other sign. -/
theorem FiniteIn.exists_mag {x : ℕ} (s : Bool) (hx : FiniteIn f x) :
    ∃ y : ℝ, (valueIn f x : ℝ) = (if s = true then -1 else 1) * y ∧ ∃ j, y = f.mag j ∨ y = -f.mag j := by
  obtain ⟨s', j, hj, rfl⟩ := exists_signBit_add hx.1
  rw [valueIn_signBit_add s' hj]
  refine ⟨if s' = s then f.mag j else -f.mag j, ?_, j, ?_⟩
  · cases s <;> cases s' <;> simp
  · split
    · exact .inl rfl
    · exact .inr rfl

/-- Values of the other sign are no nearer than zero, and so than the chosen image. -/
theorem FFmt.Image.nearest_signed {k c : ℕ} {y : ℝ} (h : f.Image .rne s a k c) (ha : 0 < a)
    (hy : ∃ j, y = f.mag j ∨ y = -f.mag j) :
    |(f.mag c : ℝ) - a| ≤ |y - a| ∧ (|(f.mag c : ℝ) - a| = |y - a| → y ≠ f.mag c → c % 2 = 0) := by
  obtain ⟨j, rfl | rfl⟩ := hy
  · obtain ⟨h1, h2⟩ := h.nearest j
    exact ⟨h1, fun he hne => h2 he fun hj => hne (by rw [hj])⟩
  · obtain ⟨h1, h2⟩ := h.nearest 0
    have hj : (0 : ℝ) ≤ f.mag j := by exact_mod_cast f.mag_nonneg j
    rw [FFmt.mag_zero, Rat.cast_zero, zero_sub, abs_neg, abs_of_pos ha] at h1 h2
    rw [abs_sub_comm (-(f.mag j : ℝ)), abs_of_pos (show (0 : ℝ) < a - -f.mag j by linarith)]
    refine ⟨by linarith, fun he hne => h2 (by linarith) fun h0 => hne ?_⟩
    have hj0 : (f.mag j : ℝ) = 0 := by linarith
    rw [hj0, ← h0, FFmt.mag_zero, Rat.cast_zero, neg_zero]

/-- An exact magnitude and a sign are rounded once, with the flags of 02 Table 15 and R37. -/
theorem roundF_rounded (hf : f.Ieee) (hr : rnd.plain) (hm : m ≠ 0) (h : Exactly m e st a) (hst : st = true → 2 ^ (f.mb + 1) ≤ m) :
    Rounded f rnd ((if s = true then -1 else 1) * a) (roundF f rnd s m e st) := by
  obtain ⟨k, c, hi, hov, hfin⟩ := roundF_image (s := s) hf.mb_pos hr hm h hst
  have ha := h.pos hm
  generalize roundF f rnd s m e st = r at *
  have hbey := hi.beyond_iff hf
  unfold Rounded
  intro two b n sign away beyond tiny w
  have hneg : (if s = true then -1 else 1) * a < 0 ↔ s = true := by cases s <;> simp [ha, ha.le]
  have hpos : 0 < (if s = true then -1 else 1) * a ↔ s = false := by cases s <;> simp [ha, ha.le]
  have habs : |(if s = true then -1 else 1) * a| = a := by cases s <;> simp [abs_of_pos ha]
  have haway : away ↔ rnd.away s := by simp only [away, Rnd.away, hneg, hpos]
  have hbeyond : beyond ↔ f.maxCode < c := by
    rw [hbey]
    simp only [beyond, haway, habs]
    rfl
  have htiny : tiny ↔ f.Tiny rnd s a := by
    simp only [tiny, haway, habs]
    rfl
  have hsign : ∀ {c}, c < 2 ^ (f.eb + f.mb) → sign (f.signBit s + c) := fun hc => (signBit_le_iff s hc).trans hneg.symm
  have hinf := hf.infCode_lt
  have hmax := hf.maxCode_succ
  rw [hbeyond, htiny]
  refine ⟨fun ho => ?_, fun ho => ?_⟩
  · rw [hov ho]
    by_cases hfar : rnd = .rne ∨ rnd.away s
    · rw [overflowCode_far hf hfar, if_pos (by rwa [haway])]
      refine ⟨hsign hinf, ?_, rfl⟩
      have : (f.signBit s + f.infCode) % 2 ^ (f.eb + f.mb) = f.infCode := by
        cases s <;> simp [FFmt.signBit, Nat.mod_eq_of_lt hinf]
      simp only [this]
      rfl
    · rw [overflowCode_near hr hfar, if_neg (by rwa [haway])]
      have hlt : f.maxCode < 2 ^ (f.eb + f.mb) := by omega
      refine ⟨hsign hlt, ?_, rfl⟩
      have : (f.signBit s + f.maxCode) % 2 ^ (f.eb + f.mb) = f.maxCode := by
        cases s <;> simp [FFmt.signBit, Nat.mod_eq_of_lt hlt]
      simp only [this]
      exact hmax
  · obtain ⟨hr1, hexact, ht, hnt⟩ := hfin ho
    have hc : c < 2 ^ (f.eb + f.mb) := by omega
    have hw : w = (if s = true then -1 else 1) * (f.mag c : ℝ) := by
      simp only [w, hr1, valueIn_signBit_add s hc]
      cases s <;> simp
    have hwa : w = (if s = true then -1 else 1) * a ↔ (f.mag c : ℝ) = a := by
      rw [hw]
      cases s <;> simp
    have hsub : ∀ y : ℝ, |(if s = true then -1 else 1) * y - (if s = true then -1 else 1) * a| = |y - a| := fun y => by
      cases s
      · simp
      · simp [neg_add_eq_sub, abs_sub_comm]
    have hcn : (0 : ℝ) ≤ f.mag c := by exact_mod_cast f.mag_nonneg c
    have hwabs : |w| = f.mag c := by
      rw [hw]
      cases s <;> simp [abs_of_nonneg hcn]
    refine ⟨?_, ?_, fun x hx => ?_, ?_, ?_, ?_⟩
    · rw [hr1]
      exact finiteIn_signBit_add hf s (not_lt.mp ho)
    · rw [hr1]
      exact hsign hc
    · obtain ⟨y, hz, hy⟩ := FiniteIn.exists_mag s hx
      intro z
      change z = _ at hz
      have hzabs : |z| = |y| := by
        rw [hz]
        cases s <;> simp
      have hyj : ∃ j, |z| = f.mag j := by
        obtain ⟨j, rfl | rfl⟩ := hy
        · exact ⟨j, by rw [hzabs, abs_of_nonneg (by exact_mod_cast f.mag_nonneg j)]⟩
        · exact ⟨j, by rw [hzabs, abs_neg, abs_of_nonneg (by exact_mod_cast f.mag_nonneg j)]⟩
      obtain ⟨j, hj⟩ := hyj
      rw [haway, habs, hwabs, hj]
      refine ⟨?_, fun hwy => ?_, fun hn hwy => ?_⟩
      · rintro rfl
        obtain ⟨h1, h2⟩ := FFmt.Image.nearest_signed hi ha hy
        rw [hw, hz, hsub, hsub]
        refine ⟨h1, fun he hne => ?_⟩
        have hev : f.signBit s % 2 = 0 := by
          have hmb := hf.mb_pos
          obtain ⟨n, hn⟩ : ∃ n, f.eb + f.mb = n + 1 := ⟨f.eb + f.mb - 1, by omega⟩
          cases s <;> simp [FFmt.signBit, hn, pow_succ]
        have := h2 he fun hyc => hne (by rw [hyc])
        rw [hr1]
        omega
      · exact ⟨(hi.away hwy).1, (hi.away hwy).2 j⟩
      · exact ⟨(hi.toward hwy hn).1, (hi.toward hwy hn).2 j⟩
    · exact fun hv => hexact (hwa.mp hv)
    · exact fun hv => ht (mt hwa.mpr hv)
    · exact fun hv => hnt (mt hwa.mpr hv)

end

end Sys2Proof.Machine
end

/-! PROOFS. O4, O7, O17: exact values, sums and products, and the finite images. -/

section
namespace Sys2Proof.Machine

/-! ### Exact values -/

/-- A value is finite. -/
def IsFin (v : FVal) : Prop := ∃ s m e, v = .fin s m e

theorem finValue_fin (s : Bool) (m : ℕ) (e : ℤ) : finValue (.fin s m e) = (if s = true then -1 else 1) * ((m : ℚ) * (2 : ℚ) ^ e) := by
  rw [finValue, mul_assoc]

theorem finValue_eq_zero {s : Bool} {m : ℕ} {e : ℤ} : finValue (.fin s m e) = 0 ↔ m = 0 := by
  rw [finValue_fin]
  cases s <;> simp [zpow_ne_zero]

theorem abs_finValue (s : Bool) (m : ℕ) (e : ℤ) : |finValue (.fin s m e)| = (m : ℚ) * (2 : ℚ) ^ e := by
  have h : (0 : ℚ) ≤ (m : ℚ) * (2 : ℚ) ^ e := by positivity
  rw [finValue_fin]
  cases s <;> simp [abs_of_nonneg h]

theorem finValue_neg (v : FVal) : finValue v.neg = -finValue v := by
  cases v with
  | fin s m e => rw [FVal.neg, finValue_fin, finValue_fin]; cases s <;> simp
  | _ => simp [FVal.neg, finValue]

theorem finValue_mul {a b : FVal} (ha : IsFin a) (hb : IsFin b) : IsFin (a.mul b) ∧ finValue (a.mul b) = finValue a * finValue b := by
  obtain ⟨s, m, e, rfl⟩ := ha
  obtain ⟨t, n, k, rfl⟩ := hb
  refine ⟨⟨_, _, _, rfl⟩, ?_⟩
  rw [FVal.mul, finValue_fin, finValue_fin, finValue_fin, zpow_add₀ two_ne_zero]
  cases s <;> cases t <;> push_cast <;> simp <;> ring

theorem isZero_iff {v : FVal} (hv : IsFin v) : v.isZero = true ↔ finValue v = 0 := by
  obtain ⟨s, m, e, rfl⟩ := hv
  rw [finValue_eq_zero, FVal.isZero, decide_eq_true_eq]

theorem minExp_le (ts : List FVal) : ∀ t ∈ ts, ∀ s m e, t = .fin s m e → m ≠ 0 → minExp ts ≤ e := by
  have key : ∀ (ts : List FVal) (a : ℤ), (ts.foldl (fun a t => match t with | .fin _ m e => if m = 0 then a else min a e | _ => a) a) ≤ a
      ∧ ∀ t ∈ ts, ∀ s m e, t = .fin s m e → m ≠ 0 →
        (ts.foldl (fun a t => match t with | .fin _ m e => if m = 0 then a else min a e | _ => a) a) ≤ e := by
    intro ts
    induction ts with
    | nil => exact fun a => ⟨le_rfl, nofun⟩
    | cons t ts ih =>
      intro a
      rw [List.foldl_cons]
      refine ⟨(ih _).1.trans ?_, fun x hx s m e he hm => ?_⟩
      · split
        · split
          · exact le_rfl
          · exact min_le_left ..
        · exact le_rfl
      · obtain rfl | hx := List.mem_cons.mp hx
        · subst he
          refine (ih _).1.trans ?_
          dsimp only
          rw [if_neg hm]
          exact min_le_right ..
        · exact (ih _).2 x hx s m e he hm
  exact fun t ht => (key ts 1000).2 t ht

/-- The sum in units is the exact sum, where the unit divides every term. -/
theorem sumAt_eq (e : ℤ) (ts : List FVal) (h : ∀ t ∈ ts, ∀ s m k, t = .fin s m k → m ≠ 0 → e ≤ k) :
    (sumAt e ts : ℚ) * (2 : ℚ) ^ e = (ts.map finValue).sum := by
  have key : ∀ (ts : List FVal) (a : ℤ), (∀ t ∈ ts, ∀ s m k, t = .fin s m k → m ≠ 0 → e ≤ k) →
      ((ts.foldl (fun a t =>
        match t with
        | .fin s m k => if m = 0 then a else a + (if s then -1 else 1) * ((m * 2 ^ (k - e).toNat : Nat) : Int)
        | _ => a) a : ℤ) : ℚ) * (2 : ℚ) ^ e = a * (2 : ℚ) ^ e + (ts.map finValue).sum := by
    intro ts
    induction ts with
    | nil => simp
    | cons t ts ih =>
      intro a h
      rw [List.foldl_cons, ih _ fun x hx => h x (List.mem_cons_of_mem _ hx), List.map_cons, List.sum_cons, ← add_assoc]
      congr 1
      cases t with
      | nan g => simp [finValue]
      | inf s => simp [finValue]
      | fin s m k =>
        dsimp only
        split
        · next hm => rw [hm, finValue_fin]; simp
        · next hm =>
          have hk := h _ (List.mem_cons_self ..) s m k rfl hm
          have hz : (2 : ℚ) ^ (k - e).toNat * (2 : ℚ) ^ e = (2 : ℚ) ^ k := by
            rw [← zpow_natCast, Int.toNat_of_nonneg (by omega), ← zpow_add₀ two_ne_zero, sub_add_cancel]
          rw [finValue_fin, ← hz]
          cases s <;> push_cast <;> simp <;> ring
  have := key ts 0 h
  rwa [Int.cast_zero, zero_mul, zero_add] at this

theorem sumAt_minExp (ts : List FVal) : (sumAt (minExp ts) ts : ℚ) * (2 : ℚ) ^ minExp ts = (ts.map finValue).sum :=
  sumAt_eq _ ts (minExp_le ts)

/-- A sum of finite values is its exact sum, rounded once; a sum of zero has its own rule for the sign. -/
theorem sumRound_fin {f : FFmt} {rnd : Rnd} {ts : List FVal} (h : ∀ t ∈ ts, IsFin t) :
    sumRound f rnd ts = if (ts.map finValue).sum = 0 then zeroRes f (zeroSumSign rnd ts)
      else roundF f rnd (sumAt (minExp ts) ts < 0) (sumAt (minExp ts) ts).natAbs (minExp ts) false := by
  have hn : (ts.any (·.isNan)) = false := List.any_eq_false.mpr fun t ht => by
    obtain ⟨s, m, e, rfl⟩ := h t ht
    simp [FVal.isNan]
  have hi : ∀ p : FVal → Bool, (ts.any fun t => t.isInf && p t) = false := fun p => List.any_eq_false.mpr fun t ht => by
    obtain ⟨s, m, e, rfl⟩ := h t ht
    simp [FVal.isInf]
  have hz : (ts.map finValue).sum = 0 ↔ sumAt (minExp ts) ts = 0 := by
    rw [← sumAt_minExp, mul_eq_zero, or_iff_left (by positivity), Int.cast_eq_zero]
  rw [sumRound, hn, hi, hi]
  simp only [Bool.false_eq_true, if_false, hz]

/-- An integer times a power of two, rounded once. -/
theorem roundF_int {f : FFmt} {rnd : Rnd} (hf : f.Ieee) (hr : rnd.plain) {v : ℤ} (hv : v ≠ 0) (e : ℤ) :
    Rounded f rnd ((v : ℝ) * (2 : ℝ) ^ e) (roundF f rnd (v < 0) v.natAbs e false) := by
  have h := roundF_rounded hf hr (s := v < 0) (Int.natAbs_ne_zero.mpr hv) (Exactly.of_eq v.natAbs e) nofun
  convert h using 1
  rw [← mul_assoc, Nat.cast_natAbs]
  congr 1
  obtain hneg | hpos := lt_or_gt_of_ne hv
  · simp [hneg, abs_of_neg hneg]
  · simp [hpos.le, abs_of_pos hpos]

theorem sumRound_rounded {f : FFmt} {rnd : Rnd} (hf : f.Ieee) (hr : rnd.plain) {ts : List FVal} (h : ∀ t ∈ ts, IsFin t)
    (hv : (ts.map finValue).sum ≠ 0) : Rounded f rnd ((ts.map finValue).sum : ℚ) (sumRound f rnd ts) := by
  rw [sumRound_fin h, if_neg hv]
  have hs := sumAt_minExp ts
  have hne : sumAt (minExp ts) ts ≠ 0 := fun h0 => hv (by rw [← hs, h0]; simp)
  have := roundF_int hf hr hne (minExp ts)
  rw [← hs]
  push_cast
  exact this

/-- A finite value that is not zero, rounded once. -/
theorem convF_rounded {f : FFmt} {rnd : Rnd} (hf : f.Ieee) (hr : rnd.plain) {v : FVal} (h : IsFin v) (hv : finValue v ≠ 0) :
    Rounded f rnd (finValue v) (convF f rnd v) := by
  obtain ⟨s, m, e, rfl⟩ := h
  rw [ne_eq, finValue_eq_zero] at hv
  rw [convF, if_neg hv, finValue_fin]
  have := roundF_rounded hf hr (s := s) hv (Exactly.of_eq m e) nofun
  push_cast
  cases s <;> simpa using this

/-! ### Finite images -/

section
variable {f : FFmt} {x : ℕ}

/-- Images below the infinities are finite (02 R24). -/
theorem decodeF_of_le (hf : f.Ieee) (hx : x % 2 ^ (f.eb + f.mb) ≤ f.maxCode) :
    ∃ m e, decodeF f x = .fin (x.testBit (f.eb + f.mb)) m e ∧ (m : ℚ) * (2 : ℚ) ^ e = f.mag (x % 2 ^ (f.eb + f.mb)) := by
  have htop : ¬x % 2 ^ (f.eb + f.mb) / 2 ^ f.mb = 2 ^ f.eb - 1 := by
    have := hf.maxCode_succ
    rw [exp_eq_top]
    omega
  have hP := Nat.two_pow_pos f.mb
  unfold decodeF
  rw [exp_eq, frac_eq]
  generalize x % 2 ^ (f.eb + f.mb) = c at *
  simp only [htop, decide_false, Bool.false_and, Bool.false_eq_true, if_false]
  obtain hc | hc := lt_or_ge c (2 ^ f.mb)
  · rw [Nat.div_eq_of_lt hc, Nat.mod_eq_of_lt hc, if_pos rfl]
    exact ⟨_, _, rfl, by rw [FFmt.mag, codeMag_of_lt hc, FFmt.qmin]⟩
  · obtain ⟨k, j, hj, rfl⟩ := exists_normal hc
    rw [mul_comm (k + 1), Nat.mul_add_div hP, Nat.div_eq_of_lt hj, Nat.mul_add_mod, Nat.mod_eq_of_lt hj, if_neg (by omega)]
    refine ⟨_, _, rfl, ?_⟩
    rw [FFmt.mag, mul_comm (2 ^ f.mb), codeMag_normal k hj, FFmt.qmin]
    push_cast
    rw [mul_assoc, ← zpow_natCast (_ : ℚ) k, ← zpow_add₀ two_ne_zero, add_comm (j : ℚ)]
    congr 2
    ring

theorem decodeF_infCode (hf : f.Ieee) (hx : x % 2 ^ (f.eb + f.mb) = f.infCode) : decodeF f x = .inf (x.testBit (f.eb + f.mb)) := by
  have hm : x % 2 ^ f.mb = 0 := by rw [frac_eq, hx, FFmt.infCode, Nat.mul_mod_left]
  have he : x / 2 ^ f.mb % 2 ^ f.eb = 2 ^ f.eb - 1 := by rw [exp_eq, exp_eq_top, hx]
  simp [decodeF, he, hm, hf.inf]

theorem decodeF_nan (hf : f.Ieee) (hx : f.infCode < x % 2 ^ (f.eb + f.mb)) :
    decodeF f x = .nan (!(x % 2 ^ f.mb).testBit (f.mb - 1)) := by
  have he : x / 2 ^ f.mb % 2 ^ f.eb = 2 ^ f.eb - 1 := by
    rw [exp_eq, exp_eq_top]
    exact hx.le
  have hm : x % 2 ^ f.mb ≠ 0 := fun h => by
    have h1 := Nat.div_add_mod (x % 2 ^ (f.eb + f.mb)) (2 ^ f.mb)
    rw [← exp_eq, ← frac_eq, he, h, mul_comm] at h1
    rw [FFmt.infCode] at hx
    omega
  simp [decodeF, he, hm, hf.inf]

/-- A finite image is a finite value, of the value that its fields give. -/
theorem FiniteIn.decode (hf : f.Ieee) (hx : FiniteIn f x) : IsFin (decodeF f x) ∧ finValue (decodeF f x) = valueIn f x := by
  rw [finiteIn_iff hf] at hx
  obtain ⟨hlt, hle⟩ := hx
  obtain ⟨m, e, h, hmag⟩ := decodeF_of_le hf hle
  refine ⟨⟨_, _, _, h⟩, ?_⟩
  rw [h, finValue_fin, hmag, valueIn_eq]
  congr 1
  have hd : x / 2 ^ (f.eb + f.mb) < 2 := by
    rw [Nat.div_lt_iff_lt_mul (Nat.two_pow_pos _), ← pow_succ']
    exact hlt
  rw [Nat.testBit_eq_decide_div_mod_eq]
  interval_cases x / 2 ^ (f.eb + f.mb) <;> simp

end

end Sys2Proof.Machine
end

/-! PROOFS. O17: the operations of FP32 and the conversions round once (02 R26, R34, R36, R37). -/

section
namespace Sys2Proof.Machine

/-! ### The operations of FP32 on finite values, with FZ off -/

@[simp] theorem flush32_false (r : FRes) : flush32 false r = r := rfl

@[simp] theorem read32_false (x : ℕ) : read32 false x = decodeF fmtFp32 x := by
  unfold read32
  split <;> simp_all

section
variable {rnd : Rnd} {a b c : ℕ}

theorem fAdd_rounded (hr : rnd.plain) (ha : FiniteIn fmtFp32 a) (hb : FiniteIn fmtFp32 b)
    (h : valueIn fmtFp32 a + valueIn fmtFp32 b ≠ 0) :
    Rounded fmtFp32 rnd (valueIn fmtFp32 a + valueIn fmtFp32 b : ℚ) (fAdd false rnd a b) := by
  obtain ⟨fa, va⟩ := ha.decode fmtFp32_ieee
  obtain ⟨fb, vb⟩ := hb.decode fmtFp32_ieee
  have hs : ([decodeF fmtFp32 a, decodeF fmtFp32 b].map finValue).sum = valueIn fmtFp32 a + valueIn fmtFp32 b := by simp [va, vb]
  rw [← hs] at h ⊢
  simpa [fAdd] using sumRound_rounded fmtFp32_ieee hr (by simp [fa, fb]) h

theorem IsFin.neg {v : FVal} (h : IsFin v) : IsFin v.neg := by
  obtain ⟨s, m, e, rfl⟩ := h
  exact ⟨_, _, _, rfl⟩

theorem fSub_rounded (hr : rnd.plain) (ha : FiniteIn fmtFp32 a) (hb : FiniteIn fmtFp32 b)
    (h : valueIn fmtFp32 a - valueIn fmtFp32 b ≠ 0) :
    Rounded fmtFp32 rnd (valueIn fmtFp32 a - valueIn fmtFp32 b : ℚ) (fSub false rnd a b) := by
  obtain ⟨fa, va⟩ := ha.decode fmtFp32_ieee
  obtain ⟨fb, vb⟩ := hb.decode fmtFp32_ieee
  have hs : ([decodeF fmtFp32 a, (decodeF fmtFp32 b).neg].map finValue).sum = valueIn fmtFp32 a - valueIn fmtFp32 b := by
    simp [va, vb, finValue_neg, sub_eq_add_neg]
  rw [← hs] at h ⊢
  simpa [fSub] using sumRound_rounded fmtFp32_ieee hr (by simp [fa, fb.neg]) h

theorem fMul_rounded (hr : rnd.plain) (ha : FiniteIn fmtFp32 a) (hb : FiniteIn fmtFp32 b)
    (h : valueIn fmtFp32 a * valueIn fmtFp32 b ≠ 0) :
    Rounded fmtFp32 rnd (valueIn fmtFp32 a * valueIn fmtFp32 b : ℚ) (fMul false rnd a b) := by
  obtain ⟨fa, va⟩ := ha.decode fmtFp32_ieee
  obtain ⟨fb, vb⟩ := hb.decode fmtFp32_ieee
  obtain ⟨fm, vm⟩ := finValue_mul fa fb
  rw [va, vb] at vm
  rw [← vm] at h ⊢
  simpa [fMul, roundV] using convF_rounded fmtFp32_ieee hr fm h

theorem fFma_rounded (hr : rnd.plain) (ha : FiniteIn fmtFp32 a) (hb : FiniteIn fmtFp32 b) (hc : FiniteIn fmtFp32 c)
    (h : valueIn fmtFp32 a * valueIn fmtFp32 b + valueIn fmtFp32 c ≠ 0) :
    Rounded fmtFp32 rnd (valueIn fmtFp32 a * valueIn fmtFp32 b + valueIn fmtFp32 c : ℚ) (fFma false rnd a b c) := by
  obtain ⟨fa, va⟩ := ha.decode fmtFp32_ieee
  obtain ⟨fb, vb⟩ := hb.decode fmtFp32_ieee
  obtain ⟨fc, vc⟩ := hc.decode fmtFp32_ieee
  obtain ⟨fm, vm⟩ := finValue_mul fa fb
  have hs : ([(decodeF fmtFp32 a).mul (decodeF fmtFp32 b), decodeF fmtFp32 c].map finValue).sum
      = valueIn fmtFp32 a * valueIn fmtFp32 b + valueIn fmtFp32 c := by simp [va, vb, vc, vm]
  rw [← hs] at h ⊢
  simpa [fFma] using sumRound_rounded fmtFp32_ieee hr (by simp [fm, fc]) h

/-! ### Quotients and roots -/

/-- A quotient in units, with its rest as the sticky bit. -/
theorem exactly_div (n d : ℕ) (e : ℤ) (hd : d ≠ 0) : Exactly (n / d) e (n % d != 0) ((n : ℝ) / d * (2 : ℝ) ^ e) := by
  have he : (0 : ℝ) < (2 : ℝ) ^ e := by positivity
  have hd0 : (0 : ℝ) < d := by positivity
  have hn : ((n / d : ℕ) : ℝ) * d + (n % d : ℕ) = n := by exact_mod_cast Nat.div_add_mod' n d
  have hlt : ((n % d : ℕ) : ℝ) < d := by exact_mod_cast Nat.mod_lt n (Nat.pos_of_ne_zero hd)
  refine ⟨mul_le_mul_of_nonneg_right ?_ he.le, mul_lt_mul_of_pos_right ?_ he, ?_⟩
  · rw [le_div_iff₀ hd0]
    linarith [Nat.cast_nonneg (α := ℝ) (n % d)]
  · rw [div_lt_iff₀ hd0, add_one_mul]
    linarith
  · rw [bne_iff_ne, ne_eq, ne_eq, not_iff_not, mul_left_inj' he.ne', eq_div_iff hd0.ne', ← hn, left_eq_add, Nat.cast_eq_zero]

theorem divRes_rounded (hr : rnd.plain) (s : Bool) {m n : ℕ} (e k : ℤ) (hm : m ≠ 0) (hn : n ≠ 0) (hbound : n ≤ 2 ^ 24) :
    Rounded fmtFp32 rnd ((if s = true then -1 else 1) * ((m : ℝ) * (2 : ℝ) ^ e / (n * (2 : ℝ) ^ k))) (divRes rnd s m e n k) := by
  have hbig : 2 ^ (fmtFp32.mb + 1) ≤ m * 2 ^ 80 / n := by
    rw [Nat.le_div_iff_mul_le (Nat.pos_of_ne_zero hn)]
    calc 2 ^ (fmtFp32.mb + 1) * n ≤ 2 ^ (fmtFp32.mb + 1) * 2 ^ 24 := Nat.mul_le_mul_left _ hbound
      _ ≤ 1 * 2 ^ 80 := by decide
      _ ≤ m * 2 ^ 80 := Nat.mul_le_mul_right _ (Nat.one_le_iff_ne_zero.mpr hm)
  have h := roundF_rounded fmtFp32_ieee hr (s := s) (by have := Nat.two_pow_pos (fmtFp32.mb + 1); omega)
    (exactly_div (m * 2 ^ 80) n (e - k - 80) hn) fun _ => hbig
  rw [divRes]
  convert h using 2
  have h80 : (2 : ℝ) ^ (e - k - 80) = (2 : ℝ) ^ e / (2 : ℝ) ^ k / 2 ^ 80 := by
    rw [zpow_sub₀ two_ne_zero, zpow_sub₀ two_ne_zero]
    rfl
  rw [h80, Nat.cast_mul, Nat.cast_pow, Nat.cast_ofNat]
  field_simp

/-- The significand of a finite image. -/
theorem decodeF_fin_lt {f : FFmt} {x : ℕ} {s : Bool} {m : ℕ} {e : ℤ} (h : decodeF f x = .fin s m e) : m < 2 * 2 ^ f.mb := by
  have hm : x % 2 ^ f.mb < 2 ^ f.mb := Nat.mod_lt _ (Nat.two_pow_pos _)
  unfold decodeF at h
  dsimp only at h
  split_ifs at h <;> simp only [FVal.fin.injEq] at h <;> omega

theorem fDiv_rounded (hr : rnd.plain) (ha : FiniteIn fmtFp32 a) (hb : FiniteIn fmtFp32 b)
    (h0 : valueIn fmtFp32 a ≠ 0) (h1 : valueIn fmtFp32 b ≠ 0) :
    Rounded fmtFp32 rnd (valueIn fmtFp32 a / valueIn fmtFp32 b : ℚ) (fDiv false rnd a b) := by
  obtain ⟨⟨s, m, e, fa⟩, va⟩ := ha.decode fmtFp32_ieee
  obtain ⟨⟨t, n, k, fb⟩, vb⟩ := hb.decode fmtFp32_ieee
  rw [← va, fa, ne_eq, finValue_eq_zero] at h0
  rw [← vb, fb, ne_eq, finValue_eq_zero] at h1
  have h := divRes_rounded hr (s != t) e k h0 h1 (decodeF_fin_lt fb).le
  have hd : fDiv false rnd a b = divRes rnd (s != t) m e n k := by simp [fDiv, fa, fb, fDivV, h0, h1]
  rw [hd]
  convert h using 1
  rw [← va, ← vb, fa, fb, finValue_fin, finValue_fin]
  push_cast
  cases s <;> cases t <;> simp [neg_div, div_neg]

theorem isqrtAux_spec (n : ℕ) : ∀ k r, r * r ≤ n → n < (r + 2 ^ k) * (r + 2 ^ k) →
    isqrtAux k n r * isqrtAux k n r ≤ n ∧ n < (isqrtAux k n r + 1) * (isqrtAux k n r + 1)
  | 0, r, h1, h2 => ⟨h1, h2⟩
  | k + 1, r, h1, h2 => by
    rw [isqrtAux]
    split
    · next hc => exact isqrtAux_spec n k _ hc (by rw [pow_succ] at h2; convert h2 using 2 <;> ring)
    · next hc => exact isqrtAux_spec n k _ h1 (not_le.mp hc)

theorem isqrt_eq (n : ℕ) : isqrt n = Nat.sqrt n := by
  have hn : n < 2 ^ (n.log2 / 2 + 1) * 2 ^ (n.log2 / 2 + 1) := by
    rw [← pow_add]
    exact Nat.lt_log2_self.trans_le (Nat.pow_le_pow_right two_pos (by omega))
  obtain ⟨h1, h2⟩ := isqrtAux_spec n (n.log2 / 2 + 1) 0 (by simp) (by simpa using hn)
  exact Nat.eq_sqrt.mpr ⟨h1, h2⟩

/-- A root in units, with the sticky bit where it is not whole. -/
theorem exactly_sqrt (n : ℕ) (e : ℤ) : Exactly (isqrt n) e (isqrt n * isqrt n != n) (Real.sqrt n * (2 : ℝ) ^ e) := by
  have he : (0 : ℝ) < (2 : ℝ) ^ e := by positivity
  rw [isqrt_eq]
  refine ⟨mul_le_mul_of_nonneg_right ?_ he.le, mul_lt_mul_of_pos_right ?_ he, ?_⟩
  · exact Real.nat_sqrt_le_real_sqrt
  · exact_mod_cast Real.real_sqrt_lt_nat_sqrt_succ
  · rw [bne_iff_ne, ne_eq, ne_eq, not_iff_not, mul_left_inj' he.ne', eq_comm (b := Real.sqrt n), Real.sqrt_eq_iff_mul_self_eq (by positivity) (by positivity), eq_comm]
    norm_cast

theorem fSqrt_rounded (hr : rnd.plain) (ha : FiniteIn fmtFp32 a) (h0 : 0 < valueIn fmtFp32 a) :
    Rounded fmtFp32 rnd (Real.sqrt (valueIn fmtFp32 a : ℚ)) (fSqrt false rnd a) := by
  obtain ⟨⟨s, m, e, fa⟩, va⟩ := ha.decode fmtFp32_ieee
  rw [← va, fa, finValue_fin] at h0 ⊢
  have hs : s = false := by
    cases s
    · rfl
    · simp at h0
      linarith [show (0 : ℚ) ≤ m * (2 : ℚ) ^ e by positivity]
  subst hs
  have hm : m ≠ 0 := fun h => by simp [h] at h0
  obtain ⟨m', k, hm', hk, hf⟩ : ∃ (m' : ℕ) (k : ℤ), m' ≠ 0 ∧ (m : ℝ) * (2 : ℝ) ^ e = m' * ((2 : ℝ) ^ k * (2 : ℝ) ^ k)
      ∧ fSqrt false rnd a = roundF fmtFp32 rnd false (isqrt (m' * 2 ^ 120)) (k - 60)
        (isqrt (m' * 2 ^ 120) * isqrt (m' * 2 ^ 120) != m' * 2 ^ 120) := by
    by_cases he : e % 2 = 0
    · refine ⟨m, e / 2, hm, ?_, by simp [fSqrt, fa, fSqrtV, hm, he]⟩
      rw [← zpow_add₀ two_ne_zero, show e / 2 + e / 2 = e by omega]
    · refine ⟨2 * m, (e - 1) / 2, by omega, ?_, by simp [fSqrt, fa, fSqrtV, hm, he]⟩
      rw [← zpow_add₀ two_ne_zero, show (e - 1) / 2 + (e - 1) / 2 = e - 1 by omega, zpow_sub_one₀ two_ne_zero]
      push_cast
      field_simp
  have hbig : 2 ^ (fmtFp32.mb + 1) ≤ isqrt (m' * 2 ^ 120) := by
    rw [isqrt_eq, Nat.le_sqrt]
    calc 2 ^ (fmtFp32.mb + 1) * 2 ^ (fmtFp32.mb + 1) ≤ 1 * 2 ^ 120 := by decide
      _ ≤ m' * 2 ^ 120 := Nat.mul_le_mul_right _ (Nat.one_le_iff_ne_zero.mpr hm')
  have h := roundF_rounded fmtFp32_ieee hr (s := false) (by have := Nat.two_pow_pos (fmtFp32.mb + 1); omega)
    (exactly_sqrt (m' * 2 ^ 120) (k - 60)) fun _ => hbig
  rw [hf]
  convert h using 1
  have h60 : (2 : ℝ) ^ (k - 60) = (2 : ℝ) ^ k / 2 ^ 60 := by
    rw [zpow_sub₀ two_ne_zero]
    rfl
  have hz : (0 : ℝ) < (2 : ℝ) ^ k := by positivity
  have hv : ((((if false = true then -1 else 1) : ℚ) * ((m : ℚ) * (2 : ℚ) ^ e) : ℚ) : ℝ) = m * (2 : ℝ) ^ e := by
    push_cast
    simp
  rw [hv, if_neg Bool.false_ne_true, one_mul, hk, Real.sqrt_mul (by positivity), Real.sqrt_mul_self hz.le, Nat.cast_mul,
    Nat.cast_pow, Nat.cast_ofNat, Real.sqrt_mul (by positivity), h60, show (2 : ℝ) ^ 120 = (2 ^ 60) ^ 2 by rw [← pow_mul],
    Real.sqrt_sq (by positivity)]
  field_simp

/-! ### Scaling -/

/-- A magnitude beyond every finite one rounds as every other does. -/
theorem roundF_of_large {f : FFmt} (hf : f.Ieee) (hr : rnd.plain) {s : Bool} {m : ℕ} {e : ℤ} (hm : m ≠ 0)
    (h : (2 : ℝ) ^ ((f.bias : ℤ) + 1) ≤ m * (2 : ℝ) ^ e) : roundF f rnd s m e false = (overflowCode f rnd s, fOF ||| fNX) := by
  obtain ⟨k, c, hi, hov, -⟩ := roundF_image (s := s) hf.mb_pos hr hm (Exactly.of_eq m e) nofun
  exact hov ((hi.beyond_iff hf).mpr (.inr (.inr h)))

/-- A magnitude below half the smallest positive one rounds as every other does. -/
theorem roundF_of_small {f : FFmt} (hf : f.Ieee) (hr : rnd.plain) {s : Bool} {m : ℕ} {e : ℤ} (hm : m ≠ 0)
    (h : (m : ℝ) * (2 : ℝ) ^ e < (2 : ℝ) ^ (f.qmin - 1)) :
    (rnd.away s → roundF f rnd s m e false = (f.signBit s + 1, fUF ||| fNX))
      ∧ (¬rnd.away s → roundF f rnd s m e false = (f.signBit s, fUF ||| fNX)) := by
  obtain ⟨k, c, hi, -, hfin⟩ := roundF_image (s := s) hf.mb_pos hr hm (Exactly.of_eq m e) nofun
  have ha := (Exactly.of_eq m e).pos hm
  generalize (m : ℝ) * (2 : ℝ) ^ e = a at *
  have hu : (0 : ℝ) < (2 : ℝ) ^ (f.qmin - 1) := by positivity
  have hstep : (f.mag 1 : ℝ) = 2 * (2 : ℝ) ^ (f.qmin - 1) := by
    rw [FFmt.mag, codeMag_of_lt (Nat.one_lt_two_pow hf.mb_pos.ne'), ← zpow_one_add₀ two_ne_zero]
    push_cast
    rw [one_mul, add_sub_cancel]
  have hk : k = 0 := by
    have hlt := f.cast_mag_strictMono.lt_iff_lt.mp (hi.lo.trans_lt (show a < (f.mag 1 : ℝ) by linarith))
    omega
  subst hk
  have hx : (a - f.mag 0) / (f.mag (0 + 1) - f.mag 0) ≠ 0 ∧ (a - f.mag 0) / (f.mag (0 + 1) - f.mag 0) < 1 / 2 := by
    rw [FFmt.mag_zero, Rat.cast_zero, sub_zero, sub_zero, zero_add, hstep, div_lt_iff₀ (by positivity)]
    exact ⟨by positivity, by linarith⟩
  have hmax : 1 ≤ f.maxCode := by
    have := hf.maxCode_succ
    have := hf.infCode_even
    have := hf.infCode_pos
    omega
  have hT : f.Tiny rnd s a := by
    have h1 : (2 : ℝ) ^ (1 - (f.bias : ℤ)) = 2 * (2 : ℝ) ^ (-(f.bias : ℤ)) := by
      rw [← zpow_one_add₀ two_ne_zero]
      rfl
    have h2 : (2 : ℝ) ^ (-(f.bias : ℤ) - f.mb) ≤ (2 : ℝ) ^ (-(f.bias : ℤ)) := zpow_le_zpow_right₀ one_le_two (by omega)
    have h3 : (2 : ℝ) ^ (-1 - (f.bias : ℤ) - f.mb) ≤ (2 : ℝ) ^ (-(f.bias : ℤ)) := zpow_le_zpow_right₀ one_le_two (by omega)
    have h4 : (2 : ℝ) ^ (f.qmin - 1) = (2 : ℝ) ^ (-(f.bias : ℤ) - f.mb) := by
      congr 1
      unfold FFmt.qmin
      ring
    refine ⟨?_, fun _ => ?_, fun _ => ?_⟩ <;> linarith
  have hc : c ≤ 1 := by have := hi.eq_or; omega
  have hne : (f.mag c : ℝ) ≠ a := by
    intro he
    rw [hi.exact_iff.mp he, FFmt.mag_zero, Rat.cast_zero] at ha
    exact lt_irrefl _ ha
  obtain ⟨h1, -, h2, -⟩ := hfin (by omega)
  have hres : roundF f rnd s m e false = (f.signBit s + c, fUF ||| fNX) := Prod.ext h1 (h2 hne hT)
  rw [hres]
  refine ⟨fun hw => by rw [hi.up ((Rnd.up_of_away hw).mpr hx.1)], fun hw => ?_⟩
  rw [hi.down fun hu => ?_, add_zero]
  by_cases hn : rnd = .rne
  · subst hn
    obtain h | ⟨h, -⟩ := hu
    · linarith [hx.2]
    · linarith [hx.2]
  · exact Rnd.not_up_of_toward hw hn hu

/-- The exponent of a finite image. -/
theorem decodeF_fin_exp {f : FFmt} (hf : f.Ieee) {x : ℕ} {s : Bool} {m : ℕ} {e : ℤ} (h : decodeF f x = .fin s m e) :
    f.qmin ≤ e ∧ e ≤ f.bias + 1 - f.mb := by
  have hE : x / 2 ^ f.mb % 2 ^ f.eb < 2 ^ f.eb := Nat.mod_lt _ (Nat.two_pow_pos _)
  have hb := hf.bias_pos
  rw [hf.exps] at hE
  unfold decodeF at h
  unfold FFmt.qmin
  dsimp only at h
  rw [hf.exps] at h
  split_ifs at h <;> simp only [FVal.fin.injEq] at h <;> omega

theorem fScale_eq {s : Bool} {m : ℕ} {e k : ℤ} (fa : decodeF fmtFp32 a = .fin s m e) (hm : m ≠ 0) :
    fScale false rnd a k = roundF fmtFp32 rnd s m (e + max (-600) (min 600 k)) false := by
  simp [fScale, fa, roundV, convF, hm]

theorem fScale_rounded (hr : rnd.plain) (ha : FiniteIn fmtFp32 a) (h0 : valueIn fmtFp32 a ≠ 0) (k : ℤ) :
    Rounded fmtFp32 rnd ((valueIn fmtFp32 a : ℝ) * (2 : ℝ) ^ k) (fScale false rnd a k) := by
  obtain ⟨⟨s, m, e, fa⟩, va⟩ := ha.decode fmtFp32_ieee
  rw [← va, fa, ne_eq, finValue_eq_zero] at h0
  have hm1 : (1 : ℝ) ≤ m := by exact_mod_cast Nat.one_le_iff_ne_zero.mpr h0
  have hm2 : (m : ℝ) < 2 ^ 24 := by exact_mod_cast (show m < 2 ^ 24 from decodeF_fin_lt fa)
  obtain ⟨he1, he2⟩ := decodeF_fin_exp fmtFp32_ieee fa
  have he1 : -149 ≤ e := he1
  have he2 : e ≤ 105 := he2
  have hclamp : roundF fmtFp32 rnd s m (e + max (-600) (min 600 k)) false = roundF fmtFp32 rnd s m (e + k) false := by
    obtain hk | hk := lt_or_ge 600 k
    · have large : ∀ j : ℤ, 600 ≤ j → roundF fmtFp32 rnd s m (e + j) false = (overflowCode fmtFp32 rnd s, fOF ||| fNX) := by
        intro j hj
        refine roundF_of_large fmtFp32_ieee hr h0 ?_
        have : (2 : ℝ) ^ ((fmtFp32.bias : ℤ) + 1) ≤ (2 : ℝ) ^ (e + j) :=
          zpow_le_zpow_right₀ one_le_two (show (128 : ℤ) ≤ e + j by omega)
        exact this.trans (le_mul_of_one_le_left (by positivity) hm1)
      rw [large _ (by omega), large k hk.le]
    · obtain hk' | hk' := lt_or_ge k (-600)
      · have small : ∀ j : ℤ, j ≤ -600 → (m : ℝ) * (2 : ℝ) ^ (e + j) < (2 : ℝ) ^ (fmtFp32.qmin - 1) := by
          intro j hj
          have : (2 : ℝ) ^ (24 + (e + j)) ≤ (2 : ℝ) ^ (fmtFp32.qmin - 1) :=
            zpow_le_zpow_right₀ one_le_two (show 24 + (e + j) ≤ -150 by omega)
          rw [zpow_add₀ two_ne_zero] at this
          exact (mul_lt_mul_of_pos_right hm2 (by positivity)).trans_le this
        by_cases hw : rnd.away s
        · rw [(roundF_of_small fmtFp32_ieee hr h0 (small _ (by omega))).1 hw, (roundF_of_small fmtFp32_ieee hr h0 (small k hk'.le)).1 hw]
        · rw [(roundF_of_small fmtFp32_ieee hr h0 (small _ (by omega))).2 hw, (roundF_of_small fmtFp32_ieee hr h0 (small k hk'.le)).2 hw]
      · rw [min_eq_right hk, max_eq_right hk']
  rw [fScale_eq fa h0, hclamp]
  have h := roundF_rounded fmtFp32_ieee hr (s := s) h0 (Exactly.of_eq m (e + k)) nofun
  convert h using 1
  rw [← va, fa, finValue_fin, zpow_add₀ two_ne_zero]
  cases s <;> push_cast <;> simp <;> ring

end

/-! ### O17 -/

theorem plain_of_mem {rnd : Rnd} (h : rnd ∈ [Rnd.rne, .rz, .rp, .rm]) : rnd.plain := by
  simp only [List.mem_cons, List.not_mem_nil, or_false] at h
  obtain rfl | rfl | rfl | rfl := h <;> trivial

/-- A conversion between formats with infinities reads a finite image and rounds its value. -/
theorem convTo_rounded {f h : FFmt} {t u : BitVec 4} {rnd : Rnd} {x : ℕ} (hr : rnd.plain) (hf : f.Ieee) (hh : h.Ieee)
    (ht : ffmtOf t = some f) (hu : ffmtOf u = some h) (hx : FiniteIn h x) (h0 : valueIn h x ≠ 0) :
    Rounded f rnd (valueIn h x) (convTo t rnd (valueOf u x)) := by
  obtain ⟨fx, vx⟩ := hx.decode hh
  simp only [convTo, ht, valueOf, hu]
  rw [← vx] at h0 ⊢
  exact convF_rounded hf hr fx h0

/-- An image of value 0 is one of the two zeros. -/
theorem valueIn_eq_zero {f : FFmt} {x : ℕ} : valueIn f x = 0 ↔ x % 2 ^ (f.eb + f.mb) = 0 := by
  rw [valueIn_eq, mul_eq_zero, or_iff_right (pow_ne_zero _ (by norm_num)), ← f.mag_zero, f.mag_strictMono.injective.eq_iff]

/-- The zeros among the finite images. -/
theorem isZero_sign_iff {x : ℕ} (hx : FiniteIn fmtFp32 x) :
    (((decodeF fmtFp32 x).isZero && (decodeF fmtFp32 x).sign) = true ↔ x = 2 ^ 31)
      ∧ (((decodeF fmtFp32 x).isZero && !(decodeF fmtFp32 x).sign) = true ↔ x = 0) := by
  obtain ⟨fx, vx⟩ := hx.decode fmtFp32_ieee
  have hz : (decodeF fmtFp32 x).isZero = true ↔ x % 2 ^ 31 = 0 := by rw [isZero_iff fx, vx, valueIn_eq_zero]; rfl
  obtain ⟨hlt, hle⟩ := (finiteIn_iff fmtFp32_ieee).mp hx
  obtain ⟨m, e, hd, -⟩ := decodeF_of_le fmtFp32_ieee hle
  have hs : (decodeF fmtFp32 x).sign = decide (x / 2 ^ 31 % 2 = 1) := by
    rw [hd, ← Nat.testBit_eq_decide_div_mod_eq]
    rfl
  have hlt : x < 2 ^ 32 := hlt
  rw [Bool.and_eq_true, Bool.and_eq_true, hz, hs, Bool.not_eq_true', decide_eq_true_eq, decide_eq_false_iff_not]
  omega

/-- The sum of two values that cancel (02 R26). -/
theorem fAdd_zero {rnd : Rnd} {a b : ℕ} (ha : FiniteIn fmtFp32 a) (hb : FiniteIn fmtFp32 b)
    (h : valueIn fmtFp32 a + valueIn fmtFp32 b = 0) : fAdd false rnd a b
      = (if a = 2 ^ 31 ∧ b = 2 ^ 31 ∨ rnd = .rm ∧ ¬(a = 0 ∧ b = 0) then 2 ^ 31 else 0, 0) := by
  obtain ⟨fa, va⟩ := ha.decode fmtFp32_ieee
  obtain ⟨fb, vb⟩ := hb.decode fmtFp32_ieee
  have hs : ([decodeF fmtFp32 a, decodeF fmtFp32 b].map finValue).sum = 0 := by simp [va, vb, h]
  have hadd : fAdd false rnd a b = zeroRes fmtFp32 (zeroSumSign rnd [decodeF fmtFp32 a, decodeF fmtFp32 b]) := by
    simp only [fAdd, flush32_false, read32_false]
    rw [sumRound_fin (by simp [fa, fb]), if_pos hs]
  obtain ⟨na, pa⟩ := isZero_sign_iff ha
  obtain ⟨nb, pb⟩ := isZero_sign_iff hb
  have hneg : ([decodeF fmtFp32 a, decodeF fmtFp32 b].all fun t => t.isZero && t.sign) = true ↔ a = 2 ^ 31 ∧ b = 2 ^ 31 := by
    rw [List.all_cons, List.all_cons, List.all_nil, Bool.and_true, Bool.and_eq_true, na, nb]
  have hpos : ([decodeF fmtFp32 a, decodeF fmtFp32 b].all fun t => t.isZero && !t.sign) = true ↔ a = 0 ∧ b = 0 := by
    rw [List.all_cons, List.all_cons, List.all_nil, Bool.and_true, Bool.and_eq_true, pa, pb]
  rw [hadd, zeroSumSign]
  by_cases h1 : a = 2 ^ 31 ∧ b = 2 ^ 31
  · rw [if_pos (hneg.mpr h1), if_pos (.inl h1)]
    rfl
  · rw [if_neg (mt hneg.mp h1)]
    by_cases h2 : a = 0 ∧ b = 0
    · rw [if_pos (hpos.mpr h2), if_neg (not_or.mpr ⟨h1, fun h => h.2 h2⟩)]
      rfl
    · rw [if_neg (mt hpos.mp h2)]
      by_cases h3 : rnd = .rm
      · rw [if_pos (.inr ⟨h3, h2⟩), h3]
        rfl
      · rw [if_neg (not_or.mpr ⟨h1, fun h => h3 h.1⟩), decide_eq_false h3]
        rfl

/-- Settles O17: each operation rounds its exact value by `roundF`, which picks the nearest image that the mode allows, with
the flags of Table 15 and R37; a value is tiny as log 27 reads R37. -/
theorem rounding : Obligations.Rounding := by
  unfold Obligations.Rounding
  intro rnd hrnd
  dsimp only
  have hr := plain_of_mem hrnd
  have ieee : ∀ f ∈ [fmtFp32, fmtFp16, fmtBf16], f.Ieee := by
    simp [fmtFp32_ieee, fmtFp16_ieee, fmtBf16_ieee]
  have formats : ∀ f ∈ [(fmtFp32, Fmt.fp32), (fmtFp16, Fmt.fp16), (fmtBf16, Fmt.bf16)], f.1.Ieee ∧ ffmtOf f.2 = some f.1 := by
    simp only [List.forall_mem_cons, List.not_mem_nil, false_imp_iff, implies_true, and_true]
    exact ⟨⟨fmtFp32_ieee, rfl⟩, ⟨fmtFp16_ieee, rfl⟩, fmtBf16_ieee, rfl⟩
  refine ⟨fun f hf s m e hm => ?_, fun f hf h hh x hx h0 => ?_, fun a b c ha hb hc => ?_⟩
  · have := roundF_rounded (ieee f hf) hr (s := s) hm (Exactly.of_eq m e) nofun
    rwa [← mul_assoc] at this
  · exact convTo_rounded hr (formats f hf).1 (formats h hh).1 (formats f hf).2 (formats h hh).2 hx h0
  · refine ⟨fun h => ?_, fun h => ?_, fun h => ?_, fun h => ?_, fun h => ?_, fun h0 h1 => ?_, fun h => ?_, fun k h => ?_⟩
    · exact_mod_cast fAdd_rounded hr ha hb (by exact_mod_cast h)
    · exact_mod_cast fSub_rounded hr ha hb (by exact_mod_cast h)
    · exact fAdd_zero ha hb (by exact_mod_cast h)
    · exact_mod_cast fMul_rounded hr ha hb (by exact_mod_cast h)
    · exact_mod_cast fFma_rounded hr ha hb hc (by exact_mod_cast h)
    · exact_mod_cast fDiv_rounded hr ha hb (by exact_mod_cast h0) (by exact_mod_cast h1)
    · exact fSqrt_rounded hr ha (by exact_mod_cast h)
    · exact fScale_rounded hr ha (by exact_mod_cast h) k

end Sys2Proof.Machine
end

/-! PROOFS. O7: the order of images, minimum and maximum, and classes (04 R88, R90). -/

section
namespace Sys2Proof.Machine

/-! ### The order of images -/

/-- The value at a place in the order of images: 0 at the zeros, magnitudes above, negative ones below. -/
def keyVal (f : FFmt) (k : ℤ) : ℚ := if 0 ≤ k then f.mag k.toNat else -f.mag (-k).toNat

theorem keyVal_strictMono (f : FFmt) : StrictMono (keyVal f) := by
  intro j k h
  unfold keyVal
  have hpos : ∀ n : ℕ, 0 < n → 0 < f.mag n := fun n hn => f.mag_zero ▸ f.mag_strictMono hn
  split_ifs with hj hk
  · exact f.mag_strictMono (by omega)
  · omega
  · exact (neg_neg_of_pos (hpos _ (by omega))).trans_le (f.mag_nonneg _)
  · exact neg_lt_neg (f.mag_strictMono (by omega))

/-- The place of an image in that order. -/
def imgKey (f : FFmt) (x : ℕ) : ℤ :=
  if x.testBit (f.eb + f.mb) = true then -(x % 2 ^ (f.eb + f.mb) : ℕ) else (x % 2 ^ (f.eb + f.mb) : ℕ)

theorem keyVal_imgKey (f : FFmt) (x : ℕ) :
    keyVal f (imgKey f x) = (if x.testBit (f.eb + f.mb) = true then -1 else 1) * f.mag (x % 2 ^ (f.eb + f.mb)) := by
  unfold keyVal imgKey
  generalize x % 2 ^ (f.eb + f.mb) = c
  split_ifs with hs h0
  · have : c = 0 := by omega
    simp [this]
  · simp
  · simp
  · omega

section
variable {f : FFmt} {x y : ℕ}

theorem valueIn_eq_keyVal (h : x < 2 ^ (f.eb + f.mb + 1)) : valueIn f x = keyVal f (imgKey f x) := by
  have hd : x / 2 ^ (f.eb + f.mb) < 2 := by
    rw [Nat.div_lt_iff_lt_mul (Nat.two_pow_pos _), ← pow_succ']
    exact h
  rw [keyVal_imgKey, valueIn_eq, Nat.testBit_eq_decide_div_mod_eq]
  interval_cases x / 2 ^ (f.eb + f.mb) <;> simp

/-- Images that are no NaN: finite ones and the infinities. -/
theorem isNan_iff (hf : f.Ieee) : (decodeF f x).isNan = true ↔ f.infCode < x % 2 ^ (f.eb + f.mb) := by
  have := hf.maxCode_succ
  obtain h | h | h := lt_trichotomy (x % 2 ^ (f.eb + f.mb)) f.infCode
  · obtain ⟨m, e, hd, -⟩ := decodeF_of_le (x := x) hf (by omega)
    rw [hd]
    exact iff_of_false (by simp [FVal.isNan]) (by omega)
  · rw [decodeF_infCode hf h]
    exact iff_of_false (by simp [FVal.isNan]) (by omega)
  · rw [decodeF_nan hf h]
    exact iff_of_true rfl h

/-- A value below the infinities, or an infinity. -/
theorem decode_cases (hf : f.Ieee) (hx : (decodeF f x).isNan = false) :
    (IsFin (decodeF f x) ∧ finValue (decodeF f x) = keyVal f (imgKey f x) ∧ imgKey f x < f.infCode ∧ -f.infCode < imgKey f x)
      ∨ ∃ s, decodeF f x = .inf s ∧ imgKey f x = if s = true then -(f.infCode : ℤ) else f.infCode := by
  have hm := hf.maxCode_succ
  rw [← Bool.not_eq_true, isNan_iff hf, not_lt] at hx
  obtain h | h := hx.lt_or_eq
  · left
    obtain ⟨m, e, hd, hmag⟩ := decodeF_of_le (x := x) hf (by omega)
    refine ⟨⟨_, _, _, hd⟩, ?_, ?_, ?_⟩
    · rw [hd, finValue_fin, hmag, keyVal_imgKey]
    · unfold imgKey
      split <;> omega
    · unfold imgKey
      split <;> omega
  · exact .inr ⟨_, decodeF_infCode hf h, by rw [imgKey, h]⟩

/-- Comparison of values compares the places of their images. -/
theorem cmpV_decodeF (hf : f.Ieee) (hx : (decodeF f x).isNan = false) (hy : (decodeF f y).isNan = false) :
    (cmpV (decodeF f x) (decodeF f y) < 0 ↔ imgKey f x < imgKey f y)
      ∧ (cmpV (decodeF f x) (decodeF f y) = 0 ↔ imgKey f x = imgKey f y) := by
  have hI := hf.infCode_pos
  obtain ⟨⟨s, m, e, dx⟩, vx, ux, lx⟩ | ⟨s, dx, kx⟩ := decode_cases hf hx <;>
    obtain ⟨⟨t, n, k, dy⟩, vy, uy, ly⟩ | ⟨t, dy, ky⟩ := decode_cases hf hy
  · have hsum := sumAt_minExp [decodeF f x, (decodeF f y).neg]
    rw [List.map_cons, List.map_cons, List.map_nil, List.sum_cons, List.sum_cons, List.sum_nil, finValue_neg, vx, vy, add_zero,
      ← sub_eq_add_neg] at hsum
    have hz : (0 : ℚ) < (2 : ℚ) ^ minExp [decodeF f x, (decodeF f y).neg] := by positivity
    have hc : cmpV (decodeF f x) (decodeF f y) = if sumAt (minExp [decodeF f x, (decodeF f y).neg]) [decodeF f x, (decodeF f y).neg] < 0
        then -1 else if sumAt (minExp [decodeF f x, (decodeF f y).neg]) [decodeF f x, (decodeF f y).neg] = 0 then 0 else 1 := by
      rw [dx, dy]
      rfl
    generalize sumAt _ _ = d at hsum hc
    have hlt : d < 0 ↔ imgKey f x < imgKey f y := by
      rw [← (keyVal_strictMono f).lt_iff_lt (a := imgKey f x), ← sub_neg (a := keyVal f _), ← hsum, mul_neg_iff]
      simp [hz, hz.not_gt]
    have heq : d = 0 ↔ imgKey f x = imgKey f y := by
      rw [← (keyVal_strictMono f).injective.eq_iff (a := imgKey f x), ← sub_eq_zero (a := keyVal f _), ← hsum, mul_eq_zero, or_iff_left hz.ne',
        Int.cast_eq_zero]
    rw [hc, ← hlt, ← heq]
    grind
  · have hc : cmpV (.fin s m e) (.inf t) = if t = true then 1 else -1 := rfl
    rw [dx, dy, hc]
    cases t <;> simp at ky ⊢ <;> omega
  · have hc : cmpV (.inf s) (.fin t n k) = if s = true then -1 else 1 := rfl
    rw [dx, dy, hc]
    cases s <;> simp at kx ⊢ <;> omega
  · rw [dx, dy, cmpV]
    cases s <;> cases t <;> simp at kx ky ⊢ <;> omega

/-- Comparison of FP32 images, where neither is a NaN. -/
theorem f32Le_iff : f32Le x y = true ↔ f32IsNan x = false ∧ f32IsNan y = false ∧ imgKey fmtFp32 x ≤ imgKey fmtFp32 y := by
  rw [f32Le, f32IsNan, f32IsNan, Bool.and_eq_true, Bool.and_eq_true, Bool.not_eq_true', Bool.not_eq_true', decide_eq_true_eq, and_assoc]
  refine and_congr_right fun hx => and_congr_right fun hy => ?_
  obtain ⟨h1, h2⟩ := cmpV_decodeF fmtFp32_ieee hx hy
  omega

theorem f32Lt_iff : f32Lt x y = true ↔ f32IsNan x = false ∧ f32IsNan y = false ∧ imgKey fmtFp32 x < imgKey fmtFp32 y := by
  rw [f32Lt, f32IsNan, f32IsNan, Bool.and_eq_true, Bool.and_eq_true, Bool.not_eq_true', Bool.not_eq_true', decide_eq_true_eq, and_assoc]
  exact and_congr_right fun hx => and_congr_right fun hy => (cmpV_decodeF fmtFp32_ieee hx hy).1

theorem f32IsNan_iff : f32IsNan x = true ↔ 0x7F800000 < x % 2 ^ 31 := isNan_iff fmtFp32_ieee

end

/-! ### O7 -/

section
variable {x y : ℕ}

theorem testBit_sign (hx : x < 2 ^ 32) : x.testBit 31 = decide (2 ^ 31 ≤ x) := by
  rw [Nat.testBit_eq_decide_div_mod_eq]
  exact decide_eq_decide.mpr (by omega)

theorem isSnan_iff : (decodeF fmtFp32 x).isSnan = true ↔ 0x7F800000 < x % 2 ^ 31 ∧ x % 2 ^ 23 < 2 ^ 22 := by
  by_cases hn : (decodeF fmtFp32 x).isNan = true
  · have h : 0x7F800000 < x % 2 ^ 31 := (isNan_iff fmtFp32_ieee).mp hn
    have hs : (decodeF fmtFp32 x).isSnan = !(x % 2 ^ 23).testBit 22 := by
      rw [decodeF_nan fmtFp32_ieee h]
      rfl
    rw [hs, and_iff_right h, Bool.not_eq_true', Nat.testBit_eq_decide_div_mod_eq, decide_eq_false_iff_not]
    omega
  · rw [isNan_iff fmtFp32_ieee] at hn
    refine iff_of_false ?_ fun h => hn h.1
    obtain ⟨⟨s, m, e, h⟩, -⟩ | ⟨s, h, -⟩ := decode_cases (x := x) fmtFp32_ieee (by rwa [← Bool.not_eq_true, isNan_iff fmtFp32_ieee])
      <;> simp [h, FVal.isSnan]

/-- An image that is no NaN has the sign of its bit. -/
theorem decodeF_sign (h : (decodeF fmtFp32 x).isNan = false) : (decodeF fmtFp32 x).sign = x.testBit 31 := by
  rw [← Bool.not_eq_true, isNan_iff fmtFp32_ieee, not_lt] at h
  obtain h | h := h.lt_or_eq
  · obtain ⟨m, e, hd, -⟩ := decodeF_of_le (x := x) fmtFp32_ieee (Nat.le_of_lt_succ (h.trans_eq fmtFp32_ieee.maxCode_succ.symm))
    rw [hd]
    rfl
  · rw [decodeF_infCode fmtFp32_ieee h]
    rfl

/-- An image that is no NaN is a zero where its magnitude is. -/
theorem decodeF_isZero (h : (decodeF fmtFp32 x).isNan = false) : (decodeF fmtFp32 x).isZero = true ↔ x % 2 ^ 31 = 0 := by
  have hk : imgKey fmtFp32 x = 0 ↔ x % 2 ^ 31 = 0 := by
    rw [imgKey]
    show (if _ then -((x % 2 ^ 31 : ℕ) : ℤ) else ((x % 2 ^ 31 : ℕ) : ℤ)) = 0 ↔ _
    grind
  obtain ⟨hf, hv, -⟩ | ⟨s, hi, hs⟩ := decode_cases fmtFp32_ieee h
  · rw [isZero_iff hf, hv, ← hk, ← (keyVal_strictMono fmtFp32).injective.eq_iff]
    simp [keyVal]
  · rw [← hk, hi, hs]
    cases s <;> simp [FVal.isZero, fmtFp32_ieee.infCode_pos.ne']

/-- A minimum or maximum takes one of its operands as it is. -/
theorem zero_image (hx : x < 2 ^ 32) (h : (decodeF fmtFp32 x).isNan = false) :
    (if (decodeF fmtFp32 x).isZero then fmtFp32.signBit (decodeF fmtFp32 x).sign else x) = x := by
  split_ifs with hz
  · rw [decodeF_isZero h] at hz
    rw [decodeF_sign h, testBit_sign hx]
    show (if _ then 0x80000000 else 0) = x
    split_ifs with hs <;> simp only [decide_eq_true_eq] at hs <;> omega
  · rfl

end

/-- The place of an image where −0 lies below +0 (04 R88). -/
def minMaxKey (x : ℕ) : ℤ := if x < 2 ^ 31 then x else -(x - 2 ^ 31 : ℤ) - 1

theorem less_iff_minMaxKey {a b : ℕ} (ha : a < 2 ^ 32) (hb : b < 2 ^ 32) (na : (decodeF fmtFp32 a).isNan = false)
    (nb : (decodeF fmtFp32 b).isNan = false) :
    (cmpV (decodeF fmtFp32 a) (decodeF fmtFp32 b) < 0 || (cmpV (decodeF fmtFp32 a) (decodeF fmtFp32 b) = 0
      && (decodeF fmtFp32 a).sign && !(decodeF fmtFp32 b).sign)) = decide (minMaxKey a < minMaxKey b) := by
  obtain ⟨hlt, heq⟩ := cmpV_decodeF fmtFp32_ieee na nb
  have hk : ∀ {x : ℕ}, x < 2 ^ 32 → imgKey fmtFp32 x = if 2 ^ 31 ≤ x then -(x - 2 ^ 31 : ℤ) else x := fun {x} hx => by
    rw [imgKey]
    show (if x.testBit 31 = true then -((x % 2 ^ 31 : ℕ) : ℤ) else ((x % 2 ^ 31 : ℕ) : ℤ)) = _
    rw [testBit_sign hx]
    simp only [decide_eq_true_eq]
    split_ifs <;> omega
  rw [hk ha, hk hb] at hlt heq
  rw [decodeF_sign na, decodeF_sign nb, testBit_sign ha, testBit_sign hb, Bool.eq_iff_iff]
  simp only [Bool.or_eq_true, Bool.and_eq_true, decide_eq_true_eq, Bool.not_eq_true', decide_eq_false_iff_not, hlt, heq, minMaxKey]
  grind

/-- A finite image is subnormal, or a zero, where its significand lacks the leading bit. -/
theorem decodeF_fin_subnormal {f : FFmt} {x : ℕ} {s : Bool} {m : ℕ} {e : ℤ} (h : decodeF f x = .fin s m e) :
    m < 2 ^ f.mb ↔ x % 2 ^ (f.eb + f.mb) < 2 ^ f.mb := by
  have hP := Nat.two_pow_pos f.mb
  have hm : x % 2 ^ f.mb < 2 ^ f.mb := Nat.mod_lt _ hP
  have hc : x / 2 ^ f.mb % 2 ^ f.eb = 0 ↔ x % 2 ^ (f.eb + f.mb) < 2 ^ f.mb := by
    rw [exp_eq, Nat.div_eq_zero_iff_lt hP]
  unfold decodeF at h
  dsimp only at h
  split_ifs at h <;> simp only [FVal.fin.injEq] at h <;> grind

/-- FCLASS, by the magnitude of the image and its sign. -/
theorem fClass_eq (x : ℕ) : fClass x = 2 ^ (if 0x7F800000 < x % 2 ^ 31 then (if x % 2 ^ 23 < 2 ^ 22 then 8 else 9)
    else if x.testBit 31 = true then
      (if x % 2 ^ 31 = 0x7F800000 then 0 else if 2 ^ 23 ≤ x % 2 ^ 31 then 1 else if x % 2 ^ 31 = 0 then 3 else 2)
    else if x % 2 ^ 31 = 0x7F800000 then 7 else if 2 ^ 23 ≤ x % 2 ^ 31 then 6 else if x % 2 ^ 31 = 0 then 4 else 5) := by
  by_cases hn : (decodeF fmtFp32 x).isNan = true
  · have h : 0x7F800000 < x % 2 ^ 31 := (isNan_iff fmtFp32_ieee).mp hn
    have hs := isSnan_iff (x := x)
    rw [and_iff_right h] at hs
    rw [if_pos h, fClass, decodeF_nan fmtFp32_ieee h]
    rw [decodeF_nan fmtFp32_ieee h, FVal.isSnan] at hs
    by_cases hq : x % 2 ^ 23 < 2 ^ 22
    · rw [if_pos hq, hs.mpr hq]
      rfl
    · rw [if_neg hq, Bool.eq_false_iff.mpr (mt hs.mp hq)]
      rfl
  · rw [Bool.not_eq_true] at hn
    have hsign := decodeF_sign hn
    have hzero := decodeF_isZero hn
    have h : ¬0x7F800000 < x % 2 ^ 31 := fun h => by
      rw [(isNan_iff fmtFp32_ieee).mpr h] at hn
      cases hn
    rw [if_neg h]
    obtain h1 | h1 := (not_lt.mp h).lt_or_eq
    · obtain ⟨m, e, hd, -⟩ := decodeF_of_le (x := x) fmtFp32_ieee (Nat.le_of_lt_succ (h1.trans_eq fmtFp32_ieee.maxCode_succ.symm))
      have hsub : m < 2 ^ 23 ↔ x % 2 ^ 31 < 2 ^ 23 := decodeF_fin_subnormal hd
      rw [hd, FVal.isZero, decide_eq_true_eq] at hzero
      rw [fClass, hd]
      dsimp only
      rw [if_neg h1.ne, if_neg h1.ne]
      change (if m = 0 then if x.testBit 31 = true then _ else _ else if m < 2 ^ 23 then if x.testBit 31 = true then _ else _
        else if x.testBit 31 = true then _ else _) = _
      split_ifs <;> grind
    · have hd := decodeF_infCode (x := x) fmtFp32_ieee h1
      rw [fClass, hd, if_pos h1, if_pos h1]
      change (if x.testBit 31 = true then _ else _) = _
      split_ifs <;> rfl

/-- Settles O7: comparison of values is comparison of the places of their images, and a class is read off the magnitude and
the sign bit. -/
theorem minimumMaximumAndClass : Obligations.MinimumMaximumAndClass := by
  unfold Obligations.MinimumMaximumAndClass
  refine ⟨fun a b ha hb => ?_, fun a ha => ?_⟩
  · intro nan snan key pick isMax
    have hnan : ∀ x, (decodeF fmtFp32 x).isNan = nan x := fun x => by
      rw [Bool.eq_iff_iff, isNan_iff fmtFp32_ieee]
      exact decide_eq_true_iff.symm
    have hsnan : ∀ x, (decodeF fmtFp32 x).isSnan = snan x := fun x => by
      rw [Bool.eq_iff_iff, isSnan_iff]
      simp [snan, nan]
    rw [fMinMax]
    simp only [read32_false, hsnan]
    cases na : nan a <;> cases nb : nan b <;> simp only [hnan, na, nb, pick]
    · have hla := (hnan a).trans na
      have hlb := (hnan b).trans nb
      rw [less_iff_minMaxKey ha hb hla hlb, zero_image ha hla, zero_image hb hlb]
      have hinj : minMaxKey a = minMaxKey b → a = b := by
        unfold minMaxKey
        split_ifs <;> omega
      change (if (decide (minMaxKey a < minMaxKey b) != isMax) = true then a else b, _)
        = (if (minMaxKey a ≤ minMaxKey b) = (isMax = false) then a else b, _)
      obtain h | h | h := lt_trichotomy (minMaxKey a) (minMaxKey b)
      · cases isMax <;> simp [h, h.le]
      · simp [hinj h]
      · cases isMax <;> simp [h.not_gt, h.not_ge]
    · simp [zero_image ha ((hnan a).trans na)]
    · simp [zero_image hb ((hnan b).trans nb)]
    · rfl
  · intro m neg
    rw [fClass_eq, testBit_sign ha]
    simp only [decide_eq_true_eq]
    have h23 : m % 2 ^ 23 = a % 2 ^ 23 := Nat.mod_mod_of_dvd _ (by decide)
    rw [h23]

end Sys2Proof.Machine
end

/-! PROOFS. O4: dyadic numbers and their quotients, rounded once (09 R221, R227). -/

section
namespace Sys2Proof.Machine

/-! ### Dyadic numbers -/

/-- The value of a dyadic number. -/
def dyVal (a : Dy) : ℚ := a.m * (2 : ℚ) ^ a.e

@[simp] theorem dyVal_ofInt (k : ℤ) : dyVal (.ofInt k) = k := by simp [dyVal, Dy.ofInt]

theorem dyVal_add (a b : Dy) : dyVal (a.add b) = dyVal a + dyVal b := by
  have hz : ∀ {x y : ℤ}, y ≤ x → (2 : ℚ) ^ (x - y).toNat * (2 : ℚ) ^ y = (2 : ℚ) ^ x := fun {x y} h => by
    rw [← zpow_natCast, Int.toNat_of_nonneg (by omega), ← zpow_add₀ two_ne_zero, sub_add_cancel]
  rw [dyVal, dyVal, dyVal, Dy.add]
  push_cast
  rw [add_mul, mul_assoc, mul_assoc, hz (min_le_left ..), hz (min_le_right ..)]

theorem dyVal_mul (a b : Dy) : dyVal (a.mul b) = dyVal a * dyVal b := by
  rw [dyVal, dyVal, dyVal, Dy.mul, zpow_add₀ two_ne_zero]
  push_cast
  ring

theorem dyVal_eq_zero {a : Dy} : dyVal a = 0 ↔ a.m = 0 := by
  rw [dyVal, mul_eq_zero, or_iff_left (by positivity), Int.cast_eq_zero]

theorem dy_floor_eq (a : Dy) : a.floor = ⌊dyVal a⌋ := by
  rw [dyVal, Dy.floor]
  split_ifs with h
  · rw [← Int.toNat_of_nonneg h, zpow_natCast, Int.toNat_natCast]
    exact_mod_cast (Int.floor_intCast (R := ℚ) (a.m * 2 ^ a.e.toNat)).symm
  · have hz : (2 : ℚ) ^ a.e = ((2 ^ (-a.e).toNat : ℕ) : ℚ)⁻¹ := by
      push_cast
      rw [← zpow_natCast, Int.toNat_of_nonneg (by omega), zpow_neg, inv_inv]
    rw [hz, ← div_eq_mul_inv, Rat.floor_intCast_div_natCast]
    rfl

theorem dyOfF {x : ℕ} (hx : FiniteIn fmtFp32 x) : ∃ d, Dy.ofF x = some d ∧ dyVal d = valueIn fmtFp32 x := by
  obtain ⟨⟨s, m, e, fx⟩, vx⟩ := hx.decode fmtFp32_ieee
  refine ⟨⟨if s then -(m : ℤ) else m, e⟩, by rw [Dy.ofF, fx], ?_⟩
  rw [← vx, fx, finValue_fin, dyVal]
  cases s <;> simp

theorem natAbs_eq_sign_mul (k : ℤ) : (k : ℝ) = (if k < 0 then -1 else 1) * (k.natAbs : ℝ) := by
  rw [Nat.cast_natAbs, Int.cast_abs]
  split_ifs with hk
  · rw [abs_of_neg (by exact_mod_cast hk)]; ring
  · rw [abs_of_nonneg (by exact_mod_cast not_lt.mp hk), one_mul]

/-- The quotient of dyadic numbers, as the scaled integer quotient that `ratRound` takes. -/
theorem dyVal_div (n d : Dy) (hd : d.m ≠ 0) (j : ℕ) :
    ((dyVal n / dyVal d : ℚ) : ℝ) = (if (decide (n.m < 0) != decide (d.m < 0)) = true then -1 else 1)
      * (((n.m.natAbs * 2 ^ j : ℕ) : ℝ) / (d.m.natAbs : ℕ) * (2 : ℝ) ^ (n.e - d.e - (j : ℤ))) := by
  have hdr : (d.m.natAbs : ℝ) ≠ 0 := by exact_mod_cast Int.natAbs_ne_zero.mpr hd
  rw [dyVal, dyVal, zpow_sub₀ two_ne_zero, zpow_sub₀ two_ne_zero, zpow_natCast]
  push_cast
  rw [natAbs_eq_sign_mul n.m, natAbs_eq_sign_mul d.m]
  by_cases h1 : n.m < 0 <;> by_cases h2 : d.m < 0 <;> simp only [h1, h2, if_true, if_false] <;> simp <;> field_simp

/-- A quotient of dyadic numbers is rounded once. -/
theorem ratRound_rounded {n d : Dy} (hn : n.m ≠ 0) (hd : d.m ≠ 0) :
    ∃ fl, Rounded fmtFp32 .rne (dyVal n / dyVal d : ℚ) (ratRound n d, fl) := by
  have hd' := Int.natAbs_ne_zero.mpr hd
  have hbig : 2 ^ (fmtFp32.mb + 1) ≤ n.m.natAbs * 2 ^ (d.m.natAbs.log2 + 80) / d.m.natAbs := by
    rw [Nat.le_div_iff_mul_le (Nat.pos_of_ne_zero hd')]
    calc 2 ^ (fmtFp32.mb + 1) * d.m.natAbs ≤ 2 ^ 79 * 2 ^ (d.m.natAbs.log2 + 1) :=
          Nat.mul_le_mul (by decide) Nat.lt_log2_self.le
      _ = 1 * 2 ^ (d.m.natAbs.log2 + 80) := by rw [← pow_add, one_mul]; congr 1; omega
      _ ≤ n.m.natAbs * 2 ^ (d.m.natAbs.log2 + 80) := Nat.mul_le_mul_right _ (Int.natAbs_pos.mpr hn)
  rw [dyVal_div n d hd (d.m.natAbs.log2 + 80), ratRound, if_neg hn]
  generalize d.m.natAbs.log2 + 80 = j at hbig ⊢
  exact ⟨_, roundF_rounded fmtFp32_ieee trivial (by have := Nat.two_pow_pos (fmtFp32.mb + 1); omega)
    (exactly_div _ _ _ hd') fun _ => hbig⟩

/-- A channel of 8 bits (09 R227). -/
theorem unorm8_rounded {c : ℕ} (hc : 0 < c) : ∃ fl, Rounded fmtFp32 .rne (c / 255 : ℚ) (unorm8 c, fl) := by
  rw [unorm8]
  simpa using ratRound_rounded (n := .ofInt c) (d := .ofInt 255) (by simpa [Dy.ofInt] using hc.ne') (by simp [Dy.ofInt])

end Sys2Proof.Machine
end

/-! PROOFS. O4: coverage and depth, blending, logarithms, footprints and weights (09 R218, R221, R226; 10 R231 to R233). -/

section
namespace Sys2Proof.Machine

/-! ### Coverage and depth (09 R218, R221) -/

theorem rGet_map_range (e : ℕ → ℤ) {k : ℕ} (hk : k < 3) : rGet ((List.range 3).map e) k = e k := by
  simp [rGet, List.getD_eq_getElem?_getD, List.getElem?_map, List.getElem?_range hk]

theorem inside_iff {r : Rast} {x y : ℤ} {e : ℕ → ℤ} (he : r.eAt x y = (List.range 3).map e) :
    r.inside x y = true ↔ ∀ k, k < 3 → 0 < e k ∨ e k = 0 ∧ r.tl.testBit k = true := by
  rw [Rast.inside, he]
  simp only [List.all_eq_true, List.mem_range, Bool.or_eq_true, Bool.and_eq_true, decide_eq_true_eq]
  exact forall₂_congr fun k hk => by rw [rGet_map_range e hk]

theorem planeSum_range {e : ℕ → ℤ} {z : ℕ → ℕ} (hz : ∀ k, k < 3 → FiniteIn fmtFp32 (z k)) :
    ∃ n, planeSum ((List.range 3).map e) ((List.range 3).map fun k => Dy.ofF (z k)) = some n ∧
      dyVal n = e 0 * valueIn fmtFp32 (z 0) + e 1 * valueIn fmtFp32 (z 1) + e 2 * valueIn fmtFp32 (z 2) := by
  obtain ⟨d0, h0, v0⟩ := dyOfF (hz 0 (by decide))
  obtain ⟨d1, h1, v1⟩ := dyOfF (hz 1 (by decide))
  obtain ⟨d2, h2, v2⟩ := dyOfF (hz 2 (by decide))
  have hr : List.range 3 = [0, 1, 2] := rfl
  refine ⟨(((⟨0, 0⟩ : Dy).add ((Dy.ofInt (e 0)).mul d0)).add ((Dy.ofInt (e 1)).mul d1)).add ((Dy.ofInt (e 2)).mul d2),
    by rw [planeSum, hr]; simp only [List.map, List.zip_cons_cons, List.zip_nil_right, List.foldl, h0, h1, h2], ?_⟩
  rw [dyVal_add, dyVal_add, dyVal_add, dyVal_mul, dyVal_mul, dyVal_mul, dyVal_ofInt, dyVal_ofInt, dyVal_ofInt, v0, v1, v2]
  simp [dyVal]

theorem zAt_rounded {r : Rast} {x y : ℤ} {e : ℕ → ℤ} {z : ℕ → ℕ} (he : r.eAt x y = (List.range 3).map e)
    (hr : r.z = (List.range 3).map fun k => Dy.ofF (z k)) (hz : ∀ k, k < 3 → FiniteIn fmtFp32 (z k)) (ha : 0 < r.a2) :
    ∃ n : Dy, dyVal n = e 0 * valueIn fmtFp32 (z 0) + e 1 * valueIn fmtFp32 (z 1) + e 2 * valueIn fmtFp32 (z 2) ∧
      (dyVal n = 0 → r.zAt x y = 0) ∧ (dyVal n ≠ 0 → ∃ fl, Rounded fmtFp32 .rne (dyVal n / r.a2 : ℚ) (r.zAt x y, fl)) := by
  obtain ⟨n, hn, hv⟩ := planeSum_range (e := e) hz
  have hz : r.zAt x y = ratRound n (.ofInt r.a2) := by rw [Rast.zAt, he, hr, hn]
  refine ⟨n, hv, fun h => ?_, fun h => ?_⟩
  · rw [hz, ratRound, if_pos (dyVal_eq_zero.mp h)]
  · simpa [hz] using ratRound_rounded (n := n) (d := .ofInt r.a2) (mt dyVal_eq_zero.mpr h) ha.ne'

/-! ### Blending (09 R226) -/

theorem blendChan_off {b : W64} {i : ℕ} {src dst con : ℕ → ℕ} (h : b.getLsbD 28 = false) : blendChan b i src dst con = src i := by
  rw [blendChan, h]
  rfl

/-- A field of the low bits of a word. -/
theorem fld_of_low {b : W64} {v n o k : ℕ} (h : (b.extractLsb' 0 n).toNat = v) (hk : o + k ≤ n) : fld b o k = v / 2 ^ o % 2 ^ k := by
  subst h
  rw [fld, BitVec.extractLsb'_toNat, BitVec.extractLsb'_toNat, Nat.shiftRight_zero, Nat.shiftRight_eq_div_pow]
  obtain ⟨j, rfl⟩ := Nat.exists_eq_add_of_le hk
  rw [pow_add, pow_add, mul_assoc, Nat.mod_mul_right_div_self, Nat.mod_mul_right_mod]

/-- Source over destination: factors SRC_ALPHA and 1 − SRC_ALPHA, and a sum. -/
theorem blendChan_over {b : W64} {i : ℕ} {src dst con : ℕ → ℕ} (hi : i < 3) (h : b.getLsbD 28 = true)
    (hb : (b.extractLsb' 0 12).toNat = 0x076) : blendChan b i src dst con
      = f32Add (f32Mul (src i) (src 3)) (f32Mul (dst i) (f32Sub 0x3F800000 (src 3))) := by
  have hs : fld b 0 4 = 6 := fld_of_low hb (by decide)
  have hd : fld b 4 4 = 7 := fld_of_low hb (by decide)
  have ho : fld b 8 3 = 0 := fld_of_low hb (by decide)
  rw [blendChan, if_neg hi.ne, h, hs, hd, ho]
  rfl

/-! ### Logarithms, footprints and weights (10 R231, R232, R233) -/

theorem log128_spec {x : ℕ} (hx : FiniteIn fmtFp32 x) (h0 : 0 < valueIn fmtFp32 x) :
    (2 : ℚ) ^ log128 x ≤ valueIn fmtFp32 x ^ 128 ∧ valueIn fmtFp32 x ^ 128 < (2 : ℚ) ^ (log128 x + 1) := by
  obtain ⟨⟨s, m, e, hd⟩, hv⟩ := hx.decode fmtFp32_ieee
  rw [hd, finValue_fin] at hv
  have hp : (0 : ℚ) < (2 : ℚ) ^ e := by positivity
  have hm : m ≠ 0 := by
    rintro rfl
    simp [← hv] at h0
  have hpow : valueIn fmtFp32 x ^ 128 = ((m ^ 128 : ℕ) : ℚ) * (2 : ℚ) ^ (128 * e) := by
    rw [← hv, mul_pow, mul_pow, mul_comm 128 e, zpow_mul]
    split_ifs <;> norm_num
  have hl : log128 x = (Nat.log2 (m ^ 128) : ℤ) + 128 * e := by rw [log128, hd]
  have hq : (0 : ℚ) < (2 : ℚ) ^ (128 * e) := by positivity
  rw [hpow, hl, add_right_comm, zpow_add₀ two_ne_zero, zpow_add₀ two_ne_zero, ← Nat.cast_succ, zpow_natCast, zpow_natCast]
  generalize hM : m ^ 128 = M
  have hM0 : M ≠ 0 := hM ▸ pow_ne_zero _ hm
  exact ⟨mul_le_mul_of_nonneg_right (by exact_mod_cast Nat.log2_self_le hM0) hq.le,
    mul_lt_mul_of_pos_right (by exact_mod_cast Nat.lt_log2_self) hq⟩

/-- A coordinate of a footprint: the floor, and the fraction in 1/256. -/
theorem floorFrac_eq {free x : ℕ} (hx : FiniteIn fmtFp32 x) :
    (floorFrac free x).1 = ⌊valueIn fmtFp32 x⌋ ∧
      ((floorFrac free x).2 : ℤ) = ⌊(valueIn fmtFp32 x - ⌊valueIn fmtFp32 x⌋) * 256⌋ ∧ (floorFrac free x).2 < 256 := by
  obtain ⟨d, hd, hv⟩ := dyOfF hx
  have h256 : dyVal (d.mul ⟨256, 0⟩) = dyVal d * 256 := by rw [dyVal_mul]; simp [dyVal]
  have hf : ⌊(dyVal d - ⌊dyVal d⌋) * 256⌋ = ⌊dyVal d * 256⌋ - 256 * ⌊dyVal d⌋ := by
    rw [sub_mul, ← Int.cast_ofNat, ← Int.cast_mul, Int.floor_sub_intCast, mul_comm 256]
  have h0 : 0 ≤ ⌊(dyVal d - ⌊dyVal d⌋) * 256⌋ := Int.floor_nonneg.mpr (mul_nonneg (Int.fract_nonneg _) (by norm_num))
  have h1 : ⌊(dyVal d - ⌊dyVal d⌋) * 256⌋ < 256 := by
    rw [Int.floor_lt]
    have := Int.fract_lt_one (dyVal d)
    rw [Int.fract] at this
    push_cast
    linarith
  rw [floorFrac, hd, ← hv]
  dsimp only
  rw [dy_floor_eq, dy_floor_eq, h256, ← hf]
  omega

/-- A weight times a channel is rounded once. -/
theorem f32Scale_rounded {c w : ℕ} (hc : FiniteIn fmtFp32 c) (h0 : valueIn fmtFp32 c ≠ 0) (hw : 0 < w) :
    ∃ fl, Rounded fmtFp32 .rne (valueIn fmtFp32 c * w : ℚ) (f32Scale c (FVal.ofInt w), fl) := by
  obtain ⟨hd, hv⟩ := hc.decode fmtFp32_ieee
  have hW : IsFin (FVal.ofInt w) ∧ finValue (FVal.ofInt w) = w := ⟨⟨_, _, _, rfl⟩, by simp [FVal.ofInt, finValue_fin]⟩
  obtain ⟨hf, hm⟩ := finValue_mul hd hW.1
  rw [hv, hW.2] at hm
  have hne : (w : ℚ) ≠ 0 := by exact_mod_cast hw.ne'
  exact ⟨_, hm ▸ convF_rounded (rnd := .rne) fmtFp32_ieee trivial hf (hm ▸ mul_ne_zero h0 hne)⟩

/-- The weight along one axis of a bilinear footprint. -/
theorem bilinear_share {a : ℕ} {p : ℤ} (ha : (a : ℤ) = p) (h : a < 256) (far : Prop) [Decidable far] :
    ((if far then a else 256 - a : ℕ) : ℤ) = if far then p else 256 - p := by
  split_ifs <;> omega

end Sys2Proof.Machine
end

/-! PROOFS. O4: the neighbours of an image, and the box test (10 R240). -/

section
namespace Sys2Proof.Machine

/-! ### The neighbours of an image (10 R240) -/

theorem imgKey_fp32 {x : ℕ} (hx : x < 2 ^ 32) : imgKey fmtFp32 x = if 2 ^ 31 ≤ x then -(x - 2 ^ 31 : ℤ) else x := by
  change (if x.testBit 31 = true then -((x % 2 ^ 31 : ℕ) : ℤ) else ((x % 2 ^ 31 : ℕ) : ℤ)) = _
  simp only [testBit_sign hx, decide_eq_true_eq]
  split_ifs <;> omega

theorem finiteIn_fp32 {x : ℕ} : FiniteIn fmtFp32 x ↔ x < 2 ^ 32 ∧ x % 2 ^ 31 < 0x7F800000 := by
  rw [finiteIn_iff fmtFp32_ieee]
  exact and_congr_right fun _ => Nat.lt_succ_iff.symm

/-- A step up or down from a finite image is one place in the order of images. -/
theorem imgKey_nextF {x : ℕ} (hx : FiniteIn fmtFp32 x) (up : Bool) :
    nextF up x < 2 ^ 32 ∧ imgKey fmtFp32 (nextF up x) = imgKey fmtFp32 x + if up = true then 1 else -1 := by
  obtain ⟨h32, hm⟩ := finiteIn_fp32.mp hx
  have hlt : nextF up x < 2 ^ 32 := by
    rw [nextF]
    cases up <;> grind
  refine ⟨hlt, ?_⟩
  rw [imgKey_fp32 hlt, imgKey_fp32 h32, nextF]
  cases up <;> grind

/-- No finite value lies between an image and its neighbour. -/
theorem valueIn_nextF {x y : ℕ} (hx : FiniteIn fmtFp32 x) (hy : FiniteIn fmtFp32 y) :
    (valueIn fmtFp32 x < valueIn fmtFp32 (nextF true x) ∧
      (valueIn fmtFp32 x < valueIn fmtFp32 y → valueIn fmtFp32 (nextF true x) ≤ valueIn fmtFp32 y)) ∧
    valueIn fmtFp32 (nextF false x) < valueIn fmtFp32 x ∧
      (valueIn fmtFp32 y < valueIn fmtFp32 x → valueIn fmtFp32 y ≤ valueIn fmtFp32 (nextF false x)) := by
  obtain ⟨hu, ku⟩ := imgKey_nextF hx true
  obtain ⟨hd, kd⟩ := imgKey_nextF hx false
  have hv : ∀ {z : ℕ}, z < 2 ^ 32 → valueIn fmtFp32 z = keyVal fmtFp32 (imgKey fmtFp32 z) := fun h => valueIn_eq_keyVal h
  have hmono := keyVal_strictMono fmtFp32
  rw [hv (finiteIn_fp32.mp hx).1, hv (finiteIn_fp32.mp hy).1, hv hu, hv hd, hmono.lt_iff_lt, hmono.lt_iff_lt, hmono.lt_iff_lt,
    hmono.lt_iff_lt, hmono.le_iff_le, hmono.le_iff_le, ku, kd]
  grind

theorem nextF_isNan {x : ℕ} (hx : f32IsNan x = false) (up : Bool) : f32IsNan (nextF up x) = false := by
  rw [← Bool.not_eq_true, f32IsNan_iff] at hx ⊢
  rw [nextF]
  cases up <;> grind

/-! ### Greatest and least of a list of images -/

theorem f32Le_refl {x : ℕ} (h : f32IsNan x = false) : f32Le x x = true := f32Le_iff.mpr ⟨h, h, le_rfl⟩

theorem f32Le_trans {x y z : ℕ} (h : f32Le x y = true) (h' : f32Le y z = true) : f32Le x z = true := by
  obtain ⟨hx, -, hxy⟩ := f32Le_iff.mp h
  obtain ⟨-, hz, hyz⟩ := f32Le_iff.mp h'
  exact f32Le_iff.mpr ⟨hx, hz, hxy.trans hyz⟩

theorem fMaxC_eq (a b : ℕ) : fMaxC a b = a ∨ fMaxC a b = b := by grind [fMaxC]

theorem fMinC_eq (a b : ℕ) : fMinC a b = a ∨ fMinC a b = b := by grind [fMinC]

/-- The first operand stays where it is a NaN. -/
theorem le_fMaxC {a b : ℕ} (hb : f32IsNan b = false) (h : f32IsNan (fMaxC a b) = false) :
    f32Le a (fMaxC a b) = true ∧ f32Le b (fMaxC a b) = true := by
  have hlt := f32Lt_iff (x := a) (y := b)
  rw [f32Le_iff, f32Le_iff]
  unfold fMaxC at h ⊢
  split_ifs at h ⊢ with hab
  · exact ⟨⟨(hlt.mp hab).1, hb, (hlt.mp hab).2.2.le⟩, hb, hb, le_rfl⟩
  · exact ⟨⟨h, h, le_rfl⟩, hb, h, not_lt.mp fun hk => hab (hlt.mpr ⟨h, hb, hk⟩)⟩

theorem fMinC_le {a b : ℕ} (hb : f32IsNan b = false) (h : f32IsNan (fMinC a b) = false) :
    f32Le (fMinC a b) a = true ∧ f32Le (fMinC a b) b = true := by
  have hlt := f32Lt_iff (x := b) (y := a)
  rw [f32Le_iff, f32Le_iff]
  unfold fMinC at h ⊢
  split_ifs at h ⊢ with hab
  · exact ⟨⟨hb, (hlt.mp hab).2.1, (hlt.mp hab).2.2.le⟩, hb, hb, le_rfl⟩
  · exact ⟨⟨h, h, le_rfl⟩, h, hb, not_lt.mp fun hk => hab (hlt.mpr ⟨hb, h, hk⟩)⟩

theorem foldl_mem_of_choice {op : ℕ → ℕ → ℕ} (hop : ∀ a b, op a b = a ∨ op a b = b) (t : ℕ) (xs : List ℕ) :
    xs.foldl op t ∈ t :: xs := by
  induction xs generalizing t with
  | nil => exact List.mem_singleton.mpr rfl
  | cons x xs ih =>
    have h := ih (op t x)
    rw [List.foldl_cons]
    obtain ho | ho := hop t x <;> rw [ho] at h ⊢
    · exact List.mem_cons.mpr ((List.mem_cons.mp h).imp_right (.tail _))
    · exact .tail _ h

/-- A result of a fold that is no NaN bounds every image of the list, where each step bounds its operands. -/
theorem foldl_bounds {op : ℕ → ℕ → ℕ} {R : ℕ → ℕ → Prop} (hrefl : ∀ {x}, f32IsNan x = false → R x x)
    (htrans : ∀ {x y z}, R x y → R y z → R x z)
    (hnan : ∀ {x y}, R x y → f32IsNan x = false)
    (hop : ∀ {a b}, f32IsNan b = false → f32IsNan (op a b) = false → R a (op a b) ∧ R b (op a b)) {t : ℕ} {xs : List ℕ}
    (hx : ∀ x ∈ xs, f32IsNan x = false) (h : f32IsNan (xs.foldl op t) = false) : ∀ x ∈ t :: xs, R x (xs.foldl op t) := by
  induction xs generalizing t with
  | nil => exact fun x hx => by rw [List.mem_singleton.mp hx]; exact hrefl h
  | cons y ys ih =>
    have hys := ih (fun x h => hx x (.tail _ h)) h
    have hhead := hys _ (.head _)
    obtain ⟨ht, hy⟩ := hop (hx y (.head _)) (hnan hhead)
    intro x hm
    obtain _ | ⟨_, _ | ⟨_, hm⟩⟩ := hm
    · exact htrans ht hhead
    · exact htrans hy hhead
    · exact hys x (.tail _ hm)

/-! ### The box test (10 R240) -/

/-- The distance at which a ray meets the side of a box with coordinate c on an axis. -/
def boxSide (r : Ray) (b : ℕ → ℕ) (a c : ℕ) : ℕ := f32Mul (f32Sub (b c) (r.o.getD a 0)) (f32Div f32One (r.d.getD a 0))
/-- The ray does not move along an axis. -/
def Ray.flat (r : Ray) (a : ℕ) : Prop := r.d.getD a 0 % 2 ^ 31 = 0
/-- The widened span of an axis. -/
def boxSpan (r : Ray) (b : ℕ → ℕ) (a : ℕ) : ℕ × ℕ :=
  (nextF false (fMinC (boxSide r b a a) (boxSide r b a (3 + a))), nextF true (fMaxC (boxSide r b a a) (boxSide r b a (3 + a))))

/-- What an axis gives: nothing where it excludes the box, a span where the ray moves along it. -/
def boxAxis (r : Ray) (b : ℕ → ℕ) (a : ℕ) : Option (Option (ℕ × ℕ)) :=
  if r.d.getD a 0 % 2 ^ 31 = 0 then if f32Le (b a) (r.o.getD a 0) && f32Le (r.o.getD a 0) (b (3 + a)) then some none else none
  else if f32IsNan (boxSide r b a a) || f32IsNan (boxSide r b a (3 + a)) then none else some (some (boxSpan r b a))

/-- An axis does not exclude the box. -/
def boxPass (r : Ray) (b : ℕ → ℕ) (a : ℕ) : Prop :=
  if r.d.getD a 0 % 2 ^ 31 = 0 then f32Le (b a) (r.o.getD a 0) = true ∧ f32Le (r.o.getD a 0) (b (3 + a)) = true
  else f32IsNan (boxSide r b a a) = false ∧ f32IsNan (boxSide r b a (3 + a)) = false

/-- The spans of the axes along which the ray moves. -/
def boxSpans (r : Ray) (b : ℕ → ℕ) : List (ℕ × ℕ) := ((List.range 3).map (boxAxis r b)).filterMap fun a => a.getD none

theorem boxHit_eq (r : Ray) (b : ℕ → ℕ) : boxHit r b = if ((List.range 3).map (boxAxis r b)).any (·.isNone) then none else
    if f32Le (((boxSpans r b).map Prod.fst).foldl fMaxC r.tmin) (((boxSpans r b).map Prod.snd).foldl fMinC r.t) then
      some (((boxSpans r b).map Prod.fst).foldl fMaxC r.tmin) else none := by
  rw [List.foldl_map, List.foldl_map]
  rfl

section
variable {r : Ray} {b : ℕ → ℕ}

theorem boxAxis_isNone {a : ℕ} : (boxAxis r b a).isNone = true ↔ ¬boxPass r b a := by
  unfold boxAxis boxPass
  split_ifs <;> simp_all
  grind

theorem any_isNone_iff : ((List.range 3).map (boxAxis r b)).any (·.isNone) = true ↔ ¬∀ a, a < 3 → boxPass r b a := by
  simp only [List.any_map, List.any_eq_true, List.mem_range, Function.comp_apply, boxAxis_isNone, not_forall, exists_prop]

theorem mem_boxSpans {p : ℕ × ℕ} (h : ∀ a, a < 3 → boxPass r b a) :
    p ∈ boxSpans r b ↔ ∃ a, a < 3 ∧ ¬r.flat a ∧ boxSpan r b a = p := by
  simp only [boxSpans, List.mem_filterMap, List.mem_map, List.mem_range, exists_exists_and_eq_and]
  refine exists_congr fun a => and_congr_right fun ha => ?_
  have hp := h a ha
  unfold boxPass at hp
  unfold boxAxis Ray.flat
  split_ifs at hp ⊢ <;> simp_all

theorem boxSpans_isNan (h : ∀ a, a < 3 → boxPass r b a) {p : ℕ × ℕ} (hp : p ∈ boxSpans r b) :
    f32IsNan p.1 = false ∧ f32IsNan p.2 = false := by
  obtain ⟨a, ha, hf, rfl⟩ := (mem_boxSpans h).mp hp
  have hs := h a ha
  rw [boxPass, if_neg (show ¬r.d.getD a 0 % 2 ^ 31 = 0 from hf)] at hs
  refine ⟨nextF_isNan ?_ _, nextF_isNan ?_ _⟩
  · obtain h | h := fMinC_eq (boxSide r b a a) (boxSide r b a (3 + a)) <;> simp [h, hs]
  · obtain h | h := fMaxC_eq (boxSide r b a a) (boxSide r b a (3 + a)) <;> simp [h, hs]

/-- A hit lies at or beyond each of these. -/
def Ray.near (r : Ray) (b : ℕ → ℕ) (x : ℕ) : Prop := x = r.tmin ∨ ∃ a, a < 3 ∧ ¬r.flat a ∧ x = (boxSpan r b a).1
/-- A hit lies at or before each of these. -/
def Ray.far (r : Ray) (b : ℕ → ℕ) (x : ℕ) : Prop := x = r.t ∨ ∃ a, a < 3 ∧ ¬r.flat a ∧ x = (boxSpan r b a).2

theorem near_iff (h : ∀ a, a < 3 → boxPass r b a) {x : ℕ} : r.near b x ↔ x ∈ r.tmin :: (boxSpans r b).map Prod.fst := by
  rw [List.mem_cons, List.mem_map, Ray.near]
  refine or_congr_right ⟨?_, ?_⟩
  · rintro ⟨a, ha, hf, rfl⟩
    exact ⟨_, (mem_boxSpans h).mpr ⟨a, ha, hf, rfl⟩, rfl⟩
  · rintro ⟨p, hp, rfl⟩
    obtain ⟨a, ha, hf, rfl⟩ := (mem_boxSpans h).mp hp
    exact ⟨a, ha, hf, rfl⟩

theorem far_iff (h : ∀ a, a < 3 → boxPass r b a) {x : ℕ} : r.far b x ↔ x ∈ r.t :: (boxSpans r b).map Prod.snd := by
  rw [List.mem_cons, List.mem_map, Ray.far]
  refine or_congr_right ⟨?_, ?_⟩
  · rintro ⟨a, ha, hf, rfl⟩
    exact ⟨_, (mem_boxSpans h).mpr ⟨a, ha, hf, rfl⟩, rfl⟩
  · rintro ⟨p, hp, rfl⟩
    obtain ⟨a, ha, hf, rfl⟩ := (mem_boxSpans h).mp hp
    exact ⟨a, ha, hf, rfl⟩

theorem boxHit_some {n : ℕ} (h : boxHit r b = some n) : (∀ a, a < 3 → boxPass r b a) ∧ r.near b n ∧
    (∀ x, r.near b x → f32Le x n = true) ∧ ∀ x, r.far b x → f32Le n x = true := by
  rw [boxHit_eq] at h
  split_ifs at h with hany hle
  rw [any_isNone_iff, not_not] at hany
  obtain rfl := Option.some.inj h
  obtain ⟨h1, h2, -⟩ := f32Le_iff.mp hle
  have hspan : ∀ p ∈ boxSpans r b, f32IsNan p.1 = false ∧ f32IsNan p.2 = false := fun p => boxSpans_isNan hany
  refine ⟨hany, (near_iff hany).mpr (foldl_mem_of_choice fMaxC_eq _ _), fun x hx => ?_, fun x hx => ?_⟩
  · exact foldl_bounds (R := fun x n => f32Le x n = true) f32Le_refl f32Le_trans (fun h => (f32Le_iff.mp h).1) le_fMaxC
      (by simpa using fun x y hxy => (hspan _ hxy).1) h1 x ((near_iff hany).mp hx)
  · exact f32Le_trans hle (foldl_bounds (R := fun x n => f32Le n x = true) f32Le_refl (fun h h' => f32Le_trans h' h)
      (fun h => (f32Le_iff.mp h).2.1) fMinC_le (by simpa using fun y x hxy => (hspan _ hxy).2) h2 x ((far_iff hany).mp hx))

theorem boxHit_none (h : boxHit r b = none) (hp : ∀ a, a < 3 → boxPass r b a) :
    ∃ x y, r.near b x ∧ r.far b y ∧ f32Le x y = false := by
  rw [boxHit_eq] at h
  split_ifs at h with hany hle
  · exact absurd hp (any_isNone_iff.mp hany)
  · exact ⟨_, _, (near_iff hp).mpr (foldl_mem_of_choice fMaxC_eq _ _), (far_iff hp).mpr (foldl_mem_of_choice fMinC_eq _ _),
      Bool.eq_false_iff.mpr hle⟩

end

end Sys2Proof.Machine
end

/-! PROOFS. O4: spans of pixels, and the queues of a primitive (10 R245). -/

section
namespace Sys2Proof.Machine

/-! ### Spans of pixels (09 R217, 10 R245) -/

/-- A pixel row or column meets three coordinates: the first lies below its far side, another beyond its near one. -/
def meetsAt (c : ℕ → ℤ) (X : ℤ) : Prop := (∃ k, k < 3 ∧ c k < 256 * (X + 1)) ∧ ∃ k, k < 3 ∧ 256 * X < c k

theorem exists_lt_three {P : ℕ → Prop} : (∃ k, k < 3 ∧ P k) ↔ P 0 ∨ P 1 ∨ P 2 := by
  constructor
  · rintro ⟨k, hk, h⟩
    interval_cases k <;> simp [h]
  · rintro (h | h | h)
    · exact ⟨0, by decide, h⟩
    · exact ⟨1, by decide, h⟩
    · exact ⟨2, by decide, h⟩

theorem meetsAt_iff (c : ℕ → ℤ) (X : ℤ) : meetsAt c X ↔ (pixSpan [c 0, c 1, c 2]).1 ≤ X ∧ X ≤ (pixSpan [c 0, c 1, c 2]).2 := by
  have hmin : minInt [c 0, c 1, c 2] = min (min (min (c 0) (c 0)) (c 1)) (c 2) := rfl
  have hmax : maxInt [c 0, c 1, c 2] = max (max (max (c 0) (c 0)) (c 1)) (c 2) := rfl
  rw [meetsAt, exists_lt_three, exists_lt_three, pixSpan, hmin, hmax]
  dsimp only
  omega

theorem meetsAt_congr {c d : ℕ → ℤ} (h : ∀ k, k < 3 → c k = d k) (X : ℤ) : meetsAt c X ↔ meetsAt d X := by
  rw [meetsAt, meetsAt, exists_lt_three, exists_lt_three, exists_lt_three, exists_lt_three, h 0 (by decide), h 1 (by decide), h 2 (by decide)]

/-! ### The queues of a primitive (10 R245) -/

/-- Tiles from that of one pixel to that of another. -/
def tileSpan (n : ℕ) (lo hi : ℤ) : List ℕ :=
  (List.range (hi.toNat / n - lo.toNat / n + 1)).map (lo.toNat / n + ·)

/-- The tiles that hold a pixel of a span, where the span is cut to the tiles there are. -/
theorem mem_tileSpan {n N t : ℕ} {a z : ℤ} (hn : 0 < n) (h : max a 0 ≤ min z (N * n - 1)) :
    t ∈ tileSpan n (max a 0) (min z (N * n - 1)) ↔ t < N ∧ ∃ X : ℕ, a ≤ X ∧ (X : ℤ) ≤ z ∧ X / n = t := by
  obtain ⟨l, hl⟩ := Int.eq_ofNat_of_zero_le (le_max_right a 0)
  obtain ⟨u, hu⟩ := Int.eq_ofNat_of_zero_le ((le_max_right a 0).trans h)
  have hlu : l ≤ u := by omega
  have hmem : t ∈ tileSpan n (max a 0) (min z (N * n - 1)) ↔ l / n ≤ t ∧ t ≤ u / n := by
    have hd : l / n ≤ u / n := Nat.div_le_div_right hlu
    simp only [tileSpan, hl, hu, List.mem_map, List.mem_range, Int.toNat_natCast]
    exact ⟨by rintro ⟨i, hi, rfl⟩; omega, fun ⟨h1, h2⟩ => ⟨t - l / n, by omega, by omega⟩⟩
  have hcast : ((N * n : ℕ) : ℤ) = N * n := Nat.cast_mul ..
  rw [hmem]
  constructor
  · rintro ⟨h1, h2⟩
    have h3 : t * n ≤ u := (Nat.le_div_iff_mul_le hn).mp h2
    have h4 : l < (t + 1) * n := (Nat.div_lt_iff_lt_mul hn).mp (Nat.lt_succ_of_le h1)
    refine ⟨Nat.lt_of_mul_lt_mul_right (a := n) (by omega), max l (t * n), by omega, by omega, ?_⟩
    exact Nat.div_eq_of_lt_le (by omega) (by have := Nat.succ_mul t n; rw [Nat.add_mul] at h4 ⊢; omega)
  · rintro ⟨ht, X, h1, h2, rfl⟩
    have h3 : X < N * n := (Nat.div_lt_iff_lt_mul hn).mp ht
    exact ⟨Nat.div_le_div_right (by omega), Nat.div_le_div_right (by omega)⟩

theorem tileSpan_pairwise (n : ℕ) (lo hi : ℤ) : (tileSpan n lo hi).Pairwise (· < ·) := by
  rw [tileSpan, List.pairwise_map]
  exact List.pairwise_lt_range.imp fun h => by omega

/-- Numbers of tiles, row by row. -/
def tileQueues (w : ℕ) (ys xs : List ℕ) : List ℕ := ys.flatMap fun ty => xs.map fun tx => ty * w + tx

theorem tileQueues_pairwise {w : ℕ} {ys xs : List ℕ} (hy : ys.Pairwise (· < ·)) (hx : xs.Pairwise (· < ·)) (hw : ∀ x ∈ xs, x < w) :
    (tileQueues w ys xs).Pairwise (· < ·) := by
  rw [tileQueues, List.pairwise_flatMap]
  refine ⟨fun y _ => List.pairwise_map.mpr (hx.imp fun h => by omega), hy.imp fun {y y'} h p hp q hq => ?_⟩
  obtain ⟨x, hxm, rfl⟩ := List.mem_map.mp hp
  obtain ⟨x', -, rfl⟩ := List.mem_map.mp hq
  have h1 := hw x hxm
  have h2 := Nat.mul_le_mul_right w h
  have h3 := Nat.succ_mul y w
  omega

theorem mem_tileQueues {w n : ℕ} {ys xs : List ℕ} (h0 : 0 < w) (hw : ∀ x ∈ xs, x < w) :
    n ∈ tileQueues w ys xs ↔ n / w ∈ ys ∧ n % w ∈ xs := by
  simp only [tileQueues, List.mem_flatMap, List.mem_map]
  constructor
  · rintro ⟨y, hy, x, hx, rfl⟩
    have hlt := hw x hx
    rw [mul_comm, Nat.mul_add_div h0, Nat.div_eq_of_lt hlt, Nat.mul_add_mod, Nat.mod_eq_of_lt hlt]
    exact ⟨hy, hx⟩
  · exact fun ⟨hy, hx⟩ => ⟨_, hy, _, hx, Nat.div_add_mod' n w⟩

/-- The queues of a primitive within the coordinate limits, by its spans of pixels. -/
theorem binQueues_eq (b : BinG) (size : Bool) (thr : ℕ) (v : ℕ → ℕ) (h : ∀ k, k < 6 → -2 ^ 25 ≤ sint 32 (v k) ∧ sint 32 (v k) < 2 ^ 25) :
    binQueues b size thr v =
      let xs := pixSpan [sint 32 (v 0), sint 32 (v 2), sint 32 (v 4)]
      let ys := pixSpan [sint 32 (v 1), sint 32 (v 3), sint 32 (v 5)]
      let t : ℤ := if thr = 0 then 2 else thr
      if xs.2 - xs.1 + 1 ≤ 0 || ys.2 - ys.1 + 1 ≤ 0 then .ok []
      else if size && xs.2 - xs.1 + 1 ≤ t && ys.2 - ys.1 + 1 ≤ t then .ok [b.tx * b.ty]
      else
        if min xs.2 (b.tx * b.tsz - 1) < max xs.1 0 || min ys.2 (b.ty * b.tsz - 1) < max ys.1 0 then .ok []
        else .ok (tileQueues b.tx (tileSpan b.tsz (max ys.1 0) (min ys.2 (b.ty * b.tsz - 1)))
          (tileSpan b.tsz (max xs.1 0) (min xs.2 (b.tx * b.tsz - 1)))) := by
  have hf : ((List.range 6).find? fun k => decide (sint 32 (v k) < -2 ^ 25) || decide (2 ^ 25 ≤ sint 32 (v k))) = none := by
    rw [List.find?_eq_none]
    intro k hk
    have := h k (List.mem_range.mp hk)
    simp only [Bool.or_eq_true, decide_eq_true_eq]
    omega
  rw [binQueues]
  dsimp only
  rw [hf]
  rfl

section
variable {b : BinG} {size : Bool} {thr : ℕ} {v : ℕ → W32}

/-- The queues of a primitive: the last one where it is small, else those of the tiles that its box meets, in order. -/
theorem binQueues_spec (hx0 : 0 < b.tx) (ht : 0 < b.tsz)
    (h : ∀ k, k < 6 → -2 ^ 25 ≤ (v k).toInt ∧ (v k).toInt < 2 ^ 25) {P Q : ℤ → Prop}
    (hP : ∀ X, P X ↔ meetsAt (fun k => (v (2 * k)).toInt) X) (hQ : ∀ X, Q X ↔ meetsAt (fun k => (v (2 * k + 1)).toInt) X)
    {small : Prop} (hs : small ↔ size = true ∧ (∃ X Y, P X ∧ Q Y) ∧ ∀ X Y X' Y', P X ∧ Q Y → P X' ∧ Q Y' →
      X' - X < (if thr = 0 then 2 else thr : ℤ) ∧ Y' - Y < (if thr = 0 then 2 else thr : ℤ)) :
    ∃ qs, binQueues b size thr (fun k => (v k).toNat) = .ok qs ∧ (small → qs = [b.tx * b.ty]) ∧
      (¬small → qs.Pairwise (· < ·) ∧ ∀ n, n ∈ qs ↔ n < b.tx * b.ty
        ∧ ∃ X Y : ℕ, (P X ∧ Q Y) ∧ X / b.tsz = n % b.tx ∧ Y / b.tsz = n / b.tx) := by
  have hsint : ∀ k, sint 32 (v k).toNat = (v k).toInt := fun k => signedNat_toNat (v k)
  rw [binQueues_eq _ _ _ _ (by simpa only [hsint] using h)]
  simp only [hsint]
  simp only [meetsAt_iff] at hP hQ
  change ∀ X, P X ↔ (pixSpan [(v 0).toInt, (v 2).toInt, (v 4).toInt]).1 ≤ X ∧ X ≤ (pixSpan [(v 0).toInt, (v 2).toInt, (v 4).toInt]).2 at hP
  change ∀ X, Q X ↔ (pixSpan [(v 1).toInt, (v 3).toInt, (v 5).toInt]).1 ≤ X ∧ X ≤ (pixSpan [(v 1).toInt, (v 3).toInt, (v 5).toInt]).2 at hQ
  generalize pixSpan [(v 0).toInt, (v 2).toInt, (v 4).toInt] = xs at hP ⊢
  generalize pixSpan [(v 1).toInt, (v 3).toInt, (v 5).toInt] = ys at hQ ⊢
  generalize (if thr = 0 then 2 else thr : ℤ) = t at hs ⊢
  obtain ⟨x0, x1⟩ := xs
  obtain ⟨y0, y1⟩ := ys
  simp only [hP, hQ] at hs ⊢
  have hsmall : small ↔ size = true ∧ (x0 ≤ x1 ∧ y0 ≤ y1) ∧ x1 - x0 < t ∧ y1 - y0 < t := by
    rw [hs]
    refine and_congr_right fun _ => ⟨fun ⟨⟨X, Y, hX, hY⟩, hall⟩ => ?_, fun ⟨⟨hx, hy⟩, h1, h2⟩ => ?_⟩
    · have := hall x0 y0 x1 y1 (by omega) (by omega)
      omega
    · exact ⟨⟨x0, y0, by omega⟩, fun X Y X' Y' _ _ => by omega⟩
  simp only [hsmall]
  by_cases hempty : x1 < x0 ∨ y1 < y0
  · rw [if_pos (by simp only [Bool.or_eq_true, decide_eq_true_eq]; omega)]
    exact ⟨[], rfl, fun h => by omega, fun _ => ⟨.nil, fun n => iff_of_false List.not_mem_nil (by rintro ⟨-, X, Y, h, -⟩; omega)⟩⟩
  rw [if_neg (by simp only [Bool.or_eq_true, decide_eq_true_eq]; omega)]
  by_cases hsm : size = true ∧ (x0 ≤ x1 ∧ y0 ≤ y1) ∧ x1 - x0 < t ∧ y1 - y0 < t
  · rw [if_pos (by simp only [Bool.and_eq_true, decide_eq_true_eq]; exact ⟨⟨hsm.1, by omega⟩, by omega⟩)]
    exact ⟨_, rfl, fun _ => rfl, fun h => absurd hsm h⟩
  rw [if_neg (by simp only [Bool.and_eq_true, decide_eq_true_eq]; exact fun ⟨⟨h1, h2⟩, h3⟩ => hsm ⟨h1, by omega, by omega⟩)]
  by_cases hout : min x1 (b.tx * b.tsz - 1) < max x0 0 ∨ min y1 (b.ty * b.tsz - 1) < max y0 0
  · rw [if_pos (by simpa only [Bool.or_eq_true, decide_eq_true_eq] using hout)]
    refine ⟨[], rfl, fun h => absurd h hsm, fun _ => ⟨.nil, fun n => iff_of_false List.not_mem_nil ?_⟩⟩
    rintro ⟨hn, X, Y, h, hX, hY⟩
    have h1 : X < b.tx * b.tsz := (Nat.div_lt_iff_lt_mul ht).mp (hX ▸ Nat.mod_lt _ hx0)
    have h2 : Y < b.ty * b.tsz := (Nat.div_lt_iff_lt_mul ht).mp (hY ▸ Nat.div_lt_of_lt_mul hn)
    zify at h1 h2
    omega
  · rw [if_neg (by simpa only [Bool.or_eq_true, decide_eq_true_eq] using hout)]
    rw [not_or, not_lt, not_lt] at hout
    have hmx : ∀ t ∈ tileSpan b.tsz (max x0 0) (min x1 (b.tx * b.tsz - 1)), t < b.tx := fun t h => ((mem_tileSpan ht hout.1).mp h).1
    refine ⟨_, rfl, fun h => absurd h hsm, fun _ => ⟨tileQueues_pairwise (tileSpan_pairwise ..) (tileSpan_pairwise ..) hmx, fun n => ?_⟩⟩
    rw [mem_tileQueues hx0 hmx, mem_tileSpan ht hout.1, mem_tileSpan ht hout.2, Nat.div_lt_iff_lt_mul hx0, mul_comm b.ty]
    constructor
    · rintro ⟨⟨hn, Y, h1, h2, h3⟩, -, X, h4, h5, h6⟩
      exact ⟨hn, X, Y, ⟨⟨h4, h5⟩, h1, h2⟩, h6, h3⟩
    · rintro ⟨hn, X, Y, ⟨⟨h4, h5⟩, h1, h2⟩, h6, h3⟩
      exact ⟨⟨hn, Y, h1, h2, h3⟩, Nat.mod_lt _ hx0, X, h4, h5, h6⟩

end

end Sys2Proof.Machine
end

/-! PROOFS. O4: block steps of the matrix array (02 R42 to R44). -/

section
namespace Sys2Proof.Machine

/-! ### Block steps of the matrix array (02 R42 to R44) -/

/-- The accumulator after a block, with the flags that a step keeps. -/
def addBlock (acc : ℕ) (b : FRes) : ℕ × Flg :=
  ((fAdd false .rne acc b.1).1, (b.2 ||| (fAdd false .rne acc b.1).2) &&& (fNV ||| fOF))

theorem addNE_eq (a b : ℕ) : addNE a b = fAdd false .rne a b := by
  rw [fAdd, flush32_false, read32_false, read32_false, addNE]

/-- A block has no number: a NaN, a NaN scale, or infinities of both signs. -/
def blockBad (ps : List FVal) (sa sb : ℕ) : Prop :=
  (∃ p ∈ ps, p.isNan = true) ∨ sa = 255 ∨ sb = 255 ∨ (.inf true ∈ ps ∧ .inf false ∈ ps)

theorem any_inf_iff {ps : List FVal} (s : Bool) : (ps.any fun p => p.isInf && (p.sign == s)) = true ↔ .inf s ∈ ps := by
  rw [List.any_eq_true]
  constructor
  · rintro ⟨p, hp, h⟩
    cases p <;> simp_all [FVal.isInf, FVal.sign]
  · exact fun h => ⟨_, h, by simp [FVal.isInf, FVal.sign]⟩

theorem any_inf_true {ps : List FVal} : (ps.any fun p => p.isInf && p.sign) = true ↔ .inf true ∈ ps := by
  simpa using any_inf_iff (ps := ps) true

theorem any_inf_false {ps : List FVal} : (ps.any fun p => p.isInf && !p.sign) = true ↔ .inf false ∈ ps := by
  simpa using any_inf_iff (ps := ps) false

section
variable {acc sa sb : ℕ} {ps : List FVal} {win : Bool}

/-- The terms that a block sums. -/
def blockTerms (ps : List FVal) (sa sb : ℕ) (win : Bool) : List FVal := (pathTerms win ps).map (scaleBy ((sa : ℤ) + sb - 254))

theorem blockStep_bad (h : blockBad ps sa sb) : blockStep acc ps sa sb win = (fmtFp32.nanCode, fNV) := by
  have hbad : (ps.any (·.isNan) || decide (sa = 255) || decide (sb = 255)
      || (ps.any (fun p => p.isInf && p.sign) && ps.any fun p => p.isInf && !p.sign)) = true := by
    rw [Bool.or_eq_true, Bool.or_eq_true, Bool.or_eq_true, Bool.and_eq_true, any_inf_true, any_inf_false, List.any_eq_true,
      decide_eq_true_eq, decide_eq_true_eq, or_assoc, or_assoc]
    exact h
  have hnan : decodeF fmtFp32 fmtFp32.nanCode = .nan false := by decide
  rw [blockStep, hbad, if_pos rfl, addNE_eq, fAdd, flush32_false, read32_false, read32_false, hnan, sumRound]
  rw [if_pos (by simp [FVal.isNan])]
  simp only [nanRes]
  split_ifs <;> rfl

theorem blockStep_eq (h : ¬blockBad ps sa sb) :
    blockStep acc ps sa sb win = addBlock acc (sumRound fmtFp32 .rne (blockTerms ps sa sb win)) := by
  have hbad : (ps.any (·.isNan) || decide (sa = 255) || decide (sb = 255)
      || (ps.any (fun p => p.isInf && p.sign) && ps.any fun p => p.isInf && !p.sign)) = false := by
    rw [← Bool.not_eq_true, Bool.or_eq_true, Bool.or_eq_true, Bool.or_eq_true, Bool.and_eq_true, any_inf_true, any_inf_false,
      List.any_eq_true, decide_eq_true_eq, decide_eq_true_eq, or_assoc, or_assoc]
    exact h
  rw [blockStep, hbad, addNE_eq]
  rfl

/-- The window cuts finite terms only. -/
theorem inf_mem_blockTerms {s : Bool} : .inf s ∈ blockTerms ps sa sb win ↔ .inf s ∈ ps := by
  have hscale : ∀ k v, scaleBy k v = .inf s ↔ v = .inf s := fun k v => by cases v <;> simp [scaleBy]
  have hcut : ∀ g v, cutTo g v = .inf s ↔ v = .inf s := fun g v => by
    cases v <;> simp [cutTo]
    split_ifs <;> simp
  simp only [blockTerms, List.mem_map, hscale, exists_eq_right]
  rw [pathTerms]
  split_ifs
  · rfl
  · split
    · rfl
    · simp only [List.mem_map, hcut, exists_eq_right]

theorem isNan_blockTerms : (blockTerms ps sa sb win).any (·.isNan) = ps.any (·.isNan) := by
  have hscale : ∀ k v, (scaleBy k v).isNan = v.isNan := fun k v => by cases v <;> rfl
  have hcut : ∀ g v, (cutTo g v).isNan = v.isNan := fun g v => by
    cases v <;> simp [cutTo, FVal.isNan]
    split_ifs <;> rfl
  rw [blockTerms, pathTerms]
  split_ifs
  · simp [List.any_map, Function.comp_def, hscale]
  · split <;> simp [List.any_map, Function.comp_def, hscale, hcut]

/-- An infinity among the products is the sum. -/
theorem sumRound_inf (h : ¬blockBad ps sa sb) {s : Bool} (hs : .inf s ∈ ps) :
    sumRound fmtFp32 .rne (blockTerms ps sa sb win) = (if s = true then 0xFF800000 else 0x7F800000, 0) := by
  rw [blockBad, not_or, not_or, not_or] at h
  obtain ⟨hn, -, -, hi⟩ := h
  have hnan : ((blockTerms ps sa sb win).any (·.isNan)) = false := by
    rwa [isNan_blockTerms, ← Bool.not_eq_true, List.any_eq_true]
  have ht := any_inf_true (ps := blockTerms ps sa sb win)
  have hf := any_inf_false (ps := blockTerms ps sa sb win)
  rw [inf_mem_blockTerms] at ht hf
  rw [sumRound, hnan]
  cases s
  · have hno : ¬.inf true ∈ ps := fun h => hi ⟨h, hs⟩
    rw [Bool.eq_false_iff.mpr (mt ht.mp hno), hf.mpr hs]
    rfl
  · have hno : ¬.inf false ∈ ps := fun h => hi ⟨hs, h⟩
    rw [Bool.eq_false_iff.mpr (mt hf.mp hno), ht.mpr hs]
    rfl

theorem isFin_of_block (h : ¬blockBad ps sa sb) (hinf : ∀ s, .inf s ∉ ps) : ∀ p ∈ ps, IsFin p := fun p hp => by
  cases p with
  | fin s m e => exact ⟨s, m, e, rfl⟩
  | inf s => exact absurd hp (hinf s)
  | nan g => exact absurd (.inl ⟨_, hp, rfl⟩) h

end

/-! ### The window -/

theorem finValue_scaleBy {v : FVal} (hv : IsFin v) (k : ℤ) :
    IsFin (scaleBy k v) ∧ finValue (scaleBy k v) = finValue v * (2 : ℚ) ^ k ∧ (scaleBy k v).sign = v.sign := by
  obtain ⟨s, m, e, rfl⟩ := hv
  refine ⟨⟨s, m, e + k, rfl⟩, ?_, rfl⟩
  rw [scaleBy, finValue_fin, finValue_fin, zpow_add₀ two_ne_zero]
  ring

/-- A value cut to a multiple of a unit, towards 0. -/
def cutVal (u a : ℚ) : ℚ := (if a < 0 then -1 else 1) * (⌊|a| / u⌋ : ℚ) * u

theorem finValue_cutTo {v : FVal} (hv : IsFin v) (g : ℤ) :
    IsFin (cutTo g v) ∧ finValue (cutTo g v) = cutVal ((2 : ℚ) ^ g) (finValue v) := by
  obtain ⟨s, m, e, rfl⟩ := hv
  have hg : (0 : ℚ) < (2 : ℚ) ^ g := by positivity
  have he : (0 : ℚ) < (2 : ℚ) ^ e := by positivity
  have hsgn : ∀ n : ℕ, (m = 0 → n = 0) → (if finValue (.fin s m e) < 0 then -1 else 1 : ℚ) * n = (if s = true then -1 else 1) * n := fun n hn => by
    obtain rfl | hm := Nat.eq_zero_or_pos m
    · simp [hn rfl]
    · have hpos : (0 : ℚ) < m * (2 : ℚ) ^ e := by positivity
      rw [finValue_fin]
      cases s <;> simp [hpos, hpos.not_gt]
  rw [cutVal, abs_finValue]
  by_cases h : e ≤ g
  · rw [cutTo, if_pos h]
    refine ⟨⟨s, _, g, rfl⟩, ?_⟩
    have hq : (m : ℚ) * (2 : ℚ) ^ e / (2 : ℚ) ^ g = (m : ℚ) / (2 ^ (g - e).toNat : ℕ) := by
      have : (2 : ℚ) ^ g = (2 : ℚ) ^ e * (2 ^ (g - e).toNat : ℕ) := by
        push_cast
        rw [← zpow_natCast, Int.toNat_of_nonneg (by omega), ← zpow_add₀ two_ne_zero]
        congr 1
        omega
      rw [this, mul_comm _ ((2 : ℚ) ^ e), mul_div_mul_left _ _ he.ne']
    have hfl : ⌊(m : ℚ) / (2 ^ (g - e).toNat : ℕ)⌋ = ((m / 2 ^ (g - e).toNat : ℕ) : ℤ) := by
      rw [Rat.floor_natCast_div_natCast]
      rfl
    rw [hq, hfl, Int.cast_natCast, hsgn _ (by rintro rfl; exact Nat.zero_div _), finValue_fin, mul_assoc]
  · rw [cutTo, if_neg h]
    refine ⟨⟨s, _, e, rfl⟩, ?_⟩
    have hq : (m : ℚ) * (2 : ℚ) ^ e / (2 : ℚ) ^ g = ((m * 2 ^ (e - g).toNat : ℕ) : ℚ) := by
      push_cast
      rw [← zpow_natCast, Int.toNat_of_nonneg (by omega), zpow_sub₀ two_ne_zero, mul_div_assoc]
    rw [hq, Int.floor_natCast, Int.cast_natCast, hsgn _ (by rintro rfl; exact Nat.zero_mul _), ← hq, finValue_fin,
      mul_assoc _ (_ / _), div_mul_cancel₀ _ hg.ne']

theorem FVal.lg_spec {s : Bool} {m : ℕ} {e : ℤ} (hm : m ≠ 0) :
    ∃ k : ℤ, FVal.lg (.fin s m e) = some k ∧ (2 : ℚ) ^ k ≤ |finValue (.fin s m e)| ∧ |finValue (.fin s m e)| < (2 : ℚ) ^ (k + 1) := by
  have he : (0 : ℚ) < (2 : ℚ) ^ e := by positivity
  refine ⟨(Nat.log2 m : ℤ) + e, if_neg hm, ?_, ?_⟩
  · rw [abs_finValue, zpow_add₀ two_ne_zero, zpow_natCast]
    exact mul_le_mul_of_nonneg_right (by exact_mod_cast Nat.log2_self_le hm) he.le
  · rw [abs_finValue, add_right_comm, ← Nat.cast_succ, zpow_add₀ two_ne_zero, zpow_natCast]
    exact mul_lt_mul_of_pos_right (by exact_mod_cast Nat.lt_log2_self) he

theorem foldl_max_eq {x e : ℤ} {xs : List ℤ} (hm : e ∈ x :: xs) (hle : ∀ y ∈ x :: xs, y ≤ e) : xs.foldl max x = e := by
  induction xs generalizing x with
  | nil => exact (List.mem_singleton.mp hm).symm
  | cons y ys ih =>
    rw [List.foldl_cons]
    have hx := hle x (.head _)
    have hy := hle y (.tail _ (.head _))
    refine ih ?_ fun z hz => ?_
    · obtain _ | ⟨_, _ | ⟨_, h⟩⟩ := hm
      · exact List.mem_cons.mpr (.inl (by omega))
      · exact List.mem_cons.mpr (.inl (by omega))
      · exact .tail _ h
    · obtain _ | ⟨_, h⟩ := hz
      · omega
      · exact hle z (.tail _ (.tail _ h))

section
variable {ps : List FVal} {emax : ℤ} {win : Bool}

/-- With the window, finite terms are cut below the leading 28 bits of the largest. -/
theorem pathTerms_win (hfin : ∀ p ∈ ps, IsFin p) (hlo : ∃ p ∈ ps, (2 : ℚ) ^ emax ≤ |finValue p|)
    (hhi : ∀ p ∈ ps, |finValue p| < (2 : ℚ) ^ (emax + 1)) : pathTerms true ps = ps.map (cutTo (emax - 27)) := by
  have hmono : StrictMono fun k : ℤ => (2 : ℚ) ^ k := zpow_right_strictMono₀ one_lt_two
  have hle : ∀ y ∈ ps.filterMap FVal.lg, y ≤ emax := fun y hy => by
    obtain ⟨p, hp, hl⟩ := List.mem_filterMap.mp hy
    obtain ⟨s, m, e, rfl⟩ := hfin p hp
    have hm : m ≠ 0 := by
      rintro rfl
      simp [FVal.lg] at hl
    obtain ⟨k, hk, h1, -⟩ := FVal.lg_spec (s := s) (e := e) hm
    rw [hk, Option.some.injEq] at hl
    have := hmono.lt_iff_lt.mp (h1.trans_lt (hhi _ hp))
    omega
  have hmem : emax ∈ ps.filterMap FVal.lg := by
    obtain ⟨p, hp, h2⟩ := hlo
    obtain ⟨s, m, e, rfl⟩ := hfin p hp
    have hm : m ≠ 0 := by
      rintro rfl
      rw [finValue_eq_zero.mpr rfl, abs_zero] at h2
      exact absurd h2 (not_le.mpr (by positivity))
    obtain ⟨k, hk, -, h3⟩ := FVal.lg_spec (s := s) (e := e) hm
    have h4 := hmono.lt_iff_lt.mp (h2.trans_lt h3)
    have h5 := hle k (List.mem_filterMap.mpr ⟨_, hp, hk⟩)
    exact List.mem_filterMap.mpr ⟨_, hp, by rw [hk]; congr 1; omega⟩
  rw [pathTerms]
  cases hl : ps.filterMap FVal.lg with
  | nil => rw [hl] at hmem; cases hmem
  | cons x xs =>
    rw [hl] at hmem hle
    change ps.map (cutTo (xs.foldl max x - 27)) = _
    rw [foldl_max_eq hmem hle]

theorem pathTerms_zero (hz : ∀ p ∈ ps, IsFin p ∧ finValue p = 0) : pathTerms win ps = ps := by
  have hl : ps.filterMap FVal.lg = [] := List.filterMap_eq_nil_iff.mpr fun p hp => by
    obtain ⟨⟨s, m, e, rfl⟩, h⟩ := hz p hp
    rw [finValue_eq_zero] at h
    simp [FVal.lg, h]
  rw [pathTerms, hl]
  exact ite_self _

end

/-! ### Blocks of finite terms -/

section
variable {ps : List FVal} {sa sb : ℕ} {win : Bool} {cut : ℚ → ℚ}

/-- The sum of a block, where `cut` is what its path makes of each term. -/
theorem sumRound_block {g : FVal → FVal} (hp : pathTerms win ps = ps.map g) (hg : ∀ p ∈ ps, IsFin (g p) ∧ finValue (g p) = cut (finValue p)) :
    (∀ t ∈ blockTerms ps sa sb win, IsFin t) ∧ ((blockTerms ps sa sb win).map finValue).sum
      = (ps.map fun p => cut (finValue p)).sum * (2 : ℚ) ^ ((sa : ℤ) + sb - 254) := by
  rw [blockTerms, hp]
  simp only [List.mem_map, List.map_map]
  refine ⟨?_, ?_⟩
  · rintro _ ⟨p, hm, rfl⟩
    exact (finValue_scaleBy (hg p hm).1 _).1
  · rw [← List.sum_map_mul_right]
    congr 1
    refine List.map_congr_left fun p hm => ?_
    rw [Function.comp_apply, Function.comp_apply, (finValue_scaleBy (hg p hm).1 _).2.1, (hg p hm).2]

/-- Zeros add up to a zero, negative where all are. -/
theorem sumRound_zeros (hz : ∀ p ∈ ps, IsFin p ∧ finValue p = 0) :
    sumRound fmtFp32 .rne (blockTerms ps sa sb win) = (if ∀ p ∈ ps, p.sign = true then 2 ^ 31 else 0, 0) := by
  obtain ⟨hfin, hsum⟩ := sumRound_block (sa := sa) (sb := sb) (cut := id) (g := id) ((pathTerms_zero hz).trans (List.map_id _).symm)
    fun p hp => ⟨(hz p hp).1, rfl⟩
  have h0 : (ps.map fun p => id (finValue p)).sum = 0 :=
    List.sum_eq_zero (by simpa using fun p hp => (hz p hp).2)
  rw [sumRound_fin hfin, if_pos (by rw [hsum, h0, zero_mul])]
  have hsign : ((blockTerms ps sa sb win).all fun t => t.isZero && t.sign) = true ↔ ∀ p ∈ ps, p.sign = true := by
    rw [blockTerms, pathTerms_zero hz]
    simp only [List.all_map, List.all_eq_true, Function.comp_apply, Bool.and_eq_true]
    refine forall₂_congr fun p hp => ?_
    obtain ⟨h1, h2, h3⟩ := finValue_scaleBy (hz p hp).1 ((sa : ℤ) + sb - 254)
    rw [h3, isZero_iff h1, h2, (hz p hp).2, zero_mul, eq_self_iff_true, true_and]
  rw [zeroSumSign]
  by_cases h : ∀ p ∈ ps, p.sign = true
  · rw [if_pos (hsign.mpr h), if_pos h]
    rfl
  · rw [if_neg (mt hsign.mp h), if_neg h]
    split_ifs <;> rfl

/-- A sum that is 0 though a term is not is +0. -/
theorem sumRound_cancel {g : FVal → FVal} (hp : pathTerms win ps = ps.map g)
    (hg : ∀ p ∈ ps, IsFin (g p) ∧ finValue (g p) = cut (finValue p)) (hne : ∃ p ∈ ps, cut (finValue p) ≠ 0)
    (h0 : (ps.map fun p => cut (finValue p)).sum = 0) : sumRound fmtFp32 .rne (blockTerms ps sa sb win) = (0, 0) := by
  obtain ⟨hfin, hsum⟩ := sumRound_block (sa := sa) (sb := sb) hp hg
  obtain ⟨p, hm, hpne⟩ := hne
  obtain ⟨h1, h2, -⟩ := finValue_scaleBy (hg p hm).1 ((sa : ℤ) + sb - 254)
  have hnz : (scaleBy ((sa : ℤ) + sb - 254) (g p)).isZero = false := by
    rw [← Bool.not_eq_true, isZero_iff h1, h2, (hg p hm).2]
    exact mul_ne_zero hpne (by positivity)
  have hmem : scaleBy ((sa : ℤ) + sb - 254) (g p) ∈ blockTerms ps sa sb win := by
    rw [blockTerms, hp]
    exact List.mem_map_of_mem (List.mem_map_of_mem hm)
  have hall : ∀ q : FVal → Bool, ((blockTerms ps sa sb win).all fun t => t.isZero && q t) = false := fun q =>
    List.all_eq_false.mpr ⟨_, hmem, by simp [hnz]⟩
  rw [sumRound_fin hfin, if_pos (by rw [hsum, h0, zero_mul]), zeroSumSign, hall, hall]
  rfl

/-- A block is its exact sum, scaled and rounded once. -/
theorem sumRound_block_rounded {g : FVal → FVal} (hp : pathTerms win ps = ps.map g)
    (hg : ∀ p ∈ ps, IsFin (g p) ∧ finValue (g p) = cut (finValue p)) (hne : (ps.map fun p => cut (finValue p)).sum ≠ 0) :
    Rounded fmtFp32 .rne (((ps.map fun p => cut (finValue p)).sum * (2 : ℚ) ^ ((sa : ℤ) - 127) * (2 : ℚ) ^ ((sb : ℤ) - 127) : ℚ) : ℝ)
      (sumRound fmtFp32 .rne (blockTerms ps sa sb win)) := by
  obtain ⟨hfin, hsum⟩ := sumRound_block (sa := sa) (sb := sb) hp hg
  have hexp : (sa : ℤ) + sb - 254 = (sa - 127 : ℤ) + (sb - 127) := by ring
  rw [mul_assoc, ← zpow_add₀ two_ne_zero, ← hexp, ← hsum]
  exact sumRound_rounded (rnd := .rne) fmtFp32_ieee trivial hfin (by rw [hsum]; exact mul_ne_zero hne (by positivity))

/-- The window keeps the leading bit of the largest term. -/
theorem cutVal_ne_zero {emax : ℤ} {a : ℚ} (h : (2 : ℚ) ^ emax ≤ |a|) : cutVal ((2 : ℚ) ^ (emax - 27)) a ≠ 0 := by
  have hg : (0 : ℚ) < (2 : ℚ) ^ (emax - 27) := by positivity
  have h1 : (1 : ℤ) ≤ ⌊|a| / (2 : ℚ) ^ (emax - 27)⌋ := by
    rw [Int.le_floor, le_div_iff₀ hg, Int.cast_one, one_mul]
    exact (zpow_le_zpow_right₀ one_le_two (by omega)).trans h
  have h2 : (⌊|a| / (2 : ℚ) ^ (emax - 27)⌋ : ℚ) ≠ 0 := by exact_mod_cast (by omega : ⌊|a| / (2 : ℚ) ^ (emax - 27)⌋ ≠ 0)
  exact mul_ne_zero (mul_ne_zero (by split_ifs <;> norm_num) h2) hg.ne'

/-- What a path makes of a block of finite terms: the terms themselves, or cut to the window. -/
theorem exists_path {emax : ℤ} (hfin : ∀ p ∈ ps, IsFin p) (hlo : ∃ p ∈ ps, (2 : ℚ) ^ emax ≤ |finValue p|)
    (hhi : ∀ p ∈ ps, |finValue p| < (2 : ℚ) ^ (emax + 1))
    (hcut : ∀ a, cut a = if win = true then cutVal ((2 : ℚ) ^ (emax - 27)) a else a) :
    ∃ g : FVal → FVal, pathTerms win ps = ps.map g ∧ (∀ p ∈ ps, IsFin (g p) ∧ finValue (g p) = cut (finValue p)) ∧
      ∃ p ∈ ps, cut (finValue p) ≠ 0 := by
  obtain ⟨p, hp, hle⟩ := hlo
  cases win with
  | false =>
    refine ⟨id, (List.map_id ps).symm, fun p hp => ⟨hfin p hp, by rw [hcut]; rfl⟩, p, hp, ?_⟩
    rw [hcut]
    exact abs_pos.mp (lt_of_lt_of_le (by positivity) hle)
  | true =>
    refine ⟨cutTo (emax - 27), pathTerms_win hfin ⟨p, hp, hle⟩ hhi, fun p hp => ?_, p, hp, ?_⟩
    · rw [hcut]
      exact finValue_cutTo (hfin p hp) _
    · rw [hcut]
      exact cutVal_ne_zero hle

end

end Sys2Proof.Machine
end

/-! PROOFS. O4: setup of a triangle (09 R217). -/

section
namespace Sys2Proof.Machine

/-! ### Registers of a state block (09 R216) -/

/-- A lane of a gang that reads what is written to its registers, with a whole block. -/
structure MCtx.Holds (m : MCtx) (s : State) (l : ℕ) : Prop where
  live : ∃ g, s.gangs.find? m.gid = some g ∧ g.laneStatus l ≠ 0
  block : m.mw.vs.toNat + 24 ≤ 256

section
variable {m : MCtx} {s : State} {l : ℕ}

theorem MCtx.Holds.putSt (h : m.Holds s l) (k x : ℕ) : m.Holds (m.putSt s l k x) l := by
  obtain ⟨⟨g, hg, hs⟩, hb⟩ := h
  exact ⟨⟨g.macPut l (m.mw.vs.toNat + k) (BitVec.ofNat 32 x), by rw [MCtx.putSt, MCtx.put, State.updGang_gangs, SMap.find?_upd_self, hg]; rfl, hs⟩, hb⟩

theorem MCtx.st_putSt (h : m.Holds s l) {j k : ℕ} (hj : j < 24) (hk : k < 24) (x : ℕ) :
    m.st (m.putSt s l k x) l j = if j = k then BitVec.ofNat 32 x else m.st s l j := by
  obtain ⟨⟨g, hg, hs⟩, hb⟩ := h
  have hv := v_putV g (l := l) (l' := l) (r := m.mw.vs.toNat + k) (r' := m.mw.vs.toNat + j) (BitVec.ofNat 32 x) (by omega) (by omega)
  rw [MCtx.st, MCtx.st, State.gv, State.gv, MCtx.putSt, MCtx.put, State.updGang_gangs, SMap.find?_upd_self, hg]
  change (g.withVr (g.vr.put 0 (vkey l (m.mw.vs.toNat + k)) (BitVec.ofNat 32 x))).v l _ = _
  rw [hv, if_neg hs]
  simp

theorem MCtx.putSts_cons (k x : ℕ) (xs : List ℕ) : m.putSts s l k (x :: xs) = m.putSts (m.putSt s l k x) l (k + 1) xs := by
  rw [MCtx.putSts, MCtx.putSts, List.zipIdx_cons, List.foldl_cons, zero_add, List.zipIdx_succ, List.foldl_map]
  simp only [Nat.add_zero, Nat.add_assoc, Nat.add_comm 1]

theorem MCtx.st_putSts {xs : List ℕ} {k : ℕ} (h : m.Holds s l) (hk : k + xs.length ≤ 24) :
    m.Holds (m.putSts s l k xs) l ∧ ∀ j, j < 24 → m.st (m.putSts s l k xs) l j
      = if k ≤ j ∧ j < k + xs.length then BitVec.ofNat 32 (xs.getD (j - k) 0) else m.st s l j := by
  induction xs generalizing s k with
  | nil => exact ⟨h, fun j _ => (if_neg (by simp)).symm⟩
  | cons x xs ih =>
    rw [List.length_cons] at hk
    obtain ⟨ih1, ih2⟩ := ih (h.putSt k x) (by omega : k + 1 + xs.length ≤ 24)
    rw [MCtx.putSts_cons]
    refine ⟨ih1, fun j hj => ?_⟩
    rw [ih2 j hj, MCtx.st_putSt h hj (by omega), List.length_cons]
    obtain hlt | rfl | hgt := lt_trichotomy j k
    · rw [if_neg (by omega), if_neg (by omega), if_neg (by omega)]
    · rw [if_neg (by omega), if_pos rfl, if_pos (by omega), Nat.sub_self, List.getD_cons_zero]
    · obtain ⟨i, rfl⟩ := Nat.exists_eq_add_of_lt hgt
      rw [show k + i + 1 - k = i + 1 by omega, show k + i + 1 - (k + 1) = i by omega, List.getD_cons_succ, if_neg (by omega : ¬k + i + 1 = k)]
      exact if_congr (by omega) rfl rfl

end

/-! ### Images of integers -/

theorem ofNat_image32 (a : ℤ) : BitVec.ofNat 32 (image 32 a) = BitVec.ofInt 32 a := by
  rw [image]
  exact BitVec.eq_of_toNat_eq (by rw [BitVec.toNat_ofNat, BitVec.toNat_ofInt]; omega)

theorem append_image64 (a : ℤ) :
    BitVec.ofNat 32 (image 64 a / 2 ^ 32) ++ BitVec.ofNat 32 (image 64 a % 2 ^ 32) = BitVec.ofInt 64 a := by
  have h : image 64 a < 2 ^ 64 := by
    rw [image]
    omega
  refine BitVec.eq_of_toNat_eq ?_
  rw [BitVec.toNat_append, BitVec.toNat_ofNat, BitVec.toNat_ofNat, Nat.mod_mod, Nat.mod_eq_of_lt (a := image 64 a / 2 ^ 32) (by omega),
    ← Nat.shiftLeft_add_eq_or_of_lt (Nat.mod_lt _ (by decide)), Nat.shiftLeft_eq, Nat.div_add_mod', BitVec.toNat_ofInt, image]

theorem toInt_image32 {a : ℤ} (h : |a| < 2 ^ 31) : (BitVec.ofNat 32 (image 32 a)).toInt = a := by
  rw [abs_lt] at h
  rw [ofNat_image32]
  exact BitVec.toInt_ofInt_eq_self (by decide) (by norm_num; omega) (by norm_num; omega)

theorem toInt_image64 {a : ℤ} (h : |a| < 2 ^ 63) :
    (BitVec.ofNat 32 (image 64 a / 2 ^ 32) ++ BitVec.ofNat 32 (image 64 a % 2 ^ 32)).toInt = a := by
  rw [abs_lt] at h
  rw [append_image64]
  exact BitVec.toInt_ofInt_eq_self (by decide) (by norm_num; omega) (by norm_num; omega)

/-! ### Setup of a triangle (09 R217) -/

/-- A, B and C of edge k of a triangle. -/
def edgeOf (xs ys : List ℤ) (k : ℕ) : ℤ × ℤ × ℤ :=
  (rGet ys ((k + 1) % 3) - rGet ys ((k + 2) % 3), rGet xs ((k + 2) % 3) - rGet xs ((k + 1) % 3),
    rGet xs ((k + 1) % 3) * rGet ys ((k + 2) % 3) - rGet xs ((k + 2) % 3) * rGet ys ((k + 1) % 3))
/-- Twice the signed area. -/
def triArea (xs ys : List ℤ) : ℤ := (edgeOf xs ys 0).1 * rGet xs 0 + (edgeOf xs ys 0).2.1 * rGet ys 0 + (edgeOf xs ys 0).2.2
def triSign (xs ys : List ℤ) : ℤ := if triArea xs ys < 0 then -1 else 1
/-- The edges that are top or left ones. -/
def triTopLeft (sg : ℤ) (es : List (ℤ × ℤ × ℤ)) : ℕ := (List.range 3).foldl (fun a k =>
  if 0 < sg * (es.getD k (0, 0, 0)).1 || ((es.getD k (0, 0, 0)).1 = 0 && 0 < sg * (es.getD k (0, 0, 0)).2.1) then a + 2 ^ k else a) 0

/-- The pixels of a tile that a triangle can cover, along one axis. -/
def boxLo (cs : List ℤ) (o : ℕ) : ℤ := max (pixSpan cs).1 o - o
def boxHi (cs : List ℤ) (o w t : ℕ) : ℤ := min (pixSpan cs).2 (min (o + w - 1) (t - 1)) - o

/-- Coordinates of the vertices that a lane holds: 0 for x, 1 for y. -/
def MCtx.verts (m : MCtx) (s : State) (o : ℕ) : List ℤ := (List.range 3).map fun k => sint 32 (m.inp s m.lead (4 * k + o)).toNat

/-- Registers 2 to 15 of the block: the area and the edges. -/
def setupEdges (sg area : ℤ) (es : List (ℤ × ℤ × ℤ)) : List ℕ :=
  [image 64 (sg * area) % 2 ^ 32, image 64 (sg * area) / 2 ^ 32] ++ es.flatMap fun e =>
    [image 32 (sg * e.1), image 32 (sg * e.2.1), image 64 (sg * e.2.2) % 2 ^ 32, image 64 (sg * e.2.2) / 2 ^ 32]
/-- Registers 16 to 23: the planes and the marks. -/
def setupPlanes (tl : ℕ) (flip : Bool) (v : ℕ → ℕ) : List ℕ :=
  ((List.range 3).map fun k => v (4 * k + 2)) ++ ((List.range 3).map fun k => f32Div f32One (v (4 * k + 3)))
    ++ [0, tl + 8 * b2n flip]

/-- No primitive, or one that the word culls. -/
def triCulled (w : MacroW) (area : ℤ) : Bool := area = 0 || (modBit w 4 && area < 0) || (modBit w 5 && 0 < area)

section
variable {s t : State} {m : MCtx}

theorem rastSetup_eq (hv : (vertexBad fun k => (m.inp s m.lead k).toNat) = none) : rastSetup s m =
    let xs := m.verts s 0
    let ys := m.verts s 1
    let es := (List.range 3).map (edgeOf xs ys)
    let area := triArea xs ys
    let sg : ℤ := if decide (area < 0) && !triCulled m.mw area then -1 else 1
    let r := m.rast s
    let x0 := boxLo xs r.ox
    let x1 := boxHi xs r.ox r.w r.rtw
    let y0 := boxLo ys r.oy
    let y1 := boxHi ys r.oy r.h r.rth
    let s1 := m.putSts s m.lead 2 (setupEdges sg area es)
    let s2 := m.putSts s1 m.lead 16 (setupPlanes (triTopLeft sg es) (area < 0) fun k => (m.inp s m.lead k).toNat)
    if triCulled m.mw area then rastNone r m (m.putSt s1 m.lead 22 0) [1, 16, 17, 18, 19, 20, 21, 23]
    else if decide (x1 < x0) || decide (y1 < y0) then rastNone r m s2 [1]
    else (m.putProg (m.putSt s2 m.lead 1 (x0.toNat + 2 ^ 8 * x1.toNat + 2 ^ 16 * y0.toNat + 2 ^ 24 * y1.toNat)) m.lead 1, .run) := by
  rw [rastSetup]
  dsimp only
  rw [hv]
  rfl

/-- A setup that has pixels to walk writes the whole block. -/
theorem rastSetup_run (h : rastSetup s m = (t, .run)) :
    let xs := m.verts s 0
    let ys := m.verts s 1
    let es := (List.range 3).map (edgeOf xs ys)
    let sg := triSign xs ys
    let v (k : ℕ) : ℕ := (m.inp s m.lead k).toNat
    let r := m.rast s
    let x0 := boxLo xs r.ox
    let x1 := boxHi xs r.ox r.w r.rtw
    let y0 := boxLo ys r.oy
    let y1 := boxHi ys r.oy r.h r.rth
    vertexBad v = none ∧ triArea xs ys ≠ 0 ∧ x0 ≤ x1 ∧ y0 ≤ y1 ∧
      t = m.putProg (m.putSt (m.putSts (m.putSts s m.lead 2 (setupEdges sg (triArea xs ys) es)) m.lead 16
        (setupPlanes (triTopLeft sg es) (triArea xs ys < 0) v)) m.lead 1
        (x0.toNat + 2 ^ 8 * x1.toNat + 2 ^ 16 * y0.toNat + 2 ^ 24 * y1.toNat)) m.lead 1 := by
  intro xs ys es sg v r x0 x1 y0 y1
  cases hv : vertexBad v with
  | some o =>
    rw [rastSetup] at h
    dsimp only at h
    rw [hv] at h
    cases h
  | none =>
    rw [rastSetup_eq hv] at h
    dsimp only at h
    by_cases hc : triCulled m.mw (triArea xs ys) = true
    · rw [if_pos hc] at h
      cases h
    rw [if_neg hc] at h
    by_cases hb : (decide (x1 < x0) || decide (y1 < y0)) = true
    · rw [if_pos hb] at h
      cases h
    rw [if_neg hb, Bool.eq_false_iff.mpr hc] at h
    simp only [triCulled, Bool.or_eq_true, decide_eq_true_eq, not_or, not_lt] at hc hb
    refine ⟨rfl, hc.1.1, hb.1, hb.2, ?_⟩
    simpa [sg, triSign] using (Prod.mk.inj h).1.symm

/-- The vertices of a setup that goes on lie within the coordinate limits (09 R215). -/
theorem vertexBad_none {v : ℕ → ℕ} (h : vertexBad v = none) {k o : ℕ} (hk : k < 3) (ho : o < 2) :
    -2 ^ 25 ≤ sint 32 (v (4 * k + o)) ∧ sint 32 (v (4 * k + o)) < 2 ^ 25 := by
  rw [vertexBad, List.findSome?_eq_none_iff] at h
  have hk := h k (List.mem_range.mpr hk)
  dsimp only at hk
  split_ifs at hk with h0 h1
  simp only [Bool.or_eq_true, decide_eq_true_eq] at h0 h1
  interval_cases o <;> omega

theorem rGet_verts (o j : ℕ) : rGet (m.verts s o) (j % 3) = (m.inp s m.lead (4 * (j % 3) + o)).toInt := by
  rw [MCtx.verts, rGet_map_range _ (Nat.mod_lt _ (by decide))]
  exact signedNat_toNat _

theorem abs_verts_le (h : (vertexBad fun k => (m.inp s m.lead k).toNat) = none) {o : ℕ} (ho : o < 2) (j : ℕ) :
    |rGet (m.verts s o) (j % 3)| ≤ 2 ^ 25 := by
  obtain ⟨h1, h2⟩ := vertexBad_none h (Nat.mod_lt j (by decide : 3 > 0)) ho
  rw [MCtx.verts, rGet_map_range _ (Nat.mod_lt _ (by decide)), abs_le]
  exact ⟨h1, h2.le⟩

end

/-! ### Sizes of edges and areas -/

section
variable {xs ys : List ℤ} (hx : ∀ j, |rGet xs (j % 3)| ≤ 2 ^ 25) (hy : ∀ j, |rGet ys (j % 3)| ≤ 2 ^ 25)

theorem abs_mul_le_of_le {a b M N : ℤ} (ha : |a| ≤ M) (hb : |b| ≤ N) : |a * b| ≤ M * N := by
  rw [abs_mul]
  exact mul_le_mul ha hb (abs_nonneg _) ((abs_nonneg _).trans ha)

include hx hy

theorem abs_edgeOf_le (k : ℕ) :
    |(edgeOf xs ys k).1| ≤ 2 ^ 26 ∧ |(edgeOf xs ys k).2.1| ≤ 2 ^ 26 ∧ |(edgeOf xs ys k).2.2| ≤ 2 ^ 51 := by
  have h1 := abs_mul_le_of_le (hx (k + 1)) (hy (k + 2))
  have h2 := abs_mul_le_of_le (hx (k + 2)) (hy (k + 1))
  have hx1 := hx (k + 1)
  have hx2 := hx (k + 2)
  have hy1 := hy (k + 1)
  have hy2 := hy (k + 2)
  simp only [edgeOf, abs_le] at *
  omega

theorem abs_triArea_le : |triArea xs ys| ≤ 2 ^ 53 := by
  obtain ⟨hA, hB, hC⟩ := abs_edgeOf_le hx hy 0
  have h1 := abs_mul_le_of_le hA (hx 0)
  have h2 := abs_mul_le_of_le hB (hy 0)
  rw [triArea]
  simp only [Nat.zero_mod] at h1 h2
  simp only [abs_le] at *
  omega

omit hx hy in
theorem abs_triSign_mul (a : ℤ) : |triSign xs ys * a| = |a| := by
  rw [triSign, abs_mul]
  split_ifs <;> simp

omit hx hy in
theorem triSign_mul_triArea : triSign xs ys * triArea xs ys = |triArea xs ys| := by
  rw [triSign]
  split_ifs with h
  · rw [abs_of_neg h, neg_one_mul]
  · rw [abs_of_nonneg (not_lt.mp h), one_mul]

end

/-! ### The block that setup leaves -/

theorem getLsbD_flags (p : ℕ → Bool) (b : Bool) {k : ℕ} (hk : k < 3) :
    (BitVec.ofNat 32 ((List.range 3).foldl (fun a k => if p k then a + 2 ^ k else a) 0 + 8 * b2n b)).getLsbD k = p k := by
  have hr : List.range 3 = [0, 1, 2] := rfl
  rw [hr, List.foldl_cons, List.foldl_cons, List.foldl_cons, List.foldl_nil]
  cases h0 : p 0 <;> cases h1 : p 1 <;> cases h2 : p 2 <;> cases b <;> interval_cases k <;> simp only [h0, h1, h2] <;> rfl

section
variable {s t : State} {m : MCtx}

/-- The registers of the block after a setup that has pixels to walk. -/
theorem rastSetup_block (hm : m.Holds s m.lead) (h : rastSetup s m = (t, .run)) :
    let xs := m.verts s 0
    let ys := m.verts s 1
    let es := (List.range 3).map (edgeOf xs ys)
    let sg := triSign xs ys
    let r := m.rast s
    let v (k : ℕ) : ℕ := (m.inp s m.lead k).toNat
    (∀ i, i < 14 → m.st t m.lead (2 + i) = BitVec.ofNat 32 ((setupEdges sg (triArea xs ys) es).getD i 0)) ∧
    (∀ i, i < 8 → m.st t m.lead (16 + i) = BitVec.ofNat 32 ((setupPlanes (triTopLeft sg es) (triArea xs ys < 0) v).getD i 0)) ∧
    m.st t m.lead 1 = BitVec.ofNat 32 ((boxLo xs r.ox).toNat + 2 ^ 8 * (boxHi xs r.ox r.w r.rtw).toNat
      + 2 ^ 16 * (boxLo ys r.oy).toNat + 2 ^ 24 * (boxHi ys r.oy r.h r.rth).toNat) := by
  intro xs ys es sg r v
  obtain ⟨-, -, -, -, rfl⟩ := rastSetup_run h
  have l1 : (setupEdges sg (triArea xs ys) es).length = 14 := rfl
  have l2 : (setupPlanes (triTopLeft sg es) (triArea xs ys < 0) v).length = 8 := rfl
  generalize setupEdges sg (triArea xs ys) es = E at l1 ⊢
  generalize setupPlanes (triTopLeft sg es) (triArea xs ys < 0) v = P at l2 ⊢
  generalize (boxLo xs r.ox).toNat + _ + _ + _ = b
  obtain ⟨m1, r1⟩ := MCtx.st_putSts (xs := E) (k := 2) hm (by omega)
  obtain ⟨m2, r2⟩ := MCtx.st_putSts (xs := P) (k := 16) m1 (by omega)
  have m3 := m2.putSt 1 b
  have r4 : ∀ j, j < 24 → j ≠ 0 → j ≠ 1 → m.st (m.putProg (m.putSt (m.putSts (m.putSts s m.lead 2 E) m.lead 16 P) m.lead 1 b) m.lead 1)
      m.lead j = m.st (m.putSts (m.putSts s m.lead 2 E) m.lead 16 P) m.lead j := fun j hj h0 h1 => by
    rw [MCtx.putProg, MCtx.st_putSt m3 hj (by decide), if_neg h0, MCtx.st_putSt m2 hj (by decide), if_neg h1]
  refine ⟨fun i hi => ?_, fun i hi => ?_, ?_⟩
  · rw [r4 _ (by omega) (by omega) (by omega), r2 _ (by omega), if_neg (by omega), r1 _ (by omega), if_pos (by omega), Nat.add_sub_cancel_left]
  · rw [r4 _ (by omega) (by omega) (by omega), r2 _ (by omega), if_pos (by omega), Nat.add_sub_cancel_left]
  · rw [MCtx.putProg, MCtx.st_putSt m3 (by decide) (by decide), if_neg (by decide), MCtx.st_putSt m2 (by decide) (by decide), if_pos rfl]

/-- Area, edges, planes and marks. -/
theorem rastSetup_regs (hm : m.Holds s m.lead) (h : rastSetup s m = (t, .run)) :
    let xs := m.verts s 0
    let ys := m.verts s 1
    let sg := triSign xs ys
    let reg (k : ℕ) : W32 := m.st t m.lead k
    triArea xs ys ≠ 0 ∧ (reg 3 ++ reg 2).toInt = |triArea xs ys| ∧
    ∀ k, k < 3 → (reg (4 + 4 * k)).toInt = sg * (edgeOf xs ys k).1 ∧ (reg (5 + 4 * k)).toInt = sg * (edgeOf xs ys k).2.1
      ∧ (reg (7 + 4 * k) ++ reg (6 + 4 * k)).toInt = sg * (edgeOf xs ys k).2.2
      ∧ reg (19 + k) = BitVec.ofNat 32 (f32Div f32One (m.inp s m.lead (4 * k + 3)).toNat)
      ∧ ((reg 23).getLsbD k = true ↔ 0 < sg * (edgeOf xs ys k).1 ∨ (edgeOf xs ys k).1 = 0 ∧ 0 < sg * (edgeOf xs ys k).2.1) := by
  intro xs ys sg reg
  obtain ⟨hv, harea, -⟩ := rastSetup_run h
  obtain ⟨hE, hP, -⟩ := rastSetup_block hm h
  have hx : ∀ j, |rGet xs (j % 3)| ≤ 2 ^ 25 := abs_verts_le hv (by decide)
  have hy : ∀ j, |rGet ys (j % 3)| ≤ 2 ^ 25 := abs_verts_le hv (by decide)
  have hA := abs_triArea_le hx hy
  refine ⟨harea, ?_, fun k hk => ?_⟩
  · have h2 : reg 2 = BitVec.ofNat 32 (image 64 (sg * triArea xs ys) % 2 ^ 32) := hE 0 (by decide)
    have h3 : reg 3 = BitVec.ofNat 32 (image 64 (sg * triArea xs ys) / 2 ^ 32) := hE 1 (by decide)
    rw [h2, h3, toInt_image64 (by rw [abs_triSign_mul]; omega), triSign_mul_triArea]
  · obtain ⟨bA, bB, bC⟩ := abs_edgeOf_le hx hy k
    have h4 : reg (4 + 4 * k) = BitVec.ofNat 32 (image 32 (sg * (edgeOf xs ys k).1)) := by
      have := hE (2 + 4 * k) (by omega)
      interval_cases k <;> exact this
    have h5 : reg (5 + 4 * k) = BitVec.ofNat 32 (image 32 (sg * (edgeOf xs ys k).2.1)) := by
      have := hE (3 + 4 * k) (by omega)
      interval_cases k <;> exact this
    have h6 : reg (6 + 4 * k) = BitVec.ofNat 32 (image 64 (sg * (edgeOf xs ys k).2.2) % 2 ^ 32) := by
      have := hE (4 + 4 * k) (by omega)
      interval_cases k <;> exact this
    have h7 : reg (7 + 4 * k) = BitVec.ofNat 32 (image 64 (sg * (edgeOf xs ys k).2.2) / 2 ^ 32) := by
      have := hE (5 + 4 * k) (by omega)
      interval_cases k <;> exact this
    have h19 : reg (19 + k) = BitVec.ofNat 32 (f32Div f32One (m.inp s m.lead (4 * k + 3)).toNat) := by
      have := hP (3 + k) (by omega)
      interval_cases k <;> exact this
    refine ⟨?_, ?_, ?_, h19, ?_⟩
    · rw [h4, toInt_image32 (by rw [abs_triSign_mul]; omega)]
    · rw [h5, toInt_image32 (by rw [abs_triSign_mul]; omega)]
    · rw [h6, h7, toInt_image64 (by rw [abs_triSign_mul]; omega)]
    · have h23 : reg 23 = _ := hP 7 (by decide)
      have hflag := getLsbD_flags (fun k => 0 < sg * (((List.range 3).map (edgeOf xs ys)).getD k (0, 0, 0)).1
        || ((((List.range 3).map (edgeOf xs ys)).getD k (0, 0, 0)).1 = 0 && 0 < sg * (((List.range 3).map (edgeOf xs ys)).getD k (0, 0, 0)).2.1))
        (triArea xs ys < 0) hk
      have hget : ((List.range 3).map (edgeOf xs ys)).getD k (0, 0, 0) = edgeOf xs ys k := by
        simp [List.getD_eq_getElem?_getD, List.getElem?_map, List.getElem?_range hk]
      rw [h23]
      refine (Bool.eq_iff_iff.mp hflag).trans ?_
      simp only [hget, Bool.or_eq_true, Bool.and_eq_true, decide_eq_true_eq]

/-- Four bytes of a register. -/
theorem bytes_of_packed {a b c d : ℕ} (ha : a < 256) (hb : b < 256) (hc : c < 256) (hd : d < 256) :
    let n := (BitVec.ofNat 32 (a + 2 ^ 8 * b + 2 ^ 16 * c + 2 ^ 24 * d)).toNat
    n % 256 = a ∧ n / 2 ^ 8 % 256 = b ∧ n / 2 ^ 16 % 256 = c ∧ n / 2 ^ 24 = d := by
  rw [BitVec.toNat_ofNat]
  omega

/-- One axis of the box, where it is not empty. -/
theorem box_axis {c : ℕ → ℤ} {o w n : ℕ} (h : boxLo [c 0, c 1, c 2] o ≤ boxHi [c 0, c 1, c 2] o w n) (hw : w ≤ 256) :
    (boxLo [c 0, c 1, c 2] o).toNat < 256 ∧ (boxHi [c 0, c 1, c 2] o w n).toNat < 256 ∧ ∀ p : ℕ, p < w →
      ((boxLo [c 0, c 1, c 2] o).toNat ≤ p ∧ p ≤ (boxHi [c 0, c 1, c 2] o w n).toNat ↔ (o + p : ℤ) < n ∧ meetsAt c (o + p)) := by
  simp only [meetsAt_iff]
  unfold boxLo boxHi at h ⊢
  generalize pixSpan [c 0, c 1, c 2] = X at h ⊢
  refine ⟨by omega, by omega, fun p hp => ?_⟩
  omega

/-- The box: pixels of the tile and the target that the triangle meets. -/
theorem rastSetup_box (hm : m.Holds s m.lead) (h : rastSetup s m = (t, .run)) (hw : m.w.tileW ≤ 256) (hh : m.w.tileH ≤ 256) :
    let r := m.rast s
    let b := (m.st t m.lead 1).toNat
    (∀ p : ℕ, p < m.w.tileW → (b % 256 ≤ p ∧ p ≤ b / 2 ^ 8 % 256 ↔
      (r.ox + p : ℤ) < r.rtw ∧ meetsAt (rGet (m.verts s 0)) (r.ox + p))) ∧
    ∀ p : ℕ, p < m.w.tileH → (b / 2 ^ 16 % 256 ≤ p ∧ p ≤ b / 2 ^ 24 ↔
      (r.oy + p : ℤ) < r.rth ∧ meetsAt (rGet (m.verts s 1)) (r.oy + p)) := by
  intro r b
  obtain ⟨-, -, hbx, hby, -⟩ := rastSetup_run h
  obtain ⟨-, -, hb⟩ := rastSetup_block hm h
  obtain ⟨x0, x1, hX⟩ := box_axis (c := rGet (m.verts s 0)) hbx hw
  obtain ⟨y0, y1, hY⟩ := box_axis (c := rGet (m.verts s 1)) hby hh
  obtain ⟨b0, b1, b2, b3⟩ := bytes_of_packed x0 x1 y0 y1
  have hb' : b = _ := congrArg BitVec.toNat hb
  refine ⟨fun p hp => Iff.trans ?_ (hX p hp), fun p hp => Iff.trans ?_ (hY p hp)⟩
  · exact iff_of_eq (congrArg₂ (· ≤ p ∧ p ≤ ·) ((congrArg (· % 256) hb').trans b0) ((congrArg (· / 2 ^ 8 % 256) hb').trans b1))
  · exact iff_of_eq (congrArg₂ (· ≤ p ∧ p ≤ ·) ((congrArg (· / 2 ^ 16 % 256) hb').trans b2) ((congrArg (· / 2 ^ 24) hb').trans b3))

end

end Sys2Proof.Machine
end

/-! PROOFS. O4: the statement. -/

section
namespace Sys2Proof.Machine

/-! ### O4 -/

section
variable {acc sa sb : ℕ} {ps : List FVal} {win : Bool}

/-- A block step of finite terms that are not all zeros. -/
theorem blockStep_fin (hbad : ¬blockBad ps sa sb) (hinf : ∀ s, .inf s ∉ ps) {emax : ℤ} {cut : ℚ → ℚ}
    (hlo : ∃ p ∈ ps, (2 : ℚ) ^ emax ≤ |finValue p|) (hhi : ∀ p ∈ ps, |finValue p| < (2 : ℚ) ^ (emax + 1))
    (hcut : ∀ a, cut a = if win = true then cutVal ((2 : ℚ) ^ (emax - 27)) a else a) :
    ((ps.map fun p => cut (finValue p)).sum = 0 → blockStep acc ps sa sb win = addBlock acc (0, 0)) ∧
    ((ps.map fun p => cut (finValue p)).sum ≠ 0 → ∃ b, Rounded fmtFp32 .rne
      (((ps.map fun p => cut (finValue p)).sum * (2 : ℚ) ^ ((sa : ℤ) - 127) * (2 : ℚ) ^ ((sb : ℤ) - 127) : ℚ) : ℝ) b
        ∧ blockStep acc ps sa sb win = addBlock acc b) := by
  obtain ⟨g, hp, hg, hne⟩ := exists_path (isFin_of_block hbad hinf) hlo hhi hcut
  rw [blockStep_eq hbad]
  exact ⟨fun h0 => by rw [sumRound_cancel hp hg hne h0], fun h => ⟨_, sumRound_block_rounded hp hg h, rfl⟩⟩

end

/-- Settles O4, clause by clause: block steps by the exact sum of the terms that a path keeps, setup by the registers of the
block that it writes, depth, colours, footprints and weights by single roundings, the box test by folds over the order of
images, and the queues of a primitive by spans of tiles. -/
theorem macroSteps : Obligations.MacroSteps := by
  unfold Obligations.MacroSteps
  intro rounded q fin block
  refine ⟨fun acc ps sa sb win => ?_, fun s t m g hg hl hs hb hw hh h => ?_, fun r x y e z he => ?_, fun b i src dst con hi => ?_,
    fun c h0 _ => unorm8_rounded h0, fun x hx h0 => log128_spec hx h0, fun tex free lev k u v hk => ?_,
    fun c w hc h0 hw => f32Scale_rounded hc h0 hw, fun r b => ?_, fun x hx y hy => ?_, fun b size thr v hx _ ht hv => ?_⟩
  · intro nan
    refine ⟨blockStep_bad, fun hn s hs => by rw [blockStep_eq hn, sumRound_inf hn hs]; rfl, fun hn hinf _ => ⟨fun hz => ?_, ?_⟩⟩
    · rw [blockStep_eq hn, sumRound_zeros fun p hp => ⟨isFin_of_block hn hinf p hp, hz p hp⟩]
      rfl
    · intro emax hlo hhi g cut z
      exact blockStep_fin (cut := fun a => if win = true then cut a else a) hn hinf hlo hhi fun a => rfl
  · have hm : m.Holds s m.lead := ⟨⟨g, hg, hs⟩, hb⟩
    obtain ⟨ha, harea, hreg⟩ := rastSetup_regs hm h
    obtain ⟨hX, hY⟩ := rastSetup_box hm h hw hh
    intro x y A B C area sg r reg
    have hedge : ∀ k, edgeOf (m.verts s 0) (m.verts s 1) k = (A k, B k, C k) := fun k => by
      simp only [edgeOf, rGet_verts]
      rfl
    have hx : ∀ k, k < 3 → rGet (m.verts s 0) k = x k := fun k hk =>
      (congrArg (rGet _) (Nat.mod_eq_of_lt hk).symm).trans (rGet_verts 0 k)
    have hy : ∀ k, k < 3 → rGet (m.verts s 1) k = y k := fun k hk =>
      (congrArg (rGet _) (Nat.mod_eq_of_lt hk).symm).trans (rGet_verts 1 k)
    have htri : triArea (m.verts s 0) (m.verts s 1) = area := by
      rw [triArea, hedge, hx 0 (by decide), hy 0 (by decide)]
    have hsg : triSign (m.verts s 0) (m.verts s 1) = sg := by rw [triSign, htri]
    simp only [hedge, htri, hsg] at ha harea hreg
    refine ⟨ha, harea, hreg, fun p hp => ?_, fun p hp => ?_⟩
    · exact (hX p hp).trans (and_congr_right fun _ => meetsAt_congr hx _)
    · exact (hY p hp).trans (and_congr_right fun _ => meetsAt_congr hy _)
  · refine ⟨inside_iff he, fun hr hz ha => ?_⟩
    obtain ⟨n, hn, h0, h1⟩ := zAt_rounded he hr hz ha
    rw [hn] at h0 h1
    exact ⟨h0, h1⟩
  · exact ⟨blendChan_off, fun h hb => blendChan_over hi h hb⟩
  · intro at_ x y part share w hx hy
    obtain ⟨ix, ax, bx⟩ := floorFrac_eq (free := free) hx
    obtain ⟨iy, ay, by_⟩ := floorFrac_eq (free := free + 2) hy
    refine ⟨congrArg (· + ((k % 2 : ℕ) : ℤ)) ix, congrArg (· + ((k / 2 : ℕ) : ℤ)) iy, ?_⟩
    exact (Nat.cast_mul _ _).trans (congrArg₂ (· * ·) (bilinear_share ax bx _) (bilinear_share ay by_ _))
  · exact ⟨fun n h => boxHit_some h, fun h hp => boxHit_none h hp⟩
  · obtain ⟨⟨h1, h2⟩, h3, h4⟩ := valueIn_nextF hx hy
    exact ⟨fun _ => ⟨h1, h2⟩, fun _ => ⟨h3, h4⟩⟩
  · intro meets box limit small
    exact binQueues_spec hx ht hv (P := meets 0) (Q := meets 1) (fun X => Iff.rfl) (fun X => Iff.rfl) Iff.rfl

end Sys2Proof.Machine
end
